-- ==== Sys2Proof/Word.lean ====
section
/-!
DEFINITION. The word types and their plainest arithmetic.  Memory is little-endian (R3).
-/
namespace Sys2Proof

abbrev Byte := BitVec 8
abbrev Half := BitVec 16
abbrev Word := BitVec 32
abbrev DWord := BitVec 64
/-- A canonical instruction word (R84). -/
abbrev Canon := BitVec 96

/-- The word of one bit: all 32 bits equal to `b`. -/
def Word.fill (b : Bool) : Word := if b then 0xFFFFFFFF else 0

end Sys2Proof
end

