-- ==== Sys2Proof/Syntax.lean ====
section
/-!
DEFINITION. The syntax: one constructor for each row of the opcode table.  An instruction's constructor carries the
fields of its canonical word (R84) and an event's constructor names the place where the event happens and the data
that comes from outside the module.  The two encodings that the table gives three and two rows, `lcset` and `rbind`,
have one constructor a row.
-/
namespace Sys2Proof

/-- The type codes of R87, in code order. -/
inductive Ty where
  | b32 | i32 | n32 | f32 | bf16x2 | bf16l | bf16h | f16
  | e4m3 | e5m2 | e2m1 | l6 | i8 | n8 | i16 | n16
  deriving DecidableEq, Repr

/-- The fields of a canonical word but for OP, which the constructor names (R84).  `fn` is FN, `pg` is PG. -/
structure Fields where
  s : Bool := false
  fn : BitVec 6 := 0
  pg : BitVec 4 := 7
  d : BitVec 8 := 248
  a : BitVec 8 := 248
  b : BitVec 8 := 248
  c : BitVec 8 := 248
  t : Ty := .b32
  m : BitVec 3 := 0
  sc : BitVec 3 := 0
  x : BitVec 3 := 0
  imm : Word := 0
  deriving DecidableEq, Repr

/-- The page sizes of R245. -/
inductive PageSize where
  | kib64 | mib2 | gib1
  deriving DecidableEq, Repr

/-- The PCI Express AtomicOps of R262 and R265. -/
inductive AtomicOp where
  | fetchAdd | swap | cas
  deriving DecidableEq, Repr

/-- What the dispatcher of another module of a pod gang reports (R381). -/
inductive PodReport where
  | started (module podn : BitVec 7) (ngrp : BitVec 32) (coh : BitVec 4) (bss : BitVec 2)
  | failed (module : BitVec 7)
  deriving DecidableEq, Repr

/-- How a collective ends between the modules (R411, R414). -/
inductive CollectiveEnd where
  /-- Every module has supplied its contribution. -/
  | agree
  /-- The modules differ in instruction, FN, T, L, N or root: cause 6. -/
  | differ
  /-- Another module's source or destination is not mapped. -/
  | missed
  /-- A peer completes with an error status: cause 5. -/
  | error
  deriving DecidableEq, Repr

/-- The parts that report in bring-up (R425, R426). -/
inductive BringUp where
  | sec | pl0 | pl1 | disp | fw | die (n : BitVec 4) | hbm (n : BitVec 5) | lpd (n : BitVec 5) | ual (port : BitVec 5)
  deriving DecidableEq, Repr

/-- A UALink transaction that arrives from a peer module (R402, R408): each names an address of this module. -/
inductive PeerOp where
  | read (addr len : Nat)
  | write (addr : Nat) (bytes : List Byte)
  | atomic (addr : Nat) (rule : Nat) (t : Ty) (value : Word)
  deriving DecidableEq, Repr

/-- The instructions and the events of the machine. -/
inductive Instr where
  /-- R136. Changes no state; with the step marker it ends the step. -/
  | nop (f : Fields)
  /-- R137. Transfers the thread to the header at an IMM offset in 8-byte units, checked under R81. -/
  | bra (f : Fields)
  /-- R138. Transfers the thread to the code offset held in a register. -/
  | brx (f : Fields)
  /-- R139. Branches through a jump table in a pool block; an index out of range falls through. -/
  | brt (f : Fields)
  /-- R141. Writes a link pair and transfers to an entry block at an IMM offset. -/
  | call (f : Fields)
  /-- R141. Writes a link pair and transfers to the entry block whose code offset a register holds. -/
  | callx (f : Fields)
  /-- R142. Returns through a link pair and restores the pending reconvergence point. -/
  | ret (f : Fields)
  /-- R144. Carries a boundary and parks the thread until its reconvergence set is ready. -/
  | join (f : Fields)
  /-- R145. Ends the step at a named scope and can elect one thread into a predicate. -/
  | step (f : Fields)
  /-- R146. Compares a memory word with a comparand and parks the thread until the comparison holds. -/
  | waitv (f : Fields)
  /-- R148. The thread's last boundary; the thread leaves its domain. -/
  | exit (f : Fields)
  /-- R149. Traps the group with the user-trap cause and a code. -/
  | trap (f : Fields)
  /-- R149. Traps with the breakpoint cause when DBG is set, and otherwise acts as nop. -/
  | bkpt (f : Fields)
  /-- R150. Sets or clears the group's fault continuation at the next commit. -/
  | contv (f : Fields)
  /-- R153. Waits for the fill, restores the predicates from the fault frame and re-issues at the stop PC. -/
  | resume (f : Fields)
  /-- R155. Queues a service request with the quad's Gaffer after the next commit. -/
  | svc (f : Fields)
  /-- R166. Integer add, wrapping or saturating. -/
  | add (f : Fields)
  /-- R166. Integer subtract, wrapping or saturating. -/
  | sub (f : Fields)
  /-- R166. Three-operand integer add, wrapping or saturating. -/
  | add3 (f : Fields)
  /-- R167. Exact integer product; keeps the low word, the high word or both. -/
  | mul (f : Fields)
  /-- R167. Exact integer multiply-add; keeps the low word, the high word or both. -/
  | mad (f : Fields)
  /-- R168. Integer minimum under T. -/
  | min (f : Fields)
  /-- R168. Integer maximum under T. -/
  | max (f : Fields)
  /-- R168. Integer absolute value, wrapping or saturating. -/
  | abs (f : Fields)
  /-- R168. Integer negation, wrapping or saturating. -/
  | neg (f : Fields)
  /-- R169. Computes min(a + b, c) exactly. -/
  | addmin (f : Fields)
  /-- R170. Bitwise AND. -/
  | and (f : Fields)
  /-- R170. Bitwise OR. -/
  | or (f : Fields)
  /-- R170. Bitwise XOR. -/
  | xor (f : Fields)
  /-- R170. Bitwise NOT. -/
  | not (f : Fields)
  /-- R171. Applies a three-input Boolean table from IMM to each bit position. -/
  | bitfn (f : Fields)
  /-- R172. Logical shift left. -/
  | shl (f : Fields)
  /-- R172. Logical shift right. -/
  | shr (f : Fields)
  /-- R172. Arithmetic shift right. -/
  | sra (f : Fields)
  /-- R172. Rotates left or right. -/
  | rot (f : Fields)
  /-- R172. Funnel shift of a 64-bit pair. -/
  | fsh (f : Fields)
  /-- R173. Extracts a bit field, with sign or zero extension. -/
  | bfx (f : Fields)
  /-- R173. Inserts a bit field. -/
  | bfi (f : Fields)
  /-- R174. Counts leading zero bits. -/
  | clz (f : Fields)
  /-- R174. Counts one bits. -/
  | popc (f : Fields)
  /-- R174. Reverses the bit order. -/
  | brev (f : Fields)
  /-- R175. Sets a predicate from an integer comparison. -/
  | setp (f : Fields)
  /-- R176. Selects one of two values by a predicate. -/
  | sel (f : Fields)
  /-- R177. Moves between registers and predicates. -/
  | mov (f : Fields)
  /-- R178. Computes a + b × 2^k + c. -/
  | lea (f : Fields)
  /-- R179. Logical operation on predicates. -/
  | pset (f : Fields)
  /-- R180. Deferred integer quotient; a zero divisor gives 0xFFFFFFFF. -/
  | idiv (f : Fields)
  /-- R180. Deferred integer remainder. -/
  | irem (f : Fields)
  /-- R181. Floating add, rounded once under M. -/
  | fadd (f : Fields)
  /-- R181. Floating subtract, rounded once under M. -/
  | fsub (f : Fields)
  /-- R181. Floating multiply, rounded once under M. -/
  | fmul (f : Fields)
  /-- R181. Fused multiply-add, rounded once. -/
  | ffma (f : Fields)
  /-- R182. Floating minimum under R53. -/
  | fmin (f : Fields)
  /-- R182. Floating maximum under R53. -/
  | fmax (f : Fields)
  /-- R183. Negates, clears or copies sign bits. -/
  | fsgn (f : Fields)
  /-- R184. Sets a predicate from a floating comparison. -/
  | fsetp (f : Fields)
  /-- R185. Rounded floating add, then minimum with c. -/
  | faddmin (f : Fields)
  /-- R186. BF16 dot product of two pairs plus an FP32 value, rounded once. -/
  | fdot2 (f : Fields)
  /-- R187. Multiplies by a power of two. -/
  | fscale (f : Fields)
  /-- R188. Rounds to an integral value under M. -/
  | frnd (f : Fields)
  /-- R189. Tests a value's class against a mask. -/
  | fclass (f : Fields)
  /-- R190. Deferred, correctly rounded FP32 division. -/
  | fdiv (f : Fields)
  /-- R190. Deferred, correctly rounded FP32 square root. -/
  | fsqrt (f : Fields)
  /-- R190. Deferred reciprocal within 1 ulp. -/
  | frcp (f : Fields)
  /-- R190. Deferred reciprocal square root within 1 ulp. -/
  | frsq (f : Fields)
  /-- R190. Deferred base-2 exponential. -/
  | fex2 (f : Fields)
  /-- R190. Deferred base-2 logarithm. -/
  | flg2 (f : Fields)
  /-- R190. Deferred sine or cosine. -/
  | ftrig (f : Fields)
  /-- R190. Deferred hyperbolic tangent. -/
  | ftanh (f : Fields)
  /-- R191. Rounds FP32 to BF16 precision under M. -/
  | cvt (f : Fields)
  /-- R192. Converts between FP32 and 32-bit integers. -/
  | cvti (f : Fields)
  /-- R193. Packs narrowed values into a register. -/
  | pack (f : Fields)
  /-- R194. Unpacks one narrow element of a register. -/
  | unpack (f : Fields)
  /-- R195. Sign- or zero-extends the low w bits. -/
  | ext (f : Fields)
  /-- R202. Cohort-synchronous lane shuffle. -/
  | lshf (f : Fields)
  /-- R203. Cohort-synchronous reduction across lanes. -/
  | lred (f : Fields)
  /-- R203. Cohort-synchronous prefix scan across lanes. -/
  | lscan (f : Fields)
  /-- R204. Gathers a predicate from every active lane of a segment. -/
  | lpoll (f : Fields)
  /-- R205. Broadcasts one lane's value to its segment. -/
  | lbcast (f : Fields)
  /-- R206. Finds the lanes of a segment that hold the same key. -/
  | lpeer (f : Fields)
  /-- R207. Intersects two lane-held lists. -/
  | lisect (f : Fields)
  /-- R208. Compacts the values of chosen lanes. -/
  | lcomp (f : Fields)
  /-- R208. Ranks keys across the lanes of a segment. -/
  | lrank (f : Fields)
  /-- R209. Returns an activity or position lane mask. -/
  | lmask (f : Fields)
  /-- R230. Deferred load from global memory, widened under T. -/
  | ld (f : Fields)
  /-- R231. Buffers a write to global memory under a collision rule. -/
  | st (f : Fields)
  /-- R232. Buffers a resolved write and returns its fetch value at the boundary. -/
  | fwr (f : Fields)
  /-- R233. Conditional write against the base value; its predicate lands at the boundary. -/
  | cwr (f : Fields)
  /-- R230. Deferred load from scratchpad. -/
  | ldq (f : Fields)
  /-- R231. Buffers a write to scratchpad under a collision rule. -/
  | stq (f : Fields)
  /-- R234. Loads a literal word from a pool block. -/
  | ldk (f : Fields)
  /-- R235. Writes a segment register, checked for a reserved LIM. -/
  | sgset (f : Fields)
  /-- R235. Reads a segment register into a register pair. -/
  | sgget (f : Fields)
  /-- R264. Cache prefetch hint; affects timing only. -/
  | pref (f : Fields)
  /-- R264. Cache eviction hint; affects timing only. -/
  | evict (f : Fields)
  /-- R265. Queues a 32-bit AtomicOp on a SYSTEM page, performed at the commit. -/
  | satom (f : Fields)
  /-- R266. Probes or walks the translation and returns attributes and the home. -/
  | xlat (f : Fields)
  /-- R290. Copy request between global memory and scratchpad. -/
  | cpy (f : Fields)
  /-- R291. Tile load, store or MX import with format conversion. -/
  | cpyt (f : Fields)
  /-- R292. Multicast copy to the quads of a mask under a tag. -/
  | cpym (f : Fields)
  /-- R293. Gathers records by an index list into scratchpad. -/
  | cpyg (f : Fields)
  /-- R294. Arms a landing counter with a target at the commit. -/
  | lcsetArm (f : Fields)
  /-- R294. Binds a counter to a multicast tag and region at the commit. -/
  | lcsetBind (f : Fields)
  /-- R294. Frees a counter's multicast binding at the commit. -/
  | lcsetUnbind (f : Fields)
  /-- R295. Samples a landing counter field. -/
  | lcget (f : Fields)
  /-- R296. Binds a ring from a scratchpad descriptor at the commit. -/
  | rbindBind (f : Fields)
  /-- R296. Unbinds a ring at the commit; its waiting puts and messages are discarded. -/
  | rbindFree (f : Fields)
  /-- R297. Acquires the ring's head slot at the boundary, or parks. -/
  | racq (f : Fields)
  /-- R298. rrel releases the oldest acquired slot at the commit. -/
  | rrel (f : Fields)
  /-- R299. Puts bytes into the next slot of a local ring. -/
  | rput (f : Fields)
  /-- R300. Sends a message to a port of another quad. -/
  | send (f : Fields)
  /-- R297. Samples a ring's status word. -/
  | rhead (f : Fields)
  /-- R350. Maps slots to a run of tile names, waiting for free slots. -/
  | talloc (f : Fields)
  /-- R350. Releases a run of tile names. -/
  | tfree (f : Fields)
  /-- R351. Gives a tile handle to a cohort's channel. -/
  | tgive (f : Fields)
  /-- R351. Takes the oldest posting of a channel at the commit, or parks. -/
  | ttake (f : Fields)
  /-- R354. Loads a stored tile into a free handle through the copy engine. -/
  | tld (f : Fields)
  /-- R354. Stores a handle's tile to memory. -/
  | tst (f : Fields)
  /-- R355. Cohort-synchronous read of tile elements. -/
  | tget (f : Fields)
  /-- R355. Cohort-synchronous write of tile elements at the commit. -/
  | tset (f : Fields)
  /-- R352. Queries a tile name's state and the quad's free slots. -/
  | tqry (f : Fields)
  /-- R356. Builds a weight-load record and updates the Basin handle's binding. -/
  | wld (f : Fields)
  /-- R357. Builds a multiply-accumulate record into a Basin region. -/
  | mma (f : Fields)
  /-- R358. Submits an array of tile-task records. -/
  | mtaskq (f : Fields)
  /-- R359. Binds a Basin handle to a region, waiting for rows. -/
  | balloc (f : Fields)
  /-- R359. Unbinds a Basin handle. -/
  | bfree (f : Fields)
  /-- R360. Builds a record that zeroes rows with an explicit or pending anchor. -/
  | binit (f : Fields)
  /-- R361. Builds a resolve record through the Lehr. -/
  | rslv (f : Fields)
  /-- R363. Row maximum, argmax, zero test, or read and clear of the resolve status. -/
  | bcmp (f : Fields)
  /-- R364. Moves Basin elements to lanes, resolved or raw. -/
  | bmov (f : Fields)
  /-- R365. Saves raw Basin rows to memory. -/
  | bsave (f : Fields)
  /-- R365. Restores raw Basin rows from memory. -/
  | brst (f : Fields)
  /-- R366. Shifts the anchors of Basin elements. -/
  | bscale (f : Fields)
  /-- R353. Returns a tile's row zero mask. -/
  | tzf (f : Fields)
  /-- R315. Binds a stream to a slot at the commit. -/
  | sopen (f : Fields)
  /-- R316. Intersects two streams into a local ring. -/
  | sisect (f : Fields)
  /-- R317. Scans a stream for non-zero elements into scratchpad. -/
  | nzscan (f : Fields)
  /-- R318. Gathers the rows that a stream indexes into tile handles. -/
  | sgath (f : Fields)
  /-- R316. Merges two streams into a local ring. -/
  | smerge (f : Fields)
  /-- R316. Counts the matches of two streams. -/
  | scount (f : Fields)
  /-- R315. Unbinds a stream at the commit. -/
  | sclose (f : Fields)
  /-- R319. Samples a stream's status. -/
  | sstat (f : Fields)
  /-- R415. Fire-and-forget store of 1 to 4 words to a peer module. -/
  | xput (f : Fields)
  /-- R415. Reads 1 to 4 words at a peer's home slice. -/
  | xget (f : Fields)
  /-- R415. Fetch-and-op at a peer's home. -/
  | xfwr (f : Fields)
  /-- R416. All-gather among the modules of a pod gang. -/
  | xallg (f : Fields)
  /-- R416. Deterministic reduction among the modules of a pod gang. -/
  | xred (f : Fields)
  /-- R416. Broadcast from a root module. -/
  | xbcst (f : Fields)
  /-- R417. Queries module rank, late count, ports or pending remote operations. -/
  | xqry (f : Fields)
  /-- R417. Reads 16 bytes of a queue's running hash. -/
  | digest (f : Fields)
  /-- R393. Places spawn records on the core's deque at the commit. -/
  | spawn (f : Fields)
  /-- R394. Writes a launch record into a queue at the commit. -/
  | launch (f : Fields)
  /-- R395. Saves the group at the commit if a candidate waits. -/
  | yield (f : Fields)
  /-- R395. Sets the cohort's role at the commit. -/
  | role (f : Fields)
  /-- R395. Sets the group's priority class at the commit. -/
  | prio (f : Fields)
  /-- R395. Sets the thread's %vtime threshold. -/
  | tmset (f : Fields)
  /-- R156. Cohort-synchronous acquisition of extended register blocks. -/
  | xacq (f : Fields)
  /-- R156. Cohort-synchronous release of extended register blocks. -/
  | xrel (f : Fields)
  /-- R157. Reads a special register; the value lands at the boundary. -/
  | srget (f : Fields)
  /-- R157. Writes a writable special register at once. -/
  | srset (f : Fields)
  /-- R19. A domain's last arrival and deferred results are in; the commit unit applies the commit event, lands deferred results, advances the counters and releases the domain. -/
  | stepBoundaryComplete (g d : Nat)
  /-- R116. A deferred result reaches the pending bank and the outstanding count falls by one. -/
  | deferredResultReturn (g t k : Nat)
  /-- R24. A barrier network releases every participant of a scope-X step once all have committed. -/
  | widerStepRelease (g : Nat)
  /-- R147. Every 1,024 cycles a parked waitv re-reads its word. -/
  | waitvPeriodicEvaluation (g t : Nat)
  /-- R280. Every 1,024 cycles a parked racq tests its ring's head. -/
  | racqPeriodicCheck (g t : Nat)
  /-- R368. Every 1,024 cycles a waiting ttake checks its channel. -/
  | ttakePeriodicCheck (g t : Nat)
  /-- R200. A cohort blocked 1,024 to 2,048 cycles away from one cohort-synchronous PC raises the lane-sync fault. -/
  | laneSyncFault (g ch : Nat)
  /-- R121. A parked xacq request is granted in arrival order once blocks free. -/
  | xacqGrant (core : Nat)
  /-- R328. A waiting talloc is granted slots in arrival order once slots free. -/
  | tallocGrant (quad : Nat)
  /-- R335. A waiting balloc is granted contiguous Basin rows and binds its handle. -/
  | ballocGrant (core : Nat)
  /-- R94. The instruction cache fills and expands a whole block, making fault words of malformed positions. -/
  | instructionCacheFill (core g : Nat) (hdr : Word)
  /-- R422. The built-in self-test ends; its outcome releases or kills the held groups and updates the lane remap. -/
  | laneTestComplete (core : Nat) (lane : Option Nat) (array : Bool)
  /-- R265. A satom AtomicOp completes, its old value returns, and the domain may release. -/
  | atomicopComplete (g d : Nat) (err : Bool)
  /-- R260. The Gaffer takes a queue entry, resolving a prepared cell or answering a service request. -/
  | gafferRequest (quad : Nat)
  /-- R260. A Gaffer that takes no entry for 100 µs raises a machine check; its queue's groups are killed and it restarts. -/
  | gafferTimeout (quad : Nat)
  /-- R258. A resolution site acknowledges a prepared cell; after the last one the commit unit sends expose. -/
  | prepareAcknowledge (g d k : Nat)
  /-- R252. A miss that waited for a full buffer enters it once an entry frees. -/
  | faultBufferEntry (core : Nat)
  /-- R251. The firmware completes a fill; parked groups and paused engine requests resume and the frame ready word is set. -/
  | translationFillComplete (core : Nat) (asid : BitVec 16) (page : Nat)
  /-- R251. The firmware reports that a page can never be brought in; the fault becomes cause 3. -/
  | fillFailure (core : Nat) (asid : BitVec 16) (page : Nat)
  /-- R46. The firmware posts a map, unmap or attribute change and invalidates TLB entries. -/
  | mappingChange (asid : BitVec 16) (page root at_ : Nat) (entry : DWord)
  /-- R254. The firmware sets MIG; old home slices hold and forward writes. -/
  | migrationStart (asid : BitVec 16) (page : Nat)
  /-- R254. The firmware posts the new leaf and clears MIG. -/
  | migrationComplete (asid : BitVec 16) (page : Nat) (entry : DWord)
  /-- R255. Allocation marks a frame zero-pending. -/
  | pageAllocate (frame : Nat) (size : PageSize)
  /-- R255. The controller clears a zero-pending line in the background. -/
  | zeroPendingClear (line : Nat)
  /-- R38. A PCI Express write to device memory is a commit event of that link's host domain. -/
  | hostWrite (link : Bool) (off : Nat) (bytes : List Byte)
  /-- R262. A host AtomicOp is performed on a SYSTEM page, or completes with Completer Abort. -/
  | hostAtomicop (link : Bool) (off : Nat) (op : AtomicOp) (x y : Word)
  /-- R371. The host writes a queue's TAIL, releasing its records to the dispatcher. -/
  | queueTailWrite (q : BitVec 6) (tail : Word)
  /-- R372. Setting OPEN resets the running hash and resumes taking records at HEAD. -/
  | queueOpenSet (q : BitVec 6)
  /-- R372. Clearing OPEN stops the dispatcher from taking records. -/
  | queueOpenClear (q : BitVec 6)
  /-- R372. BASE, LOG2N and DEV take a write only while the queue is closed and drained. -/
  | queueConfigWrite (q : BitVec 6) (w : DWord)
  /-- R404. Sets the device address of the BAR2 window. -/
  | wbaseWrite (w : DWord)
  /-- R403. Enables or disables the per-queue MSI-X vectors. -/
  | irqenWrite (w : DWord)
  /-- R404. A write to a register with no behaviour of its own is ignored. -/
  | registerWrite (off : BitVec 16) (w : DWord)
  /-- R372. Command 0x0001 aborts a launch, taken or not, with status 3. -/
  | mbAbortLaunch (seq : BitVec 16) (w0 w1 : DWord)
  /-- R42. Command 0x0002 resumes a group held under DBG. -/
  | mbResumeGroup (seq : BitVec 16) (w0 : DWord)
  /-- R42. Command 0x0003 aborts a group held under DBG. -/
  | mbAbortGroup (seq : BitVec 16) (w0 : DWord)
  /-- R386. Command 0x0004 asks the dispatcher to pre-empt a group. -/
  | mbPreemptGroup (seq : BitVec 16) (w0 w1 : DWord)
  /-- R257. Command 0x0005 enlarges a launch's overflow regions. -/
  | mbEnlargeOverflow (seq : BitVec 16) (w0 w1 : DWord)
  /-- R427. Command 0x0010 loads and verifies a signed firmware image and restarts from stage 3. -/
  | mbLoadFirmware (seq : BitVec 16) (w0 w1 : DWord)
  /-- R423. Command 0x0011 applies a signed in-field test package. -/
  | mbApplyTest (seq : BitVec 16) (w0 w1 : DWord)
  /-- R407. An unknown command code is answered with ST 1. -/
  | mbUnknownCommand (seq cmd : BitVec 16)
  /-- R373. The global dispatcher takes a ready record, checks it and starts handing out its groups. -/
  | recordTake (q : BitVec 6)
  /-- R379. Batch groups pass to die dispatchers in batches of up to 64, within free slots. -/
  | batchHandout (l : Nat)
  /-- R383. A die dispatcher fills a free group slot from saved, spawned, queued, stolen or spilled candidates. -/
  | groupPlace (core : Nat)
  /-- R380. The dispatcher sends RESV with its ticket to every core of a span instance. -/
  | gangReserve (l : Nat)
  /-- R380. A reserved core replies READY once its share fits. -/
  | coreReadyReply (core : Nat)
  /-- R380. With every core READY, the cores place their shares and the gang starts. -/
  | gangConfirm (l : Nat)
  /-- R380. A NO reply releases the reservation and starts a back-off. -/
  | gangReservationRelease (l : Nat)
  /-- R380. 64 µs without all READY releases the reservation. -/
  | gangReservationTimeout (l : Nat)
  /-- R380. The back-off ends and the next span instance is tried. -/
  | gangBackoffExpiry (l : Nat)
  /-- R381. A partner reports its confirmed reservation; once all have reported, the pod gang starts. -/
  | podGangReport (podg : BitVec 16) (r : PodReport)
  /-- R381. Too few partners within 100 ms fail every partner with reason 7. -/
  | podGangTimeout (podg : BitVec 16)
  /-- R381. A module unreachable for 1 ms traps groups at .pod steps with engine-fault cause 4. -/
  | podModuleUnreachable (module : BitVec 7)
  /-- R374. A launch retires in sequence order: completion record, digest chain, HEAD advance. -/
  | launchRetire (q : BitVec 6)
  /-- R386. The dispatcher chooses a victim and a mode: drain, flush-and-restart or save. -/
  | preemption (die : Nat)
  /-- R387. A group that reaches no boundary within 40 µs of a save request is flushed or killed. -/
  | preemptionTimeout (g : Nat)
  /-- R126. A core whose groups are all idle saves the longest-idle group for a waiting one. -/
  | eviction (core : Nat)
  /-- R390. %vtime reaches the tmset threshold and the group traps with cause 26. -/
  | vtimeThreshold (g t : Nat)
  /-- R400. A packet delivered after its deadline stamp raises the late count and, with ARB 2, traps the group. -/
  | lateDelivery (g : Nat)
  /-- R399. A waiting packet's age rises every 16 network cycles and promotes it to class 0 at 255. -/
  | packetAgeTick (k : Nat)
  /-- R274. A copy request begins reading once its commit is visible and a running place is free. -/
  | copyRequestBegin (id : Nat)
  /-- R270. A piece lands and is counted in its landing counter. -/
  | copyPieceComplete (id k : Nat)
  /-- R279. A waiting put or message is assigned the free slot at the ring's tail. -/
  | ringSlotAssign (id : Nat)
  /-- R282. A message reaches the receiving quad and is written, saved or discarded. -/
  | sendArrival (id : Nat)
  /-- R284. A cpym delivery reaches a quad of the mask and is written, saved or discarded. -/
  | multicastDelivery (id quad : Nat)
  /-- R307. A started stream operation begins reading once a reading place is free. -/
  | streamOperationBegin (id : Nat)
  /-- R308. A full output slot closes with its written length as target. -/
  | streamSlotClose (id : Nat)
  /-- R308. An operation ends and writes its terminator, area, handles or count. -/
  | streamOperationEnd (id : Nat)
  /-- R340. A submitted record that waited for room enters the quad's task queue. -/
  | taskQueueEnter (quad : Nat)
  /-- R358. The engine reads and checks the records of an mtaskq array in order. -/
  | mtaskqArrayRead (id : Nat)
  /-- R340. A record at its engine's head starts once no tile it reads is filling. -/
  | matrixRecordStart (core : Nat)
  /-- R341. A record finishes its rows; its outputs, handles and results land. -/
  | matrixRecordComplete (core : Nat)
  /-- R340. A record waiting 50 ms at its engine's head raises engine-fault cause 5. -/
  | recordWaitTimeout (core : Nat)
  /-- R408. A peer acknowledges a remote operation or completes it with an error. -/
  | remoteSettle (id : Nat) (err : Bool) (found : List Word)
  /-- R414. A peer that acknowledges nothing for 1 ms raises engine-fault cause 4. -/
  | peerAckTimeout (id : Nat)
  /-- R411. A matched collective lands its result and is counted. -/
  | collectiveComplete (id : Nat) (fate : CollectiveEnd) (contribs : List (List Byte))
  /-- R402. A port that fails retry 16 times in 1 ms goes down. -/
  | ualinkPortDown (port : Nat)
  /-- R424. Scan of one quad ends; a failing quad goes out of service. -/
  | quadTestComplete (pass : Bool)
  /-- R425. Power-on starts the self-test stages. -/
  | powerOnReset
  /-- R425. A bring-up stage passes or fails and sets its ready status bits or FAILC. -/
  | bringUpStageComplete (part : BringUp) (pass : Bool)
  /-- R429. At 110 °C every engine is held off and the device enters the safe state. -/
  | thermalTrip
  /-- R429. Power above 8.4 kW over 1 ms makes hardware remove issue and array cycles. -/
  | powerCap
  /-- R429. From 95 °C the firmware removes cycles. -/
  | thermalThrottle
  /-- R427. Removing the 48 V input ends every state. -/
  | powerRemoval
  /-- R402. A UALink read, write or atomic from another module (an xput, xget, xfwr or a resolved PEER commit) reaches this module's home slice, is performed there, and is acknowledged once visible to every observer of this module. -/
  | peerTransactionArrival (op : PeerOp)
  /-- R418. An uncorrectable error in SRAM, HBM, LPDDR6 or a link leaves its line poisoned until it is written whole. -/
  | uncorrectableError (line : Nat)
  /-- R418. A correctable error in SRAM, HBM, LPDDR6 or a link is corrected and counted for the firmware. -/
  | correctableError
  deriving DecidableEq, Repr

/-- The canonical fields an instruction carries; an event carries none. -/
def Instr.fields : Instr → Option Fields
  | .nop f => some f
  | .bra f => some f
  | .brx f => some f
  | .brt f => some f
  | .call f => some f
  | .callx f => some f
  | .ret f => some f
  | .join f => some f
  | .step f => some f
  | .waitv f => some f
  | .exit f => some f
  | .trap f => some f
  | .bkpt f => some f
  | .contv f => some f
  | .resume f => some f
  | .svc f => some f
  | .add f => some f
  | .sub f => some f
  | .add3 f => some f
  | .mul f => some f
  | .mad f => some f
  | .min f => some f
  | .max f => some f
  | .abs f => some f
  | .neg f => some f
  | .addmin f => some f
  | .and f => some f
  | .or f => some f
  | .xor f => some f
  | .not f => some f
  | .bitfn f => some f
  | .shl f => some f
  | .shr f => some f
  | .sra f => some f
  | .rot f => some f
  | .fsh f => some f
  | .bfx f => some f
  | .bfi f => some f
  | .clz f => some f
  | .popc f => some f
  | .brev f => some f
  | .setp f => some f
  | .sel f => some f
  | .mov f => some f
  | .lea f => some f
  | .pset f => some f
  | .idiv f => some f
  | .irem f => some f
  | .fadd f => some f
  | .fsub f => some f
  | .fmul f => some f
  | .ffma f => some f
  | .fmin f => some f
  | .fmax f => some f
  | .fsgn f => some f
  | .fsetp f => some f
  | .faddmin f => some f
  | .fdot2 f => some f
  | .fscale f => some f
  | .frnd f => some f
  | .fclass f => some f
  | .fdiv f => some f
  | .fsqrt f => some f
  | .frcp f => some f
  | .frsq f => some f
  | .fex2 f => some f
  | .flg2 f => some f
  | .ftrig f => some f
  | .ftanh f => some f
  | .cvt f => some f
  | .cvti f => some f
  | .pack f => some f
  | .unpack f => some f
  | .ext f => some f
  | .lshf f => some f
  | .lred f => some f
  | .lscan f => some f
  | .lpoll f => some f
  | .lbcast f => some f
  | .lpeer f => some f
  | .lisect f => some f
  | .lcomp f => some f
  | .lrank f => some f
  | .lmask f => some f
  | .ld f => some f
  | .st f => some f
  | .fwr f => some f
  | .cwr f => some f
  | .ldq f => some f
  | .stq f => some f
  | .ldk f => some f
  | .sgset f => some f
  | .sgget f => some f
  | .pref f => some f
  | .evict f => some f
  | .satom f => some f
  | .xlat f => some f
  | .cpy f => some f
  | .cpyt f => some f
  | .cpym f => some f
  | .cpyg f => some f
  | .lcsetArm f => some f
  | .lcsetBind f => some f
  | .lcsetUnbind f => some f
  | .lcget f => some f
  | .rbindBind f => some f
  | .rbindFree f => some f
  | .racq f => some f
  | .rrel f => some f
  | .rput f => some f
  | .send f => some f
  | .rhead f => some f
  | .talloc f => some f
  | .tfree f => some f
  | .tgive f => some f
  | .ttake f => some f
  | .tld f => some f
  | .tst f => some f
  | .tget f => some f
  | .tset f => some f
  | .tqry f => some f
  | .wld f => some f
  | .mma f => some f
  | .mtaskq f => some f
  | .balloc f => some f
  | .bfree f => some f
  | .binit f => some f
  | .rslv f => some f
  | .bcmp f => some f
  | .bmov f => some f
  | .bsave f => some f
  | .brst f => some f
  | .bscale f => some f
  | .tzf f => some f
  | .sopen f => some f
  | .sisect f => some f
  | .nzscan f => some f
  | .sgath f => some f
  | .smerge f => some f
  | .scount f => some f
  | .sclose f => some f
  | .sstat f => some f
  | .xput f => some f
  | .xget f => some f
  | .xfwr f => some f
  | .xallg f => some f
  | .xred f => some f
  | .xbcst f => some f
  | .xqry f => some f
  | .digest f => some f
  | .spawn f => some f
  | .launch f => some f
  | .yield f => some f
  | .role f => some f
  | .prio f => some f
  | .tmset f => some f
  | .xacq f => some f
  | .xrel f => some f
  | .srget f => some f
  | .srset f => some f
  | .stepBoundaryComplete _ _ => none
  | .deferredResultReturn _ _ _ => none
  | .widerStepRelease _ => none
  | .waitvPeriodicEvaluation _ _ => none
  | .racqPeriodicCheck _ _ => none
  | .ttakePeriodicCheck _ _ => none
  | .laneSyncFault _ _ => none
  | .xacqGrant _ => none
  | .tallocGrant _ => none
  | .ballocGrant _ => none
  | .instructionCacheFill _ _ _ => none
  | .laneTestComplete _ _ _ => none
  | .atomicopComplete _ _ _ => none
  | .gafferRequest _ => none
  | .gafferTimeout _ => none
  | .prepareAcknowledge _ _ _ => none
  | .faultBufferEntry _ => none
  | .translationFillComplete _ _ _ => none
  | .fillFailure _ _ _ => none
  | .mappingChange _ _ _ _ _ => none
  | .migrationStart _ _ => none
  | .migrationComplete _ _ _ => none
  | .pageAllocate _ _ => none
  | .zeroPendingClear _ => none
  | .hostWrite _ _ _ => none
  | .hostAtomicop _ _ _ _ _ => none
  | .queueTailWrite _ _ => none
  | .queueOpenSet _ => none
  | .queueOpenClear _ => none
  | .queueConfigWrite _ _ => none
  | .wbaseWrite _ => none
  | .irqenWrite _ => none
  | .registerWrite _ _ => none
  | .mbAbortLaunch _ _ _ => none
  | .mbResumeGroup _ _ => none
  | .mbAbortGroup _ _ => none
  | .mbPreemptGroup _ _ _ => none
  | .mbEnlargeOverflow _ _ _ => none
  | .mbLoadFirmware _ _ _ => none
  | .mbApplyTest _ _ _ => none
  | .mbUnknownCommand _ _ => none
  | .recordTake _ => none
  | .batchHandout _ => none
  | .groupPlace _ => none
  | .gangReserve _ => none
  | .coreReadyReply _ => none
  | .gangConfirm _ => none
  | .gangReservationRelease _ => none
  | .gangReservationTimeout _ => none
  | .gangBackoffExpiry _ => none
  | .podGangReport _ _ => none
  | .podGangTimeout _ => none
  | .podModuleUnreachable _ => none
  | .launchRetire _ => none
  | .preemption _ => none
  | .preemptionTimeout _ => none
  | .eviction _ => none
  | .vtimeThreshold _ _ => none
  | .lateDelivery _ => none
  | .packetAgeTick _ => none
  | .copyRequestBegin _ => none
  | .copyPieceComplete _ _ => none
  | .ringSlotAssign _ => none
  | .sendArrival _ => none
  | .multicastDelivery _ _ => none
  | .streamOperationBegin _ => none
  | .streamSlotClose _ => none
  | .streamOperationEnd _ => none
  | .taskQueueEnter _ => none
  | .mtaskqArrayRead _ => none
  | .matrixRecordStart _ => none
  | .matrixRecordComplete _ => none
  | .recordWaitTimeout _ => none
  | .remoteSettle _ _ _ => none
  | .peerAckTimeout _ => none
  | .collectiveComplete _ _ _ => none
  | .ualinkPortDown _ => none
  | .quadTestComplete _ => none
  | .powerOnReset => none
  | .bringUpStageComplete _ _ => none
  | .thermalTrip => none
  | .powerCap => none
  | .thermalThrottle => none
  | .powerRemoval => none
  | .peerTransactionArrival _ => none
  | .uncorrectableError _ => none
  | .correctableError => none

/-- The major opcode of R98; an event has none and reads as a reserved one. -/
def Instr.op : Instr → BitVec 8
  | .nop _ => 0x00
  | .bra _ => 0x01
  | .brx _ => 0x02
  | .brt _ => 0x03
  | .call _ => 0x04
  | .callx _ => 0x05
  | .ret _ => 0x06
  | .join _ => 0x07
  | .step _ => 0x08
  | .waitv _ => 0x09
  | .exit _ => 0x0A
  | .trap _ => 0x0B
  | .bkpt _ => 0x0C
  | .contv _ => 0x0D
  | .resume _ => 0x0E
  | .svc _ => 0x0F
  | .add _ => 0x10
  | .sub _ => 0x11
  | .add3 _ => 0x12
  | .mul _ => 0x13
  | .mad _ => 0x14
  | .min _ => 0x15
  | .max _ => 0x16
  | .abs _ => 0x17
  | .neg _ => 0x18
  | .addmin _ => 0x19
  | .and _ => 0x1A
  | .or _ => 0x1B
  | .xor _ => 0x1C
  | .not _ => 0x1D
  | .bitfn _ => 0x1E
  | .shl _ => 0x1F
  | .shr _ => 0x20
  | .sra _ => 0x21
  | .rot _ => 0x22
  | .fsh _ => 0x23
  | .bfx _ => 0x24
  | .bfi _ => 0x25
  | .clz _ => 0x26
  | .popc _ => 0x27
  | .brev _ => 0x28
  | .setp _ => 0x29
  | .sel _ => 0x2A
  | .mov _ => 0x2B
  | .lea _ => 0x2C
  | .pset _ => 0x2D
  | .idiv _ => 0x2E
  | .irem _ => 0x2F
  | .fadd _ => 0x30
  | .fsub _ => 0x31
  | .fmul _ => 0x32
  | .ffma _ => 0x33
  | .fmin _ => 0x34
  | .fmax _ => 0x35
  | .fsgn _ => 0x36
  | .fsetp _ => 0x37
  | .faddmin _ => 0x38
  | .fdot2 _ => 0x39
  | .fscale _ => 0x3A
  | .frnd _ => 0x3B
  | .fclass _ => 0x3C
  | .fdiv _ => 0x3D
  | .fsqrt _ => 0x3E
  | .frcp _ => 0x3F
  | .frsq _ => 0x40
  | .fex2 _ => 0x41
  | .flg2 _ => 0x42
  | .ftrig _ => 0x43
  | .ftanh _ => 0x44
  | .cvt _ => 0x48
  | .cvti _ => 0x49
  | .pack _ => 0x4A
  | .unpack _ => 0x4B
  | .ext _ => 0x4C
  | .lshf _ => 0x50
  | .lred _ => 0x51
  | .lscan _ => 0x52
  | .lpoll _ => 0x53
  | .lbcast _ => 0x54
  | .lpeer _ => 0x55
  | .lisect _ => 0x56
  | .lcomp _ => 0x57
  | .lrank _ => 0x58
  | .lmask _ => 0x59
  | .ld _ => 0x60
  | .st _ => 0x61
  | .fwr _ => 0x62
  | .cwr _ => 0x63
  | .ldq _ => 0x64
  | .stq _ => 0x65
  | .ldk _ => 0x66
  | .sgset _ => 0x67
  | .sgget _ => 0x68
  | .pref _ => 0x70
  | .evict _ => 0x71
  | .satom _ => 0x72
  | .xlat _ => 0x73
  | .cpy _ => 0x80
  | .cpyt _ => 0x81
  | .cpym _ => 0x82
  | .cpyg _ => 0x83
  | .lcsetArm _ => 0x84
  | .lcsetBind _ => 0x84
  | .lcsetUnbind _ => 0x84
  | .lcget _ => 0x85
  | .rbindBind _ => 0x86
  | .rbindFree _ => 0x86
  | .racq _ => 0x87
  | .rrel _ => 0x88
  | .rput _ => 0x89
  | .send _ => 0x8A
  | .rhead _ => 0x8B
  | .talloc _ => 0xA0
  | .tfree _ => 0xA1
  | .tgive _ => 0xA2
  | .ttake _ => 0xA3
  | .tld _ => 0xA4
  | .tst _ => 0xA5
  | .tget _ => 0xA6
  | .tset _ => 0xA7
  | .tqry _ => 0xA8
  | .wld _ => 0xA9
  | .mma _ => 0xAA
  | .mtaskq _ => 0xAB
  | .balloc _ => 0xAC
  | .bfree _ => 0xAD
  | .binit _ => 0xAE
  | .rslv _ => 0xAF
  | .bcmp _ => 0xB0
  | .bmov _ => 0xB1
  | .bsave _ => 0xB2
  | .brst _ => 0xB3
  | .bscale _ => 0xB4
  | .tzf _ => 0xB5
  | .sopen _ => 0xC0
  | .sisect _ => 0xC1
  | .nzscan _ => 0xC2
  | .sgath _ => 0xC3
  | .smerge _ => 0xC4
  | .scount _ => 0xC5
  | .sclose _ => 0xC6
  | .sstat _ => 0xC7
  | .xput _ => 0xD0
  | .xget _ => 0xD1
  | .xfwr _ => 0xD2
  | .xallg _ => 0xD3
  | .xred _ => 0xD4
  | .xbcst _ => 0xD5
  | .xqry _ => 0xD6
  | .digest _ => 0xD7
  | .spawn _ => 0xE0
  | .launch _ => 0xE1
  | .yield _ => 0xE2
  | .role _ => 0xE3
  | .prio _ => 0xE4
  | .tmset _ => 0xE5
  | .xacq _ => 0xE6
  | .xrel _ => 0xE7
  | .srget _ => 0xE8
  | .srset _ => 0xE9
  | .stepBoundaryComplete _ _ => 0xFF
  | .deferredResultReturn _ _ _ => 0xFF
  | .widerStepRelease _ => 0xFF
  | .waitvPeriodicEvaluation _ _ => 0xFF
  | .racqPeriodicCheck _ _ => 0xFF
  | .ttakePeriodicCheck _ _ => 0xFF
  | .laneSyncFault _ _ => 0xFF
  | .xacqGrant _ => 0xFF
  | .tallocGrant _ => 0xFF
  | .ballocGrant _ => 0xFF
  | .instructionCacheFill _ _ _ => 0xFF
  | .laneTestComplete _ _ _ => 0xFF
  | .atomicopComplete _ _ _ => 0xFF
  | .gafferRequest _ => 0xFF
  | .gafferTimeout _ => 0xFF
  | .prepareAcknowledge _ _ _ => 0xFF
  | .faultBufferEntry _ => 0xFF
  | .translationFillComplete _ _ _ => 0xFF
  | .fillFailure _ _ _ => 0xFF
  | .mappingChange _ _ _ _ _ => 0xFF
  | .migrationStart _ _ => 0xFF
  | .migrationComplete _ _ _ => 0xFF
  | .pageAllocate _ _ => 0xFF
  | .zeroPendingClear _ => 0xFF
  | .hostWrite _ _ _ => 0xFF
  | .hostAtomicop _ _ _ _ _ => 0xFF
  | .queueTailWrite _ _ => 0xFF
  | .queueOpenSet _ => 0xFF
  | .queueOpenClear _ => 0xFF
  | .queueConfigWrite _ _ => 0xFF
  | .wbaseWrite _ => 0xFF
  | .irqenWrite _ => 0xFF
  | .registerWrite _ _ => 0xFF
  | .mbAbortLaunch _ _ _ => 0xFF
  | .mbResumeGroup _ _ => 0xFF
  | .mbAbortGroup _ _ => 0xFF
  | .mbPreemptGroup _ _ _ => 0xFF
  | .mbEnlargeOverflow _ _ _ => 0xFF
  | .mbLoadFirmware _ _ _ => 0xFF
  | .mbApplyTest _ _ _ => 0xFF
  | .mbUnknownCommand _ _ => 0xFF
  | .recordTake _ => 0xFF
  | .batchHandout _ => 0xFF
  | .groupPlace _ => 0xFF
  | .gangReserve _ => 0xFF
  | .coreReadyReply _ => 0xFF
  | .gangConfirm _ => 0xFF
  | .gangReservationRelease _ => 0xFF
  | .gangReservationTimeout _ => 0xFF
  | .gangBackoffExpiry _ => 0xFF
  | .podGangReport _ _ => 0xFF
  | .podGangTimeout _ => 0xFF
  | .podModuleUnreachable _ => 0xFF
  | .launchRetire _ => 0xFF
  | .preemption _ => 0xFF
  | .preemptionTimeout _ => 0xFF
  | .eviction _ => 0xFF
  | .vtimeThreshold _ _ => 0xFF
  | .lateDelivery _ => 0xFF
  | .packetAgeTick _ => 0xFF
  | .copyRequestBegin _ => 0xFF
  | .copyPieceComplete _ _ => 0xFF
  | .ringSlotAssign _ => 0xFF
  | .sendArrival _ => 0xFF
  | .multicastDelivery _ _ => 0xFF
  | .streamOperationBegin _ => 0xFF
  | .streamSlotClose _ => 0xFF
  | .streamOperationEnd _ => 0xFF
  | .taskQueueEnter _ => 0xFF
  | .mtaskqArrayRead _ => 0xFF
  | .matrixRecordStart _ => 0xFF
  | .matrixRecordComplete _ => 0xFF
  | .recordWaitTimeout _ => 0xFF
  | .remoteSettle _ _ _ => 0xFF
  | .peerAckTimeout _ => 0xFF
  | .collectiveComplete _ _ _ => 0xFF
  | .ualinkPortDown _ => 0xFF
  | .quadTestComplete _ => 0xFF
  | .powerOnReset => 0xFF
  | .bringUpStageComplete _ _ => 0xFF
  | .thermalTrip => 0xFF
  | .powerCap => 0xFF
  | .thermalThrottle => 0xFF
  | .powerRemoval => 0xFF
  | .peerTransactionArrival _ => 0xFF
  | .uncorrectableError _ => 0xFF
  | .correctableError => 0xFF

/-- The instruction a major opcode and a sub-function name, by the opcode map of R98 (`none`: reserved). -/
def Instr.ofOp (op : Nat) (f : Fields) : Option Instr :=
  match op with
  | 0x00 => some (.nop f)
  | 0x01 => some (.bra f)
  | 0x02 => some (.brx f)
  | 0x03 => some (.brt f)
  | 0x04 => some (.call f)
  | 0x05 => some (.callx f)
  | 0x06 => some (.ret f)
  | 0x07 => some (.join f)
  | 0x08 => some (.step f)
  | 0x09 => some (.waitv f)
  | 0x0A => some (.exit f)
  | 0x0B => some (.trap f)
  | 0x0C => some (.bkpt f)
  | 0x0D => some (.contv f)
  | 0x0E => some (.resume f)
  | 0x0F => some (.svc f)
  | 0x10 => some (.add f)
  | 0x11 => some (.sub f)
  | 0x12 => some (.add3 f)
  | 0x13 => some (.mul f)
  | 0x14 => some (.mad f)
  | 0x15 => some (.min f)
  | 0x16 => some (.max f)
  | 0x17 => some (.abs f)
  | 0x18 => some (.neg f)
  | 0x19 => some (.addmin f)
  | 0x1A => some (.and f)
  | 0x1B => some (.or f)
  | 0x1C => some (.xor f)
  | 0x1D => some (.not f)
  | 0x1E => some (.bitfn f)
  | 0x1F => some (.shl f)
  | 0x20 => some (.shr f)
  | 0x21 => some (.sra f)
  | 0x22 => some (.rot f)
  | 0x23 => some (.fsh f)
  | 0x24 => some (.bfx f)
  | 0x25 => some (.bfi f)
  | 0x26 => some (.clz f)
  | 0x27 => some (.popc f)
  | 0x28 => some (.brev f)
  | 0x29 => some (.setp f)
  | 0x2A => some (.sel f)
  | 0x2B => some (.mov f)
  | 0x2C => some (.lea f)
  | 0x2D => some (.pset f)
  | 0x2E => some (.idiv f)
  | 0x2F => some (.irem f)
  | 0x30 => some (.fadd f)
  | 0x31 => some (.fsub f)
  | 0x32 => some (.fmul f)
  | 0x33 => some (.ffma f)
  | 0x34 => some (.fmin f)
  | 0x35 => some (.fmax f)
  | 0x36 => some (.fsgn f)
  | 0x37 => some (.fsetp f)
  | 0x38 => some (.faddmin f)
  | 0x39 => some (.fdot2 f)
  | 0x3A => some (.fscale f)
  | 0x3B => some (.frnd f)
  | 0x3C => some (.fclass f)
  | 0x3D => some (.fdiv f)
  | 0x3E => some (.fsqrt f)
  | 0x3F => some (.frcp f)
  | 0x40 => some (.frsq f)
  | 0x41 => some (.fex2 f)
  | 0x42 => some (.flg2 f)
  | 0x43 => some (.ftrig f)
  | 0x44 => some (.ftanh f)
  | 0x48 => some (.cvt f)
  | 0x49 => some (.cvti f)
  | 0x4A => some (.pack f)
  | 0x4B => some (.unpack f)
  | 0x4C => some (.ext f)
  | 0x50 => some (.lshf f)
  | 0x51 => some (.lred f)
  | 0x52 => some (.lscan f)
  | 0x53 => some (.lpoll f)
  | 0x54 => some (.lbcast f)
  | 0x55 => some (.lpeer f)
  | 0x56 => some (.lisect f)
  | 0x57 => some (.lcomp f)
  | 0x58 => some (.lrank f)
  | 0x59 => some (.lmask f)
  | 0x60 => some (.ld f)
  | 0x61 => some (.st f)
  | 0x62 => some (.fwr f)
  | 0x63 => some (.cwr f)
  | 0x64 => some (.ldq f)
  | 0x65 => some (.stq f)
  | 0x66 => some (.ldk f)
  | 0x67 => some (.sgset f)
  | 0x68 => some (.sgget f)
  | 0x70 => some (.pref f)
  | 0x71 => some (.evict f)
  | 0x72 => some (.satom f)
  | 0x73 => some (.xlat f)
  | 0x80 => some (.cpy f)
  | 0x81 => some (.cpyt f)
  | 0x82 => some (.cpym f)
  | 0x83 => some (.cpyg f)
  | 0x84 => if f.fn.toNat = 0 then some (.lcsetArm f) else if f.fn.toNat = 1 then some (.lcsetBind f) else if f.fn.toNat = 2 then some (.lcsetUnbind f) else none
  | 0x85 => some (.lcget f)
  | 0x86 => if f.fn.toNat = 0 then some (.rbindBind f) else if f.fn.toNat = 1 then some (.rbindFree f) else none
  | 0x87 => some (.racq f)
  | 0x88 => some (.rrel f)
  | 0x89 => some (.rput f)
  | 0x8A => some (.send f)
  | 0x8B => some (.rhead f)
  | 0xA0 => some (.talloc f)
  | 0xA1 => some (.tfree f)
  | 0xA2 => some (.tgive f)
  | 0xA3 => some (.ttake f)
  | 0xA4 => some (.tld f)
  | 0xA5 => some (.tst f)
  | 0xA6 => some (.tget f)
  | 0xA7 => some (.tset f)
  | 0xA8 => some (.tqry f)
  | 0xA9 => some (.wld f)
  | 0xAA => some (.mma f)
  | 0xAB => some (.mtaskq f)
  | 0xAC => some (.balloc f)
  | 0xAD => some (.bfree f)
  | 0xAE => some (.binit f)
  | 0xAF => some (.rslv f)
  | 0xB0 => some (.bcmp f)
  | 0xB1 => some (.bmov f)
  | 0xB2 => some (.bsave f)
  | 0xB3 => some (.brst f)
  | 0xB4 => some (.bscale f)
  | 0xB5 => some (.tzf f)
  | 0xC0 => some (.sopen f)
  | 0xC1 => some (.sisect f)
  | 0xC2 => some (.nzscan f)
  | 0xC3 => some (.sgath f)
  | 0xC4 => some (.smerge f)
  | 0xC5 => some (.scount f)
  | 0xC6 => some (.sclose f)
  | 0xC7 => some (.sstat f)
  | 0xD0 => some (.xput f)
  | 0xD1 => some (.xget f)
  | 0xD2 => some (.xfwr f)
  | 0xD3 => some (.xallg f)
  | 0xD4 => some (.xred f)
  | 0xD5 => some (.xbcst f)
  | 0xD6 => some (.xqry f)
  | 0xD7 => some (.digest f)
  | 0xE0 => some (.spawn f)
  | 0xE1 => some (.launch f)
  | 0xE2 => some (.yield f)
  | 0xE3 => some (.role f)
  | 0xE4 => some (.prio f)
  | 0xE5 => some (.tmset f)
  | 0xE6 => some (.xacq f)
  | 0xE7 => some (.xrel f)
  | 0xE8 => some (.srget f)
  | 0xE9 => some (.srset f)
  | _ => none

end Sys2Proof
end

