-- ==== Sys2Proof/Config.lean ====
section
/-!
DEFINITION. What the spec leaves to the implementation or leaves open.  Every constant here has no body, so no proof
can rest on its value.  A value that may differ each time it is asked for is a constant applied to the state's running
counter (log entry 1).
-/
namespace Sys2Proof.Config

/-- One open bit, fresh for each value of the counter (R13, R46, R216, R266, R275). -/
opaque freeBit : Nat → Bool
/-- One open word, fresh for each value of the counter: what a peer's memory holds when a load reads it (R33), the
carry vector of a raw Basin element (R72), an unstated result. -/
opaque freeWord : Nat → Word
/-- The cycles that pass in one step of the model (R159); the spec fixes no count. -/
opaque stepCycles : Nat → Nat
/-- The home slice on the holding die of an HBM line (R243). -/
opaque homeHbm : Nat → BitVec 4
/-- The home slice among all 256 of an LPDDR6 or host line: die and quad (R243). -/
opaque homeAny : Nat → BitVec 8
/-- Which of its die's two stacks holds a granule of HBM (R243). -/
opaque stackOf : Nat → Bool
/-- The last bit of an approximate operation: which result within the bound of R56 (operation, operand, candidate). -/
opaque approx : Nat → Word → Word
/-- Whether a signature is that of a hash under the fused key: ECDSA P-384 (R423). -/
opaque signed (hash : List Byte) (signature : Nat) : Bool
/-- Whether the signature of a firmware image, whose layout the spec does not give, verifies (R407, R425). -/
opaque signedImage : List Byte → Bool
/-- The lowest package version the fuses accept (R423). -/
opaque minVersion : Nat
/-- Whether a host link reports AtomicOp completer support (R265). -/
opaque linkAtomics : Bool → Bool
/-- The port of the network by which a core's packet comes (R396, R399). -/
opaque portIn : Nat → Nat
/-- The hash of a target address that spreads peer traffic over the ports that are up (R402). -/
opaque portHash : Nat → Nat
/-- Whether the pod switches reach a module (R402). -/
opaque reachable : Nat → Bool

end Sys2Proof.Config
end

