-- ==== Sys2Proof/WellFormed.lean ====
section
/-!
DEFINITION. Which canonical words are instructions: the fields each entry uses (R85, R86), its sub-functions and
types (R87), its rounding or collision code (R88), its scope (R89) and its flags.  A word that breaks one of these
is refused with the fault that R96 and R97 name for it: reserved-instruction first, then illegal-operand.
-/
namespace Sys2Proof

/-- What an operand field takes (R86 and the entry that names the field). -/
inductive Kind where
  /-- The field is not used and holds 248 (R85). -/
  | unused
  /-- A destination register or 248. -/
  | dst
  /-- A destination pair under R165: an even register or 248. -/
  | dstPair
  /-- `dst` for FN 0 and 1, `dstPair` for FN 2 (R167). -/
  | dstWide
  /-- A register v0-v191 that is read. -/
  | vreg
  /-- A register v0-v191 that is written. -/
  | vregDst
  /-- FN + 1 registers from one named (R415). -/
  | vregN
  /-- A register, 248 or IMM. -/
  | src
  /-- A register or IMM (R157, R294, R395, R417). -/
  | regImm
  /-- A register or 248. -/
  | reg
  /-- `srcPair` for `.cas`, FN 2, and `reg` otherwise (R265). -/
  | regCas
  /-- An even register that names a pair. -/
  | srcPair
  /-- `src` with FN 0, unused otherwise (R205). -/
  | srcFn0
  /-- `src` with FN 2, unused otherwise (R183). -/
  | srcFn2
  /-- p0-p6. -/
  | predDst
  /-- p0-p7. -/
  | predSrc
  /-- D of `mov`: a register or p0-p6 (R177). -/
  | movDst
  /-- A of `mov`: as `src`, or p0-p7; a predicate in D and A together is illegal (R177). -/
  | movSrc
  /-- D of `step`: p0-p6 with `.el`, 248 without (R145). -/
  | stepDst
  /-- D of `lpoll`, by FN (R204). -/
  | pollDst
  /-- D of `lpeer`, by FN (R206). -/
  | peerDst
  /-- D of `bmov`, by FN (R364). -/
  | bmovDst
  /-- A multiple of 4 from v0 to v188 (R417). -/
  | quadDst
  /-- s0-s15. -/
  | seg
  /-- s0-s14 (R235). -/
  | segW
  /-- s0-s15 or 248, the scratchpad segment. -/
  | segQ
  /-- A of `cpy`: 248 for FN 2, else s0-s15 (R290). -/
  | cpySeg
  /-- 248, the scratchpad segment, alone. -/
  | qOnly
  /-- 249 alone: the operand is IMM. -/
  | immOnly
  /-- A tile handle t0-t63. -/
  | handle
  /-- A Basin handle b0-b15. -/
  | basin
  /-- A ring rg0-rg15. -/
  | ring
  /-- A landing counter lc0-lc31. -/
  | ctr
  /-- A landing counter or 248. -/
  | ctrOpt
  /-- A stream sm0-sm7. -/
  | stream
  /-- A tile handle with X[0] = 0, unused with X[0] = 1 (R356). -/
  | spA
  /-- `reg` with X[0] = 1, unused with X[0] = 0 (R356). -/
  | spReg
  /-- A special register (R158). -/
  | sreg
  /-- A special register that may be written (R157, R158). -/
  | sregW
  deriving DecidableEq, Repr

/-- What M holds (R88). -/
inductive MRule where
  /-- Not used. -/
  | none
  /-- A rounding mode 0-4. -/
  | round
  /-- A rounding mode 0-4 for T 3 and 4 bits of 0 for the BF16 types (R181). -/
  | roundF32
  /-- A collision rule, with the types of R217. -/
  | rule
  /-- A collision rule of `xfwr`: not 1 or 7 (R415). -/
  | xfwr
  deriving DecidableEq, Repr

/-- What X holds. -/
inductive XRule where
  | none
  /-- Bit 0 alone. -/
  | le1
  /-- A shift, 0-7. -/
  | shift
  /-- A width code, 0-5 (R196). -/
  | width
  deriving DecidableEq, Repr

/-- Which bits of IMM the entry uses beside an operand that names 249. -/
inductive ImmRule where
  /-- None: IMM is 0 unless an operand names 249. -/
  | none
  /-- All of them. -/
  | used
  /-- The low `n`; the others are 0. -/
  | low (n : Nat)
  /-- A count from `lo` to `hi`, the rest illegal (R156). -/
  | range (lo hi : Nat)
  /-- The spec word of `wld` (R348). -/
  | wld
  /-- The spec word of `binit` (R348, R360). -/
  | binit
  /-- The spec word of `bcmp` (R348, R363). -/
  | bcmp
  deriving DecidableEq, Repr

/-- What an entry says of its fields. -/
structure Form where
  /-- The pairs of sub-functions and types the entry lists. -/
  fnT : List (List Nat × List Ty) := [([0], [.b32])]
  m : MRule := .none
  sc : Bool := false
  x : XRule := .none
  d : Kind := .unused
  a : Kind := .unused
  b : Kind := .unused
  c : Kind := .unused
  imm : ImmRule := .none
  deriving DecidableEq, Repr

/-- What a check answers; the constructors stand in the order of R96. -/
inductive Verdict where
  | ok
  /-- The reserved-instruction fault. -/
  | reserved
  /-- The illegal-operand fault. -/
  | illegal
  deriving DecidableEq, Repr

/-- The fault of two checks that R96 puts first. -/
def Verdict.and : Verdict → Verdict → Verdict
  | .reserved, _ => .reserved
  | _, .reserved => .reserved
  | .illegal, _ => .illegal
  | _, .illegal => .illegal
  | .ok, .ok => .ok

def Verdict.reservedUnless (b : Bool) : Verdict := if b then .ok else .reserved
def Verdict.illegalUnless (b : Bool) : Verdict := if b then .ok else .illegal

/-- The kind a field takes once FN and X are known. -/
def Kind.resolve (k : Kind) (f : Fields) : Kind :=
  match k with
  | .dstWide => if f.fn = 2 then .dstPair else .dst
  | .regCas => if f.fn = 2 then .srcPair else .reg
  | .srcFn0 => if f.fn = 0 then .src else .unused
  | .srcFn2 => if f.fn = 2 then .src else .unused
  | .pollDst => if f.fn = 3 then .dstPair else if f.fn = 4 then .dst else .predDst
  | .peerDst => if f.fn = 0 then .dstPair else .dst
  | .bmovDst => if f.fn = 1 then .quadDst else .dst
  | .cpySeg => if f.fn = 2 then .qOnly else .seg
  | .spA => if f.x.getLsbD 0 then .unused else .handle
  | .spReg => if f.x.getLsbD 0 then .reg else .unused
  | k => k

/-- Whether a code is one the field takes (R86). -/
def Kind.check (k : Kind) (f : Fields) (code : Nat) : Verdict :=
  match k.resolve f with
  | .unused => .reservedUnless (code == 248)
  | .dst | .reg => .illegalUnless (code ≤ 191 || code == 248)
  | .dstPair => .illegalUnless (code ≤ 190 && code % 2 == 0 || code == 248)
  | .vreg | .vregDst => .illegalUnless (code ≤ 191)
  | .vregN => .illegalUnless (code + f.fn.toNat ≤ 191)
  | .src => .illegalUnless (code ≤ 191 || code == 248 || code == 249)
  | .regImm => .illegalUnless (code ≤ 191 || code == 249)
  | .srcPair => .illegalUnless (code ≤ 190 && code % 2 == 0)
  | .quadDst => .illegalUnless (code ≤ 188 && code % 4 == 0)
  | .predDst => .illegalUnless (192 ≤ code && code ≤ 198)
  | .predSrc => .illegalUnless (192 ≤ code && code ≤ 199)
  | .movDst => .illegalUnless (code ≤ 198)
  | .movSrc => .illegalUnless ((code ≤ 191 || code == 248 || code == 249) ||
      (192 ≤ code && code ≤ 199) && !(192 ≤ f.d.toNat && f.d.toNat ≤ 199))
  | .stepDst => .illegalUnless (if f.fn.getLsbD 0 then 192 ≤ code && code ≤ 198 else code == 248)
  | .seg => .illegalUnless (200 ≤ code && code ≤ 215)
  | .segW => .illegalUnless (200 ≤ code && code ≤ 214)
  | .segQ => .illegalUnless (200 ≤ code && code ≤ 215 || code == 248)
  | .qOnly => .illegalUnless (code == 248)
  | .immOnly => .illegalUnless (code == 249)
  | .handle => .illegalUnless (code ≤ 63)
  | .basin | .ring => .illegalUnless (code ≤ 15)
  | .ctr => .illegalUnless (code ≤ 31)
  | .ctrOpt => .illegalUnless (code ≤ 31 || code == 248)
  | .stream => .illegalUnless (code ≤ 7)
  | .sreg => .illegalUnless (216 ≤ code && code ≤ 232)
  | .sregW => .illegalUnless (code == 230)
  | .dstWide | .regCas | .srcFn0 | .srcFn2 | .pollDst | .peerDst | .bmovDst | .cpySeg | .spA | .spReg => .illegal

/-- The vector registers a code of the field names (R120). -/
def Kind.regs (k : Kind) (f : Fields) (code : Nat) : List Nat :=
  if code ≤ 191 then
    match k.resolve f with
    | .dst | .reg | .vreg | .vregDst | .src | .regImm | .movDst | .movSrc => [code]
    | .dstPair | .srcPair => [code, code + 1]
    | .vregN => (List.range (f.fn.toNat + 1)).map (code + ·)
    | .quadDst => if k = .bmovDst then [code, code + 1, code + 2] else [code, code + 1, code + 2, code + 3]
    | _ => []
  else []

/-- Whether the field reads IMM: it takes 249 and names it. -/
def Kind.namesImm (k : Kind) (f : Fields) (code : Nat) : Bool :=
  match k.resolve f with
  | .immOnly => true
  | .src | .regImm | .movSrc => code == 249
  | _ => false

/-- The types a collision rule takes (R217). -/
def ruleTakes (m : Nat) (t : Ty) : Bool :=
  if m = 0 || m = 1 || m = 7 then true
  else if m ≤ 4 then t == .i32 || t == .n32 || t == .f32
  else t == .b32

def MRule.check (r : MRule) (f : Fields) : Verdict :=
  .reservedUnless <| match r with
    | .none => f.m == 0
    | .round => f.m.toNat ≤ 4
    | .roundF32 => f.m.toNat ≤ 4 && (f.t == .f32 || f.m == 0)
    | .rule => ruleTakes f.m.toNat f.t
    | .xfwr => f.m != 1 && f.m != 7 && ruleTakes f.m.toNat f.t

def XRule.check (r : XRule) (f : Fields) : Verdict :=
  .reservedUnless <| match r with
    | .none => f.x == 0
    | .le1 => f.x.toNat ≤ 1
    | .shift => true
    | .width => f.x.toNat ≤ 5

def Form.namesImm (g : Form) (f : Fields) : Bool :=
  g.a.namesImm f f.a.toNat || g.b.namesImm f f.b.toNat || g.c.namesImm f f.c.toNat

def ImmRule.check (r : ImmRule) (g : Form) (f : Fields) : Verdict :=
  match r with
  | .none => .reservedUnless (f.imm == 0 || g.namesImm f)
  | .used => .ok
  | .low n => .reservedUnless (f.imm.toNat < 2 ^ n)
  | .range lo hi => .illegalUnless (lo ≤ f.imm.toNat && f.imm.toNat ≤ hi)
  | .wld => .reservedUnless (f.imm.toNat < 2 ^ 12 && (f.x == 1 || !f.imm.getLsbD 11))
  | .binit => .reservedUnless (f.imm.toNat < 2 ^ 26 && (f.fn == 0 || f.imm.toNat < 2 ^ 18))
  | .bcmp => .reservedUnless (f.imm.toNat < 2 ^ 15 && (f.fn != 3 || f.imm == 0))

/-- Whether the fields are those of an instruction of the form; the fault that R96 puts first if not. -/
def Form.check (g : Form) (f : Fields) : Verdict :=
  (Verdict.reservedUnless (g.fnT.any fun p => p.1.contains f.fn.toNat && p.2.contains f.t))
    |>.and (g.m.check f)
    |>.and (.reservedUnless (if g.sc then f.sc.toNat ≤ 5 else f.sc == 0))
    |>.and (g.x.check f)
    |>.and (g.imm.check g f)
    |>.and (g.d.check f f.d.toNat)
    |>.and (g.a.check f f.a.toNat)
    |>.and (g.b.check f f.b.toNat)
    |>.and (g.c.check f f.c.toNat)

/-- The vector registers an instruction of the form names. -/
def Form.regs (g : Form) (f : Fields) : List Nat :=
  g.d.regs f f.d.toNat ++ g.a.regs f f.a.toNat ++ g.b.regs f f.b.toNat ++ g.c.regs f f.c.toNat

/-- The entry of each instruction; an event has none and holds an empty form.  B is a field that `pref`, `evict` and `xlat` do not use,
so that code 249 there, which R263 makes illegal, is reserved before (R85, R96, log entry 131); `sgget` takes D = 248 as every
instruction with a result of two registers does (R165, log entry 132). -/
def Instr.form : Instr → Form
  | .nop _ => {}
  | .bra _ => { a := .immOnly }
  | .brx _ => { a := .vreg }
  | .brt _ => { a := .vreg, b := .immOnly }
  | .call _ => { d := .dstPair, a := .immOnly }
  | .callx _ => { d := .dstPair, a := .vreg }
  | .ret _ => { a := .srcPair }
  | .join _ => { fnT := [([0, 1], [.b32])] }
  | .step _ => { fnT := [([0, 1], [.b32])], sc := true, x := .le1, d := .stepDst }
  | .waitv _ =>
    { fnT := [([0, 1], [.b32, .i32, .n32, .f32]), ([2, 3, 4, 5], [.i32, .n32, .f32]), ([6, 7], [.b32])], sc := true, x := .shift, a := .segQ, b := .reg, c := .reg, imm := .used }
  | .exit _ => {}
  | .trap _ => { a := .immOnly, imm := .low 16 }
  | .bkpt _ => { a := .immOnly, imm := .low 16 }
  | .contv _ => { a := .vreg, b := .vreg }
  | .resume _ => { a := .vreg }
  | .svc _ => { a := .vreg, b := .immOnly, imm := .low 12 }
  | .add _ => { fnT := [([0], [.b32, .i32, .n32]), ([1], [.i32, .n32])], d := .dst, a := .src, b := .src }
  | .sub _ => { fnT := [([0], [.b32, .i32, .n32]), ([1], [.i32, .n32])], d := .dst, a := .src, b := .src }
  | .add3 _ =>
    { fnT := [([0], [.b32, .i32, .n32]), ([1], [.i32, .n32])], d := .dst, a := .src, b := .src, c := .src }
  | .mul _ => { fnT := [([0], [.b32, .i32, .n32]), ([1, 2], [.i32, .n32])], d := .dstWide, a := .src, b := .src }
  | .mad _ =>
    { fnT := [([0], [.b32, .i32, .n32]), ([1, 2], [.i32, .n32])], d := .dstWide, a := .src, b := .src, c := .src }
  | .min _ => { fnT := [([0], [.i32, .n32])], d := .dst, a := .src, b := .src }
  | .max _ => { fnT := [([0], [.i32, .n32])], d := .dst, a := .src, b := .src }
  | .abs _ => { fnT := [([0, 1], [.i32])], d := .dst, a := .src }
  | .neg _ => { fnT := [([0, 1], [.i32])], d := .dst, a := .src }
  | .addmin _ => { fnT := [([0], [.i32, .n32])], d := .dst, a := .src, b := .src, c := .src }
  | .and _ => { d := .dst, a := .src, b := .src }
  | .or _ => { d := .dst, a := .src, b := .src }
  | .xor _ => { d := .dst, a := .src, b := .src }
  | .not _ => { d := .dst, a := .src }
  | .bitfn _ => { d := .dst, a := .reg, b := .reg, c := .reg, imm := .low 8 }
  | .shl _ => { d := .dst, a := .src, b := .src }
  | .shr _ => { d := .dst, a := .src, b := .src }
  | .sra _ => { d := .dst, a := .src, b := .src }
  | .rot _ => { fnT := [([0, 1], [.b32])], d := .dst, a := .src, b := .src }
  | .fsh _ => { fnT := [([0, 1], [.b32])], d := .dst, a := .src, b := .src, c := .src }
  | .bfx _ => { fnT := [([0], [.i32, .n32])], d := .dst, a := .src, b := .src }
  | .bfi _ => { d := .dst, a := .src, b := .src, c := .src }
  | .clz _ => { d := .dst, a := .src }
  | .popc _ => { d := .dst, a := .src }
  | .brev _ => { d := .dst, a := .src }
  | .setp _ =>
    { fnT := [([0, 1], [.b32, .i32, .n32]), ([2, 3, 4, 5], [.i32, .n32])], d := .predDst, a := .src, b := .src }
  | .sel _ => { d := .dst, a := .src, b := .src, c := .predSrc }
  | .mov _ => { d := .movDst, a := .movSrc }
  | .lea _ => { x := .shift, d := .dst, a := .src, b := .src, c := .src }
  | .pset _ => { fnT := [([0, 1, 2, 3, 4], [.b32])], d := .predDst, a := .predSrc, b := .predSrc }
  | .idiv _ => { fnT := [([0], [.i32, .n32])], d := .dst, a := .src, b := .src }
  | .irem _ => { fnT := [([0], [.i32, .n32])], d := .dst, a := .src, b := .src }
  | .fadd _ => { fnT := [([0], [.f32, .bf16x2, .bf16l, .bf16h])], m := .roundF32, d := .dst, a := .src, b := .src }
  | .fsub _ => { fnT := [([0], [.f32, .bf16x2, .bf16l, .bf16h])], m := .roundF32, d := .dst, a := .src, b := .src }
  | .fmul _ => { fnT := [([0], [.f32, .bf16x2, .bf16l, .bf16h])], m := .roundF32, d := .dst, a := .src, b := .src }
  | .ffma _ =>
    { fnT := [([0], [.f32, .bf16x2, .bf16l, .bf16h])], m := .roundF32, d := .dst, a := .src, b := .src, c := .src }
  | .fmin _ => { fnT := [([0], [.f32, .bf16x2, .bf16l, .bf16h])], d := .dst, a := .src, b := .src }
  | .fmax _ => { fnT := [([0], [.f32, .bf16x2, .bf16l, .bf16h])], d := .dst, a := .src, b := .src }
  | .fsgn _ => { fnT := [([0, 1, 2], [.f32, .bf16x2, .bf16l, .bf16h])], d := .dst, a := .src, b := .srcFn2 }
  | .fsetp _ => { fnT := [([0, 1, 2, 3, 4, 5, 6, 7], [.f32, .bf16l, .bf16h])], d := .predDst, a := .src, b := .src }
  | .faddmin _ =>
    { fnT := [([0], [.f32, .bf16x2, .bf16l, .bf16h])], m := .roundF32, d := .dst, a := .src, b := .src, c := .src }
  | .fdot2 _ => { fnT := [([0], [.bf16x2])], m := .round, d := .dst, a := .src, b := .src, c := .src }
  | .fscale _ => { fnT := [([0], [.f32, .bf16x2, .bf16l, .bf16h])], m := .roundF32, d := .dst, a := .src, b := .src }
  | .frnd _ => { fnT := [([0], [.f32, .bf16x2, .bf16l, .bf16h])], m := .round, d := .dst, a := .src }
  | .fclass _ => { fnT := [([0], [.f32, .bf16l, .bf16h])], d := .predDst, a := .src, b := .src }
  | .fdiv _ => { fnT := [([0], [.f32])], m := .round, d := .dst, a := .src, b := .src }
  | .fsqrt _ => { fnT := [([0], [.f32])], m := .round, d := .dst, a := .src }
  | .frcp _ => { fnT := [([0], [.f32])], d := .dst, a := .src }
  | .frsq _ => { fnT := [([0], [.f32])], d := .dst, a := .src }
  | .fex2 _ => { fnT := [([0], [.f32])], d := .dst, a := .src }
  | .flg2 _ => { fnT := [([0], [.f32])], d := .dst, a := .src }
  | .ftrig _ => { fnT := [([0, 1], [.f32])], d := .dst, a := .src }
  | .ftanh _ => { fnT := [([0], [.f32])], d := .dst, a := .src }
  | .cvt _ => { fnT := [([0], [.f32, .bf16x2, .bf16l, .bf16h])], m := .round, d := .dst, a := .src }
  | .cvti _ => { fnT := [([0, 1], [.i32, .n32])], m := .round, d := .dst, a := .src }
  | .pack _ =>
    { fnT := [([0], [.bf16x2, .i8, .n8, .i16, .n16]), ([1], [.i8, .n8])], d := .dst, a := .src, b := .src }
  | .unpack _ =>
    { fnT := [([0], [.bf16l, .bf16h, .i8, .n8, .i16, .n16]), ([1], [.i8, .n8, .i16, .n16]), ([2, 3], [.i8, .n8])], d := .dst, a := .src }
  | .ext _ => { fnT := [([0], [.i32, .n32])], d := .dst, a := .src, b := .src }
  | .lshf _ => { fnT := [([0, 1, 2, 3], [.b32])], x := .width, d := .dst, a := .src, b := .src }
  | .lred _ =>
    { fnT := [([0], [.b32, .i32, .n32]), ([1, 2], [.i32, .n32]), ([3, 4, 5], [.b32]), ([6], [.f32]), ([7, 8], [.f32])], x := .width, d := .dst, a := .src }
  | .lscan _ =>
    { fnT := [([0], [.b32, .i32, .n32]), ([1, 2], [.i32, .n32]), ([3, 4, 5], [.b32]), ([6], [.f32]), ([8], [.b32, .i32, .n32]), ([9, 10], [.i32, .n32]), ([11, 12, 13], [.b32]), ([14], [.f32])], x := .width, d := .dst, a := .src }
  | .lpoll _ => { fnT := [([0, 1, 2, 3, 4], [.b32])], x := .width, d := .pollDst, a := .predSrc }
  | .lbcast _ => { fnT := [([0, 1], [.b32])], x := .width, d := .dst, a := .src, b := .srcFn0 }
  | .lpeer _ => { fnT := [([0, 1], [.b32])], x := .width, d := .peerDst, a := .src }
  | .lisect _ => { fnT := [([0], [.n32])], x := .width, d := .dstPair, a := .src, b := .src }
  | .lcomp _ => { x := .width, d := .dst, a := .src, b := .predSrc }
  | .lrank _ => { fnT := [([0], [.i32, .n32, .f32])], x := .width, d := .dst, a := .src }
  | .lmask _ => { fnT := [([0, 1, 2], [.b32])], x := .width, d := .dstPair }
  | .ld _ =>
    { fnT := [([0], [.b32, .i32, .n32, .f32, .bf16x2, .bf16l, .bf16h, .f16, .e4m3, .e5m2, .e2m1, .l6, .i8, .n8, .i16, .n16]), ([1], [.e2m1, .l6]), ([2, 3], [.l6])], x := .shift, d := .dst, a := .seg, c := .reg, imm := .used }
  | .st _ =>
    { fnT := [([0], [.b32, .i32, .n32, .f32, .bf16x2, .bf16l, .bf16h, .f16, .e4m3, .e5m2, .e2m1, .l6, .i8, .n8, .i16, .n16]), ([1], [.e2m1, .l6]), ([2, 3], [.l6])], m := .rule, x := .shift, a := .seg, b := .reg, c := .reg, imm := .used }
  | .fwr _ =>
    { fnT := [([0], [.b32, .i32, .n32, .f32])], m := .rule, x := .shift, d := .dst, a := .segQ, b := .reg, c := .reg, imm := .used }
  | .cwr _ =>
    { fnT := [([0, 1], [.b32, .i32, .n32, .f32]), ([2, 3, 4, 5], [.i32, .n32, .f32])], m := .rule, x := .shift, d := .predDst, a := .segQ, b := .srcPair, c := .reg, imm := .used }
  | .ldq _ =>
    { fnT := [([0], [.b32, .i32, .n32, .f32, .bf16x2, .bf16l, .bf16h, .f16, .e4m3, .e5m2, .e2m1, .l6, .i8, .n8, .i16, .n16]), ([1], [.e2m1, .l6]), ([2, 3], [.l6])], x := .shift, d := .dst, a := .qOnly, c := .reg, imm := .used }
  | .stq _ =>
    { fnT := [([0], [.b32, .i32, .n32, .f32, .bf16x2, .bf16l, .bf16h, .f16, .e4m3, .e5m2, .e2m1, .l6, .i8, .n8, .i16, .n16]), ([1], [.e2m1, .l6]), ([2, 3], [.l6])], m := .rule, x := .shift, a := .qOnly, b := .reg, c := .reg, imm := .used }
  | .ldk _ => { fnT := [([0], [.b32, .i32, .n32, .f32])], x := .shift, d := .dst, a := .immOnly, c := .reg }
  | .sgset _ => { d := .segW, a := .reg, b := .reg }
  | .sgget _ => { d := .dstPair, a := .seg }
  | .pref _ => { fnT := [([0, 1], [.b32])], x := .shift, a := .seg, c := .reg, imm := .used }
  | .evict _ => { fnT := [([0, 1], [.b32])], x := .shift, a := .seg, c := .reg, imm := .used }
  | .satom _ =>
    { fnT := [([0], [.i32, .n32]), ([1, 2], [.b32])], x := .shift, d := .dst, a := .seg, b := .regCas, c := .reg, imm := .used }
  | .xlat _ => { fnT := [([0, 1], [.b32])], x := .shift, d := .dstPair, a := .seg, c := .reg, imm := .used }
  | .cpy _ => { fnT := [([0, 1, 2, 3], [.b32])], d := .ctr, a := .cpySeg, b := .srcPair, c := .reg }
  | .cpyt _ => { fnT := [([0, 1, 2], [.b32])], d := .handle, a := .segQ, b := .reg, c := .reg, imm := .low 6 }
  | .cpym _ => { d := .ctr, a := .segQ, b := .srcPair, c := .reg, imm := .used }
  | .cpyg _ => { d := .ctr, a := .seg, b := .srcPair, c := .reg, imm := .used }
  | .lcsetArm _ => { d := .ctr, a := .regImm }
  | .lcsetBind _ => { fnT := [([1], [.b32])], d := .ctr, a := .src, b := .src, c := .src }
  | .lcsetUnbind _ => { fnT := [([2], [.b32])], d := .ctr }
  | .lcget _ => { fnT := [([0, 1, 2, 3], [.b32])], d := .dst, a := .ctr }
  | .rbindBind _ => { d := .ring, a := .vreg }
  | .rbindFree _ => { fnT := [([1], [.b32])], d := .ring }
  | .racq _ => { d := .dstPair, a := .ring }
  | .rrel _ => { d := .ring }
  | .rput _ => { x := .shift, d := .ring, a := .segQ, b := .reg, c := .reg, imm := .used }
  | .send _ => { d := .ctr, a := .reg, b := .reg, c := .reg }
  | .rhead _ => { d := .dst, a := .ring }
  | .talloc _ => { d := .handle, imm := .used }
  | .tfree _ => { d := .handle, imm := .used }
  | .tgive _ => { d := .handle, imm := .low 8 }
  | .ttake _ => { d := .handle, imm := .low 4 }
  | .tld _ =>
    { fnT := [([0, 1], [.bf16l, .f16, .e4m3, .e5m2, .e2m1, .l6])], x := .shift, d := .handle, a := .segQ, b := .ctrOpt, c := .reg, imm := .used }
  | .tst _ => { x := .shift, d := .ctrOpt, a := .segQ, b := .handle, c := .reg, imm := .used }
  | .tget _ => { fnT := [([0, 1], [.b32])], d := .dst, a := .handle, b := .vreg }
  | .tset _ => { fnT := [([0, 1], [.b32])], d := .handle, a := .vreg, b := .vreg }
  | .tqry _ => { d := .dst, a := .handle }
  | .wld _ => { x := .le1, d := .basin, a := .spA, b := .spReg, c := .spReg, imm := .wld }
  | .mma _ => { x := .le1, d := .basin, a := .spA, b := .spReg, c := .spReg, imm := .low 27 }
  | .mtaskq _ => { a := .segQ, b := .reg, c := .reg }
  | .balloc _ => { d := .basin, imm := .low 12 }
  | .bfree _ => { d := .basin }
  | .binit _ => { fnT := [([0, 1], [.b32])], d := .basin, imm := .binit }
  | .rslv _ => { x := .le1, d := .basin, a := .spA, b := .spReg, c := .spReg, imm := .low 31 }
  | .bcmp _ => { fnT := [([0, 1, 2, 3], [.b32])], d := .dst, a := .basin, imm := .bcmp }
  | .bmov _ => { fnT := [([0, 1], [.b32])], d := .bmovDst, a := .basin, imm := .low 17 }
  | .bsave _ => { d := .basin, a := .segQ, b := .reg, imm := .low 24 }
  | .brst _ => { d := .basin, a := .segQ, b := .reg, imm := .low 24 }
  | .bscale _ => { d := .basin, imm := .low 26 }
  | .tzf _ => { d := .dst, a := .handle }
  | .sopen _ => { fnT := [([0], [.n32, .f32, .bf16l, .f16])], d := .stream, a := .segQ, b := .srcPair }
  | .sisect _ => { d := .ring, a := .stream, b := .stream }
  | .nzscan _ => { d := .ctrOpt, a := .stream, b := .reg, imm := .used }
  | .sgath _ =>
    { fnT := [([0], [.bf16l, .f16])], d := .handle, a := .stream, b := .segQ, c := .srcPair, imm := .low 10 }
  | .smerge _ => { fnT := [([0, 1], [.b32])], d := .ring, a := .stream, b := .stream }
  | .scount _ => { d := .dst, a := .stream, b := .stream }
  | .sclose _ => { d := .stream }
  | .sstat _ => { d := .dst, a := .stream }
  | .xput _ =>
    { fnT := [([0, 1, 2, 3], [.b32])], x := .shift, d := .ctrOpt, a := .seg, b := .vregN, c := .reg, imm := .used }
  | .xget _ => { fnT := [([0, 1, 2, 3], [.b32])], x := .shift, d := .vregN, a := .seg, c := .reg, imm := .used }
  | .xfwr _ =>
    { fnT := [([0], [.b32, .i32, .n32, .f32])], m := .xfwr, x := .shift, d := .dst, a := .seg, b := .reg, c := .reg, imm := .used }
  | .xallg _ => { d := .ctrOpt, a := .segQ, b := .srcPair, c := .reg }
  | .xred _ => { fnT := [([0, 1, 2], [.i32, .n32, .f32])], d := .ctrOpt, a := .segQ, b := .srcPair, c := .reg }
  | .xbcst _ => { d := .ctrOpt, a := .segQ, b := .srcPair, c := .reg, imm := .used }
  | .xqry _ => { fnT := [([0, 1, 2, 3], [.b32])], d := .dst }
  | .digest _ => { fnT := [([0, 1, 2], [.b32])], d := .quadDst, a := .regImm }
  | .spawn _ =>
    { fnT := [([0, 1, 2, 3, 4, 5, 6, 7, 8, 9, 10, 11, 12, 13, 14, 15], [.b32])], a := .immOnly, b := .srcPair }
  | .launch _ => { d := .ctrOpt, a := .segQ, b := .reg, c := .src }
  | .yield _ => {}
  | .role _ => { a := .regImm }
  | .prio _ => { a := .regImm }
  | .tmset _ => { a := .regImm }
  | .xacq _ => { a := .immOnly, imm := .range 1 5 }
  | .xrel _ => { a := .immOnly, imm := .range 0 4 }
  | .srget _ => { d := .vregDst, a := .sreg }
  | .srset _ => { d := .sregW, a := .regImm }
  | .stepBoundaryComplete _ _ => {}
  | .deferredResultReturn _ _ _ => {}
  | .widerStepRelease _ => {}
  | .waitvPeriodicEvaluation _ _ => {}
  | .racqPeriodicCheck _ _ => {}
  | .ttakePeriodicCheck _ _ => {}
  | .laneSyncFault _ _ => {}
  | .xacqGrant _ => {}
  | .tallocGrant _ => {}
  | .ballocGrant _ => {}
  | .instructionCacheFill _ _ _ => {}
  | .laneTestComplete _ _ _ => {}
  | .atomicopComplete _ _ _ => {}
  | .gafferRequest _ => {}
  | .gafferTimeout _ => {}
  | .prepareAcknowledge _ _ _ => {}
  | .faultBufferEntry _ => {}
  | .translationFillComplete _ _ _ => {}
  | .fillFailure _ _ _ => {}
  | .mappingChange _ _ _ _ _ => {}
  | .migrationStart _ _ => {}
  | .migrationComplete _ _ _ => {}
  | .pageAllocate _ _ => {}
  | .zeroPendingClear _ => {}
  | .hostWrite _ _ _ => {}
  | .hostAtomicop _ _ _ _ _ => {}
  | .queueTailWrite _ _ => {}
  | .queueOpenSet _ => {}
  | .queueOpenClear _ => {}
  | .queueConfigWrite _ _ => {}
  | .wbaseWrite _ => {}
  | .irqenWrite _ => {}
  | .registerWrite _ _ => {}
  | .mbAbortLaunch _ _ _ => {}
  | .mbResumeGroup _ _ => {}
  | .mbAbortGroup _ _ => {}
  | .mbPreemptGroup _ _ _ => {}
  | .mbEnlargeOverflow _ _ _ => {}
  | .mbLoadFirmware _ _ _ => {}
  | .mbApplyTest _ _ _ => {}
  | .mbUnknownCommand _ _ => {}
  | .recordTake _ => {}
  | .batchHandout _ => {}
  | .groupPlace _ => {}
  | .gangReserve _ => {}
  | .coreReadyReply _ => {}
  | .gangConfirm _ => {}
  | .gangReservationRelease _ => {}
  | .gangReservationTimeout _ => {}
  | .gangBackoffExpiry _ => {}
  | .podGangReport _ _ => {}
  | .podGangTimeout _ => {}
  | .podModuleUnreachable _ => {}
  | .launchRetire _ => {}
  | .preemption _ => {}
  | .preemptionTimeout _ => {}
  | .eviction _ => {}
  | .vtimeThreshold _ _ => {}
  | .lateDelivery _ => {}
  | .packetAgeTick _ => {}
  | .copyRequestBegin _ => {}
  | .copyPieceComplete _ _ => {}
  | .ringSlotAssign _ => {}
  | .sendArrival _ => {}
  | .multicastDelivery _ _ => {}
  | .streamOperationBegin _ => {}
  | .streamSlotClose _ => {}
  | .streamOperationEnd _ => {}
  | .taskQueueEnter _ => {}
  | .mtaskqArrayRead _ => {}
  | .matrixRecordStart _ => {}
  | .matrixRecordComplete _ => {}
  | .recordWaitTimeout _ => {}
  | .remoteSettle _ _ _ => {}
  | .peerAckTimeout _ => {}
  | .collectiveComplete _ _ _ => {}
  | .ualinkPortDown _ => {}
  | .quadTestComplete _ => {}
  | .powerOnReset => {}
  | .bringUpStageComplete _ _ => {}
  | .thermalTrip => {}
  | .powerCap => {}
  | .thermalThrottle => {}
  | .powerRemoval => {}
  | .peerTransactionArrival _ => {}
  | .uncorrectableError _ => {}
  | .correctableError => {}

/-- The verdict on an instruction as syntax; an event is no word and has no check. -/
def Instr.check (i : Instr) : Verdict :=
  match i.fields with
  | some f => if Instr.ofOp i.op.toNat f = some i then i.form.check f else .reserved
  | none => .ok

/-- An instruction whose word the device decodes to it. -/
def WellFormed (i : Instr) : Prop := i.check = .ok

end Sys2Proof
end

