-- ==== Sys2Proof/Decode.lean ====
section
/-!
DEFINITION. From bytes to the canonical word (R91, R92), from the word to the instruction (R84, R96, R97), and back.
Every pattern is decoded: it is an instruction, or it has the fault that R97 gives it.
-/
namespace Sys2Proof

/-- The types in code order (R87). -/
def Ty.ofCode (n : BitVec 4) : Ty :=
  match n with
  | 0 => .b32 | 1 => .i32 | 2 => .n32 | 3 => .f32 | 4 => .bf16x2 | 5 => .bf16l | 6 => .bf16h | 7 => .f16
  | 8 => .e4m3 | 9 => .e5m2 | 10 => .e2m1 | 11 => .l6 | 12 => .i8 | 13 => .n8 | 14 => .i16 | _ => .n16

def Ty.code : Ty → BitVec 4
  | .b32 => 0 | .i32 => 1 | .n32 => 2 | .f32 => 3 | .bf16x2 => 4 | .bf16l => 5 | .bf16h => 6 | .f16 => 7
  | .e4m3 => 8 | .e5m2 => 9 | .e2m1 => 10 | .l6 => 11 | .i8 => 12 | .n8 => 13 | .i16 => 14 | .n16 => 15

/-- The fields of a canonical word, at the bit positions of R84. -/
def Fields.ofCanon (w : Canon) : Fields where
  s := w.getLsbD 95
  fn := w.extractLsb' 81 6
  pg := w.extractLsb' 77 4
  d := w.extractLsb' 69 8
  a := w.extractLsb' 61 8
  b := w.extractLsb' 53 8
  c := w.extractLsb' 45 8
  t := Ty.ofCode (w.extractLsb' 41 4)
  m := w.extractLsb' 38 3
  sc := w.extractLsb' 35 3
  x := w.extractLsb' 32 3
  imm := w.extractLsb' 0 32

/-- The canonical word of a major opcode and the fields (R84). -/
def Fields.canon (op : BitVec 8) (f : Fields) : Canon :=
  BitVec.ofBool f.s ++ op ++ f.fn ++ f.pg ++ f.d ++ f.a ++ f.b ++ f.c ++ f.t.code ++ f.m ++ f.sc ++ f.x ++ f.imm

/-- OP of a canonical word. -/
def Canon.op (w : Canon) : BitVec 8 := w.extractLsb' 87 8

/-- What a canonical word is. -/
inductive Decoded where
  | instr (i : Instr)
  /-- The reserved-instruction fault when it issues. -/
  | reserved
  /-- The illegal-operand fault when it issues, unless a feature it uses is missing (R77). -/
  | illegal (i : Instr)
  deriving DecidableEq, Repr

/-- The instruction of a canonical word, or its fault (R96, R97). -/
def decodeWord (w : Canon) : Decoded :=
  let f := Fields.ofCanon w
  match Instr.ofOp w.op.toNat f with
  | none => .reserved
  | some i =>
    match i.form.check f with
    | .ok => .instr i
    | .reserved => .reserved
    | .illegal => .illegal i

/-- The bytes an instruction occupies by bits [7:5] of its first byte; `none` is padding (R91). -/
def classLen (first : Byte) : Option Nat :=
  match (first.extractLsb' 5 3 : BitVec 3) with
  | 0 => none | 1 => some 2 | 2 => some 4 | 3 => some 6 | 4 => some 8 | 5 => some 10 | _ => some 12

/-- The canonical word of fields with FN as the four bits a class carries. -/
def canonOf (s : Bool) (op : BitVec 8) (fn : BitVec 4) (pg : BitVec 4) (d a b c : BitVec 8) (t : BitVec 4)
    (m sc x : BitVec 3) (imm : Word) : Canon :=
  BitVec.ofBool s ++ op ++ (0 : BitVec 2) ++ fn ++ pg ++ d ++ a ++ b ++ c ++ t ++ m ++ sc ++ x ++ imm

/-- The canonical word that a class expands to (R92); `n` holds the bytes as one little-endian integer, and bits
past the class are not read. -/
def expandClass (len : Nat) (n : BitVec 96) : Canon :=
  let op := n.extractLsb' 8 8
  let s := n.getLsbD 4
  let pg := n.extractLsb' 0 4
  let d := n.extractLsb' 16 8
  let a := n.extractLsb' 24 8
  let b := n.extractLsb' 32 8
  match len with
  | 2 => canonOf s op 0 pg 248 248 248 248 0 0 0 0 0
  | 4 => canonOf s op 0 pg d a 248 248 0 0 0 0 0
  | 6 => canonOf s op (n.extractLsb' 40 4) pg d a b 248 (n.extractLsb' 44 4) 0 0 0 0
  | 8 => canonOf s op (n.extractLsb' 48 4) pg d a b (n.extractLsb' 40 8) (n.extractLsb' 52 4) (n.extractLsb' 56 3)
      (n.extractLsb' 59 3) ((n.extractLsb' 62 2).setWidth 3) 0
  | 10 => canonOf s op (n.extractLsb' 40 4) pg d a b 248 (n.extractLsb' 44 4) (n.extractLsb' 48 3)
      (n.extractLsb' 51 3) (n.extractLsb' 54 3) ((n.extractLsb' 57 23).signExtend 32)
  | _ => canonOf (n.getLsbD 5) op (n.extractLsb' 48 4) (n.extractLsb' 1 4) d a b (n.extractLsb' 40 8)
      (n.extractLsb' 52 4) (n.extractLsb' 56 3) (n.extractLsb' 59 3)
      (BitVec.ofBool (n.getLsbD 0) ++ (n.extractLsb' 62 2 : BitVec 2)) (n.extractLsb' 64 32)

/-- The word a list of bytes is, read little-endian (R3): at most twelve bytes count. -/
def littleEndian : List Byte → Nat
  | [] => 0
  | b :: bs => b.toNat + 256 * littleEndian bs

/-- The `n` bytes of a number, the lowest first. -/
def bytesOf : Nat → Nat → List Byte
  | 0, _ => []
  | n + 1, w => BitVec.ofNat 8 w :: bytesOf n (w / 256)

/-- What stands at an instruction position of a body: padding, a fault word whose class runs past the body, or the
canonical word and its length (R79, R93, R94). -/
inductive Slot where
  | padding
  | malformed
  | word (w : Canon) (len : Nat)
  deriving DecidableEq, Repr

/-- The slot at the head of the rest of a body. -/
def decodeSlot (body : List Byte) : Slot :=
  match body with
  | [] => .padding
  | b :: _ =>
    match classLen b with
    | none => .padding
    | some len =>
      if body.length < len then .malformed
      else .word (expandClass len (BitVec.ofNat 96 (littleEndian (body.take len)))) len

/-- The instruction that the low bits of a numeral are, its bytes laid out little-endian and zeros above them. -/
def decodeTableWord (nbits w : Nat) : Option Instr :=
  match decodeSlot (bytesOf 12 (w % 2 ^ nbits)) with
  | .word c _ =>
    match decodeWord c with
    | .instr i => some i
    | _ => none
  | _ => none

/-- The canonical word of an instruction (R84); an event has none. -/
def encodeWord (i : Instr) : Option Canon := i.fields.map (Fields.canon i.op)

/-- The class's bits of the fields it carries (R92). -/
def classBits (len : Nat) (w : Canon) : BitVec 96 :=
  let lead (k : BitVec 3) : BitVec 8 := k ++ BitVec.ofBool (w.getLsbD 95) ++ (w.extractLsb' 77 4 : BitVec 4)
  let op : BitVec 8 := w.extractLsb' 87 8
  let fn : BitVec 4 := w.extractLsb' 81 4
  let d : BitVec 8 := w.extractLsb' 69 8
  let a : BitVec 8 := w.extractLsb' 61 8
  let b : BitVec 8 := w.extractLsb' 53 8
  let c : BitVec 8 := w.extractLsb' 45 8
  let t : BitVec 4 := w.extractLsb' 41 4
  let m : BitVec 3 := w.extractLsb' 38 3
  let sc : BitVec 3 := w.extractLsb' 35 3
  let x : BitVec 3 := w.extractLsb' 32 3
  match len with
  | 2 => (op ++ lead 1).setWidth 96
  | 4 => (a ++ d ++ op ++ lead 2).setWidth 96
  | 6 => (t ++ fn ++ b ++ a ++ d ++ op ++ lead 3).setWidth 96
  | 8 => ((x.setWidth 2 : BitVec 2) ++ sc ++ m ++ t ++ fn ++ c ++ b ++ a ++ d ++ op ++ lead 4).setWidth 96
  | 10 => ((w.extractLsb' 0 23 : BitVec 23) ++ x ++ sc ++ m ++ t ++ fn ++ b ++ a ++ d ++ op ++ lead 5).setWidth 96
  | _ => (w.extractLsb' 0 32 : BitVec 32) ++ (x.setWidth 2 : BitVec 2) ++ sc ++ m ++ t ++ fn ++ c ++ b ++ a ++ d ++
      op ++ (3 : BitVec 2) ++ BitVec.ofBool (w.getLsbD 95) ++ (w.extractLsb' 77 4 : BitVec 4) ++
      BitVec.ofBool (x.getLsbD 2)

/-- Whether a class carries every field of a canonical word that is not at its default (R93). -/
def classCarries (len : Nat) (w : Canon) : Bool :=
  expandClass len (classBits len w) == w

/-- The shortest class that carries a canonical word (R93). -/
def shortestClass (w : Canon) : Nat :=
  if classCarries 2 w then 2 else if classCarries 4 w then 4 else if classCarries 6 w then 6
  else if classCarries 8 w then 8 else if classCarries 10 w then 10 else 12

/-- The bytes of a canonical word in a class. -/
def encodeClass (len : Nat) (w : Canon) : List Byte := bytesOf len (classBits len w).toNat

/-- The bytes of an instruction, in the class the assembler chooses (R93). -/
def encode (i : Instr) : List Byte :=
  match encodeWord i with
  | some w => encodeClass (shortestClass w) w
  | none => []

/-- The instruction a list of bytes opens with, and its length. -/
def decodeBytes (bs : List Byte) : Option (Instr × Nat) :=
  match decodeSlot bs with
  | .word w n =>
    match decodeWord w with
    | .instr i => some (i, n)
    | _ => none
  | _ => none

end Sys2Proof
end

