-- ==== Sys2Proof/Machine/Table.lean ====
section
/-!
DEFINITION. Sparse data by a numeric key, in one canonical form: keys strictly rising, and no entry equal to what an
unlisted key reads as.  Registers, memory and the engines' objects are such tables.
-/
namespace Sys2Proof

/-- Pairs of a key and a value, keys strictly rising. -/
abbrev Table (α : Type) := List (Nat × α)

/-- The value at a key, `d` where the key is not listed. -/
def Table.get (d : α) : Table α → Nat → α
  | [], _ => d
  | (j, v) :: t, k => if j = k then v else Table.get d t k

/-- The value at a key, if it is listed. -/
def Table.find? : Table α → Nat → Option α
  | [], _ => none
  | (j, v) :: t, k => if j = k then some v else Table.find? t k

/-- The table without a key. -/
def Table.erase : Table α → Nat → Table α
  | [], _ => []
  | (j, v) :: t, k => if j = k then Table.erase t k else (j, v) :: Table.erase t k

/-- A pair put in its place among larger and smaller keys. -/
def Table.insert (k : Nat) (v : α) : Table α → Table α
  | [] => [(k, v)]
  | (j, w) :: t => if k < j then (k, v) :: (j, w) :: t else (j, w) :: Table.insert k v t

/-- The table with a value at a key, whatever the value. -/
def Table.put (t : Table α) (k : Nat) (v : α) : Table α := Table.insert k v (t.erase k)

/-- The table with a value at a key; the value an unlisted key reads as takes the entry away. -/
def Table.set [DecidableEq α] (d : α) (t : Table α) (k : Nat) (v : α) : Table α :=
  if v = d then t.erase k else Table.put t k v

/-- The table with an entry changed, where the key is listed. -/
def Table.update (t : Table α) (k : Nat) (f : α → α) : Table α :=
  match t.find? k with
  | some v => t.put k (f v)
  | none => t

/-- The table with the values at rising keys changed, listed or not; `fuel` bounds the walk. -/
def Table.mapKeys [DecidableEq α] (d : α) (f : Nat → α → α) : Nat → List Nat → Table α → Table α
  | 0, _, t => t
  | _, [], t => t
  | fuel + 1, k :: ks, [] => add k (f k d) (Table.mapKeys d f fuel ks [])
  | fuel + 1, k :: ks, (j, v) :: t =>
    if j < k then (j, v) :: Table.mapKeys d f fuel (k :: ks) t
    else if j = k then add k (f k v) (Table.mapKeys d f fuel ks t)
    else add k (f k d) (Table.mapKeys d f fuel ks ((j, v) :: t))
where
  add (k : Nat) (v : α) (t : Table α) : Table α := if v = d then t else (k, v) :: t

/-- The keys that are listed. -/
def Table.keys (t : Table α) : List Nat := t.map (·.1)

/-- Whether every key of the table is above `k`. -/
def Table.above (k : Nat) (t : Table α) : Bool := t.all fun p => decide (k < p.1)

/-- The canonical form: keys strictly rising. -/
def Table.sorted : Table α → Bool
  | [] => true
  | (j, _) :: t => Table.above j t && Table.sorted t

/-- The canonical form of a table whose unlisted keys read as `d`. -/
def Table.wf [DecidableEq α] (d : α) (t : Table α) : Bool :=
  t.sorted && t.all fun p => decide (p.2 ≠ d)

end Sys2Proof
end

