-- ==== Sys2Proof/Machine/State.lean ====
section
/-!
DEFINITION. The state of the module as plain data, and the state after power-on reset.  Cores are numbered
die × 64 + quad × 4 + core and quads die × 16 + quad.  Groups, launches and the requests of the engines have numbers
of the model's own, taken from one running count.
-/
namespace Sys2Proof.Machine

/-- No instruction or event of the model stops the machine with a fault: a fault of the spec is a trap or a kill, which
is a next state.  The one constructor is for a state that no run reaches. -/
inductive Fault where
  /-- Raised by nothing; safe. -/
  | none
  deriving DecidableEq, Repr

/-- Why a step is refused. -/
inductive Refusal where
  /-- An instruction that has no meaning yet; safe. -/
  | notModelled (mnemonic : String)
  /-- An event whose condition the state does not meet: it cannot happen now.  Raised by the meaning of every event;
  safe, since the machine has no such step. -/
  | notEnabled
  deriving DecidableEq, Repr

/-- Memory and scratchpad by the byte (R241); an unlisted byte reads as 0 (log entry 2).  A key below 2^52 is a
physical address; see `Machine/Ops.lean` for the others. -/
abbrev Memory := List Host.Cell

/-- A thread: its group's number and its `%tid`. -/
structure TRef where
  grp : Nat
  tid : Nat
  deriving DecidableEq, Repr

/-- The access of an instruction to a run of bytes, checked and translated at issue (R213): the scratchpad offset or
virtual address of the first byte and the memory key of each. -/
structure Acc where
  sp : Bool
  va : Nat
  keys : List Nat
  deriving DecidableEq, Repr

/-- A place an engine reads or writes: the scratchpad of the group's quad, or its launch's address space. -/
structure Loc where
  sp : Bool
  addr : Nat
  deriving DecidableEq, Repr

/-- Where the value of a write goes besides its cell. -/
inductive WriteKind where
  | st
  /-- A fetching write and the deferred result that takes its fetch value (R222). -/
  | fwr (seq : Nat)
  /-- A conditional write: comparison, comparand and the deferred result that takes its predicate (R223). -/
  | cwr (cmp : Nat) (comparand : Word) (seq : Nat)
  deriving DecidableEq, Repr

/-- A buffered write (R215, R216): its bits are numbered from bit 0 of its first byte. -/
structure Write where
  acc : Acc
  mask : Nat
  value : Nat
  /-- The position of the element's lowest bit. -/
  sh : Nat := 0
  rule : Nat
  t : Ty
  kind : WriteKind
  pc : Word
  peer : Bool := false
  system : Bool := false
  memside : Bool := false
  /-- The order in which it was buffered, among all writes. -/
  order : Nat := 0
  /-- Its cells lie in the overflow region (R257). -/
  spilled : Bool := false
  deriving DecidableEq, Repr

/-- A queued `satom` (R265). -/
structure Satom where
  acc : Acc
  fn : Nat
  x : Word
  y : Word
  seq : Nat
  pc : Word
  t : Ty := .b32
  /-- The order in which it was queued, among the buffered writes. -/
  order : Nat := 0
  deriving DecidableEq, Repr

/-- Where a deferred result lands (R118). -/
inductive Dst where
  | none
  /-- `n` registers from `v`. -/
  | regs (v n : Nat)
  /-- One half of a register (R214). -/
  | half (v : Nat) (hi : Bool)
  | pred (p : Nat)
  deriving DecidableEq, Repr

/-- Where a deferred result comes from.  All but the first two are outstanding (R116). -/
inductive Src where
  /-- Returned: the words that land. -/
  | vals (l : List Word)
  /-- Returned: nothing lands (R197, R363). -/
  | keep
  /-- Formed from operands sampled at issue, and yet to return (R164). -/
  | sampled (l : List Word)
  /-- A read of memory, performed when it returns (R28). -/
  | load (acc : Acc) (t : Ty) (fn : Nat)
  | lcget (ctr part : Nat)
  | rhead (ring : Nat)
  | tqry (coh name : Nat)
  | tget (tile row col : Nat) (raw : Bool)
  | xqry (sel : Nat)
  | digest (q g : Nat)
  /-- Given by the commit of the step (R222, R223, R265, R319) and not counted as outstanding before it. -/
  | commit
  /-- Given by an engine. -/
  | engine
  /-- An acquisition of a ring's head (R280). -/
  | racq (ring : Nat)
  deriving DecidableEq, Repr

/-- A deferred result, with a number of its own. -/
structure Deferred where
  seq : Nat
  dst : Dst
  src : Src
  deriving DecidableEq, Repr

/-- A parked `waitv` with what it sampled at issue (R147), and its code offset, which is FPC of a fault that it meets later
(R95, R152). -/
structure WaitV where
  acc : Acc
  cmp : Nat
  t : Ty
  b : Word
  scope : Nat
  pc : Word
  /-- Its first read has not been performed: it waits for the release of the boundary, or for a prepared cell (R147, R258). -/
  unread : Bool := false
  deriving DecidableEq, Repr

/-- The state of a thread (R111). -/
inductive TState where
  | ready
  /-- Arrived at its domain's boundary (R18). -/
  | boundary
  /-- Waiting at the join at a code offset; `grp` for the group's set (R27). -/
  | join (off : Word) (grp : Bool)
  | waitv (w : WaitV)
  /-- Parked until its cohort holds `n` extended blocks; whether the instruction carries the step marker (R121). -/
  | xacq (n : Nat) (mark : Bool)
  /-- Parked on acquisitions: `racq` results and `ttake` names (R18). -/
  | acquire
  /-- Parked by a stream pause (R311). -/
  | pause
  /-- Waiting in `resume` for the fill; whether the instruction carries the step marker (R153). -/
  | resuming (mark : Bool)
  | exited
  deriving DecidableEq, Repr

/-- How a thread arrived at its boundary: the order of arrivals and the cycle, the scope it named (R24), `.sc`, the
predicate of `.el`, whether the arrival was an `exit`, and a `waitv` it parks in after the release (R147). -/
structure Arrival where
  order : Nat
  cycle : DWord := 0
  scope : Nat := 0
  sc : Bool := false
  el : Option Nat := none
  isExit : Bool := false
  wait : Option WaitV := none
  deriving DecidableEq, Repr

/-- What `lcset` does to a counter (R294). -/
inductive LcOp where
  | arm (target : Word)
  | bind (base len tag : Nat)
  | unbind
  deriving DecidableEq, Repr

/-- The kinds of a copy request (R273). -/
inductive CopyKind where
  /-- `cpy`: bytes from one place to another. -/
  | linear (src dst : Loc) (len : Nat)
  /-- `cpyt` and `tld`: a tile or MX image from memory into a tile slot.  `conv` holds MQ, QS, MF, TF of R285. -/
  | tileIn (src : Loc) (tile : Nat) (mxin : Bool) (mq qs : Bool) (mf tf : Nat)
  /-- `cpyt.st` and `tst`: a tile to memory; the zero tile if the handle was free at issue (R330, R354). -/
  | tileOut (tile : Nat) (dst : Loc) (zero : Bool) (mq : Bool) (mf : Nat)
  /-- `cpym`. -/
  | multi (src : Loc) (len off tag mask : Nat)
  /-- `cpyg`: the segment's base and size. -/
  | gather (index count dst size segBase segSize : Nat)
  | put (ring : Nat) (src : Loc) (len : Nat)
  | send (die quad port len src : Nat)
  deriving DecidableEq, Repr

/-- A copy request (R273-R276): `quad` is the quad that issued it, whose scratchpad it reads (R289); `by_` is the domain whose
step passed it, while that step is not released (R40); `left` are the pieces that have not landed, with the length of each;
`ahead` holds bytes of its source that the engine has read before the rest of their piece (R275, log entry 10); `order` is its
place in the program order of its thread (R432). -/
structure Copy where
  grp : Nat
  quad : Nat := 0
  kind : CopyKind
  order : Nat := 0
  ctr : Option Nat
  op : Nat
  pc : Word
  rank : Word
  by_ : Option Nat := none
  begun : Bool := false
  left : List (Nat × Nat) := []
  done : Nat := 0
  ahead : Table Byte := []
  /-- The group and the ring that a put or an arrived message goes to, and the slot it has been assigned (R279, R282). -/
  dest : Option (Nat × Nat) := none
  slot : Option Nat := none
  deriving DecidableEq, Repr

/-- The kinds of a stream instance (R305): the streams it names, and its output. -/
inductive StreamKind where
  | sopen (sm : Nat) (sp : Bool) (seg : DWord) (base : Nat) (t : Ty) (count : Nat)
  | sclose (sm : Nat)
  | sisect (ring a b : Nat)
  | smerge (uniq : Bool) (ring a b : Nat)
  | scount (a b : Nat)
  | nzscan (a : Nat) (ctr : Option Nat) (out limit : Nat)
  /-- `base` is the place of column 0 of row 0 and `size` the segment's size from its base, or none. -/
  | sgath (a : Nat) (tiles : List Nat) (sp : Bool) (segBase segSize : Nat) (off pitch : Nat) (ctr : Option Nat)
  deriving DecidableEq, Repr

/-- A stream operation that has started (R307): captured ranges and cursors. -/
structure SOp where
  grp : Nat
  kind : StreamKind
  /-- The identities of the streams it reads, which their slots may have lost since. -/
  aId : Nat := 0
  bId : Nat := 0
  pc : Word
  rank : Word
  /-- The threads that receive the result of `scount`, each with its deferred result. -/
  takers : List (TRef × Nat) := []
  aLoc : Loc
  aTy : Ty
  aEnd : Nat
  bLoc : Loc
  bEnd : Nat
  i : Nat
  j : Nat
  last : Option Word := none
  found : Nat := 0
  /-- The elements of each stream that were taken last (R310). -/
  prevA : Option Word := none
  prevB : Option Word := none
  /-- The non-zero elements that `nzscan` has found: position and value (R317). -/
  out : List (Nat × Word) := []
  /-- The open output slot: its index and the bytes written. -/
  slot : Option (Nat × Nat) := none
  /-- The first element of the range (R318). -/
  start : Nat
  /-- The domain whose step passed it, while that step is not released (R40). -/
  by_ : Option Nat := none
  begun : Bool := false
  /-- The bytes of its partly written slot, while its group is away from its core (R313). -/
  part : List Byte := []
  /-- Bytes of its source that the engine has read before the rest of their element (R307, log entry 10). -/
  ahead : Table Byte := []
  /-- It has faulted, and only its ring's terminator is still to be written (R312): its group need not stay for it (R14). -/
  faulted : Bool := false
  deriving DecidableEq, Repr

/-- What a tile-store slot holds (R65, R66, R328): `fmt` by the codes of R338, the scales of its sub-blocks and the
element codes by row × 32 + column. -/
structure TileData where
  fmt : Nat := 0
  qs : Bool := false
  scales : List Nat := [127, 127, 127, 127]
  bad : Bool := false
  codes : Table Nat := []
  deriving DecidableEq, Repr

/-- One element of the Basin (R68): its value V, sticky bit, anchor, a pending anchor (R336) and the residue (R327). -/
structure Elem where
  val : BitVec 44 := 0
  k : Bool := false
  a : BitVec 8 := 151
  pend : Bool := false
  q : Nat := 0
  deriving DecidableEq, Repr

/-- A weight binding (R337): the format, NCOL, and the wld record and band index of each entry. -/
structure Binding where
  fmt : Nat := 0
  ncol : Nat := 6
  bands : List (Option (Nat × Nat)) := [none, none, none]
  deriving DecidableEq, Repr

/-- A matrix record (R339) with what was resolved when it was built: the Basin region, the tiles, and where its
result goes. -/
structure MRec where
  grp : Nat
  dom : Nat
  coh : Nat
  kind : Nat
  /-- The region's number. -/
  bas : Nat
  /-- The binding as the records submitted before it have built it (R337). -/
  bind : Binding := {}
  bh : Nat
  row0 : Nat
  nrow : Nat
  kb0 : Nat := 0
  nk : Nat := 1
  ncol : Nat := 1
  qs : Bool := false
  /-- The output format of a resolve, and the format that a wld loads. -/
  ofmt : Nat := 0
  anch : Nat := 0
  col0 : Nat := 0
  lce : Option Nat := none
  scr : Bool := false
  /-- The first handle of the run as the instruction names it (R339). -/
  th : Nat := 0
  tiles : List Nat := []
  base : Nat := 0
  desc : Word := 0
  loc : Loc := ⟨true, 0⟩
  fn : Nat := 0
  shift : Int := 0
  takers : List (TRef × Nat) := []
  pc : Word
  rank : Word
  idx : Nat := 0
  cur : Nat := 0
  running : Bool := false
  /-- The domain whose step passed it, while that step is not released (R40). -/
  by_ : Option Nat := none
  /-- The model's count when it was submitted: commits numbered from here on race with its landings (R13). -/
  since : Nat := 0
  /-- The tiles of its handles as they stood at its start, a free one `none` (R340). -/
  caught : Option (List (Option TileData)) := none
  /-- The elements of its region as it found them with its first rows, for a record of more than 32 rows (R327). -/
  frozen : Option (Table Elem) := none
  deriving DecidableEq, Repr

/-- An `mtaskq` array being read (R358). -/
structure MArray where
  grp : Nat
  dom : Nat
  coh : Nat
  loc : Loc
  count : Nat
  next : Nat := 0
  /-- Records of later instances of the commit: they enter the queue behind the array's (R340, R358). -/
  behind : List Nat := []
  pc : Word
  rank : Word
  deriving DecidableEq, Repr

/-- A remote operation (R408): what it does at the peer. -/
inductive RemoteKind where
  | xput (words : List Word)
  | xget (n : Nat)
  | xfwr (rule : Nat) (t : Ty) (value : Word)
  /-- One collision set of a commit to a PEER page (R225): the bits of each byte that it writes and the byte that holds
  them, and the results that its writers receive: thread, deferred result and value. -/
  | commit (bytes : List (Nat × Byte × Byte)) (results : List (TRef × Nat × Word))
  deriving DecidableEq, Repr

structure Remote where
  grp : Nat
  launch : Nat
  kind : RemoteKind
  acc : Acc
  ctr : Option Nat := none
  taker : Option (TRef × Nat) := none
  op : Nat
  pc : Word
  rank : Word
  deriving DecidableEq, Repr

/-- A collective (R411). -/
structure Collective where
  grp : Nat
  op : Nat
  fn : Nat
  t : Ty
  src : Loc
  dst : Loc
  len : Nat
  root : Nat
  /-- The bytes of the source read before a miss paused it, the whole result once it is known, and how much of that has
  landed (R411). -/
  own : List Byte := []
  image : Option (List Byte) := none
  done : Nat := 0
  ctr : Option Nat
  pc : Word
  rank : Word
  /-- The domain whose step passed it, while that step is not released (R40). -/
  by_ : Option Nat := none
  deriving DecidableEq, Repr

/-- What an instance of a cohort does at the commit (R305, R329). -/
inductive InstAct where
  /-- It has acted at issue and passes nothing. -/
  | none
  /-- The words that every thread of the instance receives, once they have been sampled (R347). -/
  | value (l : Option (List Word))
  | stream (k : StreamKind)
  | copy (c : Copy)
  | record (r : MRec)
  | array (a : MArray)
  /-- A posting: the tile, the receiving cohort and the channel (R331). -/
  | tgive (tile coh chan : Nat)
  | ttake (name chan : Nat)
  /-- Element writes of `tset`: row, column, raw code or FP32 value (R355). -/
  | tset (tile : Nat) (raw : Bool) (l : List (Nat × Nat × Word))
  | collective (c : Collective)
  deriving DecidableEq, Repr

/-- An instance: one cohort, one code offset, one step (R305, R329); `order` is the place of the instruction in the
program order of its lowest-ranked thread, and `takers` are the deferred results of its threads. -/
structure Inst where
  coh : Nat
  pc : Word
  rank : Word
  seq : Nat
  order : Nat
  act : InstAct
  takers : List (TRef × Nat) := []
  deriving DecidableEq, Repr

/-- What a thread has asked for in the ending step, in program order (R19, R432). -/
inductive Fx where
  | write (w : Write)
  | satom (a : Satom)
  | lcset (ctr : Nat) (op : LcOp)
  | rbind (ring : Nat) (desc : BitVec 128)
  | rfree (ring : Nat)
  | rrel (ring : Nat)
  | sstat (sm seq : Nat)
  | copy (c : Copy)
  | remote (r : Remote)
  | launch (acc : Acc) (q : Nat) (ctr : Option Nat)
  | spawn (entry : Word) (ncoh : Nat) (v0 v1 : Word) (pc : Word)
  | svc (off num : Nat)
  | contv (entry frame : Word)
  | role (r : Byte)
  | prio (p : Nat)
  | yield
  deriving DecidableEq, Repr

/-- A thread (R109-R118).  `%vtime` is `vtime` and the cycles since `since` while the thread is resident (R159). -/
structure Thread where
  v : Table Word := []
  p : BitVec 7 := 0
  s : List DWord := []
  pc : Word := 0
  here : Word := 0
  /-- A header that fall-through reaches next, and the FPC of a fault there (R81). -/
  fall : Option (Word × Word) := none
  reconv : Option Word := none
  dstep : Word := 0
  xstep : Word := 0
  vtime : Word := 0
  since : DWord := 0
  tmr : Word := 0
  clkl : Option Word := none
  st : TState := .ready
  arr : Option Arrival := none
  /-- The deferred results of the step, in program order (R118). -/
  defs : List Deferred := []
  fx : List Fx := []
  /-- What `ttake` still waits on: the instance's number, name and channel (R331, R368). -/
  takes : List (Nat × Nat × Nat) := []
  /-- Its boundary has passed with acquisitions unmet: it goes on once they are met and no stream pause holds its group (R18,
  R320). -/
  late : Bool := false
  /-- PC, block and fall-through of a thread that a redirect took (R151). -/
  saved : Option (Word × Word × Option (Word × Word)) := none
  /-- The core's cycle of the last issue (R113). -/
  lastIssue : Option Nat := none
  deriving DecidableEq, Repr

/-- The resolution site of a prepared cell (R259). -/
inductive Site where
  /-- The scratchpad bank, home slice, HBM controller or peer: it acknowledges by itself. -/
  | direct
  /-- The Gaffer of a quad. -/
  | gaffer (quad : Nat)
  deriving DecidableEq, Repr

/-- A cell on its way through the prepare phase (R258). -/
inductive Prep where
  | pending
  | queued
  | acked
  deriving DecidableEq, Repr

structure Cell where
  key : Nat
  site : Site
  st : Prep
  deriving DecidableEq, Repr

/-- Where a domain stands between two steps. -/
inductive Phase where
  /-- Its threads run or arrive. -/
  | run
  /-- Its commit event has applied; results, AtomicOps or room in a queue are awaited. -/
  | committed
  /-- It has committed a boundary of a wider scope and waits for the barrier network (R24). -/
  | wider (scope : Nat) (sc : Bool)
  /-- It has committed and waits, saved or to be saved (R43); a scope if it waits at a wider step too. -/
  | stopped
  deriving DecidableEq, Repr

/-- A step domain (R17). -/
structure Domain where
  phase : Phase := .run
  /-- The cells being prepared (R258); `none` before the first is sent. -/
  prep : Option (List Cell) := none
  /-- The order of the event among those in their prepare phase: taken when it sends its first cell (R259). -/
  prepNo : Option Nat := none
  insts : List Inst := []
  /-- The AtomicOps of the committed event, in order, with the value that each found; `none` for one that completes with
  an error status (R265). -/
  satoms : List (TRef × Satom × Option Word) := []
  /-- The AtomicOps of the coming event, by place in its order, that will complete with an error status (R265). -/
  atomErrs : List Nat := []
  svcs : List (Nat × Nat) := []
  /-- `tgive` postings that wait for a place (R331): tile, cohort, channel. -/
  posts : List (Nat × Nat × Nat) := []
  /-- The threads that executed the ending step (R19). -/
  proper : List Nat := []
  /-- Boundaries in a row with no cell and no work request (R125). -/
  quiet : Nat := 0
  /-- The package cycle at the first of them. -/
  quietFrom : DWord := 0
  /-- The order of the domain's commit among those of a wider step (R24). -/
  commitNo : Nat := 0
  /-- Cells of the commit unit that the step holds, and cells in the overflow region (R256, R257). -/
  cells : Nat := 0
  spilled : Nat := 0
  /-- It has completed a boundary since a stream operation of its group paused (R311). -/
  paused : Bool := false
  /-- The thread and the write that first found no room in the overflow region (R257). -/
  lost : Option (Nat × Write) := none
  deriving DecidableEq, Repr

/-- A landing counter (R269). -/
structure Ctr where
  und : Word := 0
  tgt : Word := 0
  cnt : Word := 0
  ph : Bool := false
  err : Bool := false
  bf : Bool := false
  out : Nat := 0
  /-- The multicast binding: base, length and tag (R283). -/
  bnd : Option (Nat × Nat × Nat) := none
  deriving DecidableEq, Repr

/-- The state of a ring slot (R279). -/
inductive SlotSt where
  | free | assigned | filled | acquired
  deriving DecidableEq, Repr

/-- A ring (R278). -/
structure Ring where
  bound : Bool := false
  plaunch : Word := 0
  pgrp : Nat := 0
  port : Nat := 0
  msg : Bool := false
  slotSize : Nat := 0
  base : Nat := 0
  slots : List (SlotSt × Nat) := []
  tail : Nat := 0
  head : Nat := 0
  /-- The acquired slots, oldest first. -/
  acq : List Nat := []
  bf : Bool := false
  err : Bool := false
  /-- Puts and messages that wait for a slot, oldest first (R279). -/
  wait : List Nat := []
  deriving DecidableEq, Repr

/-- A stream slot (R302), with a number of the stream's own.  SEG is the scratchpad of the group's quad where `sp` is set, and else the
segment register value that `seg` holds. -/
structure Stream where
  bnd : Bool := false
  id : Nat := 0
  sp : Bool := false
  seg : DWord := 0
  base : Nat := 0
  t : Ty := .b32
  len : Nat := 0
  pos : Nat := 0
  ord : Bool := false
  err : Bool := false
  deriving DecidableEq, Repr

/-- The name of a tile (R330, R333): released, given away, or mapped to a tile. -/
inductive Name where
  | released | given | mapped (tile : Nat)
  deriving DecidableEq, Repr

/-- The state of a tile (R330). -/
inductive TileSt where
  | free | filling | full
  deriving DecidableEq, Repr

structure Tile where
  quad : Nat
  grp : Nat
  st : TileSt := .free
  data : TileData := {}
  /-- The domain whose uncommitted step issued the pending fill (R431). -/
  fillDom : Option Nat := none
  /-- The instance that makes it filling: cohort and code offset (R318). -/
  fillBy : Option (Nat × Word) := none
  deriving DecidableEq, Repr

/-- One band of a latch: the column tiles of the wld that loaded it (R337). -/
abbrev Band := List TileData

/-- The image that a finished wld record leaves for its binding: its tiles and bands (R337). -/
structure Image where
  tiles : List Nat
  bands : List Band
  deriving DecidableEq, Repr

/-- A Basin region (R335): its core, first row of the core's Basin, rows and elements by row × 192 + column. -/
structure Basin where
  grp : Nat
  bh : Nat
  core : Nat
  row : Nat
  rows : Nat
  elems : Table Elem := []
  status : BitVec 3 := 0
  /-- The binding as instructions at issue have built it, and as submitted records have. -/
  bind : Binding := {}
  sub : Binding := {}
  /-- Unbound by `bfree` and kept for its unfinished records (R359). -/
  freed : Bool := false
  deriving DecidableEq, Repr

/-- A spawn record with the `%grp` it gave (R393). -/
structure Spawn where
  launch : Nat
  grp : Nat
  entry : Word
  ncoh : Nat
  v0 : Word
  v1 : Word
  /-- The group and domain whose step passed it, while that step is not released (R39). -/
  by_ : Option (Nat × Nat) := none
  deriving DecidableEq, Repr

/-- A fault frame in use (R151-R153). -/
structure FrameUse where
  off : Nat
  asid : Nat
  /-- The faulting address and thread, and its PC. -/
  va : Nat
  tid : Nat
  fpc : Word
  ready : Bool
  /-- Its fill has failed while the group was saved; the group traps when it is restored (R154). -/
  failed : Bool := false
  /-- The redirected threads that have neither resumed nor exited. -/
  left : List Nat
  deriving DecidableEq, Repr

/-- Where a group stands. -/
inductive GState where
  | running
  /-- Trapped and held under DBG, with the address of its frame (R389). -/
  | trapped (frame : Nat)
  /-- Parked by a replayable miss: its address space, address and thread (R251). -/
  | fill (asid va tid : Nat)
  /-- Saved, away from its core (R43), with the KIND of the save and the miss that it waits on. -/
  | saved (kind : Nat) (fill : Option (Nat × Nat × Nat))
  /-- Dropped once the commit events under way have completed, to be queued again or not (R43, R386, R421). -/
  | flushing (again : Bool)
  deriving DecidableEq, Repr

/-- A group (R109). -/
structure Group where
  launch : Nat
  grp : Nat
  spawn : Option Spawn := none
  ncoh : Nat
  lane : Bool
  core : Nat
  /-- `%lremap` of the core on which it started, which a restore elsewhere keeps (R127, R158). -/
  lremap : Word := 0x3FC0
  slot : Nat
  tslots : List Nat
  st : GState := .running
  threads : List Thread
  doms : List Domain
  held : List Nat
  roles : List Byte
  prio : Nat
  ctrs : List Ctr := List.replicate 32 {}
  rings : List Ring := List.replicate 16 {}
  streams : List Stream := List.replicate 8 {}
  names : Table Name := []
  posts : Table (List Nat) := []
  basins : Table Nat := []
  contv : Option (Word × Word) := none
  frame : Option FrameUse := none
  /-- Frames out of use whose fills are still to come: every redirected thread has exited (R151). -/
  spent : List FrameUse := []
  /-- The first engine fault, to trap at the next boundary: its record (R276). -/
  engFault : Option (BitVec 256) := none
  /-- It has been reported failed (R42): a fault of what it left in flight adds nothing. -/
  failed : Bool := false
  /-- A late delivery under ARB 2 (R400). -/
  lateTrap : Bool := false
  /-- Held by the lane test of its core (R422). -/
  testHold : Bool := false
  /-- A save asked for: its KIND (R43). -/
  save : Option Nat := none
  /-- Boundaries with an external effect (R386). -/
  ext : Nat := 0
  placedAt : DWord := 0
  /-- The package cycle at which it came to its core (R386). -/
  since : DWord := 0
  /-- The package cycle since which every live thread has been parked or trapped (R125). -/
  parkedSince : Option DWord := none
  /-- The save area that the firmware has allocated, and its size (R388). -/
  area : Option (Nat × Nat) := none
  /-- The tiles whose bytes the area holds, in order (R342). -/
  areaTiles : List Nat := []
  /-- Scratchpad bytes delivered while it is switched out (R272). -/
  heldBytes : Table Byte := []
  /-- Its matrix records that left the queue at the save, in their order (R342). -/
  queue : List Nat := []
  deriving DecidableEq, Repr

/-- A launch record, field by field (R375). -/
structure LaunchRec where
  code : Nat := 0
  segp : Nat := 0
  digp : Nat := 0
  cmpl : Nat := 0
  ovfl : Nat := 0
  ovsz : Nat := 0
  entry : Nat := 0
  ngrp : Nat := 0
  dep1 : Nat := 0
  dep0 : Nat := 0
  dline : Nat := 0
  asid : Nat := 0
  podg : Nat := 0
  coh : Nat := 0
  bss : Nat := 1
  gang : Nat := 0
  det : Bool := false
  idem : Bool := false
  dbg : Bool := false
  prio : Nat := 0
  dv : Nat := 0
  arb : Nat := 0
  pmode : Nat := 0
  podn : Nat := 0
  resv : Nat := 0
  deriving DecidableEq, Repr

/-- The phase of a gang's reservation (R380). -/
inductive GangPhase where
  | idle
  /-- RESV sent to the cores of a span instance; the cores that have replied READY; the last back-off in µs. -/
  | reserving (span : Nat) (ready : List Nat) (micros : Nat)
  /-- A core replied NO. -/
  | refused (span : Nat) (micros : Nat)
  | backoff (span : Nat) (micros : Nat)
  /-- Reserved in full; a pod gang waits for its partners (R381). -/
  | confirmed (span : Nat)
  | started (span : Nat)
  deriving DecidableEq, Repr

/-- Another module of a pod gang whose domains have all committed the `.pod` step that is under way (R24): its number, the
order of its commit, its highest-ranked candidate, and whether the domain that committed last there holds one. -/
structure PodArrival where
  module : Nat
  order : Nat
  top : Option Word
  own : Bool
  deriving DecidableEq, Repr

/-- A launch that has been taken (R373). -/
structure Launch where
  q : Nat
  seq : Word
  r : LaunchRec
  segs : List DWord := []
  fmask : BitVec 128 := 0
  objSize : Nat := 0
  objFirst : Nat := 0
  /-- Groups handed to die dispatchers (batch) and the next `%grp` to hand out. -/
  handed : Nat := 0
  spawns : Nat := 0
  nfail : Nat := 0
  fgrp : Option Nat := none
  reason : Nat := 0
  status : Nat := 0
  tfa : Nat := 0
  tstart : DWord := 0
  late : Word := 0
  ovsz : Nat := 1024
  gang : GangPhase := .idle
  /-- Cells a deterministic launch has resolved, with the group (R384). -/
  marks : Table Nat := []
  /-- Kills of its groups, by `%grp` (R420). -/
  kills : Table Nat := []
  /-- Groups that have run, for NRUN (R378). -/
  ran : List Nat := []
  /-- It was started: taken, its checks passed (R377, R385). -/
  begun : Bool := false
  /-- The `.pod` steps of its groups trap: a partner is unreachable (R381). -/
  podLost : Bool := false
  /-- The other modules that have committed the `.pod` step under way (R24). -/
  podAt : List PodArrival := []
  deriving DecidableEq, Repr

/-- A candidate that waits at a die dispatcher: a launch's group, first in order when it was killed (R379, R420). -/
structure Waiting where
  launch : Nat
  grp : Nat
  spawn : Option Spawn := none
  /-- The quad a killed group avoids. -/
  avoid : Option Nat := none
  deriving DecidableEq, Repr

/-- An entry of a core's PC table (R112): address space and instruction byte address, and the cycle it was last chosen or
made. -/
structure PcEntry where
  asid : Nat
  addr : Nat
  chosen : Nat
  deriving DecidableEq, Repr

/-- A block in the expanded instruction cache (R94, R123): its bytes from the header on. -/
structure Block where
  launch : Nat
  hdr : Word
  bytes : List Byte
  /-- Filled from a page with X = 0: every position faults (R249). -/
  prot : Bool := false
  deriving DecidableEq, Repr

/-- A byte that a fill has read before the rest of its block (R47, log entry 10): its place from the header on. -/
structure CodeByte where
  launch : Nat
  hdr : Word
  off : Nat
  byte : Byte
  deriving DecidableEq, Repr

/-- A core (R109). -/
structure Core where
  lremap : Word := 0x00003FC0
  cycle : Nat := 0
  pct : List (Option PcEntry) := []
  ovf : List TRef := []
  blocks : List Block := []
  /-- The bytes that its fills under way have read so far (R47). -/
  ahead : List CodeByte := []
  deque : List Spawn := []
  /-- `xacq` requests, oldest first: group and cohort (R121). -/
  xacqs : List (Nat × Nat) := []
  /-- The ticket of a reservation, with its launch (R380). -/
  resv : Option (Nat × Nat) := none
  out : Bool := false
  arrayOut : Bool := false
  /-- Under the test of R422. -/
  testing : Bool := false
  /-- Physical lanes whose FP32 unit gives a wrong result next, which its shadow unit does not, with that result (R130). -/
  flaws : List (Nat × Word) := []
  /-- The record that runs on the engine (R340). -/
  running : Option Nat := none
  /-- The cycle of the package counter at the last eviction (R126). -/
  evicted : Option DWord := none
  deriving DecidableEq, Repr

/-- A requester that waits on a miss (R252). -/
inductive Requester where
  | group (g : Nat)
  | copy (id : Nat)
  | stream (id : Nat)
  | record (id : Nat)
  | array (id : Nat)
  | coll (id : Nat)
  deriving DecidableEq, Repr

/-- A miss in a core's fault buffer, or waiting to enter it (R252). -/
structure Miss where
  core : Nat
  asid : Nat
  page : Nat
  who : Requester
  inBuffer : Bool
  deriving DecidableEq, Repr

/-- A launch record on its way into a queue (R394): the group and counter of the `launch`, where the record stands and, once
the dispatcher has read it, its bytes. -/
structure QueueEntry where
  grp : Nat
  /-- The domain whose step passed it, while that step is not released (R39). -/
  by_ : Option Nat := none
  acc : Acc
  bytes : Option (List Byte) := none
  ctr : Option Nat
  deriving DecidableEq, Repr

/-- A launch queue's descriptor (R371). -/
structure Queue where
  base : Nat := 0
  log2n : Nat := 0
  opened : Bool := false
  dev : Bool := false
  head : Word := 0
  tail : Word := 0
  /-- Records taken: sequence number of the next to take. -/
  next : Word := 0
  /-- The launch of the next record, once that has passed the checks of R376 and R377. -/
  checked : Option Launch := none
  /-- Records not taken that the host has aborted (R372). -/
  aborted : List Word := []
  hash : List Byte := List.replicate 48 0
  /-- Entries of `launch` that wait for a place, oldest first (R394). -/
  wait : List QueueEntry := []
  deriving DecidableEq, Repr

/-- An entry of a Gaffer's request queue (R260). -/
inductive GafferEntry where
  | cell (grp dom key : Nat)
  | svc (grp off : Nat)
  deriving DecidableEq, Repr

/-- A waiting `talloc` (R328): the thread that acts for its instance, the code offset, the first name and the count. -/
structure TallocReq where
  who : TRef
  pc : Word
  first : Nat
  n : Nat
  deriving DecidableEq, Repr

/-- A quad (R8). -/
structure Quad where
  out : Bool := false
  gaffer : List GafferEntry := []
  /-- While the Gaffer serves its neighbour's queue too, the neighbour's turn is next (R129). -/
  turn : Bool := false
  /-- `talloc` requests that wait, oldest first (R328). -/
  tallocs : List TallocReq := []
  deriving DecidableEq, Repr

/-- A waiting `balloc` (R335): the thread that acts for its instance, the code offset, the Basin handle, the rows and
the engine's core. -/
structure BallocReq where
  who : TRef
  pc : Word
  bh : Nat
  rows : Nat
  core : Nat
  deriving DecidableEq, Repr

/-- A mapping that the firmware holds for an absent page: where the entry with V = 0 stands, and the leaf that it gets once
the page has been brought in (R250).  It is the mapping of the pages whose walk ends at that entry. -/
structure Absent where
  addr : Nat
  leaf : DWord
  deriving DecidableEq, Repr

/-- A table entry that has been replaced and that a running launch may still use (R46): the first page it covers and
how many, where it stands, what it was, and when it was replaced. -/
structure Stale where
  launch : Nat
  asid : Nat
  page : Nat
  count : Nat
  addr : Nat
  old : DWord
  order : Nat
  deriving DecidableEq, Repr

/-- A frame held for the host (R389). -/
structure HeldFrame where
  addr : Nat
  grp : Nat
  /-- The trap cause, which a later abort reports (R378). -/
  cause : Nat
  deriving DecidableEq, Repr

/-- A packet in the network (R399, R400): class, age, slack and deadline stamp, the ports it comes by and leaves by, and
whether it has been granted and so has reached the port by which it leaves (R402). -/
structure Packet where
  /-- The remote operation it carries. -/
  id : Nat
  grp : Nat
  launch : Nat := 0
  cls : Nat
  age : Nat
  slack : Nat := 0
  stamp : Option DWord := none
  inPort : Nat := 0
  outPort : Nat := 0
  sent : Bool := false
  deriving DecidableEq, Repr

/-- The ready status register (R426). -/
structure Ready where
  ual : BitVec 18 := 0
  lpd : BitVec 24 := 0
  hbm : BitVec 32 := 0
  die : BitVec 16 := 0
  safe : Bool := false
  failc : Byte := 0
  /-- The package cycle of the failure that gave FAILC its code. -/
  failAt : Option DWord := none
  /-- A signed image has restarted the procedure from stage 3 (R427). -/
  again : Bool := false
  /-- The parts whose self-test has failed in this procedure: their bits stay 0 (R427). -/
  failed : List BringUp := []
  fw : Bool := false
  disp : Bool := false
  pl1 : Bool := false
  pl0 : Bool := false
  sec : Bool := false
  deriving DecidableEq, Repr

/-- What a partner of a pod gang has reported (R381): its module, whether it fails, and its PODN, NGRP, COH and BSS. -/
structure PodEntry where
  module : Nat
  failed : Bool := false
  shape : Nat × Nat × Nat × Nat := (0, 0, 0, 0)
  deriving DecidableEq, Repr

/-- The status with which a request of the host completes: success, Unsupported Request, Completer Abort (R262, R404). -/
inductive HostEnd where
  | success | unsupported | aborted
  deriving DecidableEq, Repr

/-- The firmware and the host's registers (R404-R407). -/
structure Firmware where
  gen : Byte := 0
  serial : Word := 0
  wbase : DWord := 0
  irqen : DWord := 0
  mbreq : Word := 0
  mbrsp : Word := 0
  mbevt : Word := 0
  reqBuf : List DWord := []
  rspBuf : List Byte := []
  evtBuf : List DWord := []
  /-- The vectors raised, in order (R403). -/
  msix : List Nat := []
  /-- The MSI-X table by 8-byte words, each vector masked at reset, and the pending-bit array (R405, log entry 81). -/
  vectors : List DWord := (List.replicate 65 [0, 0x100000000]).flatten
  pba : BitVec 65 := 0
  /-- The size of BAR2 as a power of two (R404). -/
  bar2 : Nat := 43
  /-- How the host's last read or AtomicOp completed (R262, R404). -/
  hostEnd : HostEnd := .success
  /-- What it returned; `none` before one, or where it did not complete with success. -/
  hostData : Option (List Byte) := none
  /-- It was marked as poisoned (R418). -/
  hostPoison : Bool := false
  /-- Physical address of the root table of each address space (R244). -/
  roots : Table Nat := []
  absent : List Absent := []
  /-- The frames that have been allocated, and so zeroed, and that no table maps yet: first address and length (R45). -/
  zeroed : List (Nat × Nat) := []
  held : List HeldFrame := []
  corrected : Nat := 0
  /-- Where the next trap frame and save area go (log entry 5). -/
  trapAddr : Nat := 0x27FF0000000
  saveAddr : Nat := 0x27000000000
  module : Nat := 0
  throttle : Bool := false
  cap : Bool := false
  /-- Test in progress: the quads left to test and the results so far (R424). -/
  test : Option (Word × List Nat × List Nat) := none
  /-- Partners that have reported for a pod gang, by PODG (R381). -/
  pods : Table (List PodEntry) := []
  deriving DecidableEq, Repr

/-- The issue group being issued: its core, its threads in ascending lane, and the length of their instruction. -/
structure Issue where
  core : Nat := 0
  threads : List TRef := []
  len : Nat := 0
  deriving DecidableEq, Repr

/-- What the environment chooses to happen next: a core issues, a thread falls through to a header, a part of the hardware
fails, or an event. -/
inductive Choice where
  | issue (core : Nat)
  | fall (t : TRef)
  /-- An FP32 unit of a core fails: its next checked result diverges from its shadow (R130). -/
  | flaw (core lane : Nat) (wrong : Word)
  /-- A bit of a Basin element changes and its residue does not (R327). -/
  | upset (basin key bit : Nat)
  /-- The `i`-th AtomicOp of a domain's coming event will complete with an error status (R265). -/
  | atomicFault (grp dom i : Nat)
  /-- A piece of a copy is moved in two: the `n` bytes at its start, and the rest (R274). -/
  | splitPiece (id k n : Nat)
  /-- An engine reads a byte of the source of a copy or a stream operation before the rest of its piece or element (R275,
  R307). -/
  | readAhead (stream : Bool) (id : Nat) (sp : Bool) (addr : Nat)
  /-- A fill of a core's instruction cache reads the byte at an offset of a block before the rest of it (R47). -/
  | fillAhead (core grp : Nat) (hdr : Word) (off : Nat)
  /-- A stream operation takes up to `n` elements or rows (R307). -/
  | streamAdvance (id n : Nat)
  /-- A launch record that waits at a queue is written (R39, R394). -/
  | launchEntry (queue : Nat)
  /-- A running record completes 32 rows (R341). -/
  | matrixUnit (core : Nat)
  /-- The domains of a launch's partner on another module have all committed a `.pod` step (R24). -/
  | podArrival (launch module : Nat) (top : Option Word) (own : Bool)
  /-- The host reads a register of BAR0 (R404, R405). -/
  | registerRead (off : Nat)
  /-- The host writes 4 bytes of BAR0 (R404, R405). -/
  | dwordWrite (off : Nat) (w : Word)
  /-- The host reads device memory through BAR2 (R404). -/
  | hostRead (link : Bool) (off len : Nat)
  /-- The host resizes BAR2 (R404). -/
  | resizeBar (log2 : Nat)
  /-- The firmware sets the module number from the pod configuration (R402). -/
  | moduleNumber (n : BitVec 7)
  /-- An output port grants one of the packets that wait at it (R399). -/
  | portGrant (port : Nat)
  /-- A packet that its output port has granted is delivered (R400). -/
  | packetDelivery (id : Nat)
  | event (e : Instr)
  deriving DecidableEq, Repr

/-- The module. -/
structure State where
  /-- The package cycle counter (R159). -/
  clk : DWord := 0
  mem : Memory := []
  /-- Poisoned lines: the bytes of each not written since (R418). -/
  poison : Table (BitVec 128) := []
  /-- Zero-pending ranges of frames: first byte and length (R255). -/
  zeroPend : List (Nat × Nat) := []
  /-- The bytes that commits have written while engines had landings to make, with the model's count at the last such commit
(R13). -/
  raced : Table Nat := []
  /-- The model's running counter of free values (log entry 1). -/
  free : Nat := 0
  /-- The model's running number for new objects. -/
  fresh : Nat := 0
  agenda : List Choice := []
  issue : Issue := {}
  ready : Ready := {}
  fw : Firmware := {}
  queues : List Queue := List.replicate 64 {}
  launches : Table Launch := []
  groups : Table Group := []
  cores : Table Core := []
  quads : Table Quad := []
  /-- Handed groups that wait at each die dispatcher, and killed groups first in order (R379, R420). -/
  dieQ : Table (List Waiting) := []
  /-- Spill queue of each die (R382). -/
  spill : Table (List Spawn) := []
  /-- Saved groups of each die, oldest save first (R383). -/
  savedQ : Table (List Nat) := []
  ticket : Nat := 0
  /-- The queue whose record was taken last (R373). -/
  lastQ : Nat := 63
  copies : Table Copy := []
  sops : Table SOp := []
  tiles : Table Tile := []
  basins : Table Basin := []
  ballocs : List BallocReq := []
  recs : Table MRec := []
  /-- Record numbers in the task queues, in the order they entered, and those that wait to enter (R340). -/
  taskQ : List Nat := []
  taskWait : List Nat := []
  arrays : Table MArray := []
  /-- Latch images of finished wld records, by record number (R337). -/
  images : Table Image := []
  remotes : Table Remote := []
  colls : Table Collective := []
  misses : List Miss := []
  stale : List Stale := []
  packets : List Packet := []
  deriving DecidableEq, Repr

/-- The module right after power-on reset (R425, R426): nothing is ready, no queue is open, no launch runs, memory
lists nothing.  The values the spec does not give are those of log entries 1 to 5. -/
def State.reset : State where

end Sys2Proof.Machine
end

