-- ==== Sys2Proof/Machine/Ops.lean ====
section
/-!
DEFINITION. The named operations over the state: registers, memory, translation, code, landing counters, arrival at a
boundary, taking a trap, killing a group and leaving a core.
-/
namespace Sys2Proof.Machine

/-! ## Open choices, numbers and objects -/

/-- An open bit: fresh in every step (log entry 1) and for every `salt`. -/
def State.bit (s : State) (salt : Nat) : Bool := Config.freeBit (s.free * 2 ^ 96 + salt)

/-- An open word: fresh in every step and for every `salt`. -/
def State.word (s : State) (salt : Nat) : Word := Config.freeWord (s.free * 2 ^ 96 + salt)

/-- The state with one more number given out; the number is `s.fresh`. -/
def State.bump (s : State) : State := { s with fresh := s.fresh + 1 }

def quadOf (core : Nat) : Nat := core / 4
def dieOf (core : Nat) : Nat := core / 64

def State.core (s : State) (c : Nat) : Core := Table.get {} s.cores c
def State.setCore (s : State) (c : Nat) (k : Core) : State := { s with cores := Table.set {} s.cores c k }
def State.modCore (s : State) (c : Nat) (f : Core → Core) : State := s.setCore c (f (s.core c))

def State.quad (s : State) (q : Nat) : Quad := Table.get {} s.quads q
def State.modQuad (s : State) (q : Nat) (f : Quad → Quad) : State :=
  { s with quads := Table.set {} s.quads q (f (s.quad q)) }

def State.group? (s : State) (g : Nat) : Option Group := s.groups.find? g
def State.modGroup (s : State) (g : Nat) (f : Group → Group) : State := { s with groups := s.groups.update g f }

def State.thread? (s : State) (r : TRef) : Option Thread := (s.group? r.grp).bind fun g => g.threads[r.tid]?
def State.modThread (s : State) (r : TRef) (f : Thread → Thread) : State :=
  s.modGroup r.grp fun g => { g with threads := g.threads.modify r.tid f }

/-- The number of a thread's domain in its group (R17). -/
def Group.domOf (g : Group) (tid : Nat) : Nat := if g.lane then tid else 0

def Group.dom (g : Group) (d : Nat) : Domain := g.doms[d]?.getD {}
def State.modDom (s : State) (g d : Nat) (f : Domain → Domain) : State :=
  s.modGroup g fun x => { x with doms := x.doms.modify d f }

/-- The threads of a domain, as `%tid`s. -/
def Group.domTids (g : Group) (d : Nat) : List Nat := if g.lane then [d] else List.range g.threads.length

def Thread.live (t : Thread) : Bool := t.st != .exited

def State.launch? (s : State) (l : Nat) : Option Launch := s.launches.find? l
def State.modLaunch (s : State) (l : Nat) (f : Launch → Launch) : State := { s with launches := s.launches.update l f }

/-- `%launch` (R158). -/
def Launch.ident (l : Launch) : Word := BitVec.ofNat 32 (l.q % 64 * 2 ^ 26 + l.seq.toNat % 2 ^ 26)

/-- The launch of a group; a group of no launch reads as one of an empty launch. -/
def State.launchOf (s : State) (g : Group) : Launch := (s.launch? g.launch).getD { q := 0, seq := 0, r := {} }

/-- `%rank` of a thread (R158, R382). -/
def State.rank (s : State) (g : Group) (tid : Nat) : Word :=
  BitVec.ofNat 32 (g.grp * 64 * ((s.launchOf g).r.coh + 1) + tid)

def State.quadOfGroup (_ : State) (g : Group) : Nat := quadOf g.core

/-! ## Registers -/

def Thread.reg (t : Thread) (n : Nat) : Word := Table.get 0 t.v n
def Thread.setReg (t : Thread) (n : Nat) (w : Word) : Thread := { t with v := Table.set 0 t.v n w }

/-- p0-p7; p7 is always true (R85). -/
def Thread.pred (t : Thread) (n : Nat) : Bool := if n = 7 then true else t.p.getLsbD n

def Thread.setPred (t : Thread) (n : Nat) (b : Bool) : Thread :=
  if n < 7 then
    { t with p := if b then t.p ||| BitVec.ofNat 7 (2 ^ n) else t.p &&& ~~~BitVec.ofNat 7 (2 ^ n) }
  else t

def Thread.seg (t : Thread) (n : Nat) : DWord := t.s[n]?.getD 0

/-- Registers from `n` on, one word each. -/
def Thread.setRegs (t : Thread) : Nat → List Word → Thread
  | _, [] => t
  | n, w :: ws => (t.setReg n w).setRegs (n + 1) ws

/-- The guard of R90: the predicate of PG[2:0], inverted by PG[3]. -/
def Thread.guard (t : Thread) (pg : BitVec 4) : Bool := xor (t.pred (pg.toNat % 8)) (pg.getLsbD 3)

/-! ## Memory -/

/-- The memory key of a scratchpad byte: quad and offset (R241). -/
def scratchKey (quad off : Nat) : Nat := 2 ^ 52 + quad * 2 ^ 22 + off

/-- The peer modules of an operation's bytes, which may lie on two pages. -/
def Remote.peers (r : Remote) : List Nat := (r.acc.keys.map fun k => (k - 2 ^ 60) / 2 ^ 52).eraseDups

/-- The key of a byte that lies in a peer module. -/
def peerKey (module phys : Nat) : Nat := 2 ^ 60 + module * 2 ^ 52 + phys

def isPeerKey (k : Nat) : Bool := 2 ^ 60 ≤ k
def isScratchKey (k : Nat) : Bool := 2 ^ 52 ≤ k && k < 2 ^ 60

def Memory.read (m : Memory) (k : Nat) : Byte := Table.get 0 m k
def Memory.write (m : Memory) (k : Nat) (b : Byte) : Memory := Table.set 0 m k b
def Memory.wf (m : Memory) : Bool := Table.wf (0 : Byte) m

/-- One byte as an observer of this module reads it: a byte in a peer module is open (R33). -/
def State.readByte (s : State) (k : Nat) : Byte :=
  if isPeerKey k then (s.word k).setWidth 8 else s.mem.read k

def State.readBytes (s : State) (keys : List Nat) : List Byte := keys.map s.readByte
def State.readNat (s : State) (keys : List Nat) : Nat := littleEndian (s.readBytes keys)

/-- A byte written: a poisoned line heals once all of it has been written (R418). -/
def State.writeByte (s : State) (k : Nat) (b : Byte) : State :=
  if isPeerKey k then s
  else
    { s with
      mem := s.mem.write k b
      poison := if s.poison.isEmpty then s.poison else
        Table.set 0 s.poison (k / 128) (Table.get 0 s.poison (k / 128) &&& ~~~BitVec.ofNat 128 (2 ^ (k % 128))) }

def State.writeBytes (s : State) : List Nat → List Byte → State
  | k :: ks, b :: bs => (s.writeByte k b).writeBytes ks bs
  | _, _ => s

/-- Whether an engine has a landing to make besides those of copies, which move byte by byte as they are cut (R13, R274). -/
def State.landing (s : State) : Bool := !s.colls.isEmpty || !s.recs.isEmpty || !s.sops.isEmpty

/-- A commit has written bytes: while an engine has a landing to make, they race with it (R13). -/
def State.noteWrites (s : State) (keys : List Nat) : State :=
  if s.landing then ({ s with raced := keys.foldl (fun t k => t.put k s.fresh) s.raced } : State).bump
  else { s with raced := [] }

/-- A byte lands for an operation that began at the count `since`: where a commit has written it since then, which of the
two values stays is open (R13, log entry 10). -/
def State.landByte (s : State) (since k : Nat) (b : Byte) : State :=
  match s.raced.find? k with
  | some n => if since ≤ n ∧ s.bit (k + 2 ^ 94) = true then s else { s with raced := s.raced.erase k }.writeByte k b
  | none => s.writeByte k b

def State.landBytes (s : State) (since : Nat) : List Nat → List Byte → State
  | k :: ks, b :: bs => (s.landByte since k b).landBytes since ks bs
  | _, _ => s

def State.poisoned (s : State) (keys : List Nat) : Bool :=
  keys.any fun k => Table.get 0 s.poison (k / 128) != 0

/-- Whether a byte stands in a cell that a domain has prepared and not exposed: a read of it waits (R258). -/
def State.prepared (s : State) (k : Nat) : Bool :=
  s.groups.any fun p => p.2.doms.any fun d => match d.prep with
    | some cs => cs.any fun c => c.key == k / 8 && c.st == .acked
    | none => false

/-- The keys of a run of physical bytes. -/
def physKeys (addr len : Nat) : List Nat := (List.range len).map (addr + ·)

def State.readPhys (s : State) (addr len : Nat) : Nat := s.readNat (physKeys addr len)
def State.writePhys (s : State) (addr : Nat) (bs : List Byte) : State := s.writeBytes (physKeys addr bs.length) bs

/-! ## Translation (R243-R250) -/

/-- HBM and LPDDR6 (R243). -/
def isDeviceMemory (p : Nat) : Bool := p ≤ 0x27FFFFFFFFF || (0x40000000000 ≤ p && p ≤ 0x6FFFFFFFFFF)
def isHostMemory (p : Nat) : Bool := 0x8000000000000 ≤ p && p ≤ 0x9FFFFFFFFFFFF
def isHbm (p : Nat) : Bool := p ≤ 0x27FFFFFFFFF

/-- The home slice's quad of a physical address (R243). -/
def homeQuad (p : Nat) : Nat :=
  if isHbm p then p / 0x2800000000 * 16 + (Config.homeHbm (p / 2 ^ 7 % 2 ^ 13)).toNat
  else (Config.homeAny (p / 2 ^ 7 % 2 ^ 17)).toNat

/-- The bytes of a page by SIZE of R266: 64 KiB, 2 MiB, 1 GiB. -/
def pageBits : Nat → Nat
  | 0 => 16
  | 1 => 21
  | _ => 30

/-- What a leaf says of a page (R246). -/
structure Leaf where
  frame : Nat
  place : Nat
  w : Bool
  x : Bool
  mig : Bool
  peer : Nat
  size : Nat
  deriving DecidableEq, Repr

/-- A leaf entry of a page of a size, if it is well formed (R246, R247). -/
def leafOf (s : State) (e : DWord) (size : Nat) : Option Leaf :=
  let place := (e.extractLsb' 60 2).toNat
  let frame := (e.extractLsb' 16 36).toNat * 2 ^ 16
  let peer := (e.extractLsb' 8 8).toNat
  let last := frame + 2 ^ pageBits size - 1
  let inDevice := isDeviceMemory frame && isDeviceMemory last
  let inHost := isHostMemory frame && isHostMemory last
  if e.extractLsb' 52 5 = 0 ∧ e.extractLsb' 0 8 = 0 ∧ frame % 2 ^ pageBits size = 0
      ∧ (inDevice || inHost) = true
      ∧ (place = 1 → isHbm last = true)
      ∧ (place = 3 → inHost = false ∧ peer < 128 ∧ (Config.reachable peer && s.ready.ual != 0) = true)
      ∧ (place ≠ 3 → peer = 0) then
    some { frame, place, w := e.getLsbD 59, x := e.getLsbD 58, mig := e.getLsbD 57, peer, size }
  else none

/-- The outcome of a walk (R247, R248). -/
inductive Walk where
  | leaf (at_ : Nat) (l : Leaf)
  /-- An entry with V = 0: its level, and where it stands. -/
  | invalid (lv at_ : Nat)
  /-- The firmware holds no root table for the space. -/
  | noTable
  | malformed
  /-- An entry stands in a prepared cell: the walk waits (R258). -/
  | later
  deriving DecidableEq, Repr

/-- The position of a level's index in the address, and the bits it takes (R244). -/
def levelBits : Nat → Nat × Nat
  | 0 => (48, 9)
  | 1 => (39, 9)
  | 2 => (30, 9)
  | 3 => (21, 9)
  | _ => (16, 5)

/-- The walk of the levels that are left, from a table at a physical address.  An entry with V = 0 is not present whatever its
reserved fields hold (log entry 114, DEDUCED). -/
def State.walk (s : State) (va : Nat) : List Nat → Nat → Walk
  | [], _ => .malformed
  | lv :: rest, table =>
    let (sh, n) := levelBits lv
    let a := table + 8 * (va / 2 ^ sh % 2 ^ n)
    let e : DWord := BitVec.ofNat 64 (s.readPhys a 8)
    if (physKeys a 8).any s.prepared then .later
    else if !e.getLsbD 63 then .invalid lv a
    else if e.getLsbD 62 then
      if lv < 2 then .malformed
      else match leafOf s e (4 - lv) with
        | some l => .leaf a l
        | none => .malformed
    else if lv = 4 ∨ e.extractLsb' 52 10 ≠ 0 ∨ e.extractLsb' 0 8 ≠ 0 then .malformed
    else
      let next := (e.extractLsb' 8 44).toNat * 256
      if isDeviceMemory next then s.walk va rest next else .malformed

/-- The walk of an address of an address space (R244). -/
def State.walkAsid (s : State) (asid va : Nat) : Walk :=
  match s.fw.roots.find? asid with
  | some root => s.walk va [0, 1, 2, 3, 4] root
  | none => .noTable

/-- The outcome of a translation (R250). -/
inductive Xlat where
  | ok (l : Leaf)
  /-- A replayable fault: cause 1 or 2. -/
  | miss (cause : Nat)
  | unmapped
  | later
  deriving DecidableEq, Repr

/-- The state with the table entries that an access of a launch finds: under R46 each entry that a mapping change has
replaced may still be the old one; the choice is open. -/
def State.tables (s : State) (launch asid va : Nat) : State :=
  let mine := s.stale.filter fun t =>
    t.launch = launch && t.asid = asid && decide (t.page ≤ va / 2 ^ 16) && decide (va / 2 ^ 16 < t.page + t.count)
  ((List.range mine.length).zip mine).foldr (fun p s' =>
    if s.bit (va + p.1 * 2 ^ 60) then s'.writePhys p.2.addr (bytesOf 8 p.2.old.toNat) else s') s

/-- The leaf that the firmware holds for the entry at an address, whose page is absent (R250). -/
def State.absentLeaf (s : State) (at_ : Nat) : Option DWord := (s.fw.absent.find? (·.addr == at_)).map Absent.leaf

/-- The translation of an address for a launch (R250). -/
def State.translate (s : State) (launch asid va : Nat) : Xlat :=
  match (s.tables launch asid va).walkAsid asid va with
  | .leaf _ l => if l.mig then .miss 2 else .ok l
  | .invalid _ at_ => if (s.absentLeaf at_).isSome then .miss 1 else .unmapped
  | .malformed | .noTable => .unmapped
  | .later => .later

/-- The memory key of an address under a leaf. -/
def Leaf.key (l : Leaf) (va : Nat) : Nat :=
  let p := l.frame + va % 2 ^ pageBits l.size
  if l.place = 3 then peerKey l.peer p else p

/-! ## Traps: what stops a thread -/

/-- The trap causes of R389, in code order. -/
inductive Cause where
  | userTrap | breakpoint | reserved | illegal | unheld | badTarget | poolExecution | scope | segment
  | address | alignment | translation | protection | placement | collision | overflow | engine | copyOperand
  | streamOperand | matrixOperand | staleHandle | scaleHeader | continuation | laneSync | determinism | timer
  | spawnOverflow | dispatchOperand
  deriving DecidableEq, Repr

/-- The code of a cause (R389). -/
def Cause.code : Cause → Nat
  | .userTrap => 1 | .breakpoint => 2 | .reserved => 3 | .illegal => 4 | .unheld => 5 | .badTarget => 6
  | .poolExecution => 7 | .scope => 8 | .segment => 9 | .address => 10 | .alignment => 11 | .translation => 12
  | .protection => 13 | .placement => 14 | .collision => 15 | .overflow => 16 | .engine => 17 | .copyOperand => 18
  | .streamOperand => 19 | .matrixOperand => 20 | .staleHandle => 21 | .scaleHeader => 22 | .continuation => 23
  | .laneSync => 24 | .determinism => 25 | .timer => 26 | .spawnOverflow => 27 | .dispatchOperand => 28

/-- What a trap frame says of the fault (R389); `fpc` is the instruction's own offset where it is `none`. -/
structure Trap where
  cause : Cause
  sub : Nat := 0
  faddr : Nat := 0
  code : Nat := 0
  fpc : Option Word := none
  rank : Option Word := none
  record : BitVec 1024 := 0
  deriving DecidableEq, Repr

/-- Why an instruction does not complete: a trap, or a replayable miss of a page (R250). -/
inductive Stop where
  | trap (t : Trap)
  | miss (asid va cause : Nat)
  /-- A poisoned line is consumed (R418). -/
  | check
  /-- A byte it reads stands in a prepared cell: it waits (R258). -/
  | later
  deriving DecidableEq, Repr

/-- The trap of a cause with the cause's own number and a faulting address. -/
def Stop.of (c : Cause) (sub : Nat := 0) (faddr : Nat := 0) : Stop := .trap { cause := c, sub := sub, faddr := faddr }

/-- What one thread's instruction does.  `next` goes on to the next instruction, `jump` has set the PC. -/
inductive Act where
  | next (s : State)
  | jump (s : State)
  | stop (e : Stop)
  /-- The thread is not eligible and stays at its PC (R113). -/
  | wait (s : State)
  /-- A trap whose stop PC is after the instruction (R149). -/
  | trapAfter (t : Trap)

/-- The act of a computation that may stop. -/
def Act.of (x : Except Stop State) : Act :=
  match x with
  | .ok s => .next s
  | .error e => .stop e

/-! ## Access to memory by an instruction (R212, R213) -/

/-- The offset of a memory operand: index × 2^X + displacement, mod 2^32 (R212). -/
def offsetOf (idx imm : Word) (x : Nat) : Nat := (idx * BitVec.ofNat 32 (2 ^ x) + imm).toNat

/-- The rights and the place of a segment: base, limit, W (R211). -/
def segLim (g : DWord) : Nat := (g.extractLsb' 57 6).toNat
def segBase (g : DWord) : Nat := (g.extractLsb' 0 57).toNat
def segW (g : DWord) : Bool := g.getLsbD 63

/-- The place of a range of a segment: the checks 1 and 2 of R213.  `seg` is the code of field A.  A segment fault reports the offset
as its FADDR (log entry 107). -/
def Thread.place (t : Thread) (seg off size : Nat) (write : Bool) : Except Stop Loc :=
  if seg = 248 then
    if off + size > 2 ^ 22 then .error (.of .segment 1 off) else .ok ⟨true, off⟩
  else
    let g := t.seg (seg - 200)
    if segLim g = 63 then .error (.of .segment 3 off)
    else if off + size > 2 ^ segLim g then .error (.of .segment 1 off)
    else if write && !segW g then .error (.of .segment 2 off)
    else
      let a := segBase g + off
      if a + size > 2 ^ 57 then .error (.of .address 0 a) else .ok ⟨false, a⟩

/-- What an instruction does with the bytes it names; each kind has its own protection and placement checks. -/
inductive Use where
  | read
  /-- A buffered write under a collision rule (R225): `st`, `fwr`, `cwr`. -/
  | write (rule : Nat) (t : Ty) (kind : Nat)
  /-- Fetching code or literals (R249). -/
  | exec
  | satom
  /-- An access that must lie on PEER pages (R413). -/
  | peer (w : Bool)
  /-- Bytes an engine writes (R274): W alone is checked. -/
  | landing
  deriving DecidableEq, Repr

/-- Whether a page's attributes allow a use: the protection check (R249). -/
def Use.protects (u : Use) (l : Leaf) : Bool :=
  match u with
  | .read | .peer false => true
  | .exec => l.x
  | .write .. | .satom | .peer true | .landing => l.w

/-- Whether a page's placement accepts a use (R77, R225, R265, R413).  `kind` is 0 for `st`, 1 `fwr`, 2 `cwr`. -/
def Use.placed (u : Use) (fmask : BitVec 128) (l : Leaf) : Bool :=
  match u with
  | .read | .exec | .landing => true
  | .peer _ => l.place == 3
  | .satom =>
    l.place == 2 && (!isHostMemory l.frame || Config.linkAtomics (decide (0x9000000000000 ≤ l.frame)))
  | .write rule t kind =>
    match l.place with
    | 1 => fmask.getLsbD 6 && kind != 2 && (rule ≤ 1 || rule == 7 || t != .f32)
    | 2 => fmask.getLsbD 7 && kind == 0 && (rule ≤ 1 || rule == 7)
    | _ => true

/-- The space a group's accesses translate in. -/
structure Aspace where
  launch : Nat
  asid : Nat
  fmask : BitVec 128
  quad : Nat

def State.aspace (s : State) (g : Group) : Aspace :=
  let l := s.launchOf g
  { launch := g.launch, asid := l.r.asid, fmask := l.fmask, quad := quadOf g.core }

/-- The pages, by the first address on each, that a run of bytes touches. -/
def pagesOf (va size : Nat) : List Nat :=
  if size = 0 then []
  else va :: (List.range ((va + size - 1) / 2 ^ 16 - va / 2 ^ 16)).map fun i => (va / 2 ^ 16 + 1 + i) * 2 ^ 16

/-- The leaves of the pages of a run, each checked in the order 4, 5, 6 of R213. -/
def State.leaves (s : State) (sp : Aspace) (u : Use) : List Nat → Except Stop (List Leaf)
  | [] => .ok []
  | va :: rest =>
    match s.translate sp.launch sp.asid va with
    | .miss c => .error (.miss sp.asid va c)
    | .unmapped => .error (.of .translation 3 va)
    | .later => .error .later
    | .ok l =>
      if !u.protects l then .error (.of .protection 0 va)
      else if !u.placed sp.fmask l then .error (.of .placement 0 va)
      else (s.leaves sp u rest).map (l :: ·)

/-- The leaf that covers an address, among the leaves of the pages of a run that starts at `va`. -/
def leafAt (va : Nat) (ls : List Leaf) (a : Nat) : Option Leaf := ls[a / 2 ^ 16 - va / 2 ^ 16]?

/-- The checks 3 to 6 of R213 over a place, and the memory key of each byte. -/
def State.accessAt (s : State) (sp : Aspace) (loc : Loc) (size align : Nat) (u : Use) :
    Except Stop (Acc × List Leaf) :=
  if loc.addr % align ≠ 0 then .error (.of .alignment 0 loc.addr)
  else if loc.sp then
    .ok (⟨true, loc.addr, (List.range size).map fun i => scratchKey sp.quad (loc.addr + i)⟩, [])
  else
    (s.leaves sp u (pagesOf loc.addr size)).map fun ls =>
      (⟨false, loc.addr, (List.range size).map fun i =>
        match leafAt loc.addr ls (loc.addr + i) with
        | some l => l.key (loc.addr + i)
        | none => 0⟩, ls)

/-! ## Places of an engine -/

/-- The memory key of a byte at a place; a translation that fails says how (R250, R276). -/
def State.keyAt (s : State) (sp : Aspace) (loc : Loc) (w : Bool) : Except Stop Nat :=
  if loc.sp then .ok (scratchKey sp.quad loc.addr)
  else
    match s.translate sp.launch sp.asid loc.addr with
    | .miss c => .error (.miss sp.asid loc.addr c)
    | .unmapped => .error (.of .engine 1 loc.addr)
    | .later => .error .later
    | .ok l => if w && !l.w then .error (.of .engine 2 loc.addr) else .ok (l.key loc.addr)

/-- The keys of a run of bytes at a place. -/
def State.keysAt (s : State) (sp : Aspace) (loc : Loc) (len : Nat) (w : Bool) : Except Stop (List Nat) :=
  if loc.sp then .ok ((List.range len).map fun i => scratchKey sp.quad (loc.addr + i))
  else
    match s.leaves sp (if w then .landing else .read) (pagesOf loc.addr len) with
    | .error (.trap t) => .error (.of .engine (if t.cause = .protection then 2 else 1) t.faddr)
    | .error e => .error e
    | .ok ls => .ok ((List.range len).map fun i =>
        match leafAt loc.addr ls (loc.addr + i) with
        | some l => l.key (loc.addr + i)
        | none => 0)

/-! ## Landing counters (R269, R270) -/

/-- `n` bytes counted in a counter that is armed; a completion is split at the target. -/
def Ctr.countArmed : Nat → Ctr → Nat → Ctr
  | 0, c, _ => c
  | fuel + 1, c, n =>
    if n = 0 then c
    else
      let k := min n (c.tgt.toNat - c.cnt.toNat)
      if c.cnt.toNat + k = c.tgt.toNat then Ctr.countArmed fuel { c with ph := !c.ph, cnt := 0 } (n - k)
      else { c with cnt := BitVec.ofNat 32 (c.cnt.toNat + k) }

/-- `n` bytes of one completion counted; `lost` when they were not delivered (R270).  A whole number of targets only
turns the phase, so what is left of `n` is below two targets before the loop runs. -/
def Ctr.count (c : Ctr) (n : Nat) (lost : Bool := false) : Ctr :=
  let c := if lost && n != 0 then
      { c with und := BitVec.ofNat 32 (min (c.und.toNat + n) 0xFFFFFFFF), err := true } else c
  let t := c.tgt.toNat
  if t = 0 then { c with cnt := BitVec.ofNat 32 (min (c.cnt.toNat + n) 0xFFFFFFFF) }
  else
    let all := c.cnt.toNat + n
    if c.cnt.toNat < t then
      { c with ph := xor c.ph (decide (all / t % 2 = 1)), cnt := BitVec.ofNat 32 (all % t) }
    else Ctr.countArmed 3 c n

/-- Fields put in a little-endian image: position, width and value of each. -/
def pack (fields : List (Nat × Nat × Nat)) : Nat := fields.foldl (fun n f => n + f.2.2 % 2 ^ f.2.1 * 2 ^ f.1) 0

/-- Words one after the other. -/
def wordsOf (l : List Nat) : List Byte := l.flatMap (bytesOf 4)

/-- Bits [31:0] of a counter (R269). -/
def Ctr.status (c : Ctr) : Word :=
  BitVec.ofNat 32 ((if c.ph then 2 ^ 31 else 0) + (if c.err then 2 ^ 30 else 0) + (if c.bf then 2 ^ 29 else 0)
    + (if c.bnd.isSome then 2 ^ 28 else 0) + c.out % 2 ^ 16)

def State.modCtr (s : State) (g c : Nat) (f : Ctr → Ctr) : State :=
  s.modGroup g fun x => { x with ctrs := x.ctrs.modify c f }

/-- Whether the group is resident on its core. -/
def Group.resident (g : Group) : Bool :=
  match g.st with
  | .saved .. => false
  | _ => true

/-- A landing counter in the layout of R269, and its binding: base, length and tag, of length 0 where it has none. -/
def Ctr.image (c : Ctr) : List Byte :=
  let b := c.bnd.getD (0, 0, 0)
  bytesOf 16 (pack [(0, 32, c.status.toNat), (32, 32, c.cnt.toNat), (64, 32, c.tgt.toNat), (96, 32, c.und.toNat)]) ++
    wordsOf [b.1, b.2.1, b.2.2]

/-- Bytes written into the save area of a group that is switched out, at a place of the engines' section (R272, R388). -/
def State.saveEngines (s : State) (x : Group) (off : Nat) (bs : List Byte) : State :=
  match x.area with
  | some (a, _) => if x.resident then s else s.writePhys (a + s.readPhys (a + 52) 4 + off) bs
  | none => s

/-- What a delivery does to a counter; that of a group which is switched out changes in its save area too (R272): the counters stand
at the head of the engines' section. -/
def State.landCtr (s : State) (g c : Nat) (f : Ctr → Ctr) : State :=
  let s := s.modCtr g c f
  match s.group? g with
  | none => s
  | some x => match x.ctrs[c]? with
    | none => s
    | some k => s.saveEngines x (28 * c) k.image

/-- Bytes counted in a group's counter, if one is named. -/
def State.countIn (s : State) (g : Nat) (c : Option Nat) (n : Nat) (lost : Bool := false) : State :=
  match c with
  | some c => s.landCtr g c (·.count n lost)
  | none => s

/-- One request fewer in flight (R270). -/
def State.outDone (s : State) (g : Nat) (c : Option Nat) : State :=
  match c with
  | some c => s.landCtr g c fun x => { x with out := x.out - 1 }
  | none => s

def State.outUp (s : State) (g : Nat) (c : Option Nat) : State :=
  match c with
  | some c => s.modCtr g c fun x => { x with out := x.out + 1 }
  | none => s

/-! ## Code: blocks, headers and positions (R75-R83, R94) -/

/-- A block header (R78). -/
structure Header where
  kind : Nat
  len : Nat
  live : Nat
  reconv : Int
  prefetch : Nat
  steps : Nat
  check : Nat
  deriving DecidableEq, Repr

def Header.ofNat (n : Nat) : Header where
  kind := n / 2 ^ 62 % 4
  len := n / 2 ^ 50 % 2 ^ 12
  live := n / 2 ^ 42 % 2 ^ 8
  reconv := (BitVec.ofNat 16 (n / 2 ^ 26)).toInt
  prefetch := n / 2 ^ 12 % 2 ^ 14
  steps := n / 2 ^ 8 % 16
  check := n % 256

/-- The number of step markers that the fill finds in a body (R81). -/
def countMarks : Nat → List Byte → Nat
  | 0, _ => 0
  | fuel + 1, body =>
    match decodeSlot body with
    | .word w n => (if w.getLsbD 95 then 1 else 0) + countMarks fuel (body.drop n)
    | _ => 0

/-- What stands at an offset of a body, when it is an instruction position (R142). -/
def slotAt : Nat → List Byte → Nat → Option Slot
  | 0, _, _ => none
  | fuel + 1, body, off =>
    match decodeSlot body with
    | .padding => none
    | .malformed => if off = 0 then some .malformed else none
    | .word w n =>
      if off = 0 then some (.word w n)
      else if off < n then none
      else slotAt fuel (body.drop n) (off - n)

/-- What a thread finds at an offset of a body: an instruction at an instruction position, padding where the instruction
sequence ends, and else nothing that it could execute (R79, log entry 54). -/
def positionAt : Nat → List Byte → Nat → Slot
  | 0, _, _ => .malformed
  | fuel + 1, body, off =>
    match decodeSlot body with
    | .padding => if off = 0 then .padding else .malformed
    | .malformed => .malformed
    | .word w n =>
      if off = 0 then .word w n
      else if off < n then .malformed
      else positionAt fuel (body.drop n) (off - n)

/-- Whether the XOR of header bytes 1 to 7 with 0xA5 is the check byte (R78). -/
def checkByte (hdr : List Byte) : Bool := hdr.tail.foldl (· ^^^ ·) 0xA5 == hdr.headD 0

/-- Whether a header with its body is valid, but for its place in the object (R81). -/
def validBlock (bytes : List Byte) : Bool :=
  let h := Header.ofNat (littleEndian (bytes.take 8))
  let body := (bytes.drop 8).take h.len
  checkByte (bytes.take 8) && decide (8 ≤ h.len) && decide (h.live ≤ 192) && body.length == h.len &&
    (if h.kind = 2 then h.live == 0 && decide (h.reconv = 0) && h.prefetch == 0 && h.steps == 0
     else h.steps == min 15 (countMarks h.len body))

def blockHeader (bytes : List Byte) : Header := Header.ofNat (littleEndian (bytes.take 8))
def blockBody (bytes : List Byte) : List Byte := (bytes.drop 8).take (blockHeader bytes).len

/-- The next header after a block at `hdr` (R79). -/
def nextHeader (hdr : Word) (bytes : List Byte) : Word :=
  BitVec.ofNat 32 (hdr.toNat + (8 + (blockHeader bytes).len + 7) / 8 * 8)

/-- The cached block of a core. -/
def State.cached (s : State) (core launch : Nat) (hdr : Word) : Option Block :=
  (s.core core).blocks.find? fun b => b.launch = launch && b.hdr = hdr

/-! ## What stands at a thread's PC (R79, R94) -/

/-- The cached block a thread runs in, and what stands at its PC.  A PC that is no instruction position of the body is
malformed; the end of the instruction sequence is padding (log entry 54). -/
def State.slotOf (s : State) (x : Group) (t : Thread) : Option (Block × Slot) :=
  (s.cached x.core x.launch t.here).map fun b =>
    let body := blockBody b.bytes
    let off := t.pc.toNat - t.here.toNat - 8
    if t.pc.toNat < t.here.toNat + 8 then (b, .malformed)
    else (b, positionAt (body.length + 1) body off)

/-- The instruction at a thread's PC, if it is one. -/
def State.instrOf (s : State) (x : Group) (t : Thread) : Option Instr :=
  match s.slotOf x t with
  | some (b, .word w _) =>
    if b.prot then none
    else match decodeWord w with
      | .instr i => some i
      | _ => none
  | _ => none

/-- The cohort-synchronous instructions (R113, R114, R355, R363): the lane-crossing ones, `tget`, `tset`, `bcmp`, `bmov`,
`xacq` and `xrel`. -/
def cohortSync (op : Nat) : Bool :=
  (decide (0x50 ≤ op) && decide (op ≤ 0x59)) || [0xA6, 0xA7, 0xB0, 0xB1, 0xE6, 0xE7].contains op

/-- The live threads of a cohort. -/
def Group.cohortLive (x : Group) (coh : Nat) : List (Nat × Thread) :=
  ((List.range 64).filterMap fun i => (x.threads[64 * coh + i]?).map fun t => (64 * coh + i, t)).filter fun p => p.2.live

/-- Whether the instruction at a thread's PC is cohort-synchronous. -/
def State.atCohortSync (s : State) (x : Group) (t : Thread) : Bool :=
  match s.instrOf x t with
  | some i => cohortSync i.op.toNat
  | none => false

/-- Whether a thread waits for its cohort: it stands at a cohort-synchronous instruction that another live thread of the
cohort has not reached.  Such a thread is parked (R111). -/
def State.syncParked (s : State) (x : Group) (tid : Nat) (t : Thread) : Bool :=
  t.st == .ready && t.fall.isNone &&
    !(x.cohortLive (tid / 64)).all (fun p => p.2.st == .ready && p.2.fall.isNone && p.2.pc == t.pc) && s.atCohortSync x t

/-- Whether a thread is parked (R111): by its own state, by the fill that its group waits for (R251), or at a
cohort-synchronous instruction. -/
def State.threadParked (s : State) (x : Group) (tid : Nat) (t : Thread) : Bool :=
  match t.st with
  | .exited => false
  | .ready => (match x.st with | .fill .. => true | _ => false) || s.syncParked x tid t
  | _ => true

/-- Bytes of the code object at a code offset, read as a fill reads them (R94): a poisoned line is a machine check (R418),
and a prepared cell waits (R258).  No X is asked of the page: a block from a page with X = 0 faults where it executes (R249), and `ldk`
asks X of its literal alone (log entry 129). -/
def State.codeBytes (s : State) (g : Group) (off len : Nat) : Except Stop (List Byte) :=
  let l := s.launchOf g
  match s.accessAt (s.aspace g) ⟨false, l.r.code + off⟩ len 1 .read with
  | .error e => .error e
  | .ok a =>
    if s.poisoned a.1.keys then .error .check
    else if a.1.keys.any s.prepared then .error .later
    else .ok (s.readBytes a.1.keys)

/-- A header and its body as a fill of the group reads them: the cached block where the core holds it, `none` where
the header or its body leaves the object (R75, R81); an offset below the first block is outside it (log entry 82). -/
def State.blockAt (s : State) (g : Group) (off : Nat) : Except Stop (Option (List Byte)) :=
  let l := s.launchOf g
  if off % 8 ≠ 0 ∨ off < l.objFirst ∨ l.objSize < off + 8 then .ok none
  else match s.cached g.core g.launch (BitVec.ofNat 32 off) with
    | some b => .ok (some b.bytes)
    | none => do
      let h ← s.codeBytes g off 8
      let len := (Header.ofNat (littleEndian h)).len
      if l.objSize < off + 8 + len then .ok none
      else do
        let body ← s.codeBytes g (off + 8) len
        .ok (some (h ++ body))

/-- The check of a header that control reaches (R81, R82): its block, or the fault with the header's offset modulo 2^32
(log entry 82). -/
def State.checkHeader (s : State) (g : Group) (off : Int) (kinds : List Nat) : Except Stop (List Byte) :=
  let bad := Stop.of .badTarget 0 (BitVec.ofInt 32 off).toNat
  if off < 0 then .error bad
  else do
    match ← s.blockAt g off.toNat with
    | none => .error bad
    | some bytes =>
      if !validBlock bytes then .error bad
      else if (blockHeader bytes).kind = 2 then .error (.of .poolExecution 0 off.toNat)
      else if (blockHeader bytes).kind ∈ kinds then .ok bytes
      else .error bad

/-- The check of a pool header that an instruction reads (R82): the pool's body. -/
def State.checkPool (s : State) (g : Group) (off : Int) : Except Stop (List Byte) :=
  let bad := Stop.of .badTarget 0 (BitVec.ofInt 32 off).toNat
  if off < 0 then .error bad
  else do
    match ← s.blockAt g off.toNat with
    | none => .error bad
    | some bytes =>
      if validBlock bytes && (blockHeader bytes).kind == 2 then .ok (blockBody bytes) else .error bad

/-- Whether a header names a reconvergence point (R83). -/
def namesPoint (bytes : List Byte) : Bool := (blockHeader bytes).reconv != 0

/-- The reconvergence point a header names, from the header's offset; one that is no code offset never matches, and is as
none (R83). -/
def reconvOf (off : Word) (bytes : List Byte) : Option Word :=
  let r := (blockHeader bytes).reconv
  let p : Int := off.toNat + 8 * r
  if r = 0 ∨ p < 0 ∨ 2 ^ 32 ≤ p then none else some (BitVec.ofInt 32 p)

/-! ## Arrival at a boundary (R16, R18) -/

/-- The thread arrives at its domain's boundary.  A thread that has arrived already adds no second boundary: a transfer that
carries the step marker and reaches its pending reconvergence header passes one boundary, the join's (log entry 83). -/
def State.arrive (s : State) (r : TRef) (st : TState) (a : Nat → Arrival) : State :=
  (s.modThread r fun t => if t.arr.isSome then t else { t with st := st, arr := some { a s.fresh with cycle := s.clk } }).bump

/-- The arrival by a step marker. -/
def State.arriveMarker (s : State) (r : TRef) : State := s.arrive r .boundary fun n => { order := n }

/-- The arrival at a join, at the join's or header's code offset. -/
def State.arriveJoin (s : State) (r : TRef) (off : Word) (grp : Bool) : State :=
  (s.arrive r (.join off grp) fun n => { order := n }).modThread r fun t => { t with reconv := none }

/-! ## Control reaches a header (R81, R83) -/

/-- The thread enters the block at `off`: PC, block and pending point; a header that is the pending point acts as a
join; a body that begins with padding falls through. -/
def State.enter (s : State) (r : TRef) (off : Word) (bytes : List Byte) : State :=
  let body := blockBody bytes
  let empty := match decodeSlot body with | .padding => true | _ => false
  let joins := match s.thread? r with | some t => t.reconv == some off | none => false
  let s := s.modThread r fun t =>
    { t with pc := off + 8, here := off,
             fall := if empty then some (nextHeader off bytes, off) else none }
  let s := if joins then s.arriveJoin r off false else s
  if namesPoint bytes then s.modThread r fun t => { t with reconv := reconvOf off bytes } else s

/-- `reach` of R135: check the header, then enter it. -/
def State.reach (s : State) (r : TRef) (g : Group) (off : Int) (kinds : List Nat) : Except Stop State :=
  (s.checkHeader g off kinds).map fun bytes => s.enter r (BitVec.ofInt 32 off) bytes

/-- The kinds that fall-through and a branch may reach: code, loop and entry (R81, R134). -/
def codeKinds : List Nat := [0, 1, 3]
def entryKind : List Nat := [3]

/-! ## Outstanding results (R116) -/

/-- Whether the value of a deferred result is yet to return; one whose destination is 248 leaves the count at its return too (R116,
R164, log entry 119). -/
def Src.outstanding : Src → Bool
  | .vals _ | .keep => false
  | _ => true

/-- Whether the boundary's commit waits for the result: the commit and the engines give the others after it. -/
def Src.early : Src → Bool
  | .vals _ | .keep | .commit | .engine | .racq _ => false
  | _ => true

def Thread.outstanding (t : Thread) : Nat := (t.defs.filter fun d => d.src.outstanding).length

/-- Whether a deferred result is that of an acquisition which waits for its ring. -/
def Src.acquires : Src → Bool
  | .racq _ => true
  | _ => false

/-- Whether a deferred result has returned its value. -/
def Src.returned : Src → Bool
  | .vals _ => true
  | _ => false

/-- Whether a deferred result goes to registers. -/
def Dst.isRegister : Dst → Bool
  | .regs .. | .half .. => true
  | .none | .pred _ => false

/-- Whether acquisitions of the thread wait. -/
def Thread.acquiring (t : Thread) : Bool := !t.takes.isEmpty || t.defs.any fun d => d.src.acquires

/-- The thread issues a deferred result; its number is `s.fresh`. -/
def State.defer (s : State) (r : TRef) (dst : Dst) (src : Src) : State :=
  (s.modThread r fun t => { t with defs := t.defs ++ [{ seq := s.fresh, dst := dst, src := src }] }).bump

/-- The value of a deferred result reaches the pending bank. -/
def State.result (s : State) (r : TRef) (seq : Nat) (src : Src) : State :=
  s.modThread r fun t =>
    { t with defs := t.defs.map fun d => if d.seq = seq then { d with src := src } else d }

/-- The thread asks for an effect at its boundary. -/
def State.buffer (s : State) (r : TRef) (f : Fx) : State := s.modThread r fun t => { t with fx := t.fx ++ [f] }

/-! ## `%vtime` (R159, R390) -/

def Thread.vtimeAt (t : Thread) (clk : DWord) : Word := t.vtime + (clk - t.since).setWidth 32

/-! ## Groups in flight, leaving, traps, aborts and kills -/

/-- Whether the group's threads may issue. -/
def Group.runs (g : Group) : Bool := g.st == .running

/-- Whether it is trapped and held (R389). -/
def Group.isTrapped (g : Group) : Bool :=
  match g.st with
  | .trapped _ => true
  | _ => false

/-- Whether it is parked by a replayable miss (R251). -/
def Group.fills (g : Group) : Bool :=
  match g.st with
  | .fill .. => true
  | _ => false

/-- Whether an operation that the group started is still in flight (R14). -/
def State.inFlight (s : State) (g : Nat) : Bool :=
  s.copies.any (fun c => c.2.grp == g) || s.sops.any (fun c => c.2.grp == g && !c.2.faulted) ||
    s.recs.any (fun c => c.2.grp == g) || s.arrays.any (fun c => c.2.grp == g) ||
    s.remotes.any (fun c => c.2.grp == g) || s.colls.any (fun c => c.2.grp == g)

/-- Whether a committed domain waits for what the engines, or the takers of its postings, still do: results that they give,
records with a result for its threads, records and arrays on their way into the task queue, postings (R18, R331, R340, R347). -/
def State.awaitsEngines (s : State) (g d : Nat) (x : Group) : Bool :=
  (x.dom d).phase == .committed && (!(x.dom d).posts.isEmpty ||
    ((x.domTids d).any fun i => match x.threads[i]? with
      | some t => t.live && t.defs.any fun e => e.src == .engine
      | none => false) ||
    s.recs.any (fun r => r.2.takers.any fun p => p.1.grp == g && x.domOf p.1.tid == d) ||
    s.taskWait.any (fun i => match s.recs.find? i with | some r => r.grp == g && r.dom == d | none => false) ||
    s.arrays.any fun a => a.2.grp == g && a.2.dom == d)

/-- The messages of other groups that wait, or move, at the rings of a group: request and sender (R282). -/
def State.foreignMessages (s : State) (g : Nat) : List (Nat × Nat) :=
  s.copies.filterMap fun c => match c.2.dest with
    | some (h, _) => if h == g && c.2.grp != g then some (c.1, c.2.grp) else none
    | none => none

/-- The bytes of a put or message. -/
def CopyKind.msgLen : CopyKind → Nat
  | .put _ _ l | .send _ _ _ l _ => l
  | _ => 0

/-- A put or message whose ring is gone is discarded, its bytes counted as undelivered (R282, R296). -/
def State.discardCopy (s : State) (id : Nat) : State :=
  match s.copies.find? id with
  | none => s
  | some c =>
    ({ s with copies := s.copies.erase id }.countIn c.grp c.ctr (c.kind.msgLen - c.done) true).outDone c.grp c.ctr

/-- The mark of a request or record of a group `h`, once the steps of group `g` in domains that a test accepts are
released. -/
def freed (g : Nat) (p : Nat → Bool) (h : Nat) (by_ : Option Nat) : Option Nat :=
  if g = h then by_.filter (!p ·) else by_

/-- The steps of a group's domains that a test accepts are released: the launch and spawn records that they passed take effect
(R39), and the engines' requests may read (R40). -/
def State.freeRecords (s : State) (g : Nat) (p : Nat → Bool) : State :=
  let free (r : Spawn) : Spawn := match r.by_ with
    | some (h, d) => if h == g && p d then { r with by_ := none } else r
    | none => r
  { s with
    queues := s.queues.map fun k => { k with wait := k.wait.map fun e => { e with by_ := freed g p e.grp e.by_ } }
    copies := s.copies.map fun (c : Nat × Copy) => (c.1, { c.2 with by_ := freed g p c.2.grp c.2.by_ })
    sops := s.sops.map fun (c : Nat × SOp) => (c.1, { c.2 with by_ := freed g p c.2.grp c.2.by_ })
    recs := s.recs.map fun (c : Nat × MRec) => (c.1, { c.2 with by_ := freed g p c.2.grp c.2.by_ })
    colls := s.colls.map fun (c : Nat × Collective) => (c.1, { c.2 with by_ := freed g p c.2.grp c.2.by_ })
    cores := s.cores.map fun (c : Nat × Core) => (c.1, { c.2 with deque := c.2.deque.map free })
    spill := s.spill.map fun (c : Nat × List Spawn) => (c.1, c.2.map free) }

/-- Group and objects are gone from the module: rings, ports and counters go with the group, and messages at its rings are
discarded (R14, R281, R282). -/
def State.dropGroup (s : State) (g : Nat) : State :=
  let s := ((s.foreignMessages g).foldl (fun s m => s.discardCopy m.1) s).freeRecords g fun _ => true
  { s with
    groups := s.groups.erase g
    sops := s.sops.filter fun o => o.2.grp != g
    tiles := s.tiles.filter fun t => t.2.grp != g
    basins := s.basins.filter fun t => t.2.grp != g
    ballocs := s.ballocs.filter fun b => b.who.grp != g
    misses := s.misses.filter fun m => m.who != Requester.group g
    fw := { s.fw with held := s.fw.held.filter fun h => h.grp != g }
    savedQ := (s.savedQ.map fun p => (p.1, p.2.filter (· != g))).filter fun p => !p.2.isEmpty }

/-- A core's and a quad's requests of the group are gone. -/
def State.dropRequests (s : State) (g : Nat) (core : Nat) : State :=
  (s.modCore core fun c => { c with xacqs := c.xacqs.filter fun x => x.1 != g, ovf := c.ovf.filter fun r => r.grp != g })
    |>.modQuad (quadOf core) fun q => { q with tallocs := q.tallocs.filter fun x => x.who.grp != g }

/-- The group is reported failed (R378, R389, R420). -/
def State.failGroup (s : State) (x : Group) (reason : Nat) : State :=
  s.modLaunch x.launch fun l =>
    { l with
      nfail := l.nfail + 1
      fgrp := match l.fgrp with | some f => some (min f x.grp) | none => some x.grp
      status := if l.status = 3 then 3 else 2
      reason := if l.status = 0 then reason else l.reason }

/-- Whether a group has exited and nothing of it is in flight (R14); one that is held trapped stays until its resume or abort (R42,
R389). -/
def State.mayLeave (s : State) (g : Nat) (x : Group) : Bool :=
  x.threads.all (fun t => !t.live) && !x.isTrapped && !s.inFlight g && x.doms.all fun d => d.phase != .committed

/-- The groups of a list that can leave their cores do; an engine fault that no boundary has taken up is reported (R14).
A message that goes with a ring may have been the last that held its sender; `fuel` bounds the list. -/
def State.leaveEach (s : State) : Nat → List Nat → State
  | 0, _ => s
  | _, [] => s
  | fuel + 1, g :: rest =>
    match s.group? g with
    | some x =>
      if s.mayLeave g x then
        let senders := (s.foreignMessages g).map (·.2)
        let s := if x.engFault.isSome && !x.failed then s.failGroup x Cause.engine.code else s
        ((s.dropGroup g).dropRequests g x.core).leaveEach fuel (rest ++ senders)
      else s.leaveEach fuel rest
    | none => s.leaveEach fuel rest

/-- The group leaves its core once its threads have exited and nothing of it is in flight (R14). -/
def State.leave (s : State) (g : Nat) : State := s.leaveEach (s.copies.length + 2) [g]

/-- The result of an AtomicOp on a word (R265). -/
def atomicResult (fn : Nat) (old x y : Word) : Word :=
  match fn with
  | 0 => old + x
  | 1 => x
  | _ => if old = x then y else old

/-- A group's uncommitted step is discarded and its threads count as exited (R42). -/
def Group.discard (x : Group) : Group :=
  { x with
    st := .running
    threads := x.threads.map fun t => { t with st := .exited, arr := none, defs := [], fx := [], takes := [], late := false }
    doms := x.doms.map fun d => { d with phase := .run, prep := none, prepNo := none, insts := [], satoms := [], atomErrs := []
                                         svcs := [], posts := [], proper := [], cells := 0, spilled := 0, lost := none
                                         paused := false }
    save := none, engFault := none, frame := none, spent := [], failed := true }

/-- Abort (R42): the frozen step is discarded, the group is reported failed and leaves under R14. -/
def State.abortGroup (s : State) (g : Nat) (reason : Nat) : State :=
  match s.group? g with
  | some x =>
    let s := { s with misses := s.misses.filter fun m => m.who != Requester.group g,
                      fw := { s.fw with held := s.fw.held.filter fun h => h.grp != g } }
    (((s.failGroup x reason).modGroup g Group.discard).dropRequests g x.core).leave g
  | none => s

/-! ### The trap frame (R389) -/

/-- A vector is raised (R403): where its table entry masks it, its pending bit is set (R405, log entry 81). -/
def Firmware.raise (f : Firmware) (v : Nat) : Firmware :=
  { f with
    msix := f.msix ++ [v]
    pba := if (f.vectors[2 * v + 1]?.getD 0).getLsbD 32 then f.pba ||| BitVec.ofNat 65 (2 ^ v) else f.pba }

/-- The state code of a thread for a save area (R388). -/
def TState.code : TState → Nat
  | .ready => 0
  | .boundary => 1
  | .join .. => 2
  | .waitv _ => 3
  | .xacq .. => 4
  | .acquire => 5
  | .pause => 7
  | .resuming _ => 0
  | .exited => 8

/-- The code offset of the instruction at which a thread faults: a parked `waitv` has been passed, any other stands at the PC (R95). -/
def Thread.faultPc (t : Thread) : Word := match t.st with
  | .waitv w => w.pc
  | _ => t.pc

/-- A thread's 16 bytes in a trap frame: the record of R152 with the flags of R389. -/
def threadRecord (t : Thread) (trapping parked : Bool) (pc : Word) : List Byte :=
  bytesOf 16 (pack [(0, 32, pc.toNat), (32, 32, t.dstep.toNat), (64, 32, t.xstep.toNat), (96, 7, t.p.toNat),
    (112, 1, trapping.toNat), (113, 1, parked.toNat)])

/-- The header of a trap frame. -/
def State.trapHeader (s : State) (x : Group) (t : Trap) (rank fpc : Word) : List Byte :=
  let l := s.launchOf x
  bytesOf 64 (pack [(0, 8, t.cause.code), (8, 8, t.sub), (32, 16, t.code), (96, 32, fpc.toNat), (128, 32, rank.toNat),
    (160, 64, t.faddr), (224, 32, l.ident.toNat), (256, 32, x.grp),
    (288, 32, (x.threads.filter Thread.live).length), (320, 64, s.clk.toNat)])

/-- Taking a trap (R42, R389): the thread engine writes the frame; the firmware keeps the first frame of the launch,
aborts the group with DBG clear, and holds it and tells the host with DBG set.  An event in its prepare phase starts that again
after a resume.  `who` are the trapping threads; FPC is the PC of their records (R152). -/
def State.trap (s : State) (g : Nat) (who : List Nat) (t : Trap) : State :=
  match s.group? g with
  | none => s
  | some x =>
    let l := s.launchOf x
    let first := who.headD 0
    let rank := match t.rank with
      | some r => r
      | none => match who with
        | [tid] => s.rank x tid
        | _ => 0xFFFFFFFF
    let fpc := match t.fpc with
      | some p => p
      | none => match x.threads[first]? with
        | some th => th.pc
        | none => 0
    let recs := (List.range x.threads.length).flatMap fun i =>
      match x.threads[i]? with
      | some th => threadRecord th (i ∈ who) (s.threadParked x i th) (if i ∈ who then t.fpc.getD th.pc else th.pc)
      | none => []
    let addr := s.fw.trapAddr
    let image := s.trapHeader x t rank fpc ++ bytesOf 128 t.record.toNat ++ recs
    let s := s.writePhys addr image
    let s := { s with fw := { s.fw with trapAddr := addr + (image.length + 63) / 64 * 64 } }
    let s := s.modLaunch x.launch fun l => { l with tfa := if l.tfa = 0 then addr else l.tfa }
    if l.r.dbg then
      let s := s.modGroup g fun x =>
        { x with st := .trapped addr, save := none, doms := x.doms.map fun d => { d with prep := none, prepNo := none } }
      let seq := s.fw.mbevt.extractLsb' 16 16 + (1 : BitVec 16)
      let fw : Firmware :=
        { s.fw with
          held := s.fw.held ++ [{ addr := addr, grp := g, cause := t.cause.code }]
          mbevt := seq ++ (1 : BitVec 16)
          evtBuf := [BitVec.ofNat 64 addr] }
      { s with fw := fw.raise 64 }
    else s.abortGroup g t.cause.code

/-- Whether a matrix record is in flight and not of the group. -/
def State.foreign (s : State) (g : Nat) (id : Nat) : Bool :=
  match s.recs.find? id with
  | some r => r.grp != g
  | none => false

/-- The engines of all cores keep only the records that a test accepts. -/
def State.freeEngines (s : State) (p : Nat → Bool) : State :=
  let kept := s.cores.map fun (e : Nat × Core) => (e.1, { e.2 with running := e.2.running.filter p })
  { s with cores := kept.filter (fun e => e.2 != ({} : Core)) }

/-- The rings of all groups keep only the requests that a test accepts in their lines. -/
def State.keepInLines (s : State) (p : Nat → Bool) : State :=
  { s with groups := s.groups.map fun (x : Nat × Group) =>
      (x.1, { x.2 with rings := x.2.rings.map fun k => { k with wait := k.wait.filter p } }) }

/-- The requests of a killed or aborted group stop, with their places in the lines of rings; remote operations still
settle (R372, R419). -/
def State.stopRequests (s : State) (g : Nat) : State :=
  let s := s.keepInLines fun id =>
    (match s.copies.find? id with | some c => c.grp != g | none => true) &&
      match s.sops.find? id with | some o => o.grp != g | none => true
  { (s.freeEngines (s.foreign g)) with
    copies := s.copies.filter fun c => c.2.grp != g
    sops := s.sops.filter fun c => c.2.grp != g
    recs := s.recs.filter fun c => c.2.grp != g
    arrays := s.arrays.filter fun c => c.2.grp != g
    colls := s.colls.filter fun c => c.2.grp != g
    taskQ := s.taskQ.filter (s.foreign g)
    taskWait := s.taskWait.filter (s.foreign g) }

/-- The group is gone from its core with its uncommitted step; remote operations stay to settle (R419). -/
def State.removeGroup (s : State) (g : Nat) : State :=
  match s.group? g with
  | some x =>
    let s := (s.stopRequests g).dropRequests g x.core
    (s.dropGroup g).leaveEach (s.copies.length + 1) ((s.foreignMessages g).map (·.2))
  | none => s

/-- The group waits again at the die dispatcher, before other groups (R239, R383, R420), the one killed last before those killed
earlier (log entry 65). -/
def State.requeue (s : State) (x : Group) (avoid : Option Nat) : State :=
  let w : Waiting := { launch := x.launch, grp := x.grp, spawn := x.spawn, avoid := avoid }
  let d := dieOf x.core
  { s with dieQ := Table.set [] s.dieQ d (w :: Table.get [] s.dieQ d) }

/-- Whether a group is being dropped. -/
def Group.flushes (x : Group) : Bool :=
  match x.st with
  | .flushing _ => true
  | _ => false

/-- Whether a thread of the group has not exited. -/
def Group.alive (x : Group) : Bool := x.threads.any Thread.live

/-- Whether the dispatcher may choose a group for a save or a drop: not one that is trapped (R387) or being dropped, nor one whose
threads have all exited, which stays until its engines have finished (R14). -/
def Group.choosable (x : Group) : Bool :=
  match x.st with
  | .trapped _ | .flushing _ => false
  | _ => x.alive

/-- Whether a commit event of a group is in its prepare phase. -/
def Group.underWay (x : Group) : Bool := x.doms.any fun d => d.phase == .run && d.prep.isSome

/-- A group is dropped at once (R43, R239, R386, R421): its uncommitted step is discarded and it is queued again, or not.
A commit event that is under way completes before. -/
def State.flushGroup (s : State) (g : Nat) (again : Bool) : State :=
  match s.group? g with
  | none => s
  | some x =>
    if (x.runs || x.flushes || x.fills) && x.underWay then s.modGroup g fun x => { x with st := .flushing again, save := none }
    else
      let s := s.removeGroup g
      if again then s.requeue x none else s

/-- A group that is being dropped goes with its last event that was under way. -/
def State.endFlush (s : State) (g : Nat) : State :=
  match s.group? g with
  | none => s
  | some x =>
    match x.st with
    | .flushing again => if x.underWay then s else s.flushGroup g again
    | _ => s

/-- Whether a group stands by itself in its launch: not in a gang (R380, R382). -/
def Launch.alone (l : Launch) (x : Group) : Bool := l.r.gang == 0 || x.spawn.isSome

/-- Under which key a launch counts the kills of a group: its own `%grp`, or one for a whole gang (R420, R421). -/
def Launch.killKey (l : Launch) (x : Group) : Nat := if l.alone x then x.grp else 0

/-- A kill of the group is counted; one that has been reported failed is not counted again (R42, R420). -/
def State.countKill (s : State) (g : Nat) : State :=
  match s.group? g with
  | none => s
  | some x =>
    if x.failed then s
    else s.modLaunch x.launch fun l => { l with kills := Table.set 0 l.kills (l.killKey x) (Table.get 0 l.kills (l.killKey x) + 1) }

/-- The gang of a group that has been killed is flushed and placed again (R421). -/
def State.relaunchGang (s : State) (x : Group) : State :=
  let gs := (s.groups.filter fun p => p.2.launch == x.launch && p.2.spawn.isNone).map (·.1)
  (gs.foldl (fun s h => s.flushGroup h false) s).modLaunch x.launch fun l => { l with gang := .idle, handed := 0 }

/-- The cores that a launch has reserved are free of it (R380). -/
def State.clearResv (s : State) (lid : Nat) : State :=
  let kept := s.cores.map fun (p : Nat × Core) => (p.1, { p.2 with resv := p.2.resv.filter fun r => r.2 != lid })
  { s with cores := kept.filter fun p => p.2 != ({} : Core) }

/-- The group whose kill has been counted is gone, and what its launch asks for follows: relaunch, or failure (R420, R421).
Of a gang that is being placed again already, the group comes back with it; where its kill is the third, the gang does not
(log entry 96).  A group that has been reported failed only goes (R14). -/
def State.endKill (s : State) (g : Nat) (reason : Nat := 0x80) : State :=
  match s.group? g with
  | none => s
  | some x =>
    let l := s.launchOf x
    let s := s.removeGroup g
    if x.failed then s
    else if l.r.idem && decide (Table.get 0 l.kills (l.killKey x) < 3) then
      if l.alone x then s.requeue x (some (quadOf x.core)) else if x.flushes then s else s.relaunchGang x
    else
      let s := s.failGroup x reason
      if x.flushes && !l.alone x then (s.clearResv x.launch).modLaunch x.launch fun l => { l with gang := .started 0 } else s

/-- Groups that one check kills: each kill is counted, then each group goes (R420, R421). -/
def State.killAll (s : State) (gs : List Nat) : State := gs.foldl (fun s g => s.endKill g) (gs.foldl State.countKill s)

/-- A group is killed (R419). -/
def State.kill (s : State) (g : Nat) (reason : Nat := 0x80) : State := (s.countKill g).endKill g reason

/-! ## Cores: lanes and residents; the start of a lane test (R127-R130, R422) -/

/-- Two-pass degraded mode (R127, R129). -/
def Core.degraded (k : Core) : Bool := k.lremap.getLsbD 31

/-- The groups that stand on a core. -/
def State.residents (s : State) (core : Nat) : List (Nat × Group) :=
  s.groups.filter fun p => p.2.resident && p.2.core == core

/-- The physical lane of a logical lane (R127-R129). -/
def physicalLane (lremap : Word) (l : Nat) : Nat :=
  let skip := lremap.toNat % 128
  let fail2 := lremap.toNat / 128 % 128
  if lremap.getLsbD 31 then ((List.range 65).filter fun p => p != skip && p != fail2)[l % 32]?.getD 0
  else if l < skip then l else l + 1

/-- A test of a core starts: its groups are held at their next boundary (R422). -/
def State.startTest (s : State) (core : Nat) : State :=
  let s := s.modCore core fun k => { k with testing := true }
  { s with groups := s.groups.map fun (p : Nat × Group) =>
      if p.2.resident && p.2.core == core then (p.1, { p.2 with testHold := true }) else p }

/-- A machine check that a lane or a matrix engine raises against a group: the group is killed and a core is tested
(R130, R327, R422). -/
def State.integrity (s : State) (g core : Nat) : State := (s.kill g).startTest core

/-- Requests of a group that have passed and not completed. -/
def State.copyCount (s : State) (g : Nat) : Nat := (s.copies.filter fun c => c.2.grp == g).length

/-- Operations of the group that have started and not completed (R307). -/
def State.sopCount (s : State) (g : Nat) : Nat := (s.sops.filter fun o => o.2.grp == g).length

/-! ## Replayable misses (R250-R252) -/

/-- The entries of a core's fault buffer: distinct pages. -/
def State.bufferCount (s : State) (core : Nat) : Nat :=
  ((s.misses.filter fun m => m.core == core && m.inBuffer).map fun m => (m.asid, m.page)).eraseDups.length

/-- A miss enters its core's fault buffer, or waits behind those that wait where the buffer is full (R252). -/
def State.addMiss (s : State) (core asid va : Nat) (who : Requester) : State :=
  let page := va / 2 ^ 16
  let shares := s.misses.any fun m => m.core == core && m.asid == asid && m.page == page && m.inBuffer
  let waiting := s.misses.any fun m => m.core == core && !m.inBuffer
  let m : Miss := { core, asid, page, who, inBuffer := shares || (decide (s.bufferCount core < 256) && !waiting) }
  if s.misses.contains m then s else { s with misses := s.misses ++ [m] }

/-- An object of an engine whose miss waits pauses. -/
def State.waitsOn (s : State) (who : Requester) : Bool := s.misses.any fun m => m.who == who

end Sys2Proof.Machine
end

