-- ==== Sys2Proof/Machine/Flags.lean ====
section
/-!
DEFINITION. The comparisons that set predicates and wake threads (R146, R175, R184, R223).
-/
namespace Sys2Proof.Machine

/-- The integer a word is under a type: signed for i32, unsigned otherwise (R48). -/
def ival (t : Ty) (w : Word) : Int := if t = .i32 then w.toInt else w.toNat

def f32IsNan (w : Word) : Bool := w.extractLsb' 23 8 == 0xFF && w.extractLsb' 0 23 != 0

/-- The order of FP32 values as integers, −0 and +0 alike; NaN has no place in it. -/
def f32Key (w : Word) : Int := if w.msb then -((w.toNat % 2 ^ 31 : Nat) : Int) else (w.toNat : Int)

/-- The comparisons FN 0-5 on integers. -/
def cmpInt (fn : Nat) (a b : Int) : Bool :=
  match fn with
  | 0 => a == b
  | 1 => a != b
  | 2 => a < b
  | 3 => a ≤ b
  | 4 => a > b
  | _ => a ≥ b

/-- The comparisons FN 0-7 on FP32: NaN makes all false but `.ne` and `.unord`; `.ord` is 6 (R184). -/
def cmpF32 (fn : Nat) (a b : Word) : Bool :=
  let nan := f32IsNan a || f32IsNan b
  match fn with
  | 1 => nan || f32Key a != f32Key b
  | 6 => !nan
  | 7 => nan
  | _ => !nan && cmpInt fn (f32Key a) (f32Key b)

/-- The comparison of `waitv` and `cwr` of a word of memory with a comparand (R146, R223). -/
def cmpWord (fn : Nat) (t : Ty) (m b : Word) : Bool :=
  match fn with
  | 6 => m &&& b != 0
  | 7 => m &&& b == 0
  | _ => if t = .f32 then cmpF32 fn m b else cmpInt fn (ival t m) (ival t b)

end Sys2Proof.Machine
end

