-- ==== Sys2Proof/Machine/Operands.lean ====
section
/-!
DEFINITION. Operand forms: sources, pairs, the memory operand (R86, R212), and the destinations of class I and class D
(R115, R118, R165).
-/
namespace Sys2Proof.Machine

/-- The value of a source field: a register, IMM, or 0 (R86). -/
def Thread.src (t : Thread) (f : Fields) (code : BitVec 8) : Word :=
  if code.toNat ≤ 191 then t.reg code.toNat else if code = 249 then f.imm else 0

/-- The operands of R161 under T. -/
def Thread.opA (t : Thread) (f : Fields) : Word := t.src f f.a
def Thread.opB (t : Thread) (f : Fields) : Word := t.src f f.b
def Thread.opC (t : Thread) (f : Fields) : Word := t.src f f.c
def Thread.intA (t : Thread) (f : Fields) : Int := ival f.t (t.opA f)
def Thread.intB (t : Thread) (f : Fields) : Int := ival f.t (t.opB f)
def Thread.intC (t : Thread) (f : Fields) : Int := ival f.t (t.opC f)

/-- The second register of a pair (R165). -/
def Thread.srcHi (t : Thread) (code : BitVec 8) : Word := t.reg (code.toNat + 1)

/-- The predicate a field names: p0-p7 as 192-199. -/
def Thread.predOf (t : Thread) (code : BitVec 8) : Bool := t.pred (code.toNat - 192)

/-- A class I result: a register, or discarded at 248. -/
def Thread.writeD (t : Thread) (code : BitVec 8) (w : Word) : Thread :=
  if code.toNat ≤ 191 then t.setReg code.toNat w else t

/-- A class I result of two registers, low word first (R165). -/
def Thread.writePair (t : Thread) (code : BitVec 8) (w : DWord) : Thread :=
  if code.toNat ≤ 190 then t.setRegs code.toNat [w.setWidth 32, (w >>> 32).setWidth 32] else t

def Thread.writeP (t : Thread) (code : BitVec 8) (b : Bool) : Thread := t.setPred (code.toNat - 192) b

/-- A counter operand; 248 names none. -/
def ctrOf (code : BitVec 8) : Option Nat := if code = 248 then none else some code.toNat

/-- The destination of a deferred result of `n` words; 248 discards it (R86). -/
def dstOf (code : BitVec 8) (n : Nat := 1) : Dst := if code.toNat ≤ 191 then .regs code.toNat n else .none

/-- The destination of a deferred predicate. -/
def dstPred (code : BitVec 8) : Dst := .pred (code.toNat - 192)

/-- The bytes of an access and their alignment, by type (R214). -/
def tySize : Ty → Nat
  | .b32 | .i32 | .n32 | .f32 | .bf16x2 => 4
  | .bf16l | .bf16h | .f16 | .i16 | .n16 => 2
  | .e4m3 | .e5m2 | .e2m1 | .i8 | .n8 => 1
  | .l6 => 3

def tyAlign : Ty → Nat
  | .l6 => 1
  | t => tySize t

/-- The offset of the memory operand of an instruction (R212). -/
def Thread.memOff (t : Thread) (f : Fields) : Nat :=
  offsetOf (if f.c = 248 then 0 else t.reg f.c.toNat) f.imm f.x.toNat

/-- The memory operand of an instruction: all checks of R213, and the bytes it names. -/
def State.operand (s : State) (g : Group) (t : Thread) (f : Fields) (size align : Nat) (write : Bool) (u : Use) :
    Except Stop (Acc × List Leaf) := do
  let loc ← t.place f.a.toNat (t.memOff f) size write
  s.accessAt (s.aspace g) loc size align u

/-- A range that a field and an offset name for an engine: the segment, address and alignment faults of R213, over
the whole of it (R273, R289).  The engine translates it. -/
def Thread.range (t : Thread) (seg : BitVec 8) (off len align : Nat) (write : Bool) : Except Stop Loc := do
  let loc ← t.place seg.toNat off len write
  if loc.addr % align ≠ 0 then throw (.of .alignment 0 loc.addr)
  pure loc

/-- A scratchpad range that ends at or below 2^22 (R289). -/
def scratchRange (off len : Nat) : Except Stop Loc :=
  if off + len > 2 ^ 22 then .error (.of .segment 1 off) else .ok ⟨true, off⟩

end Sys2Proof.Machine
end

