-- ==== Sys2Proof/Machine/Issue.lean ====
section
/-!
DEFINITION. What every instruction shares: the checks at issue in the order of R96, the guard (R90), the advance of
the PC with the step marker (R16), fall-through (R81), replayable misses (R251), and traps.
-/
namespace Sys2Proof.Machine

/-- The feature bits of a format code (R77, R285). -/
def fmtFeatures (fmt : Nat) : List Nat :=
  match fmt with
  | 2 | 3 | 4 => [1]
  | 5 => [2]
  | _ => []

/-- The feature bits an instruction needs (R77). -/
def featuresOf (i : Instr) (f : Fields) : List Nat :=
  let op := i.op.toNat
  (if f.t = .e4m3 ∨ f.t = .e5m2 ∨ f.t = .e2m1 then [1] else []) ++
  (if f.t = .l6 then [2] else []) ++
  (if 0xC0 ≤ op ∧ op ≤ 0xC7 then [3] else []) ++
  (if f.sc = 5 then [5] else []) ++
  (if op = 0x72 then [7] else []) ++
  (if 0xD0 ≤ op ∧ op ≤ 0xD6 then [8] else []) ++
  (if op = 0xD7 then [10] else []) ++
  (if op = 0x0D then [11] else []) ++
  (if op = 0xAF then fmtFeatures (f.imm.toNat / 2 ^ 21 % 8) else [])

def featuresOk (fmask : BitVec 128) (i : Instr) (f : Fields) : Bool := (featuresOf i f).all fmask.getLsbD

/-- Whether every register the instruction names is held by the cohort (R120). -/
def heldOk (g : Group) (tid : Nat) (i : Instr) (f : Fields) : Bool :=
  (i.form.regs f).all fun n => n < 32 * (g.held[tid / 64]?.getD 0 + 1)

/-- The first of the decode faults of a well-formed instruction: a missing feature, then a register that is not held
(R96). -/
def decodeFault (s : State) (g : Group) (tid : Nat) (i : Instr) (f : Fields) : Option Stop :=
  if !featuresOk (s.launchOf g).fmask i f then some (.of .reserved)
  else if !heldOk g tid i f then some (.of .unheld)
  else none

/-! ## Going on -/

/-- The fall-through that waits where the instruction sequence of the thread's block ends; of a block that holds no
instruction, FPC is the header's offset (R79, R81). -/
def State.fallAt (s : State) (g : Group) (t : Thread) (fpc : Word) : Option (Word × Word) :=
  match s.cached g.core g.launch t.here with
  | none => none
  | some b =>
    let body := blockBody b.bytes
    match positionAt (body.length + 1) body (t.pc.toNat - t.here.toNat - 8) with
    | .padding => some (nextHeader t.here b.bytes, if t.pc = t.here + 8 then t.here else fpc)
    | _ => none

/-- The thread goes to the next instruction, `len` bytes on. -/
def State.advance (s : State) (r : TRef) (len : Nat) : State :=
  match s.group? r.grp, s.thread? r with
  | some g, some t =>
    let t' := { t with pc := t.pc + BitVec.ofNat 32 len }
    let f := s.fallAt g t' t.pc
    s.modThread r fun t => { t with pc := t'.pc, fall := f }
  | _, _ => s

/-- The step marker: the thread arrives at its boundary (R16). -/
def State.mark (s : State) (r : TRef) (f : Fields) : State := if f.s then s.arriveMarker r else s

/-- The issue is noted for R113 and R114. -/
def State.issued (s : State) (r : TRef) : State :=
  s.modThread r fun t => { t with lastIssue := some (s.core s.issue.core).cycle }

/-! ## Replayable misses -/

/-- The group stops and waits for the page (R251). -/
def State.parkForFill (s : State) (r : TRef) (asid va : Nat) : State :=
  match s.group? r.grp with
  | some g => (s.modGroup r.grp fun x => { x with st := .fill asid va r.tid }).addMiss g.core asid va (.group r.grp)
  | none => s

/-- The threads that a redirect takes: those that are ready, not one parked at a cohort-synchronous instruction (R111,
R151). -/
def State.redirected (s : State) (x : Group) : List Nat := (List.range x.threads.length).filter fun i =>
  match x.threads[i]? with
  | some t => t.st == .ready && !s.syncParked x i t
  | none => false

/-- The fault frame's header (R152). -/
def frameHeader (nthr : Nat) (rank fpc : Word) (va cause : Nat) : List Byte :=
  bytesOf 64 (pack [(32, 32, cause), (64, 57, va), (128, 32, fpc.toNat), (160, 32, rank.toNat), (192, 32, nthr)])

/-- A thread's record in the fault frame, with its stop PC (R152). -/
def frameRecord (t : Thread) (pc : Word) (redir : Bool) : List Byte :=
  bytesOf 16 (pack [(0, 32, pc.toNat), (32, 32, t.dstep.toNat), (64, 32, t.xstep.toNat), (96, 7, t.p.toNat),
    (112, 1, redir.toNat)])

def scratchKeys (quad off len : Nat) : List Nat := (List.range len).map fun i => scratchKey quad (off + i)

/-- The redirect of a group to its continuation (R151).  What is left of the issue group does not issue.  A frame for which no
thread is redirected is in use until the group next completes a boundary (log entry 97). -/
def State.redirect (s : State) (r : TRef) (x : Group) (entry frame : Word) (bytes : List Byte) (asid va cause : Nat) :
    State :=
  let fpc := match x.threads[r.tid]? with | some t => t.faultPc | none => 0
  let who := s.redirected x
  let q := quadOf x.core
  let recs := (List.range x.threads.length).flatMap fun i =>
    match x.threads[i]? with
    | some t => frameRecord t (if i = r.tid then fpc else t.pc) (i ∈ who)
    | none => []
  let image := frameHeader who.length (s.rank x r.tid) fpc va cause ++ recs
  let s := s.writeBytes (scratchKeys q frame.toNat image.length) image
  let s := s.modGroup r.grp fun x =>
    { x with frame := some { off := frame.toNat, asid, va, tid := r.tid, fpc, ready := false, left := who } }
  let s := who.foldl (fun s i => s.modThread ⟨r.grp, i⟩ fun t => { t with saved := some (t.pc, t.here, t.fall) }) s
  let s := who.foldl (fun s i => s.enter ⟨r.grp, i⟩ entry bytes) s
  let s := { s with issue := { s.issue with threads := s.issue.threads.filter fun i => i.grp != r.grp } }
  s.addMiss x.core asid va (.group r.grp)

/-- Whether a frame waits for the fill of a page. -/
def FrameUse.awaits (fr : FrameUse) (asid page : Nat) : Bool := !fr.ready && fr.asid == asid && fr.va / 2 ^ 16 == page

/-- A replayable translation fault of a thread: redirect, or park the group (R151, R251).  A continuation that names no
entry header, a pool header among them, is a bad target (R150); one whose header lies on a page that is missing itself parks
the group for the page that faulted (log entry 97). -/
def State.replay (s : State) (r : TRef) (asid va cause : Nat) : State :=
  match s.group? r.grp with
  | none => s
  | some x =>
    match x.contv, x.frame with
    | some (entry, frame), none =>
      match s.checkHeader x entry.toNat entryKind with
      | .ok bytes => s.redirect r x entry frame bytes asid va cause
      | .error (.trap t) => s.trap r.grp [r.tid] { t with
          cause := if t.cause = .poolExecution then .badTarget else t.cause
          fpc := (x.threads[r.tid]?).map Thread.faultPc }
      | .error .check => s.kill r.grp
      | .error .later => s
      | .error (.miss ..) => s.parkForFill r asid va
    | _, _ => s.parkForFill r asid va

/-- What stops a thread stops its group: a trap, a miss, or the machine check of poisoned data.  A thread that finds a
prepared cell waits at its PC (R258). -/
def State.stopAt (s : State) (r : TRef) (e : Stop) : State :=
  match e with
  | .trap t => s.trap r.grp [r.tid] t
  | .miss asid va cause => s.replay r asid va cause
  | .check => s.kill r.grp
  | .later => s

/-- The meaning of one thread's instruction: what its body answers, with the advance and the step marker. -/
def State.finish (s : State) (r : TRef) (f : Fields) (a : Act) : State :=
  match a with
  | .next s' => ((s'.advance r s.issue.len).mark r f).issued r
  | .jump s' => (s'.mark r f).issued r
  | .stop e => s.stopAt r e
  | .wait s' => s'
  | .trapAfter t =>
    let s' := ((s.advance r s.issue.len).issued r).trap r.grp [r.tid] t
    match s'.thread? r with
    | some t => if t.live then s'.mark r f else s'
    | none => s'

/-- The `tmset` threshold that a ready thread has reached (R390). -/
def State.timerDue (s : State) (t : Thread) : Bool := t.tmr != 0 && decide (t.tmr ≤ t.vtimeAt s.clk)

/-- The trap of a group's timers: each live thread that has reached its threshold, which then reads 0 (R389, R390). -/
def State.timerTrap (s : State) (g : Nat) : State :=
  match s.group? g with
  | none => s
  | some x =>
    let due := (List.range x.threads.length).filter fun i => match x.threads[i]? with
      | some t => t.live && s.timerDue t
      | none => false
    (due.foldl (fun s i => s.modThread ⟨g, i⟩ fun t => { t with tmr := 0 }) s).trap g due { cause := .timer }

/-- The opcodes of class D (R98). -/
def deferredClass (op : Nat) : Bool :=
  [0x2E, 0x2F, 0x3D, 0x3E, 0x3F, 0x40, 0x41, 0x42, 0x43, 0x44, 0x50, 0x51, 0x52, 0x53, 0x54, 0x55, 0x56, 0x57, 0x58,
    0x59, 0x60, 0x62, 0x63, 0x64, 0x66, 0x68, 0x72, 0x73, 0x85, 0x87, 0x8B, 0xA6, 0xA8, 0xB0, 0xB1, 0xB5, 0xC5, 0xC7,
    0xD1, 0xD2, 0xD6, 0xD7, 0xE8].contains op

/-- Whether the outstanding count lets the thread issue the instruction (R116). -/
def Thread.countOk (t : Thread) (i : Instr) : Bool := !deferredClass i.op.toNat || decide (t.outstanding < 63)

/-- Whether the engines have a place for the request: 256 copy requests, 16 stream operations (R273, R307). -/
def State.engineRoom (s : State) (g : Nat) (i : Instr) : Bool :=
  let op := i.op.toNat
  if [0x80, 0x81, 0x82, 0x83, 0x89, 0x8A].contains op then decide (s.copyCount g < 256)
  else if 0xC1 ≤ op && op ≤ 0xC5 then decide (s.sopCount g < 16)
  else true

/-- One thread issues the instruction (R95, R96): if it may, the decode faults come first, then the guard, then what
the instruction does. -/
def issueThread (i : Instr) (f : Fields) (body : TRef → Group → Thread → State → Act) (s : State) (r : TRef) : State :=
  match s.group? r.grp, s.thread? r with
  | some g, some t =>
    if g.runs && t.st == .ready && s.issue.threads.contains r && t.countOk i && s.engineRoom r.grp i then
      if s.timerDue t then s.timerTrap r.grp
      else match decodeFault s g r.tid i f with
        | some e => s.stopAt r e
        | none =>
          if t.guard f.pg then s.finish r f (body r g t s)
          else s.finish r f (.next s)
    else s
  | _, _ => s

/-- The instruction of an issue group: its threads in ascending lane (R114). -/
def issueEach (i : Instr) (f : Fields) (body : TRef → Group → Thread → State → Act) (s : State) :
    Host.Outcome State Fault Refusal :=
  .next (s.issue.threads.foldl (issueThread i f body) s)

/-! ## Cohort-synchronous instructions (R113, R114) -/

/-- The cohorts of an issue group, in the order of their first threads. -/
def cohortsOf (l : List TRef) : List (Nat × Nat) := (l.map fun r => (r.grp, r.tid / 64)).eraseDups

/-- One whole cohort issues: decode faults, then the body over its active lanes, then every thread goes on.  A body
answers with one act for the cohort; `next` and `wait` alone keep the threads together. -/
def issueCohort (i : Instr) (f : Fields) (body : Group → List (TRef × Thread) → State → Act) (s : State)
    (gc : Nat × Nat) : State :=
  match s.group? gc.1 with
  | none => s
  | some g =>
    let rs := s.issue.threads.filter fun r => r.grp == gc.1 && r.tid / 64 == gc.2
    let ts := rs.filterMap fun r => (s.thread? r).map fun t => (r, t)
    match rs with
    | [] => s
    | r0 :: _ =>
      if !g.runs || !ts.all (fun p => p.2.st == .ready && p.2.countOk i) || !s.engineRoom gc.1 i then s
      else if ts.any fun p => s.timerDue p.2 then
        match ts.find? fun p => s.timerDue p.2 with
        | some p => s.timerTrap p.1.grp
        | none => s
      else match decodeFault s g r0.tid i f with
        | some e => s.stopAt r0 e
        | none =>
          let active := ts.filter fun p => p.2.guard f.pg
          let go (s' : State) : State :=
            rs.foldl (fun s r => ((s.advance r s.issue.len).mark r f).issued r) s'
          if active.isEmpty then go s
          else match body g active s with
            | .next s' => go s'
            | .jump s' => s'
            | .wait s' => s'
            | .stop e => s.stopAt (active.headD (r0, {})).1 e
            | .trapAfter t => s.trap gc.1 [r0.tid] t

def issueCohorts (i : Instr) (f : Fields) (body : Group → List (TRef × Thread) → State → Act) (s : State) :
    Host.Outcome State Fault Refusal :=
  .next ((cohortsOf s.issue.threads).foldl (issueCohort i f body) s)

/-! ## Forms that many instructions share -/

/-- A class I instruction that changes only its thread. -/
def issueReg (i : Instr) (f : Fields) (upd : Thread → Thread) (s : State) : Host.Outcome State Fault Refusal :=
  issueEach i f (fun r _ _ s => .next (s.modThread r upd)) s

/-- A class I instruction with one result register. -/
def issueD (i : Instr) (f : Fields) (val : Thread → Word) (s : State) : Host.Outcome State Fault Refusal :=
  issueReg i f (fun t => t.writeD f.d (val t)) s

/-- A class I instruction with one result predicate. -/
def issueP (i : Instr) (f : Fields) (val : Thread → Bool) (s : State) : Host.Outcome State Fault Refusal :=
  issueReg i f (fun t => t.writeP f.d (val t)) s

/-- A class D instruction: it defers what `src` gives. -/
def issueDefer (i : Instr) (f : Fields) (src : TRef → Group → Thread → State → Except Stop (Dst × Src)) (s : State) :
    Host.Outcome State Fault Refusal :=
  issueEach i f (fun r g t s => Act.of ((src r g t s).map fun p => s.defer r p.1 p.2)) s

/-! ## Instances (R305, R329) -/

/-- The instance of a cohort at a code offset, in the ending step of a domain. -/
def State.findInst (s : State) (r : TRef) (g : Group) (pc : Word) : Option Inst :=
  match s.group? r.grp with
  | some x => (x.dom (g.domOf r.tid)).insts.find? fun i => i.coh = r.tid / 64 && i.pc = pc
  | none => none

/-- A thread joins the instance of its cohort at its code offset, or opens it; the operands are those of the
lowest-ranked thread (R305).  `takers` are deferred results that it brings. -/
def State.joinInstWith (s : State) (r : TRef) (g : Group) (t : Thread) (act : InstAct) (takers : List (TRef × Nat)) : State :=
  let d := g.domOf r.tid
  let me := s.rank g r.tid
  match s.findInst r g t.pc with
  | some _ =>
    (s.modDom r.grp d fun k => { k with insts := k.insts.map fun i =>
      if i.coh = r.tid / 64 ∧ i.pc = t.pc then
        let i := { i with takers := i.takers ++ takers }
        if me < i.rank then { i with rank := me, act := act, order := s.fresh } else i
      else i }).bump
  | none =>
    (s.modDom r.grp d fun k => { k with insts := k.insts ++
      [{ coh := r.tid / 64, pc := t.pc, rank := me, seq := s.fresh, order := s.fresh, act := act, takers := takers }] }).bump

/-- A thread joins an instance with the deferred result that it takes, if it takes one. -/
def State.joinInst (s : State) (r : TRef) (g : Group) (t : Thread) (act : InstAct) (taker : Option Nat) : State :=
  s.joinInstWith r g t act (taker.toList.map fun q => (r, q))

/-- A thread finds that its instance has acted: the instance takes its place in the order of ranks from its lowest-ranked
thread (R329). -/
def State.lowerInst (s : State) (r : TRef) (g : Group) (t : Thread) : State :=
  let me := s.rank g r.tid
  (s.modDom r.grp (g.domOf r.tid) fun k => { k with insts := k.insts.map fun i =>
    if i.coh = r.tid / 64 ∧ i.pc = t.pc ∧ me < i.rank then { i with rank := me, order := s.fresh } else i }).bump

/-- What the thread that acts for an instance does at issue. -/
inductive Once where
  /-- The state after it, and what the instance does at the commit. -/
  | act (s : State) (a : InstAct)
  | stop (e : Stop)
  | wait (s : State)

/-- An instruction that acts once for its instance, at the issue of its first thread (R329); later threads only give the
instance its place.  The instance's number is `s.fresh` of the state that `body` gives. -/
def issueOnce (i : Instr) (f : Fields) (body : TRef → Group → Thread → State → Once) (s : State) :
    Host.Outcome State Fault Refusal :=
  issueEach i f (fun r g t s =>
    if (s.findInst r g t.pc).isSome then .next (s.lowerInst r g t)
    else match body r g t s with
      | .act s a => .next (s.joinInst r g t a none)
      | .stop e => .stop e
      | .wait s => .wait s) s

end Sys2Proof.Machine
end

