-- ==== Sys2Proof/Machine/Arith.lean ====
section
/-!
DEFINITION. Integer arithmetic, logic, shifts, bit fields, predicates, selection and moves, and integer division
(R161-R180).
-/
namespace Sys2Proof.Machine

/-! ## Integer results -/

def wrap (v : Int) : Word := BitVec.ofInt 32 v

/-- `clampT` of R162. -/
def clampT (t : Ty) (v : Int) : Int :=
  if t = .i32 then max (-2 ^ 31) (min v (2 ^ 31 - 1)) else max 0 (min v (2 ^ 32 - 1))

/-- A result that wraps with FN 0 and saturates with FN 1. -/
def satFn (f : Fields) (v : Int) : Word := wrap (if f.fn = 1 then clampT f.t v else v)

/-- R166. -/
def execAdd (f : Fields) (s : State) : Host.Outcome State Fault Refusal :=
  issueD (.add f) f (fun t => satFn f (t.intA f + t.intB f)) s

/-- R166. -/
def execSub (f : Fields) (s : State) : Host.Outcome State Fault Refusal :=
  issueD (.sub f) f (fun t => satFn f (t.intA f - t.intB f)) s

/-- R166. -/
def execAdd3 (f : Fields) (s : State) : Host.Outcome State Fault Refusal :=
  issueD (.add3 f) f (fun t => satFn f (t.intA f + t.intB f + t.intC f)) s

/-- The part of an exact integer that FN names (R167). -/
def Thread.writeWide (t : Thread) (f : Fields) (p : Int) : Thread :=
  let w : DWord := BitVec.ofInt 64 p
  if f.fn = 2 then t.writePair f.d w
  else if f.fn = 1 then t.writeD f.d (w.extractLsb' 32 32)
  else t.writeD f.d (w.extractLsb' 0 32)

/-- R167. -/
def execMul (f : Fields) (s : State) : Host.Outcome State Fault Refusal :=
  issueReg (.mul f) f (fun t => t.writeWide f (t.intA f * t.intB f)) s

/-- R167. -/
def execMad (f : Fields) (s : State) : Host.Outcome State Fault Refusal :=
  issueReg (.mad f) f (fun t => t.writeWide f (t.intA f * t.intB f + t.intC f)) s

/-- R168. -/
def execMin (f : Fields) (s : State) : Host.Outcome State Fault Refusal :=
  issueD (.min f) f (fun t => wrap (min (t.intA f) (t.intB f))) s

/-- R168. -/
def execMax (f : Fields) (s : State) : Host.Outcome State Fault Refusal :=
  issueD (.max f) f (fun t => wrap (max (t.intA f) (t.intB f))) s

/-- R168. -/
def execAbs (f : Fields) (s : State) : Host.Outcome State Fault Refusal :=
  issueD (.abs f) f (fun t => satFn f ((t.intA f).natAbs : Int)) s

/-- R168. -/
def execNeg (f : Fields) (s : State) : Host.Outcome State Fault Refusal :=
  issueD (.neg f) f (fun t => satFn f (-t.intA f)) s

/-- The cell of R169: the exact sum loses to c, and i32 saturates below. -/
def addminVal (t : Ty) (a b c : Int) : Word :=
  let v := min (a + b) c
  wrap (if t = .i32 ∧ v < -2 ^ 31 then -2 ^ 31 else v)

/-- R169. -/
def execAddmin (f : Fields) (s : State) : Host.Outcome State Fault Refusal :=
  issueD (.addmin f) f (fun t => addminVal f.t (t.intA f) (t.intB f) (t.intC f)) s

/-! ## Bits and logic -/

/-- R170. -/
def execAnd (f : Fields) (s : State) : Host.Outcome State Fault Refusal :=
  issueD (.and f) f (fun t => t.opA f &&& t.opB f) s

/-- R170. -/
def execOr (f : Fields) (s : State) : Host.Outcome State Fault Refusal :=
  issueD (.or f) f (fun t => t.opA f ||| t.opB f) s

/-- R170. -/
def execXor (f : Fields) (s : State) : Host.Outcome State Fault Refusal :=
  issueD (.xor f) f (fun t => t.opA f ^^^ t.opB f) s

/-- R170. -/
def execNot (f : Fields) (s : State) : Host.Outcome State Fault Refusal :=
  issueD (.not f) f (fun t => ~~~t.opA f) s

/-- A word given bit by bit. -/
def ofBits (b : Nat → Bool) : Word :=
  BitVec.ofNat 32 ((List.range 32).foldl (fun n i => if b i then n + 2 ^ i else n) 0)

/-- The Boolean table of R171; a is the least significant input. -/
def bitfnVal (table a b c : Word) : Word :=
  ofBits fun i => table.getLsbD ((a.getLsbD i).toNat + 2 * (b.getLsbD i).toNat + 4 * (c.getLsbD i).toNat)

/-- R171. -/
def execBitfn (f : Fields) (s : State) : Host.Outcome State Fault Refusal :=
  issueD (.bitfn f) f (fun t => bitfnVal (f.imm &&& 0xFF) (t.opA f) (t.opB f) (t.opC f)) s

/-- R172. -/
def execShl (f : Fields) (s : State) : Host.Outcome State Fault Refusal :=
  issueD (.shl f) f (fun t => if 32 ≤ (t.opB f).toNat then 0 else t.opA f <<< (t.opB f).toNat) s

/-- R172. -/
def execShr (f : Fields) (s : State) : Host.Outcome State Fault Refusal :=
  issueD (.shr f) f (fun t => if 32 ≤ (t.opB f).toNat then 0 else t.opA f >>> (t.opB f).toNat) s

/-- R172. -/
def execSra (f : Fields) (s : State) : Host.Outcome State Fault Refusal :=
  issueD (.sra f) f (fun t => (t.opA f).sshiftRight (min (t.opB f).toNat 31)) s

/-- R172. -/
def execRot (f : Fields) (s : State) : Host.Outcome State Fault Refusal :=
  issueD (.rot f) f (fun t =>
    let n := (t.opB f).toNat % 32
    if f.fn = 0 then (t.opA f).rotateLeft n else (t.opA f).rotateRight n) s

/-- The funnel shift of R172 over b : a. -/
def fshVal (right : Bool) (a b n : Word) : Word :=
  let w : DWord := b ++ a
  let k := n.toNat % 32
  if right then (w >>> k).extractLsb' 0 32 else (w <<< k).extractLsb' 32 32

/-- R172. -/
def execFsh (f : Fields) (s : State) : Host.Outcome State Fault Refusal :=
  issueD (.fsh f) f (fun t => fshVal (f.fn == 1) (t.opA f) (t.opB f) (t.opC f)) s

/-- The position and the width of a field control word (R173). -/
def fieldOf (ctl : Word) : Nat × Nat :=
  let pos := ctl.toNat % 256
  let w := ctl.toNat / 256 % 256
  (pos, if 32 ≤ pos then 0 else min w (32 - pos))

/-- The low `w` bits of a word extended under T; 0 for no bits (R173, R195). -/
def extendLow (t : Ty) (a : Word) (w : Nat) : Word :=
  let v := a.toNat % 2 ^ w
  if t = .i32 ∧ 0 < w ∧ a.getLsbD (w - 1) then BitVec.ofNat 32 (v + (2 ^ 32 - 2 ^ w)) else BitVec.ofNat 32 v

/-- R173. -/
def execBfx (f : Fields) (s : State) : Host.Outcome State Fault Refusal :=
  issueD (.bfx f) f (fun t =>
    let (pos, w) := fieldOf (t.opB f)
    extendLow f.t (t.opA f >>> pos) w) s

/-- The bit-field insertion of R173. -/
def bfiVal (a b ctl : Word) : Word :=
  let (pos, w) := fieldOf ctl
  let m : Word := BitVec.ofNat 32 ((2 ^ w - 1) * 2 ^ pos)
  (b &&& ~~~m) ||| (a <<< pos &&& m)

/-- R173. -/
def execBfi (f : Fields) (s : State) : Host.Outcome State Fault Refusal :=
  issueD (.bfi f) f (fun t => bfiVal (t.opA f) (t.opB f) (t.opC f)) s

def popCount (w : Word) : Nat := ((List.range 32).filter w.getLsbD).length

/-- The number of leading zero bits, 32 for zero. -/
def leadingZeros (w : Word) : Nat := if w = 0 then 32 else 31 - Nat.log2 w.toNat

/-- R174. -/
def execClz (f : Fields) (s : State) : Host.Outcome State Fault Refusal :=
  issueD (.clz f) f (fun t => BitVec.ofNat 32 (leadingZeros (t.opA f))) s

/-- R174. -/
def execPopc (f : Fields) (s : State) : Host.Outcome State Fault Refusal :=
  issueD (.popc f) f (fun t => BitVec.ofNat 32 (popCount (t.opA f))) s

/-- R174. -/
def execBrev (f : Fields) (s : State) : Host.Outcome State Fault Refusal :=
  issueD (.brev f) f (fun t => (t.opA f).reverse) s

/-! ## Predicates, selection and moves -/

/-- R175. -/
def execSetp (f : Fields) (s : State) : Host.Outcome State Fault Refusal :=
  issueP (.setp f) f (fun t => cmpInt f.fn.toNat (t.intA f) (t.intB f)) s

/-- R176. -/
def execSel (f : Fields) (s : State) : Host.Outcome State Fault Refusal :=
  issueD (.sel f) f (fun t => if t.predOf f.c then t.opA f else t.opB f) s

/-- The forms of `mov` (R177). -/
def Thread.mov (t : Thread) (f : Fields) : Thread :=
  let a : Word := if 192 ≤ f.a.toNat ∧ f.a.toNat ≤ 199 then (if t.predOf f.a then 1 else 0) else t.opA f
  if 192 ≤ f.d.toNat ∧ f.d.toNat ≤ 198 then t.writeP f.d (a != 0) else t.writeD f.d a

/-- R177. -/
def execMov (f : Fields) (s : State) : Host.Outcome State Fault Refusal :=
  issueReg (.mov f) f (fun t => t.mov f) s

/-- R178. -/
def execLea (f : Fields) (s : State) : Host.Outcome State Fault Refusal :=
  issueD (.lea f) f (fun t => t.opA f + t.opB f * BitVec.ofNat 32 (2 ^ f.x.toNat) + t.opC f) s

/-- The operations of R179. -/
def psetVal (fn : Nat) (a b : Bool) : Bool :=
  match fn with
  | 0 => a && b
  | 1 => a || b
  | 2 => xor a b
  | 3 => a && !b
  | _ => a || !b

/-- R179. -/
def execPset (f : Fields) (s : State) : Host.Outcome State Fault Refusal :=
  issueP (.pset f) f (fun t => psetVal f.fn.toNat (t.predOf f.a) (t.predOf f.b)) s

/-! ## Division -/

/-- A class D instruction whose result words are formed from operands sampled at issue (R164). -/
def issueSampled (i : Instr) (f : Fields) (n : Nat) (val : Thread → List Word) (s : State) :
    Host.Outcome State Fault Refusal :=
  issueDefer i f (fun _ _ t _ => .ok (dstOf f.d n, .sampled (val t))) s

/-- Quotient and remainder toward zero; a zero divisor gives −1 and the dividend (R180). -/
def divide (x y : Int) : Int × Int := if y = 0 then (-1, x) else (x.tdiv y, x.tmod y)

/-- R180. -/
def execIdiv (f : Fields) (s : State) : Host.Outcome State Fault Refusal :=
  issueSampled (.idiv f) f 1 (fun t => [wrap (divide (t.intA f) (t.intB f)).1]) s

/-- R180. -/
def execIrem (f : Fields) (s : State) : Host.Outcome State Fault Refusal :=
  issueSampled (.irem f) f 1 (fun t => [wrap (divide (t.intA f) (t.intB f)).2]) s

end Sys2Proof.Machine
end

