-- ==== Sys2Proof/Machine/Float.lean ====
section
/-!
DEFINITION. Number formats, exact values and rounding (R48-R64, R66).  A finite value is a sign, a natural number and
a power of two; every operation is formed exactly and rounded once.
-/
namespace Sys2Proof.Machine

/-- A value: a NaN with its FP32 form, quieted; an infinity; or (−1)^neg × m × 2^e. -/
inductive Num where
  | nan (w : Word)
  | inf (neg : Bool)
  | fin (neg : Bool) (m : Nat) (e : Int)
  deriving DecidableEq, Repr

/-- The NaN of an operation without NaN inputs (R52). -/
def defaultNan : Word := 0x7FC00000

def quiet (w : Word) : Word := w ||| 0x00400000

/-! ## Rounding -/

/-- `n / 2^sh` rounded to an integer under a mode of R49; `sticky` says that more lies below, less than one unit of
`n`. -/
def roundShift (mode : Nat) (neg : Bool) (n sh : Nat) (sticky : Bool) : Nat :=
  let q := n / 2 ^ sh
  let r := n % 2 ^ sh
  let exact := r == 0 && !sticky
  let up : Bool := match mode with
    | 0 => decide (2 * r > 2 ^ sh) || (2 * r == 2 ^ sh && (sticky || q % 2 == 1))
    | 1 => false
    | 2 => neg && !exact
    | 3 => !neg && !exact
    | _ => decide (2 * r ≥ 2 ^ sh)
  if up then q + 1 else q

/-- A binary format: precision with the hidden bit, exponent of the least subnormal, width of the exponent field. -/
structure Fmt where
  prec : Nat
  qmin : Int
  ebits : Nat
  deriving DecidableEq, Repr

def fmtF32 : Fmt := ⟨24, -149, 8⟩
def fmtBf16 : Fmt := ⟨8, -133, 8⟩
def fmtF16 : Fmt := ⟨11, -24, 5⟩

/-- A magnitude rounded to the format's precision: significand and exponent of its unit. -/
def Fmt.quantise (F : Fmt) (mode : Nat) (neg : Bool) (m : Nat) (e : Int) (sticky : Bool) : Nat × Int :=
  let q := max ((Nat.log2 m : Int) + e + 1 - F.prec) F.qmin
  let sig := if e ≤ q then roundShift mode neg m (q - e).toNat sticky else m * 2 ^ (e - q).toNat
  if sig = 2 ^ F.prec then (2 ^ (F.prec - 1), q + 1) else (sig, q)

/-- Sign bit, exponent and fraction fields put together. -/
def Fmt.join (F : Fmt) (neg : Bool) (ex frac : Nat) : Nat :=
  neg.toNat * 2 ^ (F.ebits + F.prec - 1) + ex * 2 ^ (F.prec - 1) + frac

/-- Overflow under a mode (R51). -/
def Fmt.overflow (F : Fmt) (mode : Nat) (neg : Bool) : Nat :=
  let toInf := match mode with
    | 1 => false
    | 2 => neg
    | 3 => !neg
    | _ => true
  if toInf then F.join neg (2 ^ F.ebits - 1) 0 else F.join neg (2 ^ F.ebits - 2) (2 ^ (F.prec - 1) - 1)

/-- A finite magnitude rounded into an IEEE format (R50, R51). -/
def Fmt.roundFin (F : Fmt) (mode : Nat) (neg : Bool) (m : Nat) (e : Int) (sticky : Bool := false) : Nat :=
  if m = 0 then F.join neg 0 0
  else
    let (sig, q) := F.quantise mode neg m e sticky
    if sig < 2 ^ (F.prec - 1) then F.join neg 0 sig
    else
      let ex := (q - F.qmin).toNat + 1
      if 2 ^ F.ebits - 1 ≤ ex then F.overflow mode neg else F.join neg ex (sig - 2 ^ (F.prec - 1))

/-- A NaN, from its FP32 form (R52). -/
def Fmt.nan (F : Fmt) (w : Word) : Nat :=
  if F.prec = 24 then w.toNat
  else if F.prec = 8 then (w.extractLsb' 16 16 ||| (0x40 : BitVec 16)).toNat
  else w.msb.toNat * 2 ^ 15 + 0x1F * 2 ^ 10 + (0x200 ||| (w.toNat / 2 ^ 13 % 2 ^ 9))

/-- A value rounded into an IEEE format. -/
def Fmt.round (F : Fmt) (mode : Nat) (x : Num) : Nat :=
  match x with
  | .nan w => F.nan w
  | .inf neg => F.join neg (2 ^ F.ebits - 1) 0
  | .fin neg m e => F.roundFin mode neg m e

/-- The value of the bits of an IEEE format; `nanOf` gives the FP32 form of a NaN. -/
def Fmt.value (F : Fmt) (n : Nat) (nanOf : Nat → Word) : Num :=
  let neg := n / 2 ^ (F.ebits + F.prec - 1) % 2 == 1
  let ex := n / 2 ^ (F.prec - 1) % 2 ^ F.ebits
  let frac := n % 2 ^ (F.prec - 1)
  if ex = 2 ^ F.ebits - 1 then if frac = 0 then .inf neg else .nan (nanOf n)
  else if ex = 0 then .fin neg frac F.qmin
  else .fin neg (frac + 2 ^ (F.prec - 1)) (F.qmin + ex - 1)

def numF32 (w : Word) : Num := fmtF32.value w.toNat fun _ => quiet w

/-- A BF16 value, the upper half of an FP32 one (R54). -/
def numBf16 (h : Half) : Num := numF32 (h ++ (0 : BitVec 16))

/-- FP16: a NaN widens with its fraction at the top of F (R52, R55). -/
def numF16 (h : Half) : Num :=
  fmtF16.value h.toNat fun n =>
    quiet (BitVec.ofNat 32 (n / 2 ^ 15 % 2 * 2 ^ 31 + 0xFF * 2 ^ 23 + n % 2 ^ 10 * 2 ^ 13))

def toF32 (mode : Nat) (x : Num) : Word := BitVec.ofNat 32 (fmtF32.round mode x)
def toBf16 (mode : Nat) (x : Num) : Half := BitVec.ofNat 16 (fmtBf16.round mode x)

/-- FP16 rounds to nearest-even (R55). -/
def toF16 (x : Num) : Half := BitVec.ofNat 16 (fmtF16.round 0 x)

/-! ## Exact operations -/

def Num.isZero : Num → Bool
  | .fin _ 0 _ => true
  | _ => false

def Num.neg : Num → Num
  | .nan w => .nan w
  | .inf n => .inf (!n)
  | .fin n m e => .fin (!n) m e

def signed (neg : Bool) (m : Nat) : Int := if neg then -(m : Int) else m

/-- The exact sum of two finite values; the sign of a zero sum follows R53. -/
def addFin (mode : Nat) (n1 : Bool) (m1 : Nat) (e1 : Int) (n2 : Bool) (m2 : Nat) (e2 : Int) : Num :=
  let e := min e1 e2
  let v := signed n1 (m1 * 2 ^ (e1 - e).toNat) + signed n2 (m2 * 2 ^ (e2 - e).toNat)
  if v = 0 then .fin (if n1 = n2 then n1 else mode == 2) 0 e
  else .fin (decide (v < 0)) v.natAbs e

/-- a + b, exact, with NaN and infinity by R51-R53. -/
def Num.add (mode : Nat) (a b : Num) : Num :=
  match a, b with
  | .nan w, _ => .nan w
  | _, .nan w => .nan w
  | .inf x, .inf y => if x = y then .inf x else .nan defaultNan
  | .inf x, _ => .inf x
  | _, .inf y => .inf y
  | .fin n1 m1 e1, .fin n2 m2 e2 => addFin mode n1 m1 e1 n2 m2 e2

def Num.mul (a b : Num) : Num :=
  match a, b with
  | .nan w, _ => .nan w
  | _, .nan w => .nan w
  | .inf x, .inf y => .inf (x != y)
  | .inf x, .fin y m _ => if m = 0 then .nan defaultNan else .inf (x != y)
  | .fin x m _, .inf y => if m = 0 then .nan defaultNan else .inf (x != y)
  | .fin x m1 e1, .fin y m2 e2 => .fin (x != y) (m1 * m2) (e1 + e2)

/-- a × b + c, exact; a NaN is the first of a, b, c (R52). -/
def Num.fma (mode : Nat) (a b c : Num) : Num :=
  match a, b, c with
  | .nan w, _, _ => .nan w
  | _, .nan w, _ => .nan w
  | _, _, .nan w => .nan w
  | a, b, c => (a.mul b).add mode c

/-- The value times 2^n. -/
def Num.scale (x : Num) (n : Int) : Num :=
  match x with
  | .fin s m e => .fin s m (e + n)
  | x => x

/-- The order of two values that are not NaN, −0 below +0: the sign of a − b, and the signs where both are zero. -/
def Num.lt (a b : Num) : Bool :=
  match a, b with
  | .inf x, .inf y => x && !y
  | .inf x, _ => x
  | _, .inf y => !y
  | .fin n1 m1 e1, .fin n2 m2 e2 =>
    if m1 = 0 ∧ m2 = 0 then n1 && !n2
    else
      let e := min e1 e2
      decide (signed n1 (m1 * 2 ^ (e1 - e).toNat) < signed n2 (m2 * 2 ^ (e2 - e).toNat))
  | _, _ => false

/-- `fmin` and `fmax` of R53. -/
def Num.min (a b : Num) : Num :=
  match a, b with
  | .nan w, .nan _ => .nan w
  | .nan _, b => b
  | a, .nan _ => a
  | a, b => if b.lt a then b else a

def Num.max (a b : Num) : Num :=
  match a, b with
  | .nan w, .nan _ => .nan w
  | .nan _, b => b
  | a, .nan _ => a
  | a, b => if a.lt b then b else a

/-! ## FP8, FP4 and L6 -/

/-- The element formats by their codes in a conversion word (R285): precision, least exponent and largest code. -/
def smallFmt (c : Nat) : Fmt × Nat :=
  match c with
  | 2 => (⟨4, -9, 4⟩, 0x7E)
  | 3 => (⟨3, -16, 5⟩, 0x7B)
  | _ => (⟨2, -1, 2⟩, 7)

/-- A finite value or infinity in E4M3, E5M2 or E2M1: nearest-even, saturating; whether it was clamped (R58). -/
def encodeSmall (c : Nat) (x : Num) : Nat × Bool :=
  let (F, top) := smallFmt c
  let sgn (neg : Bool) := neg.toNat * 2 ^ (F.ebits + F.prec - 1)
  match x with
  | .nan w =>
    match c with
    | 2 => (w.msb.toNat * 128 + 0x7F, false)
    | 3 => (w.msb.toNat * 128 + 0x7E, false)
    | _ => (0, false)
  | .inf neg => (sgn neg + top, true)
  | .fin neg m e =>
    if m = 0 then (sgn neg, false)
    else
      let (sig, q) := F.quantise 0 neg m e false
      let code := if sig < 2 ^ (F.prec - 1) then sig
        else ((q - F.qmin).toNat + 1) * 2 ^ (F.prec - 1) + (sig - 2 ^ (F.prec - 1))
      let big := 2 ^ F.prec - 1 - (if c = 2 then 1 else 0)
      let qTop := F.qmin + (top / 2 ^ (F.prec - 1) : Nat) - 1
      let e0 := min e qTop
      (sgn neg + Nat.min code top, decide (big * 2 ^ (qTop - e0).toNat < m * 2 ^ (e - e0).toNat))

/-- The value of an E4M3, E5M2 or E2M1 code (R57, R58). -/
def valueSmall (c n : Nat) : Num :=
  let (F, top) := smallFmt c
  let w := F.ebits + F.prec - 1
  let neg := n / 2 ^ w % 2 == 1
  let mag := n % 2 ^ w
  if c = 3 ∧ mag = 0x7C then .inf neg
  else if top < mag then .nan (BitVec.ofNat 32 (neg.toNat * 2 ^ 31 + 0x7FC00000))
  else
    let ex := mag / 2 ^ (F.prec - 1)
    let frac := mag % 2 ^ (F.prec - 1)
    if ex = 0 then .fin neg frac F.qmin else .fin neg (frac + 2 ^ (F.prec - 1)) (F.qmin + ex - 1)

/-- The significand table of R60. -/
def l6Table (i : Nat) : Nat :=
  match i with
  | 0 => 4096
  | 1 => 4871
  | 2 => 5793
  | _ => 6888

/-- (−1)^neg × T[L mod 4] × 2^(floor(L / 4) − 12) (R60, R61). -/
def l6Value (neg : Bool) (l : Int) : Num := .fin neg (l6Table (l.emod 4).toNat) (l.ediv 4 - 12)

/-- The count L of an L6 code. -/
def l6Log (n : Nat) : Int := (BitVec.ofNat 5 n).toInt

def valueL6 (n : Nat) : Num :=
  if n % 32 = 16 then if n / 32 % 2 = 0 then .fin false 0 0 else .nan defaultNan
  else l6Value (n / 32 % 2 == 1) (l6Log n)

/-- Twice a magnitude on a common scale of 2^-160 (all L6 values and FP32 values lie on it or are infinite). -/
def dist (m : Nat) (e : Int) (l : Int) : Nat :=
  let e0 := min e (-16)
  let a := m * 2 ^ (e - e0).toNat
  let b := match l6Value false l with
    | .fin _ m' e' => m' * 2 ^ (e' - e0).toNat
    | _ => 0
  if a < b then b - a else a - b

/-- The nearest count among a list, a tie going to the even one (R62). -/
def nearestL (m : Nat) (e : Int) : List Int → Int → Int
  | [], best => best
  | l :: ls, best =>
    let d := dist m e l
    let d0 := dist m e best
    nearestL m e ls (if d < d0 ∨ (d = d0 ∧ l % 2 = 0) then l else best)

/-- A value in L6, and whether it was clamped (R62). -/
def encodeL6 (x : Num) : Nat × Bool :=
  let code (neg : Bool) (l : Int) : Nat := neg.toNat * 32 + (BitVec.ofInt 5 l).toNat
  match x with
  | .nan _ => (0x30, false)
  | .inf neg => (code neg 15, true)
  | .fin neg m e =>
    if m = 0 then (0x10, false)
    else
      let l := nearestL m e ((List.range 30).map fun i : Nat => (i : Int) - 14) (-15)
      let e0 := min e (-16)
      let a := m * 2 ^ (e - e0).toNat
      let least := 4871 * 2 ^ (-16 - e0).toNat
      if l = -15 ∧ 2 * a ≤ least then (0x10, false)
      else (code neg l, decide (6888 * 2 ^ (-9 - e0).toNat < a))

/-! ## Elements by format code (R285, R338) -/

/-- The bits of an element (R66). -/
def elemBits (c : Nat) : Nat :=
  match c with
  | 0 | 1 => 16
  | 2 | 3 => 8
  | 4 => 4
  | 5 => 6
  | _ => 32

def scaledFmt (c : Nat) : Bool := 2 ≤ c && c ≤ 5

/-- The value of an element code, its block scale left out. -/
def elemValue (c n : Nat) : Num :=
  match c with
  | 0 => numBf16 (BitVec.ofNat 16 n)
  | 1 => numF16 (BitVec.ofNat 16 n)
  | 5 => valueL6 n
  | 6 => numF32 (BitVec.ofNat 32 n)
  | c => valueSmall c n

/-- A value as an element code, nearest-even, and whether it was clamped. -/
def elemEncode (c : Nat) (x : Num) : Nat × Bool :=
  match c with
  | 0 => ((toBf16 0 x).toNat, false)
  | 1 => ((toF16 x).toNat, false)
  | 5 => encodeL6 x
  | 6 => ((toF32 0 x).toNat, false)
  | c => encodeSmall c x

/-- Whether an element code is a zero of its format (R325). -/
def elemZero (c n : Nat) : Bool := (elemValue c n).isZero

/-! ## Types in memory (R214) -/

/-- The element format of a type that is not 32 bits whole. -/
def fmtOfTy : Ty → Nat
  | .bf16l | .bf16h => 0
  | .f16 => 1
  | .e4m3 => 2
  | .e5m2 => 3
  | .e2m1 => 4
  | .l6 => 5
  | _ => 6

/-- The element that FN selects of the bytes read: position and width of its bits (R214, R215). -/
def elemAt (t : Ty) (fn : Nat) : Nat × Nat :=
  match t with
  | .e2m1 => (4 * fn, 4)
  | .l6 => (6 * fn, 6)
  | t => (0, match t with | .b32 | .i32 | .n32 | .f32 | .bf16x2 => 32 | .bf16l | .bf16h | .f16 | .i16 | .n16 => 16 | _ => 8)

/-- A memory element widened into a register word (R214). -/
def widen (t : Ty) (fn raw : Nat) : Word :=
  let (sh, n) := elemAt t fn
  let x := raw / 2 ^ sh % 2 ^ n
  match t with
  | .i8 => (BitVec.ofNat 8 x).signExtend 32
  | .i16 => (BitVec.ofNat 16 x).signExtend 32
  | .f16 | .e4m3 | .e5m2 | .e2m1 | .l6 => toF32 0 (elemValue (fmtOfTy t) x)
  | _ => BitVec.ofNat 32 x

/-- A register word narrowed into the bits of a memory element, before FN places it (R214). -/
def narrow (t : Ty) (w : Word) : Nat :=
  match t with
  | .bf16h => w.toNat / 2 ^ 16
  | .bf16l | .i16 | .n16 => w.toNat % 2 ^ 16
  | .i8 | .n8 => w.toNat % 2 ^ 8
  | .f16 | .e4m3 | .e5m2 | .e2m1 | .l6 => (elemEncode (fmtOfTy t) (numF32 w)).1
  | _ => w.toNat

end Sys2Proof.Machine
end

