-- ==== Sys2Proof/Machine/Rings.lean ====
section
/-!
DEFINITION. Rings, their slots and ports (R278-R282), bytes that land in a group's scratchpad (R272), and the record of
an engine fault (R276, R277).
-/
namespace Sys2Proof.Machine

/-! ## Landings in scratchpad -/

/-- The bytes that a save area holds for deliveries, an image of the scratchpad, at its end (R388, log entry 28). -/
def heldSize : Nat := 2 ^ 22

/-- Bytes that land in a group's scratchpad, or in its save area while it is switched out (R272), for an operation that began
at the count `since` (R13). -/
def State.landScratch (s : State) (g : Nat) (off : Nat) (bs : List Byte) (since : Nat := s.fresh) : State :=
  match s.group? g with
  | none => s
  | some x =>
    if x.resident then s.landBytes since (scratchKeys (quadOf x.core) off bs.length) bs
    else
      let s := match x.area with
        | some (a, size) => s.writePhys (a + size - heldSize + off) bs
        | none => s
      s.modGroup g fun x =>
      { x with heldBytes := ((List.range bs.length).zip bs).foldl (fun t p => t.put (off + p.1) p.2) x.heldBytes }

/-! ## Engine faults -/

/-- The record of a copy or fabric fault (R277): 0xFF where no counter counts it (log entry 123). -/
def copyRecord (pc rank : Word) (done addr : Nat) (lc : Option Nat) (op cause : Nat) : BitVec 256 :=
  BitVec.ofNat 256 (pack [(0, 8, cause), (8, 8, op), (32, 8, lc.getD 0xFF), (64, 57, addr), (128, 32, done),
    (160, 32, rank.toNat), (192, 32, pc.toNat)])

/-- The first engine fault of a group is kept for the trap at the next boundary (R276). -/
def State.engineFault (s : State) (g : Nat) (rec : BitVec 256) : State :=
  s.modGroup g fun x => { x with engFault := match x.engFault with | some r => some r | none => some rec }

/-- The trap of an engine fault (R389).  A record of the matrix engine, whose kind is below 16, has no address. -/
def engineTrap (rec : BitVec 256) : Trap where
  cause := .engine
  sub := rec.toNat % 256
  faddr := if rec.toNat / 256 % 256 < 16 then 0 else rec.toNat / 2 ^ 64 % 2 ^ 64
  fpc := some (BitVec.ofNat 32 (rec.toNat / 2 ^ 192))
  rank := some 0xFFFFFFFF
  record := rec.setWidth 1024

/-! ## Rings -/

def Group.ring (x : Group) (r : Nat) : Ring := x.rings[r]?.getD {}
def State.modRing (s : State) (g r : Nat) (f : Ring → Ring) : State :=
  s.modGroup g fun x => { x with rings := x.rings.modify r f }

def SlotSt.code : SlotSt → Nat
  | .free => 0
  | .assigned => 1
  | .filled => 2
  | .acquired => 3

/-- A ring: its descriptor (R278) and its state, the slots and the acquired ones. -/
def Ring.image (k : Ring) : List Byte :=
  bytesOf 16 (pack [(0, 22, k.base), (22, 14, k.pgrp / 2 ^ 16), (36, 12, k.slotSize / 16), (48, 7, k.slots.length - 1),
    (70, 2, k.msg.toNat), (72, 8, k.port), (80, 16, k.pgrp), (96, 32, k.plaunch.toNat)]) ++
    wordsOf ([pack [(0, 1, k.bound.toNat), (1, 1, k.bf.toNat), (2, 1, k.err.toNat)], k.tail, k.head, k.slots.length,
      k.acq.length] ++ k.acq ++ k.slots.flatMap fun p => [p.1.code, p.2])

/-- What a delivery does to a ring; that of a group which is switched out changes in its save area too (R272): the rings follow the 32
counters of the engines' section. -/
def State.landRing (s : State) (g r : Nat) (f : Ring → Ring) : State :=
  let s := s.modRing g r f
  match s.group? g with
  | none => s
  | some x => s.saveEngines x (28 * 32 + ((x.rings.take r).map fun k => k.image.length).sum) (x.ring r).image

/-- The fields of a descriptor (R278). -/
structure RingDesc where
  plaunch : Nat
  pgrp : Nat
  port : Nat
  kind : Nat
  resv : Nat
  nslot : Nat
  size : Nat
  base : Nat
  deriving DecidableEq, Repr

def RingDesc.of (d : BitVec 128) : RingDesc :=
  let n := d.toNat
  { plaunch := n / 2 ^ 96 % 2 ^ 32
    pgrp := n / 2 ^ 22 % 2 ^ 14 * 2 ^ 16 + n / 2 ^ 80 % 2 ^ 16
    port := n / 2 ^ 72 % 256
    kind := n / 2 ^ 70 % 4
    resv := n / 2 ^ 55 % 2 ^ 15
    nslot := n / 2 ^ 48 % 128 + 1
    size := n / 2 ^ 36 % 2 ^ 12 * 16
    base := n % 2 ^ 22 }

/-- Whether a descriptor is good (R278). -/
def RingDesc.ok (d : RingDesc) : Bool :=
  decide (d.kind ≤ 1) && d.resv == 0 && d.size != 0 && d.base % 16 == 0 && decide (d.base + d.size * d.nslot ≤ 2 ^ 22) &&
    (d.kind == 1 || d.plaunch == 0 && d.pgrp == 0 && d.port == 0)

/-- Whether a port of a quad is taken by a message ring (R281). -/
def State.portTaken (s : State) (quad port : Nat) : Bool :=
  s.groups.any fun p => quadOf p.2.core == quad && p.2.rings.any fun r => r.bound && r.msg && r.port == port

/-- `rbind.bind` at the commit (R281).  A ring that is bound anew has ERR clear (log entry 122). -/
def State.bindRing (s : State) (g r : Nat) (desc : BitVec 128) : State :=
  match s.group? g with
  | none => s
  | some x =>
    let d := RingDesc.of desc
    if (x.ring r).bound || (d.kind == 1 && s.portTaken (quadOf x.core) d.port) then
      s.modRing g r fun x => { x with bf := true }
    else s.modRing g r fun _ =>
      { bound := true, plaunch := BitVec.ofNat 32 d.plaunch, pgrp := d.pgrp, port := d.port, msg := d.kind == 1,
        slotSize := d.size, base := d.base, slots := List.replicate d.nslot (.free, 0) }

/-- The value that an acquisition of a freed ring lands (R296). -/
def freedPair : List Word := [0xFFFFFFFF, 0]

/-- Every acquisition of a ring by threads of the group gets a pair of words. -/
def Thread.giveSlot (t : Thread) (r : Nat) (vals : List Word) : Thread :=
  { t with defs := t.defs.map fun d => if d.src = .racq r then { d with src := .vals vals } else d }

/-- `rbind.free` at the commit (R296): slots dropped, waiting requests discarded, acquisitions answered, those that another domain has
issued and not yet committed too (log entry 134). -/
def State.freeRing (s : State) (g r : Nat) : State :=
  match s.group? g with
  | none => s
  | some _ =>
    let mine := s.copies.filter fun c => c.2.dest == some (g, r)
    let s := mine.foldl (fun s c => s.discardCopy c.1) s
    let s := s.modGroup g fun x =>
      { x with
        rings := x.rings.modify r fun k => { k with bound := false, msg := false, slots := [], acq := [], wait := [] }
        threads := x.threads.map fun t => t.giveSlot r freedPair }
    (mine.filter fun c => c.2.grp != g).foldl (fun s c => s.leave c.2.grp) s

/-- The oldest acquired slot is free again (R280). -/
def Ring.release (k : Ring) : Ring :=
  match k.acq with
  | [] => k
  | i :: rest => { k with acq := rest, slots := k.slots.set i (.free, 0) }

/-- The filled slot at the head, with its offset and length (R280). -/
def Ring.headSlot (k : Ring) : Option (Nat × Nat) :=
  match k.slots[k.head]? with
  | some (.filled, len) => some (k.base + k.slotSize * k.head, len)
  | _ => none

def Ring.acquire (k : Ring) : Ring :=
  match k.slots[k.head]? with
  | some (.filled, len) =>
    { k with slots := k.slots.set k.head (.acquired, len), acq := k.acq ++ [k.head],
             head := (k.head + 1) % k.slots.length }
  | _ => k

/-- The slot at the tail, when it is free. -/
def Ring.tailFree (k : Ring) : Bool :=
  match k.slots[k.tail]? with
  | some (.free, _) => true
  | _ => false

/-- The slot at the tail taken in a state, with a length. -/
def Ring.assign (k : Ring) (st : SlotSt) (len : Nat) : Ring :=
  { k with slots := k.slots.set k.tail (st, len), tail := (k.tail + 1) % k.slots.length }

def Ring.fill (k : Ring) (i len : Nat) : Ring := { k with slots := k.slots.set i (.filled, len) }

/-- Whether a thread still waits on a ring. -/
def Thread.wantsRing (t : Thread) (r : Nat) : Bool := t.defs.any fun d => d.src == .racq r

/-- Whether a thread's last step has been committed, so that an acquisition of it that is unmet waits to be met (R18, R280): its boundary
has been released, or waits for results or at a wider step. -/
def Group.afterCommit (x : Group) (tid : Nat) (t : Thread) : Bool :=
  t.late || ((x.dom (x.domOf tid)).phase != .run && !(match t.arr with | some a => a.isExit | none => false))

/-- A group's threads of a domain that wait on a ring all receive its head, if it is filled (R280): at the commit of the
domain those of the ending step, else those whose step has been committed. -/
def State.acquireRing (s : State) (g d r : Nat) (ending : Bool) : State :=
  match s.group? g with
  | none => s
  | some x =>
    let tids := (x.domTids d).filter fun i => match x.threads[i]? with | some t => t.wantsRing r && (ending || x.afterCommit i t) | none => false
    if tids.isEmpty then s
    else match (x.ring r).headSlot with
      | none => s
      | some (off, len) =>
        tids.foldl (fun s i => s.modThread ⟨g, i⟩ fun t => t.giveSlot r [BitVec.ofNat 32 off, BitVec.ofNat 32 len])
          (s.modRing g r Ring.acquire)

/-- The status word of `rhead` (R297). -/
def Ring.status (k : Ring) : Word :=
  let filled := (k.slots.filter fun p => p.1 == .filled).length
  let free := (k.slots.filter fun p => p.1 == .free).length
  BitVec.ofNat 32 (pack [(6, 7, k.head), (13, 8, free), (21, 8, filled), (29, 1, k.err.toNat), (30, 1, k.bf.toNat),
    (31, 1, k.bound.toNat)])

/-! ## Multicast bindings (R283) -/

/-- The counters of a quad that hold a binding: group, counter, base, length, tag. -/
def State.bindings (s : State) (quad : Nat) : List (Nat × Nat × Nat × Nat × Nat) :=
  s.groups.flatMap fun p =>
    if quadOf p.2.core = quad then
      (List.range p.2.ctrs.length).filterMap fun i =>
        match p.2.ctrs[i]? with
        | some k => k.bnd.map fun b => (p.1, i, b.1, b.2.1, b.2.2)
        | none => none
    else []

/-- `lcset` at the commit (R271, R283, R294). -/
def State.setCtr (s : State) (g c : Nat) (op : LcOp) : State :=
  match op with
  | .arm t => s.modCtr g c fun k => { k with tgt := t, cnt := 0, und := 0, err := false }
  | .unbind => s.modCtr g c fun k => { k with bnd := none, bf := false }
  | .bind base len tag =>
    match s.group? g with
    | none => s
    | some x =>
      let bs := s.bindings (quadOf x.core)
      let bound := match x.ctrs[c]? with | some k => k.bnd.isSome | none => false
      if bound || decide (64 ≤ bs.length) || bs.any (fun b => b.2.2.2.2 == tag) then
        s.modCtr g c fun k => { k with bf := true, bnd := none }
      else s.modCtr g c fun k => { k with bf := false, bnd := some (base, len, tag) }

end Sys2Proof.Machine
end

