-- ==== Sys2Proof/Machine/Tiles.lean ====
section
/-!
DEFINITION. Tiles: their elements, their bytes in memory, conversion between formats, zero masks, names and slots
(R65-R67, R285-R287, R328-R334, R430).
-/
namespace Sys2Proof.Machine

/-! ## Elements and bytes -/

/-- The sub-block of an element (R65). -/
def subBlock (row col : Nat) : Nat := row / 16 * 2 + col / 16

def TileData.scaleAt (t : TileData) (row col : Nat) : Nat :=
  if t.qs then t.scales[subBlock row col]?.getD 127 else t.scales[0]?.getD 127

def TileData.code (t : TileData) (row col : Nat) : Nat := Table.get 0 t.codes (row * 32 + col)

/-- The value of an element with its block scale; `none` is NaN by a scale of 0xFF (R66). -/
def TileData.value (t : TileData) (row col : Nat) : Num :=
  let v := elemValue t.fmt (t.code row col)
  if scaledFmt t.fmt then
    let s := t.scaleAt row col
    if s = 255 then .nan defaultNan else v.scale ((s : Int) - 127)
  else v

/-- Whether an element is a zero under R325. -/
def TileData.zeroAt (t : TileData) (row col : Nat) : Bool :=
  elemZero t.fmt (t.code row col) && (!scaledFmt t.fmt || t.scaleAt row col != 255)

/-- ZR: bit r is set when row r holds only zero elements (R334). -/
def TileData.zeroMask (t : TileData) : Word :=
  BitVec.ofNat 32 <| (List.range 32).foldl (fun m r =>
    if (List.range 32).all fun c => t.zeroAt r c then m + 2 ^ r else m) 0

/-- The zero tile of a free handle, and the bf16 tile of a fresh slot (R330, R350). -/
def TileData.zero : TileData := {}

/-- The header's length and the stored size of a tile format (R66). -/
def headerSize (fmt : Nat) : Nat := if scaledFmt fmt then 16 else 0
def storedSize (fmt : Nat) : Nat := headerSize fmt + 128 * elemBits fmt

/-- Elements packed from bit 0 up (R59, R63). -/
def packCodes (bits : Nat) (codes : List Nat) : Nat := codes.foldr (fun c n => c % 2 ^ bits + n * 2 ^ bits) 0

def unpackCodes (bits : Nat) : Nat → Nat → List Nat
  | 0, _ => []
  | k + 1, n => n % 2 ^ bits :: unpackCodes bits k (n / 2 ^ bits)

/-- A list of codes as a table by position, zeros left out. -/
def codeTable (l : List Nat) : Table Nat :=
  ((List.range l.length).zip l).filter fun p => p.2 != 0

/-- The codes of a tile in row-major order. -/
def TileData.codeList (t : TileData) : List Nat := (List.range 1024).map fun i => Table.get 0 t.codes i

/-- The stored bytes of a tile (R65, R66). -/
def TileData.bytes (t : TileData) : List Byte :=
  let n := if t.qs then 4 else 1
  let hdr : List Byte := if scaledFmt t.fmt then
      (t.scales.take n).map (BitVec.ofNat 8) ++ List.replicate (16 - n) 0 else []
  hdr ++ bytesOf (128 * elemBits t.fmt) (packCodes (elemBits t.fmt) t.codeList)

/-- A tile read from its stored bytes; a nonzero byte in the zero part of the header marks it header-bad, with every
scale 0xFF (R65, R286). -/
def TileData.ofBytes (fmt : Nat) (qs : Bool) (bs : List Byte) : TileData :=
  let n := if qs then 4 else 1
  let hdr := bs.take (headerSize fmt)
  let body := bs.drop (headerSize fmt)
  let bad := (hdr.drop n).any (· != 0)
  let scales := if bad then [255, 255, 255, 255]
    else if scaledFmt fmt then
      if qs then (hdr.take 4).map BitVec.toNat else List.replicate 4 ((hdr.headD 0).toNat)
    else [127, 127, 127, 127]
  { fmt, qs := qs && scaledFmt fmt, scales, bad, codes := codeTable (unpackCodes (elemBits fmt) 1024 (littleEndian body)) }

/-! ## Conversion (R74, R286, R287) -/

/-- floor(log2) of a positive value m × 2^e. -/
def floorLog2 (m : Nat) (e : Int) : Int := (Nat.log2 m : Int) + e

/-- The greatest exponent of a scaled format (R74). -/
def emaxOf (fmt : Nat) : Int :=
  match fmt with
  | 2 => 8
  | 3 => 15
  | 4 => 2
  | _ => 3

/-- The block scale of R74 over the finite values of a block; 127 where none of them is nonzero, and where the block holds infinities
alone (log entry 135). -/
def blockScale (fmt : Nat) (vals : List Num) : Nat :=
  let top := vals.foldl (fun (b : Option Int) v => match v with
    | .fin _ m e => if m = 0 then b else
        let l := floorLog2 m e
        some (match b with | some k => max k l | none => l)
    | _ => b) none
  match top with
  | none => 127
  | some l => (min (max (l - emaxOf fmt + 127) 0) 254).toNat

def isNanNum : Num → Bool
  | .nan _ => true
  | _ => false

/-- The sub-block number of each element of a tile in a scale mode. -/
def blockOf (qs : Bool) (i : Nat) : Nat := if qs then subBlock (i / 32) (i % 32) else 0

/-- Values by position put into a tile of a format and mode: the scales of R74, and R286 for blocks that hold a NaN. -/
def TileData.ofValues (fmt : Nat) (qs : Bool) (vals : List Num) : TileData :=
  if scaledFmt fmt then
    let idx := (List.range vals.length).zip vals
    let scales := (List.range 4).map fun b =>
      let l := (idx.filter fun p => blockOf qs p.1 = (if qs then b else 0)).map (·.2)
      if l.any isNanNum then 255 else blockScale fmt l
    let codes := idx.map fun p =>
      let s := scales[blockOf qs p.1]?.getD 127
      if s = 255 then 0 else (elemEncode fmt (p.2.scale (127 - (s : Int)))).1
    { fmt, qs, scales, codes := codeTable codes }
  else
    { fmt, codes := codeTable (vals.map fun v => match v, fmt with
        | .nan _, 0 => 0x7FC0
        | .nan _, _ => 0x7E00
        | v, f => (elemEncode f v).1) }

/-- `cpyt`'s conversion of a tile (R286). -/
def TileData.convert (t : TileData) (fmt : Nat) (qs : Bool) : TileData :=
  if t.fmt = fmt ∧ t.qs = qs then t
  else
    let u := TileData.ofValues fmt qs ((List.range 1024).map fun i => t.value (i / 32) (i % 32))
    if t.bad then { u with bad := true, scales := [255, 255, 255, 255] } else u

/-- The size of an MX image (R287). -/
def imageSize (fmt : Nat) : Nat := 32 + 128 * elemBits fmt

/-- An MX tile image as a square tile (R67, R287). -/
def TileData.ofImage (fmt : Nat) (qs : Bool) (bs : List Byte) : TileData :=
  let rowScale := (bs.take 32).map BitVec.toNat
  let codes := unpackCodes (elemBits fmt) 1024 (littleEndian (bs.drop 32))
  let rows (b : Nat) : List Nat := if qs then (rowScale.drop (b / 2 * 16)).take 16 else rowScale
  let scales := (List.range 4).map fun b => (rows b).foldl max 0
  let out := ((List.range codes.length).zip codes).map fun p =>
    let s := scales[blockOf qs p.1]?.getD 127
    if s = 255 then 0
    else (elemEncode fmt ((elemValue fmt p.2).scale (((rowScale[p.1 / 32]?.getD 127 : Nat) : Int) - (s : Int)))).1
  { fmt, qs, scales, codes := codeTable out }

/-! ## Slots, names and references (R328, R330) -/

def tileSlots : Nat := 4096

def State.poolFree (s : State) (quad : Nat) : Nat := tileSlots - (s.tiles.filter fun t => t.2.quad == quad).length

def nameKey (coh n : Nat) : Nat := coh * 64 + n
def Group.name (x : Group) (coh n : Nat) : Name := Table.get .released x.names (nameKey coh n)
def Group.setName (x : Group) (coh n : Nat) (v : Name) : Group :=
  { x with names := Table.set .released x.names (nameKey coh n) v }

/-- The stale-handle fault of a name (R333). -/
def nameFault (n : Name) : Option Stop :=
  match n with
  | .released => some (.of .staleHandle 1)
  | .given => some (.of .staleHandle 2)
  | .mapped _ => none

/-- The first stale-handle fault among names of a cohort. -/
def Group.staleName (x : Group) (coh : Nat) (names : List Nat) : Option Stop := names.findSome? fun n => nameFault (x.name coh n)

/-- The tiles that names of a cohort map to. -/
def Group.mappedTiles (x : Group) (coh : Nat) (names : List Nat) : List Nat := names.filterMap fun n =>
  match x.name coh n with
  | .mapped t => some t
  | _ => none

/-- Whether a binding has an entry for a wld record. -/
def Binding.names (b : Binding) (rec : Nat) : Bool := b.bands.any fun e => match e with
  | some p => p.1 == rec
  | none => false

/-- Whether a weight binding names a finished or submitted wld record: that of a handle, or the one that an unfinished mma
record uses (R337). -/
def State.bound (s : State) (rec : Nat) : Bool :=
  s.basins.any (fun b => b.2.bind.names rec || b.2.sub.names rec) ||
    s.recs.any fun r => r.2.kind == 1 && r.2.bind.names rec

/-- Whether a tile is pinned by a weight binding: by a finished wld record that an entry names (R337). -/
def State.pinned (s : State) (tile : Nat) : Bool :=
  s.images.any fun i => i.2.tiles.contains tile && s.bound i.1

/-- The tiles an instance that has not passed refers to. -/
def InstAct.tiles : InstAct → List Nat
  | .stream (.sgath _ ts ..) => ts
  | .copy { kind := .tileIn _ t .., .. } => [t]
  | .copy { kind := .tileOut t .., .. } => [t]
  | .record r => r.tiles
  | .tgive t _ _ => [t]
  | .tset t _ _ => [t]
  | _ => []

def CopyKind.tile : CopyKind → Option Nat
  | .tileIn _ t .. => some t
  | .tileOut t .. => some t
  | _ => none

/-- Whether anything refers to a tile besides its quad's pool. -/
def State.tileUsed (s : State) (id : Nat) : Bool :=
  s.groups.any (fun p => p.2.names.any (fun n => n.2 == .mapped id) || p.2.posts.any (fun q => q.2.contains id) ||
    p.2.doms.any fun d => d.insts.any (fun i => i.act.tiles.contains id) || d.posts.any fun q => q.1 == id) ||
  s.copies.any (fun c => c.2.kind.tile == some id) ||
  s.sops.any (fun o => match o.2.kind with | .sgath _ ts .. => ts.contains id | _ => false) ||
  s.recs.any (fun r => r.2.tiles.contains id) || s.pinned id

/-- What a reader of a tile sees: a free one is the zero tile. -/
def Tile.read (t : Tile) : TileData := if t.st = .free then { t.data with codes := [], scales := [127, 127, 127, 127] } else t.data

/-- The word of `tget` (R355). -/
def TileData.word (t : TileData) (row col : Nat) (raw : Bool) : Word :=
  if raw then BitVec.ofNat 32 (t.code row col)
  else match t.value row col with
    | .nan _ => defaultNan
    | v => toF32 0 v

/-- A thread's `tget`s that have not read a tile of some that go read it now, between their issue and the boundary (R355). -/
def Thread.readGone (t : Thread) (gone : Table Tile) : Thread :=
  { t with defs := t.defs.map fun d => match d.src with
      | .tget id row col raw => match gone.find? id with
        | some k => { d with src := .sampled [k.read.word row col raw] }
        | none => d
      | _ => d }

/-- Slots that nothing refers to return to the pool, and images that no binding names are gone (R328). -/
def State.gcTiles (s : State) : State :=
  let s := { s with images := s.images.filter fun i => s.bound i.1 }
  let (kept, gone) := s.tiles.partition fun t => s.tileUsed t.1
  if gone.isEmpty then s
  else
    { s with
      tiles := kept
      groups := s.groups.map fun p => (p.1, { p.2 with threads := p.2.threads.map (Thread.readGone · gone) }) }

def State.modTile (s : State) (id : Nat) (f : Tile → Tile) : State := { s with tiles := s.tiles.update id f }

def TileSt.code : TileSt → Nat
  | .free => 0
  | .filling => 1
  | .full => 2

/-- What a save area says of a tile: its number, state, format, scale mode and header (R342). -/
def Tile.image (id : Nat) (t : Tile) : List Byte :=
  bytesOf 4 id ++ bytesOf 4 (pack [(0, 2, t.st.code), (2, 4, t.data.fmt), (6, 1, t.data.qs.toNat), (7, 1, t.data.bad.toNat)])

/-- The 2,048 bytes that a save area has for a tile slot (R388). -/
def Tile.slotBytes (t : Tile) : List Byte := (t.read.bytes ++ List.replicate 2048 0).take 2048

/-- The copy of a tile in its group's save area follows the tile while the group is away from its core (R342): the `i`-th
slot of the section at TIL, and the `i`-th entry of the tiles with which the section at MREC begins (R388). -/
def State.storeSaved (s : State) (id : Nat) : State :=
  match s.tiles.find? id with
  | none => s
  | some t =>
    match s.group? t.grp with
    | none => s
    | some x =>
      match x.area, x.areaTiles.idxOf? id with
      | some (a, _), some i =>
        if x.resident then s
        else
          let s' := s.writePhys (a + s.readPhys (a + 40) 4 + 2048 * i) t.slotBytes
          s'.writePhys (a + s.readPhys (a + 48) 4 + 4 + 8 * i) (t.image id)
      | _, _ => s

/-- A fill ends: the tile is full (R330). -/
def State.fillTile (s : State) (id : Nat) (d : TileData) : State :=
  (s.modTile id fun t => { t with st := .full, data := d, fillDom := none, fillBy := none }).storeSaved id

/-- A fill begins: format and mode are recorded (R352). -/
def State.startFill (s : State) (id fmt : Nat) (qs : Bool) (dom : Option Nat) (by_ : Option (Nat × Word)) : State :=
  s.modTile id fun t => { t with st := .filling, data := { fmt, qs }, fillDom := dom, fillBy := by_ }

/-- The fill stopped by an engine fault leaves a tile of zeros in the recorded format (R430). -/
def State.zeroFill (s : State) (id : Nat) : State :=
  (s.modTile id fun t => { t with st := .full, fillDom := none, fillBy := none,
                                  data := { fmt := t.data.fmt, qs := t.data.qs } }).storeSaved id

/-- `n` slots mapped to names from `first` on, free and bf16 (R350). -/
def State.mapNames (s : State) (g coh : Nat) : Nat → Nat → State
  | _, 0 => s
  | first, n + 1 =>
    match s.group? g with
    | none => s
    | some x =>
      let id := s.fresh
      let s := { s with tiles := s.tiles.put id { quad := quadOf x.core, grp := g } }.bump
      (s.modGroup g fun x => x.setName coh first (.mapped id)).mapNames g coh (first + 1) n

end Sys2Proof.Machine
end

