-- ==== Sys2Proof/Machine/Engines.lean ====
section
/-!
DEFINITION. How requests pass to the engines at a commit (R273, R307, R329, R358, R393, R394, R409): copy requests,
stream instances, matrix records, remote operations, launch and spawn records.
-/
namespace Sys2Proof.Machine

/-! ## Copy requests (R273) -/

/-- A request passes to the copy engine of its group's quad (R289); a put joins its ring's line (R279).  A put whose ring the event has freed is
discarded (R296). -/
def State.passCopy (s : State) (c : Copy) : State :=
  let id := s.fresh
  let c := { c with quad := match s.group? c.grp with | some x => quadOf x.core | none => c.quad }
  let go (s : State) (c : Copy) : State := ({ s with copies := s.copies.put id c }.outUp c.grp c.ctr).bump
  match c.kind with
  | .put r _ _ =>
    match s.group? c.grp with
    | none => s
    | some x =>
      if (x.ring r).bound && !(x.ring r).msg then
        (go s { c with dest := some (c.grp, r) }).modRing c.grp r fun k => { k with wait := k.wait ++ [id] }
      else s
  | _ => go s c

/-! ## Stream instances (R302-R308) -/

def Group.stream (x : Group) (n : Nat) : Stream := x.streams[n]?.getD {}
def State.modStream (s : State) (g n : Nat) (f : Stream → Stream) : State :=
  s.modGroup g fun x => { x with streams := x.streams.modify n f }

/-- The record of a stream fault (R312). -/
def streamRecord (pc rank : Word) (done addr sm op cause : Nat) : BitVec 256 :=
  BitVec.ofNat 256 (pack [(0, 8, cause), (8, 8, op), (32, 8, sm), (64, 57, addr), (128, 32, done), (160, 32, rank.toNat),
    (192, 32, pc.toNat)])

/-- The opcode and the first stream of an instance. -/
def StreamKind.op : StreamKind → Nat
  | .sopen .. => 0xC0
  | .sisect .. => 0xC1
  | .nzscan .. => 0xC2
  | .sgath .. => 0xC3
  | .smerge .. => 0xC4
  | .scount .. => 0xC5
  | .sclose .. => 0xC6

def StreamKind.first : StreamKind → Nat
  | .sopen n .. | .sclose n | .sisect _ n _ | .smerge _ _ n _ | .scount n _ | .nzscan n .. | .sgath n .. => n

/-- The streams an instance reads. -/
def StreamKind.reads : StreamKind → List Nat
  | .sopen .. | .sclose _ => []
  | .sisect _ a b | .smerge _ _ a b | .scount a b => [a, b]
  | .nzscan a .. | .sgath a .. => [a]

def StreamKind.ring : StreamKind → Option Nat
  | .sisect r .. | .smerge _ r .. => some r
  | _ => none

/-- The state check of an instance at the commit (R306): the cause of R312, if it fails, the first in the order of R306's list where
several apply (log entry 136). -/
def streamCheck (x : Group) (k : StreamKind) : Option Nat :=
  match k with
  | .sopen n .. => if (x.stream n).bnd then some 2 else none
  | .sclose n => if (x.stream n).bnd then none else some 1
  | k =>
    if k.reads.any fun n => !(x.stream n).bnd then some 1
    else if (match k with | .nzscan .. => false | _ => true) && k.reads.any (fun n => (x.stream n).t != .n32) then some 4
    else match k.ring with
      | some r => if !(x.ring r).bound || (x.ring r).msg then some 3 else none
      | none => none

/-- The streams that an operation reads, with their identities: a slot may hold another stream by now (R302). -/
def SOp.sources (o : SOp) : List (Nat × Nat) := o.kind.reads.zip [o.aId, o.bId]

/-- Streams by slot and identity change; one that its slot has lost does not. -/
def State.modSources (s : State) (g : Nat) (l : List (Nat × Nat)) (f : Stream → Stream) : State :=
  l.foldl (fun s p => s.modStream g p.1 fun m => if m.id = p.2 then f m else m) s

/-- Where element 0 of a stream lies: BASE in SEG (R302). -/
def Stream.loc (m : Stream) : Loc := ⟨m.sp, if m.sp then m.base else segBase m.seg + m.base⟩

/-- The operation that an instance of a domain's step starts: captured ranges, and where the streams stand after it (R307). -/
def State.startStream (s : State) (g d : Nat) (x : Group) (i : Inst) (k : StreamKind) : State :=
  let mk (a b : Stream) (aEnd : Nat) : SOp :=
    { grp := g, kind := k, aId := a.id, bId := b.id, pc := i.pc, rank := i.rank, takers := i.takers, aLoc := a.loc, aTy := a.t, aEnd := aEnd,
      bLoc := b.loc, bEnd := b.len, i := a.pos, j := b.pos, start := a.pos, by_ := some d }
  let go (op : SOp) (s : State) : State := ({ s with sops := s.sops.put s.fresh op }).bump
  let line (r : Nat) (s : State) : State := s.modRing g r fun q => { q with wait := q.wait ++ [s.fresh] }
  match k with
  | .sopen n sp seg base t count =>
    (s.modStream g n fun _ => { bnd := true, id := s.fresh, sp := sp, seg := seg, base := base, t := t, len := count }).bump
  | .sclose n => s.modStream g n fun m => { m with bnd := false }
  | .sisect _ a b | .smerge _ _ a b | .scount a b =>
    let sa := x.stream a
    let s := match k.ring with | some r => line r s | none => s
    let s := go (mk sa (x.stream b) sa.len) s
    (s.modStream g a fun m => { m with pos := m.len }).modStream g b fun m => { m with pos := m.len }
  | .nzscan a c _ limit =>
    let sa := x.stream a
    let n := min limit (sa.len - sa.pos)
    ((go (mk sa sa (sa.pos + n)) s).modStream g a fun m => { m with pos := m.pos + n }).outUp g c
  | .sgath a ts _ _ _ _ _ c =>
    let sa := x.stream a
    ((go (mk sa sa sa.len) s).modStream g a fun m => { m with pos := min (m.pos + 32 * ts.length) m.len }).outUp g c

/-- An instance that fails its check: the fault record, an `sgath`'s handles finished as zero tiles, and the streams'
ERR (R306, R312, R430).  An `scount` lands 0, and of `nzscan`, which fails on an unbound stream only, the area of no element
is undelivered (log entry 89). -/
def State.failStream (s : State) (g : Nat) (i : Inst) (k : StreamKind) (cause : Nat) : State :=
  let s := s.engineFault g (streamRecord i.pc i.rank 0 0 k.first k.op cause)
  let s := k.reads.foldl (fun s n => s.modStream g n fun m => { m with err := true }) s
  let s := i.takers.foldl (fun s p => s.result p.1 p.2 (.vals [0])) s
  match k with
  | .sgath _ ts _ _ _ _ _ c => ts.foldl (fun s t => (s.zeroFill t).countIn g c 2048 true) s
  | .nzscan _ c _ _ => s.countIn g c 16 true
  | _ => s

/-- A stream instance takes effect (R305, R306). -/
def State.applyStream (s : State) (g d : Nat) (i : Inst) (k : StreamKind) : State :=
  match s.group? g with
  | none => s
  | some x =>
    match streamCheck x k with
    | some c => s.failStream g i k c
    | none => s.startStream g d x i k

/-- The status word of a stream (R319). -/
def State.sstat (s : State) (g : Nat) (x : Group) (n : Nat) : Word :=
  let m := x.stream n
  if !m.bnd then 0
  else
    let busy := (s.sops.filter fun o => o.2.grp == g && o.2.sources.contains (n, m.id)).length
    BitVec.ofNat 32 (pack [(0, 25, m.len - m.pos), (25, 4, min busy 15), (29, 1, m.err.toNat), (30, 1, m.ord.toNat),
      (31, 1, 1)])

/-! ## Matrix records (R329, R340) -/

/-- The bands of a latch of a format (R323). -/
def bandsOf (fmt : Nat) : Nat :=
  match fmt with
  | 0 | 1 => 3
  | 2 | 3 => 6
  | _ => 12

/-- The class of a format: 0 the 16-bit formats, 1 the 8-bit, 2 e2m1, 3 l6, which pairs only with itself (R323,
R324). -/
def classOf (fmt : Nat) : Nat :=
  match fmt with
  | 0 | 1 => 0
  | 2 | 3 => 1
  | 4 => 2
  | _ => 3

/-- A binding after a wld record (R323, R337): a wld of fewer bands in another format empties the others. -/
def Binding.load (b : Binding) (rec fmt kb0 nk ncol : Nat) : Binding :=
  let kt := bandsOf fmt
  let old := if b.fmt = fmt then b.bands else []
  { fmt := fmt
    ncol := ncol
    bands := (List.range kt).map fun i =>
      if kb0 ≤ i ∧ i < kb0 + nk then some (rec, i - kb0) else (old[i]?.getD none) }

def State.modBasin (s : State) (id : Nat) (f : Basin → Basin) : State := { s with basins := s.basins.update id f }

/-- The records in a quad's task queue. -/
def State.queued (s : State) (quad : Nat) : Nat :=
  (s.taskQ.filter fun i => match s.recs.find? i with
    | some r => match s.basins.find? r.bas with
      | some b => quadOf b.core == quad
      | none => false
    | none => false).length

def State.recQuad (s : State) (id : Nat) : Nat :=
  match (s.recs.find? id).bind fun r => s.basins.find? r.bas with
  | some b => quadOf b.core
  | none => 0

/-- A record enters its quad's task queue, or waits for room behind those that wait (R340).  The binding that later
records use changes as it is submitted. -/
def State.submit (s : State) (id : Nat) (r : MRec) : State :=
  let s := if r.kind = 2 then
      s.modBasin r.bas fun b => { b with sub := b.sub.load id r.ofmt r.kb0 r.nk r.ncol }
    else s
  let sub := ((s.basins.find? r.bas).map Basin.sub).getD ({} : Binding)
  let s := { s with recs := s.recs.put id { r with bind := sub, since := s.fresh } }
  if 256 ≤ s.queued (s.recQuad id) || s.taskWait.any (fun j => s.recQuad j == s.recQuad id) then
    { s with taskWait := s.taskWait ++ [id] }
  else { s with taskQ := s.taskQ ++ [id] }

/-- The arrays that a domain's commit passed and that are still being read, the last one first. -/
def State.openArrays (s : State) (g d : Nat) : List (Nat × MArray) :=
  (s.arrays.filter fun (p : Nat × MArray) => p.2.grp == g && p.2.dom == d).reverse

/-- A record of a commit passes: behind an array of the same commit, if there is one (R329, R340). -/
def State.passRecord (s : State) (id : Nat) (r : MRec) : State :=
  let s := s.outUp r.grp r.lce
  match s.openArrays r.grp r.dom with
  | [] => s.submit id r
  | (k, a) :: _ => { s with recs := s.recs.put id r, arrays := s.arrays.put k { a with behind := a.behind ++ [id] } }

/-! ## Remote operations and collectives (R409-R411) -/

/-- The deadline stamp that the packets of a group carry: 850 cycles are one microsecond (R159, R400). -/
def Group.stamp (x : Group) (l : Launch) : Option DWord :=
  if (l.r.arb = 1 ∨ l.r.arb = 2) ∧ l.r.dline ≠ 0 then some (x.placedAt + BitVec.ofNat 64 (850 * l.r.dline)) else none

/-- The groups of a core with a thread that is ready, not parked at a cohort-synchronous instruction (R111): the slack of its
packets (R399). -/
def State.readyGroups (s : State) (core : Nat) : Nat :=
  (s.groups.filter fun p => p.2.core == core && p.2.st == .running && (List.range p.2.threads.length).any fun i =>
    match p.2.threads[i]? with
    | some t => t.st == .ready && !s.syncParked p.2 i t
    | none => false).length

/-- The peer ports that are up (R402). -/
def Ready.upPorts (r : Ready) : List Nat := (List.range 18).filter r.ual.getLsbD

/-- The peer port by which traffic to an address leaves: one of those that are up, by a hash of the address; with none up, the
first (R402, log entry 98). -/
def State.peerPort (s : State) (addr : Nat) : Nat :=
  let ups := s.ready.upPorts
  ups[Config.portHash addr % ups.length]?.getD 0

/-- The packet of a remote operation at its injection (R399, R400). -/
def State.packetOf (s : State) (r : Remote) : Packet :=
  match s.group? r.grp with
  | none => { id := s.fresh, grp := r.grp, launch := r.launch, cls := 0, age := 0, outPort := s.peerPort (r.acc.keys.headD 0) }
  | some x =>
    { id := s.fresh, grp := r.grp, launch := r.launch, cls := x.prio, age := 0, slack := s.readyGroups x.core,
      stamp := x.stamp (s.launchOf x), inPort := Config.portIn x.core, outPort := s.peerPort (r.acc.keys.headD 0) }

def State.passRemote (s : State) (r : Remote) : State :=
  ({ s with remotes := s.remotes.put s.fresh r, packets := s.packets ++ [s.packetOf r] }.outUp r.grp r.ctr).bump

def State.passCollective (s : State) (c : Collective) : State :=
  ({ s with colls := s.colls.put s.fresh c }.outUp c.grp c.ctr).bump

/-! ## Launch records (R394) and spawn records (R393) -/

def Queue.size (q : Queue) : Nat := 2 ^ (q.log2n + 4)
def Queue.full (q : Queue) : Bool := decide (q.size ≤ (q.tail - q.head).toNat)

/-- The physical address of a record (R371). -/
def Queue.recAddr (q : Queue) (i : Word) : Nat := q.base + 128 * (i.toNat % q.size)

def State.queueAt (s : State) (q : Nat) : Queue := s.queues[q]?.getD {}
def State.modQueue (s : State) (q : Nat) (f : Queue → Queue) : State := { s with queues := s.queues.modify q f }

/-- The dispatcher reads a record on its way into a queue once the step that passed it is released (R40): not from a prepared
cell (R258), nor from a poisoned line. -/
def State.readEntry (s : State) (e : QueueEntry) : QueueEntry :=
  if e.bytes.isSome || e.by_.isSome || e.acc.keys.any s.prepared || s.poisoned e.acc.keys then e
  else { e with bytes := some (s.readBytes e.acc.keys) }

/-- Whether a record that is to be read lies on a poisoned line (R418). -/
def State.entryPoisoned (s : State) (e : QueueEntry) : Bool := e.bytes.isNone && e.by_.isNone && s.poisoned e.acc.keys

/-- The records on their way into a queue that can be read now are read; one on a poisoned line is a machine check of its group
and never written (R418). -/
def State.readEntries (s : State) (q : Nat) : State :=
  let bad := (s.queueAt q).wait.filter s.entryPoisoned
  let s := s.modQueue q fun k => { k with wait := (k.wait.filter (!s.entryPoisoned ·)).map s.readEntry }
  s.killAll (bad.map (·.grp)).eraseDups

/-- Entries that wait for a place are written while there is one (R394). -/
def State.writeEntries (s : State) (q : Nat) : Nat → State
  | 0 => s
  | fuel + 1 =>
    let k := s.queueAt q
    match k.wait with
    | [] => s
    | e :: rest =>
      match e.bytes with
      | none => s
      | some bytes =>
        if k.full then s
        else
          let s := s.writePhys (k.recAddr k.tail) bytes
          let s := s.modQueue q fun k => { k with tail := k.tail + 1, wait := rest }
          ((s.countIn e.grp e.ctr 128).outDone e.grp e.ctr).writeEntries q fuel

/-- The records on their way into a queue are read, and written in their order while there is a place (R394). -/
def State.drainQueue (s : State) (q : Nat) : State := (s.readEntries q).writeEntries q (s.queueAt q).wait.length

/-- A launch record of a domain's step passes (R394); it takes effect once the step is released (R39). -/
def State.passLaunch (s : State) (g d : Nat) (acc : Acc) (q : Nat) (ctr : Option Nat) : State :=
  (s.outUp g ctr).modQueue q fun k => { k with wait := k.wait ++ [{ grp := g, by_ := some d, acc, ctr }] }

def dequeSize : Nat := 64
def spillSize : Nat := 4096

/-- A spawn record goes on top of the core's deque, else in the die's spill queue, and takes its `%grp` (R382, R393). -/
def State.passSpawn (s : State) (x : Group) (by_ : Nat × Nat) (entry : Word) (ncoh : Nat) (v0 v1 : Word) : State :=
  let l := s.launchOf x
  let sp : Spawn := { launch := x.launch, grp := l.r.ngrp + l.spawns, entry, ncoh, v0, v1, by_ := some by_ }
  let s := s.modLaunch x.launch fun l => { l with spawns := l.spawns + 1 }
  if (s.core x.core).deque.length < dequeSize then s.modCore x.core fun c => { c with deque := c.deque ++ [sp] }
  else
    let d := dieOf x.core
    { s with spill := Table.set [] s.spill d (Table.get [] s.spill d ++ [sp]) }

/-- The step of a domain is released: the launch and spawn records that it passed take effect (R39, R394), and the engines may
begin the reads of its requests (R40). -/
def State.releaseRecords (s : State) (g d : Nat) : State :=
  let waiting := (List.range 64).filter fun q => (s.queueAt q).wait.any fun e => e.grp == g
  waiting.foldl State.drainQueue (s.freeRecords g fun e => e == d)

/-- Whether `n` spawns of a group find room and a number (R382, R393). -/
def State.spawnRoom (s : State) (x : Group) (n : Nat) : Bool :=
  let l := s.launchOf x
  decide (n ≤ (dequeSize - (s.core x.core).deque.length) + (spillSize - (Table.get [] s.spill (dieOf x.core)).length)) &&
    decide (l.r.ngrp + l.spawns + n ≤ 2 ^ 30)

/-! ## Service requests (R155, R260) -/

def gafferSize : Nat := 1024

/-- Service requests enter the quad's Gaffer queue while it has room; the rest stay. -/
def State.passSvcs (s : State) (g quad : Nat) : List (Nat × Nat) → State × List (Nat × Nat)
  | [] => (s, [])
  | (off, num) :: rest =>
    if (s.quad quad).gaffer.length < gafferSize then
      (s.modQuad quad fun q => { q with gaffer := q.gaffer ++ [.svc g off] }).passSvcs g quad rest
    else (s, (off, num) :: rest)

end Sys2Proof.Machine
end

