-- ==== Sys2Proof/Machine/Resolve.lean ====
section
/-!
DEFINITION. Resolved writes: what one commit event makes of the writes to one collision set, and the collision record
(R215-R223, R226-R228).
-/
namespace Sys2Proof.Machine

/-- A writer of a commit event: its `%tid` and `%rank`, and the write.  Writers are listed in ascending (rank, program
order). -/
structure Writer where
  tid : Nat
  rank : Word
  w : Write
  deriving DecidableEq, Repr

/-- The bits of a write by byte key: the footprint (R215). -/
def Write.foot (w : Write) : List (Nat × Nat) :=
  (List.range w.acc.keys.length).filterMap fun i =>
    let m := w.mask / 2 ^ (8 * i) % 256
    match w.acc.keys[i]? with
    | some k => if m = 0 then none else some (k, m)
    | none => none

/-- Whether a byte of the footprint lies in a peer module. -/
def Write.onPeer (w : Write) : Bool := w.foot.any fun p => isPeerKey p.1

/-- Whether two footprints share a bit. -/
def Write.meets (a b : Write) : Bool :=
  a.foot.any fun p => b.foot.any fun q => p.1 == q.1 && (p.2 &&& q.2) != 0

/-- The collision sets of a list of writers (R226): a writer joins every set that one of its bits links it to. -/
def collisionSets : List Writer → List (List Writer)
  | [] => []
  | w :: ws =>
    let (hit, miss) := (collisionSets ws).partition fun c => c.any fun x => w.w.meets x.w
    (w :: hit.flatten) :: miss

/-- The writers of a list in the order of another list that holds them. -/
def inOrderOf (all set : List Writer) : List Writer := all.filter set.contains

def isCombining (rule : Nat) : Bool := 2 ≤ rule && rule ≤ 6

/-- Whether later writes of the same thread and rule replace a write whole (R216); `later` are the writers after it.  One that they
replace in part remains a writer (log entry 110). -/
def Writer.replaced (x : Writer) (later : List Writer) : Bool :=
  !isCombining x.w.rule &&
    let mine := later.filter fun y => y.tid == x.tid && y.w.rule == x.w.rule
    x.w.foot.all fun p =>
      let m := mine.foldl (fun m y => y.w.foot.foldl (fun m q => if q.1 == p.1 then m ||| q.2 else m) m) 0
      p.2 &&& m == p.2

/-- The writes that count as writers: under a replacing rule, those that their thread has not replaced (R216). -/
def standing : List Writer → List Writer
  | [] => []
  | x :: xs => if x.replaced xs then standing xs else x :: standing xs

/-- The reason two writes of one event that collide fault, by the codes of R227; 0 where they do not (R219).  A mismatch
in both width and type is one of width, and the same address is the same virtual address (log entry 106). -/
def pairReason (a b : Writer) : Nat :=
  if !a.w.meets b.w then 0
  else if a.w.rule ≠ b.w.rule then 2
  else if isCombining a.w.rule then
    if a.w.acc.va ≠ b.w.acc.va ∨ a.w.acc.keys.length ≠ b.w.acc.keys.length then 3
    else if a.w.rule = 3 ∨ a.w.rule = 4 then if a.w.t ≠ b.w.t then 4 else 0
    else if a.w.rule = 2 ∧ (a.w.t = .f32) ≠ (b.w.t = .f32) then 4
    else 0
  else if a.w.rule = 7 ∧ a.tid ≠ b.tid then 1
  else 0

/-- The reason of a set: among its pairs a rule conflict comes first, then width, type and `.fault` (log entry 8). -/
def setReason (ws : List Writer) : Nat :=
  let rs := pairs ws
  if rs.contains 2 then 2 else if rs.contains 3 then 3 else if rs.contains 4 then 4 else if rs.contains 1 then 1 else 0
where
  pairs : List Writer → List Nat
    | [] => []
    | w :: ws => ws.map (pairReason w) ++ pairs ws

/-- A `satom` as a writer of a record: no rule applies to it (R265), and it counts under rule code 0 (log entry 100). -/
def Satom.asWriter (tid : Nat) (rank : Word) (a : Satom) : Writer :=
  { tid, rank, w := { acc := a.acc, mask := 2 ^ 32 - 1, value := a.x.toNat, rule := 0, t := a.t, kind := .fwr a.seq, pc := a.pc,
                      order := a.order } }

/-! ## Combining rules (R218) -/

/-- The exact FP32 sum of a base value and contributions, rounded once (R218). -/
def sumF32 (base : Word) (l : List Word) : Word :=
  match (base :: l).find? f32IsNan with
  | some n => quiet n
  | none => toF32 0 (l.foldl (fun x w => x.add 0 (numF32 w)) (numF32 base))

/-- A combining rule over the base value and contributions in order (R218). -/
def combine (rule : Nat) (t : Ty) (base : Word) (l : List Word) : Word :=
  match rule with
  | 2 => if t = .f32 then sumF32 base l else l.foldl (· + ·) base
  | 3 => if t = .f32 then toF32 0 (l.foldl (fun x w => x.min (numF32 w)) (numF32 base))
         else l.foldl (fun x w => if ival t w < ival t x then w else x) base
  | 4 => if t = .f32 then toF32 0 (l.foldl (fun x w => x.max (numF32 w)) (numF32 base))
         else l.foldl (fun x w => if ival t x < ival t w then w else x) base
  | 5 => l.foldl (· ||| ·) base
  | _ => l.foldl (· &&& ·) base

/-! ## Replacing rules: the winner of each bit (R216, R219) -/

/-- The bits of a write that lie in a byte. -/
def Write.maskAt (w : Write) (k : Nat) : Nat := (w.foot.filter fun p => p.1 == k).foldl (fun m p => m ||| p.2) 0

/-- The value bits of a write in a byte. -/
def Write.bitsAt (w : Write) (k : Nat) : Nat :=
  match w.acc.keys.idxOf? k with
  | some i => w.value / 2 ^ (8 * i) % 256
  | none => 0

/-- The threads that write a bit of a byte, in rank order. -/
def bitThreads (ws : List Writer) (k b : Nat) : List Nat :=
  ((ws.filter fun x => x.w.maskAt k / 2 ^ b % 2 == 1).map (·.tid)).eraseDups

/-- What an open choice of a winner is keyed on: writes of one address and size have one winner; otherwise each bit has
its own (R219). -/
def anySalt (ws : List Writer) (k b : Nat) : Nat :=
  match ws with
  | [] => 8 * k + b
  | x :: _ => if ws.all fun y => y.w.foot == x.w.foot then 8 * ((x.w.foot.head?.map (·.1)).getD k) else 8 * k + b

/-- The thread whose value a bit takes: the lowest-ranked one under `.lo` and `.fault`; an open choice under `.any`
outside deterministic mode. -/
def bitWinner (s : State) (det : Bool) (ws : List Writer) (k b : Nat) : Option Nat :=
  let ts := bitThreads ws k b
  let any := ws.any fun x => x.w.rule == 1
  if any && !det then ts[(s.word (anySalt ws k b)).toNat % ts.length]? else ts.head?

/-- The byte that replaces a byte of memory: each bit from its winner's last write that holds it. -/
def replaceByte (s : State) (det : Bool) (ws : List Writer) (k : Nat) (old : Byte) : Byte :=
  (List.range 8).foldl (fun (acc : Byte) b =>
    match bitWinner s det ws k b with
    | none => acc
    | some tid =>
      match (ws.filter fun x => x.tid == tid && x.w.maskAt k / 2 ^ b % 2 == 1).getLast? with
      | none => acc
      | some x =>
        let m : Byte := BitVec.ofNat 8 (2 ^ b)
        if x.w.bitsAt k / 2 ^ b % 2 = 1 then acc ||| m else acc &&& ~~~m) old

/-- Whether a writer wins every bit of its footprint (R223). -/
def winsAll (s : State) (det : Bool) (ws : List Writer) (x : Writer) : Bool :=
  x.w.foot.all fun p => (List.range 8).all fun b =>
    p.2 / 2 ^ b % 2 == 0 || (bitWinner s det ws p.1 b == some x.tid &&
      (ws.filter fun y => y.tid == x.tid && y.w.maskAt p.1 / 2 ^ b % 2 == 1).getLast? == some x)

/-! ## One collision set -/

/-- What a set does: the bits of each byte that it writes and the byte that holds them, and the results that land (R222,
R223). -/
structure Resolved where
  bytes : List (Nat × Byte × Byte)
  results : List (Nat × Nat × Word)
  deriving DecidableEq, Repr

def setKeys (ws : List Writer) : List Nat := (ws.flatMap fun x => x.w.foot.map (·.1)).eraseDups

/-- The bits of a byte that a set writes. -/
def setMask (ws : List Writer) (k : Nat) : Byte := BitVec.ofNat 8 (ws.foldl (fun m x => m ||| x.w.maskAt k) 0)

def boolWord (b : Bool) : Word := if b then 1 else 0

/-- The word a write's bytes hold. -/
def baseWord (baseOf : Nat → Byte) (w : Write) : Word := BitVec.ofNat 32 (littleEndian (w.acc.keys.map baseOf))

/-- The result of one writer of a set: `before` are the writers before it. -/
def writerResult (s : State) (det : Bool) (baseOf : Nat → Byte) (ws before : List Writer) (x : Writer) :
    Option (Nat × Nat × Word) :=
  match x.w.kind with
  | .st => none
  | .fwr seq =>
    let base := baseWord baseOf x.w
    let v := if isCombining x.w.rule && !before.isEmpty then combine x.w.rule x.w.t base (before.map fun y => BitVec.ofNat 32 y.w.value)
      else base
    some (x.tid, seq, v)
  | .cwr _ _ seq =>
    some (x.tid, seq, boolWord (if isCombining x.w.rule then true else winsAll s det ws x))

/-- The results of the writers, in order. -/
def setResults (s : State) (det : Bool) (baseOf : Nat → Byte) (ws : List Writer) : List Writer → List Writer →
    List (Nat × Nat × Word)
  | _, [] => []
  | before, x :: xs =>
    (writerResult s det baseOf ws before x).toList ++ setResults s det baseOf ws (before ++ [x]) xs

/-- A set that does not fault, resolved against its base value (R216-R219).  `baseOf` reads a byte. -/
def resolveSet (s : State) (det : Bool) (baseOf : Nat → Byte) (ws : List Writer) : Resolved :=
  match ws with
  | [] => ⟨[], []⟩
  | x :: _ =>
    let results := setResults s det baseOf ws [] ws
    if isCombining x.w.rule then
      let v := combine x.w.rule x.w.t (baseWord baseOf x.w) (ws.map fun y => BitVec.ofNat 32 y.w.value)
      ⟨(x.w.acc.keys.zip (bytesOf 4 v.toNat)).map fun (p : Nat × Byte) => (p.1, 0xFF, p.2), results⟩
    else ⟨(setKeys ws).map fun k => (k, setMask ws k, replaceByte s det ws k (baseOf k)), results⟩

/-! ## Conditional writers (R223) -/

/-- Whether a writer writes: a `cwr` does when its comparison with the base value holds. -/
def isWriter (baseOf : Nat → Byte) (x : Writer) : Bool :=
  match x.w.kind with
  | .cwr cmp c _ => cmpWord cmp x.w.t (baseWord baseOf x.w) c
  | _ => true

/-- The predicates of the conditional writes that fail. -/
def failedResults (ws : List Writer) : List (Nat × Nat × Word) :=
  ws.filterMap fun x => match x.w.kind with
    | .cwr _ _ seq => some (x.tid, seq, 0)
    | _ => none

/-! ## The collision record (R226-R228) -/

/-- The lowest byte address of a footprint. -/
def Write.low (w : Write) : Nat := w.acc.va + w.sh / 8

/-- The element's bits, zero-extended. -/
def Write.bits (w : Write) : Nat := w.value / 2 ^ w.sh

/-- The order of cells in a record: the scratchpad before global addresses. -/
def cellOrder (ws : List Writer) : Nat :=
  (ws.map fun x => (if x.w.acc.sp then 0 else 2 ^ 60) + x.w.low).foldl min (2 ^ 61)

def lowestSet : List (List Writer) → Option (List Writer)
  | [] => none
  | c :: cs =>
    match lowestSet cs with
    | none => some c
    | some d => some (if cellOrder c ≤ cellOrder d then c else d)

/-- The record for a cell's writers (R227); `dstep` is that before the boundary.  With no writer listed, t and rules are 0 (log
entry 100). -/
def collisionRecord (ws : List Writer) (reason ncell : Nat) (dstep pcw : Word) : BitVec 1024 :=
  let entries := (List.range 8).map fun i =>
    match ws[i]? with
    | some y => (512 + 64 * i, 64, y.w.bits * 2 ^ 32 + y.rank.toNat)
    | none => (512 + 64 * i, 64, 2 ^ 64 - 1)
  let first := match ws with
    | [] => []
    | x :: _ => [(0, 57, x.w.low), (63, 1, x.w.acc.sp.toNat), (76, 4, x.w.t.code.toNat)]
  let rules := (ws.map fun y => y.w.rule).eraseDups.foldl (fun n r => n + 2 ^ r) 0
  BitVec.ofNat 1024 (pack (first ++ [(80, 8, rules), (88, 8, reason), (96, 32, ws.length), (128, 32, dstep.toNat),
    (160, 32, pcw.toNat), (192, 32, ncell)] ++ entries))

/-- The record of a cell of R228: `cell` are the writes that make the cell, whose lowest byte address is its address (R226), and
`ws` its writers. -/
def cellRecord (cell ws : List Writer) (reason ncell : Nat) (dstep pcw : Word) : BitVec 1024 :=
  let at_ : BitVec 64 := BitVec.ofNat 64 (pack [(0, 57, cellOrder cell), (63, 1, (cell.any fun y => y.w.acc.sp).toNat)])
  ((collisionRecord ws reason ncell dstep pcw).extractLsb' 64 960 : BitVec 960) ++ at_

/-- The trap of a withheld commit, filled from its record (R389). -/
def withheldTrap (cause : Cause) (reason : Nat) (rec : BitVec 1024) : Trap where
  cause := cause
  sub := reason
  faddr := rec.toNat % 2 ^ 64
  fpc := some (BitVec.ofNat 32 (rec.toNat / 2 ^ 160))
  rank := some (BitVec.ofNat 32 (rec.toNat / 2 ^ 512))
  record := rec

/-- The trap of the faulting sets of an event, if there are any (R221, R226). -/
def collisionTrap (sets : List (List Writer)) (dstep : Word) : Option Trap :=
  let bad := sets.filter fun c => setReason c != 0
  match lowestSet bad with
  | none => none
  | some c =>
    let pcw := match c with | x :: _ => x.w.pc | [] => 0
    let reason := setReason c
    some (withheldTrap .collision reason (collisionRecord c reason bad.length dstep pcw))

end Sys2Proof.Machine
end

