-- ==== Sys2Proof/Machine/Commit.lean ====
section
/-!
DEFINITION. The boundary of a domain: when it is due (R18), its commit event in the order of R432, the landing of
deferred results and the counters (R19), and the release of its threads (R24, R27, R43, R276).
-/
namespace Sys2Proof.Machine

/-! ## When a boundary is due (R18) -/

/-- Whether a thread counts as arrived: it has arrived, or it passes the boundary as a null step (R27). -/
def Thread.arrived (t : Thread) : Bool :=
  t.arr.isSome || match t.st with
    | .join .. | .waitv _ | .acquire => true
    | _ => false

def Group.liveTids (x : Group) (d : Nat) : List Nat :=
  (x.domTids d).filter fun i => match x.threads[i]? with | some t => t.live | none => false

/-- Every live thread has arrived, one of them properly, and no early result is outstanding (R18). -/
def boundaryDue (x : Group) (d : Nat) : Bool :=
  let ts := (x.liveTids d).filterMap fun i => x.threads[i]?
  (x.st == .running || x.flushes && (x.dom d).prep.isSome) && (x.dom d).phase == .run && ts.all Thread.arrived && ts.any (fun t => t.arr.isSome) &&
    ts.all fun t => t.defs.all fun e => !e.src.early

/-- The threads of a domain in ascending `%rank`; the rank wraps modulo 2^32 (R382). -/
def State.byRank (s : State) (x : Group) (d : Nat) : List Nat :=
  let tids := x.domTids d
  let base := s.rank x 0
  tids.filter (fun i => s.rank x i < base) ++ tids.filter fun i => !(s.rank x i < base)

/-- What the threads of a domain have asked for, in ascending (rank, program order). -/
def State.effects (s : State) (x : Group) (d : Nat) : List (Nat × Fx) :=
  (s.byRank x d).flatMap fun i => match x.threads[i]? with
    | some t => t.fx.map fun f => (i, f)
    | none => []

def State.writers (s : State) (x : Group) (d : Nat) : List Writer :=
  (s.effects x d).filterMap fun p => match p.2 with
    | .write w => some { tid := p.1, rank := s.rank x p.1, w := w }
    | _ => none

/-! ## The prepare phase (R258, R259) -/

/-- The resolution site of a write (R259). -/
def Write.site (w : Write) : Site :=
  match w.acc.keys with
  | [] => .direct
  | k :: _ =>
    if w.acc.sp || isPeerKey k || w.system || w.memside then .direct
    else if isCombining w.rule || w.kind != .st then .gaffer (homeQuad k)
    else .direct

/-- The cells that an event sends, each once to each site: 8-byte regions (R256, R258). -/
def prepCells (ws : List Writer) : List Cell :=
  ws.foldl (fun cs x =>
    x.w.foot.foldl (fun cs p =>
      if cs.any fun c => c.key == p.1 / 8 && c.site == x.w.site then cs
      else cs ++ [{ key := p.1 / 8, site := x.w.site, st := .pending }]) cs) []

def Domain.acked (k : Domain) (cells : List Cell) : Bool :=
  match k.prep with
  | some cs => cs.all fun c => c.st == .acked
  | none => cells.isEmpty

/-- Whether another event in its prepare phase goes before one of order `no`: an event that has sent no cell is last
(R259, log entry 94). -/
def Domain.precedes (k : Domain) (no : Option Nat) : Bool :=
  match k.prepNo, no with
  | some n, some m => decide (n < m)
  | some _, none => true
  | none, _ => false

/-- Whether an event that goes before that of a domain holds a cell that a test accepts, and has not exposed it. -/
def State.earlierHolds (s : State) (g d : Nat) (no : Option Nat) (p : Cell → Bool) : Bool :=
  s.groups.any fun y => (List.range y.2.doms.length).any fun e =>
    !(y.1 == g && e == d) && (y.2.dom e).precedes no && match (y.2.dom e).prep with
      | some cs => cs.any p
      | none => false

/-- The cells that an AtomicOp of a domain's coming event touches. -/
def State.atomCells (s : State) (x : Group) (d : Nat) : List Nat :=
  (s.effects x d).flatMap fun p => match p.2 with
    | .satom a => a.acc.keys.map (· / 8)
    | _ => []

/-- Whether an event waits for one that goes before it: a site applies the cells of both in the order of their prepares
(R259), and an AtomicOp that meets a prepared cell waits for it (R258). -/
def State.mustWait (s : State) (g d : Nat) (x : Group) : Bool :=
  let k := x.dom d
  let mine := (k.prep.getD []).map (·.key)
  let atoms := s.atomCells x d
  s.earlierHolds g d k.prepNo fun c => mine.contains c.key || (c.st == .acked && atoms.contains c.key)

/-- Whether an event computes from a poisoned line of this module: the base of a combining rule, a fetching write or a
comparison (R259, R418). -/
def State.poisonedBase (s : State) (ws : List Writer) : Bool :=
  ws.any fun y => !y.w.peer && (isCombining y.w.rule || y.w.kind != .st) && s.poisoned y.w.acc.keys

/-! ## Withheld commits (R221, R228, R257, R384, R393) -/

/-- The writers whose cells a deterministic launch marks (R384). -/
def marking (w : Write) : Bool := isCombining w.rule || w.rule == 7 || w.kind != .st

/-- The cells, 8-byte regions, that a write touches (R256). -/
def Write.cellKeys (w : Write) : List Nat := (w.foot.map fun p => p.1 / 8).eraseDups

/-- The cells a deterministic event marks. -/
def markKeys (ws : List Writer) (atoms : List Satom) : List Nat :=
  let ofWrites : List Nat := (ws.filter fun x => marking x.w).flatMap fun x => x.w.cellKeys
  let ofAtoms : List Nat := atoms.flatMap fun a => a.acc.keys.map (· / 8)
  (ofWrites ++ ofAtoms).eraseDups

def markedElsewhere (l : Launch) (grp : Nat) (k : Nat) : Bool :=
  match l.marks.find? k with
  | some g => g != grp
  | none => false

/-- The writers of an event that a test accepts, those of `satom` among them, in ascending (rank, program order); a write that
its thread has replaced is none (R216). -/
def eventWriters (eff : List (Nat × Fx)) (rankOf : Nat → Word) (ok : Writer → Bool) : List Writer :=
  let own := standing (eff.filterMap fun p => match p.2 with
    | .write w => if ok ⟨p.1, rankOf p.1, w⟩ then some ⟨p.1, rankOf p.1, w⟩ else none
    | _ => none)
  eff.filterMap fun p => match p.2 with
    | .write w => if own.contains ⟨p.1, rankOf p.1, w⟩ then some ⟨p.1, rankOf p.1, w⟩ else none
    | .satom a => if ok (a.asWriter p.1 (rankOf p.1)) then some (a.asWriter p.1 (rankOf p.1)) else none
    | _ => none

/-- The marked cells that an event resolves under a marking rule or by a `satom`, or compares with by a `cwr` that does not
write, each with its writers (R228, R384). -/
def markedCells (l : Launch) (x : Group) (ws failed : List Writer) : List (List Writer × List Writer) :=
  let hits (y : Writer) : Bool := y.w.cellKeys.any (markedElsewhere l x.grp)
  let compared := failed.filter hits
  let sets := ((collisionSets ws).map (inOrderOf ws)).filter fun c =>
    c.any fun y => (hits y && marking y.w) || compared.any fun z => z.w.meets y.w
  let alone := compared.filter fun z => !ws.any fun y => z.w.meets y.w
  (sets.map fun c => (c, c)) ++ ((collisionSets alone).map (inOrderOf alone)).map fun c => (c, [])

/-- The determinism fault of an event (R384, R228): a cell that it resolves has been resolved by another group.  Where the event
has no writer there, only a `cwr` that does not write, the record's offset is that instruction's (log entry 100). -/
def detTrap (l : Launch) (x : Group) (ws failed : List Writer) (dstep : Word) : Option Trap :=
  let cells := markedCells l x ws failed
  match lowestSet (cells.map (·.1)) with
  | none => none
  | some c =>
    let own := ((cells.find? fun p => p.1 == c).map (·.2)).getD []
    let pcw := match own ++ c with | y :: _ => y.w.pc | [] => 0
    some (withheldTrap .determinism 6 (cellRecord c own 6 cells.length dstep pcw))

/-- The overflow-region fault of an event (R228, R257): the record lists the collision set of the write that found no
room, among the event's writers `ws` up to it, and counts the cells that the step holds; a `cwr` whose comparison fails is no
writer of its cell (R223). -/
def overflowTrap (l : Launch) (x : Group) (k : Domain) (ws : Nat → List Writer) (cells : Nat) (dstep : Word)
    (rankOf : Nat → Word) : Option Trap :=
  match k.lost with
  | none => none
  | some (tid, w) =>
    if (x.doms.map (·.spilled)).sum * 16 ≤ l.ovsz * 1024 then none
    else
      let me : Writer := { tid, rank := rankOf tid, w }
      let sofar := ws w.order
      let set := (((collisionSets sofar).find? fun c => c.any fun y => y.w.meets w).map (inOrderOf sofar)).getD []
      some (withheldTrap .overflow 5 (cellRecord (if set.isEmpty then [me] else set) set 5 cells dstep w.pc))

/-- The first reason for which an event is withheld. -/
def withheld (s : State) (x : Group) (d : Nat) : Option Trap :=
  let l := s.launchOf x
  let k := x.dom d
  let eff := s.effects x d
  let all := s.writers x d
  let ws := all.filter (isWriter s.readByte)
  let own := standing ws
  let sets := (collisionSets own).map (inOrderOf own)
  let upTo (n : Nat) : List Writer := eventWriters eff (s.rank x) fun y => isWriter s.readByte y && decide (y.w.order ≤ n)
  let writing := eventWriters eff (s.rank x) (isWriter s.readByte)
  let failed := all.filter fun y => !isWriter s.readByte y
  let cells := (collisionSets (all ++ writing.filter fun y => !all.contains y)).length
  let spawns := eff.filterMap fun p => match p.2 with | .spawn _ _ _ _ pc => some (p.1, pc) | _ => none
  let dstep := match (x.liveTids d).head?.bind fun i => x.threads[i]? with | some t => t.dstep | none => 0
  match collisionTrap sets dstep with
  | some t => some t
  | none =>
    match overflowTrap l x k upTo cells dstep (s.rank x) with
    | some t => some t
    | none =>
      match if l.r.det then detTrap l x writing failed dstep else none with
      | some t => some t
      | none =>
        match spawns with
        | [] => none
        | (tid, pc) :: _ =>
          if s.spawnRoom x spawns.length then none
          else some { cause := .spawnOverflow, fpc := some pc, rank := some (s.rank x tid) }

/-! ## The commit event, in the order of R432 -/

/-- The opcode of a write, for the record of a fault at a peer (R277, R414). -/
def Write.op (w : Write) : Nat :=
  match w.kind with
  | .st => 0x61
  | .fwr _ => 0x62
  | .cwr .. => 0x63

/-- Writers resolved set by set against what the bytes hold now, with the results of those that do not write. -/
def State.resolveWrites (s : State) (det : Bool) (ws : List Writer) : Resolved :=
  let (ok, failed) := ws.partition (isWriter s.readByte)
  let rs := ((collisionSets ok).map (inOrderOf ok)).map (resolveSet s det s.readByte)
  ⟨rs.flatMap (·.bytes), rs.flatMap (·.results) ++ failedResults failed⟩

/-- Bits of bytes of this module are written: the mask of each byte, and the byte that holds them.  They replace what an engine has
put there, whether or not its counter has flipped; R13 leaves that open (log entry 10). -/
def State.writeBits (s : State) (bytes : List (Nat × Byte × Byte)) : State :=
  bytes.foldl (fun s p => s.writeByte p.1 ((s.mem.read p.1 &&& ~~~p.2.1) ||| (p.2.2 &&& p.2.1))) s

/-- The collision sets of an event that reach a PEER page, and the writers of the others. -/
def peerSets (ws : List Writer) : List (List Writer) × List Writer :=
  let sets := ((collisionSets ws).map (inOrderOf ws)).filter fun c => c.any fun y => y.w.peer
  (sets, ws.filter fun y => !sets.any fun c => c.contains y)

/-- The writers of an event resolved set by set; the bytes of a set that lie on PEER pages pass to the fabric with its result,
resolved against the base that is held at the peer, an open value (R33, R225). -/
def State.applyWrites (s : State) (g d : Nat) (x : Group) : State :=
  let det := (s.launchOf x).r.det
  let (peer, here) := peerSets (s.writers x d)
  let mine := s.resolveWrites det here
  let s' := s.writeBits mine.bytes
  let s' := mine.results.foldl (fun s r => s.result ⟨g, r.1⟩ r.2.1 (.vals [r.2.2])) s'
  peer.foldl (fun s' c =>
    match c with
    | [] => s'
    | y :: _ =>
      let r := s.resolveWrites det c
      let s' := s'.writeBits (r.bytes.filter fun p => !isPeerKey p.1)
      let s' := r.results.foldl (fun s p => s.result ⟨g, p.1⟩ p.2.1 .engine) s'
      let l := r.bytes.filter fun p => isPeerKey p.1
      s'.passRemote { grp := g, launch := x.launch, kind := .commit l (r.results.map fun p => (⟨g, p.1⟩, p.2.1, p.2.2)),
                      acc := y.w.acc, op := y.w.op, pc := y.w.pc, rank := y.rank }) s'

/-- Cells marked by a deterministic launch (R384). -/
def State.markCells (s : State) (x : Group) (keys : List Nat) : State :=
  if (s.launchOf x).r.det then
    s.modLaunch x.launch fun l =>
      { l with marks := keys.foldl (fun m k => if (m.find? k).isSome then m else m.put k x.grp) l.marks }
  else s

/-- Items 2 and 3 of R432: `lcset` of the lowest-ranked thread for each counter (R271), then binds and frees. -/
def State.applyCounters (s : State) (g : Nat) (eff : List (Nat × Fx)) : State :=
  let first (c : Nat) : Option Nat := (eff.find? fun p => match p.2 with | .lcset c' _ => c' == c | _ => false).map (·.1)
  let s := eff.foldl (fun s p => match p.2 with
    | .lcset c op => if first c = some p.1 then s.setCtr g c op else s
    | _ => s) s
  eff.foldl (fun s p => match p.2 with
    | .rbind r desc => s.bindRing g r desc
    | .rfree r => s.freeRing g r
    | _ => s) s

/-- Item 4: each ring named by a release gives back one slot; then acquisitions, here and in the group's other domains
(R280). -/
def State.applyRings (s : State) (g d : Nat) (x : Group) (eff : List (Nat × Fx)) : State :=
  let rels := (eff.filterMap fun p => match p.2 with | .rrel r => some r | _ => none).eraseDups
  let s := rels.foldl (fun s r => s.modRing g r Ring.release) s
  let doms := d :: (List.range x.doms.length).filter (· != d)
  (List.range 16).foldl (fun s r => doms.foldl (fun s e => s.acquireRing g e r (e == d)) s) s

def chanKey (coh ch : Nat) : Nat := coh * 16 + ch

/-- A posting enters a channel that has room (R331). -/
def State.post (s : State) (g tile coh ch : Nat) : State :=
  let k := chanKey coh ch
  s.modGroup g fun x => { x with posts := Table.set [] x.posts k (Table.get [] x.posts k ++ [tile]) }

/-- Postings of a domain that find room; the rest stay and hold its release (R331). -/
def State.postAll (s : State) (g : Nat) : List (Nat × Nat × Nat) → State × List (Nat × Nat × Nat)
  | [] => (s, [])
  | p :: rest =>
    match s.group? g with
    | none => (s, [])
    | some x =>
      if (Table.get [] x.posts (chanKey p.2.1 p.2.2)).length < 4 then (s.post g p.1 p.2.1 p.2.2).postAll g rest
      else
        let (s, l) := s.postAll g rest
        (s, p :: l)

/-- A take of a cohort: the oldest posting goes to the name (R331); whether there was one. -/
def State.take (s : State) (g coh name ch : Nat) : State × Bool :=
  match s.group? g with
  | none => (s, false)
  | some x =>
    match Table.get [] x.posts (chanKey coh ch) with
    | [] => (s, false)
    | t :: rest =>
      (s.modGroup g fun x => { x.setName coh name (.mapped t) with posts := Table.set [] x.posts (chanKey coh ch) rest }, true)

/-- The takes that a group's threads wait on, once each: cohort, instance, name and channel. -/
def Group.waitingTakes (x : Group) : List (Nat × Nat × Nat × Nat) :=
  ((List.range x.threads.length).flatMap fun i => match x.threads[i]? with
    | some t => t.takes.map fun p => (i / 64, p)
    | none => []).eraseDups

/-- A take that waits is tried again: one posting ends the take of one instance (R331, R368). -/
def State.retryTake (s : State) (g : Nat) (c : Nat × Nat × Nat × Nat) : State :=
  let (s, ok) := s.take g c.1 c.2.2.1 c.2.2.2
  if ok then
    s.modGroup g fun x =>
      { x with threads := (List.range x.threads.length).zip x.threads |>.map fun p =>
          if p.1 / 64 = c.1 then { p.2 with takes := p.2.takes.filter (· != c.2) } else p.2 }
  else s

/-- Item 5: postings, then takes; the name of a take that waits is a released one (R331, R368). -/
def State.applyTiles (s : State) (g d : Nat) (insts : List Inst) : State :=
  let gives := insts.filterMap fun i => match i.act with | .tgive t c ch => some (t, c, ch) | _ => none
  let (s, rest) := s.postAll g gives
  let s := s.modDom g d fun k => { k with posts := rest }
  let s := match s.group? g with
    | some x => x.waitingTakes.foldl (fun s c => s.retryTake g c) s
    | none => s
  insts.foldl (fun s i => match i.act with
    | .ttake n ch =>
      let (s, ok) := s.take g i.coh n ch
      if ok then s
      else i.takers.foldl (fun s p => s.modThread p.1 fun t => { t with takes := t.takes ++ [(i.seq, n, ch)] })
        (s.modGroup g fun x => x.setName i.coh n .released)
    | _ => s) s

/-- One element write of `tset` (R355). -/
def TileData.write (t : TileData) (raw : Bool) (e : Nat × Nat × Word) : TileData :=
  let s := t.scaleAt e.1 e.2.1
  let code := if raw then e.2.2.toNat % 2 ^ elemBits t.fmt
    else if scaledFmt t.fmt then
      if s = 255 then 0 else (elemEncode t.fmt ((numF32 e.2.2).scale (127 - (s : Int)))).1
    else (elemEncode t.fmt (numF32 e.2.2)).1
  { t with codes := Table.set 0 t.codes (e.1 * 32 + e.2.1) code }

/-- The instances of an event in the order in which they take effect (R305, R329). -/
def sortInsts (l : List Inst) : List Inst :=
  l.foldl (fun acc i =>
    let (lo, hi) := acc.partition fun j => j.rank < i.rank || (j.rank == i.rank && decide (j.order < i.order))
    lo ++ i :: hi) []

/-- Item 6 and the `tset`s of the event: stream instances, then element writes, then the samples of `sstat` (R305,
R319, R355). -/
def State.applyStreams (s : State) (g d : Nat) (insts : List Inst) (eff : List (Nat × Fx)) : State :=
  let s := insts.foldl (fun s i => match i.act with
    | .stream k => s.applyStream g d i k
    | .tset t raw l => s.modTile t fun b => { b with data := l.foldl (fun a e => a.write raw e) b.data }
    | _ => s) s
  match s.group? g with
  | none => s
  | some x => eff.foldl (fun s p => match p.2 with
    | .sstat n q => s.result ⟨g, p.1⟩ q (.vals [s.sstat g x n])
    | _ => s) s

/-- The copy requests of an event, of threads and of instances, in ascending (rank, program order) (R432). -/
def sortCopies (insts : List Inst) (eff : List (Nat × Fx)) : List Copy :=
  let own := eff.filterMap fun p => match p.2 with | .copy c => some c | _ => none
  let ofInsts := insts.filterMap fun i => match i.act with
    | .copy c => some { c with rank := i.rank, order := i.order }
    | _ => none
  (own ++ ofInsts).foldl (fun acc c =>
    let (lo, hi) := acc.partition fun b => b.rank < c.rank || (b.rank == c.rank && decide (b.order < c.order))
    lo ++ c :: hi) []

/-- Item 7: requests pass to their engines, which read for them once the step is released (R40, R273, R329, R358, R393, R394,
R409). -/
def State.applyRequests (s : State) (g d : Nat) (insts : List Inst) (eff : List (Nat × Fx)) : State :=
  let s := (sortCopies insts eff).foldl (fun s c => s.passCopy { c with by_ := some d }) s
  let s := insts.foldl (fun s i => match i.act with
    | .record r => s.passRecord i.seq { r with rank := i.rank, takers := i.takers, by_ := some d }
    | .array a => ({ s with arrays := s.arrays.put s.fresh { a with rank := i.rank } }).bump
    | .collective c => s.passCollective { c with by_ := some d }
    | _ => s) s
  eff.foldl (fun s p => match p.2 with
    | .remote r => s.passRemote r
    | .launch a q c => s.passLaunch g d a q c
    | .spawn e n v0 v1 _ => match s.group? g with
      | some x => s.passSpawn x (g, d) e n v0 v1
      | none => s
    | _ => s) s

/-- Whether a spawn record may be given to a core: the step that passed it has been released (R39). -/
def Spawn.offered (p : Spawn) : Bool := p.by_.isNone

/-- The spawn records that a core may take: the top of its own deque, the bottoms of the others of its die, and the head of
the spill queue (R383). -/
def State.offers (s : State) (core : Nat) : List Spawn :=
  let d := dieOf core
  ((s.core core).deque.filter Spawn.offered).getLast?.toList ++
    ((s.cores.filter fun p => p.1 != core && dieOf p.1 == d).flatMap fun p => (p.2.deque.filter Spawn.offered).head?.toList) ++
    ((Table.get [] s.spill d).filter Spawn.offered).head?.toList

/-- Whether a core's die holds a candidate for it of a class or a more urgent one (R383, R395). -/
def State.hasCandidate (s : State) (core prio : Nat) : Bool :=
  let d := dieOf core
  let cls (l : Nat) : Nat := match s.launch? l with | some l => l.r.prio | none => 4
  let saved := (Table.get [] s.savedQ d).any fun g => match s.group? g with
    | some x => decide (x.prio ≤ prio) && x.st != .running
    | none => false
  saved || (Table.get [] s.dieQ d).any (fun w => decide (cls w.launch ≤ prio)) ||
    (s.offers core).any fun w => decide (cls w.launch ≤ prio)

/-- The value of the lowest rank: the last that its thread gave. -/
def lowestLast : List (Nat × α) → Option α
  | [] => none
  | (tid, v) :: rest => some (((rest.filter fun p => p.1 == tid).getLast?.map (·.2)).getD v)

/-- The class of a group after some effects of an event: that of the lowest rank's last `prio` among them (R395). -/
def prioAfter (x : Group) (eff : List (Nat × Fx)) : Nat :=
  (lowestLast (eff.filterMap fun p => match p.2 with | .prio q => some (p.1, q) | _ => none)).getD x.prio

/-- Whether an effect enters a spawn record (R393). -/
def Fx.isSpawn : Fx → Bool
  | .spawn .. => true
  | _ => false

/-- Whether a `yield` of an event finds a candidate: each sees the class that the effects before it leave, and the spawn records
that they have entered (R392, R393, R395). -/
def State.yields (s : State) (x : Group) (eff : List (Nat × Fx)) : Bool :=
  (List.range eff.length).any fun k => (match eff[k]? with | some (_, .yield) => true | _ => false) &&
    let prio := prioAfter x (eff.take k)
    s.hasCandidate x.core prio || ((eff.take k).any (·.2.isSpawn) && decide ((s.launchOf x).r.prio ≤ prio))

/-- The settings of the group that an event changes: continuation, roles, class, `yield` (R150, R395).  The lowest rank's
values apply.  In a lane-scope group a setting takes effect at the commit of the issuing thread's own domain (log entry 101). -/
def State.applySettings (s : State) (g : Nat) (x : Group) (eff : List (Nat × Fx)) : State :=
  let s := match lowestLast (eff.filterMap fun p => match p.2 with | .contv e f => some (p.1, e, f) | _ => none) with
    | some (e, f) => s.modGroup g fun x => { x with contv := if e = 0 then none else some (e, f) }
    | none => s
  let s := (List.range x.ncoh).foldl (fun s c =>
    match lowestLast (eff.filterMap fun p => match p.2 with
      | .role r => if p.1 / 64 = c then some (p.1, r) else none
      | _ => none) with
    | some r => s.modGroup g fun x => { x with roles := x.roles.set c r }
    | none => s) s
  let s := s.modGroup g fun y => { y with prio := prioAfter x eff }
  if s.yields x eff then s.modGroup g fun x => { x with save := some 3 } else s

/-- Whether an effect is a work request (R433). -/
def Fx.isWork : Fx → Bool
  | .copy _ | .satom _ | .svc .. | .remote _ | .launch .. | .spawn .. => true
  | _ => false

def InstAct.isWork : InstAct → Bool
  | .stream (.sopen ..) | .stream (.sclose _) => false
  | .stream _ | .copy _ | .record _ | .array _ | .tset .. | .collective _ => true
  | _ => false

/-- The fills that the domain's step issued are no longer those of an uncommitted step (R431). -/
def State.endFills (s : State) (g d : Nat) : State :=
  { s with tiles := s.tiles.map fun (p : Nat × Tile) =>
      if p.2.grp = g ∧ p.2.fillDom = some d then (p.1, { p.2 with fillDom := none, fillBy := none }) else p }

/-- An AtomicOp is performed: what it found, or `none` where it completes with an error status and changes nothing, as it
does on a poisoned line (R265, R418). -/
def State.performAtom (s : State) (a : Satom) (err : Bool) : State × Option Word :=
  if err || s.poisoned a.acc.keys then (s, none)
  else
    let old : Word := BitVec.ofNat 32 (s.readNat a.acc.keys)
    (s.writeBytes a.acc.keys (bytesOf 4 (atomicResult a.fn old a.x a.y).toNat), some old)

/-- The AtomicOps of an event from the `i`-th on, in order. -/
def State.performAtoms (s : State) (errs : List Nat) : Nat → List (TRef × Satom) → State × List (TRef × Satom × Option Word)
  | _, [] => (s, [])
  | i, (r, a) :: rest =>
    let (s, old) := s.performAtom a (errs.contains i)
    let (s, l) := s.performAtoms errs (i + 1) rest
    (s, (r, a, old) :: l)

/-- The commit event of a domain (R19, R432): writes and AtomicOps apply in one step (R30, R265).  AtomicOps whose results
have not returned, service requests and postings that wait hold the release.  A `cwr` whose comparison fails writes nothing,
and so commits no cell (R223, log entry 85). -/
def State.commit (s : State) (g d : Nat) : State :=
  match s.group? g with
  | none => s
  | some x =>
    let eff := s.effects x d
    let insts := sortInsts (x.dom d).insts
    let atoms := eff.filterMap fun p => match p.2 with | .satom a => some ((⟨g, p.1⟩ : TRef), a) | _ => none
    let svcs := eff.filterMap fun p => match p.2 with | .svc off num => some (off, num) | _ => none
    let wrote := (s.writers x d).filter (isWriter s.readByte)
    let cells := !wrote.isEmpty
    let global := wrote.any fun y => !y.w.acc.sp
    let work := eff.any (fun p => p.2.isWork) || insts.any fun i => i.act.isWork
    let proper := (x.domTids d).filter fun i => match x.threads[i]? with | some t => t.arr.isSome | none => false
    let marks := markKeys (s.writers x d) (atoms.map (·.2))
    let keys := (wrote.flatMap fun y => y.w.foot.map (·.1)) ++ atoms.flatMap fun a => a.2.acc.keys
    let s := s.applyWrites g d x
    let (s, done) := s.performAtoms (x.dom d).atomErrs 0 atoms
    let s := s.noteWrites keys
    let s := s.markCells x marks
    let s := s.applyCounters g eff
    let s := s.applyRings g d x eff
    let s := s.applyTiles g d insts
    let s := s.applyStreams g d insts eff
    let s := s.applyRequests g d insts eff
    let s := s.applySettings g x eff
    let (s, rest) := s.passSvcs g (quadOf x.core) svcs
    let s := (x.domTids d).foldl (fun s i => s.modThread ⟨g, i⟩ fun t => { t with fx := [] }) s
    let s := s.endFills g d
    let s := s.modDom g d fun k =>
      { k with phase := .committed, prep := none, prepNo := none, insts := [], satoms := done, atomErrs := [], svcs := rest
               proper := proper
               quiet := if cells || work then 0 else k.quiet + 1
               quietFrom := if cells || work || k.quiet == 0 then s.clk else k.quietFrom }
    (s.modGroup g fun x => { x with ext := if global || work then x.ext + 1 else x.ext }).gcTiles

/-! ## Landing (R19) -/

/-- A deferred value lands in its thread (R118, R214). -/
def Thread.land (t : Thread) (e : Deferred) : Thread :=
  match e.src with
  | .vals l =>
    match e.dst with
    | .none => t
    | .regs v n => t.setRegs v (l.take n)
    | .half v hi =>
      let h : Half := (l.headD 0).setWidth 16
      let old := t.reg v
      t.setReg v (if hi then h ++ (old.setWidth 16 : BitVec 16) else (old.extractLsb' 16 16 : BitVec 16) ++ h)
    | .pred p => t.setPred p (l.headD 0 != 0)
  | _ => t

/-- What stays of a step's deferred results once the others have landed: the acquisitions that wait and, behind the first of them,
the values that went to registers, which land after it again, so that of two results for one register the later in program
order remains (R118, R280). -/
def stillDeferred (l : List Deferred) : List Deferred :=
  (l.dropWhile fun e => !e.src.acquires).filter fun e => e.src.acquires || (e.src.returned && e.dst.isRegister)

/-- Every returned value lands in program order; acquisitions that wait stay. -/
def Thread.landAll (t : Thread) : Thread :=
  { t.defs.foldl Thread.land t with defs := stillDeferred t.defs }

/-- What holds a committed domain: results, those of threads that exit too (R18, R116), AtomicOps, service requests, and what it
awaits of engines and takers (R155, R265, R331, R340, R347). -/
def State.held (s : State) (g d : Nat) (x : Group) : Bool :=
  let k := x.dom d
  let ts := (x.domTids d).filterMap fun i => x.threads[i]?
  !k.satoms.isEmpty || !k.svcs.isEmpty || ts.any (fun t => t.live && t.defs.any fun e => e.src == .commit) ||
    s.awaitsEngines g d x

/-- A thread at the completion of its domain's boundary, before the release: results land, the counters advance
(R19, R26), an `exit` is final (R21). -/
def Thread.complete (t : Thread) : Thread :=
  let isExit := match t.arr with | some a => a.isExit | none => false
  if !t.live then t
  else if isExit then
    { t with st := .exited, arr := none, defs := [], fall := none, reconv := none, takes := [], late := false,
             dstep := t.dstep + 1, xstep := t.xstep + 1 }
  else
    let u := t.landAll
    { u with dstep := t.dstep + 1, xstep := if t.arr.isSome then t.xstep + 1 else t.xstep }

/-- The widest scope named at a boundary, and whether `.sc` was (R24). -/
def widest (ts : List Thread) : Nat × Bool :=
  ts.foldl (fun w t => match t.arr with
    | some a => (max w.1 a.scope, w.2 || a.sc)
    | none => w) (0, false)

/-- Whether a scope reaches past the domain (R22). -/
def isWide (lane : Bool) (scope : Nat) : Bool := decide (2 ≤ scope) || (scope == 1 && lane)

/-! ## Release -/

/-- A released thread goes on, or parks while its group is stream-paused (R311). -/
def Thread.goOn (t : Thread) (paused : Bool) : Thread := { t with st := if paused then .pause else .ready }

/-- The results of acquisitions that have all been met land (R18, R280). -/
def Thread.landMet (t : Thread) : Thread := if t.acquiring then t else t.landAll

/-- The thread after its release: it goes on, or parks in what it waits for (R18, R147, R280, R311). -/
def Thread.release (t : Thread) (paused : Bool) : Thread :=
  let u := { t.landMet with arr := none, late := t.acquiring || (t.late && paused) }
  match t.st with
  | .boundary =>
    match t.arr.bind Arrival.wait with
    | some w => { u with st := .waitv w }
    | none => if t.acquiring then { u with st := .acquire } else u.goOn paused
  | .acquire => if t.acquiring || paused then u else u.goOn false
  | _ => u

/-- Whether a stream operation of the group waits on a miss (R311). -/
def State.streamPaused (s : State) (g : Nat) : Bool :=
  s.misses.any fun m => match m.who with
    | .stream id => match s.sops.find? id with | some o => o.grp == g | none => false
    | _ => false

def State.releaseThreads (s : State) (g d : Nat) : State :=
  match s.group? g with
  | none => s
  | some x =>
    let p := s.streamPaused g
    (((x.domTids d).foldl (fun s i => s.modThread ⟨g, i⟩ (Thread.release · p)) s).modDom g d fun k =>
      { k with phase := .run, proper := [], cells := 0, spilled := 0, lost := none, paused := p }).releaseRecords g d

/-- Whether a group's frame in use waits for a page. -/
def Group.awaitsPage (x : Group) (asid page : Nat) : Bool :=
  match x.frame with
  | some fr => fr.awaits asid page
  | none => false

/-- Whether a domain stands between two boundaries, no event of it under way: its parked threads may go on (R18). -/
def Domain.between (k : Domain) : Bool := k.phase == .run && k.prep.isNone

/-- A parked `waitv` is evaluated, its address translated anew: the thread goes on when the comparison holds (R147).  It
stays parked while its domain's boundary is under way, while it waits on an acquisition of a boundary that has passed (R18,
R320) or on a prepared cell (R258), and where its address has no translation any more (log entry 86).  A miss redirects the
group or parks it, as a miss at issue does (R150, R151); one of the page that a frame in use awaits leaves the thread parked
(log entry 97). -/
def State.evalWait (s : State) (r : TRef) : State :=
  match s.group? r.grp, s.thread? r with
  | some x, some t =>
    match t.st with
    | .waitv w =>
      if !x.runs || !(x.dom (x.domOf r.tid)).between || t.late then s
      else match s.accessAt (s.aspace x) ⟨w.acc.sp, w.acc.va⟩ 4 1 .read with
        | .error (.miss asid va cause) => if x.awaitsPage asid (va / 2 ^ 16) then s else s.replay r asid va cause
        | .error .check => s.kill r.grp
        | .error _ => s
        | .ok (a, _) =>
          if a.keys.any s.prepared then s
          else if s.poisoned a.keys then s.kill r.grp
          else if cmpWord w.cmp w.t (BitVec.ofNat 32 (s.readNat a.keys)) w.b then
            s.modThread r (Thread.goOn · (x.dom (x.domOf r.tid)).paused)
          else s.modThread r fun t => { t with st := .waitv { w with unread := false } }
    | _ => s
  | _, _ => s

/-- The parked `waitv`s of a group that a condition accepts. -/
def State.evalWaits (s : State) (g : Nat) (p : WaitV → Bool) : State :=
  match s.group? g with
  | none => s
  | some x => (List.range x.threads.length).foldl (fun s i =>
      match x.threads[i]?.map Thread.st with
      | some (.waitv w) => if p w then s.evalWait ⟨g, i⟩ else s
      | _ => s) s

/-- The first reads that waited for prepared cells are performed (R147, R258). -/
def State.firstReads (s : State) : State := s.groups.foldl (fun s p => s.evalWaits p.1 WaitV.unread) s

/-! ### Joins (R27, R144) -/

/-- The join a thread waits at, its boundary passed and no acquisition awaited (R320): offset and set. -/
def Thread.joinAt (t : Thread) : Option (Word × Bool) :=
  match t.st, t.arr with
  | .join off grp, none => if t.late then none else some (off, grp)
  | _, _ => none

def lowestOff : List Word → Option Word
  | [] => none
  | w :: ws => match lowestOff ws with
    | none => some w
    | some v => some (if w.toNat ≤ v.toNat then w else v)

/-- The test of one set: once all its live threads wait at joins, those at the lowest of all these joins leave, and the
others stay parked (R27, R144).  Where the lowest join names the other kind of set, that set's own test releases it. -/
def joinTest (ts : List (Nat × Thread)) (grp : Bool) : List Nat :=
  let live := ts.filter fun p => p.2.live
  if live.all fun p => p.2.joinAt.isSome then
    match lowestOff (live.filterMap fun p => p.2.joinAt.map (·.1)) with
    | some o => (live.filter fun p => p.2.joinAt == some (o, grp)).map (·.1)
    | none => []
  else []

/-- The threads of a group in domains whose last boundary has been released, and which have none under way. -/
def Group.passedOnly (x : Group) (ts : List (Nat × Thread)) : Bool :=
  ts.all fun p => !p.2.live || (x.dom (x.domOf p.1)).between

/-- The joins of a group that the test releases: of its cohorts and of the group, where every thread of the set has been
released from its boundary. -/
def State.releaseJoins (s : State) (g : Nat) : State :=
  match s.group? g with
  | none => s
  | some x =>
    let all := (List.range x.threads.length).zip x.threads
    let test (ts : List (Nat × Thread)) (grp : Bool) : List Nat := if x.passedOnly ts then joinTest ts grp else []
    let cohs := (List.range x.ncoh).flatMap fun c => test (all.filter fun p => p.1 / 64 == c) false
    let out := cohs ++ test all true
    out.foldl (fun s i => s.modThread ⟨g, i⟩ (Thread.goOn · (x.dom (x.domOf i)).paused)) s

/-! ### Acquisitions that are met (R18, R280, R331) -/

/-- A thread whose acquisitions have all been met lands their results, and waits for them no longer once its group is not
stream-paused: one that was parked for them alone goes on (R320). -/
def Thread.wake (t : Thread) (paused : Bool) : Thread :=
  if t.acquiring || !t.late then t
  else if paused then t.landAll
  else
    let u := { t.landAll with late := false }
    if t.st = .acquire then u.goOn false else u

/-- The parked threads of a group whose domains stand between two boundaries are looked at; a thread at a join may have been the
last that the test of the join needed. -/
def State.wakeAcquires (s : State) (g : Nat) : State :=
  let p := s.streamPaused g
  (s.modGroup g fun x =>
    { x with threads := (List.range x.threads.length).zip x.threads |>.map fun q =>
        if (x.dom (x.domOf q.1)).between then q.2.wake p else q.2 }).releaseJoins g

/-- The threads parked on a ring are tested between boundaries (R280): the domains in turn, each taking one slot.  Those of a group
that is switched out are tested after its restore (R118). -/
def State.checkRing (s : State) (g r : Nat) : State :=
  match s.group? g with
  | none => s
  | some y =>
    if y.resident then ((List.range y.doms.length).foldl (fun s d => s.acquireRing g d r false) s).wakeAcquires g else s

/-! ### Exited cohorts give back their extended blocks (R121) -/

def State.freeBlocks (s : State) (g : Nat) : State :=
  match s.group? g with
  | none => s
  | some x =>
    if x.threads.all fun t => !t.live then s
    else s.modGroup g fun x =>
      { x with held := (List.range x.held.length).zip x.held |>.map fun p =>
          if (x.threads.drop (64 * p.1)).take 64 |>.all (fun t => !t.live) then 0 else p.2 }

/-- The fault frame is out of use once every redirected thread has resumed or exited; its fill may still come (R151).  One for which
no thread was ready to be redirected is in use until here (log entry 97). -/
def State.endFrame (s : State) (g : Nat) : State :=
  s.modGroup g fun x =>
    match x.frame with
    | none => x
    | some fr =>
      let left := fr.left.filter fun i => match x.threads[i]? with | some t => t.live | none => false
      let fr := { fr with left := left }
      if !left.isEmpty then { x with frame := some fr }
      else { x with frame := none, spent := if fr.ready || x.spent.contains fr then x.spent else x.spent ++ [fr] }

/-! ### What a group meets at the release of a boundary -/

/-- The traps that wait for a boundary: an engine fault, then a late delivery (R276, R400). -/
def State.boundaryTraps (s : State) (g : Nat) : State :=
  match s.group? g with
  | none => s
  | some x =>
    match x.engFault with
    | some rec => (s.modGroup g fun x => { x with engFault := none }).trap g [] (engineTrap rec)
    | none =>
      if x.lateTrap then (s.modGroup g fun x => { x with lateTrap := false }).trap g [] { cause := .timer, sub := 1 }
      else s

/-- The evaluations that follow a boundary completed by a domain of the group, the first reads of the `waitv`s that it releases
among them (R144, R147, R280, R331). -/
def State.afterBoundary (s : State) (g : Nat) : State :=
  (((s.wakeAcquires g).evalWaits g fun w => w.unread || decide (w.scope ≤ 1)).freeBlocks g).endFrame g

/-- The `%rank` of a thread as a number. -/
def State.rankOf (s : State) (r : TRef) : Nat :=
  match s.group? r.grp with
  | some x => (s.rank x r.tid).toNat
  | none => 0

/-- The candidate of `.el` that is elected among candidates (thread, cycle of arrival): the highest rank in deterministic
mode or without a candidate in the completing domain, else that domain's last arrival, of those of one cycle the highest
rank (R24). -/
def elect (s : State) (det : Bool) (last : List (TRef × DWord)) (all : List TRef) : Option TRef :=
  let top := all.foldl (fun (b : Option TRef) r => match b with
    | none => some r
    | some c => if s.rankOf c < s.rankOf r then some r else some c) none
  let later (a b : TRef × DWord) : Bool := decide (a.2 < b.2) || (a.2 == b.2 && decide (s.rankOf a.1 < s.rankOf b.1))
  if det || last.isEmpty then top
  else (last.foldl (fun (b : Option (TRef × DWord)) r => match b with
    | none => some r
    | some c => if later c r then some r else some c) none).map (·.1)

/-- The predicates of `.el` are written: true for the elected thread (R24, R145). -/
def State.writeElection (s : State) (cands : List TRef) (win : Option TRef) : State :=
  cands.foldl (fun s r => s.modThread r fun t => match t.arr.bind Arrival.el with
    | some p => t.setPred p (win == some r)
    | none => t) s

/-- The candidates of a domain: threads that arrived by `step.el`, with the cycle of their arrival. -/
def elCandidates (g : Nat) (x : Group) (d : Nat) : List (TRef × DWord) :=
  (x.domTids d).filterMap fun i => match x.threads[i]?.bind Thread.arr with
    | some a => if a.el.isSome then some (⟨g, i⟩, a.cycle) else none
    | none => none

/-- A domain waits, saved or to be saved, at a boundary that the barrier and its commit have done with; its cells and its
records are free (R39, R43, R256). -/
def State.stopDomain (s : State) (g d : Nat) : State :=
  (s.modDom g d fun k => { k with phase := .stopped, cells := 0, spilled := 0, lost := none }).releaseRecords g d

/-- Whether a boundary of a group stops its domain for a save or a lane test: not where a trap waits for the boundary, which
wins (R43, R391, R422), nor in a domain whose threads have all exited. -/
def Group.stopsAt (x : Group) (d : Nat) : Bool :=
  (x.save.isSome || x.testHold) && x.engFault.isNone && !x.lateTrap && !(x.liveTids d).isEmpty

/-- A boundary that reaches no wider than its domain releases it, unless a save or a lane test stops it there (R24, R43,
R422). -/
def State.releaseDomain (s : State) (g d : Nat) : State :=
  match s.group? g with
  | none => s
  | some x =>
    let c := elCandidates g x d
    let s := s.writeElection (c.map (·.1)) (elect s (s.launchOf x).r.det c (c.map (·.1)))
    if x.stopsAt d then (s.stopDomain g d).afterBoundary g
    else ((s.releaseThreads g d).afterBoundary g).boundaryTraps g

/-- A group that waits at a `.pod` step, a partner being unreachable, traps with the engine fault of cause 4, and its
launch ends with status 2 (R381). -/
def State.podTrap (s : State) (g : Nat) : State :=
  match s.group? g with
  | none => s
  | some x =>
    (s.modLaunch x.launch fun l =>
      { l with status := if l.status = 3 then 3 else 2, reason := if l.status = 0 then Cause.engine.code else l.reason }).trap
      g [] (engineTrap (copyRecord 0 0xFFFFFFFF 0 0 none 0x08 4))

/-- Whether a domain of the group waits at a `.pod` step. -/
def Group.atPod (x : Group) : Bool := x.doms.any fun k => match k.phase with
  | .wider n _ => n == 5
  | _ => false

/-- A group that stands on its core and waits at a `.pod` step traps if a partner is unreachable (R381). -/
def State.podCheck (s : State) (g : Nat) : State :=
  match s.group? g with
  | none => s
  | some x => if (s.launchOf x).podLost && x.spawn.isNone && (x.runs || x.fills) && x.atPod then s.podTrap g else s

/-- The second half of a boundary (R19 items 2 and 3, then the release or the wait at a wider step). -/
def State.landDomain (s : State) (g d : Nat) : State :=
  match s.group? g with
  | none => s
  | some x =>
    let ts := (x.domTids d).filterMap fun i => x.threads[i]?
    let (sc, scFlag) := widest ts
    let s := (x.domTids d).foldl (fun s i => s.modThread ⟨g, i⟩ Thread.complete) s
    if isWide x.lane sc && (x.liveTids d).any (fun i => match (s.group? g).bind fun y => y.threads[i]? with
        | some t => t.live | none => false) then
      let s := (s.modDom g d fun k => { k with phase := .wider sc scFlag, commitNo := s.fresh }).bump
      let s := (s.afterBoundary g).boundaryTraps g
      (s.podCheck g).leave g
    else ((s.releaseDomain g d).leave g)

/-- Postings and service requests that wait find their places (R155, R331). -/
def State.drainHeld (s : State) (g d : Nat) : State :=
  match s.group? g with
  | none => s
  | some x =>
    let k := x.dom d
    let (s, posts) := s.postAll g k.posts
    let (s, svcs) := s.passSvcs g (quadOf x.core) k.svcs
    let s := s.modDom g d fun k => { k with posts := posts, svcs := svcs }
    if posts.length < k.posts.length then
      match s.group? g with
      | some x => (x.waitingTakes.foldl (fun s c => s.retryTake g c) s).wakeAcquires g
      | none => s
    else s

/-- A boundary completes (R18, R19): its commit event, when it is due, is withheld (R221), or applies once every cell is
prepared and no event goes before it; results land and the domain is released once nothing holds it.  Takes of the group's
other domains that the event has met end at once (R368).  Of the threads of a withheld event the frame marks the one that FRANK
names (R389). -/
def State.completeBoundary (s : State) (g d : Nat) : Option State :=
  match s.group? g with
  | none => none
  | some x =>
    if x.doms.length ≤ d then none
    else match (x.dom d).phase with
      | .run =>
        if boundaryDue x d then
          if s.poisonedBase (s.writers x d) then some (s.kill g)
          else match withheld s x d with
          | some t =>
            if x.flushes then some ((s.modDom g d fun k => { k with prep := none, prepNo := none }).endFlush g)
            else
              let who := (List.range x.threads.length).filter fun i => t.rank == some (s.rank x i)
              some ((s.modDom g d fun k => { k with prep := none, prepNo := none }).trap g who t)
          | none =>
            if (x.dom d).acked (prepCells (s.writers x d)) && !s.mustWait g d x then
              let s := (s.commit g d).firstReads
              match s.group? g with
              | some x =>
                if x.flushes then some (s.endFlush g)
                else if s.held g d x then some (s.wakeAcquires g)
                else some (s.landDomain g d)
              | none => some s
            else none
        else none
      | .committed =>
        if x.st != .running then none
        else
          let s' := s.drainHeld g d
          match s'.group? g with
          | none => none
          | some x => if !s'.held g d x then some (s'.landDomain g d) else if s' = s then none else some s'
      | _ => none

end Sys2Proof.Machine
end

