-- ==== Sys2Proof/Machine/Control.lean ====
section
/-!
DEFINITION. Transfers, steps and waits, traps, continuations, services, register blocks and special registers
(R133-R159).
-/
namespace Sys2Proof.Machine

/-! ## Transfers -/

/-- The act of a transfer to a header (R134, R135). -/
def State.transfer (s : State) (r : TRef) (g : Group) (off : Int) (kinds : List Nat) : Act :=
  match s.reach r g off kinds with
  | .ok s' => .jump s'
  | .error e => .stop e

/-- The code offset that IMM names from the issuing block (R135). -/
def Thread.target (t : Thread) (f : Fields) : Int := t.here.toNat + 8 * f.imm.toInt

/-- The pool header that IMM[31:12] names from the issuing block (R139, R234). -/
def Thread.poolAt (t : Thread) (f : Fields) : Int := t.here.toNat + 8 * (f.imm.extractLsb' 12 20).toInt

/-- A 32-bit word of a block body. -/
def bodyWord (body : List Byte) (off : Nat) : Word := BitVec.ofNat 32 (littleEndian ((body.drop off).take 4))

/-- R136. -/
def execNop (f : Fields) (s : State) : Host.Outcome State Fault Refusal :=
  issueEach (.nop f) f (fun _ _ _ s => .next s) s

/-- R137. -/
def execBra (f : Fields) (s : State) : Host.Outcome State Fault Refusal :=
  issueEach (.bra f) f (fun r g t s => s.transfer r g (t.target f) codeKinds) s

/-- R138. -/
def execBrx (f : Fields) (s : State) : Host.Outcome State Fault Refusal :=
  issueEach (.brx f) f (fun r g t s => s.transfer r g (t.opA f).toNat codeKinds) s

/-- The jump table of `brt` (R139, R140). -/
def State.branchTable (s : State) (r : TRef) (g : Group) (t : Thread) (f : Fields) : Act :=
  let p := t.poolAt f
  match s.checkPool g p with
  | .error e => .stop e
  | .ok body =>
    let o := f.imm.toNat % 2 ^ 12
    let n := (bodyWord body o).toNat
    let a := (t.opA f).toNat
    if o % 4 ≠ 0 ∨ body.length < o + 4 * (n + 1) then .stop (.of .badTarget 0 t.pc.toNat)
    else if a < n then s.transfer r g (p + 8 * (bodyWord body (o + 4 * (a + 1))).toInt) codeKinds
    else .next s

/-- R139. -/
def execBrt (f : Fields) (s : State) : Host.Outcome State Fault Refusal :=
  issueEach (.brt f) f (fun r g t s => s.branchTable r g t f) s

/-- A call: the entry header is checked, then the link is written and the pending point cleared (R141, R143). -/
def State.callTo (s : State) (r : TRef) (g : Group) (t : Thread) (f : Fields) (off : Int) : Act :=
  match s.checkHeader g off entryKind with
  | .error e => .stop e
  | .ok bytes =>
    let link : DWord := t.here ++ (t.pc + BitVec.ofNat 32 s.issue.len)
    let s := s.modThread r fun t => { t.writePair f.d link with reconv := none }
    .jump (s.enter r (BitVec.ofInt 32 off) bytes)

/-- R141. -/
def execCall (f : Fields) (s : State) : Host.Outcome State Fault Refusal :=
  issueEach (.call f) f (fun r g t s => s.callTo r g t f (t.target f)) s

/-- R141. -/
def execCallx (f : Fields) (s : State) : Host.Outcome State Fault Refusal :=
  issueEach (.callx f) f (fun r g t s => s.callTo r g t f (t.opA f).toNat) s

/-- A return through a link: PC and the offset of the header of its block (R142).  A pool header is a bad target. -/
def State.returnTo (s : State) (r : TRef) (g : Group) (pc hdr : Word) : Act :=
  match s.checkHeader g hdr.toNat codeKinds with
  | .error (.trap t) => .stop (.trap { t with cause := if t.cause = .poolExecution then .badTarget else t.cause })
  | .error e => .stop e
  | .ok bytes =>
    let body := blockBody bytes
    let off := pc.toNat - (hdr.toNat + 8)
    if pc.toNat < hdr.toNat + 8 ∨ (slotAt body.length body off).isNone then .stop (.of .badTarget 0 pc.toNat)
    else .jump (s.modThread r fun t => { t with pc := pc, here := hdr, fall := none, reconv := reconvOf hdr bytes })

/-- R142. -/
def execRet (f : Fields) (s : State) : Host.Outcome State Fault Refusal :=
  issueEach (.ret f) f (fun r g t s => s.returnTo r g (t.opA f) (t.srcHi f.a)) s

/-! ## Steps and reconvergence -/

/-- R144: a join is known by its code offset; FN 1 names the group's set. -/
def execJoin (f : Fields) (s : State) : Host.Outcome State Fault Refusal :=
  issueEach (.join f) f (fun r _ t s => .next (s.arriveJoin r t.pc (f.fn == 1))) s

/-- The widest scope a launch may take (R23). -/
def Launch.scopeMax (l : Launch) : Nat := if l.r.det then 1 else l.r.gang + 1

/-- The widest scope a group's threads may take: a spawned group is a batch group (R23, R382). -/
def State.scopeMax (s : State) (g : Group) : Nat := if g.spawn.isSome then 1 else (s.launchOf g).scopeMax

/-- The scope checks of R23 and R25. -/
def scopeOk (top : Nat) (f : Fields) (sc : Bool) : Bool :=
  decide (f.sc.toNat ≤ top) && (!sc || decide (4 ≤ f.sc.toNat))

/-- R145. -/
def execStep (f : Fields) (s : State) : Host.Outcome State Fault Refusal :=
  issueEach (.step f) f (fun r g _ s =>
    let sc := f.x.getLsbD 0
    if !scopeOk (s.scopeMax g) f sc then .stop (.of .scope)
    else .next (s.arrive r .boundary fun n =>
      { order := n, scope := f.sc.toNat, sc := sc, el := if f.fn = 1 then some (f.d.toNat - 192) else none })) s

/-- The samples and the first read of `waitv` (R147); one that finds a prepared cell waits for it, parked (R258, log entry 109). -/
def State.waitValue (s : State) (r : TRef) (g : Group) (t : Thread) (f : Fields) : Act :=
  let l := s.launchOf g
  if !scopeOk (s.scopeMax g) f false then .stop (.of .scope)
  else if l.r.det && f.a != 248 then .stop (.of .determinism)
  else match s.operand g t f 4 4 false .read with
    | .error e => .stop e
    | .ok (acc, _) =>
      let w : WaitV := { acc := acc, cmp := f.fn.toNat, t := f.t, b := if f.b = 248 then 0 else t.reg f.b.toNat,
                         scope := f.sc.toNat, pc := t.pc }
      if f.s then .next (s.arrive r .boundary fun n => { order := n, wait := some { w with unread := true } })
      else if acc.keys.any s.prepared then .next (s.modThread r fun t => { t with st := .waitv { w with unread := true } })
      else if s.poisoned acc.keys then .stop .check
      else if cmpWord w.cmp w.t (BitVec.ofNat 32 (s.readNat acc.keys)) w.b then .next s
      else .next (s.modThread r fun t => { t with st := .waitv w })

/-- R146. -/
def execWaitv (f : Fields) (s : State) : Host.Outcome State Fault Refusal :=
  issueEach (.waitv f) f (fun r g t s => s.waitValue r g t f) s

/-- R148. -/
def execExit (f : Fields) (s : State) : Host.Outcome State Fault Refusal :=
  issueEach (.exit f) f (fun r _ _ s => .next (s.arrive r .boundary fun n => { order := n, isExit := true })) s

/-! ## Traps and continuations -/

/-- The trap of `trap` and `bkpt`: the instruction has executed, and FPC is the stop PC (R149, R389). -/
def codeTrap (c : Cause) (f : Fields) : Trap := { cause := c, code := f.imm.toNat % 2 ^ 16 }

/-- R149. -/
def execTrap (f : Fields) (s : State) : Host.Outcome State Fault Refusal :=
  issueEach (.trap f) f (fun _ _ _ _ => .trapAfter (codeTrap .userTrap f)) s

/-- R149: without the launch's debug flag it acts as `nop`. -/
def execBkpt (f : Fields) (s : State) : Host.Outcome State Fault Refusal :=
  issueEach (.bkpt f) f (fun _ g _ s =>
    if (s.launchOf g).r.dbg then .trapAfter (codeTrap .breakpoint f) else .next s) s

/-- R150. -/
def execContv (f : Fields) (s : State) : Host.Outcome State Fault Refusal :=
  issueEach (.contv f) f (fun r g t s =>
    let b := (t.opB f).toNat
    if b % 64 ≠ 0 ∨ 2 ^ 22 < b + 64 + 16 * g.threads.length then .stop (.of .continuation)
    else .next (s.buffer r (.contv (t.opA f) (t.opB f)))) s

/-- The keys of a thread's record in the fault frame (R152). -/
def frameKeys (g : Group) (off tid : Nat) : List Nat := scratchKeys (quadOf g.core) (off + 64 + 16 * tid) 16

/-- The first header from an offset on whose block holds a code offset: the blocks of an object follow one another (R79).  A
pool, which is never executed, holds none (R80). -/
def State.searchBlock (s : State) (g : Group) (pc : Word) : Nat → Nat → Option Word
  | 0, _ => none
  | fuel + 1, off =>
    match s.blockAt g off with
    | .ok (some b) =>
      if (blockHeader b).kind ≠ 2 ∧ off + 8 ≤ pc.toNat ∧ pc.toNat < off + b.length then some (BitVec.ofNat 32 off)
      else s.searchBlock g pc fuel (nextHeader (BitVec.ofNat 32 off) b).toNat
    | _ => none

/-- The block that holds a code offset: one that the core caches, or else the one found in the object (log entry 54). -/
def State.blockOf (s : State) (g : Group) (pc : Word) : Option Word :=
  match (s.core g.core).blocks.find? fun b =>
    b.launch == g.launch && (blockHeader b.bytes).kind != 2 && decide (b.hdr.toNat + 8 ≤ pc.toNat) && decide (pc.toNat < b.hdr.toNat + b.bytes.length) with
  | some b => some b.hdr
  | none => let l := s.launchOf g; s.searchBlock g pc (l.objSize / 16 + 1) l.objFirst

/-- A thread at a PC and in a block, falling through where the block's instruction sequence has ended; the FPC of a fall-through that
then fails is that PC (R81, log entry 54). -/
def State.standAt (s : State) (g : Group) (t : Thread) (pc here : Word) : Thread :=
  let u := { t with pc := pc, here := here }
  { u with fall := s.fallAt g u pc }

/-- The thread takes up the code that was interrupted: predicates and PC from its record, the resumed flag set
(R153). -/
def State.takeUp (s : State) (r : TRef) : State :=
  match s.group? r.grp with
  | none => s
  | some g =>
    match g.frame with
    | none => s
    | some fr =>
      let keys := frameKeys g fr.off r.tid
      let rec_ := s.readNat keys
      let pc : Word := BitVec.ofNat 32 rec_
      let flags := rec_ / 2 ^ 112 % 256
      let s := s.writeBytes (keys.drop 14) [BitVec.ofNat 8 (flags ||| 2)]
      let lookup := s.blockOf g pc
      let s := s.modThread r fun t =>
        let u := match t.saved with
          | some (p, h, fl) => if p = pc then { t with pc := pc, here := h, fall := fl } else s.standAt g t pc (lookup.getD h)
          | none => s.standAt g t pc (lookup.getD t.here)
        { u with st := .ready, saved := none, p := BitVec.ofNat 7 (rec_ / 2 ^ 96) }
      s.modGroup r.grp fun x => { x with frame := x.frame.bind fun fr =>
        let left := fr.left.filter (· != r.tid)
        if left.isEmpty then none else some { fr with left := left } }

/-- R153: a `resume` that carries the step marker and has to wait for the fill passes its boundary once it is taken up.  It
waits at its PC while its record stands in a prepared cell (R258), and a poisoned one is a machine check (R418). -/
def execResume (f : Fields) (s : State) : Host.Outcome State Fault Refusal :=
  issueEach (.resume f) f (fun r g t s =>
    match g.frame with
    | none => .stop (.of .continuation)
    | some fr =>
      let keys := frameKeys g fr.off r.tid
      let flags := s.readNat keys / 2 ^ 112 % 256
      if keys.any s.prepared then .wait s
      else if s.poisoned keys then .stop .check
      else if (t.opA f).toNat ≠ fr.off ∨ flags % 2 = 0 ∨ flags / 2 % 2 = 1 then .stop (.of .continuation)
      else if fr.ready then .jump (s.takeUp r)
      else .wait ((s.modThread r fun t => { t with st := .resuming f.s }).issued r)) s

/-! ## Services and register blocks -/

/-- R155. -/
def execSvc (f : Fields) (s : State) : Host.Outcome State Fault Refusal :=
  issueEach (.svc f) f (fun r _ t s =>
    let a := (t.opA f).toNat
    if a % 64 ≠ 0 ∨ 2 ^ 22 < a + 64 then .stop (.of .illegal)
    else .next (s.buffer r (.svc a (f.imm.toNat % 2 ^ 12)))) s

/-- The extended blocks that are left in every lane of a core (R110, R121, R129).  A cohort's blocks count in all its lanes until
its last thread has exited (log entry 105). -/
def State.freeExtended (s : State) (core : Nat) : Nat :=
  let gs := (s.residents core).map (·.2)
  let pool := if (s.core core).degraded then 96 else 192
  pool - (if core % 4 = 0 then 14 else 0) - (gs.map fun g => g.tslots.length).sum - (gs.map fun g => g.held.sum).sum

/-- Registers from `n` on read as 0. -/
def Thread.clearFrom (t : Thread) (n : Nat) : Thread := { t with v := t.v.filter fun p => p.1 < n }

def State.modCohort (s : State) (g coh : Nat) (f : Thread → Thread) : State :=
  (List.range 64).foldl (fun s i => s.modThread ⟨g, 64 * coh + i⟩ f) s

/-- The cohort holds `n` extended blocks, the new ones zeroed (R156). -/
def State.grantBlocks (s : State) (g coh n : Nat) : State :=
  match s.group? g with
  | none => s
  | some x =>
    let h := x.held[coh]?.getD 0
    (s.modCohort g coh (·.clearFrom (32 * (h + 1)))).modGroup g fun x => { x with held := x.held.set coh n }

/-- A destination without the registers from `n` on (R156). -/
def Dst.below (d : Dst) (n : Nat) : Dst :=
  match d with
  | .regs v k => if n ≤ v then .none else .regs v (min k (n - v))
  | .half v hi => if n ≤ v then .none else .half v hi
  | d => d

/-- The cohort keeps `n` extended blocks; what is pending for the others is dropped (R156). -/
def State.dropBlocks (s : State) (g coh n : Nat) : State :=
  let top := 32 * (n + 1)
  (s.modCohort g coh fun t =>
    { t.clearFrom top with defs := t.defs.map fun d => { d with dst := d.dst.below top } }).modGroup g fun x =>
      { x with held := x.held.set coh n }

/-- The body of `xacq` and `xrel`: a mixed guard traps every live thread of the cohort (R156). -/
def issueBlocks (i : Instr) (f : Fields) (act : Nat → Nat → State → Act) (s : State) : Host.Outcome State Fault Refusal :=
  issueCohorts i f (fun g active s =>
    match active with
    | [] => .next s
    | (r, t) :: _ =>
      let coh := r.tid / 64
      let live := (List.range 64).filter fun i => match g.threads[64 * coh + i]? with
        | some t => t.live
        | none => false
      if active.length < live.length then
        .jump (s.trap r.grp (live.map (64 * coh + ·)) { cause := .illegal, fpc := some t.pc })
      else act r.grp coh s) s

/-- R156. -/
def execXacq (f : Fields) (s : State) : Host.Outcome State Fault Refusal :=
  issueBlocks (.xacq f) f (fun g coh s =>
    match s.group? g with
    | none => .next s
    | some x =>
      let n := f.imm.toNat
      let h := x.held[coh]?.getD 0
      if n ≤ h then .next s
      else if (s.core x.core).xacqs.isEmpty && decide (n - h ≤ s.freeExtended x.core) then
        .next (s.grantBlocks g coh n)
      else
        let s := s.modCore x.core fun k => { k with xacqs := k.xacqs ++ [(g, coh)] }
        let live := (List.range 64).filter fun i => match x.threads[64 * coh + i]? with
          | some t => t.live
          | none => false
        .jump (live.foldl (fun s i =>
          let r : TRef := ⟨g, 64 * coh + i⟩
          ((s.advance r s.issue.len).issued r).modThread r fun t => { t with st := .xacq n f.s }) s)) s

/-- R156. -/
def execXrel (f : Fields) (s : State) : Host.Outcome State Fault Refusal :=
  issueBlocks (.xrel f) f (fun g coh s =>
    match s.group? g with
    | none => .next s
    | some x => if f.imm.toNat < x.held[coh]?.getD 0 then .next (s.dropBlocks g coh f.imm.toNat) else .next s) s

/-- The head of a core's line of block requests is granted once the blocks are free (R121). -/
def execXacqGrant (core : Nat) (s : State) : Host.Outcome State Fault Refusal :=
  match (s.core core).xacqs with
  | [] => .refused .notEnabled
  | (g, coh) :: rest =>
    match s.group? g with
    | none => .refused .notEnabled
    | some x =>
      let mine := ((x.threads.drop (64 * coh)).take 64).findSome? fun t => match t.st with
        | .xacq n m => some (n, m)
        | _ => none
      match mine with
      | some (n, m) =>
        if n - x.held[coh]?.getD 0 ≤ s.freeExtended core then
          let s := (s.modCore core fun k => { k with xacqs := rest }).grantBlocks g coh n
          .next ((List.range 64).foldl (fun s i =>
            let r : TRef := ⟨g, 64 * coh + i⟩
            match (s.thread? r).map Thread.st with
            | some (.xacq _ _) =>
              let s := s.modThread r fun t => { t with st := .ready }
              if m then s.arriveMarker r else s
            | _ => s) s)
        else .refused .notEnabled
      | none => .refused .notEnabled

/-! ## Special registers -/

/-- The value of a special register (R158, R159).  `%lremap` keeps its value across a restore, and `%ngrp` does not count spawned
groups (log entry 108). -/
def State.sreg (s : State) (g : Group) (r : TRef) (t : Thread) (code : Nat) : Word :=
  let n (k : Nat) : Word := BitVec.ofNat 32 k
  let l := s.launchOf g
  match code with
  | 216 => n r.tid
  | 217 => n (r.tid % 64)
  | 218 => n (physicalLane (s.core g.core).lremap (r.tid % 64))
  | 219 => n (r.tid / 64)
  | 220 => n g.grp
  | 221 => n l.r.ngrp
  | 222 => s.rank g r.tid
  | 223 => n (g.core % 4)
  | 224 => n (g.core / 4 % 16)
  | 225 => n (g.core / 64)
  | 226 => t.dstep
  | 227 => t.xstep
  | 228 => s.clk.setWidth 32
  | 229 => t.clkl.getD (s.clk.extractLsb' 32 32)
  | 230 => t.vtimeAt s.clk
  | 231 => g.lremap
  | _ => l.ident

/-- R157: the value is sampled at issue; a read of `%clklo` latches the upper half (R159). -/
def execSrget (f : Fields) (s : State) : Host.Outcome State Fault Refusal :=
  issueEach (.srget f) f (fun r g t s =>
    let v := s.sreg g r t f.a.toNat
    let s := s.defer r (dstOf f.d) (.sampled [v])
    .next (if f.a = 228 then s.modThread r fun t => { t with clkl := some (s.clk.extractLsb' 32 32) } else s)) s

/-- R157: `%vtime` alone may be written (R158). -/
def execSrset (f : Fields) (s : State) : Host.Outcome State Fault Refusal :=
  issueEach (.srset f) f (fun r _ t s =>
    .next (if f.d = 230 then s.modThread r fun u => { u with vtime := t.opA f, since := s.clk } else s)) s

end Sys2Proof.Machine
end

