-- ==== Sys2Proof/Machine/Reads.lean ====
section
/-! DEFINITION. When the reads of an engine's request may begin: the commits that they see (R40). -/

namespace Sys2Proof.Machine

/-! ## Who takes part in a step (R22) -/

/-- Whether a group takes part in a step of a scope that a group names (R22): domains of the group itself, or the gang's
groups in its quad, on its die or in the module. -/
def sameScope (scope : Nat) (g : Nat) (x : Group) (h : Nat) (y : Group) : Bool :=
  match scope with
  | 1 => g == h
  | 2 => y.launch == x.launch && y.spawn.isNone && quadOf y.core == quadOf x.core
  | 3 => y.launch == x.launch && y.spawn.isNone && dieOf y.core == dieOf x.core
  | _ => y.launch == x.launch && y.spawn.isNone

/-- The live domains that take part in a step: group and domain. -/
def State.participants (s : State) (scope g : Nat) (x : Group) : List (Nat × Nat) :=
  (s.groups.filter fun p => sameScope scope g x p.1 p.2 && !p.2.flushes).flatMap fun p =>
    ((List.range p.2.doms.length).filter fun d => !(p.2.liveTids d).isEmpty).map fun d => (p.1, d)

/-! ## What a record reads (R340, R344) -/

/-- The tiles that a record reads. -/
def MRec.reads (r : MRec) : List Nat := if r.kind ≤ 2 then r.tiles else []

/-- Whether a record reads memory for its operand (R344). -/
def MRec.readsMemory (r : MRec) : Bool := r.scr && decide (r.kind ≤ 2) || r.kind == 8

def State.filling (s : State) (id : Nat) : Bool := match s.tiles.find? id with
  | some t => t.st == .filling
  | none => false

/-! ## What requests and steps wait on -/

/-- The requests that fill a tile: a copy into it, an `sgath`, a resolve. -/
def State.fillers (s : State) (t : Nat) : List Requester :=
  (s.copies.filterMap fun c => match c.2.kind with
    | .tileIn _ u _ _ _ _ _ => if u == t then some (.copy c.1) else none
    | _ => none) ++
  (s.sops.filterMap fun o => match o.2.kind with
    | .sgath _ tiles _ _ _ _ _ _ => if tiles.contains t then some (.stream o.1) else none
    | _ => none) ++
  s.recs.filterMap fun r => if r.2.kind == 3 && r.2.tiles.contains t then some (.record r.1) else none

/-- The requests that one waits on: the older ones of its group where they leave it no place (R273, R307), those before it in its
quad's task queue (R340), and those that fill a tile that it reads. -/
def State.waitsFor (s : State) : Requester → List Requester
  | .copy id =>
    match s.copies.find? id with
    | none => []
    | some c =>
      let older : List Requester := s.copies.filterMap fun o => if o.2.grp == c.grp && decide (o.1 < id) then some (.copy o.1) else none
      (if older.length < 256 then [] else older) ++
        match c.kind with
        | .tileOut t .. => if s.filling t then s.fillers t else []
        | _ => []
  | .stream id =>
    match s.sops.find? id with
    | none => []
    | some o =>
      let older : List Requester := s.sops.filterMap fun p => if p.2.grp == o.grp && decide (p.1 < id) then some (.stream p.1) else none
      if older.length < 16 then [] else older
  | .record id =>
    match s.recs.find? id with
    | none => []
    | some r =>
      ((((s.cores.filterMap fun c => c.2.running) ++ s.taskQ ++ s.taskWait).takeWhile (· != id)).filter
          fun i => s.recQuad i == s.recQuad id).map .record ++
        (r.reads.filter s.filling).flatMap s.fillers
  | _ => []

/-- The requests that the release of a committed domain waits on: those that give its threads a result, its records and
arrays on their way into the task queue and, where a posting waits for its taker, the fills of its group's tiles (R18, R331,
R340). -/
def State.resultsOf (s : State) (g d : Nat) : List Requester :=
  match s.group? g with
  | none => []
  | some x =>
    if (x.dom d).phase != .committed then []
    else
      let mine (l : List (TRef × Nat)) : Bool := l.any fun p => p.1.grp == g && x.domOf p.1.tid == d
      (s.sops.filterMap fun o => if mine o.2.takers then some (.stream o.1) else none) ++
      (s.recs.filterMap fun r => if mine r.2.takers || s.taskWait.contains r.1 && r.2.grp == g && r.2.dom == d
        then some (.record r.1) else none) ++
      (if s.arrays.any fun a => a.2.grp == g && a.2.dom == d
        then (s.taskQ.filter fun i => decide (256 ≤ s.queued (s.recQuad i))).map .record else []) ++
      if (x.dom d).posts.isEmpty then []
      else s.tiles.flatMap fun t => if t.2.grp == g && t.2.st == .filling then s.fillers t.1 else []

/-- The domains on whose boundaries the release of a domain waits: its own, and at a wider step those of every participant (R22,
R24). -/
def State.releasedWith (s : State) (g d : Nat) : List (Nat × Nat) :=
  match s.group? g with
  | none => []
  | some x =>
    let scope := match (x.dom d).phase with
      | .wider k _ => k
      | _ => (widest ((x.domTids d).filterMap fun i => x.threads[i]?)).1
    if isWide x.lane scope then s.participants scope g x else [(g, d)]

/-- The domain whose step passed a request and is not released: group and domain. -/
def State.passedBy (s : State) (q : Requester) : Option (Nat × Nat) :=
  let by_ : Option (Nat × Option Nat) := match q with
    | .copy id => (s.copies.find? id).map fun c => (c.grp, c.by_)
    | .stream id => (s.sops.find? id).map fun o => (o.grp, o.by_)
    | .record id => (s.recs.find? id).map fun r => (r.grp, r.by_)
    | .coll id => (s.colls.find? id).map fun c => (c.grp, c.by_)
    | _ => none
  match by_ with
  | some (g, some d) =>
    match s.group? g with
    | none => none
    | some x => match (x.dom d).phase with
      | .committed | .wider .. => some (g, d)
      | .run | .stopped => none
  | _ => none

/-- The requests whose results the release of a domain's step waits on. -/
def State.stepAwaits (s : State) (p : Nat × Nat) : List Requester :=
  (s.releasedWith p.1 p.2).flatMap fun q => s.resultsOf q.1 q.2

/-- The requests that others wait on, through the order of their engines and through the steps that hold them. -/
def State.awaitedBy (s : State) : Nat → List Requester → List Requester
  | 0, l => l
  | n + 1, l =>
    let next := l.flatMap fun q => s.waitsFor q ++ match s.passedBy q with
      | some p => s.stepAwaits p
      | none => []
    let new := (next.filter (!l.contains ·)).eraseDups
    if new.isEmpty then l else s.awaitedBy n (l ++ new)

/-- Whether a request of a group that the ending step of a domain has passed must not begin its reads yet: they see every
commit visible to the domain at its release (R40).  Only where that release itself waits on what the request does is it let
go (log entry 95). -/
def State.readsHeld (s : State) (q : Requester) : Bool :=
  match s.passedBy q with
  | none => false
  | some p =>
    !(s.awaitedBy (s.copies.length + s.sops.length + s.recs.length) (s.stepAwaits p)).contains q

end Sys2Proof.Machine
end

