-- ==== Sys2Proof/Machine/Copy.lean ====
section
/-!
DEFINITION. The copy engine: its instructions but for `cpyt` (R289-R300), and how its requests run (R274-R284).
-/
namespace Sys2Proof.Machine

/-! ## Faults and requests -/

def copyFault (cause : Nat) : Stop := .of .copyOperand cause

/-- A copy request of a thread. -/
def State.request (s : State) (r : TRef) (g : Group) (t : Thread) (kind : CopyKind) (ctr : Option Nat) (op : Nat) : State :=
  (s.buffer r (.copy
    { grp := r.grp, kind := kind, order := s.fresh, ctr := ctr, op := op, pc := t.pc, rank := s.rank g r.tid })).bump

/-- Whether two places of a length overlap. -/
def overlap (a b : Loc) (len : Nat) : Bool :=
  a.sp == b.sp && decide (a.addr < b.addr + len) && decide (b.addr < a.addr + len)

/-- The ranges of `cpy` under FN, checked in operand order (R290). -/
def Thread.cpyRanges (t : Thread) (f : Fields) (len : Nat) : Except Stop (Loc × Loc) := do
  let b := (t.reg f.b.toNat).toNat
  let c := (t.opC f).toNat
  match f.fn.toNat with
  | 0 => do
    let src ← t.range f.a b len 1 false
    let dst ← scratchRange c len
    pure (src, dst)
  | 1 => do
    let dst ← t.range f.a b len 1 true
    let src ← scratchRange c len
    pure (src, dst)
  | 2 => do
    let src ← scratchRange b len
    let dst ← scratchRange c len
    pure (src, dst)
  | _ => do
    let src ← t.range f.a b len 1 false
    let dst ← t.range f.a c len 1 true
    pure (src, dst)

/-- R290. -/
def execCpy (f : Fields) (s : State) : Host.Outcome State Fault Refusal :=
  issueEach (.cpy f) f (fun r g t s => Act.of do
    let len := (t.srcHi f.b).toNat
    if 2 ^ 24 < len then throw (copyFault 1)
    let (src, dst) ← t.cpyRanges f len
    if 2 ≤ f.fn.toNat && overlap src dst len then throw (copyFault 2)
    pure (if len = 0 then s else s.request r g t (.linear src dst len) (some f.d.toNat) 0x80)) s

/-- R292. -/
def execCpym (f : Fields) (s : State) : Host.Outcome State Fault Refusal :=
  issueEach (.cpym f) f (fun r g t s => Act.of do
    let len := (t.srcHi f.b).toNat
    if len = 0 ∨ 2 ^ 22 < len then throw (copyFault 1)
    let src ← t.range f.a (t.reg f.b.toNat).toNat len 1 false
    let off := (t.opC f).toNat
    let _ ← scratchRange off len
    if f.imm.toNat % 2 ^ 16 = 0 then throw (copyFault 7)
    pure (s.request r g t (.multi src len off (f.imm.toNat / 2 ^ 16) (f.imm.toNat % 2 ^ 16)) (some f.d.toNat) 0x82)) s

/-- The size of a segment: a null segment has none. -/
def segSize (g : DWord) : Nat := if segLim g = 63 then 0 else 2 ^ segLim g

/-- R293. -/
def execCpyg (f : Fields) (s : State) : Host.Outcome State Fault Refusal :=
  issueEach (.cpyg f) f (fun r g t s => Act.of do
    let n := (t.srcHi f.b).toNat
    let size := f.imm.toNat
    if 4096 < n ∨ size < 1 ∨ 4096 < size then throw (copyFault 1)
    let b := (t.reg f.b.toNat).toNat
    let c := (t.opC f).toNat
    let _ ← scratchRange b (4 * n)
    let _ ← scratchRange c (n * size)
    if b % 4 ≠ 0 then throw (copyFault 3)
    let sg := t.seg (f.a.toNat - 200)
    pure (if n = 0 then s
      else s.request r g t (.gather b n c size (segBase sg) (segSize sg)) (some f.d.toNat) 0x83)) s

/-! ## Landing counters -/

/-- R294. -/
def execLcsetArm (f : Fields) (s : State) : Host.Outcome State Fault Refusal :=
  issueEach (.lcsetArm f) f (fun r _ t s => .next (s.buffer r (.lcset f.d.toNat (.arm (t.opA f))))) s

/-- R294. -/
def execLcsetBind (f : Fields) (s : State) : Host.Outcome State Fault Refusal :=
  issueEach (.lcsetBind f) f (fun r _ t s =>
    let base := (t.opA f).toNat
    let len := (t.opB f).toNat
    let tag := (t.opC f).toNat
    if len = 0 ∨ 2 ^ 22 < len ∨ 2 ^ 16 ≤ tag then .stop (copyFault 1)
    else if 2 ^ 22 < base + len then .stop (copyFault 7)
    else .next (s.buffer r (.lcset f.d.toNat (.bind base len tag)))) s

/-- R294. -/
def execLcsetUnbind (f : Fields) (s : State) : Host.Outcome State Fault Refusal :=
  issueEach (.lcsetUnbind f) f (fun r _ _ s => .next (s.buffer r (.lcset f.d.toNat .unbind))) s

/-- The part of a counter that `lcget` returns (R295). -/
def Ctr.part (c : Ctr) (fn : Nat) : Word :=
  match fn with
  | 0 => c.status
  | 1 => c.cnt
  | 2 => c.tgt
  | _ => c.und

/-- R295. -/
def execLcget (f : Fields) (s : State) : Host.Outcome State Fault Refusal :=
  issueDefer (.lcget f) f (fun _ _ _ _ => .ok (dstOf f.d, .lcget f.a.toNat f.fn.toNat)) s

/-! ## Rings -/

/-- R296: the descriptor is read at issue. -/
def execRbindBind (f : Fields) (s : State) : Host.Outcome State Fault Refusal :=
  issueEach (.rbindBind f) f (fun r g t s =>
    let off := (t.opA f).toNat
    match scratchRange off 16 with
    | .error e => .stop e
    | .ok _ =>
      let keys := scratchKeys (quadOf g.core) off 16
      if off % 16 ≠ 0 then .stop (copyFault 3)
      else if (g.ring f.d.toNat).bound then .stop (copyFault 4)
      else if s.poisoned keys then .stop .check
      else if keys.any s.prepared then .wait s
      else
        let desc : BitVec 128 := BitVec.ofNat 128 (s.readNat keys)
        if (RingDesc.of desc).ok then .next (s.buffer r (.rbind f.d.toNat desc)) else .stop (copyFault 4)) s

/-- R296. -/
def execRbindFree (f : Fields) (s : State) : Host.Outcome State Fault Refusal :=
  issueEach (.rbindFree f) f (fun r g _ s =>
    if (g.ring f.d.toNat).bound then .next (s.buffer r (.rfree f.d.toNat)) else .stop (copyFault 4)) s

/-- R297. -/
def execRacq (f : Fields) (s : State) : Host.Outcome State Fault Refusal :=
  issueDefer (.racq f) f (fun _ g _ _ =>
    if (g.ring f.a.toNat).bound then .ok (dstOf f.d 2, .racq f.a.toNat) else .error (copyFault 4)) s

/-- R297. -/
def execRhead (f : Fields) (s : State) : Host.Outcome State Fault Refusal :=
  issueDefer (.rhead f) f (fun _ g _ _ =>
    if (g.ring f.a.toNat).bound then .ok (dstOf f.d, .rhead f.a.toNat) else .error (copyFault 4)) s

/-- R298. -/
def execRrel (f : Fields) (s : State) : Host.Outcome State Fault Refusal :=
  issueEach (.rrel f) f (fun r g _ s =>
    let k := g.ring f.d.toNat
    if !k.bound then .stop (copyFault 4)
    else if k.acq.isEmpty then .stop (copyFault 6)
    else .next (s.buffer r (.rrel f.d.toNat))) s

/-- R299. -/
def execRput (f : Fields) (s : State) : Host.Outcome State Fault Refusal :=
  issueEach (.rput f) f (fun r g t s => Act.of do
    let len := if f.b = 248 then 0 else (t.reg f.b.toNat).toNat
    if len = 0 then throw (copyFault 1)
    let src ← t.range f.a (t.memOff f) len 1 false
    let k := g.ring f.d.toNat
    if !k.bound || k.msg then throw (copyFault 4)
    if k.slotSize < len then throw (copyFault 5)
    pure (s.request r g t (.put f.d.toNat src len) none 0x89)) s

/-- R300. -/
def execSend (f : Fields) (s : State) : Host.Outcome State Fault Refusal :=
  issueEach (.send f) f (fun r g t s => Act.of do
    let a := (t.opA f).toNat
    let len := (t.opB f).toNat
    if len = 0 ∨ 65520 < len ∨ 2 ^ 20 ≤ a ∨ a / 2 ^ 8 % 16 ≠ 0 then throw (copyFault 1)
    let src ← scratchRange (t.opC f).toNat len
    pure (s.request r g t (.send (a / 2 ^ 16) (a / 2 ^ 12 % 16) (a % 2 ^ 8) len src.addr) (some f.d.toNat) 0x8A)) s

/-! ## How an engine reads and writes (R40, R253, R258, R274, R418) -/

/-- What an engine's read finds. -/
inductive Got where
  | bytes (l : List Byte)
  /-- A prepared cell is not exposed yet. -/
  | later
  | miss (asid va cause : Nat)
  /-- Cause 1 unmapped, 2 not writable, at an address. -/
  | fault (cause va : Nat)
  | poison

/-- What stops an engine's access. -/
def Got.of (e : Stop) : Got :=
  match e with
  | .miss a v c => .miss a v c
  | .trap t => .fault t.sub t.faddr
  | .check => .poison
  | .later => .later

/-- A read of a run of bytes on a group's behalf. -/
def State.engineRead (s : State) (x : Group) (loc : Loc) (len : Nat) : Got :=
  match s.keysAt (s.aspace x) loc len false with
  | .error e => Got.of e
  | .ok keys =>
    if s.poisoned keys then .poison
    else if keys.any s.prepared then .later
    else .bytes (s.readBytes keys)

/-- The place of a byte among those read ahead. -/
def aheadKey (loc : Loc) : Nat := if loc.sp then 2 ^ 57 + loc.addr else loc.addr

/-- A read in which the bytes that have been read ahead keep what was found then (R275, R307). -/
def State.engineReadAfter (s : State) (x : Group) (ahead : Table Byte) (loc : Loc) (len : Nat) : Got :=
  match s.engineRead x loc len with
  | .bytes bs =>
    if ahead.isEmpty then .bytes bs
    else .bytes (((List.range bs.length).zip bs).map fun p => (ahead.find? (aheadKey loc + p.1)).getD p.2)
  | e => e

/-- A landing of bytes (R41, R272), for an operation that began at the count `since` (R13): the state after it, or what stops
it. -/
def State.engineWrite (s : State) (g : Nat) (x : Group) (loc : Loc) (bs : List Byte) (since : Nat := s.fresh) :
    Except Got State :=
  if loc.sp then .ok (s.landScratch g loc.addr bs since)
  else match s.keysAt (s.aspace x) loc bs.length true with
    | .error e => .error (Got.of e)
    | .ok keys => .ok (s.landBytes since keys bs)

/-- The slot that a put or message has been assigned is filled, and its ring is checked (R279, R280). -/
def State.fillSlot (s : State) (c : Copy) : State :=
  match c.dest, c.slot with
  | some (g, r), some i => (s.landRing g r (·.fill i c.kind.msgLen)).checkRing g r
  | _, _ => s

/-- The end of a request that an engine fault stops: its record, and what it has not delivered (R276). -/
def State.failCopy (s : State) (id : Nat) (c : Copy) (cause va : Nat) (total : Nat) : State :=
  let s := s.engineFault c.grp (copyRecord c.pc c.rank c.done va c.ctr c.op cause)
  let s := match c.kind with
    | .tileIn _ tile .. => s.zeroFill tile
    | _ => s
  let s := ({ s with copies := s.copies.erase id }.countIn c.grp c.ctr (total - c.done) true).outDone c.grp c.ctr
  ((s.fillSlot c).gcTiles).leave c.grp

/-- What follows an access that did not go through; `total` is what the request counts in all. -/
def State.copyStop (s : State) (id : Nat) (c : Copy) (x : Group) (total : Nat) (e : Got) :
    Host.Outcome State Fault Refusal :=
  match e with
  | .miss a v _ => .next (s.addMiss x.core a v (.copy id))
  | .fault cause va => .next (s.failCopy id c cause va total)
  | .poison => .next (s.kill c.grp)
  | _ => .refused .notEnabled

/-- A piece is done with: `n` bytes counted, as delivered or as undelivered, and the request completes with its last piece
(R270). -/
def State.landPiece (s : State) (id : Nat) (c : Copy) (k n : Nat) (lost : Bool := false) : State :=
  let left := c.left.filter (·.1 != k)
  let s := s.countIn c.grp c.ctr n lost
  if left.isEmpty then
    (({ s with copies := s.copies.erase id }.outDone c.grp c.ctr).fillSlot c).leave c.grp
  else { s with copies := s.copies.put id { c with left := left, done := if lost then c.done else c.done + n } }

/-! ## Pieces (R274) -/

/-- The bytes from an offset of a request to the end of the page there. -/
def toPageEnd (loc : Loc) (off : Nat) : Nat := if loc.sp then 4096 else 2 ^ 16 - (loc.addr + off) % 2 ^ 16

/-- The length of the piece at an offset: at most 4 KiB, on one page at either end. -/
def pieceLen (src dst : Loc) (len off : Nat) : Nat :=
  min (min 4096 (len - off)) (min (toPageEnd src off) (toPageEnd dst off))

/-- The pieces of a range: offset and length of each. -/
def piecesOf (src dst : Loc) (len : Nat) : Nat → Nat → List (Nat × Nat)
  | 0, _ => []
  | fuel + 1, off =>
    if len ≤ off then []
    else (off, pieceLen src dst len off) :: piecesOf src dst len fuel (off + pieceLen src dst len off)

/-- The pieces of a request when it begins: the offset of each in its destination and its length.  A piece of a multicast
counts for each quad, under 16 × offset + quad. -/
def CopyKind.pieces (k : CopyKind) : List (Nat × Nat) :=
  let noLoc : Loc := ⟨true, 0⟩
  match k with
  | .linear src dst len => piecesOf src dst len (len / 64 + 4) 0
  | .tileIn .. => [(0, 2048)]
  | .tileOut _ _ _ _ mf => [(0, storedSize mf)]
  | .multi src len _ _ mask =>
    (piecesOf src noLoc len (len / 64 + 4) 0).flatMap fun p =>
      ((List.range 16).filter fun q => mask / 2 ^ q % 2 = 1).map fun q => (16 * p.1 + q, p.2)
  | .gather _ n _ size _ _ => (List.range n).map fun i => (i * size, size)
  | .put _ src len => piecesOf src noLoc len (len / 64 + 4) 0
  | .send _ _ _ len _ => piecesOf noLoc noLoc len (len / 64 + 4) 0

/-- The length of a piece that is left. -/
def Copy.piece (c : Copy) (k : Nat) : Option Nat := (c.left.find? fun p => p.1 == k).map (·.2)

/-- Whether pieces of a request may be moved in part: all but a tile that is filled at once. -/
def CopyKind.splits : CopyKind → Bool
  | .tileIn .. => false
  | _ => true

/-- A piece becomes two, the first of `n` bytes: an engine moves pieces of any size up to 4 KiB (R274). -/
def splitPiece (id k n : Nat) (s : State) : Host.Outcome State Fault Refusal :=
  match s.copies.find? id with
  | none => .refused .notEnabled
  | some c =>
    match c.piece k with
    | none => .refused .notEnabled
    | some len =>
      let unit := match c.kind with | .multi .. => 16 | _ => 1
      if c.kind.splits && decide (0 < n) && decide (n < len) then
        let left := c.left.flatMap fun p => if p.1 == k then [(k, n), (k + unit * n, len - n)] else [p]
        .next { s with copies := s.copies.put id { c with left := left } }
      else .refused .notEnabled

/-- The number of outstanding requests of a group that passed to the engine before one: requests begin in that order, so that one
with fewer than 256 before it has a place (R273). -/
def State.copiesBefore (s : State) (g id : Nat) : Nat :=
  (s.copies.filter fun c => c.2.grp == g && decide (c.1 < id)).length

/-- A request begins: one of the 256 oldest of its group (R273), once it may read (R40); nothing else orders requests (R274). -/
def execCopyRequestBegin (id : Nat) (s : State) : Host.Outcome State Fault Refusal :=
  match s.copies.find? id with
  | none => .refused .notEnabled
  | some c =>
    if c.begun = false ∧ s.copiesBefore c.grp id < 256 ∧ s.readsHeld (.copy id) = false then
      .next { s with copies := s.copies.put id { c with begun := true, left := c.kind.pieces } }
    else .refused .notEnabled

/-- The group as the source of its request sees it: in the quad that issued the request (R289), wherever a restore has put the
group since. -/
def Copy.reader (c : Copy) (x : Group) : Group := { x with core := 4 * c.quad + x.core % 4 }

/-- Bytes from one place to another, as piece `k`.  They replace what a commit has written there since the request was passed; R13
leaves that open (log entry 10). -/
def State.movePiece (s : State) (id : Nat) (c : Copy) (x : Group) (src : Loc) (g : Nat) (y : Group) (dst : Loc)
    (k n total : Nat) : Host.Outcome State Fault Refusal :=
  match s.engineReadAfter (c.reader x) c.ahead ⟨src.sp, src.addr + k⟩ n with
  | .bytes bs =>
    match s.engineWrite g y ⟨dst.sp, dst.addr + k⟩ bs with
    | .ok s => .next (s.landPiece id c k n)
    | .error e => s.copyStop id c x total e
  | e => s.copyStop id c x total e

/-- The place of the slot that a put or message has been assigned. -/
def Copy.slotLoc (c : Copy) (y : Group) : Option Loc :=
  match c.dest, c.slot with
  | some (_, r), some i => some ⟨true, (y.ring r).base + (y.ring r).slotSize * i⟩
  | _, _ => none

/-- A tile or image in memory becomes a tile (R286, R287, R354). -/
def tileOfBytes (mxin : Bool) (mq qs : Bool) (mf tf : Nat) (bs : List Byte) : TileData :=
  if mxin then TileData.ofImage tf qs bs else (TileData.ofBytes mf mq bs).convert tf qs

/-! ## Multicast (R284) -/

/-- The delivery of a piece in one quad: to the counter bound to the tag there, if its region covers the whole range of
`len` bytes at `off`; `at_` is the piece's place in it. -/
def State.deliver (s : State) (quad tag off len at_ : Nat) (bs : List Byte) : State × Bool :=
  match (s.bindings quad).find? fun b => b.2.2.2.2 == tag with
  | none => (s, false)
  | some (g, c, base, blen, _) =>
    if base ≤ off ∧ off + len ≤ base + blen then
      ((s.landScratch g (off + at_) bs).landCtr g c (·.count bs.length), true)
    else (s.landCtr g c fun k => { k with err := true }, false)

/-- The bytes of the pieces that are left. -/
def Copy.leftBytes (c : Copy) : Nat := (c.left.map (·.2)).sum

/-- A piece of a multicast reaches a quad (R274, R284).  Its fate is decided by the binding that it finds there, piece by piece (log
entry 133). -/
def State.multicastPiece (s : State) (id : Nat) (c : Copy) (x : Group) (src : Loc) (len off tag k n : Nat) :
    Host.Outcome State Fault Refusal :=
  match s.engineReadAfter (c.reader x) c.ahead ⟨src.sp, src.addr + k / 16⟩ n with
  | .bytes bs =>
    let (s, ok) := s.deliver (dieOf x.core * 16 + k % 16) tag off len (k / 16) bs
    .next (s.landPiece id c k n (!ok))
  | e => s.copyStop id c x (c.done + c.leftBytes) e

/-- A piece of a request completes (R270, R274). -/
def execCopyPieceComplete (id k : Nat) (s : State) : Host.Outcome State Fault Refusal :=
  match s.copies.find? id with
  | none => .refused .notEnabled
  | some c =>
    match s.group? c.grp with
    | none => .refused .notEnabled
    | some x =>
      if !c.begun || s.waitsOn (.copy id) then .refused .notEnabled
      else match c.piece k with
      | none => .refused .notEnabled
      | some n => match c.kind with
        | .linear src dst len => s.movePiece id c x src c.grp x dst k n len
        | .tileIn src tile mxin mq qs mf tf =>
          match s.engineReadAfter (c.reader x) c.ahead src (if mxin then imageSize mf else storedSize mf) with
          | .bytes bs => .next (((s.fillTile tile (tileOfBytes mxin mq qs mf tf bs)).landPiece id c k 2048).gcTiles)
          | e => s.copyStop id c x 2048 e
        | .tileOut tile dst zero mq mf =>
          match s.tiles.find? tile with
          | none => .refused .notEnabled
          | some t =>
            let bs := ((if zero then TileData.zero else t.read).convert mf mq).bytes
            if !zero && t.st == .filling then .refused .notEnabled
            else match s.engineWrite c.grp x ⟨dst.sp, dst.addr + k⟩ ((bs.drop k).take n) with
              | .ok s => .next ((s.landPiece id c k n).gcTiles)
              | .error e => s.copyStop id c x bs.length e
        | .multi src len off tag _ => s.multicastPiece id c x src len off tag k n
        | .gather b count dst size base seg =>
          match s.engineReadAfter (c.reader x) c.ahead ⟨true, b + 4 * (k / size)⟩ 4 with
          | .bytes ix =>
            let off := littleEndian ix * size
            if seg < off + size ∨ 2 ^ 57 < base + off + size then .next (s.failCopy id c 3 (base + off) (count * size))
            else match s.engineReadAfter (c.reader x) c.ahead ⟨false, base + off + k % size⟩ n with
              | .bytes bs =>
                match s.engineWrite c.grp x ⟨true, dst + k⟩ bs with
                | .ok s => .next (s.landPiece id c k n)
                | .error e => s.copyStop id c x (count * size) e
              | e => s.copyStop id c x (count * size) e
          | e => s.copyStop id c x (count * size) e
        | .put _ src len =>
          match c.slotLoc x with
          | some dst => s.movePiece id c x src c.grp x dst k n len
          | none => .refused .notEnabled
        | .send _ _ _ len src =>
          match c.dest with
          | none => .refused .notEnabled
          | some (g, _) =>
            match s.group? g with
            | none => .refused .notEnabled
            | some y =>
              match c.slotLoc y with
              | some dst => s.movePiece id c x ⟨true, src⟩ g y dst k n len
              | none => .refused .notEnabled

/-- The request at the head of a ring's line takes the free slot at the tail (R279). -/
def execRingSlotAssign (id : Nat) (s : State) : Host.Outcome State Fault Refusal :=
  match s.copies.find? id with
  | none => .refused .notEnabled
  | some c =>
    match c.dest with
    | none => .refused .notEnabled
    | some (g, r) =>
      match s.group? g with
      | none => .refused .notEnabled
      | some y =>
        let k := y.ring r
        if c.slot.isNone && k.wait.head? == some id && k.tailFree then
          let s := s.landRing g r fun k => { k.assign .assigned c.kind.msgLen with wait := k.wait.tail }
          .next { s with copies := s.copies.put id { c with slot := some k.tail } }
        else .refused .notEnabled

/-! ## Messages (R282) -/

/-- The message ring of a port of a quad: its group and number. -/
def State.portRing (s : State) (quad port : Nat) : Option (Nat × Nat) :=
  s.groups.findSome? fun p =>
    if quadOf p.2.core = quad then
      ((List.range p.2.rings.length).find? fun r =>
        let k := p.2.ring r
        k.bound && k.msg && k.port == port).map fun r => (p.1, r)
    else none

/-- The bytes of a message are discarded (R282). -/
def State.discardMessage (s : State) (id : Nat) (c : Copy) (err : Option (Nat × Nat)) : State :=
  let s := (s.discardCopy id).leave c.grp
  match err with
  | some (g, r) => s.landRing g r fun k => { k with err := true }
  | none => s

/-- A message reaches the receiving quad, after the messages to that port that its group sent before it (R279,
R282). -/
def execSendArrival (id : Nat) (s : State) : Host.Outcome State Fault Refusal :=
  match s.copies.find? id with
  | none => .refused .notEnabled
  | some c =>
    match c.kind, s.group? c.grp with
    | .send die quad port len _, some x =>
      let earlier := s.copies.any fun o => decide (o.1 < id) && o.2.grp == c.grp && o.2.dest.isNone &&
        match o.2.kind with
        | .send d q p _ _ => d == die && q == quad && p == port
        | _ => false
      if !c.begun || c.dest.isSome || earlier then .refused .notEnabled
      else match s.portRing (die * 16 + quad) port with
        | none => .next (s.discardMessage id c none)
        | some (g, r) =>
          match s.group? g with
          | none => .refused .notEnabled
          | some y =>
            let k := y.ring r
            let l := s.launchOf x
            if k.plaunch ≠ l.ident ∨ k.pgrp ≠ x.grp ∨ k.slotSize < len then .next (s.discardMessage id c (some (g, r)))
            else
              let s := { s with copies := s.copies.put id { c with dest := some (g, r) } }
              .next (s.modRing g r fun k => { k with wait := k.wait ++ [id] })
    | _, _ => .refused .notEnabled

/-- The first piece that is left of a multicast reaches a quad of its mask (R284). -/
def execMulticastDelivery (id quad : Nat) (s : State) : Host.Outcome State Fault Refusal :=
  match s.copies.find? id with
  | none => .refused .notEnabled
  | some c =>
    match c.kind, s.group? c.grp, c.left.find? fun p => p.1 % 16 == quad with
    | .multi src len off tag _, some x, some (k, n) =>
      if !c.begun || s.waitsOn (.copy id) then .refused .notEnabled
      else s.multicastPiece id c x src len off tag k n
    | _, _, _ => .refused .notEnabled

/-- An engine reads a byte of a source ahead, for a copy or a stream operation that runs; it goes on from what it found
(R275, R307).  An operation of a group that is away from its core is paused (R313). -/
def readAhead (stream : Bool) (id : Nat) (loc : Loc) (s : State) : Host.Outcome State Fault Refusal :=
  let go (grp : Nat) (view : Group → Group) (k : Byte → State) : Host.Outcome State Fault Refusal :=
    match s.group? grp with
    | none => .refused .notEnabled
    | some x =>
      match s.engineRead (view x) loc 1 with
      | .bytes [b] => .next (k b)
      | _ => .refused .notEnabled
  if stream then
    match s.sops.find? id with
    | some o =>
      if o.begun && !s.waitsOn (.stream id) && ((s.group? o.grp).map Group.resident).getD false then
        go o.grp (fun x => x) fun b => { s with sops := s.sops.put id { o with ahead := o.ahead.put (aheadKey loc) b } }
      else .refused .notEnabled
    | none => .refused .notEnabled
  else
    match s.copies.find? id with
    | some c =>
      if c.begun && !s.waitsOn (.copy id) then
        go c.grp c.reader fun b => { s with copies := s.copies.put id { c with ahead := c.ahead.put (aheadKey loc) b } }
      else .refused .notEnabled
    | none => .refused .notEnabled

end Sys2Proof.Machine
end

