-- ==== Sys2Proof/Machine/Stream.lean ====
section
/-!
DEFINITION. The stream engine: its instructions (R315-R319), their instances (R305), and how an operation reads,
writes its outputs, pauses and stops (R307-R312).
-/
namespace Sys2Proof.Machine

def streamFault (cause : Nat) : Stop := .of .streamOperand cause

/-! ## Instructions -/

/-- The size of an element of a stream (R303). -/
def elemSize : Ty → Nat
  | .bf16l | .f16 => 2
  | _ => 4

/-- The place of a stream in memory, checked as a read, its alignment included (R212, R304, R315). -/
def Thread.streamPlace (t : Thread) (f : Fields) (b n : Nat) : Except Stop Loc :=
  if f.a = 248 then
    if b + n * elemSize f.t > 2 ^ 22 then .error (streamFault 3)
    else if b % elemSize f.t ≠ 0 then .error (.of .alignment 0 b)
    else .ok ⟨true, b⟩
  else do
    let loc ← t.place f.a.toNat b (n * elemSize f.t) false
    if loc.addr % elemSize f.t ≠ 0 then throw (.of .alignment 0 loc.addr)
    pure loc

/-- The segment register value that a segment operand captures (R302); `q` has none. -/
def Thread.segOf (t : Thread) (a : BitVec 8) : DWord := if a = 248 then 0 else t.seg (a.toNat - 200)

/-- R315. -/
def execSopen (f : Fields) (s : State) : Host.Outcome State Fault Refusal :=
  issueEach (.sopen f) f (fun r g t s => Act.of do
    let b := (t.reg f.b.toNat).toNat
    let n := (t.srcHi f.b).toNat
    if 2 ^ 24 < n then throw (streamFault 1)
    let _ ← t.streamPlace f b n
    if b % elemSize f.t ≠ 0 then throw (streamFault 2)
    pure (s.joinInst r g t (.stream (.sopen f.d.toNat (f.a == 248) (t.segOf f.a) b f.t n)) none)) s

/-- R315. -/
def execSclose (f : Fields) (s : State) : Host.Outcome State Fault Refusal :=
  issueEach (.sclose f) f (fun r g t s => .next (s.joinInst r g t (.stream (.sclose f.d.toNat)) none)) s

/-- R316. -/
def execSisect (f : Fields) (s : State) : Host.Outcome State Fault Refusal :=
  issueEach (.sisect f) f (fun r g t s =>
    .next (s.joinInst r g t (.stream (.sisect f.d.toNat f.a.toNat f.b.toNat)) none)) s

/-- R316. -/
def execSmerge (f : Fields) (s : State) : Host.Outcome State Fault Refusal :=
  issueEach (.smerge f) f (fun r g t s =>
    .next (s.joinInst r g t (.stream (.smerge (f.fn == 1) f.d.toNat f.a.toNat f.b.toNat)) none)) s

/-- R316. -/
def execScount (f : Fields) (s : State) : Host.Outcome State Fault Refusal :=
  issueEach (.scount f) f (fun r g t s =>
    let q := s.fresh
    .next ((s.defer r (dstOf f.d) .engine).joinInst r g t (.stream (.scount f.a.toNat f.b.toNat)) (some q))) s

/-- R317; D may be 248, for no counter (log entry 124). -/
def execNzscan (f : Fields) (s : State) : Host.Outcome State Fault Refusal :=
  issueEach (.nzscan f) f (fun r g t s =>
    let l := f.imm.toNat
    let b := (t.reg f.b.toNat).toNat
    if l < 1 ∨ 16384 < l then .stop (streamFault 1)
    else if 2 ^ 22 < b + 16 + 8 * l then .stop (streamFault 3)
    else if b % 16 ≠ 0 then .stop (streamFault 2)
    else .next (s.joinInst r g t (.stream (.nzscan f.a.toNat (ctrOf f.d) b l)) none)) s

/-- Whether a tile may be filled by the instance of a cohort at a code offset (R318, R330). -/
def State.fillable (s : State) (tile d coh : Nat) (pc : Word) : Bool :=
  match s.tiles.find? tile with
  | some t => t.st == .free || (t.st == .filling && t.fillBy == some (coh, pc) && t.fillDom == some d)
  | none => false

/-- R318. -/
def execSgath (f : Fields) (s : State) : Host.Outcome State Fault Refusal :=
  issueEach (.sgath f) f (fun r g t s =>
    let imm := f.imm.toNat
    let n := imm / 64 % 16 + 1
    let t0 := f.d.toNat
    let coh := r.tid / 64
    let d := g.domOf r.tid
    let names := (List.range n).map (t0 + ·)
    let c := (t.reg f.c.toNat).toNat
    let pitch := (t.srcHi f.c).toNat
    match g.staleName coh (names.filter (· < 64)) with
    | some e => .stop e
    | none =>
      let tiles := g.mappedTiles coh names
      let (sp, base, size) := if f.b = 248 then (true, 0, 2 ^ 22)
        else (false, segBase (t.seg (f.b.toNat - 200)), segSize (t.seg (f.b.toNat - 200)))
      let ctr := if imm / 32 % 2 = 1 then some (imm % 32) else none
      if 63 < t0 + n - 1 then .stop (streamFault 1)
      else if c % 2 ≠ 0 ∨ pitch % 2 ≠ 0 then .stop (streamFault 2)
      else if !tiles.all (s.fillable · d coh t.pc) then .stop (streamFault 4)
      else
        let fmt := if f.t = .f16 then 1 else 0
        let s := tiles.foldl (fun s i => s.startFill i fmt false (some d) (some (coh, t.pc))) s
        .next (s.joinInst r g t (.stream (.sgath f.a.toNat tiles sp base size c pitch ctr)) none)) s

/-- R319: the stream is sampled at the commit. -/
def execSstat (f : Fields) (s : State) : Host.Outcome State Fault Refusal :=
  issueEach (.sstat f) f (fun r _ _ s =>
    let q := s.fresh
    .next ((s.defer r (dstOf f.d) .commit).buffer r (.sstat f.a.toNat q))) s

/-! ## Operations (R307-R312) -/

/-- An element of a captured range. -/
def State.element (s : State) (x : Group) (ahead : Table Byte) (loc : Loc) (t : Ty) (i : Nat) : Except Got Word :=
  match s.engineReadAfter x ahead ⟨loc.sp, loc.addr + i * elemSize t⟩ (elemSize t) with
  | .bytes bs =>
    let w : Word := BitVec.ofNat 32 (littleEndian bs)
    .ok (match t with
      | .bf16l => toF32 0 (numBf16 (w.setWidth 16))
      | .f16 => toF32 0 (numF16 (w.setWidth 16))
      | _ => w)
  | e => .error e

/-- An operation's element is taken, of its first stream or its second: a stream out of ascending order is marked (R310). -/
def State.seen (s : State) (o : SOp) (second : Bool) (prev : Option Word) (w : Word) : State :=
  match prev with
  | some p =>
    if w ≤ p then s.modSources o.grp (if second then o.sources.drop 1 else o.sources.take 1) fun m => { m with ord := true }
    else s
  | none => s

/-- One turn of the loop of R310: the records it emits, and the operation after it; `none` at the end of the loop. -/
def State.walkOnce (s : State) (x : Group) (o : SOp) : Except Got (Option (State × SOp × List Word)) :=
  match o.kind with
  | .smerge uniq .. => do
    if o.aEnd ≤ o.i ∧ o.bEnd ≤ o.j then return none
    let va ← if o.i < o.aEnd then (s.element x o.ahead o.aLoc .n32 o.i).map some else .ok none
    let vb ← if o.j < o.bEnd then (s.element x o.ahead o.bLoc .n32 o.j).map some else .ok none
    let s := match va with | some w => s.seen o false o.prevA w | none => s
    let s := match vb with | some w => s.seen o true o.prevB w | none => s
    let takeA : Bool := match va, vb with
      | some v, some w => decide (v.toNat ≤ w.toNat)
      | some _, none => true
      | _, _ => false
    let v := (if takeA then va else vb).getD 0
    let o := if takeA then { o with i := o.i + 1, prevA := va } else { o with j := o.j + 1, prevB := vb }
    if uniq && o.last == some v then return some (s, o, [])
    return some (s, { o with last := some v }, [v])
  | .sisect .. | .scount .. => do
    if o.aEnd ≤ o.i ∨ o.bEnd ≤ o.j then return none
    let v ← s.element x o.ahead o.aLoc .n32 o.i
    let w ← s.element x o.ahead o.bLoc .n32 o.j
    let s := (s.seen o false o.prevA v).seen o true o.prevB w
    if v.toNat < w.toNat then return some (s, { o with i := o.i + 1, prevA := some v }, [])
    if w.toNat < v.toNat then return some (s, { o with j := o.j + 1, prevB := some w }, [])
    return some (s, { o with i := o.i + 1, j := o.j + 1, prevA := some v, prevB := some w },
      [BitVec.ofNat 32 o.i, BitVec.ofNat 32 o.j])
  | _ => .ok none

/-- The bytes of a record and the ring of an operation that fills one (R308). -/
def StreamKind.recSize : StreamKind → Nat
  | .smerge .. => 4
  | _ => 8

/-- How far an operation has come. -/
inductive Ran where
  /-- Its open slot is full. -/
  | full (s : State) (o : SOp)
  /-- Its loop has ended. -/
  | ended (s : State) (o : SOp)
  /-- A record finds no free slot at the tail. -/
  | blocked
  /-- It has taken as many elements as it was to. -/
  | more (s : State) (o : SOp)
  | stopped (s : State) (o : SOp) (e : Got)

/-- The slot that the next record goes to: the open one, or the one at the tail, if it is free and the operation is the
first in the ring's line (R279, R308). -/
def State.openSlot (s : State) (id : Nat) (o : SOp) (x : Group) (r : Nat) : Option (State × SOp) :=
  match o.slot with
  | some _ => some (s, o)
  | none =>
    let k := x.ring r
    if k.wait.head? = some id ∧ k.tailFree then
      some (s.modRing o.grp r (·.assign .assigned 0), { o with slot := some (k.tail, 0) })
    else none

/-- A record written in the open slot. -/
def State.emit (s : State) (id : Nat) (o : SOp) (x : Group) (r : Nat) (ws : List Word) : State × SOp :=
  match o.slot with
  | none => (s, o)
  | some (i, n) =>
    let k := x.ring r
    let s := s.landScratch o.grp (k.base + k.slotSize * i + n) (ws.flatMap fun w => bytesOf 4 w.toNat) id
    (s, { o with slot := some (i, n + 4 * ws.length) })

/-- The loop of a ring operation until its slot is full, it ends, or something stops it. -/
def State.runRing (s : State) (id : Nat) (o : SOp) (r : Nat) : Nat → Ran
  | 0 => .more s o
  | fuel + 1 =>
    match s.group? o.grp with
    | none => .blocked
    | some x =>
      match s.walkOnce x o with
      | .error e => .stopped s o e
      | .ok none => .ended s o
      | .ok (some (s', o', [])) => s'.runRing id o' r fuel
      | .ok (some (s', o', ws)) =>
        match s'.openSlot id o' x r with
        | none => .blocked
        | some (s', o') =>
          match s'.group? o.grp with
          | none => .blocked
          | some x =>
            let (s', o') := s'.emit id o' x r ws
            let n := match o'.slot with | some p => p.2 | none => 0
            if (x.ring r).slotSize < n + o'.kind.recSize then .full s' o' else s'.runRing id o' r fuel

/-- The loop of `scount`. -/
def State.runCount (s : State) (o : SOp) : Nat → Ran
  | 0 => .more s o
  | fuel + 1 =>
    match s.group? o.grp with
    | none => .blocked
    | some x =>
      match s.walkOnce x o with
      | .error e => .stopped s o e
      | .ok none => .ended s o
      | .ok (some (s', o', ws)) => s'.runCount { o' with found := o'.found + ws.length / 2 } fuel

/-- Whether an element counts as non-zero (R317). -/
def nonZero (t : Ty) (w : Word) : Bool := if t = .n32 then w != 0 else w &&& 0x7FFFFFFF#32 != 0

/-- The scan of `nzscan`. -/
def State.runScan (s : State) (o : SOp) : Nat → Ran
  | 0 => .more s o
  | fuel + 1 =>
    match s.group? o.grp with
    | none => .blocked
    | some x =>
      if o.aEnd ≤ o.i then .ended s o
      else match s.element x o.ahead o.aLoc o.aTy o.i with
        | .error e => .stopped s o e
        | .ok w => 
          let out := if nonZero o.aTy w then o.out ++ [(o.i, w)] else o.out
          s.runScan { o with i := o.i + 1, out := out } fuel

/-- The row of a tile that an element of the index stream names (R318): its bytes.  A row outside the scratchpad has no
virtual address to report (R312). -/
def State.gatherRow (s : State) (x : Group) (o : SOp) (sp : Bool) (base size off pitch : Nat) : Except Got (List Byte) :=
  if o.aEnd ≤ o.i then .ok (List.replicate 64 0)
  else match s.element x o.ahead o.aLoc .n32 o.i with
    | .error e => .error e
    | .ok w =>
      if w = 0xFFFFFFFF then .ok (List.replicate 64 0)
      else
        let a := off + w.toNat * pitch
        if size < a + 64 ∨ 2 ^ 57 < base + a + 64 then .error (.fault 6 (if sp then 0 else (base + a) % 2 ^ 57))
        else match s.engineReadAfter x o.ahead ⟨sp, base + a⟩ 64 with
          | .bytes bs => .ok bs
          | e => .error e

/-- A row of 16-bit elements put in a tile. -/
def TileData.setRow (t : TileData) (row : Nat) (bs : List Byte) : TileData :=
  let codes := (List.range 32).zip (unpackCodes 16 32 (littleEndian bs))
  { t with codes := codes.foldl (fun c p => Table.set 0 c (row * 32 + p.1) p.2) t.codes }

/-- The rows of one handle of `sgath`. -/
def State.runRows (s : State) (o : SOp) (tile : Nat) (sp : Bool) (base size off pitch : Nat) : Nat → Ran
  | 0 => .more s o
  | fuel + 1 =>
    match s.group? o.grp with
    | none => .blocked
    | some x =>
      match s.gatherRow x o sp base size off pitch with
      | .error e => .stopped s o e
      | .ok bs =>
        let row := (o.i - o.start) % 32
        let s := s.modTile tile fun t => { t with data := t.data.setRow row bs }
        let o := { o with i := o.i + 1 }
        if row = 31 then .ended s o else s.runRows o tile sp base size off pitch fuel

/-! ### Stops -/

def State.putOp (s : State) (id : Nat) (o : SOp) : State := { s with sops := s.sops.put id o }

/-- The operation is over; the group may leave (R14). -/
def State.endOp (s : State) (id : Nat) (o : SOp) : State := (({ s with sops := s.sops.erase id }).gcTiles).leave o.grp

/-- The open slot closes with what is in it (R308). -/
def State.closeSlot (s : State) (o : SOp) (r : Nat) : State × SOp :=
  match o.slot with
  | none => (s, o)
  | some (i, n) =>
    let s := s.modRing o.grp r (·.fill i n)
    (s.checkRing o.grp r, { o with slot := none })

/-- The scratchpad area of `nzscan` (R317). -/
def scanArea (n : Nat) (out : List (Nat × Word)) : List Byte :=
  let pad := n - out.length
  (bytesOf 4 out.length ++ bytesOf 4 n ++ List.replicate 8 0) ++
    out.flatMap (fun p => bytesOf 4 p.1) ++ List.replicate (4 * pad) 0xFF ++
    out.flatMap (fun p => bytesOf 4 p.2.toNat) ++ List.replicate (4 * pad) 0

/-- The handles of an `sgath` from a number on are full, their rest zero rows, and counted as undelivered (R312,
R430). -/
def State.abandonTiles (s : State) (g : Nat) (ctr : Option Nat) (tiles : List Nat) : State :=
  tiles.foldl (fun s t => (s.modTile t fun b => { b with st := .full, fillDom := none, fillBy := none }).countIn g ctr 2048 true) s

/-- An engine fault stops an operation (R312).  One whose ring still takes the terminator stays for that alone, and no longer keeps
its group on the core (R14). -/
def State.failOp (s : State) (id : Nat) (o : SOp) (cause addr : Nat) : State :=
  let s := s.engineFault o.grp (streamRecord o.pc o.rank (min o.i o.aEnd - o.start) addr o.kind.first o.kind.op cause)
  let s := s.modSources o.grp o.sources fun m => { m with err := true }
  match o.kind with
  | .sisect r .. | .smerge _ r .. =>
    if cause = 7 then s.endOp id o
    else
      let (s, o) := s.closeSlot o r
      (s.putOp id { o with i := o.aEnd, j := o.bEnd, faulted := true }).leave o.grp
  | .scount .. => (o.takers.foldl (fun s p => s.result p.1 p.2 (.vals [BitVec.ofNat 32 o.found])) s).endOp id o
  | .nzscan _ c _ _ =>
    ((s.countIn o.grp c (16 + 8 * (o.aEnd - o.start)) true).outDone o.grp c).endOp id o
  | .sgath _ tiles _ _ _ _ _ c =>
    ((s.abandonTiles o.grp c (tiles.drop ((o.i - o.start) / 32))).outDone o.grp c).endOp id o
  | _ => s.endOp id o

/-- What follows a stopped run: a pause (R311), an engine fault, or a machine check. -/
def State.stopOp (s : State) (id : Nat) (o : SOp) (e : Got) : Host.Outcome State Fault Refusal :=
  match s.group? o.grp, e with
  | some x, .miss a v _ => .next ((s.putOp id o).addMiss x.core a v (.stream id))
  | some _, .fault cause va => .next (s.failOp id o (if cause = 6 then 6 else 5) va)
  | some _, .poison => .next (s.kill o.grp)
  | _, _ => .refused .notEnabled

/-- The turns that a ring operation can still take. -/
def SOp.turns (o : SOp) : Nat := (o.aEnd - o.i) + (o.bEnd - o.j) + 1

/-- Whether an operation may go on: it reads, its group is on a core, and it waits for no page. -/
def State.opRuns (s : State) (id : Nat) (o : SOp) : Bool :=
  o.begun && !s.waitsOn (.stream id) && match s.group? o.grp with
    | some x => x.resident
    | none => false

/-- Whether the output ring of an operation is still the one it writes (R312). -/
def State.ownsRing (s : State) (id : Nat) (o : SOp) (r : Nat) : Bool :=
  match s.group? o.grp with
  | some x => (x.ring r).bound && (x.ring r).wait.contains id
  | none => false

/-! ### Events -/

/-- A started operation begins to read: one of the 16 oldest of its group (R307), once it may read (R40). -/
def execStreamOperationBegin (id : Nat) (s : State) : Host.Outcome State Fault Refusal :=
  match s.sops.find? id with
  | none => .refused .notEnabled
  | some o =>
    let before := (s.sops.filter fun p => p.2.grp == o.grp && decide (p.1 < id)).length
    if o.begun = false ∧ before < 16 ∧ s.readsHeld (.stream id) = false then
      .next (s.putOp id { o with begun := true })
    else .refused .notEnabled

/-- A slot of a ring operation closes: it is full, or the loop has ended (R308). -/
def State.slotClose (s : State) (id : Nat) (o : SOp) (r : Nat) : Host.Outcome State Fault Refusal :=
  if !s.ownsRing id o r then .next (s.failOp id o 7 0)
  else match s.runRing id o r o.turns with
    | .full s o => let (s, o) := s.closeSlot o r; .next (s.putOp id o)
    | .ended s o =>
      if o.slot.isSome then let (s, o) := s.closeSlot o r; .next (s.putOp id o) else .refused .notEnabled
    | .blocked | .more .. => .refused .notEnabled
    | .stopped s o e => s.stopOp id o e

/-- The next handle of an `sgath` is full, and counted (R318). -/
def State.closeHandle (s : State) (id : Nat) (o : SOp) (last : Bool) : Host.Outcome State Fault Refusal :=
  match o.kind with
  | .sgath _ tiles sp base size off pitch c =>
    let k := (o.i - o.start) / 32
    match tiles[k]? with
    | none => .refused .notEnabled
    | some tile =>
      if last != (k + 1 == tiles.length) then .refused .notEnabled
      else match s.runRows o tile sp base size off pitch 32 with
        | .ended s o =>
          let s := (s.modTile tile fun t => { t with st := .full, fillDom := none, fillBy := none }).countIn o.grp c 2048
          .next (if last then (s.outDone o.grp c).endOp id o else s.putOp id o)
        | .stopped s o e => s.stopOp id o e
        | _ => .refused .notEnabled
  | _ => .refused .notEnabled

/-- An output slot closes; for `sgath`, a handle but the last one is full (R308, R318). -/
def execStreamSlotClose (id : Nat) (s : State) : Host.Outcome State Fault Refusal :=
  match s.sops.find? id with
  | none => .refused .notEnabled
  | some o =>
    if !s.opRuns id o then .refused .notEnabled
    else match o.kind with
      | .sisect r _ _ | .smerge _ r _ _ => s.slotClose id o r
      | .sgath .. => s.closeHandle id o false
      | _ => .refused .notEnabled

/-- An operation takes up to `n` elements or rows, and goes on later from where it stands (R307); a slot that it fills closes
(R308), and the last row of a handle is left to the handle's completion. -/
def streamAdvance (id n : Nat) (s : State) : Host.Outcome State Fault Refusal :=
  match s.sops.find? id with
  | none => .refused .notEnabled
  | some o =>
    let run : Ran := match o.kind with
      | .sisect r .. | .smerge _ r .. => if s.ownsRing id o r then s.runRing id o r n else .blocked
      | .scount .. => s.runCount o n
      | .nzscan .. => s.runScan o n
      | .sgath _ tiles sp base size off pitch _ =>
        match tiles[(o.i - o.start) / 32]? with
        | some tile => if n < 32 - (o.i - o.start) % 32 then s.runRows o tile sp base size off pitch n else .blocked
        | none => .blocked
      | _ => .blocked
    if !s.opRuns id o then .refused .notEnabled
    else match run with
      | .more s o | .ended s o => .next (s.putOp id o)
      | .full s o => match o.kind.ring with
        | some r => let (s, o) := s.closeSlot o r; .next (s.putOp id o)
        | none => .refused .notEnabled
      | .blocked => .refused .notEnabled
      | .stopped s o e => s.stopOp id o e

/-- The end of a ring operation: the terminator, one slot of length 0 (R308). -/
def State.ringEnd (s : State) (id : Nat) (o : SOp) (r : Nat) : Host.Outcome State Fault Refusal :=
  if !s.ownsRing id o r then .next (s.failOp id o 7 0)
  else match s.runRing id o r o.turns with
    | .ended s o =>
      match s.group? o.grp with
      | none => .refused .notEnabled
      | some x =>
        if o.slot.isSome then .refused .notEnabled
        else match s.openSlot id o x r with
          | none => .refused .notEnabled
          | some (s, o) =>
            let (s, o) := s.closeSlot o r
            .next ((s.modRing o.grp r fun k => { k with wait := k.wait.filter (· != id) }).endOp id o)
    | .stopped s o e => s.stopOp id o e
    | _ => .refused .notEnabled

/-- An operation ends and hands on its terminator, area, last handle or count (R308, R309, R316). -/
def execStreamOperationEnd (id : Nat) (s : State) : Host.Outcome State Fault Refusal :=
  match s.sops.find? id with
  | none => .refused .notEnabled
  | some o =>
    if !s.opRuns id o then .refused .notEnabled
    else match o.kind with
      | .sisect r _ _ | .smerge _ r _ _ => s.ringEnd id o r
      | .scount .. =>
        match s.runCount o o.turns with
        | .ended s o =>
          .next ((o.takers.foldl (fun s p => s.result p.1 p.2 (.vals [BitVec.ofNat 32 o.found])) s).endOp id o)
        | .stopped s o e => s.stopOp id o e
        | _ => .refused .notEnabled
      | .nzscan _ c out _ =>
        match s.runScan o o.turns with
        | .ended s o =>
          let n := o.aEnd - o.start
          let s := s.landScratch o.grp out (scanArea n o.out) id
          .next (((s.countIn o.grp c (16 + 8 * n)).outDone o.grp c).endOp id o)
        | .stopped s o e => s.stopOp id o e
        | _ => .refused .notEnabled
      | .sgath .. => s.closeHandle id o true
      | _ => .refused .notEnabled

end Sys2Proof.Machine
end

