-- ==== Sys2Proof/Machine/TileOps.lean ====
section
/-!
DEFINITION. Instructions that name tile handles: allocation and hand-over (R350-R353), contents (R354, R355), and
`cpyt` (R291).
-/
namespace Sys2Proof.Machine

def matrixFault (cause : Nat) : Stop := .of .matrixOperand cause

/-! ## What an instruction finds in a handle (R330, R333, R431) -/

/-- The tile of a handle of a thread's cohort. -/
inductive Handle where
  | stale (e : Stop)
  | tile (id : Nat) (t : Tile)

def State.handle (s : State) (x : Group) (coh n : Nat) : Handle :=
  match x.name coh n with
  | .released => .stale (.of .staleHandle 1)
  | .given => .stale (.of .staleHandle 2)
  | .mapped id => .tile id ((s.tiles.find? id).getD { quad := 0, grp := 0 })

/-- The gate of an instruction that reads a tile at issue: a fill of the thread's own domain that has not committed, a
pending fill, a bad header (R330, R431). -/
inductive Gate where
  | open_
  | stop (e : Stop)
  | wait

def Tile.fillGate (t : Tile) (d : Nat) : Gate :=
  if t.st = .filling then
    if t.fillDom = some d then .stop (matrixFault 2) else .wait
  else .open_

def Tile.headGate (t : Tile) : Gate := if t.st = .full && t.data.bad then .stop (.of .scaleHeader) else .open_

def Tile.gate (t : Tile) (d : Nat) : Gate :=
  match t.fillGate d with
  | .open_ => t.headGate
  | k => k

/-- The act behind a gate. -/
def Gate.once (k : Gate) (s : State) (go : Once) : Once :=
  match k with
  | .open_ => go
  | .stop e => .stop e
  | .wait => .wait s

/-! ## Names (R350, R351) -/

def nameRun (first n : Nat) : List Nat := (List.range n).map (first + ·)

def Name.isReleased : Name → Bool
  | .mapped _ => false
  | _ => true

/-- R350: a request that finds too few slots, or others before it, waits. -/
def execTalloc (f : Fields) (s : State) : Host.Outcome State Fault Refusal :=
  issueOnce (.talloc f) f (fun r g t s =>
    let n := f.imm.toNat
    let first := f.d.toNat
    let coh := r.tid / 64
    let q := quadOf g.core
    if n < 1 ∨ 64 < n then .stop (matrixFault 1)
    else if 64 < first + n then .stop (matrixFault 3)
    else if !(nameRun first n).all (fun k => (g.name coh k).isReleased) then .stop (matrixFault 2)
    else if (s.quad q).tallocs.isEmpty && decide (n ≤ s.poolFree q) then .act (s.mapNames r.grp coh first n) .none
    else if (s.quad q).tallocs.any fun e => e.who.grp == r.grp && e.who.tid / 64 == coh && e.pc == t.pc &&
        g.domOf e.who.tid == g.domOf r.tid then .wait s
    else .wait (s.modQuad q fun k => { k with tallocs := k.tallocs ++ [{ who := r, pc := t.pc, first := first, n := n }] })) s

/-- The request at the head of a quad's line gets its slots (R328). -/
def execTallocGrant (quad : Nat) (s : State) : Host.Outcome State Fault Refusal :=
  match (s.quad quad).tallocs with
  | [] => .refused .notEnabled
  | e :: rest =>
    match s.group? e.who.grp with
    | none => .refused .notEnabled
    | some x =>
      if e.n ≤ s.poolFree quad then
        let s := s.modQuad quad fun k => { k with tallocs := rest }
        let s := s.mapNames e.who.grp (e.who.tid / 64) e.first e.n
        .next (s.joinInst e.who x { pc := e.pc } .none none)
      else .refused .notEnabled

/-- R350. -/
def execTfree (f : Fields) (s : State) : Host.Outcome State Fault Refusal :=
  issueOnce (.tfree f) f (fun r g _ s =>
    let n := f.imm.toNat
    let coh := r.tid / 64
    let names := nameRun f.d.toNat n
    if n < 1 ∨ 64 < n then .stop (matrixFault 1)
    else if 64 < f.d.toNat + n then .stop (matrixFault 3)
    else match g.staleName coh names with
      | some e => .stop e
      | none =>
        .act ((s.modGroup r.grp fun x => names.foldl (fun x k => x.setName coh k .released) x).gcTiles) .none) s

/-- R351: the giver's name is released at issue; the posting is made at the commit. -/
def execTgive (f : Fields) (s : State) : Host.Outcome State Fault Refusal :=
  issueOnce (.tgive f) f (fun r g _ s =>
    let coh := r.tid / 64
    let dest := f.imm.toNat % 16
    match s.handle g coh f.d.toNat with
    | .stale e => .stop e
    | .tile id _ =>
      if g.ncoh ≤ dest then .stop (matrixFault 5)
      else .act (s.modGroup r.grp fun x => x.setName coh f.d.toNat .given) (.tgive id dest (f.imm.toNat / 16 % 16))) s

/-- R351: every thread of the instance waits for the posting. -/
def execTtake (f : Fields) (s : State) : Host.Outcome State Fault Refusal :=
  issueEach (.ttake f) f (fun r g t s =>
    if (s.findInst r g t.pc).isNone && !(g.name (r.tid / 64) f.d.toNat).isReleased then .stop (matrixFault 2)
    else .next (s.joinInst r g t (.ttake f.d.toNat (f.imm.toNat % 16)) (some 0))) s

/-- A parked `ttake` is tried again (R331, R368). -/
def execTtakePeriodicCheck (g tid : Nat) (s : State) : Host.Outcome State Fault Refusal :=
  match s.group? g, s.thread? ⟨g, tid⟩ with
  | some x, some t =>
    if !x.afterCommit tid t || t.takes.isEmpty then .refused .notEnabled
    else .next ((t.takes.foldl (fun s p => s.retryTake g (tid / 64, p)) s).wakeAcquires g)
  | _, _ => .refused .notEnabled

/-- The word of `tqry` (R352). -/
def State.tqryWord (s : State) (x : Group) (coh n : Nat) : Word :=
  let free := s.poolFree (quadOf x.core)
  match x.name coh n with
  | .released => BitVec.ofNat 32 free
  | .given => BitVec.ofNat 32 (2 * 2 ^ 30 + free)
  | .mapped id =>
    match s.tiles.find? id with
    | some t => BitVec.ofNat 32 (pack [(0, 13, free), (25, 1, t.data.qs.toNat), (26, 4, t.data.fmt), (30, 2, 1)])
    | none => BitVec.ofNat 32 free

/-- A thread receives the one value that its instance samples: what has been sampled already, or what its own source gives
when the first result of the instance returns (R329, R347). -/
def State.deferShared (s : State) (r : TRef) (g : Group) (t : Thread) (dst : Dst) (src : Src) (now : Option (List Word)) :
    State :=
  let act := match s.findInst r g t.pc with
    | some i => i.act
    | none => .value now
  let src := match act with
    | .value (some l) => Src.sampled l
    | _ => src
  (s.defer r dst src).joinInst r g t act (some s.fresh)

/-- R352. -/
def execTqry (f : Fields) (s : State) : Host.Outcome State Fault Refusal :=
  issueEach (.tqry f) f (fun r g t s =>
    .next (s.deferShared r g t (dstOf f.d) (.tqry (r.tid / 64) f.a.toNat) none)) s

/-- R353: the mask is that of the issue of the instance's first thread. -/
def execTzf (f : Fields) (s : State) : Host.Outcome State Fault Refusal :=
  issueEach (.tzf f) f (fun r g t s =>
    if (s.findInst r g t.pc).isSome then .next (s.deferShared r g t (dstOf f.d) (.sampled []) none)
    else match s.handle g (r.tid / 64) f.a.toNat with
    | .stale e => .stop e
    | .tile _ k =>
      match k.gate (g.domOf r.tid) with
      | .stop e => .stop e
      | .wait => .wait s
      | .open_ => .next (s.deferShared r g t (dstOf f.d) (.sampled []) (some [k.read.zeroMask]))) s

/-! ## Tiles and memory (R354) -/

/-- The format code of a type that names a tile's format (R354). -/
def tileFmt : Ty → Nat
  | .bf16l => 0
  | .f16 => 1
  | .e4m3 => 2
  | .e5m2 => 3
  | .e2m1 => 4
  | _ => 5

/-- The copy request of a `tld`, `tst` or `cpyt`. -/
def State.tileCopy (s : State) (r : TRef) (g : Group) (t : Thread) (kind : CopyKind) (ctr : Option Nat) (op : Nat) :
    InstAct :=
  .copy { grp := r.grp, kind := kind, ctr := ctr, op := op, pc := t.pc, rank := s.rank g r.tid }

/-- R354. -/
def execTld (f : Fields) (s : State) : Host.Outcome State Fault Refusal :=
  issueOnce (.tld f) f (fun r g t s =>
    let fmt := tileFmt f.t
    let qs := f.fn == 1
    match s.handle g (r.tid / 64) f.d.toNat with
    | .stale e => .stop e
    | .tile id k =>
      if k.st ≠ .free then .stop (matrixFault 2)
      else if qs && !scaledFmt fmt then .stop (matrixFault 1)
      else match t.range f.a (t.memOff f) (storedSize fmt) 16 false with
        | .error e => .stop e
        | .ok loc =>
          .act (s.startFill id fmt qs (some (g.domOf r.tid)) (some (r.tid / 64, t.pc)))
            (s.tileCopy r g t (.tileIn loc id false qs qs fmt fmt) (ctrOf f.b) 0xA4)) s

/-- R354. -/
def execTst (f : Fields) (s : State) : Host.Outcome State Fault Refusal :=
  issueOnce (.tst f) f (fun r g t s =>
    match s.handle g (r.tid / 64) f.b.toNat with
    | .stale e => .stop e
    | .tile id k =>
      (k.gate (g.domOf r.tid)).once s <|
        match t.range f.a (t.memOff f) (storedSize k.data.fmt) 16 true with
        | .error e => .stop e
        | .ok loc => .act s (s.tileCopy r g t (.tileOut id loc (k.st == .free) k.data.qs k.data.fmt) (ctrOf f.d) 0xA5)) s

/-! ## `cpyt` (R285, R291) -/

/-- Whether the bits of a conversion word are good under R285 and, for FN 2, R287. -/
def convOk (w fn : Nat) : Bool :=
  let mf := w / 16 % 16
  let tf := w % 16
  let mq := w / 512 % 2
  let qs := w / 256 % 2
  decide (w < 2 ^ 10) && decide (mf ≤ 5) && decide (tf ≤ 5) && (scaledFmt mf || mq == 0) && (scaledFmt tf || qs == 0) &&
    (fn != 2 || mq == 0 && mf == tf && decide (2 ≤ mf) && decide (mf ≤ 4))

/-- R291.  A stale handle faults before a register-held conversion word that names a missing feature (R77, log entry 90). -/
def execCpyt (f : Fields) (s : State) : Host.Outcome State Fault Refusal :=
  issueOnce (.cpyt f) f (fun r g t s =>
    let w := (if f.c = 248 then 0 else t.reg f.c.toNat).toNat
    let off := (if f.b = 248 then 0 else t.reg f.b.toNat).toNat
    let mf := w / 16 % 16
    let tf := w % 16
    let mq := w / 512 % 2 == 1
    let qs := w / 256 % 2 == 1
    let fn := f.fn.toNat
    let ctr := if f.imm.toNat / 32 % 2 = 1 then some (f.imm.toNat % 32) else none
    match s.handle g (r.tid / 64) f.d.toNat with
    | .stale e => .stop e
    | .tile id k =>
      if !(fmtFeatures mf ++ fmtFeatures tf).all (s.launchOf g).fmask.getLsbD then .stop (.of .reserved)
      else (if fn = 1 then k.fillGate (g.domOf r.tid) else .open_).once s <|
        if !convOk w fn then .stop (copyFault 8)
        else match t.range f.a off (if fn = 2 then imageSize mf else storedSize mf) 1 (fn = 1) with
        | .error e => .stop e
        | .ok loc =>
          if loc.addr % 16 ≠ 0 then .stop (copyFault 3)
          else if fn = 1 then
            if tf ≠ k.data.fmt ∨ qs ≠ k.data.qs then .stop (copyFault 8)
            else k.headGate.once s <| .act s (s.tileCopy r g t (.tileOut id loc (k.st == .free) mq mf) ctr 0x81)
          else if k.st ≠ .free then .stop (copyFault 9)
          else .act (s.startFill id tf qs (some (g.domOf r.tid)) (some (r.tid / 64, t.pc)))
            (s.tileCopy r g t (.tileIn loc id (fn == 2) mq qs mf tf) ctr 0x81)) s

/-! ## `tget` and `tset` (R355) -/

/-- The row base that the lowest active lane gives. -/
def Thread.rowBase (t : Thread) (f : Fields) : Nat := (if f.b = 248 then (0 : Word) else t.reg f.b.toNat).toNat

def rowBaseOk (r : Nat) : Bool := r % 2 == 0 && decide (r ≤ 30)

/-- R355. -/
def execTget (f : Fields) (s : State) : Host.Outcome State Fault Refusal :=
  issueCohorts (.tget f) f (fun g active s =>
    match active with
    | [] => .next s
    | (r, t) :: _ =>
      let b := t.rowBase f
      match s.handle g (r.tid / 64) f.a.toNat with
      | .stale e => .stop e
      | .tile id k =>
        match k.fillGate (g.domOf r.tid) with
        | .stop e => .stop e
        | .wait => .wait s
        | .open_ =>
          if !rowBaseOk b then .stop (matrixFault 1)
          else match k.headGate with
          | .stop e => .stop e
          | .wait => .wait s
          | .open_ => .next (active.foldl (fun s p =>
              let l := p.1.tid % 64
              s.defer p.1 (dstOf f.d) (.tget id (b + l / 32) (l % 32) (f.fn == 1))) s)) s

/-- Whether an unfinished record reads a tile. -/
def State.recordReads (s : State) (id : Nat) : Bool :=
  s.recs.any fun r => r.2.kind ≤ 2 && r.2.tiles.contains id

/-- Whether a weight binding has an entry for a tile (R337). -/
def State.weighs (s : State) (id : Nat) : Bool :=
  s.pinned id || s.recs.any (fun r => r.2.tiles.contains id && s.bound r.1) ||
    s.groups.any fun p => p.2.doms.any fun d => d.insts.any fun i => match i.act with
      | .record r => r.tiles.contains id && s.bound i.seq
      | _ => false

/-- R355: the elements are written at the commit. -/
def execTset (f : Fields) (s : State) : Host.Outcome State Fault Refusal :=
  issueCohorts (.tset f) f (fun g active s =>
    match active with
    | [] => .next s
    | (r, t) :: _ =>
      let b := t.rowBase f
      match s.handle g (r.tid / 64) f.d.toNat with
      | .stale e => .stop e
      | .tile id k =>
        if (s.findInst r g t.pc).isSome then .next s
        else if !rowBaseOk b then .stop (matrixFault 1)
        else if k.st ≠ .full ∨ s.weighs id then .stop (matrixFault 2)
        else if s.recordReads id then .wait s
        else
          let l := active.map fun p =>
            let lane := p.1.tid % 64
            (b + lane / 32, lane % 32, if f.a = 248 then (0 : Word) else p.2.reg f.a.toNat)
          .next (s.joinInst r g t (.tset id (f.fn == 1) l) none)) s

end Sys2Proof.Machine
end

