-- ==== Sys2Proof/Machine/Matrix.lean ====
section
/-!
DEFINITION. The matrix engine: Basin regions, the record instructions (R356-R366), the records of an array (R358), and
the task queue and its engines (R339-R346).
-/
namespace Sys2Proof.Machine

/-! ## Elements of the Basin (R68-R74) -/

/-- V put in an element with the residue of the contributions (R69). -/
def Elem.put (e : Elem) (v : Int) : Elem :=
  if v < -(2 ^ 43 : Int) ∨ (2 ^ 43 : Int) ≤ v then { e with a := 0xFF } else { e with val := BitVec.ofInt 44 v }

/-- A contribution (R69, R70). -/
def Elem.add (e : Elem) (p : Num) : Elem :=
  if e.a = 0xFF then e
  else match p with
    | .fin neg m ex =>
      if m = 0 then e
      else
        let sh := ex - ((e.a.toNat : Int) - 151)
        let n := signed neg m
        let q := if 0 ≤ sh then n * 2 ^ sh.toNat else n.fdiv (2 ^ (-sh).toNat)
        let cut := decide (sh < 0) && n.fmod (2 ^ (-sh).toNat) != 0
        let e := { e with k := e.k || cut, q := (((e.q : Int) + q).emod 3).toNat }
        if q < -(2 ^ 43 : Int) ∨ (2 ^ 43 : Int) ≤ q then { e with a := 0xFF } else e.put (e.val.toInt + q)
    | _ => { e with a := 0xFF }

/-- The exact value of an element; a NaN for an overflowed one (R68, R73). -/
def Elem.num (e : Elem) : Num :=
  if e.a = 0xFF then .nan defaultNan
  else .fin (decide (e.val.toInt < 0)) e.val.toInt.natAbs ((e.a.toNat : Int) - 151)

/-- The residue check of an element (R327). -/
def Elem.checks (e : Elem) : Bool := e.a == 0xFF || (e.val.toInt.emod 3).toNat == e.q

/-- The element as 96 bits (R68): the carry vector is open, and so is all but A of an overflowed element (R70, R72). -/
def State.rawElem (s : State) (salt : Nat) (e : Elem) : Nat :=
  let free := (s.word (4 * salt)).toNat * 2 ^ 32 + (s.word (4 * salt + 1)).toNat
  let c := free % 2 ^ 43
  if e.a = 0xFF then
    (s.word (4 * salt + 2)).toNat % 2 ^ 44 * 2 ^ 52 + c * 2 ^ 9 + free / 2 ^ 43 % 2 * 2 ^ 8 + 0xFF
  else
    let v := (BitVec.ofInt 44 (e.val.toInt - 2 * (c : Int))).toNat
    v * 2 ^ 52 + c * 2 ^ 9 + e.k.toNat * 2 ^ 8 + e.a.toNat

/-- The element that 96 bits hold (R68, R365). -/
def Elem.ofRaw (n : Nat) : Elem :=
  let v : BitVec 44 := BitVec.ofNat 44 (n / 2 ^ 52) + BitVec.ofNat 44 (2 * (n / 2 ^ 9 % 2 ^ 43))
  { val := v, k := n / 2 ^ 8 % 2 == 1, a := BitVec.ofNat 8 n, q := (v.toInt.emod 3).toNat }

/-- The change of `bscale` (R366). -/
def Elem.bscale (n : Int) (e : Elem) : Elem :=
  let e := { e with pend := false }
  if e.a = 0xFF then e
  else
    let a := (e.a.toNat : Int) + n
    let v := e.val.toInt
    let e' : Elem :=
      if a < 0 ∨ 254 < a then
        if v = 0 then { e with a := BitVec.ofInt 8 (min (max a 0) 254) } else { e with a := 0xFF }
      else if 0 ≤ n then
        let w := v.fdiv (2 ^ n.toNat)
        { e with k := e.k || decide (v.fmod (2 ^ n.toNat) ≠ 0), val := BitVec.ofInt 44 w, a := BitVec.ofInt 8 a }
      else
        let w := v * 2 ^ (-n).toNat
        if w < -(2 ^ 43 : Int) ∨ (2 ^ 43 : Int) ≤ w then { e with a := 0xFF }
        else { e with val := BitVec.ofInt 44 w, a := BitVec.ofInt 8 a }
    { e' with q := (e'.val.toInt.emod 3).toNat }

/-- The keys of columns `0` to `cols - 1` of rows of a region. -/
def elemKeys (row0 nrow cols : Nat) : List Nat :=
  (List.range nrow).flatMap fun r => (List.range cols).map fun c => (row0 + r) * 192 + c

def Basin.elem (b : Basin) (k : Nat) : Elem := Table.get {} b.elems k

def Basin.mapElems (b : Basin) (keys : List Nat) (f : Nat → Elem → Elem) : Basin :=
  { b with elems := Table.mapKeys {} f (keys.length + b.elems.length + 1) keys b.elems }

/-- The elements at rising keys, in order. -/
def pickKeys : Nat → List Nat → Table Elem → List Elem
  | 0, _, _ => []
  | _, [], _ => []
  | fuel + 1, _ :: ks, [] => {} :: pickKeys fuel ks []
  | fuel + 1, k :: ks, (j, v) :: t =>
    if j < k then pickKeys fuel (k :: ks) t
    else if j = k then v :: pickKeys fuel ks t
    else {} :: pickKeys fuel ks ((j, v) :: t)

def Basin.pick (b : Basin) (keys : List Nat) : List Elem := pickKeys (keys.length + b.elems.length + 1) keys b.elems

/-! ## Operands: products (R61, R324) -/

/-- A tile element ready to be multiplied: an exact value, or an L6 element with its scale. -/
inductive Oper where
  | num (v : Num)
  | log (neg : Bool) (l : Int) (scale : Int)
  deriving DecidableEq, Repr

/-- An element of a tile with its block scale. -/
def TileData.oper (t : TileData) (row col : Nat) : Oper :=
  let n := t.code row col
  let sc := t.scaleAt row col
  if t.fmt = 5 && sc != 255 && n % 32 != 16 then .log (n / 32 % 2 == 1) (l6Log n) ((sc : Int) - 127)
  else .num (t.value row col)

/-- The exact product (R61). -/
def Oper.mul (x w : Oper) : Num :=
  match x, w with
  | .log n1 l1 s1, .log n2 l2 s2 => (l6Value (xor n1 n2) (l1 + l2)).scale (s1 + s2)
  | .log n l s, .num v => ((l6Value n l).scale s).mul v
  | .num v, .log n l s => v.mul ((l6Value n l).scale s)
  | .num v, .num w => v.mul w

def Oper.finite : Oper → Bool
  | .num (.fin ..) | .log .. => true
  | _ => false

def Oper.zero : Oper → Bool
  | .num v => v.isZero
  | _ => false

/-! ## Scratchpad operands (R338) -/

/-- The bytes of a row in a format. -/
def rowBytes (fmt : Nat) : Nat := 4 * elemBits fmt

def descFmt (d : Word) : Nat := d.toNat / 2 ^ 28
def descTile (d : Word) : Nat := d.toNat / 2 ^ 12 % 2 ^ 12 * 256
def descRow (d : Word) : Nat := d.toNat % 2 ^ 12 * 16

/-- Whether a base and a descriptor are good for a number of tiles (R338). -/
def spOk (base d : Word) (fmts : List Nat) (tiles : Nat) : Bool :=
  let fmt := descFmt d
  let extent := headerSize fmt + 31 * descRow d + rowBytes fmt
  decide (base.toNat < 2 ^ 22) && base.toNat % 16 == 0 && fmts.contains fmt && decide (rowBytes fmt ≤ descRow d) &&
    (decide (tiles ≤ 1) || decide (extent ≤ descTile d)) && decide (base.toNat + descTile d * (tiles - 1) + extent ≤ 2 ^ 22)

/-- The fault of a scratchpad operand at issue (R77, R338). -/
def spFault (fmask : BitVec 128) (base d : Word) (fmts : List Nat) (tiles : Nat) : Option Stop :=
  if !(fmtFeatures (descFmt d)).all fmask.getLsbD then some (.of .reserved)
  else if spOk base d fmts tiles then none
  else some (matrixFault 4)

/-- The check of the headers of a scaled scratchpad operand of `n` tiles at its instruction: a nonzero byte where R65
requires zero is the scale-header fault (log entry 45). -/
def State.spHeaders (s : State) (g : Group) (base : Nat) (d : Word) (qs : Bool) (n : Nat) : Except Stop Unit :=
  let h := headerSize (descFmt d)
  let from_ := if qs then 4 else 1
  let keys := (List.range n).flatMap fun k => scratchKeys (quadOf g.core) (base + descTile d * k + from_) (h - from_)
  if s.poisoned keys then .error .check
  else if keys.any s.prepared then .error .later
  else if keys.any fun k => s.readByte k != 0 then .error (.of .scaleHeader)
  else .ok ()

/-- A tile read from scratchpad: its header and `rows` rows; a header that R65 forbids is read as R286 reads it. -/
def State.spTile (s : State) (x : Group) (base : Nat) (d : Word) (qs : Bool) (k rows : Nat) : Except Got TileData :=
  let fmt := descFmt d
  let a := base + descTile d * k
  let h := headerSize fmt
  match s.engineRead x ⟨true, a⟩ h with
  | .bytes hdr =>
    let row (acc : Except Got (List Byte)) (r : Nat) : Except Got (List Byte) :=
      match acc with
      | .error e => .error e
      | .ok l => match s.engineRead x ⟨true, a + h + descRow d * r⟩ (rowBytes fmt) with
        | .bytes bs => .ok (l ++ bs)
        | e => .error e
    match (List.range rows).foldl row (.ok []) with
    | .error e => .error e
    | .ok body => .ok (TileData.ofBytes fmt qs (hdr ++ body))
  | e => .error e

/-- A tile as a record reads it; a handle in the free state is `none` (R340). -/
def State.heldTile (s : State) (id : Nat) : Option TileData := (s.tiles.find? id).bind fun t => if t.st = .free then none else some t.data

/-- A tile of a record's operand, as its handle stood at the record's start; a handle in the free state is `none` (R340, R344).
One whose fill ended header-bad behind the check of R330 multiplies with every scale 0xFF (log entry 99). -/
def State.recTile (s : State) (r : MRec) (x : Group) (k rows : Nat) : Except Got (Option TileData) :=
  if r.scr then (s.spTile x r.base r.desc r.qs k rows).map some
  else match r.caught with
    | some l => .ok (l[k]?.join)
    | none => .ok (r.tiles[k]?.bind s.heldTile)

def blocksOf (nrow : Nat) : Nat := (nrow + 31) / 32

/-! ## Building records at issue (R347, R348) -/

/-- A record of a thread's instruction. -/
def State.newRec (s : State) (r : TRef) (g : Group) (t : Thread) (kind bas bh row0 nrow : Nat) : MRec :=
  { grp := r.grp, dom := g.domOf r.tid, coh := r.tid / 64, kind := kind, bas := bas, bh := bh, row0 := row0, nrow := nrow,
    pc := t.pc, rank := s.rank g r.tid }

/-- The Basin handle of an instruction: its region (R333). -/
def State.region (s : State) (g : Group) (bh : Nat) : Except Stop (Nat × Basin) :=
  match g.basins.find? bh with
  | none => .error (.of .staleHandle 3)
  | some id => .ok (id, (s.basins.find? id).getD { grp := 0, bh := 0, core := 0, row := 0, rows := 0 })

/-- What a thread's instruction builds, as an act of its instance. -/
def Once.of (x : Except Stop (State × InstAct)) : Once :=
  match x with
  | .ok p => .act p.1 p.2
  | .error e => .stop e

def failIf (b : Bool) (e : Stop) : Except Stop Unit := if b then .error e else .ok ()
def failSome (e : Option Stop) : Except Stop Unit := match e with | some e => .error e | none => .ok ()

/-- Whether one of the tiles is full and header-bad (R330).  One that is filling is not looked at again (log entry 99). -/
def State.anyBad (s : State) (tiles : List Nat) : Bool := tiles.any fun i => match s.tiles.find? i with
  | some t => t.st == .full && t.data.bad
  | none => false

/-- The format and scale mode of a tile as recorded. -/
def State.recorded (s : State) (id : Nat) : Nat × Bool := match s.tiles.find? id with
  | some t => (t.data.fmt, t.data.qs)
  | none => (0, false)

/-- The names of a run that exist. -/
def runNames (first n : Nat) : List Nat := (nameRun first n).filter (· < 64)

/-- The base and the descriptor of a scratchpad form. -/
def Thread.spRegs (t : Thread) (f : Fields) : Word × Word :=
  (if f.b = 248 then 0 else t.reg f.b.toNat, if f.c = 248 then 0 else t.reg f.c.toNat)

def fieldAt (imm : Word) (lo n : Nat) : Nat := imm.toNat / 2 ^ lo % 2 ^ n

/-- R356.  The scratchpad form loads the 72 tiles of a full narrow latch at once (R339, log entry 128).  An unbound Basin handle comes
before a format whose feature the launch lacks (log entry 90). -/
def execWld (f : Fields) (s : State) : Host.Outcome State Fault Refusal :=
  issueOnce (.wld f) f (fun r g t s => Once.of do
    let (id, _) ← s.region g f.d.toNat
    let nk := fieldAt f.imm 4 4 + 1
    let ncol := fieldAt f.imm 8 3 + 1
    let kb0 := fieldAt f.imm 0 4
    let scr := f.x.getLsbD 0
    let coh := r.tid / 64
    let (base, desc) := t.spRegs f
    let names := if scr then [] else runNames f.a.toNat (nk * ncol)
    failSome (g.staleName coh names)
    let tiles := g.mappedTiles coh names
    if scr then failSome (if (fmtFeatures (descFmt desc)).all (s.launchOf g).fmask.getLsbD then none else some (.of .reserved))
    let fmt := if scr then descFmt desc else (s.recorded (tiles.headD 0)).1
    failIf (decide (6 < ncol) || decide (bandsOf fmt < kb0 + nk) || !scr && decide (64 < nk * ncol)) (matrixFault 1)
    if scr then
      failIf (!spOk base desc [0, 1, 2, 3, 4, 5] (nk * ncol)) (matrixFault 4)
      s.spHeaders g base.toNat desc (f.imm.getLsbD 11) (nk * ncol)
    else
      failIf (decide (64 < f.a.toNat + nk * ncol)) (matrixFault 3)
      failIf (tiles.any fun i => s.recorded i != s.recorded (tiles.headD 0)) (matrixFault 7)
      failIf (s.anyBad tiles) (.of .scaleHeader)
    let s' := s.modBasin id fun b => { b with bind := b.bind.load s.fresh fmt kb0 nk ncol }
    pure (s', .record { s.newRec r g t 2 id f.d.toNat 0 1 with
      kb0 := kb0, nk := nk, ncol := ncol, qs := f.imm.getLsbD 11, ofmt := fmt, scr := scr, th := if scr then 0 else f.a.toNat,
      tiles := tiles, base := base.toNat, desc := desc })) s

/-- R357. -/
def execMma (f : Fields) (s : State) : Host.Outcome State Fault Refusal :=
  issueOnce (.mma f) f (fun r g t s => Once.of do
    let (id, b) ← s.region g f.d.toNat
    let row0 := fieldAt f.imm 0 9
    let nrow := fieldAt f.imm 9 9 + 1
    let kb0 := fieldAt f.imm 18 4
    let nk := fieldAt f.imm 22 4 + 1
    let scr := f.x.getLsbD 0
    let coh := r.tid / 64
    let n := blocksOf nrow * nk
    let (base, desc) := t.spRegs f
    let names := if scr then [] else runNames f.a.toNat n
    failSome (g.staleName coh names)
    let tiles := g.mappedTiles coh names
    failIf (decide (b.rows < row0 + nrow) || decide (bandsOf b.bind.fmt < kb0 + nk)) (matrixFault 1)
    if scr then
      failSome (spFault (s.launchOf g).fmask base desc [0, 1, 2, 3, 4, 5] n)
      s.spHeaders g base.toNat desc (f.imm.getLsbD 26) n
    else
      failIf (decide (64 < f.a.toNat + n)) (matrixFault 3)
      failIf (s.anyBad tiles) (.of .scaleHeader)
    pure (s, .record { s.newRec r g t 1 id f.d.toNat row0 nrow with
      kb0 := kb0, nk := nk, qs := f.imm.getLsbD 26, scr := scr, th := if scr then 0 else f.a.toNat, tiles := tiles,
      base := base.toNat, desc := desc })) s

/-- R361: handles of the output become filling at issue. -/
def execRslv (f : Fields) (s : State) : Host.Outcome State Fault Refusal :=
  issueOnce (.rslv f) f (fun r g t s => Once.of do
    let (id, b) ← s.region g f.d.toNat
    let row0 := fieldAt f.imm 0 9
    let nrow := fieldAt f.imm 9 9 + 1
    let ncol := fieldAt f.imm 18 3 + 1
    let ofmt := fieldAt f.imm 21 3
    let qs := f.imm.getLsbD 24
    let scr := f.x.getLsbD 0
    let coh := r.tid / 64
    let n := blocksOf nrow * ncol
    let (base, desc) := t.spRegs f
    let names := if scr then [] else runNames f.a.toNat n
    failSome (g.staleName coh names)
    let tiles := g.mappedTiles coh names
    failIf (decide (b.rows < row0 + nrow) || decide (6 < ncol) || decide (6 < ofmt) || (!scr && ofmt == 6)) (matrixFault 1)
    if scr then
      failSome (spFault (s.launchOf g).fmask base desc [0, 1, 2, 3, 4, 5, 6] n)
      failIf (descFmt desc != ofmt) (matrixFault 4)
    else
      failIf (tiles.any fun i => match s.tiles.find? i with | some t => t.st != .free | none => true) (matrixFault 2)
      failIf (decide (64 < f.a.toNat + n)) (matrixFault 3)
    let s' := tiles.foldl (fun s i => s.startFill i ofmt (qs && scaledFmt ofmt) (some (g.domOf r.tid)) none) s
    pure (s', .record { s.newRec r g t 3 id f.d.toNat row0 nrow with
      ncol := ncol, ofmt := ofmt, qs := qs, lce := if f.imm.getLsbD 30 then some (fieldAt f.imm 25 5) else none, scr := scr,
      th := if scr then 0 else f.a.toNat, tiles := tiles, base := base.toNat, desc := desc })) s

/-- R360: a pending anchor is ANCH 0x100. -/
def execBinit (f : Fields) (s : State) : Host.Outcome State Fault Refusal :=
  issueOnce (.binit f) f (fun r g t s => Once.of do
    let (id, b) ← s.region g f.d.toNat
    let row0 := fieldAt f.imm 0 9
    let nrow := fieldAt f.imm 9 9 + 1
    let anch := if f.fn = 1 then 256 else fieldAt f.imm 18 8
    failIf (decide (b.rows < row0 + nrow) || anch == 255) (matrixFault 1)
    pure (s, .record { s.newRec r g t 4 id f.d.toNat row0 nrow with anch := anch })) s

/-- A cohort-synchronous instruction whose record gives each active lane a deferred result (R347, R363, R364).  The cohort's
one record passes at the commit of the domain of its lowest active lane. -/
def issueLaneRecord (i : Instr) (f : Fields) (words : Nat) (build : TRef → Group → Thread → State → Except Stop MRec)
    (s : State) : Host.Outcome State Fault Refusal :=
  issueCohorts i f (fun g active s =>
    match active with
    | [] => .next s
    | (r, t) :: _ =>
      match build r g t s with
      | .error e => .stop e
      | .ok rec =>
        let (s, takers) := active.foldl (fun (a : State × List (TRef × Nat)) p =>
          (a.1.defer p.1 (dstOf f.d words) .engine, a.2 ++ [(p.1, a.1.fresh)])) (s, [])
        .next (s.joinInstWith r g t (.record rec) takers)) s

/-- R363. -/
def execBcmp (f : Fields) (s : State) : Host.Outcome State Fault Refusal :=
  issueLaneRecord (.bcmp f) f 1 (fun r g t s => do
    let (id, b) ← s.region g f.a.toNat
    let row0 := fieldAt f.imm 0 9
    let nrow := fieldAt f.imm 9 6 + 1
    failIf (decide (b.rows < row0 + nrow)) (matrixFault 1)
    pure { s.newRec r g t 5 id f.a.toNat row0 nrow with fn := f.fn.toNat }) s

/-- R364. -/
def execBmov (f : Fields) (s : State) : Host.Outcome State Fault Refusal :=
  issueLaneRecord (.bmov f) f (if f.fn = 1 then 3 else 1) (fun r g t s => do
    let (id, b) ← s.region g f.a.toNat
    let row0 := fieldAt f.imm 0 9
    let col0 := fieldAt f.imm 9 8
    failIf (decide (b.rows < row0 + 1) || decide (191 < col0)) (matrixFault 1)
    pure { s.newRec r g t 6 id f.a.toNat row0 1 with fn := f.fn.toNat, col0 := col0 }) s

/-- The record of `bsave` and `brst` (R365). -/
def State.rowsRecord (s : State) (r : TRef) (g : Group) (t : Thread) (f : Fields) (kind : Nat) :
    Except Stop (State × InstAct) := do
  let (id, b) ← s.region g f.d.toNat
  let row0 := fieldAt f.imm 0 9
  let nrow := fieldAt f.imm 9 9 + 1
  let off := (if f.b = 248 then 0 else t.reg f.b.toNat).toNat
  failIf (decide (b.rows < row0 + nrow)) (matrixFault 1)
  let loc ← t.place f.a.toNat off (2304 * nrow) (kind == 7)
  failIf (off % 16 != 0) (.of .alignment 0 loc.addr)
  pure (s, .record { s.newRec r g t kind id f.d.toNat row0 nrow with
    loc := loc, lce := if f.imm.getLsbD 23 then some (fieldAt f.imm 18 5) else none })

/-- R365. -/
def execBsave (f : Fields) (s : State) : Host.Outcome State Fault Refusal :=
  issueOnce (.bsave f) f (fun r g t s => Once.of (s.rowsRecord r g t f 7)) s

/-- R365. -/
def execBrst (f : Fields) (s : State) : Host.Outcome State Fault Refusal :=
  issueOnce (.brst f) f (fun r g t s => Once.of (s.rowsRecord r g t f 8)) s

/-- R366. -/
def execBscale (f : Fields) (s : State) : Host.Outcome State Fault Refusal :=
  issueOnce (.bscale f) f (fun r g t s => Once.of do
    let (id, b) ← s.region g f.d.toNat
    let row0 := fieldAt f.imm 0 9
    let nrow := fieldAt f.imm 9 9 + 1
    let n := (BitVec.ofNat 8 (fieldAt f.imm 18 8)).toInt
    failIf (decide (b.rows < row0 + nrow) || decide (n < -64) || decide (64 < n)) (matrixFault 1)
    pure (s, .record { s.newRec r g t 9 id f.d.toNat row0 nrow with shift := n })) s

/-! ## Regions (R335, R359) -/

/-- Rows of a core's Basin that regions occupy. -/
def State.rowTaken (s : State) (core row : Nat) : Bool :=
  s.basins.any fun b => b.2.core == core && decide (b.2.row ≤ row) && decide (row < b.2.row + b.2.rows)

/-- The lowest run of free rows, in units of 32 (log entry 20). -/
def State.freeRows (s : State) (core rows : Nat) : Option Nat :=
  ((List.range 16).map (32 * ·)).find? fun r =>
    decide (r + rows ≤ 512) && (List.range (rows / 32)).all fun i => !s.rowTaken core (r + 32 * i)

/-- Whether an earlier region of a handle still has submitted records (R367). -/
def State.handleBusy (s : State) (g bh : Nat) : Bool :=
  s.basins.any fun b => b.2.grp == g && b.2.bh == bh && b.2.freed && s.recs.any fun r => r.2.bas == b.1

/-- The region of a request, bound to its handle; `none` where the rows are not to be had. -/
def State.bindBasin (s : State) (g core bh rows : Nat) : Option State :=
  if s.handleBusy g bh then none
  else (s.freeRows core rows).map fun row =>
    let id := s.fresh
    let s := { s with basins := s.basins.put id { grp := g, bh := bh, core := core, row := row, rows := rows } }.bump
    s.modGroup g fun x => { x with basins := x.basins.put bh id }

/-- R359. -/
def execBalloc (f : Fields) (s : State) : Host.Outcome State Fault Refusal :=
  issueOnce (.balloc f) f (fun r g t s =>
    let rows := fieldAt f.imm 0 10
    let bh := f.d.toNat
    let core := quadOf g.core * 4 + fieldAt f.imm 10 2
    if (g.basins.find? bh).isSome then .stop (matrixFault 2)
    else if rows % 32 ≠ 0 ∨ rows < 32 ∨ 512 < rows ∨ (s.core core).arrayOut then .stop (matrixFault 6)
    else if s.ballocs.any fun e => e.who.grp == r.grp && e.who.tid / 64 == r.tid / 64 && e.pc == t.pc &&
        g.domOf e.who.tid == g.domOf r.tid then .wait s
    else
      let first := !s.ballocs.any fun e => e.core == core
      match if first then s.bindBasin r.grp core bh rows else none with
      | some s => .act s .none
      | none => .wait { s with ballocs := s.ballocs ++ [{ who := r, pc := t.pc, bh := bh, rows := rows, core := core }] }) s

/-- The oldest request for a core's Basin gets its rows (R335). -/
def execBallocGrant (core : Nat) (s : State) : Host.Outcome State Fault Refusal :=
  match s.ballocs.find? fun e => e.core == core with
  | none => .refused .notEnabled
  | some e =>
    match s.group? e.who.grp with
    | none => .refused .notEnabled
    | some x =>
      match s.bindBasin e.who.grp core e.bh e.rows with
      | some s =>
        .next ({ s with ballocs := s.ballocs.filter (· != e) }.joinInst e.who x { pc := e.pc } .none none)
      | none => .refused .notEnabled

/-- Whether a region has records, submitted or built (R335). -/
def State.basinUsed (s : State) (id : Nat) : Bool :=
  s.recs.any (fun r => r.2.bas == id) || s.groups.any fun p => p.2.doms.any fun d => d.insts.any fun i => match i.act with
    | .record r => r.bas == id
    | _ => false

/-- Freed regions whose records have completed are gone (R335). -/
def State.gcBasins (s : State) : State :=
  { s with basins := s.basins.filter fun b => !b.2.freed || s.basinUsed b.1 }

/-- R359: the handle is unbound at issue. -/
def execBfree (f : Fields) (s : State) : Host.Outcome State Fault Refusal :=
  issueOnce (.bfree f) f (fun r g _ s => Once.of do
    let (id, _) ← s.region g f.d.toNat
    let s := (s.modGroup r.grp fun x => { x with basins := x.basins.erase f.d.toNat }).modBasin id fun b => { b with freed := true }
    pure (s.gcBasins.gcTiles, .none)) s

/-! ## `mtaskq` (R358) -/

/-- R358: the array is read after the commit. -/
def execMtaskq (f : Fields) (s : State) : Host.Outcome State Fault Refusal :=
  issueOnce (.mtaskq f) f (fun r g t s => Once.of do
    let off := (if f.b = 248 then 0 else t.reg f.b.toNat).toNat
    let n := (if f.c = 248 then 0 else t.reg f.c.toNat).toNat
    failIf (decide (n < 1) || decide (4096 < n)) (matrixFault 1)
    failIf (f.a == 248 && off % 64 != 0) (matrixFault 4)
    let loc ← t.place f.a.toNat off (64 * n) false
    failIf (off % 64 != 0) (.of .alignment 0 loc.addr)
    pure (s, .array { grp := r.grp, dom := g.domOf r.tid, coh := r.tid / 64, loc := loc, count := n, pc := t.pc,
                      rank := s.rank g r.tid })) s

/-- The record of a matrix fault (R346). -/
def matrixRecord (pc rank : Word) (idx done bh kind cause : Nat) : BitVec 256 :=
  BitVec.ofNat 256 (pack [(0, 8, cause), (8, 8, kind), (32, 8, bh), (96, 32, done), (128, 32, idx), (160, 32, rank.toNat),
    (192, 32, pc.toNat)])

/-- The fields of a record in memory (R339). -/
def recField (n lo w : Nat) : Nat := n / 2 ^ lo % 2 ^ w

/-- Whether the fields that a kind does not use are 0, with CUR and the reserved fields (R339). -/
def recReserved (n : Nat) : Bool :=
  let z (lo w : Nat) : Bool := recField n lo w == 0
  let kind := recField n 504 8
  let scr := recField n 498 1 == 1
  let operand := if scr then z 438 6 else z 384 32 && z 416 22
  z 0 384 && z 496 2 && z 501 3 && match kind with
    | 1 => z 499 1 && z 491 5 && z 457 3 && z 453 4 && z 444 9 && operand && (scr || z 500 1)
    | 2 => z 499 1 && z 491 5 && z 478 9 && z 468 10 && z 453 4 && z 444 9 && operand && (scr || z 500 1)
    | 3 => z 464 4 && z 460 4 && z 444 9 && operand
    | _ => z 498 3 && z 491 5 && z 453 15 && z 438 6 && z 384 54

/-- A record as it is read from an array: KIND, reserved fields and ranges (R358); the cause, or its fields. -/
def recParse (n : Nat) : Except Nat (Nat → Nat → Nat) :=
  let kind := recField n 504 8
  let nrow := recField n 468 10
  let rows := kind == 2 || (decide (1 ≤ nrow) && decide (nrow ≤ 512))
  let nk := recField n 460 4
  let bands := 2 < kind || (decide (1 ≤ nk) && decide (nk ≤ 12))
  let ncol := recField n 457 3
  let cols := !(kind == 2 || kind == 3) || (decide (1 ≤ ncol) && decide (ncol ≤ 6))
  let anch := recField n 444 9
  let anchOk := kind != 4 || decide (anch ≤ 254) || anch == 256
  let of := recField n 453 4
  let fmtOk := kind != 3 || (decide (of ≤ 6) && (recField n 498 1 == 1 || of != 6))
  if kind < 1 ∨ 4 < kind then .error 4
  else if !recReserved n || !rows || !bands || !cols || !anchOk || !fmtOk then .error 3
  else .ok (recField n)

/-- The checks of an array's record, and the record it becomes (R358).  The latch of an `mma` is the one that the records submitted before
it have built (R337, R339).  The spec ranks none of the causes: an unbound BH comes before everything but KIND and the ranges (log
entry 44). -/
def State.readRec (s : State) (x : Group) (a : MArray) (n : Nat) : Except Nat MRec := do
  let fld ← recParse n
  let kind := fld 504 8
  let bh := fld 487 4
  let row0 := fld 478 9
  let nrow := if kind = 2 then 1 else fld 468 10
  let kb0 := fld 464 4
  let nk := fld 460 4
  let ncol := fld 457 3
  let ofmt := fld 453 4
  let scr := fld 498 1 == 1
  let base : Word := BitVec.ofNat 32 (fld 416 22)
  let desc : Word := BitVec.ofNat 32 (fld 384 32)
  match x.basins.find? bh with
  | none => throw 2
  | some id =>
    let b := (s.basins.find? id).getD { grp := 0, bh := 0, core := 0, row := 0, rows := 0 }
    let count := match kind with
      | 1 => blocksOf nrow * nk
      | 2 => nk * ncol
      | 3 => blocksOf nrow * ncol
      | _ => 0
    let th := fld 438 6
    let names := if scr || kind == 4 then [] else nameRun th count
    let fmts := if kind = 3 then [ofmt] else [0, 1, 2, 3, 4, 5]
    let fmask := (s.launchOf x).fmask
    if kind != 2 && decide (b.rows < row0 + nrow) then throw 3
    if !names.isEmpty && decide (64 < th + count) then throw 3
    if scr && (!spOk base desc fmts count || !(fmtFeatures (descFmt desc)).all fmask.getLsbD) then throw 3
    if kind == 3 && !(fmtFeatures ofmt).all fmask.getLsbD then throw 3
    if names.any fun k => (x.name a.coh k).isReleased then throw 2
    let tiles := x.mappedTiles a.coh names
    if kind == 3 && tiles.any (fun i => match s.tiles.find? i with | some t => t.st != .free | none => true) then throw 2
    let fmt := if kind = 3 then ofmt else if scr then descFmt desc else (s.recorded (tiles.headD 0)).1
    if kind == 1 && decide (bandsOf b.sub.fmt < kb0 + nk) then throw 3
    if kind == 2 && decide (bandsOf fmt < kb0 + nk) then throw 3
    if kind == 2 && !scr && tiles.any (fun i => s.recorded i != s.recorded (tiles.headD 0)) then throw 3
    pure { grp := a.grp, dom := a.dom, coh := a.coh, kind := kind, bas := id, bh := bh, row0 := row0, nrow := nrow, kb0 := kb0,
           nk := max nk 1, ncol := max ncol 1, qs := fld 500 1 == 1, ofmt := fmt, anch := fld 444 9,
           lce := if fld 499 1 = 1 then some (fld 491 5) else none, scr := scr, th := fld 438 6, tiles := tiles, base := base.toNat, desc := desc,
           pc := a.pc, rank := a.rank, idx := a.next }

/-- The check of the scale headers that a good record of an array reads (R65, R330, log entry 45). -/
def State.recHeaders (s : State) (x : Group) (r : MRec) : Except Stop Unit :=
  if 2 < r.kind then .ok ()
  else if r.scr then s.spHeaders x r.base r.desc r.qs (if r.kind = 1 then blocksOf r.nrow * r.nk else r.nk * r.ncol)
  else failIf (s.anyBad r.tiles) (.of .scaleHeader)

/-- The bytes that an array's record counts in its landing counter, where it is a resolve that counts (R346, R358). -/
def recBytes (n : Nat) : Option (Nat × Nat) :=
  if recField n 504 8 = 3 ∧ recField n 499 1 = 1 then
    let nrow := recField n 468 10
    let ncol := recField n 457 3
    let ofmt := recField n 453 4
    let bytes := if recField n 498 1 = 1 then
        (List.range (blocksOf nrow)).foldl (fun k i => k + ncol * (headerSize ofmt + rowBytes ofmt * min 32 (nrow - 32 * i))) 0
      else 2048 * (blocksOf nrow * ncol)
    some (recField n 491 5, bytes)
  else none

/-- The `wld` records of a region that have been issued and not yet submitted, in the order of their issue: those of steps under way,
and those that stand behind an array (R329, R358). -/
def State.loadsToCome (s : State) (bas : Nat) : Table MRec :=
  let issued := s.groups.flatMap fun x => x.2.doms.flatMap fun d => d.insts.filterMap fun i => match i.act with
    | .record r => some (i.seq, r)
    | _ => none
  let behind := s.arrays.flatMap fun a => a.2.behind.filterMap fun k => (s.recs.find? k).map (k, ·)
  ((issued ++ behind).filter fun p => p.2.kind == 2 && p.2.bas == bas).foldl (fun t p => t.put p.1 p.2) []

/-- The binding of a region once the records issued and not yet submitted have passed: what instructions at issue find (R337,
R356). -/
def State.bindingToCome (s : State) (bas : Nat) (b : Binding) : Binding :=
  (s.loadsToCome bas).foldl (fun b p => b.load p.1 p.2.ofmt p.2.kb0 p.2.nk p.2.ncol) b

/-- A record of an array enters (R358): a `wld` changes the binding, before the records that were issued and come behind it, and tiles
that it alone named return to the pool (R328); a resolve makes its handles filling. -/
def State.enterRec (s : State) (r : MRec) : State :=
  let s := if r.kind = 3 then
      r.tiles.foldl (fun s i => s.startFill i r.ofmt (r.qs && scaledFmt r.ofmt) none none) s
    else s
  let s := (s.outUp r.grp r.lce).submit s.fresh r
  let s := if r.kind = 2 then s.modBasin r.bas fun b => { b with bind := s.bindingToCome r.bas b.sub } else s
  s.bump.gcTiles

/-- An array has been read: the records behind it enter (R340). -/
def State.endArray (s : State) (id : Nat) (a : MArray) : State :=
  (a.behind.foldl (fun (s : State) k => match s.recs.find? k with
    | some r => s.submit k r
    | none => s) { s with arrays := s.arrays.erase id }).gcTiles.leave a.grp

/-- A fault stops an array: its group traps, and an aborted group's array is over (R14); that of a group that is held under DBG
is read again after a resume. -/
def State.stopArray (s : State) (id : Nat) (a : MArray) (t : Trap) : State :=
  let failed (s : State) : Bool := ((s.group? a.grp).map Group.failed).getD false
  let s := if failed s then s else s.trap a.grp [] t
  if failed s then s.endArray id a else s

/-- The next record of an array is read and checked, after the earlier arrays of its commit (R358). -/
def execMtaskqArrayRead (id : Nat) (s : State) : Host.Outcome State Fault Refusal :=
  match s.arrays.find? id with
  | none => .refused .notEnabled
  | some a =>
    match s.group? a.grp with
    | none => .refused .notEnabled
    | some x =>
      let after (s : State) : State :=
        if a.count ≤ a.next + 1 then s.endArray id a
        else { s with arrays := s.arrays.put id { a with next := a.next + 1 } }
      let fault (kind bh cause : Nat) (s : State) : State :=
        s.engineFault a.grp (matrixRecord a.pc a.rank a.next 0 bh kind cause)
      let lost (n : Nat) (s : State) : State := match recBytes n with
        | some (c, k) => s.countIn a.grp (some c) k true
        | none => s
      if !x.resident || x.isTrapped || s.waitsOn (.array id) || (s.openArrays a.grp a.dom).any (fun p => decide (p.1 < id)) then
        .refused .notEnabled
      else match s.engineRead x ⟨a.loc.sp, a.loc.addr + 64 * a.next⟩ 64 with
        | .bytes bs =>
          let n := littleEndian bs
          match s.readRec x a n with
          | .ok r =>
            match s.recHeaders x r with
            | .ok () => .next (after (s.enterRec { r with by_ := some a.dom }))
            | .error .check => .next (s.kill a.grp)
            | .error (.trap t) => .next (s.stopArray id a { t with fpc := some a.pc, rank := some a.rank })
            | .error _ => .refused .notEnabled
          | .error c => .next (after (lost n (fault (recField n 504 8) (recField n 487 4) c s)))
        | .miss v p _ => .next (s.addMiss x.core v p (.array id))
        | .fault _ _ => .next ((fault 0 0 6 s).endArray id a)
        | .poison => .next (s.kill a.grp)
        | .later => .refused .notEnabled

/-- The oldest record that waits for room in a quad's queue enters it (R340). -/
def execTaskQueueEnter (quad : Nat) (s : State) : Host.Outcome State Fault Refusal :=
  match s.taskWait.find? fun i => s.recQuad i == quad with
  | none => .refused .notEnabled
  | some id =>
    if s.queued quad < 256 then
      .next { s with taskWait := s.taskWait.filter (· != id), taskQ := s.taskQ ++ [id] }
    else .refused .notEnabled

/-! ## How a record runs (R340, R341) -/

/-- The core whose engine runs a record. -/
def State.recCore (s : State) (id : Nat) : Option Nat :=
  ((s.recs.find? id).bind fun r => s.basins.find? r.bas).map Basin.core

/-- The record at an engine's head: the first in the queue that names one of its regions. -/
def State.engineHead (s : State) (core : Nat) : Option (Nat × MRec) :=
  (s.taskQ.find? fun i => s.recCore i == some core).bind fun i => (s.recs.find? i).map fun r => (i, r)

/-- A record is over; the group may leave (R14). -/
def State.endRec (s : State) (id : Nat) (r : MRec) : State :=
  let s := { s with
    recs := s.recs.erase id
    taskQ := s.taskQ.filter (· != id) }
  (((s.freeEngines (· != id)).outDone r.grp r.lce).gcBasins.gcTiles).leave r.grp

/-- The bytes that a record has yet to count: those of the row blocks that it has not written. -/
def MRec.bytes (r : MRec) : Nat :=
  if r.kind = 3 then
    let left := (List.range (blocksOf r.nrow)).filter fun i => decide (r.cur ≤ 32 * i)
    if r.scr then left.foldl (fun n i => n + r.ncol * (headerSize r.ofmt + rowBytes r.ofmt * min 32 (r.nrow - 32 * i))) 0
    else 2048 * (r.ncol * left.length)
  else if r.kind = 7 ∨ r.kind = 8 then 2304 * (r.nrow - r.cur)
  else 0

/-- An engine fault stops a record (R346): output tiles are full with zeros, its bytes count as undelivered, and lanes
that wait receive nothing. -/
def State.failRec (s : State) (id : Nat) (r : MRec) (cause : Nat) : State :=
  let s := s.engineFault r.grp (matrixRecord r.pc r.rank r.idx r.cur r.bh r.kind cause)
  let s := if r.kind = 3 then (r.tiles.drop (r.cur / 32 * r.ncol)).foldl (fun s i =>
      s.modTile i fun t => { t with st := .full, fillDom := none, fillBy := none,
                                    data := TileData.ofValues r.ofmt t.data.qs (List.replicate 1024 (.fin false 0 0)) }) s
    else s
  let s := r.takers.foldl (fun s p => s.result p.1 p.2 .keep) s
  (s.countIn r.grp r.lce r.bytes true).endRec id r

/-- Whether an mma's activations lie in the class of its latch (R324); a free handle is left out. -/
def State.classOk (s : State) (r : MRec) : Bool :=
  let fmts := if r.scr then [descFmt r.desc] else r.tiles.filterMap fun i => match s.tiles.find? i with
    | some t => if t.st = .free then none else some t.data.fmt
    | none => none
  let cls (f : Nat) : Nat := classOf f
  fmts.all fun f => cls f == cls r.bind.fmt

/-- Whether the record at the head of an engine waits: no tile it reads is filling when it starts, and reads of memory wait for
the release of its step (R40, R340). -/
def State.recWaits (s : State) (id : Nat) (r : MRec) : Bool :=
  r.caught.isNone && r.reads.any s.filling || r.readsMemory && s.readsHeld (.record id)

/-- The record at the head of an engine starts; the tiles of its handles are those it finds now (R340, R344).  An engine out of
service runs none (R422, log entry 113). -/
def execMatrixRecordStart (core : Nat) (s : State) : Host.Outcome State Fault Refusal :=
  match s.engineHead core with
  | none => .refused .notEnabled
  | some (id, r) =>
    let here := match s.group? r.grp with | some x => x.resident | none => false
    if (s.core core).running.isSome || (s.core core).arrayOut || !here || s.recWaits id r then .refused .notEnabled
    else if r.kind == 1 && r.caught.isNone && !s.classOk r then .next (s.failRec id r 1)
    else
      let caught := if r.caught.isNone && !r.scr && decide (r.kind ≤ 2) then some (r.tiles.map s.heldTile) else r.caught
      let s := { s with taskQ := s.taskQ.filter (· != id), recs := s.recs.put id { r with running := true, caught } }
      .next (s.modCore core fun k => { k with running := some id })

/-- The record of an engine that waits: at its head, for a tile, or for an engine that is out of service, where it may have begun
(R340, R422). -/
def State.waitingRec (s : State) (core : Nat) : Option (Nat × MRec) :=
  let k := s.core core
  match k.running with
  | some id => if k.arrayOut then (s.recs.find? id).map fun r => (id, r) else none
  | none => (s.engineHead core).filter fun p => k.arrayOut || (p.2.caught.isNone && p.2.reads.any s.filling)

/-- A record that has waited 50 ms at the head of an engine (R340). -/
def execRecordWaitTimeout (core : Nat) (s : State) : Host.Outcome State Fault Refusal :=
  match s.waitingRec core with
  | none => .refused .notEnabled
  | some (id, r) => .next (s.failRec id r 5)

/-! ### The kinds -/

/-- What a record's rows gave. -/
inductive RecRun where
  | done (s : State)
  /-- The state so far, the rows completed, and what stops the record. -/
  | stopped (s : State) (cur : Nat) (e : Got)
  /-- The residue check failed (R327). -/
  | mismatch

/-- The tiles of a `wld` operand, in order. -/
def collect (l : List (Except Got α)) : Except Got (List α) :=
  match l with
  | [] => .ok []
  | .ok a :: t => (collect t).map (a :: ·)
  | .error e :: _ => .error e

def chunks (n : Nat) : Nat → List α → List (List α)
  | 0, _ => []
  | k + 1, l => l.take n :: chunks n k (l.drop n)

/-- A `wld` leaves the image of its bands (R323, R337). -/
def State.runWld (s : State) (id : Nat) (r : MRec) (x : Group) : RecRun :=
  match collect ((List.range (r.nk * r.ncol)).map fun k => s.recTile r x k 32) with
  | .error e => .stopped s 0 e
  | .ok ts =>
    let tiles := ts.map fun t => t.getD TileData.zero
    .done { s with images := s.images.put id { tiles := r.tiles, bands := chunks r.ncol r.nk tiles } }

/-- The band of a latch (R337). -/
def State.bandOf (s : State) (b : Binding) (k : Nat) : Option Band :=
  ((b.bands[k]?).bind fun e => e).bind fun e => (s.images.find? e.1).bind fun i => i.bands[e.2]?

/-- The weights of a column over the bands of a record. -/
def columnOf (bands : List (Option Band)) (c : Nat) : List Oper :=
  bands.flatMap fun b => match b.bind fun b => b[c / 32]? with
    | some t => (List.range 32).map fun k => t.oper k (c % 32)
    | none => List.replicate 32 (.num (.fin false 0 0))

/-- The largest of the scales that are not 0xFF, else 127 (R336). -/
def topScale (l : List Nat) : Nat :=
  match l.filter (· != 255) with
  | [] => 127
  | x :: xs => xs.foldl max x

def TileData.scaleList (t : TileData) : List Nat :=
  if scaledFmt t.fmt then (if t.qs then t.scales else t.scales.take 1) else [127]

/-- The anchors that are pending are set (R336). -/
def Basin.fixAnchors (b : Basin) (a : Nat) : Basin :=
  let elems := b.elems.map fun p => if p.2.pend then (p.1, { p.2 with pend := false, a := BitVec.ofNat 8 a }) else p
  { b with elems := elems.filter fun (p : Nat × Elem) => p.2 != ({} : Elem) }

/-- One element's contributions of a row, in K order (R71). -/
def Elem.accumulate (e : Elem) (row col : List Oper) : Elem :=
  (row.zip col).foldl (fun e p => if p.1.zero && p.2.finite then e else e.add (p.1.mul p.2)) e

/-- The rows of an mma record from CUR to a row (R324, R336, R341). -/
def State.runMma (s : State) (r : MRec) (x : Group) (hi : Nat) : RecRun :=
  let blocks := blocksOf r.nrow
  match collect ((List.range (blocks * r.nk)).map fun k => s.recTile r x k (min 32 (r.nrow - 32 * (k / r.nk)))) with
  | .error e => .stopped s r.cur e
  | .ok ts =>
    let acts := ts.map fun t => t.getD TileData.zero
    let latch := (List.range r.bind.bands.length).map (s.bandOf r.bind)
    let sA := topScale (acts.flatMap TileData.scaleList)
    let sB := topScale (latch.flatMap fun b => match b with | some l => l.flatMap TileData.scaleList | none => [])
    let a := min (sA + sB + 8 - 127) 254
    let bands := (latch.drop r.kb0).take r.nk
    let cols := (List.range (32 * r.bind.ncol)).map (columnOf bands)
    let rows := (List.range r.nrow).map fun m =>
      ((acts.drop (m / 32 * r.nk)).take r.nk).flatMap fun t => (List.range 32).map fun k => t.oper (m % 32) k
    let keys := elemKeys (r.row0 + r.cur) (hi - r.cur) (32 * r.bind.ncol)
    .done (s.modBasin r.bas fun b => (b.fixAnchors a).mapElems keys fun k e =>
      e.accumulate (rows[k / 192 - r.row0]?.getD []) (cols[k % 192]?.getD []))

/-- The status bits of elements that are resolved, but for SAT (R362). -/
def statusOf (es : List Elem) : BitVec 3 :=
  (if es.any fun e => e.a == 0xFF then 2 else 0) ||| (if es.any fun e => e.a != 0xFF && e.k then 1 else 0)

/-- The FP32 of an element (R73). -/
def Elem.f32 (e : Elem) : Word := if e.a = 0xFF then 0x7FC00001 else toF32 0 e.num

def isInfNum : Num → Bool
  | .inf _ => true
  | _ => false

/-- A tile of resolved values, and whether one was clamped or overflowed to infinity (R73, R74, R362). -/
def resolveTile (fmt : Nat) (qs : Bool) (vals : List Num) : TileData × Bool :=
  if scaledFmt fmt then
    let t := TileData.ofValues fmt qs vals
    (t, ((List.range vals.length).zip vals).any fun p =>
      let s := t.scales[blockOf t.qs p.1]?.getD 127
      s != 255 && (elemEncode fmt (p.2.scale (127 - (s : Int)))).2)
  else
    let codes := vals.map fun v => match v with
      | .nan _ => if fmt = 0 then 0x7FC0 else if fmt = 1 then 0x7E01 else 0x7FC00001
      | v => (elemEncode fmt v).1
    ({ fmt, codes := codeTable codes },
      (vals.zip codes).any fun p => !isNanNum p.1 && isInfNum (elemValue fmt p.2))

/-- The bytes of a resolved tile in scratchpad (R338). -/
def State.storeTile (s : State) (g since : Nat) (base : Nat) (d : Word) (k rows : Nat) (t : TileData) : State :=
  let fmt := descFmt d
  let a := base + descTile d * k
  let h := headerSize fmt
  let bs := t.bytes
  let s := if h = 0 then s else s.landScratch g a (bs.take h) since
  (List.range rows).foldl (fun s r =>
    s.landScratch g (a + h + descRow d * r) ((bs.drop (h + rowBytes fmt * r)).take (rowBytes fmt)) since) s

/-- Whether the residue check of all the rows of a resolve, `bcmp` or `bsave` fails; it is made once, with the first of them
(R327). -/
def MRec.uncheckedBad (r : MRec) (b : Basin) (cols : Nat) : Bool :=
  r.frozen.isNone && !(b.pick (elemKeys r.row0 r.nrow cols)).all Elem.checks

/-- The row blocks of a resolve record from CUR to a row (R341, R361, R362). -/
def State.runRslv (s : State) (r : MRec) (b : Basin) (hi : Nat) : RecRun :=
  let es := b.pick (elemKeys (r.row0 + r.cur) (hi - r.cur) (32 * r.ncol))
  if r.uncheckedBad b (32 * r.ncol) then .mismatch
  else
    let rows := chunks (32 * r.ncol) (hi - r.cur) (es.map Elem.num)
    let zero : List Num := List.replicate 32 (.fin false 0 0)
    let out := (List.range (blocksOf (hi - r.cur) * r.ncol)).map fun k =>
      let i := k / r.ncol
      let j := k % r.ncol
      let vals := (List.range 32).flatMap fun m => match rows[32 * i + m]? with
        | some l => (l.drop (32 * j)).take 32
        | none => zero
      (r.cur / 32 * r.ncol + k, min 32 (hi - r.cur - 32 * i), resolveTile r.ofmt (r.qs && scaledFmt r.ofmt) vals)
    let sat : BitVec 3 := if out.any fun p => p.2.2.2 then 4 else 0
    let s := s.modBasin r.bas fun b => { b with status := b.status ||| statusOf es ||| sat }
    .done (out.foldl (fun s p =>
      if r.scr then
        (s.storeTile r.grp r.since r.base r.desc p.1 p.2.1 p.2.2.1).countIn r.grp r.lce
          (headerSize r.ofmt + rowBytes r.ofmt * p.2.1)
      else match r.tiles[p.1]? with
        | some i => (s.fillTile i p.2.2.1).countIn r.grp r.lce 2048
        | none => s) s)

/-- The results of the lanes from a lane on and below another; of those from `all` on, nothing. -/
def State.giveLanes (s : State) (r : MRec) (lo hi all : Nat) (val : Nat → Option (List Word)) : State :=
  let l := r.takers.filter fun p => decide (lo ≤ p.1.tid % 64) && (decide (p.1.tid % 64 < hi) || decide (all ≤ p.1.tid % 64))
  l.foldl (fun s p => s.result p.1 p.2 (match val (p.1.tid % 64) with | some l => .vals l | none => .keep)) s

/-- The column of a row's greatest element: an overflowed one is above every finite value, ties go to the lowest. -/
def greatest (es : List Elem) : Nat × Elem :=
  let above (x y : Elem) : Bool := if y.a = 0xFF then false else x.a == 0xFF || y.num.lt x.num
  (((List.range es.length).zip es).foldl (fun (b : Option (Nat × Elem)) p => match b with
    | none => some p
    | some q => if above p.2 q.2 then some p else some q) none).getD (0, {})

/-- The rows of a `bcmp` record from CUR to a row (R341, R363); `.rst` reads no element and has one row. -/
def State.runBcmp (s : State) (r : MRec) (b : Basin) (hi : Nat) : RecRun :=
  if r.fn = 3 then
    .done ((s.giveLanes r 0 64 64 fun _ => some [b.status.setWidth 32]).modBasin r.bas fun b => { b with status := 0 })
  else
    let es := b.pick (elemKeys (r.row0 + r.cur) (hi - r.cur) 192)
    if r.uncheckedBad b 192 then .mismatch
    else
      let rows := chunks 192 (hi - r.cur) es
      .done (s.giveLanes r r.cur hi r.nrow fun l => (rows[l - r.cur]?).map fun es => match r.fn with
        | 0 => [BitVec.ofNat 32 (greatest es).1]
        | 1 => [if es.all fun e => e.a != 0xFF && e.val == 0 then 1 else 0]
        | _ => [(greatest es).2.f32])

/-- A `bmov` record (R364): it reads the elements of all 64 lanes, though only active ones receive theirs. -/
def State.runBmov (s : State) (r : MRec) (b : Basin) : RecRun :=
  let lanes := (List.range 64).filter fun l => r.col0 + l < 192
  let es := lanes.map fun l => b.elem (r.row0 * 192 + r.col0 + l)
  if !es.all Elem.checks then .mismatch
  else if r.fn = 0 then
    let sat : BitVec 3 := if es.any fun e => e.a != 0xFF && isInfNum (numF32 e.f32) then 4 else 0
    let s := s.modBasin r.bas fun b => { b with status := b.status ||| statusOf es ||| sat }
    .done (s.giveLanes r 0 64 64 fun l =>
      if r.col0 + l < 192 then some [(b.elem (r.row0 * 192 + r.col0 + l)).f32] else none)
  else
    .done (s.giveLanes r 0 64 64 fun l =>
      if r.col0 + l < 192 then
        let n := s.rawElem l (b.elem (r.row0 * 192 + r.col0 + l))
        some [BitVec.ofNat 32 n, BitVec.ofNat 32 (n / 2 ^ 32), BitVec.ofNat 32 (n / 2 ^ 64)]
      else none)

/-- The rows of `bsave` from a row on, below another (R365). -/
def State.saveRows (s : State) (r : MRec) (b : Basin) (hi : Nat) : Nat → Nat → RecRun
  | 0, _ => .done s
  | fuel + 1, i =>
    if hi ≤ i then .done s
    else match s.group? r.grp with
      | none => .done s
      | some x =>
        let bs := (List.range 192).flatMap fun c =>
          bytesOf 12 (s.rawElem (i * 192 + c) (b.elem ((r.row0 + i) * 192 + c)))
        match s.engineWrite r.grp x ⟨r.loc.sp, r.loc.addr + 2304 * i⟩ bs r.since with
        | .error e => .stopped s i e
        | .ok s => (s.countIn r.grp r.lce 2304).saveRows r b hi fuel (i + 1)

/-- The rows of `brst` from a row on, below another (R365). -/
def State.restoreRows (s : State) (r : MRec) (hi : Nat) : Nat → Nat → RecRun
  | 0, _ => .done s
  | fuel + 1, i =>
    if hi ≤ i then .done s
    else match s.group? r.grp with
      | none => .done s
      | some x =>
        match s.engineRead x ⟨r.loc.sp, r.loc.addr + 2304 * i⟩ 2304 with
        | .bytes bs =>
          let new := (List.range 192).map fun c => Elem.ofRaw (littleEndian ((bs.drop (12 * c)).take 12))
          let s := s.modBasin r.bas fun b => b.mapElems (elemKeys (r.row0 + i) 1 192) fun k _ => new[k % 192]?.getD {}
          (s.countIn r.grp r.lce 2304).restoreRows r hi fuel (i + 1)
        | e => .stopped s i e

/-- Whether a record reads all its elements with its first rows: a resolve, `bcmp` or `bsave`, which writes nothing if one of
them fails its check (R327). -/
def MRec.freezes (r : MRec) : Bool := r.kind == 3 || r.kind == 5 || r.kind == 7

/-- The region as a record reads it. -/
def MRec.view (r : MRec) (b : Basin) : Basin := { b with elems := r.frozen.getD b.elems }

/-- A record that has begun its rows on a region. -/
def MRec.begunOn (r : MRec) (b : Basin) (cur : Nat) : MRec :=
  { r with cur := cur, frozen := if r.freezes then some (r.frozen.getD b.elems) else none }

/-- What a record does from CUR to a row, by its kind (R341); a `wld` is one step. -/
def State.runRec (s : State) (id : Nat) (r : MRec) (x : Group) (b : Basin) (hi : Nat) : RecRun :=
  let keys := elemKeys (r.row0 + r.cur) (hi - r.cur) 192
  match r.kind with
  | 1 => s.runMma r x hi
  | 2 => s.runWld id r x
  | 3 => s.runRslv r b hi
  | 4 => .done (s.modBasin r.bas fun b => b.mapElems keys fun _ _ =>
      if r.anch = 256 then { a := 135, pend := true } else { a := BitVec.ofNat 8 r.anch })
  | 5 => s.runBcmp r b hi
  | 6 => s.runBmov r b
  | 7 => if r.uncheckedBad b 192 then .mismatch else s.saveRows r b hi (r.nrow + 1) r.cur
  | 8 => s.restoreRows r hi (r.nrow + 1) r.cur
  | _ =>
    if !(b.pick keys).all Elem.checks then .mismatch
    else .done (s.modBasin r.bas fun b => b.mapElems keys fun _ e => e.bscale r.shift)

/-- The record that runs on an engine goes on from CUR to a row that its record gives; `after` says what follows when it gets
there. -/
def State.advanceRec (s : State) (core : Nat) (upTo : MRec → Option Nat) (after : State → Nat → MRec → Nat → State) :
    Host.Outcome State Fault Refusal :=
  match (s.core core).running with
  | none => .refused .notEnabled
  | some id =>
    match s.recs.find? id with
    | none => .refused .notEnabled
    | some r =>
      match s.group? r.grp, s.basins.find? r.bas, upTo r with
      | some x, some b, some hi =>
        if s.waitsOn (.record id) || !x.resident || (s.core core).arrayOut then .refused .notEnabled
        else match s.runRec id r x (r.view b) hi with
          | .done s => .next (after s id (r.begunOn b r.cur) hi)
          | .mismatch => .next (s.integrity r.grp core)
          | .stopped s cur e =>
            let s := { s with recs := s.recs.put id (r.begunOn b cur) }
            match e with
            | .miss a v _ => .next (s.addMiss core a v (.record id))
            | .fault _ _ => .next (s.failRec id { r with cur := cur } 7)
            | .poison => .next (s.kill r.grp)
            | _ => .refused .notEnabled
      | _, _, _ => .refused .notEnabled

/-- The record that runs on an engine completes: its outputs land (R341). -/
def execMatrixRecordComplete (core : Nat) (s : State) : Host.Outcome State Fault Refusal :=
  s.advanceRec core (fun r => some r.nrow) fun s id r _ => s.endRec id r

/-- A record of any kind but wld completes 32 rows, at which it can be interrupted: CUR is written (R341). -/
def matrixUnit (core : Nat) (s : State) : Host.Outcome State Fault Refusal :=
  s.advanceRec core (fun r => if r.kind != 2 && decide (r.cur + 32 < r.nrow) then some (r.cur + 32) else none)
    fun s id r hi => { s with recs := s.recs.put id { r with cur := hi } }

end Sys2Proof.Machine
end

