-- ==== Sys2Proof/Machine/Fabric.lean ====
section
/-!
DEFINITION. The fabric engine: remote operations and collectives (R408-R417), deadline stamps and ages of packets
(R399, R400), peer ports and the transactions of peers (R402).
-/
namespace Sys2Proof.Machine

/-! ## Remote operations (R408-R410, R415) -/

/-- A remote operation of a thread. -/
def State.remote (s : State) (r : TRef) (g : Group) (t : Thread) (kind : RemoteKind) (acc : Acc) (ctr : Option Nat)
    (taker : Option Nat) (op : Nat) : State :=
  let me : Remote :=
    { grp := r.grp, launch := g.launch, kind := kind, acc := acc, ctr := ctr, taker := taker.map fun q => (r, q),
      op := op, pc := t.pc, rank := s.rank g r.tid }
  s.buffer r (.remote me)

/-- R415: the words are sampled at issue. -/
def execXput (f : Fields) (s : State) : Host.Outcome State Fault Refusal :=
  issueEach (.xput f) f (fun r g t s => Act.of do
    let n := f.fn.toNat + 1
    let (acc, _) ← s.operand g t f (4 * n) 4 true (.peer true)
    let words := (List.range n).map fun i => t.reg (f.b.toNat + i)
    pure (s.remote r g t (.xput words) acc (ctrOf f.d) none 0xD0)) s

/-- R415. -/
def execXget (f : Fields) (s : State) : Host.Outcome State Fault Refusal :=
  issueEach (.xget f) f (fun r g t s => Act.of do
    let n := f.fn.toNat + 1
    let (acc, _) ← s.operand g t f (4 * n) 4 false (.peer false)
    let q := s.fresh
    pure ((s.defer r (dstOf f.d n) .engine).remote r g t (.xget n) acc none (some q) 0xD1)) s

/-- R415; a deterministic launch takes the determinism fault (R410). -/
def execXfwr (f : Fields) (s : State) : Host.Outcome State Fault Refusal :=
  issueEach (.xfwr f) f (fun r g t s => Act.of do
    if (s.launchOf g).r.det then throw (.of .determinism)
    let (acc, _) ← s.operand g t f 4 4 true (.peer true)
    let q := s.fresh
    let v := if f.b = 248 then 0 else t.reg f.b.toNat
    pure ((s.defer r (dstOf f.d) .engine).remote r g t (.xfwr f.m.toNat f.t v) acc none (some q) 0xD2)) s

/-- A remote operation that has failed (R408, R414): the fault record, its bytes undelivered, an open value for a result
that a thread waits for (log entry 24), and the launch ends with status 2. -/
def State.failRemote (s : State) (id : Nat) (r : Remote) (cause : Nat) : State :=
  let s := s.engineFault r.grp (copyRecord r.pc r.rank 0 r.acc.va r.ctr r.op cause)
  let s := s.modLaunch r.launch fun l =>
    { l with status := if l.status = 3 then 3 else 2, reason := if l.status = 0 then Cause.engine.code else l.reason }
  let open_ (s : State) (t : TRef) (q : Nat) (k n : Nat) : State :=
    s.result t q (.vals ((List.range n).map fun i => s.word (1000 * k + i)))
  let s := match r.kind, r.taker with
    | .xget n, some (t, q) => open_ s t q 0 n
    | .xfwr .., some (t, q) => open_ s t q 0 1
    | .commit _ rs, _ => ((List.range rs.length).zip rs).foldl (fun (s : State) (p : Nat × TRef × Nat × Word) => open_ s p.2.1 p.2.2.1 p.1 1) s
    | _, _ => s
  let n := match r.kind with | .xput l => 4 * l.length | _ => 0
  ((({ s with remotes := s.remotes.erase id, packets := s.packets.filter (·.id != id) }.countIn r.grp r.ctr n true).outDone
    r.grp r.ctr)).leave r.grp

/-! ## Packets (R399, R400) -/

/-- A packet's age rises by one, to 255 at most; there it is promoted to class 0 (R399). -/
def execPacketAgeTick (k : Nat) (s : State) : Host.Outcome State Fault Refusal :=
  match s.packets[k]? with
  | none => .refused .notEnabled
  | some p =>
    if p.sent then .refused .notEnabled
    else
      let age := min 255 (p.age + 1)
      .next { s with packets := s.packets.set k { p with age := age, cls := if age = 255 then 0 else p.cls } }

/-- What an output port compares of two packets of one message class, the lower going first: class 0 by age; then lower
classes, within a class stamped packets by deadline and the others by slack; ties to the higher age, then to the lower
input port (R399). -/
def Packet.order (p : Packet) : List Nat :=
  match p.cls, p.stamp with
  | 0, _ => [0, 255 - p.age, p.inPort]
  | c, some d => [c, 0, d.toNat, 255 - p.age, p.inPort]
  | c, none => [c, 1, p.slack, 255 - p.age, p.inPort]

/-- The packet that an output port grants: the first in order of those that wait at it, the earlier injected of two that
nothing else orders. -/
def State.grantOf (s : State) (port : Nat) : Option Packet :=
  (s.packets.filter fun p => !p.sent && p.outPort == port).foldl (fun b p => match b with
    | none => some p
    | some q => if decide (p.order < q.order) then some p else some q) none

/-- An output port that is up grants a packet, which then stands behind those that have reached the port before it (R399, R402). -/
def portGrant (port : Nat) (s : State) : Host.Outcome State Fault Refusal :=
  match s.grantOf port with
  | none => .refused .notEnabled
  | some p =>
    if s.ready.ual.getLsbD port then
      .next { s with packets := s.packets.filter (·.id != p.id) ++ [{ p with sent := true }] }
    else .refused .notEnabled

/-- A packet of a launch is late: it counts, and with ARB 2 its group, if it has not gone, traps at its next boundary
(R400). -/
def State.countLate (s : State) (launch g : Nat) : State :=
  let s := s.modLaunch launch fun l => { l with late := if l.late = 0xFFFFFFFF then l.late else l.late + 1 }
  match s.launch? launch with
  | some l => if l.r.arb = 2 then s.modGroup g fun x => { x with lateTrap := true } else s
  | none => s

/-- A packet is delivered; it is late after its stamp (R400). -/
def State.takePacket (s : State) (p : Packet) : State :=
  let s' := { s with packets := s.packets.filter (·.id != p.id) }
  match p.stamp with
  | some d => if d < s.clk then s'.countLate p.launch p.grp else s'
  | none => s'

/-- Whether a packet is the one that leaves its port next: packets leave a port in the order in which they reached it (R402). -/
def State.leavesNext (s : State) (p : Packet) : Bool :=
  p.sent && s.ready.ual.getLsbD p.outPort && (s.packets.find? fun q => q.sent && q.outPort == p.outPort).map Packet.id == some p.id

/-- The packet that leaves its port next is delivered. -/
def packetDelivery (id : Nat) (s : State) : Host.Outcome State Fault Refusal :=
  match s.packets.find? fun p => p.id == id with
  | some p => if s.leavesNext p then .next (s.takePacket p) else .refused .notEnabled
  | none => .refused .notEnabled

/-- Whether packets of a group other than those of its remote operations may be on their way: it fetches, waits for memory
or for a translation, prepares a commit, or an engine works for it. -/
def State.traffic (s : State) (g : Nat) (x : Group) : Bool :=
  x.fills || s.inFlight g || x.doms.any (fun d => d.prep.isSome) ||
    x.threads.any fun t => t.st == .ready || t.defs.any fun d => match d.src with | .load .. => true | _ => false

/-- A packet of a group's loads, commits or engines is delivered after its deadline stamp (R400). -/
def execLateDelivery (g : Nat) (s : State) : Host.Outcome State Fault Refusal :=
  match s.group? g with
  | none => .refused .notEnabled
  | some x =>
    match x.stamp (s.launchOf x) with
    | some d => if d < s.clk ∧ s.traffic g x = true then .next (s.countLate x.launch g) else .refused .notEnabled
    | none => .refused .notEnabled

/-- The packet of a remote operation has been delivered, or is delivered now, leaving its port; `none` while it waits for the port or
behind another. -/
def State.delivered (s : State) (id : Nat) : Option State :=
  match s.packets.find? fun p => p.id == id with
  | none => some s
  | some p => if s.leavesNext p then some (s.takePacket p) else none

/-- Whether an `xput` waits for an earlier one of its group to a peer module of its own: they become visible there in their order
(R409). -/
def State.xputWaits (s : State) (id : Nat) (r : Remote) : Bool :=
  let isXput (r : Remote) : Bool := match r.kind with | .xput _ => true | _ => false
  isXput r && s.remotes.any fun q => decide (q.1 < id) && q.2.grp == r.grp && isXput q.2 && q.2.peers.any r.peers.contains

/-- A peer acknowledges a remote operation, or completes it with an error status; `found` are the words that an `xget` or
`xfwr` read at the peer (R408-R410).  What a peer's memory holds is an input; with no port up nothing comes from a peer (R402).
An acknowledged operation is visible at the peer, an `xput` after those before it (R408, R409). -/
def execRemoteSettle (id : Nat) (err : Bool) (found : List Word) (s : State) : Host.Outcome State Fault Refusal :=
  match s.remotes.find? id, s.delivered id with
  | none, _ | _, none => .refused .notEnabled
  | some r, some s =>
    let done (s : State) : Host.Outcome State Fault Refusal :=
      .next (({ s with remotes := s.remotes.erase id }.outDone r.grp r.ctr).leave r.grp)
    if s.ready.ual = 0 then .refused .notEnabled
    else if err then .next (s.failRemote id r 5)
    else if s.xputWaits id r then .refused .notEnabled
    else match r.kind, r.taker with
      | .xput l, _ => done (s.countIn r.grp r.ctr (4 * l.length))
      | .xget n, some (t, q) => if found.length = n then done (s.result t q (.vals found)) else .refused .notEnabled
      | .xfwr .., some (t, q) => if found.length = 1 then done (s.result t q (.vals found)) else .refused .notEnabled
      | .commit _ rs, _ =>
        if found.isEmpty then done (rs.foldl (fun (s : State) p => s.result p.1 p.2.1 (.vals [p.2.2])) s)
        else .refused .notEnabled
      | _, none => .refused .notEnabled

/-! ## Collectives (R411, R412, R416) -/

/-- The modules of a pod gang, ascending (R381, R411). -/
def State.podModules (s : State) (l : Launch) : List Nat :=
  (List.range 128).filter fun m => m = s.fw.module || (Table.get [] s.fw.pods l.r.podg).any fun e => e.module == m

def Launch.podSize (l : Launch) : Nat := l.r.podn + 1

/-- The number of bytes of a collective's source and destination (R411). -/
def collectiveLen (op n m : Nat) : Nat × Nat :=
  match op with
  | 0xD3 => (n, m * n)
  | 0xD5 => (n, n)
  | _ => (4 * n, 4 * n)

/-- Whether a length or count is in its range (R416). -/
def collectiveOk (op n : Nat) : Bool :=
  match op with
  | 0xD3 => decide (4 ≤ n) && decide (n ≤ 2 ^ 20) && n % 4 == 0
  | 0xD5 => decide (4 ≤ n) && decide (n ≤ 2 ^ 22) && n % 4 == 0
  | _ => decide (1 ≤ n) && decide (n ≤ 2 ^ 18)

/-- R416: one instance of a cohort is one collective. -/
def issueCollective (i : Instr) (f : Fields) (s : State) : Host.Outcome State Fault Refusal :=
  issueEach i f (fun r g t s => Act.of do
    let l := s.launchOf g
    let op := i.op.toNat
    let n := (t.srcHi f.b).toNat
    let root := if op = 0xD5 then f.imm.toNat else 0
    if g.grp ≠ 0 ∨ l.r.gang ≠ 4 then throw (copyFault 11)
    if !collectiveOk op n || decide (l.podSize ≤ root) then throw (copyFault 10)
    let (sl, dl) := collectiveLen op n l.podSize
    let so := (t.reg f.b.toNat).toNat
    let d := (if f.c = 248 then (0 : Word) else t.reg f.c.toNat).toNat
    let src ← t.range f.a so sl 1 false
    let dst ← t.range f.a d dl 1 true
    if src.addr < dst.addr + dl ∧ dst.addr < src.addr + sl then throw (copyFault 2)
    let c : Collective :=
      { grp := r.grp, op := op, fn := f.fn.toNat, t := f.t, src := src, dst := dst, len := n, root := root,
        ctr := ctrOf f.d, pc := t.pc, rank := s.rank g r.tid }
    pure (s.joinInst r g t (.collective c) none)) s

/-- R416. -/
def execXallg (f : Fields) (s : State) : Host.Outcome State Fault Refusal := issueCollective (.xallg f) f s

/-- R416. -/
def execXred (f : Fields) (s : State) : Host.Outcome State Fault Refusal := issueCollective (.xred f) f s

/-- R416. -/
def execXbcst (f : Fields) (s : State) : Host.Outcome State Fault Refusal := issueCollective (.xbcst f) f s

/-- The FP32 sum of a collective (R412). -/
def reduceSum (l : List Word) : Word :=
  match l.find? f32IsNan with
  | some n => quiet n
  | none =>
    let nums := l.map numF32
    if nums.any isInfNum then
      if nums.contains (.inf false) && nums.contains (.inf true) then defaultNan
      else if nums.contains (.inf false) then 0x7F800000 else 0xFF800000
    else
      let top := nums.foldl (fun (b : Option Int) v => match v with
        | .fin _ m e => if m = 0 then b else some (match b with | some k => max k (floorLog2 m e) | none => floorLog2 m e)
        | _ => b) none
      match top with
      | none => 0
      | some e =>
        let el : Elem := { a := BitVec.ofInt 8 (min (max (e + 116) 0) 254) }
        (nums.foldl Elem.add el).f32

/-- One element of `xred`, in module-rank order (R412). -/
def reduceWord (fn : Nat) (t : Ty) (l : List Word) : Word :=
  match l with
  | [] => 0
  | x :: xs =>
    match fn with
    | 0 => if t = .f32 then reduceSum l else l.foldl (· + ·) 0
    | 1 => if t = .f32 then toF32 0 (xs.foldl (fun a w => a.min (numF32 w)) (numF32 x))
           else xs.foldl (fun a w => if ival t w < ival t a then w else a) x
    | _ => if t = .f32 then toF32 0 (xs.foldl (fun a w => a.max (numF32 w)) (numF32 x))
           else xs.foldl (fun a w => if ival t a < ival t w then w else a) x

/-- The words of a contribution. -/
def wordsIn : Nat → List Byte → List Word
  | 0, _ => []
  | n + 1, l => BitVec.ofNat 32 (littleEndian (l.take 4)) :: wordsIn n (l.drop 4)

/-- What a module receives from the contributions in module-rank order (R411). -/
def Collective.result (c : Collective) (l : List (List Byte)) : List Byte :=
  match c.op with
  | 0xD3 => l.flatten
  | 0xD5 => l[c.root]?.getD []
  | _ =>
    let rows := l.map (wordsIn c.len)
    (List.range c.len).flatMap fun i => bytesOf 4 (reduceWord c.fn c.t (rows.map fun r => r[i]?.getD 0)).toNat

/-- A collective ends without its result: its destination counts as undelivered (R411). -/
def State.endColl (s : State) (id : Nat) (c : Collective) (total : Nat) (lost : Bool) : State :=
  ((({ s with colls := s.colls.erase id }.countIn c.grp c.ctr total lost).outDone c.grp c.ctr)).leave c.grp

/-- A collective that an engine fault stops (R411, R414). -/
def State.failColl (s : State) (id : Nat) (c : Collective) (cause va total : Nat) : State :=
  (s.engineFault c.grp (copyRecord c.pc c.rank c.done va c.ctr c.op cause)).endColl id c total true

/-- What stops an access of a collective: a miss pauses it alone, at the byte that it has reached (R411). -/
def State.collStop (s : State) (id : Nat) (c : Collective) (x : Group) (total : Nat) (e : Got) :
    Host.Outcome State Fault Refusal :=
  match e with
  | .miss a v _ => .next ({ s with colls := s.colls.put id c }.addMiss x.core a v (.coll id))
  | .fault cause va => .next (s.failColl id c cause va total)
  | .poison => .next (s.kill c.grp)
  | _ => .refused .notEnabled

/-- The bytes of a place that lie before the address of a miss. -/
def beforeMiss (loc : Loc) (e : Got) : Nat :=
  match e with
  | .miss _ v _ => v - loc.addr
  | _ => 0

/-- The rest of the result lands, byte by byte where a commit has written since the collective passed (R13); a miss lets what lies
before it land. -/
def State.landColl (s : State) (id : Nat) (c : Collective) (x : Group) (dl : Nat) (image : List Byte) :
    Host.Outcome State Fault Refusal :=
  let loc : Loc := { c.dst with addr := c.dst.addr + c.done }
  let rest := image.drop c.done
  match s.engineWrite c.grp x loc rest id with
  | .ok s => .next (s.endColl id c dl false)
  | .error e =>
    let n := beforeMiss loc e
    let s := match s.engineWrite c.grp x loc (rest.take n) id with | .ok s => s | .error _ => s
    s.collStop id { c with image := some image, done := c.done + n } x dl e

/-- A collective completes on this module, once it may read (R40): `contribs` are the other modules' contributions by rank, the
place of this module's own being ignored; or it ends as another module's fault ends it (R411, R414). -/
def execCollectiveComplete (id : Nat) (fate : CollectiveEnd) (contribs : List (List Byte)) (s : State) :
    Host.Outcome State Fault Refusal :=
  match s.colls.find? id with
  | none => .refused .notEnabled
  | some c =>
    match s.group? c.grp with
    | none => .refused .notEnabled
    | some x =>
      let l := s.launchOf x
      let (sl, dl) := collectiveLen c.op c.len l.podSize
      let me := ((s.podModules l).idxOf? s.fw.module).getD 0
      if s.waitsOn (.coll id) then .refused .notEnabled
      else match fate with
        | .differ => .next (s.failColl id c 6 0 dl)
        | .error => .next (s.failColl id c 5 0 dl)
        | .missed => .next (s.endColl id c dl true)
        | .agree =>
          if contribs.length != l.podSize || contribs.any (·.length != sl) || s.readsHeld (.coll id) then .refused .notEnabled
          else match c.image with
            | some image => s.landColl id c x dl image
            | none =>
              if c.op = 0xD5 ∧ me ≠ c.root then s.landColl id c x dl (c.result contribs)
              else
                let loc : Loc := { c.src with addr := c.src.addr + c.own.length }
                match s.engineRead x loc (sl - c.own.length) with
                | .bytes bs => s.landColl id c x dl (c.result (contribs.set me (c.own ++ bs)))
                | e =>
                  let more := match s.engineRead x loc (beforeMiss loc e) with | .bytes bs => bs | _ => []
                  s.collStop id { c with own := c.own ++ more } x dl e

/-- A peer has acknowledged nothing for 1 ms: the remote operation or collective fails (R414). -/
def execPeerAckTimeout (id : Nat) (s : State) : Host.Outcome State Fault Refusal :=
  match s.remotes.find? id, s.colls.find? id with
  | some r, _ => .next (s.failRemote id r 4)
  | none, some c =>
    match s.group? c.grp with
    | some x => .next (s.failColl id c 4 0 (collectiveLen c.op c.len (s.launchOf x).podSize).2)
    | none => .refused .notEnabled
  | none, none => .refused .notEnabled

/-! ## `xqry` and `digest` (R417) -/

/-- The word of `xqry`. -/
def State.xqryWord (s : State) (g : Nat) (x : Group) (sel : Nat) : Word :=
  let l := s.launchOf x
  match sel with
  | 0 =>
    if l.r.gang = 4 then
      BitVec.ofNat 32 (pack [(0, 7, s.fw.module), (8, 7, ((s.podModules l).idxOf? s.fw.module).getD 0), (16, 7, l.r.podn),
        (31, 1, 1)])
    else BitVec.ofNat 32 (s.fw.module % 2 ^ 7)
  | 1 => l.late
  | 2 => s.ready.ual.setWidth 32
  | _ => BitVec.ofNat 32 (min (2 ^ 32 - 1) (s.remotes.filter fun r => r.2.grp == g).length)

/-- R417. -/
def execXqry (f : Fields) (s : State) : Host.Outcome State Fault Refusal :=
  issueDefer (.xqry f) f (fun _ _ _ _ => .ok (dstOf f.d, .xqry f.fn.toNat)) s

/-- Words of a queue's running hash (R385, R417). -/
def State.digestWords (s : State) (q g : Nat) : List Word :=
  wordsIn 4 (((s.queueAt q).hash.drop (16 * g)).take 16)

/-- R417. -/
def execDigest (f : Fields) (s : State) : Host.Outcome State Fault Refusal :=
  issueDefer (.digest f) f (fun _ _ t _ =>
    let q := (t.opA f).toNat
    if 63 < q then .error (copyFault 12) else .ok (dstOf f.d 4, .digest q f.fn.toNat)) s

/-! ## Peers (R402) -/

/-- Packets at a port that is not up wait at one that is (R402). -/
def State.reroute (s : State) : State :=
  { s with packets := s.packets.map fun p =>
      if s.ready.ual.getLsbD p.outPort then p
      else { p with sent := false, outPort := s.peerPort (((s.remotes.find? p.id).bind fun r => r.acc.keys.head?).getD 0) } }

/-- A peer port goes down, and traffic goes by the others (R402). -/
def execUalinkPortDown (port : Nat) (s : State) : Host.Outcome State Fault Refusal :=
  if s.ready.ual.getLsbD port then
    .next ({ s with ready := { s.ready with ual := s.ready.ual &&& ~~~BitVec.ofNat 18 (2 ^ port) } } : State).reroute
  else .refused .notEnabled

/-- A transaction of a peer on this module's memory (R402, R409, R410): a read takes its values, a write is a plain write,
an atomic is one operation on a 4-byte cell.  None is served in the safe state (R427, R429). -/
def execPeerTransactionArrival (op : PeerOp) (s : State) : Host.Outcome State Fault Refusal :=
  if s.ready.ual = 0 ∨ s.ready.safe = true then .refused .notEnabled
  else match op with
    | .read addr len =>
      if (physKeys addr len).all fun k => isDeviceMemory k && !s.prepared k then .next s else .refused .notEnabled
    | .write addr bs =>
      if (physKeys addr bs.length).all isDeviceMemory then .next (s.writePhys addr bs) else .refused .notEnabled
    | .atomic addr rule t v =>
      let ks := physKeys addr 4
      if addr % 4 = 0 ∧ (ks.all fun k => isDeviceMemory k && !s.prepared k) = true then
        let old : Word := BitVec.ofNat 32 (s.readPhys addr 4)
        .next (s.writePhys addr (bytesOf 4 (if isCombining rule then combine rule t old [v] else v).toNat))
      else .refused .notEnabled

end Sys2Proof.Machine
end

