-- ==== Sys2Proof/Machine/Fetch.lean ====
section
/-!
DEFINITION. The instruction supply: fills of the instruction cache (R94, R249), fall-through to the next header (R81),
what stands at a thread's PC, the PC table and the issue-group builder (R112-R114), and the fault words (R94, R96).
-/
namespace Sys2Proof.Machine

/-! ## Fault words -/

/-- The fault of a position that holds no instruction, or lies in a block that may not execute (R94, R96, R97, R249). -/
def State.wordFault (s : State) (x : Group) (t : Thread) : Block × Slot → Option Stop
  | (b, k) =>
    let l := s.launchOf x
    if b.prot then some (.of .protection 0 (l.r.code + t.pc.toNat))
    else match k with
      | .padding => none
      | .malformed => some (.of .reserved)
      | .word w _ =>
        match decodeWord w with
        | .instr _ => none
        | .reserved => some (.of .reserved)
        | .illegal i =>
          if (i.fields.map (featuresOk l.fmask i)).getD true then some (.of .illegal) else some (.of .reserved)

/-! ## Fall-through (R81) -/

/-- Control falls through to the next header: it is checked, and entered. -/
def State.fallThrough (s : State) (r : TRef) : Host.Outcome State Fault Refusal :=
  match s.group? r.grp, s.thread? r with
  | some g, some t =>
    match t.fall with
    | some (hdr, fpc) =>
      if g.runs && t.st == .ready then
        if s.timerDue t then .next (s.timerTrap r.grp)
        else match s.checkHeader g hdr.toNat codeKinds with
          | .ok bytes => .next ((s.modThread r fun t => { t with fall := none }).enter r hdr bytes)
          | .error (.trap e) => .next (s.trap r.grp [r.tid] { e with fpc := some fpc })
          | .error .later => .refused .notEnabled
          | .error e => .next (s.stopAt r e)
      else .refused .notEnabled
    | none => .refused .notEnabled
  | _, _ => .refused .notEnabled

/-! ## Fills (R94) -/

/-- The bytes of a block from an offset on, each as the fill found it where it has read it before (R47). -/
def Core.foundBytes (k : Core) (launch : Nat) (hdr : Word) (off : Nat) (bytes : List Byte) : List Byte :=
  ((List.range bytes.length).zip bytes).map fun p =>
    match k.ahead.find? fun b => b.launch == launch && b.hdr == hdr && b.off == off + p.1 with
    | some b => b.byte
    | none => p.2

/-- A header with its body, read from memory whatever the cache holds, each byte now or when the fill has read it before (R47);
`none` where they leave the object. -/
def State.readBlock (s : State) (g : Group) (off : Nat) : Except Stop (Option (List Byte)) := do
  let l := s.launchOf g
  let found := (s.core g.core).foundBytes g.launch (BitVec.ofNat 32 off)
  if off % 8 ≠ 0 ∨ off < l.objFirst ∨ l.objSize < off + 8 then pure none
  else
    let h ← s.codeBytes g off 8
    let h := found 0 h
    let len := (Header.ofNat (littleEndian h)).len
    if l.objSize < off + 8 + len then pure none
    else
      let body ← s.codeBytes g (off + 8) len
      pure (some (h ++ found 8 body))

/-- Whether a run of code bytes lies on pages that may execute (R249). -/
def State.executable (s : State) (g : Group) (off len : Nat) : Bool :=
  match s.accessAt (s.aspace g) ⟨false, (s.launchOf g).r.code + off⟩ len 1 .exec with
  | .error (.trap t) => t.cause != .protection
  | _ => true

/-- A block put into a core's cache in place of what it held of the same header. -/
def State.putBlock (s : State) (core : Nat) (b : Block) : State :=
  s.modCore core fun k =>
    { k with blocks := (k.blocks.filter fun c => !(c.launch == b.launch && c.hdr == b.hdr)) ++ [b] }

/-- A fill has read its block, and keeps none of its bytes. -/
def State.endFill (s : State) (core launch : Nat) (hdr : Word) : State :=
  s.modCore core fun k => { k with ahead := k.ahead.filter fun b => !(b.launch == launch && b.hdr == hdr) }

/-- The first ready thread of a group that stands in the block of a header. -/
def Group.standsIn (x : Group) (hdr : Word) : Option Nat :=
  (List.range x.threads.length).find? fun i => match x.threads[i]? with
    | some t => t.st == .ready && t.here == hdr
    | none => false

/-- A fill that is under way reads one byte of its block: it goes on from what it found, and what is written later is not in it
(R47).  A commit between this and the fill gives a block that mixes old and new bytes. -/
def fillAhead (core g : Nat) (hdr : Word) (off : Nat) (s : State) : Host.Outcome State Fault Refusal :=
  match s.group? g with
  | none => .refused .notEnabled
  | some x =>
    if x.core != core || !x.runs || (x.standsIn hdr).isNone || decide ((s.launchOf x).objSize ≤ hdr.toNat + off) then .refused .notEnabled
    else match s.codeBytes x (hdr.toNat + off) 1 with
      | .ok [b] =>
        .next (s.modCore core fun k =>
          { k with ahead := k.ahead.filter (fun c => !(c.launch == x.launch && c.hdr == hdr && c.off == off)) ++
              [{ launch := x.launch, hdr := hdr, off := off, byte := b }] })
      | _ => .refused .notEnabled

/-- The instruction cache of a core fills the block of a header in which a ready thread of the group stands; it may
refill it at any time (R47, R94).  A miss acts on the group by that thread (R253).  A byte that the fill has read before keeps the value
found there, so that a block can mix old and new bytes (R47, log entry 10).  A header that has changed since it was entered
and gives a block that leaves the object is a bad target (log entry 55). -/
def execInstructionCacheFill (core g : Nat) (hdr : Word) (s : State) : Host.Outcome State Fault Refusal :=
  match s.group? g with
  | none => .refused .notEnabled
  | some x =>
    match x.standsIn hdr with
    | none => .refused .notEnabled
    | some tid =>
      if x.core != core || !x.runs then .refused .notEnabled
      else
        let r : TRef := ⟨g, tid⟩
        match s.readBlock x hdr.toNat with
        | .error .later => .refused .notEnabled
        | .error e => .next (s.stopAt r e)
        | .ok none => .next ((s.endFill core x.launch hdr).stopAt r (.of .badTarget 0 hdr.toNat))
        | .ok (some bytes) =>
          if !checkByte (bytes.take 8) then .next ((s.endFill core x.launch hdr).stopAt r (.of .badTarget 0 hdr.toNat))
          else
            let b : Block := { launch := x.launch, hdr := hdr, bytes := bytes, prot := !s.executable x hdr.toNat bytes.length }
            .next ((s.endFill core x.launch hdr).putBlock core b)

/-! ## The PC table (R112) -/

def pcEntries : Nat := 256

/-- The threads of a core that are ready, with their groups, by group slot and `%tid`; one that waits at a
cohort-synchronous instruction is parked (R111). -/
def State.readyOn (s : State) (core : Nat) : List (TRef × Group × Thread) :=
  let gs := (s.residents core).filter fun p => p.2.runs
  (List.range 8).flatMap fun slot => (gs.filter fun p => p.2.slot == slot).flatMap fun p =>
    (List.range p.2.threads.length).filterMap fun i => match p.2.threads[i]? with
      | some t => if t.st == .ready && !s.syncParked p.2 i t then some (⟨p.1, i⟩, p.2, t) else none
      | none => none

/-- The place of a thread in a table: its instruction byte address, in its address space (R112). -/
def State.pcKey (s : State) (x : Group) (t : Thread) : Nat × Nat :=
  let r := (s.launchOf x).r
  (r.asid, r.code + t.pc.toNat)

def PcEntry.key (e : PcEntry) : Nat × Nat := (e.asid, e.addr)

/-- A free entry taken for a PC: the first of them, which decides the ties of R114; it counts its 64 cycles from this one while it
has not been chosen (R112, R114, log entry 61). -/
def takeEntry (cycle : Nat) (k : Nat × Nat) : List (Option PcEntry) → Option (List (Option PcEntry))
  | [] => none
  | none :: es => some (some { asid := k.1, addr := k.2, chosen := cycle } :: es)
  | some e :: es => (takeEntry cycle k es).map (some e :: ·)

def hasEntry (k : Nat × Nat) (es : List (Option PcEntry)) : Bool := es.any fun e => match e with
  | some e => e.key == k
  | none => false

/-- Free entries go to the threads at the head of the overflow queue, each with every queued thread of its PC; `fuel`
bounds the queue. -/
def serveOverflow (cycle : Nat) (keyOf : TRef → Nat × Nat) :
    Nat → List (Option PcEntry) → List TRef → List (Option PcEntry) × List TRef
  | 0, es, q => (es, q)
  | _, es, [] => (es, [])
  | fuel + 1, es, r :: q =>
    match takeEntry cycle (keyOf r) es with
    | some es => serveOverflow cycle keyOf fuel es (q.filter fun r' => keyOf r' != keyOf r)
    | none => (es, r :: q)

/-- The PC table of a core, brought up to the threads that are ready now: entries that hold no thread are free, the
overflow queue is served, and threads that have become ready take their places (R112). -/
def State.syncTable (s : State) (core : Nat) : Core :=
  let k := s.core core
  let ready := s.readyOn core
  let keyOf (r : TRef) : Nat × Nat := match ready.find? fun p => p.1 == r with
    | some p => s.pcKey p.2.1 p.2.2
    | none => (0, 0)
  let ovf := k.ovf.filter fun r => ready.any fun p => p.1 == r
  let listed := ready.filter fun p => !ovf.contains p.1
  let held (e : PcEntry) : Bool := listed.any fun p => s.pcKey p.2.1 p.2.2 == e.key
  let es := (k.pct.map fun e => e.filter held) ++ List.replicate (pcEntries - k.pct.length) none
  let (es, ovf) := serveOverflow k.cycle keyOf (ovf.length + 1) es ovf
  let (es, ovf) := listed.foldl (fun (p : List (Option PcEntry) × List TRef) q =>
    let key := s.pcKey q.2.1 q.2.2
    if hasEntry key p.1 then p
    else match takeEntry k.cycle key p.1 with
      | some es => (es, p.2)
      | none => (p.1, p.2 ++ [q.1])) (es, ovf)
  { k with pct := es, ovf := ovf }

/-! ## Eligibility (R113) -/

/-- The cycles between two issues of a thread (R113, R129). -/
def issueGap (k : Core) : Nat := if k.degraded then 8 else 4

/-- Whether a thread may issue what stands at its PC, but for the gap: its block is cached, it falls through to no
header, and neither its outstanding count nor a full engine bars the instruction.  At the end of a block's instructions it
goes on to fall through. -/
def State.mayIssue (s : State) (g : Nat) (x : Group) (t : Thread) : Bool :=
  t.fall.isNone && match s.slotOf x t with
    | none => false
    | some _ => match s.instrOf x t with
      | some i => t.countOk i && s.engineRoom g i
      | none => true

def Thread.rested (t : Thread) (cycle gap : Nat) : Bool :=
  match t.lastIssue with
  | some c => decide (c + gap ≤ cycle)
  | none => true

/-- Whether a thread is eligible (R113); `gap` is 0 for a thread whose only bar is the gap. -/
def State.eligible (s : State) (gap cycle g : Nat) (x : Group) (tid : Nat) (t : Thread) : Bool :=
  let one (u : Thread) : Bool := u.st == .ready && s.mayIssue g x u && u.rested cycle gap
  one t && (!s.atCohortSync x t || (x.cohortLive (tid / 64)).all fun p => one p.2 && p.2.pc == t.pc)

/-! ## The issue group (R114) -/

/-- The threads of an entry that are eligible. -/
abbrev Candidates := List (TRef × Group × Thread)

def Candidates.lanes (c : Candidates) : Nat := (c.map fun p => p.1.tid % 64).eraseDups.length

/-- Whether one last issue is earlier than another. -/
def earlier (a b : Option Nat) : Bool :=
  match a, b with
  | none, some _ => true
  | some a, some b => decide (a < b)
  | _, none => false

def threadSlot (p : TRef × Group × Thread) : Nat := p.2.1.tslots[p.1.tid / 64]?.getD 0

/-- The candidate that issued least recently, the lowest thread slot among equals. -/
def leastRecent (c : Candidates) : Option (TRef × Group × Thread) :=
  c.foldl (fun b p => match b with
    | none => some p
    | some q =>
      if earlier p.2.2.lastIssue q.2.2.lastIssue ||
          (p.2.2.lastIssue == q.2.2.lastIssue && decide (threadSlot p < threadSlot q)) then some p else some q) none

/-- The threads that issue from an entry: one in each lane, or one whole cohort.  Of cohorts whose threads last issued in
different cycles, that of the thread that issued least recently counts as the one that issued least recently
(log entry 84). -/
def State.membersOf (s : State) (c : Candidates) : Candidates :=
  match c with
  | [] => []
  | p :: _ =>
    if s.atCohortSync p.2.1 p.2.2 then
      match leastRecent c with
      | some q => c.filter fun r => r.1.grp == q.1.grp && r.1.tid / 64 == q.1.tid / 64
      | none => []
    else (List.range 64).filterMap fun l => leastRecent (c.filter fun q => q.1.tid % 64 == l)

/-- The entry that is chosen, by index, with whether it is aged (R114). -/
def chooseEntry (cycle : Nat) (l : List (Nat × PcEntry × Candidates)) : Option (Nat × PcEntry × Candidates × Bool) :=
  let live := l.filter fun e => !e.2.2.isEmpty
  let aged := live.filter fun e => decide (e.2.1.chosen + 64 ≤ cycle)
  match aged.foldl (fun (b : Option (Nat × PcEntry × Candidates)) e => match b with
      | none => some e
      | some c => if e.2.1.chosen < c.2.1.chosen then some e else some c) none with
  | some e => some (e.1, e.2.1, e.2.2, true)
  | none => (live.foldl (fun (b : Option (Nat × PcEntry × Candidates)) e => match b with
      | none => some e
      | some c => if c.2.2.lanes < e.2.2.lanes then some e else some c) none).map fun e => (e.1, e.2.1, e.2.2, false)

/-- One cycle of a core's issue-group builder: the state with the table brought up to date, and the issue group, if one
forms. -/
def State.buildIssue (s : State) (core : Nat) : State × Candidates :=
  let k := s.syncTable core
  let ready := (s.readyOn core).filter fun p => !k.ovf.contains p.1
  let cand (e : PcEntry) : Candidates := ready.filter fun p =>
    s.pcKey p.2.1 p.2.2 == e.key && s.eligible (issueGap k) k.cycle p.1.grp p.2.1 p.1.tid p.2.2
  let entries := ((List.range k.pct.length).zip k.pct).filterMap fun p => p.2.map fun e => (p.1, e, cand e)
  match chooseEntry k.cycle entries with
  | none => (s.setCore core k, [])
  | some (i, e, c, aged) =>
    let ms := s.membersOf c
    let rest := (ready.filter fun p => s.pcKey p.2.1 p.2.2 == e.key && !(ms.any fun m => m.1 == p.1)).map (·.1)
    let k :=
      if aged && !k.ovf.isEmpty then { k with pct := k.pct.set i none, ovf := k.ovf ++ rest }
      else { k with pct := k.pct.set i (some { e with chosen := k.cycle }) }
    (s.setCore core k, ms)

/-- Whether a thread of the core can issue, now or when its gap has passed. -/
def State.canIssue (s : State) (core : Nat) : Bool :=
  (s.readyOn core).any fun p => s.eligible 0 (s.core core).cycle p.1.grp p.2.1 p.1.tid p.2.2

end Sys2Proof.Machine
end

