-- ==== Sys2Proof/Machine/LoadStore.lean ====
section
/-!
DEFINITION. Loads, stores and resolved writes, literals, segment registers, AtomicOps, cache hints and `xlat`
(R211-R215, R229-R235, R256, R257, R263-R266).
-/
namespace Sys2Proof.Machine

/-! ## Loads -/

/-- The destination of a load (R214). -/
def loadDst (f : Fields) : Dst :=
  match f.t with
  | .bf16l => if f.d.toNat ≤ 191 then .half f.d.toNat false else .none
  | .bf16h => if f.d.toNat ≤ 191 then .half f.d.toNat true else .none
  | _ => dstOf f.d

/-- A load: checked and translated at issue, read when it returns (R28, R230). -/
def State.load (s : State) (g : Group) (t : Thread) (f : Fields) : Except Stop (Dst × Src) :=
  (s.operand g t f (tySize f.t) (tyAlign f.t) false .read).map fun a => (loadDst f, .load a.1 f.t f.fn.toNat)

/-- R230. -/
def execLd (f : Fields) (s : State) : Host.Outcome State Fault Refusal :=
  issueDefer (.ld f) f (fun _ g t s => s.load g t f) s

/-- R230. -/
def execLdq (f : Fields) (s : State) : Host.Outcome State Fault Refusal :=
  issueDefer (.ldq f) f (fun _ g t s => s.load g t f) s

/-- R234: the literal is read under the checks of an instruction fill; a literal outside the pool reports the PC as its FADDR (log
entry 107). -/
def State.literal (s : State) (g : Group) (t : Thread) (f : Fields) : Except Stop (Dst × Src) := do
  let p := t.poolAt f
  let body ← s.checkPool g p
  let idx : Word := if f.c = 248 then 0 else t.reg f.c.toNat
  let o := (f.imm.toNat % 2 ^ 12 + idx.toNat * 2 ^ f.x.toNat) % 2 ^ 32
  if o % 4 ≠ 0 ∨ body.length < o + 4 then throw (.of .badTarget 0 t.pc.toNat)
  let va := (s.launchOf g).r.code + p.toNat + 8 + o
  let a ← s.accessAt (s.aspace g) ⟨false, va⟩ 4 4 .exec
  pure (dstOf f.d, .load a.1 .b32 0)

/-- R234. -/
def execLdk (f : Fields) (s : State) : Host.Outcome State Fault Refusal :=
  issueDefer (.ldk f) f (fun _ g t s => s.literal g t f) s

/-! ## Cells of the commit unit (R256, R257) -/

/-- The 8-byte regions of a write under its rule; an FP32 sum is apart from an integer one. -/
def Write.regions (w : Write) : List (Nat × Nat) :=
  (w.foot.map fun p => (p.1 / 8, if w.rule = 2 ∧ w.t = .f32 then 8 else w.rule)).eraseDups

/-- The regions that the domain's step holds already, on the chip or in the overflow region. -/
def heldRegions (x : Group) (d : Nat) (spilled : Bool) : List (Nat × Nat) :=
  (x.domTids d).flatMap fun i => match x.threads[i]? with
    | some t => t.fx.flatMap fun e => match e with | .write w => if w.spilled == spilled then w.regions else [] | _ => []
    | none => []

/-- The cells that a write takes on the chip, or in the overflow region. -/
def cellNeed (x : Group) (d : Nat) (spilled : Bool) (w : Write) : Nat :=
  let held := heldRegions x d spilled
  let new := (w.regions.filter fun r => !held.contains r).length
  new * (if w.rule = 2 ∧ w.t = .f32 then 5 else 1) + (if w.kind = .st then 0 else 1)

def Group.cells (x : Group) : Nat := (x.doms.map (·.cells)).sum

/-- Whether a group finds `n` more cells: its own 4,096, then the shared 32,768. -/
def State.cellsFree (s : State) (x : Group) (n : Nat) : Bool :=
  let beyond (c : Nat) : Nat := c - 4096
  let others := ((s.residents x.core).map fun p => beyond p.2.cells).sum - beyond x.cells
  decide (others + beyond (x.cells + n) ≤ 32768)

/-- Whether a domain's step has spilled (R257). -/
def Group.spills (x : Group) (d : Nat) : Bool := decide (0 < (x.dom d).spilled)

/-- The step takes `n` cells, or spills and takes `m` of the overflow region, as each later write of the step does (R257); `w` is
the write that asks, for the record of a full region (R228).  The bytes of the region at OVFL are not modelled (log entry 111). -/
def State.takeCells (s : State) (r : TRef) (n m : Nat) (w : Write) : State :=
  match s.group? r.grp with
  | none => s
  | some x =>
    let d := x.domOf r.tid
    if x.spills d = false ∧ s.cellsFree x n = true then s.modDom r.grp d fun k => { k with cells := k.cells + n }
    else
      let all := (x.doms.map (·.spilled)).sum + m
      let full := decide ((s.launchOf x).ovsz * 1024 < all * 16)
      s.modDom r.grp d fun k =>
        { k with spilled := k.spilled + m, lost := if full && k.lost.isNone then some (r.tid, w) else k.lost }

/-! ## Stores -/

/-- The write of an access: the footprint and the bits of the element (R214, R215); whether it reaches a PEER page is a matter of
the bytes that the element lies in (R225). -/
def makeWrite (f : Fields) (acc : Acc) (ls : List Leaf) (bits : Nat) (kind : WriteKind) (pc : Word) : Write :=
  let (sh, n) := elemAt f.t f.fn.toNat
  let place := match ls with | l :: _ => l.place | [] => 0
  let w : Write :=
    { acc := acc, mask := (2 ^ n - 1) * 2 ^ sh, value := bits % 2 ^ n * 2 ^ sh, sh := sh, rule := f.m.toNat, t := f.t,
      kind := kind, pc := pc, system := place == 2, memside := place == 1 }
  { w with peer := w.onPeer }

/-- A write is buffered until the boundary (R19). -/
def State.bufferWrite (s : State) (r : TRef) (w : Write) : State :=
  match s.group? r.grp with
  | none => s
  | some x =>
    let w := { w with order := s.fresh }
    let d := x.domOf r.tid
    let s := s.takeCells r (cellNeed x d false w) (cellNeed x d true w) w
    let spilled := match s.group? r.grp with | some y => y.spills d | none => false
    (s.buffer r (.write { w with spilled := spilled })).bump

/-- The store value: a register, or 0 (R229). -/
def Thread.stored (t : Thread) (f : Fields) : Word := if f.b = 248 then 0 else t.reg f.b.toNat

/-- A store: narrowed at issue and buffered (R231). -/
def State.store (s : State) (r : TRef) (g : Group) (t : Thread) (f : Fields) : Act :=
  Act.of <| (s.operand g t f (tySize f.t) (tyAlign f.t) true (.write f.m.toNat f.t 0)).map fun a =>
    s.bufferWrite r (makeWrite f a.1 a.2 (narrow f.t (t.stored f)) .st t.pc)

/-- R231. -/
def execSt (f : Fields) (s : State) : Host.Outcome State Fault Refusal :=
  issueEach (.st f) f (fun r g t s => s.store r g t f) s

/-- R231. -/
def execStq (f : Fields) (s : State) : Host.Outcome State Fault Refusal :=
  issueEach (.stq f) f (fun r g t s => s.store r g t f) s

/-- A word write of `fwr` or `cwr`, whose sub-function selects no element. -/
def wordWrite (f : Fields) (acc : Acc) (ls : List Leaf) (w : Word) (kind : WriteKind) (pc : Word) : Write :=
  makeWrite { f with fn := 0 } acc ls w.toNat kind pc

/-- R232. -/
def execFwr (f : Fields) (s : State) : Host.Outcome State Fault Refusal :=
  issueEach (.fwr f) f (fun r g t s =>
    Act.of <| (s.operand g t f 4 4 true (.write f.m.toNat f.t 1)).map fun a =>
      let seq := s.fresh
      (s.defer r (dstOf f.d) .commit).bufferWrite r (wordWrite f a.1 a.2 (t.stored f) (.fwr seq) t.pc)) s

/-- R233: vb is the comparand and vb+1 the new value. -/
def execCwr (f : Fields) (s : State) : Host.Outcome State Fault Refusal :=
  issueEach (.cwr f) f (fun r g t s =>
    Act.of <| (s.operand g t f 4 4 true (.write f.m.toNat f.t 2)).map fun a =>
      let seq := s.fresh
      (s.defer r (dstPred f.d) .commit).bufferWrite r
        (wordWrite f a.1 a.2 (t.srcHi f.b) (.cwr f.fn.toNat (t.reg f.b.toNat) seq) t.pc)) s

/-! ## Segment registers -/

/-- R235. -/
def execSgset (f : Fields) (s : State) : Host.Outcome State Fault Refusal :=
  issueEach (.sgset f) f (fun r _ t s =>
    let v : DWord := t.opB f ++ t.opA f
    if 33 ≤ segLim v ∧ segLim v ≤ 62 then .stop (.of .segment 4)
    else .next (s.modThread r fun t => { t with s := t.s.set (f.d.toNat - 200) v })) s

/-- R235: the value is sampled at issue. -/
def execSgget (f : Fields) (s : State) : Host.Outcome State Fault Refusal :=
  issueSampled (.sgget f) f 2 (fun t =>
    let v := t.seg (f.a.toNat - 200)
    [v.setWidth 32, v.extractLsb' 32 32]) s

/-! ## AtomicOps -/

/-- R265: queued for the commit. -/
def execSatom (f : Fields) (s : State) : Host.Outcome State Fault Refusal :=
  issueEach (.satom f) f (fun r g t s =>
    Act.of <| (s.operand g t f 4 4 true .satom).map fun a =>
      let seq := s.fresh
      let x := t.stored f
      let y := if f.fn = 2 then t.srcHi f.b else 0
      let s := s.defer r (dstOf f.d) .commit
      let q : Satom := { acc := a.1, fn := f.fn.toNat, x := x, y := y, seq := seq, pc := t.pc, t := f.t, order := s.fresh }
      ((s.takeCells r 1 1 (q.asWriter r.tid (s.rank g r.tid)).w).buffer r (.satom q)).bump) s

/-! ## Hints and `xlat` -/

/-- The address of a hint or an `xlat`: one byte, aligned under its T, with the segment, address and alignment faults alone
(R212, R264, R266). -/
def Thread.hinted (t : Thread) (f : Fields) : Except Stop Loc := do
  let loc ← t.place f.a.toNat (t.memOff f) 1 false
  if loc.addr % tyAlign f.t ≠ 0 then throw (.of .alignment 0 loc.addr)
  pure loc

/-- A hint changes no state (R264). -/
def State.hint (s : State) (t : Thread) (f : Fields) : Act :=
  match t.hinted f with
  | .error e => .stop e
  | .ok _ => .next s

/-- R264. -/
def execPref (f : Fields) (s : State) : Host.Outcome State Fault Refusal :=
  issueEach (.pref f) f (fun _ _ t s => s.hint t f) s

/-- R264. -/
def execEvict (f : Fields) (s : State) : Host.Outcome State Fault Refusal :=
  issueEach (.evict f) f (fun _ _ t s => s.hint t f) s

/-- TIER and UNIT of a frame (R243, R266); channel 0 of the LPDDR6 holds its first 4 KiB (log entry 14). -/
def tierOf (l : Leaf) (p : Nat) : Nat × Nat :=
  if l.place = 3 then (3, 0x1F)
  else if isHostMemory p then (2, 0x1F)
  else if isHbm p then (0, 2 * (p / 0x2800000000) + (Config.stackOf (p / 2 ^ 16)).toNat)
  else (1, (p - 0x40000000000) / 2 ^ 12 % 24)

/-- The two words that `xlat` returns for a leaf (R266). -/
def xlatWords (l : Leaf) (va : Nat) : List Word :=
  let p := l.frame + va % 2 ^ pageBits l.size
  let (tier, unit) := tierOf l p
  let home := if l.place = 3 then 0 else homeQuad p
  [BitVec.ofNat 32 (pack [(0, 1, 1), (1, 2, l.size), (3, 2, l.place), (5, 1, l.w.toNat), (6, 1, l.x.toNat),
      (7, 1, l.mig.toNat), (8, 2, tier), (16, 8, l.peer)]),
    BitVec.ofNat 32 (pack [(0, 4, home % 16), (4, 4, home / 16), (8, 5, unit)])]

/-- A lookup: under R46 it may use the translation that a mapping change has replaced; `.probe` may find none (R266). -/
def State.lookup (s : State) (g : Group) (va fn : Nat) : List Word :=
  let sp := s.aspace g
  if fn = 0 ∧ s.bit (va + 2 ^ 95) = true then [0, 0]
  else match (s.tables sp.launch sp.asid va).walkAsid sp.asid va with
    | .leaf _ l => xlatWords l va
    | .malformed => if fn = 0 then [0, 0] else [0x80000000, 0]
    | .invalid .. | .noTable | .later => [0, 0]

/-- R266. -/
def execXlat (f : Fields) (s : State) : Host.Outcome State Fault Refusal :=
  issueDefer (.xlat f) f (fun _ g t s => do
    let loc ← t.hinted f
    if (s.tables g.launch (s.aspace g).asid loc.addr).walkAsid (s.aspace g).asid loc.addr = .later then throw .later
    pure (dstOf f.d 2, .sampled (s.lookup g loc.addr f.fn.toNat))) s

end Sys2Proof.Machine
end

