-- ==== Sys2Proof/Machine/Save.lean ====
section
/-!
DEFINITION. Saving a group at a boundary and restoring it on a core (R43, R272, R313, R342, R388), and the conditions
under which a core takes a group (R110, R129).
-/
namespace Sys2Proof.Machine

/-! ## The save area (R388) -/

/-- How a thread is saved: one that parks at the very boundary of the save, its release still to come, is in the state that it
parks in (R388); one whose acquisitions have been met in a stream pause waits for the end of the pause (R320). -/
def Thread.parkState (t : Thread) : TState :=
  match t.st with
  | .boundary =>
    match t.arr.bind Arrival.wait with
    | some w => .waitv w
    | none => if t.acquiring then .acquire else .boundary
  | .acquire => if t.acquiring then .acquire else .pause
  | st => st

/-- The state code of a thread: a park on an acquisition is 5 for `racq` and 6 for `ttake`. -/
def Thread.stateCode (t : Thread) : Nat := if t.parkState = .acquire ∧ t.takes ≠ [] then 6 else t.parkState.code

/-- The operands of a park (R388), one byte or word after the other: at a boundary the scope, `.sc` and the predicate of `.el` (log
entry 28). -/
def Thread.park (t : Thread) : List Byte :=
  let l : List Byte := match t.parkState with
    | .acquire =>
      if t.takes.isEmpty then t.defs.flatMap fun d => match d.src, d.dst with
        | .racq r, .regs v _ => [BitVec.ofNat 8 r, BitVec.ofNat 8 v]
        | .racq r, _ => [BitVec.ofNat 8 r, 248]
        | _, _ => []
      else t.takes.flatMap fun p => [BitVec.ofNat 8 p.2.1, BitVec.ofNat 8 p.2.2]
    | .waitv w => bytesOf 8 w.acc.va ++ bytesOf 4 w.b.toNat ++ bytesOf 4 w.pc.toNat ++
        [BitVec.ofNat 8 w.cmp, BitVec.ofNat 8 w.scope, w.t.code.setWidth 8, BitVec.ofNat 8 w.unread.toNat]
    | .join off grp => bytesOf 4 off.toNat ++ [BitVec.ofNat 8 grp.toNat]
    | .xacq n _ => [BitVec.ofNat 8 n]
    | .boundary => match t.arr with
      | some a => [BitVec.ofNat 8 a.scope, BitVec.ofNat 8 a.sc.toNat, BitVec.ofNat 8 (match a.el with | some p => 192 + p | none => 248)]
      | none => []
    | _ => []
  (l ++ List.replicate 96 0).take 96

/-- The thread record of a save area. -/
def Thread.saveRecord (t : Thread) (clk : DWord) (held : Nat) (role : Byte) : List Byte :=
  t.park ++
    bytesOf 32 (pack [(0, 32, (t.clkl.getD 0xFFFFFFFF).toNat), (32, 8, role.toNat), (40, 8, held), (48, 8, t.stateCode),
      (56, 7, t.p.toNat), (64, 32, (t.reconv.getD 0xFFFFFFFF).toNat), (96, 32, t.tmr.toNat),
      (128, 32, (t.vtimeAt clk).toNat), (160, 32, t.xstep.toNat), (192, 32, t.dstep.toNat), (224, 32, t.pc.toNat)]) ++
    (List.range 16).flatMap (fun i => bytesOf 8 (t.seg i).toNat) ++
    (List.range 192).flatMap (fun i => bytesOf 4 (if i < 32 * (held + 1) then (t.reg i).toNat else 0))

/-- The Basin rows of a region in raw form (R365). -/
def State.rawRows (s : State) (b : Basin) : List Byte :=
  (List.range (b.rows * 192)).flatMap fun k => bytesOf 12 (s.rawElem k (b.elem k))

/-- A stream slot (R302): its flags, TYPE, END, POS, SEG and BASE. -/
def Stream.image (m : Stream) : List Byte :=
  wordsOf [pack [(0, 1, m.bnd.toNat), (1, 1, m.ord.toNat), (2, 1, m.err.toNat), (3, 1, m.sp.toNat), (4, 4, m.t.code.toNat)],
    m.len, m.pos] ++ bytesOf 8 m.seg.toNat ++ bytesOf 4 m.base

/-- A stream operation: what it is, its ranges and cursors, its partly written slot with the bytes in it, and the page it waits for
(R313). -/
def SOp.image (o : SOp) (miss : Option Nat) : List Byte :=
  let slot := o.slot.getD (0xFFFFFFFF, 0)
  wordsOf [o.kind.op, o.kind.first, o.pc.toNat, o.rank.toNat, o.start, o.aEnd, o.bEnd, o.i, o.j, o.found, slot.1, slot.2] ++
    bytesOf 8 o.aLoc.addr ++ bytesOf 8 o.bLoc.addr ++ bytesOf 8 (miss.getD (2 ^ 64 - 1)) ++
    wordsOf (o.out.length :: o.out.flatMap fun p => [p.1, p.2.toNat]) ++ o.part

/-- A matrix record in the layout of R339, CUR included; the address of a `bsave` or `brst` and the shift of a `bscale`, for which
that layout has no field, stand in its low bits (log entry 28). -/
def MRec.image (r : MRec) : List Byte :=
  let on (b : Bool) (n : Nat) : Nat := if b then n else 0
  let tiled := decide (r.kind ≤ 3)
  bytesOf 64 (pack [(0, 57, on (r.kind == 7 || r.kind == 8) r.loc.addr), (63, 1, on (r.kind == 7 || r.kind == 8) r.loc.sp.toNat),
    (64, 32, on (r.kind == 9) (BitVec.ofInt 32 r.shift).toNat), (374, 10, r.cur), (384, 32, on r.scr r.desc.toNat), (416, 22, on r.scr r.base), (438, 6, on tiled r.th),
    (444, 9, on (r.kind == 4) r.anch), (453, 4, on (r.kind == 3) r.ofmt), (457, 3, on (r.kind == 2 || r.kind == 3) r.ncol),
    (460, 4, on (decide (r.kind ≤ 2)) r.nk), (464, 4, on (decide (r.kind ≤ 2)) r.kb0), (468, 10, on (r.kind != 2) r.nrow),
    (478, 9, r.row0), (487, 4, r.bh), (491, 5, r.lce.getD 0), (498, 1, r.scr.toNat), (499, 1, r.lce.isSome.toNat),
    (500, 1, r.qs.toNat), (504, 8, r.kind)])

/-- An entry of a weight binding (R337): its record and band, the NCOL of that wld, and its weight tiles where the record has
finished: format, scale mode and the bytes of a slot. -/
def State.entryImage (s : State) : Option (Nat × Nat) → List Byte
  | none => wordsOf [0xFFFFFFFF, 0, 0, 0]
  | some (id, k) =>
    let tiles := ((s.images.find? id).bind fun i => i.bands[k]?).getD []
    let ncol := match s.recs.find? id with | some r => r.ncol | none => tiles.length
    wordsOf [id, k, ncol, tiles.length] ++ tiles.flatMap fun t =>
      wordsOf [t.fmt, t.qs.toNat] ++ (t.bytes ++ List.replicate 2048 0).take 2048

/-- A weight binding (R337, R342): format, NCOL and entries. -/
def State.bindingImage (s : State) (b : Binding) : List Byte :=
  wordsOf [b.fmt, b.ncol, b.bands.length] ++ b.bands.flatMap s.entryImage

def Name.image : Name → Nat
  | .released => 0xFFFFFFFF
  | .given => 0xFFFFFFFE
  | .mapped t => t

/-- A group's matrix records that a save takes with it, in their order: the running ones, those in the queue, and those that
wait for it (R342). -/
def State.savedRecs (s : State) (g : Nat) : List Nat :=
  let mine (i : Nat) : Bool := match s.recs.find? i with | some r => r.grp == g | none => false
  ((s.cores.filterMap fun c => c.2.running) ++ s.taskQ ++ s.taskWait).filter mine

/-- The engines' section: counters, rings, streams and stream operations (R269, R313). -/
def State.engSection (s : State) (g : Nat) (x : Group) : List Byte :=
  let ops := s.sops.filter fun o => o.2.grp == g
  let miss (id : Nat) : Option Nat := (s.misses.find? fun m => m.who == .stream id).map fun m => m.page * 2 ^ 16
  x.ctrs.flatMap Ctr.image ++ x.rings.flatMap Ring.image ++ x.streams.flatMap Stream.image ++
    wordsOf [ops.length] ++ ops.flatMap fun o => o.2.image (miss o.1)

/-- The matrix section: the states of the tiles, records, names, postings and the bindings (R342). -/
def State.recSection (s : State) (g : Nat) (x : Group) : List Byte :=
  let recs := (s.savedRecs g).filterMap s.recs.find?
  let tiles := s.tiles.filter fun t => t.2.grp == g
  let basins := s.basins.filter fun b => b.2.grp == g
  wordsOf [tiles.length] ++ tiles.flatMap (fun t => t.2.image t.1) ++
    wordsOf [recs.length] ++ recs.flatMap MRec.image ++
    wordsOf (x.names.length :: x.names.flatMap fun n => [n.1, n.2.image]) ++
    wordsOf (x.posts.length :: x.posts.flatMap fun p => p.1 :: p.2.length :: p.2) ++
    wordsOf [basins.length] ++ basins.flatMap fun b => wordsOf [b.2.bh, b.2.rows] ++ s.bindingImage b.2.bind ++ s.bindingImage b.2.sub

/-- The sections of a save area but the last, from its header on: their lengths and their bytes. -/
def State.saveSections (s : State) (g : Nat) (x : Group) : List (List Byte) :=
  let thr := (List.range x.threads.length).flatMap fun i => match x.threads[i]? with
    | some t => t.saveRecord s.clk (x.held[i / 64]?.getD 0) (x.roles[i / 64]?.getD 0)
    | none => []
  let til := (s.tiles.filter fun t => t.2.grp == g).flatMap fun t => t.2.slotBytes
  let bas := (s.basins.filter fun b => b.2.grp == g).flatMap fun b => s.rawRows b.2
  [thr, til, bas, s.recSection g x, s.engSection g x]

/-- The header of a save area of a size (R388). -/
def State.saveHeader (s : State) (x : Group) (kind size : Nat) (offs : List Nat) : List Byte :=
  let off (i : Nat) : Nat := offs[i]?.getD 0
  bytesOf 64 (pack [(0, 8, kind), (64, 64, s.clk.toNat), (128, 2, x.core % 4), (130, 4, x.core / 4 % 16), (134, 4, x.core / 64),
    (160, 32, (s.launchOf x).ident.toNat), (192, 32, x.grp), (224, 32, (x.threads.filter Thread.live).length),
    (256, 32, size), (288, 32, off 0), (320, 32, off 1), (352, 32, off 2), (384, 32, off 3), (416, 32, off 4),
    (448, 32, size - heldSize)])

/-- Where the sections of some lengths start, from an offset on. -/
def sectionOffs (at_ : Nat) : List (List Byte) → List Nat
  | [] => []
  | l :: ls => at_ :: sectionOffs (at_ + l.length) ls

/-- The area is written: in the place that the group has, if it is large enough, or in a new one (log entries 5 and 28).  Its
end takes the deliveries of R272. -/
def State.writeArea (s : State) (g : Nat) (x : Group) (kind : Nat) : State :=
  let secs := s.saveSections g x
  let need := (64 + (secs.map List.length).sum + 63) / 64 * 64 + heldSize
  let image (size : Nat) : List Byte := s.saveHeader x kind size (sectionOffs 64 secs) ++ secs.flatten
  let new : State :=
    let a := s.fw.saveAddr
    ({ s with fw := { s.fw with saveAddr := a + need } }.writePhys a (image need)).modGroup g fun x =>
      { x with area := some (a, need) }
  match x.area with
  | some (a, size) => if need ≤ size then s.writePhys a (image size) else new
  | none => new

/-! ## Saving (R43) -/

/-- Whether a thread that has not arrived holds nothing of an uncommitted step and is parked: it is saved parked, with the
acquisitions that it still waits on and those that have been met (R43, R280, R391).  In a group that waits for a fill, a
thread at the start of its step is saved at its PC (R252). -/
def Thread.savable (t : Thread) (fill : Bool) : Bool :=
  t.arr.isNone && t.fx.isEmpty && t.saved.isNone && match t.st with
    | .join .. | .waitv _ | .acquire | .pause => t.defs.all fun d => d.src.acquires || d.src.returned
    | .xacq .. => t.defs.isEmpty
    | .ready => fill && t.defs.isEmpty
    | _ => false

/-- Whether a domain can be saved where it stands. -/
def Group.domSavable (x : Group) (d : Nat) (fill : Bool) : Bool :=
  let ts := (x.liveTids d).filterMap fun i => x.threads[i]?
  ts.isEmpty || match (x.dom d).phase with
    | .stopped | .wider .. => true
    | .run => (x.dom d).insts.isEmpty && ts.all (Thread.savable · fill)
    | .committed => false

/-- The miss that a group waits on, when it is parked for one. -/
def Group.filling (x : Group) : Option (Nat × Nat × Nat) :=
  match x.st with
  | .fill a v t => some (a, v, t)
  | _ => none

/-- Whether a group for which a save is asked can be saved now; one that a lane test holds stays (R422). -/
def Group.savable (x : Group) : Bool :=
  let fill := x.filling.isSome
  x.save.isSome && !x.testHold && (x.st == .running || fill) && x.alive &&
    (List.range x.doms.length).all fun d => x.domSavable d fill

/-- The place of a tile or region of a group that is away from its core: none of the module's quads. -/
def nowhere : Nat := 9999

/-- Where the partly written slot of a stream operation stands in the scratchpad, and how many bytes it has (R308). -/
def SOp.openBytes (o : SOp) (x : Group) : Option (Nat × Nat) :=
  match o.kind.ring, o.slot with
  | some r, some (i, n) => some ((x.ring r).base + (x.ring r).slotSize * i, n)
  | _, _ => none

/-- The partly written slots of a group's stream operations go with them into the save area (R313). -/
def State.takeParts (s : State) (g : Nat) (x : Group) : State :=
  { s with sops := s.sops.map fun (p : Nat × SOp) =>
      if p.2.grp = g then
        (p.1, { p.2 with part := match p.2.openBytes x with
          | some (off, n) => s.readBytes (scratchKeys (quadOf x.core) off n)
          | none => [] })
      else p }

/-- The partly written slots of a restored group's stream operations stand in its quad's scratchpad again (R313). -/
def State.putParts (s : State) (g : Nat) : State :=
  match s.group? g with
  | none => s
  | some x =>
    let s' := s.sops.foldl (fun (s : State) (p : Nat × SOp) =>
      if p.2.grp = g then
        match p.2.openBytes x with
        | some (off, _) => s.writeBytes (scratchKeys (quadOf x.core) off p.2.part.length) p.2.part
        | none => s
      else s) s
    { s' with sops := s'.sops.map fun (p : Nat × SOp) => if p.2.grp = g then (p.1, { p.2 with part := [] }) else p }

/-- The group is saved: its area is written, its slots, tiles, rows and unstarted records leave the core, and it joins
the saved groups of its die. -/
def State.saveGroup (s : State) (g : Nat) : State :=
  match s.group? g with
  | none => s
  | some x =>
    let s := (s.takeParts g x).writeArea g x (x.save.getD 1)
    let held := (s.tiles.filter fun t => t.2.grp == g).map (·.1)
    let order := s.savedRecs g
    let s := (s.dropRequests g x.core).freeEngines (s.foreign g)
    let s :=
      { s with
        tiles := s.tiles.map fun (p : Nat × Tile) => if p.2.grp = g then (p.1, { p.2 with quad := nowhere }) else p
        basins := s.basins.map fun (p : Nat × Basin) =>
          if p.2.grp = g then (p.1, { p.2 with core := 4 * nowhere + p.2.core % 4 }) else p
        ballocs := s.ballocs.filter fun b => b.who.grp != g
        taskQ := s.taskQ.filter (s.foreign g)
        taskWait := s.taskWait.filter (s.foreign g)
        recs := s.recs.map fun (p : Nat × MRec) => if p.2.grp = g then (p.1, { p.2 with running := false }) else p
        savedQ := Table.set [] s.savedQ (dieOf x.core) (Table.get [] s.savedQ (dieOf x.core) ++ [g]) }
    s.modGroup g fun y =>
      { y with
        st := .saved (x.save.getD 1) x.filling
        save := none
        queue := order
        areaTiles := held
        parkedSince := none
        threads := y.threads.map fun t => { t with vtime := t.vtimeAt s.clk, since := s.clk } }

/-- A group for which a save is asked is saved once it stands at a boundary. -/
def State.trySave (s : State) (g : Nat) : State :=
  match s.group? g with
  | some x => if x.savable then s.saveGroup g else s
  | none => s

/-- Whether a group that a lane test holds stands still: at a boundary, parked, trapped or waiting for a fill (R422). -/
def Group.still (x : Group) : Bool :=
  x.st != .running || (List.range x.doms.length).all fun d => x.domSavable d false

/-! ## Room for a group on a core (R110) -/

/-- The thread slots of a lane that launches may take (R109, R110, R129). -/
def offeredSlots (k : Core) (core : Nat) : List Nat :=
  let n := if k.degraded then 16 else 32
  List.range (if core % 4 = 0 then n - 1 else n)

/-- The lowest free thread slots of a core, one for each of `n` cohorts. -/
def State.freeSlots (s : State) (core n : Nat) : Option (List Nat) :=
  let used := (s.residents core).flatMap fun p => p.2.tslots
  let free := (offeredSlots (s.core core) core).filter fun i => !used.contains i
  if free.length < n then none else some (free.take n)

/-- The lowest free group slot. -/
def State.freeGroupSlot (s : State) (core : Nat) : Option Nat :=
  let used := (s.residents core).map fun p => p.2.slot
  (List.range 8).find? fun i => !used.contains i

def State.groupSlotsFree (s : State) (core : Nat) : Nat := 8 - (s.residents core).length

/-- Whether a core takes groups at all: its die is ready, core and quad are in service, and it is not under test
(R422, R424, R425). -/
def State.coreOpen (s : State) (core : Nat) : Bool :=
  let k := s.core core
  s.ready.die.getLsbD (dieOf core) && !k.out && !k.testing && !(s.quad (quadOf core)).out &&
    match s.fw.test with
    | some (_, q :: _, _) => q != quadOf core
    | _ => true

/-- Whether a core has a place for a group of `n` cohorts: a group slot, thread slots, and a base block for each thread (R110,
R121); a group waits where extended blocks leave too few free (log entry 116). -/
def State.fits (s : State) (core n : Nat) : Bool :=
  s.coreOpen core && (s.core core).resv.isNone && (s.freeGroupSlot core).isSome && (s.freeSlots core n).isSome &&
    decide (n ≤ s.freeExtended core)

/-- Whether a core can give a saved group its extended blocks, tiles and Basin rows back besides (R121, R342). -/
def State.fitsSaved (s : State) (core : Nat) (g : Nat) (x : Group) : Bool :=
  s.fits core x.ncoh && decide (x.held.sum + x.ncoh ≤ s.freeExtended core) &&
    decide ((s.tiles.filter fun t => t.2.grp == g).length ≤ s.poolFree (quadOf core))

/-! ## Restoring (R43) -/

/-- The regions of a group rewritten into the Basins of a quad, Q set to V mod 3 (R342); `none` where the rows are not
to be had or the engine is out of service (R422, log entry 113). -/
def State.placeBasins (s : State) (quad : Nat) : List (Nat × Basin) → Option State
  | [] => some s
  | (id, b) :: rest =>
    let core := 4 * quad + b.core % 4
    match if (s.core core).arrayOut then none else s.freeRows core b.rows with
    | none => none
    | some row =>
      let fresh := b.elems.map fun (p : Nat × Elem) => (p.1, { p.2 with q := (p.2.val.toInt.emod 3).toNat })
      let b := { b with core := core, row := row, elems := fresh.filter fun (p : Nat × Elem) => p.2 != ({} : Elem) }
      ({ s with basins := s.basins.put id b }).placeBasins quad rest

/-- Records enter a quad's task queue again, in their order (R342). -/
def State.requeueRecs (s : State) (quad : Nat) : List Nat → State
  | [] => s
  | id :: rest =>
    let s := if 256 ≤ s.queued quad then { s with taskWait := s.taskWait ++ [id] } else { s with taskQ := s.taskQ ++ [id] }
    s.requeueRecs quad rest

/-- Parks are tested again after a restore: rings, takes, `waitv`s (R43, R118, R391). -/
def State.retest (s : State) (g : Nat) : State :=
  match s.group? g with
  | none => s
  | some x =>
    let s := (List.range 16).foldl (fun s r => s.checkRing g r) s
    let s := (x.waitingTakes.foldl (fun s c => s.retryTake g c) s).wakeAcquires g
    s.evalWaits g fun _ => true

/-- The scope of a wider step at which some domain of a group waits. -/
def Group.widerScope (x : Group) : Option Nat := x.doms.findSome? fun k => match k.phase with
  | .wider n _ => some n
  | _ => none

/-- The traps that a group meets on its core again: its fault frame's page can never be brought in (R154), or it waits at a
`.pod` step whose partner is unreachable (R381). -/
def State.awaitedTraps (s : State) (g : Nat) (x : Group) : State :=
  match (x.frame.toList ++ x.spent).find? (·.failed) with
  | some fr =>
    s.trap g [fr.tid] { cause := .translation, sub := 3, faddr := fr.va, fpc := some fr.fpc, rank := some (s.rank x fr.tid) }
  | none => s.podCheck g

/-- Whether a line of the area from which a group is restored is poisoned (R418). -/
def State.areaPoisoned (s : State) (x : Group) : Bool := match x.area with
  | some (a, size) => s.poison.any fun p => p.2 != 0 && decide (a < 128 * (p.1 + 1)) && decide (128 * p.1 < a + size)
  | none => false

/-- The saved group is restored on a core: `none` where its regions find no rows.  Its threads have not issued there (log entry
117), and its ports and bindings come with it unchecked (log entry 121). -/
def State.restoreGroup (s : State) (g core : Nat) : Option State :=
  match s.group? g, s.freeGroupSlot core with
  | some x, some slot =>
    match s.freeSlots core x.ncoh with
    | none => none
    | some tslots =>
      let q := quadOf core
      (s.placeBasins q (s.basins.filter fun b => b.2.grp == g)).map fun s =>
        let fill := match x.st with | .saved _ f => f | _ => none
        let cohs := (List.range x.ncoh).filter fun c => (x.threads.drop (64 * c)).take 64 |>.any fun t => match t.st with
          | .xacq .. => true
          | _ => false
        let s :=
          { s with
            tiles := s.tiles.map fun (p : Nat × Tile) => if p.2.grp = g then (p.1, { p.2 with quad := q }) else p
            savedQ := (s.savedQ.map fun (p : Nat × List Nat) => (p.1, p.2.filter (· != g))).filter fun p => !p.2.isEmpty }
        let s := s.requeueRecs q x.queue
        let s := x.heldBytes.foldl (fun (s : State) (p : Nat × Byte) => s.writeByte (scratchKey q p.1) p.2) s
        let s := s.modCore core fun k => { k with xacqs := k.xacqs ++ cohs.map fun c => (g, c) }
        let s := s.modGroup g fun y =>
          { y with
            core, slot, tslots, heldBytes := [], queue := [], areaTiles := [], since := s.clk
            st := match fill with | some (a, v, t) => .fill a v t | none => .running
            threads := y.threads.map fun t => { t with since := s.clk, lastIssue := none } }
        let s := s.putParts g
        let s := (List.range x.doms.length).foldl (fun s d =>
          if (x.dom d).phase = .stopped then s.releaseThreads g d else s) s
        (s.retest g).awaitedTraps g x
  | _, _ => none

end Sys2Proof.Machine
end

