-- ==== Sys2Proof/Machine/Boundary.lean ====
section
/-!
DEFINITION. The events of boundaries: results that return, the prepare phase and its sites, AtomicOps, the completion of
a boundary, wider steps, the checks that parked threads get, and the lane-sync fault (R18-R27, R116, R147, R200, R258-R260).
-/
namespace Sys2Proof.Machine

/-! ## Deferred results that return (R116, R118) -/

/-- What a read of memory or of engine state gives when it is performed, `none` while it must wait (R28, R258, R431). -/
def State.sampleSrc (s : State) (g : Nat) (x : Group) (src : Src) : Option (List Word) :=
  match src with
  | .sampled l => some l
  | .load acc t fn =>
    if acc.keys.any s.prepared then none else some [widen t fn (s.readNat acc.keys)]
  | .lcget c p => (x.ctrs[c]?).map fun k => [k.part p]
  | .rhead r => some [(x.ring r).status]
  | .tqry coh n => some [s.tqryWord x coh n]
  | .tget id row col raw =>
    match s.tiles.find? id with
    | none => some [(TileData.zero).word row col raw]
    | some t =>
      if t.st = .filling then
        if t.fillDom.isSome then some [(TileData.zero).word row col raw] else none
      else some [t.read.word row col raw]
  | .xqry sel => some [s.xqryWord g x sel]
  | .digest q k => some (s.digestWords q k)
  | _ => none

/-- The tile that a result samples. -/
def Src.tile? : Src → Option Nat
  | .tget id .. => some id
  | _ => none

/-- The word that a thread's instance has sampled reaches every thread of it, and those that join it later (R347). -/
def State.shareValue (s : State) (g : Nat) (x : Group) (tid seq : Nat) (l : List Word) : State :=
  let d := x.domOf tid
  let mine (i : Inst) : Bool := i.act == .value none && i.takers.contains (⟨g, tid⟩, seq)
  let takers := ((x.dom d).insts.filter mine).flatMap (·.takers)
  let s := (takers ++ [((⟨g, tid⟩ : TRef), seq)]).foldl (fun (s : State) (p : TRef × Nat) => s.result p.1 p.2 (.vals l)) s
  s.modDom g d fun k => { k with insts := k.insts.map fun i => if mine i then { i with act := .value (some l) } else i }

/-- A result returns.  The elements of a tile that lanes of one cohort wait for are read together (R355). -/
def State.returnResult (s : State) (g : Nat) (x : Group) (tid : Nat) (d : Deferred) : Option State :=
  match d.src.tile? with
  | none =>
    match d.src with
    | .load acc .. =>
      if acc.keys.any s.prepared then none
      else if s.poisoned acc.keys then some (s.kill g)
      else (s.sampleSrc g x d.src).map fun l => s.result ⟨g, tid⟩ d.seq (.vals l)
    | .tqry .. => (s.sampleSrc g x d.src).map fun l => s.shareValue g x tid d.seq l
    | src => (s.sampleSrc g x src).map fun l => s.result ⟨g, tid⟩ d.seq (.vals l)
  | some id =>
    if (s.sampleSrc g x d.src).isNone then none
    else
      let coh := tid / 64
      some ((List.range 64).foldl (fun s i => s.modThread ⟨g, 64 * coh + i⟩ fun t =>
        { t with defs := t.defs.map fun e =>
            if e.src.tile? = some id then
              match s.sampleSrc g x e.src with
              | some l => { e with src := .vals l }
              | none => e
            else e }) s)

/-- R116: the result numbered `k` of a thread reaches its pending bank. -/
def execDeferredResultReturn (g tid k : Nat) (s : State) : Host.Outcome State Fault Refusal :=
  match s.group? g with
  | none => .refused .notEnabled
  | some x =>
    if x.st != .running then .refused .notEnabled
    else match (x.threads[tid]?).bind fun t => t.defs.find? fun d => d.seq == k with
      | none => .refused .notEnabled
      | some d =>
        match s.returnResult g x tid d with
        | some s => .next s
        | none => .refused .notEnabled

/-! ## The prepare phase (R258-R260) -/

/-- The cells of a domain whose boundary is due and whose event nothing withholds (R258). -/
def State.dueCells (s : State) (g d : Nat) : Option (List Cell) :=
  match s.group? g with
  | none => none
  | some x =>
    if boundaryDue x d && (withheld s x d).isNone then some (((x.dom d).prep).getD (prepCells (s.writers x d))) else none

/-- The cell of a region at a site in a state. -/
def setCell (cs : List Cell) (key : Nat) (site : Site) (st : Prep) : List Cell :=
  cs.map fun c => if c.key = key ∧ c.site = site then { c with st := st } else c

/-- A cell of a domain's event moves on; the event takes its place in the order of events with its first cell (R259, log
entry 94). -/
def State.moveCell (s : State) (g d : Nat) (cs : List Cell) (c : Cell) (st : Prep) : State :=
  (s.modDom g d fun k =>
    { k with prep := some (setCell cs c.key c.site st), prepNo := some (k.prepNo.getD s.fresh) }).bump

/-- R258: a site acknowledges the `k`-th cell; a Gaffer takes it into its queue first (R260).  A cell waits while an event
that goes before it has yet to send the same region (R259). -/
def execPrepareAcknowledge (g d k : Nat) (s : State) : Host.Outcome State Fault Refusal :=
  match s.dueCells g d with
  | none => .refused .notEnabled
  | some cs =>
    match cs[k]? with
    | none => .refused .notEnabled
    | some c =>
      let no := ((s.group? g).bind fun x => x.doms[d]?).bind Domain.prepNo
      if c.st != .pending || s.earlierHolds g d no (fun e => e.key == c.key && e.st == .pending) then .refused .notEnabled
      else match c.site with
        | .direct => .next (s.moveCell g d cs c .acked)
        | .gaffer q =>
          if (s.quad q).gaffer.length < gafferSize then
            .next ((s.moveCell g d cs c .queued).modQuad q fun x => { x with gaffer := x.gaffer ++ [.cell g d c.key] })
          else .refused .notEnabled

/-- Whether the Gaffer of a quad does not run: its core is under test or out of service, or its quad is (R129, R424). -/
def State.gafferAway (s : State) (q : Nat) : Bool :=
  (s.core (4 * q)).testing || (s.core (4 * q)).out || (s.quad q).out ||
    match s.fw.test with
    | some (_, p :: _, _) => p == q
    | _ => false

/-- The quad whose queue a Gaffer serves next: its own, and its neighbour's in turn while the neighbour's Gaffer does not
run (R129, R424). -/
def State.gafferTurn (s : State) (q : Nat) : Nat :=
  let n := q ^^^ 1
  let own := (s.quad q).gaffer.isEmpty
  let other := (s.quad n).gaffer.isEmpty
  if s.gafferAway n && !other && (own || (s.quad q).turn) then n else q

/-- The Gaffer answers a service request: every number is unknown, and its status says so (R155).  The answer to a group that has
left lands in the scratchpad of the quad from which it asked, and that to a saved group where R272 has what lands for one (log
entry 102). -/
def State.answerService (s : State) (quad g off : Nat) : State :=
  let status : List Byte := [0xFF, 0xFF, 0xFF, 0xFF]
  match s.group? g with
  | some _ => s.landScratch g off status
  | none => s.writeBytes (scratchKeys quad off 4) status

/-- R260: the Gaffer takes the oldest entry: it resolves a cell, or answers a service request (R155). -/
def execGafferRequest (quad : Nat) (s : State) : Host.Outcome State Fault Refusal :=
  let from_ := s.gafferTurn quad
  match (s.quad from_).gaffer with
  | [] => .refused .notEnabled
  | e :: rest =>
    if s.gafferAway quad then .refused .notEnabled
    else
      let s := (s.modQuad from_ fun x => { x with gaffer := rest }).modQuad quad fun x =>
        { x with turn := s.gafferAway (quad ^^^ 1) && from_ == quad }
      match e with
      | .cell g d key =>
        .next (s.modDom g d fun x => { x with prep := x.prep.map fun cs => setCell cs key (.gaffer from_) .acked })
      | .svc g off => .next (s.answerService from_ g off)

/-- R260: every group with a cell in the queue is killed, and the Gaffer starts again with an empty queue. -/
def execGafferTimeout (quad : Nat) (s : State) : Host.Outcome State Fault Refusal :=
  match (s.quad quad).gaffer with
  | [] => .refused .notEnabled
  | es =>
    let gs := (es.filterMap fun e => match e with | .cell g _ _ => some g | .svc .. => none).eraseDups
    .next ((s.modQuad quad fun x => { x with gaffer := [] }).killAll gs)

/-! ## AtomicOps (R265) -/

/-- R265: the first AtomicOp that a committed event performed completes and its value returns; an error status is a machine
check. -/
def execAtomicopComplete (g d : Nat) (err : Bool) (s : State) : Host.Outcome State Fault Refusal :=
  match (s.group? g).bind fun x => x.doms[d]? with
  | none => .refused .notEnabled
  | some k =>
    match k.satoms with
    | [] => .refused .notEnabled
    | (r, a, old) :: rest =>
      match old, err with
      | none, true => .next (s.kill g)
      | some w, false => .next ((s.modDom g d fun k => { k with satoms := rest }).result r a.seq (.vals [w]))
      | _, _ => .refused .notEnabled

/-- The `i`-th AtomicOp of a domain's coming event will complete with an error status (R265). -/
def atomicFault (g d i : Nat) (s : State) : Host.Outcome State Fault Refusal :=
  match (s.group? g).bind fun x => x.doms[d]? with
  | none => .refused .notEnabled
  | some k =>
    if k.phase != .run then .refused .notEnabled
    else .next (s.modDom g d fun k => { k with atomErrs := k.atomErrs ++ [i] })

/-! ## The boundary (R19) -/

/-- R19: the boundary of a domain completes; a save that waits for it follows (R43). -/
def execStepBoundaryComplete (g d : Nat) (s : State) : Host.Outcome State Fault Refusal :=
  match s.completeBoundary g d with
  | some s => .next (s.trySave g)
  | none => .refused .notEnabled

/-! ## Wider steps (R22, R24, R36) -/

/-- Whether a domain waits at a step of a scope, its group neither trapped nor parked for a fill. -/
def State.waitsAt (s : State) (scope : Nat) (p : Nat × Nat) : Bool :=
  match s.group? p.1 with
  | none => false
  | some y =>
    (y.st == .running || !y.resident) && match (y.dom p.2).phase with
      | .wider k _ => k == scope
      | _ => false

/-- The participant whose commit completed the barrier (R24). -/
def State.lastCommit (s : State) (ps : List (Nat × Nat)) : Option (Nat × Nat) :=
  let no (p : Nat × Nat) : Nat := match s.group? p.1 with | some y => (y.dom p.2).commitNo | none => 0
  ps.foldl (fun b p => match b with
    | none => some p
    | some q => if no q < no p then some p else some q) none

/-- A domain released by the barrier: it goes on, or stays where a save or a lane test stopped it (R43, R422). -/
def State.releaseWider (s : State) (p : Nat × Nat) : State :=
  match s.group? p.1 with
  | none => s
  | some y =>
    if y.resident && y.save.isNone && !y.testHold then s.releaseThreads p.1 p.2
    else s.stopDomain p.1 p.2

/-- The order of the first arrival at a step among its participants, at which the step began (log entry 87). -/
def State.firstArrival (s : State) (ps : List (Nat × Nat)) : Nat :=
  let all := ps.flatMap fun p => match s.group? p.1 with
    | some y => (y.liveTids p.2).filterMap fun i => (y.threads[i]?.bind Thread.arr).map Arrival.order
    | none => []
  match all with
  | [] => s.fresh
  | a :: l => l.foldl min a

/-- The candidates of `.el` among the threads of a domain that takes part. -/
def State.stepCandidates (s : State) (p : Nat × Nat) : List (TRef × DWord) :=
  match s.group? p.1 with
  | some y => elCandidates p.1 y p.2
  | none => []

/-- The modules that take part in a `.pod` step with this one: those that have reported for the pod gang (R22, R381). -/
def State.partners (s : State) (l : Launch) : List Nat :=
  ((Table.get [] s.fw.pods l.r.podg).map PodEntry.module).filter (· != s.fw.module)

/-- The partner whose commit completed a `.pod` step: the last of all, after every domain of this module (R24). -/
def State.lastPartner (s : State) (l : Launch) (ps : List (Nat × Nat)) : Option PodArrival :=
  let here := match s.lastCommit ps with
    | some p => match s.group? p.1 with | some y => (y.dom p.2).commitNo | none => 0
    | none => 0
  (l.podAt.filter fun a => decide (here < a.order)).foldl (fun b a => match b with
    | none => some a
    | some c => if c.order < a.order then some a else some c) none

/-- Whether a module's election goes to another: its candidate has the greater rank; between equal ranks of two modules the
choice is open (R24, log entry 88). -/
def State.outranked (s : State) (l : Launch) (all : List TRef) : Bool :=
  let ranks := l.podAt.filterMap fun a => a.top.map (·.toNat)
  match all.map s.rankOf with
  | [] => true
  | r :: rest =>
    let mine := rest.foldl max r
    ranks.any (fun w => decide (mine < w)) || (ranks.contains mine && s.bit mine)

/-- The thread of this module that a step elects among its candidates, if it is one of this module's (R24). -/
def State.electStep (s : State) (l : Launch) (ps : List (Nat × Nat)) (all : List TRef) : Option TRef :=
  match s.lastPartner l ps with
  | some a => if a.own || s.outranked l all then none else elect s l.r.det [] all
  | none =>
    let last := match s.lastCommit ps with | some p => s.stepCandidates p | none => []
    if last.isEmpty && s.outranked l all then none else elect s l.r.det last all

/-- The release of a step: the election, the domains, then a package step ends the use of translations replaced before
it began (R24, R46); a `.pod` step counts as one (log entry 115).  The partners' arrivals at a `.pod` step are used up. -/
def State.releaseStep (s : State) (x : Group) (scope : Nat) (ps : List (Nat × Nat)) : State :=
  let all := (ps.flatMap s.stepCandidates).map (·.1)
  let l := if scope = 5 then s.launchOf x else { s.launchOf x with podAt := [] }
  let first := s.firstArrival ps
  let s := s.writeElection all (s.electStep l ps all)
  let s := ps.foldl State.releaseWider s
  let s := if scope = 5 then s.modLaunch x.launch fun l => { l with podAt := [] } else s
  if 4 ≤ scope then
    { s with stale := s.stale.filter fun t => !(t.launch == x.launch && decide (t.order < first)) }
  else s

/-- What follows a step's release: acquisitions and joins that waited for it, the `waitv`s of the scope and of the group's
own boundary (R144, R147), and saves that wait. -/
def State.afterStep (s : State) (g : Nat) (x : Group) (scope : Nat) : State :=
  let gs := if scope = 1 then [g] else (s.groups.filter fun p => p.2.launch == x.launch && p.2.st == .running).map (·.1)
  let s := gs.foldl (fun s h => (s.wakeAcquires h).evalWaits h fun w => w.unread || w.scope == scope || decide (w.scope ≤ 1)) s
  gs.foldl (fun s h => s.trySave h) s

/-- A partner module's domains have all committed the `.pod` step under way: its highest-ranked candidate, and whether the
domain that committed last there holds one (R24). -/
def podArrival (launch module : Nat) (top : Option Word) (own : Bool) (s : State) : Host.Outcome State Fault Refusal :=
  match s.launch? launch with
  | none => .refused .notEnabled
  | some l =>
    if l.r.gang = 4 ∧ l.begun ∧ (s.partners l).contains module ∧ l.podAt.all (fun a => a.module != module) ∧
        (own = true → top.isSome) then
      .next ((s.modLaunch launch fun l => { l with podAt := l.podAt ++ [⟨module, s.fresh, top, own⟩] }).bump)
    else .refused .notEnabled

/-- Whether every partner of a pod gang has committed its `.pod` step (R22, R24). -/
def State.partnersWait (s : State) (l : Launch) : Bool :=
  (s.partners l).all fun m => l.podAt.any fun a => a.module == m

/-- R24, R36: every participant of a step is released together, once all have committed. -/
def execWiderStepRelease (g : Nat) (s : State) : Host.Outcome State Fault Refusal :=
  match s.group? g with
  | none => .refused .notEnabled
  | some x =>
    match x.widerScope with
    | none => .refused .notEnabled
    | some scope =>
      let ps := s.participants scope g x
      if ps.all (s.waitsAt scope) && (scope != 5 || s.partnersWait (s.launchOf x)) then .next ((s.releaseStep x scope ps).afterStep g x scope)
      else .refused .notEnabled

/-! ## Periodic checks (R147, R280) -/

/-- R147: a parked `waitv` is evaluated. -/
def execWaitvPeriodicEvaluation (g tid : Nat) (s : State) : Host.Outcome State Fault Refusal :=
  match s.group? g, s.thread? ⟨g, tid⟩ with
  | some x, some t =>
    match x.st, t.st with
    | .running, .waitv _ => .next (s.evalWait ⟨g, tid⟩)
    | _, _ => .refused .notEnabled
  | _, _ => .refused .notEnabled

/-- R280: the rings that a parked thread waits on are tested. -/
def execRacqPeriodicCheck (g tid : Nat) (s : State) : Host.Outcome State Fault Refusal :=
  match s.group? g, s.thread? ⟨g, tid⟩ with
  | some x, some t =>
    let rings := t.defs.filterMap fun d => match d.src with | .racq r => some r | _ => none
    if x.st != .running || !x.afterCommit tid t || rings.isEmpty then .refused .notEnabled
    else .next (rings.foldl (fun s r => s.checkRing g r) s)
  | _, _ => .refused .notEnabled

/-! ## Timers and lane-sync (R200, R390) -/

/-- R390: a live thread has reached its threshold; the group traps. -/
def execVtimeThreshold (g tid : Nat) (s : State) : Host.Outcome State Fault Refusal :=
  match s.group? g, s.thread? ⟨g, tid⟩ with
  | some x, some t =>
    if (x.st == .running || x.filling.isSome) && t.live && s.timerDue t then .next (s.timerTrap g)
    else .refused .notEnabled
  | _, _ => .refused .notEnabled

/-- Whether a thread waits at a cohort-synchronous instruction. -/
def State.atSync (s : State) (x : Group) (t : Thread) : Bool :=
  t.st == .ready && t.fall.isNone && s.atCohortSync x t

/-- Whether a thread is blocked (R200): one that is parked at a `join` counts although a `racq` of its is still unmet (log entry
120). -/
def State.blocked (s : State) (x : Group) (t : Thread) : Bool :=
  s.atSync x t || match t.st with
    | .boundary | .join .. => true
    | _ => false

/-- R200: every live thread of a cohort is blocked, one at least at a cohort-synchronous instruction and not all of them at
the same one.  The fault does not come while the group is parked for a miss, be it another cohort's (R251): it comes once the group
runs again (log entry 120). -/
def execLaneSyncFault (g ch : Nat) (s : State) : Host.Outcome State Fault Refusal :=
  match s.group? g with
  | none => .refused .notEnabled
  | some x =>
    let live := x.cohortLive ch
    match live.filter fun p => s.atSync x p.2 with
    | [] => .refused .notEnabled
    | (tid, t) :: _ =>
      if x.runs && live.all (fun p => s.blocked x p.2) && !live.all fun p => s.atSync x p.2 && p.2.pc == t.pc then
        .next (s.trap g [tid] { cause := .laneSync })
      else .refused .notEnabled

end Sys2Proof.Machine
end

