-- ==== Sys2Proof/Machine/Memory.lean ====
section
/-!
DEFINITION. The events of translation and memory: the fault buffer and its fills (R251, R252), mapping changes and
migration (R46, R254), and the zeroing of frames (R255).
-/
namespace Sys2Proof.Machine

/-! ## The fault buffer (R252) -/

/-- R252: the miss that has waited longest enters a buffer with room. -/
def execFaultBufferEntry (core : Nat) (s : State) : Host.Outcome State Fault Refusal :=
  match s.misses.find? fun m => m.core == core && !m.inBuffer with
  | none => .refused .notEnabled
  | some m =>
    let same (n : Miss) : Bool := n.core == core && n.asid == m.asid && n.page == m.page
    if decide (s.bufferCount core < 256) || s.misses.any (fun n => same n && n.inBuffer) then
      .next { s with misses := s.misses.map fun n => if same n then { n with inBuffer := true } else n }
    else .refused .notEnabled

/-- The entry that the firmware services next: the oldest of the core's buffer. -/
def State.oldestMiss (s : State) (core : Nat) : Option (Nat × Nat) :=
  (s.misses.find? fun m => m.core == core && m.inBuffer).map fun m => (m.asid, m.page)

/-- The entry of a page leaves the buffer; its requesters. -/
def State.clearMiss (s : State) (core asid page : Nat) : State × List Requester :=
  let (mine, rest) := s.misses.partition fun m => m.core == core && m.inBuffer && m.asid == asid && m.page == page
  ({ s with misses := rest }, (mine.map Miss.who).eraseDups)

/-- Threads that wait in `resume` go on once their frame is ready; one whose instruction carries the step marker arrives at
its boundary (R153).  One whose record stands in a prepared or poisoned cell issues its `resume` again (R258, R418). -/
def State.takeUpAll (s : State) (g : Nat) : State :=
  match s.group? g with
  | none => s
  | some x =>
    if x.st == .running && (match x.frame with | some fr => fr.ready | none => false) then
      (List.range x.threads.length).foldl (fun s i =>
        match (s.thread? ⟨g, i⟩).map Thread.st with
        | some (.resuming mark) =>
          match (s.group? g).bind Group.frame with
          | some fr =>
            if (frameKeys x fr.off i).any s.prepared || s.poisoned (frameKeys x fr.off i) then
              s.modThread ⟨g, i⟩ fun t => { t with st := .ready }
            else
              let s := s.takeUp ⟨g, i⟩
              if mark then s.arriveMarker ⟨g, i⟩ else s
          | none => s
        | _ => s) s
    else s

/-- A group's fault frame that waits for a page, be it in use or not. -/
def Group.frameFor (x : Group) (asid page : Nat) : Option FrameUse :=
  (x.frame.toList ++ x.spent).find? fun fr => fr.awaits asid page

/-- A fill completes for a group: the ready word is set of each frame that waits for it, the group goes on at its stop PCs (R151,
R251, R252). -/
def State.fillGroup (s : State) (g asid page : Nat) : State :=
  match s.group? g with
  | none => s
  | some x =>
    let s := ((x.frame.toList ++ x.spent).filter fun fr => fr.awaits asid page).foldl
      (fun (s : State) fr => s.landScratch g fr.off [1, 0, 0, 0]) s
    let s := s.modGroup g fun y =>
      { y with
        frame := y.frame.map fun fr => { fr with ready := fr.ready || fr.awaits asid page }
        spent := y.spent.filter fun fr => !fr.awaits asid page }
    let s := s.modGroup g fun y =>
      { y with st := match y.st with
          | .fill a v t => if a = asid ∧ v / 2 ^ 16 = page then .running else .fill a v t
          | .saved k (some (a, v, t)) => if a = asid ∧ v / 2 ^ 16 = page then .saved k none else .saved k (some (a, v, t))
          | st => st }
    s.takeUpAll g

/-- The threads that a stream pause has parked go on, once no operation of the group waits, and with them those whose
acquisitions have been met in the meantime (R311, R320). -/
def State.endPause (s : State) (g : Nat) : State :=
  if s.streamPaused g then s
  else (s.modGroup g fun x =>
    { x with
      threads := x.threads.map fun t => if t.st = .pause then { t with st := .ready } else t
      doms := x.doms.map fun k => { k with paused := false } }).wakeAcquires g

/-- A requester whose miss is served goes on. -/
def State.served (s : State) (asid page : Nat) (who : Requester) : State :=
  match who with
  | .group g => s.fillGroup g asid page
  | .stream id => match s.sops.find? id with
    | some o => s.endPause o.grp
    | none => s
  | _ => s

/-- Whether the stack or channel that holds an address is ready (R425), by the numbers of `tierOf` (log entry 14). -/
def State.unitReady (s : State) (p : Nat) : Bool :=
  if isHbm p then s.ready.hbm.getLsbD (2 * (p / 0x2800000000) + (Config.stackOf (p / 2 ^ 16)).toNat)
  else if isDeviceMemory p then s.ready.lpd.getLsbD ((p - 0x40000000000) / 2 ^ 12 % 24)
  else true

/-- Whether every unit that holds part of a frame is ready: the stack of each 64 KiB of HBM, the channels that 4 KiB units of
LPDDR6 go round (R243, R425). -/
def State.frameReady (s : State) (frame size : Nat) : Bool :=
  if isHbm frame then (List.range (2 ^ pageBits size / 2 ^ 16)).all fun i => s.unitReady (frame + i * 2 ^ 16)
  else (List.range (min 24 (2 ^ pageBits size / 2 ^ 12))).all fun i => s.unitReady (frame + i * 2 ^ 12)

/-- An entry as the hardware walks it or, with `absent`, with the leaf of an absent page in place of its entry (R250). -/
def State.entryAt (s : State) (absent : Bool) (at_ : Nat) : DWord :=
  let e : DWord := BitVec.ofNat 64 (s.readPhys at_ 8)
  if absent && !e.getLsbD 63 then (s.absentLeaf at_).getD e else e

/-- The leaves of a table and of the tables below it (R244), with or without those of absent pages: the entries that memory or the
firmware's list holds. -/
def State.leavesUnder (s : State) (absent : Bool) : List Nat → Nat → List Leaf
  | [], _ => []
  | lv :: rest, table =>
    let n := 2 ^ (levelBits lv).2
    let listed := s.mem.map (·.1) ++ if absent then s.fw.absent.map (·.addr) else []
    let idx := ((listed.filter fun k => decide (table ≤ k) && decide (k < table + 8 * n)).map fun k => (k - table) / 8).eraseDups
    idx.flatMap fun i =>
      let e := s.entryAt absent (table + 8 * i)
      if !e.getLsbD 63 then []
      else if e.getLsbD 62 then (if lv < 2 then [] else (leafOf s e (4 - lv)).toList)
      else if lv = 4 ∨ e.extractLsb' 52 10 ≠ 0 ∨ e.extractLsb' 0 8 ≠ 0 then []
      else
        let next := (e.extractLsb' 8 44).toNat * 256
        if isDeviceMemory next then s.leavesUnder absent rest next else []

/-- The leaves under the root tables that the firmware holds. -/
def State.mapped (s : State) : List Leaf := s.fw.roots.flatMap fun r => s.leavesUnder false [0, 1, 2, 3, 4] r.2

/-- The runs of this module's memory on which pages stand, absent ones too, as address and length: the frames in use (R45, log
entry 126). -/
def State.frames (s : State) : List (Nat × Nat) :=
  ((s.fw.roots.flatMap fun r => s.leavesUnder true [0, 1, 2, 3, 4] r.2).filter fun l =>
    l.place != 3 && isDeviceMemory l.frame).map fun l => (l.frame, 2 ^ pageBits l.size)

/-- The parts of a run before and after another. -/
def cutRun (q p : Nat × Nat) : List (Nat × Nat) :=
  [(p.1, min (q.1 - p.1) p.2), (max p.1 (q.1 + q.2), p.1 + p.2 - max p.1 (q.1 + q.2))].filter fun r => r.2 != 0

/-- The parts of runs that lie in none of others. -/
def outside (ps qs : List (Nat × Nat)) : List (Nat × Nat) := qs.foldl (fun ps q => ps.flatMap (cutRun q)) ps

/-- Whether every frame that is in use, and was not before, has been allocated and thereby zeroed (R45). -/
def State.mapsZeroed (s : State) (old : List (Nat × Nat)) : Bool := (outside s.frames (old ++ s.fw.zeroed)).isEmpty

/-- Frames that are in use have no allocation left to take. -/
def State.takeFrames (s : State) : State := { s with fw := { s.fw with zeroed := outside s.fw.zeroed s.frames } }

/-- Whether every leaf under the root tables that is not one of a list stands on memory that is ready (R425). -/
def State.mapsReady (s : State) (old : List Leaf) : Bool :=
  s.mapped.all fun l => old.contains l || l.place == 3 || s.frameReady l.frame l.size

/-- The leaf of an absent page becomes valid in the table where its entry stands. -/
def State.makeValid (s : State) (at_ : Nat) (leaf : DWord) : State :=
  ({ s with fw := { s.fw with absent := s.fw.absent.filter (·.addr != at_) } }).writePhys at_ (bytesOf 8 leaf.toNat)

/-- The firmware brings an absent page in, unless a leaf would come to stand on memory that is not ready (R425). -/
def State.bringIn (s : State) (asid page : Nat) : State :=
  match s.walkAsid asid (page * 2 ^ 16) with
  | .invalid _ at_ =>
    match s.absentLeaf at_ with
    | some leaf => if (s.makeValid at_ leaf).mapsReady s.mapped then s.makeValid at_ leaf else s
    | none => s
  | _ => s

/-- Whether a page translates with no miss. -/
def State.present (s : State) (asid page : Nat) : Bool :=
  match s.walkAsid asid (page * 2 ^ 16) with
  | .leaf _ l => !l.mig
  | _ => false

/-- R251: the firmware completes the fill of the oldest entry of a core's buffer. -/
def execTranslationFillComplete (core : Nat) (asid : BitVec 16) (page : Nat) (s : State) :
    Host.Outcome State Fault Refusal :=
  let a := asid.toNat
  let s' := s.bringIn a page
  if s.oldestMiss core = some (a, page) ∧ s'.present a page = true then
    let (s', who) := s'.clearMiss core a page
    .next (who.foldl (fun s w => s.served a page w) s')
  else .refused .notEnabled

/-- The page is never to be had: no mapping is left (R251). -/
def State.dropPage (s : State) (asid page : Nat) : State :=
  match s.walkAsid asid (page * 2 ^ 16) with
  | .invalid _ at_ => { s with fw := { s.fw with absent := s.fw.absent.filter (·.addr != at_) } }
  | .leaf at_ _ => s.writePhys at_ (List.replicate 8 0)
  | _ => s

/-- A fill fails for a group: it traps with the translation cause, at the thread that faulted.  A saved group traps when it is
restored if its frame waits on the page, and else faults when its thread issues again (R154, R251). -/
def State.failGroupFill (s : State) (g asid page : Nat) : State :=
  match s.group? g with
  | none => s
  | some x =>
    let t (va : Nat) (fpc : Option Word) : Trap := { cause := .translation, sub := 3, faddr := va, fpc := fpc }
    match x.st with
    | .fill a v tid =>
      if a = asid ∧ v / 2 ^ 16 = page then s.trap g [tid] (t v ((x.threads[tid]?).map Thread.faultPc))
      else match x.frameFor asid page with
        | some fr => s.trap g [fr.tid] (t fr.va (some fr.fpc))
        | none => s
    | .saved k fill =>
      let mine := match fill with
        | some (a, v, _) => a == asid && v / 2 ^ 16 == page
        | none => false
      let note (fr : FrameUse) : FrameUse := { fr with failed := fr.failed || fr.awaits asid page }
      s.modGroup g fun y =>
        { y with st := .saved k (if mine then none else fill), frame := y.frame.map note, spent := y.spent.map note }
    | _ => match x.frameFor asid page with
      | some fr => s.trap g [fr.tid] (t fr.va (some fr.fpc))
      | none => s

/-- R251: the firmware reports that the page of the oldest entry can never be brought in. -/
def execFillFailure (core : Nat) (asid : BitVec 16) (page : Nat) (s : State) : Host.Outcome State Fault Refusal :=
  let a := asid.toNat
  if s.oldestMiss core = some (a, page) ∧ s.present a page = false then
    let (s, who) := (s.dropPage a page).clearMiss core a page
    .next (who.foldl (fun s w => match w with
      | .group g => s.failGroupFill g a page
      | w => s.served a page w) s)
  else .refused .notEnabled

/-! ## Mapping changes (R46) -/

/-- The entries that a walk reads, with their levels, whatever they hold. -/
def State.walkEntries (s : State) (va : Nat) : List Nat → Nat → List (Nat × Nat)
  | [], _ => []
  | lv :: rest, table =>
    let (sh, n) := levelBits lv
    let a := table + 8 * (va / 2 ^ sh % 2 ^ n)
    let e : DWord := BitVec.ofNat 64 (s.readPhys a 8)
    (lv, a) :: if e.getLsbD 63 && !e.getLsbD 62 then s.walkEntries va rest ((e.extractLsb' 8 44).toNat * 256) else []

/-- The level at which an entry stands in the walk of a page. -/
def State.entryLevel (s : State) (asid page at_ : Nat) : Option Nat :=
  match s.fw.roots.find? asid with
  | none => none
  | some root => ((s.walkEntries (page * 2 ^ 16) [0, 1, 2, 3, 4] root).find? fun p => p.2 == at_).map (·.1)

/-- The 64 KiB pages that an entry of a level covers: the first, and how many. -/
def coveredPages (lv page : Nat) : Nat × Nat :=
  let n := 2 ^ ((levelBits lv).1 - 16)
  (page / n * n, n)

/-- Every launch of the space may go on using an entry that is replaced (R46): a launch counts as running from when its record is
taken (log entry 115). -/
def State.keepStale (s : State) (asid page count at_ : Nat) : State :=
  let old : DWord := BitVec.ofNat 64 (s.readPhys at_ 8)
  let mine := s.launches.filter fun l => l.2.r.asid == asid
  let one (l : Nat × Launch) : Stale := { launch := l.1, asid, page, count, addr := at_, old, order := s.fresh }
  ({ s with stale := s.stale ++ mine.map one }).bump

/-- A table entry takes a word, in a space with a root table.  A leaf entry with V = 0 is the mapping of an absent page (R250). -/
def State.setEntry (s : State) (asid root at_ : Nat) (entry : DWord) : State :=
  let here : List Absent :=
    if entry.getLsbD 63 || !entry.getLsbD 62 then [] else [{ addr := at_, leaf := entry ||| 0x8000000000000000 }]
  ({ s with fw := { s.fw with roots := s.fw.roots.put asid root, absent := (s.fw.absent.filter fun (t : Absent) => t.addr != at_) ++ here } }).writePhys
    at_ (bytesOf 8 entry.toNat)

/-- R46: the firmware writes a table entry of a space whose root table it holds.  No leaf that the entry makes reachable, by itself
or as a pointer, stands on memory that is not ready (R425), or on a frame that was not in use and has not been allocated (R45, log
entry 126).  That a root table is 4 KiB-aligned and in device memory, and stays the root of its space, is the model's choice (log
entry 127). -/
def execMappingChange (asid : BitVec 16) (page root at_ : Nat) (entry : DWord) (s : State) :
    Host.Outcome State Fault Refusal :=
  let a := asid.toNat
  let known := match s.fw.roots.find? a with | some r => r == root | none => isDeviceMemory root && root % 4096 == 0
  let t := s.setEntry a root at_ entry
  if s.ready.safe || !known || at_ % 8 != 0 || !isDeviceMemory at_ || decide (2 ^ 41 ≤ page) || !t.mapsReady s.mapped ||
      !t.mapsZeroed s.frames then .refused .notEnabled
  else
    let s := { s with fw := { s.fw with roots := s.fw.roots.put a root } }
    let s := match s.entryLevel a page at_ with
      | some l => s.keepStale a (coveredPages l page).1 (coveredPages l page).2 at_
      | none => s
    .next (s.setEntry a root at_ entry).takeFrames

/-! ## Migration (R254) -/

/-- R254: MIG is set in the leaf of a page. -/
def execMigrationStart (asid : BitVec 16) (page : Nat) (s : State) : Host.Outcome State Fault Refusal :=
  let a := asid.toNat
  match s.walkAsid a (page * 2 ^ 16) with
  | .leaf at_ l =>
    if s.ready.safe || l.mig then .refused .notEnabled
    else
      let (first, count) := coveredPages (4 - l.size) page
      let e : DWord := BitVec.ofNat 64 (s.readPhys at_ 8)
      .next ((s.keepStale a first count at_).writePhys at_ (bytesOf 8 (e ||| 0x0200000000000000).toNat))
  | _ => .refused .notEnabled

/-! ### What has been translated and not performed -/

def Acc.remap (f : Nat → Nat) (a : Acc) : Acc := { a with keys := a.keys.map f }

def Write.remap (f : Nat → Nat) (w : Write) : Write :=
  let w := { w with acc := w.acc.remap f }
  { w with peer := w.onPeer }

def Satom.remap (f : Nat → Nat) (a : Satom) : Satom := { a with acc := a.acc.remap f }

def WaitV.remap (f : Nat → Nat) (w : WaitV) : WaitV := { w with acc := w.acc.remap f }

def Fx.remap (f : Nat → Nat) : Fx → Fx
  | .write w => .write (w.remap f)
  | .satom a => .satom (a.remap f)
  | .launch acc q c => .launch (acc.remap f) q c
  | .remote r => .remote { r with acc := r.acc.remap f }
  | e => e

def Src.remap (f : Nat → Nat) : Src → Src
  | .load acc t fn => .load (acc.remap f) t fn
  | e => e

def TState.remap (f : Nat → Nat) : TState → TState
  | .waitv w => .waitv (w.remap f)
  | t => t

def Thread.remap (f : Nat → Nat) (t : Thread) : Thread :=
  { t with
    fx := t.fx.map (Fx.remap f)
    defs := t.defs.map fun d => { d with src := d.src.remap f }
    st := t.st.remap f
    arr := t.arr.map fun a => { a with wait := a.wait.map (WaitV.remap f) } }

/-- Cells are named by their 8-byte regions. -/
def Cell.remap (f : Nat → Nat) (c : Cell) : Cell := { c with key := f (8 * c.key) / 8 }

def Domain.remap (f : Nat → Nat) (k : Domain) : Domain :=
  { k with
    prep := k.prep.map fun cs => cs.map (Cell.remap f)
    satoms := k.satoms.map fun p => (p.1, p.2.1.remap f, p.2.2)
    lost := k.lost.map fun p => (p.1, p.2.remap f) }

def GafferEntry.remap (f : Nat → Nat) : GafferEntry → GafferEntry
  | .cell g d key => .cell g d (f (8 * key) / 8)
  | e => e

/-- Every access that has been translated and not yet performed goes to the new frame; marked cells move with it. -/
def State.remapKeys (s : State) (f : Nat → Nat) : State :=
  { s with
    groups := s.groups.map fun (p : Nat × Group) =>
      (p.1, { p.2 with threads := p.2.threads.map (Thread.remap f), doms := p.2.doms.map (Domain.remap f) })
    quads := s.quads.map fun (p : Nat × Quad) => (p.1, { p.2 with gaffer := p.2.gaffer.map (GafferEntry.remap f) })
    queues := s.queues.map fun k => { k with wait := k.wait.map fun e => { e with acc := e.acc.remap f } }
    raced := s.raced.foldl (fun (t : Table Nat) (m : Nat × Nat) => t.put (f m.1) m.2) []
    launches := s.launches.map fun (p : Nat × Launch) =>
      (p.1, { p.2 with marks := p.2.marks.foldl (fun (t : Table Nat) (m : Nat × Nat) => t.put (f (8 * m.1) / 8) m.2) [] }) }

/-- The bytes of a frame moved to another: what the new one held is gone (R254). -/
def State.copyFrame (s : State) (src dst len : Nat) : State :=
  let inside (a k : Nat) : Bool := decide (a ≤ k) && decide (k < a + len)
  let base := s.mem.filter fun (c : Nat × Byte) => !inside dst c.1
  let moved := s.mem.filter fun (c : Nat × Byte) => inside src c.1
  let lines := s.poison.filter fun (c : Nat × BitVec 128) => inside (src / 128) c.1 && decide (c.1 < (src + len) / 128)
  let clean := s.poison.filter fun (c : Nat × BitVec 128) => !(decide (dst / 128 ≤ c.1) && decide (c.1 < (dst + len) / 128))
  { s with
    mem := moved.foldl (fun (m : Memory) (c : Nat × Byte) => m.write (dst + (c.1 - src)) c.2) base
    poison := lines.foldl (fun (t : Table (BitVec 128)) (c : Nat × BitVec 128) =>
      Table.set 0 t (dst / 128 + (c.1 - src / 128)) c.2) clean }

/-- A leaf with the frame of another. -/
def withFrame (e new : DWord) : DWord := (e &&& ~~~(0x000FFFFFFFFF0000 : DWord)) ||| (new &&& (0x000FFFFFFFFF0000 : DWord))

/-- A leaf with the frame, the placement and the peer of another. -/
def withPlace (e new : DWord) : DWord := (e &&& ~~~(0x300FFFFFFFFFFF00 : DWord)) ||| (new &&& (0x300FFFFFFFFFFF00 : DWord))

/-- The memory key of a page's first byte. -/
def Leaf.base (l : Leaf) : Nat := if l.place = 3 then peerKey l.peer l.frame else l.frame

/-- The bytes of a page move to another frame: within this module, or from a peer, whose bytes are open (R33); what a page holds
after a move to a peer is the peer's (R254, R402). -/
def State.moveFrame (s : State) (l n : Leaf) : State :=
  let len := 2 ^ pageBits l.size
  if n.base = l.base ∨ n.place = 3 then s
  else if l.place = 3 then s.writeBytes (physKeys n.frame len) (s.readBytes (physKeys l.base len))
  else s.copyFrame l.frame n.frame len

/-- Whether a page cannot leave its frame yet: a remote operation for a byte of it has not settled, or, where it comes home from a
peer, has not passed to the fabric. -/
def State.remoteAt (s : State) (l n : Leaf) : Bool :=
  let here (a : Acc) : Bool := a.keys.any fun k => decide (l.base ≤ k) && decide (k < l.base + 2 ^ pageBits l.size)
  s.remotes.any (fun r => here r.2.acc) ||
    n.place != 3 && s.groups.any fun p => p.2.threads.any fun t => t.fx.any fun e => match e with
      | .remote r => here r.acc
      | _ => false

/-- R254: the new leaf is posted and MIG cleared.  The page keeps the value of every byte, and accesses by an old
translation, which a running launch may still use (R46), find the new frame, under the new placement where their own does not
allow it (R247).  Operations at a peer settle before. -/
def execMigrationComplete (asid : BitVec 16) (page : Nat) (entry : DWord) (s : State) : Host.Outcome State Fault Refusal :=
  let a := asid.toNat
  match s.walkAsid a (page * 2 ^ 16) with
  | .leaf at_ l =>
    match leafOf s entry l.size with
    | some n =>
      if s.ready.safe || !l.mig || n.mig || !entry.getLsbD 63 || !entry.getLsbD 62 || s.remoteAt l n ||
          !(n.place == 3 || s.frameReady n.frame n.size) then .refused .notEnabled
      else
        let len := 2 ^ pageBits l.size
        let s := (s.moveFrame l n).remapKeys fun k => if l.base ≤ k ∧ k < l.base + len then n.base + (k - l.base) else k
        let (first, count) := coveredPages (4 - l.size) page
        let s := s.keepStale a first count at_
        let s := { s with stale := s.stale.map fun (t : Stale) =>
          if t.addr = at_ ∧ (t.old.extractLsb' 16 36).toNat * 2 ^ 16 = l.frame then
            let e := withFrame t.old entry
            { t with old := if l.place = 3 ∨ n.place = 3 ∨ leafOf s e l.size = none then withPlace t.old entry else e }
          else t }
        .next (s.writePhys at_ (bytesOf 8 entry.toNat)).takeFrames
    | none => .refused .notEnabled
  | _ => .refused .notEnabled

/-! ## Zeroing (R45, R255) -/

def sizeCode : PageSize → Nat
  | .kib64 => 0
  | .mib2 => 1
  | .gib1 => 2

/-- R45, R255: a frame on which no page stands is allocated: it reads as zeros from then on, is marked zero-pending, and may be
mapped. -/
def execPageAllocate (frame : Nat) (size : PageSize) (s : State) : Host.Outcome State Fault Refusal :=
  let len := 2 ^ pageBits (sizeCode size)
  if s.ready.safe = true ∨ frame % len ≠ 0 ∨ isDeviceMemory frame = false ∨ isDeviceMemory (frame + len - 1) = false ∨
      s.frameReady frame (sizeCode size) = false ∨ outside [(frame, len)] s.frames ≠ [(frame, len)] then .refused .notEnabled
  else
    .next
      { s with
        mem := s.mem.filter fun (c : Nat × Byte) => !(decide (frame ≤ c.1) && decide (c.1 < frame + len))
        poison := s.poison.filter fun (c : Nat × BitVec 128) =>
          !(decide (frame / 128 ≤ c.1) && decide (c.1 < (frame + len) / 128))
        zeroPend := (s.zeroPend.filter fun r => !(decide (frame ≤ r.1) && decide (r.1 < frame + len))) ++ [(frame, len)]
        fw := { s.fw with zeroed := outside s.fw.zeroed [(frame, len)] ++ [(frame, len)] } }

/-- A range without one line. -/
def cutLine (a : Nat) (r : Nat × Nat) : List (Nat × Nat) :=
  [(r.1, a - r.1), (a + 128, r.1 + r.2 - (a + 128))].filter fun p => p.2 != 0

/-- R255: the controller clears one line, and its mark goes. -/
def execZeroPendingClear (line : Nat) (s : State) : Host.Outcome State Fault Refusal :=
  let a := 128 * line
  let hit (r : Nat × Nat) : Bool := decide (r.1 ≤ a) && decide (a + 128 ≤ r.1 + r.2)
  if s.zeroPend.any hit then
    .next { s with zeroPend := s.zeroPend.flatMap fun r => if hit r then cutLine a r else [r] }
  else .refused .notEnabled

end Sys2Proof.Machine
end

