-- ==== Sys2Proof/Machine/Dispatcher.lean ====
section
/-!
DEFINITION. The dispatch engine: its instructions (R392-R395), launch records and their checks (R371-R378), placement of
batches and gangs (R379-R383), retirement and the digest chain (R374, R385), pre-emption and eviction (R126, R386, R387).
-/
namespace Sys2Proof.Machine

/-! ## The dispatch instructions (R392-R395) -/

def dispatchFault (cause : Nat) : Stop := .of .dispatchOperand cause

/-- R393. -/
def execSpawn (f : Fields) (s : State) : Host.Outcome State Fault Refusal :=
  issueEach (.spawn f) f (fun r g t s =>
    let off := t.target f
    match s.checkHeader g off entryKind with
    | .error e => .stop e
    | .ok _ =>
      if (s.launchOf g).r.det then .stop (.of .determinism)
      else .next (s.buffer r (.spawn (BitVec.ofInt 32 off) (f.fn.toNat + 1) (t.opB f) (t.srcHi f.b) t.pc))) s

/-- R394. -/
def execLaunch (f : Fields) (s : State) : Host.Outcome State Fault Refusal :=
  issueEach (.launch f) f (fun r g t s => Act.of do
    let off := (t.opB f).toNat
    let q := (t.opC f).toNat
    let loc ← t.place f.a.toNat off 128 false
    let (acc, _) ← s.accessAt (s.aspace g) loc 128 1 .read
    if off % 64 ≠ 0 then throw (dispatchFault 1)
    if 63 < q then throw (dispatchFault 2)
    if !(s.queueAt q).opened || !(s.queueAt q).dev then throw (dispatchFault 3)
    pure (s.buffer r (.launch acc q (ctrOf f.d)))) s

/-- R395. -/
def execYield (f : Fields) (s : State) : Host.Outcome State Fault Refusal :=
  issueEach (.yield f) f (fun r _ _ s => .next (s.buffer r .yield)) s

/-- R395. -/
def execRole (f : Fields) (s : State) : Host.Outcome State Fault Refusal :=
  issueEach (.role f) f (fun r _ t s =>
    if 255 < (t.opA f).toNat then .stop (dispatchFault 4) else .next (s.buffer r (.role ((t.opA f).setWidth 8)))) s

/-- R395. -/
def execPrio (f : Fields) (s : State) : Host.Outcome State Fault Refusal :=
  issueEach (.prio f) f (fun r g t s =>
    let a := (t.opA f).toNat
    if 3 < a ∨ a < (s.launchOf g).r.prio then .stop (dispatchFault 4) else .next (s.buffer r (.prio a))) s

/-- R395: at once. -/
def execTmset (f : Fields) (s : State) : Host.Outcome State Fault Refusal :=
  issueReg (.tmset f) f (fun t => { t with tmr := t.opA f }) s

/-! ## Launch records (R375-R377) -/

/-- The capability register (R76). -/
def State.capability (s : State) : BitVec 128 := if s.ready.ual = 0 then 0xEDF else 0xFFF

/-- A launch record from its 128 bytes (R375). -/
def LaunchRec.ofNat (n : Nat) : LaunchRec :=
  let fld (p w : Nat) : Nat := n / 2 ^ p % 2 ^ w
  { code := fld 960 64, segp := fld 896 64, digp := fld 832 64, cmpl := fld 768 64, ovfl := fld 704 64, ovsz := fld 672 32,
    entry := fld 640 32, ngrp := fld 608 32, dep1 := fld 576 32, dep0 := fld 544 32, dline := fld 512 32, asid := fld 496 16,
    podg := fld 480 16, coh := fld 476 4, bss := fld 474 2, gang := fld 471 3, det := fld 470 1 == 1, idem := fld 469 1 == 1,
    dbg := fld 468 1 == 1, prio := fld 466 2, dv := fld 464 2, arb := fld 462 2, pmode := fld 460 2, podn := fld 453 7,
    resv := fld 0 453 }

/-- The leaf of a page for the dispatcher, which waits for what is being filled or migrated (log entry 30). -/
def State.spaceLeaf (s : State) (asid va : Nat) : Option Leaf :=
  match s.walkAsid asid va with
  | .leaf _ l => some l
  | .invalid lv at_ => if lv < 2 then none else (s.absentLeaf at_).bind fun e => leafOf s e (4 - lv)
  | .malformed | .noTable | .later => none

/-- The memory keys of a run of bytes of an address space, with whether all of it may be written. -/
def State.spaceKeys (s : State) (asid va len : Nat) : Option (List Nat × Bool) :=
  if 2 ^ 57 < va + len then none
  else
    let ls := (pagesOf va len).map fun a => s.spaceLeaf asid a
    if ls.all Option.isSome then
      let ls := ls.filterMap id
      some ((List.range len).map fun i => match leafAt va ls (va + i) with
        | some l => l.key (va + i)
        | none => 0, ls.all Leaf.w)
    else none

/-- Bytes of an address space, where they can be read. -/
def State.spaceBytes (s : State) (asid va len : Nat) : Option (List Byte) :=
  (s.spaceKeys asid va len).map fun p => s.readBytes p.1

/-- Whether the dispatcher's walk for a run of bytes must wait for a prepared entry (R258). -/
def State.walkHeld (s : State) (asid va len : Nat) : Bool :=
  (pagesOf va len).any fun a => match s.walkAsid asid a with | .later => true | _ => false

/-- Whether the dispatcher's read of a run of bytes must wait for a prepared cell (R258). -/
def State.spaceHeld (s : State) (asid va len : Nat) : Bool :=
  s.walkHeld asid va len ||
    match s.spaceKeys asid va len with
    | some p => p.1.any s.prepared
    | none => false

/-- The object header (R75): first and size, where it is well formed. -/
def objectHeader (n : Nat) : Option (Nat × Nat) :=
  let first := n / 2 ^ 160 % 2 ^ 32
  let size := n / 2 ^ 128 % 2 ^ 32
  if n / 2 ^ 208 = 0 ∧ n / 2 ^ 192 % 2 ^ 16 = 4 ∧ first % 8 = 0 ∧ 32 ≤ first ∧ size % 8 = 0 then some (first, size) else none

/-- The block of a header of an object in memory. -/
def State.objectBlock (s : State) (asid code first size off : Nat) : Option (List Byte) :=
  if off % 8 ≠ 0 ∨ off < first ∨ size < off + 8 then none
  else
    (s.spaceBytes asid (code + off) 8).bind fun h =>
      let len := 8 + (Header.ofNat (littleEndian h)).len
      if size < off + len then none else s.spaceBytes asid (code + off) len

/-- Whether a read of a header of an object, or of its block, must wait. -/
def State.blockHeld (s : State) (asid code off : Nat) : Bool :=
  s.spaceHeld asid (code + off) 8 || match s.spaceBytes asid (code + off) 8 with
    | some h => s.spaceHeld asid (code + off) (8 + (Header.ofNat (littleEndian h)).len)
    | none => false

/-- Whether a dependence is on a record already written: of its own queue before the record, of another before TAIL
(R376). -/
def State.depWritten (s : State) (q : Nat) (seq : Word) (dep : Nat) : Bool :=
  let from_ := if dep / 2 ^ 26 = q then seq else (s.queueAt (dep / 2 ^ 26)).tail
  decide ((from_.toNat + 2 ^ 32 - 1 - dep % 2 ^ 26) % 2 ^ 26 < 2 ^ 25)

/-- Whether a dependence is met: HEAD has passed it (R376). -/
def State.depMet (s : State) (dep : Nat) : Bool :=
  decide (((s.queueAt (dep / 2 ^ 26)).head.toNat + 2 ^ 32 - 1 - dep % 2 ^ 26) % 2 ^ 26 < 2 ^ 25)

/-- The valid dependences of a record. -/
def LaunchRec.deps (r : LaunchRec) : List Nat :=
  (if r.dv % 2 = 1 then [r.dep0] else []) ++ (if 2 ≤ r.dv then [r.dep1] else [])

/-- Whether the fields of a record pass the checks of reason 3 (R377). -/
def State.fieldsOk (s : State) (q : Nat) (seq : Word) (r : LaunchRec) (fmask : BitVec 128) : Bool :=
  r.resv == 0 && decide (r.bss ≤ 1) && decide (r.gang ≤ 4) && r.arb != 3 && r.pmode != 3 &&
    decide (1 ≤ r.ngrp) && decide (r.ngrp ≤ 4194304) && (r.gang == 4 || r.podg == 0 && r.podn == 0) &&
    (!(r.gang == 2 || r.gang == 3) || fmask.getLsbD 4) && (r.gang != 4 || fmask.getLsbD 5) && (!r.det || fmask.getLsbD 9) &&
    r.code % 8 == 0 && r.segp % 64 == 0 && r.digp % 16 == 0 && r.cmpl % 64 == 0 && r.ovfl % 2 ^ 16 == 0 &&
    r.deps.all (s.depWritten q seq)

/-- The segment values of a record (R211, R375). -/
def State.segBlock (s : State) (r : LaunchRec) : Option (List DWord) :=
  (s.spaceBytes r.asid r.segp 128).map fun b => (List.range 16).map fun i => BitVec.ofNat 64 (littleEndian ((b.drop (8 * i)).take 8))

def segOk (g : DWord) : Bool := decide (segLim g ≤ 32) || segLim g == 63

/-- The checks of R377 for reasons 1 to 4 and 6: the first reason that fails, or what the launch keeps of the object:
feature mask, first and size, and the segment values. -/
def State.checkRecord (s : State) (q : Nat) (seq : Word) (r : LaunchRec) :
    Except Nat (BitVec 128 × Nat × Nat × List DWord) :=
  match s.spaceBytes r.asid r.code 16 with
  | none => .error 2
  | some b =>
    let fmask : BitVec 128 := BitVec.ofNat 128 (littleEndian b)
    if fmask &&& ~~~s.capability ≠ 0 || !fmask.getLsbD 0 then .error 1
    else match (s.spaceBytes r.asid r.code 32).bind fun b => objectHeader (littleEndian b) with
      | none => .error 2
      | some (first, size) =>
        match s.objectBlock r.asid r.code first size r.entry with
        | none => .error 2
        | some bytes =>
          if !validBlock bytes || (blockHeader bytes).kind != 3 then .error 2
          else if !s.fieldsOk q seq r fmask then .error 3
          else match s.segBlock r with
            | none => .error 4
            | some segs =>
              if !segs.all segOk then .error 4
              else if r.det && r.bss == 0 then .error 6
              else .ok (fmask, first, size, segs)

/-- Whether a read of the checks must wait for a prepared cell (R258). -/
def State.recordHeld (s : State) (r : LaunchRec) : Bool :=
  s.spaceHeld r.asid r.code 32 || s.blockHeld r.asid r.code r.entry || s.spaceHeld r.asid r.segp 128

/-! ## Taking records (R372, R373, R377) -/

/-- The launch of a queue and a sequence number, among those taken and not retired. -/
def State.launchAt (s : State) (q : Nat) (seq : Word) : Option (Nat × Launch) :=
  (s.launches.filter fun p => p.2.q == q && p.2.seq == seq).head?

/-- Whether all groups of a launch have been handed out or placed (R373). -/
def Launch.handedOut (l : Launch) : Bool :=
  l.status == 1 || l.status == 3 ||
    (if l.r.gang = 0 then decide (l.r.ngrp ≤ l.handed) else match l.gang with | .started _ => true | _ => false)

/-- Whether the dispatcher takes records (R425, R427). -/
def State.dispatching (s : State) : Bool := s.ready.fw && s.ready.disp && !s.ready.safe

/-- Whether a queue holds a record that has not been taken, below TAIL and within the ring (R371). -/
def State.untaken (s : State) (q : Nat) : Bool :=
  let k := s.queueAt q
  decide ((k.next - k.head).toNat < min (k.tail - k.head).toNat k.size)

/-- Whether the dispatcher takes a record from a queue next (R372). -/
def State.hasRecord (s : State) (q : Nat) : Bool := (s.queueAt q).opened && s.untaken q

/-- The record a queue gives next. -/
def State.nextRecord (s : State) (q : Nat) : LaunchRec :=
  LaunchRec.ofNat (s.readPhys ((s.queueAt q).recAddr (s.queueAt q).next) 128)

/-- Whether the next record of a queue has been checked and can be taken but for the other queues (R373). -/
def State.recordReady (s : State) (q : Nat) : Bool :=
  let k := s.queueAt q
  s.hasRecord q && (match k.checked with | some l => l.r.deps.all s.depMet | none => false) &&
    match s.launchAt q (k.next - 1) with
    | some (_, l) => l.handedOut
    | none => true

/-- Whether a queue goes first among those that are ready: the most urgent PRIO, then round-robin (R373). -/
def State.goesFirst (s : State) (q : Nat) : Bool :=
  let place (i : Nat) : Nat × Nat :=
    ((match (s.queueAt i).checked with | some l => l.r.prio | none => 4), (i + 63 - s.lastQ) % 64)
  let me := place q
  ((List.range 64).filter fun i => i != q && s.recordReady i).all fun i =>
    decide (me.1 < (place i).1) || (me.1 == (place i).1 && decide (me.2 < (place i).2))

/-- A record is taken: its launch. -/
def State.addLaunch (s : State) (l : Launch) : State :=
  ({ s with launches := s.launches.put s.fresh l }.modQueue l.q fun k =>
    { k with next := k.next + 1, checked := none, aborted := k.aborted.filter (· != l.seq) }).bump

/-- A checked record is taken if its turn has come (R373). -/
def State.takeRecord (s : State) (q : Nat) (l : Launch) : Option State :=
  if s.recordReady q && s.goesFirst q then some { s.addLaunch l with lastQ := q } else none

/-- Whether the read of a queue's next record must wait for a prepared cell (R258). -/
def State.nextHeld (s : State) (q : Nat) : Bool :=
  (physKeys ((s.queueAt q).recAddr (s.queueAt q).next) 128).any s.prepared

/-- R373: the next record of a queue is read and checked, once (R376, R377), which may fail its launch, and taken if its turn has
come.  One that the host has aborted retires with status 3, whether or not the queue is open (R372). -/
def execRecordTake (q : BitVec 6) (s : State) : Host.Outcome State Fault Refusal :=
  let q := q.toNat
  let k := s.queueAt q
  if !s.dispatching || !s.untaken q || (k.checked.isNone && s.nextHeld q) then .refused .notEnabled
  else
    let r := match k.checked with | some l => l.r | none => s.nextRecord q
    let l : Launch := { q, seq := k.next, r }
    if k.aborted.contains k.next then .next (s.addLaunch { l with status := 3 })
    else if !k.opened then .refused .notEnabled
    else match k.checked with
      | some l => match s.takeRecord q l with
        | some s => .next s
        | none => .refused .notEnabled
      | none =>
        if s.recordHeld r then .refused .notEnabled
        else match s.checkRecord q k.next r with
          | .error e => .next (s.addLaunch { l with status := 1, reason := e })
          | .ok (fmask, first, size, segs) =>
            let l := { l with fmask, objFirst := first, objSize := size, segs, begun := true,
                              ovsz := if r.ovsz = 0 then 1024 else r.ovsz }
            let s := s.modQueue q fun k => { k with checked := some l }
            .next ((s.takeRecord q l).getD s)

/-! ## Starting a group (R110, R158) -/

/-- A group on a core: its threads enter the entry block, with what its launch or spawn record loads; where that block cannot be
read yet, they enter it by way of its header, as a fall-through does (R81, R83, R258).  The segment values are those that the
record's check read, for a relaunch too (R211, R239, log entry 48). -/
def State.startGroup (s : State) (core lid grp : Nat) (spawn : Option Spawn) : State :=
  match s.launch? lid, s.freeGroupSlot core with
  | some l, some slot =>
    let ncoh := match spawn with | some p => p.ncoh | none => l.r.coh + 1
    let entry : Word := match spawn with | some p => p.entry | none => BitVec.ofNat 32 l.r.entry
    match s.freeSlots core ncoh with
    | none => s
    | some tslots =>
      let t : Thread := { s := l.segs, since := s.clk }
      let t := match spawn with | some p => t.setRegs 0 [p.v0, p.v1] | none => t
      let n := 64 * ncoh
      let lane := l.r.bss == 0
      let x : Group :=
        { launch := lid, grp, spawn, ncoh, lane, core, lremap := (s.core core).lremap, slot, tslots, threads := List.replicate n t,
          doms := List.replicate (if lane then n else 1) {}, held := List.replicate ncoh 0, roles := List.replicate ncoh 0,
          prio := l.r.prio, placedAt := s.clk, since := s.clk }
      let g := s.fresh
      let s := ({ s with groups := s.groups.put g x }.bump).modLaunch lid fun l =>
        { l with ran := if l.ran.contains grp then l.ran else l.ran ++ [grp]
                 tstart := if l.ran.isEmpty then s.clk else l.tstart }
      match if s.blockHeld l.r.asid l.r.code entry.toNat then none
          else s.objectBlock l.r.asid l.r.code l.objFirst l.objSize entry.toNat with
      | some bytes => (List.range n).foldl (fun s i => s.enter ⟨g, i⟩ entry bytes) s
      | none => s.modGroup g fun x =>
        { x with threads := x.threads.map fun t => { t with pc := entry + 8, here := entry, fall := some (entry, entry) } }
  | _, _ => s

/-! ## Batch launches (R379, R383) -/

/-- The cores of a die, in order. -/
def dieCores (d : Nat) : List Nat := (List.range 64).map (64 * d + ·)

/-- The free group slots that a die offers, less the groups that wait for them (R379). -/
def State.dieFree (s : State) (d : Nat) : Nat :=
  (((dieCores d).filter fun c => s.coreOpen c && (s.core c).resv.isNone).map s.groupSlotsFree).sum -
    (Table.get [] s.dieQ d).length

/-- The number with the greatest weight, the first among equals. -/
def bestOf (w : Nat → Nat) : List Nat → Option Nat
  | [] => none
  | a :: l => match bestOf w l with
    | none => some a
    | some b => if w a < w b then some b else some a

/-- R379: a batch of groups passes to a die. -/
def execBatchHandout (l : Nat) (s : State) : Host.Outcome State Fault Refusal :=
  match s.launch? l with
  | none => .refused .notEnabled
  | some x =>
    match bestOf s.dieFree (List.range 16) with
    | none => .refused .notEnabled
    | some d =>
      let n := min (min 64 (s.dieFree d)) (x.r.ngrp - x.handed)
      if !s.dispatching || x.r.gang ≠ 0 || x.status = 1 || x.status = 3 || n = 0 then .refused .notEnabled
      else
        let ws : List Waiting := (List.range n).map fun i => { launch := l, grp := x.handed + i }
        .next ({ s with dieQ := Table.set [] s.dieQ d (Table.get [] s.dieQ d ++ ws) }.modLaunch l fun x =>
          { x with handed := x.handed + n })

/-- A candidate for a core (R383, R420). -/
inductive Cand where
  | relaunch (w : Waiting)
  | saved (g : Nat)
  | queued (w : Waiting)
  /-- The top of the core's own deque, or the bottom of another's. -/
  | own (p : Spawn)
  | steal (core : Nat) (p : Spawn)
  | spill (p : Spawn)
  deriving DecidableEq, Repr

/-- The cores of a group that waits. -/
def State.cohortsOfWaiting (s : State) (w : Waiting) : Nat :=
  match w.spawn with
  | some p => p.ncoh
  | none => match s.launch? w.launch with | some l => l.r.coh + 1 | none => 1

/-- The core with the most free group slots among those that a group of `n` cohorts may go on. -/
def State.bestCore (s : State) (n : Nat) (cs : List Nat) : Option Nat :=
  bestOf s.groupSlotsFree (cs.filter fun c => s.fits c n)

/-- The core for a killed group: in another quad than the one where it was killed, else the first of the die (R420). -/
def State.relaunchCore (s : State) (d n avoid : Nat) : Option Nat :=
  match s.bestCore n ((dieCores d).filter fun c => quadOf c != avoid) with
  | some c => some c
  | none => (dieCores d).find? fun c => s.fits c n

/-- The class of a launch's new groups. -/
def State.classOf (s : State) (l : Nat) : Nat := match s.launch? l with | some l => l.r.prio | none => 4

/-- Whether every lower group of a deterministic launch has been placed (R384). -/
def State.detOrder (s : State) (w : Waiting) : Bool :=
  match s.launch? w.launch with
  | some l => !l.r.det || (List.range w.grp).all l.ran.contains
  | none => false

/-- The first in launch order and then `%grp` order. -/
def firstWaiting (l : List Waiting) : Option Waiting :=
  l.foldl (fun (b : Option Waiting) w => match b with
    | none => some w
    | some v => if w.launch < v.launch || (w.launch == v.launch && decide (w.grp < v.grp)) then some w else some v) none

/-- The cores whose deques a core may take from: neighbours in the quad, then the other quads of the die (R383). -/
def thieves (core : Nat) : List Nat :=
  let q := quadOf core
  [1, 2, 3].map (fun i => 4 * q + (core % 4 + i) % 4) ++
    ((List.range 15).flatMap fun j => (List.range 4).map fun i => 4 * (16 * (q / 16) + (q % 16 + 1 + j) % 16) + i)

/-- The candidates of a class for a core, in the order of R383, each of which the core has room for; killed groups go first,
with the saved ones (R420). -/
def State.candidates (s : State) (core cls : Nat) : List Cand :=
  let d := dieOf core
  let waiting := (Table.get [] s.dieQ d).filter fun w => s.classOf w.launch == cls
  let killed := waiting.filter fun w => match w.avoid with
    | some q => s.relaunchCore d (s.cohortsOfWaiting w) q == some core
    | none => false
  let saved := (Table.get [] s.savedQ d).filter fun g => match s.group? g with
    | some x => x.prio == cls && s.fitsSaved core g x && (s.restoreGroup g core).isSome
    | none => false
  let room (p : Spawn) : Bool := p.offered && s.classOf p.launch == cls && s.fits core p.ncoh
  let top := ((s.core core).deque.getLast?.filter room).toList
  let next := ((firstWaiting (waiting.filter fun w => w.avoid.isNone)).filter fun w =>
    s.detOrder w && s.bestCore (s.cohortsOfWaiting w) (dieCores d) == some core).toList
  let bottoms := (thieves core).filterMap fun c => ((s.core c).deque.head?.filter room).map fun p => (c, p)
  let spilled := ((Table.get [] s.spill d).head?.filter room).toList
  killed.map .relaunch ++ saved.map .saved ++ top.map .own ++ next.map .queued ++
    (bottoms.map fun (p : Nat × Spawn) => Cand.steal p.1 p.2) ++ spilled.map .spill

/-- The first candidate of the most urgent class that has one. -/
def State.candidate (s : State) (core : Nat) : Option Cand :=
  ([0, 1, 2, 3].flatMap fun cls => (s.candidates core cls).take 1).head?

def State.dropWaiting (s : State) (d : Nat) (w : Waiting) : State :=
  { s with dieQ := Table.set [] s.dieQ d ((Table.get [] s.dieQ d).erase w) }

def State.startSpawn (s : State) (core : Nat) (p : Spawn) : State := s.startGroup core p.launch p.grp (some p)

/-- A candidate comes to stand on a core; a saved group whose area holds poisoned data is killed instead (R418). -/
def State.placeCand (s : State) (core : Nat) : Cand → State
  | .relaunch w | .queued w => (s.dropWaiting (dieOf core) w).startGroup core w.launch w.grp w.spawn
  | .saved g => match s.group? g with
    | some x => if s.areaPoisoned x then s.kill g else (s.restoreGroup g core).getD s
    | none => s
  | .own p => (s.modCore core fun k => { k with deque := k.deque.dropLast }).startSpawn core p
  | .steal c p => (s.modCore c fun k => { k with deque := k.deque.drop 1 }).startSpawn core p
  | .spill p =>
    ({ s with spill := Table.set [] s.spill (dieOf core) ((Table.get [] s.spill (dieOf core)).drop 1) }).startSpawn core p

/-- R383: a free group slot of a core is filled. -/
def execGroupPlace (core : Nat) (s : State) : Host.Outcome State Fault Refusal :=
  if s.ready.safe || 1024 ≤ core then .refused .notEnabled
  else match s.candidate core with
    | none => .refused .notEnabled
    | some c => .next (s.placeCand core c)

/-! ## Gangs (R380, R381) -/

/-- The cores of a gang's span instance, in order: a quad, a die, or the package. -/
def spanCores (gang span : Nat) : List Nat :=
  match gang with
  | 1 => (List.range 4).map (4 * span + ·)
  | 2 => (List.range 64).map (64 * span + ·)
  | _ => List.range 1024

def spanCount (gang : Nat) : Nat :=
  match gang with
  | 1 => 256
  | 2 => 16
  | _ => 1

/-- The groups of a gang that go to the `i`-th of `c` cores. -/
def shareOf (ngrp c i : Nat) : Nat := (ngrp + c - 1 - i) / c

/-- The share of a core of the span. -/
def Launch.share (l : Launch) (span core : Nat) : Nat :=
  let cs := spanCores l.r.gang span
  shareOf l.r.ngrp cs.length (cs.idxOf core)

/-- Whether a core has room for its share now (R380). -/
def State.shareFits (s : State) (l : Launch) (span core : Nat) : Bool :=
  let n := l.share span core
  n == 0 || (s.coreOpen core && decide (n ≤ s.groupSlotsFree core) && (s.freeSlots core (n * (l.r.coh + 1))).isSome &&
    decide (n * (l.r.coh + 1) ≤ s.freeExtended core))

/-- Whether a core could ever hold its share (R377 reason 5). -/
def State.shareEver (s : State) (l : Launch) (span core : Nat) : Bool :=
  let n := l.share span core
  let k := s.core core
  n == 0 || (!k.out && !(s.quad (quadOf core)).out && decide (n ≤ 8) &&
    decide (n * (l.r.coh + 1) ≤ (offeredSlots k core).length))

/-- Whether the dies of a span are ready (R425). -/
def State.spanReady (s : State) (l : Launch) (span : Nat) : Bool :=
  (spanCores l.r.gang span).all fun c => s.ready.die.getLsbD (dieOf c)

/-- RESV is sent to every core of a span: those not reserved become so, and one that is reserved replies NO. -/
def State.reserveSpan (s : State) (lid : Nat) (l : Launch) (span micros : Nat) : State :=
  let cs := spanCores l.r.gang span
  let refused := cs.any fun c => (s.core c).resv.isSome
  let s := cs.foldl (fun s c => s.modCore c fun k => if k.resv.isSome then k else { k with resv := some (s.ticket, lid) }) s
  { s with ticket := (s.ticket + 1) % 2 ^ 32 }.modLaunch lid fun l =>
    { l with gang := if refused then .refused span micros else .reserving span [] micros }

/-- A gang that fails before it starts: its reservation is released (R377, R381). -/
def State.failGang (s : State) (lid reason : Nat) : State :=
  (s.clearResv lid).modLaunch lid fun l => { l with status := 1, reason, gang := .idle }

/-- The launch that a gang event acts on: a gang that has not failed. -/
def State.gangLaunch? (s : State) (lid : Nat) : Option Launch :=
  (s.launch? lid).filter fun l => s.dispatching && l.r.gang != 0 && l.status != 1 && l.status != 3

/-- Whether groups of a gang are still on cores: those being flushed for its new start (R421). -/
def State.gangStands (s : State) (l : Nat) : Bool := s.groups.any fun p => p.2.launch == l && p.2.spawn.isNone

/-- R380: the reservation of the span instance with the most free group slots begins; a gang that fits no instance
fails (R377 reason 5).  One that has run and is placed again waits until its flushed groups have gone, and for an instance that
fits (R421, log entry 60). -/
def execGangReserve (l : Nat) (s : State) : Host.Outcome State Fault Refusal :=
  match s.gangLaunch? l with
  | none => .refused .notEnabled
  | some x =>
    if x.gang != .idle || s.gangStands l then .refused .notEnabled
    else
      let spans := List.range (spanCount x.r.gang)
      if !spans.any fun i => (spanCores x.r.gang i).all (s.shareEver x i) then
        if x.ran.isEmpty then .next (s.failGang l 5) else .refused .notEnabled
      else match bestOf (fun i => (((spanCores x.r.gang i).filter s.coreOpen).map s.groupSlotsFree).sum) (spans.filter (s.spanReady x)) with
        | none => .refused .notEnabled
        | some i => .next (s.reserveSpan l x i 0)

/-- R380: a reserved core replies READY once its share fits. -/
def execCoreReadyReply (core : Nat) (s : State) : Host.Outcome State Fault Refusal :=
  match (s.core core).resv with
  | none => .refused .notEnabled
  | some (_, l) =>
    match s.gangLaunch? l with
    | none => .refused .notEnabled
    | some x =>
      match x.gang with
      | .reserving span ready micros =>
        if ready.contains core || !s.shareFits x span core then .refused .notEnabled
        else .next (s.modLaunch l fun x => { x with gang := .reserving span (ready ++ [core]) micros })
      | _ => .refused .notEnabled

/-- The gang's groups are placed, all before any thread issues, and the reservation is cleared. -/
def State.startGang (s : State) (lid : Nat) (l : Launch) (span : Nat) : State :=
  let cs := spanCores l.r.gang span
  let s := (List.range l.r.ngrp).foldl (fun s i => s.startGroup (cs[i % cs.length]?.getD 0) lid i none) s
  (s.clearResv lid).modLaunch lid fun l => { l with gang := .started span }

/-- The partners that have reported a confirmed reservation, other than this module. -/
def State.podReports (s : State) (podg : Nat) : List Nat :=
  ((Table.get [] s.fw.pods podg).filter fun e => !e.failed && e.module != s.fw.module).map (·.module)

/-- PODN, NGRP, COH and BSS, in which the partners of a pod gang must agree (R381). -/
def LaunchRec.shape (r : LaunchRec) : Nat × Nat × Nat × Nat := (r.podn, r.ngrp, r.coh, r.bss)

/-- Whether a partner of a launch has failed, or differs from it or from another in shape (R381). -/
def State.podFailed (s : State) (l : Launch) : Bool :=
  (Table.get [] s.fw.pods l.r.podg).any fun e => e.failed || e.shape != l.r.shape

/-- A pod gang whose own package is secured: it starts once every partner has reported (R381).  One that has run and is placed
again concerns this module alone (R421). -/
def State.startPod (s : State) (lid : Nat) (l : Launch) (span : Nat) : State :=
  if l.ran.isEmpty && (s.ready.ual = 0 || s.podFailed l) then s.failGang lid 7
  else if (!l.ran.isEmpty || decide (l.r.podn ≤ (s.podReports l.r.podg).length)) &&
      (spanCores l.r.gang span).all (s.shareFits l span) then
    s.startGang lid l span
  else s

/-- R380, R381: every core has replied READY, and the gang starts; a pod gang reports to its partners and waits for them. -/
def execGangConfirm (l : Nat) (s : State) : Host.Outcome State Fault Refusal :=
  match s.gangLaunch? l with
  | none => .refused .notEnabled
  | some x =>
    match x.gang with
    | .reserving span ready _ =>
      if !(spanCores x.r.gang span).all ready.contains || !(spanCores x.r.gang span).all (s.shareFits x span) then
        .refused .notEnabled
      else if x.r.gang = 4 then
        .next ((s.modLaunch l fun x => { x with gang := .confirmed span }).startPod l { x with gang := .confirmed span } span)
      else .next (s.startGang l x span)
    | .confirmed span =>
      let s' := s.startPod l x span
      if s' = s then .refused .notEnabled else .next s'
    | _ => .refused .notEnabled

def nextDelay (micros : Nat) : Nat := if micros = 0 then 1 else min 64 (2 * micros)

/-- R380: after a NO the reservation is released and the dispatcher backs off. -/
def execGangReservationRelease (l : Nat) (s : State) : Host.Outcome State Fault Refusal :=
  match s.gangLaunch? l with
  | none => .refused .notEnabled
  | some x =>
    match x.gang with
    | .refused span micros =>
      .next ((s.clearResv l).modLaunch l fun x => { x with gang := .backoff span (nextDelay micros) })
    | _ => .refused .notEnabled

/-- R380: after 64 µs without every READY the reservation is released. -/
def execGangReservationTimeout (l : Nat) (s : State) : Host.Outcome State Fault Refusal :=
  match s.gangLaunch? l with
  | none => .refused .notEnabled
  | some x =>
    match x.gang with
    | .reserving span ready micros =>
      if (spanCores x.r.gang span).all ready.contains then .refused .notEnabled
      else .next ((s.clearResv l).modLaunch l fun x => { x with gang := .backoff span (nextDelay micros) })
    | _ => .refused .notEnabled

/-- R380: the back-off ends and the next instance is tried (log entry 31). -/
def execGangBackoffExpiry (l : Nat) (s : State) : Host.Outcome State Fault Refusal :=
  match s.gangLaunch? l with
  | none => .refused .notEnabled
  | some x =>
    match x.gang with
    | .backoff span micros =>
      let n := spanCount x.r.gang
      match ((List.range n).map fun i => (span + 1 + i) % n).find? (s.spanReady x) with
      | some i => .next (s.reserveSpan l x i micros)
      | none => .refused .notEnabled
    | _ => .refused .notEnabled

/-- The launch of a pod gang that has not started. -/
def State.podLaunch? (s : State) (podg : Nat) : Option (Nat × Launch) :=
  (s.launches.filter fun p => p.2.r.gang == 4 && p.2.r.podg == podg && p.2.status != 1 && p.2.status != 3).head?

/-- What a partner reports. -/
def reportEntry (r : PodReport) : PodEntry :=
  match r with
  | .started m podn ngrp coh bss => { module := m.toNat, shape := (podn.toNat, ngrp.toNat, coh.toNat, bss.toNat) }
  | .failed m => { module := m.toNat, failed := true }

/-- R381: a partner reports its confirmed reservation, or that it fails.  A failure, or a shape that differs, fails the
launch here too. -/
def execPodGangReport (podg : BitVec 16) (r : PodReport) (s : State) : Host.Outcome State Fault Refusal :=
  let k := podg.toNat
  let e := reportEntry r
  let old := Table.get [] s.fw.pods k
  if !s.ready.fw || s.ready.safe || old.any (fun o => o.module == e.module && o.failed == e.failed) then .refused .notEnabled
  else
    let s := { s with fw := { s.fw with pods := Table.set [] s.fw.pods k (old ++ [e]) } }
    match s.podLaunch? k with
    | none => .next s
    | some (l, x) =>
      match x.gang with
      | .started _ => .next s
      | .confirmed span => .next (s.startPod l x span)
      | _ => .next (if s.podFailed x && x.ran.isEmpty then s.failGang l 7 else s)

/-- R381: too few partners have reported in time after the first report.  A gang that has run and is placed again (R421) is not one
that never starts. -/
def execPodGangTimeout (podg : BitVec 16) (s : State) : Host.Outcome State Fault Refusal :=
  match s.podLaunch? podg.toNat with
  | none => .refused .notEnabled
  | some (l, x) =>
    let reports := (s.podReports podg.toNat).length
    if !x.ran.isEmpty then .refused .notEnabled
    else match x.gang with
    | .started _ => .refused .notEnabled
    | .confirmed _ => if reports < x.r.podn then .next (s.failGang l 7) else .refused .notEnabled
    | _ => if reports = 0 then .refused .notEnabled else .next (s.failGang l 7)

/-- Whether a gang has started, be it that it is placed again since (R381, R421). -/
def Launch.hasStarted (l : Launch) : Bool := (match l.gang with | .started _ => true | _ => false) || !l.ran.isEmpty

/-- R381: a module has been unreachable for 1 ms: the groups of every pod gang that it is part of and that has started trap at
`.pod` steps, those that wait there at once, the saved and the held ones when they are restored or resumed, and those of a gang
that is placed again (R421) when they reach one. -/
def execPodModuleUnreachable (module : BitVec 7) (s : State) : Host.Outcome State Fault Refusal :=
  let ls := s.launches.filter fun p => p.2.r.gang == 4 && p.2.hasStarted && (s.podReports p.2.r.podg).contains module.toNat
  let s := ls.foldl (fun (s : State) (p : Nat × Launch) => s.modLaunch p.1 fun l => { l with podLost := true }) s
  let gs := s.groups.filter fun p => ls.any fun l => l.1 == p.2.launch
  .next (gs.foldl (fun (s : State) (p : Nat × Group) => s.podCheck p.1) s)

/-! ## Retirement (R374, R378, R385) -/

/-- Whether the first three conditions of R15 hold for a launch. -/
def State.allOver (s : State) (lid : Nat) (l : Launch) : Bool :=
  l.handedOut && !s.groups.any (fun p => p.2.launch == lid) && !s.remotes.any (fun p => p.2.launch == lid) &&
    !s.dieQ.any (fun p => p.2.any fun w => w.launch == lid) && !s.spill.any (fun p => p.2.any fun w => w.launch == lid) &&
    !s.cores.any fun p => p.2.deque.any fun w => w.launch == lid

/-- The completion record (R378). -/
def Launch.completion (l : Launch) (clk : DWord) : List Byte :=
  bytesOf 64 (pack [(0, 8, l.status), (8, 8, l.reason), (192, 32, l.ident.toNat), (224, 32, l.fgrp.getD 0xFFFFFFFF),
    (256, 32, l.nfail), (288, 32, l.ran.length), (320, 64, l.tstart.toNat), (384, 64, clk.toNat), (448, 64, l.tfa)])

/-- Bytes written into an address space, where they may be. -/
def State.writeSpace (s : State) (asid va : Nat) (bs : List Byte) : State :=
  match s.spaceKeys asid va bs.length with
  | some (ks, true) => s.writeBytes ks bs
  | _ => s

/-- The bytes of a digest region; those that cannot be read are open (log entry 32). -/
def State.regionBytes (s : State) (asid va len : Nat) : List Byte :=
  match s.spaceBytes asid va len with
  | some b => b
  | none => (List.range len).map fun i => (s.word (2 ^ 70 + va + i)).setWidth 8

/-- The digests of the regions of a launch, from the `i`-th entry of its table on (R375, R385).  Bits [127:96] of an entry,
which are zero, are not looked at (log entry 91). -/
def State.regionDigests (s : State) (l : Launch) : Nat → Nat → List Byte
  | 0, _ => []
  | fuel + 1, i =>
    match s.spaceBytes l.r.asid (l.r.digp + 16 * i) 16 with
    | none => []
    | some b =>
      let e := littleEndian b
      let len := e / 2 ^ 64 % 2 ^ 32
      if len = 0 then []
      else Sha.sha384 (s.regionBytes l.r.asid (e % 2 ^ 64) len) ++ s.regionDigests l fuel (i + 1)

/-- Whether a read of the digest table, or of a region, must wait for a prepared cell (R258). -/
def State.digestHeld (s : State) (l : Launch) : Nat → Nat → Bool
  | 0, _ => false
  | fuel + 1, i =>
    s.spaceHeld l.r.asid (l.r.digp + 16 * i) 16 || match s.spaceBytes l.r.asid (l.r.digp + 16 * i) 16 with
      | none => false
      | some b =>
        let e := littleEndian b
        let len := e / 2 ^ 64 % 2 ^ 32
        len != 0 && (s.spaceHeld l.r.asid (e % 2 ^ 64) len || s.digestHeld l fuel (i + 1))

/-- Whether a launch chains digests of regions: it has started and names a table (R385). -/
def Launch.digests (l : Launch) : Bool := l.begun && l.status != 1 && l.r.digp != 0

/-- The chain of a queue's hash at a retirement (R385). -/
def State.chainHash (s : State) (l : Launch) : List Byte :=
  let ds := if l.digests then s.regionDigests l 8 0 else []
  Sha.sha384 ((s.queueAt l.q).hash ++ bytesOf 4 l.ident.toNat ++ ds)

/-- What the module holds of a launch is gone. -/
def State.dropLaunch (s : State) (lid : Nat) (l : Launch) : State :=
  let kept := s.cores.map fun (p : Nat × Core) => (p.1, { p.2 with
    blocks := p.2.blocks.filter fun b => b.launch != lid, ahead := p.2.ahead.filter fun b => b.launch != lid })
  { s with
    launches := s.launches.erase lid
    cores := kept.filter fun p => p.2 != ({} : Core)
    stale := s.stale.filter fun t => t.launch != lid
    fw := { s.fw with pods := if l.r.gang = 4 then s.fw.pods.erase l.r.podg else s.fw.pods } }

/-- R374: the launch at a queue's head retires: completion record, digest chain, HEAD; then records that wait for a place
enter (R394).  The walk to the place of the completion record waits for a prepared entry (R258). -/
def execLaunchRetire (q : BitVec 6) (s : State) : Host.Outcome State Fault Refusal :=
  let q := q.toNat
  match s.launchAt q (s.queueAt q).head with
  | none => .refused .notEnabled
  | some (lid, l) =>
    if !s.dispatching || !s.allOver lid l || (l.digests && s.digestHeld l 8 0) ||
        (l.r.cmpl != 0 && s.walkHeld l.r.asid l.r.cmpl 64) then .refused .notEnabled
    else
      let s := if l.r.cmpl = 0 then s else s.writeSpace l.r.asid l.r.cmpl (l.completion s.clk)
      let h := s.chainHash l
      let s := s.modQueue q fun k => { k with hash := h, head := k.head + 1 }
      let s := if s.fw.irqen.getLsbD q then { s with fw := s.fw.raise q } else s
      let s := s.dropLaunch lid l
      .next (s.drainQueue q)

/-! ## Pre-emption and eviction (R126, R386, R387) -/

/-- A save of the group is asked for; a group that stands at a boundary is saved at once (R43). -/
def State.askSave (s : State) (g kind : Nat) : State := (s.modGroup g fun x => { x with save := some kind }).trySave g

/-- Whether a group belongs to a gang. -/
def State.inGang (s : State) (x : Group) : Bool := (s.launchOf x).r.gang != 0 && x.spawn.isNone

/-- T of R386, in firmware generation 4. -/
def flushLimit : Nat := 16

/-- A group is pre-empted in the mode of R386; a trapped or saved one is left alone (R387), and one whose threads have exited (R14).
One that a lane test holds is not dropped, and is saved when the hold ends (R422, log entry 103). -/
def State.preemptGroup (s : State) (g : Nat) : State :=
  match s.group? g with
  | none => s
  | some x =>
    let r := (s.launchOf x).r
    if !x.choosable || !x.resident || r.pmode == 1 then s
    else if r.pmode = 0 && r.idem && decide (x.ext < flushLimit) && !s.inGang x && !x.testHold then s.flushGroup g true
    else s.askSave g 1

/-- The most urgent class of a die's candidates for which no core of the die has room (R386). -/
def State.waitingClass (s : State) (d : Nat) : Option Nat :=
  let noRoom (n : Nat) : Bool := !(dieCores d).any fun c => s.fits c n
  let ws := ((Table.get [] s.dieQ d).filter fun w => noRoom (s.cohortsOfWaiting w)).map fun w => s.classOf w.launch
  let sp := (Table.get [] s.spill d ++ (dieCores d).flatMap fun c => (s.core c).deque).filter fun p => noRoom p.ncoh
  let sv := (Table.get [] s.savedQ d).filterMap fun g => (s.group? g).bind fun x => if noRoom x.ncoh then some x.prio else none
  let gs := (dieCores d).filterMap fun c => (s.core c).resv.bind fun r => (s.gangLaunch? r.2).bind fun l => match l.gang with
    | .reserving span _ _ => if s.shareFits l span c then none else some l.r.prio
    | _ => none
  (ws ++ sp.map (fun p => s.classOf p.launch) ++ sv ++ gs).min?

/-- When a group came to its core (R386). -/
def Group.residentSince (x : Group) : DWord := x.since

/-- The victim among the groups of a die: the least urgent class, and the longest resident of it (R386). -/
def State.victim (s : State) (d : Nat) : Option (Nat × Group) :=
  (s.groups.filter fun p => p.2.resident && dieOf p.2.core == d && p.2.choosable).foldl
    (fun (b : Option (Nat × Group)) p => match b with
      | none => some p
      | some q =>
        if q.2.prio < p.2.prio || (q.2.prio == p.2.prio && decide (p.2.residentSince < q.2.residentSince)) then some p
        else some q) none

/-- R386: a more urgent group waits, and the dispatcher pre-empts the victim. -/
def execPreemption (die : Nat) (s : State) : Host.Outcome State Fault Refusal :=
  match s.waitingClass die, s.victim die with
  | some c, some (g, x) =>
    if s.ready.safe || x.prio ≤ c || x.save.isSome then .refused .notEnabled else .next (s.preemptGroup g)
  | _, _ => .refused .notEnabled

/-- R387: a group chosen for a save has reached no boundary in time; one whose threads have exited meanwhile is left alone (R14). -/
def execPreemptionTimeout (g : Nat) (s : State) : Host.Outcome State Fault Refusal :=
  match s.group? g with
  | none => .refused .notEnabled
  | some x =>
    if x.save.isNone || !x.resident || x.testHold || !x.alive then .refused .notEnabled
    else if (s.launchOf x).r.idem && !s.inGang x then .next (s.flushGroup g true)
    else .next (s.kill g 0x81)

/-- The cycle from which a group has been idle, if it is (R125): its live threads have been parked, or it trapped, for
4,096 cycles, or its last 64 boundaries did nothing for others (log entry 33).  A group with no live thread, which stays for
its engines, is not idle (log entry 92). -/
def Group.idleFrom (x : Group) (clk : DWord) : Option Nat :=
  let doms := (List.range x.doms.length).filter fun d => !(x.liveTids d).isEmpty
  let parked := match x.parkedSince with
    | some c => if 4096 ≤ (clk - c).toNat then [c.toNat] else []
    | none => []
  let quiet := if doms.all fun d => decide (64 ≤ (x.dom d).quiet) then [(doms.map fun d => (x.dom d).quietFrom.toNat).foldl max 0]
    else []
  if doms.isEmpty then none else (parked ++ quiet).min?

/-- R126: a core whose groups are all idle saves the one that has been idle longest; the 4,096 cycles count from the choice (log
entry 118). -/
def execEviction (core : Nat) (s : State) : Host.Outcome State Fault Refusal :=
  let rs := (List.range 8).filterMap fun i => (s.residents core).find? fun p => p.2.slot == i
  let late := match (s.core core).evicted with
    | some c => decide ((s.clk - c).toNat < 4096)
    | none => false
  if s.ready.safe || late || !rs.all (fun p => (p.2.idleFrom s.clk).isSome) || !s.hasCandidate core 3 then .refused .notEnabled
  else
    let able := rs.filter fun p => p.2.choosable && p.2.save.isNone
    match able.foldl (fun (b : Option (Nat × Group)) p => match b with
        | none => some p
        | some q => if (p.2.idleFrom s.clk).getD 0 < (q.2.idleFrom s.clk).getD 0 then some p else some q) none with
    | none => .refused .notEnabled
    | some (g, _) => .next ((s.modCore core fun k => { k with evicted := some s.clk }).askSave g 2)

end Sys2Proof.Machine
end

