-- ==== Sys2Proof/Machine/FloatOps.lean ====
section
/-!
DEFINITION. Floating-point arithmetic, comparison, scaling, rounding and conversion (R163, R181-R189, R191-R195).
-/
namespace Sys2Proof.Machine

/-! ## Elements (R163) -/

def lowHalf (w : Word) : Half := w.setWidth 16
def highHalf (w : Word) : Half := w.extractLsb' 16 16

/-- A function on elements and one on FP32 words applied under T; `old` is the destination before. -/
def perElem (t : Ty) (w32 : Word → Word → Word → Word) (h16 : Half → Half → Half → Half) (old a b c : Word) : Word :=
  match t with
  | .bf16x2 => h16 (highHalf a) (highHalf b) (highHalf c) ++ h16 (lowHalf a) (lowHalf b) (lowHalf c)
  | .bf16l => highHalf old ++ h16 (lowHalf a) (lowHalf b) (lowHalf c)
  | .bf16h => h16 (highHalf a) (highHalf b) (highHalf c) ++ lowHalf old
  | _ => w32 a b c

/-- An operation on exact values, rounded once to the element's format under M (R54, R163). -/
def perValue (t : Ty) (m : Nat) (op : Num → Num → Num → Num) (old a b c : Word) : Word :=
  perElem t (fun a b c => toF32 m (op (numF32 a) (numF32 b) (numF32 c)))
    (fun a b c => toBf16 m (op (numBf16 a) (numBf16 b) (numBf16 c))) old a b c

/-- The destination's value before the instruction; 0 where it is discarded. -/
def Thread.oldD (t : Thread) (f : Fields) : Word := if f.d.toNat ≤ 191 then t.reg f.d.toNat else 0

/-- The elements of a result under T, as FP32 bits (R130, R163). -/
def resultElems (t : Ty) (w : Word) : List Word :=
  match t with
  | .bf16x2 => [highHalf w ++ (0 : Half), lowHalf w ++ (0 : Half)]
  | .bf16l => [lowHalf w ++ (0 : Half)]
  | .bf16h => [highHalf w ++ (0 : Half)]
  | _ => [w]

/-- A result in a register under T: a form with one half keeps the other half of `old`. -/
def intoElems (t : Ty) (old w : Word) : Word :=
  match t with
  | .bf16l => highHalf old ++ lowHalf w
  | .bf16h => highHalf w ++ lowHalf old
  | _ => w

/-- Whether a result and its shadow diverge: in sign, both not zero, in one of them being NaN, or by more than 1 in the
exponent and top six fraction bits (R130). -/
def diverges (w shadow : Word) : Bool :=
  let k (x : Word) : Int := (x.extractLsb' 17 14).toNat
  (w.msb != shadow.msb && !(w <<< 1 == 0 && shadow <<< 1 == 0)) || f32IsNan w != f32IsNan shadow ||
    (!f32IsNan w && !f32IsNan shadow && decide (1 < (k w - k shadow).natAbs))

/-- The lane's unit has given the wrong result that it was to give. -/
def State.spendFlaw (s : State) (core lane : Nat) : State :=
  s.modCore core fun k => { k with flaws := k.flaws.filter (·.1 != lane) }

/-- The shadow of a result diverges: a machine check against the group, and the core is tested (R130). -/
def State.diverge (s : State) (r : TRef) (core lane : Nat) : State := (s.spendFlaw core lane).integrity r.grp core

/-- A class I instruction with one result register that a shadow unit checks (R130): a sound unit's result never
diverges; the wrong result of a unit that has failed is a machine check where it diverges from the shadow, which holds the
right one, and else is the result.  `ty` is the type of the result. -/
def issueShadowed (i : Instr) (f : Fields) (ty : Ty) (val : Thread → Word) (s : State) : Host.Outcome State Fault Refusal :=
  issueEach i f (fun r g t s =>
    let k := s.core g.core
    let lane := physicalLane k.lremap (r.tid % 64)
    match k.flaws.find? fun p => p.1 == lane with
    | none => .next (s.modThread r fun t => t.writeD f.d (val t))
    | some p =>
      let w := intoElems ty (t.oldD f) p.2
      if ((resultElems ty w).zip (resultElems ty (val t))).any fun q => diverges q.1 q.2 then .jump (s.diverge r g.core lane)
      else .next ((s.spendFlaw g.core lane).modThread r fun t => t.writeD f.d w)) s

/-- A class I floating-point instruction on exact values. -/
def issueF (i : Instr) (f : Fields) (op : Nat → Num → Num → Num → Num) (s : State) : Host.Outcome State Fault Refusal :=
  issueShadowed i f f.t (fun t => perValue f.t f.m.toNat (op f.m.toNat) (t.oldD f) (t.opA f) (t.opB f) (t.opC f)) s

/-! ## Arithmetic -/

/-- R181. -/
def execFadd (f : Fields) (s : State) : Host.Outcome State Fault Refusal :=
  issueF (.fadd f) f (fun m a b _ => a.add m b) s

/-- R181: a NaN operand is returned as it is, so b is negated only where it is a number. -/
def execFsub (f : Fields) (s : State) : Host.Outcome State Fault Refusal :=
  issueF (.fsub f) f (fun m a b _ => a.add m b.neg) s

/-- R181. -/
def execFmul (f : Fields) (s : State) : Host.Outcome State Fault Refusal :=
  issueF (.fmul f) f (fun _ a b _ => a.mul b) s

/-- R181. -/
def execFfma (f : Fields) (s : State) : Host.Outcome State Fault Refusal :=
  issueF (.ffma f) f (fun m a b c => Num.fma m a b c) s

/-- R182. -/
def execFmin (f : Fields) (s : State) : Host.Outcome State Fault Refusal :=
  issueF (.fmin f) f (fun _ a b _ => a.min b) s

/-- R182. -/
def execFmax (f : Fields) (s : State) : Host.Outcome State Fault Refusal :=
  issueF (.fmax f) f (fun _ a b _ => a.max b) s

/-- The sign operations of R183 on a value of `n` bits. -/
def signOp (fn : Nat) (a b : BitVec n) : BitVec n :=
  let top : BitVec n := BitVec.ofNat n (2 ^ (n - 1))
  match fn with
  | 0 => a ^^^ top
  | 1 => a &&& ~~~top
  | _ => (a &&& ~~~top) ||| (b &&& top)

/-- R183: sign bits alone change, a NaN too. -/
def execFsgn (f : Fields) (s : State) : Host.Outcome State Fault Refusal :=
  issueD (.fsgn f) f (fun t => perElem f.t (fun a b _ => signOp f.fn.toNat a b) (fun a b _ => signOp f.fn.toNat a b)
    (t.oldD f) (t.opA f) (t.opB f) (t.opC f)) s

/-- The single element of a T of `fsetp` and `fclass`, as FP32 bits; a BF16 half is the upper half of one. -/
def elemWord (t : Ty) (w : Word) : Word :=
  match t with
  | .bf16l => lowHalf w ++ (0 : Half)
  | .bf16h => highHalf w ++ (0 : Half)
  | _ => w

/-- R184. -/
def execFsetp (f : Fields) (s : State) : Host.Outcome State Fault Refusal :=
  issueP (.fsetp f) f (fun t => cmpF32 f.fn.toNat (elemWord f.t (t.opA f)) (elemWord f.t (t.opB f))) s

/-- R185: the sum is rounded before the minimum is taken. -/
def faddminVal (t : Ty) (m : Nat) (old a b c : Word) : Word :=
  perElem t (fun a b c => toF32 0 ((numF32 (toF32 m ((numF32 a).add m (numF32 b)))).min (numF32 c)))
    (fun a b c => toBf16 0 ((numBf16 (toBf16 m ((numBf16 a).add m (numBf16 b)))).min (numBf16 c))) old a b c

/-- R185. -/
def execFaddmin (f : Fields) (s : State) : Host.Outcome State Fault Refusal :=
  issueShadowed (.faddmin f) f f.t (fun t => faddminVal f.t f.m.toNat (t.oldD f) (t.opA f) (t.opB f) (t.opC f)) s

/-- Products and c summed exactly and rounded once; a NaN operand is the first of a.0, a.1, b.0, b.1, c (R186). -/
def fdot2Val (m : Nat) (a b c : Word) : Word :=
  let a0 := numBf16 (lowHalf a)
  let a1 := numBf16 (highHalf a)
  let b0 := numBf16 (lowHalf b)
  let b1 := numBf16 (highHalf b)
  let c := numF32 c
  match [a0, a1, b0, b1, c].findSome? fun x => match x with | .nan w => some w | _ => none with
  | some w => w
  | none => toF32 m (sum3 m (a0.mul b0) (a1.mul b1) c)
where
  /-- Three values summed exactly; a zero sum is −0 if every term is, and else as the mode says (R53). -/
  sum3 (m : Nat) (x y z : Num) : Num :=
    match x, y, z with
    | .fin n1 m1 e1, .fin n2 m2 e2, .fin n3 m3 e3 =>
      let e := min e1 (min e2 e3)
      let v := signed n1 (m1 * 2 ^ (e1 - e).toNat) + signed n2 (m2 * 2 ^ (e2 - e).toNat)
        + signed n3 (m3 * 2 ^ (e3 - e).toNat)
      if v = 0 then .fin (if n1 = n2 ∧ n2 = n3 then n1 else m == 2) 0 e
      else .fin (decide (v < 0)) v.natAbs e
    | x, y, z => (x.add m y).add m z

/-- R186. -/
def execFdot2 (f : Fields) (s : State) : Host.Outcome State Fault Refusal :=
  issueShadowed (.fdot2 f) f .f32 (fun t => fdot2Val f.m.toNat (t.opA f) (t.opB f) (t.opC f)) s

/-- R187. -/
def execFscale (f : Fields) (s : State) : Host.Outcome State Fault Refusal :=
  issueShadowed (.fscale f) f f.t (fun t =>
    let n := (t.opB f).toInt
    perValue f.t f.m.toNat (fun a _ _ => a.scale (max (-1000) (min n 1000))) (t.oldD f) (t.opA f) 0 0) s

/-- A value rounded to an integral value, its sign kept (R188). -/
def Num.integral (m : Nat) (x : Num) : Num :=
  match x with
  | .fin neg k e => if 0 ≤ e then x else .fin neg (roundShift m neg k (-e).toNat false) 0
  | x => x

/-- R188. -/
def execFrnd (f : Fields) (s : State) : Host.Outcome State Fault Refusal :=
  issueF (.frnd f) f (fun m a _ _ => a.integral m) s

/-- The class of FP32 bits (R189); a widened BF16 half has the same class. -/
def classOfF32 (w : Word) : Nat :=
  let neg := w.msb
  let ex := (w.extractLsb' 23 8).toNat
  let fr := (w.extractLsb' 0 23).toNat
  if ex = 255 then
    if fr = 0 then (if neg then 0 else 7) else if w.getLsbD 22 then 9 else 8
  else if ex = 0 then
    if fr = 0 then (if neg then 3 else 4) else (if neg then 2 else 5)
  else if neg then 1 else 6

/-- R189. -/
def execFclass (f : Fields) (s : State) : Host.Outcome State Fault Refusal :=
  issueP (.fclass f) f (fun t => (t.opB f).getLsbD (classOfF32 (elemWord f.t (t.opA f)))) s

/-! ## Conversion -/

/-- R191: FP32 rounded once to BF16. -/
def cvtVal (t : Ty) (m : Nat) (old a : Word) : Word :=
  let h := toBf16 m (numF32 a)
  match t with
  | .bf16x2 => h ++ h
  | .bf16l => highHalf old ++ h
  | .bf16h => h ++ lowHalf old
  | _ => h ++ (0 : Half)

/-- R191. -/
def execCvt (f : Fields) (s : State) : Host.Outcome State Fault Refusal :=
  issueD (.cvt f) f (fun t => cvtVal f.t f.m.toNat (t.oldD f) (t.opA f)) s

/-- FP32 to an integer of T, rounded and then clamped; NaN gives 0 (R192). -/
def ftoi (t : Ty) (m : Nat) (a : Word) : Word :=
  match numF32 a with
  | .nan _ => 0
  | .inf neg => wrap (clampT t (if neg then -2 ^ 64 else 2 ^ 64))
  | .fin neg k e =>
    let v : Nat := if 0 ≤ e then k * 2 ^ e.toNat else roundShift m neg k (-e).toNat false
    wrap (clampT t (signed neg v))

/-- An integer to FP32 (R192). -/
def itof (m : Nat) (v : Int) : Word := toF32 m (.fin (decide (v < 0)) v.natAbs 0)

/-- R192. -/
def execCvti (f : Fields) (s : State) : Host.Outcome State Fault Refusal :=
  issueD (.cvti f) f (fun t => if f.fn = 0 then ftoi f.t f.m.toNat (t.opA f) else itof f.m.toNat (t.intA f)) s

/-- A signed word saturated to a narrow type, as its bits (R193). -/
def satNarrow (t : Ty) (a : Word) : Nat :=
  let v := a.toInt
  match t with
  | .i8 => (BitVec.ofInt 8 (max (-128) (min v 127))).toNat
  | .n8 => (max 0 (min v 255)).toNat
  | .i16 => (BitVec.ofInt 16 (max (-32768) (min v 32767))).toNat
  | _ => (max 0 (min v 65535)).toNat

/-- R193. -/
def packVal (t : Ty) (hi : Bool) (old a b : Word) : Word :=
  match t with
  | .bf16x2 => toBf16 0 (numF32 b) ++ toBf16 0 (numF32 a)
  | .i8 | .n8 =>
    let h : Half := BitVec.ofNat 16 (satNarrow t a + 2 ^ 8 * satNarrow t b)
    if hi then h ++ lowHalf old else highHalf old ++ h
  | _ => BitVec.ofNat 32 (satNarrow t a + 2 ^ 16 * satNarrow t b)

/-- R193. -/
def execPack (f : Fields) (s : State) : Host.Outcome State Fault Refusal :=
  issueD (.pack f) f (fun t => packVal f.t (f.fn == 1) (t.oldD f) (t.opA f) (t.opB f)) s

/-- R194. -/
def unpackVal (t : Ty) (fn : Nat) (a : Word) : Word :=
  match t with
  | .bf16l => toF32 0 (numBf16 (lowHalf a))
  | .bf16h => toF32 0 (numBf16 (highHalf a))
  | .i8 => (a.extractLsb' (8 * fn) 8).signExtend 32
  | .n8 => (a.extractLsb' (8 * fn) 8).setWidth 32
  | .i16 => (a.extractLsb' (16 * fn) 16).signExtend 32
  | _ => (a.extractLsb' (16 * fn) 16).setWidth 32

/-- R194. -/
def execUnpack (f : Fields) (s : State) : Host.Outcome State Fault Refusal :=
  issueD (.unpack f) f (fun t => unpackVal f.t f.fn.toNat (t.opA f)) s

/-- R195. -/
def execExt (f : Fields) (s : State) : Host.Outcome State Fault Refusal :=
  issueD (.ext f) f (fun t => extendLow f.t (t.opA f) (min (t.opB f).toNat 32)) s

end Sys2Proof.Machine
end

