-- ==== Sys2Proof/Machine/HostIf.lean ====
section
/-!
DEFINITION. What the host does to the module: writes and AtomicOps through BAR2 (R38, R262, R404), the registers of BAR0
(R371, R372, R403-R405), and the mailbox (R407, R423, R427, R434).
-/
namespace Sys2Proof.Machine

/-! ## BAR2 -/

/-- Whether a host link is up (R425). -/
def State.linkUp (s : State) (link : Bool) : Bool := if link then s.ready.pl1 else s.ready.pl0

/-- The size of BAR2 (R404). -/
def State.bar2Size (s : State) : Nat := 2 ^ s.fw.bar2

/-- Whether a run of physical bytes is memory of R243 that is ready: reserved ranges, and stacks and channels that are not ready,
complete with Unsupported Request (R404, R425). -/
def State.hostReaches (s : State) (phys len : Nat) : Bool :=
  (physKeys phys len).all fun p => (isDeviceMemory p || isHostMemory p) && s.unitReady p

/-- A request of the host completes: with its status, with what it returns, and whether that is marked as poisoned (R262, R404,
R418). -/
def State.completeHost (s : State) (e : HostEnd) (data : Option (List Byte)) (poison : Bool) : State :=
  { s with fw := { s.fw with hostEnd := e, hostData := data, hostPoison := poison } }

/-- R38: a write of a link to memory, one commit event of that link's host domain.  A write that the module does
not serve completes with Unsupported Request and changes no memory (R404, R425). -/
def execHostWrite (link : Bool) (off : Nat) (bytes : List Byte) (s : State) : Host.Outcome State Fault Refusal :=
  let phys := s.fw.wbase.toNat + off
  if !s.linkUp link || decide (s.bar2Size < off + bytes.length) then .refused .notEnabled
  else if s.ready.safe || !s.hostReaches phys bytes.length then .next (s.completeHost .unsupported none false)
  else .next ((s.writePhys phys bytes).completeHost .success none false)

/-- The host reads through BAR2 (R38, R404): a reserved range, or one that is not ready, completes with Unsupported Request;
a prepared cell is waited for (R258); the bytes of a poisoned line are open and marked (R418). -/
def hostRead (link : Bool) (off len : Nat) (s : State) : Host.Outcome State Fault Refusal :=
  let phys := s.fw.wbase.toNat + off
  if !s.linkUp link || decide (s.bar2Size < off + len) then .refused .notEnabled
  else if s.ready.safe || !s.hostReaches phys len then
    .next (s.completeHost .unsupported none false)
  else
    let keys := physKeys phys len
    if keys.any s.prepared then .refused .notEnabled
    else
      let data := keys.map fun k => if s.poisoned [k] then (s.word (2 ^ 72 + k)).setWidth 8 else s.readByte k
      .next (s.completeHost .success (some data) (s.poisoned keys))

/-- The host resizes BAR2, from 256 MiB to 8 TiB (R404). -/
def resizeBar (log2 : Nat) (s : State) : Host.Outcome State Fault Refusal :=
  if (!s.ready.pl0 && !s.ready.pl1) || decide (log2 < 28) || decide (43 < log2) then .refused .notEnabled
  else .next { s with fw := { s.fw with bar2 := log2 } }

/-- Whether a physical address lies on a SYSTEM page of some address space. -/
def State.onSystemPage (s : State) (phys : Nat) : Bool :=
  s.mapped.any fun l => l.place == 2 && decide (l.frame ≤ phys) && decide (phys < l.frame + 2 ^ pageBits l.size)

/-- R262: an AtomicOp of the host on a SYSTEM page, which returns the value that it found; on any other page it completes with
Completer Abort and memory stays.  One that the module does not serve completes as a read of the place does (R404, log entry
57). -/
def execHostAtomicop (link : Bool) (off : Nat) (op : AtomicOp) (x y : Word) (s : State) :
    Host.Outcome State Fault Refusal :=
  let phys := s.fw.wbase.toNat + off
  if !s.linkUp link || decide (s.bar2Size < off + 4) then .refused .notEnabled
  else if s.ready.safe || !s.hostReaches phys 4 || phys % 4 != 0 then .next (s.completeHost .unsupported none false)
  else if !s.onSystemPage phys then .next (s.completeHost .aborted none false)
  else if (physKeys phys 4).any s.prepared then .refused .notEnabled
  else
    let old : Word := BitVec.ofNat 32 (s.readPhys phys 4)
    let fn := match op with | .fetchAdd => 0 | .swap => 1 | .cas => 2
    .next ((s.writePhys phys (bytesOf 4 (atomicResult fn old x y).toNat)).completeHost .success (some (bytesOf 4 old.toNat)) false)

/-! ## Registers of BAR0 (R405) -/

/-- Whether the host reaches the registers: by a link that is up, or in the safe state, whose registers answer (R427). -/
def Ready.reached (r : Ready) : Bool := r.pl0 || r.pl1 || r.safe

/-- A register write of the host: a link carries it; in the safe state it has no effect (R427). -/
def State.register (s : State) (upd : State → State) : Host.Outcome State Fault Refusal :=
  if !s.ready.reached then .refused .notEnabled
  else if s.ready.safe then .next s
  else .next (upd s)

/-- OPEN takes a value; going from 0 to 1 it resets the running hash (R372, R385). -/
def Queue.setOpen (k : Queue) (o : Bool) : Queue :=
  { k with opened := o, hash := if o && !k.opened then List.replicate 48 0 else k.hash }

/-- Whether every record taken from the queue has retired and OPEN is 0 (R372). -/
def Queue.drained (k : Queue) : Bool := !k.opened && k.next == k.head

/-- A write of bits [127:64] of a descriptor (R371, R372). -/
def Queue.configure (k : Queue) (w : DWord) : Queue :=
  let k' := if k.drained then
      { k with base := (w.extractLsb' 12 52).toNat / 128 * 128, log2n := (w.extractLsb' 8 4).toNat, dev := w.getLsbD 6,
               checked := none }
    else k
  k'.setOpen (w.getLsbD 7)

/-- R371, R405. -/
def execQueueTailWrite (q : BitVec 6) (tail : Word) (s : State) : Host.Outcome State Fault Refusal :=
  s.register fun s => s.modQueue q.toNat fun k => { k with tail := tail }

/-- R372. -/
def execQueueOpenSet (q : BitVec 6) (s : State) : Host.Outcome State Fault Refusal :=
  s.register fun s => s.modQueue q.toNat fun k => k.setOpen true

/-- R372. -/
def execQueueOpenClear (q : BitVec 6) (s : State) : Host.Outcome State Fault Refusal :=
  s.register fun s => s.modQueue q.toNat fun k => k.setOpen false

/-- R372, R405: a write of BASE, LOG2N, OPEN and DEV. -/
def execQueueConfigWrite (q : BitVec 6) (w : DWord) (s : State) : Host.Outcome State Fault Refusal :=
  s.register fun s => s.modQueue q.toNat fun k => k.configure w

/-- The bits of WBASE (R405). -/
def State.setWbase (s : State) (w : DWord) : State := { s with fw := { s.fw with wbase := w &&& 0xFFFFFF0000000 } }
def State.setIrqen (s : State) (w : DWord) : State := { s with fw := { s.fw with irqen := w } }

/-- R404. -/
def execWbaseWrite (w : DWord) (s : State) : Host.Outcome State Fault Refusal := s.register fun s => s.setWbase w

/-- R403. -/
def execIrqenWrite (w : DWord) (s : State) : Host.Outcome State Fault Refusal := s.register fun s => s.setIrqen w

/-! ### What registers read as (R404-R406) -/

/-- The identification word (R406): PART, STEP, FWGEN and SERIAL. -/
def Firmware.identification (f : Firmware) : DWord :=
  (0x1024 : BitVec 16) ++ (0xB1 : Byte) ++ f.gen ++ f.serial

/-- The ready status register (R426); its reserved bits are 0. -/
def Ready.register (r : Ready) : BitVec 128 :=
  BitVec.ofNat 128 (pack [(3, 1, r.sec.toNat), (4, 1, r.pl0.toNat), (5, 1, r.pl1.toNat), (6, 1, r.disp.toNat), (7, 1, r.fw.toNat),
    (16, 8, r.failc.toNat), (31, 1, r.safe.toNat), (38, 16, r.die.toNat), (54, 32, r.hbm.toNat), (86, 24, r.lpd.toNat),
    (110, 18, r.ual.toNat)])

/-- The descriptor register of a queue (R371); its reserved bits are 0. -/
def Queue.register (k : Queue) : BitVec 128 :=
  BitVec.ofNat 128 (pack [(0, 32, k.tail.toNat), (32, 32, k.head.toNat), (70, 1, k.dev.toNat), (71, 1, k.opened.toNat),
    (72, 4, k.log2n), (76, 52, k.base)])

/-- The 64 bits of a 128-bit register at an offset in it. -/
def halfOf (r : BitVec 128) (off : Nat) : DWord := r.extractLsb' (8 * off) 64

/-- An 8-byte word of a buffer of bytes, zero past its end. -/
def wordAt (l : List Byte) (off : Nat) : DWord := BitVec.ofNat 64 (littleEndian ((l.drop off).take 8))

/-- What the 8-byte word of BAR0 at an 8-aligned offset reads as (R404, R405): a register that is not listed reads as 0;
the request buffer, which the spec gives no read, is open (log entry 93). -/
def State.registerWord (s : State) (o : Nat) : DWord :=
  if o = 0 then s.fw.identification
  else if o = 0x10 ∨ o = 0x18 then halfOf s.capability (o - 0x10)
  else if o = 0x20 ∨ o = 0x28 then halfOf s.ready.register (o - 0x20)
  else if o = 0x30 then s.fw.wbase
  else if o = 0x40 then s.fw.irqen
  else if 0x1000 ≤ o ∧ o < 0x1400 then halfOf (s.queueAt ((o - 0x1000) / 16)).register (o % 16)
  else if 0x2000 ≤ o ∧ o < 0x3000 then wordAt (s.queueAt ((o - 0x2000) / 64)).hash (o % 64)
  else if o = 0x4000 then s.fw.mbrsp ++ s.fw.mbreq
  else if o = 0x4008 then s.fw.mbevt.setWidth 64
  else if 0x4100 ≤ o ∧ o < 0x4200 then s.word (2 ^ 73 + o) ++ s.word (2 ^ 73 + o + 4)
  else if 0x4200 ≤ o ∧ o < 0x4300 then wordAt s.fw.rspBuf (o - 0x4200)
  else if 0x4300 ≤ o ∧ o < 0x4400 then s.fw.evtBuf[(o - 0x4300) / 8]?.getD 0
  else if 0x8000 ≤ o ∧ o < 0x8410 then s.fw.vectors[(o - 0x8000) / 8]?.getD 0
  else if o = 0x9000 then s.fw.pba.setWidth 64
  else if o = 0x9008 then (s.fw.pba >>> 64).setWidth 64
  else 0

/-- Whether a register answers in the safe state: the identification word, the ready status and the mailbox (R427). -/
def answersSafe (o : Nat) : Bool :=
  o == 0 || o == 0x20 || o == 0x28 || o == 0x4000 || o == 0x4008 || (decide (0x4100 ≤ o) && decide (o < 0x4400))

/-- The host reads a register: the 8 bytes at an 8-aligned offset, or the upper 4 of such a word.  The identification word
answers from power-on (R406). -/
def registerRead (off : Nat) (s : State) : Host.Outcome State Fault Refusal :=
  let o := off / 8 * 8
  if off % 4 ≠ 0 ∨ 0x10000 ≤ off ∨ (!s.ready.reached && o != 0) = true ∨ (s.ready.safe && !answersSafe o) = true then
    .refused .notEnabled
  else
    let w := s.registerWord o
    let data := if off % 8 = 0 then bytesOf 8 w.toNat else bytesOf 4 (w.toNat / 2 ^ 32)
    .next (s.completeHost .success (some data) false)

/-- A word of the MSI-X table is written; a vector whose mask bit is cleared is no longer pending (R405, log entry 81). -/
def Firmware.writeVector (f : Firmware) (i : Nat) (w : DWord) : Firmware :=
  { f with
    vectors := f.vectors.set i w
    pba := if i % 2 = 1 ∧ w.getLsbD 32 = false then f.pba &&& ~~~BitVec.ofNat 65 (2 ^ (i / 2)) else f.pba }

/-- The firmware sets the module number from the pod configuration, before any launch or partner is known (R402). -/
def moduleNumber (n : BitVec 7) (s : State) : Host.Outcome State Fault Refusal :=
  if s.ready.fw && s.launches.isEmpty && s.fw.pods.isEmpty then .next { s with fw := { s.fw with module := n.toNat } }
  else .refused .notEnabled

/-- Whether a write to the 4 bytes at an offset has an effect: WBASE, IRQEN, TAIL and bits [127:64] of the descriptors, MBREQ, the
request buffer and the MSI-X table (R405). -/
def writable (off : Nat) : Bool :=
  let within (lo hi : Nat) : Bool := decide (lo ≤ off) && decide (off < hi)
  within 0x30 0x38 || within 0x40 0x48 || (within 0x1000 0x1400 && off % 16 != 4) || within 0x4000 0x4004 ||
    within 0x4100 0x4200 || within 0x8000 0x8410

/-- Whether an offset lies in the request buffer, which takes writes in the safe state too (R407, R427). -/
def inRequest (o : Nat) : Bool := decide (0x4100 ≤ o) && decide (o < 0x4200)

/-- The 8-byte word at an 8-aligned offset as the host has last left it. -/
def State.storedWord (s : State) (o : Nat) : DWord :=
  if inRequest o then s.fw.reqBuf[(o - 0x4100) / 8]?.getD 0 else s.registerWord o

/-- The host writes the 8-byte word at an 8-aligned offset; registers that are read only or not listed ignore it (R404, R405), and all
but the request buffer in the safe state (log entry 67). -/
def State.writeWord (s : State) (o : Nat) (w : DWord) : State :=
  if inRequest o then
    { s with fw := { s.fw with reqBuf := (s.fw.reqBuf ++ List.replicate (32 - s.fw.reqBuf.length) 0).set ((o - 0x4100) / 8) w } }
  else if s.ready.safe then s
  else if o = 0x30 then s.setWbase w
  else if o = 0x40 then s.setIrqen w
  else if 0x1000 ≤ o ∧ o < 0x1400 then
    s.modQueue ((o - 0x1000) / 16) fun k => if o % 16 = 0 then { k with tail := w.setWidth 32 } else k.configure w
  else if 0x8000 ≤ o ∧ o < 0x8410 then { s with fw := s.fw.writeVector ((o - 0x8000) / 8) w }
  else s

/-- The host writes the 4 bytes at a 4-aligned offset: the other half of their word stays as it is (R405, log entry 130). -/
def State.writeHalf (s : State) (o : Nat) (w : Word) : State :=
  let at_ := o / 8 * 8
  let old := s.storedWord at_
  s.writeWord at_ (if o % 8 = 4 then w ++ old.setWidth 32 else old.extractLsb' 32 32 ++ w)

/-- A write of the host to BAR0, carried by a link or to the registers that answer in the safe state (R427).  MBREQ has the events of
the mailbox. -/
def State.hostWrites (s : State) (mbreq : Bool) (s' : State) : Host.Outcome State Fault Refusal :=
  if !s.ready.reached || mbreq then .refused .notEnabled else .next s'

/-- R404, R405: the host writes 8 bytes of BAR0.  8 bytes at an odd multiple of 4 are two writes of 4, and a write at any other
offset is ignored (log entry 130). -/
def execRegisterWrite (off : BitVec 16) (w : DWord) (s : State) : Host.Outcome State Fault Refusal :=
  let o := off.toNat
  s.hostWrites (o == 0x4000 || o == 0x3FFC)
    (if o % 8 = 0 then s.writeWord o w
     else if o % 8 = 4 then (s.writeHalf o (w.setWidth 32)).writeHalf (o + 4) (w.extractLsb' 32 32)
     else s)

/-- R404, R405: the host writes 4 bytes of BAR0. -/
def dwordWrite (off : Nat) (w : Word) (s : State) : Host.Outcome State Fault Refusal :=
  s.hostWrites (off == 0x4000) (if off % 4 = 0 then s.writeHalf off w else s)

/-! ## The mailbox (R407, R434) -/

/-- A request is answered: buffers and registers, then vector 64. -/
def State.respond (s : State) (seq : BitVec 16) (st : Nat) (rsp : List Byte := []) : State :=
  let fw : Firmware := { s.fw with mbrsp := seq ++ BitVec.ofNat 16 st, rspBuf := rsp }
  { s with fw := fw.raise 64 }

/-- The host has filled the request buffer and written MBREQ. -/
def State.mbRequest (s : State) (seq cmd : BitVec 16) (w0 w1 : DWord) : State :=
  { s with fw := { s.fw with mbreq := seq ++ cmd, reqBuf := [w0, w1] ++ s.fw.reqBuf.drop 2 } }

/-- A command of the mailbox: a request is refused while an earlier one is unanswered, and in the safe state but for
commands 0x0010 and 0x0011 (R407).  `act` answers the request. -/
def mailbox (seq cmd : BitVec 16) (w0 w1 : DWord) (inSafe : Bool) (act : State → State) (s : State) :
    Host.Outcome State Fault Refusal :=
  if !s.ready.reached || (!s.ready.fw && !s.ready.safe) then .refused .notEnabled
  else
    let s := s.mbRequest seq cmd w0 w1
    if s.fw.test.isSome || (s.ready.safe && !inSafe) then .next (s.respond seq 3) else .next (act s)

/-- Whether a word holds a value of `n` bits (R434). -/
def fitsIn (w : DWord) (n : Nat) : Bool := decide (w.toNat < 2 ^ n)

/-- A launch that the host aborts after it has been taken (R372). -/
def State.abortLaunch (s : State) (lid : Nat) : State :=
  let gs := (s.groups.filter fun p => p.2.launch == lid).map (·.1)
  let s := (gs.foldl State.removeGroup s).clearResv lid
  let kept := s.cores.map fun (p : Nat × Core) => (p.1, { p.2 with deque := p.2.deque.filter fun w => w.launch != lid })
  let dieQ := s.dieQ.map fun (p : Nat × List Waiting) => (p.1, p.2.filter fun w => w.launch != lid)
  let spill := s.spill.map fun (p : Nat × List Spawn) => (p.1, p.2.filter fun w => w.launch != lid)
  { s with
    cores := kept.filter fun p => p.2 != ({} : Core)
    dieQ := dieQ.filter fun p => !p.2.isEmpty
    spill := spill.filter fun p => !p.2.isEmpty }.modLaunch lid fun l => { l with status := 3, reason := 0, gang := .idle }

/-- R372, R407: command 0x0001. -/
def execMbAbortLaunch (seq : BitVec 16) (w0 w1 : DWord) (s : State) : Host.Outcome State Fault Refusal :=
  mailbox seq 1 w0 w1 false (fun s =>
    let q := w0.toNat
    let n : Word := w1.setWidth 32
    let k := s.queueAt q
    if 63 < q || !fitsIn w1 32 || decide ((k.tail - k.head).toNat ≤ (n - k.head).toNat) then s.respond seq 2
    else
      let s := match s.launchAt q n with
        | some (lid, _) => s.abortLaunch lid
        | none => s.modQueue q fun k => { k with aborted := if k.aborted.contains n then k.aborted else k.aborted ++ [n] }
      s.respond seq 0) s

/-- The group that a frame holds under DBG (R389). -/
def State.heldBy (s : State) (addr : Nat) : Option HeldFrame := s.fw.held.find? fun h => h.addr = addr

/-- R42, R407: command 0x0002: the group goes on, and leaves where its last thread has exited (R14); one that waits at a `.pod` step whose
partner is unreachable traps again (R381). -/
def execMbResumeGroup (seq : BitVec 16) (w0 : DWord) (s : State) : Host.Outcome State Fault Refusal :=
  mailbox seq 2 w0 0 false (fun s =>
    match s.heldBy w0.toNat with
    | none => s.respond seq 2
    | some h =>
      let s := { s with fw := { s.fw with held := s.fw.held.filter fun k => k.addr != h.addr } }
      ((((s.modGroup h.grp fun x => { x with st := .running }).takeUpAll h.grp).podCheck h.grp).leave h.grp).respond seq 0) s

/-- R42, R407: command 0x0003: the group is aborted. -/
def execMbAbortGroup (seq : BitVec 16) (w0 : DWord) (s : State) : Host.Outcome State Fault Refusal :=
  mailbox seq 3 w0 0 false (fun s =>
    match s.heldBy w0.toNat with
    | none => s.respond seq 2
    | some h => (s.abortGroup h.grp h.cause).respond seq 0) s

/-- The launch that an identifier names. -/
def State.launchNamed (s : State) (id : Word) : Option (Nat × Launch) :=
  (s.launches.filter fun p => p.2.ident == id && p.2.begun).head?

/-- R386, R407: command 0x0004; a trapped group is never chosen (R387). -/
def execMbPreemptGroup (seq : BitVec 16) (w0 w1 : DWord) (s : State) : Host.Outcome State Fault Refusal :=
  mailbox seq 4 w0 w1 false (fun s =>
    match s.launchNamed (w0.setWidth 32) with
    | none => s.respond seq 2
    | some (lid, _) =>
      match (s.groups.filter fun p => p.2.launch == lid && p.2.grp == w1.toNat).head? with
      | none => s.respond seq 2
      | some (g, x) =>
        if !fitsIn w0 32 || !fitsIn w1 30 then s.respond seq 2
        else match x.st with
          | .trapped _ => s.respond seq 3
          | _ => (s.preemptGroup g).respond seq 0) s

/-- R257, R407: command 0x0005. -/
def execMbEnlargeOverflow (seq : BitVec 16) (w0 w1 : DWord) (s : State) : Host.Outcome State Fault Refusal :=
  mailbox seq 5 w0 w1 false (fun s =>
    match s.launchNamed (w0.setWidth 32) with
    | none => s.respond seq 2
    | some (lid, l) =>
      if !fitsIn w0 32 || !fitsIn w1 32 || decide (w1.toNat ≤ l.ovsz) then s.respond seq 2
      else (s.modLaunch lid fun l => { l with ovsz := w1.toNat }).respond seq 0) s

/-- The bytes of an image or package: a run of physical memory, in a host range where the device is in the safe state
(R434). -/
def State.imageBytes (s : State) (addr len : Nat) : Option (List Byte) :=
  let last := addr + len - 1
  if len != 0 && (isHostMemory addr && isHostMemory last ||
      !s.ready.safe && isDeviceMemory addr && isDeviceMemory last && s.hostReaches addr len) then
    some (s.readBytes (physKeys addr len))
  else none

/-- The procedure of R425 starts again from stage 3, also where stage 1 had failed: what the later stages made ready is not ready
until they have run again, and the firmware holds no page tables (R425, R427, log entry 34). -/
def State.restart (s : State) : State :=
  { s with ready := { s.ready with safe := false, fw := false, disp := false, pl1 := false, die := 0, hbm := 0, lpd := 0,
                                   ual := 0, again := true, failed := s.ready.failed.filter (· == .pl0) }
           fw := { s.fw with roots := [], absent := [], zeroed := [] } }

/-- Whether the read of an image or package waits for a prepared cell (R258). -/
def State.imageHeld (s : State) (addr len : Nat) : Bool :=
  (s.imageBytes addr len).isSome && (physKeys addr len).any s.prepared

/-- R407, R427: command 0x0010: the image is verified; in the safe state the procedure starts again from stage 3. -/
def execMbLoadFirmware (seq : BitVec 16) (w0 w1 : DWord) (s : State) : Host.Outcome State Fault Refusal :=
  if s.fw.test.isNone && s.imageHeld w0.toNat w1.toNat then .refused .notEnabled
  else mailbox seq 0x10 w0 w1 true (fun s =>
    match s.imageBytes w0.toNat w1.toNat with
    | none => s.respond seq 2
    | some b =>
      if !Config.signedImage b then s.respond seq 3
      else if s.ready.safe then s.restart.respond seq 0
      else s.respond seq 0) s

/-! ### In-field test (R423, R424) -/

/-- The quads that a package tests, in die order and then quad order. -/
def packageQuads (h : Nat) : List Nat :=
  (List.range 16).flatMap fun d =>
    if h / 2 ^ (48 + d) % 2 = 1 then ((List.range 16).filter fun q => h / 2 ^ (64 + q) % 2 = 1).map (16 * d + ·) else []

/-- Whether a package is accepted: signature, magic value, version, reserved field and length (R423). -/
def packageOk (b : List Byte) : Bool :=
  let h := littleEndian (b.take 128)
  h % 2 ^ 32 == 0x54534550 && decide (Config.minVersion ≤ h / 2 ^ 32 % 2 ^ 16) && h / 2 ^ 128 % 2 ^ 128 == 0 &&
    b.length == 128 + h / 2 ^ 96 % 2 ^ 32 && Config.signed (Sha.sha384 (b.drop 128)) (h / 2 ^ 256)

/-- The groups of a quad that is to be tested are saved with KIND 1 (R424); one that is held under DBG keeps the
test waiting, since the mailbox refuses every request until the test is answered (R407, log entry 125). -/
def State.clearQuad (s : State) (quad : Nat) : State :=
  let gs := (s.groups.filter fun p => p.2.resident && quadOf p.2.core == quad).filter fun p => p.2.choosable
  gs.foldl (fun (s : State) (p : Nat × Group) => s.askSave p.1 1) s

/-- The response to command 0x0011: a word for each die (R434). -/
def testResponse (failed : List Nat) : List Byte :=
  (List.range 16).flatMap fun d => bytesOf 4 (((List.range 16).filter fun q => failed.contains (16 * d + q)).map (2 ^ ·)).sum

/-- R407, R423: command 0x0011: the test of the package's quads begins, one after the other; it is answered at its end. -/
def execMbApplyTest (seq : BitVec 16) (w0 w1 : DWord) (s : State) : Host.Outcome State Fault Refusal :=
  if s.fw.test.isNone && s.imageHeld w0.toNat w1.toNat then .refused .notEnabled
  else mailbox seq 0x11 w0 w1 true (fun s =>
    match s.imageBytes w0.toNat w1.toNat with
    | none => s.respond seq 2
    | some b =>
      if b.length < 128 then s.respond seq 2
      else if !packageOk b then s.respond seq 3
      else match packageQuads (littleEndian (b.take 128)) with
        | [] => s.respond seq 0 (testResponse [])
        | q :: rest =>
          ({ s with fw := { s.fw with test := some (seq.setWidth 32, q :: rest, []) } }).clearQuad q) s

/-- R407: a command that is none of the table's. -/
def execMbUnknownCommand (seq cmd : BitVec 16) (s : State) : Host.Outcome State Fault Refusal :=
  if [1, 2, 3, 4, 5, 0x10, 0x11].contains cmd.toNat then .refused .notEnabled
  else mailbox seq cmd 0 0 false (fun s => s.respond seq 1) s

end Sys2Proof.Machine
end

