-- ==== Sys2Proof/Machine/Lanes.lean ====
section
/-!
DEFINITION. The lane-crossing instructions (R196-R209): one whole cohort issues and every active lane samples at once.
-/
namespace Sys2Proof.Machine

/-- The active lanes of a cohort, ascending, each with its thread as sampled. -/
abbrev Lanes := List (Nat × Thread)

/-- The segment width of X (R199). -/
def widthOf (f : Fields) : Nat := 64 / 2 ^ f.x.toNat

/-- The active lanes of the segment of lane `l`. -/
def Lanes.seg (ls : Lanes) (w l : Nat) : Lanes := ls.filter fun p => p.1 / w == l / w

def Lanes.at? (ls : Lanes) (l : Nat) : Option Thread := (ls.find? fun p => p.1 == l).map (·.2)

/-- A lane-crossing instruction: `res` gives the result of an active lane from the segment width and the active lanes of
the cohort; `none` is "nothing" (R197). -/
def issueLanes (i : Instr) (f : Fields) (res : Nat → Lanes → Nat → Thread → Option (Dst × List Word)) (s : State) :
    Host.Outcome State Fault Refusal :=
  issueCohorts i f (fun _ active s =>
    let ls : Lanes := active.map fun p => (p.1.tid % 64, p.2)
    .next (active.foldl (fun s p => match res (widthOf f) ls (p.1.tid % 64) p.2 with
      | some (d, v) => s.defer p.1 d (.sampled v)
      | none => s) s)) s

/-- A result of one register. -/
def word1 (f : Fields) (w : Word) : Option (Dst × List Word) := some (dstOf f.d, [w])

/-- A result of a register pair, such as a lane mask (R199). -/
def word2 (f : Fields) (w : DWord) : Option (Dst × List Word) :=
  some (dstOf f.d 2, [w.setWidth 32, w.extractLsb' 32 32])

def pred1 (f : Fields) (b : Bool) : Option (Dst × List Word) := some (dstPred f.d, [boolWord b])

/-- The mask of a list of lanes. -/
def laneMask (l : List Nat) : DWord := BitVec.ofNat 64 (l.eraseDups.foldl (fun n i => n + 2 ^ i) 0)

/-! ## lshf -/

/-- The source lane of `lshf`, or none (R202). -/
def lshfLane (fn w l n : Nat) : Option Nat :=
  let k := l % w
  let base := l - k
  match fn with
  | 0 => if n < w ∧ n ≤ k then some (l - n) else none
  | 1 => if n < w ∧ k + n < w then some (l + n) else none
  | 2 => some (base + (k ^^^ n % w))
  | _ => some (base + n % w)

/-- R202. -/
def execLshf (f : Fields) (s : State) : Host.Outcome State Fault Refusal :=
  issueLanes (.lshf f) f (fun w ls l t =>
    let src := (lshfLane f.fn.toNat w l (t.opB f).toNat).bind ls.at?
    word1 f ((src.getD t).opA f)) s

/-! ## lred and lscan -/

/-- The exact sum of FP32 values rounded once; the first NaN wins (R203). -/
def sumList (l : List Word) : Word :=
  match l with
  | [] => 0x80000000
  | w :: ws => sumF32 w ws

/-- The identity of an operation (R203). -/
def laneIdentity (op : Nat) (t : Ty) : Word :=
  match op with
  | 1 => if t = .i32 then 0x7FFFFFFF else 0xFFFFFFFF
  | 2 => if t = .i32 then 0x80000000 else 0
  | 3 => 0xFFFFFFFF
  | 6 => 0x80000000
  | 7 => 0x7F800000
  | 8 => 0xFF800000
  | _ => 0

/-- The combination of a list of values in lane order (R203). -/
def laneCombine (op : Nat) (t : Ty) (l : List Word) : Word :=
  match op with
  | 0 => l.foldl (· + ·) 0
  | 1 => l.foldl (fun x w => if ival t w < ival t x then w else x) (laneIdentity 1 t)
  | 2 => l.foldl (fun x w => if ival t x < ival t w then w else x) (laneIdentity 2 t)
  | 3 => l.foldl (· &&& ·) 0xFFFFFFFF
  | 4 => l.foldl (· ||| ·) 0
  | 5 => l.foldl (· ^^^ ·) 0
  | 6 => sumList l
  | 7 => match l with
    | [] => laneIdentity 7 t
    | w :: ws => toF32 0 (ws.foldl (fun x v => x.min (numF32 v)) (numF32 w))
  | _ => match l with
    | [] => laneIdentity 8 t
    | w :: ws => toF32 0 (ws.foldl (fun x v => x.max (numF32 v)) (numF32 w))

/-- The values of `n` lanes from `base` on, inactive ones giving the identity. -/
def laneValues (f : Fields) (op : Nat) (ls : Lanes) (base n : Nat) : List Word :=
  (List.range n).map fun i => match ls.at? (base + i) with
    | some t => t.opA f
    | none => laneIdentity op f.t

/-- R203. -/
def execLred (f : Fields) (s : State) : Host.Outcome State Fault Refusal :=
  issueLanes (.lred f) f (fun w ls l _ =>
    let op := f.fn.toNat
    word1 f (laneCombine op f.t (laneValues f op ls (l - l % w) w))) s

/-- R203: FN[3] makes the scan exclusive. -/
def execLscan (f : Fields) (s : State) : Host.Outcome State Fault Refusal :=
  issueLanes (.lscan f) f (fun w ls l _ =>
    let op := f.fn.toNat % 8
    let n := l % w + if f.fn.toNat / 8 % 2 = 1 then 0 else 1
    word1 f (laneCombine op f.t (laneValues f op ls (l - l % w) n))) s

/-! ## lpoll, lbcast and lpeer -/

/-- R204. -/
def execLpoll (f : Fields) (s : State) : Host.Outcome State Fault Refusal :=
  issueLanes (.lpoll f) f (fun w ls l _ =>
    let seg := ls.seg w l
    let yes := seg.filter fun p => p.2.predOf f.a
    match f.fn.toNat with
    | 0 => pred1 f (yes.length == seg.length)
    | 1 => pred1 f (!yes.isEmpty)
    | 2 => pred1 f (yes.isEmpty || yes.length == seg.length)
    | 3 => word2 f (laneMask (yes.map (·.1)))
    | _ => word1 f (BitVec.ofNat 32 yes.length)) s

/-- R205. -/
def execLbcast (f : Fields) (s : State) : Host.Outcome State Fault Refusal :=
  issueLanes (.lbcast f) f (fun w ls l t =>
    match ls.seg w l with
    | [] => word1 f (t.opA f)
    | p :: _ =>
      let j := if f.fn = 1 then p.1 else l - l % w + (p.2.opB f).toNat % w
      word1 f (((ls.at? j).getD t).opA f)) s

/-- R206. -/
def execLpeer (f : Fields) (s : State) : Host.Outcome State Fault Refusal :=
  issueLanes (.lpeer f) f (fun w ls l t =>
    let same := (ls.seg w l).filter fun p => p.2.opA f == t.opA f
    if f.fn = 0 then word2 f (laneMask (same.map (·.1)))
    else word1 f (BitVec.ofNat 32 (((same.map (·.1)).headD l) % w))) s

/-! ## lisect -/

/-- The present elements of a list: segment index and value (R207). -/
def present (w : Nat) (l : List (Nat × Word)) : List (Nat × Nat) :=
  (l.filter fun p => p.2 != 0xFFFFFFFF).map fun p => (p.1 % w, p.2.toNat)

/-- Matches, and the counts that the window settles: m, ax, ay (R207). -/
def intersect (px py : List (Nat × Nat)) : List (Nat × Nat) × Nat × Nat :=
  if px.isEmpty || py.isEmpty then ([], 0, 0)
  else
    let bnd := min ((px.map (·.2)).foldl max 0) ((py.map (·.2)).foldl max 0)
    (px.flatMap fun x => (py.filter fun y => y.2 == x.2).map fun y => (x.1, y.1),
      (px.filter fun x => x.2 ≤ bnd).length, (py.filter fun y => y.2 ≤ bnd).length)

/-- R207. -/
def execLisect (f : Fields) (s : State) : Host.Outcome State Fault Refusal :=
  issueLanes (.lisect f) f (fun w ls l _ =>
    let seg := ls.seg w l
    let (ms, ax, ay) := intersect (present w (seg.map fun p => (p.1, p.2.opA f)))
      (present w (seg.map fun p => (p.1, p.2.opB f)))
    let lo : Word := match ms[l % w]? with
      | some (i, j) => BitVec.ofNat 32 (j * 2 ^ 8 + i)
      | none => 0xFFFFFFFF
    let hi : Word := BitVec.ofNat 32 (ay * 2 ^ 20 + ax * 2 ^ 13 + ms.length)
    some (dstOf f.d 2, [lo, hi])) s

/-! ## lcomp, lrank and lmask -/

/-- R208. -/
def execLcomp (f : Fields) (s : State) : Host.Outcome State Fault Refusal :=
  issueLanes (.lcomp f) f (fun w ls l _ =>
    match ((ls.seg w l).filter fun p => p.2.predOf f.b)[l % w]? with
    | some p => word1 f (p.2.opA f)
    | none => none) s

/-- The order of keys under T; FP32 has −0 below +0 and NaNs last, by their bits (R208). -/
def rankKey (t : Ty) (w : Word) : Int :=
  if t = .f32 then
    if f32IsNan w then 2 ^ 40 + (w.toNat : Int)
    else if w.msb then -1 - ((w.toNat % 2 ^ 31 : Nat) : Int) else (w.toNat : Int)
  else ival t w

/-- R208. -/
def execLrank (f : Fields) (s : State) : Host.Outcome State Fault Refusal :=
  issueLanes (.lrank f) f (fun w ls l t =>
    let me := rankKey f.t (t.opA f)
    let n := ((ls.seg w l).filter fun p =>
      let k := rankKey f.t (p.2.opA f)
      decide (k < me) || (k == me && decide (p.1 < l))).length
    word1 f (BitVec.ofNat 32 n)) s

/-- R209. -/
def execLmask (f : Fields) (s : State) : Host.Outcome State Fault Refusal :=
  issueLanes (.lmask f) f (fun w ls l _ =>
    let lanes := (List.range w).map (l - l % w + ·)
    match f.fn.toNat with
    | 0 => word2 f (laneMask ((ls.seg w l).map (·.1)))
    | 1 => word2 f (laneMask (lanes.filter (· < l)))
    | _ => word2 f (laneMask (lanes.filter (l < ·)))) s

end Sys2Proof.Machine
end

