-- ==== Sys2Proof/Machine/Reliability.lean ====
section
/-!
DEFINITION. Containment, in-field test and bring-up: errors and poison (R418), lane tests (R422), quad tests (R424), the
stages of the self-test (R425-R427) and the limits of the envelope (R429).
-/
namespace Sys2Proof.Machine

/-! ## Errors (R418) -/

/-- R418: a line is poisoned until it is written whole. -/
def execUncorrectableError (line : Nat) (s : State) : Host.Outcome State Fault Refusal :=
  if 2 ^ 53 ≤ line then .refused .notEnabled
  else .next { s with poison := Table.set 0 s.poison line (BitVec.allOnes 128) }

/-- R418: a corrected error is counted for the firmware. -/
def execCorrectableError (s : State) : Host.Outcome State Fault Refusal :=
  .next { s with fw := { s.fw with corrected := s.fw.corrected + 1 } }

/-! ## The lane test (R422) -/

/-- SKIP and FAIL2 of a lane remap (R127). -/
def skipOf (lremap : Word) : Nat := lremap.toNat % 128
def fail2Of (lremap : Word) : Nat := lremap.toNat / 128 % 128

/-- A lane remap with a lane that has failed: the first is skipped, the second puts the core in degraded mode; `none`
where two lanes have failed already (R127, R129, R422). -/
def remapLane (lremap : Word) (lane : Nat) : Option Word :=
  if lremap.getLsbD 31 then none
  else if skipOf lremap = 64 then some ((lremap &&& 0xFFFFFF80) ||| BitVec.ofNat 32 lane)
  else some ((lremap &&& 0xFFFFC07F) ||| BitVec.ofNat 32 (lane * 128) ||| 0x80000000)

/-- A core whose test found a failed lane. -/
def Core.failLane (k : Core) (lane : Nat) : Core :=
  match remapLane k.lremap lane with
  | some w => { k with lremap := w }
  | none => { k with out := true }

/-- The groups that a test holds go on: those that the hold alone stopped at a boundary are released. -/
def State.releaseHeld (s : State) (g : Nat) : State :=
  let s := s.modGroup g fun x => { x with testHold := false }
  match s.group? g with
  | none => s
  | some x =>
    if x.save.isSome then s.trySave g
    else
      (List.range x.doms.length).foldl (fun s d =>
        if (x.dom d).phase = .stopped then (s.releaseThreads g d).afterBoundary g else s) s

/-- R422: the test of a core ends, its groups standing still: a lane that fails, or the array, kills them.  The spare lane 64
may fail while none is skipped.  A `balloc` that waits for the failed array issues again, and faults with cause 6. -/
def execLaneTestComplete (core : Nat) (lane : Option Nat) (array : Bool) (s : State) : Host.Outcome State Fault Refusal :=
  let k := s.core core
  let rs := s.residents core
  let known (l : Nat) : Bool := l < 65 && (l != skipOf k.lremap || l == 64) && !(k.degraded && l == fail2Of k.lremap)
  if !k.testing || !rs.all (fun p => p.2.still) || !lane.all known then .refused .notEnabled
  else
    let s := s.modCore core fun k => { k with testing := false }
    if lane.isNone && !array then
      .next (rs.foldl (fun (s : State) (p : Nat × Group) => s.releaseHeld p.1)
        { s with fw := { s.fw with corrected := s.fw.corrected + 1 } })
    else
      let s := s.killAll (rs.map (·.1))
      let s := if array then { s with ballocs := s.ballocs.filter fun e => e.core != core } else s
      .next (s.modCore core fun k =>
        let k := match lane with | some l => k.failLane l | none => k
        { k with arrayOut := k.arrayOut || array, flaws := match lane with | some l => k.flaws.filter (·.1 != l) | none => k.flaws })

/-! ## The in-field test (R424) -/

/-- R424: the scan of the quad under test ends; the next quad follows, or the response. -/
def execQuadTestComplete (pass : Bool) (s : State) : Host.Outcome State Fault Refusal :=
  match s.fw.test with
  | some (seq, q :: rest, failed) =>
    if s.groups.any (fun p => p.2.resident && quadOf p.2.core == q) then .refused .notEnabled
    else
      let failed := if pass then failed else failed ++ [q]
      let s := if pass then s else s.modQuad q fun k => { k with out := true }
      match rest with
      | [] => .next ({ s with fw := { s.fw with test := none } }.respond (seq.setWidth 16) 0 (testResponse failed))
      | p :: _ => .next ({ s with fw := { s.fw with test := some (seq, rest, failed) } }.clearQuad p)
  | _ => .refused .notEnabled

/-! ## Bring-up (R425-R427) -/

/-- R425: power-on starts the self-test with nothing ready and nothing held. -/
def execPowerOnReset (s : State) : Host.Outcome State Fault Refusal :=
  .next { State.reset with free := s.free, fresh := s.fresh, agenda := s.agenda }

/-- R427: the 48 V input is removed, which ends every state. -/
def execPowerRemoval (s : State) : Host.Outcome State Fault Refusal :=
  .next { State.reset with free := s.free, fresh := s.fresh, agenda := s.agenda }

/-- The engines are held off and what they hold is lost; memory and the host's registers stay (R427, R429). -/
def State.enterSafe (s : State) (failc : Byte) : State :=
  let cores := s.cores.map fun (p : Nat × Core) =>
    (p.1, ({ lremap := p.2.lremap, cycle := p.2.cycle, out := p.2.out, arrayOut := p.2.arrayOut, flaws := p.2.flaws } : Core))
  let quads := s.quads.map fun (p : Nat × Quad) => (p.1, ({ out := p.2.out } : Quad))
  { s with
    ready := { s.ready with safe := true, fw := false, failc := failc, failAt := none }
    fw := { s.fw with gen := 0, held := [], test := none, pods := [] }
    launches := [], groups := [], dieQ := [], spill := [], savedQ := []
    cores := cores.filter fun p => p.2 != ({} : Core)
    quads := quads.filter fun p => p.2 != ({} : Quad)
    queues := s.queues.map fun k => { k with next := k.head, checked := none, wait := [] }
    copies := [], sops := [], tiles := [], basins := [], ballocs := [], recs := [], taskQ := [], taskWait := []
    arrays := [], images := [], remotes := [], colls := [], misses := [], stale := [], packets := []
    issue := {} }

/-- The code of a stage (R425). -/
def stageCode : BringUp → Byte
  | .sec => 0x01
  | .pl0 => 0x02
  | .fw => 0x03
  | .pl1 | .disp => 0x10
  | .die _ => 0x20
  | .hbm _ | .lpd _ => 0x30
  | .ual _ => 0x40

/-- Whether a part's self-test can end now: its bits are not set, and the part exists (R425).  A procedure that has been started
again from stage 3 does not run stage 1 (R427). -/
def Ready.untested (r : Ready) : BringUp → Bool
  | .sec => !r.sec && !r.again
  | .pl0 => !r.pl0
  | .fw => !r.fw && (r.sec || r.again)
  | .pl1 => !r.pl1
  | .disp => !r.disp
  | .die n => !r.die.getLsbD n.toNat
  | .hbm n => !r.hbm.getLsbD n.toNat
  | .lpd n => n.toNat < 24 && !r.lpd.getLsbD n.toNat
  | .ual n => n.toNat < 18 && !r.ual.getLsbD n.toNat

/-- Whether a part is still to be tested: one that has failed in this procedure is not tested again, and its bits stay 0 (R427). -/
def Ready.awaits (r : Ready) (part : BringUp) : Bool := r.untested part && !r.failed.contains part

/-- The bits of a part that has passed (R426). -/
def Ready.pass (r : Ready) : BringUp → Ready
  | .sec => { r with sec := true }
  | .pl0 => { r with pl0 := true }
  | .fw => { r with fw := true }
  | .pl1 => { r with pl1 := true }
  | .disp => { r with disp := true }
  | .die n => { r with die := r.die ||| BitVec.ofNat 16 (2 ^ n.toNat) }
  | .hbm n => { r with hbm := r.hbm ||| BitVec.ofNat 32 (2 ^ n.toNat) }
  | .lpd n => { r with lpd := r.lpd ||| BitVec.ofNat 24 (2 ^ n.toNat) }
  | .ual n => { r with ual := r.ual ||| BitVec.ofNat 18 (2 ^ n.toNat) }

/-- A part has failed, which FAILC notes: the first in time, of failures in one cycle that of the lowest code (R426, R427). -/
def State.noteFailure (s : State) (part : BringUp) : State :=
  let r := s.ready
  let code := stageCode part
  { s with ready := { r with
      failed := part :: r.failed
      failc := if r.failc = 0 ∨ (r.failAt = some s.clk ∧ code < r.failc) then code else r.failc
      failAt := if r.failc = 0 then some s.clk else r.failAt } }

/-- The firmware generation of the spec (R1, R406). -/
def generation : Byte := 4

/-- R425-R427: a stage passes and its function is ready, or it fails: stages 1 and 3 put the device in the safe state, any
other is noted in FAILC.  In the safe state the procedure stands, but for stage 2, whose configuration space answers there.  A
port that comes up takes its share of the traffic (R402). -/
def execBringUpStageComplete (part : BringUp) (pass : Bool) (s : State) : Host.Outcome State Fault Refusal :=
  if (s.ready.safe && part != .pl0) || !s.ready.awaits part then .refused .notEnabled
  else if pass then
    let s := { s with ready := s.ready.pass part }.reroute
    .next (if part = .fw then { s with fw := { s.fw with gen := generation } } else s)
  else match part with
    | .sec | .fw => .next (s.enterSafe (stageCode part))
    | _ => .next (s.noteFailure part)

/-! ## The envelope (R429) -/

/-- R429: at 110 °C the module enters the safe state. -/
def execThermalTrip (s : State) : Host.Outcome State Fault Refusal := .next (s.enterSafe 0xE0)

/-- R429: hardware removes issue and array cycles; no result changes. -/
def execPowerCap (s : State) : Host.Outcome State Fault Refusal := .next { s with fw := { s.fw with cap := true } }

/-- R429: the firmware removes cycles, from 95 °C on. -/
def execThermalThrottle (s : State) : Host.Outcome State Fault Refusal :=
  if s.ready.fw then .next { s with fw := { s.fw with throttle := true } } else .refused .notEnabled

end Sys2Proof.Machine
end

