-- ==== Sys2Proof/Machine/Trans.lean ====
section
/-!
DEFINITION. Division, square root and the approximate functions (R56, R190).  The spec bounds the error of the
approximate functions and fixes their special values; which result within the bound is an open function of the operand
(`Config.approx`).  Exact results are formed to 400 binary places, far past every bound.
-/
namespace Sys2Proof.Machine

/-! ## Division and square root -/

/-- A quotient to 80 bits at least, as a rounded-down significand, its exponent, and whether more lies below. -/
def quotient (m1 : Nat) (e1 : Int) (m2 : Nat) (e2 : Int) (bits : Nat) : Nat × Int × Bool :=
  let n := m1 * 2 ^ bits
  (n / m2, e1 - e2 - bits, n % m2 != 0)

/-- a / b, correctly rounded (R56). -/
def fdivVal (m : Nat) (a b : Word) : Word :=
  match numF32 a, numF32 b with
  | .nan w, _ => w
  | _, .nan w => w
  | .inf _, .inf _ => defaultNan
  | .inf x, .fin y _ _ => toF32 0 (.inf (x != y))
  | .fin x _ _, .inf y => toF32 0 (.fin (x != y) 0 0)
  | .fin x m1 e1, .fin y m2 e2 =>
    if m2 = 0 then if m1 = 0 then defaultNan else toF32 0 (.inf (x != y))
    else
      let (q, e, sticky) := quotient m1 e1 m2 e2 80
      BitVec.ofNat 32 (fmtF32.roundFin m (x != y) q e sticky)

/-- The integer square root, bit by bit from bit `n` down. -/
def sqrtBits (x : Nat) : Nat → Nat → Nat
  | 0, r => r
  | n + 1, r => sqrtBits x n (if (r + 2 ^ n) * (r + 2 ^ n) ≤ x then r + 2 ^ n else r)

/-- The square root of m × 2^e to `bits` more bits than `m` has: significand, exponent and what lies below. -/
def root (m : Nat) (e : Int) (bits : Nat) : Nat × Int × Bool :=
  let odd := (e.emod 2).toNat
  let n := m * 2 ^ odd * 2 ^ (2 * bits)
  let r := sqrtBits n (bits + 16) 0
  (r, (e - odd) / 2 - bits, r * r != n)

/-- sqrt(a), correctly rounded (R56). -/
def fsqrtVal (m : Nat) (a : Word) : Word :=
  match numF32 a with
  | .nan w => w
  | .inf neg => if neg then defaultNan else toF32 0 (.inf false)
  | .fin neg k e =>
    if k = 0 then toF32 0 (.fin neg 0 0)
    else if neg then defaultNan
    else
      let (r, e', sticky) := root k e 40
      BitVec.ofNat 32 (fmtF32.roundFin m false r e' sticky)

/-! ## Choosing a result within a bound -/

/-- |a − b| of two finite values, times 2^(−e) for a common e; the e too. -/
def distance (n1 : Bool) (m1 : Nat) (e1 : Int) (n2 : Bool) (m2 : Nat) (e2 : Int) : Nat × Int :=
  let e := min e1 e2
  ((signed n1 (m1 * 2 ^ (e1 - e).toNat) - signed n2 (m2 * 2 ^ (e2 - e).toNat)).natAbs, e)

/-- Whether m1 × 2^e1 ≤ m2 × 2^e2. -/
def magLe (m1 : Nat) (e1 : Int) (m2 : Nat) (e2 : Int) : Bool :=
  let e := min e1 e2
  decide (m1 * 2 ^ (e1 - e).toNat ≤ m2 * 2 ^ (e2 - e).toNat)

/-- The exponent of an ulp at an exact result (R56). -/
def ulpExp (m : Nat) (e : Int) : Int := if m = 0 then -149 else max (floorLog2' m e - 23) (-149)
where
  floorLog2' (m : Nat) (e : Int) : Int := (Nat.log2 m : Int) + e

/-- The result of an approximate function: the open choice where it lies within `k` × 2^`x` of the exact result, else
the nearest value. -/
def chosen (op : Nat) (a : Word) (neg : Bool) (m : Nat) (e : Int) (k : Nat) (x : Int) : Word :=
  let w := Config.approx op a
  match numF32 w with
  | .fin n' m' e' =>
    let d := distance neg m e n' m' e'
    if magLe d.1 d.2 k x then w else toF32 0 (.fin neg m e)
  | _ => toF32 0 (.fin neg m e)

/-- A result within `k` ulp. -/
def chosenUlp (op : Nat) (a : Word) (neg : Bool) (m : Nat) (e : Int) (k : Nat) : Word :=
  chosen op a neg m e k (ulpExp m e)

/-! ## Fixed point with 400 binary places -/

def fxBits : Nat := 400
def fxOne : Nat := 2 ^ fxBits
def fxMul (a b : Nat) : Nat := a * b / fxOne

/-- ln 2, log2 e and pi. -/
def fxLn2 : Nat := 1789879222497203190815761498240779176894896805856420935579692301363062920687047601279850318367644315849030039181347319086
def fxLog2e : Nat := 3725399093452113361508878261685348397064333121840474113669779251110053462896811095071531244706817557295705407090210624802
def fxPi : Nat := 8112377246730971238862271351300894519161151600179265203591191037615230905373990498745523360926816815427566779727327576236

/-- A finite magnitude in fixed point; every FP32 value is exact in it. -/
def fxOf (m : Nat) (e : Int) : Nat := if 0 ≤ e then m * 2 ^ (e.toNat + fxBits) else m * 2 ^ (fxBits - (-e).toNat)

/-- The sum of t^n / n!, from the term for n on. -/
def expTerms (t : Nat) : Nat → Nat → Nat → Nat
  | 0, _, _ => 0
  | fuel + 1, n, term => term + expTerms t fuel (n + 1) (fxMul term t / (n + 1))

/-- 2^f for a fraction f, in fixed point. -/
def fxExp2 (f : Nat) : Nat := expTerms (fxMul f fxLn2) 90 0 fxOne

/-- 2^a (R56). -/
def fex2Val (a : Word) : Word :=
  match numF32 a with
  | .nan w => w
  | .inf neg => if neg then 0 else toF32 0 (.inf false)
  | .fin neg m e =>
    if !neg && magLe 128 0 m e then toF32 0 (.inf false)
    else if neg && magLe 1000 0 m e then chosen 0x41 a false 1 (-1000) 2 (-149)
    else
      let x := fxOf m e
      if !neg then chosenUlp 0x41 a false (fxExp2 (x % fxOne)) ((x / fxOne : Nat) - (fxBits : Int)) 2
      else
        let n := (x + fxOne - 1) / fxOne
        chosenUlp 0x41 a false (fxExp2 (n * fxOne - x)) (-(n : Int) - fxBits) 2

/-- The next bits of log2 of y in [1, 2), by squaring. -/
def log2Bits : Nat → Nat → Nat → Nat
  | 0, _, acc => acc
  | n + 1, y, acc =>
    let z := fxMul y y
    if 2 * fxOne ≤ z then log2Bits n (z / 2) (2 * acc + 1) else log2Bits n z (2 * acc)

/-- log2(a) (R56). -/
def flg2Val (a : Word) : Word :=
  match numF32 a with
  | .nan w => w
  | .inf neg => if neg then defaultNan else toF32 0 (.inf false)
  | .fin neg m e =>
    if m = 0 then toF32 0 (.inf true)
    else if neg then defaultNan
    else
      let k := Nat.log2 m
      let frac := log2Bits 120 (m * 2 ^ (fxBits - k)) 0
      let v : Int := (e + k) * 2 ^ 120 + frac
      let near := magLe 1 (-1) m e && magLe m e 2 0
      if near then chosen 0x42 a (decide (v < 0)) v.natAbs (-120) 1 (-22)
      else chosenUlp 0x42 a (decide (v < 0)) v.natAbs (-120) 2

/-- The alternating sum of t^n / n! over every second n, from the term for n on. -/
def trigTerms (t : Nat) : Nat → Nat → Int → Int
  | 0, _, _ => 0
  | fuel + 1, n, term =>
    term + trigTerms t fuel (n + 2) (-(term * (fxMul t t : Nat) / (fxOne : Nat) / ((n + 1) * (n + 2) : Nat)))

/-- The sine or cosine of a finite value, in fixed point: reduced by 2 pi, then the series. -/
def fxTrig (cos neg : Bool) (m : Nat) (e : Int) : Int :=
  let r := fxOf m e % (2 * fxPi)
  if cos then trigTerms r 40 0 fxOne
  else
    let v := trigTerms r 40 1 r
    if neg then -v else v

/-- sin(a) and cos(a) (R56). -/
def ftrigVal (cos : Bool) (a : Word) : Word :=
  match numF32 a with
  | .nan w => w
  | .inf _ => defaultNan
  | .fin neg m e =>
    if m = 0 ∧ !cos then a
    else
      let v := fxTrig cos neg m e
      chosen (if cos then 0x143 else 0x43) a (decide (v < 0)) v.natAbs (-(fxBits : Int)) 1 (-22)

/-- tanh(a): (1 − q) / (1 + q) with q = e^(−2|a|) (R56). -/
def ftanhVal (a : Word) : Word :=
  match numF32 a with
  | .nan w => w
  | .inf neg => toF32 0 (.fin neg 1 0)
  | .fin neg m e =>
    if m = 0 then a
    else
      let q := if magLe 200 0 m e then 1
        else
          let x := fxMul (2 * fxOf m e) fxLog2e
          let n := (x + fxOne - 1) / fxOne
          max 1 (fxExp2 (n * fxOne - x) / 2 ^ n)
      chosenUlp 0x44 a neg ((fxOne - q) * fxOne / (fxOne + q)) (-(fxBits : Int)) 2

/-- 1 / a (R56). -/
def frcpVal (a : Word) : Word :=
  match numF32 a with
  | .nan w => w
  | .inf neg => toF32 0 (.fin neg 0 0)
  | .fin neg m e =>
    if m = 0 then toF32 0 (.inf neg)
    else chosenUlp 0x3F a neg (fxOne / m) (-e - fxBits) 1

/-- 1 / sqrt(a) (R56). -/
def frsqVal (a : Word) : Word :=
  match numF32 a with
  | .nan w => w
  | .inf neg => if neg then defaultNan else 0
  | .fin neg m e =>
    if m = 0 then toF32 0 (.inf neg)
    else if neg then defaultNan
    else
      let (r, e', _) := root m e 200
      chosenUlp 0x40 a false (fxOne / r) (-e' - fxBits) 1

/-! ## The instructions -/

/-- R190. -/
def execFdiv (f : Fields) (s : State) : Host.Outcome State Fault Refusal :=
  issueSampled (.fdiv f) f 1 (fun t => [fdivVal f.m.toNat (t.opA f) (t.opB f)]) s

/-- R190. -/
def execFsqrt (f : Fields) (s : State) : Host.Outcome State Fault Refusal :=
  issueSampled (.fsqrt f) f 1 (fun t => [fsqrtVal f.m.toNat (t.opA f)]) s

/-- R190. -/
def execFrcp (f : Fields) (s : State) : Host.Outcome State Fault Refusal :=
  issueSampled (.frcp f) f 1 (fun t => [frcpVal (t.opA f)]) s

/-- R190. -/
def execFrsq (f : Fields) (s : State) : Host.Outcome State Fault Refusal :=
  issueSampled (.frsq f) f 1 (fun t => [frsqVal (t.opA f)]) s

/-- R190. -/
def execFex2 (f : Fields) (s : State) : Host.Outcome State Fault Refusal :=
  issueSampled (.fex2 f) f 1 (fun t => [fex2Val (t.opA f)]) s

/-- R190. -/
def execFlg2 (f : Fields) (s : State) : Host.Outcome State Fault Refusal :=
  issueSampled (.flg2 f) f 1 (fun t => [flg2Val (t.opA f)]) s

/-- R190. -/
def execFtrig (f : Fields) (s : State) : Host.Outcome State Fault Refusal :=
  issueSampled (.ftrig f) f 1 (fun t => [ftrigVal (f.fn == 1) (t.opA f)]) s

/-- R190. -/
def execFtanh (f : Fields) (s : State) : Host.Outcome State Fault Refusal :=
  issueSampled (.ftanh f) f 1 (fun t => [ftanhVal (t.opA f)]) s

end Sys2Proof.Machine
end

