-- ==== Sys2Proof/Machine/Dispatch.lean ====
section
/-!
DEFINITION. One arm per constructor: each calls its meaning.
-/
namespace Sys2Proof.Machine

def exec (i : Instr) (s : State) : Host.Outcome State Fault Refusal :=
  match i with
  | .nop f => Sys2Proof.Machine.execNop f s
  | .bra f => Sys2Proof.Machine.execBra f s
  | .brx f => Sys2Proof.Machine.execBrx f s
  | .brt f => Sys2Proof.Machine.execBrt f s
  | .call f => Sys2Proof.Machine.execCall f s
  | .callx f => Sys2Proof.Machine.execCallx f s
  | .ret f => Sys2Proof.Machine.execRet f s
  | .join f => Sys2Proof.Machine.execJoin f s
  | .step f => Sys2Proof.Machine.execStep f s
  | .waitv f => Sys2Proof.Machine.execWaitv f s
  | .exit f => Sys2Proof.Machine.execExit f s
  | .trap f => Sys2Proof.Machine.execTrap f s
  | .bkpt f => Sys2Proof.Machine.execBkpt f s
  | .contv f => Sys2Proof.Machine.execContv f s
  | .resume f => Sys2Proof.Machine.execResume f s
  | .svc f => Sys2Proof.Machine.execSvc f s
  | .add f => Sys2Proof.Machine.execAdd f s
  | .sub f => Sys2Proof.Machine.execSub f s
  | .add3 f => Sys2Proof.Machine.execAdd3 f s
  | .mul f => Sys2Proof.Machine.execMul f s
  | .mad f => Sys2Proof.Machine.execMad f s
  | .min f => Sys2Proof.Machine.execMin f s
  | .max f => Sys2Proof.Machine.execMax f s
  | .abs f => Sys2Proof.Machine.execAbs f s
  | .neg f => Sys2Proof.Machine.execNeg f s
  | .addmin f => Sys2Proof.Machine.execAddmin f s
  | .and f => Sys2Proof.Machine.execAnd f s
  | .or f => Sys2Proof.Machine.execOr f s
  | .xor f => Sys2Proof.Machine.execXor f s
  | .not f => Sys2Proof.Machine.execNot f s
  | .bitfn f => Sys2Proof.Machine.execBitfn f s
  | .shl f => Sys2Proof.Machine.execShl f s
  | .shr f => Sys2Proof.Machine.execShr f s
  | .sra f => Sys2Proof.Machine.execSra f s
  | .rot f => Sys2Proof.Machine.execRot f s
  | .fsh f => Sys2Proof.Machine.execFsh f s
  | .bfx f => Sys2Proof.Machine.execBfx f s
  | .bfi f => Sys2Proof.Machine.execBfi f s
  | .clz f => Sys2Proof.Machine.execClz f s
  | .popc f => Sys2Proof.Machine.execPopc f s
  | .brev f => Sys2Proof.Machine.execBrev f s
  | .setp f => Sys2Proof.Machine.execSetp f s
  | .sel f => Sys2Proof.Machine.execSel f s
  | .mov f => Sys2Proof.Machine.execMov f s
  | .lea f => Sys2Proof.Machine.execLea f s
  | .pset f => Sys2Proof.Machine.execPset f s
  | .idiv f => Sys2Proof.Machine.execIdiv f s
  | .irem f => Sys2Proof.Machine.execIrem f s
  | .fadd f => Sys2Proof.Machine.execFadd f s
  | .fsub f => Sys2Proof.Machine.execFsub f s
  | .fmul f => Sys2Proof.Machine.execFmul f s
  | .ffma f => Sys2Proof.Machine.execFfma f s
  | .fmin f => Sys2Proof.Machine.execFmin f s
  | .fmax f => Sys2Proof.Machine.execFmax f s
  | .fsgn f => Sys2Proof.Machine.execFsgn f s
  | .fsetp f => Sys2Proof.Machine.execFsetp f s
  | .faddmin f => Sys2Proof.Machine.execFaddmin f s
  | .fdot2 f => Sys2Proof.Machine.execFdot2 f s
  | .fscale f => Sys2Proof.Machine.execFscale f s
  | .frnd f => Sys2Proof.Machine.execFrnd f s
  | .fclass f => Sys2Proof.Machine.execFclass f s
  | .fdiv f => Sys2Proof.Machine.execFdiv f s
  | .fsqrt f => Sys2Proof.Machine.execFsqrt f s
  | .frcp f => Sys2Proof.Machine.execFrcp f s
  | .frsq f => Sys2Proof.Machine.execFrsq f s
  | .fex2 f => Sys2Proof.Machine.execFex2 f s
  | .flg2 f => Sys2Proof.Machine.execFlg2 f s
  | .ftrig f => Sys2Proof.Machine.execFtrig f s
  | .ftanh f => Sys2Proof.Machine.execFtanh f s
  | .cvt f => Sys2Proof.Machine.execCvt f s
  | .cvti f => Sys2Proof.Machine.execCvti f s
  | .pack f => Sys2Proof.Machine.execPack f s
  | .unpack f => Sys2Proof.Machine.execUnpack f s
  | .ext f => Sys2Proof.Machine.execExt f s
  | .lshf f => Sys2Proof.Machine.execLshf f s
  | .lred f => Sys2Proof.Machine.execLred f s
  | .lscan f => Sys2Proof.Machine.execLscan f s
  | .lpoll f => Sys2Proof.Machine.execLpoll f s
  | .lbcast f => Sys2Proof.Machine.execLbcast f s
  | .lpeer f => Sys2Proof.Machine.execLpeer f s
  | .lisect f => Sys2Proof.Machine.execLisect f s
  | .lcomp f => Sys2Proof.Machine.execLcomp f s
  | .lrank f => Sys2Proof.Machine.execLrank f s
  | .lmask f => Sys2Proof.Machine.execLmask f s
  | .ld f => Sys2Proof.Machine.execLd f s
  | .st f => Sys2Proof.Machine.execSt f s
  | .fwr f => Sys2Proof.Machine.execFwr f s
  | .cwr f => Sys2Proof.Machine.execCwr f s
  | .ldq f => Sys2Proof.Machine.execLdq f s
  | .stq f => Sys2Proof.Machine.execStq f s
  | .ldk f => Sys2Proof.Machine.execLdk f s
  | .sgset f => Sys2Proof.Machine.execSgset f s
  | .sgget f => Sys2Proof.Machine.execSgget f s
  | .pref f => Sys2Proof.Machine.execPref f s
  | .evict f => Sys2Proof.Machine.execEvict f s
  | .satom f => Sys2Proof.Machine.execSatom f s
  | .xlat f => Sys2Proof.Machine.execXlat f s
  | .cpy f => Sys2Proof.Machine.execCpy f s
  | .cpyt f => Sys2Proof.Machine.execCpyt f s
  | .cpym f => Sys2Proof.Machine.execCpym f s
  | .cpyg f => Sys2Proof.Machine.execCpyg f s
  | .lcsetArm f => Sys2Proof.Machine.execLcsetArm f s
  | .lcsetBind f => Sys2Proof.Machine.execLcsetBind f s
  | .lcsetUnbind f => Sys2Proof.Machine.execLcsetUnbind f s
  | .lcget f => Sys2Proof.Machine.execLcget f s
  | .rbindBind f => Sys2Proof.Machine.execRbindBind f s
  | .rbindFree f => Sys2Proof.Machine.execRbindFree f s
  | .racq f => Sys2Proof.Machine.execRacq f s
  | .rrel f => Sys2Proof.Machine.execRrel f s
  | .rput f => Sys2Proof.Machine.execRput f s
  | .send f => Sys2Proof.Machine.execSend f s
  | .rhead f => Sys2Proof.Machine.execRhead f s
  | .talloc f => Sys2Proof.Machine.execTalloc f s
  | .tfree f => Sys2Proof.Machine.execTfree f s
  | .tgive f => Sys2Proof.Machine.execTgive f s
  | .ttake f => Sys2Proof.Machine.execTtake f s
  | .tld f => Sys2Proof.Machine.execTld f s
  | .tst f => Sys2Proof.Machine.execTst f s
  | .tget f => Sys2Proof.Machine.execTget f s
  | .tset f => Sys2Proof.Machine.execTset f s
  | .tqry f => Sys2Proof.Machine.execTqry f s
  | .wld f => Sys2Proof.Machine.execWld f s
  | .mma f => Sys2Proof.Machine.execMma f s
  | .mtaskq f => Sys2Proof.Machine.execMtaskq f s
  | .balloc f => Sys2Proof.Machine.execBalloc f s
  | .bfree f => Sys2Proof.Machine.execBfree f s
  | .binit f => Sys2Proof.Machine.execBinit f s
  | .rslv f => Sys2Proof.Machine.execRslv f s
  | .bcmp f => Sys2Proof.Machine.execBcmp f s
  | .bmov f => Sys2Proof.Machine.execBmov f s
  | .bsave f => Sys2Proof.Machine.execBsave f s
  | .brst f => Sys2Proof.Machine.execBrst f s
  | .bscale f => Sys2Proof.Machine.execBscale f s
  | .tzf f => Sys2Proof.Machine.execTzf f s
  | .sopen f => Sys2Proof.Machine.execSopen f s
  | .sisect f => Sys2Proof.Machine.execSisect f s
  | .nzscan f => Sys2Proof.Machine.execNzscan f s
  | .sgath f => Sys2Proof.Machine.execSgath f s
  | .smerge f => Sys2Proof.Machine.execSmerge f s
  | .scount f => Sys2Proof.Machine.execScount f s
  | .sclose f => Sys2Proof.Machine.execSclose f s
  | .sstat f => Sys2Proof.Machine.execSstat f s
  | .xput f => Sys2Proof.Machine.execXput f s
  | .xget f => Sys2Proof.Machine.execXget f s
  | .xfwr f => Sys2Proof.Machine.execXfwr f s
  | .xallg f => Sys2Proof.Machine.execXallg f s
  | .xred f => Sys2Proof.Machine.execXred f s
  | .xbcst f => Sys2Proof.Machine.execXbcst f s
  | .xqry f => Sys2Proof.Machine.execXqry f s
  | .digest f => Sys2Proof.Machine.execDigest f s
  | .spawn f => Sys2Proof.Machine.execSpawn f s
  | .launch f => Sys2Proof.Machine.execLaunch f s
  | .yield f => Sys2Proof.Machine.execYield f s
  | .role f => Sys2Proof.Machine.execRole f s
  | .prio f => Sys2Proof.Machine.execPrio f s
  | .tmset f => Sys2Proof.Machine.execTmset f s
  | .xacq f => Sys2Proof.Machine.execXacq f s
  | .xrel f => Sys2Proof.Machine.execXrel f s
  | .srget f => Sys2Proof.Machine.execSrget f s
  | .srset f => Sys2Proof.Machine.execSrset f s
  | .stepBoundaryComplete g d => Sys2Proof.Machine.execStepBoundaryComplete g d s
  | .deferredResultReturn g t k => Sys2Proof.Machine.execDeferredResultReturn g t k s
  | .widerStepRelease g => Sys2Proof.Machine.execWiderStepRelease g s
  | .waitvPeriodicEvaluation g t => Sys2Proof.Machine.execWaitvPeriodicEvaluation g t s
  | .racqPeriodicCheck g t => Sys2Proof.Machine.execRacqPeriodicCheck g t s
  | .ttakePeriodicCheck g t => Sys2Proof.Machine.execTtakePeriodicCheck g t s
  | .laneSyncFault g ch => Sys2Proof.Machine.execLaneSyncFault g ch s
  | .xacqGrant core => Sys2Proof.Machine.execXacqGrant core s
  | .tallocGrant quad => Sys2Proof.Machine.execTallocGrant quad s
  | .ballocGrant core => Sys2Proof.Machine.execBallocGrant core s
  | .instructionCacheFill core g hdr => Sys2Proof.Machine.execInstructionCacheFill core g hdr s
  | .laneTestComplete core lane array => Sys2Proof.Machine.execLaneTestComplete core lane array s
  | .atomicopComplete g d err => Sys2Proof.Machine.execAtomicopComplete g d err s
  | .gafferRequest quad => Sys2Proof.Machine.execGafferRequest quad s
  | .gafferTimeout quad => Sys2Proof.Machine.execGafferTimeout quad s
  | .prepareAcknowledge g d k => Sys2Proof.Machine.execPrepareAcknowledge g d k s
  | .faultBufferEntry core => Sys2Proof.Machine.execFaultBufferEntry core s
  | .translationFillComplete core asid page => Sys2Proof.Machine.execTranslationFillComplete core asid page s
  | .fillFailure core asid page => Sys2Proof.Machine.execFillFailure core asid page s
  | .mappingChange asid page root at_ entry => Sys2Proof.Machine.execMappingChange asid page root at_ entry s
  | .migrationStart asid page => Sys2Proof.Machine.execMigrationStart asid page s
  | .migrationComplete asid page entry => Sys2Proof.Machine.execMigrationComplete asid page entry s
  | .pageAllocate frame size => Sys2Proof.Machine.execPageAllocate frame size s
  | .zeroPendingClear line => Sys2Proof.Machine.execZeroPendingClear line s
  | .hostWrite link off bytes => Sys2Proof.Machine.execHostWrite link off bytes s
  | .hostAtomicop link off op x y => Sys2Proof.Machine.execHostAtomicop link off op x y s
  | .queueTailWrite q tail => Sys2Proof.Machine.execQueueTailWrite q tail s
  | .queueOpenSet q => Sys2Proof.Machine.execQueueOpenSet q s
  | .queueOpenClear q => Sys2Proof.Machine.execQueueOpenClear q s
  | .queueConfigWrite q w => Sys2Proof.Machine.execQueueConfigWrite q w s
  | .wbaseWrite w => Sys2Proof.Machine.execWbaseWrite w s
  | .irqenWrite w => Sys2Proof.Machine.execIrqenWrite w s
  | .registerWrite off w => Sys2Proof.Machine.execRegisterWrite off w s
  | .mbAbortLaunch seq w0 w1 => Sys2Proof.Machine.execMbAbortLaunch seq w0 w1 s
  | .mbResumeGroup seq w0 => Sys2Proof.Machine.execMbResumeGroup seq w0 s
  | .mbAbortGroup seq w0 => Sys2Proof.Machine.execMbAbortGroup seq w0 s
  | .mbPreemptGroup seq w0 w1 => Sys2Proof.Machine.execMbPreemptGroup seq w0 w1 s
  | .mbEnlargeOverflow seq w0 w1 => Sys2Proof.Machine.execMbEnlargeOverflow seq w0 w1 s
  | .mbLoadFirmware seq w0 w1 => Sys2Proof.Machine.execMbLoadFirmware seq w0 w1 s
  | .mbApplyTest seq w0 w1 => Sys2Proof.Machine.execMbApplyTest seq w0 w1 s
  | .mbUnknownCommand seq cmd => Sys2Proof.Machine.execMbUnknownCommand seq cmd s
  | .recordTake q => Sys2Proof.Machine.execRecordTake q s
  | .batchHandout l => Sys2Proof.Machine.execBatchHandout l s
  | .groupPlace core => Sys2Proof.Machine.execGroupPlace core s
  | .gangReserve l => Sys2Proof.Machine.execGangReserve l s
  | .coreReadyReply core => Sys2Proof.Machine.execCoreReadyReply core s
  | .gangConfirm l => Sys2Proof.Machine.execGangConfirm l s
  | .gangReservationRelease l => Sys2Proof.Machine.execGangReservationRelease l s
  | .gangReservationTimeout l => Sys2Proof.Machine.execGangReservationTimeout l s
  | .gangBackoffExpiry l => Sys2Proof.Machine.execGangBackoffExpiry l s
  | .podGangReport podg r => Sys2Proof.Machine.execPodGangReport podg r s
  | .podGangTimeout podg => Sys2Proof.Machine.execPodGangTimeout podg s
  | .podModuleUnreachable module => Sys2Proof.Machine.execPodModuleUnreachable module s
  | .launchRetire q => Sys2Proof.Machine.execLaunchRetire q s
  | .preemption die => Sys2Proof.Machine.execPreemption die s
  | .preemptionTimeout g => Sys2Proof.Machine.execPreemptionTimeout g s
  | .eviction core => Sys2Proof.Machine.execEviction core s
  | .vtimeThreshold g t => Sys2Proof.Machine.execVtimeThreshold g t s
  | .lateDelivery g => Sys2Proof.Machine.execLateDelivery g s
  | .packetAgeTick k => Sys2Proof.Machine.execPacketAgeTick k s
  | .copyRequestBegin id => Sys2Proof.Machine.execCopyRequestBegin id s
  | .copyPieceComplete id k => Sys2Proof.Machine.execCopyPieceComplete id k s
  | .ringSlotAssign id => Sys2Proof.Machine.execRingSlotAssign id s
  | .sendArrival id => Sys2Proof.Machine.execSendArrival id s
  | .multicastDelivery id quad => Sys2Proof.Machine.execMulticastDelivery id quad s
  | .streamOperationBegin id => Sys2Proof.Machine.execStreamOperationBegin id s
  | .streamSlotClose id => Sys2Proof.Machine.execStreamSlotClose id s
  | .streamOperationEnd id => Sys2Proof.Machine.execStreamOperationEnd id s
  | .taskQueueEnter quad => Sys2Proof.Machine.execTaskQueueEnter quad s
  | .mtaskqArrayRead id => Sys2Proof.Machine.execMtaskqArrayRead id s
  | .matrixRecordStart core => Sys2Proof.Machine.execMatrixRecordStart core s
  | .matrixRecordComplete core => Sys2Proof.Machine.execMatrixRecordComplete core s
  | .recordWaitTimeout core => Sys2Proof.Machine.execRecordWaitTimeout core s
  | .remoteSettle id err found => Sys2Proof.Machine.execRemoteSettle id err found s
  | .peerAckTimeout id => Sys2Proof.Machine.execPeerAckTimeout id s
  | .collectiveComplete id same contribs => Sys2Proof.Machine.execCollectiveComplete id same contribs s
  | .ualinkPortDown port => Sys2Proof.Machine.execUalinkPortDown port s
  | .quadTestComplete pass => Sys2Proof.Machine.execQuadTestComplete pass s
  | .powerOnReset => Sys2Proof.Machine.execPowerOnReset s
  | .bringUpStageComplete part pass => Sys2Proof.Machine.execBringUpStageComplete part pass s
  | .thermalTrip => Sys2Proof.Machine.execThermalTrip s
  | .powerCap => Sys2Proof.Machine.execPowerCap s
  | .thermalThrottle => Sys2Proof.Machine.execThermalThrottle s
  | .powerRemoval => Sys2Proof.Machine.execPowerRemoval s
  | .peerTransactionArrival op => Sys2Proof.Machine.execPeerTransactionArrival op s
  | .uncorrectableError line => Sys2Proof.Machine.execUncorrectableError line s
  | .correctableError => Sys2Proof.Machine.execCorrectableError s

end Sys2Proof.Machine
end

