-- ==== Sys2Proof/Machine/Schedule.lean ====
section
/-!
DEFINITION. One step of the machine: a core issues what stands at its threads' PCs, a thread falls through, a part fails,
or an event happens; and which of them comes next (log entry 4).
-/
namespace Sys2Proof.Machine

/-- The next state of an outcome, changed. -/
def andThen (o : Host.Outcome State Fault Refusal) (f : State → State) : Host.Outcome State Fault Refusal :=
  match o with
  | .next s => .next (f s)
  | .fault e => .fault e
  | .refused e => .refused e

/-- Whether every live thread of a group is parked, or it is trapped (R125). -/
def State.allParked (s : State) (x : Group) : Bool :=
  x.threads.any Thread.live && match x.st with
    | .running | .flushing _ =>
      (List.range x.threads.length).all fun i => match x.threads[i]? with
        | some t => !t.live || s.threadParked x i t
        | none => true
    | .saved .. => false
    | _ => true

/-- The cycle since which a group has been parked is kept (R125). -/
def State.watch (s : State) (x : Group) : Group :=
  { x with parkedSince := if s.allParked x then some (x.parkedSince.getD s.clk) else none }

/-- Time goes on by an open number of cycles, and the open values of the step are new ones (log entry 1). -/
def State.tick (s : State) : State :=
  { s with clk := s.clk + BitVec.ofNat 64 (Config.stepCycles s.free), free := s.free + 1,
           groups := s.groups.map fun p => (p.1, s.watch p.2) }

/-! ## Issue (R94, R112-R114) -/

/-- After a cycle of a core: groups that wait to be saved and stand at a boundary are saved (R43). -/
def State.endCycle (s : State) (core : Nat) : State :=
  let s := s.modCore core fun k => { k with cycle := k.cycle + 1 }
  (s.groups.filter fun p => p.2.save.isSome).foldl (fun (s : State) (p : Nat × Group) => s.trySave p.1) s

/-- A thread whose position holds no instruction stops (R94); its timer goes before (R390).  A word of a lane-crossing
instruction with such a fault stops the threads that have reached it, and does not wait for their cohort (R96, R196, log entry
104).  `x` and `u` are the group and
the thread as they formed the issue group. -/
def State.stopMember (s : State) (r : TRef) (x : Group) (u : Thread) : State :=
  match s.group? r.grp, s.thread? r, (s.slotOf x u).bind (s.wordFault x u) with
  | some g, some t, some e =>
    if !g.runs || t.st != .ready then s else if s.timerDue t then s.timerTrap r.grp else s.stopAt r e
  | _, _, _ => s

/-- A thread that stands at the end of its block's instructions falls through (R79, R81). -/
def State.fallFrom (s : State) (r : TRef) : State :=
  match s.group? r.grp, s.thread? r with
  | some g, some t => s.modThread r fun u => { u with fall := s.fallAt g t t.pc }
  | _, _ => s

/-- The issue group that a core forms issues the instruction at its threads' PCs. -/
def State.issueFrom (s : State) (core : Nat) (ms : Candidates) : Host.Outcome State Fault Refusal :=
  match ms with
  | [] => if s.canIssue core then .next (s.endCycle core) else .refused .notEnabled
  | p :: _ =>
    match s.slotOf p.2.1 p.2.2 with
    | none => .refused .notEnabled
    | some slot =>
      let same := ms.filter fun q => (s.slotOf q.2.1 q.2.2).map (fun k => (k.1.prot, k.2)) == some (slot.1.prot, slot.2)
      let refs := same.map (·.1)
      match s.wordFault p.2.1 p.2.2 slot, slot.2 with
      | some _, _ => .next ((same.foldl (fun s q => s.stopMember q.1 q.2.1 q.2.2) s).endCycle core)
      | none, .padding => .next ((refs.foldl State.fallFrom s).endCycle core)
      | none, .word w n =>
        match decodeWord w with
        | .instr i => andThen (exec i { s with issue := { core, threads := refs, len := n } }) (State.endCycle · core)
        | _ => .refused .notEnabled
      | none, _ => .refused .notEnabled

/-- A core's issue-group builder forms an issue group and it issues; a cycle may pass with none. -/
def State.issueStep (s : State) (core : Nat) : Host.Outcome State Fault Refusal :=
  let (s, ms) := s.buildIssue core
  s.issueFrom core ms

/-! ## Parts that fail -/

/-- An FP32 unit fails: the next result that its shadow checks is the word given (R130). -/
def State.breakLane (s : State) (core lane : Nat) (wrong : Word) : Host.Outcome State Fault Refusal :=
  if 1024 ≤ core ∨ 65 ≤ lane ∨ ((s.core core).flaws.any fun p => p.1 == lane) = true then .refused .notEnabled
  else .next (s.modCore core fun k => { k with flaws := k.flaws ++ [(lane, wrong)] })

/-- A bit of the value of a Basin element turns over (R327). -/
def State.upsetElem (s : State) (basin key bit : Nat) : Host.Outcome State Fault Refusal :=
  match s.basins.find? basin with
  | none => .refused .notEnabled
  | some b =>
    if b.rows * 192 ≤ key ∨ 44 ≤ bit then .refused .notEnabled
    else
      let e := Table.get {} b.elems key
      .next (s.modBasin basin fun b =>
        { b with elems := Table.set {} b.elems key { e with val := e.val ^^^ BitVec.ofNat 44 (2 ^ bit) } })

/-! ## The step -/

/-- Launch records on their way into a queue are read, and enter it while there is a place (R394). -/
def State.enterRecords (s : State) (q : Nat) : Host.Outcome State Fault Refusal :=
  let s' := s.drainQueue q
  if (s'.queueAt q).wait != (s.queueAt q).wait then .next s' else .refused .notEnabled

/-- What the environment has chosen happens. -/
def State.perform (s : State) (c : Choice) : Host.Outcome State Fault Refusal :=
  match c with
  | .issue core => s.issueStep core
  | .fall r => s.fallThrough r
  | .flaw core lane wrong => s.breakLane core lane wrong
  | .upset basin key bit => s.upsetElem basin key bit
  | .atomicFault g d i => Machine.atomicFault g d i s
  | .splitPiece id k n => Machine.splitPiece id k n s
  | .readAhead stream id sp addr => Machine.readAhead stream id ⟨sp, addr⟩ s
  | .fillAhead core g hdr off => Machine.fillAhead core g hdr off s
  | .streamAdvance id n => Machine.streamAdvance id n s
  | .launchEntry q => s.enterRecords q
  | .matrixUnit core => Machine.matrixUnit core s
  | .podArrival launch module top own => Machine.podArrival launch module top own s
  | .registerRead off => Machine.registerRead off s
  | .dwordWrite off w => Machine.dwordWrite off w s
  | .hostRead link off len => Machine.hostRead link off len s
  | .resizeBar log2 => Machine.resizeBar log2 s
  | .moduleNumber n => Machine.moduleNumber n s
  | .portGrant port => Machine.portGrant port s
  | .packetDelivery id => Machine.packetDelivery id s
  | .event e => if e.fields.isSome then .refused .notEnabled else exec e s

/-! ### The order of a run that names no choices (log entry 4) -/

/-- The choices for one thread: results that return, fall-through, a fill of its block, its parks. -/
def State.threadChoices (s : State) (g : Nat) (x : Group) (tid : Nat) (t : Thread) : List Choice :=
  (if t.fall.isSome then [.fall ⟨g, tid⟩] else []) ++
    (t.defs.filter fun d => d.src.early).map (fun d => .event (.deferredResultReturn g tid d.seq)) ++
    (if t.st = .ready ∧ (s.cached x.core x.launch t.here).isNone then [.event (.instructionCacheFill x.core g t.here)] else [])

/-- The choices for the domains of a group. -/
def domainChoices (g : Nat) (x : Group) (d : Nat) : List Choice :=
  let first := match (x.dom d).prep with
    | some cs => cs.findIdx? fun (c : Cell) => c.st == Prep.pending
    | none => some 0
  (first.toList.map fun k => Choice.event (.prepareAcknowledge g d k)) ++
    [.event (.atomicopComplete g d false), .event (.stepBoundaryComplete g d)]

/-- The choices for one group. -/
def State.groupChoices (s : State) (g : Nat) (x : Group) : List Choice :=
  ((List.range x.threads.length).flatMap fun i => match x.threads[i]? with
    | some t => s.threadChoices g x i t
    | none => []) ++
    (List.range x.doms.length).flatMap (domainChoices g x) ++ [.event (.widerStepRelease g)]

/-- The choices for the engines' objects. -/
def State.engineChoices (s : State) : List Choice :=
  (s.copies.flatMap fun p => [.event (.copyRequestBegin p.1), .event (.ringSlotAssign p.1), .event (.sendArrival p.1)] ++
    p.2.left.flatMap fun k => [.event (.copyPieceComplete p.1 k.1), .event (.multicastDelivery p.1 (k.1 % 16))]) ++
  (s.sops.flatMap fun p => [.event (.streamOperationBegin p.1), .event (.streamSlotClose p.1), .event (.streamOperationEnd p.1)]) ++
  (s.arrays.map fun p => .event (.mtaskqArrayRead p.1)) ++
  s.packets.flatMap fun p => if p.sent then [.packetDelivery p.id] else [.portGrant p.outPort]

/-- The choices for cores and quads that hold groups. -/
def State.placeChoices (s : State) : List Choice :=
  let cores := (s.groups.map fun p => p.2.core).eraseDups
  let quads := (cores.map quadOf).eraseDups
  (cores.flatMap fun c => [.event (.xacqGrant c), .event (.ballocGrant c)]) ++
    (quads.flatMap fun q => [.event (.tallocGrant q), .event (.taskQueueEnter q), .event (.gafferRequest q)] ++
      (List.range 4).flatMap fun i => [.event (.matrixRecordStart (4 * q + i)), .event (.matrixRecordComplete (4 * q + i))])

/-- The choices of the dispatcher. -/
def State.dispatchChoices (s : State) : List Choice :=
  (List.range 64).flatMap (fun q => if (s.queueAt q).head = (s.queueAt q).tail then []
    else [.event (.launchRetire (BitVec.ofNat 6 q)), .event (.recordTake (BitVec.ofNat 6 q)), .launchEntry q]) ++
  (s.launches.flatMap fun p => [.event (.gangReserve p.1), .event (.gangConfirm p.1), .event (.gangReservationRelease p.1),
    .event (.gangBackoffExpiry p.1)]) ++
  ([0, 1, 2, 3].flatMap fun c => (s.launches.filter fun (p : Nat × Launch) => p.2.r.prio == c).map fun p => .event (.batchHandout p.1))

/-- The cores on which a group may be placed. -/
def State.coreChoices (s : State) : List Choice :=
  let reserved := (s.cores.filter fun p => p.2.resv.isSome).map fun p => Choice.event (.coreReadyReply p.1)
  let dies := ((s.dieQ.map (·.1)) ++ (s.spill.map (·.1)) ++ (s.savedQ.map (·.1)) ++
    (s.cores.filter fun p => !p.2.deque.isEmpty).map fun p => dieOf p.1).eraseDups
  reserved ++ dies.flatMap fun d => (dieCores d).map fun c => .event (.groupPlace c)

/-- Parks that are checked at intervals: tried when nothing else happens. -/
def State.parkChoices (s : State) : List Choice :=
  s.groups.flatMap fun p => (List.range p.2.threads.length).flatMap fun i => match p.2.threads[i]? with
    | some t =>
      (match t.st with | .waitv _ => [.event (.waitvPeriodicEvaluation p.1 i)] | _ => []) ++
        (if p.2.afterCommit i t then [.event (.racqPeriodicCheck p.1 i), .event (.ttakePeriodicCheck p.1 i)] else [])
    | none => []

/-- Every choice that a run without an agenda tries, in order. -/
def State.allChoices (s : State) : List Choice :=
  (s.groups.flatMap fun p => s.groupChoices p.1 p.2) ++ ((s.groups.map fun p => p.2.core).eraseDups.map .issue) ++
    s.engineChoices ++ s.placeChoices ++ s.dispatchChoices ++ s.coreChoices ++ s.parkChoices

/-- The first of the choices that can happen. -/
def State.firstEnabled (s : State) : List Choice → Host.Outcome State Fault Refusal
  | [] => .refused .notEnabled
  | c :: rest =>
    match s.perform c with
    | .refused _ => s.firstEnabled rest
    | o => o

/-- What happens next: the head of the agenda, or the first choice that can happen. -/
def State.advanceOne (s : State) : Host.Outcome State Fault Refusal :=
  match s.agenda with
  | c :: rest => ({ s with agenda := rest } : State).tick.perform c
  | [] => s.tick.firstEnabled s.tick.allChoices

/-! ## One instruction, placed to be fetched -/

/-- The block that holds one instruction: a code header, the twelve bytes, and padding. -/
def fetchBlock (nbits w : Nat) : List Byte :=
  let body := bytesOf 12 (w % 2 ^ nbits) ++ [0, 0, 0, 0]
  let h := pack [(50, 12, 16), (42, 8, 192), (8, 4, min 15 (countMarks 16 body))]
  let bytes := bytesOf 8 h
  ((bytes.tail.foldl (· ^^^ ·) 0xA5) :: bytes.tail) ++ body

/-- A launch, with a group of one live thread on a core whose instruction cache holds the block, and the agenda that lets
the core issue (log entry 4). -/
def State.placeFetch (s : State) (nbits w : Nat) : State :=
  let bytes := fetchBlock nbits w
  let l : Launch := { q := 0, seq := 0, r := { bss := 1 }, segs := List.replicate 16 0, fmask := 0xFFF, objFirst := 32,
                      objSize := 56, begun := true, ran := [0] }
  let t : Thread := { pc := 40, here := 32, s := List.replicate 16 0 }
  let x : Group := { launch := s.fresh, grp := 0, ncoh := 1, lane := false, core := 1, lremap := (s.core 1).lremap, slot := 0, tslots := [0],
                     threads := t :: List.replicate 63 { st := .exited }, doms := [{}], held := [0], roles := [0], prio := 0 }
  { s with
    launches := s.launches.put s.fresh l
    groups := s.groups.put (s.fresh + 1) x
    fresh := s.fresh + 2
    cores := Table.set {} s.cores 1 { blocks := [{ launch := s.fresh, hdr := 32, bytes := bytes }] }
    agenda := [.issue 1] }

end Sys2Proof.Machine
end

