-- ==== Sys2Proof/Machine/Step.lean ====
section
/-!
DEFINITION. The step of the machine, and the state in which the next step fetches a given instruction.
-/
namespace Sys2Proof.Machine

/-- One step: the environment's next choice happens. -/
def step (s : State) : Host.Outcome State Fault Refusal := s.advanceOne

/-- The state whose next step fetches and runs the instruction of the low `nbits` bits of `w`. -/
def State.withFetchWord (s : State) (nbits w : Nat) : State := s.placeFetch nbits w

end Sys2Proof.Machine
end

