-- ==== Sys2Proof/Safety.lean ====
section
/-!
DEFINITION. The terms that claims use: when a thread, a cohort or an instance issues an instruction, what the state is
when the instruction has gone on, jumped or stopped, and the invariants of the state.
-/
namespace Sys2Proof.Machine

/-- The outcome is some next state. -/
def Completes (o : Host.Outcome State Fault Refusal) : Prop := ∃ t, o = .next t

/-- Memory is in its canonical form: addresses strictly rising, no entry equal to what an unlisted address reads as. -/
def State.MemWf (s : State) : Prop := s.mem.wf = true

/-! ## One thread issues -/

/-- The instruction issues for the one thread `r` of group `g` with state `t`: the thread is ready and its group runs,
its count and the engines have room (R116), no timer is due (R390), its decode raises no fault (R96) and its guard is
true (R90). -/
structure Issues (s : State) (r : TRef) (g : Group) (t : Thread) (i : Instr) (f : Fields) : Prop where
  alone : s.issue.threads = [r]
  group : s.group? r.grp = some g
  thread : s.thread? r = some t
  runs : g.runs = true
  ready : t.st = .ready
  count : t.countOk i = true
  room : s.engineRoom r.grp i = true
  timer : s.timerDue t = false
  decode : decodeFault s g r.tid i f = none
  guard : t.guard f.pg = true

/-- As `Issues`, with a guard that is false. -/
structure Skips (s : State) (r : TRef) (g : Group) (t : Thread) (i : Instr) (f : Fields) : Prop where
  alone : s.issue.threads = [r]
  group : s.group? r.grp = some g
  thread : s.thread? r = some t
  runs : g.runs = true
  ready : t.st = .ready
  count : t.countOk i = true
  room : s.engineRoom r.grp i = true
  timer : s.timerDue t = false
  decode : decodeFault s g r.tid i f = none
  guard : t.guard f.pg = false

/-- The thread goes on from `s'` to the next instruction, and arrives at its boundary where the instruction carries the
step marker (R16). -/
def State.onward (s : State) (r : TRef) (f : Fields) (s' : State) : State :=
  ((s'.advance r s.issue.len).mark r f).issued r

/-- The thread goes on at the PC that `s'` gives it. -/
def State.landed (r : TRef) (f : Fields) (s' : State) : State := (s'.mark r f).issued r

/-- The instruction completes: all of its effect is that of `s'`, and the thread goes on. -/
def GoesOn (i : Instr) (s : State) (r : TRef) (f : Fields) (s' : State) : Prop := exec i s = .next (s.onward r f s')

/-- The instruction completes: the thread has the PC that `s'` gives it. -/
def Lands (i : Instr) (s : State) (r : TRef) (f : Fields) (s' : State) : Prop := exec i s = .next (State.landed r f s')

/-- The instruction stops the thread. -/
def StopsWith (i : Instr) (s : State) (r : TRef) (e : Stop) : Prop := exec i s = .next (s.stopAt r e)

/-- The instruction writes `w` to the register that D names, or discards it at 248, and does nothing else. -/
def Yields (i : Instr) (s : State) (r : TRef) (f : Fields) (w : Word) : Prop :=
  GoesOn i s r f (s.modThread r fun t => t.writeD f.d w)

/-- The instruction writes `w` to the register pair that D names (R165), and does nothing else. -/
def YieldsPair (i : Instr) (s : State) (r : TRef) (f : Fields) (w : DWord) : Prop :=
  GoesOn i s r f (s.modThread r fun t => t.writePair f.d w)

/-- The instruction writes `b` to the predicate that D names, and does nothing else. -/
def YieldsPred (i : Instr) (s : State) (r : TRef) (f : Fields) (b : Bool) : Prop :=
  GoesOn i s r f (s.modThread r fun t => t.writeP f.d b)

/-- The instruction issues a deferred result (R116, R118), and does nothing else. -/
def Defers (i : Instr) (s : State) (r : TRef) (f : Fields) (d : Dst) (v : Src) : Prop :=
  GoesOn i s r f (s.defer r d v)

/-- The instruction asks for one effect at the boundary (R19), and does nothing else. -/
def Buffers (i : Instr) (s : State) (r : TRef) (f : Fields) (e : Fx) : Prop := GoesOn i s r f (s.buffer r e)

/-- The FP32 lane unit that thread `r` uses gives no wrong result next (R130). -/
def SoundLane (s : State) (g : Group) (r : TRef) : Prop :=
  ∀ p ∈ (s.core g.core).flaws, p.1 ≠ physicalLane (s.core g.core).lremap (r.tid % 64)

/-- The FP32 lane unit that thread `r` uses gives a wrong result next: its physical lane and the word (R130). -/
def WrongNext (s : State) (g : Group) (r : TRef) (p : Nat × Word) : Prop :=
  ((s.core g.core).flaws.find? fun q => q.1 == physicalLane (s.core g.core).lremap (r.tid % 64)) = some p

/-- A result and its shadow diverge, in the words of R130. -/
def Diverging (w v : Word) : Prop :=
  let k (x : Word) : Int := (x.toNat / 2 ^ 17 % 2 ^ 14 : Nat)
  (w.msb ≠ v.msb ∧ ¬ (w.toNat % 2 ^ 31 = 0 ∧ v.toNat % 2 ^ 31 = 0)) ∨ f32IsNan w ≠ f32IsNan v ∨
    (f32IsNan w = false ∧ f32IsNan v = false ∧ 1 < (k w - k v).natAbs)

/-- The thread joins its cohort's instance of the instruction, which does `a` at the commit (R305, R329), and nothing
else happens at issue. -/
def Joins (i : Instr) (s : State) (r : TRef) (g : Group) (t : Thread) (f : Fields) (a : InstAct) : Prop :=
  GoesOn i s r f (s.joinInst r g t a none)

/-- The handle `n` of the thread's cohort names the tile `id`, which holds `k` (R330). -/
def Names (s : State) (g : Group) (r : TRef) (n id : Nat) (k : Tile) : Prop :=
  g.name (r.tid / 64) n = .mapped id ∧ s.tiles.find? id = some k

/-- What `v` is as a result of R166 and R168: wrapped with FN 0, clamped under T with FN 1. -/
def Narrows (f : Fields) (v : Int) (w : Word) : Prop :=
  (f.fn = 0 → (w.toNat : Int) = v % 2 ^ 32) ∧
  (f.fn = 1 → f.t = .i32 → w.toInt = max (-2 ^ 31) (min v (2 ^ 31 - 1))) ∧
  (f.fn = 1 → f.t = .n32 → (w.toNat : Int) = max 0 (min v (2 ^ 32 - 1)))

/-- What R167 keeps of the exact integer `p`, by FN. -/
def KeepsPart (i : Instr) (s : State) (r : TRef) (f : Fields) (p : Int) : Prop :=
  ∃ q : DWord, (q.toNat : Int) = p % 2 ^ 64 ∧
    (f.fn = 0 → Yields i s r f (q.extractLsb' 0 32)) ∧
    (f.fn = 1 → Yields i s r f (q.extractLsb' 32 32)) ∧
    (f.fn = 2 → YieldsPair i s r f q)

/-- What `fsgn` makes of one element: its sign bit alone changes, as FN says (R183). -/
def SignResult {n : Nat} (fn : BitVec 6) (a b w : BitVec n) : Prop :=
  (∀ k < n - 1, w.getLsbD k = a.getLsbD k) ∧
  (fn = 0 → w.msb = !a.msb) ∧ (fn = 1 → w.msb = false) ∧ (fn = 2 → w.msb = b.msb)

/-- The position and the width that a field control word of R173 names. -/
def FieldAt (ctl : Word) (pos w : Nat) : Prop :=
  pos = ctl.toNat % 256 ∧ w = if 32 ≤ pos then 0 else min (ctl.toNat / 256 % 256) (32 - pos)

/-! ## One cohort issues -/

/-- Cohort `coh` of group `gn` issues a cohort-synchronous instruction (R113, R114): `l` are its threads with their
states, `act` those whose guard is true. -/
structure CohortIssues (s : State) (gn coh : Nat) (g : Group) (l act : List (TRef × Thread)) (i : Instr) (f : Fields) :
    Prop where
  nonempty : l ≠ []
  alone : s.issue.threads = l.map (·.1)
  mine : ∀ p ∈ l, p.1.grp = gn ∧ p.1.tid / 64 = coh
  ascending : l.Pairwise fun p q => p.1.tid < q.1.tid
  group : s.group? gn = some g
  thread : ∀ p ∈ l, s.thread? p.1 = some p.2
  runs : g.runs = true
  ready : ∀ p ∈ l, p.2.st = .ready ∧ p.2.countOk i = true ∧ s.timerDue p.2 = false
  room : s.engineRoom gn i = true
  decode : ∀ p ∈ l, decodeFault s g p.1.tid i f = none
  active : act = l.filter fun p => p.2.guard f.pg

/-- Every thread of the cohort goes on from `s'`. -/
def State.onwardAll (l : List (TRef × Thread)) (f : Fields) (s' : State) : State :=
  l.foldl (fun x p => x.onward p.1 f x) s'

/-- Each active lane defers the words that `v` gives for it, where it gives some. -/
def State.deferEach (s : State) (act : List (TRef × Thread)) (v : Nat → Thread → Option (Dst × List Word)) : State :=
  act.foldl (fun s p => match v (p.1.tid % 64) p.2 with
    | some (d, ws) => s.defer p.1 d (.sampled ws)
    | none => s) s

/-- The active lanes of a cohort, with their threads. -/
def lanesOf (act : List (TRef × Thread)) : Lanes := act.map fun p => (p.1.tid % 64, p.2)

/-- A lane-crossing instruction completes: each active lane `l` with thread `t` defers what `v l t` gives, and every
thread of the cohort goes on. -/
def LanesYield (i : Instr) (s : State) (l act : List (TRef × Thread)) (f : Fields)
    (v : Nat → Thread → Option (Dst × List Word)) : Prop :=
  exec i s = .next (State.onwardAll l f (s.deferEach act v))

/-- A lane-crossing instruction completes, and what each active lane `n` with thread `t` defers, or nothing, is as `P`
says. -/
def LanesGet (i : Instr) (s : State) (l act : List (TRef × Thread)) (f : Fields)
    (P : Nat → Thread → Option (Dst × List Word) → Prop) : Prop :=
  ∃ v, LanesYield i s l act f v ∧ ∀ p ∈ act, P (p.1.tid % 64) p.2 (v (p.1.tid % 64) p.2)

/-- The mask of the lanes that `b` chooses, in a register pair (R199). -/
def IsLaneMask (f : Fields) (b : Nat → Bool) (o : Option (Dst × List Word)) : Prop :=
  ∃ m : DWord, o = some (dstOf f.d 2, [m.setWidth 32, m.extractLsb' 32 32]) ∧ ∀ k < 64, m.getLsbD k = b k

/-! ## Events -/

/-- The event happens: the next state is `s'`. -/
def Happens (e : Instr) (s s' : State) : Prop := exec e s = .next s'

/-- The event cannot happen in `s`. -/
def NotNow (e : Instr) (s : State) : Prop := exec e s = .refused .notEnabled

/-- Domain `d` of group `gn` has the effects `eff` of its threads to commit and nothing else, and no thread of the group waits on a
ring or a posting. -/
structure Commits (s : State) (gn d : Nat) (x : Group) (eff : List (Nat × Fx)) : Prop where
  group : s.group? gn = some x
  effects : s.effects x d = eff
  alone : (x.dom d).insts = []
  still : ∀ t ∈ x.threads, t.acquiring = false

/-! ## Exact values and their rounding, as R49 to R51 put them

A finite value is known by its sign and its magnitude bits, an exact one by the halves of a unit that it reaches. -/

/-- Whether FP32 bits are a finite value (R50). -/
def Finite32 (w : Word) : Prop := (w.extractLsb' 23 8 : Byte) ≠ 0xFF

/-- The magnitude that FP32 bits without their sign stand for, in units of 2^-149 (R50); the bits of infinity stand for 2^128, the
magnitude that comes after the largest. -/
def unitsOf (v : Nat) : Nat := if v < 2 ^ 23 then v else (2 ^ 23 + v % 2 ^ 23) * 2 ^ (v / 2 ^ 23 - 1)

/-- A finite FP32 value in units of 2^-149. -/
def signedUnits (w : Word) : Int := signed w.msb (unitsOf (w.toNat % 2 ^ 31))

/-- The magnitude bits `mag` are those of a positive exact value, rounded under a mode (R49), with the bits after the largest finite
ones, `top`, for infinity (R51).  `ge h` says that the exact value is at least `h` halves of a unit, `le h` that it is at most that;
`neg` is its sign. -/
def Rounded (units : Nat → Nat) (top mode : Nat) (neg : Bool) (ge le : Nat → Prop) (mag : Nat) : Prop :=
  ∃ v, v ≤ top ∧ ge (2 * units v) ∧ (v < top → ¬ ge (2 * units (v + 1))) ∧
    let middle := units v + units (v + 1)
    let up : Prop := match mode with
      | 0 => ge middle ∧ (¬ le middle ∨ v % 2 = 1)
      | 1 => False
      | 2 => neg ∧ ¬ le (2 * units v)
      | 3 => neg = false ∧ ¬ le (2 * units v)
      | _ => ge middle
    (up → mag = v + 1) ∧ (¬ up → mag = v)

/-- FP32 bits are those of an exact value, rounded (R49-R51). -/
def RoundsF32 (mode : Nat) (neg : Bool) (ge le : Nat → Prop) (w : Word) : Prop :=
  w.msb = neg ∧ Rounded unitsOf 0x7F7FFFFF mode neg ge le (w.toNat % 2 ^ 31)

/-- BF16 bits are those of an exact value, rounded once (R54). -/
def RoundsBf16 (mode : Nat) (neg : Bool) (ge le : Nat → Prop) (h : Half) : Prop :=
  h.msb = neg ∧ Rounded (fun v => unitsOf (v * 2 ^ 16)) 0x7F7F mode neg ge le (h.toNat % 2 ^ 15)

/-- FP16 bits are those of an exact value in units of 2^-24, rounded (R55). -/
def RoundsF16 (mode : Nat) (neg : Bool) (ge le : Nat → Prop) (h : Half) : Prop :=
  h.msb = neg ∧ Rounded (fun v => if v < 2 ^ 10 then v else (2 ^ 10 + v % 2 ^ 10) * 2 ^ (v / 2 ^ 10 - 1)) 0x7BFF mode neg ge le
    (h.toNat % 2 ^ 15)

/-- FP32 bits are those of p / q units, rounded; a value of 0 says nothing. -/
def RatioF32 (mode : Nat) (p : Int) (q : Nat) (w : Word) : Prop :=
  p ≠ 0 → RoundsF32 mode (decide (p < 0)) (fun h => h * q ≤ 2 * p.natAbs) (fun h => 2 * p.natAbs ≤ h * q) w

/-- BF16 bits are those of p / q units, rounded once; a value of 0 says nothing. -/
def RatioBf16 (mode : Nat) (p : Int) (q : Nat) (w : Half) : Prop :=
  p ≠ 0 → RoundsBf16 mode (decide (p < 0)) (fun h => h * q ≤ 2 * p.natAbs) (fun h => 2 * p.natAbs ≤ h * q) w

/-- The order of FP32 values that are not NaN, −0 below +0 (R53). -/
def f32Order (w : Word) : Int := if w.msb then -1 - ((w.toNat % 2 ^ 31 : Nat) : Int) else (w.toNat : Int)

/-- A result is the least, or with `top` the greatest, of FP32 values by R53: of those that are not NaN, or the first NaN, quieted. -/
def IsExtreme (top : Bool) (ws : List Word) (r : Word) : Prop :=
  ((∃ w ∈ ws, f32IsNan w = false) → r ∈ ws ∧ f32IsNan r = false ∧ ∀ w ∈ ws, f32IsNan w = false →
    if top then f32Order w ≤ f32Order r else f32Order r ≤ f32Order w) ∧
  (∀ n, ws.head? = some n → (∀ w ∈ ws, f32IsNan w) → r = n ||| 0x00400000)

/-! ## What stays the same -/

/-- Every register, predicate and segment register of a thread. -/
def Thread.SameRegs (t u : Thread) : Prop := u.v = t.v ∧ u.p = t.p ∧ u.s = t.s

/-- All that an instruction never touches at issue but through what it is for: every field of the state but the groups, and but
the model's running number for new objects. -/
def State.SameOutside (s s' : State) : Prop := s' = { s with groups := s'.groups, fresh := s'.fresh }

/-- Every other thread is as it was, and all of every other group. -/
def State.SameOthers (s s' : State) (r : TRef) : Prop :=
  (∀ q : TRef, q ≠ r → s'.thread? q = s.thread? q) ∧ ∀ h, h ≠ r.grp → s'.group? h = s.group? h

/-- A group is as it was but for its threads. -/
def State.SameGroup (s' : State) (gn : Nat) (g : Group) : Prop :=
  ∃ y, s'.group? gn = some y ∧ y = { g with threads := y.threads }

end Sys2Proof.Machine
end

