-- ==== Sys2Proof/Certificates/Slice0/Obligations.lean ====
section
/-!
DEFINITION. The statements for the provers.  `Issues s r g t i f` says that instruction `i` with fields `f` issues for
the one thread `r`, of group `g` and in state `t`; `Yields`, `Defers`, `Buffers`, `GoesOn`, `Lands` and `Happens` say
that it completes and give its next state (`Safety.lean`).
-/
open Sys2Proof Sys2Proof.Machine

/-- R166-R169, R180: Every integer result is exact until it is wrapped, clamped or cut. Quotient toward zero,
remainder with the dividend's sign, and no fault on a zero divisor; both defer. -/
def Obligations.IntegerArithmetic : Prop :=
  (∀ (s : State) (r : TRef) (g : Group) (t : Thread) (f : Fields),
     (Issues s r g t (.add f) f → ∃ w, Yields (.add f) s r f w ∧ Narrows f (t.intA f + t.intB f) w) ∧
     (Issues s r g t (.sub f) f → ∃ w, Yields (.sub f) s r f w ∧ Narrows f (t.intA f - t.intB f) w) ∧
     (Issues s r g t (.add3 f) f → ∃ w, Yields (.add3 f) s r f w ∧ Narrows f (t.intA f + t.intB f + t.intC f) w) ∧
     (Issues s r g t (.mul f) f → KeepsPart (.mul f) s r f (t.intA f * t.intB f)) ∧
     (Issues s r g t (.mad f) f → KeepsPart (.mad f) s r f (t.intA f * t.intB f + t.intC f)) ∧
     (Issues s r g t (.min f) f → ∃ w, Yields (.min f) s r f w ∧ ival f.t w = min (t.intA f) (t.intB f)) ∧
     (Issues s r g t (.max f) f → ∃ w, Yields (.max f) s r f w ∧ ival f.t w = max (t.intA f) (t.intB f)) ∧
     (Issues s r g t (.abs f) f → ∃ w, Yields (.abs f) s r f w ∧ Narrows f (if t.intA f < 0 then -t.intA f else t.intA f) w) ∧
     (Issues s r g t (.neg f) f → ∃ w, Yields (.neg f) s r f w ∧ Narrows f (-t.intA f) w) ∧
     (Issues s r g t (.addmin f) f → ∃ w, Yields (.addmin f) s r f w ∧
       ival f.t w = if f.t = .i32 then max (-2 ^ 31) (min (t.intA f + t.intB f) (t.intC f))
         else min (t.intA f + t.intB f) (t.intC f))) ∧
  (∀ (s : State) (r : TRef) (g : Group) (t : Thread) (f : Fields),
     (Issues s r g t (.idiv f) f → ∃ w, Defers (.idiv f) s r f (dstOf f.d) (.sampled [w]) ∧
       (t.intB f = 0 → w = 0xFFFFFFFF) ∧
       (t.intB f ≠ 0 → (w.toNat : Int) = (t.intA f).tdiv (t.intB f) % 2 ^ 32)) ∧
     (Issues s r g t (.irem f) f → ∃ w, Defers (.irem f) s r f (dstOf f.d) (.sampled [w]) ∧
       (t.intB f = 0 → w = t.opA f) ∧
       (t.intB f ≠ 0 → (w.toNat : Int) = (t.intA f - (t.intA f).tdiv (t.intB f) * t.intB f) % 2 ^ 32)))

/-- R170-R179: The logic of bits, position by position. Shifts, rotations and bit fields. Comparisons, selection,
moves and predicate logic. -/
def Obligations.LogicAndPredicates : Prop :=
  (∀ (s : State) (r : TRef) (g : Group) (t : Thread) (f : Fields),
     (Issues s r g t (.and f) f → ∃ w, Yields (.and f) s r f w ∧
       ∀ k < 32, w.getLsbD k = ((t.opA f).getLsbD k && (t.opB f).getLsbD k)) ∧
     (Issues s r g t (.or f) f → ∃ w, Yields (.or f) s r f w ∧
       ∀ k < 32, w.getLsbD k = ((t.opA f).getLsbD k || (t.opB f).getLsbD k)) ∧
     (Issues s r g t (.xor f) f → ∃ w, Yields (.xor f) s r f w ∧
       ∀ k < 32, w.getLsbD k = ((t.opA f).getLsbD k ^^ (t.opB f).getLsbD k)) ∧
     (Issues s r g t (.not f) f → ∃ w, Yields (.not f) s r f w ∧ ∀ k < 32, w.getLsbD k = !(t.opA f).getLsbD k) ∧
     (Issues s r g t (.bitfn f) f → ∃ w, Yields (.bitfn f) s r f w ∧
       ∀ k < 32, w.getLsbD k = f.imm.getLsbD
         (((t.opA f).getLsbD k).toNat + 2 * ((t.opB f).getLsbD k).toNat + 4 * ((t.opC f).getLsbD k).toNat)) ∧
     (Issues s r g t (.clz f) f → ∃ n ≤ 32, Yields (.clz f) s r f (BitVec.ofNat 32 n) ∧
       (∀ k, 32 - n ≤ k → k < 32 → (t.opA f).getLsbD k = false) ∧ (n < 32 → (t.opA f).getLsbD (31 - n) = true)) ∧
     (Issues s r g t (.popc f) f →
       Yields (.popc f) s r f (BitVec.ofNat 32 ((List.range 32).countP fun k => (t.opA f).getLsbD k))) ∧
     (Issues s r g t (.brev f) f → ∃ w, Yields (.brev f) s r f w ∧
       ∀ k < 32, w.getLsbD k = (t.opA f).getLsbD (31 - k))) ∧
  (∀ (s : State) (r : TRef) (g : Group) (t : Thread) (f : Fields),
     (Issues s r g t (.shl f) f → ∃ w, Yields (.shl f) s r f w ∧
       w.toNat = if 32 ≤ (t.opB f).toNat then 0 else (t.opA f).toNat * 2 ^ (t.opB f).toNat % 2 ^ 32) ∧
     (Issues s r g t (.shr f) f → ∃ w, Yields (.shr f) s r f w ∧
       w.toNat = if 32 ≤ (t.opB f).toNat then 0 else (t.opA f).toNat / 2 ^ (t.opB f).toNat) ∧
     (Issues s r g t (.sra f) f → ∃ w, Yields (.sra f) s r f w ∧
       w.toInt = (t.opA f).toInt / 2 ^ min (t.opB f).toNat 31) ∧
     (Issues s r g t (.rot f) f → ∃ w, Yields (.rot f) s r f w ∧
       (f.fn = 0 → ∀ k < 32, w.getLsbD ((k + (t.opB f).toNat) % 32) = (t.opA f).getLsbD k) ∧
       (f.fn = 1 → ∀ k < 32, w.getLsbD k = (t.opA f).getLsbD ((k + (t.opB f).toNat) % 32))) ∧
     (Issues s r g t (.fsh f) f → ∃ w, Yields (.fsh f) s r f w ∧
       (f.fn = 1 → w.toNat =
         ((t.opB f).toNat * 2 ^ 32 + (t.opA f).toNat) / 2 ^ ((t.opC f).toNat % 32) % 2 ^ 32) ∧
       (f.fn = 0 → w.toNat =
         ((t.opB f).toNat * 2 ^ 32 + (t.opA f).toNat) * 2 ^ ((t.opC f).toNat % 32) / 2 ^ 32 % 2 ^ 32)) ∧
     (Issues s r g t (.bfx f) f → ∀ pos n, FieldAt (t.opB f) pos n → ∃ w, Yields (.bfx f) s r f w ∧
       ∀ k < 32, w.getLsbD k = if k < n then (t.opA f).getLsbD (pos + k)
         else decide (f.t = .i32 ∧ 0 < n) && (t.opA f).getLsbD (pos + n - 1)) ∧
     (Issues s r g t (.bfi f) f → ∀ pos n, FieldAt (t.opC f) pos n → ∃ w, Yields (.bfi f) s r f w ∧
       ∀ k < 32, w.getLsbD k = if pos ≤ k ∧ k < pos + n then (t.opA f).getLsbD (k - pos) else (t.opB f).getLsbD k)) ∧
  (∀ (s : State) (r : TRef) (g : Group) (t : Thread) (f : Fields),
     (Issues s r g t (.setp f) f →
       (f.fn = 0 → YieldsPred (.setp f) s r f (decide (t.intA f = t.intB f))) ∧
       (f.fn = 1 → YieldsPred (.setp f) s r f (decide (t.intA f ≠ t.intB f))) ∧
       (f.fn = 2 → YieldsPred (.setp f) s r f (decide (t.intA f < t.intB f))) ∧
       (f.fn = 3 → YieldsPred (.setp f) s r f (decide (t.intA f ≤ t.intB f))) ∧
       (f.fn = 4 → YieldsPred (.setp f) s r f (decide (t.intA f > t.intB f))) ∧
       (f.fn = 5 → YieldsPred (.setp f) s r f (decide (t.intA f ≥ t.intB f)))) ∧
     (Issues s r g t (.sel f) f → Yields (.sel f) s r f (if t.predOf f.c then t.opA f else t.opB f)) ∧
     (Issues s r g t (.mov f) f →
       (192 ≤ f.d.toNat → f.d.toNat ≤ 198 → ¬ (192 ≤ f.a.toNat ∧ f.a.toNat ≤ 199) →
         YieldsPred (.mov f) s r f (decide (t.opA f ≠ 0))) ∧
       (f.d.toNat < 192 → 192 ≤ f.a.toNat → f.a.toNat ≤ 199 →
         Yields (.mov f) s r f (if t.predOf f.a then 1 else 0)) ∧
       (f.d.toNat < 192 → ¬ (192 ≤ f.a.toNat ∧ f.a.toNat ≤ 199) → Yields (.mov f) s r f (t.opA f))) ∧
     (Issues s r g t (.lea f) f → ∃ w, Yields (.lea f) s r f w ∧
       w.toNat = ((t.opA f).toNat + (t.opB f).toNat * 2 ^ f.x.toNat + (t.opC f).toNat) % 2 ^ 32) ∧
     (Issues s r g t (.pset f) f →
       (f.fn = 0 → YieldsPred (.pset f) s r f (t.predOf f.a && t.predOf f.b)) ∧
       (f.fn = 1 → YieldsPred (.pset f) s r f (t.predOf f.a || t.predOf f.b)) ∧
       (f.fn = 2 → YieldsPred (.pset f) s r f (t.predOf f.a ^^ t.predOf f.b)) ∧
       (f.fn = 3 → YieldsPred (.pset f) s r f (t.predOf f.a && !t.predOf f.b)) ∧
       (f.fn = 4 → YieldsPred (.pset f) s r f (t.predOf f.a || !t.predOf f.b))))

/-- R51-R54, R130, R163, R181, R182, R185-R188: Each element is formed exactly and rounded once under M; a sound lane
unit gives it. The sum, difference, product, fused product and scaled value of finite FP32 and BF16 values are the
exact ones, rounded once; those that are zero or infinite; `frnd` gives the integral value that the mode chooses,
with its sign. `fdot2` forms both products and their sum with c exactly and rounds once; its NaN is the first of
its operands, quieted, or that of an invalid operation. A lane unit that gives a wrong result raises a machine
check where that diverges from its shadow, which holds the right one: the group is killed and its core is tested.
A wrong result that does not diverge is the result. Where the spec leaves a point of this open, the clause is the
model's choice: log entry 56. -/
def Obligations.FloatArithmetic : Prop :=
  (∀ (s : State) (r : TRef) (g : Group) (t : Thread) (f : Fields), SoundLane s g r →
     let m := f.m.toNat
     let old := t.oldD f
     let a := t.opA f
     let b := t.opB f
     let c := t.opC f
     (Issues s r g t (.fadd f) f → Yields (.fadd f) s r f (perValue f.t m (fun x y _ => x.add m y) old a b c)) ∧
     (Issues s r g t (.fsub f) f → Yields (.fsub f) s r f (perValue f.t m (fun x y _ => x.add m y.neg) old a b c)) ∧
     (Issues s r g t (.fmul f) f → Yields (.fmul f) s r f (perValue f.t m (fun x y _ => x.mul y) old a b c)) ∧
     (Issues s r g t (.ffma f) f → Yields (.ffma f) s r f (perValue f.t m (fun x y z => Num.fma m x y z) old a b c)) ∧
     (Issues s r g t (.fmin f) f → Yields (.fmin f) s r f (perValue f.t m (fun x y _ => x.min y) old a b c)) ∧
     (Issues s r g t (.fmax f) f → Yields (.fmax f) s r f (perValue f.t m (fun x y _ => x.max y) old a b c)) ∧
     (Issues s r g t (.faddmin f) f → Yields (.faddmin f) s r f (perElem f.t
       (fun x y z => toF32 0 ((numF32 (toF32 m ((numF32 x).add m (numF32 y)))).min (numF32 z)))
       (fun x y z => toBf16 0 ((numBf16 (toBf16 m ((numBf16 x).add m (numBf16 y)))).min (numBf16 z))) old a b c)) ∧
     (Issues s r g t (.fdot2 f) f → Yields (.fdot2 f) s r f (fdot2Val m a b c)) ∧
     (Issues s r g t (.fscale f) f → Yields (.fscale f) s r f (perValue f.t m (fun x _ _ => x.scale b.toInt) old a 0 0)) ∧
     (Issues s r g t (.frnd f) f → Yields (.frnd f) s r f (perValue f.t m (fun x _ _ => x.integral m) old a b c))) ∧
  (∀ (m : Nat) (a b c : Word),
     let zero (neg : Bool) : Word := if neg then 0x80000000 else 0
     (Finite32 a → Finite32 b → Finite32 c →
       let x := signedUnits a
       let y := signedUnits b
       let z := signedUnits c
       RatioF32 m (x + y) 1 (toF32 m ((numF32 a).add m (numF32 b))) ∧
       RatioF32 m (x - y) 1 (toF32 m ((numF32 a).add m (numF32 b).neg)) ∧
       RatioF32 m (x * y) (2 ^ 149) (toF32 m ((numF32 a).mul (numF32 b))) ∧
       (x + y = 0 → toF32 m ((numF32 a).add m (numF32 b)) = zero (if a.msb = b.msb then a.msb else m == 2)) ∧
       (x - y = 0 → toF32 m ((numF32 a).add m (numF32 b).neg) = zero (if a.msb = b.msb then m == 2 else a.msb)) ∧
       (x * y = 0 → toF32 m ((numF32 a).mul (numF32 b)) = zero (a.msb ^^ b.msb)) ∧
       (x * y + z * 2 ^ 149 = 0 → toF32 m (Machine.Num.fma m (numF32 a) (numF32 b) (numF32 c)) =
         zero (if (a.msb ^^ b.msb) = c.msb then c.msb else m == 2)) ∧
       RatioF32 m (x * y + z * 2 ^ 149) (2 ^ 149) (toF32 m (Machine.Num.fma m (numF32 a) (numF32 b) (numF32 c))) ∧
       (∀ n : Int, RatioF32 m (x * 2 ^ n.toNat) (2 ^ (-n).toNat) (toF32 m ((numF32 a).scale n))) ∧
       (x = 0 → ∀ n, toF32 m ((numF32 a).scale n) = a) ∧
       (∃ i : Nat, Rounded (fun v => v) x.natAbs m a.msb (fun h => h * 2 ^ 149 ≤ 2 * x.natAbs) (fun h => 2 * x.natAbs ≤ h * 2 ^ 149) i ∧
         let w := toF32 m ((numF32 a).integral m)
         w.msb = a.msb ∧ Finite32 w ∧ signedUnits w = signed a.msb (i * 2 ^ 149))) ∧
     (∀ a b c : Half, let wide (h : Half) : Word := h ++ (0 : Half)
       Finite32 (wide a) → Finite32 (wide b) → Finite32 (wide c) →
       let x := signedUnits (wide a)
       let y := signedUnits (wide b)
       let z := signedUnits (wide c)
       RatioBf16 m (x + y) 1 (toBf16 m ((numBf16 a).add m (numBf16 b))) ∧
       RatioBf16 m (x - y) 1 (toBf16 m ((numBf16 a).add m (numBf16 b).neg)) ∧
       RatioBf16 m (x * y) (2 ^ 149) (toBf16 m ((numBf16 a).mul (numBf16 b))) ∧
       RatioBf16 m (x * y + z * 2 ^ 149) (2 ^ 149) (toBf16 m (Machine.Num.fma m (numBf16 a) (numBf16 b) (numBf16 c))) ∧
       (∀ n : Int, RatioBf16 m (x * 2 ^ n.toNat) (2 ^ (-n).toNat) (toBf16 m ((numBf16 a).scale n)))) ∧
     (a <<< 1 = 0xFF000000 → Finite32 b → Finite32 c →
       toF32 m ((numF32 a).add m (numF32 b)) = a ∧ toF32 m ((numF32 b).add m (numF32 a)) = a ∧
       toF32 m ((numF32 a).add m (numF32 b).neg) = a ∧ toF32 m ((numF32 b).add m (numF32 a).neg) = a ^^^ 0x80000000 ∧
       (signedUnits b ≠ 0 → toF32 m ((numF32 a).mul (numF32 b)) = a ^^^ (b &&& 0x80000000) ∧
         toF32 m ((numF32 b).mul (numF32 a)) = a ^^^ (b &&& 0x80000000)) ∧
       toF32 m (Machine.Num.fma m (numF32 b) (numF32 c) (numF32 a)) = a ∧
       (∀ n, toF32 m ((numF32 a).scale n) = a) ∧ toF32 m ((numF32 a).integral m) = a)) ∧
  (∀ (m : Nat) (a b c : Word),
     let wide (h : Half) : Word := h ++ (0 : Half)
     let ops := [wide (lowHalf a), wide (highHalf a), wide (lowHalf b), wide (highHalf b), c]
     let p := (numBf16 (lowHalf a)).mul (numBf16 (lowHalf b))
     let q := (numBf16 (highHalf a)).mul (numBf16 (highHalf b))
     let terms := [p, q, numF32 c]
     (∀ n, ops.find? (fun w => f32IsNan w) = some n → fdot2Val m a b c = n ||| 0x00400000) ∧
     (ops.all (fun w => !f32IsNan w) →
       (p = .nan defaultNan ∨ q = .nan defaultNan ∨ (.inf true ∈ terms ∧ .inf false ∈ terms) → fdot2Val m a b c = 0x7FC00000) ∧
       (p ≠ .nan defaultNan → q ≠ .nan defaultNan → ∀ neg, .inf neg ∈ terms → .inf (!neg) ∉ terms →
         fdot2Val m a b c = if neg then 0xFF800000 else 0x7F800000) ∧
       (∀ n₁ k₁ e₁ n₂ k₂ e₂ n₃ k₃ e₃, p = .fin n₁ k₁ e₁ → q = .fin n₂ k₂ e₂ → numF32 c = .fin n₃ k₃ e₃ → ∃ neg k e,
         fdot2Val m a b c = toF32 m (.fin neg k e) ∧
         (∀ unit, unit ≤ e → unit ≤ e₁ → unit ≤ e₂ → unit ≤ e₃ →
           let units (neg : Bool) (k : Nat) (e : Int) : Int := Machine.signed neg k * 2 ^ (e - unit).toNat
           units neg k e = units n₁ k₁ e₁ + units n₂ k₂ e₂ + units n₃ k₃ e₃) ∧
         (k = 0 → neg = if n₁ = n₂ ∧ n₂ = n₃ then n₁ else decide (m = 2))))) ∧
  (∀ (s : State) (r : TRef) (g : Group) (t : Thread) (f : Fields),
     let m := f.m.toNat
     let old := t.oldD f
     let a := t.opA f
     let b := t.opB f
     let c := t.opC f
     ∀ x ∈ [(Instr.fadd f, f.t, perValue f.t m (fun x y _ => x.add m y) old a b c),
         (.fsub f, f.t, perValue f.t m (fun x y _ => x.add m y.neg) old a b c),
         (.fmul f, f.t, perValue f.t m (fun x y _ => x.mul y) old a b c),
         (.ffma f, f.t, perValue f.t m (fun x y z => Num.fma m x y z) old a b c),
         (.fmin f, f.t, perValue f.t m (fun x y _ => x.min y) old a b c),
         (.fmax f, f.t, perValue f.t m (fun x y _ => x.max y) old a b c),
         (.faddmin f, f.t, faddminVal f.t m old a b c), (.fdot2 f, .f32, fdot2Val m a b c),
         (.fscale f, f.t, perValue f.t m (fun x _ _ => x.scale (max (-1000) (min b.toInt 1000))) old a 0 0),
         (.frnd f, f.t, perValue f.t m (fun x _ _ => x.integral m) old a b c)],
       Issues s r g t x.1 f → ∀ p, WrongNext s g r p →
         let w := intoElems x.2.1 old p.2
         let s' := s.modCore g.core fun k => { k with flaws := k.flaws.filter (·.1 != p.1) }
         let bad := ∃ q ∈ (resultElems x.2.1 w).zip (resultElems x.2.1 x.2.2), Diverging q.1 q.2
         (bad → Lands x.1 s r f ((s'.kill r.grp).startTest g.core)) ∧
         (¬ bad → GoesOn x.1 s r f (s'.modThread r fun u => u.writeD f.d w)))

/-- R49, R50, R183, R184, R189, R191-R195: Signs, comparisons, classes, conversions and narrow elements. The five
rounding modes, on a magnitude of `n` units of 2^-sh with nothing below. Every FP32 value that is no NaN rounds to
itself under every mode. -/
def Obligations.FloatMoves : Prop :=
  (∀ (s : State) (r : TRef) (g : Group) (t : Thread) (f : Fields),
     let old := t.oldD f
     let a := t.opA f
     let b := t.opB f
     (Issues s r g t (.fsgn f) f → ∃ w, Yields (.fsgn f) s r f w ∧
       (f.t = .f32 → SignResult f.fn a b w) ∧
       (f.t = .bf16x2 → SignResult f.fn (lowHalf a) (lowHalf b) (lowHalf w) ∧
         SignResult f.fn (highHalf a) (highHalf b) (highHalf w)) ∧
       (f.t = .bf16l → SignResult f.fn (lowHalf a) (lowHalf b) (lowHalf w) ∧ highHalf w = highHalf old) ∧
       (f.t = .bf16h → SignResult f.fn (highHalf a) (highHalf b) (highHalf w) ∧ lowHalf w = lowHalf old)) ∧
     (Issues s r g t (.fsetp f) f →
       let x := elemWord f.t a
       let y := elemWord f.t b
       (f32IsNan x ∨ f32IsNan y → f.fn.toNat ≤ 7 → YieldsPred (.fsetp f) s r f (decide (f.fn = 1 ∨ f.fn = 7))) ∧
       (f32IsNan x = false → f32IsNan y = false →
         (f.fn = 0 → YieldsPred (.fsetp f) s r f (decide (f32Key x = f32Key y))) ∧
         (f.fn = 1 → YieldsPred (.fsetp f) s r f (decide (f32Key x ≠ f32Key y))) ∧
         (f.fn = 2 → YieldsPred (.fsetp f) s r f (decide (f32Key x < f32Key y))) ∧
         (f.fn = 3 → YieldsPred (.fsetp f) s r f (decide (f32Key x ≤ f32Key y))) ∧
         (f.fn = 4 → YieldsPred (.fsetp f) s r f (decide (f32Key x > f32Key y))) ∧
         (f.fn = 5 → YieldsPred (.fsetp f) s r f (decide (f32Key x ≥ f32Key y))) ∧
         (f.fn = 6 → YieldsPred (.fsetp f) s r f true) ∧ (f.fn = 7 → YieldsPred (.fsetp f) s r f false))) ∧
     (Issues s r g t (.fclass f) f → YieldsPred (.fclass f) s r f (b.getLsbD (classOfF32 (elemWord f.t a)))) ∧
     (Issues s r g t (.cvt f) f →
       let h := toBf16 f.m.toNat (numF32 a)
       (f.t = .f32 → Yields (.cvt f) s r f (h ++ (0 : Half))) ∧
       (f.t = .bf16x2 → Yields (.cvt f) s r f (h ++ h)) ∧
       (f.t = .bf16l → Yields (.cvt f) s r f (highHalf old ++ h)) ∧
       (f.t = .bf16h → Yields (.cvt f) s r f (h ++ lowHalf old))) ∧
     (Issues s r g t (.cvti f) f →
       (f.fn = 0 → Yields (.cvti f) s r f (ftoi f.t f.m.toNat a)) ∧
       (f.fn = 0 → f32IsNan a → Yields (.cvti f) s r f 0) ∧
       (f.fn = 1 → Yields (.cvti f) s r f
         (toF32 f.m.toNat (.fin (decide (t.intA f < 0)) (t.intA f).natAbs 0)))) ∧
     (Issues s r g t (.pack f) f →
       (f.t = .bf16x2 → Yields (.pack f) s r f (toBf16 0 (numF32 b) ++ toBf16 0 (numF32 a))) ∧
       (f.t = .i8 ∨ f.t = .n8 → f.fn = 0 → ∃ w, Yields (.pack f) s r f w ∧ highHalf w = highHalf old ∧
         (w.extractLsb' 0 8).toNat = satNarrow f.t a ∧ (w.extractLsb' 8 8).toNat = satNarrow f.t b) ∧
       (f.t = .i8 ∨ f.t = .n8 → f.fn = 1 → ∃ w, Yields (.pack f) s r f w ∧ lowHalf w = lowHalf old ∧
         (w.extractLsb' 16 8).toNat = satNarrow f.t a ∧ (w.extractLsb' 24 8).toNat = satNarrow f.t b) ∧
       (f.t = .i16 ∨ f.t = .n16 → ∃ w, Yields (.pack f) s r f w ∧
         (lowHalf w).toNat = satNarrow f.t a ∧ (highHalf w).toNat = satNarrow f.t b)) ∧
     (Issues s r g t (.unpack f) f →
       (f.t = .bf16l → Yields (.unpack f) s r f (toF32 0 (numBf16 (lowHalf a)))) ∧
       (f.t = .bf16h → Yields (.unpack f) s r f (toF32 0 (numBf16 (highHalf a)))) ∧
       (f.t = .i8 → Yields (.unpack f) s r f ((a.extractLsb' (8 * f.fn.toNat) 8).signExtend 32)) ∧
       (f.t = .n8 → Yields (.unpack f) s r f ((a.extractLsb' (8 * f.fn.toNat) 8).setWidth 32)) ∧
       (f.t = .i16 → Yields (.unpack f) s r f ((a.extractLsb' (16 * f.fn.toNat) 16).signExtend 32)) ∧
       (f.t = .n16 → Yields (.unpack f) s r f ((a.extractLsb' (16 * f.fn.toNat) 16).setWidth 32))) ∧
     (Issues s r g t (.ext f) f → ∃ w, Yields (.ext f) s r f w ∧
       ∀ k < 32, w.getLsbD k = if k < b.toNat then a.getLsbD k
         else decide (f.t = .i32 ∧ 0 < b.toNat) && a.getLsbD (b.toNat - 1))) ∧
  (∀ (neg : Bool) (n sh : Nat),
     (n ≤ roundShift 0 neg n sh false * 2 ^ sh → 2 * (roundShift 0 neg n sh false * 2 ^ sh - n) ≤ 2 ^ sh) ∧
     (roundShift 0 neg n sh false * 2 ^ sh ≤ n → 2 * (n - roundShift 0 neg n sh false * 2 ^ sh) ≤ 2 ^ sh) ∧
     (2 * (n % 2 ^ sh) = 2 ^ sh → roundShift 0 neg n sh false % 2 = 0) ∧
     roundShift 1 neg n sh false = n / 2 ^ sh ∧
     roundShift 2 neg n sh false = (if neg then (n + 2 ^ sh - 1) / 2 ^ sh else n / 2 ^ sh) ∧
     roundShift 3 neg n sh false = (if neg then n / 2 ^ sh else (n + 2 ^ sh - 1) / 2 ^ sh) ∧
     roundShift 4 neg n sh false = (2 * n + 2 ^ sh) / (2 * 2 ^ sh)) ∧
  (∀ (mode : Nat) (w : Word), f32IsNan w = false → toF32 mode (numF32 w) = w)

/-- R52: NaNs in operand order and quieted, and the NaN of an invalid operation. The conversions of a NaN: to BF16 and
FP16, and from them. -/
def Obligations.NanResults : Prop :=
  (∀ (m : Nat) (a b c : Word),
     (f32IsNan a → toF32 m ((numF32 a).add m (numF32 b)) = a ||| 0x00400000) ∧
     (f32IsNan a = false → f32IsNan b → toF32 m ((numF32 a).add m (numF32 b)) = b ||| 0x00400000) ∧
     (f32IsNan a → toF32 m ((numF32 a).mul (numF32 b)) = a ||| 0x00400000) ∧
     (f32IsNan a = false → f32IsNan b → toF32 m ((numF32 a).mul (numF32 b)) = b ||| 0x00400000) ∧
     (f32IsNan a → toF32 m (Machine.Num.fma m (numF32 a) (numF32 b) (numF32 c)) = a ||| 0x00400000) ∧
     (f32IsNan a = false → f32IsNan b →
       toF32 m (Machine.Num.fma m (numF32 a) (numF32 b) (numF32 c)) = b ||| 0x00400000) ∧
     (f32IsNan c = false → c ≠ a ^^^ (b &&& 0x80000000) → c <<< 1 = 0xFF000000 → a <<< 1 = 0xFF000000 → Finite32 b → b <<< 1 ≠ 0 →
       toF32 m (Machine.Num.fma m (numF32 a) (numF32 b) (numF32 c)) = 0x7FC00000) ∧
     (∀ h k : Half, f32IsNan (h ++ (0 : Half)) → toBf16 m ((numBf16 h).add m (numBf16 k)) = h ||| 0x0040 ∧
       toBf16 m ((numBf16 h).mul (numBf16 k)) = h ||| 0x0040) ∧
     (f32IsNan a = false → f32IsNan b = false → f32IsNan c →
       toF32 m (Num.fma m (numF32 a) (numF32 b) (numF32 c)) = c ||| 0x00400000) ∧
     toF32 m ((numF32 0x7F800000).add m (numF32 0xFF800000)) = 0x7FC00000 ∧
     (a = 0x7F800000 ∨ a = 0xFF800000 → b = 0 ∨ b = 0x80000000 →
       toF32 m ((numF32 a).mul (numF32 b)) = 0x7FC00000 ∧ toF32 m ((numF32 b).mul (numF32 a)) = 0x7FC00000)) ∧
  ((∀ (m : Nat) (a : Word), f32IsNan a → toBf16 m (numF32 a) = a.extractLsb' 16 16 ||| (0x0040 : Half) ∧
     toF16 (numF32 a) = ((a.extractLsb' 31 1 ++ (0x1F : BitVec 5) ++ ((0x200 : BitVec 10) ||| (a.extractLsb' 13 10 : BitVec 10))) : Half)) ∧
   (∀ h : Half, f32IsNan (h ++ (0 : Half)) → ∀ m, toF32 m (numBf16 h) = (h ++ (0 : Half)) ||| 0x00400000) ∧
   (∀ h : Half, h.extractLsb' 10 5 = (0x1F : BitVec 5) → h.extractLsb' 0 10 ≠ (0 : BitVec 10) → ∀ m,
     toF32 m (numF16 h) = (h.extractLsb' 15 1 ++ (0xFF : Byte) ++ (h.extractLsb' 0 10 : BitVec 10) ++ (0 : BitVec 13)) ||| 0x00400000))

/-- R53: the sign of an exact zero sum, and `fmin` and `fmax` on NaNs and zeros. -/
def Obligations.ZeroSumsAndExtremes : Prop :=
  (∀ (m : Nat) (a : Word), (a.extractLsb' 23 8 : Byte) ≠ 0xFF →
    toF32 m ((numF32 a).add m (numF32 (a ^^^ 0x80000000))) = if m = 2 then 0x80000000 else 0) ∧
  (∀ (m : Nat) (a : Half), (a.extractLsb' 7 8 : Byte) ≠ 0xFF →
    toBf16 m ((numBf16 a).add m (numBf16 (a ^^^ 0x8000))) = if m = 2 then 0x8000 else 0) ∧
  (∀ (m k₁ k₂ : Nat) (e₁ e₂ : Int), k₁ * 2 ^ (e₁ - min e₁ e₂).toNat = k₂ * 2 ^ (e₂ - min e₁ e₂).toNat →
    toF32 m (Sys2Proof.Machine.Num.add m (.fin false k₁ e₁) (.fin true k₂ e₂)) = (if m = 2 then 0x80000000 else 0) ∧
    toF32 m (Sys2Proof.Machine.Num.add m (.fin true k₁ e₁) (.fin false k₂ e₂)) = (if m = 2 then 0x80000000 else 0)) ∧
  (∀ a b : Half,
    (f32IsNan (a ++ (0 : Half)) → f32IsNan (b ++ (0 : Half)) = false →
      toBf16 0 ((numBf16 a).min (numBf16 b)) = b ∧ toBf16 0 ((numBf16 a).max (numBf16 b)) = b) ∧
    (f32IsNan (a ++ (0 : Half)) = false → f32IsNan (b ++ (0 : Half)) →
      toBf16 0 ((numBf16 a).min (numBf16 b)) = a ∧ toBf16 0 ((numBf16 a).max (numBf16 b)) = a) ∧
    (f32IsNan (a ++ (0 : Half)) → f32IsNan (b ++ (0 : Half)) → toBf16 0 ((numBf16 a).min (numBf16 b)) = a ||| 0x0040 ∧
      toBf16 0 ((numBf16 a).max (numBf16 b)) = a ||| 0x0040)) ∧
  toBf16 0 ((numBf16 0).min (numBf16 0x8000)) = 0x8000 ∧ toBf16 0 ((numBf16 0x8000).min (numBf16 0)) = 0x8000 ∧
  toBf16 0 ((numBf16 0).max (numBf16 0x8000)) = 0 ∧ toBf16 0 ((numBf16 0x8000).max (numBf16 0)) = 0 ∧
  (∀ a b : Word,
    (f32IsNan a → f32IsNan b = false →
      toF32 0 ((numF32 a).min (numF32 b)) = b ∧ toF32 0 ((numF32 a).max (numF32 b)) = b) ∧
    (f32IsNan a = false → f32IsNan b →
      toF32 0 ((numF32 a).min (numF32 b)) = a ∧ toF32 0 ((numF32 a).max (numF32 b)) = a) ∧
    (f32IsNan a → f32IsNan b → toF32 0 ((numF32 a).min (numF32 b)) = a ||| 0x00400000 ∧
      toF32 0 ((numF32 a).max (numF32 b)) = a ||| 0x00400000)) ∧
  toF32 0 ((numF32 0).min (numF32 0x80000000)) = 0x80000000 ∧ toF32 0 ((numF32 0x80000000).min (numF32 0)) = 0x80000000 ∧
  toF32 0 ((numF32 0).max (numF32 0x80000000)) = 0 ∧ toF32 0 ((numF32 0x80000000).max (numF32 0)) = 0

/-- R51: a magnitude too large for FP32, BF16 or FP16 after rounding becomes what the table gives for the mode, and one too small the
nearest subnormal or zero of its sign: every magnitude is rounded as `Rounded` says, with infinity after the largest finite value. -/
def Obligations.Overflow : Prop :=
  ∀ (mode m : Nat) (e : Int), mode ≤ 4 → m ≠ 0 →
    let p (least : Int) : Nat := m * 2 ^ (e - least).toNat
    let q (least : Int) : Nat := 2 ^ (least - e).toNat
    (∀ neg, RoundsF32 mode neg (fun h => h * q (-149) ≤ 2 * p (-149)) (fun h => 2 * p (-149) ≤ h * q (-149)) (toF32 mode (.fin neg m e)) ∧
      RoundsBf16 mode neg (fun h => h * q (-149) ≤ 2 * p (-149)) (fun h => 2 * p (-149) ≤ h * q (-149)) (toBf16 mode (.fin neg m e)) ∧
      RoundsF16 mode neg (fun h => h * q (-24) ≤ 2 * p (-24)) (fun h => 2 * p (-24) ≤ h * q (-24))
        (BitVec.ofNat 16 (fmtF16.round mode (.fin neg m e)))) ∧
    (129 ≤ (Nat.log2 m : Int) + e + 1 →
      toF32 mode (.fin false m e) = (if mode = 1 ∨ mode = 2 then 0x7F7FFFFF else 0x7F800000) ∧
      toF32 mode (.fin true m e) = (if mode = 1 ∨ mode = 3 then 0xFF7FFFFF else 0xFF800000) ∧
      toBf16 mode (.fin false m e) = (if mode = 1 ∨ mode = 2 then 0x7F7F else 0x7F80) ∧
      toBf16 mode (.fin true m e) = (if mode = 1 ∨ mode = 3 then 0xFF7F else 0xFF80)) ∧
    (17 ≤ (Nat.log2 m : Int) + e + 1 → toF16 (.fin false m e) = 0x7C00 ∧ toF16 (.fin true m e) = 0xFC00)

/-- R190, R52, R56: the deferred floating-point instructions complete; a NaN operand gives its quieted form, each
special value of R56 holds, `fdiv` and `fsqrt` round correctly, and `frcp` and `frsq` come within an ulp. Where
the spec leaves a point of this open, the clause is the model's choice: log entry 11. -/
def Obligations.DeferredFloat : Prop :=
  ∀ (s : State) (r : TRef) (g : Group) (t : Thread) (f : Fields),
    let d := dstOf f.d
    let a := t.opA f
    let b := t.opB f
    let zero (x : Word) : Prop := x = 0 ∨ x = 0x80000000
    let below (x : Word) : Prop := f32IsNan x = false ∧ x.msb ∧ x ≠ 0x80000000
    let signed (neg : Bool) (x : Word) : Word := if neg then x ||| 0x80000000 else x
    let quieted (w : Word) : Prop := f32IsNan a → w = a ||| 0x00400000
    let x := unitsOf (a.toNat % 2 ^ 31)
    let y := unitsOf (b.toNat % 2 ^ 31)
    let mag (w : Word) : Nat := unitsOf (w.toNat % 2 ^ 31)
    let ulp (v : Nat) : Nat := unitsOf (v + 1) - unitsOf v
    (Issues s r g t (.fdiv f) f → ∃ w, Defers (.fdiv f) s r f d (.sampled [w]) ∧ quieted w ∧
      (Finite32 a → Finite32 b → ¬ zero a → ¬ zero b → RoundsF32 f.m.toNat (a.msb ^^ b.msb)
        (fun h => h * y ≤ 2 * x * 2 ^ 149) (fun h => 2 * x * 2 ^ 149 ≤ h * y) w) ∧
      (Finite32 a → b <<< 1 = 0xFF000000 → w = signed (a.msb ^^ b.msb) 0) ∧
      (a <<< 1 = 0xFF000000 → Finite32 b → w = signed (a.msb ^^ b.msb) 0x7F800000) ∧
      (f32IsNan a = false → f32IsNan b → w = b ||| 0x00400000) ∧
      ((a.extractLsb' 23 8 : Byte) ≠ 0xFF → ¬ zero a → zero b → w = signed (a.msb ^^ b.msb) 0x7F800000) ∧
      (zero a → zero b → w = 0x7FC00000) ∧
      (a = 0x7F800000 ∨ a = 0xFF800000 → b = 0x7F800000 ∨ b = 0xFF800000 → w = 0x7FC00000)) ∧
    (Issues s r g t (.fsqrt f) f → ∃ w, Defers (.fsqrt f) s r f d (.sampled [w]) ∧ quieted w ∧
      (a.msb = false → Finite32 a → ¬ zero a → RoundsF32 f.m.toNat false
        (fun h => h ^ 2 ≤ 4 * x * 2 ^ 149) (fun h => 4 * x * 2 ^ 149 ≤ h ^ 2) w) ∧
      (zero a → w = a) ∧ (below a → w = 0x7FC00000) ∧ (a = 0x7F800000 → w = a)) ∧
    (Issues s r g t (.frcp f) f → ∃ w, Defers (.frcp f) s r f d (.sampled [w]) ∧ quieted w ∧
      (Finite32 a → ∀ v, v ≤ 0x7F7FFFFF → unitsOf v * x ≤ 2 ^ 298 → 2 ^ 298 < unitsOf (v + 1) * x →
        w.msb = a.msb ∧ w.toNat % 2 ^ 31 ≤ 0x7F800000 ∧
        mag w * x ≤ 2 ^ 298 + ulp v * x ∧ 2 ^ 298 ≤ (mag w + ulp v) * x) ∧
      (zero a → w = signed a.msb 0x7F800000) ∧ (a = 0x7F800000 → w = 0) ∧ (a = 0xFF800000 → w = 0x80000000)) ∧
    (Issues s r g t (.frsq f) f → ∃ w, Defers (.frsq f) s r f d (.sampled [w]) ∧ quieted w ∧
      (a.msb = false → Finite32 a → ∀ v, v ≤ 0x7F7FFFFF → unitsOf v ^ 2 * x ≤ 2 ^ 447 → 2 ^ 447 < unitsOf (v + 1) ^ 2 * x →
        w.msb = false ∧ Finite32 w ∧ (mag w - ulp v) ^ 2 * x ≤ 2 ^ 447 ∧ 2 ^ 447 ≤ (mag w + ulp v) ^ 2 * x) ∧
      (zero a → w = signed a.msb 0x7F800000) ∧ (a = 0x7F800000 → w = 0) ∧ (below a → w = 0x7FC00000)) ∧
    (Issues s r g t (.fex2 f) f → ∃ w, Defers (.fex2 f) s r f d (.sampled [w]) ∧ quieted w ∧ w = fex2Val a ∧
      (a = 0xFF800000 → w = 0) ∧ (a.msb = false → 0x43000000 ≤ a.toNat → f32IsNan a = false → w = 0x7F800000)) ∧
    (Issues s r g t (.flg2 f) f → ∃ w, Defers (.flg2 f) s r f d (.sampled [w]) ∧ quieted w ∧ w = flg2Val a ∧
      (zero a → w = 0xFF800000) ∧ (below a → w = 0x7FC00000) ∧ (a = 0x7F800000 → w = a)) ∧
    (Issues s r g t (.ftrig f) f → ∃ w, Defers (.ftrig f) s r f d (.sampled [w]) ∧ quieted w ∧ w = ftrigVal (f.fn == 1) a ∧
      (a = 0x7F800000 ∨ a = 0xFF800000 → w = 0x7FC00000) ∧ (f.fn = 0 → zero a → w = a)) ∧
    (Issues s r g t (.ftanh f) f → ∃ w, Defers (.ftanh f) s r f d (.sampled [w]) ∧ quieted w ∧ w = ftanhVal a ∧
      (zero a → w = a) ∧ (a = 0x7F800000 → w = 0x3F800000) ∧ (a = 0xFF800000 → w = 0xBF800000))

/-- R56: the error bounds of `fex2`, `flg2`, `ftrig` and `ftanh` on finite operands. Whether a result meets a bound is
computed to 400 binary places, so that the bounds here are wider by 2^-90 of themselves, less than any difference
of FP32 values. Where the spec leaves a point of this open, the clause is the model's choice: log entry 11. -/
def Obligations.ApproximationBounds : Prop :=
  let value (w : Word) : Real := signedUnits w * (2 : Real) ^ (-149 : Int)
  let ulp (x : Real) : Real := (2 : Real) ^ (max (Int.log 2 |x| - 23) (-149 : Int))
  let near (w : Word) (x bound : Real) : Prop := Finite32 w ∧ |value w - x| ≤ bound * (1 + (2 : Real) ^ (-90 : Int))
  ∀ a : Word, Finite32 a →
    let x := value a
    (x < 128 → near (fex2Val a) ((2 : Real) ^ x) (2 * ulp ((2 : Real) ^ x))) ∧
    (0 < x → (x < 1 / 2 ∨ 2 < x → near (flg2Val a) (Real.logb 2 x) (2 * ulp (Real.logb 2 x))) ∧
      (1 / 2 ≤ x → x ≤ 2 → near (flg2Val a) (Real.logb 2 x) ((2 : Real) ^ (-22 : Int)))) ∧
    near (ftrigVal false a) (Real.sin x) ((2 : Real) ^ (-22 : Int)) ∧
    near (ftrigVal true a) (Real.cos x) ((2 : Real) ^ (-22 : Int)) ∧
    near (ftanhVal a) (Real.tanh x) (2 * ulp (Real.tanh x))

/-- R196-R202, R204-R206, R208, R209: One whole cohort issues, each active lane samples at once, and its result is
deferred; the shuffle, the broadcast, the compaction and the rank. What the lanes of a segment have in common. -/
def Obligations.LaneMovesAndPolls : Prop :=
  (∀ (s : State) (gn coh : Nat) (g : Group) (l act : List (TRef × Thread)) (f : Fields), act ≠ [] →
     let w := 64 / 2 ^ f.x.toNat
     let at? := (lanesOf act).at?
     (CohortIssues s gn coh g l act (.lshf f) f → LanesGet (.lshf f) s l act f fun n t o =>
       let c := (t.opB f).toNat
       let from_ (j : Nat) : Word := ((at? j).getD t).opA f
       (f.fn = 0 → o = some (dstOf f.d, [if c < w ∧ c ≤ n % w then from_ (n - c) else t.opA f])) ∧
       (f.fn = 1 → o = some (dstOf f.d, [if c < w ∧ n % w + c < w then from_ (n + c) else t.opA f])) ∧
       (f.fn = 2 → o = some (dstOf f.d, [from_ (n - n % w + (n % w ^^^ c % w))])) ∧
       (f.fn = 3 → o = some (dstOf f.d, [from_ (n - n % w + c % w)]))) ∧
     (CohortIssues s gn coh g l act (.lbcast f) f → LanesGet (.lbcast f) s l act f fun n t o =>
       ∀ j u, at? j = some u → j / w = n / w → (∀ k < j, k / w = n / w → at? k = none) →
         (f.fn = 1 → o = some (dstOf f.d, [u.opA f])) ∧
         (f.fn = 0 → o = some (dstOf f.d, [((at? (n - n % w + (u.opB f).toNat % w)).getD t).opA f]))) ∧
     (CohortIssues s gn coh g l act (.lcomp f) f → LanesGet (.lcomp f) s l act f fun n _ o =>
       o = (((lanesOf act).filter fun p => p.1 / w == n / w && p.2.predOf f.b)[n % w]?).map fun p =>
         (dstOf f.d, [p.2.opA f])) ∧
     (CohortIssues s gn coh g l act (.lrank f) f → LanesGet (.lrank f) s l act f fun n t o =>
       o = some (dstOf f.d, [BitVec.ofNat 32 ((lanesOf act).countP fun p => decide (p.1 / w = n / w ∧
         (rankKey f.t (p.2.opA f) < rankKey f.t (t.opA f) ∨
           rankKey f.t (p.2.opA f) = rankKey f.t (t.opA f) ∧ p.1 < n)))]))) ∧
  (∀ (s : State) (gn coh : Nat) (g : Group) (l act : List (TRef × Thread)) (f : Fields), act ≠ [] →
     let w := 64 / 2 ^ f.x.toNat
     (CohortIssues s gn coh g l act (.lpoll f) f → LanesGet (.lpoll f) s l act f fun n _ o =>
       let seg := (lanesOf act).filter fun p => p.1 / w == n / w
       (f.fn = 0 → o = some (dstPred f.d, [boolWord (seg.all fun p => p.2.predOf f.a)])) ∧
       (f.fn = 1 → o = some (dstPred f.d, [boolWord (seg.any fun p => p.2.predOf f.a)])) ∧
       (f.fn = 2 → o = some (dstPred f.d, [boolWord ((seg.all fun p => p.2.predOf f.a) || !seg.any fun p => p.2.predOf f.a)])) ∧
       (f.fn = 3 → IsLaneMask f (fun k => seg.any fun p => p.1 == k && p.2.predOf f.a) o) ∧
       (f.fn = 4 → o = some (dstOf f.d, [BitVec.ofNat 32 (seg.countP fun p => p.2.predOf f.a)]))) ∧
     (CohortIssues s gn coh g l act (.lpeer f) f → LanesGet (.lpeer f) s l act f fun n t o =>
       let same (p : Nat × Thread) : Bool := p.1 / w == n / w && p.2.opA f == t.opA f
       (f.fn = 0 → IsLaneMask f (fun k => (lanesOf act).any fun p => p.1 == k && same p) o) ∧
       (f.fn = 1 → ∀ p ∈ lanesOf act, same p → (∀ q ∈ lanesOf act, same q → p.1 ≤ q.1) →
         o = some (dstOf f.d, [BitVec.ofNat 32 (p.1 % w)]))) ∧
     (CohortIssues s gn coh g l act (.lmask f) f → LanesGet (.lmask f) s l act f fun n _ o =>
       (f.fn = 0 → IsLaneMask f (fun k => (lanesOf act).any fun p => p.1 == k && p.1 / w == n / w) o) ∧
       (f.fn = 1 → IsLaneMask f (fun k => decide (k / w = n / w ∧ k < n)) o) ∧
       (f.fn = 2 → IsLaneMask f (fun k => decide (k / w = n / w ∧ n < k)) o)))

/-- R53, R203, R207: Reductions and scans in ascending lane order with the identity for an inactive lane, and the
intersection of two lane-held lists. What a reduction or a scan combines: integers by their least or greatest
under T, the bits position by position, FP32 values by their exact sum, rounded once, or by `fmin` and `fmax`; and
what it gives of no value. -/
def Obligations.LaneReductions : Prop :=
  (∀ (s : State) (gn coh : Nat) (g : Group) (l act : List (TRef × Thread)) (f : Fields), act ≠ [] →
     let w := 64 / 2 ^ f.x.toNat
     let at? := (lanesOf act).at?
     let values (op base n : Nat) : List Word := (List.range n).map fun j =>
       match at? (base + j) with
       | some u => u.opA f
       | none => laneIdentity op f.t
     (CohortIssues s gn coh g l act (.lred f) f → LanesGet (.lred f) s l act f fun n _ o =>
       o = some (dstOf f.d, [laneCombine f.fn.toNat f.t (values f.fn.toNat (n - n % w) w)])) ∧
     (CohortIssues s gn coh g l act (.lred f) f → f.fn = 0 → LanesGet (.lred f) s l act f fun n _ o =>
       ∃ r : Word, o = some (dstOf f.d, [r]) ∧
         r.toNat = ((values 0 (n - n % w) w).map BitVec.toNat).sum % 2 ^ 32) ∧
     (CohortIssues s gn coh g l act (.lscan f) f → LanesGet (.lscan f) s l act f fun n _ o =>
       let op := f.fn.toNat % 8
       o = some (dstOf f.d, [laneCombine op f.t
         (values op (n - n % w) (if f.fn.getLsbD 3 then n % w else n % w + 1))])) ∧
     (CohortIssues s gn coh g l act (.lisect f) f → LanesGet (.lisect f) s l act f fun n _ o =>
       let seg := (lanesOf act).filter fun p => p.1 / w == n / w
       let xs := present w (seg.map fun p => (p.1, p.2.opA f))
       let ys := present w (seg.map fun p => (p.1, p.2.opB f))
       let m := (intersect xs ys).1
       (xs = [] ∨ ys = [] → o = some (dstOf f.d 2, [0xFFFFFFFF, 0])) ∧
       (xs ≠ [] → ys ≠ [] →
         m = xs.flatMap (fun x => (ys.filter fun y => y.2 == x.2).map fun y => (x.1, y.1)) ∧
         ∃ lo hi : Word, o = some (dstOf f.d 2, [lo, hi]) ∧
           lo = (match m[n % w]? with | some p => BitVec.ofNat 32 (p.2 * 2 ^ 8 + p.1) | none => 0xFFFFFFFF) ∧
           hi = BitVec.ofNat 32 ((intersect xs ys).2.2 * 2 ^ 20 + (intersect xs ys).2.1 * 2 ^ 13 + m.length)))) ∧
  (∀ (ws : List Word),
     (∀ t ∈ [Ty.i32, Ty.n32],
       let order (w : Word) : Int := if t = .i32 then w.toInt else (w.toNat : Int)
       (ws ≠ [] → laneCombine 1 t ws ∈ ws ∧ laneCombine 2 t ws ∈ ws) ∧
       (∀ w ∈ ws, order (laneCombine 1 t ws) ≤ order w ∧ order w ≤ order (laneCombine 2 t ws))) ∧
     (∀ t, ∀ k < 32, (laneCombine 3 t ws).getLsbD k = (ws.all fun w => w.getLsbD k) ∧
       (laneCombine 4 t ws).getLsbD k = (ws.any fun w => w.getLsbD k) ∧
       (laneCombine 5 t ws).getLsbD k = ((ws.filter fun w => w.getLsbD k).length % 2 == 1)) ∧
     (∀ t, ∀ op < 9, laneCombine op t [] = laneIdentity op t) ∧
     (∀ t n, ws.find? f32IsNan = some n → laneCombine 6 t ws = n ||| 0x00400000) ∧
     (∀ t, (∀ w ∈ ws, f32IsNan w = false) →
       (0x7F800000 ∈ ws → 0xFF800000 ∈ ws → laneCombine 6 t ws = 0x7FC00000) ∧
       (∀ i : Word, i <<< 1 = 0xFF000000 → i ∈ ws → i ^^^ 0x80000000 ∉ ws → laneCombine 6 t ws = i)) ∧
     (∀ t, (∀ w ∈ ws, Finite32 w) →
       let sum := (ws.map signedUnits).sum
       RatioF32 0 sum 1 (laneCombine 6 t ws) ∧
       (sum = 0 → laneCombine 6 t ws = if ws.all fun w => w.msb then 0x80000000 else 0)) ∧
     (∀ t, ws ≠ [] → IsExtreme false ws (laneCombine 7 t ws) ∧ IsExtreme true ws (laneCombine 8 t ws)))

/-- R134-R143: Each transfer checks the header it names, has no effect where the check fails, and otherwise enters the
block; a call leaves the link and clears the pending point, a return restores it. A jump table in a pool: its
place and length are checked, an index in range branches to the entry's header, and an index out of range falls
through. Where the spec leaves a point of this open, the clause is the model's choice: log entry 76. -/
def Obligations.Transfers : Prop :=
  (∀ (s : State) (r : TRef) (g : Group) (t : Thread) (f : Fields),
     let code := [0, 1, 3]
     let near : Int := t.here.toNat + 8 * f.imm.toInt
     let far : Int := (t.opA f).toNat
     let link : DWord := t.here ++ (t.pc + BitVec.ofNat 32 s.issue.len)
     let called := s.modThread r fun u => { u.writePair f.d link with reconv := none }
     (Issues s r g t (.nop f) f → GoesOn (.nop f) s r f s) ∧
     (Issues s r g t (.bra f) f →
       (∀ b, s.checkHeader g near code = .ok b → Lands (.bra f) s r f (s.enter r (BitVec.ofInt 32 near) b)) ∧
       (∀ e, s.checkHeader g near code = .error e → StopsWith (.bra f) s r e)) ∧
     (Issues s r g t (.brx f) f →
       (∀ b, s.checkHeader g far code = .ok b → Lands (.brx f) s r f (s.enter r (BitVec.ofInt 32 far) b)) ∧
       (∀ e, s.checkHeader g far code = .error e → StopsWith (.brx f) s r e)) ∧
     (Issues s r g t (.call f) f →
       (∀ b, s.checkHeader g near [3] = .ok b → Lands (.call f) s r f (called.enter r (BitVec.ofInt 32 near) b)) ∧
       (∀ e, s.checkHeader g near [3] = .error e → StopsWith (.call f) s r e)) ∧
     (Issues s r g t (.callx f) f →
       (∀ b, s.checkHeader g far [3] = .ok b → Lands (.callx f) s r f (called.enter r (BitVec.ofInt 32 far) b)) ∧
       (∀ e, s.checkHeader g far [3] = .error e → StopsWith (.callx f) s r e)) ∧
     (Issues s r g t (.ret f) f → ∀ b, s.checkHeader g (t.srcHi f.a).toNat code = .ok b →
       let pc := t.opA f
       let hdr := t.srcHi f.a
       let off := pc.toNat - (hdr.toNat + 8)
       (hdr.toNat + 8 ≤ pc.toNat → (slotAt (blockBody b).length (blockBody b) off).isSome →
         Lands (.ret f) s r f (s.modThread r fun u =>
           { u with pc := pc, here := hdr, fall := none, reconv := reconvOf hdr b })) ∧
       (pc.toNat < hdr.toNat + 8 ∨ slotAt (blockBody b).length (blockBody b) off = none →
         StopsWith (.ret f) s r (.of .badTarget 0 pc.toNat))) ∧
     (Issues s r g t (.ret f) f → ∀ e, s.checkHeader g (t.srcHi f.a).toNat code = .error e →
       (∀ p, e = .trap p → StopsWith (.ret f) s r
         (.trap { p with cause := if p.cause = .poolExecution then .badTarget else p.cause })) ∧
       ((∀ p, e ≠ .trap p) → StopsWith (.ret f) s r e))) ∧
  (∀ (s : State) (r : TRef) (g : Group) (t : Thread) (f : Fields), Issues s r g t (.brt f) f →
     let p : Int := t.here.toNat + 8 * (f.imm.extractLsb' 12 20).toInt
     let o := f.imm.toNat % 2 ^ 12
     let a := (t.opA f).toNat
     (∀ e, s.checkPool g p = .error e → StopsWith (.brt f) s r e) ∧
     ∀ body, s.checkPool g p = .ok body →
       let word (k : Nat) : Word := BitVec.ofNat 32 (littleEndian ((body.drop k).take 4))
       let n := (word o).toNat
       (o % 4 ≠ 0 ∨ body.length < o + 4 * (n + 1) → StopsWith (.brt f) s r (.of .badTarget 0 t.pc.toNat)) ∧
       (o % 4 = 0 → o + 4 * (n + 1) ≤ body.length →
         (n ≤ a → GoesOn (.brt f) s r f s) ∧
         (a < n →
           let dest : Int := p + 8 * (word (o + 4 * (a + 1))).toInt
           (∀ b, s.checkHeader g dest [0, 1, 3] = .ok b → Lands (.brt f) s r f (s.enter r (BitVec.ofInt 32 dest) b)) ∧
           (∀ e, s.checkHeader g dest [0, 1, 3] = .error e → StopsWith (.brt f) s r e))))

/-- R81-R83, R135: What the check of a header that control reaches answers, from the block that stands there. What
entering a block makes of the thread: PC and block, the header's reconvergence point, and the join at a header
that is the pending point. Where the spec leaves a point of this open, the clause is the model's choice: log
entries 76, 82 and 83. -/
def Obligations.BlockEntry : Prop :=
  (∀ (s : State) (g : Group) (off : Nat) (kinds : List Nat) (b : List Byte), s.blockAt g off = .ok (some b) →
     let bad := Stop.of .badTarget 0 (BitVec.ofInt 32 off).toNat
     (validBlock b = false → s.checkHeader g off kinds = .error bad ∧ s.checkPool g off = .error bad) ∧
     (validBlock b → (blockHeader b).kind = 2 →
       s.checkHeader g off kinds = .error (.of .poolExecution 0 off) ∧ s.checkPool g off = .ok (blockBody b)) ∧
     (validBlock b → (blockHeader b).kind ≠ 2 → (blockHeader b).kind ∈ kinds →
       s.checkHeader g off kinds = .ok b ∧ s.checkPool g off = .error bad) ∧
     (validBlock b → (blockHeader b).kind ≠ 2 → (blockHeader b).kind ∉ kinds → s.checkHeader g off kinds = .error bad)) ∧
  (∀ (s : State) (r : TRef) (t : Thread) (off : Word) (b : List Byte), s.thread? r = some t →
     ∃ u, (s.enter r off b).thread? r = some u ∧ u.pc = off + 8 ∧ u.here = off ∧ u.v = t.v ∧ u.p = t.p ∧ u.s = t.s ∧
       (namesPoint b → u.reconv = reconvOf off b) ∧
       (namesPoint b = false → t.reconv = some off → u.reconv = none) ∧
       (namesPoint b = false → t.reconv ≠ some off → u.reconv = t.reconv) ∧
       (t.arr = none → t.reconv = some off → u.st = .join off false ∧ u.arr.isSome) ∧
       (t.reconv ≠ some off → u.st = t.st ∧ u.arr = t.arr))

/-- R16, R17, R23-R25, R143-R146, R148, R382: `join`, `step` and `exit` bring the thread to its boundary; a scope that
the launch does not allow, a spawned group counting as a batch group, ends nothing. `join`, `step` and `exit`
complete for every thread that issues them: the thread has arrived at its boundary, by the arrival that the
instruction makes, with its PC at the next instruction, its registers as they were, and nothing outside its group
changed. The step marker of an instruction that goes on brings its thread to the boundary, once. -/
def Obligations.Boundaries : Prop :=
  (∀ (s : State) (r : TRef) (g : Group) (t : Thread) (f : Fields),
     let l := s.launchOf g
     let widest := if g.spawn.isSome ∨ l.r.det then 1 else l.r.gang + 1
     (Issues s r g t (.join f) f → GoesOn (.join f) s r f
       ((s.arrive r (.join t.pc (f.fn == 1)) fun n => { order := n }).modThread r fun u => { u with reconv := none })) ∧
     (Issues s r g t (.exit f) f → GoesOn (.exit f) s r f
       (s.arrive r .boundary fun n => { order := n, isExit := true })) ∧
     (Issues s r g t (.step f) f →
       (f.sc.toNat ≤ widest → (f.x.getLsbD 0 → 4 ≤ f.sc.toNat) → GoesOn (.step f) s r f
         (s.arrive r .boundary fun n =>
           { order := n, scope := f.sc.toNat, sc := f.x.getLsbD 0, el := if f.fn = 1 then some (f.d.toNat - 192) else none })) ∧
       (widest < f.sc.toNat ∨ f.x.getLsbD 0 ∧ f.sc.toNat < 4 → StopsWith (.step f) s r (.of .scope)))) ∧
  (∀ (s : State) (r : TRef) (g : Group) (t : Thread) (f : Fields), t.arr = none →
     let widest := if g.spawn.isSome ∨ (s.launchOf g).r.det then 1 else (s.launchOf g).r.gang + 1
     let completes (i : Instr) (st : TState) (a : Arrival) : Prop :=
       ∃ s' u, exec i s = .next s' ∧ s'.thread? r = some u ∧ u.pc = t.pc + BitVec.ofNat 32 s.issue.len ∧ u.st = st ∧
         u.arr = some a ∧ t.SameRegs u ∧ u.fx = t.fx ∧ u.defs = t.defs ∧ s.SameOutside s' ∧ s.SameOthers s' r
     (Issues s r g t (.join f) f →
       completes (.join f) (.join t.pc (f.fn == 1)) { order := s.fresh, cycle := s.clk }) ∧
     (Issues s r g t (.exit f) f → completes (.exit f) .boundary { order := s.fresh, cycle := s.clk, isExit := true }) ∧
     (Issues s r g t (.step f) f → f.sc.toNat ≤ widest → (f.x.getLsbD 0 → 4 ≤ f.sc.toNat) →
       completes (.step f) .boundary
         { order := s.fresh, cycle := s.clk, scope := f.sc.toNat, sc := f.x.getLsbD 0,
           el := if f.fn = 1 then some (f.d.toNat - 192) else none })) ∧
  (∀ (s s' : State) (r : TRef) (f : Fields) (u : Thread), s'.thread? r = some u →
     (f.s = false → ∃ w, (s.onward r f s').thread? r = some w ∧ w.st = u.st ∧ w.arr = u.arr) ∧
     (f.s → u.arr = none → ∃ w, (s.onward r f s').thread? r = some w ∧ w.st = .boundary ∧
       w.arr = some { order := s'.fresh, cycle := s'.clk }) ∧
     (f.s → u.arr ≠ none → ∃ w, (s.onward r f s').thread? r = some w ∧ w.st = u.st ∧ w.arr = u.arr))

/-- R23, R146, R147, R258, R382, R418: `waitv` samples its address and comparand at issue, goes on where its first
read makes the comparison true, parks where it does not, and with the marker arrives first. A first read that
meets a prepared cell waits for its exposure (R258); that the thread meanwhile stands parked, the instruction
issued, is the model's choice (log entry 109). A `waitv` whose comparison holds at its first read completes at
issue: the thread is ready at the next instruction, and nothing else has changed. Where the spec leaves a point of
this open, the clause is the model's choice: log entry 109. -/
def Obligations.Waiting : Prop :=
  (∀ (s : State) (r : TRef) (g : Group) (t : Thread) (f : Fields), Issues s r g t (.waitv f) f →
     let l := s.launchOf g
     let widest := if g.spawn.isSome ∨ l.r.det then 1 else l.r.gang + 1
     (widest < f.sc.toNat → StopsWith (.waitv f) s r (.of .scope)) ∧
     (f.sc.toNat ≤ widest → l.r.det → f.a ≠ 248 → StopsWith (.waitv f) s r (.of .determinism)) ∧
     (f.sc.toNat ≤ widest → (l.r.det = false ∨ f.a = 248) →
       (∀ e, s.operand g t f 4 4 false .read = .error e → StopsWith (.waitv f) s r e) ∧
       ∀ acc ls, s.operand g t f 4 4 false .read = .ok (acc, ls) →
         let w : WaitV := { acc := acc, cmp := f.fn.toNat, t := f.t, b := if f.b = 248 then 0 else t.reg f.b.toNat,
                            scope := f.sc.toNat, pc := t.pc }
         let m : Word := BitVec.ofNat 32 (s.readNat acc.keys)
         (f.s → GoesOn (.waitv f) s r f (s.arrive r .boundary fun n => { order := n, wait := some { w with unread := true } })) ∧
         (f.s = false → acc.keys.any s.prepared →
           GoesOn (.waitv f) s r f (s.modThread r fun u => { u with st := .waitv { w with unread := true } })) ∧
         (f.s = false → acc.keys.any s.prepared = false → s.poisoned acc.keys → StopsWith (.waitv f) s r .check) ∧
         (f.s = false → acc.keys.any s.prepared = false → s.poisoned acc.keys = false → cmpWord w.cmp f.t m w.b →
           GoesOn (.waitv f) s r f s) ∧
         (f.s = false → acc.keys.any s.prepared = false → s.poisoned acc.keys = false → cmpWord w.cmp f.t m w.b = false →
           GoesOn (.waitv f) s r f (s.modThread r fun u => { u with st := .waitv w })))) ∧
  (∀ (s : State) (r : TRef) (g : Group) (t : Thread) (f : Fields) (acc : Acc) (ls : List Leaf),
     Issues s r g t (.waitv f) f → f.s = false →
     f.sc.toNat ≤ (if g.spawn.isSome ∨ (s.launchOf g).r.det then 1 else (s.launchOf g).r.gang + 1) →
     ((s.launchOf g).r.det = false ∨ f.a = 248) → s.operand g t f 4 4 false .read = .ok (acc, ls) →
     s.poisoned acc.keys = false → acc.keys.any s.prepared = false →
     cmpWord f.fn.toNat f.t (BitVec.ofNat 32 (s.readNat acc.keys)) (if f.b = 248 then 0 else t.reg f.b.toNat) →
     ∃ s' u, exec (.waitv f) s = .next s' ∧ s'.thread? r = some u ∧ u.pc = t.pc + BitVec.ofNat 32 s.issue.len ∧
       u.st = .ready ∧ u.arr = t.arr ∧ t.SameRegs u ∧ u.fx = t.fx ∧ u.defs = t.defs ∧ s.SameOutside s' ∧ s.SameOthers s' r)

/-- R149: `trap` always traps the group, with its code and a stop PC after it; `bkpt` does so where the launch's debug
flag is set and acts as `nop` where it is clear. Where the spec leaves a point of this open, the clause is the
model's choice: log entry 37. -/
def Obligations.TrapInstructions : Prop :=
  ∀ (s : State) (r : TRef) (g : Group) (t : Thread) (f : Fields),
    let trapped (c : Cause) : State := ((s.advance r s.issue.len).issued r).trap r.grp [r.tid]
      { cause := c, code := f.imm.toNat % 2 ^ 16 }
    let answers (i : Instr) (c : Cause) : Prop :=
      (∀ u, (trapped c).thread? r = some u → u.live → exec i s = .next ((trapped c).mark r f)) ∧
      ((∀ u, (trapped c).thread? r = some u → u.live = false) → exec i s = .next (trapped c))
    (Issues s r g t (.trap f) f → answers (.trap f) .userTrap) ∧
    (Issues s r g t (.bkpt f) f →
      ((s.launchOf g).r.dbg → answers (.bkpt f) .breakpoint) ∧
      ((s.launchOf g).r.dbg = false → GoesOn (.bkpt f) s r f s))

/-- R42, R389: taking a trap with DBG set. The frame stands at the next place of the firmware's (log entry 5) and
holds cause, sub-cause, code, PC, rank, address, launch, group, live threads and time, and each thread's PC; the
group stays, held for the host; a byte outside the frame is as it was. Where the spec leaves a point of this open,
the clause is the model's choice: log entries 5, 7 and 37. -/
def Obligations.TrapFrame : Prop :=
  ∀ (s : State) (gn : Nat) (g : Group) (tid : Nat) (t : Thread) (e : Trap), s.group? gn = some g →
    g.threads[tid]? = some t → e.rank = none → (s.launchOf g).r.dbg → e.sub < 2 ^ 8 → e.code < 2 ^ 16 →
    e.faddr < 2 ^ 64 → g.grp < 2 ^ 32 → g.threads.length ≤ 1024 → s.fw.trapAddr + 2 ^ 15 ≤ 2 ^ 52 →
    let a := s.fw.trapAddr
    let s' := s.trap gn [tid] e
    s'.readPhys a 1 = e.cause.code ∧ s'.readPhys (a + 1) 1 = e.sub ∧ s'.readPhys (a + 4) 2 = e.code ∧
    s'.readPhys (a + 12) 4 = (e.fpc.getD t.pc).toNat ∧ s'.readPhys (a + 16) 4 = (s.rank g tid).toNat ∧
    s'.readPhys (a + 20) 8 = e.faddr ∧ s'.readPhys (a + 28) 4 = (s.launchOf g).ident.toNat ∧
    s'.readPhys (a + 32) 4 = g.grp ∧ s'.readPhys (a + 36) 4 = (g.threads.filter Thread.live).length ∧
    s'.readPhys (a + 40) 8 = s.clk.toNat ∧
    s'.readPhys (a + 192 + 16 * tid) 4 = (e.fpc.getD t.pc).toNat ∧
    (∀ i u, i ≠ tid → g.threads[i]? = some u → s'.readPhys (a + 192 + 16 * i) 4 = u.pc.toNat) ∧
    (∀ k, k < a ∨ a + 192 + 16 * g.threads.length ≤ k → s'.mem.read k = s.mem.read k) ∧
    s'.group? gn = some { g with st := .trapped a, save := none,
                                 doms := g.doms.map fun d => { d with prep := none, prepNo := none } } ∧
    s'.fw.held = s.fw.held ++ [{ addr := a, grp := gn, cause := e.cause.code }] ∧
    (∀ l, s.launch? g.launch = some l → s'.launch? g.launch = some { l with tfa := if l.tfa = 0 then a else l.tfa })

/-- R150, R153, R155, R258, R418: `contv` and `svc` take effect at the commit; `resume` takes the thread back to the
code that the continuation interrupted, or waits for the fill; a poisoned record is a machine check. What the
commit makes of `contv`: the lowest-ranked thread's values hold, and an entry of 0 clears the continuation. What
`resume` gives back: the predicates and the PC of the thread's record, and its flag bit 1 set. Where the spec
leaves a point of this open, the clause is the model's choice: log entries 50 and 101. -/
def Obligations.Continuations : Prop :=
  (∀ (s : State) (r : TRef) (g : Group) (t : Thread) (f : Fields),
     let a := (t.opA f).toNat
     let b := (t.opB f).toNat
     (Issues s r g t (.contv f) f →
       (b % 64 = 0 → b + 64 + 16 * g.threads.length ≤ 2 ^ 22 → Buffers (.contv f) s r f (.contv (t.opA f) (t.opB f))) ∧
       (b % 64 ≠ 0 ∨ 2 ^ 22 < b + 64 + 16 * g.threads.length → StopsWith (.contv f) s r (.of .continuation))) ∧
     (Issues s r g t (.svc f) f →
       (a % 64 = 0 → a + 64 ≤ 2 ^ 22 → Buffers (.svc f) s r f (.svc a (f.imm.toNat % 2 ^ 12))) ∧
       (a % 64 ≠ 0 ∨ 2 ^ 22 < a + 64 → StopsWith (.svc f) s r (.of .illegal))) ∧
     (Issues s r g t (.resume f) f →
       (g.frame = none → StopsWith (.resume f) s r (.of .continuation)) ∧
       (∀ fr, g.frame = some fr →
         let keys := (List.range 16).map fun i => scratchKey (quadOf g.core) (fr.off + 64 + 16 * r.tid + i)
         let flags := s.readNat keys / 2 ^ 112 % 256
         (keys.any s.prepared → exec (.resume f) s = .next s) ∧
         (keys.any s.prepared = false → s.poisoned keys → StopsWith (.resume f) s r .check) ∧
         (keys.any s.prepared = false → s.poisoned keys = false →
         (a ≠ fr.off ∨ flags % 2 = 0 ∨ flags / 2 % 2 = 1 → StopsWith (.resume f) s r (.of .continuation)) ∧
         (a = fr.off → flags % 2 = 1 → flags / 2 % 2 = 0 →
           (fr.ready → Lands (.resume f) s r f (s.takeUp r)) ∧
           (fr.ready = false → exec (.resume f) s = .next ((s.modThread r fun u => { u with st := .resuming f.s }).issued r))))))) ∧
  (∀ (s : State) (gn d : Nat) (x : Group) (tid : Nat) (e f : Word) (rest : List (Nat × Fx)),
     Commits s gn d x ((tid, .contv e f) :: rest) → (∀ p ∈ rest, p.1 ≠ tid ∧ ∃ a b, p.2 = .contv a b) →
     ∃ y, (s.commit gn d).group? gn = some y ∧ (e = 0 → y.contv = none) ∧ (e ≠ 0 → y.contv = some (e, f)) ∧
       (s.commit gn d).mem = s.mem) ∧
  (∀ (s : State) (r : TRef) (g : Group) (t : Thread) (fr : FrameUse), s.group? r.grp = some g → s.thread? r = some t →
     g.frame = some fr → quadOf g.core < 2 ^ 20 → fr.off + 64 + 16 * r.tid + 16 ≤ 2 ^ 22 →
     let key (i : Nat) := scratchKey (quadOf g.core) (fr.off + 64 + 16 * r.tid + i)
     let s' := s.takeUp r
     ∃ u, s'.thread? r = some u ∧ u.st = .ready ∧ u.v = t.v ∧ u.s = t.s ∧ u.dstep = t.dstep ∧ u.xstep = t.xstep ∧
       u.pc.toNat = s.readNat [key 0, key 1, key 2, key 3] ∧ u.p.toNat = s.readNat [key 12] % 2 ^ 7 ∧
       s'.readNat [key 14] = s.readNat [key 14] ||| 2 ∧ (∀ k ≠ key 14, s'.mem.read k = s.mem.read k) ∧
       (∀ x, s'.group? r.grp = some x → (x.frame = none ↔ ∀ k ∈ fr.left, k = r.tid)))

/-- R119, R156: The cohort's blocks are granted at once where they are free and nothing waits, the cohort waits in
line where not, and blocks given back take their registers with them; a mixed guard traps every live thread.
Blocks that are granted read as 0 in every lane of the cohort, and nothing else of a thread changes; blocks that
are released lose their contents, and what is pending for them is dropped. Where the spec leaves a point of this
open, the clause is the model's choice: log entry 105. -/
def Obligations.RegisterBlocks : Prop :=
  (∀ (s : State) (gn coh : Nat) (g : Group) (l act : List (TRef × Thread)) (f : Fields),
     let live := (List.range 64).filter fun k => match g.threads[64 * coh + k]? with
       | some t => t.live
       | none => false
     let held := g.held[coh]?.getD 0
     let n := f.imm.toNat
     let refs := live.map fun k => (⟨gn, 64 * coh + k⟩ : TRef)
     (CohortIssues s gn coh g l act (.xacq f) f → act ≠ [] → live.length ≤ act.length →
       (n ≤ held → exec (.xacq f) s = .next (State.onwardAll l f s)) ∧
       (held < n → (s.core g.core).xacqs = [] → n - held ≤ s.freeExtended g.core →
         exec (.xacq f) s = .next (State.onwardAll l f (s.grantBlocks gn coh n))) ∧
       (held < n → (s.core g.core).xacqs ≠ [] ∨ s.freeExtended g.core < n - held →
         exec (.xacq f) s = .next (refs.foldl (fun s r =>
           ((s.advance r s.issue.len).issued r).modThread r fun t => { t with st := .xacq n f.s })
           (s.modCore g.core fun k => { k with xacqs := k.xacqs ++ [(gn, coh)] })))) ∧
     (CohortIssues s gn coh g l act (.xrel f) f → act ≠ [] → live.length ≤ act.length →
       (n < held → exec (.xrel f) s = .next (State.onwardAll l f (s.dropBlocks gn coh n))) ∧
       (held ≤ n → exec (.xrel f) s = .next (State.onwardAll l f s))) ∧
     (∀ i ∈ [Instr.xacq f, .xrel f], CohortIssues s gn coh g l act i f → ∀ p rest, act = p :: rest →
       act.length < live.length →
       exec i s = .next (s.trap gn (live.map (64 * coh + ·)) { cause := .illegal, fpc := Option.some p.2.pc }))) ∧
  (∀ (s : State) (gn coh n : Nat) (x : Group), s.group? gn = some x → coh < x.held.length →
     let names (d : Dst) (k : Nat) : Prop := match d with
       | .regs v m => v ≤ k ∧ k < v + m
       | .half v _ => k = v
       | _ => False
     let outside (y : Group) : Prop := y.held = x.held.set coh n ∧ ∀ i, i / 64 ≠ coh → y.threads[i]? = x.threads[i]?
     (let h := x.held[coh]?.getD 0
       ∃ y, (s.grantBlocks gn coh n).group? gn = some y ∧ (s.grantBlocks gn coh n).mem = s.mem ∧ outside y ∧
         ∀ i t, i / 64 = coh → x.threads[i]? = some t → ∃ u, y.threads[i]? = some u ∧ u = { t with v := u.v } ∧
           ∀ k, u.reg k = if 32 * (h + 1) ≤ k then 0 else t.reg k) ∧
     (∃ y, (s.dropBlocks gn coh n).group? gn = some y ∧ (s.dropBlocks gn coh n).mem = s.mem ∧ outside y ∧
       ∀ i t, i / 64 = coh → x.threads[i]? = some t → ∃ u, y.threads[i]? = some u ∧ u = { t with v := u.v, defs := u.defs } ∧
         (∀ k, u.reg k = if 32 * (n + 1) ≤ k then 0 else t.reg k) ∧ u.defs.length = t.defs.length ∧
         ∀ (j : Nat) (q : Deferred), t.defs[j]? = some q → ∃ e : Dst, u.defs[j]? = some { q with dst := e } ∧
           (∀ k, names e k ↔ names q.dst k ∧ k < 32 * (n + 1)) ∧ (∀ k, e = .pred k ↔ q.dst = .pred k) ∧
           ∀ v hi, e = .half v hi → q.dst = .half v hi))

/-- R157-R159: every special register's value, sampled at issue; `%clklo` latches the upper half for `%clkhi`;
`%vtime` alone is written, at once. Where the spec leaves a point of this open, the clause is the model's choice:
log entry 108. -/
def Obligations.SpecialRegisters : Prop :=
  ∀ (s : State) (r : TRef) (g : Group) (t : Thread) (f : Fields),
    let l := s.launchOf g
    let gives (w : Word) : Prop := Defers (.srget f) s r f (dstOf f.d) (.sampled [w])
    let num (n : Nat) : Prop := gives (BitVec.ofNat 32 n)
    (Issues s r g t (.srget f) f →
      (f.a = 216 → num r.tid) ∧ (f.a = 217 → num (r.tid % 64)) ∧
      (f.a = 218 → num (physicalLane (s.core g.core).lremap (r.tid % 64))) ∧
      (f.a = 219 → num (r.tid / 64)) ∧ (f.a = 220 → num g.grp) ∧ (f.a = 221 → num l.r.ngrp) ∧
      (f.a = 222 → num (g.grp * 64 * (l.r.coh + 1) + r.tid)) ∧ (f.a = 223 → num (g.core % 4)) ∧
      (f.a = 224 → num (g.core / 4 % 16)) ∧ (f.a = 225 → num (g.core / 64)) ∧
      (f.a = 226 → gives t.dstep) ∧ (f.a = 227 → gives t.xstep) ∧
      (f.a = 228 → GoesOn (.srget f) s r f ((s.defer r (dstOf f.d) (.sampled [s.clk.extractLsb' 0 32])).modThread r
        fun u => { u with clkl := some (s.clk.extractLsb' 32 32) })) ∧
      (f.a = 229 → gives (match t.clkl with | some w => w | none => s.clk.extractLsb' 32 32)) ∧
      (f.a = 230 → gives (t.vtime + (s.clk - t.since).extractLsb' 0 32)) ∧
      (f.a = 231 → gives g.lremap) ∧
      (f.a = 232 → num (l.q % 64 * 2 ^ 26 + l.seq.toNat % 2 ^ 26))) ∧
    (Issues s r g t (.srset f) f → f.d = 230 →
      GoesOn (.srset f) s r f (s.modThread r fun u => { u with vtime := t.opA f, since := s.clk }))

/-- R211-R213: the place of a memory operand and the checks in their order; the scratchpad, and an access that lies on
one page. Where the spec leaves a point of this open, the clause is the model's choice: log entry 107. -/
def Obligations.MemoryOperands : Prop :=
  ∀ (s : State) (g : Group) (t : Thread) (f : Fields) (size align : Nat) (write : Bool) (u : Use), 0 < size → 0 < align →
    let idx : Word := if f.c = 248 then 0 else t.reg f.c.toNat
    let off := (idx * BitVec.ofNat 32 (2 ^ f.x.toNat) + f.imm).toNat
    let got := s.operand g t f size align write u
    (f.a = 248 →
      (2 ^ 22 < off + size → got = .error (.of .segment 1 off)) ∧
      (off + size ≤ 2 ^ 22 → off % align ≠ 0 → got = .error (.of .alignment 0 off)) ∧
      (off + size ≤ 2 ^ 22 → off % align = 0 →
        got = .ok (⟨true, off, (List.range size).map fun i => scratchKey (quadOf g.core) (off + i)⟩, []))) ∧
    (200 ≤ f.a.toNat → f.a.toNat ≤ 215 →
      let seg := t.seg (f.a.toNat - 200)
      let limit := (seg.extractLsb' 57 6).toNat
      let a := (seg.extractLsb' 0 57).toNat + off
      let sp := s.aspace g
      (limit = 63 → got = .error (.of .segment 3 off)) ∧
      (limit ≠ 63 → 2 ^ limit < off + size → got = .error (.of .segment 1 off)) ∧
      (limit ≠ 63 → off + size ≤ 2 ^ limit →
        (write → seg.getLsbD 63 = false → got = .error (.of .segment 2 off)) ∧
        ((write → seg.getLsbD 63) →
          (2 ^ 57 < a + size → got = .error (.of .address 0 a)) ∧
          (a + size ≤ 2 ^ 57 → a % align ≠ 0 → got = .error (.of .alignment 0 a)) ∧
          (a + size ≤ 2 ^ 57 → a % align = 0 → (a + size - 1) / 2 ^ 16 = a / 2 ^ 16 →
            (∀ c, s.translate sp.launch sp.asid a = .miss c → got = .error (.miss sp.asid a c)) ∧
            (s.translate sp.launch sp.asid a = .unmapped → got = .error (.of .translation 3 a)) ∧
            (s.translate sp.launch sp.asid a = .later → got = .error .later) ∧
            (∀ l, s.translate sp.launch sp.asid a = .ok l →
              (u.protects l = false → got = .error (.of .protection 0 a)) ∧
              (u.protects l → u.placed sp.fmask l = false → got = .error (.of .placement 0 a)) ∧
              (u.protects l → u.placed sp.fmask l →
                got = .ok (⟨false, a, (List.range size).map fun i => l.key (a + i)⟩, [l])))))))

/-- R28, R211, R214, R230, R234, R235, R264, R266: A load checks and translates its address at issue and defers its
read; a literal load does so through a pool. Segment registers are set and read; a hint changes nothing; `xlat`
looks an address up. Where the spec leaves a point of this open, the clause is the model's choice: log entries 15,
16, 107 and 114. -/
def Obligations.LoadsAndSegments : Prop :=
  (∀ (s : State) (r : TRef) (g : Group) (t : Thread) (f : Fields),
     let size : Nat := match f.t with
       | .b32 | .i32 | .n32 | .f32 | .bf16x2 => 4
       | .bf16l | .bf16h | .f16 | .i16 | .n16 => 2
       | .l6 => 3
       | _ => 1
     let align : Nat := if f.t = .l6 then 1 else size
     let dst : Dst := if f.d = 248 then .none else match f.t with
       | .bf16l => .half f.d.toNat false
       | .bf16h => .half f.d.toNat true
       | _ => .regs f.d.toNat 1
     let got := s.operand g t f size align false .read
     f.d.toNat ≤ 191 ∨ f.d = 248 →
     (∀ i ∈ [Instr.ld f, .ldq f], Issues s r g t i f →
       (∀ acc ls, got = .ok (acc, ls) → Defers i s r f dst (.load acc f.t f.fn.toNat)) ∧
       (∀ e, got = .error e → StopsWith i s r e)) ∧
     (Issues s r g t (.ldk f) f → (f.t = .b32 ∨ f.t = .i32 ∨ f.t = .n32 ∨ f.t = .f32) →
       let p : Int := t.here.toNat + 8 * (f.imm.extractLsb' 12 20).toInt
       let idx : Word := if f.c = 248 then 0 else t.reg f.c.toNat
       let o := (f.imm.toNat % 2 ^ 12 + idx.toNat * 2 ^ f.x.toNat) % 2 ^ 32
       (∀ e, s.checkPool g p = .error e → StopsWith (.ldk f) s r e) ∧
       (∀ body, s.checkPool g p = .ok body →
         (o % 4 ≠ 0 ∨ body.length < o + 4 → StopsWith (.ldk f) s r (.of .badTarget 0 t.pc.toNat)) ∧
         (o % 4 = 0 → o + 4 ≤ body.length →
           let va := (s.launchOf g).r.code + p.toNat + 8 + o
           let sp := s.aspace g
           let word := s.accessAt sp ⟨false, va⟩ 4 4 .exec
           (∀ acc ls, word = .ok (acc, ls) → Defers (.ldk f) s r f dst (.load acc .b32 0)) ∧
           (∀ e, word = .error e → StopsWith (.ldk f) s r e) ∧
           (va % 4 = 0 →
             (∀ c, s.translate sp.launch sp.asid va = .miss c → StopsWith (.ldk f) s r (.miss sp.asid va c)) ∧
             (s.translate sp.launch sp.asid va = .unmapped → StopsWith (.ldk f) s r (.of .translation 3 va)) ∧
             (s.translate sp.launch sp.asid va = .later → StopsWith (.ldk f) s r .later) ∧
             (∀ l, s.translate sp.launch sp.asid va = .ok l → l.x = false →
               StopsWith (.ldk f) s r (.of .protection 0 va))))))) ∧
  (∀ (s : State) (r : TRef) (g : Group) (t : Thread) (f : Fields),
     let off := t.memOff f
     let align : Nat := match f.t with
       | .b32 | .i32 | .n32 | .f32 | .bf16x2 => 4
       | .bf16l | .bf16h | .f16 | .i16 | .n16 => 2
       | _ => 1
     (Issues s r g t (.sgset f) f →
       let v : DWord := t.opB f ++ t.opA f
       let limit := (v.extractLsb' 57 6).toNat
       (33 ≤ limit ∧ limit ≤ 62 → StopsWith (.sgset f) s r (.of .segment 4)) ∧
       (limit ≤ 32 ∨ limit = 63 →
         GoesOn (.sgset f) s r f (s.modThread r fun u => { u with s := u.s.set (f.d.toNat - 200) v }))) ∧
     (Issues s r g t (.sgget f) f →
       let v := t.seg (f.a.toNat - 200)
       Defers (.sgget f) s r f (dstOf f.d 2) (.sampled [v.extractLsb' 0 32, v.extractLsb' 32 32])) ∧
     (∀ i ∈ [Instr.pref f, .evict f], Issues s r g t i f →
       (∀ e, t.place f.a.toNat off 1 false = .error e → StopsWith i s r e) ∧
       (∀ loc, t.place f.a.toNat off 1 false = .ok loc →
         (loc.addr % align ≠ 0 → StopsWith i s r (.of .alignment 0 loc.addr)) ∧
         (loc.addr % align = 0 → GoesOn i s r f s))) ∧
     (Issues s r g t (.xlat f) f →
       (∀ e, t.place f.a.toNat off 1 false = .error e → StopsWith (.xlat f) s r e) ∧
       (∀ loc, t.place f.a.toNat off 1 false = .ok loc → loc.addr % align ≠ 0 →
         StopsWith (.xlat f) s r (.of .alignment 0 loc.addr)) ∧
       (∀ loc, t.place f.a.toNat off 1 false = .ok loc → loc.addr % align = 0 →
         let walk := (s.tables g.launch (s.launchOf g).r.asid loc.addr).walkAsid (s.launchOf g).r.asid loc.addr
         (walk = .later → StopsWith (.xlat f) s r .later) ∧
         (walk ≠ .later → ∃ l, l.length = 2 ∧
         Defers (.xlat f) s r f (dstOf f.d 2) (.sampled l) ∧
         (s.stale = [] → f.fn = 1 → ∀ a l', s.walkAsid (s.launchOf g).r.asid loc.addr = .leaf a l' →
           l = xlatWords l' loc.addr) ∧
         (s.stale = [] → f.fn = 1 → s.walkAsid (s.launchOf g).r.asid loc.addr = .malformed → l = [0x80000000, 0]) ∧
         (s.stale = [] → f.fn = 0 → ∀ a l', s.walkAsid (s.launchOf g).r.asid loc.addr = .leaf a l' →
           l = xlatWords l' loc.addr ∨ l = [0, 0]) ∧
         (s.stale = [] → f.fn = 0 → s.walkAsid (s.launchOf g).r.asid loc.addr = .malformed → l = [0, 0]) ∧
         (s.stale = [] → ∀ lv at_, s.walkAsid (s.launchOf g).r.asid loc.addr = .invalid lv at_ → l = [0, 0]) ∧
         (s.stale = [] → s.walkAsid (s.launchOf g).r.asid loc.addr = .noTable → l = [0, 0])))))

/-- R19, R215-R217, R231-R233, R265: a store, a fetching and a conditional write and an AtomicOp are formed at issue
and buffered until the boundary; nothing is written to memory. Where the spec leaves a point of this open, the
clause is the model's choice: log entry 17. -/
def Obligations.Stores : Prop :=
  ∀ (s : State) (r : TRef) (g : Group) (t : Thread) (f : Fields),
    let b : Word := if f.b = 248 then 0 else t.reg f.b.toNat
    let d1 : Dst := if f.d.toNat ≤ 191 then .regs f.d.toNat 1 else .none
    let place (ls : List Leaf) : Nat := match ls with | l :: _ => l.place | [] => 0
    let there (w : Write) : Write := { w with peer := w.foot.any fun p => isPeerKey p.1 }
    let word (acc : Acc) (ls : List Leaf) (v : Word) (k : WriteKind) (n : Nat) : Write :=
      there { acc := acc, mask := 2 ^ 32 - 1, value := v.toNat, rule := f.m.toNat, t := f.t, kind := k, pc := t.pc, order := n,
              system := place ls == 2, memside := place ls == 1 }
    let Buffers (i : Instr) (s' : State) (x : Group) (w : Write) : Prop :=
      let c := s'.takeCells r (cellNeed x (g.domOf r.tid) false w) (cellNeed x (g.domOf r.tid) true w) w
      ∃ y, c.group? r.grp = some y ∧
        GoesOn i s r f (c.buffer r (.write { w with spilled := y.spills (g.domOf r.tid) })).bump
    (∀ i ∈ [Instr.st f, .stq f], Issues s r g t i f →
      let got := s.operand g t f (tySize f.t) (tyAlign f.t) true (.write f.m.toNat f.t 0)
      (∀ e, got = .error e → StopsWith i s r e) ∧
      ∀ acc ls, got = .ok (acc, ls) →
        let sh := (elemAt f.t f.fn.toNat).1
        let n := (elemAt f.t f.fn.toNat).2
        Buffers i s g (there
          { acc := acc, mask := (2 ^ n - 1) * 2 ^ sh, value := narrow f.t b % 2 ^ n * 2 ^ sh, sh := sh, rule := f.m.toNat,
            t := f.t, kind := .st, pc := t.pc, system := place ls == 2, memside := place ls == 1, order := s.fresh })) ∧
    (Issues s r g t (.fwr f) f → (f.t = .b32 ∨ f.t = .i32 ∨ f.t = .n32 ∨ f.t = .f32) →
      ∀ acc ls, s.operand g t f 4 4 true (.write f.m.toNat f.t 1) = .ok (acc, ls) →
        ∃ x, (s.defer r d1 .commit).group? r.grp = some x ∧
        Buffers (.fwr f) (s.defer r d1 .commit) x (word acc ls b (.fwr s.fresh) (s.fresh + 1))) ∧
    (Issues s r g t (.cwr f) f → (f.t = .b32 ∨ f.t = .i32 ∨ f.t = .n32 ∨ f.t = .f32) →
      ∀ acc ls, s.operand g t f 4 4 true (.write f.m.toNat f.t 2) = .ok (acc, ls) →
        let d : Dst := .pred (f.d.toNat - 192)
        ∃ x, (s.defer r d .commit).group? r.grp = some x ∧
        Buffers (.cwr f) (s.defer r d .commit) x
          (word acc ls (t.reg (f.b.toNat + 1)) (.cwr f.fn.toNat (t.reg f.b.toNat) s.fresh) (s.fresh + 1))) ∧
    (Issues s r g t (.satom f) f → ∀ acc ls, s.operand g t f 4 4 true .satom = .ok (acc, ls) →
      let y : Word := if f.fn = 2 then t.reg (f.b.toNat + 1) else 0
      let q : Satom :=
        { acc := acc, fn := f.fn.toNat, x := b, y := y, seq := s.fresh, pc := t.pc, t := f.t, order := s.fresh + 1 }
      let w : Write :=
        { acc := acc, mask := 2 ^ 32 - 1, value := b.toNat, rule := 0, t := f.t, kind := .fwr s.fresh, pc := t.pc,
          order := s.fresh + 1 }
      GoesOn (.satom f) s r f (((s.defer r d1 .commit).takeCells r 1 1 w).buffer r (.satom q)).bump)

/-- R273, R289-R293, R299, R300: the copy instructions check their operands at issue and ask for one request at the
boundary; a length of 0 asks for nothing where the entry allows it. Where the spec leaves a point of this open,
the clause is the model's choice: log entries 35 and 43. -/
def Obligations.CopyRequests : Prop :=
  ∀ (s : State) (r : TRef) (g : Group) (t : Thread) (f : Fields),
    let b := (t.reg f.b.toNat).toNat
    let len := (t.reg (f.b.toNat + 1)).toNat
    let c := (t.opC f).toNat
    let asks (kind : CopyKind) (ctr : Option Nat) (op : Nat) : Fx :=
      .copy { grp := r.grp, kind := kind, order := s.fresh, ctr := ctr, op := op, pc := t.pc, rank := s.rank g r.tid }
    let Requests (i : Instr) (e : Fx) : Prop := GoesOn i s r f (s.buffer r e).bump
    let lc := some f.d.toNat
    (Issues s r g t (.cpy f) f →
      (2 ^ 24 < len → StopsWith (.cpy f) s r (.of .copyOperand 1)) ∧
      (len ≤ 2 ^ 24 → f.fn = 0 → c + len ≤ 2 ^ 22 → ∀ src, t.range f.a b len 1 false = .ok src →
        (len = 0 → GoesOn (.cpy f) s r f s) ∧
        (len ≠ 0 → Requests (.cpy f) (asks (.linear src ⟨true, c⟩ len) lc 0x80))) ∧
      (len ≤ 2 ^ 24 → f.fn = 1 → c + len ≤ 2 ^ 22 → ∀ dst, t.range f.a b len 1 true = .ok dst →
        (len = 0 → GoesOn (.cpy f) s r f s) ∧
        (len ≠ 0 → Requests (.cpy f) (asks (.linear ⟨true, c⟩ dst len) lc 0x80))) ∧
      (len ≤ 2 ^ 24 → f.fn = 2 → b + len ≤ 2 ^ 22 → c + len ≤ 2 ^ 22 →
        (b < c + len → c < b + len → StopsWith (.cpy f) s r (.of .copyOperand 2)) ∧
        (c + len ≤ b ∨ b + len ≤ c → len ≠ 0 →
          Requests (.cpy f) (asks (.linear ⟨true, b⟩ ⟨true, c⟩ len) lc 0x80))) ∧
      (len ≤ 2 ^ 24 → f.fn = 3 → ∀ src dst, t.range f.a b len 1 false = .ok src → t.range f.a c len 1 true = .ok dst →
        (overlap src dst len → StopsWith (.cpy f) s r (.of .copyOperand 2)) ∧
        (overlap src dst len = false → len ≠ 0 → Requests (.cpy f) (asks (.linear src dst len) lc 0x80)))) ∧
    (Issues s r g t (.cpym f) f →
      (len = 0 ∨ 2 ^ 22 < len → StopsWith (.cpym f) s r (.of .copyOperand 1)) ∧
      (0 < len → len ≤ 2 ^ 22 → c + len ≤ 2 ^ 22 → ∀ src, t.range f.a b len 1 false = .ok src →
        (f.imm.toNat % 2 ^ 16 = 0 → StopsWith (.cpym f) s r (.of .copyOperand 7)) ∧
        (f.imm.toNat % 2 ^ 16 ≠ 0 → Requests (.cpym f)
          (asks (.multi src len c (f.imm.toNat / 2 ^ 16) (f.imm.toNat % 2 ^ 16)) lc 0x82)))) ∧
    (Issues s r g t (.cpyg f) f →
      let size := f.imm.toNat
      let seg := t.seg (f.a.toNat - 200)
      (4096 < len ∨ size < 1 ∨ 4096 < size → StopsWith (.cpyg f) s r (.of .copyOperand 1)) ∧
      (len ≤ 4096 → 1 ≤ size → size ≤ 4096 → b + 4 * len ≤ 2 ^ 22 → c + len * size ≤ 2 ^ 22 →
        (b % 4 ≠ 0 → StopsWith (.cpyg f) s r (.of .copyOperand 3)) ∧
        (b % 4 = 0 → len = 0 → GoesOn (.cpyg f) s r f s) ∧
        (b % 4 = 0 → len ≠ 0 → Requests (.cpyg f) (asks (.gather b len c size (segBase seg) (segSize seg)) lc 0x83)))) ∧
    (Issues s r g t (.rput f) f →
      let len := if f.b = 248 then 0 else b
      let k := g.ring f.d.toNat
      (len = 0 → StopsWith (.rput f) s r (.of .copyOperand 1)) ∧
      (len ≠ 0 → ∀ src, t.range f.a (t.memOff f) len 1 false = .ok src →
        (k.bound = false ∨ k.msg → StopsWith (.rput f) s r (.of .copyOperand 4)) ∧
        (k.bound → k.msg = false → k.slotSize < len → StopsWith (.rput f) s r (.of .copyOperand 5)) ∧
        (k.bound → k.msg = false → len ≤ k.slotSize →
          Requests (.rput f) (asks (.put f.d.toNat src len) none 0x89)))) ∧
    (Issues s r g t (.send f) f →
      let a := (t.opA f).toNat
      let len := (t.opB f).toNat
      (len = 0 ∨ 65520 < len ∨ 2 ^ 20 ≤ a ∨ a / 2 ^ 8 % 16 ≠ 0 → StopsWith (.send f) s r (.of .copyOperand 1)) ∧
      (0 < len → len ≤ 65520 → a < 2 ^ 20 → a / 2 ^ 8 % 16 = 0 → c + len ≤ 2 ^ 22 → Requests (.send f)
        (asks (.send (a / 2 ^ 16) (a / 2 ^ 12 % 16) (a % 2 ^ 8) len c) lc 0x8A)))

/-- R269-R271, R280, R281, R283, R294-R298, R432: Landing counters and rings are set, read, acquired and released.
What the commit makes of the counter and ring effects of a step. The lowest-ranked `lcset` of a counter applies. A
bind that finds its tag, port or ring taken sets BF; that a counter which was bound then has no binding is log
entry 19. All releases of a ring in one event give back one slot; all acquisitions of it get its filled head;
those of a freed ring get a pair that names no slot, and its waiting puts and messages are gone. `lcset`, `rbind`
and `rrel` change no byte of memory. A landing counter counts the bytes that land, turns its phase and starts
again each time it reaches a nonzero target, counts on without one, and notes bytes that were not delivered. Where
the spec leaves a point of this open, the clause is the model's choice: log entries 19, 50 and 122. -/
def Obligations.CountersAndRings : Prop :=
  (∀ (s : State) (r : TRef) (g : Group) (t : Thread) (f : Fields),
     let d := f.d.toNat
     let a := (t.opA f).toNat
     let b := (t.opB f).toNat
     let c := (t.opC f).toNat
     let src := g.ring f.a.toNat
     let dst := g.ring d
     (Issues s r g t (.lcsetArm f) f → Buffers (.lcsetArm f) s r f (.lcset d (.arm (t.opA f)))) ∧
     (Issues s r g t (.lcsetBind f) f →
       (b = 0 ∨ 2 ^ 22 < b ∨ 2 ^ 16 ≤ c → StopsWith (.lcsetBind f) s r (.of .copyOperand 1)) ∧
       (0 < b → b ≤ 2 ^ 22 → c < 2 ^ 16 → 2 ^ 22 < a + b → StopsWith (.lcsetBind f) s r (.of .copyOperand 7)) ∧
       (0 < b → b ≤ 2 ^ 22 → c < 2 ^ 16 → a + b ≤ 2 ^ 22 → Buffers (.lcsetBind f) s r f (.lcset d (.bind a b c)))) ∧
     (Issues s r g t (.lcsetUnbind f) f → Buffers (.lcsetUnbind f) s r f (.lcset d .unbind)) ∧
     (Issues s r g t (.lcget f) f → Defers (.lcget f) s r f (dstOf f.d) (.lcget f.a.toNat f.fn.toNat)) ∧
     (Issues s r g t (.rbindBind f) f → a + 16 ≤ 2 ^ 22 →
       let keys := (List.range 16).map fun i => scratchKey (quadOf g.core) (a + i)
       let desc : BitVec 128 := BitVec.ofNat 128 (s.readNat keys)
       (a % 16 ≠ 0 → StopsWith (.rbindBind f) s r (.of .copyOperand 3)) ∧
       (a % 16 = 0 → dst.bound → StopsWith (.rbindBind f) s r (.of .copyOperand 4)) ∧
       (a % 16 = 0 → dst.bound = false → s.poisoned keys = false → keys.any s.prepared = false →
         ((RingDesc.of desc).ok = false → StopsWith (.rbindBind f) s r (.of .copyOperand 4)) ∧
         ((RingDesc.of desc).ok → Buffers (.rbindBind f) s r f (.rbind d desc)))) ∧
     (Issues s r g t (.rbindFree f) f →
       (dst.bound = false → StopsWith (.rbindFree f) s r (.of .copyOperand 4)) ∧
       (dst.bound → Buffers (.rbindFree f) s r f (.rfree d))) ∧
     (Issues s r g t (.racq f) f →
       (src.bound = false → StopsWith (.racq f) s r (.of .copyOperand 4)) ∧
       (src.bound → Defers (.racq f) s r f (dstOf f.d 2) (.racq f.a.toNat))) ∧
     (Issues s r g t (.rhead f) f →
       (src.bound = false → StopsWith (.rhead f) s r (.of .copyOperand 4)) ∧
       (src.bound → Defers (.rhead f) s r f (dstOf f.d) (.rhead f.a.toNat))) ∧
     (Issues s r g t (.rrel f) f →
       (dst.bound = false → StopsWith (.rrel f) s r (.of .copyOperand 4)) ∧
       (dst.bound → dst.acq = [] → StopsWith (.rrel f) s r (.of .copyOperand 6)) ∧
       (dst.bound → dst.acq ≠ [] → Buffers (.rrel f) s r f (.rrel d)))) ∧
  (∀ (s : State) (gn d : Nat) (x : Group) (tid n : Nat),
     let s' := s.commit gn d
     let quad := quadOf x.core
     let counter (k : Ctr → Ctr) : Prop := ∃ y, s'.group? gn = some y ∧ y.ctrs = x.ctrs.modify n k ∧ s'.mem = s.mem
     let ring (k : Ring → Ring) : Prop := ∃ y, s'.group? gn = some y ∧ y.rings = x.rings.modify n k ∧ s'.mem = s.mem
     (∀ w, Commits s gn d x [(tid, .lcset n (.arm w))] →
       counter fun k => { k with tgt := w, cnt := 0, und := 0, err := false }) ∧
     (∀ i v w, Commits s gn d x [(tid, .lcset n (.arm v)), (i, .lcset n (.arm w))] →
       counter fun k => { k with tgt := if i = tid then w else v, cnt := 0, und := 0, err := false }) ∧
     (Commits s gn d x [(tid, .lcset n .unbind)] → counter fun k => { k with bnd := none, bf := false }) ∧
     (∀ base len tag, Commits s gn d x [(tid, .lcset n (.bind base len tag))] →
       let fails := (∃ k, x.ctrs[n]? = some k ∧ k.bnd ≠ none) ∨ 64 ≤ (s.bindings quad).length ∨
         ∃ e ∈ s.bindings quad, e.2.2.2.2 = tag
       (fails → counter fun k => { k with bf := true, bnd := none }) ∧
       (¬ fails → counter fun k => { k with bf := false, bnd := some (base, len, tag) })) ∧
     (∀ desc, Commits s gn d x [(tid, .rbind n desc)] →
       let k := RingDesc.of desc
       let fails := (x.ring n).bound = true ∨ k.kind = 1 ∧ s.portTaken quad k.port = true
       (fails → ring fun k => { k with bf := true }) ∧
       (¬ fails → ring fun _ =>
         { bound := true, plaunch := BitVec.ofNat 32 k.plaunch, pgrp := k.pgrp, port := k.port, msg := k.kind == 1,
           slotSize := k.size, base := k.base, slots := List.replicate k.nslot (.free, 0) })) ∧
     (∀ eff, eff ≠ [] → (∀ p ∈ eff, p.2 = .rrel n) → Commits s gn d x eff → ring fun k => match k.acq with
       | [] => k
       | i :: rest => { k with acq := rest, slots := k.slots.set i (.free, 0) }) ∧
     (s.group? gn = some x → s.effects x d = [(tid, .rfree n)] → (x.dom d).insts = [] →
       ((∀ c ∈ s.copies, c.2.dest ≠ some (gn, n)) → ∃ y, s'.group? gn = some y ∧
         (n < x.rings.length → y.ring n = { x.ring n with bound := false, msg := false, slots := [], acq := [], wait := [] }) ∧
         ∀ (i : Nat) (t : Thread), x.threads[i]? = some t → ∀ q ∈ t.defs, q.src = .racq n →
           ∃ u : Thread, y.threads[i]? = some u ∧ { q with src := .vals [0xFFFFFFFF, 0] } ∈ u.defs) ∧
       (s.copies.sorted → ∀ id c, s.copies.find? id = some c → c.dest = some (gn, n) → s'.copies.find? id = none)) ∧
     (s.group? gn = some x → s.effects x d = [] → (x.dom d).insts = [] → x.doms.length = 1 → d = 0 → n < 16 → n < x.rings.length →
       (∃ i ∈ x.domTids d, ∃ t : Thread, x.threads[i]? = some t ∧ ∃ q ∈ t.defs, q.src = .racq n) →
       let k := x.ring n
       (∀ len, k.slots[k.head]? = some (.filled, len) → ∃ y, s'.group? gn = some y ∧
         y.ring n = { k with slots := k.slots.set k.head (.acquired, len), acq := k.acq ++ [k.head],
                             head := (k.head + 1) % k.slots.length } ∧
         ∀ i ∈ x.domTids d, ∀ t, x.threads[i]? = some t → ∀ q ∈ t.defs, q.src = .racq n → ∃ u : Thread, y.threads[i]? = some u ∧
           { q with src := .vals [BitVec.ofNat 32 (k.base + k.slotSize * k.head), BitVec.ofNat 32 len] } ∈ u.defs) ∧
       ((∀ len, k.slots[k.head]? ≠ some (.filled, len)) → ∃ y, s'.group? gn = some y ∧ y.ring n = k ∧
         ∀ i ∈ x.domTids d, ∀ t, x.threads[i]? = some t → ∀ q ∈ t.defs, q.src = .racq n →
           ∃ u : Thread, y.threads[i]? = some u ∧ q ∈ u.defs))) ∧
  (∀ (k : Ctr) (n : Nat),
     (k.tgt = 0 → (k.count n).cnt.toNat = min (k.cnt.toNat + n) (2 ^ 32 - 1) ∧ (k.count n).ph = k.ph) ∧
     (k.tgt ≠ 0 → k.cnt.toNat < k.tgt.toNat →
       (k.count n).cnt.toNat = (k.cnt.toNat + n) % k.tgt.toNat ∧
       (k.count n).ph = (k.ph ^^ decide ((k.cnt.toNat + n) / k.tgt.toNat % 2 = 1))) ∧
     (k.count n).und = k.und ∧ (k.count n).err = k.err ∧ (k.count n).tgt = k.tgt ∧ (k.count n).out = k.out ∧
     (0 < n → (k.count n true).und.toNat = min (k.und.toNat + n) (2 ^ 32 - 1) ∧ (k.count n true).err ∧
       (k.count n true).cnt = (k.count n).cnt ∧ (k.count n true).ph = (k.count n).ph))

/-- R305, R329: the threads of a cohort that execute one instruction in one step are one instance; the first opens it,
the lowest-ranked gives its operands, and each adds its own result. Where the spec leaves a point of this open,
the clause is the model's choice: log entries 26 and 80. -/
def Obligations.Instances : Prop :=
  ∀ (s : State) (r : TRef) (g : Group) (t : Thread) (a : InstAct) (q : Option Nat), s.group? r.grp = some g →
    g.domOf r.tid < g.doms.length →
    let d := g.domOf r.tid
    let mine := q.toList.map fun n => (r, n)
    let after := ((s.joinInst r g t a q).group? r.grp).map fun x => (x.dom d).insts
    (s.findInst r g t.pc = none → after = some ((g.dom d).insts ++
      [{ coh := r.tid / 64, pc := t.pc, rank := s.rank g r.tid, seq := s.fresh, order := s.fresh, act := a,
         takers := mine }])) ∧
    ((s.findInst r g t.pc).isSome → after = some ((g.dom d).insts.map fun i =>
      if i.coh = r.tid / 64 ∧ i.pc = t.pc then
        if s.rank g r.tid < i.rank then
          { i with takers := i.takers ++ mine, rank := s.rank g r.tid, act := a, order := s.fresh }
        else { i with takers := i.takers ++ mine }
      else i))

/-- R315-R319: The stream instructions check their operands at issue, cause by cause, and each joins its cohort's
instance, which the engine takes at the commit; a counted result is deferred. `sgath` makes each handle of its run
filling at issue, or names the first thing wrong with them. Where the spec leaves a point of this open, the clause
is the model's choice: log entries 35, 40 and 124. -/
def Obligations.StreamInstructions : Prop :=
  (∀ (s : State) (r : TRef) (g : Group) (t : Thread) (f : Fields),
     let d := f.d.toNat
     let a := f.a.toNat
     let b := (t.reg f.b.toNat).toNat
     (Issues s r g t (.sopen f) f →
       let n := (t.reg (f.b.toNat + 1)).toNat
       (2 ^ 24 < n → StopsWith (.sopen f) s r (.of .streamOperand 1)) ∧
       (n ≤ 2 ^ 24 → f.a = 248 → 2 ^ 22 < b + n * elemSize f.t → StopsWith (.sopen f) s r (.of .streamOperand 3)) ∧
       (n ≤ 2 ^ 24 → f.a = 248 → b + n * elemSize f.t ≤ 2 ^ 22 → b % elemSize f.t ≠ 0 →
         StopsWith (.sopen f) s r (.of .alignment 0 b)) ∧
       (n ≤ 2 ^ 24 → f.a ≠ 248 → ∀ loc, t.place a b (n * elemSize f.t) false = .ok loc → loc.addr % elemSize f.t ≠ 0 →
         StopsWith (.sopen f) s r (.of .alignment 0 loc.addr)) ∧
       (n ≤ 2 ^ 24 → ∀ loc, t.streamPlace f b n = .ok loc →
         (b % elemSize f.t ≠ 0 → StopsWith (.sopen f) s r (.of .streamOperand 2)) ∧
         (b % elemSize f.t = 0 → Joins (.sopen f) s r g t f (.stream (.sopen d (f.a == 248) (t.segOf f.a) b f.t n))))) ∧
     (Issues s r g t (.sclose f) f → Joins (.sclose f) s r g t f (.stream (.sclose d))) ∧
     (Issues s r g t (.sisect f) f → Joins (.sisect f) s r g t f (.stream (.sisect d a f.b.toNat))) ∧
     (Issues s r g t (.smerge f) f →
       Joins (.smerge f) s r g t f (.stream (.smerge (f.fn == 1) d a f.b.toNat))) ∧
     (Issues s r g t (.scount f) f → GoesOn (.scount f) s r f
       ((s.defer r (dstOf f.d) .engine).joinInst r g t (.stream (.scount a f.b.toNat)) (some s.fresh))) ∧
     (Issues s r g t (.nzscan f) f →
       let l := f.imm.toNat
       (l = 0 ∨ 16384 < l → StopsWith (.nzscan f) s r (.of .streamOperand 1)) ∧
       (0 < l → l ≤ 16384 → 2 ^ 22 < b + 16 + 8 * l → StopsWith (.nzscan f) s r (.of .streamOperand 3)) ∧
       (0 < l → l ≤ 16384 → b + 16 + 8 * l ≤ 2 ^ 22 → b % 16 ≠ 0 → StopsWith (.nzscan f) s r (.of .streamOperand 2)) ∧
       (0 < l → l ≤ 16384 → b + 16 + 8 * l ≤ 2 ^ 22 → b % 16 = 0 →
         Joins (.nzscan f) s r g t f (.stream (.nzscan a (ctrOf f.d) b l)))) ∧
     (Issues s r g t (.sstat f) f →
       GoesOn (.sstat f) s r f ((s.defer r (dstOf f.d) .commit).buffer r (.sstat a s.fresh)))) ∧
  (∀ (s : State) (r : TRef) (g : Group) (t : Thread) (f : Fields), Issues s r g t (.sgath f) f →
     let n := f.imm.toNat / 64 % 16 + 1
     let coh := r.tid / 64
     let dom := g.domOf r.tid
     let c := (t.reg f.c.toNat).toNat
     let pitch := (t.reg (f.c.toNat + 1)).toNat
     let seg := t.seg (f.b.toNat - 200)
     let ctr := if f.imm.toNat / 32 % 2 = 1 then some (f.imm.toNat % 32) else none
     ((∃ k, f.d.toNat ≤ k ∧ k < f.d.toNat + n ∧ k < 64 ∧ g.name coh k = .released ∧
         ∀ j, f.d.toNat ≤ j → j < k → ∃ id, g.name coh j = .mapped id) →
       StopsWith (.sgath f) s r (.of .staleHandle 1)) ∧
     ∀ tiles : List Nat, tiles.length = n → (∀ k, k < n → f.d.toNat + k < 64 → g.name coh (f.d.toNat + k) = .mapped (tiles[k]?.getD 0)) →
       (64 < f.d.toNat + n → StopsWith (.sgath f) s r (.of .streamOperand 1)) ∧
       (f.d.toNat + n ≤ 64 → c % 2 = 1 ∨ pitch % 2 = 1 → StopsWith (.sgath f) s r (.of .streamOperand 2)) ∧
       (f.d.toNat + n ≤ 64 → c % 2 = 0 → pitch % 2 = 0 →
         ((∃ id ∈ tiles, ∃ k, s.tiles.find? id = some k ∧ k.st = .full) →
           StopsWith (.sgath f) s r (.of .streamOperand 4)) ∧
         ((∀ id ∈ tiles, ∃ k, s.tiles.find? id = some k ∧ k.st = .free) →
           GoesOn (.sgath f) s r f
             ((tiles.foldl (fun s i => s.modTile i fun k =>
                 { k with st := .filling, data := { fmt := if f.t = .f16 then 1 else 0, qs := false },
                          fillDom := some dom, fillBy := some (coh, t.pc) }) s).joinInst r g t
               (.stream (.sgath f.a.toNat tiles (f.b == 248) (if f.b = 248 then 0 else segBase seg)
                 (if f.b = 248 then 2 ^ 22 else segSize seg) c pitch ctr)) none))))

/-- R333, R347, R350-R352: Handles are mapped, freed, given and taken; `tqry` samples a name, once for its instance.
The names of a run map to slots of the quad's pool, each its own, free and bf16; the other names stay. Where the
spec leaves a point of this open, the clause is the model's choice: log entry 73. -/
def Obligations.TileHandles : Prop :=
  ((∀ (s : State) (r : TRef) (g : Group) (t : Thread) (f : Fields) (x : Inst) (l : List Word),
     s.findInst r g t.pc = some x → x.act = .value (some l) → ∀ i ∈ [Instr.tqry f, .tzf f], Issues s r g t i f →
       GoesOn i s r f ((s.defer r (dstOf f.d) (.sampled l)).joinInst r g t x.act (some s.fresh))) ∧
   ∀ (s : State) (r : TRef) (g : Group) (t : Thread) (f : Fields), s.findInst r g t.pc = none →
     let n := f.imm.toNat
     let d := f.d.toNat
     let coh := r.tid / 64
     let quad := quadOf g.core
     (Issues s r g t (.talloc f) f →
       (n = 0 ∨ 64 < n → StopsWith (.talloc f) s r (.of .matrixOperand 1)) ∧
       (0 < n → n ≤ 64 → 64 < d + n → StopsWith (.talloc f) s r (.of .matrixOperand 3)) ∧
       (0 < n → d + n ≤ 64 → (∃ k id, d ≤ k ∧ k < d + n ∧ g.name coh k = .mapped id) →
         StopsWith (.talloc f) s r (.of .matrixOperand 2)) ∧
       (0 < n → d + n ≤ 64 → (∀ k, d ≤ k → k < d + n → ∀ id, g.name coh k ≠ .mapped id) → (s.quad quad).tallocs = [] →
         (n ≤ s.poolFree quad → GoesOn (.talloc f) s r f ((s.mapNames r.grp coh d n).joinInst r g t .none none)) ∧
         (s.poolFree quad < n → ∃ s', exec (.talloc f) s = .next s' ∧ s'.thread? r = some t ∧
           (s'.quad quad).tallocs = [{ who := r, pc := t.pc, first := d, n := n }]))) ∧
     (Issues s r g t (.tfree f) f →
       (n = 0 ∨ 64 < n → StopsWith (.tfree f) s r (.of .matrixOperand 1)) ∧
       (0 < n → n ≤ 64 → 64 < d + n → StopsWith (.tfree f) s r (.of .matrixOperand 3)) ∧
       (0 < n → d + n ≤ 64 → (∀ k, d ≤ k → k < d + n → ∃ id, g.name coh k = .mapped id) →
         GoesOn (.tfree f) s r f ((s.modGroup r.grp fun x => ((List.range n).map (d + ·)).foldl
           (fun x k => x.setName coh k .released) x).gcTiles.joinInst r g t .none none))) ∧
     (Issues s r g t (.tgive f) f →
       let dest := n % 16
       (g.name coh d = .released → StopsWith (.tgive f) s r (.of .staleHandle 1)) ∧
       (g.name coh d = .given → StopsWith (.tgive f) s r (.of .staleHandle 2)) ∧
       (∀ id, g.name coh d = .mapped id →
         (g.ncoh ≤ dest → StopsWith (.tgive f) s r (.of .matrixOperand 5)) ∧
         (dest < g.ncoh → GoesOn (.tgive f) s r f
           ((s.modGroup r.grp fun x => x.setName coh d .given).joinInst r g t (.tgive id dest (n / 16 % 16)) none)))) ∧
     (Issues s r g t (.ttake f) f →
       ((∃ id, g.name coh d = .mapped id) → StopsWith (.ttake f) s r (.of .matrixOperand 2)) ∧
       ((∀ id, g.name coh d ≠ .mapped id) →
         GoesOn (.ttake f) s r f (s.joinInst r g t (.ttake d (n % 16)) (some 0)))) ∧
     (Issues s r g t (.tqry f) f → GoesOn (.tqry f) s r f
       ((s.defer r (dstOf f.d) (.tqry coh f.a.toNat)).joinInst r g t (.value none) (some s.fresh)))) ∧
  (∀ (s : State) (g first coh n : Nat) (x : Group), s.group? g = some x → (∀ id, s.fresh ≤ id → s.tiles.find? id = none) →
     ∃ y, (s.mapNames g coh first n).group? g = some y ∧
       (∀ k, first ≤ k → k < first + n → ∃ id, y.name coh k = .mapped id ∧
         (s.mapNames g coh first n).tiles.find? id = some { quad := quadOf x.core, grp := g } ∧ s.tiles.find? id = none) ∧
       (∀ j k id, first ≤ j → j < first + n → first ≤ k → k < first + n → y.name coh j = .mapped id →
         y.name coh k = .mapped id → j = k) ∧
       (∀ k, k < first ∨ first + n ≤ k → y.name coh k = x.name coh k) ∧
       (∀ id k, s.tiles.find? id = some k → (s.mapNames g coh first n).tiles.find? id = some k))

/-- R285, R291, R330, R333, R354, R431: a tile moves to or from memory; a fill begins at issue, a stored tile must not
be a pending fill of the same step and waits for another domain's. Where the spec leaves a point of this open, the
clause is the model's choice: log entries 43 and 73. -/
def Obligations.TileTransfers : Prop :=
  ∀ (s : State) (r : TRef) (g : Group) (t : Thread) (f : Fields), s.findInst r g t.pc = none →
    let coh := r.tid / 64
    let dom := g.domOf r.tid
    let d := f.d.toNat
    let ctr (c : BitVec 8) : Option Nat := if c = 248 then none else some c.toNat
    let fills (id fmt : Nat) (qs : Bool) : State := s.modTile id fun k =>
      { k with st := .filling, data := { fmt := fmt, qs := qs }, fillDom := some dom, fillBy := some (coh, t.pc) }
    let act (kind : CopyKind) (ctr : Option Nat) (op : Nat) : InstAct :=
      .copy { grp := r.grp, kind := kind, ctr := ctr, op := op, pc := t.pc, rank := s.rank g r.tid }
    (Issues s r g t (.tld f) f →
      let fmt := tileFmt f.t
      let qs := f.fn == 1
      (g.name coh d = .released → StopsWith (.tld f) s r (.of .staleHandle 1)) ∧
      (g.name coh d = .given → StopsWith (.tld f) s r (.of .staleHandle 2)) ∧
      (∀ id k, Names s g r d id k →
        (k.st ≠ .free → StopsWith (.tld f) s r (.of .matrixOperand 2)) ∧
        (k.st = .free → qs → fmt < 2 → StopsWith (.tld f) s r (.of .matrixOperand 1)) ∧
        (k.st = .free → qs = false ∨ 2 ≤ fmt → ∀ loc, t.range f.a (t.memOff f) (storedSize fmt) 16 false = .ok loc →
          GoesOn (.tld f) s r f ((fills id fmt qs).joinInst r g t
            (act (.tileIn loc id false qs qs fmt fmt) (ctr f.b) 0xA4) none)))) ∧
    (Issues s r g t (.tst f) f → ∀ id k, Names s g r f.b.toNat id k →
      (k.st = .filling → k.fillDom = some dom → StopsWith (.tst f) s r (.of .matrixOperand 2)) ∧
      (k.st = .filling → k.fillDom ≠ some dom → exec (.tst f) s = .next s) ∧
      (k.st = .full → k.data.bad → StopsWith (.tst f) s r (.of .scaleHeader)) ∧
      (k.st = .free ∨ k.st = .full ∧ k.data.bad = false →
        ∀ loc, t.range f.a (t.memOff f) (storedSize k.data.fmt) 16 true = .ok loc →
          Joins (.tst f) s r g t f
            (act (.tileOut id loc (k.st == .free) k.data.qs k.data.fmt) (ctr f.d) 0xA5))) ∧
    (Issues s r g t (.cpyt f) f → ∀ id k, Names s g r d id k →
      let w := (if f.c = 248 then 0 else t.reg f.c.toNat).toNat
      let off := (if f.b = 248 then 0 else t.reg f.b.toNat).toNat
      let mf := w / 16 % 16
      let tf := w % 16
      let mq := w / 512 % 2 == 1
      let qs := w / 256 % 2 == 1
      let lc := if f.imm.toNat / 32 % 2 = 1 then some (f.imm.toNat % 32) else none
      (fmtFeatures mf ++ fmtFeatures tf).all (s.launchOf g).fmask.getLsbD →
        (f.fn ≠ 1 → convOk w f.fn.toNat = false → StopsWith (.cpyt f) s r (.of .copyOperand 8)) ∧
        (f.fn ≠ 1 → convOk w f.fn.toNat → k.st = .free → ∀ loc,
          t.range f.a off (if f.fn = 2 then imageSize mf else storedSize mf) 1 false = .ok loc → loc.addr % 16 = 0 →
          GoesOn (.cpyt f) s r f ((fills id tf qs).joinInst r g t
            (act (.tileIn loc id (f.fn == 2) mq qs mf tf) lc 0x81) none)) ∧
        (f.fn ≠ 1 → convOk w f.fn.toNat → k.st ≠ .free → ∀ loc,
          t.range f.a off (if f.fn = 2 then imageSize mf else storedSize mf) 1 false = .ok loc → loc.addr % 16 = 0 →
          StopsWith (.cpyt f) s r (.of .copyOperand 9)) ∧
        (f.fn = 1 → convOk w 1 → k.st = .free ∨ k.st = .full ∧ k.data.bad = false → ∀ loc,
          t.range f.a off (storedSize mf) 1 true = .ok loc → loc.addr % 16 = 0 →
          (tf ≠ k.data.fmt ∨ qs ≠ k.data.qs → StopsWith (.cpyt f) s r (.of .copyOperand 8)) ∧
          (tf = k.data.fmt → qs = k.data.qs → Joins (.cpyt f) s r g t f
            (act (.tileOut id loc (k.st == .free) mq mf) lc 0x81))))

/-- R330, R334, R353, R355, R431: Element access. Lane l of the cohort reads or writes row R + l / 32, column l % 32,
where R is the row base of the lowest active lane. What the commit makes of a `tset`: each element that it names
takes its code, the raw bits or the value converted under the block's scale, and every other element, the scales
and the format stay. Where the spec leaves a point of this open, the clause is the model's choice: log entries 42
and 73. -/
def Obligations.TileElements : Prop :=
  ((∀ (s : State) (r : TRef) (g : Group) (t : Thread) (f : Fields), Issues s r g t (.tzf f) f →
     s.findInst r g t.pc = none →
     (g.name (r.tid / 64) f.a.toNat = .released → StopsWith (.tzf f) s r (.of .staleHandle 1)) ∧
     (g.name (r.tid / 64) f.a.toNat = .given → StopsWith (.tzf f) s r (.of .staleHandle 2)) ∧
     (∀ id k, Names s g r f.a.toNat id k →
       (k.st = .filling → k.fillDom = some (g.domOf r.tid) → StopsWith (.tzf f) s r (.of .matrixOperand 2)) ∧
       (k.st = .filling → k.fillDom ≠ some (g.domOf r.tid) → exec (.tzf f) s = .next s) ∧
       (k.st = .full → k.data.bad → StopsWith (.tzf f) s r (.of .scaleHeader)) ∧
       (k.st = .free ∨ k.st = .full ∧ k.data.bad = false → ∃ z : Word,
         GoesOn (.tzf f) s r f
           ((s.defer r (dstOf f.d) (.sampled [z])).joinInst r g t (.value (some [z])) (some s.fresh)) ∧
         ∀ row, row < 32 → (z.getLsbD row = true ↔ ∀ col, col < 32 → k.read.zeroAt row col)))) ∧
   (∀ (s : State) (gn coh : Nat) (g : Group) (r : TRef) (t : Thread) (l act : List (TRef × Thread)) (f : Fields),
     let row := t.rowBase f
     (CohortIssues s gn coh g l ((r, t) :: act) (.tget f) f → ∀ id k, Names s g r f.a.toNat id k →
       (k.st = .filling → k.fillDom = some (g.domOf r.tid) → StopsWith (.tget f) s r (.of .matrixOperand 2)) ∧
       (k.st = .filling → k.fillDom ≠ some (g.domOf r.tid) → exec (.tget f) s = .next s) ∧
       (k.st ≠ .filling → row % 2 = 1 ∨ 30 < row → StopsWith (.tget f) s r (.of .matrixOperand 1)) ∧
       (k.st = .free ∨ k.st = .full ∧ k.data.bad = false → row % 2 = 0 → row ≤ 30 →
         exec (.tget f) s = .next (State.onwardAll l f (((r, t) :: act).foldl (fun s p =>
           s.defer p.1 (dstOf f.d)
             (.tget id (row + p.1.tid % 64 / 32) (p.1.tid % 64 % 32) (f.fn == 1))) s)))) ∧
     (CohortIssues s gn coh g l ((r, t) :: act) (.tset f) f → s.findInst r g t.pc = none →
       ∀ id k, Names s g r f.d.toNat id k →
       (row % 2 = 1 ∨ 30 < row → StopsWith (.tset f) s r (.of .matrixOperand 1)) ∧
       (row % 2 = 0 → row ≤ 30 → k.st ≠ .full ∨ s.weighs id → StopsWith (.tset f) s r (.of .matrixOperand 2)) ∧
       (row % 2 = 0 → row ≤ 30 → k.st = .full → s.weighs id = false → s.recordReads id → exec (.tset f) s = .next s) ∧
       (row % 2 = 0 → row ≤ 30 → k.st = .full → s.weighs id = false → s.recordReads id = false →
         exec (.tset f) s = .next (State.onwardAll l f (s.joinInst r g t
           (.tset id (f.fn == 1) (((r, t) :: act).map fun p =>
             (row + p.1.tid % 64 / 32, p.1.tid % 64 % 32, if f.a = 248 then 0 else p.2.reg f.a.toNat))) none)))))) ∧
  (∀ (s : State) (gn d : Nat) (x : Group) (i : Inst) (t : Nat) (raw : Bool) (l : List (Nat × Nat × Word)) (z : Tile),
     s.group? gn = some x → s.effects x d = [] → (x.dom d).insts = [i] → i.act = .tset t raw l →
     s.tiles.find? t = some z → z.data.codes.sorted →
     ((∃ n ∈ x.names, n.2 = .mapped t) → (∀ u ∈ x.threads, u.takes = []) → ((s.commit gn d).tiles.find? t).isSome) ∧
     ∀ z', (s.commit gn d).tiles.find? t = some z' →
       let code (k : Nat) : Nat := Table.get 0 z'.data.codes k
       z'.st = z.st ∧ z'.data = { z.data with codes := z'.data.codes } ∧
       (∀ k, (∀ e ∈ l, e.1 * 32 + e.2.1 ≠ k) → code k = Table.get 0 z.data.codes k) ∧
       ∀ a e b, l = a ++ e :: b → (∀ q ∈ b, q.1 * 32 + q.2.1 ≠ e.1 * 32 + e.2.1) →
         let k := e.1 * 32 + e.2.1
         let fmt := z.data.fmt
         let scale := z.data.scaleAt e.1 e.2.1
         (raw → code k = e.2.2.toNat % 2 ^ elemBits fmt) ∧
         (raw = false → scaledFmt fmt → scale = 255 → code k = 0) ∧
         (raw = false → scaledFmt fmt → scale ≠ 255 →
           code k = (elemEncode fmt ((numF32 e.2.2).scale (127 - (scale : Int)))).1) ∧
         (raw = false → scaledFmt fmt = false → code k = (elemEncode fmt (numF32 e.2.2)).1))

/-- R329, R333, R338, R347, R356, R357, R360, R361, R363-R366: An instruction that builds a matrix record checks its
operands at issue, and its cohort's instance passes the record at the commit. `wld` binds the latch and `rslv`
makes its output handles filling at issue. `bcmp` and `bmov` build one record for the cohort, with a deferred
result for each active lane; it passes with the instance of the lowest active lane. Where the spec leaves a point
of this open, the clause is the model's choice: log entries 43, 44, 45, 71, 90, 99 and 128. -/
def Obligations.MatrixRecords : Prop :=
  (∀ (s : State) (r : TRef) (g : Group) (t : Thread) (f : Fields), s.findInst r g t.pc = none →
     let bh := f.d.toNat
     let row0 := f.imm.toNat % 512
     let nrow := f.imm.toNat / 512 % 512 + 1
     let coh := r.tid / 64
     let fm := (s.launchOf g).fmask
     let base : Word := if f.b = 248 then 0 else t.reg f.b.toNat
     let desc : Word := if f.c = 248 then 0 else t.reg f.c.toNat
     let rec_ (kind id row0 nrow : Nat) : MRec :=
       { grp := r.grp, dom := g.domOf r.tid, coh := coh, kind := kind, bas := id, bh := bh, row0 := row0, nrow := nrow,
         pc := t.pc, rank := s.rank g r.tid }
     let region (id : Nat) (b : Basin) : Prop := g.basins.find? bh = some id ∧ s.basins.find? id = some b
     let run (n : Nat) (tiles : List Nat) : Prop :=
       f.a.toNat + n ≤ 64 ∧ tiles.length = n ∧ ∀ k (h : k < tiles.length), g.name coh (f.a.toNat + k) = .mapped tiles[k]
     let blocks := (nrow + 31) / 32
     (Issues s r g t (.binit f) f →
       (g.basins.find? bh = none → StopsWith (.binit f) s r (.of .staleHandle 3)) ∧
       ∀ id b, region id b →
         let anch := if f.fn = 1 then 256 else f.imm.toNat / 2 ^ 18 % 256
         (b.rows < row0 + nrow ∨ anch = 255 → StopsWith (.binit f) s r (.of .matrixOperand 1)) ∧
         (row0 + nrow ≤ b.rows → anch ≠ 255 →
           Joins (.binit f) s r g t f (.record { rec_ 4 id row0 nrow with anch := anch }))) ∧
     (Issues s r g t (.bscale f) f → ∀ id b, region id b →
         let n := (BitVec.ofNat 8 (f.imm.toNat / 2 ^ 18 % 256)).toInt
         (b.rows < row0 + nrow ∨ n < -64 ∨ 64 < n → StopsWith (.bscale f) s r (.of .matrixOperand 1)) ∧
         (row0 + nrow ≤ b.rows → -64 ≤ n → n ≤ 64 →
           Joins (.bscale f) s r g t f (.record { rec_ 9 id row0 nrow with shift := n }))) ∧
     (Issues s r g t (.bsave f) f → ∀ id b, region id b →
         (b.rows < row0 + nrow → StopsWith (.bsave f) s r (.of .matrixOperand 1)) ∧
         (row0 + nrow ≤ b.rows → base.toNat % 16 ≠ 0 → ∀ loc, t.place f.a.toNat base.toNat (2304 * nrow) true = .ok loc →
           StopsWith (.bsave f) s r (.of .alignment 0 loc.addr)) ∧
         (row0 + nrow ≤ b.rows → base.toNat % 16 = 0 → ∀ loc, t.place f.a.toNat base.toNat (2304 * nrow) true = .ok loc →
           Joins (.bsave f) s r g t f (.record { rec_ 7 id row0 nrow with
             loc := loc, lce := if f.imm.getLsbD 23 then some (f.imm.toNat / 2 ^ 18 % 32) else none }))) ∧
     (Issues s r g t (.brst f) f → ∀ id b, region id b →
         (b.rows < row0 + nrow → StopsWith (.brst f) s r (.of .matrixOperand 1)) ∧
         (row0 + nrow ≤ b.rows → base.toNat % 16 ≠ 0 → ∀ loc, t.place f.a.toNat base.toNat (2304 * nrow) false = .ok loc →
           StopsWith (.brst f) s r (.of .alignment 0 loc.addr)) ∧
         (row0 + nrow ≤ b.rows → base.toNat % 16 = 0 → ∀ loc, t.place f.a.toNat base.toNat (2304 * nrow) false = .ok loc →
           Joins (.brst f) s r g t f (.record { rec_ 8 id row0 nrow with
             loc := loc, lce := if f.imm.getLsbD 23 then some (f.imm.toNat / 2 ^ 18 % 32) else none }))) ∧
     (Issues s r g t (.wld f) f → ∀ id b, region id b →
         let kb0 := f.imm.toNat % 16
         let nk := f.imm.toNat / 16 % 16 + 1
         let ncol := f.imm.toNat / 256 % 8 + 1
         let done (fmt : Nat) (m : MRec) : State :=
           (s.modBasin id fun b => { b with bind := b.bind.load s.fresh fmt kb0 nk ncol }).joinInst r g t (.record
             { m with kb0 := kb0, nk := nk, ncol := ncol, qs := f.imm.getLsbD 11, ofmt := fmt, base := base.toNat,
                      desc := desc }) none
         (f.x.getLsbD 0 = false → ∀ tiles fmt qs, run (nk * ncol) tiles → (∀ i ∈ tiles, s.recorded i = (fmt, qs)) →
           (6 < ncol ∨ bandsOf fmt < kb0 + nk → StopsWith (.wld f) s r (.of .matrixOperand 1)) ∧
           (ncol ≤ 6 → kb0 + nk ≤ bandsOf fmt → s.anyBad tiles → StopsWith (.wld f) s r (.of .scaleHeader)) ∧
           (ncol ≤ 6 → kb0 + nk ≤ bandsOf fmt → s.anyBad tiles = false →
             GoesOn (.wld f) s r f (done fmt { rec_ 2 id 0 1 with th := f.a.toNat, tiles := tiles }))) ∧
         (f.x.getLsbD 0 → ncol ≤ 6 → kb0 + nk ≤ bandsOf (descFmt desc) →
           (fmtFeatures (descFmt desc)).all fm.getLsbD →
           (spOk base desc [0, 1, 2, 3, 4, 5] (nk * ncol) = false → StopsWith (.wld f) s r (.of .matrixOperand 4)) ∧
           (spOk base desc [0, 1, 2, 3, 4, 5] (nk * ncol) →
             let heads := s.spHeaders g base.toNat desc (f.imm.getLsbD 11) (nk * ncol)
             (∀ e, heads = .error e → StopsWith (.wld f) s r e) ∧
             (heads = .ok () → GoesOn (.wld f) s r f (done (descFmt desc) { rec_ 2 id 0 1 with scr := true }))))) ∧
     (Issues s r g t (.mma f) f → ∀ id b, region id b →
         let kb0 := f.imm.toNat / 2 ^ 18 % 16
         let nk := f.imm.toNat / 2 ^ 22 % 16 + 1
         let mine (scr : Bool) (tiles : List Nat) : MRec :=
           { rec_ 1 id row0 nrow with kb0 := kb0, nk := nk, qs := f.imm.getLsbD 26, scr := scr,
                                      th := if scr then 0 else f.a.toNat, tiles := tiles, base := base.toNat, desc := desc }
         (f.x.getLsbD 0 = false → ∀ tiles, run (blocks * nk) tiles →
           (b.rows < row0 + nrow ∨ bandsOf b.bind.fmt < kb0 + nk → StopsWith (.mma f) s r (.of .matrixOperand 1)) ∧
           (row0 + nrow ≤ b.rows → kb0 + nk ≤ bandsOf b.bind.fmt →
             (s.anyBad tiles → StopsWith (.mma f) s r (.of .scaleHeader)) ∧
             (s.anyBad tiles = false → Joins (.mma f) s r g t f (.record (mine false tiles))))) ∧
         (f.x.getLsbD 0 → row0 + nrow ≤ b.rows → kb0 + nk ≤ bandsOf b.bind.fmt →
           (fmtFeatures (descFmt desc)).all fm.getLsbD →
           (spOk base desc [0, 1, 2, 3, 4, 5] (blocks * nk) = false → StopsWith (.mma f) s r (.of .matrixOperand 4)) ∧
           (spOk base desc [0, 1, 2, 3, 4, 5] (blocks * nk) →
             let heads := s.spHeaders g base.toNat desc (f.imm.getLsbD 26) (blocks * nk)
             (∀ e, heads = .error e → StopsWith (.mma f) s r e) ∧
             (heads = .ok () → Joins (.mma f) s r g t f (.record (mine true [])))))) ∧
     (Issues s r g t (.rslv f) f → ∀ id b, region id b →
         let ncol := f.imm.toNat / 2 ^ 18 % 8 + 1
         let fmt := f.imm.toNat / 2 ^ 21 % 8
         let qs := f.imm.getLsbD 24
         let mine (scr : Bool) (tiles : List Nat) : MRec :=
           { rec_ 3 id row0 nrow with
             ncol := ncol, ofmt := fmt, qs := qs, scr := scr, th := if scr then 0 else f.a.toNat, tiles := tiles, base := base.toNat, desc := desc,
             lce := if f.imm.getLsbD 30 then some (f.imm.toNat / 2 ^ 25 % 32) else none }
         (f.x.getLsbD 0 = false → ∀ tiles, run (blocks * ncol) tiles →
           (b.rows < row0 + nrow ∨ 6 < ncol ∨ 5 < fmt → StopsWith (.rslv f) s r (.of .matrixOperand 1)) ∧
           (row0 + nrow ≤ b.rows → ncol ≤ 6 → fmt ≤ 5 →
             ((∃ i ∈ tiles, ∃ k, s.tiles.find? i = some k ∧ k.st ≠ .free) →
               StopsWith (.rslv f) s r (.of .matrixOperand 2)) ∧
             ((∀ i ∈ tiles, ∃ k, s.tiles.find? i = some k ∧ k.st = .free) → GoesOn (.rslv f) s r f
               ((tiles.foldl (fun s i => s.modTile i fun k =>
                   { k with st := .filling, data := { fmt := fmt, qs := qs && scaledFmt fmt },
                            fillDom := some (g.domOf r.tid), fillBy := none }) s).joinInst r g t
                 (.record (mine false tiles)) none)))) ∧
         (f.x.getLsbD 0 → row0 + nrow ≤ b.rows → ncol ≤ 6 → fmt ≤ 6 → (fmtFeatures (descFmt desc)).all fm.getLsbD →
           (spOk base desc [0, 1, 2, 3, 4, 5, 6] (blocks * ncol) = false ∨ descFmt desc ≠ fmt →
             StopsWith (.rslv f) s r (.of .matrixOperand 4)) ∧
           (spOk base desc [0, 1, 2, 3, 4, 5, 6] (blocks * ncol) → descFmt desc = fmt →
             Joins (.rslv f) s r g t f (.record (mine true [])))))) ∧
  (∀ (s : State) (gn coh : Nat) (g : Group) (r : TRef) (t : Thread) (l act : List (TRef × Thread)) (f : Fields)
     (id : Nat) (b : Basin), g.basins.find? f.a.toNat = some id → s.basins.find? id = some b →
     let row0 := f.imm.toNat % 512
     let rec_ (kind nrow : Nat) : MRec :=
       { grp := r.grp, dom := g.domOf r.tid, coh := r.tid / 64, kind := kind, bas := id, bh := f.a.toNat, row0 := row0,
         nrow := nrow, pc := t.pc, rank := s.rank g r.tid, fn := f.fn.toNat }
     let acts := (r, t) :: act
     let all (m : MRec) (words : Nat) : State :=
       (acts.foldl (fun s p => s.defer p.1 (dstOf f.d words) .engine) s).joinInstWith r g t (.record m)
         ((acts.zip (List.range acts.length)).map fun p => (p.1.1, s.fresh + p.2))
     (CohortIssues s gn coh g l ((r, t) :: act) (.bcmp f) f →
       let nrow := f.imm.toNat / 512 % 64 + 1
       (b.rows < row0 + nrow → StopsWith (.bcmp f) s r (.of .matrixOperand 1)) ∧
       (row0 + nrow ≤ b.rows → exec (.bcmp f) s = .next (State.onwardAll l f (all (rec_ 5 nrow) 1)))) ∧
     (CohortIssues s gn coh g l ((r, t) :: act) (.bmov f) f →
       let col0 := f.imm.toNat / 512 % 256
       (b.rows ≤ row0 ∨ 191 < col0 → StopsWith (.bmov f) s r (.of .matrixOperand 1)) ∧
       (row0 < b.rows → col0 ≤ 191 → exec (.bmov f) s = .next (State.onwardAll l f
         (all { rec_ 6 1 with col0 := col0 } (if f.fn = 1 then 3 else 1))))))

/-- R335, R358, R359, R367: rows of a Basin are bound and freed, and `mtaskq` passes an array of records. Where the
spec leaves a point of this open, the clause is the model's choice: log entries 20, 43 and 49. -/
def Obligations.BasinRegions : Prop :=
  ∀ (s : State) (r : TRef) (g : Group) (t : Thread) (f : Fields), s.findInst r g t.pc = none →
    let bh := f.d.toNat
    (Issues s r g t (.balloc f) f →
      let rows := f.imm.toNat % 1024
      let core := quadOf g.core * 4 + f.imm.toNat / 1024 % 4
      (g.basins.find? bh ≠ none → StopsWith (.balloc f) s r (.of .matrixOperand 2)) ∧
      (g.basins.find? bh = none →
        (rows % 32 ≠ 0 ∨ rows < 32 ∨ 512 < rows ∨ (s.core core).arrayOut →
          StopsWith (.balloc f) s r (.of .matrixOperand 6)) ∧
        (rows % 32 = 0 → 32 ≤ rows → rows ≤ 512 → (s.core core).arrayOut = false →
          (∀ e ∈ s.ballocs, e.core ≠ core ∧ ¬ (e.who.grp = r.grp ∧ e.pc = t.pc)) →
          s.handleBusy r.grp bh = false →
          (∀ row, s.freeRows core rows = some row → ∃ s' : State, GoesOn (.balloc f) s r f (s'.joinInst r g t .none none) ∧
            s'.basins.find? s.fresh = some { grp := r.grp, bh := bh, core := core, row := row, rows := rows } ∧
            s'.group? r.grp = some { g with basins := g.basins.put bh s.fresh }) ∧
          (s.freeRows core rows = none → exec (.balloc f) s = .next { s with
            ballocs := s.ballocs ++ [{ who := r, pc := t.pc, bh := bh, rows := rows, core := core }] })))) ∧
    (Issues s r g t (.bfree f) f →
      (g.basins.find? bh = none → StopsWith (.bfree f) s r (.of .staleHandle 3)) ∧
      (∀ id, g.basins.find? bh = some id → GoesOn (.bfree f) s r f
        ((((s.modGroup r.grp fun x => { x with basins := x.basins.erase bh }).modBasin id fun b =>
          { b with freed := true }).gcBasins.gcTiles).joinInst r g t .none none))) ∧
    (Issues s r g t (.mtaskq f) f →
      let off := (if f.b = 248 then 0 else t.reg f.b.toNat).toNat
      let n := (if f.c = 248 then 0 else t.reg f.c.toNat).toNat
      (n = 0 ∨ 4096 < n → StopsWith (.mtaskq f) s r (.of .matrixOperand 1)) ∧
      (0 < n → n ≤ 4096 → f.a = 248 → off % 64 ≠ 0 → StopsWith (.mtaskq f) s r (.of .matrixOperand 4)) ∧
      (0 < n → n ≤ 4096 → off % 64 = 0 → ∀ loc, t.place f.a.toNat off (64 * n) false = .ok loc →
        Joins (.mtaskq f) s r g t f (.array { grp := r.grp, dom := g.domOf r.tid, coh := r.tid / 64, loc := loc, count := n,
                                              pc := t.pc, rank := s.rank g r.tid })))

/-- R408, R410, R411, R415-R417: the instructions of the fabric engine. A remote operation samples its words and
passes at the boundary, a collective is one instance of its cohort, and `xqry` and `digest` are deferred results.
Where the spec leaves a point of this open, the clause is the model's choice: log entries 44, 50 and 51. -/
def Obligations.FabricInstructions : Prop :=
  ∀ (s : State) (r : TRef) (g : Group) (t : Thread) (f : Fields),
    let lc := if f.d = 248 then none else some f.d.toNat
    let n := f.fn.toNat + 1
    let me (kind : RemoteKind) (acc : Acc) (ctr q : Option Nat) (op : Nat) : Fx :=
      .remote { grp := r.grp, launch := g.launch, kind := kind, acc := acc, ctr := ctr, taker := q.map fun k => (r, k),
                op := op, pc := t.pc, rank := s.rank g r.tid }
    (Issues s r g t (.xput f) f →
      (∀ e, s.operand g t f (4 * n) 4 true (.peer true) = .error e → StopsWith (.xput f) s r e) ∧
      (∀ acc ls, s.operand g t f (4 * n) 4 true (.peer true) = .ok (acc, ls) → Buffers (.xput f) s r f
        (me (.xput ((List.range n).map fun i => t.reg (f.b.toNat + i))) acc lc none 0xD0))) ∧
    (Issues s r g t (.xget f) f →
      (∀ e, s.operand g t f (4 * n) 4 false (.peer false) = .error e → StopsWith (.xget f) s r e) ∧
      (∀ acc ls, s.operand g t f (4 * n) 4 false (.peer false) = .ok (acc, ls) → GoesOn (.xget f) s r f
        ((s.defer r (dstOf f.d n) .engine).buffer r (me (.xget n) acc none (some s.fresh) 0xD1)))) ∧
    (Issues s r g t (.xfwr f) f →
      ((s.launchOf g).r.det → StopsWith (.xfwr f) s r (.of .determinism)) ∧
      ((s.launchOf g).r.det = false →
        (∀ e, s.operand g t f 4 4 true (.peer true) = .error e → StopsWith (.xfwr f) s r e) ∧
        (∀ acc ls, s.operand g t f 4 4 true (.peer true) = .ok (acc, ls) → GoesOn (.xfwr f) s r f
          ((s.defer r (dstOf f.d) .engine).buffer r
            (me (.xfwr f.m.toNat f.t (if f.b = 248 then 0 else t.reg f.b.toNat)) acc none (some s.fresh) 0xD2))))) ∧
    (Issues s r g t (.xqry f) f → Defers (.xqry f) s r f (dstOf f.d) (.xqry f.fn.toNat)) ∧
    (Issues s r g t (.digest f) f →
      (63 < (t.opA f).toNat → StopsWith (.digest f) s r (.of .copyOperand 12)) ∧
      ((t.opA f).toNat ≤ 63 → Defers (.digest f) s r f (dstOf f.d 4) (.digest (t.opA f).toNat f.fn.toNat))) ∧
    ∀ i : Instr, i = .xallg f ∨ i = .xred f ∨ i = .xbcst f → Issues s r g t i f →
      let l := s.launchOf g
      let len := (t.reg (f.b.toNat + 1)).toNat
      let ranks := l.r.podn + 1
      let root := if i = .xbcst f then f.imm.toNat else 0
      let fits := match i with
        | .xallg _ => 4 ≤ len ∧ len ≤ 2 ^ 20 ∧ len % 4 = 0
        | .xbcst _ => 4 ≤ len ∧ len ≤ 2 ^ 22 ∧ len % 4 = 0
        | _ => 1 ≤ len ∧ len ≤ 2 ^ 18
      let sl := if i = .xred f then 4 * len else len
      let dl := if i = .xred f then 4 * len else if i = .xallg f then ranks * len else len
      (g.grp ≠ 0 ∨ l.r.gang ≠ 4 → StopsWith i s r (.of .copyOperand 11)) ∧
      (g.grp = 0 → l.r.gang = 4 → ¬ fits ∨ ranks ≤ root → StopsWith i s r (.of .copyOperand 10)) ∧
      (g.grp = 0 → l.r.gang = 4 → fits → root < ranks → ∀ src dst, t.range f.a (t.reg f.b.toNat).toNat sl 1 false = .ok src →
        t.range f.a (if f.c = 248 then (0 : Word) else t.reg f.c.toNat).toNat dl 1 true = .ok dst →
        (src.addr < dst.addr + dl → dst.addr < src.addr + sl → StopsWith i s r (.of .copyOperand 2)) ∧
        (dst.addr + dl ≤ src.addr ∨ src.addr + sl ≤ dst.addr → Joins i s r g t f (.collective
          { grp := r.grp, op := i.op.toNat, fn := f.fn.toNat, t := f.t, src := src, dst := dst, len := len, root := root,
            ctr := lc, pc := t.pc, rank := s.rank g r.tid })))

/-- R382, R383, R390, R392-R395: The instructions of the dispatch engine; all but the timer wait for the boundary.
What the commit makes of the dispatch effects of a step: a spawn record goes on top of the core's deque, or in its
die's spill queue, with the next group number; a launch record waits for its queue; ROLE and the class take the
lowest rank's value; a `yield` saves the group where the die holds a candidate of its class or a more urgent one.
Where the spec leaves a point of this open, the clause is the model's choice: log entries 27 and 101. -/
def Obligations.DispatchInstructions : Prop :=
  (∀ (s : State) (r : TRef) (g : Group) (t : Thread) (f : Fields),
     (Issues s r g t (.spawn f) f →
       (∀ e, s.checkHeader g (t.target f) entryKind = .error e → StopsWith (.spawn f) s r e) ∧
       (∀ b, s.checkHeader g (t.target f) entryKind = .ok b →
         ((s.launchOf g).r.det → StopsWith (.spawn f) s r (.of .determinism)) ∧
         ((s.launchOf g).r.det = false → Buffers (.spawn f) s r f
           (.spawn (BitVec.ofInt 32 (t.target f)) (f.fn.toNat + 1) (t.opB f) (t.reg (f.b.toNat + 1)) t.pc)))) ∧
     (Issues s r g t (.launch f) f →
       let off := (t.opB f).toNat
       let q := (t.opC f).toNat
       (∀ e, t.place f.a.toNat off 128 false = .error e → StopsWith (.launch f) s r e) ∧
       (∀ loc, t.place f.a.toNat off 128 false = .ok loc →
         (∀ e, s.accessAt (s.aspace g) loc 128 1 .read = .error e → StopsWith (.launch f) s r e) ∧
         (∀ acc ls, s.accessAt (s.aspace g) loc 128 1 .read = .ok (acc, ls) →
           (off % 64 ≠ 0 → StopsWith (.launch f) s r (.of .dispatchOperand 1)) ∧
           (off % 64 = 0 → 63 < q → StopsWith (.launch f) s r (.of .dispatchOperand 2)) ∧
           (off % 64 = 0 → q ≤ 63 → (s.queueAt q).opened = false ∨ (s.queueAt q).dev = false →
             StopsWith (.launch f) s r (.of .dispatchOperand 3)) ∧
           (off % 64 = 0 → q ≤ 63 → (s.queueAt q).opened → (s.queueAt q).dev → Buffers (.launch f) s r f
             (.launch acc q (if f.d = 248 then none else some f.d.toNat)))))) ∧
     (Issues s r g t (.yield f) f → Buffers (.yield f) s r f .yield) ∧
     (Issues s r g t (.role f) f →
       (255 < (t.opA f).toNat → StopsWith (.role f) s r (.of .dispatchOperand 4)) ∧
       ((t.opA f).toNat ≤ 255 → Buffers (.role f) s r f (.role ((t.opA f).setWidth 8)))) ∧
     (Issues s r g t (.prio f) f →
       let a := (t.opA f).toNat
       (3 < a ∨ a < (s.launchOf g).r.prio → StopsWith (.prio f) s r (.of .dispatchOperand 4)) ∧
       (a ≤ 3 → (s.launchOf g).r.prio ≤ a → Buffers (.prio f) s r f (.prio a))) ∧
     (Issues s r g t (.tmset f) f → GoesOn (.tmset f) s r f (s.modThread r fun t => { t with tmr := t.opA f }))) ∧
  (∀ (s : State) (gn d : Nat) (x : Group) (tid : Nat),
     let s' := s.commit gn d
     let l := s.launchOf x
     (∀ entry n v0 v1 pc, Commits s gn d x [(tid, .spawn entry n v0 v1 pc)] →
       let sp : Spawn := { launch := x.launch, grp := l.r.ngrp + l.spawns, entry := entry, ncoh := n, v0 := v0, v1 := v1,
                           by_ := some (gn, d) }
       let die := dieOf x.core
       ((s.core x.core).deque.length < 64 → (s'.core x.core).deque = (s.core x.core).deque ++ [sp] ∧ s'.spill = s.spill) ∧
       (64 ≤ (s.core x.core).deque.length → s'.core x.core = s.core x.core ∧
         Table.get [] s'.spill die = Table.get [] s.spill die ++ [sp]) ∧
       (∀ k, s.launch? x.launch = some k → ∃ k', s'.launch? x.launch = some k' ∧ k'.spawns = k.spawns + 1)) ∧
     (∀ acc q ctr, Commits s gn d x [(tid, .launch acc q ctr)] → q < s.queues.length →
       (s'.queueAt q).wait = (s.queueAt q).wait ++ [{ grp := gn, by_ := some d, acc := acc, ctr := ctr }] ∧
       (s'.queueAt q).tail = (s.queueAt q).tail ∧
       ∀ c, ctr = some c → ∃ y, s'.group? gn = some y ∧ y.ctrs = x.ctrs.modify c fun k => { k with out := k.out + 1 }) ∧
     (∀ b rest, Commits s gn d x ((tid, .role b) :: rest) → (∀ p ∈ rest, p.1 ≠ tid ∧ ∃ c, p.2 = .role c) →
       ∃ y, s'.group? gn = some y ∧ y.roles.length = x.roles.length ∧
         (tid / 64 < x.ncoh → tid / 64 < x.roles.length → y.roles[tid / 64]? = some b) ∧
         ∀ c, c ≠ tid / 64 → (∀ p ∈ rest, p.1 / 64 ≠ c) → y.roles[c]? = x.roles[c]?) ∧
     (∀ n rest, Commits s gn d x ((tid, .prio n) :: rest) → (∀ p ∈ rest, p.1 ≠ tid ∧ ∃ c, p.2 = .prio c) →
       ∃ y, s'.group? gn = some y ∧ y.prio = n) ∧
     (Commits s gn d x [(tid, .yield)] → ∃ y, s'.group? gn = some y ∧ y.prio = x.prio ∧
       y.save = if s.hasCandidate x.core x.prio then some 3 else x.save) ∧
     (∀ i n, x.st = .running → Commits s gn d x [(i, .prio n), (tid, .yield)] → ∃ y, s'.group? gn = some y ∧ y.prio = n ∧
       y.save = if s.hasCandidate x.core n then some 3 else x.save))

/-- R18, R19, R24, R27, R39, R43, R46, R116, R144, R221, R258-R260, R265, R387, R389, R418, R422: Results return,
cells are prepared in the order of their events, and a boundary that is due completes: its event is withheld and
traps the group, or it commits once every cell is acknowledged, performs its AtomicOps, and lands once nothing
holds it. The release of a wider step lets each of its domains on a core go on, or keeps it where a save or a lane
test stopped it; the others are as they were, and memory stays where no launch record of the group waits for the
release. A set of threads leaves no join while a live one of it waits at none; then those that wait at the lowest
of all their joins leave it, and the others stay. Where the spec leaves a point of this open, the clause is the
model's choice: log entries 9, 53, 66, 69, 78, 85, 94, 95, 100, 101, 106 and 115. -/
def Obligations.BoundaryEvents : Prop :=
  (∀ (s : State) (gn d : Nat) (x : Group), s.group? gn = some x →
     let e := Instr.stepBoundaryComplete gn d
     let c := (s.commit gn d).firstReads
     let c' := s.drainHeld gn d
     ((x.dom d).phase = .run → d < x.doms.length →
       ((∃ i t, i ∈ x.liveTids d ∧ x.threads[i]? = some t ∧ (t.arr = none ∧ t.st = .ready ∨ ∃ q ∈ t.defs, q.src.early)) →
         NotNow e s) ∧
       (boundaryDue x d →
         let cells := prepCells (s.writers x d)
         let back := s.modDom gn d fun k => { k with prep := none, prepNo := none }
         (s.poisonedBase (s.writers x d) → Happens e s ((s.kill gn).trySave gn)) ∧
         (s.poisonedBase (s.writers x d) = false →
           (∀ t, withheld s x d = some t →
             (x.flushes = false → Happens e s ((back.trap gn
               ((List.range x.threads.length).filter fun i => t.rank == some (s.rank x i)) t).trySave gn)) ∧
             (x.flushes → Happens e s ((back.endFlush gn).trySave gn))) ∧
           (withheld s x d = none → (x.dom d).acked cells = false ∨ s.mustWait gn d x → NotNow e s) ∧
           (withheld s x d = none → (x.dom d).acked cells → s.mustWait gn d x = false → ∀ y, c.group? gn = some y →
             (y.flushes → Happens e s ((c.endFlush gn).trySave gn)) ∧
             (y.flushes = false → c.held gn d y → Happens e s ((c.wakeAcquires gn).trySave gn)) ∧
             (y.flushes = false → c.held gn d y = false → Happens e s ((c.landDomain gn d).trySave gn)))))) ∧
     ((x.dom d).phase = .committed → d < x.doms.length → x.st = .running → ∀ y, c'.group? gn = some y →
       c'.held gn d y = false → Happens e s ((c'.landDomain gn d).trySave gn)) ∧
     (∀ tid k t q, x.st = .running → x.threads[tid]? = some t → (t.defs.find? fun z => z.seq == k) = some q →
       let e := Instr.deferredResultReturn gn tid k
       (∀ acc ty fn, q.src = .load acc ty fn →
         (acc.keys.any s.prepared → NotNow e s) ∧
         (acc.keys.any s.prepared = false → s.poisoned acc.keys → Happens e s (s.kill gn)) ∧
         (acc.keys.any s.prepared = false → s.poisoned acc.keys = false →
           Happens e s (s.result ⟨gn, tid⟩ k (.vals [widen ty fn (s.readNat acc.keys)])))) ∧
       (∀ w, q.src = .sampled w → Happens e s (s.result ⟨gn, tid⟩ k (.vals w))) ∧
       (∀ n p r, q.src = .lcget n p → x.ctrs[n]? = some r → Happens e s (s.result ⟨gn, tid⟩ k (.vals [r.part p]))) ∧
       (∀ r, q.src = .rhead r → Happens e s (s.result ⟨gn, tid⟩ k (.vals [(x.ring r).status]))) ∧
       (∀ ch n, q.src = .tqry ch n → Happens e s (s.shareValue gn x tid k [s.tqryWord x ch n])) ∧
       (∀ n, q.src = .xqry n → Happens e s (s.result ⟨gn, tid⟩ k (.vals [s.xqryWord gn x n]))) ∧
       (∀ n p, q.src = .digest n p → Happens e s (s.result ⟨gn, tid⟩ k (.vals (s.digestWords n p))))) ∧
     (∀ k cs z, s.dueCells gn d = some cs → cs[k]? = some z → z.st = .pending →
       let e := Instr.prepareAcknowledge gn d k
       let goes (st : Prep) : State := (s.modDom gn d fun x =>
         { x with prep := some (setCell cs z.key z.site st), prepNo := some (x.prepNo.getD s.fresh) }).bump
       let before := s.earlierHolds gn d (x.dom d).prepNo fun c => c.key == z.key && c.st == .pending
       (before → NotNow e s) ∧
       (before = false →
         (z.site = .direct → Happens e s (goes .acked)) ∧
         (∀ q, z.site = .gaffer q →
           ((s.quad q).gaffer.length < 1024 → Happens e s
             ((goes .queued).modQuad q fun x => { x with gaffer := x.gaffer ++ [.cell gn d z.key] })) ∧
           (1024 ≤ (s.quad q).gaffer.length → NotNow e s)))) ∧
     (∀ a : Satom,
       let old : Word := BitVec.ofNat 32 (s.readNat a.acc.keys)
       let new : Word := if a.fn = 0 then old + a.x else if a.fn = 1 then a.x else if old = a.x then a.y else old
       (s.poisoned a.acc.keys = false →
         s.performAtom a false = (s.writeBytes a.acc.keys (bytesOf 4 new.toNat), some old)) ∧
       s.performAtom a true = (s, none) ∧ (s.poisoned a.acc.keys → s.performAtom a false = (s, none))) ∧
     (∀ r a old rest, (x.dom d).satoms = (r, a, old) :: rest → d < x.doms.length →
       (old = none → Happens (.atomicopComplete gn d true) s (s.kill gn) ∧ NotNow (.atomicopComplete gn d false) s) ∧
       (∀ w, old = some w → NotNow (.atomicopComplete gn d true) s ∧
         Happens (.atomicopComplete gn d false) s
           ((s.modDom gn d fun k => { k with satoms := rest }).result r a.seq (.vals [w])))) ∧
     (∀ scope, x.widerScope = some scope →
       let ps := s.participants scope gn x
       (ps.all (s.waitsAt scope) = false ∨ scope = 5 ∧ s.partnersWait (s.launchOf x) = false →
         NotNow (.widerStepRelease gn) s) ∧
       (ps.all (s.waitsAt scope) → (scope = 5 → s.partnersWait (s.launchOf x)) →
         Happens (.widerStepRelease gn) s ((s.releaseStep x scope ps).afterStep gn x scope)))) ∧
  (∀ (s : State) (p : Nat × Nat) (y : Group), s.group? p.1 = some y → p.2 < y.doms.length →
     (∀ k ∈ s.queues, ∀ e ∈ k.wait, e.grp ≠ p.1) →
     ∃ z, (s.releaseWider p).group? p.1 = some z ∧ (s.releaseWider p).mem = s.mem ∧
       (y.resident → y.save = none → y.testHold = false → (z.dom p.2).phase = .run) ∧
       (y.resident = false ∨ y.save ≠ none ∨ y.testHold → (z.dom p.2).phase = .stopped ∧ z.threads = y.threads) ∧
       (∀ d, d ≠ p.2 → z.dom d = y.dom d) ∧
       (∀ g, g ≠ p.1 → (s.releaseWider p).group? g = s.group? g)) ∧
  (∀ (ts : List (Nat × Thread)) (grp : Bool),
     ((∃ p ∈ ts, p.2.live ∧ p.2.joinAt = none) → joinTest ts grp = []) ∧
     ((∀ p ∈ ts, p.2.live → p.2.joinAt ≠ none) → ∀ i, i ∈ joinTest ts grp ↔ ∃ p ∈ ts, p.1 = i ∧ p.2.live ∧
       ∃ o, p.2.joinAt = some (o, grp) ∧ ∀ q ∈ ts, q.2.live → ∀ o' k, q.2.joinAt = some (o', k) → o.toNat ≤ o'.toNat))

/-- R129, R155, R260, R424: the Gaffer takes the oldest entry of its queue, or of its neighbour's in turn while the
neighbour does not run; it resolves a cell or answers a service request with 0xFFFFFFFF. At its timeout every
group with a cell there is killed. Where the spec leaves a point of this open, the clause is the model's choice:
log entries 23 and 102. -/
def Obligations.GafferEvents : Prop :=
  ∀ (s : State) (quad : Nat),
    let other := quad ^^^ 1
    let from_ := s.gafferTurn quad
    (s.gafferAway quad → NotNow (.gafferRequest quad) s) ∧
    ((s.quad from_).gaffer = [] → NotNow (.gafferRequest quad) s) ∧
    ((s.quad quad).gaffer = [] → NotNow (.gafferTimeout quad) s) ∧
    (s.gafferAway other = false → from_ = quad) ∧
    (s.gafferAway other → (s.quad other).gaffer ≠ [] → (s.quad quad).gaffer = [] ∨ (s.quad quad).turn → from_ = other) ∧
    (∀ e rest, (s.quad from_).gaffer = e :: rest → s.gafferAway quad = false →
      let s' := (s.modQuad from_ fun x => { x with gaffer := rest }).modQuad quad fun x =>
        { x with turn := s.gafferAway other && from_ == quad }
      (∀ g d key, e = .cell g d key → Happens (.gafferRequest quad) s
        (s'.modDom g d fun x => { x with prep := x.prep.map fun cs => setCell cs key (.gaffer from_) .acked })) ∧
      (∀ g off, e = .svc g off →
        let status : List Byte := [0xFF, 0xFF, 0xFF, 0xFF]
        ((s.group? g).isSome → Happens (.gafferRequest quad) s (s'.landScratch g off status)) ∧
        (s.group? g = none → Happens (.gafferRequest quad) s (s'.writeBytes (scratchKeys from_ off 4) status)))) ∧
    ((s.quad quad).gaffer ≠ [] →
      let q := (s.quad quad).gaffer
      let s' := s.modQuad quad fun x => { x with gaffer := [] }
      ∃ gs t, Happens (.gafferTimeout quad) s t ∧ t = s'.killAll gs ∧ gs.Nodup ∧
        (∀ g, g ∈ gs ↔ ∃ d key, GafferEntry.cell g d key ∈ q) ∧ (∀ g ∈ gs, t.group? g = none) ∧
        (gs = [] → t = s') ∧ (∀ g, gs = [g] → t = s'.kill g))

/-- R47, R94, R113, R121, R147, R156, R200, R258, R280, R328, R331, R335, R390, R418: what a core does for threads
that wait: checks of parks, grants to the head of a line, a fill of the instruction cache, a timer, the lane-sync
fault. The blocks that are free for an `xacq` are counted as log entry 105 says. Where the spec leaves a point of
this open, the clause is the model's choice: log entries 23, 55, 70, 86, 97, 105, 109 and 120. -/
def Obligations.WaitingThreads : Prop :=
  ∀ (s : State),
    (∀ gn tid x t, s.group? gn = some x → s.thread? ⟨gn, tid⟩ = some t → x.st = .running →
      (∀ w, t.st = .waitv w →
        let e := Instr.waitvPeriodicEvaluation gn tid
        let got := s.accessAt (s.aspace x) ⟨w.acc.sp, w.acc.va⟩ 4 1 .read
        let k := x.dom (x.domOf tid)
        (k.phase ≠ .run ∨ k.prep ≠ none ∨ t.late → Happens e s s) ∧
        (k.phase = .run → k.prep = none → t.late = false →
          (∀ asid va c, got = .error (.miss asid va c) →
            (x.awaitsPage asid (va / 2 ^ 16) → Happens e s s) ∧
            (x.awaitsPage asid (va / 2 ^ 16) = false → Happens e s (s.replay ⟨gn, tid⟩ asid va c))) ∧
          (∀ acc ls, got = .ok (acc, ls) →
            (acc.keys.any s.prepared → Happens e s s) ∧
            (acc.keys.any s.prepared = false → s.poisoned acc.keys → Happens e s (s.kill gn)) ∧
            (acc.keys.any s.prepared = false → s.poisoned acc.keys = false →
              let holds := cmpWord w.cmp w.t (BitVec.ofNat 32 (s.readNat acc.keys)) w.b
              (holds → Happens e s (s.modThread ⟨gn, tid⟩ fun t =>
                { t with st := if k.paused then .pause else .ready })) ∧
              (holds = false → Happens e s (s.modThread ⟨gn, tid⟩ fun t => { t with st := .waitv { w with unread := false } })))))) ∧
      (x.afterCommit tid t →
        let rings := t.defs.filterMap fun d => match d.src with
          | .racq r => some r
          | _ => none
        (rings ≠ [] → Happens (.racqPeriodicCheck gn tid) s (rings.foldl (fun s r => s.checkRing gn r) s)) ∧
        (t.takes ≠ [] → Happens (.ttakePeriodicCheck gn tid) s
          ((t.takes.foldl (fun s p => s.retryTake gn (tid / 64, p.1, p.2)) s).wakeAcquires gn))) ∧
      (t.live → s.timerDue t → Happens (.vtimeThreshold gn tid) s (s.timerTrap gn)) ∧
      (s.timerDue t = false → NotNow (.vtimeThreshold gn tid) s)) ∧
    (∀ gn ch x tid t rest, s.group? gn = some x →
      ((x.cohortLive ch).filter fun p => s.atSync x p.2) = (tid, t) :: rest → x.runs →
      ((∀ p ∈ x.cohortLive ch, s.blocked x p.2) → (∃ p ∈ x.cohortLive ch, s.atSync x p.2 = false ∨ p.2.pc ≠ t.pc) →
        Happens (.laneSyncFault gn ch) s (s.trap gn [tid] { cause := .laneSync })) ∧
      ((∃ p ∈ x.cohortLive ch, s.blocked x p.2 = false) → NotNow (.laneSyncFault gn ch) s)) ∧
    (∀ core gn coh rest x n m, (s.core core).xacqs = (gn, coh) :: rest → s.group? gn = some x →
      (((x.threads.drop (64 * coh)).take 64).findSome? fun t => match t.st with
        | .xacq n m => some (n, m)
        | _ => none) = some (n, m) → coh < x.held.length →
      (s.freeExtended core < n - x.held[coh]?.getD 0 → NotNow (.xacqGrant core) s) ∧
      (n - x.held[coh]?.getD 0 ≤ s.freeExtended core → ∃ s' y, Happens (.xacqGrant core) s s' ∧
        (s'.core core).xacqs = rest ∧ s'.group? gn = some y ∧ y.held = x.held.set coh n ∧ s'.mem = s.mem ∧
        ∀ i t, x.threads[i]? = some t → ∃ u, y.threads[i]? = some u ∧
          ∀ k, u.reg k = if i / 64 = coh ∧ 32 * (x.held[coh]?.getD 0 + 1) ≤ k then 0 else t.reg k)) ∧
    (∀ quad e rest x, (s.quad quad).tallocs = e :: rest → s.group? e.who.grp = some x →
      (s.poolFree quad < e.n → NotNow (.tallocGrant quad) s) ∧
      (e.n ≤ s.poolFree quad → Happens (.tallocGrant quad) s
        (((s.modQuad quad fun k => { k with tallocs := rest }).mapNames e.who.grp (e.who.tid / 64) e.first e.n).joinInst
          e.who x { pc := e.pc } .none none))) ∧
    (∀ core e x, (s.ballocs.find? fun b => b.core == core) = some e → s.group? e.who.grp = some x →
      (s.bindBasin e.who.grp core e.bh e.rows = none → NotNow (.ballocGrant core) s) ∧
      (∀ s', s.bindBasin e.who.grp core e.bh e.rows = some s' → Happens (.ballocGrant core) s
        (State.joinInst { s' with ballocs := s'.ballocs.filter (· != e) } e.who x { pc := e.pc } .none none))) ∧
    (∀ core gn hdr x tid t, s.group? gn = some x → x.core = core → x.runs → x.threads[tid]? = some t → t.st = .ready →
      t.here = hdr → (∀ i u, i < tid → x.threads[i]? = some u → u.st ≠ .ready ∨ u.here ≠ hdr) →
      let e := Instr.instructionCacheFill core gn hdr
      let r : TRef := ⟨gn, tid⟩
      let bad := Stop.of .badTarget 0 hdr.toNat
      (s.readBlock x hdr.toNat = .error .later → NotNow e s) ∧
      (∀ z, z ≠ .later → s.readBlock x hdr.toNat = .error z → Happens e s (s.stopAt r z)) ∧
      let ended := s.endFill core x.launch hdr
      (s.readBlock x hdr.toNat = .ok none → Happens e s (ended.stopAt r bad)) ∧
      (∀ bs, s.readBlock x hdr.toNat = .ok (some bs) →
        (checkByte (bs.take 8) = false → Happens e s (ended.stopAt r bad)) ∧
        (checkByte (bs.take 8) →
          ∃ s' b, Happens e s s' ∧ (s'.core core).ahead = (ended.core core).ahead ∧ b ∈ (s'.core core).blocks ∧
            b.launch = x.launch ∧ b.hdr = hdr ∧ b.bytes = bs ∧
            b.prot = !s.executable x hdr.toNat bs.length ∧ s'.mem = s.mem ∧ s'.groups = s.groups)))

/-- R46, R251, R252, R425: misses enter the fault buffer; the firmware serves the oldest entry of a buffer, brings its
page in or reports that it never can, and changes mappings of the spaces whose root it holds, so that no leaf
comes to stand on memory that is not ready. Where the spec leaves a point of this open, the clause is the model's
choice: log entries 16, 38, 87, 126 and 127. -/
def Obligations.TranslationEvents : Prop :=
  ∀ (s : State) (core : Nat) (asid : BitVec 16) (page : Nat),
    let a := asid.toNat
    (∀ m, (s.misses.find? fun m => m.core == core && !m.inBuffer) = some m →
      let same (n : Miss) : Bool := n.core == core && n.asid == m.asid && n.page == m.page
      (s.bufferCount core < 256 → Happens (.faultBufferEntry core) s
        { s with misses := s.misses.map fun n => if same n then { n with inBuffer := true } else n }) ∧
      (256 ≤ s.bufferCount core → (∀ n ∈ s.misses, same n → n.inBuffer = false) → NotNow (.faultBufferEntry core) s)) ∧
    (s.oldestMiss core ≠ some (a, page) →
      NotNow (.translationFillComplete core asid page) s ∧ NotNow (.fillFailure core asid page) s) ∧
    (s.oldestMiss core = some (a, page) →
      ((s.bringIn a page).present a page →
        let (s', who) := (s.bringIn a page).clearMiss core a page
        Happens (.translationFillComplete core asid page) s (who.foldl (fun s w => s.served a page w) s')) ∧
      ((s.bringIn a page).present a page = false → NotNow (.translationFillComplete core asid page) s) ∧
      (∀ lv at_ leaf, s.walkAsid a (page * 2 ^ 16) = .invalid lv at_ → s.absentLeaf at_ = some leaf →
        (s.makeValid at_ leaf).mapsReady s.mapped = false → NotNow (.translationFillComplete core asid page) s) ∧
      (∀ lv at_, s.walkAsid a (page * 2 ^ 16) = .invalid lv at_ → s.absentLeaf at_ = none →
        NotNow (.translationFillComplete core asid page) s) ∧
      (s.present a page = false →
        let (s', who) := (s.dropPage a page).clearMiss core a page
        Happens (.fillFailure core asid page) s (who.foldl (fun s w => match w with
          | .group g => s.failGroupFill g a page
          | w => s.served a page w) s'))) ∧
    (s.ready.safe → ∀ (root at_ : Nat) (entry : DWord), NotNow (.mappingChange asid page root at_ entry) s) ∧
    (s.ready.safe = false → ∀ (root at_ : Nat) (entry : DWord), s.fw.roots.find? a = some root → at_ % 8 = 0 →
      (∀ i < 8, isDeviceMemory (at_ + i)) → page < 2 ^ 41 →
      let t := s.setEntry a root at_ entry
      let ready := t.mapsReady s.mapped && t.mapsZeroed s.frames
      (ready = false → NotNow (.mappingChange asid page root at_ entry) s) ∧
      (ready → ∃ s', Happens (.mappingChange asid page root at_ entry) s s' ∧ s'.readPhys at_ 8 = entry.toNat ∧
        (∀ k, k < at_ ∨ at_ + 8 ≤ k → s'.mem.read k = s.mem.read k) ∧ s'.groups = s.groups ∧
        s'.fw.zeroed = outside s.fw.zeroed s'.frames ∧
        (∀ t ∈ s'.fw.absent, t ∈ s.fw.absent ∧ t.addr ≠ at_ ∨ t.addr = at_) ∧
        (entry.getLsbD 63 ∨ entry.getLsbD 62 = false → ∀ t ∈ s'.fw.absent, t.addr ≠ at_)))

/-- R45, R254, R255: a page that migrates within the module keeps the value of every byte, and its leaf says MIG meanwhile; one
that moves to a peer or from one leaves what the module holds elsewhere; an allocated frame reads as zeros; clearing a
zero-pending line changes no byte. -/
def Obligations.PageEvents : Prop :=
  ∀ (s : State),
    (∀ (asid : BitVec 16) (page at_ : Nat) (l : Leaf), s.walkAsid asid.toNat (page * 2 ^ 16) = .leaf at_ l →
      (∀ i < 8, isPeerKey (at_ + i) = false) →
      (l.mig = false → s.ready.safe = false → ∃ s', Happens (.migrationStart asid page) s s' ∧
        s'.readPhys at_ 8 = ((BitVec.ofNat 64 (s.readPhys at_ 8) : DWord) ||| 0x0200000000000000).toNat ∧
        (∀ k, k < at_ ∨ at_ + 8 ≤ k → s'.mem.read k = s.mem.read k) ∧ s'.groups = s.groups) ∧
      (l.mig ∨ s.ready.safe → NotNow (.migrationStart asid page) s) ∧
      (∀ entry n, leafOf s entry l.size = some n → s.remoteAt l n → NotNow (.migrationComplete asid page entry) s) ∧
      (∀ (entry : DWord) (n : Leaf), leafOf s entry l.size = some n → l.mig → n.mig = false → s.ready.safe = false →
        s.remoteAt l n = false → n.place = 3 → entry.getLsbD 63 → entry.getLsbD 62 →
        ∃ s', Happens (.migrationComplete asid page entry) s s' ∧ s'.readPhys at_ 8 = entry.toNat ∧
          ∀ k, k < at_ ∨ at_ + 8 ≤ k → s'.mem.read k = s.mem.read k) ∧
      (∀ (entry : DWord) (n : Leaf), leafOf s entry l.size = some n → l.mig → n.mig = false → s.ready.safe = false →
        s.remoteAt l n = false → n.place ≠ 3 → entry.getLsbD 63 → entry.getLsbD 62 → s.frameReady n.frame n.size → s.MemWf →
        let len := 2 ^ pageBits l.size
        ∃ s', Happens (.migrationComplete asid page entry) s s' ∧ s'.readPhys at_ 8 = entry.toNat ∧
          (l.place ≠ 3 → l.frame + len ≤ n.frame ∨ n.frame + len ≤ l.frame → ∀ i < len, n.frame + i < at_ ∨ at_ + 8 ≤ n.frame + i →
            s'.mem.read (n.frame + i) = s.mem.read (l.frame + i)) ∧
          (∀ k, k < at_ ∨ at_ + 8 ≤ k → k < n.frame ∨ n.frame + len ≤ k → s'.mem.read k = s.mem.read k))) ∧
    (∀ (frame : Nat) (size : PageSize),
      let len := match size with
        | .kib64 => 2 ^ 16
        | .mib2 => 2 ^ 21
        | .gib1 => 2 ^ 30
      s.ready.safe = false → frame % len = 0 → isDeviceMemory frame → isDeviceMemory (frame + len - 1) → s.frameReady frame (sizeCode size) →
        (∀ r ∈ s.frames, r.1 + r.2 ≤ frame ∨ frame + len ≤ r.1) →
        ∃ s', Happens (.pageAllocate frame size) s s' ∧ (∀ i < len, s'.mem.read (frame + i) = 0) ∧
          (∀ k, k < frame ∨ frame + len ≤ k → s'.mem.read k = s.mem.read k) ∧ (frame, len) ∈ s'.zeroPend ∧ (frame, len) ∈ s'.fw.zeroed ∧
          s'.groups = s.groups) ∧
    (∀ (frame : Nat) (size : PageSize), (∃ r ∈ s.frames, r.1 < frame + 2 ^ pageBits (sizeCode size) ∧ frame < r.1 + r.2) →
      NotNow (.pageAllocate frame size) s) ∧
    (∀ used : List (Nat × Nat), s.mapsZeroed used ↔ ∀ r ∈ s.frames, ∀ k, r.1 ≤ k → k < r.1 + r.2 →
      ∃ q ∈ used ++ s.fw.zeroed, q.1 ≤ k ∧ k < q.1 + q.2) ∧
    (∀ (line : Nat) (r : Nat × Nat), r ∈ s.zeroPend → r.1 ≤ 128 * line → 128 * line + 128 ≤ r.1 + r.2 →
      ∃ s', Happens (.zeroPendingClear line) s s' ∧ s' = { s with zeroPend := s'.zeroPend } ∧
        ∀ k, (∃ q ∈ s'.zeroPend, q.1 ≤ k ∧ k < q.1 + q.2) ↔
          (∃ q ∈ s.zeroPend, q.1 ≤ k ∧ k < q.1 + q.2 ∧ (q.1 ≤ 128 * line ∧ 128 * line + 128 ≤ q.1 + q.2 →
            k < 128 * line ∨ 128 * line + 128 ≤ k)))

/-- R1, R38, R262, R371, R372, R385, R403-R406, R427: what the host writes: device memory through BAR2, AtomicOps on
SYSTEM pages, and the registers of BAR0, in 8 bytes or in 4; in the safe state nothing but the request buffer
changes. What it reads there. Where the spec leaves a point of this open, the clause is the model's choice: log
entries 57, 67, 69, 81, 93 and 130. -/
def Obligations.HostEvents : Prop :=
  ∀ (s : State) (link : Bool) (off : Nat),
    let phys := s.fw.wbase.toNat + off
    let up := s.ready.pl0 || s.ready.pl1 || s.ready.safe
    (s.linkUp link = false → ∀ bs, NotNow (.hostWrite link off bs) s) ∧
    (s.linkUp link → ∀ bs : List Byte, off + bs.length ≤ 2 ^ s.fw.bar2 →
      let reached := ∀ i < bs.length, (isDeviceMemory (phys + i) ∨ isHostMemory (phys + i)) ∧ s.unitReady (phys + i)
      (s.ready.safe = false → reached → ∃ s', Happens (.hostWrite link off bs) s s' ∧
        (∀ i (h : i < bs.length), s'.mem.read (phys + i) = bs[i]) ∧
        (∀ k, k < phys ∨ phys + bs.length ≤ k → s'.mem.read k = s.mem.read k) ∧ s'.groups = s.groups ∧ s'.fw.hostEnd = .success) ∧
      (s.ready.safe ∨ ¬ reached → Happens (.hostWrite link off bs) s
        { s with fw := { s.fw with hostEnd := .unsupported, hostData := none, hostPoison := false } })) ∧
    (s.linkUp link → off + 4 ≤ 2 ^ s.fw.bar2 → ∀ op (x y : Word),
      let e := Instr.hostAtomicop link off op x y
      let old : Word := BitVec.ofNat 32 (s.readPhys phys 4)
      let new : Word := match op with
        | .fetchAdd => old + x
        | .swap => x
        | .cas => if old = x then y else old
      let served := s.ready.safe = false ∧ s.hostReaches phys 4 ∧ phys % 4 = 0
      let ends (h : HostEnd) (d : Option (List Byte)) (s : State) : State :=
        { s with fw := { s.fw with hostEnd := h, hostData := d, hostPoison := false } }
      (¬ served → Happens e s (ends .unsupported none s)) ∧
      (served → s.onSystemPage phys = false → Happens e s (ends .aborted none s)) ∧
      (served → s.onSystemPage phys → (∀ i < 4, s.prepared (phys + i) = false) →
        Happens e s (ends .success (some (bytesOf 4 old.toNat)) (s.writePhys phys (bytesOf 4 new.toNat)))) ∧
      (served → s.onSystemPage phys → (∃ i, i < 4 ∧ s.prepared (phys + i)) → NotNow e s)) ∧
    (∀ (q : BitVec 6) (n : Word) (w : DWord) (o : BitVec 16),
      let opens (v : Bool) (k : Queue) : Queue :=
        { k with opened := v, hash := if v && !k.opened then List.replicate 48 0 else k.hash }
      let regs : List (Instr × State) := [
        (.queueTailWrite q n, s.modQueue q.toNat fun k => { k with tail := n }),
        (.queueOpenSet q, s.modQueue q.toNat (opens true)),
        (.queueOpenClear q, s.modQueue q.toNat (opens false)),
        (.queueConfigWrite q w, s.modQueue q.toNat fun k => opens (w.getLsbD 7)
          (if k.opened = false ∧ k.next = k.head then
            { k with base := (w.extractLsb' 12 52).toNat / 128 * 128, log2n := (w.extractLsb' 8 4).toNat, dev := w.getLsbD 6,
                     checked := none }
          else k)),
        (.wbaseWrite w, { s with fw := { s.fw with wbase := w &&& 0xFFFFFF0000000 } }),
        (.irqenWrite w, { s with fw := { s.fw with irqen := w } })]
      (up = false → ∀ p ∈ regs, NotNow p.1 s) ∧
      (up → s.ready.safe → ∀ p ∈ regs, Happens p.1 s s) ∧
      (up → s.ready.safe = false → ∀ p ∈ regs, Happens p.1 s p.2) ∧
      (up → 0x4100 ≤ o.toNat → o.toNat < 0x4200 → o.toNat % 8 = 0 → ∃ s', Happens (.registerWrite o w) s s' ∧
        s' = { s with fw := { s.fw with reqBuf := s'.fw.reqBuf } } ∧
        s'.fw.reqBuf[(o.toNat - 0x4100) / 8]? = some w) ∧
      (s.ready.pl0 || s.ready.pl1 → s.ready.safe = false → 0x8000 ≤ o.toNat → o.toNat < 0x8410 → o.toNat % 8 = 0 →
        Happens (.registerWrite o w) s { s with fw := s.fw.writeVector ((o.toNat - 0x8000) / 8) w }) ∧
      (s.ready.safe → o.toNat % 8 = 0 → o ≠ 0x4000 → o.toNat < 0x4100 ∨ 0x4200 ≤ o.toNat → Happens (.registerWrite o w) s s) ∧
      (up → o.toNat % 4 ≠ 0 ∨ writable o.toNat = false ∧ writable (o.toNat + 4) = false → Happens (.registerWrite o w) s s) ∧
      (∀ p ∈ [(0x30, Instr.wbaseWrite w), (0x40, .irqenWrite w), (0x1000 + 16 * q.toNat, .queueTailWrite q (w.setWidth 32)),
          (0x1008 + 16 * q.toNat, .queueConfigWrite q w)], o.toNat = p.1 → exec (.registerWrite o w) s = exec p.2 s)) ∧
    (∀ (o : BitVec 16) (w : Word), o.toNat % 8 = 0 → o ≠ 0x4000 →
      let old := s.storedWord o.toNat
      (o.toNat < 0x4100 ∨ 0x4200 ≤ o.toNat → old = s.registerWord o.toNat) ∧
      dwordWrite o.toNat w s = exec (.registerWrite o (old.extractLsb' 32 32 ++ w)) s ∧
      dwordWrite (o.toNat + 4) w s = exec (.registerWrite o (w ++ old.setWidth 32)) s) ∧
    (∀ (v : Nat) (w : Word), v < 65 → s.fw.vectors.length = 130 → s.ready.pl0 || s.ready.pl1 → s.ready.safe = false →
      ∃ s', dwordWrite (0x8000 + 16 * v + 12) w s = .next s' ∧
        s'.fw.vectors = s.fw.vectors.set (2 * v + 1) (w ++ (s.fw.vectors[2 * v + 1]?.getD 0).setWidth 32) ∧
        (∀ u, s'.fw.pba.getLsbD u = (s.fw.pba.getLsbD u && !(u == v && !w.getLsbD 0))) ∧
        s' = { s with fw := { s.fw with vectors := s'.fw.vectors, pba := s'.fw.pba } }) ∧
    (s.linkUp link → s.ready.safe = false → ∀ len, off + len ≤ 2 ^ s.fw.bar2 →
      let keys := physKeys phys len
      let gives (h : HostEnd) (d : Option (List Byte)) : State :=
        { s with fw := { s.fw with hostEnd := h, hostData := d, hostPoison := false } }
      (s.hostReaches phys len = false → hostRead link off len s = .next (gives .unsupported none)) ∧
      (s.hostReaches phys len → keys.any s.prepared → hostRead link off len s = .refused .notEnabled) ∧
      (s.hostReaches phys len → keys.any s.prepared = false → (∀ k ∈ keys, s.poisoned [k] = false) →
        hostRead link off len s = .next (gives .success (some (keys.map s.readByte))))) ∧
    (up → s.ready.safe = false → ∀ o, o % 8 = 0 → o < 0x10000 → registerRead o s = .next
      { s with fw := { s.fw with hostEnd := .success, hostData := some (bytesOf 8 (s.registerWord o).toNat), hostPoison := false } }) ∧
    (s.ready.safe → ∀ o, o % 8 = 0 → o < 0x10000 → answersSafe o → registerRead o s = .next
      { s with fw := { s.fw with hostEnd := .success, hostData := some (bytesOf 8 (s.registerWord o).toNat), hostPoison := false } }) ∧
    s.registerWord 0 = (0x1024 : BitVec 16) ++ (0xB1 : Byte) ++ s.fw.gen ++ s.fw.serial ∧
    (∀ o, 0x48 ≤ o → o < 0x1000 → s.registerWord o = 0)

/-- R257, R258, R372, R386, R407, R423, R434: the commands of the mailbox: each is answered with its status, and does
what the command says where the status is 0. Where the spec leaves a point of this open, the clause is the model's
choice: log entries 58, 63, 68, 77, 81 and 125. -/
def Obligations.MailboxCommands : Prop :=
  ∀ (s : State) (seq : BitVec 16) (w0 w1 : DWord),
    (s.ready.pl0 || s.ready.pl1 || s.ready.safe) → (s.ready.fw || s.ready.safe) →
    let asked (cmd : BitVec 16) (w0 w1 : DWord) : State :=
      { s with fw := { s.fw with mbreq := seq ++ cmd, reqBuf := [w0, w1] ++ s.fw.reqBuf.drop 2 } }
    let answers (s : State) (st : Nat) (rsp : List Byte) : State :=
      { s with fw := { s.fw with
          mbrsp := seq ++ BitVec.ofNat 16 st, rspBuf := rsp, msix := s.fw.msix ++ [64],
          pba := if (s.fw.vectors[129]?.getD 0).getLsbD 32 then s.fw.pba ||| BitVec.ofNat 65 (2 ^ 64) else s.fw.pba } }
    let n : Word := w1.setWidth 32
    let k := s.queueAt w0.toNat
    let u1 := asked 1 w0 w1
    let u2 := asked 2 w0 0
    let u3 := asked 3 w0 0
    let u4 := asked 4 w0 w1
    let u5 := asked 5 w0 w1
    let u10 := asked 0x10 w0 w1
    let u11 := asked 0x11 w0 w1
    (s.ready.safe → s.fw.test = none →
      Happens (.mbAbortLaunch seq w0 w1) s (answers u1 3 []) ∧ Happens (.mbResumeGroup seq w0) s (answers u2 3 []) ∧
      Happens (.mbAbortGroup seq w0) s (answers u3 3 []) ∧ Happens (.mbPreemptGroup seq w0 w1) s (answers u4 3 []) ∧
      Happens (.mbEnlargeOverflow seq w0 w1) s (answers u5 3 [])) ∧
    (s.fw.test ≠ none →
      Happens (.mbLoadFirmware seq w0 w1) s (answers u10 3 []) ∧ Happens (.mbApplyTest seq w0 w1) s (answers u11 3 [])) ∧
    (s.ready.safe = false → s.fw.test = none →
      let beyond := 63 < w0.toNat ∨ 2 ^ 32 ≤ w1.toNat ∨ (k.tail - k.head).toNat ≤ (n - k.head).toNat
      (beyond → Happens (.mbAbortLaunch seq w0 w1) s (answers u1 2 [])) ∧
      (¬ beyond → s.launchAt w0.toNat n = none → Happens (.mbAbortLaunch seq w0 w1) s (answers
        (u1.modQueue w0.toNat fun k => { k with aborted := if k.aborted.contains n then k.aborted else k.aborted ++ [n] })
        0 [])) ∧
      (¬ beyond → ∀ lid l, s.launchAt w0.toNat n = some (lid, l) →
        Happens (.mbAbortLaunch seq w0 w1) s (answers (u1.abortLaunch lid) 0 [])) ∧
      (s.heldBy w0.toNat = none → Happens (.mbResumeGroup seq w0) s (answers u2 2 []) ∧
        Happens (.mbAbortGroup seq w0) s (answers u3 2 [])) ∧
      (∀ h, s.heldBy w0.toNat = some h →
        Happens (.mbResumeGroup seq w0) s (answers
          ((((State.modGroup { u2 with fw := { u2.fw with held := u2.fw.held.filter fun k => k.addr != h.addr } } h.grp
            fun x => { x with st := .running }).takeUpAll h.grp).podCheck h.grp).leave h.grp) 0 []) ∧
        Happens (.mbAbortGroup seq w0) s (answers (u3.abortGroup h.grp h.cause) 0 [])) ∧
      (s.launchNamed (w0.setWidth 32) = none → Happens (.mbPreemptGroup seq w0 w1) s (answers u4 2 []) ∧
        Happens (.mbEnlargeOverflow seq w0 w1) s (answers u5 2 [])) ∧
      (∀ lid l, s.launchNamed (w0.setWidth 32) = some (lid, l) → w0.toNat < 2 ^ 32 →
        (w1.toNat < 2 ^ 32 → l.ovsz < w1.toNat → Happens (.mbEnlargeOverflow seq w0 w1) s (answers
          (u5.modLaunch lid fun l => { l with ovsz := w1.toNat }) 0 [])) ∧
        (2 ^ 32 ≤ w1.toNat ∨ w1.toNat ≤ l.ovsz → Happens (.mbEnlargeOverflow seq w0 w1) s (answers u5 2 [])) ∧
        (∀ g x, (s.groups.filter fun p => p.2.launch == lid && p.2.grp == w1.toNat).head? = some (g, x) →
          w1.toNat < 2 ^ 30 →
          ((∃ a, x.st = .trapped a) → Happens (.mbPreemptGroup seq w0 w1) s (answers u4 3 [])) ∧
          ((∀ a, x.st ≠ .trapped a) →
            Happens (.mbPreemptGroup seq w0 w1) s (answers (u4.preemptGroup g) 0 []))))) ∧
    (s.fw.test = none → s.imageHeld w0.toNat w1.toNat →
      NotNow (.mbLoadFirmware seq w0 w1) s ∧ NotNow (.mbApplyTest seq w0 w1) s) ∧
    (s.fw.test = none → s.imageHeld w0.toNat w1.toNat = false →
      (u10.imageBytes w0.toNat w1.toNat = none → Happens (.mbLoadFirmware seq w0 w1) s (answers u10 2 [])) ∧
      (∀ b, u10.imageBytes w0.toNat w1.toNat = some b →
        (Config.signedImage b = false → Happens (.mbLoadFirmware seq w0 w1) s (answers u10 3 [])) ∧
        (Config.signedImage b → s.ready.safe = false → Happens (.mbLoadFirmware seq w0 w1) s (answers u10 0 [])) ∧
        (Config.signedImage b → s.ready.safe → Happens (.mbLoadFirmware seq w0 w1) s (answers u10.restart 0 []))) ∧
      (u11.imageBytes w0.toNat w1.toNat = none → Happens (.mbApplyTest seq w0 w1) s (answers u11 2 [])) ∧
      (∀ b, u11.imageBytes w0.toNat w1.toNat = some b →
        (b.length < 128 → Happens (.mbApplyTest seq w0 w1) s (answers u11 2 [])) ∧
        (128 ≤ b.length → packageOk b = false → Happens (.mbApplyTest seq w0 w1) s (answers u11 3 [])) ∧
        (128 ≤ b.length → packageOk b → packageQuads (littleEndian (b.take 128)) = [] →
          Happens (.mbApplyTest seq w0 w1) s (answers u11 0 (testResponse []))) ∧
        (128 ≤ b.length → packageOk b → ∀ q rest, packageQuads (littleEndian (b.take 128)) = q :: rest →
          Happens (.mbApplyTest seq w0 w1) s
            (State.clearQuad { u11 with fw := { u11.fw with test := some (seq.setWidth 32, q :: rest, []) } } q)))) ∧
    (∀ cmd : BitVec 16, cmd.toNat ∉ [1, 2, 3, 4, 5, 0x10, 0x11] → s.ready.safe = false → s.fw.test = none →
      Happens (.mbUnknownCommand seq cmd) s (answers (asked cmd 0 0) 1 []))

/-- R258, R372-R379, R383, R385, R403: a queue's next record is checked and taken in its turn, its groups are handed
out in batches and placed, and the launch at the head retires: completion record, running hash, HEAD, interrupt.
Retirement while a `launch` instruction's record waits for a place in the queue (R394) is left out. Where the spec
leaves a point of this open, the clause is the model's choice: log entries 30, 32, 48, 62, 63, 64 and 75. -/
def Obligations.LaunchEvents : Prop :=
  ∀ (s : State) (qb : BitVec 6),
    let q := qb.toNat
    let k := s.queueAt q
    let r := match k.checked with
      | some c => c.r
      | none => s.nextRecord q
    let l : Launch := { q := q, seq := k.next, r := r }
    let take := Instr.recordTake qb
    let taken (fmask : BitVec 128) (first size : Nat) (segs : List DWord) : Launch :=
      { l with fmask := fmask, objFirst := first, objSize := size, segs := segs, begun := true,
               ovsz := if r.ovsz = 0 then 1024 else r.ovsz }
    (s.dispatching = false ∨ s.untaken q = false ∨ k.checked = none ∧ s.nextHeld q → NotNow take s) ∧
    (s.dispatching → s.untaken q → (k.checked = none → s.nextHeld q = false) →
      (k.next ∈ k.aborted → Happens take s (s.addLaunch { l with status := 3 })) ∧
      (k.next ∉ k.aborted → k.opened = false → NotNow take s) ∧
      (k.next ∉ k.aborted → k.opened →
        (∀ c, k.checked = some c →
          (s.recordReady q = false ∨ s.goesFirst q = false → NotNow take s) ∧
          (s.recordReady q → s.goesFirst q → Happens take s { s.addLaunch c with lastQ := q })) ∧
        (k.checked = none → s.recordHeld r → NotNow take s) ∧
        (k.checked = none → s.recordHeld r = false →
          (∀ n, s.checkRecord q k.next r = .error n → Happens take s (s.addLaunch { l with status := 1, reason := n })) ∧
          (∀ fmask first size segs, s.checkRecord q k.next r = .ok (fmask, first, size, segs) →
            let c := taken fmask first size segs
            let s' := s.modQueue q fun k => { k with checked := some c }
            (s'.recordReady q = false ∨ s'.goesFirst q = false → Happens take s s') ∧
            (s'.recordReady q → s'.goesFirst q → Happens take s { s'.addLaunch c with lastQ := q }))))) ∧
    (∀ id x d, s.launch? id = some x → bestOf s.dieFree (List.range 16) = some d →
      let n := min (min 64 (s.dieFree d)) (x.r.ngrp - x.handed)
      (s.dispatching → x.r.gang = 0 → x.status ≠ 1 → x.status ≠ 3 → 0 < n →
        Happens (.batchHandout id) s (State.modLaunch
          { s with dieQ := Table.set [] s.dieQ d (Table.get [] s.dieQ d ++
              (List.range n).map fun i => { launch := id, grp := x.handed + i }) } id
          fun x => { x with handed := x.handed + n })) ∧
      (x.r.gang ≠ 0 ∨ n = 0 → NotNow (.batchHandout id) s)) ∧
    (∀ core, core < 1024 → s.ready.safe = false →
      (s.candidate core = none → NotNow (.groupPlace core) s) ∧
      (∀ c, s.candidate core = some c → Happens (.groupPlace core) s (s.placeCand core c))) ∧
    (∀ id x, s.launchAt q k.head = some (id, x) →
      (s.dispatching = false ∨ s.allOver id x = false ∨ x.digests ∧ s.digestHeld x 8 0 ∨
          x.r.cmpl ≠ 0 ∧ s.walkHeld x.r.asid x.r.cmpl 64 → NotNow (.launchRetire qb) s) ∧
      (s.dispatching → s.allOver id x → (x.digests → s.digestHeld x 8 0 = false) →
        (x.r.cmpl ≠ 0 → s.walkHeld x.r.asid x.r.cmpl 64 = false) → k.wait = [] → q < s.queues.length → ∃ s', Happens (.launchRetire qb) s s' ∧
        (s'.queueAt q).head = k.head + 1 ∧ (s'.queueAt q).tail = k.tail ∧ s'.launch? id = none ∧
        (s.fw.irqen.getLsbD q → s'.fw.msix = s.fw.msix ++ [q]) ∧
        (s.fw.irqen.getLsbD q = false → s'.fw.msix = s.fw.msix) ∧
        (x.r.cmpl = 0 → s'.mem = s.mem ∧ (s'.queueAt q).hash = s.chainHash x) ∧
        (∀ keys, x.r.cmpl ≠ 0 → s.spaceKeys x.r.asid x.r.cmpl 64 = some (keys, true) →
          s'.mem = (s.writeBytes keys (x.completion s.clk)).mem)))

/-- R380, R381, R421: a gang, once the groups of an earlier start have gone, reserves the cores of one span, each
replies READY once its share fits, and all of it starts or none; a refusal or its time limit ends the reservation
and doubles the back-off; a pod gang waits for its partners. Times are left out: a time limit and the end of a
back-off are events that happen whatever time has passed (log entry 23). Where the spec leaves a point of this
open, the clause is the model's choice: log entries 23, 31, 51, 59, 60, 72, 88 and 96. -/
def Obligations.GangEvents : Prop :=
  ∀ (s : State) (id : Nat) (x : Launch), s.gangLaunch? id = some x →
    let gang := x.r.gang
    let cores (i : Nat) := spanCores gang i
    let delay (m : Nat) : Nat := if m = 0 then 1 else min 64 (2 * m)
    let backoff (span micros : Nat) : State := (s.clearResv id).modLaunch id fun l => { l with gang := .backoff span (delay micros) }
    (x.gang = .idle → s.gangStands id → NotNow (.gangReserve id) s) ∧
    (x.gang = .idle → s.gangStands id = false →
      ((∀ i < spanCount gang, ∃ c ∈ cores i, s.shareEver x i c = false) →
        (x.ran = [] → Happens (.gangReserve id) s ((s.clearResv id).modLaunch id fun l =>
          { l with status := 1, reason := 5, gang := .idle })) ∧
        (x.ran ≠ [] → NotNow (.gangReserve id) s)) ∧
      (∀ j, j < spanCount gang → (∀ c ∈ cores j, s.shareEver x j c) → ∀ i,
        bestOf (fun i => (((cores i).filter s.coreOpen).map s.groupSlotsFree).sum)
          ((List.range (spanCount gang)).filter (s.spanReady x)) = some i →
        Happens (.gangReserve id) s (s.reserveSpan id x i 0))) ∧
    (∀ core ticket span ready micros, (s.core core).resv = some (ticket, id) → x.gang = .reserving span ready micros →
      (core ∈ ready ∨ s.shareFits x span core = false → NotNow (.coreReadyReply core) s) ∧
      (core ∉ ready → s.shareFits x span core → Happens (.coreReadyReply core) s
        (s.modLaunch id fun x => { x with gang := .reserving span (ready ++ [core]) micros }))) ∧
    (∀ span ready micros, x.gang = .reserving span ready micros →
      ((∃ c ∈ cores span, c ∉ ready) →
        NotNow (.gangConfirm id) s ∧ Happens (.gangReservationTimeout id) s (backoff span micros)) ∧
      ((∀ c ∈ cores span, c ∈ ready) → NotNow (.gangReservationTimeout id) s) ∧
      ((∀ c ∈ cores span, c ∈ ready ∧ s.shareFits x span c) →
        (gang ≠ 4 → Happens (.gangConfirm id) s (s.startGang id x span)) ∧
        (gang = 4 → Happens (.gangConfirm id) s
          ((s.modLaunch id fun x => { x with gang := .confirmed span }).startPod id
            { x with gang := .confirmed span } span)))) ∧
    (∀ span micros, x.gang = .refused span micros → Happens (.gangReservationRelease id) s (backoff span micros)) ∧
    (∀ span micros i, x.gang = .backoff span micros →
      (((List.range (spanCount gang)).map fun i => (span + 1 + i) % spanCount gang).find? (s.spanReady x)) = some i →
      Happens (.gangBackoffExpiry id) s (s.reserveSpan id x i micros)) ∧
    (∀ (podg : BitVec 16) (rep : PodReport),
      let e := reportEntry rep
      let old := Table.get [] s.fw.pods podg.toNat
      let again := ∃ o ∈ old, o.module = e.module ∧ o.failed = e.failed
      let told : State := { s with fw := { s.fw with pods := Table.set [] s.fw.pods podg.toNat (old ++ [e]) } }
      (s.ready.fw = false ∨ s.ready.safe ∨ again → NotNow (.podGangReport podg rep) s) ∧
      (s.ready.fw → s.ready.safe = false → ¬ again → s.podLaunch? podg.toNat = some (id, x) →
        (∀ span, x.gang = .confirmed span → Happens (.podGangReport podg rep) s (told.startPod id x span)) ∧
        (∀ span, x.gang = .started span → Happens (.podGangReport podg rep) s told) ∧
        (x.gang = .idle →
          (told.podFailed x = false ∨ x.ran ≠ [] → Happens (.podGangReport podg rep) s told) ∧
          (told.podFailed x → x.ran = [] → Happens (.podGangReport podg rep) s (told.failGang id 7))))) ∧
    (∀ (podg : BitVec 16) span, s.podLaunch? podg.toNat = some (id, x) → x.gang = .confirmed span →
      (x.ran = [] → (s.podReports podg.toNat).length < x.r.podn → Happens (.podGangTimeout podg) s (s.failGang id 7)) ∧
      (x.ran ≠ [] ∨ x.r.podn ≤ (s.podReports podg.toNat).length → NotNow (.podGangTimeout podg) s)) ∧
    (∀ podg : BitVec 16, s.podLaunch? podg.toNat = some (id, x) → x.gang = .idle →
      (x.ran ≠ [] ∨ s.podReports podg.toNat = [] → NotNow (.podGangTimeout podg) s) ∧
      (x.ran = [] → s.podReports podg.toNat ≠ [] → Happens (.podGangTimeout podg) s (s.failGang id 7)))

/-- R43, R125, R126, R381, R386, R387, R399, R400, R402: a less urgent group makes room, a save that is late is
forced, an idle core evicts, and packets age, are granted in the order of their class, age, deadline and slack,
leave their port in the order in which they reach it, and are late after their stamp. Where the spec leaves a
point of this open, the clause is the model's choice: log entries 22, 23, 28, 33, 66, 92, 96, 103 and 118. -/
def Obligations.PreemptionEvents : Prop :=
  ∀ (s : State),
    (∀ die c gn x, s.waitingClass die = some c → s.victim die = some (gn, x) →
      (s.ready.safe = false → c < x.prio → x.save = none → Happens (.preemption die) s (s.preemptGroup gn)) ∧
      (x.prio ≤ c ∨ s.ready.safe → NotNow (.preemption die) s)) ∧
    (∀ gn x, s.group? gn = some x →
      let r := (s.launchOf x).r
      let gang := r.gang ≠ 0 ∧ x.spawn = none
      ((∃ a, x.st = .trapped a) ∨ x.flushes ∨ x.alive = false → s.preemptGroup gn = s) ∧
      (∀ again,
        ((x.runs = false ∧ x.flushes = false ∧ x.fills = false) ∨ x.underWay = false →
          s.flushGroup gn again = if again then (s.removeGroup gn).requeue x none else s.removeGroup gn) ∧
        (x.runs ∨ x.flushes ∨ x.fills → x.underWay →
          s.flushGroup gn again = s.modGroup gn fun x => { x with st := .flushing again, save := none })) ∧
      ((∀ a, x.st ≠ .trapped a) → (∀ k f, x.st ≠ .saved k f) → x.flushes = false → x.alive →
        (r.pmode = 1 → s.preemptGroup gn = s) ∧
        (r.pmode = 0 → r.idem → x.ext < 16 → ¬ gang → x.testHold = false → s.preemptGroup gn = s.flushGroup gn true) ∧
        (r.pmode = 2 ∨ r.pmode = 0 ∧ (r.idem = false ∨ 16 ≤ x.ext ∨ gang ∨ x.testHold) →
          s.preemptGroup gn = (s.modGroup gn fun x => { x with save := some 1 }).trySave gn)) ∧
      (x.save = none ∨ x.resident = false ∨ x.testHold ∨ x.alive = false → NotNow (.preemptionTimeout gn) s) ∧
      (x.save ≠ none → x.resident → x.testHold = false → x.alive →
        (r.idem → ¬ gang → Happens (.preemptionTimeout gn) s (s.flushGroup gn true)) ∧
        (r.idem = false ∨ gang → Happens (.preemptionTimeout gn) s (s.kill gn 0x81))) ∧
      (let late := x.placedAt + BitVec.ofNat 64 (850 * r.dline) < s.clk
       let l' := s.modLaunch x.launch fun l => { l with late := if l.late = 0xFFFFFFFF then l.late else l.late + 1 }
       (r.arb = 0 ∨ r.dline = 0 ∨ ¬ late ∨ s.traffic gn x = false → NotNow (.lateDelivery gn) s) ∧
       (r.arb = 1 → r.dline ≠ 0 → late → s.traffic gn x → Happens (.lateDelivery gn) s l') ∧
       (r.arb = 2 → r.dline ≠ 0 → late → s.traffic gn x → Happens (.lateDelivery gn) s (l'.modGroup gn fun x => { x with lateTrap := true })))) ∧
    (∀ core gn x, s.residents core = [(gn, x)] → x.slot < 8 → s.ready.safe = false → (s.core core).evicted = none →
      (x.idleFrom s.clk = none → NotNow (.eviction core) s) ∧
      (x.idleFrom s.clk ≠ none → s.hasCandidate core 3 = false → NotNow (.eviction core) s) ∧
      (x.idleFrom s.clk ≠ none → s.hasCandidate core 3 → x.choosable → x.save = none →
        Happens (.eviction core) s (((s.modCore core fun k => { k with evicted := some s.clk }).modGroup gn fun x =>
          { x with save := some 2 }).trySave gn))) ∧
    (∀ k p, s.packets[k]? = some p →
      let p' := { p with age := min 255 (p.age + 1), cls := if 254 ≤ p.age then 0 else p.cls }
      (p.sent → NotNow (.packetAgeTick k) s) ∧
      (p.sent = false → Happens (.packetAgeTick k) s { s with packets := s.packets.set k p' })) ∧
    (∀ port,
      let waits (p : Packet) := p ∈ s.packets ∧ p.sent = false ∧ p.outPort = port
      ((∀ p, ¬ waits p) ∨ s.ready.ual.getLsbD port = false → portGrant port s = .refused .notEnabled) ∧
      (s.ready.ual.getLsbD port → ∀ q, waits q → ∃ p, waits p ∧ (∀ q, waits q → ¬ q.order < p.order) ∧ portGrant port s = .next
        { s with packets := s.packets.filter (·.id != p.id) ++ [{ p with sent := true }] })) ∧
    (∀ p q : Packet,
      (p.cls < q.cls → p.order < q.order) ∧
      (p.cls = 0 → q.cls = 0 → q.age < p.age → p.age ≤ 255 → p.order < q.order) ∧
      (∀ d, p.cls = q.cls → p.cls ≠ 0 → p.stamp = some d →
        (q.stamp = none → p.order < q.order) ∧ (∀ e, q.stamp = some e → d < e → p.order < q.order)) ∧
      (p.cls = q.cls → p.cls ≠ 0 → p.stamp = none → q.stamp = none → p.slack < q.slack → p.order < q.order)) ∧
    (∀ p q, s.leavesNext p → s.leavesNext q → p.outPort = q.outPort → p.id = q.id) ∧
    (∀ p, (s.packets.find? fun q => q.id == p.id) = some p →
      (s.leavesNext p → p.sent ∧ s.ready.ual.getLsbD p.outPort) ∧
      (s.leavesNext p = false → packetDelivery p.id s = .refused .notEnabled)) ∧
    (∀ p, (s.packets.find? fun q => q.id == p.id) = some p → s.leavesNext p →
      let gone : State := { s with packets := s.packets.filter (·.id != p.id) }
      (p.stamp = none → packetDelivery p.id s = .next gone) ∧
      (∀ d, p.stamp = some d → d ≥ s.clk → packetDelivery p.id s = .next gone) ∧
      (∀ d, p.stamp = some d → d < s.clk → packetDelivery p.id s = .next (gone.countLate p.launch p.grp))) ∧
    (∀ m : BitVec 7, (∀ l ∈ s.launches, l.2.r.gang = 4 → l.2.ran = [] ∧ ∀ n, l.2.gang ≠ .started n) →
      Happens (.podModuleUnreachable m) s s) ∧
    (∀ (m : BitVec 7) id l, s.launches = [(id, l)] → l.r.gang = 4 → (∃ span, l.gang = .started span) ∨ l.ran ≠ [] →
      m.toNat ∈ s.podReports l.r.podg → (∀ p ∈ s.groups, p.2.atPod = false) →
      Happens (.podModuleUnreachable m) s (s.modLaunch id fun l => { l with podLost := true }))

/-- R253, R270, R273-R276, R279, R282, R284-R287, R292, R418: a copy request begins when it is one of the 256 oldest
of its group, its pieces land and count, and it ends with its last; a miss waits, a fault ends it, poisoned data
is a machine check; puts and messages take slots of rings, and a multicast reaches each quad of its mask. Where
the spec leaves a point of this open, the clause is the model's choice: log entries 10, 29, 36, 74, 95, 112 and
123. -/
def Obligations.CopyEvents : Prop :=
  ∀ (s : State) (id : Nat) (c : Copy) (x : Group), s.copies.find? id = some c → s.group? c.grp = some x →
    let runs (k n : Nat) : Prop := c.begun ∧ c.piece k = some n ∧ s.waitsOn (.copy id) = false
    let piece (k : Nat) := Instr.copyPieceComplete id k
    (c.begun = false → s.copiesBefore c.grp id < 256 → s.readsHeld (.copy id) = false →
      Happens (.copyRequestBegin id) s { s with copies := s.copies.put id { c with begun := true, left := c.kind.pieces } }) ∧
    (c.begun ∨ 256 ≤ s.copiesBefore c.grp id ∨ s.readsHeld (.copy id) →
      NotNow (.copyRequestBegin id) s) ∧
    (∀ k, (∀ n, ¬ runs k n) → NotNow (piece k) s) ∧
    (∀ k n src dst len, c.kind = .linear src dst len → runs k n →
      let read := s.engineReadAfter (c.reader x) c.ahead ⟨src.sp, src.addr + k⟩ n
      (∀ bs, read = .bytes bs →
        (∀ s', s.engineWrite c.grp x ⟨dst.sp, dst.addr + k⟩ bs = .ok s' → Happens (piece k) s (s'.landPiece id c k n)) ∧
        (∀ a v z, s.engineWrite c.grp x ⟨dst.sp, dst.addr + k⟩ bs = .error (.miss a v z) →
          Happens (piece k) s (s.addMiss x.core a v (.copy id))) ∧
        (∀ z v, s.engineWrite c.grp x ⟨dst.sp, dst.addr + k⟩ bs = .error (.fault z v) →
          Happens (piece k) s (s.failCopy id c z v len))) ∧
      (∀ a v z, read = .miss a v z → Happens (piece k) s (s.addMiss x.core a v (.copy id))) ∧
      (∀ z v, read = .fault z v → Happens (piece k) s (s.failCopy id c z v len)) ∧
      (read = .poison → Happens (piece k) s (s.kill c.grp)) ∧ (read = .later → NotNow (piece k) s)) ∧
    (∀ k n src tile mxin mq qs mf tf bs, c.kind = .tileIn src tile mxin mq qs mf tf → runs k n →
      s.engineReadAfter (c.reader x) c.ahead src (if mxin then imageSize mf else storedSize mf) = .bytes bs →
      Happens (piece k) s (((s.fillTile tile (if mxin then TileData.ofImage tf qs bs
        else (TileData.ofBytes mf mq bs).convert tf qs)).landPiece id c k 2048).gcTiles)) ∧
    (∀ k n tile dst zero mq mf t, c.kind = .tileOut tile dst zero mq mf → runs k n → s.tiles.find? tile = some t →
      (zero = false → t.st = .filling → NotNow (piece k) s) ∧
      (zero ∨ t.st ≠ .filling →
        let bs := ((if zero then TileData.zero else t.read).convert mf mq).bytes
        ∀ s', s.engineWrite c.grp x ⟨dst.sp, dst.addr + k⟩ ((bs.drop k).take n) = .ok s' →
          Happens (piece k) s ((s'.landPiece id c k n).gcTiles))) ∧
    (∀ k n b count dst size base seg ix, c.kind = .gather b count dst size base seg → runs k n →
      s.engineReadAfter (c.reader x) c.ahead ⟨true, b + 4 * (k / size)⟩ 4 = .bytes ix →
      let off := littleEndian ix * size
      (seg < off + size ∨ 2 ^ 57 < base + off + size →
        Happens (piece k) s (s.failCopy id c 3 (base + off) (count * size))) ∧
      (off + size ≤ seg → base + off + size ≤ 2 ^ 57 → ∀ bs,
        s.engineReadAfter (c.reader x) c.ahead ⟨false, base + off + k % size⟩ n = .bytes bs →
        Happens (piece k) s ((s.landScratch c.grp (dst + k) bs).landPiece id c k n))) ∧
    (∀ g r y, c.dest = some (g, r) → s.group? g = some y →
      (c.slot = none → (y.ring r).wait.head? = some id → (y.ring r).tailFree → Happens (.ringSlotAssign id) s
        (let s' := s.landRing g r fun k => { k.assign .assigned c.kind.msgLen with wait := k.wait.tail }
         { s' with copies := s'.copies.put id { c with slot := some (y.ring r).tail } })) ∧
      ((y.ring r).tailFree = false ∨ (y.ring r).wait.head? ≠ some id → NotNow (.ringSlotAssign id) s)) ∧
    (∀ die quad port len src, c.kind = .send die quad port len src → c.begun → c.dest = none →
      (∀ o ∈ s.copies, o.1 < id → o.2.grp = c.grp → o.2.dest = none → ∀ l a, o.2.kind ≠ .send die quad port l a) →
      (s.portRing (die * 16 + quad) port = none → Happens (.sendArrival id) s (s.discardMessage id c none)) ∧
      (∀ g r y, s.portRing (die * 16 + quad) port = some (g, r) → s.group? g = some y →
        let k := y.ring r
        let mine := k.plaunch = (s.launchOf x).ident ∧ k.pgrp = x.grp ∧ len ≤ k.slotSize
        (¬ mine → Happens (.sendArrival id) s (s.discardMessage id c (some (g, r)))) ∧
        (mine → Happens (.sendArrival id) s
          (State.modRing { s with copies := s.copies.put id { c with dest := some (g, r) } } g r fun k =>
            { k with wait := k.wait ++ [id] })))) ∧
    (∀ k n src len off tag mask bs, c.kind = .multi src len off tag mask → runs k n →
      s.engineReadAfter (c.reader x) c.ahead ⟨src.sp, src.addr + k / 16⟩ n = .bytes bs →
      let d := s.deliver (dieOf x.core * 16 + k % 16) tag off len (k / 16) bs
      Happens (piece k) s (d.1.landPiece id c k n (!d.2)) ∧
      ((c.left.find? fun p => p.1 % 16 == k % 16) = some (k, n) →
        Happens (.multicastDelivery id (k % 16)) s (d.1.landPiece id c k n (!d.2))))

/-- R303, R307-R312, R316-R318, R430: A stream operation reads in its turn; each output slot closes when it is full or
the loop ends, and the end hands on the terminator, the count, the scan area or the last handle; a miss pauses it.
One turn of the walk over two sorted lists: the lower element is passed, equal ones make a record, and a merge
takes from `a` first and drops a repeat. Where the spec leaves a point of this open, the clause is the model's
choice: log entries 10, 39, 41, 89 and 95. -/
def Obligations.StreamEvents : Prop :=
  (∀ (s : State) (id : Nat) (o : SOp) (x : Group), s.sops.find? id = some o → s.group? o.grp = some x →
     let close := Instr.streamSlotClose id
     let fin := Instr.streamOperationEnd id
     let before := (s.sops.filter fun p => p.2.grp == o.grp && decide (p.1 < id)).length
     let runs : Prop := o.begun ∧ s.waitsOn (.stream id) = false ∧ x.resident
     (o.begun = false → before < 16 → s.readsHeld (.stream id) = false →
       Happens (.streamOperationBegin id) s { s with sops := s.sops.put id { o with begun := true } }) ∧
     (o.begun ∨ 16 ≤ before ∨ s.readsHeld (.stream id) → NotNow (.streamOperationBegin id) s) ∧
     (¬ runs → NotNow close s ∧ NotNow fin s) ∧
     (runs → ∀ r, ((∃ a b, o.kind = .sisect r a b) ∨ ∃ u a b, o.kind = .smerge u r a b) →
       (s.ownsRing id o r = false → Happens close s (s.failOp id o 7 0) ∧ Happens fin s (s.failOp id o 7 0)) ∧
       (s.ownsRing id o r →
         (∀ s' o', s.runRing id o r o.turns = .full s' o' →
           Happens close s ((s'.closeSlot o' r).1.putOp id (s'.closeSlot o' r).2) ∧ NotNow fin s) ∧
         (s.runRing id o r o.turns = .blocked → NotNow close s ∧ NotNow fin s) ∧
         (∀ s' o' a v z, s.runRing id o r o.turns = .stopped s' o' (.miss a v z) → ∀ y, s'.group? o'.grp = some y →
           Happens close s ((s'.putOp id o').addMiss y.core a v (.stream id))) ∧
         (∀ s' o', s.runRing id o r o.turns = .ended s' o' →
           (o'.slot ≠ none → Happens close s ((s'.closeSlot o' r).1.putOp id (s'.closeSlot o' r).2) ∧ NotNow fin s) ∧
           (o'.slot = none → NotNow close s) ∧
           (∀ y, o'.slot = none → s'.group? o'.grp = some y → (y.ring r).wait.head? = some id → (y.ring r).tailFree →
             let q := (s'.modRing o'.grp r (·.assign .assigned 0)).closeSlot { o' with slot := some ((y.ring r).tail, 0) } r
             Happens fin s ((q.1.modRing q.2.grp r fun k => { k with wait := k.wait.filter (· != id) }).endOp id q.2))))) ∧
     (runs → (∃ a b, o.kind = .scount a b) → ∀ s' o', s.runCount o o.turns = .ended s' o' →
       Happens fin s ((o'.takers.foldl (fun s p => s.result p.1 p.2 (.vals [BitVec.ofNat 32 o'.found])) s').endOp id o')) ∧
     (runs → ∀ a c out lim, o.kind = .nzscan a c out lim → ∀ s' o', s.runScan o o.turns = .ended s' o' →
       let n := o'.aEnd - o'.start
       Happens fin s ((((s'.landScratch o'.grp out (scanArea n o'.out)).countIn o'.grp c (16 + 8 * n)).outDone o'.grp
         c).endOp id o')) ∧
     (runs → ∀ a tiles sp base size off pitch c tile, o.kind = .sgath a tiles sp base size off pitch c →
       tiles[(o.i - o.start) / 32]? = some tile → ∀ s' o', s.runRows o tile sp base size off pitch 32 = .ended s' o' →
       let full := (s'.modTile tile fun t => { t with st := .full, fillDom := none, fillBy := none }).countIn o'.grp c 2048
       ((o.i - o.start) / 32 + 1 < tiles.length → Happens close s (full.putOp id o') ∧ NotNow fin s) ∧
       ((o.i - o.start) / 32 + 1 = tiles.length → Happens fin s ((full.outDone o'.grp c).endOp id o') ∧ NotNow close s))) ∧
  (∀ (s : State) (x : Group) (o : SOp) (a b : Nat) (v w : Word), o.i < o.aEnd → o.j < o.bEnd →
     s.element x o.ahead o.aLoc .n32 o.i = .ok v → s.element x o.ahead o.bLoc .n32 o.j = .ok w →
     (∀ r, o.kind = .sisect r a b ∨ o.kind = .scount a b → ∃ s' o', s'.mem = s.mem ∧
       (v.toNat < w.toNat → s.walkOnce x o = .ok (some (s', o', [])) ∧ o'.i = o.i + 1 ∧ o'.j = o.j) ∧
       (w.toNat < v.toNat → s.walkOnce x o = .ok (some (s', o', [])) ∧ o'.i = o.i ∧ o'.j = o.j + 1) ∧
       (v = w → s.walkOnce x o = .ok (some (s', o', [BitVec.ofNat 32 o.i, BitVec.ofNat 32 o.j])) ∧
         o'.i = o.i + 1 ∧ o'.j = o.j + 1)) ∧
     (∀ uniq r, o.kind = .smerge uniq r a b → ∃ s' o', s'.mem = s.mem ∧
       (v.toNat ≤ w.toNat → o'.i = o.i + 1 ∧ o'.j = o.j ∧ s.walkOnce x o =
         .ok (some (s', o', if uniq = true ∧ o.last = some v then [] else [v]))) ∧
       (w.toNat < v.toNat → o'.i = o.i ∧ o'.j = o.j + 1 ∧ s.walkOnce x o =
         .ok (some (s', o', if uniq = true ∧ o.last = some w then [] else [w])))))

/-- R327, R340, R341, R346, R358, R418, R422: records enter their quad's queue in order, an engine runs the first that
names one of its regions once no tile it reads is filling, and completes it; an array's records are read and
checked one by one. An engine out of service runs none, poisoned data is a machine check, and the fault record of
a fault without an address has 0 there (log entry 74). The time limit of a record that waits is an event that
happens whatever time has passed (log entry 23). Where the spec leaves a point of this open, the clause is the
model's choice: log entries 23, 28, 44, 45, 48, 74, 95, 99 and 113. -/
def Obligations.MatrixEvents : Prop :=
  ∀ (s : State),
    (∀ quad id, (s.taskWait.find? fun i => s.recQuad i == quad) = some id →
      (s.queued quad < 256 → Happens (.taskQueueEnter quad) s
        { s with taskWait := s.taskWait.filter (· != id), taskQ := s.taskQ ++ [id] }) ∧
      (256 ≤ s.queued quad → NotNow (.taskQueueEnter quad) s)) ∧
    (∀ core id r x, s.engineHead core = some (id, r) → s.group? r.grp = some x →
      let start := Instr.matrixRecordStart core
      let fills := r.caught = none ∧ ∃ t ∈ r.reads, s.filling t
      let early := r.readsMemory ∧ s.readsHeld (.record id)
      let starts (ts : Option (List (Option TileData))) : Prop := Happens start s (State.modCore
        { s with taskQ := s.taskQ.filter (· != id), recs := s.recs.put id { r with running := true, caught := ts } } core
        fun k => { k with running := some id })
      ((s.core core).running ≠ none ∨ (s.core core).arrayOut ∨ x.resident = false ∨ fills ∨ early → NotNow start s) ∧
      ((s.core core).running = none → (s.core core).arrayOut = false → x.resident → ¬ fills → ¬ early →
        (r.kind = 1 → r.caught = none → s.classOk r = false → Happens start s (s.failRec id r 1)) ∧
        (r.kind ≠ 1 ∨ s.classOk r → r.caught = none → r.kind ≤ 2 → r.scr = false → starts (some (r.tiles.map s.heldTile))) ∧
        (r.kind ≠ 1 ∨ s.classOk r → r.caught = none → 2 < r.kind ∨ r.scr → starts none) ∧
        (∀ ts, r.caught = some ts → starts (some ts))) ∧
      ((s.core core).running = none → fills ∨ (s.core core).arrayOut → Happens (.recordWaitTimeout core) s (s.failRec id r 5)) ∧
      ((s.core core).arrayOut = false → ¬ fills → NotNow (.recordWaitTimeout core) s)) ∧
    (∀ core id r x b, (s.core core).running = some id → s.recs.find? id = some r → s.group? r.grp = some x →
      s.basins.find? r.bas = some b →
      let e := Instr.matrixRecordComplete core
      let at_ (s' : State) (cur : Nat) : State := { s' with recs := s'.recs.put id (r.begunOn b cur) }
      let run := s.runRec id r x (r.view b) r.nrow
      (s.waitsOn (.record id) ∨ x.resident = false ∨ (s.core core).arrayOut → NotNow e s) ∧
      (s.waitsOn (.record id) = false → x.resident → (s.core core).arrayOut = false →
        (∀ s', run = .done s' → Happens e s (s'.endRec id r)) ∧
        (run = .mismatch → Happens e s (s.integrity r.grp core)) ∧
        (∀ s' cur a v z, run = .stopped s' cur (.miss a v z) →
          Happens e s ((at_ s' cur).addMiss core a v (.record id))) ∧
        (∀ s' cur z v, run = .stopped s' cur (.fault z v) →
          Happens e s ((at_ s' cur).failRec id { r with cur := cur } 7)) ∧
        (∀ s' cur, run = .stopped s' cur .poison → Happens e s ((at_ s' cur).kill r.grp)))) ∧
    (∀ id a x, s.arrays.find? id = some a → s.group? a.grp = some x → x.resident → x.isTrapped = false →
      s.waitsOn (.array id) = false →
      (∀ p ∈ s.openArrays a.grp a.dom, id ≤ p.1) →
      let e := Instr.mtaskqArrayRead id
      let after (s : State) : State :=
        if a.count ≤ a.next + 1 then s.endArray id a
        else { s with arrays := s.arrays.put id { a with next := a.next + 1 } }
      let read := s.engineRead x ⟨a.loc.sp, a.loc.addr + 64 * a.next⟩ 64
      (∀ bs r, read = .bytes bs → s.readRec x a (littleEndian bs) = .ok r →
        (s.recHeaders x r = .ok () → Happens e s (after (s.enterRec { r with by_ := some a.dom }))) ∧
        (s.recHeaders x r = .error .check → Happens e s (s.kill a.grp)) ∧
        (∀ t, s.recHeaders x r = .error (.trap t) →
          let failed (s : State) : Prop := ∃ y, s.group? a.grp = some y ∧ y.failed
          let u := s.trap a.grp [] { t with fpc := some a.pc, rank := some a.rank }
          (failed s → Happens e s (s.endArray id a)) ∧ (¬ failed s → failed u → Happens e s (u.endArray id a)) ∧
          (¬ failed s → ¬ failed u → Happens e s u))) ∧
      (∀ bs c, read = .bytes bs → s.readRec x a (littleEndian bs) = .error c →
        let bad := s.engineFault a.grp (matrixRecord a.pc a.rank a.next 0 (littleEndian bs / 2 ^ 487 % 16)
          (littleEndian bs / 2 ^ 504 % 256) c)
        (recBytes (littleEndian bs) = none → Happens e s (after bad)) ∧
        (∀ ctr n, recBytes (littleEndian bs) = some (ctr, n) →
          Happens e s (after (bad.countIn a.grp (some ctr) n true)))) ∧
      (∀ m v z, read = .miss m v z → Happens e s (s.addMiss x.core m v (.array id))) ∧
      (∀ z v, read = .fault z v → Happens e s
        ((s.engineFault a.grp (matrixRecord a.pc a.rank a.next 0 0 0 6)).endArray id a)) ∧
      (read = .poison → Happens e s (s.kill a.grp)) ∧ (read = .later → NotNow e s))

/-- R68-R71, R73, R324, R325, R336, R337, R341, R360-R366: What `binit` and `bscale` records do to a region: the
elements of the rows named, and no others. What the records that move elements do. A `bsave` puts the elements of
its rows in memory, 12 bytes each, and a `brst` takes them from there; a `bmov` gives each lane its element, and a
`bcmp` the result of its row; a resolve fills its tiles and a `wld` its latch; an `mma` changes only the rows and
columns that it names, but for pending anchors. Nothing else of memory, of the region or of the tiles changes. A
contribution is cut to the unit of the element and added exactly, or overflows it; the products that a skipped
zero segment leaves out would have added nothing; an `mma` adds to each element of its rows and columns the
products of its activation row and its weight column in K order, pending anchors being set first, to one value.
Where the spec leaves a point of this open, the clause is the model's choice: log entries 13 and 46. -/
def Obligations.BasinRecords : Prop :=
  (∀ (s : State) (id : Nat) (r : MRec) (x : Group) (b : Basin), s.basins.find? r.bas = some b → b.elems.sorted → r.cur = 0 →
     let inside (row col : Nat) : Prop := r.row0 ≤ row ∧ row < r.row0 + r.nrow ∧ col < 192
     (r.kind = 4 → ∃ s' b', s.runRec id r x b r.nrow = .done s' ∧ s'.basins.find? r.bas = some b' ∧ s'.mem = s.mem ∧
       b'.status = b.status ∧ ∀ row col, col < 192 →
         (inside row col → (b'.elem (row * 192 + col)).val = 0 ∧ (b'.elem (row * 192 + col)).k = false ∧
           (r.anch ≠ 256 → (b'.elem (row * 192 + col)).a = BitVec.ofNat 8 r.anch ∧
             (b'.elem (row * 192 + col)).pend = false) ∧
           (r.anch = 256 → (b'.elem (row * 192 + col)).pend)) ∧
         (¬ inside row col → b'.elem (row * 192 + col) = b.elem (row * 192 + col))) ∧
     (r.kind = 9 → (b.pick (elemKeys r.row0 r.nrow 192)).all Elem.checks → ∃ s' b', s.runRec id r x b r.nrow = .done s' ∧
       s'.basins.find? r.bas = some b' ∧ ∀ row col, col < 192 →
         (inside row col → b'.elem (row * 192 + col) = (b.elem (row * 192 + col)).bscale r.shift) ∧
         (¬ inside row col → b'.elem (row * 192 + col) = b.elem (row * 192 + col))) ∧
     (r.kind = 9 → (b.pick (elemKeys r.row0 r.nrow 192)).all Elem.checks = false → s.runRec id r x b r.nrow = .mismatch)) ∧
  (∀ (s : State) (id : Nat) (r : MRec) (x : Group) (b : Basin), s.basins.find? r.bas = some b → b.elems.sorted → r.cur = 0 →
     r.frozen = none → s.group? r.grp = some x →
     let run := s.runRec id r x b r.nrow
     let at_ (row col : Nat) : Elem := b.elem (row * 192 + col)
     let sound (cols : Nat) : Bool := (b.pick (elemKeys r.row0 r.nrow cols)).all Elem.checks
     let holds (n : Nat) (e : Elem) : Prop := n < 2 ^ 96 ∧ n % 2 ^ 8 = e.a.toNat ∧
       (e.a ≠ 0xFF → (n / 2 ^ 8 % 2 = 1 ↔ e.k = true) ∧ (n / 2 ^ 52 + 2 * (n / 2 ^ 9 % 2 ^ 43)) % 2 ^ 44 = e.val.toNat)
     let fp32 (e : Elem) : Word := if e.a = 0xFF then 0x7FC00001 else toF32 0 e.num
     let gives (s' : State) (v : Nat → Option (List Word)) : Prop := ∀ p ∈ r.takers, ∀ t, s.thread? p.1 = some t → ∀ q ∈ t.defs,
       q.seq = p.2 → ∃ u, s'.thread? p.1 = some u ∧ { q with src := match v (p.1.tid % 64) with
         | some l => .vals l
         | none => .keep } ∈ u.defs
     (r.kind = 7 → sound 192 = false → run = .mismatch) ∧
     (r.kind = 7 → sound 192 → r.loc.sp → x.resident → s.raced = [] → quadOf x.core < 2 ^ 20 →
       r.loc.addr + 2304 * r.nrow ≤ 2 ^ 22 →
       let keys (off n : Nat) := (List.range n).map fun i => scratchKey (quadOf x.core) (off + i)
       ∃ s', run = .done s' ∧ s'.basins = s.basins ∧
         (∀ i < r.nrow, ∀ c < 192, holds (s'.readNat (keys (r.loc.addr + 2304 * i + 12 * c) 12)) (at_ (r.row0 + i) c)) ∧
         ∀ k, k ∉ keys r.loc.addr (2304 * r.nrow) → s'.mem.read k = s.mem.read k) ∧
     (r.kind = 7 → sound 192 → r.loc.sp = false → x.resident → s.raced = [] → r.nrow = 1 → ∀ keys,
       s.keysAt (s.aspace x) r.loc 2304 true = .ok keys → keys.Nodup → (∀ k ∈ keys, k < 2 ^ 60) →
       ∃ s', run = .done s' ∧ s'.basins = s.basins ∧
         (∀ c < 192, holds (s'.readNat ((keys.drop (12 * c)).take 12)) (at_ r.row0 c)) ∧
         ∀ k, k ∉ keys → s'.mem.read k = s.mem.read k) ∧
     (r.kind = 8 → x.resident → ∀ bs : Nat → List Byte,
       (∀ i < r.nrow, s.engineRead x ⟨r.loc.sp, r.loc.addr + 2304 * i⟩ 2304 = .bytes (bs i)) →
       ∃ s' b', run = .done s' ∧ s'.basins.find? r.bas = some b' ∧ s'.mem = s.mem ∧ b'.status = b.status ∧
         (∀ row col, col < 192 → row < r.row0 ∨ r.row0 + r.nrow ≤ row → b'.elem (row * 192 + col) = at_ row col) ∧
         ∀ i < r.nrow, ∀ c < 192,
           let e := b'.elem ((r.row0 + i) * 192 + c)
           holds (littleEndian (((bs i).drop (12 * c)).take 12)) e ∧ (e.q : Int) = e.val.toInt % 3 ∧
             e.pend = false) ∧
     (r.kind = 6 →
       let here (l : Nat) : Prop := l < 64 ∧ r.col0 + l < 192
       let el (l : Nat) : Elem := at_ r.row0 (r.col0 + l)
       ((∃ l, here l ∧ (el l).checks = false) → run = .mismatch) ∧
       ((∀ l, here l → (el l).checks) → ∃ s' b', run = .done s' ∧ s'.basins.find? r.bas = some b' ∧ s'.mem = s.mem ∧
         b' = { b with status := b'.status } ∧
         (r.fn = 0 → gives s' (fun l => if r.col0 + l < 192 then some [fp32 (el l)] else none) ∧
           (b'.status.getLsbD 0 ↔ b.status.getLsbD 0 ∨ ∃ l, here l ∧ (el l).a ≠ 0xFF ∧ (el l).k) ∧
           (b'.status.getLsbD 1 ↔ b.status.getLsbD 1 ∨ ∃ l, here l ∧ (el l).a = 0xFF) ∧
           (b'.status.getLsbD 2 ↔ b.status.getLsbD 2 ∨
             ∃ l, here l ∧ (fp32 (el l) = 0x7F800000 ∨ fp32 (el l) = 0xFF800000))) ∧
         (r.fn ≠ 0 → b' = b ∧ ∃ n : Nat → Nat, (∀ l, here l → holds (n l) (el l)) ∧
           gives s' (fun l => if r.col0 + l < 192 then
             some [BitVec.ofNat 32 (n l), BitVec.ofNat 32 (n l / 2 ^ 32), BitVec.ofNat 32 (n l / 2 ^ 64)] else none)))) ∧
     (r.kind = 5 → r.fn = 3 → ∃ s' b', run = .done s' ∧ s'.basins.find? r.bas = some b' ∧ s'.mem = s.mem ∧
       b' = { b with status := 0 } ∧ gives s' (fun _ => some [b.status.setWidth 32])) ∧
     (r.kind = 5 → r.fn ≠ 3 → sound 192 = false → run = .mismatch) ∧
     (r.kind = 5 → r.fn ≠ 3 → sound 192 → r.nrow ≤ 64 →
       let above (e f : Elem) : Bool := f.a != 0xFF && (e.a == 0xFF || f.num.lt e.num)
       let best (row col : Nat) : Prop := col < 192 ∧ (∀ c < 192, above (at_ row c) (at_ row col) = false) ∧
         ∀ c < col, above (at_ row col) (at_ row c)
       ∃ s' v, run = .done s' ∧ s'.basins = s.basins ∧ s'.mem = s.mem ∧ gives s' v ∧ (∀ l, r.nrow ≤ l → v l = none) ∧
         ∀ l < r.nrow,
           (r.fn = 0 → ∃ c, best (r.row0 + l) c ∧ v l = some [BitVec.ofNat 32 c]) ∧
           (r.fn = 1 → ((∀ c < 192, (at_ (r.row0 + l) c).a ≠ 0xFF ∧ (at_ (r.row0 + l) c).val = 0) → v l = some [1]) ∧
             ((∃ c < 192, (at_ (r.row0 + l) c).a = 0xFF ∨ (at_ (r.row0 + l) c).val ≠ 0) → v l = some [0])) ∧
           (r.fn = 2 → ∃ c, best (r.row0 + l) c ∧ v l = some [fp32 (at_ (r.row0 + l) c)])) ∧
     (r.kind = 3 → sound (32 * r.ncol) = false → run = .mismatch) ∧
     (r.kind = 3 → sound (32 * r.ncol) → r.scr = false → ∃ s' b', run = .done s' ∧ s'.basins.find? r.bas = some b' ∧
       b' = { b with status := b'.status } ∧ (∀ t, t ∉ r.tiles → s'.tiles.find? t = s.tiles.find? t) ∧
       (r.ofmt = 0 → r.tiles.Nodup → 1 ≤ r.ncol → r.ncol ≤ 6 → ∀ k t z, k < (r.nrow + 31) / 32 * r.ncol → r.tiles[k]? = some t →
         s.tiles.find? t = some z → ∃ z', s'.tiles.find? t = some z' ∧ z'.st = .full ∧ z'.data.fmt = 0 ∧
           ∀ m < 32, ∀ n < 32,
             let row := 32 * (k / r.ncol) + m
             let e := at_ (r.row0 + row) (32 * (k % r.ncol) + n)
             z'.data.code m n = if r.nrow ≤ row then 0 else if e.a = 0xFF then 0x7FC0 else (toBf16 0 e.num).toNat)) ∧
     (r.kind = 2 → ∀ s', run = .done s' → s' = { s with images := s'.images } ∧
       (∃ i, s'.images.find? id = some i ∧ i.tiles = r.tiles) ∧ ∀ j, j ≠ id → s'.images.find? j = s.images.find? j) ∧
     (r.kind = 1 → r.bind.ncol ≤ 6 → ∀ s', run = .done s' → ∃ b', s'.basins.find? r.bas = some b' ∧
       s' = { s with basins := s'.basins } ∧ b'.status = b.status ∧ ∀ row col, col < 192 →
         row < r.row0 ∨ r.row0 + r.nrow ≤ row ∨ 32 * r.bind.ncol ≤ col → (at_ row col).pend = false →
         b'.elem (row * 192 + col) = at_ row col)) ∧
  ((∀ (e : Elem) (p : Machine.Num),
     (e.a = 0xFF → e.add p = e) ∧ ((∀ neg k ex, p ≠ .fin neg k ex) → (e.add p).a = 0xFF) ∧
     ∀ neg k ex, e.a ≠ 0xFF → p = .fin neg k ex →
       let shift := ex - ((e.a.toNat : Int) - 151)
       let units := Machine.signed neg k * 2 ^ shift.toNat
       let one : Int := 2 ^ (-shift).toNat
       let leaves (n : Int) : Prop := n < -2 ^ 43 ∨ 2 ^ 43 ≤ n
       ∀ q : Int, q * one ≤ units → units < (q + 1) * one →
       let v := e.val.toInt + q
       (leaves q ∨ leaves v → (e.add p).a = 0xFF) ∧
       (¬ leaves q → ¬ leaves v → (e.add p).a = e.a ∧ (e.add p).val.toInt = v ∧ (e.add p).pend = e.pend ∧
         ((e.add p).k ↔ e.k ∨ q * one ≠ units) ∧ (e.checks → (e.add p).checks))) ∧
   (∀ (e : Elem) (row col : List Oper),
     e.accumulate row col = (row.zip col).foldl (fun e (p : Oper × Oper) => e.add (p.1.mul p.2)) e) ∧
   (∀ (s : State) (id : Nat) (r : MRec) (x : Group) (b : Basin) (acts : Nat → Option TileData), s.basins.find? r.bas = some b →
     b.elems.sorted → r.cur = 0 → r.kind = 1 → r.bind.ncol ≤ 6 → r.kb0 + r.nk ≤ r.bind.bands.length →
     (∀ k < blocksOf r.nrow * r.nk, s.recTile r x k (min 32 (r.nrow - 32 * (k / r.nk))) = .ok (acts k)) →
     let row (m : Nat) : List Oper := (List.range r.nk).flatMap fun j => (List.range 32).map fun k =>
       ((acts (m / 32 * r.nk + j)).getD TileData.zero).oper (m % 32) k
     let weight (j k c : Nat) : Oper := match (s.bandOf r.bind (r.kb0 + j)).bind fun w => w[c / 32]? with
       | some t => t.oper k (c % 32)
       | none => .num (.fin false 0 0)
     let col (c : Nat) : List Oper := (List.range r.nk).flatMap fun j => (List.range 32).map fun k => weight j k c
     ∃ s' b' a, s.runRec id r x b r.nrow = .done s' ∧ s'.basins.find? r.bas = some b' ∧ ∀ m < r.nrow, ∀ c < 32 * r.bind.ncol,
       let e := b.elem ((r.row0 + m) * 192 + c)
       let start : Elem := if e.pend then { e with pend := false, a := a } else e
       b'.elem ((r.row0 + m) * 192 + c) = start.accumulate (row m) (col c)))

/-- R402, R408-R414: A peer settles a remote operation, or the operation fails; a collective completes on this module
in the order of its group; a port goes down; a peer's transactions act on device memory. The time limit of a
peer's answer is an event that happens whatever time has passed (log entry 23). What a module receives from a
collective: the contributions in module-rank order, the root's own, or the reduction of each element: exact for
integers, by R53 for the extremes of FP32 values, and for their sum in an element anchored at the largest of them.
Where the spec leaves a point of this open, the clause is the model's choice: log entries 10, 22, 23, 24, 25, 51,
95 and 98. -/
def Obligations.FabricEvents : Prop :=
  (∀ (s : State),
     (∀ id r, s.remotes.find? id = some r →
       let e (found : List Word) := Instr.remoteSettle id false found
       let done (s : State) : State := (State.outDone { s with remotes := s.remotes.erase id } r.grp r.ctr).leave r.grp
       Happens (.peerAckTimeout id) s (s.failRemote id r 4) ∧
       (s.delivered id = none → ∀ err found, NotNow (.remoteSettle id err found) s) ∧
       (s.ready.ual = 0 → ∀ err found, NotNow (.remoteSettle id err found) s) ∧
       (∀ s1, s.delivered id = some s1 → s.ready.ual ≠ 0 →
         (∀ found, Happens (.remoteSettle id true found) s (s1.failRemote id r 5)) ∧
         (s.xputWaits id r → ∀ found, NotNow (e found) s) ∧
         (∀ l found, r.kind = .xput l → s.xputWaits id r = false → Happens (e found) s (done (s1.countIn r.grp r.ctr (4 * l.length)))) ∧
         (∀ n t q found, r.kind = .xget n → r.taker = some (t, q) →
           (found.length = n → Happens (e found) s (done (s1.result t q (.vals found)))) ∧
           (found.length ≠ n → NotNow (e found) s)) ∧
         (∀ rule ty v t q w, r.kind = .xfwr rule ty v → r.taker = some (t, q) →
           Happens (e [w]) s (done (s1.result t q (.vals [w])))) ∧
         (∀ bits results, r.kind = .commit bits results →
           Happens (e []) s (done (results.foldl (fun s p => s.result p.1 p.2.1 (.vals [p.2.2])) s1))))) ∧
     (∀ id, s.remotes.find? id = none → ∀ err found, NotNow (.remoteSettle id err found) s) ∧
     (∀ id p, (s.packets.find? fun p => p.id == id) = some p →
       let gone : State := { s with packets := s.packets.filter (·.id != p.id) }
       (p.sent = false → s.leavesNext p = false) ∧ (s.leavesNext p = false → s.delivered id = none) ∧
       (s.leavesNext p → (∀ d, p.stamp = some d → d < s.clk → s.delivered id = some (gone.countLate p.launch p.grp)) ∧
         ((∀ d, p.stamp = some d → s.clk ≤ d) → s.delivered id = some gone))) ∧
     (∀ id, (∀ p ∈ s.packets, p.id ≠ id) → s.delivered id = some s) ∧
     (∀ id c x contribs, s.colls.find? id = some c → s.group? c.grp = some x →
       let l := s.launchOf x
       let (sl, dl) := collectiveLen c.op c.len l.podSize
       let me := ((s.podModules l).idxOf? s.fw.module).getD 0
       let e (fate : CollectiveEnd) := Instr.collectiveComplete id fate contribs
       (s.remotes.find? id = none → Happens (.peerAckTimeout id) s (s.failColl id c 4 0 dl)) ∧
       (s.waitsOn (.coll id) → ∀ fate, NotNow (e fate) s) ∧
       (s.waitsOn (.coll id) = false →
         (s.readsHeld (.coll id) → NotNow (e .agree) s) ∧
         Happens (e .differ) s (s.failColl id c 6 0 dl) ∧
         Happens (e .error) s (s.failColl id c 5 0 dl) ∧
         Happens (e .missed) s ((State.outDone (State.countIn { s with colls := s.colls.erase id } c.grp c.ctr dl true) c.grp
           c.ctr).leave c.grp) ∧
         (∀ own s', contribs.length = l.podSize → (∀ b ∈ contribs, b.length = sl) →
           c.image = none → c.own = [] → c.done = 0 → s.readsHeld (.coll id) = false →
           c.op ≠ 0xD5 ∨ me = c.root → s.engineRead x c.src sl = .bytes own →
           s.engineWrite c.grp x c.dst (c.result (contribs.set me own)) id = .ok s' →
           Happens (e .agree) s ((State.outDone (State.countIn { s' with colls := s'.colls.erase id } c.grp c.ctr dl) c.grp
             c.ctr).leave c.grp)))) ∧
     (∀ port, port < 18 →
       (s.ready.ual.getLsbD port = false → NotNow (.ualinkPortDown port) s) ∧
       (s.ready.ual.getLsbD port → ∃ s', Happens (.ualinkPortDown port) s s' ∧
         s' = { s with ready := { s.ready with ual := s'.ready.ual }, packets := s'.packets } ∧
         (s'.packets = s.packets.map fun p =>
           if s'.ready.ual.getLsbD p.outPort then p
           else { p with sent := false, outPort := s'.peerPort (((s.remotes.find? p.id).bind fun r => r.acc.keys.head?).getD 0) }) ∧
         ∀ k, k < 18 → (s'.ready.ual.getLsbD k = (s.ready.ual.getLsbD k && k != port)))) ∧
     (∀ op, s.ready.ual = 0 ∨ s.ready.safe → NotNow (.peerTransactionArrival op) s) ∧
     (s.ready.ual ≠ 0 → s.ready.safe = false →
       (∀ a n, (∀ i < n, isDeviceMemory (a + i) ∧ s.prepared (a + i) = false) →
         Happens (.peerTransactionArrival (.read a n)) s s) ∧
       (∀ a (bs : List Byte), (∀ i < bs.length, isDeviceMemory (a + i)) →
         Happens (.peerTransactionArrival (.write a bs)) s (s.writePhys a bs)) ∧
       (∀ a rule t v, a % 4 = 0 → (∀ i < 4, isDeviceMemory (a + i) ∧ s.prepared (a + i) = false) →
         let old : Word := BitVec.ofNat 32 (s.readPhys a 4)
         (isCombining rule = false → Happens (.peerTransactionArrival (.atomic a rule t v)) s
           (s.writePhys a (bytesOf 4 v.toNat))) ∧
         (isCombining rule → Happens (.peerTransactionArrival (.atomic a rule t v)) s
           (s.writePhys a (bytesOf 4 (combine rule t old [v]).toNat)))))) ∧
  (∀ (c : Collective) (l : List (List Byte)),
     (c.op = 0xD3 → c.result l = l.flatten) ∧
     (c.op = 0xD5 → ∀ b, l[c.root]? = some b → c.result l = b) ∧
     (∀ ws : List Word, ws ≠ [] →
       (reduceWord 0 .n32 ws).toNat = (ws.map BitVec.toNat).sum % 2 ^ 32 ∧
       reduceWord 0 .i32 ws = reduceWord 0 .n32 ws ∧
       (reduceWord 1 .n32 ws ∈ ws ∧ ∀ w ∈ ws, (reduceWord 1 .n32 ws).toNat ≤ w.toNat) ∧
       (reduceWord 1 .i32 ws ∈ ws ∧ ∀ w ∈ ws, (reduceWord 1 .i32 ws).toInt ≤ w.toInt) ∧
       (reduceWord 2 .n32 ws ∈ ws ∧ ∀ w ∈ ws, w.toNat ≤ (reduceWord 2 .n32 ws).toNat) ∧
       (reduceWord 2 .i32 ws ∈ ws ∧ ∀ w ∈ ws, w.toInt ≤ (reduceWord 2 .i32 ws).toInt) ∧
       IsExtreme false ws (reduceWord 1 .f32 ws) ∧ IsExtreme true ws (reduceWord 2 .f32 ws) ∧
       (∀ n, ws.find? f32IsNan = some n → reduceWord 0 .f32 ws = n ||| 0x00400000) ∧
       ((∀ w ∈ ws, f32IsNan w = false) →
         (0x7F800000 ∈ ws → 0xFF800000 ∈ ws → reduceWord 0 .f32 ws = 0x7FC00000) ∧
         (∀ i : Word, i <<< 1 = 0xFF000000 → i ∈ ws → i ^^^ 0x80000000 ∉ ws → reduceWord 0 .f32 ws = i)) ∧
       (ws.length ≤ 128 → (∀ w ∈ ws, Finite32 w) → ∀ top, (∃ w ∈ ws, (signedUnits w).natAbs = top) →
         (∀ w ∈ ws, (signedUnits w).natAbs ≤ top) → top ≠ 0 →
         let anchor := Nat.log2 top - 33
         let sum := (ws.map fun w => (signedUnits w * 4).fdiv (2 ^ anchor)).sum
         RatioF32 0 (sum * 2 ^ anchor) 4 (reduceWord 0 .f32 ws) ∧ (sum = 0 → reduceWord 0 .f32 ws = 0)) ∧
       ((∀ w ∈ ws, signedUnits w = 0 ∧ Finite32 w) → reduceWord 0 .f32 ws = 0)))

/-- R127, R129, R418, R422, R424-R427, R429: errors poison and count, tests remap lanes and take quads out, the stages
of bring-up make parts ready or lead to the safe state, and the envelope's limits act. Where the spec leaves a
point of this open, the clause is the model's choice: log entries 34, 56, 67, 79, 103 and 125. -/
def Obligations.ModuleEvents : Prop :=
  ∀ (s : State),
    let again : State := { State.reset with free := s.free, fresh := s.fresh, agenda := s.agenda }
    let counted : State := { s with fw := { s.fw with corrected := s.fw.corrected + 1 } }
    Happens .powerOnReset s again ∧ Happens .powerRemoval s again ∧ Happens .thermalTrip s (s.enterSafe 0xE0) ∧
    Happens .powerCap s { s with fw := { s.fw with cap := true } } ∧
    (s.ready.fw → Happens .thermalThrottle s { s with fw := { s.fw with throttle := true } }) ∧
    (s.ready.fw = false → NotNow .thermalThrottle s) ∧
    Happens .correctableError s counted ∧
    (∀ line, line < 2 ^ 53 → ∃ s', Happens (.uncorrectableError line) s s' ∧ s' = { s with poison := s'.poison } ∧
      ∀ k, s'.poisoned [k] = (decide (k / 128 = line) || s.poisoned [k])) ∧
    (∀ part : BringUp, s.ready.safe ∧ part ≠ .pl0 ∨ s.ready.awaits part = false → ∀ pass, NotNow (.bringUpStageComplete part pass) s) ∧
    (∀ part : BringUp, s.ready.safe = false ∨ part = .pl0 → s.ready.awaits part →
      let up : State := State.reroute { s with ready := s.ready.pass part }
      let code := stageCode part
      (part ≠ .fw → Happens (.bringUpStageComplete part true) s up) ∧
      (part = .fw → Happens (.bringUpStageComplete part true) s { up with fw := { up.fw with gen := 4 } }) ∧
      (part = .sec → Happens (.bringUpStageComplete part false) s (s.enterSafe 0x01)) ∧
      (part = .fw → Happens (.bringUpStageComplete part false) s (s.enterSafe 0x03)) ∧
      (part ≠ .sec → part ≠ .fw → ∃ s', Happens (.bringUpStageComplete part false) s s' ∧
        s' = { s with ready := { s.ready with failc := s'.ready.failc, failAt := s'.ready.failAt, failed := part :: s.ready.failed } } ∧
        (∀ pass, NotNow (.bringUpStageComplete part pass) s') ∧
        code ∈ [(0x02 : Byte), 0x10, 0x20, 0x30, 0x40] ∧
        (s.ready.failc = 0 → s'.ready.failc = code ∧ s'.ready.failAt = some s.clk) ∧
        (s.ready.failc ≠ 0 → s.ready.failAt = some s.clk → code < s.ready.failc → s'.ready.failc = code) ∧
        (s.ready.failc ≠ 0 → s.ready.failAt ≠ some s.clk ∨ ¬ code < s.ready.failc →
          s'.ready.failc = s.ready.failc ∧ s'.ready.failAt = s.ready.failAt))) ∧
    (∀ core, (s.core core).testing = false → NotNow (.laneTestComplete core none false) s) ∧
    (∀ core, (s.core core).testing → s.residents core = [] →
      Happens (.laneTestComplete core none false) s (counted.modCore core fun k => { k with testing := false }) ∧
      ∀ lane, lane < 65 → lane ≠ (s.core core).lremap.toNat % 128 ∨ lane = 64 → (s.core core).lremap.getLsbD 31 = false →
        ∃ s', Happens (.laneTestComplete core (some lane) false) s s' ∧ (s'.core core).testing = false ∧
          ((s.core core).lremap.toNat % 128 = 64 → (s'.core core).lremap.toNat % 128 = lane ∧
            (s'.core core).lremap.getLsbD 31 = false) ∧
          ((s.core core).lremap.toNat % 128 ≠ 64 → (s'.core core).lremap.toNat / 128 % 128 = lane ∧
            (s'.core core).lremap.getLsbD 31)) ∧
    (∀ seq q rest failed, s.fw.test = some (seq, q :: rest, failed) →
      ((∃ p ∈ s.groups, p.2.resident ∧ quadOf p.2.core = q) → ∀ pass, NotNow (.quadTestComplete pass) s) ∧
      ((∀ p ∈ s.groups, p.2.resident → quadOf p.2.core ≠ q) → rest = [] → ∃ s' s'',
        Happens (.quadTestComplete true) s s' ∧ s'.fw.test = none ∧ s'.fw.rspBuf = testResponse failed ∧
        s'.fw.mbrsp = seq.setWidth 16 ++ (0 : BitVec 16) ∧ s'.fw.msix = s.fw.msix ++ [64] ∧ s'.quads = s.quads ∧
        Happens (.quadTestComplete false) s s'' ∧ s''.fw.rspBuf = testResponse (failed ++ [q]) ∧ (s''.quad q).out) ∧
      (∀ p more, (∀ z ∈ s.groups, z.2.resident → quadOf z.2.core ≠ q) → rest = p :: more →
        Happens (.quadTestComplete true) s
          (State.clearQuad { s with fw := { s.fw with test := some (seq, rest, failed) } } p)))

/-- R371, R405, R407, R425, R426: power-on reset leaves the ready status, every queue descriptor, the mailbox and the
firmware generation at 0, no launch, group or request, every core in use and memory in its canonical form.  That a byte
never written reads as 0, and LREMAP and `%lremap` that no test has changed, are the model's (log entries 2 and 3). -/
def Obligations.ResetState : Prop :=
  let s := State.reset
  (s.ready.ual = 0 ∧ s.ready.lpd = 0 ∧ s.ready.hbm = 0 ∧ s.ready.die = 0 ∧ s.ready.safe = false ∧ s.ready.failc = 0 ∧
    s.ready.fw = false ∧ s.ready.disp = false ∧ s.ready.pl1 = false ∧ s.ready.pl0 = false ∧ s.ready.sec = false) ∧
  (∀ q < 64, (s.queueAt q).base = 0 ∧ (s.queueAt q).log2n = 0 ∧ (s.queueAt q).opened = false ∧ (s.queueAt q).dev = false ∧
    (s.queueAt q).head = 0 ∧ (s.queueAt q).tail = 0) ∧
  (s.fw.mbreq = 0 ∧ s.fw.mbrsp = 0 ∧ s.fw.mbevt = 0 ∧ s.fw.gen = 0) ∧
  (s.launches = [] ∧ s.groups = [] ∧ s.copies = [] ∧ s.sops = [] ∧ s.recs = [] ∧ s.remotes = [] ∧ s.colls = [] ∧
    s.tiles = [] ∧ s.basins = []) ∧
  (∀ c, (s.core c).out = false ∧ (s.core c).lremap = 0x3FC0) ∧ (∀ k, s.mem.read k = 0) ∧ s.MemWf

/-- Every step keeps memory in its canonical form, whatever the environment has chosen to happen. -/
def Obligations.StepKeepsMemory : Prop :=
  ∀ s s' : State, s.MemWf → step s = .next s' → s'.MemWf

/-- R84, R91-R93, R97: the bytes of every well-formed instruction, in the class that the assembler chooses, in the
12-byte class and in every class that carries its word, decode to that instruction and its length, whatever follows
them. -/
def Obligations.DecodeEncode : Prop :=
  ∀ (i : Instr) (w : Canon) (rest : List Byte), WellFormed i → encodeWord i = some w →
    decodeBytes (encode i ++ rest) = some (i, shortestClass w) ∧ (encode i).length = shortestClass w ∧
    decodeBytes (encodeClass 12 w ++ rest) = some (i, 12) ∧
    ∀ n ∈ [2, 4, 6, 8, 10], classCarries n w → shortestClass w ≤ n ∧ decodeBytes (encodeClass n w ++ rest) = some (i, n)

/-- R84-R93: words written out from the encoding of the spec, among them its own worked encodings. -/
def Obligations.DecodedWords : Prop :=
  let f : Fields := {}
  decodeBytes [0x77, 0x10, 0x03, 0x04, 0x05, 0x10] =
    some (.add { f with s := true, d := 3, a := 4, b := 5, t := .i32 }, 6) ∧
  decodeBytes [0xCE, 0x2B, 0x08, 0xF9, 0xF8, 0xF8, 0x00, 0x00, 0x00, 0x00, 0xC0, 0x7F] =
    some (.mov { f with d := 8, a := 249, imm := 0x7FC00000 }, 12) ∧
  decodeBytes [0x27, 0x0A] = some (.exit f, 2) ∧
  decodeBytes [0xA7, 0x01, 0xF8, 0xF9, 0xF8, 0x00, 0x00, 0xF8, 0xFF, 0xFF] =
    some (.bra { f with a := 249, imm := 0xFFFFFFFC }, 10) ∧
  decodeBytes [0x67, 0xC0, 0x00, 0xC9, 0x04, 0x20] = some (.sopen { f with d := 0, a := 201, b := 4, t := .n32 }, 6) ∧
  (∀ b bs, b < 32 → decodeSlot (b :: bs) = .padding) ∧
  (∀ op : Byte, 0xF0 ≤ op → decodeBytes [0x27, op] = none)

/-- R94, R112-R114: when the issue-group builder of a core picks a group whose slot is an instruction, one step is
that instruction at the threads of the group, and the end of the core's cycle (an instruction of a block stands
after whole instructions of it, R79); when the environment's choice is an event, one step is that event. Time and
the open values go on by one step first, and the choice leaves the agenda. Where the spec leaves a point of this
open, the clause is the model's choice: log entries 4, 54, 61, 84 and 104. -/
def Obligations.StepRunsDecoded : Prop :=
  ∀ (s : State) (rest : List Choice),
    let s0 := ({ s with agenda := rest } : State).tick
    (∀ (core : Nat) (s1 : State) (r : TRef) (x : Group) (t : Thread) (ms : Candidates) (b : Block) (w : Canon) (i : Instr)
      (n : Nat) (before : List (List Byte)) (at_ : List Byte),
      s.agenda = .issue core :: rest → s0.buildIssue core = (s1, (r, x, t) :: ms) →
      s1.cached x.core x.launch t.here = some b → b.prot = false →
      blockBody b.bytes = before.flatten ++ at_ → t.pc.toNat = t.here.toNat + 8 + before.flatten.length →
      (∀ p ∈ before, ∀ l, ∃ v, decodeSlot (p ++ l) = .word v p.length) →
      decodeSlot at_ = .word w n → decodeWord w = .instr i →
      step s = andThen (exec i { s1 with issue :=
        { core := core
          threads := (((r, x, t) :: ms).filter fun q =>
            (s1.slotOf q.2.1 q.2.2).map (fun k => (k.1.prot, k.2)) == some (false, .word w n)).map (·.1)
          len := n } }) (·.endCycle core)) ∧
    (∀ e : Instr, s.agenda = .event e :: rest → e.fields = none → step s = exec e s0)

/-- R3, R85, R86, R165: what a write makes of a byte of memory, a register, a pair or a predicate is what a read finds,
and every other one is as before; two memories that read the same are the same; code 248 discards, p7 stays true. -/
def Obligations.ReadAfterWrite : Prop :=
  (∀ (m : Memory) (k : Nat) (b : Byte), m.wf →
    (m.write k b).wf ∧ (m.write k b).read k = b ∧ (∀ j, j ≠ k → (m.write k b).read j = m.read j) ∧
    (b = m.read k → m.write k b = m)) ∧
  (∀ m n : Memory, m.wf → n.wf → (∀ k, m.read k = n.read k) → m = n) ∧
  (∀ (s : State) (ks : List Nat) (bs : List Byte), ks.Nodup → (∀ k ∈ ks, k < 2 ^ 60) → ks.length = bs.length →
    (s.writeBytes ks bs).readBytes ks = bs ∧ ∀ j, j ∉ ks → (s.writeBytes ks bs).mem.read j = s.mem.read j) ∧
  (∀ (t : Thread) (f : Fields) (c : BitVec 8) (w : Word) (p : DWord) (b : Bool),
    (c.toNat ≤ 191 → (t.writeD c w).src f c = w) ∧ (191 < c.toNat → t.writeD c w = t) ∧
    (∀ k, k ≠ c.toNat → (t.writeD c w).reg k = t.reg k) ∧
    (c.toNat ≤ 190 → (t.writePair c p).reg c.toNat = p.setWidth 32 ∧ (t.writePair c p).srcHi c = (p >>> 32).setWidth 32) ∧
    (∀ k, k ≠ c.toNat → k ≠ c.toNat + 1 → (t.writePair c p).reg k = t.reg k) ∧ t.writePair 248 p = t ∧
    (192 ≤ c.toNat → c.toNat ≤ 198 → (t.writeP c b).predOf c = b) ∧
    (∀ k < 8, 192 ≤ c.toNat → k ≠ c.toNat - 192 → (t.writeP c b).pred k = t.pred k) ∧
    (t.writeP c b).pred 7 = true ∧ t.src f 248 = 0 ∧ t.src f 249 = f.imm)

/-- R16, R86, R118, R305: what an instruction leaves alone, by the way its statement says that it completes: one that
`Yields`, `YieldsPair` or `YieldsPred` changes only the destination at issue; one that `Defers` or `Buffers`, or that
`Joins` an instance, changes no register, predicate or segment register at issue; a lane-crossing one neither, in any
thread of its cohort.  No byte of memory, no object of an engine, no queue and no other thread changes, no other group,
and no other state of the thread's group but, where the thread joins an instance, that instance. -/
def Obligations.Frames : Prop :=
  (∀ (i : Instr) (s : State) (r : TRef) (g : Group) (t : Thread) (f : Fields), Issues s r g t i f →
    let next : Word := t.pc + BitVec.ofNat 32 s.issue.len
    (∀ w, Yields i s r f w → ∃ s' u, exec i s = .next s' ∧ s'.thread? r = some u ∧ u.pc = next ∧
      (∀ k, k ≠ f.d.toNat → u.reg k = t.reg k) ∧ (f.d.toNat ≤ 191 → u.reg f.d.toNat = w) ∧ u.p = t.p ∧ u.s = t.s ∧
      u.fx = t.fx ∧ u.defs = t.defs ∧ s.SameOutside s' ∧ s.SameOthers s' r ∧ s'.SameGroup r.grp g) ∧
    (∀ w, YieldsPair i s r f w → ∃ s' u, exec i s = .next s' ∧ s'.thread? r = some u ∧ u.pc = next ∧
      (∀ k, k ≠ f.d.toNat → k ≠ f.d.toNat + 1 → u.reg k = t.reg k) ∧ u.p = t.p ∧ u.s = t.s ∧ u.fx = t.fx ∧
      u.defs = t.defs ∧ s.SameOutside s' ∧ s.SameOthers s' r ∧ s'.SameGroup r.grp g) ∧
    (∀ b, 192 ≤ f.d.toNat → f.d.toNat ≤ 198 → YieldsPred i s r f b → ∃ s' u, exec i s = .next s' ∧
      s'.thread? r = some u ∧ u.pc = next ∧ u.v = t.v ∧ u.s = t.s ∧
      (∀ k < 8, u.pred k = if k + 192 = f.d.toNat then b else t.pred k) ∧ u.fx = t.fx ∧ u.defs = t.defs ∧
      s.SameOutside s' ∧ s.SameOthers s' r ∧ s'.SameGroup r.grp g) ∧
    (∀ d v, Defers i s r f d v → ∃ s' u, exec i s = .next s' ∧ s'.thread? r = some u ∧ u.pc = next ∧ t.SameRegs u ∧
      u.fx = t.fx ∧ (∃ q, u.defs = t.defs ++ [{ seq := q, dst := d, src := v }]) ∧ s.SameOutside s' ∧ s.SameOthers s' r ∧
      s'.SameGroup r.grp g) ∧
    (∀ e, Buffers i s r f e → ∃ s' u, exec i s = .next s' ∧ s'.thread? r = some u ∧ u.pc = next ∧ t.SameRegs u ∧
      u.fx = t.fx ++ [e] ∧ u.defs = t.defs ∧ s.SameOutside s' ∧ s.SameOthers s' r ∧ s'.SameGroup r.grp g) ∧
    (∀ a, Joins i s r g t f a → ∃ s' u, exec i s = .next s' ∧ s'.thread? r = some u ∧ u.pc = next ∧ t.SameRegs u ∧
      u.fx = t.fx ∧ u.defs = t.defs ∧ s.SameOutside s' ∧ s.SameOthers s' r ∧
      let d := g.domOf r.tid
      let others (x : Group) : List Inst := (x.dom d).insts.filter fun n => n.coh != r.tid / 64 || n.pc != t.pc
      ∃ y, s'.group? r.grp = some y ∧ y = { g with threads := y.threads, doms := y.doms } ∧
        (∀ e, e ≠ d → y.dom e = g.dom e) ∧ y.dom d = { g.dom d with insts := (y.dom d).insts } ∧ others y = others g)) ∧
  (∀ (i : Instr) (s : State) (gn coh : Nat) (g : Group) (l act : List (TRef × Thread)) (f : Fields)
      (v : Nat → Thread → Option (Dst × List Word)), CohortIssues s gn coh g l act i f → LanesYield i s l act f v →
    ∃ s', exec i s = .next s' ∧ s.SameOutside s' ∧ (∀ q, q ∉ l.map (·.1) → s'.thread? q = s.thread? q) ∧
      (∀ h, h ≠ gn → s'.group? h = s.group? h) ∧ s'.SameGroup gn g ∧
      ∀ p ∈ l, ∃ u, s'.thread? p.1 = some u ∧ p.2.SameRegs u ∧ u.pc = p.2.pc + BitVec.ofNat 32 s.issue.len ∧
        u.fx = p.2.fx)

/-- R90, R95, R96, R113, R116, R390: for every instruction: a thread whose group does not run, that is not ready, or
whose count or engine has no room, does not issue; a timer that is due traps before anything else; a decode fault
is raised whatever the guard; with a false guard the thread goes on and nothing else happens. Where the spec
leaves a point of this open, the clause is the model's choice: log entry 119. -/
def Obligations.IssueGate : Prop :=
  ∀ (i : Instr) (s : State) (r : TRef) (g : Group) (t : Thread) (f : Fields), i.fields = some f →
    (t.guard f.pg = (t.pred (f.pg.toNat % 8) ^^ f.pg.getLsbD 3)) ∧
    (Skips s r g t i f → GoesOn i s r f s) ∧
    (s.issue.threads = [r] → s.group? r.grp = some g → s.thread? r = some t →
      (g.runs = false ∨ t.st ≠ .ready ∨ t.countOk i = false ∨ s.engineRoom r.grp i = false → exec i s = .next s) ∧
      (g.runs → t.st = .ready → t.countOk i → s.engineRoom r.grp i →
        (s.timerDue t → exec i s = .next (s.timerTrap r.grp)) ∧
        (s.timerDue t = false →
          (featuresOk (s.launchOf g).fmask i f = false → StopsWith i s r (.of .reserved)) ∧
          (featuresOk (s.launchOf g).fmask i f → heldOk g r.tid i f = false → StopsWith i s r (.of .unheld)))))

/-- R30, R215-R220, R222, R223: The writes of one commit event. A bit that no write's footprint holds, and a byte of
no write's access, stay as they were, and so does every byte that the event's writers do not name; under the
replacing rules each bit is that of the last write to it of the lowest-ranked thread; under a combining rule whose
writers name the same cell the cell is the sum, the least, the greatest, the OR or the AND of the base value and
every contribution. A commit of writes alone changes memory by these and by nothing else. Under `.sum`, `.min` and
`.max` an FP32 cell whose writers all name it takes the exact sum rounded once, the first NaN quieted, or the
least or the greatest of the base value and every contribution. A `fwr` receives the base value with every earlier
contribution to its cell combined. The predicate of a `cwr` is false where its comparison fails; where it holds it
is true under a combining rule, and under `.lo` and `.fault` for the one whose write wins every bit of its
footprint. -/
def Obligations.CommitEvent : Prop :=
  (∀ (s : State) (g d : Nat) (x : Group), s.group? g = some x →
     let ws := (s.writers x d).filter (isWriter s.readByte)
     let m := (s.applyWrites g d x).mem
     (∀ k, (∀ y ∈ ws, k ∉ y.w.acc.keys) → m.read k = s.mem.read k) ∧
     ((∀ p ∈ s.effects x d, ∃ w, p.2 = .write w) → (x.dom d).insts = [] → (s.commit g d).mem = m) ∧
     ((∀ y ∈ ws, isCombining y.w.rule = false ∧ y.w.rule ≠ 1) → ∀ k < 2 ^ 60, ∀ b < 8,
       let hit := ws.filter fun y => y.w.maskAt k / 2 ^ b % 2 == 1
       (hit = [] → (m.read k).getLsbD b = (s.mem.read k).getLsbD b) ∧
       (∀ y z, hit.head? = some y → (hit.filter fun q => q.tid == y.tid).getLast? = some z →
         (m.read k).getLsbD b = decide (z.w.bitsAt k / 2 ^ b % 2 = 1))) ∧
     (∀ y ∈ ws, isCombining y.w.rule → y.w.acc.keys.length = 4 → y.w.acc.keys.Nodup → (∀ k ∈ y.w.acc.keys, k < 2 ^ 60) →
       (∀ q ∈ ws, q.w.mask = 2 ^ 32 - 1 ∧ q.w.acc.keys = y.w.acc.keys ∧ q.w.rule = y.w.rule ∧ q.w.t = y.w.t ∨
         ∀ k ∈ q.w.acc.keys, k ∉ y.w.acc.keys) →
       let cell : Word := BitVec.ofNat 32 (littleEndian (y.w.acc.keys.map m.read))
       let base : Word := BitVec.ofNat 32 (littleEndian (y.w.acc.keys.map s.mem.read))
       let vals := (ws.filter fun q => q.w.acc.keys == y.w.acc.keys).map fun q => BitVec.ofNat 32 q.w.value
       (y.w.rule = 2 → y.w.t ≠ .f32 → cell = base + vals.sum) ∧
       (y.w.rule = 3 → y.w.t ≠ .f32 → cell ∈ base :: vals ∧ ∀ v ∈ base :: vals, ival y.w.t cell ≤ ival y.w.t v) ∧
       (y.w.rule = 4 → y.w.t ≠ .f32 → cell ∈ base :: vals ∧ ∀ v ∈ base :: vals, ival y.w.t v ≤ ival y.w.t cell) ∧
       (y.w.rule = 5 → ∀ b < 32, cell.getLsbD b = (base :: vals).any (·.getLsbD b)) ∧
       (y.w.rule = 6 → ∀ b < 32, cell.getLsbD b = (base :: vals).all (·.getLsbD b)))) ∧
  (∀ (s : State) (g d : Nat) (x : Group), s.group? g = some x → (∀ y ∈ s.writers x d, y.w.peer = false) →
     let ws := (s.writers x d).filter (isWriter s.readByte)
     let m := (s.applyWrites g d x).mem
     let lands (y : Writer) (seq : Nat) (v : Word) : Prop := ∀ t, x.threads[y.tid]? = some t → ∀ q ∈ t.defs, q.seq = seq →
       ∃ u, (s.applyWrites g d x).thread? ⟨g, y.tid⟩ = some u ∧ { q with src := .vals [v] } ∈ u.defs
     let named (z : Writer) (seq : Nat) : Prop := z.w.kind = .fwr seq ∨ ∃ c v, z.w.kind = .cwr c v seq
     let own (y : Writer) (seq : Nat) : Prop := (s.writers x d).count y = 1 ∧ ∀ z ∈ s.writers x d, z.tid = y.tid → named z seq → z = y
     let word (y : Writer) : Word := BitVec.ofNat 32 y.w.value
     let whole (y : Writer) : Prop := y.w.acc.keys.length = 4 ∧ y.w.acc.keys.Nodup ∧ (∀ k ∈ y.w.acc.keys, k < 2 ^ 60) ∧
       ∀ q ∈ ws, q.w.mask = 2 ^ 32 - 1 ∧ q.w.acc.keys = y.w.acc.keys ∧ q.w.rule = y.w.rule ∧ q.w.t = y.w.t ∨
         ∀ k ∈ q.w.acc.keys, k ∉ y.w.acc.keys
     let base (y : Writer) : Word := BitVec.ofNat 32 (littleEndian (y.w.acc.keys.map s.mem.read))
     let nan (w : Word) : Prop := f32IsNan w
     let sum (v : Word) (l : List Word) : Machine.Num := l.foldl (fun a w => a.add 0 (numF32 w)) (numF32 v)
     (∀ y ∈ ws, isCombining y.w.rule → whole y → y.w.t = .f32 →
       let cell : Word := BitVec.ofNat 32 (littleEndian (y.w.acc.keys.map m.read))
       let vals := (ws.filter fun q => q.w.acc.keys == y.w.acc.keys).map word
       let all := base y :: vals
       (y.w.rule = 2 → (∀ n, all.find? (fun w => f32IsNan w) = some n → cell = n ||| 0x00400000) ∧
         ((∀ w ∈ all, ¬ nan w) → cell = toF32 0 (sum (base y) vals) ∧
           (0x7F800000 ∈ all → 0xFF800000 ∈ all → cell = 0x7FC00000))) ∧
       ((∀ w ∈ all, ¬ nan w) →
         (y.w.rule = 3 → cell ∈ all ∧ ∀ w ∈ all, f32Key cell ≤ f32Key w) ∧
         (y.w.rule = 4 → cell ∈ all ∧ ∀ w ∈ all, f32Key w ≤ f32Key cell)) ∧
       (y.w.rule = 3 ∨ y.w.rule = 4 → (∃ w ∈ all, ¬ nan w) → ¬ nan cell)) ∧
     (∀ y seq a b, ws = a ++ y :: b → y.w.kind = .fwr seq → own y seq → whole y →
       let before := (a.filter fun q => q.w.acc.keys == y.w.acc.keys).map word
       (isCombining y.w.rule = false ∨ before = [] → lands y seq (base y)) ∧
       (before ≠ [] →
         (y.w.rule = 2 → y.w.t ≠ .f32 → lands y seq (base y + before.sum)) ∧
         (y.w.rule = 2 → y.w.t = .f32 → (∀ w ∈ base y :: before, ¬ nan w) → lands y seq (toF32 0 (sum (base y) before))) ∧
         (y.w.rule = 3 ∨ y.w.rule = 4 → y.w.t ≠ .f32 → ∃ v ∈ base y :: before, lands y seq v ∧ ∀ w ∈ base y :: before,
           (y.w.rule = 3 → ival y.w.t v ≤ ival y.w.t w) ∧ (y.w.rule = 4 → ival y.w.t w ≤ ival y.w.t v)) ∧
         (y.w.rule = 5 → lands y seq (before.foldl (· ||| ·) (base y))) ∧
         (y.w.rule = 6 → lands y seq (before.foldl (· &&& ·) (base y))))) ∧
     (∀ y c v seq, y.w.kind = .cwr c v seq → own y seq → y ∈ s.writers x d → y ∉ ws → lands y seq 0) ∧
     (∀ y c v seq, y.w.kind = .cwr c v seq → own y seq → y ∈ ws → isCombining y.w.rule → lands y seq 1) ∧
     (∀ y c v seq, y.w.kind = .cwr c v seq → own y seq → y ∈ ws → y.w.acc.keys.Nodup →
       (∀ z ∈ ws, isCombining z.w.rule = false ∧ z.w.rule ≠ 1) →
       let wins := ∀ k b, b < 8 → y.w.maskAt k / 2 ^ b % 2 = 1 →
         let hit := ws.filter fun z => z.w.maskAt k / 2 ^ b % 2 == 1
         (hit.head?.map Writer.tid) = some y.tid ∧ (hit.filter fun z => z.tid == y.tid).getLast? = some y
       (wins → lands y seq 1) ∧ (¬ wins → lands y seq 0)))

/-- R19, R21, R26, R118: what a completed boundary makes of a thread: `%dstep` goes up by one, `%xstep` by one for a
thread that executed the step, and deferred results land in program order, the later over the earlier; a thread that
exits holds no result and its counts advance too; an exited thread stays as it is. -/
def Obligations.Landing : Prop :=
  ∀ t : Thread,
    let u := t.complete
    let names (e : Deferred) (k : Nat) : Prop := match e.dst with
      | .regs v n => v ≤ k ∧ k < v + n
      | .half v _ => v = k
      | _ => False
    (t.live = false → u = t) ∧
    (t.live → (∃ a, t.arr = some a ∧ a.isExit) → u.st = .exited ∧ u.defs = [] ∧ t.SameRegs u ∧ u.dstep = t.dstep + 1 ∧
      u.xstep = t.xstep + 1) ∧
    (t.live → (∀ a, t.arr = some a → a.isExit = false) →
      u.dstep = t.dstep + 1 ∧ (t.arr.isSome → u.xstep = t.xstep + 1) ∧ (t.arr = none → u.xstep = t.xstep) ∧
      u.s = t.s ∧ u.pc = t.pc ∧ u.st = t.st ∧ u.fx = t.fx ∧
      (∀ k, (∀ e ∈ t.defs, ¬ names e k) → u.reg k = t.reg k) ∧
      (∀ a e b v w, t.defs = a ++ e :: b → e.dst = .regs v 1 → e.src = .vals [w] → (∀ q ∈ b, ¬ names q v) → u.reg v = w) ∧
      (∀ a e b v lo hi, t.defs = a ++ e :: b → e.dst = .regs v 2 → e.src = .vals [lo, hi] →
        (∀ q ∈ b, ¬ names q v ∧ ¬ names q (v + 1)) → u.reg v = lo ∧ u.reg (v + 1) = hi) ∧
      (∀ a e b v hi w, t.defs = a ++ e :: b → e.dst = .half v hi → e.src = .vals [w] →
        (∀ q ∈ a ++ b, ¬ names q v) →
        u.reg v = if hi then w <<< 16 ||| (t.reg v &&& 0xFFFF) else (t.reg v &&& 0xFFFF0000) ||| (w &&& 0xFFFF)) ∧
      (∀ a e b p w, t.defs = a ++ e :: b → e.dst = .pred p → p < 7 → e.src = .vals [w] →
        (∀ q ∈ b, q.dst ≠ .pred p) → u.pred p = decide (w ≠ 0)) ∧
      (∀ p, (∀ e ∈ t.defs, e.dst ≠ .pred p) → u.pred p = t.pred p))
end

