-- ==== Sys2Proof/Laws/Exec.lean ====
section
/-!
SUPPORT. Each arm of `exec` as an equation, so that no proof unfolds the whole match.
-/
namespace Sys2Proof.Machine

@[simp] theorem exec_nop {s : State} {f} : exec (.nop f) s = execNop f s := rfl
@[simp] theorem exec_bra {s : State} {f} : exec (.bra f) s = execBra f s := rfl
@[simp] theorem exec_brx {s : State} {f} : exec (.brx f) s = execBrx f s := rfl
@[simp] theorem exec_brt {s : State} {f} : exec (.brt f) s = execBrt f s := rfl
@[simp] theorem exec_call {s : State} {f} : exec (.call f) s = execCall f s := rfl
@[simp] theorem exec_callx {s : State} {f} : exec (.callx f) s = execCallx f s := rfl
@[simp] theorem exec_ret {s : State} {f} : exec (.ret f) s = execRet f s := rfl
@[simp] theorem exec_join {s : State} {f} : exec (.join f) s = execJoin f s := rfl
@[simp] theorem exec_step {s : State} {f} : exec (.step f) s = execStep f s := rfl
@[simp] theorem exec_waitv {s : State} {f} : exec (.waitv f) s = execWaitv f s := rfl
@[simp] theorem exec_exit {s : State} {f} : exec (.exit f) s = execExit f s := rfl
@[simp] theorem exec_trap {s : State} {f} : exec (.trap f) s = execTrap f s := rfl
@[simp] theorem exec_bkpt {s : State} {f} : exec (.bkpt f) s = execBkpt f s := rfl
@[simp] theorem exec_contv {s : State} {f} : exec (.contv f) s = execContv f s := rfl
@[simp] theorem exec_resume {s : State} {f} : exec (.resume f) s = execResume f s := rfl
@[simp] theorem exec_svc {s : State} {f} : exec (.svc f) s = execSvc f s := rfl
@[simp] theorem exec_add {s : State} {f} : exec (.add f) s = execAdd f s := rfl
@[simp] theorem exec_sub {s : State} {f} : exec (.sub f) s = execSub f s := rfl
@[simp] theorem exec_add3 {s : State} {f} : exec (.add3 f) s = execAdd3 f s := rfl
@[simp] theorem exec_mul {s : State} {f} : exec (.mul f) s = execMul f s := rfl
@[simp] theorem exec_mad {s : State} {f} : exec (.mad f) s = execMad f s := rfl
@[simp] theorem exec_min {s : State} {f} : exec (.min f) s = execMin f s := rfl
@[simp] theorem exec_max {s : State} {f} : exec (.max f) s = execMax f s := rfl
@[simp] theorem exec_abs {s : State} {f} : exec (.abs f) s = execAbs f s := rfl
@[simp] theorem exec_neg {s : State} {f} : exec (.neg f) s = execNeg f s := rfl
@[simp] theorem exec_addmin {s : State} {f} : exec (.addmin f) s = execAddmin f s := rfl
@[simp] theorem exec_and {s : State} {f} : exec (.and f) s = execAnd f s := rfl
@[simp] theorem exec_or {s : State} {f} : exec (.or f) s = execOr f s := rfl
@[simp] theorem exec_xor {s : State} {f} : exec (.xor f) s = execXor f s := rfl
@[simp] theorem exec_not {s : State} {f} : exec (.not f) s = execNot f s := rfl
@[simp] theorem exec_bitfn {s : State} {f} : exec (.bitfn f) s = execBitfn f s := rfl
@[simp] theorem exec_shl {s : State} {f} : exec (.shl f) s = execShl f s := rfl
@[simp] theorem exec_shr {s : State} {f} : exec (.shr f) s = execShr f s := rfl
@[simp] theorem exec_sra {s : State} {f} : exec (.sra f) s = execSra f s := rfl
@[simp] theorem exec_rot {s : State} {f} : exec (.rot f) s = execRot f s := rfl
@[simp] theorem exec_fsh {s : State} {f} : exec (.fsh f) s = execFsh f s := rfl
@[simp] theorem exec_bfx {s : State} {f} : exec (.bfx f) s = execBfx f s := rfl
@[simp] theorem exec_bfi {s : State} {f} : exec (.bfi f) s = execBfi f s := rfl
@[simp] theorem exec_clz {s : State} {f} : exec (.clz f) s = execClz f s := rfl
@[simp] theorem exec_popc {s : State} {f} : exec (.popc f) s = execPopc f s := rfl
@[simp] theorem exec_brev {s : State} {f} : exec (.brev f) s = execBrev f s := rfl
@[simp] theorem exec_setp {s : State} {f} : exec (.setp f) s = execSetp f s := rfl
@[simp] theorem exec_sel {s : State} {f} : exec (.sel f) s = execSel f s := rfl
@[simp] theorem exec_mov {s : State} {f} : exec (.mov f) s = execMov f s := rfl
@[simp] theorem exec_lea {s : State} {f} : exec (.lea f) s = execLea f s := rfl
@[simp] theorem exec_pset {s : State} {f} : exec (.pset f) s = execPset f s := rfl
@[simp] theorem exec_idiv {s : State} {f} : exec (.idiv f) s = execIdiv f s := rfl
@[simp] theorem exec_irem {s : State} {f} : exec (.irem f) s = execIrem f s := rfl
@[simp] theorem exec_fadd {s : State} {f} : exec (.fadd f) s = execFadd f s := rfl
@[simp] theorem exec_fsub {s : State} {f} : exec (.fsub f) s = execFsub f s := rfl
@[simp] theorem exec_fmul {s : State} {f} : exec (.fmul f) s = execFmul f s := rfl
@[simp] theorem exec_ffma {s : State} {f} : exec (.ffma f) s = execFfma f s := rfl
@[simp] theorem exec_fmin {s : State} {f} : exec (.fmin f) s = execFmin f s := rfl
@[simp] theorem exec_fmax {s : State} {f} : exec (.fmax f) s = execFmax f s := rfl
@[simp] theorem exec_fsgn {s : State} {f} : exec (.fsgn f) s = execFsgn f s := rfl
@[simp] theorem exec_fsetp {s : State} {f} : exec (.fsetp f) s = execFsetp f s := rfl
@[simp] theorem exec_faddmin {s : State} {f} : exec (.faddmin f) s = execFaddmin f s := rfl
@[simp] theorem exec_fdot2 {s : State} {f} : exec (.fdot2 f) s = execFdot2 f s := rfl
@[simp] theorem exec_fscale {s : State} {f} : exec (.fscale f) s = execFscale f s := rfl
@[simp] theorem exec_frnd {s : State} {f} : exec (.frnd f) s = execFrnd f s := rfl
@[simp] theorem exec_fclass {s : State} {f} : exec (.fclass f) s = execFclass f s := rfl
@[simp] theorem exec_fdiv {s : State} {f} : exec (.fdiv f) s = execFdiv f s := rfl
@[simp] theorem exec_fsqrt {s : State} {f} : exec (.fsqrt f) s = execFsqrt f s := rfl
@[simp] theorem exec_frcp {s : State} {f} : exec (.frcp f) s = execFrcp f s := rfl
@[simp] theorem exec_frsq {s : State} {f} : exec (.frsq f) s = execFrsq f s := rfl
@[simp] theorem exec_fex2 {s : State} {f} : exec (.fex2 f) s = execFex2 f s := rfl
@[simp] theorem exec_flg2 {s : State} {f} : exec (.flg2 f) s = execFlg2 f s := rfl
@[simp] theorem exec_ftrig {s : State} {f} : exec (.ftrig f) s = execFtrig f s := rfl
@[simp] theorem exec_ftanh {s : State} {f} : exec (.ftanh f) s = execFtanh f s := rfl
@[simp] theorem exec_cvt {s : State} {f} : exec (.cvt f) s = execCvt f s := rfl
@[simp] theorem exec_cvti {s : State} {f} : exec (.cvti f) s = execCvti f s := rfl
@[simp] theorem exec_pack {s : State} {f} : exec (.pack f) s = execPack f s := rfl
@[simp] theorem exec_unpack {s : State} {f} : exec (.unpack f) s = execUnpack f s := rfl
@[simp] theorem exec_ext {s : State} {f} : exec (.ext f) s = execExt f s := rfl
@[simp] theorem exec_lshf {s : State} {f} : exec (.lshf f) s = execLshf f s := rfl
@[simp] theorem exec_lred {s : State} {f} : exec (.lred f) s = execLred f s := rfl
@[simp] theorem exec_lscan {s : State} {f} : exec (.lscan f) s = execLscan f s := rfl
@[simp] theorem exec_lpoll {s : State} {f} : exec (.lpoll f) s = execLpoll f s := rfl
@[simp] theorem exec_lbcast {s : State} {f} : exec (.lbcast f) s = execLbcast f s := rfl
@[simp] theorem exec_lpeer {s : State} {f} : exec (.lpeer f) s = execLpeer f s := rfl
@[simp] theorem exec_lisect {s : State} {f} : exec (.lisect f) s = execLisect f s := rfl
@[simp] theorem exec_lcomp {s : State} {f} : exec (.lcomp f) s = execLcomp f s := rfl
@[simp] theorem exec_lrank {s : State} {f} : exec (.lrank f) s = execLrank f s := rfl
@[simp] theorem exec_lmask {s : State} {f} : exec (.lmask f) s = execLmask f s := rfl
@[simp] theorem exec_ld {s : State} {f} : exec (.ld f) s = execLd f s := rfl
@[simp] theorem exec_st {s : State} {f} : exec (.st f) s = execSt f s := rfl
@[simp] theorem exec_fwr {s : State} {f} : exec (.fwr f) s = execFwr f s := rfl
@[simp] theorem exec_cwr {s : State} {f} : exec (.cwr f) s = execCwr f s := rfl
@[simp] theorem exec_ldq {s : State} {f} : exec (.ldq f) s = execLdq f s := rfl
@[simp] theorem exec_stq {s : State} {f} : exec (.stq f) s = execStq f s := rfl
@[simp] theorem exec_ldk {s : State} {f} : exec (.ldk f) s = execLdk f s := rfl
@[simp] theorem exec_sgset {s : State} {f} : exec (.sgset f) s = execSgset f s := rfl
@[simp] theorem exec_sgget {s : State} {f} : exec (.sgget f) s = execSgget f s := rfl
@[simp] theorem exec_pref {s : State} {f} : exec (.pref f) s = execPref f s := rfl
@[simp] theorem exec_evict {s : State} {f} : exec (.evict f) s = execEvict f s := rfl
@[simp] theorem exec_satom {s : State} {f} : exec (.satom f) s = execSatom f s := rfl
@[simp] theorem exec_xlat {s : State} {f} : exec (.xlat f) s = execXlat f s := rfl
@[simp] theorem exec_cpy {s : State} {f} : exec (.cpy f) s = execCpy f s := rfl
@[simp] theorem exec_cpyt {s : State} {f} : exec (.cpyt f) s = execCpyt f s := rfl
@[simp] theorem exec_cpym {s : State} {f} : exec (.cpym f) s = execCpym f s := rfl
@[simp] theorem exec_cpyg {s : State} {f} : exec (.cpyg f) s = execCpyg f s := rfl
@[simp] theorem exec_lcsetArm {s : State} {f} : exec (.lcsetArm f) s = execLcsetArm f s := rfl
@[simp] theorem exec_lcsetBind {s : State} {f} : exec (.lcsetBind f) s = execLcsetBind f s := rfl
@[simp] theorem exec_lcsetUnbind {s : State} {f} : exec (.lcsetUnbind f) s = execLcsetUnbind f s := rfl
@[simp] theorem exec_lcget {s : State} {f} : exec (.lcget f) s = execLcget f s := rfl
@[simp] theorem exec_rbindBind {s : State} {f} : exec (.rbindBind f) s = execRbindBind f s := rfl
@[simp] theorem exec_rbindFree {s : State} {f} : exec (.rbindFree f) s = execRbindFree f s := rfl
@[simp] theorem exec_racq {s : State} {f} : exec (.racq f) s = execRacq f s := rfl
@[simp] theorem exec_rrel {s : State} {f} : exec (.rrel f) s = execRrel f s := rfl
@[simp] theorem exec_rput {s : State} {f} : exec (.rput f) s = execRput f s := rfl
@[simp] theorem exec_send {s : State} {f} : exec (.send f) s = execSend f s := rfl
@[simp] theorem exec_rhead {s : State} {f} : exec (.rhead f) s = execRhead f s := rfl
@[simp] theorem exec_talloc {s : State} {f} : exec (.talloc f) s = execTalloc f s := rfl
@[simp] theorem exec_tfree {s : State} {f} : exec (.tfree f) s = execTfree f s := rfl
@[simp] theorem exec_tgive {s : State} {f} : exec (.tgive f) s = execTgive f s := rfl
@[simp] theorem exec_ttake {s : State} {f} : exec (.ttake f) s = execTtake f s := rfl
@[simp] theorem exec_tld {s : State} {f} : exec (.tld f) s = execTld f s := rfl
@[simp] theorem exec_tst {s : State} {f} : exec (.tst f) s = execTst f s := rfl
@[simp] theorem exec_tget {s : State} {f} : exec (.tget f) s = execTget f s := rfl
@[simp] theorem exec_tset {s : State} {f} : exec (.tset f) s = execTset f s := rfl
@[simp] theorem exec_tqry {s : State} {f} : exec (.tqry f) s = execTqry f s := rfl
@[simp] theorem exec_wld {s : State} {f} : exec (.wld f) s = execWld f s := rfl
@[simp] theorem exec_mma {s : State} {f} : exec (.mma f) s = execMma f s := rfl
@[simp] theorem exec_mtaskq {s : State} {f} : exec (.mtaskq f) s = execMtaskq f s := rfl
@[simp] theorem exec_balloc {s : State} {f} : exec (.balloc f) s = execBalloc f s := rfl
@[simp] theorem exec_bfree {s : State} {f} : exec (.bfree f) s = execBfree f s := rfl
@[simp] theorem exec_binit {s : State} {f} : exec (.binit f) s = execBinit f s := rfl
@[simp] theorem exec_rslv {s : State} {f} : exec (.rslv f) s = execRslv f s := rfl
@[simp] theorem exec_bcmp {s : State} {f} : exec (.bcmp f) s = execBcmp f s := rfl
@[simp] theorem exec_bmov {s : State} {f} : exec (.bmov f) s = execBmov f s := rfl
@[simp] theorem exec_bsave {s : State} {f} : exec (.bsave f) s = execBsave f s := rfl
@[simp] theorem exec_brst {s : State} {f} : exec (.brst f) s = execBrst f s := rfl
@[simp] theorem exec_bscale {s : State} {f} : exec (.bscale f) s = execBscale f s := rfl
@[simp] theorem exec_tzf {s : State} {f} : exec (.tzf f) s = execTzf f s := rfl
@[simp] theorem exec_sopen {s : State} {f} : exec (.sopen f) s = execSopen f s := rfl
@[simp] theorem exec_sisect {s : State} {f} : exec (.sisect f) s = execSisect f s := rfl
@[simp] theorem exec_nzscan {s : State} {f} : exec (.nzscan f) s = execNzscan f s := rfl
@[simp] theorem exec_sgath {s : State} {f} : exec (.sgath f) s = execSgath f s := rfl
@[simp] theorem exec_smerge {s : State} {f} : exec (.smerge f) s = execSmerge f s := rfl
@[simp] theorem exec_scount {s : State} {f} : exec (.scount f) s = execScount f s := rfl
@[simp] theorem exec_sclose {s : State} {f} : exec (.sclose f) s = execSclose f s := rfl
@[simp] theorem exec_sstat {s : State} {f} : exec (.sstat f) s = execSstat f s := rfl
@[simp] theorem exec_xput {s : State} {f} : exec (.xput f) s = execXput f s := rfl
@[simp] theorem exec_xget {s : State} {f} : exec (.xget f) s = execXget f s := rfl
@[simp] theorem exec_xfwr {s : State} {f} : exec (.xfwr f) s = execXfwr f s := rfl
@[simp] theorem exec_xallg {s : State} {f} : exec (.xallg f) s = execXallg f s := rfl
@[simp] theorem exec_xred {s : State} {f} : exec (.xred f) s = execXred f s := rfl
@[simp] theorem exec_xbcst {s : State} {f} : exec (.xbcst f) s = execXbcst f s := rfl
@[simp] theorem exec_xqry {s : State} {f} : exec (.xqry f) s = execXqry f s := rfl
@[simp] theorem exec_digest {s : State} {f} : exec (.digest f) s = execDigest f s := rfl
@[simp] theorem exec_spawn {s : State} {f} : exec (.spawn f) s = execSpawn f s := rfl
@[simp] theorem exec_launch {s : State} {f} : exec (.launch f) s = execLaunch f s := rfl
@[simp] theorem exec_yield {s : State} {f} : exec (.yield f) s = execYield f s := rfl
@[simp] theorem exec_role {s : State} {f} : exec (.role f) s = execRole f s := rfl
@[simp] theorem exec_prio {s : State} {f} : exec (.prio f) s = execPrio f s := rfl
@[simp] theorem exec_tmset {s : State} {f} : exec (.tmset f) s = execTmset f s := rfl
@[simp] theorem exec_xacq {s : State} {f} : exec (.xacq f) s = execXacq f s := rfl
@[simp] theorem exec_xrel {s : State} {f} : exec (.xrel f) s = execXrel f s := rfl
@[simp] theorem exec_srget {s : State} {f} : exec (.srget f) s = execSrget f s := rfl
@[simp] theorem exec_srset {s : State} {f} : exec (.srset f) s = execSrset f s := rfl
@[simp] theorem exec_stepBoundaryComplete {s : State} {g} {d} : exec (.stepBoundaryComplete g d) s = execStepBoundaryComplete g d s := rfl
@[simp] theorem exec_deferredResultReturn {s : State} {g} {t} {k} : exec (.deferredResultReturn g t k) s = execDeferredResultReturn g t k s := rfl
@[simp] theorem exec_widerStepRelease {s : State} {g} : exec (.widerStepRelease g) s = execWiderStepRelease g s := rfl
@[simp] theorem exec_waitvPeriodicEvaluation {s : State} {g} {t} : exec (.waitvPeriodicEvaluation g t) s = execWaitvPeriodicEvaluation g t s := rfl
@[simp] theorem exec_racqPeriodicCheck {s : State} {g} {t} : exec (.racqPeriodicCheck g t) s = execRacqPeriodicCheck g t s := rfl
@[simp] theorem exec_ttakePeriodicCheck {s : State} {g} {t} : exec (.ttakePeriodicCheck g t) s = execTtakePeriodicCheck g t s := rfl
@[simp] theorem exec_laneSyncFault {s : State} {g} {ch} : exec (.laneSyncFault g ch) s = execLaneSyncFault g ch s := rfl
@[simp] theorem exec_xacqGrant {s : State} {core} : exec (.xacqGrant core) s = execXacqGrant core s := rfl
@[simp] theorem exec_tallocGrant {s : State} {quad} : exec (.tallocGrant quad) s = execTallocGrant quad s := rfl
@[simp] theorem exec_ballocGrant {s : State} {core} : exec (.ballocGrant core) s = execBallocGrant core s := rfl
@[simp] theorem exec_instructionCacheFill {s : State} {core} {g} {hdr} : exec (.instructionCacheFill core g hdr) s = execInstructionCacheFill core g hdr s := rfl
@[simp] theorem exec_laneTestComplete {s : State} {core} {lane} {array} : exec (.laneTestComplete core lane array) s = execLaneTestComplete core lane array s := rfl
@[simp] theorem exec_atomicopComplete {s : State} {g} {d} {err} : exec (.atomicopComplete g d err) s = execAtomicopComplete g d err s := rfl
@[simp] theorem exec_gafferRequest {s : State} {quad} : exec (.gafferRequest quad) s = execGafferRequest quad s := rfl
@[simp] theorem exec_gafferTimeout {s : State} {quad} : exec (.gafferTimeout quad) s = execGafferTimeout quad s := rfl
@[simp] theorem exec_prepareAcknowledge {s : State} {g} {d} {k} : exec (.prepareAcknowledge g d k) s = execPrepareAcknowledge g d k s := rfl
@[simp] theorem exec_faultBufferEntry {s : State} {core} : exec (.faultBufferEntry core) s = execFaultBufferEntry core s := rfl
@[simp] theorem exec_translationFillComplete {s : State} {core} {asid} {page} : exec (.translationFillComplete core asid page) s = execTranslationFillComplete core asid page s := rfl
@[simp] theorem exec_fillFailure {s : State} {core} {asid} {page} : exec (.fillFailure core asid page) s = execFillFailure core asid page s := rfl
@[simp] theorem exec_mappingChange {s : State} {asid} {page} {root} {at_} {entry} : exec (.mappingChange asid page root at_ entry) s = execMappingChange asid page root at_ entry s := rfl
@[simp] theorem exec_migrationStart {s : State} {asid} {page} : exec (.migrationStart asid page) s = execMigrationStart asid page s := rfl
@[simp] theorem exec_migrationComplete {s : State} {asid} {page} {entry} : exec (.migrationComplete asid page entry) s = execMigrationComplete asid page entry s := rfl
@[simp] theorem exec_pageAllocate {s : State} {frame} {size} : exec (.pageAllocate frame size) s = execPageAllocate frame size s := rfl
@[simp] theorem exec_zeroPendingClear {s : State} {line} : exec (.zeroPendingClear line) s = execZeroPendingClear line s := rfl
@[simp] theorem exec_hostWrite {s : State} {link} {off} {bytes} : exec (.hostWrite link off bytes) s = execHostWrite link off bytes s := rfl
@[simp] theorem exec_hostAtomicop {s : State} {link} {off} {op} {x} {y} : exec (.hostAtomicop link off op x y) s = execHostAtomicop link off op x y s := rfl
@[simp] theorem exec_queueTailWrite {s : State} {q} {tail} : exec (.queueTailWrite q tail) s = execQueueTailWrite q tail s := rfl
@[simp] theorem exec_queueOpenSet {s : State} {q} : exec (.queueOpenSet q) s = execQueueOpenSet q s := rfl
@[simp] theorem exec_queueOpenClear {s : State} {q} : exec (.queueOpenClear q) s = execQueueOpenClear q s := rfl
@[simp] theorem exec_queueConfigWrite {s : State} {q} {w} : exec (.queueConfigWrite q w) s = execQueueConfigWrite q w s := rfl
@[simp] theorem exec_wbaseWrite {s : State} {w} : exec (.wbaseWrite w) s = execWbaseWrite w s := rfl
@[simp] theorem exec_irqenWrite {s : State} {w} : exec (.irqenWrite w) s = execIrqenWrite w s := rfl
@[simp] theorem exec_registerWrite {s : State} {off} {w} : exec (.registerWrite off w) s = execRegisterWrite off w s := rfl
@[simp] theorem exec_mbAbortLaunch {s : State} {seq} {w0} {w1} : exec (.mbAbortLaunch seq w0 w1) s = execMbAbortLaunch seq w0 w1 s := rfl
@[simp] theorem exec_mbResumeGroup {s : State} {seq} {w0} : exec (.mbResumeGroup seq w0) s = execMbResumeGroup seq w0 s := rfl
@[simp] theorem exec_mbAbortGroup {s : State} {seq} {w0} : exec (.mbAbortGroup seq w0) s = execMbAbortGroup seq w0 s := rfl
@[simp] theorem exec_mbPreemptGroup {s : State} {seq} {w0} {w1} : exec (.mbPreemptGroup seq w0 w1) s = execMbPreemptGroup seq w0 w1 s := rfl
@[simp] theorem exec_mbEnlargeOverflow {s : State} {seq} {w0} {w1} : exec (.mbEnlargeOverflow seq w0 w1) s = execMbEnlargeOverflow seq w0 w1 s := rfl
@[simp] theorem exec_mbLoadFirmware {s : State} {seq} {w0} {w1} : exec (.mbLoadFirmware seq w0 w1) s = execMbLoadFirmware seq w0 w1 s := rfl
@[simp] theorem exec_mbApplyTest {s : State} {seq} {w0} {w1} : exec (.mbApplyTest seq w0 w1) s = execMbApplyTest seq w0 w1 s := rfl
@[simp] theorem exec_mbUnknownCommand {s : State} {seq} {cmd} : exec (.mbUnknownCommand seq cmd) s = execMbUnknownCommand seq cmd s := rfl
@[simp] theorem exec_recordTake {s : State} {q} : exec (.recordTake q) s = execRecordTake q s := rfl
@[simp] theorem exec_batchHandout {s : State} {l} : exec (.batchHandout l) s = execBatchHandout l s := rfl
@[simp] theorem exec_groupPlace {s : State} {core} : exec (.groupPlace core) s = execGroupPlace core s := rfl
@[simp] theorem exec_gangReserve {s : State} {l} : exec (.gangReserve l) s = execGangReserve l s := rfl
@[simp] theorem exec_coreReadyReply {s : State} {core} : exec (.coreReadyReply core) s = execCoreReadyReply core s := rfl
@[simp] theorem exec_gangConfirm {s : State} {l} : exec (.gangConfirm l) s = execGangConfirm l s := rfl
@[simp] theorem exec_gangReservationRelease {s : State} {l} : exec (.gangReservationRelease l) s = execGangReservationRelease l s := rfl
@[simp] theorem exec_gangReservationTimeout {s : State} {l} : exec (.gangReservationTimeout l) s = execGangReservationTimeout l s := rfl
@[simp] theorem exec_gangBackoffExpiry {s : State} {l} : exec (.gangBackoffExpiry l) s = execGangBackoffExpiry l s := rfl
@[simp] theorem exec_podGangReport {s : State} {podg} {r} : exec (.podGangReport podg r) s = execPodGangReport podg r s := rfl
@[simp] theorem exec_podGangTimeout {s : State} {podg} : exec (.podGangTimeout podg) s = execPodGangTimeout podg s := rfl
@[simp] theorem exec_podModuleUnreachable {s : State} {module} : exec (.podModuleUnreachable module) s = execPodModuleUnreachable module s := rfl
@[simp] theorem exec_launchRetire {s : State} {q} : exec (.launchRetire q) s = execLaunchRetire q s := rfl
@[simp] theorem exec_preemption {s : State} {die} : exec (.preemption die) s = execPreemption die s := rfl
@[simp] theorem exec_preemptionTimeout {s : State} {g} : exec (.preemptionTimeout g) s = execPreemptionTimeout g s := rfl
@[simp] theorem exec_eviction {s : State} {core} : exec (.eviction core) s = execEviction core s := rfl
@[simp] theorem exec_vtimeThreshold {s : State} {g} {t} : exec (.vtimeThreshold g t) s = execVtimeThreshold g t s := rfl
@[simp] theorem exec_lateDelivery {s : State} {g} : exec (.lateDelivery g) s = execLateDelivery g s := rfl
@[simp] theorem exec_packetAgeTick {s : State} {k} : exec (.packetAgeTick k) s = execPacketAgeTick k s := rfl
@[simp] theorem exec_copyRequestBegin {s : State} {id} : exec (.copyRequestBegin id) s = execCopyRequestBegin id s := rfl
@[simp] theorem exec_copyPieceComplete {s : State} {id} {k} : exec (.copyPieceComplete id k) s = execCopyPieceComplete id k s := rfl
@[simp] theorem exec_ringSlotAssign {s : State} {id} : exec (.ringSlotAssign id) s = execRingSlotAssign id s := rfl
@[simp] theorem exec_sendArrival {s : State} {id} : exec (.sendArrival id) s = execSendArrival id s := rfl
@[simp] theorem exec_multicastDelivery {s : State} {id} {quad} : exec (.multicastDelivery id quad) s = execMulticastDelivery id quad s := rfl
@[simp] theorem exec_streamOperationBegin {s : State} {id} : exec (.streamOperationBegin id) s = execStreamOperationBegin id s := rfl
@[simp] theorem exec_streamSlotClose {s : State} {id} : exec (.streamSlotClose id) s = execStreamSlotClose id s := rfl
@[simp] theorem exec_streamOperationEnd {s : State} {id} : exec (.streamOperationEnd id) s = execStreamOperationEnd id s := rfl
@[simp] theorem exec_taskQueueEnter {s : State} {quad} : exec (.taskQueueEnter quad) s = execTaskQueueEnter quad s := rfl
@[simp] theorem exec_mtaskqArrayRead {s : State} {id} : exec (.mtaskqArrayRead id) s = execMtaskqArrayRead id s := rfl
@[simp] theorem exec_matrixRecordStart {s : State} {core} : exec (.matrixRecordStart core) s = execMatrixRecordStart core s := rfl
@[simp] theorem exec_matrixRecordComplete {s : State} {core} : exec (.matrixRecordComplete core) s = execMatrixRecordComplete core s := rfl
@[simp] theorem exec_recordWaitTimeout {s : State} {core} : exec (.recordWaitTimeout core) s = execRecordWaitTimeout core s := rfl
@[simp] theorem exec_remoteSettle {s : State} {id} {err} {found} : exec (.remoteSettle id err found) s = execRemoteSettle id err found s := rfl
@[simp] theorem exec_peerAckTimeout {s : State} {id} : exec (.peerAckTimeout id) s = execPeerAckTimeout id s := rfl
@[simp] theorem exec_collectiveComplete {s : State} {id} {same} {contribs} : exec (.collectiveComplete id same contribs) s = execCollectiveComplete id same contribs s := rfl
@[simp] theorem exec_ualinkPortDown {s : State} {port} : exec (.ualinkPortDown port) s = execUalinkPortDown port s := rfl
@[simp] theorem exec_quadTestComplete {s : State} {pass} : exec (.quadTestComplete pass) s = execQuadTestComplete pass s := rfl
@[simp] theorem exec_powerOnReset {s : State} : exec (.powerOnReset) s = execPowerOnReset s := rfl
@[simp] theorem exec_bringUpStageComplete {s : State} {part} {pass} : exec (.bringUpStageComplete part pass) s = execBringUpStageComplete part pass s := rfl
@[simp] theorem exec_thermalTrip {s : State} : exec (.thermalTrip) s = execThermalTrip s := rfl
@[simp] theorem exec_powerCap {s : State} : exec (.powerCap) s = execPowerCap s := rfl
@[simp] theorem exec_thermalThrottle {s : State} : exec (.thermalThrottle) s = execThermalThrottle s := rfl
@[simp] theorem exec_powerRemoval {s : State} : exec (.powerRemoval) s = execPowerRemoval s := rfl
@[simp] theorem exec_peerTransactionArrival {s : State} {op} : exec (.peerTransactionArrival op) s = execPeerTransactionArrival op s := rfl
@[simp] theorem exec_uncorrectableError {s : State} {line} : exec (.uncorrectableError line) s = execUncorrectableError line s := rfl
@[simp] theorem exec_correctableError {s : State} : exec (.correctableError) s = execCorrectableError s := rfl

end Sys2Proof.Machine
end

