-- ==== Sys2Proof/Laws/Table.lean ====
section
/-!
SUPPORT. The laws of tables: what a change reads back as, at its key and at every other, and that each operation keeps
the canonical form.
-/
namespace Sys2Proof

variable {α : Type}

/-! ## Reading after a change -/

theorem Table.find?_erase (t : Table α) (k j : Nat) :
    (t.erase k).find? j = if j = k then none else t.find? j := by
  induction t with
  | nil => simp [Table.erase, Table.find?]
  | cons p t ih =>
    obtain ⟨i, v⟩ := p
    by_cases hi : i = k
    · subst hi
      by_cases hj : j = i
      · subst hj; simp [Table.erase, ih]
      · simp [Table.erase, Table.find?, ih, hj, Ne.symm hj]
    · by_cases hj : j = k
      · subst hj; simp [Table.erase, Table.find?, ih, hi]
      · simp [Table.erase, Table.find?, ih, hi, hj]

theorem Table.find?_insert_self (t : Table α) (k : Nat) (v : α) (h : t.find? k = none) :
    (Table.insert k v t).find? k = some v := by
  induction t with
  | nil => simp [Table.insert, Table.find?]
  | cons p t ih =>
    obtain ⟨i, w⟩ := p
    simp only [Table.find?] at h
    split at h
    · simp at h
    · rename_i hi
      simp only [Table.insert]
      split <;> simp [Table.find?, hi, ih h]

theorem Table.find?_insert_ne (t : Table α) (k j : Nat) (v : α) (h : j ≠ k) :
    (Table.insert k v t).find? j = t.find? j := by
  induction t with
  | nil => simp [Table.insert, Table.find?, h.symm]
  | cons p t ih =>
    obtain ⟨i, w⟩ := p
    simp only [Table.insert]
    split <;> simp [Table.find?, ih, h.symm]

@[simp] theorem Table.find?_put_self (t : Table α) (k : Nat) (v : α) : (t.put k v).find? k = some v :=
  Table.find?_insert_self _ _ _ (by simp [Table.find?_erase])

theorem Table.find?_put_ne (t : Table α) {k j : Nat} (v : α) (h : j ≠ k) : (t.put k v).find? j = t.find? j := by
  simp [Table.put, Table.find?_insert_ne _ _ _ _ h, Table.find?_erase, h]

theorem Table.find?_update_self (t : Table α) (k : Nat) (f : α → α) :
    (t.update k f).find? k = (t.find? k).map f := by
  unfold Table.update
  split <;> simp_all

theorem Table.find?_update_ne (t : Table α) {k j : Nat} (f : α → α) (h : j ≠ k) :
    (t.update k f).find? j = t.find? j := by
  unfold Table.update
  split
  · exact Table.find?_put_ne _ _ h
  · rfl

theorem Table.get_eq (d : α) (t : Table α) (k : Nat) : t.get d k = (t.find? k).getD d := by
  induction t with
  | nil => rfl
  | cons p t ih =>
    obtain ⟨i, v⟩ := p
    simp only [Table.get, Table.find?]
    split <;> simp [ih]

@[simp] theorem Table.get_set_self [DecidableEq α] (d : α) (t : Table α) (k : Nat) (v : α) :
    (t.set d k v).get d k = v := by
  unfold Table.set
  split <;> simp_all [Table.get_eq, Table.find?_erase]

theorem Table.get_set_ne [DecidableEq α] (d : α) (t : Table α) {k j : Nat} (v : α) (h : j ≠ k) :
    (t.set d k v).get d j = t.get d j := by
  unfold Table.set
  split <;> simp [Table.get_eq, Table.find?_erase, Table.find?_put_ne, h]

/-! ## The canonical form -/

theorem Table.above_erase {t : Table α} {k j : Nat} (h : Table.above k t = true) :
    Table.above k (t.erase j) = true := by
  induction t with
  | nil => rfl
  | cons p t ih =>
    obtain ⟨i, v⟩ := p
    simp only [Table.above, List.all_cons, Bool.and_eq_true] at h ih
    simp only [Table.erase]
    split
    · exact ih h.2
    · simp only [Table.above, List.all_cons, Bool.and_eq_true]
      exact ⟨h.1, ih h.2⟩

theorem Table.above_insert {t : Table α} {k j : Nat} {v : α} (h : Table.above k t = true) (hj : k < j) :
    Table.above k (Table.insert j v t) = true := by
  induction t with
  | nil => simp [Table.insert, Table.above, hj]
  | cons p t ih =>
    obtain ⟨i, w⟩ := p
    simp only [Table.above, List.all_cons, Bool.and_eq_true] at h ih
    simp only [Table.insert]
    split
    · simp only [Table.above, List.all_cons, Bool.and_eq_true]
      exact ⟨by simpa using hj, h⟩
    · simp only [Table.above, List.all_cons, Bool.and_eq_true]
      exact ⟨h.1, ih h.2⟩

theorem Table.above_mono {t : Table α} {k j : Nat} (h : Table.above j t = true) (hk : k < j) :
    Table.above k t = true := by
  simp only [Table.above, List.all_eq_true, decide_eq_true_eq] at *
  intro p hp
  exact Nat.lt_trans hk (h p hp)

theorem Table.sorted_erase {t : Table α} (k : Nat) (h : t.sorted = true) : (t.erase k).sorted = true := by
  induction t with
  | nil => rfl
  | cons p t ih =>
    obtain ⟨i, v⟩ := p
    simp only [Table.sorted, Bool.and_eq_true] at h
    simp only [Table.erase]
    split
    · exact ih h.2
    · simp only [Table.sorted, Bool.and_eq_true]
      exact ⟨Table.above_erase h.1, ih h.2⟩

theorem Table.sorted_insert {t : Table α} (k : Nat) (v : α) (h : t.sorted = true) (hk : t.find? k = none) :
    (Table.insert k v t).sorted = true := by
  induction t with
  | nil => rfl
  | cons p t ih =>
    obtain ⟨i, w⟩ := p
    simp only [Table.sorted, Bool.and_eq_true] at h
    simp only [Table.find?] at hk
    split at hk
    · simp at hk
    · rename_i hi
      simp only [Table.insert]
      split
      · rename_i hlt
        have ha := Table.above_mono h.1 hlt
        simp only [Table.above, List.all_eq_true, decide_eq_true_eq] at ha
        simp only [Table.sorted, Table.above, List.all_cons, Bool.and_eq_true, decide_eq_true_eq, List.all_eq_true]
        exact ⟨⟨hlt, ha⟩, by simpa [Table.above] using h.1, h.2⟩
      · rename_i hlt
        simp only [Table.sorted, Bool.and_eq_true]
        exact ⟨Table.above_insert h.1 (by omega), ih h.2 hk⟩

theorem Table.sorted_put {t : Table α} (k : Nat) (v : α) (h : t.sorted = true) : (t.put k v).sorted = true :=
  Table.sorted_insert _ _ (Table.sorted_erase _ h) (by simp [Table.find?_erase])

theorem Table.mem_erase {t : Table α} {k : Nat} {p : Nat × α} (h : p ∈ t.erase k) : p ∈ t := by
  induction t with
  | nil => exact h
  | cons q t ih =>
    obtain ⟨i, v⟩ := q
    simp only [Table.erase] at h
    split at h
    · exact List.mem_cons_of_mem _ (ih h)
    · rcases List.mem_cons.mp h with rfl | h
      · exact List.mem_cons_self
      · exact List.mem_cons_of_mem _ (ih h)

theorem Table.mem_insert {t : Table α} {k : Nat} {v : α} {p : Nat × α} (h : p ∈ Table.insert k v t) :
    p = (k, v) ∨ p ∈ t := by
  induction t with
  | nil => simpa [Table.insert] using h
  | cons q t ih =>
    obtain ⟨i, w⟩ := q
    simp only [Table.insert] at h
    split at h
    · simpa using h
    · rcases List.mem_cons.mp h with rfl | h
      · exact .inr List.mem_cons_self
      · exact (ih h).imp id (List.mem_cons_of_mem _)

/-- Every change of one value keeps the canonical form. -/
theorem Table.wf_set [DecidableEq α] {d : α} {t : Table α} (k : Nat) (v : α) (h : t.wf d = true) :
    (t.set d k v).wf d = true := by
  simp only [Table.wf, Bool.and_eq_true, List.all_eq_true, decide_eq_true_eq] at *
  unfold Table.set
  split
  · exact ⟨Table.sorted_erase _ h.1, fun p hp => h.2 p (Table.mem_erase hp)⟩
  · rename_i hv
    refine ⟨Table.sorted_put _ _ h.1, fun p hp => ?_⟩
    rcases Table.mem_insert hp with rfl | hp
    · exact hv
    · exact h.2 p (Table.mem_erase hp)

theorem Table.sorted_filter {t : Table α} (q : Nat × α → Bool) (h : t.sorted = true) :
    Table.sorted (t.filter q) = true := by
  induction t with
  | nil => rfl
  | cons p t ih =>
    obtain ⟨i, v⟩ := p
    simp only [Table.sorted, Bool.and_eq_true, Table.above, List.all_eq_true, decide_eq_true_eq] at h
    simp only [List.filter_cons]
    split
    · simp only [Table.sorted, Bool.and_eq_true, Table.above, List.all_eq_true, decide_eq_true_eq]
      exact ⟨fun p hp => h.1 p ((List.mem_filter.mp hp).1), ih h.2⟩
    · exact ih h.2

/-- A table with some of its entries taken away keeps the canonical form. -/
theorem Table.wf_filter [DecidableEq α] {d : α} {t : Table α} (q : Nat × α → Bool) (h : t.wf d = true) :
    Table.wf d (t.filter q) = true := by
  simp only [Table.wf, Bool.and_eq_true, List.all_eq_true, decide_eq_true_eq] at *
  exact ⟨Table.sorted_filter q h.1, fun p hp => h.2 p ((List.mem_filter.mp hp).1)⟩

theorem Table.above_mapKeys [DecidableEq α] (d : α) (f : Nat → α → α) (b : Nat) :
    ∀ (n : Nat) (ks : List Nat) (t : Table α), (∀ k ∈ ks, b < k) → Table.above b t = true →
      Table.above b (Table.mapKeys d f n ks t) = true := by
  intro n
  induction n with
  | zero => intro ks t _ h; simpa [Table.mapKeys] using h
  | succ n ih =>
    intro ks t hk h
    have add {k : Nat} {v : α} {u : Table α} (h1 : b < k) (h2 : Table.above b u = true) :
        Table.above b (Table.mapKeys.add d k v u) = true := by
      unfold Table.mapKeys.add
      split
      · exact h2
      · simpa [Table.above, h1] using h2
    match ks, t with
    | [], t => simpa [Table.mapKeys] using h
    | k :: ks, [] =>
      exact add (hk k List.mem_cons_self) (ih ks [] (fun x hx => hk x (List.mem_cons_of_mem _ hx)) rfl)
    | k :: ks, (j, v) :: t =>
      have h1 : b < j := by simp [Table.above] at h; exact h.1
      have h2 : Table.above b t = true := by simp only [Table.above, List.all_cons, Bool.and_eq_true] at h; exact h.2
      have hks := fun x hx => hk x (List.mem_cons_of_mem _ hx)
      simp only [Table.mapKeys]
      split
      · have := ih (k :: ks) t hk h2
        simpa [Table.above, h1] using this
      · split
        · exact add (hk k List.mem_cons_self) (ih ks t hks h2)
        · exact add (hk k List.mem_cons_self) (ih ks _ hks h)

/-- A change of the values at rising keys keeps the canonical form. -/
theorem Table.wf_mapKeys [DecidableEq α] (d : α) (f : Nat → α → α) :
    ∀ (n : Nat) (ks : List Nat) (t : Table α), ks.Pairwise (· < ·) → t.wf d = true →
      (Table.mapKeys d f n ks t).wf d = true := by
  have add {k : Nat} {v : α} {u : Table α} (h1 : Table.above k u = true) (h2 : u.wf d = true) :
      (Table.mapKeys.add d k v u).wf d = true := by
    unfold Table.mapKeys.add
    split
    · exact h2
    · rename_i hv
      simp only [Table.wf, Bool.and_eq_true, List.all_eq_true, decide_eq_true_eq] at h2
      simp only [Table.wf, Table.sorted, List.all_cons, Bool.and_eq_true, List.all_eq_true, decide_eq_true_eq]
      exact ⟨⟨h1, h2.1⟩, hv, h2.2⟩
  intro n
  induction n with
  | zero => intro ks t _ h; simpa [Table.mapKeys] using h
  | succ n ih =>
    intro ks t hk h
    match ks, t with
    | [], t => simpa [Table.mapKeys] using h
    | k :: ks, [] =>
      have hk' := List.pairwise_cons.mp hk
      exact add (Table.above_mapKeys d f k n ks [] hk'.1 rfl) (ih ks [] hk'.2 rfl)
    | k :: ks, (j, v) :: t =>
      have hk' := List.pairwise_cons.mp hk
      have hw : (Table.above j t = true ∧ Table.sorted t = true) ∧ ¬v = d ∧ ∀ p ∈ t, ¬p.2 = d := by
        simpa [Table.wf, Table.sorted] using h
      have ht : Table.wf d t = true := by simpa [Table.wf] using ⟨hw.1.2, fun a b hp => hw.2.2 (a, b) hp⟩
      simp only [Table.mapKeys]
      split
      · rename_i hlt
        have h1 := Table.above_mapKeys d f j n (k :: ks) t
          (by
            intro x hx
            rcases List.mem_cons.mp hx with rfl | hx
            · exact hlt
            · exact Nat.lt_trans hlt (hk'.1 x hx)) hw.1.1
        have h2 := ih (k :: ks) t hk ht
        simp only [Table.wf, Bool.and_eq_true, List.all_eq_true, decide_eq_true_eq] at h2
        simp only [Table.wf, Table.sorted, List.all_cons, Bool.and_eq_true, List.all_eq_true, decide_eq_true_eq]
        exact ⟨⟨h1, h2.1⟩, hw.2.1, h2.2⟩
      · split
        · rename_i hj
          subst hj
          exact add (Table.above_mapKeys d f _ n ks t hk'.1 hw.1.1) (ih ks t hk'.2 ht)
        · have hlt : k < j := by omega
          refine add (Table.above_mapKeys d f k n ks _ hk'.1 ?_) (ih ks _ hk'.2 h)
          have := Table.above_mono hw.1.1 hlt
          simpa [Table.above, hlt] using this

end Sys2Proof
end

