-- ==== Sys2Proof/Laws/State.lean ====
section
/-!
SUPPORT. The state after each update, field by field: what an update leaves alone, and what it changes.
-/
namespace Sys2Proof.Machine

/-! ## What an update leaves alone -/

@[simp] theorem State.setCore_clk (s : State) (c : Nat) (k : Core) : (s.setCore c k).clk = s.clk := rfl
@[simp] theorem State.setCore_mem (s : State) (c : Nat) (k : Core) : (s.setCore c k).mem = s.mem := rfl
@[simp] theorem State.setCore_poison (s : State) (c : Nat) (k : Core) : (s.setCore c k).poison = s.poison := rfl
@[simp] theorem State.setCore_zeroPend (s : State) (c : Nat) (k : Core) : (s.setCore c k).zeroPend = s.zeroPend := rfl
@[simp] theorem State.setCore_raced (s : State) (c : Nat) (k : Core) : (s.setCore c k).raced = s.raced := rfl
@[simp] theorem State.setCore_free (s : State) (c : Nat) (k : Core) : (s.setCore c k).free = s.free := rfl
@[simp] theorem State.setCore_fresh (s : State) (c : Nat) (k : Core) : (s.setCore c k).fresh = s.fresh := rfl
@[simp] theorem State.setCore_agenda (s : State) (c : Nat) (k : Core) : (s.setCore c k).agenda = s.agenda := rfl
@[simp] theorem State.setCore_issue (s : State) (c : Nat) (k : Core) : (s.setCore c k).issue = s.issue := rfl
@[simp] theorem State.setCore_ready (s : State) (c : Nat) (k : Core) : (s.setCore c k).ready = s.ready := rfl
@[simp] theorem State.setCore_fw (s : State) (c : Nat) (k : Core) : (s.setCore c k).fw = s.fw := rfl
@[simp] theorem State.setCore_queues (s : State) (c : Nat) (k : Core) : (s.setCore c k).queues = s.queues := rfl
@[simp] theorem State.setCore_launches (s : State) (c : Nat) (k : Core) : (s.setCore c k).launches = s.launches := rfl
@[simp] theorem State.setCore_groups (s : State) (c : Nat) (k : Core) : (s.setCore c k).groups = s.groups := rfl
@[simp] theorem State.setCore_quads (s : State) (c : Nat) (k : Core) : (s.setCore c k).quads = s.quads := rfl
@[simp] theorem State.setCore_dieQ (s : State) (c : Nat) (k : Core) : (s.setCore c k).dieQ = s.dieQ := rfl
@[simp] theorem State.setCore_spill (s : State) (c : Nat) (k : Core) : (s.setCore c k).spill = s.spill := rfl
@[simp] theorem State.setCore_savedQ (s : State) (c : Nat) (k : Core) : (s.setCore c k).savedQ = s.savedQ := rfl
@[simp] theorem State.setCore_ticket (s : State) (c : Nat) (k : Core) : (s.setCore c k).ticket = s.ticket := rfl
@[simp] theorem State.setCore_lastQ (s : State) (c : Nat) (k : Core) : (s.setCore c k).lastQ = s.lastQ := rfl
@[simp] theorem State.setCore_copies (s : State) (c : Nat) (k : Core) : (s.setCore c k).copies = s.copies := rfl
@[simp] theorem State.setCore_sops (s : State) (c : Nat) (k : Core) : (s.setCore c k).sops = s.sops := rfl
@[simp] theorem State.setCore_tiles (s : State) (c : Nat) (k : Core) : (s.setCore c k).tiles = s.tiles := rfl
@[simp] theorem State.setCore_basins (s : State) (c : Nat) (k : Core) : (s.setCore c k).basins = s.basins := rfl
@[simp] theorem State.setCore_ballocs (s : State) (c : Nat) (k : Core) : (s.setCore c k).ballocs = s.ballocs := rfl
@[simp] theorem State.setCore_recs (s : State) (c : Nat) (k : Core) : (s.setCore c k).recs = s.recs := rfl
@[simp] theorem State.setCore_taskQ (s : State) (c : Nat) (k : Core) : (s.setCore c k).taskQ = s.taskQ := rfl
@[simp] theorem State.setCore_taskWait (s : State) (c : Nat) (k : Core) : (s.setCore c k).taskWait = s.taskWait := rfl
@[simp] theorem State.setCore_arrays (s : State) (c : Nat) (k : Core) : (s.setCore c k).arrays = s.arrays := rfl
@[simp] theorem State.setCore_images (s : State) (c : Nat) (k : Core) : (s.setCore c k).images = s.images := rfl
@[simp] theorem State.setCore_remotes (s : State) (c : Nat) (k : Core) : (s.setCore c k).remotes = s.remotes := rfl
@[simp] theorem State.setCore_colls (s : State) (c : Nat) (k : Core) : (s.setCore c k).colls = s.colls := rfl
@[simp] theorem State.setCore_misses (s : State) (c : Nat) (k : Core) : (s.setCore c k).misses = s.misses := rfl
@[simp] theorem State.setCore_stale (s : State) (c : Nat) (k : Core) : (s.setCore c k).stale = s.stale := rfl
@[simp] theorem State.setCore_packets (s : State) (c : Nat) (k : Core) : (s.setCore c k).packets = s.packets := rfl

@[simp] theorem State.modCore_clk (s : State) (c : Nat) (f : Core → Core) : (s.modCore c f).clk = s.clk := rfl
@[simp] theorem State.modCore_mem (s : State) (c : Nat) (f : Core → Core) : (s.modCore c f).mem = s.mem := rfl
@[simp] theorem State.modCore_poison (s : State) (c : Nat) (f : Core → Core) : (s.modCore c f).poison = s.poison := rfl
@[simp] theorem State.modCore_zeroPend (s : State) (c : Nat) (f : Core → Core) : (s.modCore c f).zeroPend = s.zeroPend := rfl
@[simp] theorem State.modCore_raced (s : State) (c : Nat) (f : Core → Core) : (s.modCore c f).raced = s.raced := rfl
@[simp] theorem State.modCore_free (s : State) (c : Nat) (f : Core → Core) : (s.modCore c f).free = s.free := rfl
@[simp] theorem State.modCore_fresh (s : State) (c : Nat) (f : Core → Core) : (s.modCore c f).fresh = s.fresh := rfl
@[simp] theorem State.modCore_agenda (s : State) (c : Nat) (f : Core → Core) : (s.modCore c f).agenda = s.agenda := rfl
@[simp] theorem State.modCore_issue (s : State) (c : Nat) (f : Core → Core) : (s.modCore c f).issue = s.issue := rfl
@[simp] theorem State.modCore_ready (s : State) (c : Nat) (f : Core → Core) : (s.modCore c f).ready = s.ready := rfl
@[simp] theorem State.modCore_fw (s : State) (c : Nat) (f : Core → Core) : (s.modCore c f).fw = s.fw := rfl
@[simp] theorem State.modCore_queues (s : State) (c : Nat) (f : Core → Core) : (s.modCore c f).queues = s.queues := rfl
@[simp] theorem State.modCore_launches (s : State) (c : Nat) (f : Core → Core) : (s.modCore c f).launches = s.launches := rfl
@[simp] theorem State.modCore_groups (s : State) (c : Nat) (f : Core → Core) : (s.modCore c f).groups = s.groups := rfl
@[simp] theorem State.modCore_quads (s : State) (c : Nat) (f : Core → Core) : (s.modCore c f).quads = s.quads := rfl
@[simp] theorem State.modCore_dieQ (s : State) (c : Nat) (f : Core → Core) : (s.modCore c f).dieQ = s.dieQ := rfl
@[simp] theorem State.modCore_spill (s : State) (c : Nat) (f : Core → Core) : (s.modCore c f).spill = s.spill := rfl
@[simp] theorem State.modCore_savedQ (s : State) (c : Nat) (f : Core → Core) : (s.modCore c f).savedQ = s.savedQ := rfl
@[simp] theorem State.modCore_ticket (s : State) (c : Nat) (f : Core → Core) : (s.modCore c f).ticket = s.ticket := rfl
@[simp] theorem State.modCore_lastQ (s : State) (c : Nat) (f : Core → Core) : (s.modCore c f).lastQ = s.lastQ := rfl
@[simp] theorem State.modCore_copies (s : State) (c : Nat) (f : Core → Core) : (s.modCore c f).copies = s.copies := rfl
@[simp] theorem State.modCore_sops (s : State) (c : Nat) (f : Core → Core) : (s.modCore c f).sops = s.sops := rfl
@[simp] theorem State.modCore_tiles (s : State) (c : Nat) (f : Core → Core) : (s.modCore c f).tiles = s.tiles := rfl
@[simp] theorem State.modCore_basins (s : State) (c : Nat) (f : Core → Core) : (s.modCore c f).basins = s.basins := rfl
@[simp] theorem State.modCore_ballocs (s : State) (c : Nat) (f : Core → Core) : (s.modCore c f).ballocs = s.ballocs := rfl
@[simp] theorem State.modCore_recs (s : State) (c : Nat) (f : Core → Core) : (s.modCore c f).recs = s.recs := rfl
@[simp] theorem State.modCore_taskQ (s : State) (c : Nat) (f : Core → Core) : (s.modCore c f).taskQ = s.taskQ := rfl
@[simp] theorem State.modCore_taskWait (s : State) (c : Nat) (f : Core → Core) : (s.modCore c f).taskWait = s.taskWait := rfl
@[simp] theorem State.modCore_arrays (s : State) (c : Nat) (f : Core → Core) : (s.modCore c f).arrays = s.arrays := rfl
@[simp] theorem State.modCore_images (s : State) (c : Nat) (f : Core → Core) : (s.modCore c f).images = s.images := rfl
@[simp] theorem State.modCore_remotes (s : State) (c : Nat) (f : Core → Core) : (s.modCore c f).remotes = s.remotes := rfl
@[simp] theorem State.modCore_colls (s : State) (c : Nat) (f : Core → Core) : (s.modCore c f).colls = s.colls := rfl
@[simp] theorem State.modCore_misses (s : State) (c : Nat) (f : Core → Core) : (s.modCore c f).misses = s.misses := rfl
@[simp] theorem State.modCore_stale (s : State) (c : Nat) (f : Core → Core) : (s.modCore c f).stale = s.stale := rfl
@[simp] theorem State.modCore_packets (s : State) (c : Nat) (f : Core → Core) : (s.modCore c f).packets = s.packets := rfl

@[simp] theorem State.modQuad_clk (s : State) (q : Nat) (f : Quad → Quad) : (s.modQuad q f).clk = s.clk := rfl
@[simp] theorem State.modQuad_mem (s : State) (q : Nat) (f : Quad → Quad) : (s.modQuad q f).mem = s.mem := rfl
@[simp] theorem State.modQuad_poison (s : State) (q : Nat) (f : Quad → Quad) : (s.modQuad q f).poison = s.poison := rfl
@[simp] theorem State.modQuad_zeroPend (s : State) (q : Nat) (f : Quad → Quad) : (s.modQuad q f).zeroPend = s.zeroPend := rfl
@[simp] theorem State.modQuad_raced (s : State) (q : Nat) (f : Quad → Quad) : (s.modQuad q f).raced = s.raced := rfl
@[simp] theorem State.modQuad_free (s : State) (q : Nat) (f : Quad → Quad) : (s.modQuad q f).free = s.free := rfl
@[simp] theorem State.modQuad_fresh (s : State) (q : Nat) (f : Quad → Quad) : (s.modQuad q f).fresh = s.fresh := rfl
@[simp] theorem State.modQuad_agenda (s : State) (q : Nat) (f : Quad → Quad) : (s.modQuad q f).agenda = s.agenda := rfl
@[simp] theorem State.modQuad_issue (s : State) (q : Nat) (f : Quad → Quad) : (s.modQuad q f).issue = s.issue := rfl
@[simp] theorem State.modQuad_ready (s : State) (q : Nat) (f : Quad → Quad) : (s.modQuad q f).ready = s.ready := rfl
@[simp] theorem State.modQuad_fw (s : State) (q : Nat) (f : Quad → Quad) : (s.modQuad q f).fw = s.fw := rfl
@[simp] theorem State.modQuad_queues (s : State) (q : Nat) (f : Quad → Quad) : (s.modQuad q f).queues = s.queues := rfl
@[simp] theorem State.modQuad_launches (s : State) (q : Nat) (f : Quad → Quad) : (s.modQuad q f).launches = s.launches := rfl
@[simp] theorem State.modQuad_groups (s : State) (q : Nat) (f : Quad → Quad) : (s.modQuad q f).groups = s.groups := rfl
@[simp] theorem State.modQuad_cores (s : State) (q : Nat) (f : Quad → Quad) : (s.modQuad q f).cores = s.cores := rfl
@[simp] theorem State.modQuad_dieQ (s : State) (q : Nat) (f : Quad → Quad) : (s.modQuad q f).dieQ = s.dieQ := rfl
@[simp] theorem State.modQuad_spill (s : State) (q : Nat) (f : Quad → Quad) : (s.modQuad q f).spill = s.spill := rfl
@[simp] theorem State.modQuad_savedQ (s : State) (q : Nat) (f : Quad → Quad) : (s.modQuad q f).savedQ = s.savedQ := rfl
@[simp] theorem State.modQuad_ticket (s : State) (q : Nat) (f : Quad → Quad) : (s.modQuad q f).ticket = s.ticket := rfl
@[simp] theorem State.modQuad_lastQ (s : State) (q : Nat) (f : Quad → Quad) : (s.modQuad q f).lastQ = s.lastQ := rfl
@[simp] theorem State.modQuad_copies (s : State) (q : Nat) (f : Quad → Quad) : (s.modQuad q f).copies = s.copies := rfl
@[simp] theorem State.modQuad_sops (s : State) (q : Nat) (f : Quad → Quad) : (s.modQuad q f).sops = s.sops := rfl
@[simp] theorem State.modQuad_tiles (s : State) (q : Nat) (f : Quad → Quad) : (s.modQuad q f).tiles = s.tiles := rfl
@[simp] theorem State.modQuad_basins (s : State) (q : Nat) (f : Quad → Quad) : (s.modQuad q f).basins = s.basins := rfl
@[simp] theorem State.modQuad_ballocs (s : State) (q : Nat) (f : Quad → Quad) : (s.modQuad q f).ballocs = s.ballocs := rfl
@[simp] theorem State.modQuad_recs (s : State) (q : Nat) (f : Quad → Quad) : (s.modQuad q f).recs = s.recs := rfl
@[simp] theorem State.modQuad_taskQ (s : State) (q : Nat) (f : Quad → Quad) : (s.modQuad q f).taskQ = s.taskQ := rfl
@[simp] theorem State.modQuad_taskWait (s : State) (q : Nat) (f : Quad → Quad) : (s.modQuad q f).taskWait = s.taskWait := rfl
@[simp] theorem State.modQuad_arrays (s : State) (q : Nat) (f : Quad → Quad) : (s.modQuad q f).arrays = s.arrays := rfl
@[simp] theorem State.modQuad_images (s : State) (q : Nat) (f : Quad → Quad) : (s.modQuad q f).images = s.images := rfl
@[simp] theorem State.modQuad_remotes (s : State) (q : Nat) (f : Quad → Quad) : (s.modQuad q f).remotes = s.remotes := rfl
@[simp] theorem State.modQuad_colls (s : State) (q : Nat) (f : Quad → Quad) : (s.modQuad q f).colls = s.colls := rfl
@[simp] theorem State.modQuad_misses (s : State) (q : Nat) (f : Quad → Quad) : (s.modQuad q f).misses = s.misses := rfl
@[simp] theorem State.modQuad_stale (s : State) (q : Nat) (f : Quad → Quad) : (s.modQuad q f).stale = s.stale := rfl
@[simp] theorem State.modQuad_packets (s : State) (q : Nat) (f : Quad → Quad) : (s.modQuad q f).packets = s.packets := rfl

@[simp] theorem State.modGroup_clk (s : State) (g : Nat) (f : Group → Group) : (s.modGroup g f).clk = s.clk := rfl
@[simp] theorem State.modGroup_mem (s : State) (g : Nat) (f : Group → Group) : (s.modGroup g f).mem = s.mem := rfl
@[simp] theorem State.modGroup_poison (s : State) (g : Nat) (f : Group → Group) : (s.modGroup g f).poison = s.poison := rfl
@[simp] theorem State.modGroup_zeroPend (s : State) (g : Nat) (f : Group → Group) : (s.modGroup g f).zeroPend = s.zeroPend := rfl
@[simp] theorem State.modGroup_raced (s : State) (g : Nat) (f : Group → Group) : (s.modGroup g f).raced = s.raced := rfl
@[simp] theorem State.modGroup_free (s : State) (g : Nat) (f : Group → Group) : (s.modGroup g f).free = s.free := rfl
@[simp] theorem State.modGroup_fresh (s : State) (g : Nat) (f : Group → Group) : (s.modGroup g f).fresh = s.fresh := rfl
@[simp] theorem State.modGroup_agenda (s : State) (g : Nat) (f : Group → Group) : (s.modGroup g f).agenda = s.agenda := rfl
@[simp] theorem State.modGroup_issue (s : State) (g : Nat) (f : Group → Group) : (s.modGroup g f).issue = s.issue := rfl
@[simp] theorem State.modGroup_ready (s : State) (g : Nat) (f : Group → Group) : (s.modGroup g f).ready = s.ready := rfl
@[simp] theorem State.modGroup_fw (s : State) (g : Nat) (f : Group → Group) : (s.modGroup g f).fw = s.fw := rfl
@[simp] theorem State.modGroup_queues (s : State) (g : Nat) (f : Group → Group) : (s.modGroup g f).queues = s.queues := rfl
@[simp] theorem State.modGroup_launches (s : State) (g : Nat) (f : Group → Group) : (s.modGroup g f).launches = s.launches := rfl
@[simp] theorem State.modGroup_cores (s : State) (g : Nat) (f : Group → Group) : (s.modGroup g f).cores = s.cores := rfl
@[simp] theorem State.modGroup_quads (s : State) (g : Nat) (f : Group → Group) : (s.modGroup g f).quads = s.quads := rfl
@[simp] theorem State.modGroup_dieQ (s : State) (g : Nat) (f : Group → Group) : (s.modGroup g f).dieQ = s.dieQ := rfl
@[simp] theorem State.modGroup_spill (s : State) (g : Nat) (f : Group → Group) : (s.modGroup g f).spill = s.spill := rfl
@[simp] theorem State.modGroup_savedQ (s : State) (g : Nat) (f : Group → Group) : (s.modGroup g f).savedQ = s.savedQ := rfl
@[simp] theorem State.modGroup_ticket (s : State) (g : Nat) (f : Group → Group) : (s.modGroup g f).ticket = s.ticket := rfl
@[simp] theorem State.modGroup_lastQ (s : State) (g : Nat) (f : Group → Group) : (s.modGroup g f).lastQ = s.lastQ := rfl
@[simp] theorem State.modGroup_copies (s : State) (g : Nat) (f : Group → Group) : (s.modGroup g f).copies = s.copies := rfl
@[simp] theorem State.modGroup_sops (s : State) (g : Nat) (f : Group → Group) : (s.modGroup g f).sops = s.sops := rfl
@[simp] theorem State.modGroup_tiles (s : State) (g : Nat) (f : Group → Group) : (s.modGroup g f).tiles = s.tiles := rfl
@[simp] theorem State.modGroup_basins (s : State) (g : Nat) (f : Group → Group) : (s.modGroup g f).basins = s.basins := rfl
@[simp] theorem State.modGroup_ballocs (s : State) (g : Nat) (f : Group → Group) : (s.modGroup g f).ballocs = s.ballocs := rfl
@[simp] theorem State.modGroup_recs (s : State) (g : Nat) (f : Group → Group) : (s.modGroup g f).recs = s.recs := rfl
@[simp] theorem State.modGroup_taskQ (s : State) (g : Nat) (f : Group → Group) : (s.modGroup g f).taskQ = s.taskQ := rfl
@[simp] theorem State.modGroup_taskWait (s : State) (g : Nat) (f : Group → Group) : (s.modGroup g f).taskWait = s.taskWait := rfl
@[simp] theorem State.modGroup_arrays (s : State) (g : Nat) (f : Group → Group) : (s.modGroup g f).arrays = s.arrays := rfl
@[simp] theorem State.modGroup_images (s : State) (g : Nat) (f : Group → Group) : (s.modGroup g f).images = s.images := rfl
@[simp] theorem State.modGroup_remotes (s : State) (g : Nat) (f : Group → Group) : (s.modGroup g f).remotes = s.remotes := rfl
@[simp] theorem State.modGroup_colls (s : State) (g : Nat) (f : Group → Group) : (s.modGroup g f).colls = s.colls := rfl
@[simp] theorem State.modGroup_misses (s : State) (g : Nat) (f : Group → Group) : (s.modGroup g f).misses = s.misses := rfl
@[simp] theorem State.modGroup_stale (s : State) (g : Nat) (f : Group → Group) : (s.modGroup g f).stale = s.stale := rfl
@[simp] theorem State.modGroup_packets (s : State) (g : Nat) (f : Group → Group) : (s.modGroup g f).packets = s.packets := rfl

@[simp] theorem State.modThread_clk (s : State) (r : TRef) (f : Thread → Thread) : (s.modThread r f).clk = s.clk := rfl
@[simp] theorem State.modThread_mem (s : State) (r : TRef) (f : Thread → Thread) : (s.modThread r f).mem = s.mem := rfl
@[simp] theorem State.modThread_poison (s : State) (r : TRef) (f : Thread → Thread) : (s.modThread r f).poison = s.poison := rfl
@[simp] theorem State.modThread_zeroPend (s : State) (r : TRef) (f : Thread → Thread) : (s.modThread r f).zeroPend = s.zeroPend := rfl
@[simp] theorem State.modThread_raced (s : State) (r : TRef) (f : Thread → Thread) : (s.modThread r f).raced = s.raced := rfl
@[simp] theorem State.modThread_free (s : State) (r : TRef) (f : Thread → Thread) : (s.modThread r f).free = s.free := rfl
@[simp] theorem State.modThread_fresh (s : State) (r : TRef) (f : Thread → Thread) : (s.modThread r f).fresh = s.fresh := rfl
@[simp] theorem State.modThread_agenda (s : State) (r : TRef) (f : Thread → Thread) : (s.modThread r f).agenda = s.agenda := rfl
@[simp] theorem State.modThread_issue (s : State) (r : TRef) (f : Thread → Thread) : (s.modThread r f).issue = s.issue := rfl
@[simp] theorem State.modThread_ready (s : State) (r : TRef) (f : Thread → Thread) : (s.modThread r f).ready = s.ready := rfl
@[simp] theorem State.modThread_fw (s : State) (r : TRef) (f : Thread → Thread) : (s.modThread r f).fw = s.fw := rfl
@[simp] theorem State.modThread_queues (s : State) (r : TRef) (f : Thread → Thread) : (s.modThread r f).queues = s.queues := rfl
@[simp] theorem State.modThread_launches (s : State) (r : TRef) (f : Thread → Thread) : (s.modThread r f).launches = s.launches := rfl
@[simp] theorem State.modThread_cores (s : State) (r : TRef) (f : Thread → Thread) : (s.modThread r f).cores = s.cores := rfl
@[simp] theorem State.modThread_quads (s : State) (r : TRef) (f : Thread → Thread) : (s.modThread r f).quads = s.quads := rfl
@[simp] theorem State.modThread_dieQ (s : State) (r : TRef) (f : Thread → Thread) : (s.modThread r f).dieQ = s.dieQ := rfl
@[simp] theorem State.modThread_spill (s : State) (r : TRef) (f : Thread → Thread) : (s.modThread r f).spill = s.spill := rfl
@[simp] theorem State.modThread_savedQ (s : State) (r : TRef) (f : Thread → Thread) : (s.modThread r f).savedQ = s.savedQ := rfl
@[simp] theorem State.modThread_ticket (s : State) (r : TRef) (f : Thread → Thread) : (s.modThread r f).ticket = s.ticket := rfl
@[simp] theorem State.modThread_lastQ (s : State) (r : TRef) (f : Thread → Thread) : (s.modThread r f).lastQ = s.lastQ := rfl
@[simp] theorem State.modThread_copies (s : State) (r : TRef) (f : Thread → Thread) : (s.modThread r f).copies = s.copies := rfl
@[simp] theorem State.modThread_sops (s : State) (r : TRef) (f : Thread → Thread) : (s.modThread r f).sops = s.sops := rfl
@[simp] theorem State.modThread_tiles (s : State) (r : TRef) (f : Thread → Thread) : (s.modThread r f).tiles = s.tiles := rfl
@[simp] theorem State.modThread_basins (s : State) (r : TRef) (f : Thread → Thread) : (s.modThread r f).basins = s.basins := rfl
@[simp] theorem State.modThread_ballocs (s : State) (r : TRef) (f : Thread → Thread) : (s.modThread r f).ballocs = s.ballocs := rfl
@[simp] theorem State.modThread_recs (s : State) (r : TRef) (f : Thread → Thread) : (s.modThread r f).recs = s.recs := rfl
@[simp] theorem State.modThread_taskQ (s : State) (r : TRef) (f : Thread → Thread) : (s.modThread r f).taskQ = s.taskQ := rfl
@[simp] theorem State.modThread_taskWait (s : State) (r : TRef) (f : Thread → Thread) : (s.modThread r f).taskWait = s.taskWait := rfl
@[simp] theorem State.modThread_arrays (s : State) (r : TRef) (f : Thread → Thread) : (s.modThread r f).arrays = s.arrays := rfl
@[simp] theorem State.modThread_images (s : State) (r : TRef) (f : Thread → Thread) : (s.modThread r f).images = s.images := rfl
@[simp] theorem State.modThread_remotes (s : State) (r : TRef) (f : Thread → Thread) : (s.modThread r f).remotes = s.remotes := rfl
@[simp] theorem State.modThread_colls (s : State) (r : TRef) (f : Thread → Thread) : (s.modThread r f).colls = s.colls := rfl
@[simp] theorem State.modThread_misses (s : State) (r : TRef) (f : Thread → Thread) : (s.modThread r f).misses = s.misses := rfl
@[simp] theorem State.modThread_stale (s : State) (r : TRef) (f : Thread → Thread) : (s.modThread r f).stale = s.stale := rfl
@[simp] theorem State.modThread_packets (s : State) (r : TRef) (f : Thread → Thread) : (s.modThread r f).packets = s.packets := rfl

@[simp] theorem State.modDom_clk (s : State) (g d : Nat) (f : Domain → Domain) : (s.modDom g d f).clk = s.clk := rfl
@[simp] theorem State.modDom_mem (s : State) (g d : Nat) (f : Domain → Domain) : (s.modDom g d f).mem = s.mem := rfl
@[simp] theorem State.modDom_poison (s : State) (g d : Nat) (f : Domain → Domain) : (s.modDom g d f).poison = s.poison := rfl
@[simp] theorem State.modDom_zeroPend (s : State) (g d : Nat) (f : Domain → Domain) : (s.modDom g d f).zeroPend = s.zeroPend := rfl
@[simp] theorem State.modDom_raced (s : State) (g d : Nat) (f : Domain → Domain) : (s.modDom g d f).raced = s.raced := rfl
@[simp] theorem State.modDom_free (s : State) (g d : Nat) (f : Domain → Domain) : (s.modDom g d f).free = s.free := rfl
@[simp] theorem State.modDom_fresh (s : State) (g d : Nat) (f : Domain → Domain) : (s.modDom g d f).fresh = s.fresh := rfl
@[simp] theorem State.modDom_agenda (s : State) (g d : Nat) (f : Domain → Domain) : (s.modDom g d f).agenda = s.agenda := rfl
@[simp] theorem State.modDom_issue (s : State) (g d : Nat) (f : Domain → Domain) : (s.modDom g d f).issue = s.issue := rfl
@[simp] theorem State.modDom_ready (s : State) (g d : Nat) (f : Domain → Domain) : (s.modDom g d f).ready = s.ready := rfl
@[simp] theorem State.modDom_fw (s : State) (g d : Nat) (f : Domain → Domain) : (s.modDom g d f).fw = s.fw := rfl
@[simp] theorem State.modDom_queues (s : State) (g d : Nat) (f : Domain → Domain) : (s.modDom g d f).queues = s.queues := rfl
@[simp] theorem State.modDom_launches (s : State) (g d : Nat) (f : Domain → Domain) : (s.modDom g d f).launches = s.launches := rfl
@[simp] theorem State.modDom_cores (s : State) (g d : Nat) (f : Domain → Domain) : (s.modDom g d f).cores = s.cores := rfl
@[simp] theorem State.modDom_quads (s : State) (g d : Nat) (f : Domain → Domain) : (s.modDom g d f).quads = s.quads := rfl
@[simp] theorem State.modDom_dieQ (s : State) (g d : Nat) (f : Domain → Domain) : (s.modDom g d f).dieQ = s.dieQ := rfl
@[simp] theorem State.modDom_spill (s : State) (g d : Nat) (f : Domain → Domain) : (s.modDom g d f).spill = s.spill := rfl
@[simp] theorem State.modDom_savedQ (s : State) (g d : Nat) (f : Domain → Domain) : (s.modDom g d f).savedQ = s.savedQ := rfl
@[simp] theorem State.modDom_ticket (s : State) (g d : Nat) (f : Domain → Domain) : (s.modDom g d f).ticket = s.ticket := rfl
@[simp] theorem State.modDom_lastQ (s : State) (g d : Nat) (f : Domain → Domain) : (s.modDom g d f).lastQ = s.lastQ := rfl
@[simp] theorem State.modDom_copies (s : State) (g d : Nat) (f : Domain → Domain) : (s.modDom g d f).copies = s.copies := rfl
@[simp] theorem State.modDom_sops (s : State) (g d : Nat) (f : Domain → Domain) : (s.modDom g d f).sops = s.sops := rfl
@[simp] theorem State.modDom_tiles (s : State) (g d : Nat) (f : Domain → Domain) : (s.modDom g d f).tiles = s.tiles := rfl
@[simp] theorem State.modDom_basins (s : State) (g d : Nat) (f : Domain → Domain) : (s.modDom g d f).basins = s.basins := rfl
@[simp] theorem State.modDom_ballocs (s : State) (g d : Nat) (f : Domain → Domain) : (s.modDom g d f).ballocs = s.ballocs := rfl
@[simp] theorem State.modDom_recs (s : State) (g d : Nat) (f : Domain → Domain) : (s.modDom g d f).recs = s.recs := rfl
@[simp] theorem State.modDom_taskQ (s : State) (g d : Nat) (f : Domain → Domain) : (s.modDom g d f).taskQ = s.taskQ := rfl
@[simp] theorem State.modDom_taskWait (s : State) (g d : Nat) (f : Domain → Domain) : (s.modDom g d f).taskWait = s.taskWait := rfl
@[simp] theorem State.modDom_arrays (s : State) (g d : Nat) (f : Domain → Domain) : (s.modDom g d f).arrays = s.arrays := rfl
@[simp] theorem State.modDom_images (s : State) (g d : Nat) (f : Domain → Domain) : (s.modDom g d f).images = s.images := rfl
@[simp] theorem State.modDom_remotes (s : State) (g d : Nat) (f : Domain → Domain) : (s.modDom g d f).remotes = s.remotes := rfl
@[simp] theorem State.modDom_colls (s : State) (g d : Nat) (f : Domain → Domain) : (s.modDom g d f).colls = s.colls := rfl
@[simp] theorem State.modDom_misses (s : State) (g d : Nat) (f : Domain → Domain) : (s.modDom g d f).misses = s.misses := rfl
@[simp] theorem State.modDom_stale (s : State) (g d : Nat) (f : Domain → Domain) : (s.modDom g d f).stale = s.stale := rfl
@[simp] theorem State.modDom_packets (s : State) (g d : Nat) (f : Domain → Domain) : (s.modDom g d f).packets = s.packets := rfl

@[simp] theorem State.modCtr_clk (s : State) (g c : Nat) (f : Ctr → Ctr) : (s.modCtr g c f).clk = s.clk := rfl
@[simp] theorem State.modCtr_mem (s : State) (g c : Nat) (f : Ctr → Ctr) : (s.modCtr g c f).mem = s.mem := rfl
@[simp] theorem State.modCtr_poison (s : State) (g c : Nat) (f : Ctr → Ctr) : (s.modCtr g c f).poison = s.poison := rfl
@[simp] theorem State.modCtr_zeroPend (s : State) (g c : Nat) (f : Ctr → Ctr) : (s.modCtr g c f).zeroPend = s.zeroPend := rfl
@[simp] theorem State.modCtr_raced (s : State) (g c : Nat) (f : Ctr → Ctr) : (s.modCtr g c f).raced = s.raced := rfl
@[simp] theorem State.modCtr_free (s : State) (g c : Nat) (f : Ctr → Ctr) : (s.modCtr g c f).free = s.free := rfl
@[simp] theorem State.modCtr_fresh (s : State) (g c : Nat) (f : Ctr → Ctr) : (s.modCtr g c f).fresh = s.fresh := rfl
@[simp] theorem State.modCtr_agenda (s : State) (g c : Nat) (f : Ctr → Ctr) : (s.modCtr g c f).agenda = s.agenda := rfl
@[simp] theorem State.modCtr_issue (s : State) (g c : Nat) (f : Ctr → Ctr) : (s.modCtr g c f).issue = s.issue := rfl
@[simp] theorem State.modCtr_ready (s : State) (g c : Nat) (f : Ctr → Ctr) : (s.modCtr g c f).ready = s.ready := rfl
@[simp] theorem State.modCtr_fw (s : State) (g c : Nat) (f : Ctr → Ctr) : (s.modCtr g c f).fw = s.fw := rfl
@[simp] theorem State.modCtr_queues (s : State) (g c : Nat) (f : Ctr → Ctr) : (s.modCtr g c f).queues = s.queues := rfl
@[simp] theorem State.modCtr_launches (s : State) (g c : Nat) (f : Ctr → Ctr) : (s.modCtr g c f).launches = s.launches := rfl
@[simp] theorem State.modCtr_cores (s : State) (g c : Nat) (f : Ctr → Ctr) : (s.modCtr g c f).cores = s.cores := rfl
@[simp] theorem State.modCtr_quads (s : State) (g c : Nat) (f : Ctr → Ctr) : (s.modCtr g c f).quads = s.quads := rfl
@[simp] theorem State.modCtr_dieQ (s : State) (g c : Nat) (f : Ctr → Ctr) : (s.modCtr g c f).dieQ = s.dieQ := rfl
@[simp] theorem State.modCtr_spill (s : State) (g c : Nat) (f : Ctr → Ctr) : (s.modCtr g c f).spill = s.spill := rfl
@[simp] theorem State.modCtr_savedQ (s : State) (g c : Nat) (f : Ctr → Ctr) : (s.modCtr g c f).savedQ = s.savedQ := rfl
@[simp] theorem State.modCtr_ticket (s : State) (g c : Nat) (f : Ctr → Ctr) : (s.modCtr g c f).ticket = s.ticket := rfl
@[simp] theorem State.modCtr_lastQ (s : State) (g c : Nat) (f : Ctr → Ctr) : (s.modCtr g c f).lastQ = s.lastQ := rfl
@[simp] theorem State.modCtr_copies (s : State) (g c : Nat) (f : Ctr → Ctr) : (s.modCtr g c f).copies = s.copies := rfl
@[simp] theorem State.modCtr_sops (s : State) (g c : Nat) (f : Ctr → Ctr) : (s.modCtr g c f).sops = s.sops := rfl
@[simp] theorem State.modCtr_tiles (s : State) (g c : Nat) (f : Ctr → Ctr) : (s.modCtr g c f).tiles = s.tiles := rfl
@[simp] theorem State.modCtr_basins (s : State) (g c : Nat) (f : Ctr → Ctr) : (s.modCtr g c f).basins = s.basins := rfl
@[simp] theorem State.modCtr_ballocs (s : State) (g c : Nat) (f : Ctr → Ctr) : (s.modCtr g c f).ballocs = s.ballocs := rfl
@[simp] theorem State.modCtr_recs (s : State) (g c : Nat) (f : Ctr → Ctr) : (s.modCtr g c f).recs = s.recs := rfl
@[simp] theorem State.modCtr_taskQ (s : State) (g c : Nat) (f : Ctr → Ctr) : (s.modCtr g c f).taskQ = s.taskQ := rfl
@[simp] theorem State.modCtr_taskWait (s : State) (g c : Nat) (f : Ctr → Ctr) : (s.modCtr g c f).taskWait = s.taskWait := rfl
@[simp] theorem State.modCtr_arrays (s : State) (g c : Nat) (f : Ctr → Ctr) : (s.modCtr g c f).arrays = s.arrays := rfl
@[simp] theorem State.modCtr_images (s : State) (g c : Nat) (f : Ctr → Ctr) : (s.modCtr g c f).images = s.images := rfl
@[simp] theorem State.modCtr_remotes (s : State) (g c : Nat) (f : Ctr → Ctr) : (s.modCtr g c f).remotes = s.remotes := rfl
@[simp] theorem State.modCtr_colls (s : State) (g c : Nat) (f : Ctr → Ctr) : (s.modCtr g c f).colls = s.colls := rfl
@[simp] theorem State.modCtr_misses (s : State) (g c : Nat) (f : Ctr → Ctr) : (s.modCtr g c f).misses = s.misses := rfl
@[simp] theorem State.modCtr_stale (s : State) (g c : Nat) (f : Ctr → Ctr) : (s.modCtr g c f).stale = s.stale := rfl
@[simp] theorem State.modCtr_packets (s : State) (g c : Nat) (f : Ctr → Ctr) : (s.modCtr g c f).packets = s.packets := rfl

@[simp] theorem State.modLaunch_clk (s : State) (l : Nat) (f : Launch → Launch) : (s.modLaunch l f).clk = s.clk := rfl
@[simp] theorem State.modLaunch_mem (s : State) (l : Nat) (f : Launch → Launch) : (s.modLaunch l f).mem = s.mem := rfl
@[simp] theorem State.modLaunch_poison (s : State) (l : Nat) (f : Launch → Launch) : (s.modLaunch l f).poison = s.poison := rfl
@[simp] theorem State.modLaunch_zeroPend (s : State) (l : Nat) (f : Launch → Launch) : (s.modLaunch l f).zeroPend = s.zeroPend := rfl
@[simp] theorem State.modLaunch_raced (s : State) (l : Nat) (f : Launch → Launch) : (s.modLaunch l f).raced = s.raced := rfl
@[simp] theorem State.modLaunch_free (s : State) (l : Nat) (f : Launch → Launch) : (s.modLaunch l f).free = s.free := rfl
@[simp] theorem State.modLaunch_fresh (s : State) (l : Nat) (f : Launch → Launch) : (s.modLaunch l f).fresh = s.fresh := rfl
@[simp] theorem State.modLaunch_agenda (s : State) (l : Nat) (f : Launch → Launch) : (s.modLaunch l f).agenda = s.agenda := rfl
@[simp] theorem State.modLaunch_issue (s : State) (l : Nat) (f : Launch → Launch) : (s.modLaunch l f).issue = s.issue := rfl
@[simp] theorem State.modLaunch_ready (s : State) (l : Nat) (f : Launch → Launch) : (s.modLaunch l f).ready = s.ready := rfl
@[simp] theorem State.modLaunch_fw (s : State) (l : Nat) (f : Launch → Launch) : (s.modLaunch l f).fw = s.fw := rfl
@[simp] theorem State.modLaunch_queues (s : State) (l : Nat) (f : Launch → Launch) : (s.modLaunch l f).queues = s.queues := rfl
@[simp] theorem State.modLaunch_groups (s : State) (l : Nat) (f : Launch → Launch) : (s.modLaunch l f).groups = s.groups := rfl
@[simp] theorem State.modLaunch_cores (s : State) (l : Nat) (f : Launch → Launch) : (s.modLaunch l f).cores = s.cores := rfl
@[simp] theorem State.modLaunch_quads (s : State) (l : Nat) (f : Launch → Launch) : (s.modLaunch l f).quads = s.quads := rfl
@[simp] theorem State.modLaunch_dieQ (s : State) (l : Nat) (f : Launch → Launch) : (s.modLaunch l f).dieQ = s.dieQ := rfl
@[simp] theorem State.modLaunch_spill (s : State) (l : Nat) (f : Launch → Launch) : (s.modLaunch l f).spill = s.spill := rfl
@[simp] theorem State.modLaunch_savedQ (s : State) (l : Nat) (f : Launch → Launch) : (s.modLaunch l f).savedQ = s.savedQ := rfl
@[simp] theorem State.modLaunch_ticket (s : State) (l : Nat) (f : Launch → Launch) : (s.modLaunch l f).ticket = s.ticket := rfl
@[simp] theorem State.modLaunch_lastQ (s : State) (l : Nat) (f : Launch → Launch) : (s.modLaunch l f).lastQ = s.lastQ := rfl
@[simp] theorem State.modLaunch_copies (s : State) (l : Nat) (f : Launch → Launch) : (s.modLaunch l f).copies = s.copies := rfl
@[simp] theorem State.modLaunch_sops (s : State) (l : Nat) (f : Launch → Launch) : (s.modLaunch l f).sops = s.sops := rfl
@[simp] theorem State.modLaunch_tiles (s : State) (l : Nat) (f : Launch → Launch) : (s.modLaunch l f).tiles = s.tiles := rfl
@[simp] theorem State.modLaunch_basins (s : State) (l : Nat) (f : Launch → Launch) : (s.modLaunch l f).basins = s.basins := rfl
@[simp] theorem State.modLaunch_ballocs (s : State) (l : Nat) (f : Launch → Launch) : (s.modLaunch l f).ballocs = s.ballocs := rfl
@[simp] theorem State.modLaunch_recs (s : State) (l : Nat) (f : Launch → Launch) : (s.modLaunch l f).recs = s.recs := rfl
@[simp] theorem State.modLaunch_taskQ (s : State) (l : Nat) (f : Launch → Launch) : (s.modLaunch l f).taskQ = s.taskQ := rfl
@[simp] theorem State.modLaunch_taskWait (s : State) (l : Nat) (f : Launch → Launch) : (s.modLaunch l f).taskWait = s.taskWait := rfl
@[simp] theorem State.modLaunch_arrays (s : State) (l : Nat) (f : Launch → Launch) : (s.modLaunch l f).arrays = s.arrays := rfl
@[simp] theorem State.modLaunch_images (s : State) (l : Nat) (f : Launch → Launch) : (s.modLaunch l f).images = s.images := rfl
@[simp] theorem State.modLaunch_remotes (s : State) (l : Nat) (f : Launch → Launch) : (s.modLaunch l f).remotes = s.remotes := rfl
@[simp] theorem State.modLaunch_colls (s : State) (l : Nat) (f : Launch → Launch) : (s.modLaunch l f).colls = s.colls := rfl
@[simp] theorem State.modLaunch_misses (s : State) (l : Nat) (f : Launch → Launch) : (s.modLaunch l f).misses = s.misses := rfl
@[simp] theorem State.modLaunch_stale (s : State) (l : Nat) (f : Launch → Launch) : (s.modLaunch l f).stale = s.stale := rfl
@[simp] theorem State.modLaunch_packets (s : State) (l : Nat) (f : Launch → Launch) : (s.modLaunch l f).packets = s.packets := rfl

@[simp] theorem State.bump_clk (s : State) : s.bump.clk = s.clk := rfl
@[simp] theorem State.bump_mem (s : State) : s.bump.mem = s.mem := rfl
@[simp] theorem State.bump_poison (s : State) : s.bump.poison = s.poison := rfl
@[simp] theorem State.bump_zeroPend (s : State) : s.bump.zeroPend = s.zeroPend := rfl
@[simp] theorem State.bump_raced (s : State) : s.bump.raced = s.raced := rfl
@[simp] theorem State.bump_free (s : State) : s.bump.free = s.free := rfl
@[simp] theorem State.bump_agenda (s : State) : s.bump.agenda = s.agenda := rfl
@[simp] theorem State.bump_issue (s : State) : s.bump.issue = s.issue := rfl
@[simp] theorem State.bump_ready (s : State) : s.bump.ready = s.ready := rfl
@[simp] theorem State.bump_fw (s : State) : s.bump.fw = s.fw := rfl
@[simp] theorem State.bump_queues (s : State) : s.bump.queues = s.queues := rfl
@[simp] theorem State.bump_launches (s : State) : s.bump.launches = s.launches := rfl
@[simp] theorem State.bump_groups (s : State) : s.bump.groups = s.groups := rfl
@[simp] theorem State.bump_cores (s : State) : s.bump.cores = s.cores := rfl
@[simp] theorem State.bump_quads (s : State) : s.bump.quads = s.quads := rfl
@[simp] theorem State.bump_dieQ (s : State) : s.bump.dieQ = s.dieQ := rfl
@[simp] theorem State.bump_spill (s : State) : s.bump.spill = s.spill := rfl
@[simp] theorem State.bump_savedQ (s : State) : s.bump.savedQ = s.savedQ := rfl
@[simp] theorem State.bump_ticket (s : State) : s.bump.ticket = s.ticket := rfl
@[simp] theorem State.bump_lastQ (s : State) : s.bump.lastQ = s.lastQ := rfl
@[simp] theorem State.bump_copies (s : State) : s.bump.copies = s.copies := rfl
@[simp] theorem State.bump_sops (s : State) : s.bump.sops = s.sops := rfl
@[simp] theorem State.bump_tiles (s : State) : s.bump.tiles = s.tiles := rfl
@[simp] theorem State.bump_basins (s : State) : s.bump.basins = s.basins := rfl
@[simp] theorem State.bump_ballocs (s : State) : s.bump.ballocs = s.ballocs := rfl
@[simp] theorem State.bump_recs (s : State) : s.bump.recs = s.recs := rfl
@[simp] theorem State.bump_taskQ (s : State) : s.bump.taskQ = s.taskQ := rfl
@[simp] theorem State.bump_taskWait (s : State) : s.bump.taskWait = s.taskWait := rfl
@[simp] theorem State.bump_arrays (s : State) : s.bump.arrays = s.arrays := rfl
@[simp] theorem State.bump_images (s : State) : s.bump.images = s.images := rfl
@[simp] theorem State.bump_remotes (s : State) : s.bump.remotes = s.remotes := rfl
@[simp] theorem State.bump_colls (s : State) : s.bump.colls = s.colls := rfl
@[simp] theorem State.bump_misses (s : State) : s.bump.misses = s.misses := rfl
@[simp] theorem State.bump_stale (s : State) : s.bump.stale = s.stale := rfl
@[simp] theorem State.bump_packets (s : State) : s.bump.packets = s.packets := rfl

@[simp] theorem State.buffer_clk (s : State) (r : TRef) (f : Fx) : (s.buffer r f).clk = s.clk := rfl
@[simp] theorem State.buffer_mem (s : State) (r : TRef) (f : Fx) : (s.buffer r f).mem = s.mem := rfl
@[simp] theorem State.buffer_poison (s : State) (r : TRef) (f : Fx) : (s.buffer r f).poison = s.poison := rfl
@[simp] theorem State.buffer_zeroPend (s : State) (r : TRef) (f : Fx) : (s.buffer r f).zeroPend = s.zeroPend := rfl
@[simp] theorem State.buffer_raced (s : State) (r : TRef) (f : Fx) : (s.buffer r f).raced = s.raced := rfl
@[simp] theorem State.buffer_free (s : State) (r : TRef) (f : Fx) : (s.buffer r f).free = s.free := rfl
@[simp] theorem State.buffer_fresh (s : State) (r : TRef) (f : Fx) : (s.buffer r f).fresh = s.fresh := rfl
@[simp] theorem State.buffer_agenda (s : State) (r : TRef) (f : Fx) : (s.buffer r f).agenda = s.agenda := rfl
@[simp] theorem State.buffer_issue (s : State) (r : TRef) (f : Fx) : (s.buffer r f).issue = s.issue := rfl
@[simp] theorem State.buffer_ready (s : State) (r : TRef) (f : Fx) : (s.buffer r f).ready = s.ready := rfl
@[simp] theorem State.buffer_fw (s : State) (r : TRef) (f : Fx) : (s.buffer r f).fw = s.fw := rfl
@[simp] theorem State.buffer_queues (s : State) (r : TRef) (f : Fx) : (s.buffer r f).queues = s.queues := rfl
@[simp] theorem State.buffer_launches (s : State) (r : TRef) (f : Fx) : (s.buffer r f).launches = s.launches := rfl
@[simp] theorem State.buffer_cores (s : State) (r : TRef) (f : Fx) : (s.buffer r f).cores = s.cores := rfl
@[simp] theorem State.buffer_quads (s : State) (r : TRef) (f : Fx) : (s.buffer r f).quads = s.quads := rfl
@[simp] theorem State.buffer_dieQ (s : State) (r : TRef) (f : Fx) : (s.buffer r f).dieQ = s.dieQ := rfl
@[simp] theorem State.buffer_spill (s : State) (r : TRef) (f : Fx) : (s.buffer r f).spill = s.spill := rfl
@[simp] theorem State.buffer_savedQ (s : State) (r : TRef) (f : Fx) : (s.buffer r f).savedQ = s.savedQ := rfl
@[simp] theorem State.buffer_ticket (s : State) (r : TRef) (f : Fx) : (s.buffer r f).ticket = s.ticket := rfl
@[simp] theorem State.buffer_lastQ (s : State) (r : TRef) (f : Fx) : (s.buffer r f).lastQ = s.lastQ := rfl
@[simp] theorem State.buffer_copies (s : State) (r : TRef) (f : Fx) : (s.buffer r f).copies = s.copies := rfl
@[simp] theorem State.buffer_sops (s : State) (r : TRef) (f : Fx) : (s.buffer r f).sops = s.sops := rfl
@[simp] theorem State.buffer_tiles (s : State) (r : TRef) (f : Fx) : (s.buffer r f).tiles = s.tiles := rfl
@[simp] theorem State.buffer_basins (s : State) (r : TRef) (f : Fx) : (s.buffer r f).basins = s.basins := rfl
@[simp] theorem State.buffer_ballocs (s : State) (r : TRef) (f : Fx) : (s.buffer r f).ballocs = s.ballocs := rfl
@[simp] theorem State.buffer_recs (s : State) (r : TRef) (f : Fx) : (s.buffer r f).recs = s.recs := rfl
@[simp] theorem State.buffer_taskQ (s : State) (r : TRef) (f : Fx) : (s.buffer r f).taskQ = s.taskQ := rfl
@[simp] theorem State.buffer_taskWait (s : State) (r : TRef) (f : Fx) : (s.buffer r f).taskWait = s.taskWait := rfl
@[simp] theorem State.buffer_arrays (s : State) (r : TRef) (f : Fx) : (s.buffer r f).arrays = s.arrays := rfl
@[simp] theorem State.buffer_images (s : State) (r : TRef) (f : Fx) : (s.buffer r f).images = s.images := rfl
@[simp] theorem State.buffer_remotes (s : State) (r : TRef) (f : Fx) : (s.buffer r f).remotes = s.remotes := rfl
@[simp] theorem State.buffer_colls (s : State) (r : TRef) (f : Fx) : (s.buffer r f).colls = s.colls := rfl
@[simp] theorem State.buffer_misses (s : State) (r : TRef) (f : Fx) : (s.buffer r f).misses = s.misses := rfl
@[simp] theorem State.buffer_stale (s : State) (r : TRef) (f : Fx) : (s.buffer r f).stale = s.stale := rfl
@[simp] theorem State.buffer_packets (s : State) (r : TRef) (f : Fx) : (s.buffer r f).packets = s.packets := rfl

@[simp] theorem State.result_clk (s : State) (r : TRef) (q : Nat) (v : Src) : (s.result r q v).clk = s.clk := rfl
@[simp] theorem State.result_mem (s : State) (r : TRef) (q : Nat) (v : Src) : (s.result r q v).mem = s.mem := rfl
@[simp] theorem State.result_poison (s : State) (r : TRef) (q : Nat) (v : Src) : (s.result r q v).poison = s.poison := rfl
@[simp] theorem State.result_zeroPend (s : State) (r : TRef) (q : Nat) (v : Src) : (s.result r q v).zeroPend = s.zeroPend := rfl
@[simp] theorem State.result_raced (s : State) (r : TRef) (q : Nat) (v : Src) : (s.result r q v).raced = s.raced := rfl
@[simp] theorem State.result_free (s : State) (r : TRef) (q : Nat) (v : Src) : (s.result r q v).free = s.free := rfl
@[simp] theorem State.result_fresh (s : State) (r : TRef) (q : Nat) (v : Src) : (s.result r q v).fresh = s.fresh := rfl
@[simp] theorem State.result_agenda (s : State) (r : TRef) (q : Nat) (v : Src) : (s.result r q v).agenda = s.agenda := rfl
@[simp] theorem State.result_issue (s : State) (r : TRef) (q : Nat) (v : Src) : (s.result r q v).issue = s.issue := rfl
@[simp] theorem State.result_ready (s : State) (r : TRef) (q : Nat) (v : Src) : (s.result r q v).ready = s.ready := rfl
@[simp] theorem State.result_fw (s : State) (r : TRef) (q : Nat) (v : Src) : (s.result r q v).fw = s.fw := rfl
@[simp] theorem State.result_queues (s : State) (r : TRef) (q : Nat) (v : Src) : (s.result r q v).queues = s.queues := rfl
@[simp] theorem State.result_launches (s : State) (r : TRef) (q : Nat) (v : Src) : (s.result r q v).launches = s.launches := rfl
@[simp] theorem State.result_cores (s : State) (r : TRef) (q : Nat) (v : Src) : (s.result r q v).cores = s.cores := rfl
@[simp] theorem State.result_quads (s : State) (r : TRef) (q : Nat) (v : Src) : (s.result r q v).quads = s.quads := rfl
@[simp] theorem State.result_dieQ (s : State) (r : TRef) (q : Nat) (v : Src) : (s.result r q v).dieQ = s.dieQ := rfl
@[simp] theorem State.result_spill (s : State) (r : TRef) (q : Nat) (v : Src) : (s.result r q v).spill = s.spill := rfl
@[simp] theorem State.result_savedQ (s : State) (r : TRef) (q : Nat) (v : Src) : (s.result r q v).savedQ = s.savedQ := rfl
@[simp] theorem State.result_ticket (s : State) (r : TRef) (q : Nat) (v : Src) : (s.result r q v).ticket = s.ticket := rfl
@[simp] theorem State.result_lastQ (s : State) (r : TRef) (q : Nat) (v : Src) : (s.result r q v).lastQ = s.lastQ := rfl
@[simp] theorem State.result_copies (s : State) (r : TRef) (q : Nat) (v : Src) : (s.result r q v).copies = s.copies := rfl
@[simp] theorem State.result_sops (s : State) (r : TRef) (q : Nat) (v : Src) : (s.result r q v).sops = s.sops := rfl
@[simp] theorem State.result_tiles (s : State) (r : TRef) (q : Nat) (v : Src) : (s.result r q v).tiles = s.tiles := rfl
@[simp] theorem State.result_basins (s : State) (r : TRef) (q : Nat) (v : Src) : (s.result r q v).basins = s.basins := rfl
@[simp] theorem State.result_ballocs (s : State) (r : TRef) (q : Nat) (v : Src) : (s.result r q v).ballocs = s.ballocs := rfl
@[simp] theorem State.result_recs (s : State) (r : TRef) (q : Nat) (v : Src) : (s.result r q v).recs = s.recs := rfl
@[simp] theorem State.result_taskQ (s : State) (r : TRef) (q : Nat) (v : Src) : (s.result r q v).taskQ = s.taskQ := rfl
@[simp] theorem State.result_taskWait (s : State) (r : TRef) (q : Nat) (v : Src) : (s.result r q v).taskWait = s.taskWait := rfl
@[simp] theorem State.result_arrays (s : State) (r : TRef) (q : Nat) (v : Src) : (s.result r q v).arrays = s.arrays := rfl
@[simp] theorem State.result_images (s : State) (r : TRef) (q : Nat) (v : Src) : (s.result r q v).images = s.images := rfl
@[simp] theorem State.result_remotes (s : State) (r : TRef) (q : Nat) (v : Src) : (s.result r q v).remotes = s.remotes := rfl
@[simp] theorem State.result_colls (s : State) (r : TRef) (q : Nat) (v : Src) : (s.result r q v).colls = s.colls := rfl
@[simp] theorem State.result_misses (s : State) (r : TRef) (q : Nat) (v : Src) : (s.result r q v).misses = s.misses := rfl
@[simp] theorem State.result_stale (s : State) (r : TRef) (q : Nat) (v : Src) : (s.result r q v).stale = s.stale := rfl
@[simp] theorem State.result_packets (s : State) (r : TRef) (q : Nat) (v : Src) : (s.result r q v).packets = s.packets := rfl

@[simp] theorem State.defer_clk (s : State) (r : TRef) (d : Dst) (v : Src) : (s.defer r d v).clk = s.clk := rfl
@[simp] theorem State.defer_mem (s : State) (r : TRef) (d : Dst) (v : Src) : (s.defer r d v).mem = s.mem := rfl
@[simp] theorem State.defer_poison (s : State) (r : TRef) (d : Dst) (v : Src) : (s.defer r d v).poison = s.poison := rfl
@[simp] theorem State.defer_zeroPend (s : State) (r : TRef) (d : Dst) (v : Src) : (s.defer r d v).zeroPend = s.zeroPend := rfl
@[simp] theorem State.defer_raced (s : State) (r : TRef) (d : Dst) (v : Src) : (s.defer r d v).raced = s.raced := rfl
@[simp] theorem State.defer_free (s : State) (r : TRef) (d : Dst) (v : Src) : (s.defer r d v).free = s.free := rfl
@[simp] theorem State.defer_agenda (s : State) (r : TRef) (d : Dst) (v : Src) : (s.defer r d v).agenda = s.agenda := rfl
@[simp] theorem State.defer_issue (s : State) (r : TRef) (d : Dst) (v : Src) : (s.defer r d v).issue = s.issue := rfl
@[simp] theorem State.defer_ready (s : State) (r : TRef) (d : Dst) (v : Src) : (s.defer r d v).ready = s.ready := rfl
@[simp] theorem State.defer_fw (s : State) (r : TRef) (d : Dst) (v : Src) : (s.defer r d v).fw = s.fw := rfl
@[simp] theorem State.defer_queues (s : State) (r : TRef) (d : Dst) (v : Src) : (s.defer r d v).queues = s.queues := rfl
@[simp] theorem State.defer_launches (s : State) (r : TRef) (d : Dst) (v : Src) : (s.defer r d v).launches = s.launches := rfl
@[simp] theorem State.defer_cores (s : State) (r : TRef) (d : Dst) (v : Src) : (s.defer r d v).cores = s.cores := rfl
@[simp] theorem State.defer_quads (s : State) (r : TRef) (d : Dst) (v : Src) : (s.defer r d v).quads = s.quads := rfl
@[simp] theorem State.defer_dieQ (s : State) (r : TRef) (d : Dst) (v : Src) : (s.defer r d v).dieQ = s.dieQ := rfl
@[simp] theorem State.defer_spill (s : State) (r : TRef) (d : Dst) (v : Src) : (s.defer r d v).spill = s.spill := rfl
@[simp] theorem State.defer_savedQ (s : State) (r : TRef) (d : Dst) (v : Src) : (s.defer r d v).savedQ = s.savedQ := rfl
@[simp] theorem State.defer_ticket (s : State) (r : TRef) (d : Dst) (v : Src) : (s.defer r d v).ticket = s.ticket := rfl
@[simp] theorem State.defer_lastQ (s : State) (r : TRef) (d : Dst) (v : Src) : (s.defer r d v).lastQ = s.lastQ := rfl
@[simp] theorem State.defer_copies (s : State) (r : TRef) (d : Dst) (v : Src) : (s.defer r d v).copies = s.copies := rfl
@[simp] theorem State.defer_sops (s : State) (r : TRef) (d : Dst) (v : Src) : (s.defer r d v).sops = s.sops := rfl
@[simp] theorem State.defer_tiles (s : State) (r : TRef) (d : Dst) (v : Src) : (s.defer r d v).tiles = s.tiles := rfl
@[simp] theorem State.defer_basins (s : State) (r : TRef) (d : Dst) (v : Src) : (s.defer r d v).basins = s.basins := rfl
@[simp] theorem State.defer_ballocs (s : State) (r : TRef) (d : Dst) (v : Src) : (s.defer r d v).ballocs = s.ballocs := rfl
@[simp] theorem State.defer_recs (s : State) (r : TRef) (d : Dst) (v : Src) : (s.defer r d v).recs = s.recs := rfl
@[simp] theorem State.defer_taskQ (s : State) (r : TRef) (d : Dst) (v : Src) : (s.defer r d v).taskQ = s.taskQ := rfl
@[simp] theorem State.defer_taskWait (s : State) (r : TRef) (d : Dst) (v : Src) : (s.defer r d v).taskWait = s.taskWait := rfl
@[simp] theorem State.defer_arrays (s : State) (r : TRef) (d : Dst) (v : Src) : (s.defer r d v).arrays = s.arrays := rfl
@[simp] theorem State.defer_images (s : State) (r : TRef) (d : Dst) (v : Src) : (s.defer r d v).images = s.images := rfl
@[simp] theorem State.defer_remotes (s : State) (r : TRef) (d : Dst) (v : Src) : (s.defer r d v).remotes = s.remotes := rfl
@[simp] theorem State.defer_colls (s : State) (r : TRef) (d : Dst) (v : Src) : (s.defer r d v).colls = s.colls := rfl
@[simp] theorem State.defer_misses (s : State) (r : TRef) (d : Dst) (v : Src) : (s.defer r d v).misses = s.misses := rfl
@[simp] theorem State.defer_stale (s : State) (r : TRef) (d : Dst) (v : Src) : (s.defer r d v).stale = s.stale := rfl
@[simp] theorem State.defer_packets (s : State) (r : TRef) (d : Dst) (v : Src) : (s.defer r d v).packets = s.packets := rfl

@[simp] theorem State.arrive_clk (s : State) (r : TRef) (st : TState) (a : Nat → Arrival) : (s.arrive r st a).clk = s.clk := rfl
@[simp] theorem State.arrive_mem (s : State) (r : TRef) (st : TState) (a : Nat → Arrival) : (s.arrive r st a).mem = s.mem := rfl
@[simp] theorem State.arrive_poison (s : State) (r : TRef) (st : TState) (a : Nat → Arrival) : (s.arrive r st a).poison = s.poison := rfl
@[simp] theorem State.arrive_zeroPend (s : State) (r : TRef) (st : TState) (a : Nat → Arrival) : (s.arrive r st a).zeroPend = s.zeroPend := rfl
@[simp] theorem State.arrive_raced (s : State) (r : TRef) (st : TState) (a : Nat → Arrival) : (s.arrive r st a).raced = s.raced := rfl
@[simp] theorem State.arrive_free (s : State) (r : TRef) (st : TState) (a : Nat → Arrival) : (s.arrive r st a).free = s.free := rfl
@[simp] theorem State.arrive_agenda (s : State) (r : TRef) (st : TState) (a : Nat → Arrival) : (s.arrive r st a).agenda = s.agenda := rfl
@[simp] theorem State.arrive_issue (s : State) (r : TRef) (st : TState) (a : Nat → Arrival) : (s.arrive r st a).issue = s.issue := rfl
@[simp] theorem State.arrive_ready (s : State) (r : TRef) (st : TState) (a : Nat → Arrival) : (s.arrive r st a).ready = s.ready := rfl
@[simp] theorem State.arrive_fw (s : State) (r : TRef) (st : TState) (a : Nat → Arrival) : (s.arrive r st a).fw = s.fw := rfl
@[simp] theorem State.arrive_queues (s : State) (r : TRef) (st : TState) (a : Nat → Arrival) : (s.arrive r st a).queues = s.queues := rfl
@[simp] theorem State.arrive_launches (s : State) (r : TRef) (st : TState) (a : Nat → Arrival) : (s.arrive r st a).launches = s.launches := rfl
@[simp] theorem State.arrive_cores (s : State) (r : TRef) (st : TState) (a : Nat → Arrival) : (s.arrive r st a).cores = s.cores := rfl
@[simp] theorem State.arrive_quads (s : State) (r : TRef) (st : TState) (a : Nat → Arrival) : (s.arrive r st a).quads = s.quads := rfl
@[simp] theorem State.arrive_dieQ (s : State) (r : TRef) (st : TState) (a : Nat → Arrival) : (s.arrive r st a).dieQ = s.dieQ := rfl
@[simp] theorem State.arrive_spill (s : State) (r : TRef) (st : TState) (a : Nat → Arrival) : (s.arrive r st a).spill = s.spill := rfl
@[simp] theorem State.arrive_savedQ (s : State) (r : TRef) (st : TState) (a : Nat → Arrival) : (s.arrive r st a).savedQ = s.savedQ := rfl
@[simp] theorem State.arrive_ticket (s : State) (r : TRef) (st : TState) (a : Nat → Arrival) : (s.arrive r st a).ticket = s.ticket := rfl
@[simp] theorem State.arrive_lastQ (s : State) (r : TRef) (st : TState) (a : Nat → Arrival) : (s.arrive r st a).lastQ = s.lastQ := rfl
@[simp] theorem State.arrive_copies (s : State) (r : TRef) (st : TState) (a : Nat → Arrival) : (s.arrive r st a).copies = s.copies := rfl
@[simp] theorem State.arrive_sops (s : State) (r : TRef) (st : TState) (a : Nat → Arrival) : (s.arrive r st a).sops = s.sops := rfl
@[simp] theorem State.arrive_tiles (s : State) (r : TRef) (st : TState) (a : Nat → Arrival) : (s.arrive r st a).tiles = s.tiles := rfl
@[simp] theorem State.arrive_basins (s : State) (r : TRef) (st : TState) (a : Nat → Arrival) : (s.arrive r st a).basins = s.basins := rfl
@[simp] theorem State.arrive_ballocs (s : State) (r : TRef) (st : TState) (a : Nat → Arrival) : (s.arrive r st a).ballocs = s.ballocs := rfl
@[simp] theorem State.arrive_recs (s : State) (r : TRef) (st : TState) (a : Nat → Arrival) : (s.arrive r st a).recs = s.recs := rfl
@[simp] theorem State.arrive_taskQ (s : State) (r : TRef) (st : TState) (a : Nat → Arrival) : (s.arrive r st a).taskQ = s.taskQ := rfl
@[simp] theorem State.arrive_taskWait (s : State) (r : TRef) (st : TState) (a : Nat → Arrival) : (s.arrive r st a).taskWait = s.taskWait := rfl
@[simp] theorem State.arrive_arrays (s : State) (r : TRef) (st : TState) (a : Nat → Arrival) : (s.arrive r st a).arrays = s.arrays := rfl
@[simp] theorem State.arrive_images (s : State) (r : TRef) (st : TState) (a : Nat → Arrival) : (s.arrive r st a).images = s.images := rfl
@[simp] theorem State.arrive_remotes (s : State) (r : TRef) (st : TState) (a : Nat → Arrival) : (s.arrive r st a).remotes = s.remotes := rfl
@[simp] theorem State.arrive_colls (s : State) (r : TRef) (st : TState) (a : Nat → Arrival) : (s.arrive r st a).colls = s.colls := rfl
@[simp] theorem State.arrive_misses (s : State) (r : TRef) (st : TState) (a : Nat → Arrival) : (s.arrive r st a).misses = s.misses := rfl
@[simp] theorem State.arrive_stale (s : State) (r : TRef) (st : TState) (a : Nat → Arrival) : (s.arrive r st a).stale = s.stale := rfl
@[simp] theorem State.arrive_packets (s : State) (r : TRef) (st : TState) (a : Nat → Arrival) : (s.arrive r st a).packets = s.packets := rfl

/-! ## What an update changes -/

@[simp] theorem State.bump_fresh (s : State) : s.bump.fresh = s.fresh + 1 := rfl
@[simp] theorem State.defer_fresh (s : State) (r : TRef) (d : Dst) (v : Src) : (s.defer r d v).fresh = s.fresh + 1 := rfl

@[simp] theorem State.core_setCore_self (s : State) (c : Nat) (k : Core) : (s.setCore c k).core c = k :=
  Table.get_set_self _ _ _ _

theorem State.core_setCore_ne (s : State) {c c' : Nat} (k : Core) (h : c' ≠ c) : (s.setCore c k).core c' = s.core c' :=
  Table.get_set_ne _ _ _ h

@[simp] theorem State.core_modCore_self (s : State) (c : Nat) (f : Core → Core) : (s.modCore c f).core c = f (s.core c) :=
  Table.get_set_self _ _ _ _

theorem State.core_modCore_ne (s : State) {c c' : Nat} (f : Core → Core) (h : c' ≠ c) :
    (s.modCore c f).core c' = s.core c' :=
  Table.get_set_ne _ _ _ h

@[simp] theorem State.group?_modGroup_self (s : State) (g : Nat) (f : Group → Group) :
    (s.modGroup g f).group? g = (s.group? g).map f :=
  Table.find?_update_self _ _ _

theorem State.group?_modGroup_ne (s : State) {g g' : Nat} (f : Group → Group) (h : g' ≠ g) :
    (s.modGroup g f).group? g' = s.group? g' :=
  Table.find?_update_ne _ _ h

@[simp] theorem State.group?_bump (s : State) (g : Nat) : s.bump.group? g = s.group? g := rfl
@[simp] theorem State.thread?_bump (s : State) (r : TRef) : s.bump.thread? r = s.thread? r := rfl
@[simp] theorem State.launch?_bump (s : State) (l : Nat) : s.bump.launch? l = s.launch? l := rfl
@[simp] theorem State.core_bump (s : State) (c : Nat) : s.bump.core c = s.core c := rfl
@[simp] theorem State.core_modGroup (s : State) (g : Nat) (f : Group → Group) (c : Nat) :
    (s.modGroup g f).core c = s.core c := rfl
@[simp] theorem State.core_modThread (s : State) (r : TRef) (f : Thread → Thread) (c : Nat) :
    (s.modThread r f).core c = s.core c := rfl
@[simp] theorem State.launch?_modGroup (s : State) (g : Nat) (f : Group → Group) (l : Nat) :
    (s.modGroup g f).launch? l = s.launch? l := rfl
@[simp] theorem State.launch?_modThread (s : State) (r : TRef) (f : Thread → Thread) (l : Nat) :
    (s.modThread r f).launch? l = s.launch? l := rfl

theorem State.group?_modThread (s : State) (r : TRef) (f : Thread → Thread) :
    (s.modThread r f).group? r.grp = (s.group? r.grp).map fun g => { g with threads := g.threads.modify r.tid f } :=
  State.group?_modGroup_self _ _ _

theorem State.group?_modThread_ne (s : State) (r : TRef) (f : Thread → Thread) {g : Nat} (h : g ≠ r.grp) :
    (s.modThread r f).group? g = s.group? g :=
  State.group?_modGroup_ne _ _ h

@[simp] theorem State.thread?_modThread_self (s : State) (r : TRef) (f : Thread → Thread) :
    (s.modThread r f).thread? r = (s.thread? r).map f := by
  unfold State.thread?
  rw [State.group?_modThread]
  cases s.group? r.grp <;> simp

theorem State.thread?_modThread_ne (s : State) {r q : TRef} (f : Thread → Thread) (h : q ≠ r) :
    (s.modThread r f).thread? q = s.thread? q := by
  unfold State.thread?
  by_cases hg : q.grp = r.grp
  · have ht : r.tid ≠ q.tid := fun ht => h (by cases q; cases r; simp_all)
    rw [hg, State.group?_modThread]
    cases s.group? r.grp <;> simp [ht]
  · rw [State.group?_modThread_ne _ _ _ hg]

/-- Two changes of a thread that agree on it are one change. -/
theorem State.modThread_congr {s : State} {r : TRef} {t : Thread} {f h : Thread → Thread} (ht : s.thread? r = some t)
    (e : f t = h t) : s.modThread r f = s.modThread r h := by
  unfold State.thread? at ht
  cases hg : s.group? r.grp with
  | none => simp [hg] at ht
  | some g =>
    simp only [hg, Option.bind_some] at ht
    have hm : g.threads.modify r.tid f = g.threads.modify r.tid h := by
      apply List.ext_getElem?
      intro i
      simp only [List.getElem?_modify]
      split
      · subst_vars; simp [ht, e]
      · rfl
    have hg' : Table.find? s.groups r.grp = some g := hg
    simp only [State.modThread, State.modGroup, Table.update, hg', hm]

@[simp] theorem State.thread?_defer_self (s : State) (r : TRef) (d : Dst) (v : Src) :
    (s.defer r d v).thread? r =
      (s.thread? r).map fun t => { t with defs := t.defs ++ [{ seq := s.fresh, dst := d, src := v }] } := by
  simp [State.defer]

@[simp] theorem State.thread?_buffer_self (s : State) (r : TRef) (e : Fx) :
    (s.buffer r e).thread? r = (s.thread? r).map fun t => { t with fx := t.fx ++ [e] } := by
  simp [State.buffer]

theorem State.thread?_defer_ne (s : State) {r q : TRef} (d : Dst) (v : Src) (h : q ≠ r) :
    (s.defer r d v).thread? q = s.thread? q := by
  simp [State.defer, State.thread?_modThread_ne _ _ h]

theorem State.thread?_buffer_ne (s : State) {r q : TRef} (e : Fx) (h : q ≠ r) :
    (s.buffer r e).thread? q = s.thread? q :=
  State.thread?_modThread_ne _ _ h

/-! ## Registers and predicates -/

@[simp] theorem Thread.reg_setReg_self (t : Thread) (n : Nat) (w : Word) : (t.setReg n w).reg n = w :=
  Table.get_set_self _ _ _ _

theorem Thread.reg_setReg_ne (t : Thread) {n m : Nat} (w : Word) (h : m ≠ n) : (t.setReg n w).reg m = t.reg m :=
  Table.get_set_ne _ _ _ h

@[simp] theorem Thread.setReg_p (t : Thread) (n : Nat) (w : Word) : (t.setReg n w).p = t.p := rfl
@[simp] theorem Thread.setReg_s (t : Thread) (n : Nat) (w : Word) : (t.setReg n w).s = t.s := rfl
@[simp] theorem Thread.setReg_pc (t : Thread) (n : Nat) (w : Word) : (t.setReg n w).pc = t.pc := rfl
@[simp] theorem Thread.setReg_st (t : Thread) (n : Nat) (w : Word) : (t.setReg n w).st = t.st := rfl
@[simp] theorem Thread.setReg_defs (t : Thread) (n : Nat) (w : Word) : (t.setReg n w).defs = t.defs := rfl
@[simp] theorem Thread.setReg_fx (t : Thread) (n : Nat) (w : Word) : (t.setReg n w).fx = t.fx := rfl

@[simp] theorem Thread.pred_seven (t : Thread) : t.pred 7 = true := rfl

theorem Thread.setPred_v (t : Thread) (n : Nat) (b : Bool) : (t.setPred n b).v = t.v := by
  unfold Thread.setPred; split <;> rfl

theorem Thread.setPred_s (t : Thread) (n : Nat) (b : Bool) : (t.setPred n b).s = t.s := by
  unfold Thread.setPred; split <;> rfl

/-! ## Memory -/

@[simp] theorem Memory.read_write_self (m : Memory) (k : Nat) (b : Byte) : (m.write k b).read k = b :=
  Table.get_set_self _ _ _ _

theorem Memory.read_write_ne (m : Memory) {k j : Nat} (b : Byte) (h : j ≠ k) : (m.write k b).read j = m.read j :=
  Table.get_set_ne _ _ _ h

/-- A write of a byte keeps the canonical form. -/
theorem Memory.wf_write {m : Memory} (k : Nat) (b : Byte) (h : m.wf = true) : (m.write k b).wf = true :=
  Table.wf_set _ _ h

/-- Bytes taken away keep the canonical form. -/
theorem Memory.wf_filter {m : Memory} (q : Host.Cell → Bool) (h : m.wf = true) : Memory.wf (m.filter q) = true :=
  Table.wf_filter _ h

theorem State.memWf_reset : State.reset.MemWf := rfl

theorem State.writeByte_memWf {s : State} (k : Nat) (b : Byte) (h : s.MemWf) : (s.writeByte k b).MemWf := by
  unfold State.writeByte
  split
  · exact h
  · exact Memory.wf_write _ _ h

theorem State.writeBytes_memWf {s : State} (ks : List Nat) (bs : List Byte) (h : s.MemWf) :
    (s.writeBytes ks bs).MemWf := by
  induction ks generalizing s bs with
  | nil => exact h
  | cons k ks ih =>
    cases bs with
    | nil => exact h
    | cons b bs => exact ih bs (State.writeByte_memWf k b h)

theorem State.writePhys_memWf {s : State} (a : Nat) (bs : List Byte) (h : s.MemWf) : (s.writePhys a bs).MemWf :=
  State.writeBytes_memWf _ _ h

/-- What writes of bytes leave alone: everything but memory and poison. -/
theorem State.writeBytes_rest (s : State) (ks : List Nat) (bs : List Byte) :
    ∃ m p, s.writeBytes ks bs = { s with mem := m, poison := p } := by
  induction ks generalizing s bs with
  | nil => exact ⟨s.mem, s.poison, rfl⟩
  | cons k ks ih =>
    cases bs with
    | nil => exact ⟨s.mem, s.poison, rfl⟩
    | cons b bs =>
      obtain ⟨m, p, h⟩ := ih (s.writeByte k b) bs
      refine ⟨m, p, ?_⟩
      simp only [State.writeBytes, h]
      unfold State.writeByte
      split <;> rfl

/-- A byte outside the written keys reads as before. -/
theorem State.writeBytes_read_ne (s : State) (ks : List Nat) (bs : List Byte) {j : Nat} (h : j ∉ ks) :
    (s.writeBytes ks bs).mem.read j = s.mem.read j := by
  induction ks generalizing s bs with
  | nil => rfl
  | cons k ks ih =>
    simp only [List.mem_cons, not_or] at h
    cases bs with
    | nil => rfl
    | cons b bs =>
      simp only [State.writeBytes, ih _ _ h.2]
      unfold State.writeByte
      split
      · rfl
      · exact Memory.read_write_ne _ _ h.1

end Sys2Proof.Machine
end

