-- ==== Sys2Proof/Laws/Issue.lean ====
section
/-!
SUPPORT. What the shared forms of issue answer: one thread, one cohort, and the parts of going on.
-/
namespace Sys2Proof.Machine

/-! ## One thread -/

variable {s : State} {r : TRef} {g : Group} {t : Thread} {i : Instr} {f : Fields}

/-- All that a lane-by-lane instruction does for the one thread that issues it. -/
theorem issueEach_alone (body : TRef → Group → Thread → State → Act) (h : Issues s r g t i f) :
    issueEach i f body s = .next (s.finish r f (body r g t s)) := by
  simp [issueEach, issueThread, h.alone, h.group, h.thread, h.runs, h.ready, h.count, h.room, h.timer, h.decode, h.guard]

theorem issueEach_goesOn {body : TRef → Group → Thread → State → Act} {s' : State} (h : Issues s r g t i f)
    (e : body r g t s = .next s') : issueEach i f body s = .next (s.onward r f s') := by
  rw [issueEach_alone body h, e]; rfl

theorem issueEach_lands {body : TRef → Group → Thread → State → Act} {s' : State} (h : Issues s r g t i f)
    (e : body r g t s = .jump s') : issueEach i f body s = .next (State.landed r f s') := by
  rw [issueEach_alone body h, e]; rfl

theorem issueEach_stops {body : TRef → Group → Thread → State → Act} {e : Stop} (h : Issues s r g t i f)
    (b : body r g t s = .stop e) : issueEach i f body s = .next (s.stopAt r e) := by
  rw [issueEach_alone body h, b]; rfl

/-- A false guard: the thread goes on and nothing else happens (R90). -/
theorem issueEach_skips (body : TRef → Group → Thread → State → Act) (h : Skips s r g t i f) :
    issueEach i f body s = .next (s.onward r f s) := by
  simp [issueEach, issueThread, h.alone, h.group, h.thread, h.runs, h.ready, h.count, h.room, h.timer, h.decode, h.guard,
    State.finish, State.onward]

theorem issueReg_alone {u v : Thread → Thread} (h : Issues s r g t i f) (e : u t = v t) :
    issueReg i f u s = .next (s.onward r f (s.modThread r v)) :=
  issueEach_goesOn h (by rw [State.modThread_congr h.thread e])

theorem issueD_alone {val : Thread → Word} {w : Word} (h : Issues s r g t i f) (e : val t = w) :
    issueD i f val s = .next (s.onward r f (s.modThread r fun u => u.writeD f.d w)) :=
  issueReg_alone h (by rw [e])

theorem issueP_alone {val : Thread → Bool} {b : Bool} (h : Issues s r g t i f) (e : val t = b) :
    issueP i f val s = .next (s.onward r f (s.modThread r fun u => u.writeP f.d b)) :=
  issueReg_alone h (by rw [e])

theorem issueDefer_alone {src : TRef → Group → Thread → State → Except Stop (Dst × Src)} {d : Dst} {v : Src}
    (h : Issues s r g t i f) (e : src r g t s = .ok (d, v)) :
    issueDefer i f src s = .next (s.onward r f (s.defer r d v)) :=
  issueEach_goesOn h (by simp [e, Except.map, Act.of])

theorem issueSampled_alone {n : Nat} {val : Thread → List Word} {l : List Word} (h : Issues s r g t i f) (e : val t = l) :
    issueSampled i f n val s = .next (s.onward r f (s.defer r (dstOf f.d n) (.sampled l))) :=
  issueDefer_alone h (by rw [e])

/-- A shadowed result of a sound lane (R130). -/
theorem issueShadowed_alone {ty : Ty} {val : Thread → Word} {w : Word} (h : Issues s r g t i f) (e : val t = w)
    (sound : SoundLane s g r) :
    issueShadowed i f ty val s = .next (s.onward r f (s.modThread r fun u => u.writeD f.d w)) :=
  issueEach_goesOn h (by
    have none_ : ((s.core g.core).flaws.find? fun p => p.1 == physicalLane (s.core g.core).lremap (r.tid % 64)) = none := by
      rw [List.find?_eq_none]
      intro p hp
      simpa using sound p hp
    simp only [none_]
    rw [State.modThread_congr h.thread (h := fun u => u.writeD f.d w) (by rw [e])])

theorem issueF_alone {op : Nat → Num → Num → Num → Num} (h : Issues s r g t i f)
    (sound : SoundLane s g r) :
    issueF i f op s = .next (s.onward r f (s.modThread r fun u =>
      u.writeD f.d (perValue f.t f.m.toNat (op f.m.toNat) (t.oldD f) (t.opA f) (t.opB f) (t.opC f)))) :=
  issueShadowed_alone h rfl sound

/-- The first thread of an instance acts for it (R329). -/
theorem issueOnce_act {body : TRef → Group → Thread → State → Once} {s' : State} {a : InstAct} (h : Issues s r g t i f)
    (n : s.findInst r g t.pc = none) (e : body r g t s = .act s' a) :
    issueOnce i f body s = .next (s.onward r f (s'.joinInst r g t a none)) :=
  issueEach_goesOn h (by simp [n, e])

theorem issueOnce_stops {body : TRef → Group → Thread → State → Once} {e : Stop} (h : Issues s r g t i f)
    (n : s.findInst r g t.pc = none) (b : body r g t s = .stop e) :
    issueOnce i f body s = .next (s.stopAt r e) :=
  issueEach_stops h (by simp [n, b])

/-- The thread stays at the instruction. -/
theorem issueEach_waits {body : TRef → Group → Thread → State → Act} {s' : State} (h : Issues s r g t i f)
    (b : body r g t s = .wait s') : issueEach i f body s = .next s' := by
  rw [issueEach_alone body h, b]; rfl

theorem issueOnce_waits {body : TRef → Group → Thread → State → Once} {s' : State} (h : Issues s r g t i f)
    (n : s.findInst r g t.pc = none) (b : body r g t s = .wait s') : issueOnce i f body s = .next s' :=
  issueEach_waits h (by simp [n, b])

/-- A later thread of an instance that has acted only gives it its place. -/
theorem issueOnce_later {body : TRef → Group → Thread → State → Once} (h : Issues s r g t i f)
    (n : (s.findInst r g t.pc).isSome = true) : issueOnce i f body s = .next (s.onward r f (s.lowerInst r g t)) :=
  issueEach_goesOn h (by simp [n])

/-! ## One cohort -/

theorem eraseDups_const {α : Type} [BEq α] [LawfulBEq α] {a : α} {l : List α} (n : l ≠ []) (h : ∀ x ∈ l, x = a) :
    l.eraseDups = [a] := by
  cases l with
  | nil => exact absurd rfl n
  | cons b l =>
    have hb : b = a := h b (by simp)
    subst hb
    have : List.filter (fun x => !x == b) l = [] := by
      rw [List.filter_eq_nil_iff]
      intro x hx
      simp [h x (by simp [hx])]
    simp [List.eraseDups_cons, this]

/-- All that a cohort-synchronous instruction does for the one cohort that issues it. -/
theorem issueCohorts_answers {gn coh : Nat} {l : List (TRef × Thread)} {a : TRef × Thread} {act : List (TRef × Thread)}
    (body : Group → List (TRef × Thread) → State → Act) (h : CohortIssues s gn coh g l (a :: act) i f) :
    issueCohorts i f body s = .next (match body g (a :: act) s with
      | .next s' => State.onwardAll l f s'
      | .jump s' | .wait s' => s'
      | .stop e => s.stopAt a.1 e
      | .trapAfter t => s.trap gn [((l.map (·.1)).headD a.1).tid] t) := by
  obtain ⟨⟨r0, t0⟩, rest, hl⟩ := List.exists_cons_of_ne_nil h.nonempty
  have h0 : (r0, t0) ∈ l := by simp [hl]
  have hc : cohortsOf s.issue.threads = [(gn, coh)] := by
    refine eraseDups_const (by simp [h.alone, hl]) ?_
    intro x hx
    simp only [h.alone, List.map_map, List.mem_map] at hx
    obtain ⟨p, hp, rfl⟩ := hx
    simp [(h.mine p hp).1, (h.mine p hp).2]
  have hf : s.issue.threads.filter (fun r => r.grp == gn && r.tid / 64 == coh) = l.map (·.1) := by
    rw [h.alone, List.filter_eq_self]
    intro x hx
    obtain ⟨p, hp, rfl⟩ := List.mem_map.mp hx
    simp [(h.mine p hp).1, (h.mine p hp).2]
  have hm : (l.map (·.1)).filterMap (fun r => (s.thread? r).map fun t => (r, t)) = l := by
    have : ∀ (k : List (TRef × Thread)), (∀ p ∈ k, s.thread? p.1 = some p.2) →
        (k.map (·.1)).filterMap (fun r => (s.thread? r).map fun t => (r, t)) = k := by
      intro k hk
      induction k with
      | nil => rfl
      | cons p k ih => simp [hk p (by simp), ih (fun q hq => hk q (by simp [hq]))]
    exact this l h.thread
  have ha : l.all (fun p => p.2.st == .ready && p.2.countOk i) = true := by
    simp only [List.all_eq_true, Bool.and_eq_true, beq_iff_eq]
    exact fun p hp => ⟨(h.ready p hp).1, (h.ready p hp).2.1⟩
  have ht : (l.any fun p => s.timerDue p.2) = false := by
    simp only [List.any_eq_false, Bool.not_eq_true]
    exact fun p hp => (h.ready p hp).2.2
  have hact : (l.filter fun p => p.2.guard f.pg) = a :: act := h.active.symm
  simp only [issueCohorts, hc, List.foldl_cons, List.foldl_nil, issueCohort, h.group, hf, hm]
  have hr : l.map (·.1) = r0 :: rest.map (·.1) := by simp [hl]
  simp only [hr]
  rw [if_neg (by simp [h.runs, ha, h.room]), if_neg (by simp [ht])]
  simp only [h.decode _ h0, hact]
  rw [if_neg (by simp)]
  cases body g (a :: act) s <;> simp [State.onwardAll, hl, List.foldl_map, State.onward]

theorem issueCohorts_alone {gn coh : Nat} {l act : List (TRef × Thread)}
    (body : Group → List (TRef × Thread) → State → Act) {s' : State} (h : CohortIssues s gn coh g l act i f)
    (ne : act ≠ []) (e : body g act s = .next s') :
    issueCohorts i f body s = .next (State.onwardAll l f s') := by
  obtain ⟨a, k, rfl⟩ := List.exists_cons_of_ne_nil ne
  rw [issueCohorts_answers body h, e]

theorem issueCohorts_stops {gn coh : Nat} {l act : List (TRef × Thread)} {a : TRef × Thread}
    (body : Group → List (TRef × Thread) → State → Act) {e : Stop} (h : CohortIssues s gn coh g l (a :: act) i f)
    (b : body g (a :: act) s = .stop e) : issueCohorts i f body s = .next (s.stopAt a.1 e) := by
  rw [issueCohorts_answers body h, b]

theorem issueCohorts_waits {gn coh : Nat} {l act : List (TRef × Thread)} {a : TRef × Thread}
    (body : Group → List (TRef × Thread) → State → Act) {s' : State} (h : CohortIssues s gn coh g l (a :: act) i f)
    (b : body g (a :: act) s = .wait s') : issueCohorts i f body s = .next s' := by
  rw [issueCohorts_answers body h, b]

theorem issueLanes_alone {gn coh : Nat} {l act : List (TRef × Thread)}
    {res : Nat → Lanes → Nat → Thread → Option (Dst × List Word)} (h : CohortIssues s gn coh g l act i f) (ne : act ≠ []) :
    issueLanes i f res s = .next (State.onwardAll l f (s.deferEach act fun n t => res (widthOf f) (lanesOf act) n t)) :=
  issueCohorts_alone _ h ne rfl

/-- A cohort of one thread. -/
theorem issueCohorts_one (body : Group → List (TRef × Thread) → State → Act) (h : s.issue.threads = [r]) :
    issueCohorts i f body s = .next (issueCohort i f body s (r.grp, r.tid / 64)) := by
  have : [(r.grp, r.tid / 64)].eraseDups = [(r.grp, r.tid / 64)] := eraseDups_const (by simp) (by simp)
  simp [issueCohorts, cohortsOf, h, this]

/-- A false guard in a cohort of one thread (R90). -/
theorem issueCohorts_skips (body : Group → List (TRef × Thread) → State → Act) (h : Skips s r g t i f) :
    issueCohorts i f body s = .next (s.onward r f s) := by
  rw [issueCohorts_one body h.alone]
  simp [issueCohort, h.alone, h.group, h.thread, h.runs, h.ready, h.count, h.room, h.timer, h.decode, h.guard,
    State.onward]

/-! ## Going on changes one thread, and nothing outside it -/

@[simp] theorem State.advance_clk (s : State) (r : TRef) (n : Nat) : (s.advance r n).clk = s.clk := by
  unfold State.advance; split <;> rfl
@[simp] theorem State.mark_clk (s : State) (r : TRef) (f : Fields) : (s.mark r f).clk = s.clk := by
  unfold State.mark; split <;> rfl
@[simp] theorem State.onward_clk (s : State) (r : TRef) (f : Fields) (s' : State) : (s.onward r f s').clk = s'.clk := by
  simp [State.onward, State.issued]
@[simp] theorem State.advance_mem (s : State) (r : TRef) (n : Nat) : (s.advance r n).mem = s.mem := by
  unfold State.advance; split <;> rfl
@[simp] theorem State.mark_mem (s : State) (r : TRef) (f : Fields) : (s.mark r f).mem = s.mem := by
  unfold State.mark; split <;> rfl
@[simp] theorem State.onward_mem (s : State) (r : TRef) (f : Fields) (s' : State) : (s.onward r f s').mem = s'.mem := by
  simp [State.onward, State.issued]
@[simp] theorem State.advance_poison (s : State) (r : TRef) (n : Nat) : (s.advance r n).poison = s.poison := by
  unfold State.advance; split <;> rfl
@[simp] theorem State.mark_poison (s : State) (r : TRef) (f : Fields) : (s.mark r f).poison = s.poison := by
  unfold State.mark; split <;> rfl
@[simp] theorem State.onward_poison (s : State) (r : TRef) (f : Fields) (s' : State) : (s.onward r f s').poison = s'.poison := by
  simp [State.onward, State.issued]
@[simp] theorem State.advance_zeroPend (s : State) (r : TRef) (n : Nat) : (s.advance r n).zeroPend = s.zeroPend := by
  unfold State.advance; split <;> rfl
@[simp] theorem State.mark_zeroPend (s : State) (r : TRef) (f : Fields) : (s.mark r f).zeroPend = s.zeroPend := by
  unfold State.mark; split <;> rfl
@[simp] theorem State.onward_zeroPend (s : State) (r : TRef) (f : Fields) (s' : State) : (s.onward r f s').zeroPend = s'.zeroPend := by
  simp [State.onward, State.issued]
@[simp] theorem State.advance_free (s : State) (r : TRef) (n : Nat) : (s.advance r n).free = s.free := by
  unfold State.advance; split <;> rfl
@[simp] theorem State.mark_free (s : State) (r : TRef) (f : Fields) : (s.mark r f).free = s.free := by
  unfold State.mark; split <;> rfl
@[simp] theorem State.onward_free (s : State) (r : TRef) (f : Fields) (s' : State) : (s.onward r f s').free = s'.free := by
  simp [State.onward, State.issued]
@[simp] theorem State.advance_agenda (s : State) (r : TRef) (n : Nat) : (s.advance r n).agenda = s.agenda := by
  unfold State.advance; split <;> rfl
@[simp] theorem State.mark_agenda (s : State) (r : TRef) (f : Fields) : (s.mark r f).agenda = s.agenda := by
  unfold State.mark; split <;> rfl
@[simp] theorem State.onward_agenda (s : State) (r : TRef) (f : Fields) (s' : State) : (s.onward r f s').agenda = s'.agenda := by
  simp [State.onward, State.issued]
@[simp] theorem State.advance_issue (s : State) (r : TRef) (n : Nat) : (s.advance r n).issue = s.issue := by
  unfold State.advance; split <;> rfl
@[simp] theorem State.mark_issue (s : State) (r : TRef) (f : Fields) : (s.mark r f).issue = s.issue := by
  unfold State.mark; split <;> rfl
@[simp] theorem State.onward_issue (s : State) (r : TRef) (f : Fields) (s' : State) : (s.onward r f s').issue = s'.issue := by
  simp [State.onward, State.issued]
@[simp] theorem State.advance_ready (s : State) (r : TRef) (n : Nat) : (s.advance r n).ready = s.ready := by
  unfold State.advance; split <;> rfl
@[simp] theorem State.mark_ready (s : State) (r : TRef) (f : Fields) : (s.mark r f).ready = s.ready := by
  unfold State.mark; split <;> rfl
@[simp] theorem State.onward_ready (s : State) (r : TRef) (f : Fields) (s' : State) : (s.onward r f s').ready = s'.ready := by
  simp [State.onward, State.issued]
@[simp] theorem State.advance_fw (s : State) (r : TRef) (n : Nat) : (s.advance r n).fw = s.fw := by
  unfold State.advance; split <;> rfl
@[simp] theorem State.mark_fw (s : State) (r : TRef) (f : Fields) : (s.mark r f).fw = s.fw := by
  unfold State.mark; split <;> rfl
@[simp] theorem State.onward_fw (s : State) (r : TRef) (f : Fields) (s' : State) : (s.onward r f s').fw = s'.fw := by
  simp [State.onward, State.issued]
@[simp] theorem State.advance_queues (s : State) (r : TRef) (n : Nat) : (s.advance r n).queues = s.queues := by
  unfold State.advance; split <;> rfl
@[simp] theorem State.mark_queues (s : State) (r : TRef) (f : Fields) : (s.mark r f).queues = s.queues := by
  unfold State.mark; split <;> rfl
@[simp] theorem State.onward_queues (s : State) (r : TRef) (f : Fields) (s' : State) : (s.onward r f s').queues = s'.queues := by
  simp [State.onward, State.issued]
@[simp] theorem State.advance_launches (s : State) (r : TRef) (n : Nat) : (s.advance r n).launches = s.launches := by
  unfold State.advance; split <;> rfl
@[simp] theorem State.mark_launches (s : State) (r : TRef) (f : Fields) : (s.mark r f).launches = s.launches := by
  unfold State.mark; split <;> rfl
@[simp] theorem State.onward_launches (s : State) (r : TRef) (f : Fields) (s' : State) : (s.onward r f s').launches = s'.launches := by
  simp [State.onward, State.issued]
@[simp] theorem State.advance_cores (s : State) (r : TRef) (n : Nat) : (s.advance r n).cores = s.cores := by
  unfold State.advance; split <;> rfl
@[simp] theorem State.mark_cores (s : State) (r : TRef) (f : Fields) : (s.mark r f).cores = s.cores := by
  unfold State.mark; split <;> rfl
@[simp] theorem State.onward_cores (s : State) (r : TRef) (f : Fields) (s' : State) : (s.onward r f s').cores = s'.cores := by
  simp [State.onward, State.issued]
@[simp] theorem State.advance_quads (s : State) (r : TRef) (n : Nat) : (s.advance r n).quads = s.quads := by
  unfold State.advance; split <;> rfl
@[simp] theorem State.mark_quads (s : State) (r : TRef) (f : Fields) : (s.mark r f).quads = s.quads := by
  unfold State.mark; split <;> rfl
@[simp] theorem State.onward_quads (s : State) (r : TRef) (f : Fields) (s' : State) : (s.onward r f s').quads = s'.quads := by
  simp [State.onward, State.issued]
@[simp] theorem State.advance_dieQ (s : State) (r : TRef) (n : Nat) : (s.advance r n).dieQ = s.dieQ := by
  unfold State.advance; split <;> rfl
@[simp] theorem State.mark_dieQ (s : State) (r : TRef) (f : Fields) : (s.mark r f).dieQ = s.dieQ := by
  unfold State.mark; split <;> rfl
@[simp] theorem State.onward_dieQ (s : State) (r : TRef) (f : Fields) (s' : State) : (s.onward r f s').dieQ = s'.dieQ := by
  simp [State.onward, State.issued]
@[simp] theorem State.advance_spill (s : State) (r : TRef) (n : Nat) : (s.advance r n).spill = s.spill := by
  unfold State.advance; split <;> rfl
@[simp] theorem State.mark_spill (s : State) (r : TRef) (f : Fields) : (s.mark r f).spill = s.spill := by
  unfold State.mark; split <;> rfl
@[simp] theorem State.onward_spill (s : State) (r : TRef) (f : Fields) (s' : State) : (s.onward r f s').spill = s'.spill := by
  simp [State.onward, State.issued]
@[simp] theorem State.advance_savedQ (s : State) (r : TRef) (n : Nat) : (s.advance r n).savedQ = s.savedQ := by
  unfold State.advance; split <;> rfl
@[simp] theorem State.mark_savedQ (s : State) (r : TRef) (f : Fields) : (s.mark r f).savedQ = s.savedQ := by
  unfold State.mark; split <;> rfl
@[simp] theorem State.onward_savedQ (s : State) (r : TRef) (f : Fields) (s' : State) : (s.onward r f s').savedQ = s'.savedQ := by
  simp [State.onward, State.issued]
@[simp] theorem State.advance_ticket (s : State) (r : TRef) (n : Nat) : (s.advance r n).ticket = s.ticket := by
  unfold State.advance; split <;> rfl
@[simp] theorem State.mark_ticket (s : State) (r : TRef) (f : Fields) : (s.mark r f).ticket = s.ticket := by
  unfold State.mark; split <;> rfl
@[simp] theorem State.onward_ticket (s : State) (r : TRef) (f : Fields) (s' : State) : (s.onward r f s').ticket = s'.ticket := by
  simp [State.onward, State.issued]
@[simp] theorem State.advance_lastQ (s : State) (r : TRef) (n : Nat) : (s.advance r n).lastQ = s.lastQ := by
  unfold State.advance; split <;> rfl
@[simp] theorem State.mark_lastQ (s : State) (r : TRef) (f : Fields) : (s.mark r f).lastQ = s.lastQ := by
  unfold State.mark; split <;> rfl
@[simp] theorem State.onward_lastQ (s : State) (r : TRef) (f : Fields) (s' : State) : (s.onward r f s').lastQ = s'.lastQ := by
  simp [State.onward, State.issued]
@[simp] theorem State.advance_copies (s : State) (r : TRef) (n : Nat) : (s.advance r n).copies = s.copies := by
  unfold State.advance; split <;> rfl
@[simp] theorem State.mark_copies (s : State) (r : TRef) (f : Fields) : (s.mark r f).copies = s.copies := by
  unfold State.mark; split <;> rfl
@[simp] theorem State.onward_copies (s : State) (r : TRef) (f : Fields) (s' : State) : (s.onward r f s').copies = s'.copies := by
  simp [State.onward, State.issued]
@[simp] theorem State.advance_sops (s : State) (r : TRef) (n : Nat) : (s.advance r n).sops = s.sops := by
  unfold State.advance; split <;> rfl
@[simp] theorem State.mark_sops (s : State) (r : TRef) (f : Fields) : (s.mark r f).sops = s.sops := by
  unfold State.mark; split <;> rfl
@[simp] theorem State.onward_sops (s : State) (r : TRef) (f : Fields) (s' : State) : (s.onward r f s').sops = s'.sops := by
  simp [State.onward, State.issued]
@[simp] theorem State.advance_tiles (s : State) (r : TRef) (n : Nat) : (s.advance r n).tiles = s.tiles := by
  unfold State.advance; split <;> rfl
@[simp] theorem State.mark_tiles (s : State) (r : TRef) (f : Fields) : (s.mark r f).tiles = s.tiles := by
  unfold State.mark; split <;> rfl
@[simp] theorem State.onward_tiles (s : State) (r : TRef) (f : Fields) (s' : State) : (s.onward r f s').tiles = s'.tiles := by
  simp [State.onward, State.issued]
@[simp] theorem State.advance_basins (s : State) (r : TRef) (n : Nat) : (s.advance r n).basins = s.basins := by
  unfold State.advance; split <;> rfl
@[simp] theorem State.mark_basins (s : State) (r : TRef) (f : Fields) : (s.mark r f).basins = s.basins := by
  unfold State.mark; split <;> rfl
@[simp] theorem State.onward_basins (s : State) (r : TRef) (f : Fields) (s' : State) : (s.onward r f s').basins = s'.basins := by
  simp [State.onward, State.issued]
@[simp] theorem State.advance_ballocs (s : State) (r : TRef) (n : Nat) : (s.advance r n).ballocs = s.ballocs := by
  unfold State.advance; split <;> rfl
@[simp] theorem State.mark_ballocs (s : State) (r : TRef) (f : Fields) : (s.mark r f).ballocs = s.ballocs := by
  unfold State.mark; split <;> rfl
@[simp] theorem State.onward_ballocs (s : State) (r : TRef) (f : Fields) (s' : State) : (s.onward r f s').ballocs = s'.ballocs := by
  simp [State.onward, State.issued]
@[simp] theorem State.advance_recs (s : State) (r : TRef) (n : Nat) : (s.advance r n).recs = s.recs := by
  unfold State.advance; split <;> rfl
@[simp] theorem State.mark_recs (s : State) (r : TRef) (f : Fields) : (s.mark r f).recs = s.recs := by
  unfold State.mark; split <;> rfl
@[simp] theorem State.onward_recs (s : State) (r : TRef) (f : Fields) (s' : State) : (s.onward r f s').recs = s'.recs := by
  simp [State.onward, State.issued]
@[simp] theorem State.advance_taskQ (s : State) (r : TRef) (n : Nat) : (s.advance r n).taskQ = s.taskQ := by
  unfold State.advance; split <;> rfl
@[simp] theorem State.mark_taskQ (s : State) (r : TRef) (f : Fields) : (s.mark r f).taskQ = s.taskQ := by
  unfold State.mark; split <;> rfl
@[simp] theorem State.onward_taskQ (s : State) (r : TRef) (f : Fields) (s' : State) : (s.onward r f s').taskQ = s'.taskQ := by
  simp [State.onward, State.issued]
@[simp] theorem State.advance_taskWait (s : State) (r : TRef) (n : Nat) : (s.advance r n).taskWait = s.taskWait := by
  unfold State.advance; split <;> rfl
@[simp] theorem State.mark_taskWait (s : State) (r : TRef) (f : Fields) : (s.mark r f).taskWait = s.taskWait := by
  unfold State.mark; split <;> rfl
@[simp] theorem State.onward_taskWait (s : State) (r : TRef) (f : Fields) (s' : State) : (s.onward r f s').taskWait = s'.taskWait := by
  simp [State.onward, State.issued]
@[simp] theorem State.advance_arrays (s : State) (r : TRef) (n : Nat) : (s.advance r n).arrays = s.arrays := by
  unfold State.advance; split <;> rfl
@[simp] theorem State.mark_arrays (s : State) (r : TRef) (f : Fields) : (s.mark r f).arrays = s.arrays := by
  unfold State.mark; split <;> rfl
@[simp] theorem State.onward_arrays (s : State) (r : TRef) (f : Fields) (s' : State) : (s.onward r f s').arrays = s'.arrays := by
  simp [State.onward, State.issued]
@[simp] theorem State.advance_images (s : State) (r : TRef) (n : Nat) : (s.advance r n).images = s.images := by
  unfold State.advance; split <;> rfl
@[simp] theorem State.mark_images (s : State) (r : TRef) (f : Fields) : (s.mark r f).images = s.images := by
  unfold State.mark; split <;> rfl
@[simp] theorem State.onward_images (s : State) (r : TRef) (f : Fields) (s' : State) : (s.onward r f s').images = s'.images := by
  simp [State.onward, State.issued]
@[simp] theorem State.advance_remotes (s : State) (r : TRef) (n : Nat) : (s.advance r n).remotes = s.remotes := by
  unfold State.advance; split <;> rfl
@[simp] theorem State.mark_remotes (s : State) (r : TRef) (f : Fields) : (s.mark r f).remotes = s.remotes := by
  unfold State.mark; split <;> rfl
@[simp] theorem State.onward_remotes (s : State) (r : TRef) (f : Fields) (s' : State) : (s.onward r f s').remotes = s'.remotes := by
  simp [State.onward, State.issued]
@[simp] theorem State.advance_colls (s : State) (r : TRef) (n : Nat) : (s.advance r n).colls = s.colls := by
  unfold State.advance; split <;> rfl
@[simp] theorem State.mark_colls (s : State) (r : TRef) (f : Fields) : (s.mark r f).colls = s.colls := by
  unfold State.mark; split <;> rfl
@[simp] theorem State.onward_colls (s : State) (r : TRef) (f : Fields) (s' : State) : (s.onward r f s').colls = s'.colls := by
  simp [State.onward, State.issued]
@[simp] theorem State.advance_misses (s : State) (r : TRef) (n : Nat) : (s.advance r n).misses = s.misses := by
  unfold State.advance; split <;> rfl
@[simp] theorem State.mark_misses (s : State) (r : TRef) (f : Fields) : (s.mark r f).misses = s.misses := by
  unfold State.mark; split <;> rfl
@[simp] theorem State.onward_misses (s : State) (r : TRef) (f : Fields) (s' : State) : (s.onward r f s').misses = s'.misses := by
  simp [State.onward, State.issued]
@[simp] theorem State.advance_stale (s : State) (r : TRef) (n : Nat) : (s.advance r n).stale = s.stale := by
  unfold State.advance; split <;> rfl
@[simp] theorem State.mark_stale (s : State) (r : TRef) (f : Fields) : (s.mark r f).stale = s.stale := by
  unfold State.mark; split <;> rfl
@[simp] theorem State.onward_stale (s : State) (r : TRef) (f : Fields) (s' : State) : (s.onward r f s').stale = s'.stale := by
  simp [State.onward, State.issued]
@[simp] theorem State.advance_packets (s : State) (r : TRef) (n : Nat) : (s.advance r n).packets = s.packets := by
  unfold State.advance; split <;> rfl
@[simp] theorem State.mark_packets (s : State) (r : TRef) (f : Fields) : (s.mark r f).packets = s.packets := by
  unfold State.mark; split <;> rfl
@[simp] theorem State.onward_packets (s : State) (r : TRef) (f : Fields) (s' : State) : (s.onward r f s').packets = s'.packets := by
  simp [State.onward, State.issued]

/-- The part of a thread that going on leaves alone. -/
def Thread.Kept (t u : Thread) : Prop :=
  u.v = t.v ∧ u.p = t.p ∧ u.s = t.s ∧ u.dstep = t.dstep ∧ u.xstep = t.xstep ∧ u.vtime = t.vtime ∧ u.since = t.since ∧
  u.tmr = t.tmr ∧ u.clkl = t.clkl ∧ u.defs = t.defs ∧ u.fx = t.fx ∧ u.takes = t.takes ∧ u.saved = t.saved ∧
  u.here = t.here ∧ u.reconv = t.reconv

theorem State.thread?_advance_ne (s : State) {r q : TRef} (n : Nat) (h : q ≠ r) :
    (s.advance r n).thread? q = s.thread? q := by
  unfold State.advance
  split
  · exact State.thread?_modThread_ne _ _ h
  · rfl

theorem State.thread?_mark_ne (s : State) {r q : TRef} (f : Fields) (h : q ≠ r) : (s.mark r f).thread? q = s.thread? q := by
  unfold State.mark
  split
  · simp [State.arriveMarker, State.arrive, State.thread?_modThread_ne _ _ h]
  · rfl

/-- Going on leaves every other thread as it is. -/
theorem State.thread?_onward_ne (s : State) {r q : TRef} (f : Fields) (s' : State) (h : q ≠ r) :
    (s.onward r f s').thread? q = s'.thread? q := by
  simp [State.onward, State.issued, State.thread?_modThread_ne _ _ h, State.thread?_mark_ne _ _ h,
    State.thread?_advance_ne _ _ h]

theorem State.group?_of_thread? {s : State} {r : TRef} {t : Thread} (h : s.thread? r = some t) :
    ∃ g, s.group? r.grp = some g := by
  unfold State.thread? at h
  cases hg : s.group? r.grp with
  | none => simp [hg] at h
  | some g => exact ⟨g, rfl⟩

/-- What going on makes of the thread: its PC is past the instruction, and what it holds stays. -/
theorem State.thread?_onward_self (s : State) {r : TRef} (f : Fields) {s' : State} {u : Thread}
    (h : s'.thread? r = some u) :
    ∃ w, (s.onward r f s').thread? r = some w ∧ u.Kept w ∧ w.pc = u.pc + BitVec.ofNat 32 s.issue.len := by
  obtain ⟨g, hg⟩ := State.group?_of_thread? h
  have ha : ∃ p, (s'.advance r s.issue.len).thread? r =
      some { u with pc := u.pc + BitVec.ofNat 32 s.issue.len, fall := p } := by
    unfold State.advance
    simp only [hg, h]
    exact ⟨_, by rw [State.thread?_modThread_self, h]; rfl⟩
  obtain ⟨p, ha⟩ := ha
  simp only [State.onward, State.issued, State.thread?_modThread_self]
  unfold State.mark
  split
  · simp only [State.arriveMarker, State.arrive, State.thread?_bump, State.thread?_modThread_self, ha, Option.map_some]
    refine ⟨_, rfl, ?_, ?_⟩
    · split <;> simp [Thread.Kept]
    · split <;> rfl
  · rw [ha]
    exact ⟨_, rfl, by simp [Thread.Kept], rfl⟩

end Sys2Proof.Machine
end

