-- ==== Sys2Proof/Laws/Memory.lean ====
section
/-!
SUPPORT. Every operation that changes memory keeps its canonical form: delivery to a scratchpad, the writes of a commit
event, a moved frame and an allocated one, what lands in a save area, and a page that is brought in.
Which places are left when frames are taken out of others.
-/
namespace Sys2Proof.Machine

theorem State.landByte_memWf {s : State} (since k : Nat) (b : Byte) (h : s.MemWf) : (s.landByte since k b).MemWf := by
  unfold State.landByte
  split
  · split
    · exact h
    · exact State.writeByte_memWf _ _ h
  · exact State.writeByte_memWf _ _ h

theorem State.landBytes_memWf {s : State} (since : Nat) (ks : List Nat) (bs : List Byte) (h : s.MemWf) :
    (s.landBytes since ks bs).MemWf := by
  induction ks generalizing s bs with
  | nil => exact h
  | cons k ks ih =>
    cases bs with
    | nil => exact h
    | cons b bs => exact ih bs (State.landByte_memWf since k b h)

/-- Where no commit has written the byte since the operation began, a landing is a plain write (R13). -/
theorem State.landByte_of_none {s : State} (since k : Nat) (b : Byte) (h : s.raced.find? k = none) :
    s.landByte since k b = s.writeByte k b := by simp only [State.landByte, h]

theorem State.landScratch_memWf {s : State} (g off : Nat) (bs : List Byte) (since : Nat) (h : s.MemWf) :
    (s.landScratch g off bs since).MemWf := by
  unfold State.landScratch
  split
  · exact h
  · split
    · exact State.landBytes_memWf _ _ _ h
    · simp only [State.MemWf, State.modGroup_mem]
      split
      · exact State.writePhys_memWf _ _ h
      · exact h

/-- A fold of operations that keep the form keeps it. -/
theorem State.foldl_memWf {α : Type} (op : State → α → State) (keeps : ∀ s a, s.MemWf → (op s a).MemWf) (l : List α)
    {s : State} (h : s.MemWf) : (l.foldl op s).MemWf := by
  induction l generalizing s with
  | nil => exact h
  | cons a l ih => exact ih (keeps s a h)

theorem Memory.wf_foldl_write (at_ : Host.Cell → Nat) (l : List Host.Cell) {m : Memory} (h : m.wf = true) :
    Memory.wf (l.foldl (fun (m : Memory) (c : Nat × Byte) => m.write (at_ c) c.2) m) = true := by
  induction l generalizing m with
  | nil => exact h
  | cons c l ih => exact ih (Memory.wf_write _ _ h)

theorem State.copyFrame_memWf {s : State} (src dst len : Nat) (h : s.MemWf) : (s.copyFrame src dst len).MemWf :=
  Memory.wf_foldl_write _ _ (Memory.wf_filter _ h)

theorem State.moveFrame_memWf {s : State} (l n : Leaf) (h : s.MemWf) : (s.moveFrame l n).MemWf := by
  unfold State.moveFrame
  split
  · exact h
  · split
    · exact State.writeBytes_memWf _ _ h
    · exact State.copyFrame_memWf _ _ _ h

theorem State.resultMany_mem (g : Nat) (l : List (Nat × Nat × Word)) (s : State) :
    (l.foldl (fun (s : State) (r : Nat × Nat × Word) => s.result ⟨g, r.1⟩ r.2.1 (.vals [r.2.2])) s).mem = s.mem := by
  induction l generalizing s with
  | nil => rfl
  | cons a l ih => rw [List.foldl_cons, ih]; rfl

/-! ## Deliveries to a group that is switched out (R272) -/

theorem State.saveEngines_memWf {s : State} (x : Group) (off : Nat) (bs : List Byte) (h : s.MemWf) :
    (s.saveEngines x off bs).MemWf := by
  unfold State.saveEngines
  split
  · split
    · exact h
    · exact State.writePhys_memWf _ _ h
  · exact h

theorem State.landCtr_memWf {s : State} (g c : Nat) (f : Ctr → Ctr) (h : s.MemWf) : (s.landCtr g c f).MemWf := by
  unfold State.landCtr
  dsimp only
  split
  · exact h
  · split
    · exact h
    · exact State.saveEngines_memWf _ _ _ h

theorem State.countIn_memWf {s : State} (g : Nat) (c : Option Nat) (n : Nat) (lost : Bool) (h : s.MemWf) :
    (s.countIn g c n lost).MemWf := by
  cases c with
  | none => exact h
  | some c => exact State.landCtr_memWf _ _ _ h

theorem State.outDone_memWf {s : State} (g : Nat) (c : Option Nat) (h : s.MemWf) : (s.outDone g c).MemWf := by
  cases c with
  | none => exact h
  | some c => exact State.landCtr_memWf _ _ _ h

theorem State.landRing_memWf {s : State} (g r : Nat) (f : Ring → Ring) (h : s.MemWf) : (s.landRing g r f).MemWf := by
  unfold State.landRing
  dsimp only
  split
  · exact h
  · exact State.saveEngines_memWf _ _ _ h

/-- A group on its core has no save area to keep up. -/
theorem State.saveEngines_of_resident {s : State} {x : Group} (off : Nat) (bs : List Byte) (h : x.resident = true) :
    s.saveEngines x off bs = s := by
  unfold State.saveEngines
  split
  · rw [if_pos h]
  · rfl

/-! ## Pages that are brought in (R250, R425) -/

theorem State.makeValid_memWf {s : State} (at_ : Nat) (leaf : DWord) (h : s.MemWf) : (s.makeValid at_ leaf).MemWf :=
  State.writePhys_memWf _ _ h

/-- A page that is brought in had an entry with V = 0 that the firmware holds a leaf for, and its leaf stands on memory that is
ready; nothing else is brought in. -/
theorem State.bringIn_cases (s : State) (asid page : Nat) :
    s.bringIn asid page = s ∨ ∃ lv at_ leaf, s.walkAsid asid (page * 2 ^ 16) = .invalid lv at_ ∧ s.absentLeaf at_ = some leaf ∧
      (s.makeValid at_ leaf).mapsReady s.mapped = true ∧ s.bringIn asid page = s.makeValid at_ leaf := by
  unfold State.bringIn
  split
  · rename_i lv at_ hw
    split
    · rename_i leaf hl
      split
      · rename_i hr
        exact .inr ⟨lv, at_, leaf, hw, hl, hr, rfl⟩
      · exact .inl rfl
    · exact .inl rfl
  · exact .inl rfl

theorem State.bringIn_memWf {s : State} (asid page : Nat) (h : s.MemWf) : (s.bringIn asid page).MemWf := by
  obtain he | ⟨_, at_, leaf, -, -, -, he⟩ := s.bringIn_cases asid page <;> rw [he]
  · exact h
  · exact State.makeValid_memWf _ _ h

/-! ## Frames -/

/-- A run covers a place. -/
abbrev Covers (r : Nat × Nat) (k : Nat) : Prop := r.1 ≤ k ∧ k < r.1 + r.2

/-- Cutting a run leaves what the other does not cover. -/
theorem cutRun_covers (q p : Nat × Nat) (k : Nat) : (∃ r ∈ cutRun q p, Covers r k) ↔ Covers p k ∧ ¬ Covers q k := by
  simp only [cutRun, Covers, List.mem_filter, List.mem_cons, List.not_mem_nil, or_false, bne_iff_ne, ne_eq]
  constructor
  · rintro ⟨r, ⟨rfl | rfl, h⟩, hk⟩ <;> simp only at h hk <;> omega
  · rintro ⟨hp, hq⟩
    by_cases hk : k < q.1
    · exact ⟨_, ⟨.inl rfl, by simp only; omega⟩, by simp only; omega⟩
    · exact ⟨_, ⟨.inr rfl, by simp only; omega⟩, by simp only; omega⟩

/-- What lies in none of some runs (R45): the places that the first cover and the others do not. -/
theorem outside_covers (ps qs : List (Nat × Nat)) (k : Nat) :
    (∃ r ∈ outside ps qs, Covers r k) ↔ (∃ r ∈ ps, Covers r k) ∧ ∀ q ∈ qs, ¬ Covers q k := by
  induction qs generalizing ps with
  | nil => simp [outside]
  | cons q qs ih =>
    have step : (∃ r ∈ ps.flatMap (cutRun q), Covers r k) ↔ (∃ r ∈ ps, Covers r k) ∧ ¬ Covers q k := by
      simp only [List.mem_flatMap]
      constructor
      · rintro ⟨r, ⟨p, hp, hr⟩, hk⟩
        have := (cutRun_covers q p k).mp ⟨r, hr, hk⟩
        exact ⟨⟨p, hp, this.1⟩, this.2⟩
      · rintro ⟨⟨p, hp, hk⟩, hq⟩
        obtain ⟨r, hr, hrk⟩ := (cutRun_covers q p k).mpr ⟨hk, hq⟩
        exact ⟨r, ⟨p, hp, hr⟩, hrk⟩
    rw [show outside ps (q :: qs) = outside (ps.flatMap (cutRun q)) qs from rfl, ih, step]
    simp only [List.forall_mem_cons, and_assoc]

@[simp] theorem State.takeFrames_fw (s : State) : s.takeFrames.fw = { s.fw with zeroed := outside s.fw.zeroed s.frames } := rfl
@[simp] theorem State.takeFrames_clk (s : State) : s.takeFrames.clk = s.clk := rfl
@[simp] theorem State.takeFrames_mem (s : State) : s.takeFrames.mem = s.mem := rfl
@[simp] theorem State.takeFrames_poison (s : State) : s.takeFrames.poison = s.poison := rfl
@[simp] theorem State.takeFrames_zeroPend (s : State) : s.takeFrames.zeroPend = s.zeroPend := rfl
@[simp] theorem State.takeFrames_raced (s : State) : s.takeFrames.raced = s.raced := rfl
@[simp] theorem State.takeFrames_free (s : State) : s.takeFrames.free = s.free := rfl
@[simp] theorem State.takeFrames_fresh (s : State) : s.takeFrames.fresh = s.fresh := rfl
@[simp] theorem State.takeFrames_agenda (s : State) : s.takeFrames.agenda = s.agenda := rfl
@[simp] theorem State.takeFrames_issue (s : State) : s.takeFrames.issue = s.issue := rfl
@[simp] theorem State.takeFrames_ready (s : State) : s.takeFrames.ready = s.ready := rfl
@[simp] theorem State.takeFrames_queues (s : State) : s.takeFrames.queues = s.queues := rfl
@[simp] theorem State.takeFrames_launches (s : State) : s.takeFrames.launches = s.launches := rfl
@[simp] theorem State.takeFrames_groups (s : State) : s.takeFrames.groups = s.groups := rfl
@[simp] theorem State.takeFrames_quads (s : State) : s.takeFrames.quads = s.quads := rfl
@[simp] theorem State.takeFrames_dieQ (s : State) : s.takeFrames.dieQ = s.dieQ := rfl
@[simp] theorem State.takeFrames_spill (s : State) : s.takeFrames.spill = s.spill := rfl
@[simp] theorem State.takeFrames_savedQ (s : State) : s.takeFrames.savedQ = s.savedQ := rfl
@[simp] theorem State.takeFrames_ticket (s : State) : s.takeFrames.ticket = s.ticket := rfl
@[simp] theorem State.takeFrames_lastQ (s : State) : s.takeFrames.lastQ = s.lastQ := rfl
@[simp] theorem State.takeFrames_copies (s : State) : s.takeFrames.copies = s.copies := rfl
@[simp] theorem State.takeFrames_sops (s : State) : s.takeFrames.sops = s.sops := rfl
@[simp] theorem State.takeFrames_tiles (s : State) : s.takeFrames.tiles = s.tiles := rfl
@[simp] theorem State.takeFrames_basins (s : State) : s.takeFrames.basins = s.basins := rfl
@[simp] theorem State.takeFrames_ballocs (s : State) : s.takeFrames.ballocs = s.ballocs := rfl
@[simp] theorem State.takeFrames_recs (s : State) : s.takeFrames.recs = s.recs := rfl
@[simp] theorem State.takeFrames_taskQ (s : State) : s.takeFrames.taskQ = s.taskQ := rfl
@[simp] theorem State.takeFrames_taskWait (s : State) : s.takeFrames.taskWait = s.taskWait := rfl
@[simp] theorem State.takeFrames_arrays (s : State) : s.takeFrames.arrays = s.arrays := rfl
@[simp] theorem State.takeFrames_images (s : State) : s.takeFrames.images = s.images := rfl
@[simp] theorem State.takeFrames_remotes (s : State) : s.takeFrames.remotes = s.remotes := rfl
@[simp] theorem State.takeFrames_colls (s : State) : s.takeFrames.colls = s.colls := rfl
@[simp] theorem State.takeFrames_misses (s : State) : s.takeFrames.misses = s.misses := rfl
@[simp] theorem State.takeFrames_stale (s : State) : s.takeFrames.stale = s.stale := rfl
@[simp] theorem State.takeFrames_packets (s : State) : s.takeFrames.packets = s.packets := rfl
@[simp] theorem State.takeFrames_cores (s : State) : s.takeFrames.cores = s.cores := rfl

end Sys2Proof.Machine
end

