-- ==== Sys2Proof/Tests/Slice0.lean ====
section
/-!
SUPPORT. Tests: ill-formed words that the checks refuse, words written out from the spec's encodings, the worked cases of
the spec, and for each statement with hypotheses a state and operands that meet them.
-/
namespace Sys2Proof.Tests
set_option Elab.async false
open Sys2Proof Sys2Proof.Machine

/-! ## Helpers: a small machine -/

/-- Fields with every default of R85. -/
def f0 : Fields := {}

/-- A block of a kind with a body, its header well formed (R78). -/
def block (kind : Nat) (body : List Byte) (live : Nat := 0) (rec8 : Nat := 0) : List Byte :=
  let steps := if kind = 2 then 0 else min 15 (countMarks body.length body)
  let h := bytesOf 8 (pack [(62, 2, kind), (50, 12, body.length), (42, 8, live), (26, 16, rec8), (8, 4, steps)])
  ((h.tail.foldl (· ^^^ ·) 0xA5) :: h.tail) ++ body

/-- `nop`s of two bytes. -/
def nops (n : Nat) : List Byte := (List.range n).flatMap fun _ => [0x27, 0x00]

/-- A cached block of the launch of the small machine. -/
def cache (hdr : Word) (bytes : List Byte) : Block := { launch := 0, hdr := hdr, bytes := bytes }

/-- A page-table entry that points to a table. -/
def pointer (table : Nat) : Nat := 2 ^ 63 + table / 256 * 256

/-- A leaf with a place, W and X, and MIG. -/
def leaf (frame place : Nat) (w x : Bool) (mig : Bool := false) (peer : Nat := 0) : Nat :=
  2 ^ 63 + 2 ^ 62 + place * 2 ^ 60 + w.toNat * 2 ^ 59 + x.toNat * 2 ^ 58 + mig.toNat * 2 ^ 57 + frame + peer * 2 ^ 8

/-- Where the tables of address space 0 stand. -/
def root : Nat := 0x100000
def leafEntry (i : Nat) : Nat := 0x102000 + 8 * i

/-- Registers of the small machine's thread: v0-v31 hold what the tests name. -/
def words : List Word := [0, 1, 64, 3, 0xFFFFFFFF, 0x80000000, 32, 0x7FC00001, 0x3F800000, 0x7F800000, 0xFF800000,
  0x40000000, 96, 16, 2, 4096, 0x400000, 0x3FFFF0, 128, 5, 256, 0x4300, 0x42FE0000, 0x43000000]

def regs (l : List Word) : Table Word := ((List.range l.length).zip l).filter fun p => p.2 != 0

/-- s0 reaches 4 GiB with W; s1 4 GiB without W; s2 is null; s3 reaches 2^16; s4 lies at the end of the space. -/
def segs : List DWord := [0xC000000000000000, 0x4000000000000000, 0x7E00000000000000, 0xA000000000000000,
  0xC1FFFFFFFFFF0000, 0, 0, 0, 0, 0, 0, 0, 0, 0, 0, 0].map fun x => x

def thread0 : Thread := { v := regs words, p := 1, s := segs, pc := 40, here := 32 }

def group0 : Group where
  launch := 0
  grp := 0
  ncoh := 1
  lane := false
  core := 1
  slot := 0
  tslots := [0]
  threads := thread0 :: List.replicate 63 { st := .exited }
  doms := [{}]
  held := [1]
  roles := [0]
  prio := 1

def launch0 : Launch :=
  { q := 0, seq := 0, r := { bss := 1, code := 0x20000, prio := 1, ngrp := 2 }, segs := segs, fmask := 0xFFF, objFirst := 32,
    objSize := 4096, begun := true, ran := [0] }

/-- One group of one live thread on core 1 issues a 12-byte instruction of the block at 32; the address space maps its
first GiBs: 0 HOME, 1 HOME without W and X, 2 PEER, 3 MIG, 4 MEMSIDE; 5 is malformed, the rest is not mapped. -/
def small : State :=
  let s : State := { State.reset with
    launches := [(0, launch0)]
    groups := [(1, group0)]
    fresh := 2
    issue := { core := 1, threads := [⟨1, 0⟩], len := 12 }
    cores := [(1, { blocks := [cache 32 (block 0 (nops 12)), cache 64 (block 1 (nops 8)), cache 96 (block 3 (nops 8)),
      cache 128 (block 2 ([2, 0, 0, 0, 252, 255, 255, 255, 248, 255, 255, 255, 0, 0, 0, 0])), cache 160 (block 0 [0, 0, 0, 0, 0, 0, 0, 0])] })]
    quads := []
    ready := { ual := 1, hbm := 0xFFFFFFFF, lpd := 0xFFFFFF, die := 0xFFFF, fw := true, disp := true, pl0 := true }
    fw := { State.reset.fw with roots := [(0, root)] } }
  let entry (s : State) (a e : Nat) := s.writePhys a (bytesOf 8 e)
  let s := entry (entry s root (pointer 0x101000)) 0x101000 (pointer 0x102000)
  let s := entry (entry s (leafEntry 0) (leaf 0 0 true true)) (leafEntry 1) (leaf 0x40000000 0 false false)
  let s := entry (entry s (leafEntry 2) (leaf 0x80000000 3 true true false 1)) (leafEntry 3) (leaf 0xC0000000 0 true true true)
  entry (entry s (leafEntry 4) (leaf 0 1 true true)) (leafEntry 5) (leaf 0x10000 0 true true)

/-- The small machine with its thread, its group, its launch or the rest changed. -/
def withT (f : Thread → Thread) (s : State := small) : State := s.modThread ⟨1, 0⟩ f
def withG (f : Group → Group) (s : State := small) : State := s.modGroup 1 f
def withL (f : Launch → Launch) (s : State := small) : State := s.modLaunch 0 f

/-! ## Helpers: meeting hypotheses -/

/-- The instruction issues for the one thread of a state, and its operands are as `p` says. -/
def Meets (s : State) (i : Instr) (p : Group → Thread → Fields → Bool) : Prop :=
  ∃ g t f, i.fields = some f ∧ Issues s ⟨1, 0⟩ g t i f ∧ p g t f = true

def meetsB (s : State) (i : Instr) (p : Group → Thread → Fields → Bool) : Bool :=
  match s.group? 1, s.thread? ⟨1, 0⟩, i.fields with
  | some g, some t, some f =>
    decide (s.issue.threads = [⟨1, 0⟩]) && g.runs && decide (t.st = .ready) && t.countOk i && s.engineRoom 1 i &&
      !s.timerDue t && decide (decodeFault s g 0 i f = none) && t.guard f.pg && p g t f
  | _, _, _ => false

theorem meets_of {s : State} {i : Instr} {p : Group → Thread → Fields → Bool} (h : meetsB s i p = true) : Meets s i p := by
  unfold meetsB at h
  split at h
  · rename_i g t f hg ht hf
    simp only [Bool.and_eq_true, decide_eq_true_eq, Bool.not_eq_true'] at h
    obtain ⟨⟨⟨⟨⟨⟨⟨⟨h1, h2⟩, h3⟩, h4⟩, h5⟩, h6⟩, h7⟩, h8⟩, h9⟩ := h
    exact ⟨g, t, f, hf, ⟨h1, hg, ht, h2, h3, h4, h5, h6, h7, h8⟩, h9⟩
  · exact absurd h (by simp)

/-- A state, an instruction and what the clause asks of the operands. -/
abbrev Case := State × Instr × (Group → Thread → Fields → Bool)

/-- A well-formed instruction issues, and its operands are as the clause asks. -/
def Case.met (c : Case) : Prop := WellFormed c.2.1 ∧ Meets c.1 c.2.1 c.2.2

theorem met_of (l : List Case) (h : l.all (fun c => decide (c.2.1.check = .ok) && meetsB c.1 c.2.1 c.2.2) = true) :
    ∀ c ∈ l, c.met := by
  intro c hc
  have := List.all_eq_true.mp h c hc
  simp only [Bool.and_eq_true, decide_eq_true_eq] at this
  exact ⟨this.1, meets_of this.2⟩

/-- A clause that asks nothing of the operands. -/
def any (_ : Group) (_ : Thread) (_ : Fields) : Bool := true

def here (i : Instr) (p : Group → Thread → Fields → Bool := any) : Case := (small, i, p)

/-- A cohort of the state issues: all of its live threads, and as `p` says of the active ones. -/
def MeetsCohort (s : State) (i : Instr) (p : Group → List (TRef × Thread) → Fields → Bool) : Prop :=
  ∃ g l act f, i.fields = some f ∧ CohortIssues s 1 0 g l act i f ∧ act ≠ [] ∧ p g act f = true

def cohortB (s : State) (i : Instr) (p : Group → List (TRef × Thread) → Fields → Bool) : Bool :=
  match s.group? 1, i.fields with
  | some g, some f =>
    let l := s.issue.threads.filterMap fun r => (s.thread? r).map fun t => (r, t)
    let act := l.filter fun q => q.2.guard f.pg
    decide (l ≠ []) && decide (s.issue.threads = l.map (·.1)) && l.all (fun q => decide (q.1.grp = 1 ∧ q.1.tid / 64 = 0)) &&
      decide (l.Pairwise fun p q => p.1.tid < q.1.tid) && l.all (fun q => decide (s.thread? q.1 = some q.2)) && g.runs &&
      l.all (fun q => decide (q.2.st = .ready ∧ q.2.countOk i = true ∧ s.timerDue q.2 = false)) && s.engineRoom 1 i &&
      l.all (fun q => decide (decodeFault s g q.1.tid i f = none)) && decide (act ≠ []) && p g act f
  | _, _ => false

theorem cohort_of {s : State} {i : Instr} {p : Group → List (TRef × Thread) → Fields → Bool} (h : cohortB s i p = true) :
    MeetsCohort s i p := by
  unfold cohortB at h
  split at h
  · rename_i g f hg hf
    simp only [Bool.and_eq_true, decide_eq_true_eq, List.all_eq_true] at h
    obtain ⟨⟨⟨⟨⟨⟨⟨⟨⟨⟨h1, h2⟩, h3⟩, h4⟩, h5⟩, h6⟩, h7⟩, h8⟩, h9⟩, h10⟩, h11⟩ := h
    exact ⟨g, _, _, f, hf, ⟨h1, h2, h3, h4, hg, h5, h6, h7, h8, h9, rfl⟩, h10, h11⟩
  · exact absurd h (by simp)

abbrev CohortCase := State × Instr × (Group → List (TRef × Thread) → Fields → Bool)

def CohortCase.met (c : CohortCase) : Prop := WellFormed c.2.1 ∧ MeetsCohort c.1 c.2.1 c.2.2

theorem cohorts_of (l : List CohortCase) (h : l.all (fun c => decide (c.2.1.check = .ok) && cohortB c.1 c.2.1 c.2.2) = true) :
    ∀ c ∈ l, c.met := by
  intro c hc
  have := List.all_eq_true.mp h c hc
  simp only [Bool.and_eq_true, decide_eq_true_eq] at this
  exact ⟨this.1, cohort_of this.2⟩

/-- Threads 0, 1 and 5 of the cohort issue; v1 of each is 10, 3 and 10. -/
def lanes3 : State :=
  let t (w : Word) (p : BitVec 7) : Thread := { thread0 with v := regs (words.set 1 w), p := p }
  { withG (fun g => { g with threads := ((g.threads.set 0 (t 10 1)).set 1 (t 3 1)).set 5 (t 10 0) }) with
    issue := { core := 1, threads := [⟨1, 0⟩, ⟨1, 1⟩, ⟨1, 5⟩], len := 12 } }

def lanes (i : Instr) (p : Group → List (TRef × Thread) → Fields → Bool := fun _ _ _ => true) : CohortCase := (lanes3, i, p)

def any₃ (_ : Group) (_ : List (TRef × Thread)) (_ : Fields) : Bool := true

/-- The small machine with the page of GiB 1 SYSTEM and writable. -/
def system : State := small.writePhys (leafEntry 1) (bytesOf 8 (leaf 0x40000000 2 true false))

/-- Values that are finite. -/
theorem finites {l : List Word} (h : (l.all fun w => (w.extractLsb' 23 8 : Byte) != 0xFF) = true) : ∀ w ∈ l, Finite32 w := by
  simpa [List.all_eq_true, Finite32] using h

/-! ## Witnesses: integer and logic instructions -/

theorem witness_IntegerArithmetic : ∀ c ∈ ([
    here (.add { f0 with d := 40, a := 4, b := 1, t := .n32 }),
    here (.add { f0 with fn := 1, d := 40, a := 4, b := 1, t := .n32 }),
    here (.add { f0 with fn := 1, d := 40, a := 5, b := 4, t := .i32 }),
    here (.add { f0 with d := 248, a := 4, b := 249, imm := 0xFFFFFFFF }),
    here (.sub { f0 with d := 40, a := 0, b := 1, t := .i32 }), here (.sub { f0 with fn := 1, d := 40, a := 0, b := 1, t := .n32 }),
    here (.add3 { f0 with d := 40, a := 4, b := 4, c := 4, t := .n32 }),
    here (.mul { f0 with d := 40, a := 5, b := 5, t := .i32 }), here (.mul { f0 with fn := 1, d := 40, a := 5, b := 5, t := .i32 }),
    here (.mul { f0 with fn := 2, d := 62, a := 5, b := 4, t := .i32 }),
    here (.mad { f0 with d := 40, a := 4, b := 4, c := 4, t := .n32 }), here (.mad { f0 with fn := 2, d := 248, a := 4, b := 4, c := 4, t := .n32 }),
    here (.min { f0 with d := 40, a := 4, b := 1, t := .i32 }), here (.max { f0 with d := 40, a := 4, b := 1, t := .n32 }),
    here (.abs { f0 with d := 40, a := 5, t := .i32 }) (fun _ t f => decide (t.intA f < 0)),
    here (.abs { f0 with fn := 1, d := 40, a := 5, t := .i32 }), here (.neg { f0 with fn := 1, d := 40, a := 5, t := .i32 }),
    here (.addmin { f0 with d := 40, a := 5, b := 5, c := 1, t := .i32 }), here (.addmin { f0 with d := 40, a := 4, b := 4, c := 4, t := .n32 }),
    here (.idiv { f0 with d := 40, a := 5, b := 0, t := .i32 }) (fun _ t f => decide (t.intB f = 0)),
    here (.idiv { f0 with d := 40, a := 5, b := 4, t := .i32 }) (fun _ t f => decide (t.intB f ≠ 0)),
    here (.irem { f0 with d := 40, a := 5, b := 248, t := .n32 }) (fun _ t f => decide (t.intB f = 0)),
    here (.irem { f0 with d := 40, a := 5, b := 3, t := .i32 }) (fun _ t f => decide (t.intB f ≠ 0))] : List Case), c.met :=
  met_of _ (by decide +kernel)

theorem witness_LogicAndPredicates : ∀ c ∈ ([
    here (.and { f0 with d := 40, a := 4, b := 5 }), here (.or { f0 with d := 40, a := 4, b := 5 }),
    here (.xor { f0 with d := 40, a := 4, b := 4 }), here (.not { f0 with d := 40, a := 0 }),
    here (.bitfn { f0 with d := 40, a := 1, b := 3, c := 4, imm := 0x96 }),
    here (.clz { f0 with d := 40, a := 0 }), here (.clz { f0 with d := 40, a := 5 }), here (.popc { f0 with d := 40, a := 4 }),
    here (.brev { f0 with d := 40, a := 1 })] ++
    ([0, 1].map fun n => here (.setp { f0 with fn := n, d := 192, a := 0, b := 248 })) ++
    ([2, 3, 4, 5].map fun n => here (.setp { f0 with fn := n, d := 198, a := 4, b := 1, t := .i32 })) ++ [
    here (.sel { f0 with d := 40, a := 4, b := 1, c := 192 }) (fun _ t f => t.predOf f.c),
    here (.sel { f0 with d := 40, a := 4, b := 1, c := 193 }) (fun _ t f => !t.predOf f.c),
    here (.mov { f0 with d := 198, a := 249, imm := 0 }), here (.mov { f0 with d := 192, a := 191 })
      |> fun c => (withG (fun g => { g with held := [5] }), c.2),
    here (.mov { f0 with d := 40, a := 192 }), here (.mov { f0 with d := 0, a := 199 }),
    here (.mov { f0 with d := 40, a := 248 }),
    here (.lea { f0 with d := 40, a := 4, b := 4, c := 4, x := 7 }), here (.lea { f0 with d := 40, a := 4, b := 249, c := 248, imm := 8 })] ++
    ([0, 1, 2, 3, 4].map fun n => here (.pset { f0 with fn := n, d := 193, a := 199, b := 192 })) : List Case), c.met :=
  met_of _ (by decide +kernel)

theorem witness_ShiftsAndFields : ∀ c ∈ ([
    here (.shl { f0 with d := 40, a := 4, b := 6 }) (fun _ t f => decide (32 ≤ (t.opB f).toNat)),
    here (.shl { f0 with d := 40, a := 4, b := 249, imm := 31 }) (fun _ t f => decide ((t.opB f).toNat < 32)),
    here (.shr { f0 with d := 40, a := 5, b := 6 }), here (.shr { f0 with d := 40, a := 5, b := 0 }),
    here (.sra { f0 with d := 40, a := 5, b := 4 }), here (.rot { f0 with d := 40, a := 1, b := 4 }),
    here (.rot { f0 with fn := 1, d := 40, a := 1, b := 6 }), here (.fsh { f0 with d := 40, a := 4, b := 5, c := 6 }),
    here (.fsh { f0 with fn := 1, d := 40, a := 4, b := 5, c := 4 }),
    here (.bfx { f0 with d := 40, a := 4, b := 21, t := .i32 }) (fun _ t f => decide ((t.opB f).toNat = 0x4300)),
    here (.bfx { f0 with d := 40, a := 4, b := 0, t := .n32 }), here (.bfx { f0 with d := 40, a := 4, b := 6, t := .i32 }),
    here (.bfi { f0 with d := 40, a := 4, b := 0, c := 249, imm := 0x201F })] : List Case), c.met :=
  met_of _ (by decide +kernel)

/-- Both cases of `FieldAt`: a position inside the word, whose width is cut, and one past it. -/
theorem witness_FieldAt : FieldAt 0x201F 31 1 ∧ FieldAt 0x0820 32 0 ∧ FieldAt 0x4300 0 32 := by
  simp only [FieldAt]; decide

/-! ## Witnesses: floating point -/

/-- What the statement says of a magnitude rounds both ways: a tie, and one step on each side of it. -/
theorem witness_Rounding : roundShift 0 false 6 2 false * 2 ^ 2 ≥ 6 ∧ 2 * (6 % 2 ^ 2) = 2 ^ 2 ∧ roundShift 0 false 5 2 false * 2 ^ 2 ≤ 5 ∧
    f32IsNan 0xFF800000 = false ∧ (129 : Int) ≤ (Nat.log2 1 : Int) + 128 + 1 ∧ (17 : Int) ≤ (Nat.log2 1 : Int) + 16 + 1 := by
  decide +kernel

theorem witness_Overflow : (4 : Nat) ≤ 4 ∧ (5 : Nat) ≠ 0 ∧ (129 : Int) ≤ (Nat.log2 1 : Int) + 128 + 1 ∧ (17 : Int) ≤ (Nat.log2 1 : Int) + 16 + 1 := by
  decide

/-- Finite values, sums, products and fused products of them that are zero and that are not, and infinities. -/
theorem witness_FloatExact : (∀ w ∈ [(0 : Word), 0x80000000, 1, 0x3F800000, 0xBF800000, 0xC0000000, 0x7F7FFFFF, 0xFF7F0000], Finite32 w) ∧
    signedUnits 0x3F800000 + signedUnits 0xBF800000 = 0 ∧ signedUnits 0 - signedUnits 0x80000000 = 0 ∧ signedUnits 0 * signedUnits 0xC0000000 = 0 ∧
    signedUnits 0x3F800000 * signedUnits 0xC0000000 + signedUnits 0x40000000 * signedUnits 0x3F800000 = 0 ∧ signedUnits 0x3F800000 + signedUnits 0xC0000000 ≠ 0 ∧
    (0x7F800000 : Word) <<< 1 = 0xFF000000 ∧ (0xFF800000 : Word) <<< 1 = 0xFF000000 ∧ signedUnits 1 ≠ 0 :=
  ⟨finites (by decide), by decide +kernel⟩

theorem witness_NanConversions : f32IsNan 0xFFC00001 = true ∧ f32IsNan ((0x7F81 : Half) ++ (0 : Half)) = true ∧
    (0xFC01 : Half).extractLsb' 10 5 = (0x1F : BitVec 5) ∧ (0xFC01 : Half).extractLsb' 0 10 ≠ (0 : BitVec 10) ∧
    f32IsNan 0xFF800000 = false ∧ (0xFF800000 : Word) ≠ 0x7F800000 ^^^ (0x3F800000 &&& 0x80000000) ∧ (0x3F800000 : Word) <<< 1 ≠ 0 := by
  decide

/-- The operands 4.0, 1.0, 0.25 and -1.0, one for each range of a bound. -/
theorem witness_ApproximationBounds : let value (w : Word) : Real := signedUnits w * (2 : Real) ^ (-149 : Int)
    (∀ w ∈ [(0x40800000 : Word), 0x3F800000, 0x3E800000, 0xBF800000], Finite32 w) ∧
    (2 < value 0x40800000 ∧ value 0x40800000 < 128) ∧ value 0x3F800000 = 1 ∧ (0 < value 0x3E800000 ∧ value 0x3E800000 < 1 / 2) ∧ value 0xBF800000 < 0 := by
  have a : signedUnits 0x40800000 = 2 ^ 151 := by decide +kernel
  have b : signedUnits 0x3F800000 = 2 ^ 149 := by decide +kernel
  have c : signedUnits 0x3E800000 = 2 ^ 147 := by decide +kernel
  have d : signedUnits 0xBF800000 = -2 ^ 149 := by decide +kernel
  refine ⟨finites (by decide), ?_⟩
  simp only [a, b, c, d]
  norm_num [zpow_neg]

theorem witness_NanResults : f32IsNan 0x7F800001 = true ∧ f32IsNan 0xFFFFFFFF = true ∧ f32IsNan 0x7F800000 = false := by decide

theorem witness_ZeroSumsAndExtremes : ((0x80000000 : Word).extractLsb' 23 8 : Byte) ≠ 0xFF ∧ ((0x7F7F : Half).extractLsb' 7 8 : Byte) ≠ 0xFF ∧
    f32IsNan 0x7F800001 = true ∧ f32IsNan 0 = false := by decide

/-- The small machine with a lane unit that gives a wrong result next. -/
def flawed (w : Word) : State := small.modCore 1 fun k => { k with flaws := [(0, w)] }

/-- An instruction in a machine whose lane unit is sound, and in one whose unit gives a wrong result next. -/
def lane (i : Instr) (p : Group → Thread → Fields → Bool := any) : List Case :=
  let sound (s : State) (g : Group) : Bool := (s.core g.core).flaws.all fun q => q.1 != physicalLane (s.core g.core).lremap 0
  [(small, i, fun g t f => sound small g && p g t f), (flawed 0x40040000, i, fun g t f => !sound (flawed 0x40040000) g && p g t f)]

/-- Both ends of R130's tolerance: beside 2.0, the sum that the cases above form first, one word is tolerated and one diverges. -/
theorem witness_ShadowDivergence : WrongNext (flawed 0x40020000) group0 ⟨1, 0⟩ (0, 0x40020000) ∧
    WrongNext (flawed 0x40040000) group0 ⟨1, 0⟩ (0, 0x40040000) ∧ ¬ Diverging 0x40020000 0x40000000 ∧
    Diverging 0x40040000 0x40000000 ∧ Diverging 0x7FC00000 0x40000000 ∧ Diverging 0xC0000000 0x40000000 ∧
    ¬ Diverging 0x80000000 0 := by
  unfold WrongNext Diverging; decide +kernel

theorem witness_FloatArithmetic : ∀ c ∈ (lane (.fadd { f0 with d := 40, a := 8, b := 9, t := .f32, m := 4 }) ++
    lane (.fsub { f0 with d := 40, a := 8, b := 8, t := .bf16x2 }) ++ lane (.fmul { f0 with d := 40, a := 9, b := 0, t := .f32 }) ++
    lane (.ffma { f0 with d := 40, a := 8, b := 8, c := 8, t := .bf16l }) ++ lane (.fmin { f0 with d := 40, a := 7, b := 8, t := .f32 }) ++
    lane (.fmax { f0 with d := 40, a := 0, b := 5, t := .bf16h }) ++ lane (.faddmin { f0 with d := 40, a := 8, b := 8, c := 8, t := .f32 }) ++
    lane (.fdot2 { f0 with d := 40, a := 8, b := 8, c := 8, t := .bf16x2, m := 1 }) ++
    lane (.fscale { f0 with d := 40, a := 8, b := 249, t := .f32, imm := 1000 }) (fun _ t f => decide ((t.opB f).toInt = 1000)) ++
    lane (.fscale { f0 with d := 40, a := 8, b := 5, t := .bf16x2 }) (fun _ t f => decide ((t.opB f).toInt < -1000)) ++
    lane (.frnd { f0 with d := 40, a := 8, t := .f32, m := 3 }) : List Case), c.met :=
  met_of _ (by decide +kernel)

/-- Operands of `fdot2`: a NaN, 0 × ∞, ∞ − ∞, an infinity alone, and finite ones with a sum of zero or not. -/
theorem witness_FloatDot : (
    let ops (a b c : Word) : List Word := [lowHalf a ++ (0 : Half), highHalf a ++ (0 : Half), lowHalf b ++ (0 : Half), highHalf b ++ (0 : Half), c]
    let terms (a b c : Word) : List Machine.Num := [(numBf16 (lowHalf a)).mul (numBf16 (lowHalf b)), (numBf16 (highHalf a)).mul (numBf16 (highHalf b)), numF32 c]
    let fin (x : Machine.Num) : Bool := match x with | .fin .. => true | _ => false
    ((ops 0x3F803F80 0x7F813F80 0).find? (fun w => f32IsNan w) = some 0x7F810000) ∧
    ([(0, 0x3F807F80, 0), (0x3F803F80, 0xFF807F80, 0), (0x3F803F80, 0x3F807F80, 0), (0x3F804580, 0x39804580, 0xCB800000), (0x3F803F80, 0xBF803F80, 0)].all fun (p : Word × Word × Word) =>
      (ops p.1 p.2.1 p.2.2).all fun w => !f32IsNan w) ∧
    (terms 0 0x3F807F80 0).head? = some (.nan defaultNan) ∧ (.inf true ∈ terms 0x3F803F80 0xFF807F80 0 ∧ .inf false ∈ terms 0x3F803F80 0xFF807F80 0) ∧
    (.inf false ∈ terms 0x3F803F80 0x3F807F80 0 ∧ .inf true ∉ terms 0x3F803F80 0x3F807F80 0) ∧
    (terms 0x3F804580 0x39804580 0xCB800000).all fin ∧ (terms 0x3F803F80 0xBF803F80 0).all fin) := by decide +kernel

theorem witness_FloatMoves : ∀ c ∈ (
    ([Ty.f32, .bf16x2, .bf16l, .bf16h].flatMap fun ty => [0, 1, 2].map fun n =>
      here (.fsgn { f0 with fn := n, d := 40, a := 8, b := if n = 2 then 5 else 248, t := ty })) ++
    ([0, 1, 2, 3, 4, 5, 6, 7].flatMap fun n => [
      here (.fsetp { f0 with fn := n, d := 192, a := 7, b := 8, t := .f32 }) (fun _ t f => f32IsNan (elemWord f.t (t.opA f))),
      here (.fsetp { f0 with fn := n, d := 192, a := 8, b := 9, t := .bf16h })
        (fun _ t f => !f32IsNan (elemWord f.t (t.opA f)) && !f32IsNan (elemWord f.t (t.opB f)))]) ++
    [here (.fclass { f0 with d := 192, a := 5, b := 4, t := .f32 })] ++
    ([Ty.f32, .bf16x2, .bf16l, .bf16h].map fun ty => here (.cvt { f0 with d := 40, a := 7, t := ty, m := 2 })) ++ [
    here (.cvti { f0 with d := 40, a := 8, t := .i32, m := 1 }), here (.cvti { f0 with d := 40, a := 7, t := .n32 }) (fun _ t f => f32IsNan (t.opA f)),
    here (.cvti { f0 with fn := 1, d := 40, a := 4, t := .n32 })] ++
    ([Ty.bf16x2, .i8, .n8, .i16, .n16].map fun ty => here (.pack { f0 with d := 40, a := 4, b := 5, t := ty })) ++
    ([Ty.i8, .n8].map fun ty => here (.pack { f0 with fn := 1, d := 40, a := 4, b := 5, t := ty })) ++
    ([Ty.bf16l, .bf16h, .i8, .n8, .i16, .n16].map fun ty => here (.unpack { f0 with d := 40, a := 4, t := ty })) ++ [
    here (.unpack { f0 with fn := 3, d := 40, a := 4, t := .i8 }), here (.unpack { f0 with fn := 1, d := 40, a := 5, t := .n16 }),
    here (.ext { f0 with d := 40, a := 4, b := 0, t := .i32 }), here (.ext { f0 with d := 40, a := 4, b := 6, t := .n32 }),
    here (.ext { f0 with d := 40, a := 4, b := 249, t := .i32, imm := 31 })] : List Case), c.met :=
  met_of _ (by decide +kernel)

/-- Operands that are NaN, zero, infinite, below zero and, for `fex2`, 128.0. -/
def specials : List (BitVec 8) := [7, 0, 5, 9, 10, 23]

theorem witness_DeferredFloat : ∀ c ∈ ((specials.flatMap fun a => [
    here (.fsqrt { f0 with d := 40, a := a, t := .f32 }), here (.frcp { f0 with d := 248, a := a, t := .f32 }),
    here (.frsq { f0 with d := 40, a := a, t := .f32 }), here (.fex2 { f0 with d := 40, a := a, t := .f32 }),
    here (.flg2 { f0 with d := 40, a := a, t := .f32 }), here (.ftrig { f0 with d := 40, a := a, t := .f32 }),
    here (.ftrig { f0 with fn := 1, d := 40, a := a, t := .f32 }), here (.ftanh { f0 with d := 40, a := a, t := .f32 })]) ++
    [here (.fdiv { f0 with d := 40, a := 8, b := 11, t := .f32, m := 3 }) (fun _ t f => decide (t.opA f = 0x3F800000 ∧ t.opB f = 0x40000000)),
      here (.frcp { f0 with d := 40, a := 8, t := .f32 }) (fun _ t f => decide (unitsOf 0x3F800000 * unitsOf (t.opA f).toNat ≤ 2 ^ 298 ∧
        2 ^ 298 < unitsOf 0x3F800001 * unitsOf (t.opA f).toNat)),
      here (.frsq { f0 with d := 40, a := 8, t := .f32 }) (fun _ t f => decide (unitsOf 0x3F800000 ^ 2 * unitsOf (t.opA f).toNat ≤ 2 ^ 447 ∧
        2 ^ 447 < unitsOf 0x3F800001 ^ 2 * unitsOf (t.opA f).toNat)),
      here (.fsqrt { f0 with d := 40, a := 11, t := .f32 }), here (.fdiv { f0 with d := 40, a := 8, b := 9, t := .f32 }), here (.fdiv { f0 with d := 40, a := 10, b := 8, t := .f32 })] ++
    (specials.flatMap fun a => specials.map fun b => here (.fdiv { f0 with d := 40, a := a, b := b, t := .f32, m := 4 })) ++ [
    here (.fdiv { f0 with d := 40, a := 8, b := 5, t := .f32 }) (fun _ t f => decide ((t.opA f).extractLsb' 23 8 ≠ (0xFF : Byte) ∧ t.opB f = 0x80000000)),
    here (.fex2 { f0 with d := 40, a := 23, t := .f32 }) (fun _ t f => decide (0x43000000 ≤ (t.opA f).toNat ∧ f32IsNan (t.opA f) = false))]
    : List Case), c.met :=
  met_of _ (by decide +kernel)

theorem witness_ZeroSumsAndExtremes_bf16 : f32IsNan ((0x7FC1 : Half) ++ (0 : Half)) = true ∧ f32IsNan ((0xFF81 : Half) ++ (0 : Half)) = true ∧
    f32IsNan ((0x3F80 : Half) ++ (0 : Half)) = false ∧ 3 * 2 ^ ((0 : Int) - min 0 (-1)).toNat = 6 * 2 ^ ((-1 : Int) - min 0 (-1)).toNat := by decide

/-! ## Witnesses: cohorts -/

theorem witness_LaneMovesAndPolls : ∀ c ∈ (
    ([0, 1, 2, 3].map fun n => lanes (.lshf { f0 with fn := n, d := 40, a := 1, b := 6 })) ++
    ([0, 1, 2, 3].map fun n => lanes (.lshf { f0 with fn := n, d := 40, a := 1, b := 1, x := 3 })) ++ [
    lanes (.lbcast { f0 with d := 40, a := 1, b := 1 }), lanes (.lbcast { f0 with fn := 1, d := 40, a := 1, x := 5 }),
    lanes (.lcomp { f0 with d := 40, a := 1, b := 192 }), lanes (.lcomp { f0 with d := 40, a := 1, b := 199, pg := 0 }),
    lanes (.lrank { f0 with d := 40, a := 1, t := .f32 }), lanes (.lrank { f0 with d := 248, a := 1, t := .i32, x := 4 })] ++
    ([0, 1, 2].map fun n => lanes (.lpoll { f0 with fn := n, d := 192, a := 192 })) ++ [
    lanes (.lpoll { f0 with fn := 3, d := 40, a := 192 }), lanes (.lpoll { f0 with fn := 4, d := 41, a := 192 }),
    lanes (.lpeer { f0 with d := 40, a := 1 }), lanes (.lpeer { f0 with fn := 1, d := 41, a := 1, x := 3 })] ++
    ([0, 1, 2].map fun n => lanes (.lmask { f0 with fn := n, d := 40, x := 3 })) : List CohortCase), c.met :=
  cohorts_of _ (by decide +kernel)

theorem witness_LaneReductions : ∀ c ∈ (
    ([0, 1, 2].map fun n => lanes (.lred { f0 with fn := n, d := 40, a := 1, t := .n32 })) ++
    ([3, 4, 5].map fun n => lanes (.lred { f0 with fn := n, d := 40, a := 1, t := .b32, x := 3 })) ++
    ([6, 7, 8].map fun n => lanes (.lred { f0 with fn := n, d := 40, a := 1, t := .f32 })) ++
    ([0, 8].map fun n => lanes (.lscan { f0 with fn := n, d := 40, a := 1, t := .i32 })) ++ [
    lanes (.lscan { f0 with fn := 14, d := 40, a := 1, t := .f32, x := 2 }),
    lanes (.lisect { f0 with d := 40, a := 1, b := 1, t := .n32, x := 3 }),
    (withT (fun t => { t with v := regs [0xFFFFFFFF] }), .lisect { f0 with d := 40, a := 0, b := 1, t := .n32 },
      fun _ act f => decide (present 64 (act.map fun p => (p.1.tid, p.2.opA f)) = []))] : List CohortCase), c.met :=
  cohorts_of _ (by decide +kernel)

/-- Values of each kind that a combining clause asks for. -/
theorem witness_CombiningFunctions : (∀ w ∈ [(0x3F800000 : Word), 0xBF800000, 0x80000000], Finite32 w) ∧
    ([0x7F800000, 0xFF800000, 1] : List Word).find? f32IsNan = none ∧ ([1, 0xFFC00001] : List Word).find? f32IsNan = some 0xFFC00001 ∧
    ([0xFF800000, 0x3F800000] : List Word).contains ((0xFF800000 : Word) ^^^ 0x80000000) = false ∧
    ([0x3F800000, 0xBF800000, 0x80000000].map signedUnits).sum = 0 ∧ ([0x3F800000, 0x3F800000].map signedUnits).sum ≠ 0 ∧
    ([0x7FC00001, 0xFFC00001] : List Word).all f32IsNan = true :=
  ⟨finites (by decide), by decide +kernel⟩

/-- The lanes of the statement that ask for one lane: an active first lane of its segment. -/
theorem witness_lbcast : ((lanesOf ((lanes3.issue.threads.filterMap fun r => (lanes3.thread? r).map fun t => (r, t)))).at? 0).isSome := by
  decide +kernel

/-- The cohort on a degraded core that another group fills. -/
def crowded : State :=
  State.modCore { lanes3 with groups := lanes3.groups ++ [(2, { group0 with slot := 1, tslots := List.range 16, held := List.replicate 16 5 })] } 1
    fun k => { k with lremap := 0x80000000 }

/-- A cohort of three live threads, all active, that holds one block. -/
theorem witness_RegisterBlocks : ∀ c ∈ ([
    lanes (.xacq { f0 with a := 249, imm := 1 }) (fun g act _ => decide (act.length = 3 ∧ 1 ≤ g.held[0]?.getD 0)),
    lanes (.xacq { f0 with a := 249, imm := 2 }) (fun _ _ f => decide (f.imm.toNat - 1 ≤ lanes3.freeExtended 1 ∧ (lanes3.core 1).xacqs = [])),
    (lanes3.modCore 1 fun k => { k with xacqs := [(1, 0)] }, .xacq { f0 with a := 249, imm := 5 }, fun g _ f => decide (g.held[0]?.getD 0 < f.imm.toNat)),
    (crowded, .xacq { f0 with a := 249, imm := 5 }, fun _ _ _ => decide (crowded.freeExtended 1 < 4)),
    lanes (.xrel { f0 with a := 249, imm := 0 }) (fun g _ _ => decide (0 < g.held[0]?.getD 0)),
    lanes (.xrel { f0 with a := 249, imm := 1 }),
    lanes (.xacq { f0 with a := 249, imm := 2, pg := 0 }) (fun _ act _ => decide (act.length < 3)),
    lanes (.xrel { f0 with a := 249, imm := 0, pg := 0 }) (fun _ act _ => decide (act.length < 3))] : List CohortCase), c.met :=
  cohorts_of _ (by decide +kernel)

/-- A group with a cohort, whose thread has a value pending for v40, in a block that it holds. -/
theorem witness_BlockContents : ((withT fun t => { t with defs := [{ seq := 5, dst := .regs 40 1, src := .engine }] }).group? 1).any (fun g =>
    decide (0 < g.held.length ∧ g.held[0]? = some 1) && g.threads.length == 64) = true := by decide +kernel

/-- R156: v40 and what is pending for it are gone with its block, v8 is not. -/
theorem test_drop_blocks : (State.thread? ((withT fun t => { (t.setReg 40 7).setReg 8 9 with defs := [{ seq := 5, dst := .regs 31 2, src := .engine }] }).dropBlocks 1 0 0) ⟨1, 0⟩).map
    (fun t => (t.reg 40, t.reg 8, t.defs.map (·.dst))) = some (0, 9, [.regs 31 1]) := by decide +kernel

/-! ## Witnesses: control -/

/-- An IMM that names the block at an offset from that at 32, and one that names a pool's offset. -/
def rel (off : Int) : Word := BitVec.ofInt 32 ((off - 32) / 8)
def pool (off : Int) (o : Nat) : Word := BitVec.ofInt 32 ((off - 32) / 8 * 2 ^ 12 + o)

/-- The header check passes, or fails, for the instruction's target. -/
def reaches (kinds : List Nat) (off : Group → Thread → Fields → Int) (ok : Bool) (g : Group) (t : Thread) (f : Fields) : Bool :=
  (match small.checkHeader g (off g t f) kinds with | .ok _ => true | .error _ => false) == ok

def near (_ : Group) (t : Thread) (f : Fields) : Int := t.here.toNat + 8 * f.imm.toInt
def far (_ : Group) (t : Thread) (f : Fields) : Int := (t.opA f).toNat

theorem witness_Transfers : ∀ c ∈ ([
    here (.nop f0),
    here (.bra { f0 with a := 249, imm := rel 64 }) (reaches [0, 1, 3] near true),
    here (.bra { f0 with a := 249, imm := rel 128 }) (reaches [0, 1, 3] near false),
    here (.bra { f0 with a := 249, imm := rel (-8) }) (reaches [0, 1, 3] near false),
    here (.brx { f0 with a := 2 }) (reaches [0, 1, 3] far true), here (.brx { f0 with a := 3 }) (reaches [0, 1, 3] far false),
    here (.call { f0 with d := 40, a := 249, imm := rel 96 }) (reaches [3] near true),
    here (.call { f0 with d := 248, a := 249, imm := rel 64 }) (reaches [3] near false),
    here (.callx { f0 with d := 40, a := 12 }) (reaches [3] far true), here (.callx { f0 with d := 40, a := 2 }) (reaches [3] far false),
    (withT fun t => { t with v := regs [72, 64] }, .ret { f0 with a := 0 }, fun _ _ _ => (slotAt 16 (nops 8) 0).isSome),
    (withT fun t => { t with v := regs [71, 64] }, .ret { f0 with a := 0 }, fun _ t f => decide ((t.opA f).toNat < (t.srcHi f.a).toNat + 8)),
    (withT fun t => { t with v := regs [73, 64] }, .ret { f0 with a := 0 }, fun _ _ _ => (slotAt 16 (nops 8) 1).isNone),
    here (.brt { f0 with a := 1, b := 249, imm := pool 64 0 }) (fun g _ _ => match small.checkPool g 64 with | .error _ => true | _ => false),
    here (.brt { f0 with a := 1, b := 249, imm := pool 128 2 }) (fun g _ _ => match small.checkPool g 128 with | .ok _ => true | _ => false),
    here (.brt { f0 with a := 1, b := 249, imm := pool 128 8 }) (fun g _ _ => match small.checkPool g 128 with | .ok b => decide (b.length = 16) | _ => false),
    here (.brt { f0 with a := 14, b := 249, imm := pool 128 0 }) (fun _ t f => decide (2 ≤ (t.opA f).toNat)),
    here (.brt { f0 with a := 1, b := 249, imm := pool 128 0 }) (fun g t f => decide ((t.opA f).toNat < 2) && reaches [0, 1, 3] (fun _ _ _ => 128 + 8 * (-8)) true g t f)]
    : List Case), c.met :=
  met_of _ (by decide +kernel)

theorem witness_BlockEntry :
    (∀ off ∈ [32, 64, 96, 128, 160], ∃ b, small.blockAt group0 off = .ok (some b)) ∧
    validBlock (block 0 (nops 12)) = true ∧ validBlock (block 0 (nops 12) 193) = false ∧ validBlock (block 2 (nops 4)) = true ∧
    (blockHeader (block 2 (nops 4))).kind = 2 ∧ (blockHeader (block 1 (nops 4))).kind = 1 ∧
    reconvOf 64 (block 1 (nops 4)) = none ∧ reconvOf 64 (block 1 (nops 4) 0 3) = some 88 ∧
    (small.thread? ⟨1, 0⟩).map Thread.reconv = some none ∧
    ((withT fun t => { t with reconv := some 64 }).thread? ⟨1, 0⟩).map Thread.reconv = some (some 64) := by
  refine ⟨?_, by decide +kernel⟩
  intro off h
  simp only [List.mem_cons, List.not_mem_nil, or_false] at h
  rcases h with rfl | rfl | rfl | rfl | rfl <;> exact ⟨_, rfl⟩

theorem witness_Boundaries : ∀ c ∈ ([
    here (.join f0), here (.join { f0 with fn := 1, s := true }), here (.exit f0),
    here (.step f0) (fun g _ f => decide (f.sc.toNat ≤ (small.launchOf g).r.gang + 1)),
    here (.step { f0 with fn := 1, d := 194, sc := 1 }),
    here (.step { f0 with sc := 2 }) (fun g _ f => decide ((small.launchOf g).r.gang + 1 < f.sc.toNat)),
    here (.step { f0 with sc := 1, x := 1 }) (fun _ _ f => decide (f.sc.toNat < 4)),
    (withL fun l => { l with r := { l.r with gang := 4 } }, .step { f0 with sc := 4, x := 1 }, any),
    (withT fun t => { t with arr := some { order := 0 }, st := .ready }, .nop { f0 with s := true }, fun _ t _ => t.arr.isSome)] : List Case), c.met :=
  met_of _ (by decide +kernel)

/-- The small machine, its launch deterministic; and with a line of GiB 0 poisoned, or being prepared. -/
def det : State := withL fun l => { l with r := { l.r with det := true } }
def poisoned : State := { small with poison := [(0x200000, 1)] }
def preparing : State := small.modDom 1 0 fun k => { k with prep := some [{ key := 0x10000000 / 8, site := .direct, st := .acked }] }

/-- What an access of the instruction answers. -/
def access (s : State) (size align : Nat) (w : Bool) (u : Use) (p : Except Stop (Acc × List Leaf) → Bool) (g : Group) (t : Thread)
    (f : Fields) : Bool := p (s.operand g t f size align w u)

def lands : Except Stop (Acc × List Leaf) → Bool | .ok _ => true | .error _ => false
def stops (r : Except Stop (Acc × List Leaf)) : Bool := !lands r

theorem witness_Waiting : ∀ c ∈ ([
    here (.waitv { f0 with a := 200, b := 0, c := 0, sc := 2, t := .i32, imm := 64 }),
    (det, .waitv { f0 with a := 200, b := 0, c := 0, sc := 1, t := .i32, imm := 64 }, fun g _ f => decide ((det.launchOf g).r.det = true ∧ f.a ≠ 248)),
    (det, .waitv { f0 with a := 248, b := 0, c := 0, t := .i32, imm := 64 }, any),
    here (.waitv { f0 with a := 200, b := 0, c := 0, t := .i32, imm := 2 }) (access small 4 4 false .read stops),
    here (.waitv { f0 with s := true, a := 200, b := 0, c := 0, t := .i32, imm := 64 }) (access small 4 4 false .read lands),
    (poisoned, .waitv { f0 with a := 200, b := 0, c := 0, t := .i32, imm := 0x10000000 }, fun _ _ _ => poisoned.poisoned (physKeys 0x10000000 4)),
    here (.waitv { f0 with a := 200, b := 0, c := 0, t := .i32, imm := 0x10000000 }) (fun _ _ f => cmpWord f.fn.toNat f.t 0 0),
    here (.waitv { f0 with fn := 1, a := 200, b := 0, c := 0, t := .i32, imm := 0x10000000 }) (fun _ _ f => !cmpWord f.fn.toNat f.t 0 0),
    (preparing, .waitv { f0 with a := 200, b := 0, c := 0, t := .i32, imm := 0x10000000 }, fun _ _ _ => (physKeys 0x10000000 4).any preparing.prepared)]
    : List Case), c.met :=
  met_of _ (by decide +kernel)

/-- The small machine under DBG. -/
def dbg : State := withL fun l => { l with r := { l.r with dbg := true } }

theorem witness_TrapInstructions : ∀ c ∈ ([
    here (.trap { f0 with a := 249, imm := 0xFFFF }), (dbg, .trap { f0 with a := 249, imm := 7 }, any), here (.bkpt { f0 with a := 249, imm := 7 }),
    (dbg, .bkpt { f0 with a := 249, imm := 7 }, any)] : List Case), c.met :=
  met_of _ (by decide +kernel)

theorem witness_TrapFrame : dbg.group? 1 = some group0 ∧ group0.threads[0]? = some thread0 ∧ (dbg.launchOf group0).r.dbg = true ∧
    group0.threads[63]? = some { st := .exited } ∧ group0.grp < 2 ^ 32 ∧ group0.threads.length ≤ 1024 ∧ dbg.fw.trapAddr + 2 ^ 15 ≤ 2 ^ 52 := by decide +kernel

/-- A frame in use at scratchpad offset 64 of quad 0, thread 0 redirected; `ready` where its fill is done, `flags` in its record. -/
def framed (ready : Bool) (flags : Nat) : State :=
  (withG fun g => { g with frame := some { off := 64, asid := 0, va := 0, tid := 0, fpc := 0, ready := ready, left := [0] } }).writeBytes
    [scratchKey 0 (64 + 64 + 14)] [BitVec.ofNat 8 flags]

/-- Its record stands in a prepared cell. -/
def framedHeld : State := (framed true 1).modDom 1 0 fun k => { k with prep := some [{ key := scratchKey 0 128 / 8, site := .direct, st := .acked }] }

theorem witness_Continuations : ∀ c ∈ ([
    here (.contv { f0 with a := 12, b := 2 }), here (.contv { f0 with a := 2, b := 1 }),
    here (.contv { f0 with a := 12, b := 17 }) (fun g t f => decide (2 ^ 22 < (t.opB f).toNat + 64 + 16 * g.threads.length)),
    here (.svc { f0 with a := 2, b := 249, imm := 4095 }), here (.svc { f0 with a := 1, b := 249, imm := 1 }),
    here (.svc { f0 with a := 16, b := 249, imm := 1 }), here (.resume { f0 with a := 2 }),
    (framed true 1, .resume { f0 with a := 2 }, any), (framed false 1, .resume { f0 with a := 2 }, any), (framed true 3, .resume { f0 with a := 2 }, any),
    (framed true 0, .resume { f0 with a := 2 }, any), (framed true 1, .resume { f0 with a := 1 }, any),
    (framedHeld, .resume { f0 with a := 2 }, fun _ _ _ => framedHeld.prepared (scratchKey 0 128)),
    ({ framed true 1 with poison := [(scratchKey 0 128 / 128, 1)] }, .resume { f0 with a := 2 }, any)] : List Case), c.met :=
  met_of _ (by decide +kernel)

theorem witness_ResumeRestores : ((framed true 1).group? 1).isSome ∧ (((framed true 1).group? 1).bind Group.frame).isSome ∧
    (framed true 1).readNat ((List.range 16).map fun i => scratchKey 0 (64 + 64 + i)) / 2 ^ 112 % 256 = 1 ∧ quadOf group0.core < 2 ^ 20 ∧
    64 + 64 + 16 * 0 + 16 ≤ 2 ^ 22 := by decide +kernel

theorem witness_SpecialRegisters : ∀ c ∈ (
    ((List.range 17).map fun n => here (.srget { f0 with d := 40, a := BitVec.ofNat 8 (216 + n) })) ++
    [here (.srset { f0 with d := 230, a := 4 }),
     (withT fun t => { t with clkl := some 7 }, .srget { f0 with d := 40, a := 229 }, any)] : List Case), c.met :=
  met_of _ (by decide +kernel)

/-! ## Witnesses: memory -/

/-- The clauses on the place of an operand, at the edges of the scratchpad, of a segment, of the space and of a page. -/
theorem witness_MemoryOperands : ∀ c ∈ ([
    here (.ldq { f0 with d := 40, a := 248, c := 248, imm := 0x3FFFFD, t := .b32 }) (access small 4 4 false .read stops),
    here (.ldq { f0 with d := 40, a := 248, c := 248, imm := 0x3FFFFA, t := .b32 }) (access small 4 4 false .read stops),
    here (.ldq { f0 with d := 40, a := 248, c := 1, x := 2, imm := 0x3FFFF8, t := .b32 }) (access small 4 4 false .read lands),
    here (.ld { f0 with d := 40, a := 202, c := 248, t := .b32 }) (fun _ t _ => decide ((t.seg 2).extractLsb' 57 6 = (63 : BitVec 6))),
    here (.ld { f0 with d := 40, a := 203, c := 248, imm := 0xFFFD, t := .b32 }) (access small 4 4 false .read stops),
    here (.st { f0 with a := 201, b := 1, c := 248, t := .b32 }) (fun _ t _ => !(t.seg 1).getLsbD 63),
    here (.ld { f0 with d := 40, a := 204, c := 248, imm := 0xFFFE, t := .b32 }) (access small 4 4 false .read stops),
    here (.ld { f0 with d := 40, a := 200, c := 248, imm := 2, t := .b32 }) (access small 4 4 false .read stops),
    here (.ld { f0 with d := 40, a := 200, c := 248, imm := 0xC0000000, t := .b32 })
      (fun _ _ _ => match small.translate 0 0 0xC0000000 with | .miss c => c == 2 | _ => false),
    (withT fun t => { t with s := segs.set 0 0xC000001C0000000 }, .ld { f0 with d := 40, a := 201, c := 248, imm := 0xFFFC, t := .b32 }, access small 4 4 false .read lands),
    here (.st { f0 with a := 200, b := 1, c := 248, imm := 0x40000000, t := .b32 })
      (fun _ _ _ => match small.translate 0 0 0x40000000 with | .ok l => !(Use.write 0 .b32 0).protects l | _ => false),
    here (.st { f0 with a := 200, b := 1, c := 248, imm := 0x3FFFFFFC, t := .b32 }) (access small 4 4 true (.write 0 .b32 0) lands)] : List Case), c.met :=
  met_of _ (by decide +kernel)

/-- s5 reaches GiB 4 and more: MEMSIDE at 4, a malformed leaf at 5, nothing mapped at 6. -/
def far6 : State := withT fun t => { t with s := segs.set 5 0xC000000100000000 }

theorem witness_MemoryOperands_far : ∀ c ∈ ([
    (far6, .cwr { f0 with d := 192, a := 205, b := 0, c := 248, t := .b32 },
      fun g t f => decide ((far6.aspace g).fmask.getLsbD 6) && access far6 4 4 true (.write 0 .b32 2) stops g t f),
    (far6, .ld { f0 with d := 40, a := 205, c := 248, imm := 0x40000000, t := .b32 },
      fun _ _ _ => match far6.translate 0 0 0x140000000 with | .unmapped => true | _ => false),
    (far6, .st { f0 with a := 205, b := 0, c := 248, imm := 0xFFFC, t := .b32 }, access far6 4 4 true (.write 0 .b32 0) lands)] : List Case), c.met :=
  met_of _ (by decide +kernel)

/-- The object of the small machine's launch stands elsewhere. -/
def codedAt (code : Nat) : State := withL fun l => { l with r := { l.r with code := code } }

theorem witness_LoadsAndSegments : ∀ c ∈ (
    ([Ty.b32, .i32, .n32, .f32].map fun ty => here (.ldk { f0 with d := 248, a := 249, c := 1, x := 2, imm := pool 128 8, t := ty })
      (fun g _ _ => lands (small.accessAt (small.aspace g) ⟨false, 0x20000 + 128 + 8 + 12⟩ 4 4 .exec))) ++
    ([Ty.b32, .i32, .n32, .f32, .bf16x2, .bf16l, .bf16h, .f16, .e4m3, .e5m2, .e2m1, .l6, .i8, .n8, .i16, .n16].flatMap fun ty => [
      here (.ld { f0 with d := 40, a := 200, c := 1, x := 2, imm := 0x200004, t := ty }) (access small (tySize ty) (tyAlign ty) false .read lands),
      here (.ldq { f0 with d := 248, a := 248, c := 248, imm := 64, t := ty }) (access small (tySize ty) (tyAlign ty) false .read lands),
      here (.ldq { f0 with d := 40, a := 248, c := 248, imm := 0x400000, t := ty }) (access small (tySize ty) (tyAlign ty) false .read stops)]) ++ [
    here (.ld { f0 with fn := 3, d := 40, a := 201, c := 248, t := .l6 }), here (.ld { f0 with d := 40, a := 202, c := 248, t := .n8 }),
    here (.ldk { f0 with d := 40, a := 249, c := 248, imm := pool 64 0 }) (fun g _ _ => match small.checkPool g 64 with | .error _ => true | _ => false),
    here (.ldk { f0 with d := 40, a := 249, c := 248, imm := pool 128 1 }), here (.ldk { f0 with d := 40, a := 249, c := 248, imm := pool 128 16 }),
    (codedAt 0xC0000000, .ldk { f0 with d := 40, a := 249, c := 248, imm := pool 128 8 },
      fun _ _ _ => match (codedAt 0xC0000000).translate 0 0 0xC0000090 with | .miss c => c == 2 | _ => false),
    (codedAt 0x180000000, .ldk { f0 with d := 40, a := 249, c := 248, imm := pool 128 8 },
      fun _ _ _ => match (codedAt 0x180000000).translate 0 0 0x180000090 with | .unmapped => true | _ => false),
    (codedAt 0x40000000, .ldk { f0 with d := 40, a := 249, c := 248, imm := pool 128 8, t := .n32 },
      fun _ _ _ => match (codedAt 0x40000000).translate 0 0 0x40000090 with | .ok l => !l.x | _ => false),
    here (.sgset { f0 with d := 214, a := 0, b := 11 }) (fun _ t f => decide (((t.opB f ++ t.opA f : DWord).extractLsb' 57 6).toNat = 32)),
    here (.sgset { f0 with d := 200, a := 0, b := 4 }) (fun _ t f => decide (((t.opB f ++ t.opA f : DWord).extractLsb' 57 6).toNat = 63)),
    (withT fun t => { t with v := regs [0, 0x42000000, 0x7C000000] }, .sgset { f0 with d := 207, a := 0, b := 1 },
      fun _ t f => decide (((t.opB f ++ t.opA f : DWord).extractLsb' 57 6).toNat = 33)),
    (withT fun t => { t with v := regs [0, 0x42000000, 0x7C000000] }, .sgset { f0 with d := 207, a := 0, b := 2 },
      fun _ t f => decide (((t.opB f ++ t.opA f : DWord).extractLsb' 57 6).toNat = 62)),
    here (.sgget { f0 with d := 40, a := 215 }), here (.pref { f0 with a := 202, c := 248 }), here (.pref { f0 with fn := 1, a := 200, c := 248, imm := 0xFFFFFFFF }),
    here (.evict { f0 with a := 202, c := 248 }), here (.evict { f0 with a := 201, c := 248 }),
    here (.xlat { f0 with d := 40, a := 202, c := 248 }),
    here (.xlat { f0 with fn := 1, d := 40, a := 200, c := 248 }) (fun _ _ _ => decide (small.stale = []) && match small.walkAsid 0 0 with | .leaf .. => true | _ => false),
    (far6, .xlat { f0 with fn := 1, d := 40, a := 205, c := 248, imm := 0x40000000 }, fun _ _ _ => decide (far6.walkAsid 0 0x140000000 = .malformed)),
    here (.xlat { f0 with d := 40, a := 200, c := 248 }) (fun _ _ _ => decide (small.stale = []) && match small.walkAsid 0 0 with | .leaf .. => true | _ => false),
    (far6, .xlat { f0 with d := 40, a := 205, c := 248, imm := 0x40000000 }, fun _ _ _ => decide (far6.walkAsid 0 0x140000000 = .malformed)),
    (far6, .xlat { f0 with d := 248, a := 205, c := 248, imm := 0x80000000 }, fun _ _ _ => decide (far6.walkAsid 0 0x180000000 = .invalid 2 (leafEntry 6))),
    (withL fun l => { l with r := { l.r with asid := 5 } }, .xlat { f0 with fn := 1, d := 40, a := 200, c := 248 }, fun _ _ _ => decide (small.walkAsid 5 0 = .noTable))] : List Case), c.met :=
  met_of _ (by decide +kernel)

theorem witness_Stores : ∀ c ∈ (
    ([Ty.b32, .f32, .bf16h, .e2m1, .l6, .n8].flatMap fun ty => [
      here (.st { f0 with a := 200, b := 4, c := 248, imm := 0x200000, t := ty }) (access small (tySize ty) (tyAlign ty) true (.write 0 ty 0) lands),
      here (.stq { f0 with a := 248, b := 248, c := 248, imm := 64, t := ty, m := 7 }) (access small (tySize ty) (tyAlign ty) true (.write 7 ty 0) lands),
      here (.stq { f0 with a := 248, b := 4, c := 248, imm := 0x400000, t := ty }) (access small (tySize ty) (tyAlign ty) true (.write 0 ty 0) stops)]) ++ [
    here (.st { f0 with fn := 3, a := 200, b := 4, c := 248, imm := 0x200001, t := .l6 }), here (.st { f0 with a := 201, b := 4, c := 248, t := .n8 }),
    here (.fwr { f0 with d := 40, a := 248, b := 4, c := 248, m := 2, t := .i32 }) (access small 4 4 true (.write 2 .i32 1) lands),
    here (.fwr { f0 with d := 248, a := 200, b := 248, c := 248, imm := 0x200000, m := 0, t := .b32 }) (access small 4 4 true (.write 0 .b32 1) lands),
    here (.cwr { f0 with d := 198, a := 248, b := 4, c := 248, m := 0, t := .i32 }) (access small 4 4 true (.write 0 .i32 2) lands),
    here (.cwr { f0 with fn := 5, d := 192, a := 248, b := 0, c := 248, m := 3, t := .f32 }) (access small 4 4 true (.write 3 .f32 2) lands),
    here (.satom { f0 with d := 40, a := 200, b := 4, c := 248, t := .i32 }) (access small 4 4 true .satom stops),
    (system, .satom { f0 with fn := 2, d := 40, a := 200, b := 4, c := 248, imm := 0x40000000 }, access system 4 4 true .satom lands),
    (system, .satom { f0 with d := 248, a := 200, b := 248, c := 248, imm := 0x40000000, t := .n32 }, access system 4 4 true .satom lands)] : List Case), c.met :=
  met_of _ (by decide +kernel)

/-! ## Witnesses: the copy engine -/

/-- Ring 1 is bound with slots of 64 bytes, 4 of them; ring 2 is a message ring; ring 3 holds an acquired slot. -/
def ringed : State := withG fun g => { g with
  rings := ((g.rings.set 1 { bound := true, slotSize := 64, base := 1024, slots := List.replicate 4 (.free, 0) }).set 2
    { bound := true, msg := true, plaunch := 0, pgrp := 0, port := 3, slotSize := 64, base := 2048, slots := List.replicate 2 (.free, 0) }).set 3
    { bound := true, slotSize := 64, base := 4096, slots := [(.acquired, 64), (.free, 0)], head := 1, tail := 1, acq := [0] } }

/-- The thread with registers. -/
def withV (l : List Word) (s : State := small) : State := withT (fun t => { t with v := regs l }) s

def placed (w : Bool) (seg : BitVec 8) (off len : Nat) (_ : Group) (t : Thread) (_ : Fields) : Bool :=
  match t.range seg off len 1 w with | .ok _ => true | .error _ => false

theorem witness_CopyRequests : ∀ c ∈ ([
    (withV [0, 0x1000001], .cpy { f0 with d := 0, a := 200, b := 0, c := 248 }, any),
    (withV [0, 0, 0x400000], .cpy { f0 with d := 0, a := 200, b := 0, c := 2 }, placed false 200 0 0),
    (withV [0, 0x400000, 0], .cpy { f0 with d := 31, a := 200, b := 0, c := 2 }, placed false 200 0 0x400000),
    (withV [0, 0, 64], .cpy { f0 with fn := 1, d := 0, a := 200, b := 0, c := 2 }, placed true 200 0 0),
    (withV [64, 32, 64], .cpy { f0 with fn := 1, d := 0, a := 200, b := 0, c := 2 }, placed true 200 64 32),
    (withV [0, 64, 63], .cpy { f0 with fn := 2, d := 0, a := 248, b := 0, c := 2 }, any),
    (withV [0, 64, 64], .cpy { f0 with fn := 2, d := 0, a := 248, b := 0, c := 2 }, any),
    (withV [64, 64, 127], .cpy { f0 with fn := 3, d := 0, a := 200, b := 0, c := 2 }, fun _ _ _ => overlap ⟨false, 64⟩ ⟨false, 127⟩ 64),
    (withV [64, 64, 128], .cpy { f0 with fn := 3, d := 0, a := 200, b := 0, c := 2 }, fun _ _ _ => !overlap ⟨false, 64⟩ ⟨false, 128⟩ 64),
    (withV [0, 0], .cpym { f0 with d := 0, a := 200, b := 0, c := 248, imm := 1 }, any), (withV [0, 0x400001], .cpym { f0 with d := 0, a := 200, b := 0, c := 248, imm := 1 }, any),
    (withV [0, 0x400000], .cpym { f0 with d := 0, a := 200, b := 0, c := 248, imm := 0x10000 }, placed false 200 0 0x400000),
    (withV [0, 1], .cpym { f0 with d := 4, a := 248, b := 0, c := 248, imm := 0x18000 }, placed false 248 0 1),
    (withV [0, 4097], .cpyg { f0 with d := 0, a := 200, b := 0, c := 248, imm := 1 }, any), (withV [0, 1], .cpyg { f0 with d := 0, a := 200, b := 0, c := 248, imm := 0 }, any),
    (withV [0, 1], .cpyg { f0 with d := 0, a := 200, b := 0, c := 248, imm := 4097 }, any), (withV [2, 4096], .cpyg { f0 with d := 0, a := 200, b := 0, c := 248, imm := 1 }, any),
    (withV [4, 0], .cpyg { f0 with d := 0, a := 200, b := 0, c := 248, imm := 4096 }, any), (withV [4, 1024], .cpyg { f0 with d := 0, a := 200, b := 0, c := 248, imm := 4096 }, any),
    (ringed, .rput { f0 with d := 1, a := 248, b := 248, c := 248 }, any), (ringed, .rput { f0 with d := 0, a := 248, b := 1, c := 248 }, placed false 248 0 1),
    (ringed, .rput { f0 with d := 2, a := 248, b := 1, c := 248 }, fun g _ _ => (g.ring 2).msg), (withV [0, 65] ringed, .rput { f0 with d := 1, a := 248, b := 1, c := 248 }, any),
    (withV [0, 64] ringed, .rput { f0 with d := 1, a := 248, b := 1, c := 248 }, fun g _ _ => decide ((g.ring 1).slotSize = 64)),
    (withV [0x0F00F0FF, 65520, 0x100000, 0xFF0FF, 0x3F0010], .send { f0 with d := 0, a := 2, b := 1, c := 248 }, any), (withV [0, 65521], .send { f0 with d := 0, a := 0, b := 1, c := 248 }, any),
    (withV [0x100, 1], .send { f0 with d := 0, a := 0, b := 1, c := 248 }, any), (withV [0, 0], .send { f0 with d := 0, a := 0, b := 1, c := 248 }, any),
    (withV [0xFF0FF, 65520, 0x3F0010], .send { f0 with d := 31, a := 0, b := 1, c := 2 }, fun _ t f => decide ((t.opC f).toNat + 65520 = 2 ^ 22))] : List Case), c.met :=
  met_of _ (by decide +kernel)

/-- A ring descriptor with SLOTSZ 4 and one slot at 4096 stands at scratchpad offset 64, and a bad one at 96. -/
def described : State := ringed.writeBytes (scratchKeys 0 64 16) (bytesOf 16 (4 * 2 ^ 36 + 4096))

theorem witness_CountersAndRings : ∀ c ∈ ([
    here (.lcsetArm { f0 with d := 31, a := 4 }), (withV [0, 0x400000, 0x10000], .lcsetBind { f0 with fn := 1, d := 0, a := 0, b := 0, c := 0 }, any),
    (withV [0, 0x400001], .lcsetBind { f0 with fn := 1, d := 0, a := 0, b := 1, c := 0 }, any), (withV [0, 1, 0x10000], .lcsetBind { f0 with fn := 1, d := 0, a := 0, b := 1, c := 2 }, any),
    (withV [1, 0x400000, 0xFFFF], .lcsetBind { f0 with fn := 1, d := 0, a := 0, b := 1, c := 2 }, any), (withV [0, 0x400000, 0xFFFF], .lcsetBind { f0 with fn := 1, d := 0, a := 0, b := 1, c := 2 }, any),
    here (.lcsetUnbind { f0 with fn := 2, d := 0 }), here (.lcget { f0 with fn := 3, d := 40, a := 31 }), here (.lcget { f0 with d := 248, a := 0 }),
    (withV [65] described, .rbindBind { f0 with d := 0, a := 0 }, any), (withV [64] described, .rbindBind { f0 with d := 1, a := 0 }, fun g _ _ => (g.ring 1).bound),
    (withV [64] described, .rbindBind { f0 with d := 0, a := 0 }, fun _ _ _ => (RingDesc.of (BitVec.ofNat 128 (described.readNat (scratchKeys 0 64 16)))).ok),
    (withV [96] described, .rbindBind { f0 with d := 15, a := 0 }, fun _ _ _ => !(RingDesc.of (BitVec.ofNat 128 (described.readNat (scratchKeys 0 96 16)))).ok),
    (ringed, .rbindFree { f0 with fn := 1, d := 0 }, any), (ringed, .rbindFree { f0 with fn := 1, d := 1 }, any), (ringed, .racq { f0 with d := 40, a := 0 }, any), (ringed, .racq { f0 with d := 40, a := 1 }, any),
    (ringed, .rhead { f0 with d := 40, a := 0 }, any), (ringed, .rhead { f0 with d := 40, a := 1 }, any), (ringed, .rrel { f0 with d := 0 }, any),
    (ringed, .rrel { f0 with d := 1 }, fun g _ _ => decide ((g.ring 1).acq = [])), (ringed, .rrel { f0 with d := 3 }, fun g _ _ => decide ((g.ring 3).acq ≠ []))] : List Case), c.met :=
  met_of _ (by decide +kernel)

/-- An instance of the thread's instruction is open, or none is. -/
def opened : State := small.modDom 1 0 fun k => { k with insts := [{ coh := 0, pc := 40, rank := 1, seq := 0, order := 0, act := .none, takers := [] }] }

theorem witness_Instances : small.findInst ⟨1, 0⟩ group0 40 = none ∧ (opened.findInst ⟨1, 0⟩ group0 40).isSome ∧ group0.domOf 0 < group0.doms.length := by
  decide +kernel

/-! ## Witnesses: streams -/

/-- Names t0-t3 of cohort 0: released, given, a free tile, a full one; t4 is filling in this domain and t5 in another. -/
def tiled : State :=
  let names : Table Name := [(1, .given), (2, .mapped 10), (3, .mapped 11), (4, .mapped 12), (5, .mapped 13), (6, .mapped 14)]
  let full : Tile := { quad := 0, grp := 1, st := .full }
  let filling : Tile := { quad := 0, grp := 1, st := .filling }
  { withG (fun g => { g with names := names, basins := [(0, 20)] }) with
    tiles := [(10, { quad := 0, grp := 1 }), (11, full), (12, { filling with fillDom := some 0 }), (13, filling),
      (14, { full with data := { fmt := 2, bad := true } })]
    basins := [(20, { grp := 1, bh := 0, core := 1, row := 0, rows := 64 })]
    fresh := 30 }

theorem witness_StreamInstructions : ∀ c ∈ ([
    (withV [0, 0x1000001], .sopen { f0 with d := 0, a := 200, b := 0, t := .n32 }, any), (withV [0, 0x100001], .sopen { f0 with d := 0, a := 248, b := 0, t := .n32 }, any),
    (withV [4, 4], .sopen { f0 with d := 7, a := 200, b := 0, t := .n32 }, fun _ t f => match t.streamPlace f 4 4 with | .ok _ => true | _ => false),
    (withV [2, 4], .sopen { f0 with d := 7, a := 200, b := 0, t := .n32 }, fun _ t _ => match t.place 200 2 16 false with | .ok l => decide (l.addr % 4 ≠ 0) | _ => false),
    (withV [2, 4], .sopen { f0 with d := 7, a := 248, b := 0, t := .n32 }, any),
    (withT (fun t => { t with s := segs.set 0 0xC000000000000002 }) (withV [2, 4]), .sopen { f0 with d := 7, a := 200, b := 0, t := .n32 },
      fun _ t f => match t.streamPlace f 2 4 with | .ok _ => true | _ => false),
    (withV [0, 0x100000], .sopen { f0 with d := 0, a := 248, b := 0, t := .n32 }, fun _ t f => match t.streamPlace f 0 0x100000 with | .ok _ => true | _ => false),
    here (.sclose { f0 with d := 0 }), here (.sisect { f0 with d := 3, a := 0, b := 1 }), here (.smerge { f0 with d := 3, a := 0, b := 1 }), here (.smerge { f0 with fn := 1, d := 3, a := 0, b := 7 }),
    here (.scount { f0 with d := 40, a := 0, b := 1 }), here (.nzscan { f0 with d := 0, a := 0, b := 0, imm := 0 }), here (.nzscan { f0 with d := 248, a := 0, b := 0, imm := 16385 }), here (.nzscan { f0 with d := 0, a := 0, b := 0, imm := 16385 }),
    (withV [0x3FFFE1], .nzscan { f0 with d := 0, a := 0, b := 0, imm := 2 }, any), (withV [8], .nzscan { f0 with d := 248, a := 0, b := 0, imm := 1 }, any),
    (withV [16], .nzscan { f0 with d := 0, a := 0, b := 0, imm := 16384 }, any), here (.sstat { f0 with d := 40, a := 7 }),
    (withV [0, 0] tiled, .sgath { f0 with d := 0, a := 0, b := 248, c := 0, t := .f16 }, fun g _ _ => decide (g.name 0 0 = .released)),
    (withV [0, 0] tiled, .sgath { f0 with d := 6, a := 0, b := 248, c := 0, t := .f16, imm := 0x40 }, fun g _ _ => decide (g.name 0 7 = .released ∧ g.name 0 6 = .mapped 14)),
    (withV [1, 0] tiled, .sgath { f0 with d := 2, a := 0, b := 248, c := 0, t := .f16 }, fun g _ _ => decide (g.name 0 2 = .mapped 10)),
    (withV [0, 2] tiled, .sgath { f0 with d := 3, a := 0, b := 248, c := 0, t := .f16 }, fun _ _ _ => decide ((tiled.tiles.find? 11).map Tile.st = some .full)),
    (withV [0, 2] tiled, .sgath { f0 with d := 2, a := 0, b := 200, c := 0, t := .bf16l, imm := 0x21 }, fun _ _ _ => decide ((tiled.tiles.find? 10).map Tile.st = some .free)),
    (tiled |> withG (fun g => { g with names := [(63, .mapped 10)] }) |> withV [0, 0], .sgath { f0 with d := 63, a := 0, b := 248, c := 0, t := .f16, imm := 0x40 }, fun g _ _ => decide (g.name 0 63 = .mapped 10))]
    : List Case), c.met :=
  met_of _ (by decide +kernel)

/-! ## Witnesses: tiles and matrices -/

/-- Every slot of quad 0 is taken. -/
def packed : State := { tiled with tiles := ((List.range 4096).map fun i => (i + 100, ({ quad := 0, grp := 1 } : Tile))) }

theorem witness_TileHandles : ∀ c ∈ ([
    (tiled, .talloc { f0 with d := 8, imm := 0 }, any), (tiled, .talloc { f0 with d := 0, imm := 65 }, any), (tiled, .talloc { f0 with d := 1, imm := 64 }, any),
    (tiled, .talloc { f0 with d := 1, imm := 2 }, fun g _ _ => decide (g.name 0 2 = .mapped 10)),
    (tiled, .talloc { f0 with d := 7, imm := 57 }, fun _ _ _ => decide (57 ≤ tiled.poolFree 0 ∧ (tiled.quad 0).tallocs = [])),
    (packed, .talloc { f0 with d := 0, imm := 2 }, fun _ _ _ => decide (packed.poolFree 0 < 2)),
    (tiled, .tfree { f0 with d := 8, imm := 0 }, any), (tiled, .tfree { f0 with d := 63, imm := 2 }, any), (tiled, .tfree { f0 with d := 2, imm := 5 }, any),
    (tiled, .tgive { f0 with d := 0 }, any), (tiled, .tgive { f0 with d := 1 }, any), (tiled, .tgive { f0 with d := 2, imm := 1 }, fun g _ _ => decide (g.ncoh ≤ 1)), (tiled, .tgive { f0 with d := 2, imm := 0xF0 }, any),
    (tiled, .ttake { f0 with d := 2 }, any), (tiled, .ttake { f0 with d := 1, imm := 15 }, any), (tiled, .tqry { f0 with d := 40, a := 2 }, any)] : List Case), c.met :=
  met_of _ (by decide +kernel)

/-- The instance has sampled its value. -/
def sampledInst : State := small.modDom 1 0 fun k => { k with insts := [{ coh := 0, pc := 40, rank := 1, seq := 0, order := 0, act := .value (some [7]), takers := [] }] }

theorem witness_TileHandles_shared : (∀ c ∈ ([(sampledInst, .tqry { f0 with d := 40, a := 2 }, any), (sampledInst, .tzf { f0 with d := 40, a := 3 }, any)] : List Case), c.met) ∧
    (sampledInst.findInst ⟨1, 0⟩ group0 40).map (·.act) = some (.value (some [7])) :=
  ⟨met_of _ (by decide +kernel), by decide +kernel⟩

theorem witness_SlotsAllocated : ∀ id, small.fresh ≤ id → small.tiles.find? id = none := fun _ _ => rfl

theorem witness_TileTransfers : ∀ c ∈ ([
    (tiled, .tld { f0 with d := 0, a := 248, b := 248, c := 248, t := .f16 }, any), (tiled, .tld { f0 with d := 1, a := 248, b := 0, c := 248, t := .f16 }, any),
    (tiled, .tld { f0 with d := 3, a := 248, b := 0, c := 248, t := .f16 }, any), (tiled, .tld { f0 with fn := 1, d := 2, a := 248, b := 0, c := 248, t := .f16 }, any),
    (tiled, .tld { f0 with fn := 1, d := 2, a := 248, b := 0, c := 248, t := .e4m3, imm := 16 }, fun _ t _ => match t.range 248 16 (storedSize 2) 16 false with | .ok _ => true | _ => false),
    (tiled, .tst { f0 with d := 248, a := 248, b := 4, c := 248 }, any), (tiled, .tst { f0 with d := 248, a := 248, b := 5, c := 248 }, any),
    (tiled, .tst { f0 with d := 248, a := 248, b := 6, c := 248 }, any), (tiled, .tst { f0 with d := 0, a := 248, b := 2, c := 248 }, fun _ t _ => match t.range 248 0 (storedSize 0) 16 true with | .ok _ => true | _ => false),
    (tiled, .tst { f0 with d := 0, a := 248, b := 3, c := 248 }, any),
    (withV [0, 0x22] tiled, .cpyt { f0 with d := 2, a := 248, b := 0, c := 1, imm := 32 }, fun _ _ _ => convOk 0x22 0),
    (withV [0, 0x400] tiled, .cpyt { f0 with d := 2, a := 248, b := 0, c := 1 }, fun _ _ _ => !convOk 0x400 0),
    (withV [0, 0x22] tiled, .cpyt { f0 with fn := 2, d := 3, a := 248, b := 0, c := 1 }, fun _ _ _ => convOk 0x22 2),
    (withV [0, 0x01] tiled, .cpyt { f0 with fn := 1, d := 3, a := 248, b := 0, c := 1 }, fun _ _ _ => convOk 1 1),
    (withV [0, 0x10] tiled, .cpyt { f0 with fn := 1, d := 3, a := 248, b := 0, c := 1, imm := 63 }, fun _ t _ => convOk 0x10 1 && match t.range 248 0 (storedSize 1) 1 true with | .ok _ => true | _ => false)]
    : List Case), c.met :=
  met_of _ (by decide +kernel)

theorem witness_TileElements : ∀ c ∈ ([
    (tiled, .tzf { f0 with d := 40, a := 0 }, any), (tiled, .tzf { f0 with d := 40, a := 1 }, any), (tiled, .tzf { f0 with d := 40, a := 2 }, any), (tiled, .tzf { f0 with d := 40, a := 3 }, any),
    (tiled, .tzf { f0 with d := 40, a := 4 }, any), (tiled, .tzf { f0 with d := 40, a := 5 }, any), (tiled, .tzf { f0 with d := 248, a := 6 }, any)] : List Case), c.met :=
  met_of _ (by decide +kernel)

/-- The full tile is one that a record reads, or a latch weighs. -/
def readBy : State := { tiled with recs := [(7, { grp := 1, dom := 0, coh := 0, kind := 1, bas := 20, bh := 0, row0 := 0, nrow := 1, pc := 0, rank := 0, tiles := [11] })] }

theorem witness_TileElements_cohort : ∀ c ∈ ([
    (tiled, .tget { f0 with d := 40, a := 5, b := 0 }, any₃), (withV [1] tiled, .tget { f0 with d := 40, a := 2, b := 0 }, any₃), (withV [31] tiled, .tget { f0 with d := 40, a := 2, b := 0 }, any₃),
    (withV [30] tiled, .tget { f0 with d := 40, a := 3, b := 0 }, any₃), (withV [0] tiled, .tget { f0 with fn := 1, d := 248, a := 2, b := 0 }, any₃),
    (withV [33] tiled, .tset { f0 with d := 3, a := 1, b := 0 }, any₃), (withV [0] tiled, .tset { f0 with d := 2, a := 1, b := 0 }, any₃),
    (withV [0] readBy, .tset { f0 with d := 3, a := 1, b := 0 }, fun _ _ _ => readBy.recordReads 11 && !readBy.weighs 11),
    (withV [30] tiled, .tset { f0 with fn := 1, d := 3, a := 1, b := 0 }, fun _ _ _ => !tiled.recordReads 11 && !tiled.weighs 11)] : List CohortCase), c.met :=
  cohorts_of _ (by decide +kernel)

/-- A scratchpad descriptor of f16 rows of 64 bytes, tiles 2,048 bytes apart. -/
def desc16 : Word := 0x10008004

/-- The same of rows of the fourth format, of which a full latch has 72 tiles. -/
def desc4 : Word := 0x40008002

theorem witness_MatrixRecords : ∀ c ∈ ([
    (tiled, .binit { f0 with d := 1 }, any), (tiled, .binit { f0 with d := 0, imm := 0x8040 }, fun _ _ f => decide (64 < f.imm.toNat % 512 + (f.imm.toNat / 512 % 512 + 1))),
    (tiled, .binit { f0 with d := 0, imm := 255 * 2 ^ 18 }, any), (tiled, .binit { f0 with d := 0, imm := 254 * 2 ^ 18 + 63 * 512 }, any), (tiled, .binit { f0 with fn := 1, d := 0, imm := 63 }, any),
    (tiled, .bscale { f0 with d := 0, imm := 65 * 2 ^ 18 }, any), (tiled, .bscale { f0 with d := 0, imm := 64 * 2 ^ 18 }, any), (tiled, .bscale { f0 with d := 0, imm := 192 * 2 ^ 18 }, any), (tiled, .bscale { f0 with d := 0, imm := 191 * 2 ^ 18 }, any),
    (tiled, .bsave { f0 with d := 0, a := 248, b := 248, imm := 64 }, any), (tiled, .bsave { f0 with d := 0, a := 248, b := 248, imm := 2 ^ 23 }, any),
    (tiled, .bsave { f0 with d := 0, a := 248, b := 14 }, fun _ t _ => match t.place 248 2 2304 true with | .ok _ => true | _ => false),
    (tiled, .brst { f0 with d := 0, a := 200, b := 14 }, fun _ t _ => match t.place 200 2 2304 false with | .ok _ => true | _ => false),
    (tiled, .brst { f0 with d := 0, a := 248, b := 248, imm := 64 * 512 }, any), (tiled, .brst { f0 with d := 0, a := 200, b := 13, imm := 63 * 512 }, any),
    (tiled, .wld { f0 with d := 0, a := 3, b := 248, c := 248, imm := 0x3 }, fun _ _ _ => decide (tiled.recorded 11 = (0, false) ∧ bandsOf 0 < 3 + 1)),
    (tiled, .wld { f0 with d := 0, a := 6, b := 248, c := 248, imm := 0x5 }, fun _ _ _ => decide (tiled.anyBad [14] ∧ bandsOf 2 = 6)),
    (tiled, .wld { f0 with d := 0, a := 3, b := 248, c := 248, imm := 0x2 }, fun _ _ _ => !tiled.anyBad [11]),
    (withV [0, desc16] tiled, .wld { f0 with d := 0, a := 248, b := 0, c := 1, x := 1, imm := 0x520 }, fun _ _ _ => spOk 0 desc16 [0, 1, 2, 3, 4, 5] 18),
    (withV [0, desc4] tiled, .wld { f0 with d := 0, a := 248, b := 0, c := 1, x := 1, imm := 0x5B0 }, fun _ _ _ => decide (bandsOf (descFmt desc4) = 12) && spOk 0 desc4 [0, 1, 2, 3, 4, 5] 72),
    (withV [1, desc16] tiled, .wld { f0 with d := 0, a := 248, b := 0, c := 1, x := 1, imm := 0 }, fun _ _ _ => !spOk 1 desc16 [0, 1, 2, 3, 4, 5] 1),
    (tiled, .mma { f0 with d := 0, a := 2, b := 248, c := 248, imm := 3 * 2 ^ 18 }, fun _ _ _ => decide (bandsOf 0 < 3 + 1)),
    (tiled, .mma { f0 with d := 0, a := 6, b := 248, c := 248, imm := 0 }, fun _ _ _ => tiled.anyBad [14]),
    (tiled, .mma { f0 with d := 0, a := 2, b := 248, c := 248, imm := 63 * 512 }, fun _ _ _ => !tiled.anyBad [10, 11]),
    (withV [16, desc16] tiled, .mma { f0 with d := 0, a := 248, b := 0, c := 1, x := 1, imm := 63 * 512 + 2 * 2 ^ 22 }, fun _ _ _ => spOk 16 desc16 [0, 1, 2, 3, 4, 5] 6),
    (withV [8, desc16] tiled, .mma { f0 with d := 0, a := 248, b := 0, c := 1, x := 1, imm := 0 }, fun _ _ _ => !spOk 8 desc16 [0, 1, 2, 3, 4, 5] 1),
    (tiled, .rslv { f0 with d := 0, a := 2, b := 248, c := 248, imm := 6 * 2 ^ 21 }, any), (tiled, .rslv { f0 with d := 0, a := 3, b := 248, c := 248, imm := 5 * 2 ^ 21 }, fun _ _ _ => decide ((tiled.tiles.find? 11).map Tile.st ≠ some .free)),
    (tiled, .rslv { f0 with d := 0, a := 2, b := 248, c := 248, imm := 2 ^ 21 + 2 ^ 30 }, fun _ _ _ => decide ((tiled.tiles.find? 10).map Tile.st = some .free)),
    (withV [0, desc16] tiled, .rslv { f0 with d := 0, a := 248, b := 0, c := 1, x := 1, imm := 2 ^ 21 }, fun _ _ _ => decide (descFmt desc16 = 1 ∧ spOk 0 desc16 [0, 1, 2, 3, 4, 5, 6] 1)),
    (withV [0, desc16] tiled, .rslv { f0 with d := 0, a := 248, b := 0, c := 1, x := 1, imm := 0 }, fun _ _ _ => decide (descFmt desc16 ≠ 0))] : List Case), c.met :=
  met_of _ (by decide +kernel)

/-- A scratchpad descriptor of e4m3 rows; a byte of the header at 0 is set, its line is poisoned, or its cell prepared. -/
def desc8 : Word := 0x20000002
def header (s : State) : State := withV [0, desc8] { s with groups := s.groups.map fun p => (p.1, { p.2 with basins := [(0, 20)] }), basins := tiled.basins }
def setHeader : State := header (small.writeByte (scratchKey 0 5) 1)
def poisonedHeader : State := header { small with poison := [(scratchKey 0 5 / 128, 1)] }
def preparedHeader : State :=
  header { small with groups := small.groups ++ [(2, { group0 with doms := [{ prep := some [⟨scratchKey 0 5 / 8, .direct, .acked⟩] }] })] }

def heads (s : State) (p : Except Stop Unit → Bool) (g : Group) (t : Thread) (f : Fields) : Bool :=
  spOk (t.opB f) (t.opC f) [0, 1, 2, 3, 4, 5] 1 && p (s.spHeaders g (t.opB f).toNat (t.opC f) false 1)

theorem witness_MatrixRecords_headers : ∀ c ∈ ([setHeader, poisonedHeader, preparedHeader].flatMap fun s => [
      (s, .wld { f0 with d := 0, a := 248, b := 0, c := 1, x := 1 }, heads s fun e => match e with | .error _ => true | _ => false),
      (s, .mma { f0 with d := 0, a := 248, b := 0, c := 1, x := 1 }, heads s fun e => match e with | .error _ => true | _ => false)] : List Case), c.met :=
  met_of _ (by decide +kernel)

theorem witness_LaneRecords : ∀ c ∈ ([
    (tiled, .bcmp { f0 with d := 40, a := 0, imm := 64 }, any₃), (tiled, .bcmp { f0 with fn := 2, d := 248, a := 0, imm := 63 * 512 }, any₃),
    (tiled, .bmov { f0 with d := 40, a := 0, imm := 64 }, any₃), (tiled, .bmov { f0 with fn := 1, d := 40, a := 0, imm := 63 + 191 * 512 }, any₃), (tiled, .bmov { f0 with d := 40, a := 0, imm := 192 * 512 }, any₃)]
    : List CohortCase), c.met :=
  cohorts_of _ (by decide +kernel)

/-- The rows of core 1's Basin are all bound. -/
def filled : State := { tiled with basins := [(20, { grp := 1, bh := 0, core := 1, row := 0, rows := 512 })] }

theorem witness_BasinRegions : ∀ c ∈ ([
    (tiled, .balloc { f0 with d := 0, imm := 32 }, any), (tiled, .balloc { f0 with d := 1, imm := 31 }, any), (tiled, .balloc { f0 with d := 1, imm := 0 }, any), (tiled, .balloc { f0 with d := 1, imm := 544 }, any),
    (tiled.modCore 3 (fun k => { k with arrayOut := true }), .balloc { f0 with d := 1, imm := 32 + 3 * 1024 }, any),
    (tiled, .balloc { f0 with d := 1, imm := 512 + 2 * 1024 }, fun _ _ _ => decide (tiled.freeRows 2 512 = some 0 ∧ tiled.ballocs = [] ∧ tiled.handleBusy 1 1 = false)),
    (filled, .balloc { f0 with d := 15, imm := 32 + 1024 }, fun _ _ _ => decide (filled.freeRows 1 32 = none ∧ filled.handleBusy 1 15 = false)),
    (tiled, .bfree { f0 with d := 1 }, any), (tiled, .bfree { f0 with d := 0 }, any), (tiled, .mtaskq { f0 with a := 248, b := 0, c := 248 }, any),
    (withV [0, 4097] tiled, .mtaskq { f0 with a := 248, b := 0, c := 1 }, any), (withV [32, 1] tiled, .mtaskq { f0 with a := 248, b := 0, c := 1 }, any),
    (withV [64, 4096] tiled, .mtaskq { f0 with a := 200, b := 0, c := 1 }, fun _ t _ => match t.place 200 64 (64 * 4096) false with | .ok _ => true | _ => false)] : List Case), c.met :=
  met_of _ (by decide +kernel)

/-! ## Witnesses: fabric and dispatch -/

/-- The first group of a pod gang of one module. -/
def pod : State := withL fun l => { l with r := { l.r with gang := 4 } }

theorem witness_FabricInstructions : ∀ c ∈ ([
    here (.xput { f0 with fn := 3, d := 248, a := 200, b := 4, c := 248 }) (access small 16 4 true (.peer true) stops), here (.xput { f0 with d := 0, a := 200, b := 4, c := 248, imm := 0x80000000 }),
    here (.xget { f0 with d := 40, a := 201, c := 248 }) (access small 4 4 false (.peer false) stops), here (.xget { f0 with fn := 3, d := 40, a := 200, c := 248, imm := 0x80000000 }),
    (det, .xfwr { f0 with d := 40, a := 200, b := 4, c := 248 }, any), here (.xfwr { f0 with d := 40, a := 200, b := 4, c := 248, m := 2, t := .i32 }) (access small 4 4 true (.peer true) stops),
    here (.xfwr { f0 with d := 248, a := 200, b := 248, c := 248, imm := 0x80000000 }),
    here (.xqry { f0 with fn := 3, d := 40 }), here (.digest { f0 with d := 40, a := 2 }), (withV [63], .digest { f0 with fn := 2, d := 40, a := 0 }, any),
    here (.xallg { f0 with d := 248, a := 248, b := 0, c := 248 }), here (.xred { f0 with d := 0, a := 248, b := 0, c := 248, t := .i32 }), here (.xbcst { f0 with d := 0, a := 248, b := 0, c := 248 }),
    (withV [0, 3] pod, .xallg { f0 with d := 248, a := 248, b := 0, c := 248 }, any), (withV [0, 0] pod, .xred { f0 with d := 0, a := 248, b := 0, c := 248, t := .f32 }, any), (withV [0, 4] pod, .xbcst { f0 with d := 0, a := 248, b := 0, c := 248, imm := 1 }, any),
    (withV [0, 4, 3] pod, .xallg { f0 with d := 248, a := 248, b := 0, c := 2 }, any), (withV [0, 4, 4] pod, .xallg { f0 with d := 248, a := 248, b := 0, c := 2 }, any),
    (withV [64, 16, 0] pod, .xred { f0 with d := 0, a := 248, b := 0, c := 2, t := .n32 }, any), (withV [0, 0x200000, 0x200000] pod, .xbcst { f0 with d := 0, a := 248, b := 0, c := 2 }, any)] : List Case), c.met :=
  met_of _ (by decide +kernel)

/-- Queue 5 is open to device programs, queue 6 to the host alone. -/
def queued : State := (small.modQueue 5 fun k => { k with opened := true, dev := true, base := 0x300000 }).modQueue 6 fun k => { k with opened := true }

theorem witness_DispatchInstructions : ∀ c ∈ ([
    here (.spawn { f0 with fn := 15, a := 249, b := 0, imm := rel 64 }) (reaches [3] near false), here (.spawn { f0 with a := 249, b := 0, imm := rel 96 }) (reaches [3] near true),
    (det, .spawn { f0 with a := 249, b := 0, imm := rel 96 }, any), here (.launch { f0 with d := 248, a := 202, b := 248, c := 248 }),
    (withV [0x3FFF80, 5] queued, .launch { f0 with d := 0, a := 248, b := 0, c := 1 }, fun g _ _ => lands (queued.accessAt (queued.aspace g) ⟨true, 0x3FFF80⟩ 128 1 .read)),
    (withV [32, 5] queued, .launch { f0 with d := 248, a := 248, b := 0, c := 1 }, any), (withV [64, 64] queued, .launch { f0 with d := 248, a := 248, b := 0, c := 1 }, any),
    (withV [64, 6] queued, .launch { f0 with d := 248, a := 248, b := 0, c := 1 }, any), here (.launch { f0 with d := 248, a := 200, b := 248, c := 249, imm := 63 }),
    (far6, .launch { f0 with d := 248, a := 205, b := 11, c := 248 }, fun g _ _ => stops (far6.accessAt (far6.aspace g) ⟨false, 0x140000000⟩ 128 1 .read)),
    here (.yield f0), here (.role { f0 with a := 20 }), here (.role { f0 with a := 249, imm := 255 }), here (.prio { f0 with a := 249, imm := 4 }), here (.prio { f0 with a := 0 }), here (.prio { f0 with a := 1 }), here (.prio { f0 with a := 3 }),
    here (.tmset { f0 with a := 4 })] : List Case), c.met :=
  met_of _ (by decide +kernel)

/-! ## Witnesses: events

Each list holds, clause by clause of a statement, that a state meets what the clause asks. -/

/-- What a state holds of its group and thread. -/
def on (s : State) (p : State → Group → Thread → Bool) : Bool :=
  match s.group? 1, s.thread? ⟨1, 0⟩ with
  | some g, some t => p s g t
  | _, _ => false

/-- The thread has arrived at its boundary, with what it has asked for. -/
def arrived (fx : List Fx) (s : State := small) : State :=
  withT (fun t => { t with st := .boundary, arr := some { order := 0 }, fx := fx }) s

/-- A word written under a rule. -/
def wr (key v rule : Nat) : Write :=
  { acc := ⟨false, key, physKeys key 4⟩, mask := 2 ^ 32 - 1, value := v, rule := rule, t := .i32, kind := .st, pc := 40 }

def withD (f : Domain → Domain) (s : State := small) : State := withG (fun g => { g with doms := g.doms.modify 0 f }) s

/-- Another group has prepared the cell at 0x1000. -/
def preparedBy2 (s : State) : State :=
  { s with groups := s.groups ++ [(2, { group0 with doms := [{ prep := some [⟨0x200, .direct, .acked⟩] }] })] }

/-- The line at 0x1000 is poisoned. -/
def poisonedAt (s : State) : State := { s with poison := [(0x20, BitVec.allOnes 128)] }

/-- The thread waits for one result. -/
def owed (src : Src) (s : State := small) : State := withT (fun t => { t with defs := [{ seq := 5, dst := .regs 40 1, src := src }] }) s

def acc0 : Acc := ⟨false, 0x1000, physKeys 0x1000 4⟩

def atomic0 (old : Option Word) : State :=
  withD fun k => { k with phase := .committed, satoms := [(⟨1, 0⟩, { acc := acc0, fn := 0, x := 1, y := 2, seq := 5, pc := 40 }, old)] }

/-- The group is dropped once the event under way is done. -/
def flushing (s : State) : State := withG (fun g => { g with st := .flushing true }) s

/-- An event that has prepared the domain's cell goes before the domain's. -/
def behind (s : State) : State :=
  { s with groups := s.groups ++ [(2, { group0 with doms := [{ prepNo := some 0, prep := some [⟨0x200, .direct, .acked⟩] }] })] }

def begun (s : State) : State := withD (fun k => { k with prepNo := some 1, prep := some [⟨0x200, .direct, .acked⟩] }) s

/-- A cell of the domain has a site; the Gaffer of quad 3 holds `n` entries. -/
def celled (site : Site) (n : Nat) : State :=
  State.modQuad (withD (fun k => { k with prep := some [⟨0x200, site, .pending⟩] }) (arrived [.write (wr 0x1000 1 2)])) 3
    fun q => { q with gaffer := List.replicate n (.svc 1 64) }

/-- The group waits at a step of scope 1, or one of its two domains still runs. -/
def widerAt (ph : Phase) : State :=
  withG fun g => { g with lane := true, threads := [thread0, thread0], doms := [{ phase := .wider 1 false }, { phase := ph }] }

/-- The group, of a pod gang of two modules, waits at a `.pod` step; `l` are the arrivals of the other. -/
def atPod (l : List PodArrival) : State :=
  let s := withL (fun k => { k with podAt := l, r := { k.r with gang := 4, podn := 1 } })
    (withG fun g => { g with doms := [{ phase := .wider 5 false }] })
  { s with fw := { s.fw with pods := [(0, [{ module := 3 }])] } }

/-- The boundary is due, nothing withholds it, and its cells are prepared as told; after the commit it is held as told. -/
def due (acked held : Bool) (s : State) (g : Group) (_ : Thread) : Bool :=
  boundaryDue g 0 && (withheld s g 0).isNone && (g.dom 0).acked (prepCells (s.writers g 0)) == acked &&
    (!acked || match (s.commit 1 0).firstReads.group? 1 with | some y => (s.commit 1 0).firstReads.held 1 0 y == held | none => false)

def loads (prepared poison : Bool) (s : State) (_ : Group) (t : Thread) : Bool :=
  match t.defs with
  | [{ src := .load a _ _, .. }] => a.keys.any s.prepared == prepared && s.poisoned a.keys == poison
  | _ => false

def cells (site : Site) (n : Nat) (s : State) (_ : Group) (_ : Thread) : Bool :=
  s.dueCells 1 0 == some [⟨0x200, site, .pending⟩] && (s.quad 3).gaffer.length == n

def scopes (all : Bool) (s : State) (g : Group) (_ : Thread) : Bool :=
  g.widerScope == some 1 && (s.participants 1 1 g).all (s.waitsAt 1) == all

theorem witness_BoundaryEvents : [
    on small fun _ g t => decide ((g.dom 0).phase = .run ∧ 0 ∈ g.liveTids 0 ∧ t.arr = none ∧ t.st = .ready),
    on (owed (.lcget 0 0) (arrived [])) fun _ _ t => t.defs.any (·.src.early),
    on (arrived [.write (wr 0x1000 1 0), .write (wr 0x1000 1 2)]) fun s g _ => boundaryDue g 0 && (withheld s g 0).isSome,
    on (arrived [.write (wr 0x1000 1 0)]) (due false false), on (arrived []) (due true false),
    on (poisonedAt (arrived [.write (wr 0x1000 1 2)])) fun s g _ => boundaryDue g 0 && s.poisonedBase (s.writers g 0),
    on (flushing (begun (arrived [.write (wr 0x1000 1 0), .write (wr 0x1000 1 2)]))) fun s g _ => boundaryDue g 0 && (withheld s g 0).isSome && g.flushes,
    on (flushing (begun (arrived [.write (wr 0x1000 1 0)]))) fun s g t => due true false s g t && g.flushes,
    on (behind (begun (arrived [.write (wr 0x1000 1 0)]))) fun s g t => due true false s g t && s.mustWait 1 0 g,
    on (behind (celled .direct 0)) fun s g _ => (s.dueCells 1 0).isSome && s.earlierHolds 1 0 (g.dom 0).prepNo fun c => c.key == 0x200 && c.st == .acked,
    on (arrived [.satom { acc := acc0, fn := 0, x := 1, y := 0, seq := 5, pc := 40 }]) (due true true),
    on (withD fun k => { k with phase := .committed }) fun s g _ => decide ((g.dom 0).phase = .committed) &&
      (match (s.drainHeld 1 0).group? 1 with | some y => !(s.drainHeld 1 0).held 1 0 y | none => false),
    on (preparedBy2 (owed (.load acc0 .b32 0))) (loads true false), on (poisonedAt (owed (.load acc0 .b32 0))) (loads false true),
    on (owed (.load acc0 .b32 0)) (loads false false), on (owed (.sampled [7])) fun _ g _ => g.runs,
    on (owed (.lcget 31 0)) fun _ g _ => (g.ctrs[31]?).isSome, on (owed (.rhead 15)) fun _ g _ => g.runs, on (owed (.tqry 0 63)) fun _ g _ => g.runs,
    on (celled .direct 0) (cells .direct 0), on (celled (.gaffer 3) 1023) (cells (.gaffer 3) 1023), on (celled (.gaffer 3) 1024) (cells (.gaffer 3) 1024),
    [none, some 3].all fun o => on (atomic0 o) fun _ g _ => decide ((g.dom 0).satoms.map (·.2.2) = [o]),
    !small.poisoned acc0.keys, (poisonedAt small).poisoned acc0.keys,
    on (widerAt .run) (scopes false), on (widerAt (.wider 1 true)) (scopes true),
    on (atPod []) fun s g _ => decide (g.widerScope = some 5) && !s.partnersWait (s.launchOf g),
    on (atPod [{ module := 3, order := 0, top := none, own := false }]) fun s g _ => (s.participants 5 1 g).all (s.waitsAt 5) && s.partnersWait (s.launchOf g)].all id = true := by decide +kernel

def gaffers (l : List GafferEntry) : State := small.modQuad 3 fun q => { q with gaffer := l }

/-- The Gaffer of quad 2 does not run: its core 8 is under test. -/
def away (own other : List GafferEntry) (turn : Bool) : State :=
  ((small.modCore 8 fun k => { k with testing := true }).modQuad 3 fun q => { q with gaffer := own, turn := turn }).modQuad 2
    fun q => { q with gaffer := other }

theorem witness_GafferEvents : [
    decide ((small.quad 3).gaffer = []), decide (((gaffers [.cell 1 0 0x200, .svc 1 64]).quad 3).gaffer = [.cell 1 0 0x200, .svc 1 64]),
    decide (((gaffers [.svc 1 64]).quad 3).gaffer = [.svc 1 64]), !small.gafferAway 3,
    (away [] [.svc 1 64] false).gafferAway 2 && ((away [] [.svc 1 64] false).gafferTurn 3 == 2),
    decide ((gaffers [.svc 9 64, .cell 1 0 0x200, .cell 2 0 0x300]).group? 9 = none ∧ ((gaffers [.svc 9 64, .cell 1 0 0x200, .cell 2 0 0x300]).quad 3).gaffer ≠ []),
    ((away [.svc 1 64] [.svc 1 128] false).gafferTurn 3 == 3), ((away [.svc 1 64] [.svc 1 128] true).gafferTurn 3 == 2)].all id = true := by decide +kernel

/-- The domain waits at a wider step; a save has been asked for, a lane test holds it, or it is away. -/
def parked (f : Group → Group) : State := withG f (withD fun k => { k with phase := .wider 4 false })

/-- Thread 0 waits at an inner join of its cohort, thread 1 at an outer join of the group, thread 2 is exited or at neither. -/
def joining (st : TState) : List (Nat × Thread) :=
  [(0, { thread0 with st := .join 64 false }), (1, { thread0 with st := .join 96 true }), (2, { thread0 with st := st })]

/-- R27: the inner join is released first, by its own set; the outer keeps its threads. -/
theorem witness_JoinRelease : joinTest (joining .exited) false = [0] ∧ joinTest (joining .exited) true = [] ∧ joinTest (joining .ready) false = [] ∧
    (joining .exited).all (fun p => !p.2.live || p.2.joinAt.isSome) = true ∧ (joining .ready).any (fun p => p.2.live && p.2.joinAt.isNone) = true := by
  decide +kernel

theorem witness_StepRelease : [
    on (parked id) fun _ g _ => g.resident && g.save.isNone && !g.testHold, on (parked fun g => { g with save := some 1 }) fun _ g _ => g.save.isSome,
    on (parked fun g => { g with testHold := true }) fun _ g _ => g.testHold,
    on (parked fun g => { g with st := .saved 1 none }) fun _ g _ => !g.resident].all id = true := by decide +kernel

/-! ### Threads that wait -/

def waiting (cmp : Nat) (b : Word) (s : State := small) : State :=
  withT (fun t => { t with st := .waitv { acc := acc0, cmp := cmp, t := .i32, b := b, scope := 0, pc := 40 } }) s

/-- What the wait of the thread reads now. -/
def waitReads (p : State → List Nat → Bool) (s : State) (g : Group) (t : Thread) : Bool :=
  match t.st with
  | .waitv w => match s.accessAt (s.aspace g) ⟨w.acc.sp, w.acc.va⟩ 4 1 .read with
    | .ok a => p s a.1.keys
    | .error _ => false
  | _ => false

/-- The wait's address has lost its translation. -/
def lost (s : State) : State := withT (fun t => { t with st := .waitv { acc := { acc0 with va := 0xC0001000 }, cmp := 0, t := .i32, b := 0, scope := 0, pc := 40 } }) s

/-- Two live threads of a cohort, one at an `lpeer` of the block at 32, the other blocked elsewhere or ready. -/
def unsynced (st : TState) : State :=
  let body := encode (.lpeer { f0 with d := 40, a := 1 }) ++ nops 4
  State.modCore (withG fun g => { g with threads := [{ thread0 with pc := 40 }, { thread0 with pc := 200, here := 160, st := st }] }) 1
    fun k => { k with blocks := [cache 32 (block 0 body)] }

def extended (n : Nat) (s : State) : State := State.modCore (withT (fun t => { t with st := .xacq n false }) s) 1 fun k => { k with xacqs := [(1, 0)] }

def tasked (n : Nat) (s : State) : State := s.modQuad 0 fun q => { q with tallocs := [{ who := ⟨1, 0⟩, pc := 40, first := 8, n := n }] }

def bound (rows : Nat) (s : State) : State := { s with ballocs := [{ who := ⟨1, 0⟩, pc := 40, bh := 1, rows := rows, core := 1 }] }

/-- The block at 32 of the object in memory; the thread stands in a header of it. -/
def coded (hdr : Word) (bytes : List Byte) : State := (withT fun t => { t with here := hdr, pc := hdr + 8 }).writePhys 0x20020 bytes

/-- What the fill of the thread's header reads. -/
def fills (p : State → Group → Except Stop (Option (List Byte)) → Bool) (s : State) (g : Group) (t : Thread) : Bool :=
  g.core == 1 && g.runs && decide (t.st = .ready) && p s g (s.readBlock g t.here.toNat)

theorem witness_WaitingThreads : [
    on (preparedBy2 (waiting 0 0)) (waitReads fun s k => k.any s.prepared), on (poisonedAt (waiting 0 0)) (waitReads fun s k => !k.any s.prepared && s.poisoned k),
    on (withD (fun k => { k with phase := .committed }) (waiting 0 0)) fun _ g _ => decide ((g.dom 0).phase ≠ .run),
    on (withD (fun k => { k with prep := some [] }) (waiting 0 0)) fun _ g _ => decide ((g.dom 0).phase = .run ∧ (g.dom 0).prep ≠ none),
    on (withT (fun t => { t with late := true }) (owed (.racq 15) (waiting 0 0))) fun _ _ t => t.late && t.acquiring, on (withD (fun k => { k with paused := true }) (waiting 0 0)) fun _ g t => (g.dom 0).paused && !t.late,
    on (withG (fun g => { g with frame := some { off := 64, asid := 0, va := 0xC0001008, tid := 0, fpc := 0, ready := false, left := [0] } }) (lost small)) fun _ g _ => g.awaitsPage 0 0xC000,
    on (lost (waiting 0 0)) fun s g _ => match s.accessAt (s.aspace g) ⟨false, 0xC0001000⟩ 4 1 .read with | .error (.miss ..) => true | _ => false,
    on (waiting 0 0) fun s g _ => g.runs && cmpWord 0 .i32 (BitVec.ofNat 32 (s.readNat acc0.keys)) 0,
    on (waiting 0 1) fun s _ _ => !cmpWord 0 .i32 (BitVec.ofNat 32 (s.readNat acc0.keys)) 1,
    on (withT (fun t => { t with st := .acquire, late := true }) (owed (.racq 15))) fun _ _ t => t.late && t.wantsRing 15,
    on (withT fun t => { t with st := .acquire, late := true, takes := [(63, 15, 0)] }) fun _ _ t => t.late && decide (t.takes ≠ []),
    on (withT (fun t => { t with tmr := 1 }) { small with clk := 1 }) fun s _ t => t.live && s.timerDue t,
    on (withT (fun t => { t with tmr := 2 }) { small with clk := 1 }) fun s _ t => !s.timerDue t,
    on (unsynced .boundary) fun s g t => s.atSync g t && (g.cohortLive 0).all (fun p => s.blocked g p.2) && (g.cohortLive 0).any fun p => p.2.pc != t.pc,
    on (unsynced .ready) fun s g t => s.atSync g t && (g.cohortLive 0).any fun p => !s.blocked g p.2,
    on (extended 8 crowded) fun s g _ => decide (s.freeExtended 1 < 8 - g.held[0]?.getD 0), on (extended 192 small) fun s g _ => decide (g.held[0]?.getD 0 < 192 ∧ s.freeExtended 1 = 190),
    on (extended 191 small) fun s g _ => decide (191 - g.held[0]?.getD 0 ≤ s.freeExtended 1 ∧ (s.core 1).xacqs = [(1, 0)]),
    on (tasked 1 packed) fun s _ _ => decide (s.poolFree 0 < 1), on (tasked 4096 small) fun s _ _ => decide (4096 ≤ s.poolFree 0),
    on (bound 32 filled) fun s _ _ => (s.bindBasin 1 1 1 32).isNone, on (bound 512 small) fun s _ _ => (s.bindBasin 1 1 1 512).isSome,
    on (withL (fun l => { l with r := { l.r with code := 0x180000000 } })) (fills fun _ _ r => match r with | .error _ => true | _ => false),
    on (coded 24 []) (fills fun _ _ r => match r with | .ok none => true | _ => false), on (coded 4096 []) (fills fun _ _ r => match r with | .ok none => true | _ => false),
    on ({ coded 32 (block 0 (nops 12)) with poison := [(0x400, BitVec.allOnes 128)] }) (fills fun _ _ r => match r with | .error .check => true | _ => false),
    on (preparedBy2 (coded 32 (block 0 (nops 12))) |> fun s => { s with groups := s.groups.map fun p => if p.1 = 2 then (2, { p.2 with doms := [{ prep := some [⟨0x20020 / 8, .direct, .acked⟩] }] }) else p })
      (fills fun _ _ r => match r with | .error .later => true | _ => false),
    on (coded 32 [0, 0, 0, 0, 0, 0, 0, 0]) (fills fun _ _ r => match r with | .ok (some bs) => !checkByte (bs.take 8) | _ => false),
    on (coded 32 (block 0 (nops 12))) (fills fun _ _ r => match r with | .ok (some bs) => checkByte (bs.take 8) | _ => false)
    ].all id = true := by decide +kernel

/-! ### Translation and pages -/

/-- The thread's group misses page 0x18000, whose mapping the firmware holds or does not; no page lies in a peer. -/
def missing (l : List Miss) (absent : Bool) : State :=
  { small.writePhys (leafEntry 2) (bytesOf 8 0) with
    misses := l
    fw := { small.fw with absent := if absent then [{ addr := leafEntry 6, leaf := BitVec.ofNat 64 (leaf 0x40000000000 0 true true) }] else [] } }

def miss1 (b : Bool) : Miss := { core := 1, asid := 0, page := 0x18000, who := .group 1, inBuffer := b }

/-- A buffer of 256 pages, and one miss more. -/
def brimful : State := missing ((List.range 256).map (fun i => { miss1 true with page := i }) ++ [miss1 false]) true

/-- No channel of LPDDR6 is ready. -/
def unready (s : State) : State := { s with ready := { s.ready with lpd := 0 } }

/-- Whether an entry at the end of the leaf table leaves no new leaf on memory that is not ready, or on a frame that is not allocated,
where no page lies in a peer. -/
def maps (s : State) (e : DWord) : Bool :=
  let s := s.writePhys (leafEntry 2) (bytesOf 8 0)
  let t := s.setEntry 0 root (leafEntry 511) e
  t.mapsReady s.mapped && t.mapsZeroed s.frames

/-- The frame at an address is allocated. -/
def allocated (frame len : Nat) (s : State := small) : State := { s with fw := { s.fw with zeroed := [(frame, len)] } }

/-- A leaf of LPDDR6 at the end of the first table, and of the frame of GiB 1 beside the page that stands on it. -/
def newLeaf : DWord := BitVec.ofNat 64 (leaf 0x40000000000 0 true true)
def twin : DWord := BitVec.ofNat 64 (leaf 0x40000000 0 false false)

theorem witness_TranslationEvents : [
    decide ((missing [miss1 false] true).bufferCount 1 < 256), decide (brimful.bufferCount 1 = 256 ∧ (brimful.misses.find? fun m => m.core == 1 && !m.inBuffer) = some (miss1 false)),
    decide (small.oldestMiss 1 ≠ some (0, 0x18000)),
    decide ((missing [miss1 true] true).oldestMiss 1 = some (0, 0x18000)) && ((missing [miss1 true] true).bringIn 0 0x18000).present 0 0x18000,
    decide ((missing [miss1 true] false).oldestMiss 1 = some (0, 0x18000)) && !((missing [miss1 true] false).bringIn 0 0x18000).present 0 0x18000,
    !(missing [miss1 true] false).present 0 0x18000, decide ((unready (missing [miss1 true] true)).oldestMiss 1 = some (0, 0x18000)) && !((unready (missing [miss1 true] true))).present 0 0x18000,
    (let s := unready (missing [miss1 true] true); decide (s.walkAsid 0 0x180000000 = .invalid 2 (leafEntry 6)) && match s.absentLeaf (leafEntry 6) with
        | some e => !(s.makeValid (leafEntry 6) e).mapsReady s.mapped
        | none => false),
    decide ((missing [miss1 true] false).walkAsid 0 0x180000000 = .invalid 2 (leafEntry 6) ∧ (missing [miss1 true] false).absentLeaf (leafEntry 6) = none),
    decide (small.fw.roots.find? 0 = some root ∧ leafEntry 511 % 8 = 0) && (List.range 8).all (fun i => isDeviceMemory (leafEntry 511 + i)),
    maps small 0, maps small 0x4000000000000000, maps small (BitVec.ofNat 64 (pointer 0x300000)), maps (allocated 0x40000000000 0x40000000) newLeaf, !maps small newLeaf, !maps small (newLeaf &&& 0x7FFFFFFFFFFFFFFF), maps small twin,
    !maps (allocated 0x40000000000 0x3FFFFFFF) newLeaf, !maps (unready (allocated 0x40000000000 0x40000000)) newLeaf].all id = true := by decide +kernel

/-- The whole of every stack is ready. -/
theorem witness_HbmReady : ∀ p : Nat, p < 0x2800000000 → small.unitReady p = true := by
  intro p hp
  have h : p / 0x2800000000 = 0 := Nat.div_eq_of_lt hp
  have hb : isHbm p = true := by simp [isHbm]; omega
  simp only [State.unitReady, hb, if_true, h]
  cases Config.stackOf (p / 2 ^ 16) <;> decide +kernel

def lpd : Nat := 0x40000000000

/-- The page at GiB 2, which lies in module 1, and an operation on its way to it. -/
def peerPage : Leaf := { frame := 0x80000000, place := 3, w := true, x := true, mig := false, peer := 1, size := 2 }
def farOp : State := { small with remotes := [(7, { grp := 1, launch := 0, kind := .xget 1, acc := ⟨false, 0x80000000, [peerKey 1 0x80000000]⟩, ctr := none, taker := none, op := 0xD1, pc := 40, rank := 0 })] }

/-- An entry that names a page of a peer that can be reached. -/
theorem witness_PageEvents_peer (h : Config.reachable 1 = true) :
    leafOf small (BitVec.ofNat 64 (leaf 0x80000000 3 true true false 1)) 2 = some peerPage := by
  have p : ((BitVec.ofNat 64 (leaf 0x80000000 3 true true false 1) : DWord).extractLsb' 8 8).toNat = 1 := by decide +kernel
  unfold leafOf
  simp only [p, h]
  decide +kernel

/-- No page lies in a peer. -/
def noPeer : State := small.writePhys (leafEntry 2) (bytesOf 8 0)

theorem witness_PageEvents : [
    (match small.walkAsid 0 (0x4000 * 2 ^ 16) with | .leaf a l => !l.mig && l.place != 3 && (List.range 8).all (fun i => !isPeerKey (a + i)) | _ => false),
    (match small.walkAsid 0 (0xC000 * 2 ^ 16) with
      | .leaf _ l => l.mig && (match leafOf small (BitVec.ofNat 64 (leaf lpd 0 true true)) l.size with | some n => !n.mig && n.place != 3 && small.frameReady n.frame n.size | none => false)
      | _ => false),
    small.mem.wf, !small.ready.safe, !small.remoteAt { peerPage with mig := true } peerPage, farOp.remoteAt { peerPage with mig := true } peerPage,
    (withT (fun t => { t with fx := [.remote { grp := 1, launch := 0, kind := .xget 1, acc := ⟨false, 0x80000000, [peerKey 1 0x80000000]⟩, ctr := none, taker := none, op := 0xD1, pc := 40, rank := 0 }] })).remoteAt { peerPage with mig := true } { peerPage with place := 0 }, (List.range 3).all fun i => small.frameReady lpd i && isDeviceMemory lpd && isDeviceMemory (lpd + 2 ^ pageBits i - 1) && lpd % 2 ^ pageBits i == 0,
    small.frameReady 0x6FFFFFF0000 0 && isDeviceMemory 0x6FFFFFFFFFF,
    (noPeer.frames.all fun r => decide (r.1 + r.2 ≤ lpd) || decide (lpd + 2 ^ 30 ≤ r.1)), noPeer.frames.any fun r => decide (r.1 < 0x40000000 + 2 ^ 16 ∧ 0x40000000 < r.1 + r.2),
    (allocated 0xC0000000 0x40000000 noPeer).mapsZeroed [(0, 0x80000000)] && !noPeer.mapsZeroed [(0, 0x80000000)]].all id = true := by decide +kernel

def pending (l : List (Nat × Nat)) : State := { small with zeroPend := l }

theorem witness_ZeroPending : ∀ line ∈ [512, 513, 1023], ∃ r ∈ (pending [(0x10000, 0x10000)]).zeroPend, r.1 ≤ 128 * line ∧ 128 * line + 128 ≤ r.1 + r.2 := by
  decide +kernel

/-! ### The host -/

/-- A SYSTEM page of LPDDR6 at GiB 1, and no PEER page. -/
def shared : State := (small.writePhys (leafEntry 1) (bytesOf 8 (leaf lpd 2 true false))).writePhys (leafEntry 2) (bytesOf 8 0)

def safe (s : State := small) : State := { s with ready := { s.ready with safe := true } }

/-- What a host's access of `n` bytes at an offset meets. -/
def reached (off n : Nat) : Bool := (List.range n).all fun i => (isDeviceMemory (off + i) || isHostMemory (off + i)) && small.unitReady (off + i)

/-- A domain of the group has prepared the cell of a byte. -/
def preparedAt (key : Nat) (s : State) : State :=
  { s with groups := s.groups ++ [(2, { group0 with doms := [{ prep := some [⟨key / 8, .direct, .acked⟩] }] })] }

def shareable (s : State) (phys : Nat) : Bool := s.hostReaches phys 4 && phys % 4 == 0 && s.onSystemPage phys

theorem witness_HostEvents : [
    !small.linkUp true && small.linkUp false, reached lpd 64, reached 0x6FFFFFFFFC0 64, reached 0x9FFFFFFFFFFC0 64 && !reached 0x9FFFFFFFFFFFF 2, !reached 0x7FFFFFFFFFF 1, (safe).ready.safe && !small.ready.safe,
    shareable shared lpd && shareable shared (lpd + 2 ^ 30 - 4) && !shareable shared (lpd + 2 ^ 30) && !shareable shared (lpd + 2),
    shared.hostReaches (lpd + 2 ^ 30) 4 && !shared.onSystemPage (lpd + 2 ^ 30), (List.range 4).all fun i => !shared.prepared (lpd + i), (preparedAt lpd shared).prepared lpd && shareable (preparedAt lpd shared) lpd,
    decide (lpd + 64 ≤ 2 ^ small.fw.bar2), small.hostReaches lpd 64 && !small.hostReaches 0x7FFFFFFFFFF 1, (preparedAt lpd small).prepared lpd && (preparedAt lpd small).hostReaches lpd 8,
    (physKeys lpd 64).all fun k => !small.prepared k && !small.poisoned [k],
    !(State.reset.ready.pl0 || State.reset.ready.pl1 || State.reset.ready.safe), small.ready.pl0, (safe State.reset).ready.safe, !writable 0x48 && !writable 0x4C && !writable 0x1004 && !writable 0x4200 && writable 0x4100 && writable 0x44,
    decide (small.fw.vectors.length = 130) && !small.ready.safe, [(0 : Nat), 0x40F8, 0x4200, 0x8000].all fun o => decide (o % 8 = 0 ∧ o ≠ 0x4000 ∧ (o < 0x4100 ∨ 0x4200 ≤ o))].all id = true := by decide +kernel

/-! ### The mailbox -/

/-- Queue 0 holds the records 0 to `n` - 1; 0 has been taken. -/
def listed (n : Word) (s : State := small) : State := s.modQueue 0 fun k => { k with opened := true, tail := n, next := 1 }

/-- The group is held for the host. -/
def heldFor (s : State := small) : State :=
  { withG (fun g => { g with st := .trapped 0x27FF0000000 }) s with fw := { s.fw with held := [{ addr := 0x27FF0000000, grp := 1, cause := 1 }] } }

/-- An image or a package in LPDDR6, and what a package asks for. -/
def imaged (bs : List Byte) : State := small.writePhys lpd bs
def package : List Byte := bytesOf 128 (pack [(0, 32, 0x54534550), (32, 16, 0xFFFF), (48, 16, 0x8001), (64, 16, 0x8001), (96, 32, 0)])

theorem witness_MailboxCommands : [
    small.ready.pl0 && small.ready.fw && decide (small.fw.test = none), (safe).ready.safe,
    decide (({ small with fw := { small.fw with test := some (1, [0], []) } } : State).fw.test ≠ none),
    decide (((listed 2).queueAt 0).tail - ((listed 2).queueAt 0).head = 2), decide ((listed 2).launchAt 0 1 = none), ((listed 1).launchAt 0 0).isSome,
    decide (small.heldBy 0x27FF0000000 = none), ((heldFor).heldBy 0x27FF0000000).isSome,
    decide (small.launchNamed 1 = none), (small.launchNamed 0).isSome && decide (launch0.ovsz < 1025 ∧ 1024 ≤ launch0.ovsz),
    ((small.groups.filter fun p => p.2.launch == 0 && p.2.grp == 0).head?.map (·.1)) == some 1,
    on (heldFor) fun _ g _ => decide (g.st = .trapped 0x27FF0000000),
    (small.imageBytes lpd 0).isNone && (small.imageBytes 0x3000000000000 1).isNone && (small.imageBytes 0x8000000000000 1).isSome && (small.imageBytes lpd 128).isSome,
    (preparedAt lpd small).imageHeld lpd 128 && !small.imageHeld lpd 128, decide ((small.imageBytes lpd 127).map List.length = some 127), decide ((small.imageBytes lpd 128).map packageOk = some false),
    decide ((imaged package).imageBytes lpd 128 = some package), decide (packageQuads (littleEndian package) = [0, 15, 240, 255]),
    [(0 : Nat), 6, 0xFFFF].all fun c => !([1, 2, 3, 4, 5, 0x10, 0x11].contains c)].all id = true := by decide +kernel

/-- A package whose signature verifies over the hash of the bytes after its header is accepted at the highest version, and an image of either kind is there. -/
theorem witness_package (h : Config.signed (Sha.sha384 (package.drop 128)) (littleEndian (package.take 128) / 2 ^ 256) = true)
    (v : Config.minVersion ≤ 0xFFFF) : packageOk package = true := by
  have e : littleEndian (package.take 128) / 2 ^ 32 % 2 ^ 16 = 0xFFFF := by decide +kernel
  simp only [packageOk, h, Bool.and_true, Bool.and_eq_true, decide_eq_true_eq, beq_iff_eq]
  exact ⟨⟨⟨by decide +kernel, by rw [e]; exact v⟩, by decide +kernel⟩, by decide +kernel⟩

/-! ### Launches -/

/-- A launch record with fields, and the code object that it names: its header, an entry block at 32. -/
def record (fields : List (Nat × Nat × Nat)) : List Byte :=
  bytesOf 128 (pack ([(960, 64, 0x20000), (640, 32, 32), (608, 32, 1), (474, 2, 1)] ++ fields))

/-- Queue 0 holds one record, which is next; nothing runs. -/
def queuedUp (fields : List (Nat × Nat × Nat)) (f : Queue → Queue := id) : State :=
  let s := { small with launches := [], groups := [] }
  let s := s.modQueue 0 fun k => f { k with opened := true, base := 0x300000, tail := 1 }
  (s.writePhys 0x300000 (record fields)).writePhys 0x20000
    (bytesOf 32 (pack [(0, 128, 1), (128, 32, 4096), (160, 32, 32), (192, 16, 4)]) ++ block 3 (nops 8))

/-- The next record of queue 0 has been checked; it waits at a cell that another domain has prepared. -/
def passed (s : State) : State := s.modQueue 0 fun k => { k with checked := some { q := 0, seq := k.next, r := s.nextRecord 0 } }
def heldUp : State := preparedAt 0x20000 (queuedUp [])

/-- What the check of the next record of queue 0 answers. -/
def checked (s : State) : Except Nat (BitVec 128 × Nat × Nat × List DWord) := s.checkRecord 0 (s.queueAt 0).next (s.nextRecord 0)

def reason (s : State) : Nat := match checked s with | .error n => n | .ok _ => 0

/-- The group of the small machine is gone, its launch handed out. -/
def overWith (cmpl : Nat) : State := listed 1 { withL (fun l => { l with handed := 2, r := { l.r with cmpl := cmpl } }) with groups := [] }

theorem witness_LaunchEvents : [
    !(safe (queuedUp [])).dispatching, decide ((queuedUp [] fun k => { k with tail := 0 }).untaken 0 = false), (queuedUp []).dispatching && (queuedUp []).untaken 0,
    !((queuedUp [] fun k => { k with opened := false }).queueAt 0).opened && (queuedUp [] fun k => { k with opened := false }).untaken 0,
    (preparedAt 0x300000 (queuedUp [])).nextHeld 0 && !(queuedUp []).nextHeld 0, (preparedAt root (overWith 0x200000)).walkHeld 0 0x200000 64 && !(overWith 0x200000).walkHeld 0 0x200000 64,
    heldUp.recordHeld (heldUp.nextRecord 0) && !(queuedUp []).recordHeld ((queuedUp []).nextRecord 0),
    decide (((queuedUp [] fun k => { k with aborted := [0] }).queueAt 0).next ∈ ((queuedUp [] fun k => { k with aborted := [0] }).queueAt 0).aborted),
    decide (reason (queuedUp []) = 0 ∧ reason (queuedUp [(960, 64, 0x180000000)]) = 2 ∧ reason (queuedUp [(640, 32, 40)]) = 2),
    decide (reason (queuedUp [(453, 7, 1)]) = 3 ∧ reason (queuedUp [(896, 64, 64)]) = 0 ∧ reason (queuedUp [(896, 64, 0x180000000)]) = 4),
    (passed (queuedUp [])).recordReady 0 && (passed (queuedUp [])).goesFirst 0,
    !(passed (queuedUp [(464, 2, 1), (544, 32, 0)] fun k => { k with next := 1, tail := 2, base := 0x2FFF80 })).recordReady 0,
    (small.launch? 0).isSome && decide (bestOf small.dieFree (List.range 16) = some 1 ∧ small.dieFree 1 = 512 ∧ launch0.r.ngrp - launch0.handed = 2),
    decide (small.candidate 1 = none ∧ small.candidate 1023 = none), ({ small with dieQ := [(15, [{ launch := 0, grp := 1 }])] } : State).candidate 960 |>.isSome,
    decide ((listed 1).allOver 0 launch0 = false), (overWith 0).dispatching && ((overWith 0).launchAt 0 0).any (fun p => (overWith 0).allOver p.1 p.2) && decide (((overWith 0).queueAt 0).wait = []),
    decide (launch0.digests = false), ({ launch0 with r := { launch0.r with digp := 0x200000 } } : Launch).digests && (preparedAt 0x200000 small).digestHeld { launch0 with r := { launch0.r with digp := 0x200000 } } 8 0 &&
      !small.digestHeld { launch0 with r := { launch0.r with digp := 0x200000 } } 8 0,
    (match (overWith 0x200000).spaceKeys 0 0x200000 64 with | some (_, true) => true | _ => false)].all id = true := by decide +kernel

/-! ### Gangs -/

/-- The launch of the small machine is a gang that has not started. -/
def gang (kind ngrp : Nat) (ph : GangPhase) (podg podn : Nat := 0) : State :=
  { withL (fun l => { l with r := { l.r with gang := kind, ngrp := ngrp, podg := podg, podn := podn }, gang := ph, ran := [] }) with groups := [] }

def gangOf (s : State) : Launch := (s.gangLaunch? 0).getD launch0

def reserved (ready : List Nat) (f : Core → Core := id) : State := (gang 1 4 (.reserving 2 ready 1)).modCore 8 fun k => f { k with resv := some (0, 0) }

/-- The pod gang of two modules, and what the firmware knows of partners. -/
def knows (l : List PodEntry) : State := { gang 4 1 .idle 5 1 with fw := { small.fw with pods := [(5, l)] } }
def partner : PodEntry := reportEntry (.started 3 1 1 0 1)

/-- The group of a gang stands on every slot of core 8. -/
def seated : State := { reserved [] with groups := (List.range 8).map fun i => (i + 1, { group0 with core := 8, slot := i, tslots := [2 * i, 2 * i + 1] }) }

theorem witness_GangEvents : [
    (gang 2 513 .idle).gangStands 0 == false && ({ gang 2 513 .idle with groups := small.groups } : State).gangStands 0 && (gangOf (gang 2 513 .idle)).ran.isEmpty,
    (let s := withL (fun l => { l with ran := [0] }) (gang 2 513 .idle); !s.gangStands 0 && decide ((gangOf s).ran = [0]) && (List.range 16).all fun i => (spanCores 2 i).any fun c => !s.shareEver (gangOf s) i c),
    ((gang 2 513 .idle).gangLaunch? 0).isSome && (List.range 16).all fun i => (spanCores 2 i).any fun c => !(gang 2 513 .idle).shareEver (gangOf (gang 2 513 .idle)) i c,
    (spanCores 2 0).all ((gang 2 512 .idle).shareEver (gangOf (gang 2 512 .idle)) 0),
    decide (bestOf (fun i => (((spanCores 2 i).filter (gang 2 512 .idle).coreOpen).map (gang 2 512 .idle).groupSlotsFree).sum)
      ((List.range 16).filter ((gang 2 512 .idle).spanReady (gangOf (gang 2 512 .idle)))) = some 0),
    decide (((reserved [8]).core 8).resv = some (0, 0)), decide (seated.shareFits (gangOf seated) 2 8 = false), (reserved []).shareFits (gangOf (reserved [])) 2 8,
    decide (∃ c ∈ spanCores 1 2, c ∉ [8, 9, 10]), decide (∀ c ∈ spanCores 1 2, c ∈ [8, 9, 10, 11]),
    (spanCores 1 2).all ((reserved [8, 9, 10, 11]).shareFits (gangOf (reserved [8, 9, 10, 11])) 2),
    ((gang 4 1 (.reserving 0 (List.range 1024) 0) 5 1).gangLaunch? 0).isSome && (List.range 1024).all (gang 4 1 .idle).coreOpen,
    ((gang 3 4 (.refused 0 64)).gangLaunch? 0).isSome, decide ((((List.range 256).map fun i => (255 + 1 + i) % 256).find? ((gang 1 4 (.backoff 255 2)).spanReady (gangOf (gang 1 4 (.backoff 255 2))))) = some 0),
    decide ((((gang 4 1 (.confirmed 0) 5 1).podLaunch? 5).map (·.1)) = some 0 ∧ Table.get [] small.fw.pods 5 = []),
    (knows [reportEntry (.failed 3)]).podFailed (gangOf (knows [])) && (knows [reportEntry (.started 3 1 2 0 1)]).podFailed (gangOf (knows [])) && !(knows [partner]).podFailed (gangOf (knows [])),
    decide ((knows [partner]).podReports 5 = [3] ∧ (knows []).podReports 5 = []),
    decide ((((gang 4 1 .idle 5 1).podLaunch? 5).map (·.1)) = some 0), [GangPhase.idle, .confirmed 0].all fun p => ((withL (fun l => { l with ran := [0] }) (gang 4 1 p 5 1)).podLaunch? 5).any fun l => l.2.ran == [0],
    (gangOf (knows [partner])).ran.isEmpty, decide (((gang 4 1 (.confirmed 0) 5 1).podReports 5).length < 1), decide (0 ≤ ((gang 4 1 (.confirmed 0) 5 0).podReports 5).length)
    ].all id = true := by decide +kernel

/-! ### Pre-emption, eviction, packets -/

/-- A launch of class 0 waits at die 0; all group slots of the die are taken by groups of class 1. -/
def crammed : State :=
  let fast : Launch := { launch0 with seq := 1, r := { launch0.r with prio := 0 } }
  { small with
    launches := [(0, launch0), (1, fast)]
    groups := (List.range 512).map fun i => (i + 1, { group0 with core := i / 8, slot := i % 8, tslots := [i % 8] })
    dieQ := [(0, [{ launch := 1, grp := 0 }])] }

def mode (r : LaunchRec → LaunchRec) (f : Group → Group := id) : State := withG f (withL fun l => { l with r := r l.r })

/-- The one group of core 1 has been parked since cycle 0, and another waits. -/
def idleAt (clk : DWord) : State :=
  { withG (fun g => { g with parkedSince := some 0 }) (withT fun t => { t with st := .acquire }) with clk := clk, dieQ := [(0, [{ launch := 0, grp := 1 }])] }

/-- Two packets at port 0, one of class 1 and one that has been promoted. -/
def packetA : Packet := { id := 0, grp := 1, launch := 0, cls := 1, age := 254 }
def packetB : Packet := { id := 1, grp := 1, launch := 0, cls := 0, age := 255 }
def packet2 : State := { small with packets := [packetA, packetB] }

def podded (n : Nat) : State :=
  { gang 4 1 (.started 0) 5 n with fw := { small.fw with pods := [(5, [{ module := 3 }])] }, groups := small.groups }

/-- A pod gang that has started is placed again. -/
def again : State := withL (fun l => { l with gang := .confirmed 0, ran := [0] }) (podded 1)

theorem witness_PreemptionEvents : [
    group0.alive && on (withT fun t => { t with st := .exited }) fun _ g _ => !g.alive,
    decide (crammed.waitingClass 0 = some 0) && (crammed.victim 0).any fun p => decide (0 < p.2.prio ∧ p.2.save = none),
    decide ((State.modLaunch crammed 1 fun l => { l with r := { l.r with prio := 1 } }).waitingClass 0 = some 1),
    on (heldFor) fun _ g _ => decide (g.st = .trapped 0x27FF0000000),
    on (mode fun r => { r with pmode := 1 }) fun s g _ => decide ((s.launchOf g).r.pmode = 1),
    on (mode (fun r => { r with idem := true }) fun g => { g with ext := 15 }) fun s g _ => (s.launchOf g).r.idem && decide (g.ext < 16),
    on (mode (fun r => { r with idem := true }) fun g => { g with ext := 16 }) fun _ g _ => decide (16 ≤ g.ext), on (mode fun r => { r with pmode := 2 }) fun s g _ => decide ((s.launchOf g).r.pmode = 2),
    on (mode (fun r => { r with idem := true }) fun g => { g with testHold := true }) fun s g _ => (s.launchOf g).r.idem && g.testHold,
    on (withG (fun g => { g with st := .fill 0 0 0 }) (begun small)) fun _ g _ => g.fills && g.underWay, on (withG fun g => { g with st := .fill 0 0 0 }) fun _ g _ => g.fills && !g.underWay,
    decide (packet2.ready.ual.getLsbD 0 = true ∧ packet2.ready.ual.getLsbD 1 = false),
    on small fun s g _ => decide (g.save = none ∧ (s.launchOf g).r.idem = false), on (withG fun g => { g with save := some 1 }) fun _ g _ => g.save.isSome && g.resident,
    on (mode (fun r => { r with idem := true }) fun g => { g with save := some 2 }) fun s g _ => (s.launchOf g).r.idem && decide ((s.launchOf g).r.gang = 0),
    on (withG fun g => { g with st := .flushing true }) fun s g _ => g.flushes && !s.hasCandidate 1 3, on (begun small) fun _ g _ => g.underWay && g.runs, on small fun _ g _ => !g.underWay,
    on small fun s g _ => decide ((s.launchOf g).r.arb = 0), on (mode fun r => { r with arb := 1, dline := 1 }) fun s g _ => !decide (g.placedAt + BitVec.ofNat 64 850 < s.clk),
    [1, 2].all fun n => on { mode fun r => { r with arb := n, dline := 1 } with clk := 851 } fun s g _ => decide (g.placedAt + BitVec.ofNat 64 (850 * (s.launchOf g).r.dline) < s.clk) && s.traffic 1 g,
    decide ((small.residents 1).length = 1 ∧ group0.slot < 8), on small fun s g _ => decide (g.idleFrom s.clk = none),
    on (idleAt 4095) fun s g _ => decide (g.idleFrom s.clk = none), on { idleAt 4096 with dieQ := [] } fun s g _ => (g.idleFrom s.clk).isSome && !s.hasCandidate 1 3,
    on (idleAt 4096) fun s g _ => (g.idleFrom s.clk).isSome && s.hasCandidate 1 3 && g.choosable && decide ((s.core 1).evicted = none ∧ g.save = none),
    decide (packet2.packets[0]? = some packetA ∧ packet2.grantOf 0 = some packetB ∧ packet2.grantOf 1 = none ∧ packetB.order < packetA.order),
    decide (({ packetA with stamp := some 5, cls := 2 } : Packet).order < ({ packetA with stamp := some 6, cls := 2 } : Packet).order ∧
      ({ packetA with stamp := some 5, cls := 2 } : Packet).order < ({ packetA with cls := 2 } : Packet).order ∧ ({ packetA with cls := 2 } : Packet).order < ({ packetA with cls := 2, slack := 1 } : Packet).order),
    ({ packet2 with packets := [packetB, { packetA with sent := true }] } : State).leavesNext { packetA with sent := true }, !packet2.leavesNext packetA, small.launches.all fun l => l.2.r.gang != 4,
    decide (3 ∈ (podded 1).podReports 5 ∧ ∀ p ∈ (podded 1).groups, p.2.atPod = false), again.launches.all fun l => l.2.r.gang == 4 && decide (l.2.ran ≠ [] ∧ l.2.gang = .confirmed 0) && decide (3 ∈ again.podReports l.2.r.podg)].all id = true := by decide +kernel

/-! ### The copy engine -/

/-- Request 7 of the group runs, with all of its pieces to come. -/
def copying (k : CopyKind) (s : State := small) (f : Copy → Copy := id) : State :=
  { s with copies := [(7, f { grp := 1, kind := k, ctr := some 0, op := 0x80, pc := 40, rank := 0, begun := true, left := k.pieces })] }

/-- What the request and its group are in a state. -/
def req (p : State → Copy → Group → Bool) (s : State) : Bool :=
  match s.copies.find? 7, s.group? 1 with
  | some c, some x => p s c x
  | _, _ => false

/-- A linear request: its first piece runs, and its read and its write answer as told. -/
def linear (read : Got → Bool) (write : Except Got State → Bool) (s : State) (c : Copy) (x : Group) : Bool :=
  match c.kind, c.left with
  | .linear src dst _, (k, n) :: _ =>
    let r := s.engineReadAfter x c.ahead ⟨src.sp, src.addr + k⟩ n
    c.begun && !s.waitsOn (.copy 7) && c.piece k == some n && read r && match r with
      | .bytes bs => write (s.engineWrite 1 x ⟨dst.sp, dst.addr + k⟩ bs)
      | _ => true
  | _, _ => false

def gotBytes : Got → Bool | .bytes _ => true | _ => false
def gotMiss : Got → Bool | .miss .. => true | _ => false
def gotFault : Got → Bool | .fault .. => true | _ => false
def gotPoison : Got → Bool | .poison => true | _ => false
def gotLater : Got → Bool | .later => true | _ => false
def wrote : Except Got State → Bool | .ok _ => true | _ => false
def refusedBy (p : Got → Bool) : Except Got State → Bool | .error e => p e | _ => false
def anyWrite (_ : Except Got State) : Bool := true

/-- A request from one address of memory to another. -/
def move (a b n : Nat) : CopyKind := .linear ⟨false, a⟩ ⟨false, b⟩ n

/-- 256 requests run, and one waits. -/
def busy (n : Nat) : State :=
  { small with copies := (List.range n).map (fun i => (i + 10, { grp := 1, kind := move 0 64 64, ctr := none, op := 0x80, pc := 40, rank := 0, begun := true })) ++
      [(1000, { grp := 1, kind := move 0 64 64, ctr := none, op := 0x80, pc := 40, rank := 0 })] }

/-- Tile 10 of the group, in a state. -/
def tileIs (st : TileSt) (s : State := small) : State := { s with tiles := [(10, { quad := 0, grp := 1, st := st })] }

def putting (slots : List (SlotSt × Nat)) : State :=
  copying (.put 1 ⟨true, 0⟩ 64) (withG fun g => { g with rings := g.rings.set 1 { bound := true, slotSize := 64, base := 1024, slots := slots, wait := [7] } })
    fun c => { c with dest := some (1, 1) }

/-- A message of 64 bytes to port 3 of quad 0. -/
def sending (port slot : Nat) : State :=
  copying (.send 0 0 port 64 0) (withG fun g => { g with
    rings := g.rings.set 2 { bound := true, msg := true, port := 3, slotSize := slot, base := 2048, slots := [(.free, 0)] } })

def casting (bnd : Option (Nat × Nat × Nat)) : State := copying (.multi ⟨true, 0⟩ 64 128 9 1) (withG fun g => { g with ctrs := g.ctrs.set 31 { bnd := bnd } })

/-- The domain has committed, and waits for its release. -/
def released (s : State) : State := withD (fun k => { k with phase := .wider 4 false }) s

/-- A step has passed a copy and a stream operation whose count its release waits on; it waits for that, or at a wider step. -/
def counting (ph : Phase) : State :=
  { withD (fun k => { k with phase := ph }) (copying (move 0 64 64) small fun c => { c with by_ := some 0 }) with
    sops := [(8, { grp := 1, kind := .scount 0 1, pc := 40, rank := 0, takers := [(⟨1, 0⟩, 5)], aLoc := ⟨true, 0⟩, aTy := .n32, aEnd := 0, bLoc := ⟨true, 0⟩, bEnd := 0, i := 0, j := 0, start := 0, by_ := some 0 })] }

theorem witness_CopyEvents : [
    decide ((busy 255).copiesBefore 1 1000 = 255), decide ((busy 256).copiesBefore 1 1000 = 256),
    !(busy 255).readsHeld (.copy 1000), (released (copying (move 0 64 64) small fun c => { c with by_ := some 0 })).readsHeld (.copy 7),
    (counting .committed).readsHeld (.copy 7) && !(counting .committed).readsHeld (.stream 8) && (counting (.wider 4 false)).readsHeld (.stream 8),
    req (fun _ c _ => c.piece 64 == none) (copying (move 0 64 64)), req (linear gotBytes wrote) (copying (move 0xF000 0x10000 0x400000)),
    req (linear gotBytes (refusedBy gotMiss)) (copying (move 0 0xC0000000 64)), req (linear gotBytes (refusedBy gotFault)) (copying (move 0 0x40000000 64)),
    req (linear gotMiss anyWrite) (copying (move 0xC0000000 0 64)), req (linear gotFault anyWrite) (copying (move 0x180000000 0 64)),
    req (linear gotPoison anyWrite) (copying (move 0x1000 0 64) (poisonedAt small)), req (linear gotLater anyWrite) (copying (move 0x1000 0 64) (preparedBy2 small)),
    req (fun s c x => match c.kind with | .tileIn src _ _ _ _ mf _ => c.piece 0 == some 2048 && gotBytes (s.engineReadAfter x c.ahead src (storedSize mf)) | _ => false)
      (copying (.tileIn ⟨false, 0⟩ 10 false false false 0 0) (tileIs .filling)),
    req (fun s c x => match c.kind with | .tileIn src _ _ _ _ mf _ => gotBytes (s.engineRead x src (imageSize mf)) | _ => false)
      (copying (.tileIn ⟨true, 0⟩ 10 true false true 4 4) (tileIs .filling)),
    req (fun s _ _ => decide ((s.tiles.find? 10).map Tile.st = some .filling)) (copying (.tileOut 10 ⟨false, 0⟩ false false 0) (tileIs .filling)),
    [(TileSt.full, false), (.filling, true)].all fun (p : TileSt × Bool) => req (fun s c x => match c.kind, s.tiles.find? 10 with
      | .tileOut _ dst zero mq mf, some t => (zero || t.st != .filling) && c.piece 0 == some 2048 && wrote (s.engineWrite 1 x dst ((if zero then TileData.zero else t.read).convert mf mq).bytes)
      | _, _ => false) (copying (.tileOut 10 ⟨false, 0⟩ p.2 false 0) (tileIs p.1)),
    req (fun s _ x => gotBytes (s.engineRead x ⟨true, 0 + 4 * 0⟩ 4)) (copying (.gather 0 1 64 16 0 15)),
    req (fun s _ x => gotBytes (s.engineRead x ⟨true, 4⟩ 4) && gotBytes (s.engineRead x ⟨false, 0⟩ 4096)) (copying (.gather 0 2 64 4096 0 4096)),
    req (fun s _ x => (x.ring 1).tailFree && (x.ring 1).wait.head? == some 7 && s.groups.length == 1) (putting [(.free, 0)]),
    req (fun _ _ x => !(x.ring 1).tailFree) (putting [(.assigned, 64)]),
    decide ((sending 4 64).portRing 0 4 = none), decide ((sending 3 63).portRing 0 3 = some (1, 2)), req (fun _ _ x => decide ((x.ring 2).slotSize < 64)) (sending 3 63),
    req (fun s _ x => decide ((x.ring 2).plaunch = (s.launchOf x).ident ∧ (x.ring 2).pgrp = x.grp ∧ 64 ≤ (x.ring 2).slotSize)) (sending 3 64),
    req (fun s c x => c.piece 0 == some 64 && gotBytes (s.engineReadAfter x c.ahead ⟨true, 0⟩ 64) && (s.deliver 0 9 128 64 0 (List.replicate 64 0)).2) (casting (some (128, 64, 9))),
    req (fun _ c _ => c.piece (16 * 4096 + 5) == some 4096 && (c.left.find? fun p => p.1 % 16 == 5) == some (5, 4096))
      (copying (.multi ⟨true, 0⟩ 8192 0 9 0x8020)),
    [none, some (128, 63, 9), some (128, 64, 8)].all fun b => req (fun s _ _ => !(s.deliver 0 9 128 64 0 (List.replicate 64 0)).2) (casting b)].all id = true := by decide +kernel

/-! ### The stream engine -/

def isect : StreamKind := .sisect 1 0 1

def op1 : SOp :=
  { grp := 1, kind := isect, pc := 40, rank := 0, aLoc := ⟨true, 0⟩, aTy := .n32, aEnd := 0, bLoc := ⟨true, 256⟩, bEnd := 0, i := 0, j := 0, start := 0,
    begun := true }

/-- Operation 7 of the group over n32 lists in scratchpad: `a` at 0, `b` at 256. -/
def streaming (k : StreamKind) (a b : List Nat) (s : State := small) (f : SOp → SOp := id) : State :=
  let s := (s.writeBytes (scratchKeys 0 0 (4 * a.length)) (a.flatMap (bytesOf 4))).writeBytes (scratchKeys 0 256 (4 * b.length)) (b.flatMap (bytesOf 4))
  { s with sops := [(7, f { op1 with kind := k, aEnd := a.length, bEnd := b.length })] }

def ring1 (slot : Nat) (slots : List (SlotSt × Nat)) (wait : List Nat) (s : State := small) : State :=
  withG (fun g => { g with rings := g.rings.set 1 { bound := true, slotSize := slot, base := 1024, slots := slots, wait := wait } }) s

/-- How far the operation comes. -/
def ran (p : State → SOp → Ran → Bool) (s : State) : Bool :=
  match s.sops.find? 7 with
  | some o => s.opRuns 7 o && (match o.kind with
    | .sisect r .. | .smerge _ r .. => s.ownsRing 7 o r && p s o (s.runRing 7 o r o.turns)
    | .scount .. => p s o (s.runCount o o.turns)
    | .nzscan .. => p s o (s.runScan o o.turns)
    | .sgath _ tiles sp base size off pitch _ => (match tiles[(o.i - o.start) / 32]? with
      | some t => p s o (s.runRows o t sp base size off pitch 32)
      | none => false)
    | _ => false)
  | none => false

def ranEnd (p : State → SOp → Bool) (_ : State) (_ : SOp) : Ran → Bool | .ended s o => p s o | _ => false

def free4 : List (SlotSt × Nat) := List.replicate 4 (.free, 0)

theorem witness_StreamEvents : [
    decide (((streaming isect [1] [1] small fun o => { o with begun := false }).sops.filter fun p => p.2.grp == 1 && decide (p.1 < 7)).length < 16),
    decide ((((List.range 17).map fun i => (i, op1)).filter fun p => p.2.grp == 1 && decide (p.1 < 16)).length = 16),
    (match (streaming isect [1] [1]).sops.find? 7 with | some o => !(streaming isect [1] [1]).ownsRing 7 o 1 | none => false),
    ran (fun _ _ r => match r with | .full .. => true | _ => false) (streaming isect [1, 2, 3] [1, 3, 4] (ring1 16 free4 [7])),
    ran (fun _ _ r => match r with | .blocked => true | _ => false) (streaming isect [1] [1] (ring1 16 [(.filled, 8)] [7])),
    ran (fun _ _ r => match r with | .stopped _ _ (.miss ..) => true | _ => false)
      (streaming isect [1] [1] (ring1 16 free4 [7]) fun o => { o with aLoc := ⟨false, 0xC0000000⟩ }),
    ran (ranEnd fun _ o => o.slot.isSome) (streaming isect [1, 2] [2, 3] (ring1 64 free4 [7])),
    ran (ranEnd fun s o => o.slot.isNone && (match s.group? 1 with | some y => (y.ring 1).wait.head? == some 7 && (y.ring 1).tailFree | none => false)) (streaming isect [1] [2] (ring1 64 free4 [7])),
    ran (ranEnd fun _ o => o.found == 2) (streaming (.scount 0 1) [1, 2, 3] [1, 3, 4]), ran (ranEnd fun _ o => o.out.length == 2) (streaming (.nzscan 0 (some 0) 512 3) [0, 5, 6] []),
    ran (ranEnd fun _ o => o.i == 32) (streaming (.sgath 0 [10, 11] true 0 (2 ^ 22) 0 64 none) (List.range 33) []),
    ran (ranEnd fun _ o => o.i == 64) (streaming (.sgath 0 [10, 11] true 0 (2 ^ 22) 0 64 none) (List.range 33) [] small fun o => { o with i := 32 })].all id = true := by decide +kernel

/-- One turn of each kind with the lower element in `a`, in `b`, and in both. -/
theorem witness_StreamWalk : ([isect, .scount 0 1, .smerge true 1 0 1, .smerge false 1 0 1].all fun k => [([1], [2]), ([2], [1]), ([0xFFFFFFFF], [0xFFFFFFFF])].all fun (p : List Nat × List Nat) =>
    let s := streaming k p.1 p.2
    match s.sops.find? 7, s.group? 1 with
    | some o, some x => decide (o.i < o.aEnd ∧ o.j < o.bEnd) && (match s.element x o.ahead o.aLoc .n32 o.i, s.element x o.ahead o.bLoc .n32 o.j with | .ok _, .ok _ => true | _, _ => false)
    | _, _ => false) = true := by decide +kernel

/-! ### Matrix engines -/

def rec7 : MRec := { grp := 1, dom := 0, coh := 0, kind := 4, bas := 20, bh := 0, row0 := 62, nrow := 2, anch := 127, pc := 40, rank := 0 }

/-- A region of 64 rows of core 1 and one record of it, in the queue or on the engine. -/
def engined (r : MRec) (runs : Bool) (s : State := tiled) (b : Basin → Basin := id) : State :=
  State.modCore { s with
    basins := [(20, b { grp := 1, bh := 0, core := 1, row := 0, rows := 64 })]
    recs := [(7, { r with running := runs })]
    taskQ := if runs then [] else [7] } 1 fun k => { k with running := if runs then some 7 else none }

/-- How the record that runs on core 1 ends. -/
def runs7 (p : RecRun → Bool) (s : State) : Bool :=
  match s.recs.find? 7, s.basins.find? 20, s.group? 1 with
  | some r, some b, some x => (s.core 1).running == some 7 && !s.waitsOn (.record 7) && x.resident && p (s.runRec 7 r x (r.view b) r.nrow)
  | _, _, _ => false

/-- A region whose element at row 62, column 0 has lost its residue. -/
def flipped (b : Basin) : Basin := { b with elems := [(62 * 192, { val := 1, a := 127, q := 2 })] }

/-- The quad's queue holds `n` records, and one waits. -/
def lined (n : Nat) : State := { engined rec7 false with taskQ := List.replicate n 7, taskWait := [7] }

/-- An array whose next record has the fields given. -/
def arrayed (fields : List (Nat × Nat × Nat)) (addr : Nat := 0) (s : State := engined rec7 false) : State :=
  { (s.writePhys 0 (bytesOf 64 (pack fields))) with arrays := [(9, { grp := 1, dom := 0, coh := 0, loc := ⟨false, addr⟩, count := 1, pc := 40, rank := 0 })] }

def reads (p : State → Group → MArray → Got → Bool) (s : State) : Bool :=
  match s.arrays.find? 9, s.group? 1 with
  | some a, some x => x.resident && !s.waitsOn (.array 9) && (s.openArrays 1 0).all (fun q => 9 ≤ q.1) && p s x a (s.engineRead x ⟨a.loc.sp, a.loc.addr + 64 * a.next⟩ 64)
  | _, _ => false

def readsOk (ok : Bool) (s : State) (x : Group) (a : MArray) : Got → Bool
  | .bytes bs => (match s.readRec x a (littleEndian bs) with | .ok _ => ok | .error _ => !ok)
  | _ => false

/-- A good record, and what the check of the headers that it reads says. -/
def headsSay (p : Except Stop Unit → Bool) (s : State) (x : Group) (a : MArray) : Got → Bool
  | .bytes bs => (match s.readRec x a (littleEndian bs) with | .ok r => p (s.recHeaders x r) | .error _ => false)
  | _ => false

/-- A record of an mma on scratchpad tiles of e4m3. -/
def scratchMma : List (Nat × Nat × Nat) := [(504, 8, 1), (498, 1, 1), (468, 10, 1), (460, 4, 1), (384, 32, 0x20000002)]

theorem witness_MatrixEvents : [
    decide (((lined 255).taskWait.find? fun i => (lined 255).recQuad i == 0) = some 7 ∧ (lined 255).queued 0 = 255), decide ((lined 256).queued 0 = 256),
    ((engined rec7 false).engineHead 1).isSome && ((engined rec7 true).core 1).running.isSome,
    decide (12 ∈ ({ rec7 with kind := 1, tiles := [12] } : MRec).reads) && tiled.filling 12 && ((engined { rec7 with kind := 1, tiles := [12] } false).engineHead 1).isSome,
    ((engined { rec7 with kind := 1, tiles := [12], caught := some [none] } false).engineHead 1).any (fun p => p.2.caught.isSome),
    (let r := { rec7 with kind := 8, by_ := some 0 }; r.readsMemory && (released (engined r false)).readsHeld (.record 7) && !(engined r false).readsHeld (.record 7)),
    decide (({ rec7 with kind := 1, scr := true } : MRec).readsMemory = true ∧ rec7.readsMemory = false ∧ rec7.caught = none),
    runs7 (fun r => match r with | .done _ => true | _ => false) (engined { rec7 with kind := 5, frozen := some [] } true tiled flipped),
    !(engined { rec7 with kind := 1, tiles := [14] } false).classOk { rec7 with kind := 1, tiles := [14] } && !tiled.filling 14,
    (engined { rec7 with kind := 1, tiles := [11] } false).classOk { rec7 with kind := 1, tiles := [11] } && !tiled.filling 11,
    [true, false].all fun b => (let s := (engined rec7 b).modCore 1 fun k => { k with arrayOut := true }; (s.core 1).arrayOut && ((s.core 1).running.isSome == b) && (b || (s.engineHead 1).isSome)),
    runs7 (fun r => match r with | .done _ => true | _ => false) (engined rec7 true) && !((engined rec7 true).core 1).arrayOut, runs7 (fun r => match r with | .mismatch => true | _ => false) (engined { rec7 with kind := 9 } true tiled flipped),
    runs7 (fun r => match r with | .stopped _ _ (.miss ..) => true | _ => false) (engined { rec7 with kind := 8, loc := ⟨false, 0xC0000000⟩ } true),
    runs7 (fun r => match r with | .stopped _ _ (.fault ..) => true | _ => false) (engined { rec7 with kind := 8, loc := ⟨false, 0x180000000⟩ } true),
    runs7 (fun r => match r with | .stopped _ _ .poison => true | _ => false) (engined { rec7 with kind := 8, loc := ⟨false, 0x1000⟩ } true (poisonedAt tiled)),
    reads (readsOk true) (arrayed [(504, 8, 4), (478, 9, 62), (468, 10, 2), (444, 9, 254)]), reads (readsOk false) (arrayed [(504, 8, 4), (478, 9, 63), (468, 10, 2)]),
    reads (headsSay fun e => match e with | .ok _ => true | _ => false) (arrayed scratchMma),
    reads (headsSay fun e => match e with | .error (.trap _) => true | _ => false) (arrayed scratchMma 0 ((engined rec7 false).writeByte (scratchKey 0 5) 1)),
    reads (headsSay fun e => match e with | .error .check => true | _ => false) (arrayed scratchMma 0 { engined rec7 false with poison := [(scratchKey 0 5 / 128, 1)] }),
    [(true, true), (true, false), (false, false)].all fun (p : Bool × Bool) => reads (fun s x a g => headsSay (fun e => match e with | .error (.trap _) => true | _ => false) s x a g && x.failed == (p.1 && p.2) && (s.launchOf x).r.dbg == !p.1)
      (withG (fun g => { g with failed := p.2 }) (withL (fun l => { l with r := { l.r with dbg := !p.1 } }) (arrayed scratchMma 0 ((engined rec7 false).writeByte (scratchKey 0 5) 1)))),
    decide (recBytes (pack [(504, 8, 3), (499, 1, 1), (491, 5, 4), (468, 10, 1), (457, 3, 1)]) = some (4, 2048) ∧ recBytes (pack [(504, 8, 5)]) = none),
    reads (readsOk false) (arrayed [(504, 8, 3), (499, 1, 1), (468, 10, 100)]),
    reads (readsOk false) (arrayed [(504, 8, 5)]), reads (fun _ _ _ => gotMiss) (arrayed [] 0xC0000000), reads (fun _ _ _ => gotFault) (arrayed [] 0x180000000),
    reads (fun _ _ _ => gotPoison) (arrayed [] 0x1000 (poisonedAt tiled)), reads (fun _ _ _ => gotLater) (arrayed [] 0x1000 (preparedBy2 tiled))].all id = true := by decide +kernel

/-- The record that runs on core 1, and how its rows end. -/
def ends (p : State → MRec → Group → Basin → RecRun → Bool) (s : State) : Bool :=
  match s.recs.find? 7, s.basins.find? 20, s.group? 1 with
  | some r, some b, some x => b.elems.sorted && r.cur == 0 && r.frozen.isNone && p s r x b (s.runRec 7 r x b r.nrow)
  | _, _, _ => false

def isDone : RecRun → Bool | .done _ => true | _ => false
def isMismatch : RecRun → Bool | .mismatch => true | _ => false

/-- A region whose element at row 62, column 0 is the 1.375 of R72's worked example, or overflowed. -/
def valued (a : BitVec 8) (b : Basin) : Basin := { b with elems := [(62 * 192, { val := 22, k := true, a := a, q := 1 })] }

theorem witness_RecordResults : [
    ends (fun _ r _ _ e => r.kind == 7 && isMismatch e) (engined { rec7 with kind := 7, loc := ⟨true, 0⟩ } true tiled flipped),
    ends (fun s r x _ e => r.loc.sp && x.resident && s.raced.isEmpty && decide (r.loc.addr + 2304 * r.nrow = 2 ^ 22) && isDone e)
      (engined { rec7 with kind := 7, nrow := 1, loc := ⟨true, 2 ^ 22 - 2304⟩ } true tiled (valued 147)),
    ends (fun s r x _ _ => match s.keysAt (s.aspace x) r.loc 2304 true with | .ok ks => ks.all (· < 2 ^ 60) && ks.length == 2304 && ks.head? == some 0x200000 | _ => false)
      (engined { rec7 with kind := 7, nrow := 1, loc := ⟨false, 0x200000⟩ } true tiled (valued 147)),
    ends (fun s r x _ e => (List.range r.nrow).all (fun i => gotBytes (s.engineRead x ⟨r.loc.sp, r.loc.addr + 2304 * i⟩ 2304)) && isDone e)
      (engined { rec7 with kind := 8, loc := ⟨false, 0x200000⟩ } true)].all id = true := by decide +kernel

/-- A contribution of 1 under anchor 147 lies in the window, and one of 2^100 leaves it. -/
theorem witness_Accumulation : (let units (ex : Int) := Machine.signed false 1 * 2 ^ (ex - (147 - 151)).toNat
    units 0 = 16 ∧ 2 ^ 43 ≤ units 100) := by decide +kernel

/-- An `mma` of one tile by one band. -/
theorem witness_Accumulation_mma : ends (fun s r x _ e => decide (r.kind = 1 ∧ r.bind.ncol = 6 ∧ r.kb0 + r.nk = 3 ∧ r.bind.bands.length = 3 ∧ blocksOf r.nrow * r.nk = 1) &&
      (match s.recTile r x 0 2 with | .ok (some _) => true | _ => false) && isDone e)
    (engined { rec7 with kind := 1, tiles := [11], kb0 := 2 } true) = true := by decide +kernel

theorem witness_RecordResults_lanes : [
    ends (fun _ r _ b e => !(b.elem (r.row0 * 192 + r.col0)).checks && isMismatch e) (engined { rec7 with kind := 6 } true tiled flipped),
    [0, 1].all fun n => ends (fun _ _ _ _ e => isDone e) (engined { rec7 with kind := 6, fn := n, takers := [(⟨1, 0⟩, 5)] } true (owed .engine tiled) (valued 147)),
    ends (fun _ _ _ _ e => isDone e) (engined { rec7 with kind := 5, fn := 3, takers := [(⟨1, 0⟩, 5)] } true (owed .engine tiled)),
    ends (fun _ _ _ _ e => isMismatch e) (engined { rec7 with kind := 5 } true tiled flipped),
    [0, 1, 2].all fun n => [147, 255].all fun a => ends (fun _ _ _ _ e => isDone e) (engined { rec7 with kind := 5, fn := n, takers := [(⟨1, 0⟩, 5)] } true (owed .engine tiled) (valued a))].all id = true := by decide +kernel

theorem witness_RecordResults_tiles : [
    ends (fun _ _ _ _ e => isMismatch e) (engined { rec7 with kind := 3, tiles := [12] } true tiled flipped),
    ends (fun s r _ _ e => isDone e && decide (r.tiles.Nodup ∧ r.ncol = 1) && (s.tiles.find? 12).isSome) (engined { rec7 with kind := 3, tiles := [12] } true tiled (valued 147)),
    ends (fun _ _ _ _ e => isDone e) (engined { rec7 with kind := 2, tiles := [11] } true),
    ends (fun _ r _ _ e => isDone e && decide (r.bind.ncol ≤ 6)) (engined { rec7 with kind := 1, tiles := [11] } true)].all id = true := by decide +kernel

/-- `bmov.val` gives 1.375 for the element of R72's worked example. -/
theorem test_bmov_value : (match (engined { rec7 with kind := 6, takers := [(⟨1, 0⟩, 5)] } true (owed .engine tiled) (valued 147)).recs.find? 7 with
    | some r => match (engined r true (owed .engine tiled) (valued 147)).runRec 7 r group0 { grp := 1, bh := 0, core := 1, row := 0, rows := 64, elems := [(62 * 192, { val := 22, k := true, a := 147, q := 1 })] } 2 with
      | .done s => on s fun _ _ t => decide (t.defs.map (·.src) = [.vals [0x3FB00000]])
      | _ => false
    | none => false) = true := by decide +kernel

theorem witness_BasinRecords : [
    ((engined rec7 true).basins.find? 20).any (·.elems.sorted), decide (rec7.cur = 0), ((engined rec7 true tiled flipped).basins.find? 20).any fun b => b.elems.sorted && !(b.pick (elemKeys 62 2 192)).all Elem.checks,
    ((engined rec7 true).basins.find? 20).any fun b => (b.pick (elemKeys 62 2 192)).all Elem.checks].all id = true := by decide +kernel

/-! ### The fabric -/

/-- Remote operation 7 of the group. -/
def remote7 (k : RemoteKind) : State := { small with remotes := [(7, { grp := 1, launch := 0, kind := k, acc := acc0, ctr := some 0, taker := some (⟨1, 0⟩, 5), op := 0xD0, pc := 40, rank := 0 })] }

/-- Collective 7 of a pod gang of two modules. -/
def collective (op fn : Nat) (ty : Ty) (len root : Nat) : State :=
  { withL (fun l => { l with r := { l.r with gang := 4, podg := 5, podn := 1 } }) with
    fw := { small.fw with pods := [(5, [{ module := 3 }])] }
    colls := [(7, { grp := 1, op := op, fn := fn, t := ty, src := ⟨true, 0⟩, dst := ⟨false, 0x200000⟩, len := len, root := root, ctr := some 0, pc := 40, rank := 0 })] }

/-- The collective is the group's oldest, its contributions are as long as they should be, and its own part is read and its result lands. -/
def collects (s : State) : Bool :=
  match s.colls.find? 7, s.group? 1 with
  | some c, some x =>
    let l := s.launchOf x
    let sl := (collectiveLen c.op c.len l.podSize).1
    let contribs := List.replicate l.podSize (List.replicate sl (1 : Byte))
    let me := ((s.podModules l).idxOf? s.fw.module).getD 0
    !s.waitsOn (.coll 7) && contribs.length == 2 && (c.op != 0xD5 || me == c.root) && match s.engineRead x c.src sl with
      | .bytes own => wrote (s.engineWrite 1 x c.dst (c.result (contribs.set me own)))
      | _ => false
  | _, _ => false

/-- The packet of remote operation 7 has been granted; it is late after `d`. -/
def carried (d : Option DWord) (clk : DWord) : State := { small with packets := [{ packetA with id := 7, sent := true, stamp := d }], clk := clk }

theorem witness_FabricEvents : [
    [RemoteKind.xput [1, 2], .xget 4, .xfwr 2 .i32 7, .commit [(0x1000, 0xFF, 1)] [(⟨1, 0⟩, 5, 7)]].all fun k => ((remote7 k).remotes.find? 7).any fun r => r.taker.isSome,
    decide ((packet2.delivered 0) = none ∧ packet2.delivered 7 = some packet2), (carried (some 5) 6).delivered 7 |>.isSome, (carried (some 5) 5).delivered 7 |>.isSome, (carried none 5).delivered 7 |>.isSome,
    decide (small.remotes.find? 7 = none), collects (collective 0xD3 0 .b32 16 0), collects (collective 0xD5 0 .b32 16 0), collects (collective 0xD4 0 .f32 16 0),
    decide ((collective 0xD5 0 .b32 16 1).colls.length = 1), decide (small.ready.ual.getLsbD 17 = false ∧ small.ready.ual.getLsbD 0 = true ∧ State.reset.ready.ual = 0 ∧ small.ready.safe = false), (let s := collective 0xD3 0 .b32 16 0; (released { s with colls := s.colls.map fun c => (c.1, { c.2 with by_ := some 0 }) }).readsHeld (.coll 7) && !s.readsHeld (.coll 7)),
    (let s := remote7 (.xput [1, 2]); s.remotes.all fun r => !s.xputWaits 7 r.2 && ({ s with remotes := (3, r.2) :: s.remotes } : State).xputWaits 7 r.2),
    [0, 0x27FFFFFFFFC, lpd, 0x6FFFFFFFFFC].all fun a => a % 4 == 0 && (List.range 4).all fun i => isDeviceMemory (a + i) && !small.prepared (a + i),
    [(2 : Nat), 6].all isCombining && [(0 : Nat), 1, 7].all fun n => !isCombining n].all id = true := by decide +kernel

theorem witness_CollectiveResults : ([List.replicate 4 (1 : Byte), List.replicate 4 2] : List (List Byte))[1]? = some (List.replicate 4 2) := rfl

/-- Contributions that are finite, with the largest named, all zero, infinite, and NaN. -/
theorem witness_CollectiveSums : (∀ w ∈ [(0x4B800000 : Word), 0x3F800000, 0xCB800000, 0, 0x80000000], Finite32 w) ∧
    (([0x4B800000, 0x3F800000, 0xCB800000] : List Word).map fun w => (signedUnits w).natAbs) = [2 ^ 173, 2 ^ 149, 2 ^ 173] ∧
    ([0, 0x80000000] : List Word).map signedUnits = [0, 0] ∧ ([0x3F800000, 0x7F800005, 0x7F800000] : List Word).find? f32IsNan = some 0x7F800005 ∧
    ([0x7F800000, 0xFF800000, 0x40400000] : List Word).any f32IsNan = false ∧ ([0x7F800000, 1] : List Word).contains ((0x7F800000 : Word) ^^^ 0x80000000) = false :=
  ⟨finites (by decide), by decide +kernel⟩

/-! ### The module -/

/-- Core 1 is under test; quad 0 is the last, or the first of two, that a package tests. -/
def tested (rest : List Nat) : State := { small with fw := { small.fw with test := some (9, 0 :: rest, []) } }

def lanesOut (w : Word) : State := State.modCore { small with groups := [] } 1 fun k => { k with testing := true, lremap := w }

theorem witness_ModuleEvents : [
    small.ready.fw && !State.reset.ready.fw, decide ((2 : Nat) ^ 53 - 1 < 2 ^ 53), (safe).ready.safe,
    [BringUp.sec, .pl0, .pl1, .disp, .die 15, .hbm 31, .lpd 23, .ual 17].all State.reset.ready.awaits, !State.reset.ready.awaits .fw, !State.reset.ready.awaits (.lpd 24),
    !State.reset.ready.awaits (.ual 18), !({ State.reset.ready with failed := [.pl1] } : Ready).awaits .pl1, ({ State.reset.ready with sec := true } : Ready).awaits .fw, decide (State.reset.ready.failc = 0), (safe State.reset).ready.awaits .pl0 && (safe State.reset).ready.awaits .sec,
    [none, some 0, some 1].all fun o => decide (({ small with ready := { small.ready with failc := 0x20, failAt := o } } : State).ready.failAt = o ∧ stageCode (.ual 0) = 0x40 ∧ stageCode .pl1 < (0x20 : Byte)),
    decide ((small.core 1).testing = false), ((lanesOut 0x3FC0).core 1).testing && ((lanesOut 0x3FC0).residents 1).isEmpty,
    decide (((lanesOut 0x3FC0).core 1).lremap.toNat % 128 = 64 ∧ (64 : Nat) < 65 ∧ (0 : Nat) ≠ 64 ∧ ((64 : Nat) ≠ 64 ∨ (64 : Nat) = 64)), decide (((lanesOut 0x3F85).core 1).lremap.toNat % 128 = 5 ∧ (64 : Nat) ≠ 5),
    !((lanesOut 0x3F85).core 1).lremap.getLsbD 31, (tested []).groups.any fun p => p.2.resident && quadOf p.2.core == 0,
    [[], [255]].all fun l => ({ tested l with groups := [] } : State).groups.all fun p => !p.2.resident].all id = true := by decide +kernel

/-! ### The ground -/

theorem witness_StepRelease_dom : 0 < (group0.doms).length := by decide

/-- Two threads add to one cell, and the second adds to a cell beside it and stores one byte of a third. -/
def summed : State :=
  let t (fx : List Fx) : Thread := { thread0 with st := .boundary, arr := some { order := 0 }, fx := fx }
  withG fun g => { g with threads := [t [.write (wr 0x1000 5 2)], t [.write (wr 0x1000 7 2), .write (wr 0x1004 1 2), .write { wr 0x1008 1 0 with acc := ⟨false, 0x1008, physKeys 0x1008 1⟩, mask := 0xFF }]] }

def stored : State := arrived [.write (wr 0x1000 5 0), .write (wr 0x1002 7 0)]

def writersOf (s : State) : List Writer := (s.writers (((s.group? 1).getD group0)) 0).filter (isWriter s.readByte)

theorem witness_CommitEvent : [
    decide ((writersOf summed).length = 4), on summed fun s g _ => (s.effects g 0).all (fun p => match p.2 with | .write _ => true | _ => false) && decide ((g.dom 0).insts = []),
    (writersOf stored).all (fun y => !isCombining y.w.rule && y.w.rule != 1) && decide ((writersOf stored).length = 2),
    decide ((((writersOf stored).filter fun y => y.w.maskAt 0x1002 / 2 ^ 7 % 2 == 1)).length = 2 ∧ (((writersOf stored).filter fun y => y.w.maskAt 0x1006 / 2 ^ 0 % 2 == 1)).length = 0),
    ((writersOf summed).take 3).all fun y => isCombining y.w.rule && y.w.acc.keys.length == 4 && decide y.w.acc.keys.Nodup && y.w.acc.keys.all (· < 2 ^ 60) &&
      (writersOf summed).all fun q => (q.w.mask == 2 ^ 32 - 1 && q.w.acc.keys == y.w.acc.keys && q.w.rule == y.w.rule && q.w.t == y.w.t) || q.w.acc.keys.all fun k => !y.w.acc.keys.contains k].all id = true := by decide +kernel

/-- Three threads name one cell under a rule; the second fetches. -/
def fetched (rule : Nat) (ty : Ty) (x y z : Nat) : State :=
  let w (v : Nat) (k : WriteKind) : Write := { wr 0x1000 v rule with t := ty, kind := k }
  let t (fx : List Fx) : Thread := { thread0 with st := .boundary, arr := some { order := 0 }, fx := fx, defs := [{ seq := 5, dst := .regs 40 1, src := .commit }] }
  withG fun g => { g with threads := [t [.write (w x .st)], t [.write (w y (.fwr 5))], t [.write (w z .st)]] }

/-- Two threads write one cell where it holds 0, and one where it holds 1. -/
def compared (rule : Nat) : State :=
  let w (c : Word) : Write := { wr 0x1000 7 rule with kind := .cwr 0 c 5 }
  let t (fx : List Fx) : Thread := { thread0 with st := .boundary, arr := some { order := 0 }, fx := fx, defs := [{ seq := 5, dst := .pred 0, src := .commit }] }
  withG fun g => { g with threads := [t [.write (w 0)], t [.write (w 0)], t [.write (w 1)]] }

def results (s : State) : List (List Src) := match s.group? 1 with
  | some g => match (s.applyWrites 1 0 g).group? 1 with
    | some y => y.threads.map fun t => t.defs.map (·.src)
    | none => []
  | none => []

theorem witness_CommitResults : [
    [(2, .f32), (3, .f32), (4, .f32), (2, .i32), (5, .i32), (6, .n32), (0, .i32)].all fun (p : Nat × Ty) => on (fetched p.1 p.2 0x3F800000 0x40000000 0xBF800000) fun s g _ =>
      (s.writers g 0).all (fun y => !y.w.peer && (s.writers g 0).count y == 1 && y.w.acc.keys.length == 4 && decide y.w.acc.keys.Nodup) && decide ((writersOf s).length = 3 ∧ g.threads.length = 3),
    on (fetched 2 .f32 0x7F800000 0x7FC00001 0xFF800000) fun s _ _ => (writersOf s).any fun y => f32IsNan (BitVec.ofNat 32 y.w.value),
    [0, 2, 7].all fun n => on (compared n) fun s g _ => decide ((writersOf s).length = 2 ∧ (s.writers g 0).length = 3),
    (writersOf (compared 0)).all fun y => !isCombining y.w.rule && decide (y.w.rule ≠ 1 ∧ y.w.acc.keys.Nodup)].all id = true := by decide +kernel

/-- R222's worked case, in order of rank: 10, then `st` and `fwr` contributions; R223's: the lowest rank alone wins under `.lo`. -/
theorem test_fetch_value : results (fetched 2 .i32 4 6 1) = [[.commit], [.vals [4]], [.commit]] := by decide +kernel
theorem test_compare_write : results (compared 0) = [[.vals [1]], [.vals [0]], [.vals [0]]] := by decide +kernel

/-! ### Commits of other effects -/

/-- The domain of the thread has these effects to commit, and nothing else. -/
def commits (fx : List Fx) (s : State := small) (p : State → Group → Bool := fun _ _ => true) : Bool :=
  on (arrived fx s) fun s g _ => decide (s.effects g 0 = fx.map fun e => (0, e)) && (g.dom 0).insts.isEmpty &&
    g.threads.all (fun t => !t.acquiring) && p s g

/-- Two threads have one effect each. -/
def both (a b : Fx) : Bool :=
  on (withG fun g => { g with threads := [{ thread0 with fx := [a] }, { thread0 with fx := [b] }] }) fun s g _ =>
    decide (s.effects g 0 = [(0, a), (1, b)]) && (g.dom 0).insts.isEmpty

def message : BitVec 128 := BitVec.ofNat 128 (pack [(72, 8, 9), (70, 2, 1), (36, 12, 4)])

/-- Ring 0 is bound, with a slot filled at its head and one acquired; or a request waits at it. -/
def ringing (f : Ring → Ring := fun k => k) (s : State := small) : State :=
  withG (fun g => { g with rings := g.rings.set 0 (f { bound := true, slotSize := 64, slots := [(.filled, 32), (.acquired, 8)], acq := [1] }) }) s

def taken (s : State) : State :=
  { s with groups := s.groups ++ [(2, { group0 with rings := [{ bound := true, msg := true, port := 9 }], ctrs := [{ bnd := some (0, 64, 7) }] })] }

theorem witness_CounterCommit : [
    commits [.lcset 31 (.arm 9)], commits [.lcset 0 (.arm 9), .lcset 0 (.arm 5)], both (.lcset 0 (.arm 9)) (.lcset 0 (.arm 5)), commits [.lcset 0 .unbind],
    commits [.lcset 0 (.bind 64 128 7)] (taken small) fun s g => (s.bindings (quadOf g.core)).any fun e => e.2.2.2.2 == 7,
    commits [.lcset 0 (.bind 64 128 7)] small fun s g => (s.bindings (quadOf g.core)).isEmpty,
    commits [.rbind 0 message] (ringing) fun _ g => (g.ring 0).bound, commits [.rbind 0 message] (taken small) fun s g => decide ((RingDesc.of message).kind = 1) && s.portTaken (quadOf g.core) (RingDesc.of message).port,
    commits [.rbind 0 message] small fun s g => !(g.ring 0).bound && !s.portTaken (quadOf g.core) (RingDesc.of message).port,
    commits [.rrel 0, .rrel 0] (ringing) fun _ g => decide ((g.ring 0).acq = [1]), both (.rrel 0) (.rrel 0),
    on (arrived [.rfree 0] (owed (.racq 0) (ringing))) fun s g t => decide (s.effects g 0 = [(0, .rfree 0)] ∧ 0 < g.rings.length) && t.wantsRing 0 && s.copies.isEmpty && (g.dom 0).insts.isEmpty,
    (copying (.put 0 ⟨true, 0⟩ 32) (arrived [.rfree 0] (ringing)) fun c => { c with dest := some (1, 0) }).copies.sorted,
    on (arrived [] (owed (.racq 0) (ringing))) fun s g t => decide (s.effects g 0 = [] ∧ g.doms.length = 1 ∧ 0 ∈ g.domTids 0 ∧ (g.ring 0).slots[(g.ring 0).head]? = some (.filled, 32)) && t.wantsRing 0,
    on (arrived [] (owed (.racq 0) (ringing fun k => { k with head := 1 }))) fun _ g t => decide ((g.ring 0).slots[(g.ring 0).head]? ≠ some (.filled, 8)) && t.wantsRing 0].all id = true := by decide +kernel

/-- The worked effect of a release and of an acquisition (R280): the oldest acquired slot is free, the head is acquired. -/
theorem test_release_commit : on ((arrived [.rrel 0] (ringing)).commit 1 0) fun _ g _ => decide ((g.ring 0).acq = [] ∧ (g.ring 0).slots = [(.filled, 32), (.free, 0)]) := by decide +kernel
theorem test_acquire_commit : on ((arrived [] (owed (.racq 0) (ringing))).commit 1 0) fun _ g t =>
    decide ((g.ring 0).acq = [1, 0] ∧ (g.ring 0).head = 1 ∧ t.defs.map (·.src) = [.vals [0, 32]]) := by decide +kernel

def deep (n : Nat) : State := small.modCore 1 fun k => { k with deque := List.replicate n { launch := 0, grp := 9, entry := 32, ncoh := 1, v0 := 0, v1 := 0 } }

theorem witness_DispatchCommit : [
    commits [.spawn 32 16 1 2 40] (deep 63) fun s g => decide ((s.core g.core).deque.length = 63) && (s.launch? g.launch).isSome, commits [.spawn 32 1 1 2 40] (deep 64),
    commits [.launch acc0 63 (some 31)] small fun s _ => decide (63 < s.queues.length), commits [.role 0xFF] small fun _ g => decide (0 < g.ncoh ∧ 0 < g.roles.length), both (.role 1) (.role 2),
    commits [.prio 3], both (.prio 2) (.prio 3), commits [.yield] small fun s g => !s.hasCandidate g.core g.prio,
    commits [.yield] (deep 1) fun s g => s.hasCandidate g.core g.prio, commits [.prio 0, .yield] (deep 1) fun s g => !s.hasCandidate g.core 0 && decide (g.st = .running),
    both (.prio 3) .yield].all id = true := by decide +kernel

theorem test_spawn_commit : (((arrived [.spawn 32 2 5 6 40]).commit 1 0).core 1).deque =
    [{ launch := 0, grp := 2, entry := 32, ncoh := 2, v0 := 5, v1 := 6, by_ := some (1, 0) }] := by decide +kernel

theorem witness_ContinuationCommit : [commits [.contv 0 64], commits [.contv 96 64], both (.contv 96 64) (.contv 0 0)].all id = true := by decide +kernel

/-- The domain has a `tset` of two elements of tile 11 to commit. -/
def setting (raw : Bool) : State :=
  withD (fun k => { k with insts := [{ coh := 0, pc := 40, rank := 0, seq := 3, order := 3, act := .tset 11 raw [(0, 0, 0x3F800000), (31, 31, 5)] }] }) (arrived [] tiled)

theorem witness_ElementCommit : [true, false].all fun b => on (setting b) fun s g _ =>
    decide (s.effects g 0 = [] ∧ (g.dom 0).insts.length = 1) && (s.tiles.find? 11).any fun z => z.data.codes.sorted := by decide +kernel

/-- The thread with one result of each kind that lands. -/
def landing : Thread :=
  { thread0 with
    st := .boundary, arr := some { order := 0 }
    defs := [⟨1, .regs 40 1, .vals [9]⟩, ⟨2, .regs 41 2, .vals [5, 6]⟩, ⟨3, .half 1 true, .vals [7]⟩, ⟨4, .pred 6, .vals [1]⟩, ⟨5, .half 2 false, .vals [8]⟩] }

theorem witness_Landing : landing.live ∧ (∃ a, landing.arr = some a ∧ a.isExit = false) ∧ ({ landing with st := .exited } : Thread).live = false ∧
    landing.defs = [⟨1, .regs 40 1, .vals [9]⟩] ++ ⟨2, .regs 41 2, .vals [5, 6]⟩ :: landing.defs.drop 2 := ⟨rfl, ⟨_, rfl, rfl⟩, rfl, rfl⟩

/-- The small machine with a choice of what happens next. -/
def next (c : Choice) : State := { small with agenda := [c] }

/-- What the builder of core 1 picks, and how the instruction at the start of the block decodes: nothing stands before it. -/
theorem witness_StepRunsDecoded :
    (match ({ next (.issue 1) with agenda := [] } : State).tick.buildIssue 1 with
      | (s1, (_, x, t) :: _) => match s1.cached x.core x.launch t.here with
        | some b => !b.prot && t.pc.toNat == t.here.toNat + 8 && match decodeSlot (blockBody b.bytes) with
          | .word w _ => match decodeWord w with | .instr _ => true | _ => false
          | _ => false
        | none => false
      | _ => false) = true ∧ (Instr.powerCap).fields = none := by decide +kernel

theorem witness_StepKeepsMemory : (next (.issue 1)).MemWf ∧ (match step (next (.issue 1)) with | .next _ => true | _ => false) = true := by
  constructor
  · unfold State.MemWf; decide +kernel
  · decide +kernel

theorem witness_DecodeEncode : WellFormed (.add { f0 with s := true, d := 3, a := 4, b := 5, t := .i32 }) ∧
    (encodeWord (.add { f0 with s := true, d := 3, a := 4, b := 5, t := .i32 })).isSome := by
  constructor
  · unfold WellFormed; decide +kernel
  · decide +kernel

theorem witness_DecodeEncode_classes : ([(2, Instr.exit f0), (6, .add { f0 with d := 3, a := 4, b := 5 }), (12, .mov { f0 with d := 8, a := 249, imm := 0x7FC00000 })].all fun p =>
    match encodeWord p.2 with | some w => shortestClass w == p.1 && classCarries 12 w | none => false) = true := by decide +kernel

theorem witness_ReadAfterWrite : small.mem.wf = true ∧ (physKeys 0x27FFFFFFFFE 4).Nodup ∧ ∀ k ∈ physKeys 0x27FFFFFFFFE 4, k < 2 ^ 60 := by decide +kernel

/-- The outcome is the state that a statement gives. -/
def isNext (o : Host.Outcome State Fault Refusal) (s : State) : Bool := match o with | .next t => decide (t = s) | _ => false

theorem isNext_eq {o : Host.Outcome State Fault Refusal} {s : State} (h : isNext o s = true) : o = .next s := by
  unfold isNext at h; split at h
  · rw [of_decide_eq_true h]
  · exact absurd h (by simp)

theorem witness_Frames : Yields (.mov { f0 with d := 40, a := 3 }) small ⟨1, 0⟩ { f0 with d := 40, a := 3 } 3 ∧
    YieldsPred (.setp { f0 with d := 198, a := 3, b := 3 }) small ⟨1, 0⟩ { f0 with d := 198, a := 3, b := 3 } true ∧
    Defers (.fdiv { f0 with d := 40, a := 9, b := 9, t := .f32 }) small ⟨1, 0⟩ { f0 with d := 40, a := 9, b := 9, t := .f32 } (.regs 40 1) (.sampled [defaultNan]) ∧
    Buffers (.yield f0) small ⟨1, 0⟩ f0 .yield ∧ Joins (.sclose { f0 with d := 0 }) small ⟨1, 0⟩ group0 thread0 { f0 with d := 0 } (.stream (.sclose 0)) :=
  ⟨isNext_eq (by decide +kernel), isNext_eq (by decide +kernel), isNext_eq (by decide +kernel), isNext_eq (by decide +kernel), isNext_eq (by decide +kernel)⟩

theorem witness_Frames_pair : ∃ w, YieldsPair (.mul { f0 with fn := 2, d := 40, a := 4, b := 4, t := .n32 }) small ⟨1, 0⟩
    { f0 with fn := 2, d := 40, a := 4, b := 4, t := .n32 } w := by
  obtain ⟨g, t, f, hf, h, -⟩ := meets_of (s := small) (i := .mul { f0 with fn := 2, d := 40, a := 4, b := 4, t := .n32 }) (p := any)
    (by decide +kernel)
  cases hf
  refine ⟨BitVec.ofInt 64 (t.intA { f0 with fn := 2, d := 40, a := 4, b := 4, t := .n32 } *
    t.intB { f0 with fn := 2, d := 40, a := 4, b := 4, t := .n32 }), ?_⟩
  unfold YieldsPair GoesOn
  rw [exec_mul, execMul]
  exact issueReg_alone h rfl

theorem witness_Frames_lanes : ∃ g l act v,
    CohortIssues lanes3 1 0 g l act (.lred { f0 with d := 40, a := 1, t := .n32 }) { f0 with d := 40, a := 1, t := .n32 } ∧
    LanesYield (.lred { f0 with d := 40, a := 1, t := .n32 }) lanes3 l act { f0 with d := 40, a := 1, t := .n32 } v := by
  obtain ⟨g, l, act, f, hf, h, ne, -⟩ := cohort_of (s := lanes3) (i := .lred { f0 with d := 40, a := 1, t := .n32 })
    (p := fun _ _ _ => true) (by decide +kernel)
  cases hf
  have e := issueLanes_alone (res := fun w ls n _ => word1 { f0 with d := 40, a := 1, t := .n32 } (laneCombine 0 .n32
    (laneValues { f0 with d := 40, a := 1, t := .n32 } 0 ls (n - n % w) w))) h ne
  refine ⟨g, l, act, _, h, Eq.trans ?_ e⟩
  rw [exec_lred, execLred]
  rfl

/-- What keeps a thread from issuing, and what it meets before the instruction's own effect. -/
theorem witness_IssueGate : [
    on (withG fun g => { g with st := .trapped 0 }) fun _ g _ => !g.runs, on (withT fun t => { t with st := .boundary }) fun _ _ t => decide (t.st ≠ .ready),
    on (withT fun t => { t with defs := List.replicate 63 ⟨0, .none, .lcget 0 0⟩ }) fun _ _ t => !t.countOk (.fdiv f0),
    on ({ small with copies := (List.range 1024).map fun i => (i, { grp := 1, kind := move 0 0 64, ctr := none, op := 0x80, pc := 0, rank := 0 }) }) fun s _ _ => !s.engineRoom 1 (.cpy f0),
    on (withT (fun t => { t with tmr := 1 }) { small with clk := 1 }) fun s _ t => s.timerDue t,
    on (withL fun l => { l with fmask := 1 }) fun s g _ => !featuresOk (s.launchOf g).fmask (.fdiv { f0 with t := .e4m3 }) { f0 with t := .e4m3 },
    on small fun s g _ => featuresOk (s.launchOf g).fmask (.mov { f0 with d := 64, a := 0 }) { f0 with d := 64, a := 0 } && !heldOk g 0 (.mov { f0 with d := 64, a := 0 }) { f0 with d := 64, a := 0 },
    on small fun s g t => decide (decodeFault s g 0 (.mov { f0 with pg := 0, d := 40, a := 0 }) { f0 with pg := 0, d := 40, a := 0 } = none) && (Thread.guard t 0 == false || t.guard 8 == false)
    ].all id = true := by decide +kernel

theorem witness_LandingCounters : [({ tgt := 0, cnt := 0xFFFFFFFF } : Ctr), { tgt := 1, cnt := 0 }, { tgt := 0xFFFFFFFF, cnt := 0xFFFFFFFE, ph := true }].all fun k =>
    decide (k.tgt = 0 ∨ k.cnt.toNat < k.tgt.toNat) := by decide +kernel

/-! ### What rests on the implementation's constants -/

def peerLeaf : Leaf := { frame := 0x80000000, place := 3, w := true, x := true, mig := false, peer := 1, size := 2 }

theorem peer_walk (h : Config.reachable 1 = true) : small.walkAsid 0 0x80000000 = .leaf (leafEntry 2) peerLeaf := by
  have r : small.fw.roots.find? 0 = some root := by decide +kernel
  have e0 : (BitVec.ofNat 64 (small.readPhys (root + 8 * (0x80000000 / 2 ^ 48 % 2 ^ 9)) 8) : DWord) = 0x8000000000101000 := by decide +kernel
  have e1 : (BitVec.ofNat 64 (small.readPhys (0x101000 + 8 * (0x80000000 / 2 ^ 39 % 2 ^ 9)) 8) : DWord) = 0x8000000000102000 := by decide +kernel
  have e2 : (BitVec.ofNat 64 (small.readPhys (0x102000 + 8 * (0x80000000 / 2 ^ 30 % 2 ^ 9)) 8) : DWord) = BitVec.ofNat 64 (leaf 0x80000000 3 true true false 1) := by decide +kernel
  have p : ((BitVec.ofNat 64 (leaf 0x80000000 3 true true false 1) : DWord).extractLsb' 8 8).toNat = 1 := by decide +kernel
  have l : leafOf small (BitVec.ofNat 64 (leaf 0x80000000 3 true true false 1)) 2 = some peerLeaf := by
    unfold leafOf
    simp only [p, h]
    decide +kernel
  have n0 : ((0x8000000000101000 : DWord).extractLsb' 8 44).toNat * 256 = 0x101000 := by decide
  have n1 : ((0x8000000000102000 : DWord).extractLsb' 8 44).toNat * 256 = 0x102000 := by decide
  have v : (BitVec.ofNat 64 (leaf 0x80000000 3 true true false 1) : DWord).getLsbD 63 = true ∧ (BitVec.ofNat 64 (leaf 0x80000000 3 true true false 1) : DWord).getLsbD 62 = true := by decide +kernel
  simp only [State.walkAsid, r, State.walk, levelBits, e0, e1, n0, n1]
  simp only [e2, v.1, v.2, l]
  decide

/-- A PEER page that its module can be reached for serves `xput`, `xget` and `xfwr`. -/
theorem witness_peer (h : Config.reachable 1 = true) : lands (small.accessAt (small.aspace group0) ⟨false, 0x80000000⟩ 16 4 (.peer true)) = true := by
  have t : small.translate 0 0 0x80000000 = .ok peerLeaf := by
    have m : small.tables 0 0 0x80000000 = small := rfl
    unfold State.translate
    rw [m, peer_walk h]
    rfl
  have s : (small.aspace group0).launch = 0 ∧ (small.aspace group0).asid = 0 := by decide +kernel
  have g : pagesOf 0x80000000 16 = [0x80000000] := by decide
  simp only [State.accessAt, g, State.leaves, s.1, s.2, t]
  rfl

/-! ## Decoding: one word of the 12-byte class for each instruction, laid out by R92 -/

/-- The word decodes, in its 12 bytes, to the instruction it stands for. -/
def decodes (l : List (Nat × Instr)) : Bool := l.all fun p => decodeBytes (bytesOf 12 p.1) == some (p.2, 12)

/-- Fields with the step marker and the guard `!p2`. -/
def g2 : Fields := { s := true, pg := 10 }

theorem test_decode_control : decodes [
    (0x000000000000F8F8F8F800F4, .nop g2),
    (0x89ABCDE50000F8F8F9F801F4, .bra { g2 with a := 249, imm := 0x89abcde5 }),
    (0x000000000000F8F855F802F4, .brx { g2 with a := 85 }),
    (0x89ABCDE50000F8F955F803F4, .brt { g2 with a := 85, b := 249, imm := 0x89abcde5 }),
    (0x89ABCDE50000F8F8F9AC04F4, .call { g2 with d := 172, a := 249, imm := 0x89abcde5 }),
    (0x000000000000F8F855AC05F4, .callx { g2 with d := 172, a := 85 }),
    (0x000000000000F8F854F806F4, .ret { g2 with a := 84 }),
    (0x000000000001F8F8F8F807F4, .join { g2 with fn := 1 }),
    (0x000000006801F8F8F8C308F4, .step { g2 with fn := 1, d := 195, sc := 5, x := 1 }),
    (0x89ABCDE550356633D1F809F5, .waitv { g2 with fn := 5, a := 209, b := 51, c := 102, sc := 2, x := 5, imm := 0x89abcde5, t := .f32 }),
    (0x000000000000F8F8F8F80AF4, .exit g2),
    (0x00005A5A0000F8F8F9F80BF4, .trap { g2 with a := 249, imm := 0x5a5a }),
    (0x00005A5A0000F8F8F9F80CF4, .bkpt { g2 with a := 249, imm := 0x5a5a }),
    (0x000000000000F83355F80DF4, .contv { g2 with a := 85, b := 51 }),
    (0x000000000000F8F855F80EF4, .resume { g2 with a := 85 }),
    (0x00000A5A0000F8F955F80FF4, .svc { g2 with a := 85, b := 249, imm := 0xa5a })] = true := by decide +kernel

theorem test_decode_integer : decodes [
    (0x000000000021F83355AA10F4, .add { g2 with fn := 1, d := 170, a := 85, b := 51, t := .n32 }),
    (0x000000000021F83355AA11F4, .sub { g2 with fn := 1, d := 170, a := 85, b := 51, t := .n32 }),
    (0x000000000021663355AA12F4, .add3 { g2 with fn := 1, d := 170, a := 85, b := 51, c := 102, t := .n32 }),
    (0x000000000022F83355AC13F4, .mul { g2 with fn := 2, d := 172, a := 85, b := 51, t := .n32 }),
    (0x000000000022663355AC14F4, .mad { g2 with fn := 2, d := 172, a := 85, b := 51, c := 102, t := .n32 }),
    (0x000000000020F83355AA15F4, .min { g2 with d := 170, a := 85, b := 51, t := .n32 }),
    (0x000000000020F83355AA16F4, .max { g2 with d := 170, a := 85, b := 51, t := .n32 }),
    (0x000000000011F8F855AA17F4, .abs { g2 with fn := 1, d := 170, a := 85, t := .i32 }),
    (0x000000000011F8F855AA18F4, .neg { g2 with fn := 1, d := 170, a := 85, t := .i32 }),
    (0x000000000020663355AA19F4, .addmin { g2 with d := 170, a := 85, b := 51, c := 102, t := .n32 }),
    (0x000000000000F83355AA1AF4, .and { g2 with d := 170, a := 85, b := 51 }),
    (0x000000000000F83355AA1BF4, .or { g2 with d := 170, a := 85, b := 51 }),
    (0x000000000000F83355AA1CF4, .xor { g2 with d := 170, a := 85, b := 51 }),
    (0x000000000000F8F855AA1DF4, .not { g2 with d := 170, a := 85 }),
    (0x0000005A0000663355AA1EF4, .bitfn { g2 with d := 170, a := 85, b := 51, c := 102, imm := 0x5a }),
    (0x000000000000F83355AA1FF4, .shl { g2 with d := 170, a := 85, b := 51 }),
    (0x000000000000F83355AA20F4, .shr { g2 with d := 170, a := 85, b := 51 }),
    (0x000000000000F83355AA21F4, .sra { g2 with d := 170, a := 85, b := 51 }),
    (0x000000000001F83355AA22F4, .rot { g2 with fn := 1, d := 170, a := 85, b := 51 }),
    (0x000000000001663355AA23F4, .fsh { g2 with fn := 1, d := 170, a := 85, b := 51, c := 102 }),
    (0x000000000020F83355AA24F4, .bfx { g2 with d := 170, a := 85, b := 51, t := .n32 }),
    (0x000000000000663355AA25F4, .bfi { g2 with d := 170, a := 85, b := 51, c := 102 }),
    (0x000000000000F8F855AA26F4, .clz { g2 with d := 170, a := 85 }),
    (0x000000000000F8F855AA27F4, .popc { g2 with d := 170, a := 85 }),
    (0x000000000000F8F855AA28F4, .brev { g2 with d := 170, a := 85 }),
    (0x000000000025F83355C229F4, .setp { g2 with fn := 5, d := 194, a := 85, b := 51, t := .n32 }),
    (0x000000000000C43355AA2AF4, .sel { g2 with d := 170, a := 85, b := 51, c := 196 }),
    (0x000000000000F8F855AA2BF4, .mov { g2 with d := 170, a := 85 }),
    (0x000000004000663355AA2CF5, .lea { g2 with d := 170, a := 85, b := 51, c := 102, x := 5 }),
    (0x000000000004F8C3C5C22DF4, .pset { g2 with fn := 4, d := 194, a := 197, b := 195 }),
    (0x000000000020F83355AA2EF4, .idiv { g2 with d := 170, a := 85, b := 51, t := .n32 }),
    (0x000000000020F83355AA2FF4, .irem { g2 with d := 170, a := 85, b := 51, t := .n32 })] = true := by decide +kernel

theorem test_decode_float : decodes [
    (0x000000000060F83355AA30F4, .fadd { g2 with d := 170, a := 85, b := 51, t := .bf16h }),
    (0x000000000060F83355AA31F4, .fsub { g2 with d := 170, a := 85, b := 51, t := .bf16h }),
    (0x000000000060F83355AA32F4, .fmul { g2 with d := 170, a := 85, b := 51, t := .bf16h }),
    (0x000000000060663355AA33F4, .ffma { g2 with d := 170, a := 85, b := 51, c := 102, t := .bf16h }),
    (0x000000000060F83355AA34F4, .fmin { g2 with d := 170, a := 85, b := 51, t := .bf16h }),
    (0x000000000060F83355AA35F4, .fmax { g2 with d := 170, a := 85, b := 51, t := .bf16h }),
    (0x000000000062F83355AA36F4, .fsgn { g2 with fn := 2, d := 170, a := 85, b := 51, t := .bf16h }),
    (0x000000000067F83355C237F4, .fsetp { g2 with fn := 7, d := 194, a := 85, b := 51, t := .bf16h }),
    (0x000000000060663355AA38F4, .faddmin { g2 with d := 170, a := 85, b := 51, c := 102, t := .bf16h }),
    (0x000000000340663355AA39F4, .fdot2 { g2 with d := 170, a := 85, b := 51, c := 102, m := 3, t := .bf16x2 }),
    (0x000000000060F83355AA3AF4, .fscale { g2 with d := 170, a := 85, b := 51, t := .bf16h }),
    (0x000000000360F8F855AA3BF4, .frnd { g2 with d := 170, a := 85, m := 3, t := .bf16h }),
    (0x000000000060F83355C23CF4, .fclass { g2 with d := 194, a := 85, b := 51, t := .bf16h }),
    (0x000000000330F83355AA3DF4, .fdiv { g2 with d := 170, a := 85, b := 51, m := 3, t := .f32 }),
    (0x000000000330F8F855AA3EF4, .fsqrt { g2 with d := 170, a := 85, m := 3, t := .f32 }),
    (0x000000000030F8F855AA3FF4, .frcp { g2 with d := 170, a := 85, t := .f32 }),
    (0x000000000030F8F855AA40F4, .frsq { g2 with d := 170, a := 85, t := .f32 }),
    (0x000000000030F8F855AA41F4, .fex2 { g2 with d := 170, a := 85, t := .f32 }),
    (0x000000000030F8F855AA42F4, .flg2 { g2 with d := 170, a := 85, t := .f32 }),
    (0x000000000031F8F855AA43F4, .ftrig { g2 with fn := 1, d := 170, a := 85, t := .f32 }),
    (0x000000000030F8F855AA44F4, .ftanh { g2 with d := 170, a := 85, t := .f32 }),
    (0x000000000360F8F855AA48F4, .cvt { g2 with d := 170, a := 85, m := 3, t := .bf16h }),
    (0x000000000321F8F855AA49F4, .cvti { g2 with fn := 1, d := 170, a := 85, m := 3, t := .n32 }),
    (0x0000000000D1F83355AA4AF4, .pack { g2 with fn := 1, d := 170, a := 85, b := 51, t := .n8 }),
    (0x0000000000D3F8F855AA4BF4, .unpack { g2 with fn := 3, d := 170, a := 85, t := .n8 }),
    (0x000000000020F83355AA4CF4, .ext { g2 with d := 170, a := 85, b := 51, t := .n32 })] = true := by decide +kernel

theorem test_decode_lanes : decodes [
    (0x00000000C003F83355AA50F4, .lshf { g2 with fn := 3, d := 170, a := 85, b := 51, x := 3 }),
    (0x00000000C038F8F855AA51F4, .lred { g2 with fn := 8, d := 170, a := 85, x := 3, t := .f32 }),
    (0x00000000C03EF8F855AA52F4, .lscan { g2 with fn := 14, d := 170, a := 85, x := 3, t := .f32 }),
    (0x00000000C004F8F8C5AA53F4, .lpoll { g2 with fn := 4, d := 170, a := 197, x := 3 }),
    (0x00000000C001F8F855AA54F4, .lbcast { g2 with fn := 1, d := 170, a := 85, x := 3 }),
    (0x00000000C001F8F855AA55F4, .lpeer { g2 with fn := 1, d := 170, a := 85, x := 3 }),
    (0x00000000C020F83355AC56F4, .lisect { g2 with d := 172, a := 85, b := 51, x := 3, t := .n32 }),
    (0x00000000C000F8C355AA57F4, .lcomp { g2 with d := 170, a := 85, b := 195, x := 3 }),
    (0x00000000C030F8F855AA58F4, .lrank { g2 with d := 170, a := 85, x := 3, t := .f32 }),
    (0x00000000C002F8F8F8AC59F4, .lmask { g2 with fn := 2, d := 172, x := 3 })] = true := by decide +kernel

theorem test_decode_memory : decodes [
    (0x89ABCDE540B366F8CBAA60F5, .ld { g2 with fn := 3, d := 170, a := 203, c := 102, x := 5, imm := 0x89abcde5, t := .l6 }),
    (0x89ABCDE541B36633CBF861F5, .st { g2 with fn := 3, a := 203, b := 51, c := 102, m := 1, x := 5, imm := 0x89abcde5, t := .l6 }),
    (0x89ABCDE547306633D1AA62F5, .fwr { g2 with d := 170, a := 209, b := 51, c := 102, m := 7, x := 5, imm := 0x89abcde5, t := .f32 }),
    (0x89ABCDE547356632D1C263F5, .cwr { g2 with fn := 5, d := 194, a := 209, b := 50, c := 102, m := 7, x := 5, imm := 0x89abcde5, t := .f32 }),
    (0x89ABCDE540B366F8F8AA64F5, .ldq { g2 with fn := 3, d := 170, c := 102, x := 5, imm := 0x89abcde5, t := .l6 }),
    (0x89ABCDE541B36633F8F865F5, .stq { g2 with fn := 3, b := 51, c := 102, m := 1, x := 5, imm := 0x89abcde5, t := .l6 }),
    (0x89ABCDE5403066F8F9AA66F5, .ldk { g2 with d := 170, a := 249, c := 102, x := 5, imm := 0x89abcde5, t := .f32 }),
    (0x000000000000F83355D667F4, .sgset { g2 with d := 214, a := 85, b := 51 }),
    (0x000000000000F8F8CBAC68F4, .sgget { g2 with d := 172, a := 203 }),
    (0x89ABCDE5400166F8CBF870F5, .pref { g2 with fn := 1, a := 203, c := 102, x := 5, imm := 0x89abcde5 }),
    (0x89ABCDE5400166F8CBF871F5, .evict { g2 with fn := 1, a := 203, c := 102, x := 5, imm := 0x89abcde5 }),
    (0x89ABCDE540026632CBAA72F5, .satom { g2 with fn := 2, d := 170, a := 203, b := 50, c := 102, x := 5, imm := 0x89abcde5 }),
    (0x89ABCDE5400166F8CBAC73F5, .xlat { g2 with fn := 1, d := 172, a := 203, c := 102, x := 5, imm := 0x89abcde5 })] = true := by decide +kernel

theorem test_decode_copy : decodes [
    (0x0000000000036632CB1A80F4, .cpy { g2 with fn := 3, d := 26, a := 203, b := 50, c := 102 }),
    (0x0000001A00026633D13C81F4, .cpyt { g2 with fn := 2, d := 60, a := 209, b := 51, c := 102, imm := 0x1a }),
    (0x89ABCDE500006632D11A82F4, .cpym { g2 with d := 26, a := 209, b := 50, c := 102, imm := 0x89abcde5 }),
    (0x89ABCDE500006632CB1A83F4, .cpyg { g2 with d := 26, a := 203, b := 50, c := 102, imm := 0x89abcde5 }),
    (0x000000000000F8F8551A84F4, .lcsetArm { g2 with d := 26, a := 85 }),
    (0x0000000000016633551A84F4, .lcsetBind { g2 with fn := 1, d := 26, a := 85, b := 51, c := 102 }),
    (0x000000000002F8F8F81A84F4, .lcsetUnbind { g2 with fn := 2, d := 26 }),
    (0x000000000003F8F813AA85F4, .lcget { g2 with fn := 3, d := 170, a := 19 }),
    (0x000000000000F8F8550B86F4, .rbindBind { g2 with d := 11, a := 85 }),
    (0x000000000001F8F8F80B86F4, .rbindFree { g2 with fn := 1, d := 11 }),
    (0x000000000000F8F805AC87F4, .racq { g2 with d := 172, a := 5 }),
    (0x000000000000F8F8F80B88F4, .rrel { g2 with d := 11 }),
    (0x89ABCDE540006633D10B89F5, .rput { g2 with d := 11, a := 209, b := 51, c := 102, x := 5, imm := 0x89abcde5 }),
    (0x0000000000006633551A8AF4, .send { g2 with d := 26, a := 85, b := 51, c := 102 }),
    (0x000000000000F8F805AA8BF4, .rhead { g2 with d := 170, a := 5 })] = true := by decide +kernel

theorem test_decode_tiles : decodes [
    (0x89ABCDE50000F8F8F83CA0F4, .talloc { g2 with d := 60, imm := 0x89abcde5 }),
    (0x89ABCDE50000F8F8F83CA1F4, .tfree { g2 with d := 60, imm := 0x89abcde5 }),
    (0x0000005A0000F8F8F83CA2F4, .tgive { g2 with d := 60, imm := 0x5a }),
    (0x0000000A0000F8F8F83CA3F4, .ttake { g2 with d := 60, imm := 0xa }),
    (0x89ABCDE540B16611D13CA4F5, .tld { g2 with fn := 1, d := 60, a := 209, b := 17, c := 102, x := 5, imm := 0x89abcde5, t := .l6 }),
    (0x89ABCDE540006615D116A5F5, .tst { g2 with d := 22, a := 209, b := 21, c := 102, x := 5, imm := 0x89abcde5 }),
    (0x000000000001F83325AAA6F4, .tget { g2 with fn := 1, d := 170, a := 37, b := 51 }),
    (0x000000000001F833553CA7F4, .tset { g2 with fn := 1, d := 60, a := 85, b := 51 }),
    (0x000000000000F8F825AAA8F4, .tqry { g2 with d := 170, a := 37 }),
    (0x000009A540006633F80DA9F4, .wld { g2 with d := 13, b := 51, c := 102, x := 1, imm := 0x9a5 }),
    (0x025A5A5A40006633F80DAAF4, .mma { g2 with d := 13, b := 51, c := 102, x := 1, imm := 0x25a5a5a })] = true := by decide +kernel

theorem test_decode_matrix : decodes [
    (0x0000000000006633D1F8ABF4, .mtaskq { g2 with a := 209, b := 51, c := 102 }),
    (0x00000A5A0000F8F8F80DACF4, .balloc { g2 with d := 13, imm := 0xa5a }),
    (0x000000000000F8F8F80DADF4, .bfree { g2 with d := 13 }),
    (0x00015A5A0001F8F8F80DAEF4, .binit { g2 with fn := 1, d := 13, imm := 0x15a5a }),
    (0x5A5A5A5A40006633F80DAFF4, .rslv { g2 with d := 13, b := 51, c := 102, x := 1, imm := 0x5a5a5a5a }),
    (0x000000000003F8F806AAB0F4, .bcmp { g2 with fn := 3, d := 170, a := 6 }),
    (0x00005A5A0001F8F8068CB1F4, .bmov { g2 with fn := 1, d := 140, a := 6, imm := 0x5a5a }),
    (0x005A5A5A0000F833D10DB2F4, .bsave { g2 with d := 13, a := 209, b := 51, imm := 0x5a5a5a }),
    (0x005A5A5A0000F833D10DB3F4, .brst { g2 with d := 13, a := 209, b := 51, imm := 0x5a5a5a }),
    (0x025A5A5A0000F8F8F80DB4F4, .bscale { g2 with d := 13, imm := 0x25a5a5a }),
    (0x000000000000F8F825AAB5F4, .tzf { g2 with d := 170, a := 37 })] = true := by decide +kernel

theorem test_decode_streams : decodes [
    (0x000000000070F832D106C0F4, .sopen { g2 with d := 6, a := 209, b := 50, t := .f16 }),
    (0x000000000000F803050BC1F4, .sisect { g2 with d := 11, a := 5, b := 3 }),
    (0x89ABCDE50000F833051AC2F4, .nzscan { g2 with d := 26, a := 5, b := 51, imm := 0x89abcde5 }),
    (0x0000025A007064D1053CC3F4, .sgath { g2 with d := 60, a := 5, b := 209, c := 100, imm := 0x25a, t := .f16 }),
    (0x000000000001F803050BC4F4, .smerge { g2 with fn := 1, d := 11, a := 5, b := 3 }),
    (0x000000000000F80305AAC5F4, .scount { g2 with d := 170, a := 5, b := 3 }),
    (0x000000000000F8F8F806C6F4, .sclose { g2 with d := 6 }),
    (0x000000000000F8F805AAC7F4, .sstat { g2 with d := 170, a := 5 })] = true := by decide +kernel

theorem test_decode_fabric : decodes [
    (0x89ABCDE540036698CB16D0F5, .xput { g2 with fn := 3, d := 22, a := 203, b := 152, c := 102, x := 5, imm := 0x89abcde5 }),
    (0x89ABCDE5400366F8CB96D1F5, .xget { g2 with fn := 3, d := 150, a := 203, c := 102, x := 5, imm := 0x89abcde5 }),
    (0x89ABCDE540306633CBAAD2F5, .xfwr { g2 with d := 170, a := 203, b := 51, c := 102, x := 5, imm := 0x89abcde5, t := .f32 }),
    (0x0000000000006632D116D3F4, .xallg { g2 with d := 22, a := 209, b := 50, c := 102 }),
    (0x0000000000326632D116D4F4, .xred { g2 with fn := 2, d := 22, a := 209, b := 50, c := 102, t := .f32 }),
    (0x89ABCDE500006632D116D5F4, .xbcst { g2 with d := 22, a := 209, b := 50, c := 102, imm := 0x89abcde5 }),
    (0x000000000003F8F8F8AAD6F4, .xqry { g2 with fn := 3, d := 170 }),
    (0x000000000002F8F8558CD7F4, .digest { g2 with fn := 2, d := 140, a := 85 })] = true := by decide +kernel

theorem test_decode_dispatch : decodes [
    (0x89ABCDE5000FF832F9F8E0F4, .spawn { g2 with fn := 15, a := 249, b := 50, imm := 0x89abcde5 }),
    (0x0000000000006633D116E1F4, .launch { g2 with d := 22, a := 209, b := 51, c := 102 }),
    (0x000000000000F8F8F8F8E2F4, .yield g2),
    (0x000000000000F8F855F8E3F4, .role { g2 with a := 85 }),
    (0x000000000000F8F855F8E4F4, .prio { g2 with a := 85 }),
    (0x000000000000F8F855F8E5F4, .tmset { g2 with a := 85 }),
    (0x000000040000F8F8F9F8E6F4, .xacq { g2 with a := 249, imm := 0x4 }),
    (0x000000030000F8F8F9F8E7F4, .xrel { g2 with a := 249, imm := 0x3 }),
    (0x000000000000F8F8E5AAE8F4, .srget { g2 with d := 170, a := 229 }),
    (0x000000000000F8F855E6E9F4, .srset { g2 with d := 230, a := 85 })] = true := by decide +kernel

/-! ## Words of the other classes: the worked encodings of R85, R93, R137, R145, R164, R172, R219, R265, R276, R297, R315-R318, R357, R410 -/

theorem test_decode_classes : [
    ([0x27, 0x00], Instr.nop f0), ([0x97, 0x19, 0x0A, 0x0A, 0x0B, 0x0C, 0x10, 0x00], .addmin { f0 with s := true, d := 10, a := 10, b := 11, c := 12, t := .i32 }),
    ([0xCE, 0x1E, 0x05, 0x01, 0x02, 0x03, 0, 0, 0x96, 0, 0, 0], .bitfn { f0 with d := 5, a := 1, b := 2, c := 3, imm := 0x96 }),
    ([0x87, 0x08, 0xC2, 0xF8, 0xF8, 0xF8, 0x01, 0x18], .step { f0 with fn := 1, d := 194, sc := 3 }),
    ([0x67, 0xC0, 0x00, 0xC9, 0x04, 0x20], .sopen { f0 with d := 0, a := 201, b := 4, t := .n32 }), ([0x77, 0xC1, 0x03, 0x00, 0x01, 0x00], .sisect { f0 with s := true, d := 3, a := 0, b := 1 }),
    ([0xA7, 0xC2, 0x03, 0x02, 0x0C, 0, 0, 0, 0x01, 0], .nzscan { f0 with d := 3, a := 2, b := 12, imm := 128 }),
    ([0xCE, 0xC3, 0x04, 0x01, 0xCB, 0x0A, 0x70, 0, 0x61, 0, 0, 0], .sgath { f0 with d := 4, a := 1, b := 203, c := 10, t := .f16, imm := 0x61 }),
    ([0xEE, 0x61, 0xF8, 0xCA, 0x09, 0x05, 0x10, 0x82, 0x40, 0, 0, 0], .st { f0 with s := true, a := 202, b := 9, c := 5, t := .i32, m := 2, x := 2, imm := 64 }),
    ([0xB7, 0x72, 0x0C, 0xCD, 0x14, 0x02, 0x00, 0x20, 0x00, 0x00], .satom { f0 with s := true, fn := 2, d := 12, a := 205, b := 20, imm := 16 }),
    ([0x87, 0x80, 0x00, 0xCA, 0x04, 0x06, 0, 0], .cpy { f0 with d := 0, a := 202, b := 4, c := 6 }), ([0x57, 0x87, 0x0A, 0x02], .racq { f0 with s := true, d := 10, a := 2 }),
    ([0x97, 0x56, 0x0A, 0x02, 0x03, 0xF8, 0x20, 0xC0], .lisect { f0 with s := true, d := 10, a := 2, b := 3, t := .n32, x := 3 }),
    ([0xCE, 0xAA, 0x02, 0x08, 0xF8, 0xF8, 0, 0, 0, 0x7E, 0x80, 0], .mma { f0 with d := 2, a := 8, imm := 0x00807E00 }),
    ([0xEE, 0xD0, 0x01, 0xCC, 0x0A, 0x06, 0x01, 0x80, 0x20, 0, 0, 0], .xput { f0 with s := true, fn := 1, d := 1, a := 204, b := 10, c := 6, x := 2, imm := 32 })
    ].all (fun (p : List Byte × Instr) => decodeBytes p.1 == some (p.2, p.1.length)) = true := by decide +kernel

/-- Reserved opcodes, sub-functions and padding (R79, R97). -/
theorem test_decode_rejects : [[0x27, 0xF0], [0x27, 0xFF], [0x77, 0x10, 3, 4, 5, 0x12], [0x1F], [0x00]].all (fun (b : List Byte) => decodeBytes b == none) = true := by decide +kernel

theorem test_canonical : encodeWord (.add { f0 with s := true, d := 3, a := 4, b := 5, t := .i32 }) = some 0x8800E06080BF020000000000 ∧
    encodeWord (.xput { f0 with s := true, fn := 1, d := 1, a := 204, b := 10, c := 6, x := 2, imm := 32 }) = some 0xE802E0398140C00200000020 := by decide +kernel

/-- The worked header of R78. -/
theorem test_header : (let h := Header.ofNat 0xC1803000340003E3; (h.kind, h.len, h.live, h.reconv, h.prefetch, h.steps)) = (3, 96, 12, 13, 0, 3) ∧
    checkByte [0xE3, 0x03, 0x00, 0x34, 0x00, 0x30, 0x80, 0xC1] = true := by decide +kernel

/-! ## Well-formedness: a term that each check refuses (R85-R90) -/

theorem test_reserved : [
    Instr.add { f0 with fn := 2, d := 1, a := 1, b := 1 }, .add { f0 with d := 1, a := 1, b := 1, t := .f32 }, .add { f0 with d := 1, a := 1, b := 1, c := 1 }, .add { f0 with d := 1, a := 1, b := 1, m := 1 },
    .fadd { f0 with d := 1, a := 1, b := 1, t := .f32, m := 5 }, .fadd { f0 with d := 1, a := 1, b := 1, t := .bf16x2, m := 1 }, .fdot2 { f0 with d := 1, a := 1, b := 1, c := 1, t := .bf16x2, m := 6 },
    .st { f0 with a := 200, b := 1, t := .e4m3, m := 2 }, .xfwr { f0 with d := 1, a := 200, b := 1, m := 1 }, .add { f0 with d := 1, a := 1, b := 1, sc := 1 }, .step { f0 with sc := 6 }, .add { f0 with d := 1, a := 1, b := 1, x := 1 },
    .step { f0 with x := 2 }, .lmask { f0 with d := 2, x := 6 }, .add { f0 with d := 1, a := 1, b := 1, imm := 1 }, .trap { f0 with a := 249, imm := 0x10000 },
    .wld { f0 with d := 0, a := 0, imm := 0x800 }, .binit { f0 with fn := 1, d := 0, imm := 0x40000 }, .bcmp { f0 with fn := 3, d := 1, a := 0, imm := 1 }, .exit { f0 with d := 1 },
    .lbcast { f0 with fn := 1, d := 1, a := 1, b := 1 }, .fsgn { f0 with d := 1, a := 1, b := 1, t := .f32 }, .wld { f0 with d := 0, a := 248, b := 1 }].all (fun i => i.check == .reserved) = true := by decide +kernel

theorem test_illegal : [
    Instr.xacq { f0 with a := 249, imm := 6 }, .add { f0 with d := 192, a := 1, b := 1 }, .lmask { f0 with d := 1 }, .mul { f0 with fn := 2, d := 1, a := 1, b := 1, t := .i32 }, .brx { f0 with a := 249 }, .srget { f0 with d := 248, a := 216 },
    .xput { f0 with fn := 3, a := 200, b := 189 }, .add { f0 with d := 1, a := 192, b := 1 }, .bitfn { f0 with d := 1, a := 249, b := 1, c := 1 }, .satom { f0 with fn := 2, d := 1, a := 200, b := 1 }, .ret { f0 with a := 191 },
    .lbcast { f0 with d := 1, a := 1, b := 200 }, .fsgn { f0 with fn := 2, d := 1, a := 1, b := 200, t := .f32 }, .setp { f0 with d := 199, a := 1, b := 1 }, .sel { f0 with d := 1, a := 1, b := 1, c := 1 }, .mov { f0 with d := 199, a := 1 },
    .mov { f0 with d := 1, a := 200 }, .step { f0 with d := 192 }, .lpoll { f0 with fn := 3, d := 1, a := 192 }, .lpeer { f0 with d := 1, a := 1 }, .bmov { f0 with fn := 1, d := 2, a := 0 }, .digest { f0 with d := 2, a := 1 },
    .ld { f0 with d := 1, a := 248 }, .sgset { f0 with d := 215, a := 1, b := 1 }, .fwr { f0 with d := 1, a := 1, b := 1 }, .cpy { f0 with fn := 2, d := 0, a := 200, b := 2, c := 1 }, .ldq { f0 with d := 1, a := 200 },
    .bra { f0 with a := 1 }, .tget { f0 with d := 1, a := 64, b := 1 }, .bfree { f0 with d := 16 }, .rrel { f0 with d := 16 }, .lcsetArm { f0 with d := 32, a := 1 }, .xallg { f0 with d := 32, a := 200, b := 2, c := 1 },
    .sclose { f0 with d := 8 }, .wld { f0 with d := 0, a := 64 }, .wld { f0 with d := 0, x := 1, b := 200, c := 1 }, .srget { f0 with d := 1, a := 233 }, .srset { f0 with d := 229, a := 1 },
    .mov { f0 with d := 248, a := 4 }, .srset { f0 with d := 228, a := 248 }, .role { f0 with a := 248 }, .prio { f0 with a := 248 }, .tmset { f0 with a := 248 }, .digest { f0 with d := 2, a := 248 }, .lcsetArm { f0 with d := 1, a := 248 }].all (fun i => i.check == .illegal) = true := by decide +kernel

/-! ## Worked cases of the spec -/

/-- What register `n` holds after one instruction of the thread with registers `l`, and what its last deferred result is. -/
def reg (n : Nat) (i : Instr) (l : List Word) : Option Word := match exec i (withV l) with
  | .next s => (s.thread? ⟨1, 0⟩).map (·.reg n)
  | _ => none

def deferredBy (s : State) (tid : Nat) (i : Instr) : List Word := match exec i s with
  | .next s => match (s.thread? ⟨1, tid⟩).bind fun t => t.defs.getLast? with
    | some { src := .sampled l, .. } => l
    | _ => []
  | _ => []

def runsTo (i : Instr) (s : State) (p : State → Bool) : Bool := match exec i s with
  | .next s => p s
  | _ => false

/-- R167: `mul.dw` and its parts. -/
theorem test_mul : reg 4 (.mul { f0 with fn := 2, d := 4, a := 0, b := 1, t := .i32 }) [0xFFFFFFFD, 0x40000000] = some 0x40000000 ∧
    reg 5 (.mul { f0 with fn := 2, d := 4, a := 0, b := 1, t := .n32 }) [0xFFFFFFFD, 0x40000000] = some 0x3FFFFFFF := by decide +kernel

/-- R182: `fadd.bf16x2`. -/
theorem test_fadd : reg 4 (.fadd { f0 with d := 4, a := 0, b := 1, t := .bf16x2 }) [0x3F803F80, 0x3BC03B80] = some 0x3F813F80 := by decide +kernel

/-- R186: `fdot2` forms its sum exactly. -/
theorem test_fdot2 : reg 4 (.fdot2 { f0 with d := 4, a := 0, b := 1, c := 2, t := .bf16x2 }) [0x3F804580, 0x39804580, 0xCB800000] = some 0x39800000 := by decide +kernel

/-- R191: 1 + 2^-8 under the five modes, and its negative. -/
theorem test_cvt : ([0, 1, 2, 3, 4].map fun m => reg 4 (.cvt { f0 with d := 4, a := 0, m := m, t := .bf16l }) [0x3F808000]) = [some 0x3F80, some 0x3F80, some 0x3F80, some 0x3F81, some 0x3F81] ∧
    ([0, 1, 2, 3, 4].map fun m => reg 4 (.cvt { f0 with d := 4, a := 0, m := m, t := .bf16l }) [0xBF808000]) = [some 0xBF80, some 0xBF80, some 0xBF81, some 0xBF80, some 0xBF81] := by decide +kernel

/-- The worked object that quantises four values: `fscale`, `cvti`, `pack`. -/
theorem test_fscale : reg 4 (.fscale { f0 with d := 4, a := 0, b := 249, imm := 4, t := .f32 }) [0xBF19999A] = some 0xC119999A := by decide +kernel
theorem test_cvti : ([0x41A66666, 0xC119999A, 0x43100000, 0xC24D70A4].map fun w => reg 4 (.cvti { f0 with fn := 0, d := 4, a := 0, t := .i32 }) [w]) =
    [some 21, some 0xFFFFFFF6, some 144, some 0xFFFFFFCD] := by decide +kernel
theorem test_pack : reg 2 (.pack { f0 with d := 2, a := 0, b := 1, t := .i8 }) [21, 0xFFFFFFF6, 0] = some 0xF615 ∧
    reg 2 (.pack { f0 with fn := 1, d := 2, a := 0, b := 1, t := .i8 }) [144, 0xFFFFFFCD, 0xF615] = some 0xCD7FF615 := by decide +kernel

/-- The conversions of R58, and the codes of R60-R63. -/
theorem test_smallFormats : ([(2, 0x43960000), (2, 0x43FA0000), (2, 0x3A800000), (3, 0x47C35000), (4, 0x40200000), (4, 0x40A00000), (4, 0xBE800000), (5, 0x40400000), (5, 0xBDCCCCCD)].map
    fun (p : Nat × Word) => (elemEncode p.1 (numF32 p.2)).1) = [0x79, 0x7E, 0x00, 0x7B, 0x4, 0x6, 0x8, 0x06, 0x33] ∧ packCodes 6 [0x06, 0x33, 0x10, 0x0F] = 0x3D0CC6 := by decide +kernel

/-- Lanes of one cohort with v1 (and v2) as given. -/
def cohort (l : List (Word × Word)) : State :=
  { withG (fun g => { g with threads := (l.map fun p => { thread0 with v := regs [0, p.1, p.2] }) ++ List.replicate (64 - l.length) { st := .exited } }) with
    issue := { core := 1, threads := (List.range l.length).map fun i => ⟨1, i⟩, len := 12 } }

/-- R203, R204: sums exact and rounded once. -/
theorem test_lred : deferredBy (cohort [(0x4B800000, 0), (0x3F800000, 0), (0x3F800000, 0), (0xCB800000, 0)]) 2 (.lred { f0 with fn := 6, d := 4, a := 1, t := .f32, x := 4 }) = [0x40000000] := by decide +kernel
theorem test_lscan : ([0, 1, 2, 3].map fun n => deferredBy (cohort [(0x4B800000, 0), (0x3F800000, 0), (0x3F800000, 0), (0xCB800000, 0)]) n (.lscan { f0 with fn := 6, d := 4, a := 1, t := .f32, x := 4 })) =
    [[0x4B800000], [0x4B800000], [0x4B800001], [0x40000000]] := by decide +kernel

/-- R206: the worked `lisect.w8`. -/
theorem test_lisect : ([0, 2, 7].map fun n => deferredBy (cohort [(2, 5), (5, 6), (9, 14), (14, 15), (20, 31), (31, 33), (40, 34), (0xFFFFFFFF, 50)]) n
    (.lisect { f0 with d := 4, a := 1, b := 2, t := .n32, x := 3 })) = [[1, 0x0070E003], [0x405, 0x0070E003], [0xFFFFFFFF, 0x0070E003]] := by decide +kernel

/-- A commit of the writes of threads in rank order to the word at 0x1000. -/
def commitOf (old : Nat) (l : List (List Write)) : State :=
  let t (ws : List Write) : Thread := { thread0 with st := .boundary, arr := some { order := 0 }, fx := ws.map Fx.write, defs := ws.map fun w => match w.kind with
    | .fwr q => ⟨q, .none, .commit⟩
    | .cwr _ _ q => ⟨q, .none, .commit⟩
    | .st => ⟨0, .none, .keep⟩ }
  (State.writePhys (withG fun g => { g with threads := l.map t }) 0x1000 (bytesOf 4 old)).commit 1 0

def resultsOf (s : State) (n : Nat) : List Src := (List.range n).map fun i => ((s.thread? ⟨1, i⟩).bind fun t => t.defs.head?).elim .keep (·.src)

/-- R218: 2^24 + 1 - 2^24 under `sum.f32` into 0.5. -/
theorem test_sum : (commitOf 0x3F000000 ([0x4B800000, 0x3F800000, 0xCB800000].map fun v => [{ wr 0x1000 v 2 with t := .f32 }])).readPhys 0x1000 4 = 0x3FC00000 := by decide +kernel

/-- R219: `.lo` by bytes. -/
theorem test_lo : (commitOf 0x11223344 [[{ wr 0x1001 0xAA 0 with acc := ⟨false, 0x1001, [0x1001]⟩, mask := 0xFF }], [wr 0x1000 0xDDCCBBEE 0]]).readPhys 0x1000 4 = 0xDDCCAAEE := by decide +kernel

/-- R222: `fwr.sum` with 4, 1 and 3 and a `st.sum` of 6 into 10. -/
theorem test_fwr : (let s := commitOf 10 [[{ wr 0x1000 4 2 with kind := .fwr 7 }], [wr 0x1000 6 2], [{ wr 0x1000 1 2 with kind := .fwr 7 }], [{ wr 0x1000 3 2 with kind := .fwr 7 }]]
    (s.readPhys 0x1000 4, resultsOf s 4)) = (24, [.vals [10], .keep, .vals [20], .vals [21]]) := by decide +kernel

/-- R223: three `cwr.eq` with comparand 0. -/
theorem test_cwr : (let s := commitOf 0 ([7, 8, 9].map fun v => [{ wr 0x1000 v 0 with kind := .cwr 0 0 7 }])
    (s.readPhys 0x1000 4, resultsOf s 3)) = (7, [.vals [1], .vals [0], .vals [0]]) := by decide +kernel

/-- R310, R316: the lists of the worked case; SLOTSZ 1. -/
def listA : List Nat := [1, 3, 4, 7, 9, 12]
def listB : List Nat := [3, 5, 7, 8, 12]

theorem test_sisect : runsTo (.streamSlotClose 7) (streaming isect listA listB (ring1 16 free4 [7])) (fun s =>
    decide (s.readNat (scratchKeys 0 1024 16) = 0x00000002000000030000000000000001) && on s fun _ g _ => decide ((g.ring 1).slots.head? = some (.filled, 16))) = true := by decide +kernel

theorem test_scount : ran (ranEnd fun _ o => o.found == 3) (streaming (.scount 0 1) listA listB) = true := by decide +kernel

/-- R317: the f16 stream of the worked case. -/
theorem test_nzscan : runsTo (.streamOperationEnd 7) (State.writeBytes (streaming (.nzscan 0 (some 0) 512 8) [] [] small fun o => { o with aTy := .f16, aEnd := 8 })
    (scratchKeys 0 0 16) ([0x0000, 0x3E00, 0x8000, 0x0000, 0x7E00, 0x0000, 0x4000, 0x0000].flatMap (bytesOf 2))) (fun s =>
    decide ((s.readNat (scratchKeys 0 512 16), s.readNat (scratchKeys 0 528 16), s.readNat (scratchKeys 0 560 12)) =
      (0x800000003, 0xFFFFFFFF000000060000000400000001, 0x400000007FC000003FC00000)) && on s fun _ g _ => decide ((g.ctrs.head?.map Ctr.cnt) = some 80)) = true := by decide +kernel

/-- R69, R72: four contributions under anchor 147, and R366: `bscale` of the element. -/
theorem test_basin : (let e := [(false, 5, (-1 : Int)), (true, 17, -4), (false, 1, -5), (true, 1, -5)].foldl (fun (e : Elem) p => e.add (.fin p.1 p.2.1 p.2.2)) { a := 147 }
    ((e.val, e.k, e.a), ((e.bscale 2).val, (e.bscale 2).a), (((e.bscale 2).bscale (-2)).val, ((e.bscale 2).bscale (-2)).a))) = ((22, true, 147), (5, 149), (20, 147)) := by decide +kernel

/-- R412: the worked `xred.sum.f32` of three modules. -/
theorem test_xred : [[0x4B800000, 0x3F800000, 0xCB800000], [0x3F800000, 0x7F800005, 0x7F800000], [0x7F800000, 0xFF800000, 0x40400000]].map (reduceWord 0 .f32) =
    [0x3F800000, 0x7FC00005, 0x7FC00000] := by decide +kernel

/-- R339: the latch that the records before an array's `mma` have built decides its bands, not the one that instructions at issue find. -/
theorem test_array_latch : let r : List (Nat × Nat × Nat) := [(504, 8, 1), (498, 1, 1), (468, 10, 1), (464, 4, 5), (460, 4, 1), (384, 32, 0x20000002)]
    reads (readsOk true) (arrayed r 0 (engined rec7 false tiled fun b => { b with sub := { fmt := 2 }, bind := { fmt := 0 } })) = true ∧
    reads (readsOk false) (arrayed r 0 (engined rec7 false tiled fun b => { b with sub := { fmt := 0 }, bind := { fmt := 2 } })) = true := by decide +kernel

/-- R47: a fill that has read a byte of the body before a commit keeps it, and reads the rest after. -/
theorem test_fill_mixes : (match fillAhead 1 1 32 9 (coded 32 (block 0 (nops 12))) with
    | .next s => on (s.writePhys 0x20020 (block 0 (nops 11 ++ [0x27, 0x10]))) fun s g _ => (s.core 1).ahead.length == 1 &&
        (match s.readBlock g 32 with | .ok (some bs) => bs.drop 8 == nops 11 ++ [0x27, 0x10] | _ => false)
    | _ => false) = true ∧
    (match fillAhead 1 1 32 31 (coded 32 (block 0 (nops 12))) with
    | .next s => on (s.writePhys 0x20020 (block 0 (nops 11 ++ [0x27, 0x10]))) fun s g _ =>
        (match s.readBlock g 32 with | .ok (some bs) => bs.drop 8 == nops 12 | _ => false)
    | _ => false) = true := by decide +kernel

/-- R45: a frame may be mapped once it has been allocated, and not before. -/
theorem test_allocation : maps noPeer newLeaf = false ∧
    runsTo (.pageAllocate lpd .gib1) noPeer (fun s => s.fw.zeroed == [(lpd, 2 ^ 30)] && maps s newLeaf) = true := by decide +kernel

/-- R405: a write of the mask of a vector alone. -/
theorem test_dword : (match dwordWrite 0x800C 1 small with | .next s => (s.fw.vectors.take 2).map BitVec.toNat == [0, 2 ^ 32] | _ => false) = true := by decide +kernel

/-- R284: a delivery of `cpym` that is bound and covers, and one that is not bound. -/
theorem test_cpym : runsTo (.multicastDelivery 7 0) (casting (some (128, 64, 9))) (fun s => on s fun _ g _ => decide ((g.ctrs.map (·.cnt)).sum = 128)) = true ∧
    runsTo (.multicastDelivery 7 0) (casting none) (fun s => on s fun _ g _ => decide ((g.ctrs.head?.map fun k => (k.und, k.err)) = some (64, true))) = true := by decide +kernel

/-! ## One step -/

/-- The program that `withFetchWord` places is what the next step runs. -/
theorem test_withFetchWord : (match step (State.reset.withFetchWord 16 0x0A27) with | .next s => s.groups.all (fun p => (p.2.threads.head?.map fun t => t.arr.isSome) == some true) | _ => false) = true ∧
    (match step (State.reset.withFetchWord 48 0x100504031077) with | .next s => s.groups.all (fun p => (p.2.threads.head?.map Thread.st) == some .boundary) | _ => false) = true := by decide +kernel

/-- R130: a flaw of the lane that the thread uses kills its group and starts a test. -/
theorem test_flaw : runsTo (.fadd { f0 with d := 4, a := 0, b := 0, t := .f32 }) (small.modCore 1 fun k => { k with flaws := [(0, 0x40040000)] }) (fun s => (s.core 1).testing && s.groups.isEmpty) = true := by decide +kernel

end Sys2Proof.Tests
end

section
/-!
Memory stays in its canonical form (R3): every operation on the state keeps it.  Memory changes only by writes of bytes,
by frames that are moved and by frames that are cleared (`Sys2Proof/Laws/Memory.lean`); whatever else an operation does, it
leaves `State.mem` alone.  An operation that is one update of another field keeps the form by definition; here stand
the others, in the order of the model.
-/
namespace Sys2Proof.Machine
variable {s : State}

/-! ## The shapes that the operations are built from -/

theorem State.MemWf.ite {c : Prop} [Decidable c] {a b : State} (ha : a.MemWf) (hb : b.MemWf) :
    (if c then a else b).MemWf := by
  split
  · exact ha
  · exact hb

theorem State.MemWf.foldl {α : Type} {op : State → α → State} {l : List α} (h : s.MemWf)
    (keeps : ∀ s a, s.MemWf → (op s a).MemWf) : (l.foldl op s).MemWf :=
  State.foldl_memWf op keeps l h

/-! ## State, groups and threads -/

theorem State.MemWf.modGroup {g f} (h : s.MemWf) : (s.modGroup g f).MemWf := h
theorem State.MemWf.modThread {r f} (h : s.MemWf) : (s.modThread r f).MemWf := h
theorem State.MemWf.modDom {g d f} (h : s.MemWf) : (s.modDom g d f).MemWf := h
theorem State.MemWf.modCtr {g c f} (h : s.MemWf) : (s.modCtr g c f).MemWf := h
theorem State.MemWf.modRing {g r f} (h : s.MemWf) : (s.modRing g r f).MemWf := h
theorem State.MemWf.modStream {g n f} (h : s.MemWf) : (s.modStream g n f).MemWf := h
theorem State.MemWf.modCore {c f} (h : s.MemWf) : (s.modCore c f).MemWf := h
theorem State.MemWf.modQuad {q f} (h : s.MemWf) : (s.modQuad q f).MemWf := h
theorem State.MemWf.modLaunch {l f} (h : s.MemWf) : (s.modLaunch l f).MemWf := h
theorem State.MemWf.modQueue {q f} (h : s.MemWf) : (s.modQueue q f).MemWf := h
theorem State.MemWf.modTile {id f} (h : s.MemWf) : (s.modTile id f).MemWf := h
theorem State.MemWf.modBasin {id f} (h : s.MemWf) : (s.modBasin id f).MemWf := h
theorem State.MemWf.result {r n v} (h : s.MemWf) : (s.result r n v).MemWf := h
theorem State.MemWf.bump (h : s.MemWf) : s.bump.MemWf := h

theorem State.MemWf.noteWrites {keys} (h : s.MemWf) : (s.noteWrites keys).MemWf := by
  unfold State.noteWrites
  exact .ite h h

theorem State.MemWf.tables {launch asid va} (h : s.MemWf) : (s.tables launch asid va).MemWf := by
  unfold State.tables
  exact List.foldrRecOn _ _ h fun _ h _ _ => .ite (State.writePhys_memWf _ _ h) h

theorem State.MemWf.outUp {g c} (h : s.MemWf) : (s.outUp g c).MemWf := by
  cases c <;> exact h

theorem State.MemWf.enter {r off bytes} (h : s.MemWf) : (s.enter r off bytes).MemWf := by
  unfold State.enter
  exact .ite (.ite h h) (.ite h h)

theorem State.MemWf.discardCopy {id} (h : s.MemWf) : (s.discardCopy id).MemWf := by
  unfold State.discardCopy
  split
  · exact h
  · exact State.outDone_memWf _ _ (State.countIn_memWf _ _ _ _ h)

theorem State.MemWf.dropGroup {g} (h : s.MemWf) : (s.dropGroup g).MemWf :=
  show ((s.foreignMessages g).foldl _ s).MemWf from .foldl h fun _ _ h => .discardCopy h

theorem State.MemWf.leaveEach {fuel gs} (h : s.MemWf) : (s.leaveEach fuel gs).MemWf := by
  induction fuel generalizing s gs with
  | zero => exact h
  | succ fuel ih =>
    cases gs with
    | nil => exact h
    | cons g rest =>
      unfold State.leaveEach
      split
      · split
        · exact ih (.dropGroup (.ite h h))
        · exact ih h
      · exact ih h

theorem State.MemWf.leave {g} (h : s.MemWf) : (s.leave g).MemWf := .leaveEach h

theorem State.MemWf.abortGroup {g reason} (h : s.MemWf) : (s.abortGroup g reason).MemWf := by
  unfold State.abortGroup
  split
  · exact .leave h
  · exact h

theorem State.MemWf.trap {g who t} (h : s.MemWf) : (s.trap g who t).MemWf := by
  unfold State.trap
  split
  · exact h
  · extract_lets _ _ _ _ _ _ _ written
    have hw : written.MemWf := State.writePhys_memWf _ _ h
    clear_value written
    exact .ite hw (.abortGroup hw)

theorem State.MemWf.removeGroup {g} (h : s.MemWf) : (s.removeGroup g).MemWf := by
  unfold State.removeGroup
  split
  · exact .leaveEach (.dropGroup h)
  · exact h

theorem State.MemWf.flushGroup {g again} (h : s.MemWf) : (s.flushGroup g again).MemWf := by
  unfold State.flushGroup
  split
  · exact h
  · exact .ite h (.ite h.removeGroup h.removeGroup)

theorem State.MemWf.endFlush {g} (h : s.MemWf) : (s.endFlush g).MemWf := by
  unfold State.endFlush
  split
  · exact h
  · split
    · exact .ite h (.flushGroup h)
    · exact h

theorem State.MemWf.countKill {g} (h : s.MemWf) : (s.countKill g).MemWf := by
  unfold State.countKill
  split
  · exact h
  · exact .ite h h

theorem State.MemWf.relaunchGang {x} (h : s.MemWf) : (s.relaunchGang x).MemWf :=
  show (List.foldl _ s _).MemWf from .foldl h fun _ _ h => .flushGroup h

theorem State.MemWf.endKill {g reason} (h : s.MemWf) : (s.endKill g reason).MemWf := by
  unfold State.endKill
  split
  · exact h
  · have hr := h.removeGroup (g := g)
    exact .ite hr (.ite (.ite hr (.ite hr (.relaunchGang hr))) (.ite hr hr))

theorem State.MemWf.killAll {gs} (h : s.MemWf) : (s.killAll gs).MemWf :=
  .foldl (.foldl h fun _ _ h => .countKill h) fun _ _ h => .endKill h

theorem State.MemWf.kill {g reason} (h : s.MemWf) : (s.kill g reason).MemWf := .endKill (.countKill h)

theorem State.MemWf.integrity {g core} (h : s.MemWf) : (s.integrity g core).MemWf :=
  show (s.kill g).MemWf from .kill h

theorem State.MemWf.addMiss {core asid va who} (h : s.MemWf) : (s.addMiss core asid va who).MemWf := by
  unfold State.addMiss
  exact .ite h h

/-! ## Issue -/

theorem State.MemWf.advance {r len} (h : s.MemWf) : (s.advance r len).MemWf := by
  unfold State.advance
  split <;> exact h

theorem State.MemWf.mark {r f} (h : s.MemWf) : (s.mark r f).MemWf := .ite h h

theorem State.MemWf.parkForFill {r asid va} (h : s.MemWf) : (s.parkForFill r asid va).MemWf := by
  unfold State.parkForFill
  split
  · exact .addMiss h
  · exact h

theorem State.MemWf.redirect {r x entry frame bytes asid va cause} (h : s.MemWf) :
    (s.redirect r x entry frame bytes asid va cause).MemWf := by
  unfold State.redirect
  extract_lets _ who _ _ _ written framed saved entered
  have hw : written.MemWf := State.writeBytes_memWf _ _ h
  have hs : saved.MemWf := .foldl (s := framed) hw fun _ _ h => h
  have he : entered.MemWf := .foldl hs fun _ _ h => .enter h
  exact .addMiss he

theorem State.MemWf.replay {r asid va cause} (h : s.MemWf) : (s.replay r asid va cause).MemWf := by
  unfold State.replay
  split
  · exact h
  · split
    · split
      · exact .redirect h
      · exact .trap h
      · exact .kill h
      · exact h
      · exact .parkForFill h
    · exact .parkForFill h

theorem State.MemWf.stopAt {r e} (h : s.MemWf) : (s.stopAt r e).MemWf := by
  cases e with
  | trap t => exact .trap h
  | miss asid va cause => exact .replay h
  | check => exact .kill h
  | later => exact h

theorem State.MemWf.timerTrap {g} (h : s.MemWf) : (s.timerTrap g).MemWf := by
  unfold State.timerTrap
  split
  · exact h
  · exact .trap (.foldl h fun _ _ h => h)

/-- The thread goes on: its PC moves, the marker arrives, and it has issued. -/
theorem State.MemWf.goOn {r f len} (h : s.MemWf) : (((s.advance r len).mark r f).issued r).MemWf :=
  show ((s.advance r len).mark r f).MemWf from .mark (.advance h)

theorem State.MemWf.goOnAll {f} {len : State → Nat} {rs : List TRef} (h : s.MemWf) :
    (rs.foldl (fun s r => ((s.advance r (len s)).mark r f).issued r) s).MemWf := .foldl h fun _ _ h => .goOn h

/-- What an instruction does keeps the form: each state that it gives has it. -/
def Act.MemWf : Act → Prop
  | .next s | .jump s | .wait s => s.MemWf
  | .stop _ | .trapAfter _ => True

theorem State.MemWf.finish {r f a} (h : s.MemWf) (ha : a.MemWf) : (s.finish r f a).MemWf := by
  cases a with
  | next s' => exact .goOn ha
  | jump s' => exact .mark (s := s') ha
  | stop e => exact .stopAt h
  | wait s' => exact ha
  | trapAfter t =>
    have ht : (((s.advance r s.issue.len).issued r).trap r.grp [r.tid] t).MemWf := .trap (.advance h)
    simp only [State.finish]
    split
    · exact .ite (.mark ht) ht
    · exact ht

theorem State.MemWf.issueThread {i f body r} (hb : ∀ r g t s, s.MemWf → (body r g t s).MemWf) (h : s.MemWf) :
    (issueThread i f body s r).MemWf := by
  unfold Machine.issueThread
  split
  · refine .ite (.ite (.timerTrap h) ?_) h
    split
    · exact .stopAt h
    · exact .ite (.finish h (hb _ _ _ _ h)) (.finish h h)
  · exact h

theorem State.MemWf.issueCohort {i f body gc} (hb : ∀ g ts s, s.MemWf → (body g ts s).MemWf) (h : s.MemWf) :
    (issueCohort i f body s gc).MemWf := by
  unfold Machine.issueCohort
  split
  · exact h
  next g _ =>
    dsimp only
    split
    · exact h
    next r0 _ _ =>
      refine .ite h (.ite ?_ ?_)
      · split
        · exact .timerTrap h
        · exact h
      · split
        · exact .stopAt h
        next ts _ =>
          refine .ite (.goOnAll h) ?_
          have ha := fun ts => hb g ts s h
          split
          case h_1 e => exact .goOnAll (e ▸ ha _ :)
          case h_2 e => exact (e ▸ ha _ :)
          case h_3 e => exact (e ▸ ha _ :)
          case h_4 => exact .stopAt h
          case h_5 => exact .trap h
end Sys2Proof.Machine
end

section
/-!
Every instruction keeps memory in its canonical form: none writes memory at issue but through a trap, a kill or the record of
`resume`.
-/
namespace Sys2Proof.Machine
variable {s : State}

/-! ## What a computation gives, if it does not stop -/

/-- What the computation gives, where it gives something, has the property. -/
def Gives (p : α → Prop) : Except ε α → Prop
  | .ok a => p a
  | .error _ => True

theorem Gives.pure {p : α → Prop} {a : α} (h : p a) : Gives p (Pure.pure a : Except ε α) := h

theorem Gives.bind {p : α → Prop} {x : Except ε β} {f : β → Except ε α} (h : ∀ b, Gives p (f b)) : Gives p (x >>= f) := by
  cases x with
  | ok b => exact h b
  | error e => trivial

theorem Gives.map {p : α → Prop} {x : Except ε β} {f : β → α} (h : ∀ b, p (f b)) : Gives p (x.map f) := by
  cases x with
  | ok b => exact h b
  | error e => trivial

theorem Gives.ite {p : α → Prop} {c : Prop} [Decidable c] {x y : Except ε α} (hx : Gives p x) (hy : Gives p y) :
    Gives p (if c then x else y) := by
  split
  · exact hx
  · exact hy

/-- A check that stops the computation. -/
theorem Gives.check {p : α → Prop} {c : Prop} [Decidable c] {e : ε} {k : β → Except ε α} {y : Except ε α} (hy : Gives p y) :
    Gives p (if c then throw e >>= k else y) := .ite trivial hy

theorem Act.MemWf.of {x : Except Stop State} (hx : Gives State.MemWf x) : (Act.of x).MemWf := by
  cases x with
  | ok s => exact hx
  | error e => trivial

/-- As `Act.MemWf`. -/
def Once.MemWf : Once → Prop
  | .act s _ | .wait s => s.MemWf
  | .stop _ => True

theorem Once.MemWf.of {x : Except Stop (State × InstAct)} (hx : Gives (fun p => p.1.MemWf) x) : (Once.of x).MemWf := by
  cases x with
  | ok p => exact hx
  | error e => trivial

theorem Once.MemWf.gate {k : Gate} {go : Once} (h : s.MemWf) (hg : go.MemWf) : (k.once s go).MemWf := by
  cases k with
  | open_ => exact hg
  | stop e => trivial
  | wait => exact h

theorem Act.MemWf.ite {c : Prop} [Decidable c] {a b : Act} (ha : a.MemWf) (hb : b.MemWf) :
    (if c then a else b).MemWf := by
  split
  · exact ha
  · exact hb

theorem Once.MemWf.ite {c : Prop} [Decidable c] {a b : Once} (ha : a.MemWf) (hb : b.MemWf) :
    (if c then a else b).MemWf := by
  split
  · exact ha
  · exact hb

/-- The next state, if there is one, has its memory in canonical form. -/
def NextMemWf : Host.Outcome State Fault Refusal → Prop
  | .next s => s.MemWf
  | .fault _ | .refused _ => True

theorem NextMemWf.ite {c : Prop} [Decidable c] {a b : Host.Outcome State Fault Refusal} (ha : NextMemWf a) (hb : NextMemWf b) :
    NextMemWf (if c then a else b) := by
  split
  · exact ha
  · exact hb

/-! ## The ways to issue -/

theorem issueEach_memWf {i f body} (h : s.MemWf) (hb : ∀ r g t s, s.MemWf → (body r g t s).MemWf) :
    NextMemWf (issueEach i f body s) :=
  State.MemWf.foldl h fun _ _ h => .issueThread hb h

theorem issueCohorts_memWf {i f body} (h : s.MemWf) (hb : ∀ g ts s, s.MemWf → (body g ts s).MemWf) :
    NextMemWf (issueCohorts i f body s) :=
  State.MemWf.foldl h fun _ _ h => .issueCohort hb h

theorem issueReg_memWf {i f upd} (h : s.MemWf) : NextMemWf (issueReg i f upd s) :=
  issueEach_memWf h fun _ _ _ _ h => h

theorem issueDefer_memWf {i f src} (h : s.MemWf) : NextMemWf (issueDefer i f src s) :=
  issueEach_memWf h fun _ _ _ _ h => .of (.map fun _ => h)

theorem State.MemWf.joinInstWith {r g t act takers} (h : s.MemWf) : (s.joinInstWith r g t act takers).MemWf := by
  unfold State.joinInstWith
  split <;> exact h

theorem State.MemWf.joinInst {r g t act taker} (h : s.MemWf) : (s.joinInst r g t act taker).MemWf := .joinInstWith h

theorem issueOnce_memWf {i f body} (h : s.MemWf) (hb : ∀ r g t s, s.MemWf → (body r g t s).MemWf) :
    NextMemWf (issueOnce i f body s) :=
  issueEach_memWf h fun r g t s h => by
    refine .ite h ?_
    have hr := hb r g t s h
    split
    case h_1 e => exact .joinInst (e ▸ hr :)
    case h_2 => trivial
    case h_3 e => exact (e ▸ hr :)

theorem issueShadowed_memWf {i f ty val} (h : s.MemWf) : NextMemWf (issueShadowed i f ty val s) :=
  issueEach_memWf h fun r g t s h => by
    dsimp only
    split
    · exact h
    · exact .ite (.integrity h) h

theorem issueLanes_memWf {i f res} (h : s.MemWf) : NextMemWf (issueLanes i f res s) :=
  issueCohorts_memWf h fun _ _ s h => State.MemWf.foldl h fun s p h => by
    split <;> exact h

theorem issueCollective_memWf {i f} (h : s.MemWf) : NextMemWf (issueCollective i f s) :=
  issueEach_memWf h fun _ _ _ _ h => .of <|
    .check (.check (.bind fun _ => .bind fun _ => .check (.pure (.joinInst h))))

theorem issueLaneRecord_memWf {i f words build} (h : s.MemWf) : NextMemWf (issueLaneRecord i f words build s) :=
  issueCohorts_memWf h fun g active s h => by
    split
    · exact h
    · split
      · trivial
      · refine State.MemWf.joinInstWith ?_
        exact List.foldlRecOn (motive := fun a : State × List (TRef × Nat) => a.1.MemWf) _ _ h fun _ h _ _ => h
end Sys2Proof.Machine
end

section
namespace Sys2Proof.Machine
variable {s : State}

/-! ## Control -/

theorem State.transfer_memWf {r g off kinds} (h : s.MemWf) : (s.transfer r g off kinds).MemWf := by
  have hr : Gives State.MemWf (s.reach r g off kinds) := .map fun _ => .enter h
  unfold State.transfer
  split
  case h_1 e => exact (e ▸ hr :)
  case h_2 => trivial

theorem State.branchTable_memWf {r g t f} (h : s.MemWf) : (s.branchTable r g t f).MemWf := by
  unfold State.branchTable
  dsimp only
  split
  · trivial
  · exact .ite trivial (.ite (State.transfer_memWf h) h)

theorem State.callTo_memWf {r g t f off} (h : s.MemWf) : (s.callTo r g t f off).MemWf := by
  unfold State.callTo
  split
  · trivial
  · exact State.MemWf.enter h

theorem State.returnTo_memWf {r g pc hdr} (h : s.MemWf) : (s.returnTo r g pc hdr).MemWf := by
  unfold State.returnTo
  split
  · trivial
  · trivial
  · exact .ite trivial h

theorem State.waitValue_memWf {r g t f} (h : s.MemWf) : (s.waitValue r g t f).MemWf := by
  unfold State.waitValue
  refine .ite trivial (.ite trivial ?_)
  split
  · trivial
  · exact .ite h (.ite h (.ite trivial (.ite h h)))

theorem State.MemWf.takeUp {r} (h : s.MemWf) : (s.takeUp r).MemWf := by
  unfold State.takeUp
  split
  · exact h
  · split
    · exact h
    · exact .modGroup (.modThread (State.writeBytes_memWf _ _ h))

theorem execResume_memWf {f} (h : s.MemWf) : NextMemWf (execResume f s) :=
  issueEach_memWf h fun r g t s h => by
    split
    · trivial
    · exact .ite h <| .ite trivial <| .ite trivial <| .ite (.takeUp h) h

theorem execSrget_memWf {f} (h : s.MemWf) : NextMemWf (execSrget f s) :=
  issueEach_memWf h fun _ _ _ _ h => State.MemWf.ite h h

theorem execSrset_memWf {f} (h : s.MemWf) : NextMemWf (execSrset f s) :=
  issueEach_memWf h fun _ _ _ _ h => State.MemWf.ite h h

/-! ## Register blocks -/

theorem State.MemWf.modCohort {g coh f} (h : s.MemWf) : (s.modCohort g coh f).MemWf := .foldl h fun _ _ h => h

theorem State.MemWf.grantBlocks {g coh n} (h : s.MemWf) : (s.grantBlocks g coh n).MemWf := by
  unfold State.grantBlocks
  split
  · exact h
  · exact .modGroup (.modCohort h)

theorem State.MemWf.dropBlocks {g coh n} (h : s.MemWf) : (s.dropBlocks g coh n).MemWf :=
  .modGroup (.modCohort h)

theorem issueBlocks_memWf {i f act} (h : s.MemWf) (ha : ∀ g coh s, s.MemWf → (act g coh s).MemWf) :
    NextMemWf (issueBlocks i f act s) :=
  issueCohorts_memWf h fun g active s h => by
    split
    · exact h
    · exact .ite (.trap h) (ha _ _ _ h)

theorem execXacq_memWf {f} (h : s.MemWf) : NextMemWf (execXacq f s) :=
  issueBlocks_memWf h fun g coh s h => by
    dsimp only
    split
    · exact h
    · exact .ite h <| .ite (.grantBlocks h) <|
        State.MemWf.foldl (s := s.modCore _ _) h fun s i h => show (s.advance _ _).MemWf from .advance h

theorem execXrel_memWf {f} (h : s.MemWf) : NextMemWf (execXrel f s) :=
  issueBlocks_memWf h fun g coh s h => by
    split
    · exact h
    · exact .ite (.dropBlocks h) h

/-! ## Loads, stores, copies and rings -/

theorem State.MemWf.takeCells {r n m w} (h : s.MemWf) : (s.takeCells r n m w).MemWf := by
  unfold State.takeCells
  split
  · exact h
  · exact .ite h h

theorem State.MemWf.bufferWrite {r w} (h : s.MemWf) : (s.bufferWrite r w).MemWf := by
  unfold State.bufferWrite
  split
  · exact h
  · exact State.MemWf.takeCells h

theorem State.store_memWf {r g t f} (h : s.MemWf) : (s.store r g t f).MemWf :=
  .of (.map fun _ => .bufferWrite h)

theorem State.hint_memWf {t f} (h : s.MemWf) : (s.hint t f).MemWf := by
  unfold State.hint
  split
  · trivial
  · exact h

theorem execFwr_memWf {f} (h : s.MemWf) : NextMemWf (execFwr f s) :=
  issueEach_memWf h fun _ _ _ s h => .of (.map fun _ => .bufferWrite (s := s.defer _ _ _) h)

theorem execCwr_memWf {f} (h : s.MemWf) : NextMemWf (execCwr f s) :=
  issueEach_memWf h fun _ _ _ s h => .of (.map fun _ => .bufferWrite (s := s.defer _ _ _) h)

theorem execSatom_memWf {f} (h : s.MemWf) : NextMemWf (execSatom f s) :=
  issueEach_memWf h fun r _ _ s h => .of <| .map fun _ =>
    show ((s.defer _ _ _).takeCells r _ _ _).MemWf from .takeCells h

theorem execSgset_memWf {f} (h : s.MemWf) : NextMemWf (execSgset f s) :=
  issueEach_memWf h fun _ _ _ _ h => .ite trivial h

theorem execCpy_memWf {f} (h : s.MemWf) : NextMemWf (execCpy f s) :=
  issueEach_memWf h fun _ _ _ _ h => .of <| .check <| .bind fun _ => .check <| .pure (.ite h h)

theorem execCpym_memWf {f} (h : s.MemWf) : NextMemWf (execCpym f s) :=
  issueEach_memWf h fun _ _ _ _ h => .of <| .check <| .bind fun _ => .bind fun _ => .check <| .pure h

theorem execCpyg_memWf {f} (h : s.MemWf) : NextMemWf (execCpyg f s) :=
  issueEach_memWf h fun _ _ _ _ h => .of <|
    .check <| .bind fun _ => .bind fun _ => .check <| .pure (.ite h h)

theorem execLcsetBind_memWf {f} (h : s.MemWf) : NextMemWf (execLcsetBind f s) :=
  issueEach_memWf h fun _ _ _ _ h => .ite trivial (.ite trivial h)

theorem execRbindBind_memWf {f} (h : s.MemWf) : NextMemWf (execRbindBind f s) :=
  issueEach_memWf h fun _ _ _ _ h => by
    dsimp only
    split
    · trivial
    · exact .ite trivial <| .ite trivial <| .ite trivial <| .ite h <|
        .ite h trivial

theorem execRput_memWf {f} (h : s.MemWf) : NextMemWf (execRput f s) :=
  issueEach_memWf h fun _ _ _ _ h => .of <| .check <| .bind fun _ => .check <| .check <| .pure h

theorem execSend_memWf {f} (h : s.MemWf) : NextMemWf (execSend f s) :=
  issueEach_memWf h fun _ _ _ _ h => .of <| .check <| .bind fun _ => .pure h

/-! ## Streams -/

theorem execSopen_memWf {f} (h : s.MemWf) : NextMemWf (execSopen f s) :=
  issueEach_memWf h fun _ _ _ _ h => .of <| .check <| .bind fun _ => .check <| .pure (.joinInst h)

theorem execNzscan_memWf {f} (h : s.MemWf) : NextMemWf (execNzscan f s) :=
  issueEach_memWf h fun _ _ _ _ h =>
    .ite trivial <| .ite trivial <| .ite trivial (.joinInst h)

theorem State.MemWf.startFills {l : List Nat} {fmt qs dom by_} (h : s.MemWf) :
    (l.foldl (fun s i => s.startFill i fmt qs dom by_) s).MemWf := .foldl h fun _ _ h => h

theorem execSgath_memWf {f} (h : s.MemWf) : NextMemWf (execSgath f s) :=
  issueEach_memWf h fun _ _ _ _ h => by
    dsimp only
    split
    · trivial
    · exact .ite trivial <| .ite trivial <| .ite trivial (.joinInst (.startFills h))

/-! ## Tiles and the matrix engine -/

theorem State.MemWf.mapNames {g coh first n} (h : s.MemWf) : (s.mapNames g coh first n).MemWf := by
  induction n generalizing s first with
  | zero => exact h
  | succ n ih =>
    unfold State.mapNames
    split
    · exact h
    · exact ih h

theorem State.MemWf.gcTiles (h : s.MemWf) : s.gcTiles.MemWf := by
  unfold State.gcTiles
  exact .ite h h

theorem execTalloc_memWf {f} (h : s.MemWf) : NextMemWf (execTalloc f s) :=
  issueOnce_memWf h fun _ _ _ _ h => .ite trivial <| .ite trivial <| .ite trivial <|
    .ite (.mapNames h) <| .ite h h

theorem execTfree_memWf {f} (h : s.MemWf) : NextMemWf (execTfree f s) :=
  issueOnce_memWf h fun _ _ _ _ h => by
    refine .ite trivial <| .ite trivial ?_
    split
    · trivial
    · exact State.MemWf.gcTiles h

theorem execTgive_memWf {f} (h : s.MemWf) : NextMemWf (execTgive f s) :=
  issueOnce_memWf h fun _ _ _ _ h => by
    dsimp only
    split
    · trivial
    · exact .ite trivial h

theorem execTtake_memWf {f} (h : s.MemWf) : NextMemWf (execTtake f s) :=
  issueEach_memWf h fun _ _ _ _ h => .ite trivial (.joinInst h)

theorem State.MemWf.deferShared {r g t dst src now} (h : s.MemWf) : (s.deferShared r g t dst src now).MemWf :=
  .joinInst h

theorem execTzf_memWf {f} (h : s.MemWf) : NextMemWf (execTzf f s) :=
  issueEach_memWf h fun _ _ _ _ h => by
    refine .ite (.deferShared h) ?_
    split
    · trivial
    · split
      · trivial
      · exact h
      · exact State.MemWf.deferShared h

theorem execTld_memWf {f} (h : s.MemWf) : NextMemWf (execTld f s) :=
  issueOnce_memWf h fun _ _ _ _ h => by
    dsimp only
    split
    · trivial
    · refine .ite trivial <| .ite trivial ?_
      split
      · trivial
      · exact h

theorem execTst_memWf {f} (h : s.MemWf) : NextMemWf (execTst f s) :=
  issueOnce_memWf h fun _ _ _ _ h => by
    split
    · trivial
    · refine .gate h ?_
      split
      · trivial
      · exact h

theorem execCpyt_memWf {f} (h : s.MemWf) : NextMemWf (execCpyt f s) :=
  issueOnce_memWf h fun _ _ _ _ h => by
    dsimp only
    split
    · trivial
    · refine .ite trivial <| .gate h <| .ite trivial ?_
      split
      · trivial
      · exact .ite trivial <| .ite (.ite trivial (.gate h h)) <|
          .ite trivial h

theorem execTget_memWf {f} (h : s.MemWf) : NextMemWf (execTget f s) :=
  issueCohorts_memWf h fun _ _ _ h => by
    split
    · exact h
    · dsimp only
      split
      · trivial
      · split
        · trivial
        · exact h
        · refine .ite trivial ?_
          split
          · trivial
          · exact h
          · exact State.MemWf.foldl h fun _ _ h => h

theorem execTset_memWf {f} (h : s.MemWf) : NextMemWf (execTset f s) :=
  issueCohorts_memWf h fun _ _ _ h => by
    split
    · exact h
    · dsimp only
      split
      · trivial
      · exact .ite h <| .ite trivial <| .ite trivial <| .ite h (.joinInst h)

theorem execWld_memWf {f} (h : s.MemWf) : NextMemWf (execWld f s) :=
  issueOnce_memWf h fun _ _ _ _ h => by
    refine .of <| .bind fun _ => .bind fun _ => ?_
    exact .ite (.bind fun _ => .bind fun _ => .ite (.bind fun _ => .bind fun _ => .pure h)
        (.bind fun _ => .bind fun _ => .bind fun _ => .pure h))
      (.bind fun _ => .ite (.bind fun _ => .bind fun _ => .pure h)
        (.bind fun _ => .bind fun _ => .bind fun _ => .pure h))

theorem execMma_memWf {f} (h : s.MemWf) : NextMemWf (execMma f s) :=
  issueOnce_memWf h fun _ _ _ _ h => .of <| .bind fun _ => .bind fun _ => .bind fun _ =>
    .ite (.bind fun _ => .bind fun _ => .pure h) (.bind fun _ => .bind fun _ => .pure h)

theorem execRslv_memWf {f} (h : s.MemWf) : NextMemWf (execRslv f s) :=
  issueOnce_memWf h fun _ _ _ _ h => .of <| .bind fun _ => .bind fun _ => .bind fun _ =>
    .ite (.bind fun _ => .bind fun _ => .pure (.startFills h)) (.bind fun _ => .bind fun _ => .pure (.startFills h))

theorem execBinit_memWf {f} (h : s.MemWf) : NextMemWf (execBinit f s) :=
  issueOnce_memWf h fun _ _ _ _ h => .of <| .bind fun _ => .bind fun _ => .pure h

theorem State.rowsRecord_memWf {r g t f kind} (h : s.MemWf) :
    Gives (fun p => p.1.MemWf) (s.rowsRecord r g t f kind) :=
  .bind fun _ => .bind fun _ => .bind fun _ => .bind fun _ => .pure h

theorem execBscale_memWf {f} (h : s.MemWf) : NextMemWf (execBscale f s) :=
  issueOnce_memWf h fun _ _ _ _ h => .of <| .bind fun _ => .bind fun _ => .pure h

/-- A region that is bound is a state in which memory is as before. -/
theorem State.bindBasin_memWf {g core bh rows s'} (h : s.MemWf) (e : s.bindBasin g core bh rows = some s') : s'.MemWf := by
  unfold State.bindBasin at e
  split at e
  · cases e
  · obtain ⟨row, -, rfl⟩ := Option.map_eq_some_iff.mp e
    exact h

theorem execBalloc_memWf {f} (h : s.MemWf) : NextMemWf (execBalloc f s) :=
  issueOnce_memWf h fun _ _ _ _ h => by
    refine .ite trivial <| .ite trivial <| .ite h ?_
    dsimp only
    split
    next s' e =>
      split at e
      · exact State.bindBasin_memWf h e
      · cases e
    · exact h

theorem execBfree_memWf {f} (h : s.MemWf) : NextMemWf (execBfree f s) :=
  issueOnce_memWf h fun _ _ _ _ h => .of <| .bind fun _ => .pure (.gcTiles h)

theorem execMtaskq_memWf {f} (h : s.MemWf) : NextMemWf (execMtaskq f s) :=
  issueOnce_memWf h fun _ _ _ _ h => .of <|
    .bind fun _ => .bind fun _ => .bind fun _ => .bind fun _ => .pure h

/-! ## The fabric and the dispatcher -/

theorem execXput_memWf {f} (h : s.MemWf) : NextMemWf (execXput f s) :=
  issueEach_memWf h fun _ _ _ _ h => .of <| .bind fun _ => .pure h

theorem execXget_memWf {f} (h : s.MemWf) : NextMemWf (execXget f s) :=
  issueEach_memWf h fun _ _ _ _ h => .of <| .bind fun _ => .pure h

theorem execXfwr_memWf {f} (h : s.MemWf) : NextMemWf (execXfwr f s) :=
  issueEach_memWf h fun _ _ _ _ h => .of <| .check <| .bind fun _ => .pure h

theorem execSpawn_memWf {f} (h : s.MemWf) : NextMemWf (execSpawn f s) :=
  issueEach_memWf h fun _ _ _ _ h => by
    dsimp only
    split
    · trivial
    · exact .ite trivial h

theorem execLaunch_memWf {f} (h : s.MemWf) : NextMemWf (execLaunch f s) :=
  issueEach_memWf h fun _ _ _ _ h => .of <|
    .bind fun _ => .bind fun _ => .check <| .check <| .check <| .pure h
end Sys2Proof.Machine
end

section
/-!
The engines' objects and the commit of a step boundary keep memory in its canonical form.
-/
namespace Sys2Proof.Machine
variable {s : State}

/-! ## Rings and landing counters -/

theorem State.MemWf.bindRing {g r desc} (h : s.MemWf) : (s.bindRing g r desc).MemWf := by
  unfold State.bindRing
  split
  · exact h
  · exact .ite h h

theorem State.MemWf.freeRing {g r} (h : s.MemWf) : (s.freeRing g r).MemWf := by
  unfold State.freeRing
  split
  · exact h
  · exact .foldl (.modGroup (.foldl h fun _ _ h => .discardCopy h)) fun _ _ h => .leave h

theorem State.MemWf.acquireRing {g d r ending} (h : s.MemWf) : (s.acquireRing g d r ending).MemWf := by
  unfold State.acquireRing
  split
  · exact h
  · refine .ite h ?_
    split
    · exact h
    · exact .foldl (.modRing h) fun _ _ h => h

theorem State.MemWf.setCtr {g c op} (h : s.MemWf) : (s.setCtr g c op).MemWf := by
  cases op with
  | arm t => exact h
  | unbind => exact h
  | bind base len tag =>
    simp only [State.setCtr]
    split
    · exact h
    · exact .ite h h

theorem State.MemWf.releaseJoins {g} (h : s.MemWf) : (s.releaseJoins g).MemWf := by
  unfold State.releaseJoins
  split
  · exact h
  · exact .foldl h fun _ _ h => h

theorem State.MemWf.wakeAcquires {g} (h : s.MemWf) : (s.wakeAcquires g).MemWf := .releaseJoins (.modGroup h)

theorem State.MemWf.checkRing {g r} (h : s.MemWf) : (s.checkRing g r).MemWf := by
  unfold State.checkRing
  split
  · exact h
  · exact .ite (.wakeAcquires (.foldl h fun _ _ h => .acquireRing h)) h

/-! ## Tiles -/

theorem State.MemWf.storeSaved {id} (h : s.MemWf) : (s.storeSaved id).MemWf := by
  unfold State.storeSaved
  split
  · exact h
  · split
    · exact h
    · split
      · exact .ite h (State.writePhys_memWf _ _ (State.writePhys_memWf _ _ h))
      · exact h

theorem State.MemWf.fillTile {id d} (h : s.MemWf) : (s.fillTile id d).MemWf := .storeSaved (.modTile h)

theorem State.MemWf.zeroFill {id} (h : s.MemWf) : (s.zeroFill id).MemWf := .storeSaved (.modTile h)

/-! ## Requests that pass to the engines -/

theorem State.MemWf.passCopy {c} (h : s.MemWf) : (s.passCopy c).MemWf := by
  unfold State.passCopy
  dsimp only
  split
  · split
    · exact h
    · exact .ite (.modRing (.bump (.outUp h))) h
  · exact .bump (.outUp h)

theorem State.MemWf.modSources {g l f} (h : s.MemWf) : (s.modSources g l f).MemWf := .foldl h fun _ _ h => h

theorem State.MemWf.startStream {g d x i k} (h : s.MemWf) : (s.startStream g d x i k).MemWf := by
  unfold State.startStream
  dsimp only
  split
  · exact h
  · exact h
  · split <;> exact h
  · split <;> exact h
  · split <;> exact h
  · exact .outUp h
  · exact .outUp h

theorem State.MemWf.failStream {g i k cause} (h : s.MemWf) : (s.failStream g i k cause).MemWf := by
  unfold State.failStream
  extract_lets faulted marked returned
  have hm : marked.MemWf := .foldl (s := faulted) h fun _ _ h => h
  have hr : returned.MemWf := .foldl hm fun _ _ h => h
  split
  · exact .foldl hr fun _ _ h => State.countIn_memWf _ _ _ _ (.zeroFill h)
  · exact State.countIn_memWf _ _ _ _ hr
  · exact hr

theorem State.MemWf.applyStream {g d i k} (h : s.MemWf) : (s.applyStream g d i k).MemWf := by
  unfold State.applyStream
  split
  · exact h
  · split
    · exact .failStream h
    · exact .startStream h

theorem State.MemWf.submit {id r} (h : s.MemWf) : (s.submit id r).MemWf := by
  unfold State.submit
  exact .ite (.ite h h) (.ite h h)

theorem State.MemWf.passRecord {id r} (h : s.MemWf) : (s.passRecord id r).MemWf := by
  unfold State.passRecord
  dsimp only
  split
  · exact .submit (.outUp h)
  · exact State.MemWf.outUp h

theorem State.MemWf.passRemote {r} (h : s.MemWf) : (s.passRemote r).MemWf := .bump (.outUp h)

theorem State.MemWf.passCollective {c} (h : s.MemWf) : (s.passCollective c).MemWf := .bump (.outUp h)

theorem State.MemWf.passLaunch {g d acc q ctr} (h : s.MemWf) : (s.passLaunch g d acc q ctr).MemWf := .modQueue (.outUp h)

theorem State.MemWf.passSpawn {x by_ entry ncoh v0 v1} (h : s.MemWf) : (s.passSpawn x by_ entry ncoh v0 v1).MemWf := by
  unfold State.passSpawn
  exact .ite h h

theorem State.MemWf.readEntries {q} (h : s.MemWf) : (s.readEntries q).MemWf := .killAll (.modQueue h)

theorem State.MemWf.writeEntries {q n} (h : s.MemWf) : (s.writeEntries q n).MemWf := by
  induction n generalizing s with
  | zero => exact h
  | succ n ih =>
    unfold State.writeEntries
    dsimp only
    split
    · exact h
    · split
      · exact h
      · exact .ite h <| ih <| State.outDone_memWf _ _ <| State.countIn_memWf _ _ _ _ <|
          .modQueue (State.writePhys_memWf _ _ h)

theorem State.MemWf.drainQueue {q} (h : s.MemWf) : (s.drainQueue q).MemWf := .writeEntries (.readEntries h)

theorem State.MemWf.releaseRecords {g d} (h : s.MemWf) : (s.releaseRecords g d).MemWf :=
  .foldl (s := s.freeRecords _ _) h fun _ _ h => .drainQueue h

theorem State.MemWf.passSvcs {g quad l} (h : s.MemWf) : (s.passSvcs g quad l).1.MemWf := by
  induction l generalizing s with
  | nil => exact h
  | cons p l ih =>
    unfold State.passSvcs
    split
    · exact ih h
    · exact h

/-! ## The commit -/

theorem State.MemWf.writeBits {bytes} (h : s.MemWf) : (s.writeBits bytes).MemWf :=
  .foldl h fun _ _ h => State.writeByte_memWf _ _ h

theorem State.MemWf.applyWrites {g d x} (h : s.MemWf) : (s.applyWrites g d x).MemWf := by
  unfold State.applyWrites
  refine .foldl (.foldl (.writeBits h) fun _ _ h => h) fun s' c h => ?_
  split
  · exact h
  · exact .passRemote (.foldl (.writeBits h) fun _ _ h => h)

theorem State.MemWf.markCells {x keys} (h : s.MemWf) : (s.markCells x keys).MemWf := .ite h h

theorem State.MemWf.applyCounters {g eff} (h : s.MemWf) : (s.applyCounters g eff).MemWf := by
  unfold State.applyCounters
  refine .foldl (.foldl h fun s p h => ?_) fun s p h => ?_
  · split
    · exact .ite (.setCtr h) h
    · exact h
  · split
    · exact .bindRing h
    · exact .freeRing h
    · exact h

theorem State.MemWf.applyRings {g d x eff} (h : s.MemWf) : (s.applyRings g d x eff).MemWf :=
  .foldl (.foldl h fun _ _ h => h) fun _ _ h => .foldl h fun _ _ h => .acquireRing h

theorem State.MemWf.postAll {g l} (h : s.MemWf) : (s.postAll g l).1.MemWf := by
  induction l generalizing s with
  | nil => exact h
  | cons p l ih =>
    unfold State.postAll
    split
    · exact h
    · split
      · exact ih h
      · exact ih h

theorem State.MemWf.take {g coh name ch} (h : s.MemWf) : (s.take g coh name ch).1.MemWf := by
  unfold State.take
  split
  · exact h
  · split <;> exact h

theorem State.MemWf.retryTake {g c} (h : s.MemWf) : (s.retryTake g c).MemWf :=
  .ite (.modGroup (.take h)) (.take h)

theorem State.MemWf.retryTakes {g} {l : List (Nat × Nat × Nat × Nat)} (h : s.MemWf) :
    (l.foldl (fun s c => s.retryTake g c) s).MemWf := .foldl h fun _ _ h => .retryTake h

theorem State.MemWf.applyTiles {g d insts} (h : s.MemWf) : (s.applyTiles g d insts).MemWf := by
  unfold State.applyTiles
  refine .foldl ?_ fun s i h => ?_
  · split
    · exact .retryTakes (.modDom (.postAll h))
    · exact .modDom (.postAll h)
  · split
    · exact .ite (.take h) (.foldl (.modGroup (.take h)) fun _ _ h => h)
    · exact h

theorem State.MemWf.applyStreams {g d insts eff} (h : s.MemWf) : (s.applyStreams g d insts eff).MemWf := by
  unfold State.applyStreams
  extract_lets applied
  have ha : applied.MemWf := .foldl h fun s i h => by
    split
    · exact .applyStream h
    · exact h
    · exact h
  split
  · exact ha
  · refine .foldl ha fun s p h => ?_
    split <;> exact h

theorem State.MemWf.applyRequests {g d insts eff} (h : s.MemWf) : (s.applyRequests g d insts eff).MemWf := by
  unfold State.applyRequests
  refine .foldl (.foldl (.foldl h fun _ _ h => .passCopy h) fun s i h => ?_) fun s p h => ?_
  · split
    · exact .passRecord h
    · exact h
    · exact .passCollective h
    · exact h
  · split
    · exact .passRemote h
    · exact .passLaunch h
    · split
      · exact .passSpawn h
      · exact h
    · exact h

theorem State.MemWf.applySettings {g x eff} (h : s.MemWf) : (s.applySettings g x eff).MemWf := by
  unfold State.applySettings
  extract_lets contv roles prio
  have hc : contv.MemWf := by
    unfold contv
    split <;> exact h
  have hp : prio.MemWf := .modGroup <| .foldl hc fun s c h => by
    split <;> exact h
  exact .ite hp hp

theorem State.MemWf.performAtom {a err} (h : s.MemWf) : (s.performAtom a err).1.MemWf := by
  unfold State.performAtom
  split
  · exact h
  · exact State.writeBytes_memWf _ _ h

theorem State.MemWf.performAtoms {errs i l} (h : s.MemWf) : (s.performAtoms errs i l).1.MemWf := by
  induction l generalizing s i with
  | nil => exact h
  | cons p l ih => exact ih (.performAtom h)

theorem State.MemWf.endFills {g d} (h : s.MemWf) : (s.endFills g d).MemWf := h

theorem State.MemWf.commit {g d} (h : s.MemWf) : (s.commit g d).MemWf := by
  unfold State.commit
  split
  · exact h
  · exact .gcTiles <| .modGroup <| .modDom <| .endFills <| .foldl
      (.passSvcs <| .applySettings <| .applyRequests <| .applyStreams <| .applyTiles <| .applyRings <|
        .applyCounters <| .markCells <| .noteWrites <| .performAtoms (.applyWrites h)) fun _ _ h => h
end Sys2Proof.Machine
end

section
/-!
The events of groups, copies, streams and the matrix engine keep memory in its canonical form.
-/
namespace Sys2Proof.Machine
variable {s : State}

/-! ## Boundaries -/

theorem State.MemWf.releaseThreads {g d} (h : s.MemWf) : (s.releaseThreads g d).MemWf := by
  unfold State.releaseThreads
  split
  · exact h
  · exact .releaseRecords (.modDom (.foldl h fun _ _ h => h))

theorem State.MemWf.evalWait {r} (h : s.MemWf) : (s.evalWait r).MemWf := by
  unfold State.evalWait
  split
  · split
    · refine .ite h ?_
      split
      · exact .ite h (.replay h)
      · exact .kill h
      · exact h
      · exact .ite h (.ite (.kill h) (.ite h h))
    · exact h
  · exact h

theorem State.MemWf.evalWaits {g p} (h : s.MemWf) : (s.evalWaits g p).MemWf := by
  unfold State.evalWaits
  split
  · exact h
  · refine .foldl h fun s i h => ?_
    split
    · exact .ite (.evalWait h) h
    · exact h

theorem State.MemWf.firstReads (h : s.MemWf) : s.firstReads.MemWf := .foldl h fun _ _ h => .evalWaits h

theorem State.MemWf.freeBlocks {g} (h : s.MemWf) : (s.freeBlocks g).MemWf := by
  unfold State.freeBlocks
  split
  · exact h
  · exact .ite h h

theorem State.MemWf.boundaryTraps {g} (h : s.MemWf) : (s.boundaryTraps g).MemWf := by
  unfold State.boundaryTraps
  split
  · exact h
  · split
    · exact .trap (.modGroup h)
    · exact .ite (.trap (.modGroup h)) h

theorem State.MemWf.afterBoundary {g} (h : s.MemWf) : (s.afterBoundary g).MemWf :=
  .modGroup (.freeBlocks (.evalWaits (.wakeAcquires h)))

theorem State.MemWf.writeElection {cands win} (h : s.MemWf) : (s.writeElection cands win).MemWf :=
  .foldl h fun _ _ h => h

theorem State.MemWf.stopDomain {g d} (h : s.MemWf) : (s.stopDomain g d).MemWf := .releaseRecords (.modDom h)

theorem State.MemWf.releaseDomain {g d} (h : s.MemWf) : (s.releaseDomain g d).MemWf := by
  unfold State.releaseDomain
  split
  · exact h
  · exact .ite (.afterBoundary (.stopDomain (.writeElection h)))
      (.boundaryTraps (.afterBoundary (.releaseThreads (.writeElection h))))

theorem State.MemWf.podTrap {g} (h : s.MemWf) : (s.podTrap g).MemWf := by
  unfold State.podTrap
  split
  · exact h
  · exact .trap (.modLaunch h)

theorem State.MemWf.podCheck {g} (h : s.MemWf) : (s.podCheck g).MemWf := by
  unfold State.podCheck
  split
  · exact h
  · exact .ite (.podTrap h) h

theorem State.MemWf.landDomain {g d} (h : s.MemWf) : (s.landDomain g d).MemWf := by
  unfold State.landDomain
  split
  · exact h
  next x _ =>
    have hc : ((x.domTids d).foldl (fun s i => s.modThread ⟨g, i⟩ Thread.complete) s).MemWf := .foldl h fun _ _ h => h
    exact .ite (.leave (.podCheck (.boundaryTraps (.afterBoundary (.bump (.modDom hc)))))) (.leave (.releaseDomain hc))

theorem State.MemWf.drainHeld {g d} (h : s.MemWf) : (s.drainHeld g d).MemWf := by
  unfold State.drainHeld
  split
  · exact h
  next x _ =>
    have hd : ∀ f, (((s.postAll g (x.dom d).posts).1.passSvcs g (quadOf x.core) (x.dom d).svcs).1.modDom g d f).MemWf :=
      fun f => .modDom (.passSvcs (.postAll h))
    refine .ite ?_ (hd _)
    split
    · exact .wakeAcquires (.retryTakes (hd _))
    · exact hd _

theorem State.completeBoundary_memWf {g d} (h : s.MemWf) : ∀ t ∈ s.completeBoundary g d, t.MemWf := by
  unfold State.completeBoundary
  have hc : (s.commit g d).firstReads.MemWf := .firstReads (.commit h)
  split
  · simp
  · split
    · simp
    · split
      · split
        · split
          · simp [h.kill]
          · split
            · split
              · simp [State.MemWf.endFlush (.modDom h)]
              · simp [State.MemWf.trap (.modDom h)]
            · split
              · dsimp only
                split
                · split
                  · simp [hc.endFlush]
                  · split
                    · simp [hc.wakeAcquires]
                    · simp [hc.landDomain]
                · simp [hc]
              · simp
        · simp
      · split
        · simp
        · dsimp only
          split
          · simp
          · split
            · simp [h.drainHeld.landDomain]
            · split
              · simp
              · simp [h.drainHeld]
      · simp

/-! ## Copies -/

theorem State.engineWrite_memWf {g x loc bs since} (h : s.MemWf) : Gives State.MemWf (s.engineWrite g x loc bs since) := by
  unfold State.engineWrite
  split
  · exact State.landScratch_memWf _ _ _ _ h
  · split
    · trivial
    · exact State.landBytes_memWf _ _ _ h

theorem Gives.of_eq {p : α → Prop} {x : Except ε α} {a : α} (h : Gives p x) (e : x = .ok a) : p a := by
  subst e
  exact h

theorem State.MemWf.fillSlot {c} (h : s.MemWf) : (s.fillSlot c).MemWf := by
  unfold State.fillSlot
  split
  · exact .checkRing (State.landRing_memWf _ _ _ h)
  · exact h

theorem State.MemWf.failCopy {id c cause va total} (h : s.MemWf) : (s.failCopy id c cause va total).MemWf := by
  unfold State.failCopy
  extract_lets faulted zeroed
  have hz : zeroed.MemWf := by
    unfold zeroed
    split
    · exact .zeroFill (.modGroup h)
    · exact .modGroup h
  exact .leave (.gcTiles (.fillSlot (State.outDone_memWf _ _ (State.countIn_memWf _ _ _ _ hz))))

theorem State.copyStop_memWf {id c x total e} (h : s.MemWf) : NextMemWf (s.copyStop id c x total e) := by
  cases e with
  | miss a v cause => exact State.MemWf.addMiss h
  | fault cause va => exact State.MemWf.failCopy h
  | poison => exact State.MemWf.kill h
  | bytes l => trivial
  | later => trivial

theorem State.MemWf.landPiece {id c k n lost} (h : s.MemWf) : (s.landPiece id c k n lost).MemWf := by
  have hc : (s.countIn c.grp c.ctr n lost).MemWf := State.countIn_memWf _ _ _ _ h
  unfold State.landPiece
  exact .ite (.leave (.fillSlot (State.outDone_memWf _ _ hc))) hc

theorem State.movePiece_memWf {id c x src g y dst k n total} (h : s.MemWf) :
    NextMemWf (s.movePiece id c x src g y dst k n total) := by
  unfold State.movePiece
  split
  · split
    next e => exact State.MemWf.landPiece ((State.engineWrite_memWf h).of_eq e)
    · exact State.copyStop_memWf h
  · exact State.copyStop_memWf h

theorem State.MemWf.deliver {quad tag off len at_ bs} (h : s.MemWf) : (s.deliver quad tag off len at_ bs).1.MemWf := by
  unfold State.deliver
  split
  · exact h
  · split
    · exact State.landCtr_memWf _ _ _ (State.landScratch_memWf _ _ _ _ h)
    · exact State.landCtr_memWf _ _ _ h

theorem State.multicastPiece_memWf {id c x src len off tag k n} (h : s.MemWf) :
    NextMemWf (s.multicastPiece id c x src len off tag k n) := by
  unfold State.multicastPiece
  split
  · exact State.MemWf.landPiece (.deliver h)
  · exact State.copyStop_memWf h

theorem execCopyPieceComplete_memWf {id k} (h : s.MemWf) : NextMemWf (execCopyPieceComplete id k s) := by
  unfold execCopyPieceComplete
  split
  · trivial
  · split
    · trivial
    · refine .ite trivial ?_
      split
      · trivial
      · split
        · exact State.movePiece_memWf h
        · split
          · exact State.MemWf.gcTiles (.landPiece (.fillTile h))
          · exact State.copyStop_memWf h
        · split
          · trivial
          · refine .ite trivial ?_
            split
            next e => exact State.MemWf.gcTiles (.landPiece ((State.engineWrite_memWf h).of_eq e))
            · exact State.copyStop_memWf h
        · exact State.multicastPiece_memWf h
        · split
          · refine .ite (State.MemWf.failCopy h) ?_
            split
            · split
              next e => exact State.MemWf.landPiece ((State.engineWrite_memWf h).of_eq e)
              · exact State.copyStop_memWf h
            · exact State.copyStop_memWf h
          · exact State.copyStop_memWf h
        · split
          · exact State.movePiece_memWf h
          · trivial
        · split
          · trivial
          · split
            · trivial
            · split
              · exact State.movePiece_memWf h
              · trivial

theorem execRingSlotAssign_memWf {id} (h : s.MemWf) : NextMemWf (execRingSlotAssign id s) := by
  unfold execRingSlotAssign
  split
  · trivial
  · split
    · trivial
    · split
      · trivial
      · exact .ite (State.landRing_memWf _ _ _ h) trivial

theorem State.MemWf.discardMessage {id c err} (h : s.MemWf) : (s.discardMessage id c err).MemWf := by
  cases err with
  | none => exact .leave (.discardCopy h)
  | some p => exact State.landRing_memWf _ _ _ (.leave (.discardCopy h))

theorem execSendArrival_memWf {id} (h : s.MemWf) : NextMemWf (execSendArrival id s) := by
  unfold execSendArrival
  split
  · trivial
  · split
    · refine .ite trivial ?_
      split
      · exact State.MemWf.discardMessage h
      · split
        · trivial
        · exact .ite (State.MemWf.discardMessage h) h
    · trivial

theorem execMulticastDelivery_memWf {id quad} (h : s.MemWf) : NextMemWf (execMulticastDelivery id quad s) := by
  unfold execMulticastDelivery
  split
  · trivial
  · split
    · exact .ite trivial (State.multicastPiece_memWf h)
    · trivial

theorem execCopyRequestBegin_memWf {id} (h : s.MemWf) : NextMemWf (execCopyRequestBegin id s) := by
  unfold execCopyRequestBegin
  split
  · trivial
  · exact .ite h trivial

theorem splitPiece_memWf {id k n} (h : s.MemWf) : NextMemWf (splitPiece id k n s) := by
  unfold splitPiece
  split
  · trivial
  · split
    · trivial
    · exact .ite h trivial

theorem readAhead_memWf {stream id loc} (h : s.MemWf) : NextMemWf (readAhead stream id loc s) := by
  have hgo : ∀ grp (view : Group → Group) (k : Byte → State), (∀ b, (k b).MemWf) → NextMemWf (match s.group? grp with
      | none => .refused .notEnabled
      | some x => match s.engineRead (view x) loc 1 with
        | .bytes [b] => .next (k b)
        | _ => .refused .notEnabled) := by
    intro grp view k hk
    split
    · trivial
    · split
      · exact hk _
      · trivial
  unfold readAhead
  refine .ite ?_ ?_
  · split
    · exact .ite (hgo _ _ _ fun _ => h) trivial
    · trivial
  · split
    · exact .ite (hgo _ _ _ fun _ => h) trivial
    · trivial
end Sys2Proof.Machine
end

section
/-!
The events of the stream and matrix engines keep memory in its canonical form.
-/
namespace Sys2Proof.Machine
variable {s : State}

/-! ## Streams -/

/-- As `Act.MemWf`. -/
def Ran.MemWf : Ran → Prop
  | .full s _ | .ended s _ | .more s _ | .stopped s _ _ => s.MemWf
  | .blocked => True

theorem Ran.MemWf.ite {c : Prop} [Decidable c] {a b : Ran} (ha : a.MemWf) (hb : b.MemWf) :
    (if c then a else b).MemWf := by
  split
  · exact ha
  · exact hb

theorem State.MemWf.seen {o second prev w} (h : s.MemWf) : (s.seen o second prev w).MemWf := by
  unfold State.seen
  split
  · exact .ite (.modSources h) h
  · exact h

theorem State.MemWf.seenSome {o second prev} {v : Option Word} (h : s.MemWf) :
    (match v with | some w => s.seen o second prev w | none => s).MemWf := by
  split
  · exact .seen h
  · exact h

/-- A turn of the walk that gives a state keeps the form. -/
def Walked (q : Option (State × SOp × List Word)) : Prop := ∀ p ∈ q, p.1.MemWf

theorem Walked.none : Walked none := by simp [Walked]

theorem Walked.some {o l} (h : s.MemWf) : Gives (ε := ε) Walked (Pure.pure (some (s, o, l))) := by
  rintro p ⟨⟩
  exact h

theorem State.walkOnce_memWf {x o} (h : s.MemWf) : Gives Walked (s.walkOnce x o) := by
  unfold State.walkOnce
  split
  · exact .ite Walked.none <| .ite
      (.bind fun _ => .ite (.bind fun _ => .ite (.some (.seenSome (.seenSome h))) (.some (.seenSome (.seenSome h))))
        (.bind fun _ => .ite (.some (.seenSome (.seenSome h))) (.some (.seenSome (.seenSome h)))))
      (.bind fun _ => .ite (.bind fun _ => .ite (.some (.seenSome (.seenSome h))) (.some (.seenSome (.seenSome h))))
        (.bind fun _ => .ite (.some (.seenSome (.seenSome h))) (.some (.seenSome (.seenSome h)))))
  · exact .ite Walked.none <| .bind fun _ => .bind fun _ => .ite (Walked.some (.seen (.seen h))) <|
      .ite (Walked.some (.seen (.seen h))) (Walked.some (.seen (.seen h)))
  · exact .ite Walked.none <| .bind fun _ => .bind fun _ => .ite (Walked.some (.seen (.seen h))) <|
      .ite (Walked.some (.seen (.seen h))) (Walked.some (.seen (.seen h)))
  · exact Walked.none

theorem State.openSlot_memWf {id o x r p} (h : s.MemWf) (e : s.openSlot id o x r = some p) : p.1.MemWf := by
  unfold State.openSlot at e
  split at e
  · cases e
    exact h
  · dsimp only at e
    split at e
    · cases e
      exact h
    · cases e

theorem State.MemWf.emit {id o x r ws} (h : s.MemWf) : (s.emit id o x r ws).1.MemWf := by
  unfold State.emit
  split
  · exact h
  · exact State.landScratch_memWf _ _ _ _ h

theorem State.runRing_memWf {id o r n} (h : s.MemWf) : (s.runRing id o r n).MemWf := by
  induction n generalizing s o with
  | zero => exact h
  | succ n ih =>
    unfold State.runRing
    split
    · trivial
    next x _ =>
      have hw : Gives Walked (s.walkOnce x o) := State.walkOnce_memWf h
      split
      · exact h
      · exact h
      next e => exact ih (hw.of_eq e _ rfl)
      next e =>
        have hs := hw.of_eq e _ rfl
        split
        · trivial
        next e' =>
          have ho := State.openSlot_memWf hs e'
          split
          · trivial
          · exact .ite (State.MemWf.emit ho) (ih (.emit ho))

theorem State.runCount_memWf {o n} (h : s.MemWf) : (s.runCount o n).MemWf := by
  induction n generalizing s o with
  | zero => exact h
  | succ n ih =>
    unfold State.runCount
    split
    · trivial
    · split
      · exact h
      · exact h
      next e => exact ih ((State.walkOnce_memWf h).of_eq e _ rfl)

theorem State.runScan_memWf {o n} (h : s.MemWf) : (s.runScan o n).MemWf := by
  induction n generalizing o with
  | zero => exact h
  | succ n ih =>
    unfold State.runScan
    split
    · trivial
    · split
      · exact h
      · split
        · exact h
        · exact ih

theorem State.runRows_memWf {o tile sp base size off pitch n} (h : s.MemWf) :
    (s.runRows o tile sp base size off pitch n).MemWf := by
  induction n generalizing s o with
  | zero => exact h
  | succ n ih =>
    unfold State.runRows
    split
    · trivial
    · split
      · exact h
      · dsimp only
        split
        · exact h
        · exact ih (.modTile h)

theorem State.MemWf.putOp {id o} (h : s.MemWf) : (s.putOp id o).MemWf := h

theorem State.MemWf.endOp {id o} (h : s.MemWf) : (s.endOp id o).MemWf := .leave (.gcTiles h)

theorem State.MemWf.closeSlot {o r} (h : s.MemWf) : (s.closeSlot o r).1.MemWf := by
  unfold State.closeSlot
  split
  · exact h
  · exact .checkRing (.modRing h)

theorem State.MemWf.abandonTiles {g ctr tiles} (h : s.MemWf) : (s.abandonTiles g ctr tiles).MemWf :=
  .foldl h fun _ _ h => State.countIn_memWf _ _ _ _ (.modTile h)

theorem State.MemWf.failOp {id o cause addr} (h : s.MemWf) : (s.failOp id o cause addr).MemWf := by
  unfold State.failOp
  extract_lets faulted marked
  have hm : marked.MemWf := .modSources (.modGroup h)
  split
  · exact .ite (.endOp hm) (.leave (.putOp (.closeSlot hm)))
  · exact .ite (.endOp hm) (.leave (.putOp (.closeSlot hm)))
  · exact .endOp (.foldl hm fun _ _ h => h)
  · exact .endOp (State.outDone_memWf _ _ (State.countIn_memWf _ _ _ _ hm))
  · exact .endOp (State.outDone_memWf _ _ (.abandonTiles hm))
  · exact .endOp hm

theorem State.stopOp_memWf {id o e} (h : s.MemWf) : NextMemWf (s.stopOp id o e) := by
  unfold State.stopOp
  split
  · exact State.MemWf.addMiss (.putOp h)
  · exact State.MemWf.failOp h
  · exact State.MemWf.kill h
  · trivial

theorem execStreamOperationBegin_memWf {id} (h : s.MemWf) : NextMemWf (execStreamOperationBegin id s) := by
  unfold execStreamOperationBegin
  split
  · trivial
  · exact .ite h trivial

theorem State.slotClose_memWf {id o r} (h : s.MemWf) : NextMemWf (s.slotClose id o r) := by
  have hr := s.runRing_memWf (id := id) (o := o) (r := r) (n := o.turns) h
  unfold State.slotClose
  refine .ite (State.MemWf.failOp h) ?_
  split
  next e => exact State.MemWf.putOp (.closeSlot (e ▸ hr :))
  next e => exact .ite (State.MemWf.putOp (.closeSlot (e ▸ hr :))) trivial
  · trivial
  · trivial
  next e => exact State.stopOp_memWf (e ▸ hr :)

theorem State.closeHandle_memWf {id o last} (h : s.MemWf) : NextMemWf (s.closeHandle id o last) := by
  unfold State.closeHandle
  split
  · dsimp only
    split
    · trivial
    next tile _ =>
      have hr := fun sp base size off pitch => s.runRows_memWf (o := o) (tile := tile) (sp := sp) (base := base)
        (size := size) (off := off) (pitch := pitch) (n := 32) h
      refine .ite trivial ?_
      split
      next e =>
        have ht := State.MemWf.modTile (id := tile) (f := fun t => { t with st := .full, fillDom := none, fillBy := none })
          (e ▸ hr _ _ _ _ _ :)
        exact State.MemWf.ite (.endOp (State.outDone_memWf _ _ (State.countIn_memWf _ _ _ _ ht)))
          (.putOp (State.countIn_memWf _ _ _ _ ht))
      next e => exact State.stopOp_memWf (e ▸ hr _ _ _ _ _ :)
      · trivial
  · trivial

theorem execStreamSlotClose_memWf {id} (h : s.MemWf) : NextMemWf (execStreamSlotClose id s) := by
  unfold execStreamSlotClose
  split
  · trivial
  · refine .ite trivial ?_
    split
    · exact State.slotClose_memWf h
    · exact State.slotClose_memWf h
    · exact State.closeHandle_memWf h
    · trivial

theorem streamAdvance_memWf {id n} (h : s.MemWf) : NextMemWf (streamAdvance id n s) := by
  unfold streamAdvance
  split
  · trivial
  · extract_lets run
    have hr : run.MemWf := by
      unfold run
      split
      · split
        · exact State.runRing_memWf h
        · trivial
      · split
        · exact State.runRing_memWf h
        · trivial
      · exact State.runCount_memWf h
      · exact State.runScan_memWf h
      · split
        · split
          · exact State.runRows_memWf h
          · trivial
        · trivial
      · trivial
    clear_value run
    refine .ite trivial ?_
    split
    · exact hr
    · exact hr
    · split
      · exact State.MemWf.putOp (.closeSlot hr)
      · trivial
    · trivial
    · exact State.stopOp_memWf hr

theorem State.ringEnd_memWf {id o r} (h : s.MemWf) : NextMemWf (s.ringEnd id o r) := by
  have hr := s.runRing_memWf (id := id) (o := o) (r := r) (n := o.turns) h
  unfold State.ringEnd
  refine .ite (State.MemWf.failOp h) ?_
  split
  next e =>
    split
    · trivial
    · refine .ite trivial ?_
      split
      · trivial
      next e' => exact State.MemWf.endOp (.modRing (.closeSlot (State.openSlot_memWf (e ▸ hr :) e')))
  next e => exact State.stopOp_memWf (e ▸ hr :)
  · trivial

theorem execStreamOperationEnd_memWf {id} (h : s.MemWf) : NextMemWf (execStreamOperationEnd id s) := by
  unfold execStreamOperationEnd
  split
  · trivial
  next o _ =>
    have hc := s.runCount_memWf (o := o) (n := o.turns) h
    have hs := s.runScan_memWf (o := o) (n := o.turns) h
    refine .ite trivial ?_
    split
    · exact State.ringEnd_memWf h
    · exact State.ringEnd_memWf h
    · split
      next e => exact State.MemWf.endOp (.foldl (e ▸ hc :) fun _ _ h => h)
      next e => exact State.stopOp_memWf (e ▸ hc :)
      · trivial
    · split
      next e => exact State.MemWf.endOp (State.outDone_memWf _ _ (State.countIn_memWf _ _ _ _
          (State.landScratch_memWf _ _ _ _ (e ▸ hs :))))
      next e => exact State.stopOp_memWf (e ▸ hs :)
      · trivial
    · exact State.closeHandle_memWf h
    · trivial
end Sys2Proof.Machine
end

section
namespace Sys2Proof.Machine
variable {s : State}

/-! ## The matrix engine -/

/-- As `Act.MemWf`. -/
def RecRun.MemWf : RecRun → Prop
  | .done s | .stopped s _ _ => s.MemWf
  | .mismatch => True

theorem RecRun.MemWf.ite {c : Prop} [Decidable c] {a b : RecRun} (ha : a.MemWf) (hb : b.MemWf) :
    (if c then a else b).MemWf := by
  split
  · exact ha
  · exact hb

theorem State.MemWf.storeTile {g since base d k rows t} (h : s.MemWf) : (s.storeTile g since base d k rows t).MemWf :=
  .foldl (.ite h (State.landScratch_memWf _ _ _ _ h)) fun _ _ h => State.landScratch_memWf _ _ _ _ h

theorem State.MemWf.giveLanes {r lo hi all val} (h : s.MemWf) : (s.giveLanes r lo hi all val).MemWf :=
  .foldl h fun _ _ h => h

theorem State.runWld_memWf {id r x} (h : s.MemWf) : (s.runWld id r x).MemWf := by
  unfold State.runWld
  split <;> exact h

theorem State.runMma_memWf {r x hi} (h : s.MemWf) : (s.runMma r x hi).MemWf := by
  unfold State.runMma
  dsimp only
  split <;> exact h

theorem State.runRslv_memWf {r b hi} (h : s.MemWf) : (s.runRslv r b hi).MemWf := by
  unfold State.runRslv
  refine .ite trivial (State.MemWf.foldl (State.MemWf.modBasin h) fun s p h => ?_)
  refine .ite (State.countIn_memWf _ _ _ _ (.storeTile h)) ?_
  split
  · exact State.countIn_memWf _ _ _ _ (.fillTile h)
  · exact h

theorem State.runBcmp_memWf {r b hi} (h : s.MemWf) : (s.runBcmp r b hi).MemWf :=
  .ite (State.MemWf.modBasin (.giveLanes h)) (.ite trivial (State.MemWf.giveLanes h))

theorem State.runBmov_memWf {r b} (h : s.MemWf) : (s.runBmov r b).MemWf :=
  .ite trivial (.ite (State.MemWf.giveLanes (.modBasin h)) (State.MemWf.giveLanes h))

theorem State.saveRows_memWf {r b hi n i} (h : s.MemWf) : (s.saveRows r b hi n i).MemWf := by
  induction n generalizing s i with
  | zero => exact h
  | succ n ih =>
    unfold State.saveRows
    refine .ite h ?_
    split
    · exact h
    · dsimp only
      split
      · exact h
      next e => exact ih (State.countIn_memWf _ _ _ _ ((State.engineWrite_memWf h).of_eq e))

theorem State.restoreRows_memWf {r hi n i} (h : s.MemWf) : (s.restoreRows r hi n i).MemWf := by
  induction n generalizing s i with
  | zero => exact h
  | succ n ih =>
    unfold State.restoreRows
    refine .ite h ?_
    split
    · exact h
    · split
      · exact ih (State.countIn_memWf _ _ _ _ (.modBasin h))
      · exact h

theorem State.runRec_memWf {id r x b hi} (h : s.MemWf) : (s.runRec id r x b hi).MemWf := by
  unfold State.runRec
  dsimp only
  split
  · exact State.runMma_memWf h
  · exact State.runWld_memWf h
  · exact State.runRslv_memWf h
  · exact State.MemWf.modBasin h
  · exact State.runBcmp_memWf h
  · exact State.runBmov_memWf h
  · exact .ite trivial (State.saveRows_memWf h)
  · exact State.restoreRows_memWf h
  · exact .ite trivial (State.MemWf.modBasin h)

theorem State.MemWf.gcBasins (h : s.MemWf) : s.gcBasins.MemWf := h

theorem State.MemWf.freeEngines {p} (h : s.MemWf) : (s.freeEngines p).MemWf := h

theorem State.MemWf.endRec {id r} (h : s.MemWf) : (s.endRec id r).MemWf :=
  .leave (.gcTiles (.gcBasins (State.outDone_memWf _ _ (.freeEngines h))))

theorem State.MemWf.failRec {id r cause} (h : s.MemWf) : (s.failRec id r cause).MemWf :=
  .endRec <| State.countIn_memWf _ _ _ _ <| .foldl (.ite (.foldl h fun _ _ h => h) h) fun _ _ h => h

theorem State.advanceRec_memWf {core upTo after} (ha : ∀ s id r hi, s.MemWf → (after s id r hi).MemWf) (h : s.MemWf) :
    NextMemWf (s.advanceRec core upTo after) := by
  unfold State.advanceRec
  split
  · trivial
  · split
    · trivial
    next id _ _ r _ =>
      split
      next x b hi _ _ _ =>
        have hr := s.runRec_memWf (id := id) (r := r) (x := x) (b := r.view b) (hi := hi) h
        refine .ite trivial ?_
        split
        next e => exact ha _ _ _ _ (e ▸ hr :)
        · exact State.MemWf.integrity h
        next e =>
          have hs : State.MemWf _ := (e ▸ hr :)
          dsimp only
          split
          · exact State.MemWf.addMiss hs
          · exact State.MemWf.failRec hs
          · exact State.MemWf.kill hs
          · trivial
      · trivial

theorem execMatrixRecordComplete_memWf {core} (h : s.MemWf) : NextMemWf (execMatrixRecordComplete core s) :=
  State.advanceRec_memWf (fun _ _ _ _ h => .endRec h) h

theorem matrixUnit_memWf {core} (h : s.MemWf) : NextMemWf (matrixUnit core s) :=
  State.advanceRec_memWf (fun _ _ _ _ h => h) h

theorem execMatrixRecordStart_memWf {core} (h : s.MemWf) : NextMemWf (execMatrixRecordStart core s) := by
  unfold execMatrixRecordStart
  split
  · trivial
  · exact .ite trivial (.ite (State.MemWf.failRec h) h)

theorem execRecordWaitTimeout_memWf {core} (h : s.MemWf) : NextMemWf (execRecordWaitTimeout core s) := by
  unfold execRecordWaitTimeout
  split
  · trivial
  · exact State.MemWf.failRec h

theorem State.MemWf.enterRec {r} (h : s.MemWf) : (s.enterRec r).MemWf :=
  .gcTiles <| .bump <| .ite (.modBasin (.submit (.outUp (.ite (.startFills h) h)))) (.submit (.outUp (.ite (.startFills h) h)))

theorem State.MemWf.endArray {id a} (h : s.MemWf) : (s.endArray id a).MemWf := by
  refine .leave (.gcTiles (.foldl ?_ fun s k h => ?_))
  · exact h
  · split
    · exact .submit h
    · exact h

theorem State.MemWf.stopArray {id a t} (h : s.MemWf) : (s.stopArray id a t).MemWf :=
  .ite (.endArray (.ite h (.trap h))) (.ite h (.trap h))

theorem execMtaskqArrayRead_memWf {id} (h : s.MemWf) : NextMemWf (execMtaskqArrayRead id s) := by
  unfold execMtaskqArrayRead
  split
  · trivial
  · split
    · trivial
    next a _ x _ =>
      extract_lets after fault lost
      have hafter : ∀ s, s.MemWf → (after s).MemWf := fun s h => .ite (.endArray h) h
      have hlost : ∀ n s, s.MemWf → (lost n s).MemWf := fun n s h => by
        unfold lost
        split
        · exact State.countIn_memWf _ _ _ _ h
        · exact h
      refine .ite trivial ?_
      split
      · dsimp only
        split
        · split
          · exact hafter _ (.enterRec h)
          · exact State.MemWf.kill h
          · exact State.MemWf.stopArray h
          · trivial
        · exact hafter _ (hlost _ _ h)
      · exact State.MemWf.addMiss h
      · exact State.MemWf.endArray h
      · exact State.MemWf.kill h
      · trivial

theorem execTaskQueueEnter_memWf {quad} (h : s.MemWf) : NextMemWf (execTaskQueueEnter quad s) := by
  unfold execTaskQueueEnter
  split
  · trivial
  · exact .ite h trivial

/-! ## The fabric engine -/

theorem State.MemWf.failRemote {id r cause} (h : s.MemWf) : (s.failRemote id r cause).MemWf := by
  unfold State.failRemote
  extract_lets faulted noted open_ returned
  have hr : returned.MemWf := by
    unfold returned
    split
    · exact h
    · exact h
    · exact .foldl (s := noted) h fun _ _ h => h
    · exact h
  exact .leave (State.outDone_memWf _ _ (State.countIn_memWf _ _ _ _ hr))

theorem execPacketAgeTick_memWf {k} (h : s.MemWf) : NextMemWf (execPacketAgeTick k s) := by
  unfold execPacketAgeTick
  split
  · trivial
  · exact .ite trivial h

theorem portGrant_memWf {port} (h : s.MemWf) : NextMemWf (portGrant port s) := by
  unfold portGrant
  split
  · trivial
  · exact .ite h trivial

theorem State.MemWf.countLate {launch g} (h : s.MemWf) : (s.countLate launch g).MemWf := by
  unfold State.countLate
  dsimp only
  split
  · exact .ite h h
  · exact h

theorem State.MemWf.takePacket {p} (h : s.MemWf) : (s.takePacket p).MemWf := by
  unfold State.takePacket
  dsimp only
  split
  · exact .ite (.countLate h) h
  · exact h

theorem packetDelivery_memWf {id} (h : s.MemWf) : NextMemWf (packetDelivery id s) := by
  unfold packetDelivery
  split
  · exact .ite (State.MemWf.takePacket h) trivial
  · trivial

theorem execLateDelivery_memWf {g} (h : s.MemWf) : NextMemWf (execLateDelivery g s) := by
  unfold execLateDelivery
  split
  · trivial
  · split
    · exact .ite (State.MemWf.countLate h) trivial
    · trivial

theorem State.delivered_memWf {id s'} (h : s.MemWf) (e : s.delivered id = some s') : s'.MemWf := by
  unfold State.delivered at e
  split at e
  · cases e
    exact h
  · split at e
    · cases e
      exact .takePacket h
    · cases e

theorem execRemoteSettle_memWf {id err found} (h : s.MemWf) : NextMemWf (execRemoteSettle id err found s) := by
  unfold execRemoteSettle
  split
  · trivial
  · trivial
  next r s' e =>
    have h' := State.delivered_memWf h e
    extract_lets done
    have hdone : ∀ s, s.MemWf → NextMemWf (done s) := fun s h =>
      State.MemWf.leave (State.outDone_memWf _ _ h)
    refine .ite trivial (.ite (State.MemWf.failRemote h') (.ite trivial ?_))
    split
    · exact hdone _ (State.countIn_memWf _ _ _ _ h')
    · exact .ite (hdone _ h') trivial
    · exact .ite (hdone _ h') trivial
    · exact .ite (hdone _ (.foldl h' fun _ _ h => h)) trivial
    · trivial

theorem State.MemWf.endColl {id c total lost} (h : s.MemWf) : (s.endColl id c total lost).MemWf :=
  .leave (State.outDone_memWf _ _ (State.countIn_memWf _ _ _ _ h))

theorem State.MemWf.failColl {id c cause va total} (h : s.MemWf) : (s.failColl id c cause va total).MemWf :=
  .endColl (.modGroup h)

theorem State.collStop_memWf {id c x total e} (h : s.MemWf) : NextMemWf (s.collStop id c x total e) := by
  cases e with
  | miss a v cause => exact State.MemWf.addMiss h
  | fault cause va => exact State.MemWf.failColl h
  | poison => exact State.MemWf.kill h
  | bytes l => trivial
  | later => trivial

theorem State.landColl_memWf {id c x dl image} (h : s.MemWf) : NextMemWf (s.landColl id c x dl image) := by
  unfold State.landColl
  dsimp only
  split
  next e => exact State.MemWf.endColl ((State.engineWrite_memWf h).of_eq e)
  · refine State.collStop_memWf ?_
    split
    next e => exact (State.engineWrite_memWf h).of_eq e
    · exact h

theorem execCollectiveComplete_memWf {id fate contribs} (h : s.MemWf) :
    NextMemWf (execCollectiveComplete id fate contribs s) := by
  unfold execCollectiveComplete
  split
  · trivial
  · split
    · trivial
    · dsimp only
      refine .ite trivial ?_
      split
      · exact State.MemWf.failColl h
      · exact State.MemWf.failColl h
      · exact State.MemWf.endColl h
      · refine .ite trivial ?_
        split
        · exact State.landColl_memWf h
        · refine .ite (State.landColl_memWf h) ?_
          split
          · exact State.landColl_memWf h
          · exact State.collStop_memWf h

theorem execPeerAckTimeout_memWf {id} (h : s.MemWf) : NextMemWf (execPeerAckTimeout id s) := by
  unfold execPeerAckTimeout
  split
  · exact State.MemWf.failRemote h
  · split
    · exact State.MemWf.failColl h
    · trivial
  · trivial

theorem execUalinkPortDown_memWf {port} (h : s.MemWf) : NextMemWf (execUalinkPortDown port s) := .ite h trivial

theorem execPeerTransactionArrival_memWf {op} (h : s.MemWf) : NextMemWf (execPeerTransactionArrival op s) := by
  refine .ite trivial ?_
  split
  · exact .ite h trivial
  · exact .ite (State.writePhys_memWf _ _ h) trivial
  · exact .ite (State.writePhys_memWf _ _ h) trivial

end Sys2Proof.Machine
end

section
namespace Sys2Proof.Machine
variable {s : State}

/-! ## Fetch and issue of a core -/

theorem State.fallThrough_memWf {r} (h : s.MemWf) : NextMemWf (s.fallThrough r) := by
  unfold State.fallThrough
  split
  · split
    · refine .ite (.ite (State.MemWf.timerTrap h) ?_) trivial
      split
      · exact State.MemWf.enter (.modThread h)
      · exact State.MemWf.trap h
      · trivial
      · exact State.MemWf.stopAt h
    · trivial
  · trivial

theorem fillAhead_memWf {core g hdr off} (h : s.MemWf) : NextMemWf (fillAhead core g hdr off s) := by
  unfold fillAhead
  split
  · trivial
  · refine .ite trivial ?_
    split
    · exact h
    · trivial

theorem State.MemWf.endFill {core launch hdr} (h : s.MemWf) : (s.endFill core launch hdr).MemWf := h

theorem execInstructionCacheFill_memWf {core g hdr} (h : s.MemWf) : NextMemWf (execInstructionCacheFill core g hdr s) := by
  unfold execInstructionCacheFill
  split
  · trivial
  · split
    · trivial
    · refine .ite trivial ?_
      dsimp only
      split
      · trivial
      · exact State.MemWf.stopAt h
      · exact State.MemWf.stopAt (.endFill h)
      · exact .ite (State.MemWf.stopAt (.endFill h)) h

theorem State.MemWf.setCore {c k} (h : s.MemWf) : (s.setCore c k).MemWf := h

theorem State.MemWf.buildIssue {core} (h : s.MemWf) : (s.buildIssue core).1.MemWf := by
  unfold State.buildIssue
  dsimp only
  split <;> exact h

/-! ## Saved groups -/

theorem State.MemWf.writeArea {g x kind} (h : s.MemWf) : (s.writeArea g x kind).MemWf := by
  have hnew : ∀ {fw : Firmware} {a bs f}, ((({ s with fw := fw } : State).writePhys a bs).modGroup g f).MemWf :=
    .modGroup (State.writePhys_memWf _ _ h)
  unfold State.writeArea
  dsimp only
  split
  · exact .ite (State.writePhys_memWf _ _ h) hnew
  · exact hnew

theorem State.MemWf.dropRequests {g core} (h : s.MemWf) : (s.dropRequests g core).MemWf := h

theorem State.MemWf.saveGroup {g} (h : s.MemWf) : (s.saveGroup g).MemWf := by
  unfold State.saveGroup
  split
  · exact h
  · extract_lets written held order freed moved
    have hw : written.MemWf := .writeArea h
    have hf : freed.MemWf := .freeEngines (.dropRequests hw)
    have hm : moved.MemWf := hf
    exact .modGroup hm

theorem State.MemWf.trySave {g} (h : s.MemWf) : (s.trySave g).MemWf := by
  unfold State.trySave
  split
  · exact .ite (.saveGroup h) h
  · exact h

theorem State.MemWf.putParts {g} (h : s.MemWf) : (s.putParts g).MemWf := by
  unfold State.putParts
  split
  · exact h
  next x _ =>
    extract_lets written
    have hw : written.MemWf := .foldl h fun s p h => by
      refine .ite ?_ h
      split
      · exact State.writeBytes_memWf _ _ h
      · exact h
    exact hw

theorem State.placeBasins_memWf {quad l s'} (h : s.MemWf) (e : s.placeBasins quad l = some s') : s'.MemWf := by
  induction l generalizing s with
  | nil =>
    cases e
    exact h
  | cons p l ih =>
    unfold State.placeBasins at e
    dsimp only at e
    split at e
    · cases e
    · refine ih ?_ e
      exact h

theorem State.MemWf.requeueRecs {quad l} (h : s.MemWf) : (s.requeueRecs quad l).MemWf := by
  induction l generalizing s with
  | nil => exact h
  | cons id l ih => exact ih (.ite h h)

theorem State.MemWf.retest {g} (h : s.MemWf) : (s.retest g).MemWf := by
  unfold State.retest
  split
  · exact h
  · exact .evalWaits (.wakeAcquires (.retryTakes (.foldl h fun _ _ h => .checkRing h)))

theorem State.MemWf.awaitedTraps {g x} (h : s.MemWf) : (s.awaitedTraps g x).MemWf := by
  unfold State.awaitedTraps
  split
  · exact .trap h
  · exact .podCheck h

theorem State.restoreGroup_memWf {g core s'} (h : s.MemWf) (e : s.restoreGroup g core = some s') : s'.MemWf := by
  unfold State.restoreGroup at e
  split at e
  · split at e
    · cases e
    · obtain ⟨placed, hp, rfl⟩ := Option.map_eq_some_iff.mp e
      have h' := State.placeBasins_memWf h hp
      refine .awaitedTraps (.retest (.foldl (.putParts (.modGroup (.modCore (.foldl (.requeueRecs h') ?_)))) ?_))
      · exact fun _ _ h => State.writeByte_memWf _ _ h
      · exact fun _ _ h => .ite (.releaseThreads h) h
  · cases e

/-! ## Events at a boundary -/

theorem State.MemWf.shareValue {g x tid seq l} (h : s.MemWf) : (s.shareValue g x tid seq l).MemWf :=
  .modDom (.foldl h fun _ _ h => h)

theorem State.returnResult_memWf {g x tid d} (h : s.MemWf) : ∀ t ∈ s.returnResult g x tid d, t.MemWf := by
  unfold State.returnResult
  split
  · split
    · split
      · simp
      · split
        · simp [h.kill]
        · simp [State.MemWf.result h]
    · simp [State.MemWf.shareValue h]
    · simp [State.MemWf.result h]
  · split
    · simp
    · rintro t ⟨⟩
      exact .foldl h fun _ _ h => h

theorem execDeferredResultReturn_memWf {g tid k} (h : s.MemWf) : NextMemWf (execDeferredResultReturn g tid k s) := by
  unfold execDeferredResultReturn
  split
  · trivial
  · refine .ite trivial ?_
    split
    · trivial
    · split
      next e => exact State.returnResult_memWf h _ e
      · trivial

theorem State.MemWf.moveCell {g d cs c st} (h : s.MemWf) : (s.moveCell g d cs c st).MemWf := h

theorem execPrepareAcknowledge_memWf {g d k} (h : s.MemWf) : NextMemWf (execPrepareAcknowledge g d k s) := by
  unfold execPrepareAcknowledge
  split
  · trivial
  · split
    · trivial
    · refine .ite trivial ?_
      split
      · exact h
      · exact .ite h trivial

theorem State.MemWf.answerService {quad g off} (h : s.MemWf) : (s.answerService quad g off).MemWf := by
  unfold State.answerService
  dsimp only
  split
  · exact State.landScratch_memWf _ _ _ _ h
  · exact State.writeBytes_memWf _ _ h

theorem execGafferRequest_memWf {quad} (h : s.MemWf) : NextMemWf (execGafferRequest quad s) := by
  unfold execGafferRequest
  dsimp only
  split
  · trivial
  · refine .ite trivial ?_
    split
    · exact h
    · exact State.MemWf.answerService (.modQuad (.modQuad h))

theorem execGafferTimeout_memWf {quad} (h : s.MemWf) : NextMemWf (execGafferTimeout quad s) := by
  unfold execGafferTimeout
  split
  · trivial
  · exact State.MemWf.killAll (.modQuad h)

theorem execAtomicopComplete_memWf {g d err} (h : s.MemWf) : NextMemWf (execAtomicopComplete g d err s) := by
  unfold execAtomicopComplete
  split
  · trivial
  · split
    · trivial
    · split
      · exact State.MemWf.kill h
      · exact h
      · trivial

theorem atomicFault_memWf {g d i} (h : s.MemWf) : NextMemWf (atomicFault g d i s) := by
  unfold atomicFault
  split
  · trivial
  · exact .ite trivial h

theorem execStepBoundaryComplete_memWf {g d} (h : s.MemWf) : NextMemWf (execStepBoundaryComplete g d s) := by
  unfold execStepBoundaryComplete
  split
  next e => exact State.MemWf.trySave (State.completeBoundary_memWf h _ e)
  · trivial

theorem State.MemWf.releaseWider {p} (h : s.MemWf) : (s.releaseWider p).MemWf := by
  unfold State.releaseWider
  split
  · exact h
  · exact .ite (.releaseThreads h) (.stopDomain h)

theorem State.MemWf.releaseStep {x scope ps} (h : s.MemWf) : (s.releaseStep x scope ps).MemWf := by
  have hr : (ps.foldl State.releaseWider (s.writeElection ((ps.flatMap s.stepCandidates).map (·.1))
      (s.electStep (if scope = 5 then s.launchOf x else { s.launchOf x with podAt := [] }) ps
        ((ps.flatMap s.stepCandidates).map (·.1))))).MemWf :=
    .foldl (.writeElection h) fun _ _ h => .releaseWider h
  exact .ite (State.MemWf.ite hr hr) (.ite hr hr)

theorem State.MemWf.afterStep {g x scope} (h : s.MemWf) : (s.afterStep g x scope).MemWf :=
  .foldl (.foldl h fun _ _ h => .evalWaits (.wakeAcquires h)) fun _ _ h => .trySave h

theorem podArrival_memWf {launch module top own} (h : s.MemWf) : NextMemWf (podArrival launch module top own s) := by
  unfold podArrival
  split
  · trivial
  · exact .ite h trivial

theorem execWiderStepRelease_memWf {g} (h : s.MemWf) : NextMemWf (execWiderStepRelease g s) := by
  unfold execWiderStepRelease
  split
  · trivial
  · split
    · trivial
    · exact .ite (State.MemWf.afterStep (.releaseStep h)) trivial

theorem execWaitvPeriodicEvaluation_memWf {g tid} (h : s.MemWf) : NextMemWf (execWaitvPeriodicEvaluation g tid s) := by
  unfold execWaitvPeriodicEvaluation
  split
  · split
    · exact State.MemWf.evalWait h
    · trivial
  · trivial

theorem execRacqPeriodicCheck_memWf {g tid} (h : s.MemWf) : NextMemWf (execRacqPeriodicCheck g tid s) := by
  unfold execRacqPeriodicCheck
  split
  · exact .ite trivial (State.MemWf.foldl h fun _ _ h => .checkRing h)
  · trivial

theorem execTtakePeriodicCheck_memWf {g tid} (h : s.MemWf) : NextMemWf (execTtakePeriodicCheck g tid s) := by
  unfold execTtakePeriodicCheck
  split
  · exact .ite trivial (State.MemWf.wakeAcquires (.foldl h fun _ _ h => .retryTake h))
  · trivial

theorem execVtimeThreshold_memWf {g tid} (h : s.MemWf) : NextMemWf (execVtimeThreshold g tid s) := by
  unfold execVtimeThreshold
  split
  · exact .ite (State.MemWf.timerTrap h) trivial
  · trivial

theorem execLaneSyncFault_memWf {g ch} (h : s.MemWf) : NextMemWf (execLaneSyncFault g ch s) := by
  unfold execLaneSyncFault
  split
  · trivial
  · dsimp only
    split
    · trivial
    · exact .ite (State.MemWf.trap h) trivial

theorem execXacqGrant_memWf {core} (h : s.MemWf) : NextMemWf (execXacqGrant core s) := by
  unfold execXacqGrant
  split
  · trivial
  · split
    · trivial
    · dsimp only
      split
      · refine .ite (State.MemWf.foldl (.grantBlocks (.modCore h)) fun s i h => ?_) trivial
        split
        · exact .ite h h
        · exact h
      · trivial

theorem execTallocGrant_memWf {quad} (h : s.MemWf) : NextMemWf (execTallocGrant quad s) := by
  unfold execTallocGrant
  split
  · trivial
  · split
    · trivial
    · exact .ite (State.MemWf.joinInst (.mapNames (.modQuad h))) trivial

theorem execBallocGrant_memWf {core} (h : s.MemWf) : NextMemWf (execBallocGrant core s) := by
  unfold execBallocGrant
  split
  · trivial
  · split
    · trivial
    · split
      next e =>
        have hb := State.bindBasin_memWf h e
        exact State.MemWf.joinInst hb
      · trivial

end Sys2Proof.Machine
end

section
namespace Sys2Proof.Machine
variable {s : State}

/-! ## Translation and pages -/

theorem execFaultBufferEntry_memWf {core} (h : s.MemWf) : NextMemWf (execFaultBufferEntry core s) := by
  unfold execFaultBufferEntry
  split
  · trivial
  · exact .ite h trivial

theorem State.MemWf.takeUpAll {g} (h : s.MemWf) : (s.takeUpAll g).MemWf := by
  unfold State.takeUpAll
  split
  · exact h
  · refine .ite (.foldl h fun s i h => ?_) h
    split
    · split
      · exact .ite h (.ite (.takeUp h) (.takeUp h))
      · exact h
    · exact h

theorem State.MemWf.fillGroup {g asid page} (h : s.MemWf) : (s.fillGroup g asid page).MemWf := by
  unfold State.fillGroup
  split
  · exact h
  · exact .takeUpAll (.modGroup (.modGroup (.foldl h fun _ _ h => State.landScratch_memWf _ _ _ _ h)))

theorem State.MemWf.endPause {g} (h : s.MemWf) : (s.endPause g).MemWf := .ite h (.wakeAcquires (.modGroup h))

theorem State.MemWf.served {asid page who} (h : s.MemWf) : (s.served asid page who).MemWf := by
  unfold State.served
  split
  · exact .fillGroup h
  · split
    · exact .endPause h
    · exact h
  · exact h

theorem State.MemWf.clearMiss {core asid page} (h : s.MemWf) : (s.clearMiss core asid page).1.MemWf := h

theorem execTranslationFillComplete_memWf {core asid page} (h : s.MemWf) :
    NextMemWf (execTranslationFillComplete core asid page s) := by
  refine .ite (State.MemWf.foldl (.clearMiss (State.bringIn_memWf _ _ h)) fun _ _ h => .served h) trivial

theorem State.MemWf.dropPage {asid page} (h : s.MemWf) : (s.dropPage asid page).MemWf := by
  unfold State.dropPage
  split
  · exact h
  · exact State.writePhys_memWf _ _ h
  · exact h

theorem State.MemWf.failGroupFill {g asid page} (h : s.MemWf) : (s.failGroupFill g asid page).MemWf := by
  unfold State.failGroupFill
  split
  · exact h
  next x _ =>
    have hf : ∀ t : FrameUse → Trap, (match x.frameFor asid page with
        | some fr => s.trap g [fr.tid] (t fr)
        | none => s).MemWf := fun t => by
      split
      · exact .trap h
      · exact h
    dsimp only
    split
    · exact .ite (.trap h) (hf _)
    · exact .modGroup h
    · exact hf _

theorem execFillFailure_memWf {core asid page} (h : s.MemWf) : NextMemWf (execFillFailure core asid page s) := by
  refine .ite (State.MemWf.foldl (.clearMiss (.dropPage h)) fun s w h => ?_) trivial
  split
  · exact .failGroupFill h
  · exact .served h

theorem State.MemWf.keepStale {asid page count at_} (h : s.MemWf) : (s.keepStale asid page count at_).MemWf := h

theorem State.MemWf.takeFrames (h : s.MemWf) : s.takeFrames.MemWf := h

theorem State.MemWf.setEntry {asid root at_ entry} (h : s.MemWf) : (s.setEntry asid root at_ entry).MemWf :=
  State.writePhys_memWf _ _ h

theorem execMappingChange_memWf {asid page root at_ entry} (h : s.MemWf) :
    NextMemWf (execMappingChange asid page root at_ entry s) := by
  unfold execMappingChange
  refine .ite trivial (State.MemWf.takeFrames (.setEntry ?_))
  split
  · exact h
  · exact h

theorem execMigrationStart_memWf {asid page} (h : s.MemWf) : NextMemWf (execMigrationStart asid page s) := by
  unfold execMigrationStart
  dsimp only
  split
  · exact .ite trivial (State.writePhys_memWf _ _ (.keepStale h))
  · trivial

theorem State.MemWf.remapKeys {f} (h : s.MemWf) : (s.remapKeys f).MemWf := h

theorem execMigrationComplete_memWf {asid page entry} (h : s.MemWf) :
    NextMemWf (execMigrationComplete asid page entry s) := by
  unfold execMigrationComplete
  dsimp only
  split
  · split
    next l _ _ n _ =>
      have hm : (s.moveFrame l n).MemWf := State.moveFrame_memWf _ _ h
      exact .ite trivial (State.MemWf.takeFrames (State.writePhys_memWf _ _ hm))
    · trivial
  · trivial

theorem execPageAllocate_memWf {frame size} (h : s.MemWf) : NextMemWf (execPageAllocate frame size s) :=
  .ite trivial (Memory.wf_filter _ h)

theorem execZeroPendingClear_memWf {line} (h : s.MemWf) : NextMemWf (execZeroPendingClear line s) := .ite h trivial

/-! ## The dispatcher -/

theorem State.MemWf.addLaunch {l} (h : s.MemWf) : (s.addLaunch l).MemWf := h

theorem State.takeRecord_memWf {q l s'} (h : s.MemWf) (e : s.takeRecord q l = some s') : s'.MemWf := by
  unfold State.takeRecord at e
  split at e
  · cases e
    exact h
  · cases e

theorem State.MemWf.getD {o : Option State} (h : s.MemWf) (ho : ∀ t, o = some t → t.MemWf) : (o.getD s).MemWf := by
  cases o with
  | none => exact h
  | some t => exact ho t rfl

theorem execRecordTake_memWf {q} (h : s.MemWf) : NextMemWf (execRecordTake q s) := by
  unfold execRecordTake
  dsimp only
  refine .ite trivial (.ite (State.MemWf.addLaunch h) (.ite trivial ?_))
  split
  · split
    next e => exact State.takeRecord_memWf h e
    · trivial
  · refine .ite trivial ?_
    split
    · exact State.MemWf.addLaunch h
    · exact State.MemWf.getD (.modQueue h) fun _ e => State.takeRecord_memWf (.modQueue h) e

theorem State.MemWf.startGroup {core lid grp spawn} (h : s.MemWf) : (s.startGroup core lid grp spawn).MemWf := by
  unfold State.startGroup
  split
  · dsimp only
    split
    · exact h
    · split
      · exact .foldl (.modLaunch (.bump h)) fun _ _ h => .enter h
      · exact .modGroup (.modLaunch (.bump h))
  · exact h

theorem execBatchHandout_memWf {l} (h : s.MemWf) : NextMemWf (execBatchHandout l s) := by
  unfold execBatchHandout
  split
  · trivial
  · split
    · trivial
    · exact .ite trivial h

theorem State.MemWf.placeCand {core c} (h : s.MemWf) : (s.placeCand core c).MemWf := by
  cases c with
  | relaunch w => exact .startGroup h
  | queued w => exact .startGroup h
  | saved g =>
    simp only [State.placeCand]
    split
    · exact .ite (.kill h) (.getD h fun _ e => State.restoreGroup_memWf h e)
    · exact h
  | own p => exact .startGroup h
  | steal c p => exact .startGroup h
  | spill p => exact .startGroup h

theorem execGroupPlace_memWf {core} (h : s.MemWf) : NextMemWf (execGroupPlace core s) := by
  unfold execGroupPlace
  refine .ite trivial ?_
  split
  · trivial
  · exact State.MemWf.placeCand h

theorem State.MemWf.reserveSpan {lid l span micros} (h : s.MemWf) : (s.reserveSpan lid l span micros).MemWf := by
  unfold State.reserveSpan
  extract_lets cs refused reserved
  have hr : reserved.MemWf := .foldl h fun _ _ h => h
  exact .modLaunch hr

theorem State.MemWf.clearResv {lid} (h : s.MemWf) : (s.clearResv lid).MemWf := h

theorem State.MemWf.failGang {lid reason} (h : s.MemWf) : (s.failGang lid reason).MemWf := h

theorem execGangReserve_memWf {l} (h : s.MemWf) : NextMemWf (execGangReserve l s) := by
  unfold execGangReserve
  split
  · trivial
  · refine .ite trivial (.ite (.ite (State.MemWf.failGang h) trivial) ?_)
    split
    · trivial
    · exact State.MemWf.reserveSpan h

theorem execCoreReadyReply_memWf {core} (h : s.MemWf) : NextMemWf (execCoreReadyReply core s) := by
  unfold execCoreReadyReply
  split
  · trivial
  · split
    · trivial
    · split
      · exact .ite trivial h
      · trivial

theorem State.MemWf.startGang {lid l span} (h : s.MemWf) : (s.startGang lid l span).MemWf :=
  .modLaunch (.clearResv (.foldl h fun _ _ h => .startGroup h))

theorem State.MemWf.startPod {lid l span} (h : s.MemWf) : (s.startPod lid l span).MemWf :=
  .ite (.failGang h) (.ite (.startGang h) h)

theorem execGangConfirm_memWf {l} (h : s.MemWf) : NextMemWf (execGangConfirm l s) := by
  unfold execGangConfirm
  split
  · trivial
  · split
    · exact .ite trivial (.ite (State.MemWf.startPod (.modLaunch h)) (State.MemWf.startGang h))
    · exact .ite trivial (State.MemWf.startPod h)
    · trivial

theorem execGangReservationRelease_memWf {l} (h : s.MemWf) : NextMemWf (execGangReservationRelease l s) := by
  unfold execGangReservationRelease
  split
  · trivial
  · split
    · exact h
    · trivial

theorem execGangReservationTimeout_memWf {l} (h : s.MemWf) : NextMemWf (execGangReservationTimeout l s) := by
  unfold execGangReservationTimeout
  split
  · trivial
  · split
    · exact .ite trivial h
    · trivial

theorem execGangBackoffExpiry_memWf {l} (h : s.MemWf) : NextMemWf (execGangBackoffExpiry l s) := by
  unfold execGangBackoffExpiry
  split
  · trivial
  · split
    · dsimp only
      split
      · exact State.MemWf.reserveSpan h
      · trivial
    · trivial

theorem execPodGangReport_memWf {podg r} (h : s.MemWf) : NextMemWf (execPodGangReport podg r s) := by
  unfold execPodGangReport
  dsimp only
  refine .ite trivial ?_
  split
  · exact h
  · split
    · exact h
    · exact State.MemWf.startPod h
    · exact State.MemWf.ite (.failGang h) h

theorem execPodGangTimeout_memWf {podg} (h : s.MemWf) : NextMemWf (execPodGangTimeout podg s) := by
  unfold execPodGangTimeout
  split
  · trivial
  · refine .ite trivial ?_
    split
    · trivial
    · exact .ite (State.MemWf.failGang h) trivial
    · exact .ite trivial (State.MemWf.failGang h)

theorem execPodModuleUnreachable_memWf {module} (h : s.MemWf) : NextMemWf (execPodModuleUnreachable module s) :=
  State.MemWf.foldl (.foldl h fun _ _ h => h) fun _ _ h => .podCheck h

theorem State.MemWf.writeSpace {asid va bs} (h : s.MemWf) : (s.writeSpace asid va bs).MemWf := by
  unfold State.writeSpace
  split
  · exact State.writeBytes_memWf _ _ h
  · exact h

theorem State.MemWf.dropLaunch {lid l} (h : s.MemWf) : (s.dropLaunch lid l).MemWf := h

theorem execLaunchRetire_memWf {q} (h : s.MemWf) : NextMemWf (execLaunchRetire q s) := by
  unfold execLaunchRetire
  dsimp only
  split
  · trivial
  · refine .ite trivial (State.MemWf.drainQueue (.dropLaunch ?_))
    have hw : ∀ {c : Prop} [Decidable c] {asid va bs}, (if c then s else s.writeSpace asid va bs).MemWf :=
      .ite h (.writeSpace h)
    exact .ite hw hw

theorem State.MemWf.askSave {g kind} (h : s.MemWf) : (s.askSave g kind).MemWf := .trySave (.modGroup h)

theorem State.MemWf.preemptGroup {g} (h : s.MemWf) : (s.preemptGroup g).MemWf := by
  unfold State.preemptGroup
  split
  · exact h
  · exact .ite h (.ite (.flushGroup h) (.askSave h))

theorem execPreemption_memWf {die} (h : s.MemWf) : NextMemWf (execPreemption die s) := by
  unfold execPreemption
  split
  · exact .ite trivial (State.MemWf.preemptGroup h)
  · trivial

theorem execPreemptionTimeout_memWf {g} (h : s.MemWf) : NextMemWf (execPreemptionTimeout g s) := by
  unfold execPreemptionTimeout
  split
  · trivial
  · exact .ite trivial (.ite (State.MemWf.flushGroup h) (State.MemWf.kill h))

theorem execEviction_memWf {core} (h : s.MemWf) : NextMemWf (execEviction core s) := by
  unfold execEviction
  refine .ite trivial ?_
  dsimp only
  split
  · trivial
  · exact State.MemWf.askSave (.modCore h)

/-! ## The host -/

theorem execHostWrite_memWf {link off bytes} (h : s.MemWf) : NextMemWf (execHostWrite link off bytes s) :=
  .ite trivial (.ite h (State.writePhys_memWf _ _ h))

theorem hostRead_memWf {link off len} (h : s.MemWf) : NextMemWf (hostRead link off len s) := by
  unfold hostRead
  exact .ite trivial (.ite h (.ite trivial h))

theorem resizeBar_memWf {log2} (h : s.MemWf) : NextMemWf (resizeBar log2 s) := .ite trivial h

theorem State.MemWf.completeHost {e data poison} (h : s.MemWf) : (s.completeHost e data poison).MemWf := h

theorem execHostAtomicop_memWf {link off op x y} (h : s.MemWf) : NextMemWf (execHostAtomicop link off op x y s) :=
  .ite trivial (.ite h (.ite h (.ite trivial (State.MemWf.completeHost (State.writePhys_memWf _ _ h)))))

theorem State.register_memWf {upd} (h : s.MemWf) (hu : (upd s).MemWf) : NextMemWf (s.register upd) :=
  .ite trivial (.ite h hu)

theorem State.MemWf.setWbase {w} (h : s.MemWf) : (s.setWbase w).MemWf := h

theorem State.MemWf.setIrqen {w} (h : s.MemWf) : (s.setIrqen w).MemWf := h

theorem State.MemWf.writeWord {o w} (h : s.MemWf) : (s.writeWord o w).MemWf := by
  unfold State.writeWord
  exact .ite h (.ite h (.ite (.setWbase h) (.ite (.setIrqen h) (.ite (.modQueue h) (.ite h h)))))

theorem State.MemWf.writeHalf {o w} (h : s.MemWf) : (s.writeHalf o w).MemWf := .writeWord h

theorem State.hostWrites_memWf {b s'} (h : State.MemWf s') : NextMemWf (s.hostWrites b s') := .ite trivial h

theorem execRegisterWrite_memWf {off w} (h : s.MemWf) : NextMemWf (execRegisterWrite off w s) :=
  State.hostWrites_memWf (.ite (.writeWord h) (.ite (.writeHalf (.writeHalf h)) h))

theorem dwordWrite_memWf {off w} (h : s.MemWf) : NextMemWf (dwordWrite off w s) :=
  State.hostWrites_memWf (.ite (.writeHalf h) h)

theorem registerRead_memWf {off} (h : s.MemWf) : NextMemWf (registerRead off s) := .ite trivial h

theorem moduleNumber_memWf {n} (h : s.MemWf) : NextMemWf (moduleNumber n s) := .ite h trivial

theorem State.MemWf.respond {seq st rsp} (h : s.MemWf) : (s.respond seq st rsp).MemWf := h

theorem mailbox_memWf {seq cmd w0 w1 inSafe act} (h : s.MemWf) (ha : ∀ s, s.MemWf → (act s).MemWf) :
    NextMemWf (mailbox seq cmd w0 w1 inSafe act s) :=
  .ite trivial (.ite h (ha (s.mbRequest seq cmd w0 w1) h))

theorem State.MemWf.abortLaunch {lid} (h : s.MemWf) : (s.abortLaunch lid).MemWf := by
  have hr : (((s.groups.filter fun p => p.2.launch == lid).map (·.1)).foldl State.removeGroup s).MemWf :=
    .foldl h fun _ _ h => .removeGroup h
  exact .modLaunch hr

theorem execMbAbortLaunch_memWf {seq w0 w1} (h : s.MemWf) : NextMemWf (execMbAbortLaunch seq w0 w1 s) :=
  mailbox_memWf h fun s h => by
    refine .ite h (.respond ?_)
    split
    · exact .abortLaunch h
    · exact h

theorem execMbResumeGroup_memWf {seq w0} (h : s.MemWf) : NextMemWf (execMbResumeGroup seq w0 s) :=
  mailbox_memWf h fun s h => by
    split
    · exact h
    · exact .respond (.leave (.podCheck (.takeUpAll (.modGroup h))))

theorem execMbAbortGroup_memWf {seq w0} (h : s.MemWf) : NextMemWf (execMbAbortGroup seq w0 s) :=
  mailbox_memWf h fun s h => by
    split
    · exact h
    · exact .respond (.abortGroup h)

theorem execMbPreemptGroup_memWf {seq w0 w1} (h : s.MemWf) : NextMemWf (execMbPreemptGroup seq w0 w1 s) :=
  mailbox_memWf h fun s h => by
    split
    · exact h
    · split
      · exact h
      · refine .ite h ?_
        split
        · exact h
        · exact .respond (.preemptGroup h)

theorem execMbEnlargeOverflow_memWf {seq w0 w1} (h : s.MemWf) : NextMemWf (execMbEnlargeOverflow seq w0 w1 s) :=
  mailbox_memWf h fun s h => by
    split
    · exact h
    · exact .ite h h

theorem execMbLoadFirmware_memWf {seq w0 w1} (h : s.MemWf) : NextMemWf (execMbLoadFirmware seq w0 w1 s) :=
  .ite trivial <| mailbox_memWf h fun s h => by
    split
    · exact h
    · exact .ite h (.ite h h)

theorem State.MemWf.clearQuad {quad} (h : s.MemWf) : (s.clearQuad quad).MemWf := .foldl h fun _ _ h => .askSave h

theorem execMbApplyTest_memWf {seq w0 w1} (h : s.MemWf) : NextMemWf (execMbApplyTest seq w0 w1 s) :=
  .ite trivial <| mailbox_memWf h fun s h => by
    split
    · exact h
    · refine .ite h (.ite h ?_)
      split
      · exact h
      · exact .clearQuad h

theorem execMbUnknownCommand_memWf {seq cmd} (h : s.MemWf) : NextMemWf (execMbUnknownCommand seq cmd s) :=
  .ite trivial (mailbox_memWf h fun _ h => h)

/-! ## Reliability -/

theorem State.MemWf.releaseHeld {g} (h : s.MemWf) : (s.releaseHeld g).MemWf := by
  unfold State.releaseHeld
  dsimp only
  split
  · exact h
  · exact .ite (.trySave (.modGroup h)) (.foldl (.modGroup h) fun _ _ h => .ite (.afterBoundary (.releaseThreads h)) h)

theorem execLaneTestComplete_memWf {core lane array} (h : s.MemWf) : NextMemWf (execLaneTestComplete core lane array s) := by
  unfold execLaneTestComplete
  extract_lets k rs known tested counted killed off
  have hk : killed.MemWf := .killAll (.modCore h)
  refine .ite trivial (.ite (State.MemWf.foldl ?_ fun _ _ h => .releaseHeld h) ?_)
  · exact h
  · exact State.MemWf.modCore (.ite hk hk)

theorem execQuadTestComplete_memWf {pass} (h : s.MemWf) : NextMemWf (execQuadTestComplete pass s) := by
  unfold execQuadTestComplete
  split
  next q _ _ _ =>
    have ho : (if pass then s else s.modQuad q fun k => { k with out := true }).MemWf := .ite h h
    refine .ite trivial ?_
    dsimp only
    split
    · exact ho
    · exact State.MemWf.clearQuad ho
  · trivial

theorem execBringUpStageComplete_memWf {part pass} (h : s.MemWf) : NextMemWf (execBringUpStageComplete part pass s) := by
  refine .ite trivial (.ite (State.MemWf.ite h h) ?_)
  split <;> exact h

end Sys2Proof.Machine
end

section
/-!
A step keeps memory in its canonical form.
-/
namespace Sys2Proof.Machine
variable {s : State}

/-- Every instruction and every event keeps memory in its canonical form. -/
theorem exec_memWf (i : Instr) (h : s.MemWf) : NextMemWf (exec i s) :=
  match i with
  | .add _ | .sub _ | .add3 _ | .min _ | .max _ | .abs _ | .neg _ | .addmin _ | .and _ | .or _ | .xor _ | .not _ | .bitfn _
  | .shl _ | .shr _ | .sra _ | .rot _ | .fsh _ | .bfx _ | .bfi _ | .clz _ | .popc _ | .brev _ | .sel _ | .lea _ | .fsgn _
  | .cvt _ | .cvti _ | .pack _ | .unpack _ | .ext _ | .mul _ | .mad _ | .mov _ | .tmset _ | .setp _ | .pset _ | .fsetp _
  | .fclass _ => issueReg_memWf h
  | .idiv _ | .irem _ | .fdiv _ | .fsqrt _ | .frcp _ | .frsq _ | .fex2 _ | .flg2 _ | .ftrig _ | .ftanh _ | .sgget _
  | .ld _ | .ldq _ | .ldk _ | .xlat _ | .lcget _ | .racq _ | .rhead _ | .xqry _ | .digest _ => issueDefer_memWf h
  | .fadd _ | .fsub _ | .fmul _ | .ffma _ | .fmin _ | .fmax _ | .frnd _ | .faddmin _ | .fdot2 _ | .fscale _ =>
    issueShadowed_memWf h
  | .lshf f => show NextMemWf (execLshf f s) from issueLanes_memWf h
  | .lred f => show NextMemWf (execLred f s) from issueLanes_memWf h
  | .lscan f => show NextMemWf (execLscan f s) from issueLanes_memWf h
  | .lpoll f => show NextMemWf (execLpoll f s) from issueLanes_memWf h
  | .lbcast f => show NextMemWf (execLbcast f s) from issueLanes_memWf h
  | .lpeer f => show NextMemWf (execLpeer f s) from issueLanes_memWf h
  | .lisect f => show NextMemWf (execLisect f s) from issueLanes_memWf h
  | .lcomp f => show NextMemWf (execLcomp f s) from issueLanes_memWf h
  | .lrank f => show NextMemWf (execLrank f s) from issueLanes_memWf h
  | .lmask f => show NextMemWf (execLmask f s) from issueLanes_memWf h
  | .nop _ => issueEach_memWf h fun _ _ _ _ h => h
  | .bra _ | .brx _ => issueEach_memWf h fun _ _ _ _ h => State.transfer_memWf h
  | .brt _ => issueEach_memWf h fun _ _ _ _ h => State.branchTable_memWf h
  | .call _ | .callx _ => issueEach_memWf h fun _ _ _ _ h => State.callTo_memWf h
  | .ret _ => issueEach_memWf h fun _ _ _ _ h => State.returnTo_memWf h
  | .join _ | .exit _ => issueEach_memWf h fun _ _ _ _ h => h
  | .step _ => issueEach_memWf h fun _ _ _ _ h => .ite trivial h
  | .waitv _ => issueEach_memWf h fun _ _ _ _ h => State.waitValue_memWf h
  | .trap _ => issueEach_memWf h fun _ _ _ _ _ => trivial
  | .bkpt _ => issueEach_memWf h fun _ _ _ _ h => .ite trivial h
  | .contv _ | .svc _ => issueEach_memWf h fun _ _ _ _ h => .ite trivial h
  | .resume _ => execResume_memWf h
  | .st _ | .stq _ => issueEach_memWf h fun _ _ _ _ h => State.store_memWf h
  | .fwr _ => execFwr_memWf h
  | .cwr _ => execCwr_memWf h
  | .sgset _ => execSgset_memWf h
  | .pref _ | .evict _ => issueEach_memWf h fun _ _ _ _ h => State.hint_memWf h
  | .satom _ => execSatom_memWf h
  | .cpy _ => execCpy_memWf h
  | .cpyt _ => execCpyt_memWf h
  | .cpym _ => execCpym_memWf h
  | .cpyg _ => execCpyg_memWf h
  | .lcsetArm _ | .lcsetUnbind _ => issueEach_memWf h fun _ _ _ _ h => h
  | .lcsetBind _ => execLcsetBind_memWf h
  | .rbindBind _ => execRbindBind_memWf h
  | .rbindFree _ => issueEach_memWf h fun _ _ _ _ h => .ite h trivial
  | .rrel _ => issueEach_memWf h fun _ _ _ _ h => .ite trivial (.ite trivial h)
  | .rput _ => execRput_memWf h
  | .send _ => execSend_memWf h
  | .talloc _ => execTalloc_memWf h
  | .tfree _ => execTfree_memWf h
  | .tgive _ => execTgive_memWf h
  | .ttake _ => execTtake_memWf h
  | .tld _ => execTld_memWf h
  | .tst _ => execTst_memWf h
  | .tget _ => execTget_memWf h
  | .tset _ => execTset_memWf h
  | .tqry _ => issueEach_memWf h fun _ _ _ _ h => .deferShared h
  | .tzf _ => execTzf_memWf h
  | .wld _ => execWld_memWf h
  | .mma _ => execMma_memWf h
  | .mtaskq _ => execMtaskq_memWf h
  | .balloc _ => execBalloc_memWf h
  | .bfree _ => execBfree_memWf h
  | .binit _ => execBinit_memWf h
  | .rslv _ => execRslv_memWf h
  | .bcmp _ | .bmov _ => issueLaneRecord_memWf h
  | .bsave _ | .brst _ => issueOnce_memWf h fun _ _ _ _ h => .of (State.rowsRecord_memWf h)
  | .bscale _ => execBscale_memWf h
  | .sopen _ => execSopen_memWf h
  | .sisect _ | .smerge _ | .sclose _ => issueEach_memWf h fun _ _ _ _ h => .joinInst h
  | .scount _ => issueEach_memWf h fun _ _ _ s h => State.MemWf.joinInst (s := s.defer _ _ _) h
  | .nzscan _ => execNzscan_memWf h
  | .sgath _ => execSgath_memWf h
  | .sstat _ => issueEach_memWf h fun _ _ _ _ h => h
  | .xput _ => execXput_memWf h
  | .xget _ => execXget_memWf h
  | .xfwr _ => execXfwr_memWf h
  | .xallg _ | .xred _ | .xbcst _ => issueCollective_memWf h
  | .spawn _ => execSpawn_memWf h
  | .launch _ => execLaunch_memWf h
  | .yield _ => issueEach_memWf h fun _ _ _ _ h => h
  | .role _ | .prio _ => issueEach_memWf h fun _ _ _ _ h => .ite trivial h
  | .xacq _ => execXacq_memWf h
  | .xrel _ => execXrel_memWf h
  | .srget _ => execSrget_memWf h
  | .srset _ => execSrset_memWf h
  | .stepBoundaryComplete _ _ => execStepBoundaryComplete_memWf h
  | .deferredResultReturn _ _ _ => execDeferredResultReturn_memWf h
  | .widerStepRelease _ => execWiderStepRelease_memWf h
  | .waitvPeriodicEvaluation _ _ => execWaitvPeriodicEvaluation_memWf h
  | .racqPeriodicCheck _ _ => execRacqPeriodicCheck_memWf h
  | .ttakePeriodicCheck _ _ => execTtakePeriodicCheck_memWf h
  | .laneSyncFault _ _ => execLaneSyncFault_memWf h
  | .xacqGrant _ => execXacqGrant_memWf h
  | .tallocGrant _ => execTallocGrant_memWf h
  | .ballocGrant _ => execBallocGrant_memWf h
  | .instructionCacheFill _ _ _ => execInstructionCacheFill_memWf h
  | .laneTestComplete _ _ _ => execLaneTestComplete_memWf h
  | .atomicopComplete _ _ _ => execAtomicopComplete_memWf h
  | .gafferRequest _ => execGafferRequest_memWf h
  | .gafferTimeout _ => execGafferTimeout_memWf h
  | .prepareAcknowledge _ _ _ => execPrepareAcknowledge_memWf h
  | .faultBufferEntry _ => execFaultBufferEntry_memWf h
  | .translationFillComplete _ _ _ => execTranslationFillComplete_memWf h
  | .fillFailure _ _ _ => execFillFailure_memWf h
  | .mappingChange _ _ _ _ _ => execMappingChange_memWf h
  | .migrationStart _ _ => execMigrationStart_memWf h
  | .migrationComplete _ _ _ => execMigrationComplete_memWf h
  | .pageAllocate _ _ => execPageAllocate_memWf h
  | .zeroPendingClear _ => execZeroPendingClear_memWf h
  | .hostWrite _ _ _ => execHostWrite_memWf h
  | .hostAtomicop _ _ _ _ _ => execHostAtomicop_memWf h
  | .queueTailWrite q n => show NextMemWf (execQueueTailWrite q n s) from State.register_memWf h h
  | .queueOpenSet q => show NextMemWf (execQueueOpenSet q s) from State.register_memWf h h
  | .queueOpenClear q => show NextMemWf (execQueueOpenClear q s) from State.register_memWf h h
  | .queueConfigWrite q w => show NextMemWf (execQueueConfigWrite q w s) from State.register_memWf h h
  | .wbaseWrite w => show NextMemWf (execWbaseWrite w s) from State.register_memWf h h
  | .irqenWrite w => show NextMemWf (execIrqenWrite w s) from State.register_memWf h h
  | .registerWrite _ _ => execRegisterWrite_memWf h
  | .mbAbortLaunch _ _ _ => execMbAbortLaunch_memWf h
  | .mbResumeGroup _ _ => execMbResumeGroup_memWf h
  | .mbAbortGroup _ _ => execMbAbortGroup_memWf h
  | .mbPreemptGroup _ _ _ => execMbPreemptGroup_memWf h
  | .mbEnlargeOverflow _ _ _ => execMbEnlargeOverflow_memWf h
  | .mbLoadFirmware _ _ _ => execMbLoadFirmware_memWf h
  | .mbApplyTest _ _ _ => execMbApplyTest_memWf h
  | .mbUnknownCommand _ _ => execMbUnknownCommand_memWf h
  | .recordTake _ => execRecordTake_memWf h
  | .batchHandout _ => execBatchHandout_memWf h
  | .groupPlace _ => execGroupPlace_memWf h
  | .gangReserve _ => execGangReserve_memWf h
  | .coreReadyReply _ => execCoreReadyReply_memWf h
  | .gangConfirm _ => execGangConfirm_memWf h
  | .gangReservationRelease _ => execGangReservationRelease_memWf h
  | .gangReservationTimeout _ => execGangReservationTimeout_memWf h
  | .gangBackoffExpiry _ => execGangBackoffExpiry_memWf h
  | .podGangReport _ _ => execPodGangReport_memWf h
  | .podGangTimeout _ => execPodGangTimeout_memWf h
  | .podModuleUnreachable _ => execPodModuleUnreachable_memWf h
  | .launchRetire _ => execLaunchRetire_memWf h
  | .preemption _ => execPreemption_memWf h
  | .preemptionTimeout _ => execPreemptionTimeout_memWf h
  | .eviction _ => execEviction_memWf h
  | .vtimeThreshold _ _ => execVtimeThreshold_memWf h
  | .lateDelivery _ => execLateDelivery_memWf h
  | .packetAgeTick _ => execPacketAgeTick_memWf h
  | .copyRequestBegin _ => execCopyRequestBegin_memWf h
  | .copyPieceComplete _ _ => execCopyPieceComplete_memWf h
  | .ringSlotAssign _ => execRingSlotAssign_memWf h
  | .sendArrival _ => execSendArrival_memWf h
  | .multicastDelivery _ _ => execMulticastDelivery_memWf h
  | .streamOperationBegin _ => execStreamOperationBegin_memWf h
  | .streamSlotClose _ => execStreamSlotClose_memWf h
  | .streamOperationEnd _ => execStreamOperationEnd_memWf h
  | .taskQueueEnter _ => execTaskQueueEnter_memWf h
  | .mtaskqArrayRead _ => execMtaskqArrayRead_memWf h
  | .matrixRecordStart _ => execMatrixRecordStart_memWf h
  | .matrixRecordComplete _ => execMatrixRecordComplete_memWf h
  | .recordWaitTimeout _ => execRecordWaitTimeout_memWf h
  | .remoteSettle _ _ _ => execRemoteSettle_memWf h
  | .peerAckTimeout _ => execPeerAckTimeout_memWf h
  | .collectiveComplete _ _ _ => execCollectiveComplete_memWf h
  | .ualinkPortDown _ => execUalinkPortDown_memWf h
  | .quadTestComplete _ => execQuadTestComplete_memWf h
  | .powerOnReset | .powerRemoval => State.memWf_reset
  | .bringUpStageComplete _ _ => execBringUpStageComplete_memWf h
  | .thermalTrip | .powerCap | .correctableError => h
  | .thermalThrottle => .ite h trivial
  | .peerTransactionArrival _ => execPeerTransactionArrival_memWf h
  | .uncorrectableError _ => .ite trivial h

theorem andThen_memWf {o f} (ho : NextMemWf o) (hf : ∀ s, s.MemWf → (f s).MemWf) : NextMemWf (andThen o f) := by
  cases o with
  | next s => exact hf s ho
  | fault e => trivial
  | refused e => trivial

theorem State.MemWf.endCycle {core} (h : s.MemWf) : (s.endCycle core).MemWf := .foldl (.modCore h) fun _ _ h => .trySave h

theorem State.MemWf.stopMember {r x u} (h : s.MemWf) : (s.stopMember r x u).MemWf := by
  unfold State.stopMember
  split
  · exact .ite h (.ite (.timerTrap h) (.stopAt h))
  · exact h

theorem State.MemWf.fallFrom {r} (h : s.MemWf) : (s.fallFrom r).MemWf := by
  unfold State.fallFrom
  split <;> exact h

theorem State.issueFrom_memWf {core ms} (h : s.MemWf) : NextMemWf (s.issueFrom core ms) := by
  unfold State.issueFrom
  split
  · exact .ite (State.MemWf.endCycle h) trivial
  · split
    · trivial
    · dsimp only
      split
      · exact State.MemWf.endCycle (.foldl h fun _ _ h => .stopMember h)
      · exact State.MemWf.endCycle (.foldl h fun _ _ h => .fallFrom h)
      · split
        · exact andThen_memWf (exec_memWf _ h) fun _ h => .endCycle h
        · trivial
      · trivial

theorem State.issueStep_memWf {core} (h : s.MemWf) : NextMemWf (s.issueStep core) := by
  have hb := h.buildIssue (core := core)
  unfold State.issueStep
  generalize s.buildIssue core = built at hb ⊢
  obtain ⟨s', ms⟩ := built
  exact State.issueFrom_memWf hb

theorem State.breakLane_memWf {core lane wrong} (h : s.MemWf) : NextMemWf (s.breakLane core lane wrong) := .ite trivial h

theorem State.upsetElem_memWf {basin key bit} (h : s.MemWf) : NextMemWf (s.upsetElem basin key bit) := by
  unfold State.upsetElem
  split
  · trivial
  · exact .ite trivial h

theorem State.enterRecords_memWf {q} (h : s.MemWf) : NextMemWf (s.enterRecords q) := .ite (State.MemWf.drainQueue h) trivial

theorem State.perform_memWf (c : Choice) (h : s.MemWf) : NextMemWf (s.perform c) := by
  unfold State.perform
  split
  · exact State.issueStep_memWf h
  · exact State.fallThrough_memWf h
  · exact State.breakLane_memWf h
  · exact State.upsetElem_memWf h
  · exact atomicFault_memWf h
  · exact splitPiece_memWf h
  · exact readAhead_memWf h
  · exact fillAhead_memWf h
  · exact streamAdvance_memWf h
  · exact State.enterRecords_memWf h
  · exact matrixUnit_memWf h
  · exact podArrival_memWf h
  · exact registerRead_memWf h
  · exact dwordWrite_memWf h
  · exact hostRead_memWf h
  · exact resizeBar_memWf h
  · exact moduleNumber_memWf h
  · exact portGrant_memWf h
  · exact packetDelivery_memWf h
  · exact .ite trivial (exec_memWf _ h)

theorem State.firstEnabled_memWf {cs} (h : s.MemWf) : NextMemWf (s.firstEnabled cs) := by
  induction cs with
  | nil => trivial
  | cons c cs ih =>
    unfold State.firstEnabled
    split
    · exact ih
    · exact State.perform_memWf c h

theorem State.MemWf.tick (h : s.MemWf) : s.tick.MemWf := h

theorem step_memWf (h : s.MemWf) : NextMemWf (step s) := by
  unfold step State.advanceOne
  split
  next c rest _ =>
    have ha : ({ s with agenda := rest } : State).MemWf := h
    exact State.perform_memWf c ha.tick
  · exact State.firstEnabled_memWf h.tick

/-- Settles O52: every choice that a step performs keeps the form, whether it issues instructions or is an event. -/
theorem stepKeepsMemory : Obligations.StepKeepsMemory := by
  intro s s' h e
  have hn : NextMemWf (step s) := step_memWf h
  rw [e] at hn
  exact hn

end Sys2Proof.Machine
end

section
/-!
Reads after writes: a table is known by what it reads as, and a byte, a register and a predicate read as what was last written.
-/
namespace Sys2Proof

/-- Below the keys of a table every key reads as the default. -/
theorem Table.get_of_above {d : α} {t : Table α} {j k : Nat} (h : Table.above j t = true) (hk : k ≤ j) : t.get d k = d := by
  induction t with
  | nil => rfl
  | cons p t ih =>
    obtain ⟨i, v⟩ := p
    simp only [Table.above, List.all_cons, Bool.and_eq_true, decide_eq_true_eq] at h
    rw [Table.get, if_neg (by omega)]
    exact ih h.2

theorem Table.wf_cons [DecidableEq α] {d : α} {j : Nat} {v : α} {t : Table α} :
    Table.wf d ((j, v) :: t) = true ↔ v ≠ d ∧ Table.above j t = true ∧ t.wf d = true := by
  simp only [Table.wf, Table.sorted, List.all_cons, Bool.and_eq_true, decide_eq_true_eq]
  tauto

theorem Table.get_cons_self {d : α} {j : Nat} {v : α} {t : Table α} : Table.get d ((j, v) :: t) j = v := by
  simp [Table.get]

/-- Two tables in canonical form that read the same are the same. -/
theorem Table.ext_get [DecidableEq α] {d : α} {t u : Table α} (ht : t.wf d = true) (hu : u.wf d = true)
    (h : ∀ k, t.get d k = u.get d k) : t = u := by
  induction t generalizing u with
  | nil =>
    cases u with
    | nil => rfl
    | cons q u => exact absurd ((h q.1).trans Table.get_cons_self).symm (Table.wf_cons.mp hu).1
  | cons p t ih =>
    obtain ⟨i, v⟩ := p
    obtain ⟨hv, hit, ht⟩ := Table.wf_cons.mp ht
    cases u with
    | nil => exact absurd (Table.get_cons_self.symm.trans (h i)) hv
    | cons q u =>
      obtain ⟨j, w⟩ := q
      obtain ⟨hw, hju, hu'⟩ := Table.wf_cons.mp hu
      obtain hlt | rfl | hgt := Nat.lt_trichotomy i j
      · have hi : Table.get d ((j, w) :: u) i = d := by
          rw [Table.get, if_neg (by omega), Table.get_of_above hju (by omega)]
        exact absurd (Table.get_cons_self.symm.trans ((h i).trans hi)) hv
      · have hvw : v = w := by simpa [Table.get] using h i
        have htail : ∀ k, Table.get d t k = Table.get d u k := fun k => by
          by_cases hk : i = k
          · rw [Table.get_of_above hit (by omega), Table.get_of_above hju (by omega)]
          · simpa [Table.get, hk] using h k
        rw [hvw, ih ht hu' htail]
      · have hj : Table.get d ((i, v) :: t) j = d := by
          rw [Table.get, if_neg (by omega), Table.get_of_above hit (by omega)]
        exact absurd (Table.get_cons_self.symm.trans ((h j).symm.trans hj)) hw

namespace Machine

/-- Two memories in canonical form that read the same are the same. -/
theorem Memory.ext_read {m n : Memory} (hm : m.wf = true) (hn : n.wf = true) (h : ∀ k, m.read k = n.read k) : m = n :=
  Table.ext_get hm hn h

theorem Memory.write_read_self {m : Memory} (k : Nat) (h : m.wf = true) : m.write k (m.read k) = m := by
  refine Memory.ext_read (Memory.wf_write _ _ h) h fun j => ?_
  by_cases hj : j = k
  · rw [hj, Memory.read_write_self]
  · exact Memory.read_write_ne _ _ hj

theorem State.readByte_of_lt {s : State} {k : Nat} (hk : k < 2 ^ 60) : s.readByte k = s.mem.read k :=
  if_neg (by simpa [isPeerKey] using hk)

theorem State.writeByte_mem_of_lt {s : State} {k : Nat} {b : Byte} (hk : k < 2 ^ 60) :
    (s.writeByte k b).mem = s.mem.write k b := by
  have hp : ¬ isPeerKey k = true := by simpa [isPeerKey] using hk
  rw [State.writeByte, if_neg hp]

/-- Bytes written at distinct keys of this module are what reads of those keys find. -/
theorem State.map_read_writeBytes {s : State} {ks : List Nat} {bs : List Byte} (hd : ks.Nodup) (hk : ∀ k ∈ ks, k < 2 ^ 60)
    (hl : ks.length = bs.length) : ks.map (s.writeBytes ks bs).mem.read = bs := by
  induction ks generalizing s bs with
  | nil => exact (List.length_eq_zero_iff.mp hl.symm).symm
  | cons k ks ih =>
    cases bs with
    | nil => cases hl
    | cons b bs =>
      obtain ⟨hnot, hd⟩ := List.nodup_cons.mp hd
      rw [List.map_cons, State.writeBytes, ih hd (fun j hj => hk j (List.mem_cons_of_mem _ hj)) (Nat.succ.inj hl),
        State.writeBytes_read_ne _ _ _ hnot, State.writeByte_mem_of_lt (hk k List.mem_cons_self), Memory.read_write_self]

theorem State.readBytes_writeBytes {s : State} {ks : List Nat} {bs : List Byte} (hd : ks.Nodup) (hk : ∀ k ∈ ks, k < 2 ^ 60)
    (hl : ks.length = bs.length) : (s.writeBytes ks bs).readBytes ks = bs :=
  (List.map_congr_left fun k h => State.readByte_of_lt (hk k h)).trans (State.map_read_writeBytes hd hk hl)

/-! ## Registers and predicates -/

section
variable {t : Thread} {f : Fields} {c : BitVec 8}

theorem Thread.writeD_of_le {w : Word} (h : c.toNat ≤ 191) : t.writeD c w = t.setReg c.toNat w := if_pos h

theorem Thread.writeD_of_gt {w : Word} (h : 191 < c.toNat) : t.writeD c w = t := if_neg (by omega)

theorem Thread.src_of_le (h : c.toNat ≤ 191) : t.src f c = t.reg c.toNat := if_pos h

theorem Thread.reg_writeD_ne {w : Word} {k : Nat} (h : k ≠ c.toNat) : (t.writeD c w).reg k = t.reg k := by
  unfold Thread.writeD
  split
  · exact Thread.reg_setReg_ne _ _ h
  · rfl

theorem Thread.writePair_of_le {p : DWord} (h : c.toNat ≤ 190) :
    t.writePair c p = (t.setReg c.toNat (p.setWidth 32)).setReg (c.toNat + 1) ((p >>> 32).setWidth 32) := if_pos h

theorem Thread.writePair_of_gt {p : DWord} (h : 190 < c.toNat) : t.writePair c p = t := if_neg (by omega)

theorem Thread.reg_writePair_ne {p : DWord} {k : Nat} (h : k ≠ c.toNat) (h1 : k ≠ c.toNat + 1) :
    (t.writePair c p).reg k = t.reg k := by
  by_cases hc : c.toNat ≤ 190
  · rw [Thread.writePair_of_le hc, Thread.reg_setReg_ne _ _ h1, Thread.reg_setReg_ne _ _ h]
  · rw [Thread.writePair_of_gt (by omega)]

theorem Thread.pred_of_lt {n : Nat} (h : n < 7) : t.pred n = t.p.getLsbD n := if_neg (by omega)

/-- One predicate takes the value and the others keep theirs. -/
theorem Thread.getLsbD_setPred {n k : Nat} {b : Bool} (hn : n < 7) (hk : k < 7) :
    (t.setPred n b).p.getLsbD k = if k = n then b else t.p.getLsbD k := by
  have mask : (BitVec.ofNat 7 (2 ^ n)).getLsbD k = decide (n = k) := by
    simp only [BitVec.getLsbD_ofNat, Nat.testBit_two_pow, hk, decide_true, Bool.true_and]
  rw [Thread.setPred, if_pos hn]
  by_cases h : k = n
  · subst h
    cases b <;> simp only [mask, if_true, if_false, BitVec.getLsbD_or, BitVec.getLsbD_and, BitVec.getLsbD_not, decide_true,
      Bool.or_true, Bool.not_true, Bool.and_false, Bool.false_eq_true]
  · have hne : decide (n = k) = false := decide_eq_false (Ne.symm h)
    cases b <;> simp only [mask, hne, hk, h, if_true, if_false, BitVec.getLsbD_or, BitVec.getLsbD_and, BitVec.getLsbD_not,
      decide_true, Bool.or_false, Bool.not_false, Bool.and_true, Bool.false_eq_true]

theorem Thread.pred_setPred_self {n : Nat} {b : Bool} (hn : n < 7) : (t.setPred n b).pred n = b := by
  rw [Thread.pred_of_lt hn, Thread.getLsbD_setPred hn hn, if_pos rfl]

theorem Thread.pred_setPred_ne {n k : Nat} {b : Bool} (h : k ≠ n) : (t.setPred n b).pred k = t.pred k := by
  by_cases hn : n < 7
  · obtain hk | rfl | hk := Nat.lt_trichotomy k 7
    · rw [Thread.pred_of_lt hk, Thread.getLsbD_setPred hn hk, if_neg h, Thread.pred_of_lt hk]
    · rfl
    · have high : ∀ u : Thread, u.pred k = false := fun u => by
        rw [Thread.pred, if_neg (by omega), BitVec.getLsbD_of_ge _ _ (by omega)]
      rw [high, high]
  · rw [Thread.setPred, if_neg hn]

end

/-- Settles O56, from the laws of tables and the extensionality of their canonical form. -/
theorem readAfterWrite : Obligations.ReadAfterWrite := by
  refine ⟨fun m k b hm => ⟨Memory.wf_write k b hm, Memory.read_write_self m k b, fun j hj => Memory.read_write_ne m b hj, ?_⟩,
    fun m n => Memory.ext_read, fun s ks bs hd hk hl => ⟨State.readBytes_writeBytes hd hk hl, fun j => State.writeBytes_read_ne s ks bs⟩,
    fun t f c w p b => ⟨?_, Thread.writeD_of_gt, fun k => Thread.reg_writeD_ne, ?_, fun k => Thread.reg_writePair_ne, ?_, ?_, ?_, ?_, ?_, ?_⟩⟩
  · rintro rfl
    exact Memory.write_read_self k hm
  · intro h
    rw [Thread.src_of_le h, Thread.writeD_of_le h, Thread.reg_setReg_self]
  · intro h
    rw [Thread.srcHi, Thread.writePair_of_le h]
    exact ⟨by rw [Thread.reg_setReg_ne _ _ (by omega), Thread.reg_setReg_self], Thread.reg_setReg_self _ _ _⟩
  · exact Thread.writePair_of_gt (by decide)
  · exact fun h192 h198 => Thread.pred_setPred_self (by omega)
  · exact fun k _ _ => Thread.pred_setPred_ne
  · exact Thread.pred_seven _
  · rfl
  · rfl

end Machine
end Sys2Proof
end

section
/-!
What the requests of the host make of the state (R38, R262, R403-R406, R427): the runs of bytes that they reach, the registers by
their offsets, and each request by whether the module serves it.
-/
namespace Sys2Proof.Machine

/-! ## Runs of physical bytes -/

section
variable {s : State} {a n k : Nat}

theorem mem_physKeys : k ∈ physKeys a n ↔ a ≤ k ∧ k < a + n := by
  simp only [physKeys, List.mem_map, List.mem_range]
  constructor
  · rintro ⟨i, hi, rfl⟩
    omega
  · rintro ⟨ha, hn⟩
    exact ⟨k - a, by omega, by omega⟩

theorem nodup_physKeys : (physKeys a n).Nodup := List.nodup_range.map fun _ _ => Nat.add_left_cancel

@[simp] theorem length_physKeys : (physKeys a n).length = n := by rw [physKeys, List.length_map, List.length_range]

theorem any_prepared_physKeys : (physKeys a n).any s.prepared = true ↔ ∃ i, i < n ∧ s.prepared (a + i) = true := by
  simp only [physKeys, List.any_map, List.any_eq_true, List.mem_range, Function.comp]

theorem State.hostReaches_iff : s.hostReaches a n = true ↔
    ∀ i < n, (isDeviceMemory (a + i) = true ∨ isHostMemory (a + i) = true) ∧ s.unitReady (a + i) = true := by
  simp only [State.hostReaches, physKeys, List.all_map, List.all_eq_true, List.mem_range, Function.comp, Bool.and_eq_true,
    Bool.or_eq_true]

/-- Memory of R243 lies below the keys of peer modules. -/
theorem lt_peer_of_memory (h : isDeviceMemory k = true ∨ isHostMemory k = true) : k < 2 ^ 60 := by
  simp only [isDeviceMemory, isHostMemory, Bool.or_eq_true, Bool.and_eq_true, decide_eq_true_eq] at h
  omega

theorem State.lt_peer_of_hostReaches (h : s.hostReaches a n = true) (hk : k ∈ physKeys a n) : k < 2 ^ 60 := by
  obtain ⟨ha, hn⟩ := mem_physKeys.mp hk
  have hm := (State.hostReaches_iff.mp h (k - a) (by omega)).1
  rw [Nat.add_sub_cancel' ha] at hm
  exact lt_peer_of_memory hm

theorem State.read_writePhys {bs : List Byte} (hk : ∀ k ∈ physKeys a bs.length, k < 2 ^ 60) (i : Nat) (hi : i < bs.length) :
    (s.writePhys a bs).mem.read (a + i) = bs[i] := by
  have all := State.map_read_writeBytes (s := s) nodup_physKeys hk length_physKeys
  have one := congrArg (·[i]?) all
  simpa [physKeys, hi, State.writePhys] using one

theorem State.read_writePhys_outside {bs : List Byte} (h : k < a ∨ a + bs.length ≤ k) :
    (s.writePhys a bs).mem.read k = s.mem.read k :=
  State.writeBytes_read_ne _ _ _ fun hk => by have := mem_physKeys.mp hk; omega

theorem State.writePhys_groups {bs : List Byte} : (s.writePhys a bs).groups = s.groups := by
  obtain ⟨m, p, h⟩ := State.writeBytes_rest s (physKeys a bs.length) bs
  rw [State.writePhys, h]

theorem State.poisoned_eq_false {ks : List Nat} (h : ∀ k ∈ ks, s.poisoned [k] = false) : s.poisoned ks = false := by
  simp only [State.poisoned, List.any_cons, List.any_nil, Bool.or_false] at h
  exact List.any_eq_false.mpr fun k hk => Bool.eq_false_iff.mp (h k hk)

end

/-! ## BAR2 -/

/-- What an AtomicOp of the host leaves (R262). -/
def hostAtomicResult (op : AtomicOp) (old x y : Word) : Word :=
  match op with
  | .fetchAdd => old + x
  | .swap => x
  | .cas => if old = x then y else old

section
variable {s : State} {link : Bool} {off len : Nat} {bs : List Byte} {op : AtomicOp} {x y : Word}

theorem execHostWrite_down (hl : s.linkUp link = false) : execHostWrite link off bs s = .refused .notEnabled := by
  simp only [execHostWrite, hl, Bool.not_false, Bool.true_or, if_true]

theorem execHostWrite_unserved (hl : s.linkUp link = true) (hb : off + bs.length ≤ s.bar2Size)
    (h : s.ready.safe = true ∨ ¬ s.hostReaches (s.fw.wbase.toNat + off) bs.length = true) :
    execHostWrite link off bs s = .next (s.completeHost .unsupported none false) := by
  have hb : decide (s.bar2Size < off + bs.length) = false := decide_eq_false (by omega)
  have hu : (s.ready.safe || !s.hostReaches (s.fw.wbase.toNat + off) bs.length) = true := by
    rwa [Bool.or_eq_true, Bool.not_eq_true', ← Bool.not_eq_true]
  simp only [execHostWrite, hl, hb, hu, Bool.not_true, Bool.or_false, Bool.false_eq_true, if_false, if_true]

theorem execHostWrite_served (hl : s.linkUp link = true) (hb : off + bs.length ≤ s.bar2Size) (hs : s.ready.safe = false)
    (h : s.hostReaches (s.fw.wbase.toNat + off) bs.length = true) :
    execHostWrite link off bs s = .next ((s.writePhys (s.fw.wbase.toNat + off) bs).completeHost .success none false) := by
  have hb : decide (s.bar2Size < off + bs.length) = false := decide_eq_false (by omega)
  simp only [execHostWrite, hl, hb, hs, h, Bool.not_true, Bool.or_false, Bool.false_eq_true, if_false]

theorem hostRead_up (hl : s.linkUp link = true) (hb : off + len ≤ s.bar2Size) (hs : s.ready.safe = false) :
    hostRead link off len s =
      let keys := physKeys (s.fw.wbase.toNat + off) len
      if s.hostReaches (s.fw.wbase.toNat + off) len = false then .next (s.completeHost .unsupported none false)
      else if keys.any s.prepared then .refused .notEnabled
      else .next (s.completeHost .success
        (some (keys.map fun k => if s.poisoned [k] then (s.word (2 ^ 72 + k)).setWidth 8 else s.readByte k)) (s.poisoned keys)) := by
  have hb : decide (s.bar2Size < off + len) = false := decide_eq_false (by omega)
  simp only [hostRead, hl, hb, hs, Bool.not_true, Bool.or_false, Bool.false_or, Bool.false_eq_true, if_false, Bool.not_eq_true']

/-- The bytes of lines that no poison marks are what memory reads as. -/
theorem State.map_hostByte {ks : List Nat} (h : ∀ k ∈ ks, s.poisoned [k] = false) :
    (ks.map fun k => if s.poisoned [k] then (s.word (2 ^ 72 + k)).setWidth 8 else s.readByte k) = ks.map s.readByte :=
  List.map_congr_left fun k hk => by rw [h k hk]; rfl

/-- Whether the module serves an AtomicOp of the host: not in the safe state, and only at an aligned place that it reaches. -/
def State.servesAtomic (s : State) (phys : Nat) : Prop := s.ready.safe = false ∧ s.hostReaches phys 4 = true ∧ phys % 4 = 0

section
variable (hl : s.linkUp link = true) (hb : off + 4 ≤ s.bar2Size)
include hl hb

theorem execHostAtomicop_unserved (h : ¬ s.servesAtomic (s.fw.wbase.toNat + off)) :
    execHostAtomicop link off op x y s = .next (s.completeHost .unsupported none false) := by
  have hb : decide (s.bar2Size < off + 4) = false := decide_eq_false (by omega)
  have hu : (s.ready.safe || !s.hostReaches (s.fw.wbase.toNat + off) 4 || (s.fw.wbase.toNat + off) % 4 != 0) = true := by
    simp only [State.servesAtomic, not_and_or, Bool.not_eq_false, Bool.not_eq_true] at h
    simpa only [Bool.or_eq_true, Bool.not_eq_true', bne_iff_ne, or_assoc] using h
  simp only [execHostAtomicop, hl, hb, hu, Bool.not_true, Bool.or_false, Bool.false_eq_true, if_false, if_true]

theorem execHostAtomicop_served (h : s.servesAtomic (s.fw.wbase.toNat + off)) : execHostAtomicop link off op x y s =
    let phys := s.fw.wbase.toNat + off
    let old : Word := BitVec.ofNat 32 (s.readPhys phys 4)
    if s.onSystemPage phys = false then .next (s.completeHost .aborted none false)
    else if (physKeys phys 4).any s.prepared then .refused .notEnabled
    else .next ((s.writePhys phys (bytesOf 4 (hostAtomicResult op old x y).toNat)).completeHost .success
      (some (bytesOf 4 old.toNat)) false) := by
  have hb : decide (s.bar2Size < off + 4) = false := decide_eq_false (by omega)
  obtain ⟨hs, hr, h4⟩ := h
  cases op <;> simp only [execHostAtomicop, hl, hb, hs, hr, h4, bne_self_eq_false, Bool.not_true, Bool.or_false,
    Bool.not_eq_true', Bool.false_eq_true, if_false, atomicResult, hostAtomicResult]

end

end

/-! ## Registers of BAR0 -/

section
variable {s s' : State} {o : Nat} {w : DWord}

theorem State.register_eq {upd : State → State} : s.register upd =
    if s.ready.reached then .next (if s.ready.safe then s else upd s) else .refused .notEnabled := by
  unfold State.register
  cases s.ready.reached <;> cases s.ready.safe <;> rfl

theorem State.hostWrites_of_reached (h : s.ready.reached = true) : s.hostWrites false s' = .next s' := by
  simp only [State.hostWrites, h, Bool.not_true, Bool.or_false, Bool.false_eq_true, if_false]

/-- A write of the word of a register that an event of its own writes as well is that event. -/
theorem State.hostWrites_eq_register {upd : State → State} (h : s' = if s.ready.safe then s else upd s) :
    s.hostWrites false s' = s.register upd := by
  rw [State.register_eq, State.hostWrites, h]
  cases s.ready.reached <;> rfl

theorem Queue.configure_eq {k : Queue} : k.configure w =
    Queue.setOpen (if k.opened = false ∧ k.next = k.head then
      { k with base := (w.extractLsb' 12 52).toNat / 128 * 128, log2n := (w.extractLsb' 8 4).toNat, dev := w.getLsbD 6,
               checked := none }
      else k) (w.getLsbD 7) := by
  simp only [Queue.configure, Queue.drained, Bool.and_eq_true, Bool.not_eq_true', beq_iff_eq]

/-! ### A word by its offset -/

theorem inRequest_iff : inRequest o = true ↔ 0x4100 ≤ o ∧ o < 0x4200 := by
  simp only [inRequest, Bool.and_eq_true, decide_eq_true_eq]

theorem inRequest_eq_false (h : o < 0x4100 ∨ 0x4200 ≤ o) : inRequest o = false :=
  Bool.eq_false_iff.mpr fun hr => by have := inRequest_iff.mp hr; omega

theorem writable_iff : writable o = true ↔ 0x30 ≤ o ∧ o < 0x38 ∨ 0x40 ≤ o ∧ o < 0x48 ∨ (0x1000 ≤ o ∧ o < 0x1400) ∧ o % 16 ≠ 4 ∨
    0x4000 ≤ o ∧ o < 0x4004 ∨ 0x4100 ≤ o ∧ o < 0x4200 ∨ 0x8000 ≤ o ∧ o < 0x8410 := by
  simp only [writable, Bool.or_eq_true, Bool.and_eq_true, decide_eq_true_eq, bne_iff_ne, or_assoc]

theorem State.storedWord_outside (h : o < 0x4100 ∨ 0x4200 ≤ o) : s.storedWord o = s.registerWord o := by
  rw [State.storedWord, inRequest_eq_false h]
  rfl

theorem State.registerWord_unlisted (h : 0x48 ≤ o) (h' : o < 0x1000) : s.registerWord o = 0 := by
  unfold State.registerWord
  repeat rw [if_neg (by omega)]

theorem State.registerWord_vector (h : 0x8000 ≤ o) (h' : o < 0x8410) :
    s.registerWord o = s.fw.vectors[(o - 0x8000) / 8]?.getD 0 := by
  unfold State.registerWord
  iterate 12 rw [if_neg (by omega)]
  rw [if_pos ⟨h, h'⟩]

theorem State.writeWord_request (h : inRequest o = true) : s.writeWord o w = { s with fw := { s.fw with
    reqBuf := (s.fw.reqBuf ++ List.replicate (32 - s.fw.reqBuf.length) 0).set ((o - 0x4100) / 8) w } } := if_pos h

theorem State.writeWord_safe (h : inRequest o = false) (hs : s.ready.safe = true) : s.writeWord o w = s := by
  simp only [State.writeWord, h, hs, Bool.false_eq_true, if_false, if_true]

theorem State.writeWord_wbase : s.writeWord 0x30 w = if s.ready.safe then s else s.setWbase w := by
  rw [State.writeWord, inRequest_eq_false (by decide)]
  rfl

theorem State.writeWord_irqen : s.writeWord 0x40 w = if s.ready.safe then s else s.setIrqen w := by
  rw [State.writeWord, inRequest_eq_false (by decide)]
  rfl

theorem State.writeWord_tail {q : Nat} (hq : q < 64) : s.writeWord (0x1000 + 16 * q) w =
    if s.ready.safe then s else s.modQueue q fun k => { k with tail := w.setWidth 32 } := by
  have hnum : (0x1000 + 16 * q - 0x1000) / 16 = q := by omega
  rw [State.writeWord, inRequest_eq_false (by omega), if_neg Bool.false_ne_true, if_neg (show ¬ 0x1000 + 16 * q = 0x30 by omega),
    if_neg (show ¬ 0x1000 + 16 * q = 0x40 by omega), if_pos (show 0x1000 ≤ 0x1000 + 16 * q ∧ _ by omega), hnum]
  simp only [if_pos (show (0x1000 + 16 * q) % 16 = 0 by omega)]

theorem State.writeWord_descriptor {q : Nat} (hq : q < 64) : s.writeWord (0x1008 + 16 * q) w =
    if s.ready.safe then s else s.modQueue q fun k => k.configure w := by
  have hnum : (0x1008 + 16 * q - 0x1000) / 16 = q := by omega
  rw [State.writeWord, inRequest_eq_false (by omega), if_neg Bool.false_ne_true, if_neg (show ¬ 0x1008 + 16 * q = 0x30 by omega),
    if_neg (show ¬ 0x1008 + 16 * q = 0x40 by omega), if_pos (show 0x1000 ≤ 0x1008 + 16 * q ∧ _ by omega), hnum]
  simp only [if_neg (show ¬ (0x1008 + 16 * q) % 16 = 0 by omega)]

theorem State.writeWord_vector (h : 0x8000 ≤ o) (h' : o < 0x8410) (hs : s.ready.safe = false) :
    s.writeWord o w = { s with fw := s.fw.writeVector ((o - 0x8000) / 8) w } := by
  rw [State.writeWord, inRequest_eq_false (by omega), hs]
  simp only [Bool.false_eq_true, if_false]
  rw [if_neg (by omega), if_neg (by omega), if_neg (by omega), if_pos ⟨h, h'⟩]

theorem State.writeWord_unlisted (h : ¬ (0x4100 ≤ o ∧ o < 0x4200)) (hw : o ≠ 0x30) (hi : o ≠ 0x40)
    (hq : ¬ (0x1000 ≤ o ∧ o < 0x1400)) (hv : ¬ (0x8000 ≤ o ∧ o < 0x8410)) : s.writeWord o w = s := by
  rw [State.writeWord, inRequest_eq_false (by omega), if_neg Bool.false_ne_true, if_neg hw, if_neg hi, if_neg hq, if_neg hv, ite_self]

/-! ### Writes of 8 and of 4 bytes -/

theorem State.writeHalf_low {x : Word} (h : o % 8 = 0) :
    s.writeHalf o x = s.writeWord o ((s.storedWord o).extractLsb' 32 32 ++ x) := by
  simp only [State.writeHalf, show o / 8 * 8 = o by omega, if_neg (show ¬ o % 8 = 4 by omega)]

theorem State.writeHalf_high {x : Word} (h : o % 8 = 0) :
    s.writeHalf (o + 4) x = s.writeWord o (x ++ (s.storedWord o).setWidth 32) := by
  simp only [State.writeHalf, show (o + 4) / 8 * 8 = o by omega, if_pos (show (o + 4) % 8 = 4 by omega)]

/-- Neither half of an 8-byte word that has no register of its own, nor a register that is read only, takes a write. -/
theorem State.writeHalf_unwritable {x : Word} (h4 : o % 4 = 0) (h : writable o = false) (h' : o % 8 = 4 → writable (o + 4) = false) :
    s.writeHalf o x = s := by
  have hn : ¬ writable o = true := by rw [h]; exact Bool.false_ne_true
  rw [writable_iff] at hn
  obtain h8 | h8 : o % 8 = 0 ∨ o % 8 = 4 := by omega
  · rw [State.writeHalf_low h8, State.writeWord_unlisted] <;> omega
  · have hn' : ¬ writable (o + 4) = true := by rw [h' h8]; exact Bool.false_ne_true
    rw [writable_iff] at hn'
    obtain ⟨p, rfl⟩ : ∃ p, o = p + 4 := ⟨o - 4, by omega⟩
    rw [State.writeHalf_high (by omega), State.writeWord_unlisted] <;> omega

theorem execRegisterWrite_word {o : BitVec 16} (h8 : o.toNat % 8 = 0) (hne : o.toNat ≠ 0x4000) :
    execRegisterWrite o w s = s.hostWrites false (s.writeWord o.toNat w) := by
  have hm : (o.toNat == 0x4000 || o.toNat == 0x3FFC) = false := by
    rw [Bool.or_eq_false_iff, beq_eq_false_iff_ne, beq_eq_false_iff_ne]
    omega
  simp only [execRegisterWrite, hm, h8, if_true]

/-- The word of a register that has an event of its own is written as that event writes it. -/
theorem execRegisterWrite_eq_register {o : BitVec 16} {a : Nat} {upd : State → State} (ho : o.toNat = a) (h8 : a % 8 = 0)
    (hne : a ≠ 0x4000) (h : s.writeWord a w = if s.ready.safe then s else upd s) : execRegisterWrite o w s = s.register upd := by
  subst ho
  exact (execRegisterWrite_word h8 hne).trans (State.hostWrites_eq_register h)

theorem execRegisterWrite_wbase {o : BitVec 16} (ho : o.toNat = 0x30) : execRegisterWrite o w s = execWbaseWrite w s :=
  execRegisterWrite_eq_register ho (by decide) (by decide) State.writeWord_wbase

theorem execRegisterWrite_irqen {o : BitVec 16} (ho : o.toNat = 0x40) : execRegisterWrite o w s = execIrqenWrite w s :=
  execRegisterWrite_eq_register ho (by decide) (by decide) State.writeWord_irqen

theorem execRegisterWrite_tail {o : BitVec 16} {q : BitVec 6} (ho : o.toNat = 0x1000 + 16 * q.toNat) :
    execRegisterWrite o w s = execQueueTailWrite q (w.setWidth 32) s :=
  execRegisterWrite_eq_register ho (by omega) (by omega) (State.writeWord_tail q.isLt)

theorem execRegisterWrite_descriptor {o : BitVec 16} {q : BitVec 6} (ho : o.toNat = 0x1008 + 16 * q.toNat) :
    execRegisterWrite o w s = execQueueConfigWrite q w s :=
  execRegisterWrite_eq_register ho (by omega) (by omega) (State.writeWord_descriptor q.isLt)

theorem execRegisterWrite_vector {o : BitVec 16} (hr : s.ready.reached = true) (hs : s.ready.safe = false) (h : 0x8000 ≤ o.toNat)
    (h' : o.toNat < 0x8410) (h8 : o.toNat % 8 = 0) :
    execRegisterWrite o w s = .next { s with fw := s.fw.writeVector ((o.toNat - 0x8000) / 8) w } := by
  rw [execRegisterWrite_word h8 (by omega), State.hostWrites_of_reached hr, State.writeWord_vector h h' hs]

/-- In the safe state only the request buffer takes a write. -/
theorem execRegisterWrite_safe {o : BitVec 16} (hs : s.ready.safe = true) (h8 : o.toNat % 8 = 0) (hne : o.toNat ≠ 0x4000)
    (h : o.toNat < 0x4100 ∨ 0x4200 ≤ o.toNat) : execRegisterWrite o w s = .next s := by
  have hr : s.ready.reached = true := by rw [Ready.reached, hs, Bool.or_true]
  rw [execRegisterWrite_word h8 hne, State.hostWrites_of_reached hr, State.writeWord_safe (inRequest_eq_false h) hs]

theorem dwordWrite_half {x : Word} (h4 : o % 4 = 0) (hne : o ≠ 0x4000) : dwordWrite o x s = s.hostWrites false (s.writeHalf o x) := by
  rw [dwordWrite, beq_eq_false_iff_ne.mpr hne, if_pos h4]

theorem dwordWrite_low {o : BitVec 16} {x : Word} (h8 : o.toNat % 8 = 0) (hne : o.toNat ≠ 0x4000) :
    dwordWrite o.toNat x s = execRegisterWrite o ((s.storedWord o.toNat).extractLsb' 32 32 ++ x) s := by
  rw [dwordWrite_half (by omega) hne, State.writeHalf_low h8, execRegisterWrite_word h8 hne]

theorem dwordWrite_high {o : BitVec 16} {x : Word} (h8 : o.toNat % 8 = 0) (hne : o.toNat ≠ 0x4000) :
    dwordWrite (o.toNat + 4) x s = execRegisterWrite o (x ++ (s.storedWord o.toNat).setWidth 32) s := by
  rw [dwordWrite_half (by omega) (by omega), State.writeHalf_high h8, execRegisterWrite_word h8 hne]

/-- A write onto nothing that takes one changes nothing. -/
theorem execRegisterWrite_unwritable {o : BitVec 16} (hr : s.ready.reached = true)
    (h : o.toNat % 4 ≠ 0 ∨ writable o.toNat = false ∧ writable (o.toNat + 4) = false) : execRegisterWrite o w s = .next s := by
  have hw : ∀ k, writable k = false → k ≠ 0x4000 := by
    rintro k hk rfl
    exact absurd hk (by decide)
  have hm : (o.toNat == 0x4000 || o.toNat == 0x3FFC) = false := by
    rw [Bool.or_eq_false_iff, beq_eq_false_iff_ne, beq_eq_false_iff_ne]
    obtain h | ⟨h, h'⟩ := h
    · omega
    · have := hw _ h
      have := hw _ h'
      omega
  simp only [execRegisterWrite, hm]
  rw [State.hostWrites_of_reached hr]
  by_cases h4 : o.toNat % 4 = 0
  · obtain ⟨h, h'⟩ := h.resolve_left fun h => h h4
    obtain h8 | h8 : o.toNat % 8 = 0 ∨ o.toNat % 8 = 4 := by omega
    · have hn : ¬ writable o.toNat = true := by rw [h]; exact Bool.false_ne_true
      rw [writable_iff] at hn
      rw [if_pos h8, State.writeWord_unlisted] <;> omega
    · rw [if_neg (by omega), if_pos h8, State.writeHalf_unwritable h4 h fun _ => h',
        State.writeHalf_unwritable (by omega) h' fun h => by omega]
  · rw [if_neg (by omega), if_neg (by omega)]

/-- The request buffer takes a word in the safe state too. -/
theorem execRegisterWrite_request {o : BitVec 16} (hr : s.ready.reached = true) (h : 0x4100 ≤ o.toNat) (h' : o.toNat < 0x4200)
    (h8 : o.toNat % 8 = 0) : ∃ b, execRegisterWrite o w s = .next { s with fw := { s.fw with reqBuf := b } } ∧
      b[(o.toNat - 0x4100) / 8]? = some w := by
  rw [execRegisterWrite_word h8 (by omega), State.hostWrites_of_reached hr, State.writeWord_request (inRequest_iff.mpr ⟨h, h'⟩)]
  refine ⟨_, rfl, List.getElem?_set_self ?_⟩
  rw [List.length_append, List.length_replicate]
  omega

/-- A bit is cleared and the others keep their values. -/
theorem getLsbD_clearBit {n v u : Nat} {p : BitVec n} :
    (p &&& ~~~BitVec.ofNat n (2 ^ v)).getLsbD u = (p.getLsbD u && !(u == v)) := by
  by_cases hu : u < n
  · simp only [BitVec.getLsbD_and, BitVec.getLsbD_not, BitVec.getLsbD_ofNat, Nat.testBit_two_pow, hu, decide_true, Bool.true_and,
      eq_comm (a := v), beq_eq_decide]
  · rw [BitVec.getLsbD_of_ge _ _ (by omega), BitVec.getLsbD_of_ge _ _ (by omega), Bool.false_and]

theorem Firmware.writeVector_pba {f : Firmware} {v u : Nat} {x : DWord} :
    (f.writeVector (2 * v + 1) x).pba.getLsbD u = (f.pba.getLsbD u && !(u == v && !x.getLsbD 32)) := by
  have hodd : (2 * v + 1) % 2 = 1 := by omega
  have hnum : (2 * v + 1) / 2 = v := by omega
  simp only [Firmware.writeVector, hodd, hnum, true_and]
  cases x.getLsbD 32
  · rw [if_pos rfl, getLsbD_clearBit, Bool.not_false, Bool.and_true]
  · rw [if_neg (Ne.symm Bool.false_ne_true), Bool.not_true, Bool.and_false, Bool.not_false, Bool.and_true]

theorem dwordWrite_vector {v : Nat} {x : Word} (hv : v < 65) (hr : s.ready.reached = true) (hs : s.ready.safe = false) :
    dwordWrite (0x8000 + 16 * v + 12) x s =
      .next { s with fw := s.fw.writeVector (2 * v + 1) (x ++ (s.fw.vectors[2 * v + 1]?.getD 0).setWidth 32) } := by
  have hnum : (0x8000 + 16 * v + 8 - 0x8000) / 8 = 2 * v + 1 := by omega
  rw [dwordWrite_half (by omega) (by omega), State.hostWrites_of_reached hr,
    show 0x8000 + 16 * v + 12 = 0x8000 + 16 * v + 8 + 4 from rfl, State.writeHalf_high (by omega),
    State.writeWord_vector (by omega) (by omega) hs, State.storedWord_outside (by omega),
    State.registerWord_vector (by omega) (by omega), hnum]

theorem registerRead_word (h8 : o % 8 = 0) (hlt : o < 0x10000) (hr : s.ready.reached = true)
    (hs : s.ready.safe = true → answersSafe o = true) :
    registerRead o s = .next (s.completeHost .success (some (bytesOf 8 (s.registerWord o).toNat)) false) := by
  have hsafe : (s.ready.safe && !answersSafe o) = false := by
    cases h : s.ready.safe
    · rfl
    · rw [hs h]; rfl
  simp only [registerRead, show o / 8 * 8 = o by omega, hr, hsafe, Bool.not_true, Bool.false_and, Bool.false_eq_true, or_false, if_pos h8]
  rw [if_neg (by omega)]

end

/-- Settles O40, request by request, from what each makes of the state. -/
theorem hostEvents : Obligations.HostEvents := by
  intro s link off phys up
  have reached_of_up : up = true → s.ready.reached = true := id
  have reached_of_pl : (s.ready.pl0 || s.ready.pl1) = true → s.ready.reached = true := fun h => by
    rw [Ready.reached, h, Bool.true_or]
  have reached_of_safe : s.ready.safe = true → s.ready.reached = true := fun h => by rw [Ready.reached, h, Bool.or_true]
  have elsewhere : ∀ {o : BitVec 16}, o ≠ 0x4000 → o.toNat ≠ 0x4000 := fun hne h => hne (BitVec.eq_of_toNat_eq h)
  refine ⟨fun hl bs => execHostWrite_down hl, fun hl bs hb => ?write, fun hl hb op x y => ?atomic, fun q n w o => ?registers,
    fun o w h8 hne => ⟨State.storedWord_outside, dwordWrite_low h8 (elsewhere hne), dwordWrite_high h8 (elsewhere hne)⟩,
    fun v w hv _ hr hs => ⟨_, dwordWrite_vector hv (reached_of_pl hr) hs, rfl, fun u => ?pending, rfl⟩,
    fun hl hs len hb => ?read, fun hr hs o h8 hlt => ?register, fun hs o h8 hlt ha => ?safeRegister, rfl,
    fun o => State.registerWord_unlisted⟩
  case write =>
    intro reached
    have hreached : s.hostReaches phys bs.length = true ↔ reached := State.hostReaches_iff
    refine ⟨fun hs hm => ?_, fun hm => execHostWrite_unserved hl hb (hm.imp_right (mt hreached.mp))⟩
    have hm := hreached.mpr hm
    exact ⟨_, execHostWrite_served hl hb hs hm, State.read_writePhys fun k => State.lt_peer_of_hostReaches hm,
      fun k => State.read_writePhys_outside, State.writePhys_groups, rfl⟩
  case atomic =>
    intro e old new served ends
    have he : served → exec e s = _ := execHostAtomicop_served hl hb
    refine ⟨execHostAtomicop_unserved hl hb, fun h hp => (he h).trans (if_pos hp),
      fun h hp hu => (he h).trans ((if_neg (Bool.not_eq_false _ ▸ hp)).trans (if_neg ?_)),
      fun h hp hu => (he h).trans ((if_neg (Bool.not_eq_false _ ▸ hp)).trans (if_pos (any_prepared_physKeys.mpr hu)))⟩
    rw [any_prepared_physKeys]
    rintro ⟨i, hi, hprep⟩
    exact absurd hprep (Bool.eq_false_iff.mp (hu i hi))
  case registers =>
    intro opens regs
    have hopens : ∀ v k, opens v k = Queue.setOpen k v := fun v k => rfl
    have each : ∀ p ∈ regs, exec p.1 s = s.register fun _ => p.2 := by
      simp only [regs, List.forall_mem_cons, List.not_mem_nil, false_imp_iff, implies_true, and_true, hopens, ← Queue.configure_eq]
      exact ⟨rfl, rfl, rfl, rfl, rfl, rfl⟩
    refine ⟨fun hr p hp => ?down, fun hr hs p hp => ?safe, fun hr hs p hp => ?live, fun hr h h' h8 => ?request,
      fun hr hs h h' h8 => execRegisterWrite_vector (reached_of_pl hr) hs h h' h8,
      fun hs h8 hne h => execRegisterWrite_safe hs h8 (elsewhere hne) h,
      fun hr h => execRegisterWrite_unwritable (reached_of_up hr) h, ?own⟩
    case down =>
      rw [NotNow, each p hp, State.register_eq, show s.ready.reached = false from hr, if_neg Bool.false_ne_true]
    case safe => rw [Happens, each p hp, State.register_eq, if_pos (reached_of_up hr), if_pos hs]
    case live => rw [Happens, each p hp, State.register_eq, if_pos (reached_of_up hr), hs, if_neg Bool.false_ne_true]
    case request =>
      obtain ⟨b, hw, hb⟩ := execRegisterWrite_request (w := w) (reached_of_up hr) h h' h8
      exact ⟨_, hw, rfl, hb⟩
    case own =>
      simp only [List.forall_mem_cons, List.not_mem_nil, false_imp_iff, implies_true, and_true]
      exact ⟨execRegisterWrite_wbase, execRegisterWrite_irqen, execRegisterWrite_tail, execRegisterWrite_descriptor⟩
  case pending =>
    have bit : (w ++ (s.fw.vectors[2 * v + 1]?.getD 0).setWidth 32).getLsbD 32 = w.getLsbD 0 := BitVec.getLsbD_append
    rw [← bit]
    exact Firmware.writeVector_pba
  case read =>
    intro keys gives
    have hread := hostRead_up (len := len) hl hb hs
    refine ⟨fun hm => hread.trans (if_pos hm), fun hm hp => hread.trans ?_, fun hm hp hk => hread.trans ?_⟩
    · exact (if_neg (Bool.not_eq_false _ ▸ hm)).trans (if_pos hp)
    · refine (if_neg (Bool.not_eq_false _ ▸ hm)).trans ((if_neg (Bool.not_eq_true _ ▸ hp)).trans ?_)
      rw [State.map_hostByte hk, State.poisoned_eq_false hk]
      rfl
  case register => exact registerRead_word h8 hlt (reached_of_up hr) fun h => absurd h (by rw [hs]; exact Bool.false_ne_true)
  case safeRegister => exact registerRead_word h8 hlt (reached_of_safe hs) fun _ => ha

end Sys2Proof.Machine
end

section
/-!
What lands in a thread at a completed boundary (R19, R118): its registers and predicates change by the deferred results that name
them, and by nothing else.
-/
namespace Sys2Proof.Machine
variable {t : Thread} {e : Deferred} {l : List Deferred}

/-- A deferred result goes to register `k`. -/
def Deferred.Names (e : Deferred) (k : Nat) : Prop :=
  match e.dst with
  | .regs v n => v ≤ k ∧ k < v + n
  | .half v _ => v = k
  | _ => False

theorem Thread.setRegs_rest {ws : List Word} {n : Nat} : ∃ v, t.setRegs n ws = { t with v := v } := by
  induction ws generalizing t n with
  | nil => exact ⟨t.v, rfl⟩
  | cons w ws ih => exact ih

theorem Thread.reg_setRegs_outside {ws : List Word} {n k : Nat} (h : k < n ∨ n + ws.length ≤ k) :
    (t.setRegs n ws).reg k = t.reg k := by
  induction ws generalizing t n with
  | nil => rfl
  | cons w ws ih =>
    rw [List.length_cons] at h
    rw [Thread.setRegs, ih (by omega), Thread.reg_setReg_ne _ _ (by omega)]

theorem Thread.setPred_rest {n : Nat} {b : Bool} : ∃ p, t.setPred n b = { t with p := p } := by
  unfold Thread.setPred
  split
  · exact ⟨_, rfl⟩
  · exact ⟨t.p, rfl⟩

/-- A landing changes registers and predicates alone. -/
theorem Thread.land_rest : ∃ v p, t.land e = { t with v := v, p := p } := by
  unfold Thread.land
  split
  · split
    · exact ⟨t.v, t.p, rfl⟩
    · obtain ⟨v, h⟩ := Thread.setRegs_rest
      exact ⟨v, t.p, h⟩
    · exact ⟨_, t.p, rfl⟩
    · obtain ⟨p, h⟩ := Thread.setPred_rest
      exact ⟨t.v, p, h⟩
  · exact ⟨t.v, t.p, rfl⟩

theorem Thread.foldl_land_rest : ∃ v p, l.foldl Thread.land t = { t with v := v, p := p } := by
  induction l generalizing t with
  | nil => exact ⟨t.v, t.p, rfl⟩
  | cons e l ih =>
    obtain ⟨v, p, h⟩ := Thread.land_rest (t := t) (e := e)
    rw [List.foldl_cons, h]
    exact ih

/-! ## Registers -/

theorem Thread.reg_land_of_not_names {k : Nat} (h : ¬ e.Names k) : (t.land e).reg k = t.reg k := by
  unfold Deferred.Names at h
  unfold Thread.land
  split
  · split
    · rfl
    next v n hd =>
      rw [hd] at h
      refine Thread.reg_setRegs_outside ?_
      have := List.length_take_le n ‹List Word›
      omega
    next v hi hd =>
      rw [hd] at h
      exact Thread.reg_setReg_ne _ _ (Ne.symm h)
    · obtain ⟨p, hp⟩ := Thread.setPred_rest
      rw [hp]
      rfl
  · rfl

theorem Thread.reg_foldl_land_of_not_names {k : Nat} (h : ∀ e ∈ l, ¬ e.Names k) :
    (l.foldl Thread.land t).reg k = t.reg k := by
  induction l generalizing t with
  | nil => rfl
  | cons e l ih =>
    rw [List.foldl_cons, ih fun q hq => h q (List.mem_cons_of_mem _ hq), Thread.reg_land_of_not_names (h e List.mem_cons_self)]

/-- Of the results for one register the last in program order remains (R118). -/
theorem Thread.reg_foldl_land_last {a b : List Deferred} {k : Nat} (h : ∀ q ∈ b, ¬ q.Names k) :
    ((a ++ e :: b).foldl Thread.land t).reg k = ((a.foldl Thread.land t).land e).reg k := by
  rw [List.foldl_append, List.foldl_cons, Thread.reg_foldl_land_of_not_names h]

theorem Thread.reg_land_one {v : Nat} {w : Word} (hd : e.dst = .regs v 1) (hs : e.src = .vals [w]) :
    (t.land e).reg v = w := by
  rw [Thread.land, hs, hd]
  exact Thread.reg_setReg_self _ _ _

theorem Thread.reg_land_two {v : Nat} {lo hi : Word} (hd : e.dst = .regs v 2) (hs : e.src = .vals [lo, hi]) :
    (t.land e).reg v = lo ∧ (t.land e).reg (v + 1) = hi := by
  rw [Thread.land, hs, hd]
  exact ⟨(Thread.reg_setReg_ne _ _ (by omega)).trans (Thread.reg_setReg_self _ _ _), Thread.reg_setReg_self _ _ _⟩

/-- A half in the upper bits of a word, over the word's lower half (R214). -/
theorem setWidth_append_low {w old : Word} :
    ((w.setWidth 16 : Half) ++ (old.setWidth 16 : Half) : Word) = w <<< 16 ||| (old &&& 0xFFFF) := by
  have mask : ∀ i < 32, (0xFFFF : Word).getLsbD i = decide (i < 16) := by decide
  refine BitVec.eq_of_getLsbD_eq fun i hi => ?_
  rw [BitVec.getLsbD_append, BitVec.getLsbD_or, BitVec.getLsbD_and, mask i hi, BitVec.getLsbD_shiftLeft]
  by_cases h : i < 16
  · simp [h]
  · have hw : i - 16 < 16 := by omega
    simp [h, hi, hw]

theorem extract_append_high {w old : Word} :
    ((old.extractLsb' 16 16 : Half) ++ (w.setWidth 16 : Half) : Word) = (old &&& 0xFFFF0000) ||| (w &&& 0xFFFF) := by
  have low : ∀ i < 32, (0xFFFF : Word).getLsbD i = decide (i < 16) := by decide
  have high : ∀ i < 32, (0xFFFF0000 : Word).getLsbD i = decide (16 ≤ i) := by decide
  refine BitVec.eq_of_getLsbD_eq fun i hi => ?_
  rw [BitVec.getLsbD_append, BitVec.getLsbD_or, BitVec.getLsbD_and, BitVec.getLsbD_and, low i hi, high i hi]
  by_cases h : i < 16
  · simp [h]
  · have hw : i - 16 < 16 := by omega
    have he : 16 + (i - 16) = i := by omega
    simp [h, hw, he, Nat.le_of_not_lt h]

theorem Thread.reg_land_half {v : Nat} {hi : Bool} {w : Word} (hd : e.dst = .half v hi) (hs : e.src = .vals [w]) :
    (t.land e).reg v = if hi then w <<< 16 ||| (t.reg v &&& 0xFFFF) else (t.reg v &&& 0xFFFF0000) ||| (w &&& 0xFFFF) := by
  rw [Thread.land, hs, hd]
  refine (Thread.reg_setReg_self _ _ _).trans ?_
  split
  · exact setWidth_append_low
  · exact extract_append_high

/-! ## Predicates -/

theorem Thread.pred_land_ne {p : Nat} (h : e.dst ≠ .pred p) : (t.land e).pred p = t.pred p := by
  unfold Thread.land
  split
  · split
    · rfl
    · obtain ⟨v, hv⟩ := Thread.setRegs_rest
      rw [hv]
      rfl
    · rfl
    next q hd => exact Thread.pred_setPred_ne fun hq => h (hq ▸ hd)
  · rfl

theorem Thread.pred_foldl_land_ne {p : Nat} (h : ∀ e ∈ l, e.dst ≠ .pred p) : (l.foldl Thread.land t).pred p = t.pred p := by
  induction l generalizing t with
  | nil => rfl
  | cons e l ih =>
    rw [List.foldl_cons, ih fun q hq => h q (List.mem_cons_of_mem _ hq), Thread.pred_land_ne (h e List.mem_cons_self)]

theorem Thread.pred_land_self {p : Nat} {w : Word} (hp : p < 7) (hd : e.dst = .pred p) (hs : e.src = .vals [w]) :
    (t.land e).pred p = decide (w ≠ 0) := by
  rw [Thread.land, hs, hd]
  exact (Thread.pred_setPred_self hp).trans (by simp [bne, beq_eq_decide])

/-! ## The thread at a completed boundary -/

theorem Thread.complete_of_exited (h : t.live = false) : t.complete = t := by simp [Thread.complete, h]

theorem Thread.complete_of_exit {a : Arrival} (h : t.live) (ha : t.arr = some a) (he : a.isExit) : t.complete =
    { t with st := .exited, arr := none, defs := [], fall := none, reconv := none, takes := [], late := false,
             dstep := t.dstep + 1, xstep := t.xstep + 1 } := by simp [Thread.complete, h, ha, he]

section
variable (h : t.live) (he : ∀ a, t.arr = some a → a.isExit = false)
include h he

theorem Thread.complete_of_goesOn : t.complete =
    { t.landAll with dstep := t.dstep + 1, xstep := if t.arr.isSome then t.xstep + 1 else t.xstep } := by
  cases ha : t.arr with
  | none => simp [Thread.complete, h, ha]
  | some a => simp [Thread.complete, h, ha, he a ha]

theorem Thread.complete_rest : ∃ v p, t.complete =
    { t with v := v, p := p, defs := stillDeferred t.defs, dstep := t.dstep + 1
             xstep := if t.arr.isSome then t.xstep + 1 else t.xstep } := by
  obtain ⟨v, p, hl⟩ := Thread.foldl_land_rest (t := t) (l := t.defs)
  exact ⟨v, p, by rw [Thread.complete_of_goesOn h he, Thread.landAll, hl]⟩

theorem Thread.reg_complete {k : Nat} : t.complete.reg k = (t.defs.foldl Thread.land t).reg k := by
  rw [Thread.complete_of_goesOn h he]
  rfl

theorem Thread.reg_complete_last {a b : List Deferred} {k : Nat} (hl : t.defs = a ++ e :: b) (hn : ∀ q ∈ b, ¬ q.Names k) :
    t.complete.reg k = ((a.foldl Thread.land t).land e).reg k := by
  rw [Thread.reg_complete h he, hl, Thread.reg_foldl_land_last hn]

theorem Thread.pred_complete {p : Nat} : t.complete.pred p = (t.defs.foldl Thread.land t).pred p := by
  rw [Thread.complete_of_goesOn h he]
  rfl

end

/-- Settles O60: an exited thread, one that exits, and one that goes on, whose results land one after the other. -/
theorem landing : Obligations.Landing := by
  intro t
  refine ⟨Thread.complete_of_exited, ?exits, ?goesOn⟩
  case exits =>
    rintro h ⟨a, ha, he⟩
    rw [Thread.complete_of_exit h ha he]
    exact ⟨rfl, rfl, ⟨rfl, rfl, rfl⟩, rfl, rfl⟩
  case goesOn =>
    intro h he
    obtain ⟨v, p, hk⟩ := Thread.complete_rest h he
    refine ⟨?_, ?_, ?_, ?_, ?_, ?_, ?_, ?none, ?one, ?two, ?half, ?pred, ?noPred⟩
    · rw [hk]
    · exact fun ha => (congrArg Thread.xstep hk).trans (if_pos ha)
    · exact fun ha => (congrArg Thread.xstep hk).trans (if_neg (by simp [ha]))
    · rw [hk]
    · rw [hk]
    · rw [hk]
    · rw [hk]
    case none => exact fun k hn => (Thread.reg_complete h he).trans (Thread.reg_foldl_land_of_not_names hn)
    case one => exact fun a e b v w hl hd hs hn => (Thread.reg_complete_last h he hl hn).trans (Thread.reg_land_one hd hs)
    case two =>
      intro a e b v lo hi hl hd hs hn
      obtain ⟨hlo, hhi⟩ := Thread.reg_land_two (t := a.foldl Thread.land t) hd hs
      exact ⟨(Thread.reg_complete_last h he hl fun q hq => (hn q hq).1).trans hlo,
        (Thread.reg_complete_last h he hl fun q hq => (hn q hq).2).trans hhi⟩
    case half =>
      intro a e b v hi w hl hd hs hn
      have before : (a.foldl Thread.land t).reg v = t.reg v :=
        Thread.reg_foldl_land_of_not_names fun q hq => hn q (List.mem_append_left b hq)
      rw [Thread.reg_complete_last h he hl fun q hq => hn q (List.mem_append_right a hq), Thread.reg_land_half hd hs, before]
    case pred =>
      intro a e b p w hl hp hd hs hn
      rw [Thread.pred_complete h he, hl, List.foldl_append, List.foldl_cons, Thread.pred_foldl_land_ne hn,
        Thread.pred_land_self hd hp hs]
    case noPred => exact fun p hn => (Thread.pred_complete h he).trans (Thread.pred_foldl_land_ne hn)

end Sys2Proof.Machine
end

section
/-!
Frames: what an operation on one thread, or on one cohort, leaves alone.  Each operation of issue has its frame once, frames
compose, and going on adds its own.
-/
namespace Sys2Proof.Machine
variable {s s' s'' : State} {r q : TRef} {g : Group} {t u : Thread} {i : Instr} {f : Fields} {gn n : Nat}

/-! ## All but the groups -/

theorem State.SameOutside.refl : s.SameOutside s := rfl

theorem State.SameOutside.trans (h : s.SameOutside s') (h' : s'.SameOutside s'') : s.SameOutside s'' := by
  unfold State.SameOutside at *
  rw [h', h]

theorem State.SameOutside.modGroup {F : Group → Group} : s.SameOutside (s.modGroup gn F) := rfl
theorem State.SameOutside.modThread {F : Thread → Thread} : s.SameOutside (s.modThread r F) := rfl
theorem State.SameOutside.bump : s.SameOutside s.bump := rfl

theorem State.SameOutside.issue_eq (h : s.SameOutside s') : s'.issue = s.issue := by
  rw [h]

/-! ## One thread -/

/-- The change is to one thread: nothing else of its group, of the other groups and of the rest of the state is touched. -/
structure State.Touches (s s' : State) (r : TRef) : Prop where
  outside : s.SameOutside s'
  others : s.SameOthers s' r
  group : ∀ g, s.group? r.grp = some g → s'.SameGroup r.grp g

theorem State.SameOthers.refl : s.SameOthers s r := ⟨fun _ _ => rfl, fun _ _ => rfl⟩

theorem State.SameOthers.trans (h : s.SameOthers s' r) (h' : s'.SameOthers s'' r) : s.SameOthers s'' r :=
  ⟨fun q hq => (h'.1 q hq).trans (h.1 q hq), fun g hg => (h'.2 g hg).trans (h.2 g hg)⟩

theorem State.SameGroup.of_group? (h : s.group? gn = some g) : s.SameGroup gn g := ⟨g, h, rfl⟩

theorem State.Touches.refl : s.Touches s r := ⟨.refl, .refl, fun _ h => .of_group? h⟩

theorem State.Touches.trans (h : s.Touches s' r) (h' : s'.Touches s'' r) : s.Touches s'' r where
  outside := h.outside.trans h'.outside
  others := h.others.trans h'.others
  group g hg := by
    obtain ⟨y, hy, ey⟩ := h.group g hg
    obtain ⟨z, hz, ez⟩ := h'.group y hy
    exact ⟨z, hz, by rw [ez, ey]⟩

theorem State.Touches.bump : s.Touches s.bump r := ⟨.bump, .refl, fun _ h => .of_group? h⟩

theorem State.Touches.modThread {F : Thread → Thread} : s.Touches (s.modThread r F) r where
  outside := .modThread
  others := ⟨fun _ h => State.thread?_modThread_ne _ _ h, fun _ h => State.group?_modThread_ne _ _ _ h⟩
  group g hg := ⟨_, by rw [State.group?_modThread, hg]; rfl, rfl⟩

theorem State.Touches.advance : s.Touches (s.advance r n) r := by
  unfold State.advance
  split
  · exact .modThread
  · exact .refl

theorem State.Touches.arrive {st : TState} {a : Nat → Arrival} : s.Touches (s.arrive r st a) r := .trans .modThread .bump

theorem State.Touches.mark : s.Touches (s.mark r f) r := by
  unfold State.mark
  split
  · exact .arrive
  · exact .refl

theorem State.Touches.onward : s'.Touches (s.onward r f s') r := .trans .advance (.trans .mark .modThread)

theorem State.Touches.defer {d : Dst} {v : Src} : s.Touches (s.defer r d v) r := .trans .modThread .bump

theorem State.Touches.buffer {e : Fx} : s.Touches (s.buffer r e) r := .modThread

/-! ## What going on makes of the thread -/

/-- What a step marker makes of a thread: it arrives, unless it has arrived already (R16). -/
def Thread.marked (t : Thread) (f : Fields) (s : State) : Thread :=
  if f.s = true ∧ t.arr = none then { t with st := .boundary, arr := some { order := s.fresh, cycle := s.clk } } else t

theorem State.advance_eq (ht : s.thread? r = some t) :
    ∃ p, s.advance r n = s.modThread r fun u => { u with pc := t.pc + BitVec.ofNat 32 n, fall := p } := by
  obtain ⟨g, hg⟩ := State.group?_of_thread? ht
  refine ⟨s.fallAt g { t with pc := t.pc + BitVec.ofNat 32 n } t.pc, ?_⟩
  rw [State.advance, hg, ht]

theorem State.thread?_arrive_self {st : TState} {a : Nat → Arrival} : (s.arrive r st a).thread? r = (s.thread? r).map fun t =>
    if t.arr.isSome then t else { t with st := st, arr := some { a s.fresh with cycle := s.clk } } := by
  simp only [State.arrive, State.thread?_bump, State.thread?_modThread_self]

theorem State.thread?_mark_self : (s.mark r f).thread? r = (s.thread? r).map fun t => t.marked f s := by
  unfold State.mark Thread.marked
  cases hf : f.s with
  | false => simp
  | true =>
    rw [if_pos rfl, State.arriveMarker, State.thread?_arrive_self]
    refine congrArg (Option.map · _) (funext fun t => ?_)
    cases t.arr <;> simp

/-- The thread that goes on is at the next instruction, has arrived where the marker says so, and is otherwise as it was. -/
theorem State.thread?_onward (ht : s'.thread? r = some t) : ∃ p n, (s.onward r f s').thread? r =
    some { t.marked f s' with pc := t.pc + BitVec.ofNat 32 s.issue.len, fall := p, lastIssue := n } := by
  obtain ⟨p, ha⟩ := State.advance_eq (n := s.issue.len) ht
  refine ⟨p, some (((s'.advance r s.issue.len).mark r f).core ((s'.advance r s.issue.len).mark r f).issue.core).cycle, ?_⟩
  rw [State.onward, State.issued, State.thread?_modThread_self, State.thread?_mark_self, ha, State.thread?_modThread_self, ht]
  unfold Thread.marked
  simp only [Option.map_some]
  split
  · rfl
  · rfl

theorem Thread.marked_of_arrived {a : Arrival} (h : t.arr = some a) : t.marked f s = t :=
  if_neg fun hf => by simp [h] at hf

theorem Thread.marked_of_plain (h : f.s = false) : t.marked f s = t := if_neg fun hf => by simp [h] at hf

/-- An instruction that goes on from a state which differs in its thread alone. -/
theorem GoesOn.touches (h : GoesOn i s r f s') (hs : s.Touches s' r) (ht : s'.thread? r = some t) :
    ∃ x u, exec i s = .next x ∧ x.thread? r = some u ∧ t.Kept u ∧ u.pc = t.pc + BitVec.ofNat 32 s.issue.len ∧ s.Touches x r := by
  obtain ⟨u, hu, hk, hpc⟩ := State.thread?_onward_self s f ht
  exact ⟨_, u, h, hu, hk, hpc, hs.trans .onward⟩

theorem Thread.Kept.sameRegs (h : t.Kept u) : t.SameRegs u := ⟨h.1, h.2.1, h.2.2.1⟩
theorem Thread.Kept.defs_eq (h : t.Kept u) : u.defs = t.defs := h.2.2.2.2.2.2.2.2.2.1
theorem Thread.Kept.fx_eq (h : t.Kept u) : u.fx = t.fx := h.2.2.2.2.2.2.2.2.2.2.1

theorem Thread.SameRegs.reg_eq (h : t.SameRegs u) {k : Nat} : u.reg k = t.reg k := by rw [Thread.reg, h.1, Thread.reg]
theorem Thread.SameRegs.pred_eq (h : t.SameRegs u) {k : Nat} : u.pred k = t.pred k := by rw [Thread.pred, h.2.1, Thread.pred]

end Sys2Proof.Machine
end

section
/-!
`join`, `step`, `exit` and `waitv` (R16, R23-R25, R143-R148).
-/
namespace Sys2Proof.Machine
variable {s s' : State} {r : TRef} {g : Group} {t u : Thread} {i : Instr} {f : Fields}

/-- The widest scope of a group's threads, in the terms of R23 and R382. -/
theorem State.scopeMax_eq : s.scopeMax g = if g.spawn.isSome ∨ (s.launchOf g).r.det then 1 else (s.launchOf g).r.gang + 1 := by
  unfold State.scopeMax Launch.scopeMax
  cases g.spawn.isSome <;> cases (s.launchOf g).r.det <;> simp

theorem scopeOk_iff {top : Nat} {sc : Bool} : scopeOk top f sc = true ↔ f.sc.toNat ≤ top ∧ (sc = true → 4 ≤ f.sc.toNat) := by
  cases sc <;> simp [scopeOk]

theorem scopeOk_eq_false {top : Nat} {sc : Bool} (h : top < f.sc.toNat ∨ sc = true ∧ f.sc.toNat < 4) : scopeOk top f sc = false := by
  rw [Bool.eq_false_iff, ne_eq, scopeOk_iff]
  rintro ⟨ht, hs⟩
  obtain h | ⟨h, h4⟩ := h
  · omega
  · exact absurd (hs h) (by omega)

/-! ## Arrivals -/

theorem execJoin_goesOn (h : Issues s r g t (.join f) f) : GoesOn (.join f) s r f (s.arriveJoin r t.pc (f.fn == 1)) :=
  exec_join.trans (issueEach_goesOn h rfl)

theorem execExit_goesOn (h : Issues s r g t (.exit f) f) :
    GoesOn (.exit f) s r f (s.arrive r .boundary fun n => { order := n, isExit := true }) :=
  exec_exit.trans (issueEach_goesOn h rfl)

theorem execStep_goesOn (h : Issues s r g t (.step f) f) (hs : f.sc.toNat ≤ s.scopeMax g) (h4 : f.x.getLsbD 0 → 4 ≤ f.sc.toNat) :
    GoesOn (.step f) s r f (s.arrive r .boundary fun n =>
      { order := n, scope := f.sc.toNat, sc := f.x.getLsbD 0, el := if f.fn = 1 then some (f.d.toNat - 192) else none }) := by
  exact exec_step.trans (issueEach_goesOn h (if_neg (by rw [scopeOk_iff.mpr ⟨hs, h4⟩]; decide)))

theorem execStep_stops (h : Issues s r g t (.step f) f) (hs : s.scopeMax g < f.sc.toNat ∨ f.x.getLsbD 0 ∧ f.sc.toNat < 4) :
    StopsWith (.step f) s r (.of .scope) := by
  exact exec_step.trans (issueEach_stops h (if_pos (by rw [scopeOk_eq_false hs]; rfl)))

/-- An instruction that has made its thread arrive: the marker adds no second boundary. -/
theorem GoesOn.arrives {a : Arrival} (h : GoesOn i s r f s') (hs : s.Touches s' r) (ht : s'.thread? r = some t)
    (ha : t.arr = some a) : ∃ x u, exec i s = .next x ∧ x.thread? r = some u ∧ u.pc = t.pc + BitVec.ofNat 32 s.issue.len ∧
      u.st = t.st ∧ u.arr = some a ∧ t.SameRegs u ∧ u.fx = t.fx ∧ u.defs = t.defs ∧ s.SameOutside x ∧ s.SameOthers x r := by
  obtain ⟨p, n, hu⟩ := State.thread?_onward (s := s) (f := f) ht
  rw [Thread.marked_of_arrived ha] at hu
  have hx := hs.trans (State.Touches.onward (s := s) (f := f))
  exact ⟨_, _, h, hu, rfl, rfl, ha, ⟨rfl, rfl, rfl⟩, rfl, rfl, hx.outside, hx.others⟩

theorem State.thread?_arrive_of_free {st : TState} {a : Nat → Arrival} (ht : s.thread? r = some t) (ha : t.arr = none) :
    (s.arrive r st a).thread? r = some { t with st := st, arr := some { a s.fresh with cycle := s.clk } } := by
  rw [State.thread?_arrive_self, ht, Option.map_some, if_neg (by simp [ha])]

theorem State.thread?_arriveJoin_of_free {off : Word} {grp : Bool} (ht : s.thread? r = some t) (ha : t.arr = none) :
    (s.arriveJoin r off grp).thread? r =
      some { t with st := .join off grp, arr := some { order := s.fresh, cycle := s.clk }, reconv := none } := by
  rw [State.arriveJoin, State.thread?_modThread_self, State.thread?_arrive_of_free ht ha]
  rfl

theorem State.Touches.arriveJoin {off : Word} {grp : Bool} : s.Touches (s.arriveJoin r off grp) r := .trans .arrive .modThread

/-- Settles O14: how each instruction goes on, what the arrival makes of its thread, and what the step marker adds. -/
theorem boundaries : Obligations.Boundaries := by
  refine ⟨fun s r g t f => ⟨execJoin_goesOn, execExit_goesOn, fun h => ?_⟩, fun s r g t f ha => ⟨fun h => ?_, fun h => ?_, ?_⟩,
    fun s s' r f u hu => ?marker⟩
  · rw [← State.scopeMax_eq]
    exact ⟨execStep_goesOn h, execStep_stops h⟩
  · exact (execJoin_goesOn h).arrives .arriveJoin (State.thread?_arriveJoin_of_free h.thread ha) rfl
  · exact (execExit_goesOn h).arrives .arrive (State.thread?_arrive_of_free h.thread ha) rfl
  · rw [← State.scopeMax_eq]
    exact fun h hs h4 => (execStep_goesOn h hs h4).arrives .arrive (State.thread?_arrive_of_free h.thread ha) rfl
  case marker =>
    obtain ⟨p, n, hw⟩ := State.thread?_onward (s := s) (f := f) hu
    refine ⟨fun hf => ⟨_, hw, ?_⟩, fun hf ha => ⟨_, hw, ?_⟩, fun hf ha => ⟨_, hw, ?_⟩⟩
    · rw [Thread.marked_of_plain hf]
      exact ⟨rfl, rfl⟩
    · rw [Thread.marked, if_pos ⟨hf, ha⟩]
      exact ⟨rfl, rfl⟩
    · obtain ⟨a, ha⟩ := Option.ne_none_iff_exists'.mp ha
      rw [Thread.marked_of_arrived ha]
      exact ⟨rfl, rfl⟩

/-! ## `waitv` -/

/-- What `waitv` samples at issue (R147). -/
def Thread.waitSample (t : Thread) (f : Fields) (acc : Acc) : WaitV :=
  { acc := acc, cmp := f.fn.toNat, t := f.t, b := if f.b = 248 then 0 else t.reg f.b.toNat, scope := f.sc.toNat, pc := t.pc }

/-- `waitv` once its operand has been checked: it arrives with the marker, waits for a prepared cell, meets poison, goes on or
parks. -/
def State.firstRead (s : State) (r : TRef) (f : Fields) (w : WaitV) : Act :=
  if f.s then .next (s.arrive r .boundary fun n => { order := n, wait := some { w with unread := true } })
  else if w.acc.keys.any s.prepared then .next (s.modThread r fun t => { t with st := .waitv { w with unread := true } })
  else if s.poisoned w.acc.keys then .stop .check
  else if cmpWord w.cmp w.t (BitVec.ofNat 32 (s.readNat w.acc.keys)) w.b then .next s
  else .next (s.modThread r fun t => { t with st := .waitv w })

theorem State.waitValue_scope (h : s.scopeMax g < f.sc.toNat) : s.waitValue r g t f = .stop (.of .scope) :=
  if_pos (by simp [scopeOk_eq_false (.inl h)])

section
variable (hs : f.sc.toNat ≤ s.scopeMax g)
include hs

theorem State.waitValue_determinism (hd : (s.launchOf g).r.det) (ha : f.a ≠ 248) :
    s.waitValue r g t f = .stop (.of .determinism) :=
  (if_neg (by simp [scopeOk, hs])).trans (if_pos (by simpa [hd] using ha))

variable (hd : (s.launchOf g).r.det = false ∨ f.a = 248)
include hd

theorem State.waitValue_error {e : Stop} (he : s.operand g t f 4 4 false .read = .error e) : s.waitValue r g t f = .stop e := by
  have hdet : ¬ ((s.launchOf g).r.det && f.a != 248) = true := by obtain h | h := hd <;> simp [h]
  refine (if_neg (by simp [scopeOk, hs])).trans ((if_neg hdet).trans ?_)
  rw [he]

theorem State.waitValue_ok {acc : Acc} {ls : List Leaf} (he : s.operand g t f 4 4 false .read = .ok (acc, ls)) :
    s.waitValue r g t f = s.firstRead r f (t.waitSample f acc) := by
  have hdet : ¬ ((s.launchOf g).r.det && f.a != 248) = true := by obtain h | h := hd <;> simp [h]
  refine (if_neg (by simp [scopeOk, hs])).trans ((if_neg hdet).trans ?_)
  rw [he]
  rfl

end

section
variable {w : WaitV}

theorem State.firstRead_marked (h : f.s) : s.firstRead r f w =
    .next (s.arrive r .boundary fun n => { order := n, wait := some { w with unread := true } }) := if_pos h

variable (h : f.s = false)
include h

theorem State.firstRead_prepared (hp : w.acc.keys.any s.prepared) : s.firstRead r f w =
    .next (s.modThread r fun t => { t with st := .waitv { w with unread := true } }) := by
  rw [State.firstRead, if_neg (by simp [h]), if_pos hp]

variable (hp : w.acc.keys.any s.prepared = false)
include hp

theorem State.firstRead_poisoned (hq : s.poisoned w.acc.keys) : s.firstRead r f w = .stop .check := by
  rw [State.firstRead, if_neg (by simp [h]), if_neg (by simp [hp]), if_pos hq]

variable (hq : s.poisoned w.acc.keys = false)
include hq

theorem State.firstRead_holds (hc : cmpWord w.cmp w.t (BitVec.ofNat 32 (s.readNat w.acc.keys)) w.b) :
    s.firstRead r f w = .next s := by
  rw [State.firstRead, if_neg (by simp [h]), if_neg (by simp [hp]), if_neg (by simp [hq]), if_pos hc]

theorem State.firstRead_parks (hc : cmpWord w.cmp w.t (BitVec.ofNat 32 (s.readNat w.acc.keys)) w.b = false) :
    s.firstRead r f w = .next (s.modThread r fun t => { t with st := .waitv w }) := by
  rw [State.firstRead, if_neg (by simp [h]), if_neg (by simp [hp]), if_neg (by simp [hq]), if_neg (by simp [hc])]

end

/-- Settles O15: the checks before the first read, and what that read makes of the thread. -/
theorem waiting : Obligations.Waiting := by
  refine ⟨fun s r g t f h => ?_, fun s r g t f acc ls h hm hs hd he hq hp hc => ?completes⟩
  · have stops {e : Stop} (e' : s.waitValue r g t f = .stop e) : StopsWith (.waitv f) s r e :=
      exec_waitv.trans (issueEach_stops h e')
    dsimp only
    rw [← State.scopeMax_eq]
    refine ⟨fun hs => stops (State.waitValue_scope hs), fun hs hd ha => stops (State.waitValue_determinism hs hd ha),
      fun hs hd => ⟨fun e he => stops (State.waitValue_error hs hd he), fun acc ls he => ?_⟩⟩
    have goes {s' : State} (e' : s.firstRead r f (t.waitSample f acc) = .next s') : GoesOn (.waitv f) s r f s' :=
      exec_waitv.trans (issueEach_goesOn h ((State.waitValue_ok hs hd he).trans e'))
    exact ⟨fun hm => goes (State.firstRead_marked hm), fun hm hp => goes (State.firstRead_prepared hm hp),
      fun hm hp hq => stops ((State.waitValue_ok hs hd he).trans (State.firstRead_poisoned hm hp hq)),
      fun hm hp hq hc => goes (State.firstRead_holds hm hp hq hc), fun hm hp hq hc => goes (State.firstRead_parks hm hp hq hc)⟩
  case completes =>
    rw [← State.scopeMax_eq] at hs
    have goes : GoesOn (.waitv f) s r f s :=
      exec_waitv.trans (issueEach_goesOn h ((State.waitValue_ok hs hd he).trans (State.firstRead_holds hm hp hq hc)))
    obtain ⟨p, n, hu⟩ := State.thread?_onward (s := s) (f := f) h.thread
    rw [Thread.marked_of_plain hm] at hu
    have hx := State.Touches.onward (s := s) (s' := s) (r := r) (f := f)
    exact ⟨_, _, goes, hu, rfl, h.ready, rfl, ⟨rfl, rfl, rfl⟩, rfl, rfl, hx.outside, hx.others⟩

end Sys2Proof.Machine
end

section
/-!
What an instruction leaves alone by the way it completes (R16, R86, R118, R305): a result, a deferred result, an effect at the
boundary, a joined Inst, and a lane-crossing instruction of a cohort.
-/
namespace Sys2Proof.Machine
variable {s s' s'' : State} {r q : TRef} {g x : Group} {t u : Thread} {i : Instr} {f : Fields} {gn d e : Nat}

/-! ## Domains -/

theorem Group.dom_modify {F : Domain → Domain} :
    Group.dom { x with doms := x.doms.modify d F } e = if d = e ∧ d < x.doms.length then F (x.dom e) else x.dom e := by
  unfold Group.dom
  rw [List.getElem?_modify]
  by_cases h : d = e
  · subst h
    by_cases hd : d < x.doms.length
    · simp [hd]
    · simp [hd]
  · simp [h]

theorem Group.dom_modify_ne {F : Domain → Domain} (h : e ≠ d) : Group.dom { x with doms := x.doms.modify d F } e = x.dom e := by
  rw [Group.dom_modify, if_neg fun hd => h hd.1.symm]

theorem State.group?_modDom {F : Domain → Domain} (h : s.group? gn = some x) :
    (s.modDom gn d F).group? gn = some { x with doms := x.doms.modify d F } := by
  rw [State.modDom, State.group?_modGroup_self, h]
  rfl

@[simp] theorem State.thread?_modDom {F : Domain → Domain} : (s.modDom gn d F).thread? r = s.thread? r := by
  unfold State.thread? State.modDom
  by_cases h : r.grp = gn
  · rw [h, State.group?_modGroup_self]
    cases s.group? gn <;> rfl
  · rw [State.group?_modGroup_ne _ _ h]

theorem State.SameOthers.modDom {F : Domain → Domain} : s.SameOthers (s.modDom r.grp d F) r :=
  ⟨fun _ _ => State.thread?_modDom, fun _ h => State.group?_modGroup_ne _ _ h⟩

/-! ## Instances -/

/-- The `Inst`s that are not of a thread's cohort at its code offset. -/
def otherInsts (r : TRef) (t : Thread) (l : List Inst) : List Inst := l.filter fun n => n.coh != r.tid / 64 || n.pc != t.pc

/-- The `Inst`s of a domain's ending step change. -/
def State.modInsts (s : State) (gn d : Nat) (F : List Inst → List Inst) : State :=
  (s.modDom gn d fun k => { k with insts := F k.insts }).bump

theorem State.SameOutside.modInsts {F : List Inst → List Inst} : s.SameOutside (s.modInsts gn d F) := rfl

theorem State.SameOthers.modInsts {F : List Inst → List Inst} : s.SameOthers (s.modInsts r.grp d F) r :=
  .trans .modDom State.Touches.bump.others

/-- An `Inst` after a thread of its cohort has joined at an offset (R305). -/
def Inst.joined (r : TRef) (pc me : Word) (act : InstAct) (takers : List (TRef × Nat)) (n : Nat) (i : Inst) : Inst :=
  if i.coh = r.tid / 64 ∧ i.pc = pc then
    let i := { i with takers := i.takers ++ takers }
    if me < i.rank then { i with rank := me, act := act, order := n } else i
  else i

theorem Inst.joined_place {me : Word} {act : InstAct} {takers : List (TRef × Nat)} {n : Nat} {i : Inst} :
    (i.joined r t.pc me act takers n).coh = i.coh ∧ (i.joined r t.pc me act takers n).pc = i.pc := by
  unfold Inst.joined
  split
  · dsimp only
    split
    · exact ⟨rfl, rfl⟩
    · exact ⟨rfl, rfl⟩
  · exact ⟨rfl, rfl⟩

theorem otherInsts_joined {me : Word} {act : InstAct} {takers : List (TRef × Nat)} {n : Nat} {l : List Inst} :
    otherInsts r t (l.map (Inst.joined r t.pc me act takers n)) = otherInsts r t l := by
  induction l with
  | nil => rfl
  | cons i l ih =>
    unfold otherInsts at *
    obtain ⟨hc, hp⟩ := Inst.joined_place (r := r) (t := t) (me := me) (act := act) (takers := takers) (n := n) (i := i)
    rw [List.map_cons, List.filter_cons, List.filter_cons, ih, hc, hp]
    split
    next h =>
      have hi : i.joined r t.pc me act takers n = i := if_neg fun ⟨h1, h2⟩ => by simp [h1, h2] at h
      rw [hi]
    · rfl

/-- Joining an `Inst` changes those of the thread's domain, and among those none of another cohort or offset. -/
theorem State.joinInstWith_eq {act : InstAct} {takers : List (TRef × Nat)} : ∃ F : List Inst → List Inst,
    (∀ l, otherInsts r t (F l) = otherInsts r t l) ∧
      s.joinInstWith r g t act takers = s.modInsts r.grp (g.domOf r.tid) F := by
  unfold State.joinInstWith
  dsimp only
  split
  · exact ⟨List.map (Inst.joined r t.pc (s.rank g r.tid) act takers s.fresh), fun l => otherInsts_joined, rfl⟩
  · let i : Inst :=
      { coh := r.tid / 64, pc := t.pc, rank := s.rank g r.tid, seq := s.fresh, order := s.fresh, act := act, takers := takers }
    refine ⟨fun l => l ++ [i], fun l => ?_, rfl⟩
    have own : (i.coh != r.tid / 64 || i.pc != t.pc) = false := by simp [i]
    rw [otherInsts, List.filter_append, List.filter_cons, own]
    exact List.append_nil _

/-! ## A cohort -/

/-- Any other group, and every thread that is not listed, is as it was, and so is all of the group but its threads. -/
structure State.TouchesAll (s s' : State) (gn : Nat) (rs : List TRef) : Prop where
  outside : s.SameOutside s'
  threads : ∀ q, q ∉ rs → s'.thread? q = s.thread? q
  groups : ∀ h, h ≠ gn → s'.group? h = s.group? h
  group : ∀ g, s.group? gn = some g → s'.SameGroup gn g

theorem State.TouchesAll.refl {rs : List TRef} : s.TouchesAll s gn rs :=
  ⟨.refl, fun _ _ => rfl, fun _ _ => rfl, fun _ h => .of_group? h⟩

theorem State.TouchesAll.trans {rs : List TRef} (h : s.TouchesAll s' gn rs) (h' : s'.TouchesAll s'' gn rs) :
    s.TouchesAll s'' gn rs where
  outside := h.outside.trans h'.outside
  threads q hq := (h'.threads q hq).trans (h.threads q hq)
  groups g hg := (h'.groups g hg).trans (h.groups g hg)
  group g hg := by
    obtain ⟨y, hy, ey⟩ := h.group g hg
    obtain ⟨z, hz, ez⟩ := h'.group y hy
    exact ⟨z, hz, by rw [ez, ey]⟩

theorem State.Touches.all {rs : List TRef} (h : s.Touches s' r) (hr : r ∈ rs) : s.TouchesAll s' r.grp rs where
  outside := h.outside
  threads q hq := h.others.1 q fun e => hq (e ▸ hr)
  groups := h.others.2
  group := h.group

/-- Operations on the listed threads one after the other. -/
theorem State.TouchesAll.foldl {α : Type} {op : State → α → State} {ref : α → TRef} {l : List α} {rs : List TRef}
    (hop : ∀ (s : State) a, s.Touches (op s a) (ref a)) (hl : ∀ a ∈ l, (ref a).grp = gn ∧ ref a ∈ rs) : s.TouchesAll (l.foldl op s) gn rs := by
  induction l generalizing s with
  | nil => exact .refl
  | cons a l ih =>
    obtain ⟨hg, hr⟩ := hl a List.mem_cons_self
    have first : s.TouchesAll (op s a) gn rs := hg ▸ (hop s a).all hr
    exact first.trans (ih fun b hb => hl b (List.mem_cons_of_mem _ hb))

/-- A thread that no operation of a run is on stays as it is. -/
theorem State.thread?_foldl_ne {α : Type} {op : State → α → State} {ref : α → TRef} {l : List α}
    (hop : ∀ (s : State) a, s.Touches (op s a) (ref a)) (hl : ∀ a ∈ l, ref a ≠ q) : (l.foldl op s).thread? q = s.thread? q := by
  induction l generalizing s with
  | nil => rfl
  | cons a l ih =>
    rw [List.foldl_cons, ih fun b hb => hl b (List.mem_cons_of_mem _ hb), (hop s a).others.1 q (hl a List.mem_cons_self).symm]

/-- Each thread of a run of operations on distinct threads is what its own operation makes of it. -/
theorem State.thread?_foldl_self {α : Type} {op : State → α → State} {ref : α → TRef} {l : List α} {P : Thread → Thread → Prop}
    {a : α} (hop : ∀ (s : State) a, s.Touches (op s a) (ref a)) (hd : (l.map ref).Nodup) (ha : a ∈ l) (ht : s.thread? (ref a) = some t)
    (hP : ∀ x, s.SameOutside x → x.thread? (ref a) = some t → ∃ u, (op x a).thread? (ref a) = some u ∧ P t u) :
    ∃ u, (l.foldl op s).thread? (ref a) = some u ∧ P t u := by
  induction l generalizing s with
  | nil => cases ha
  | cons b l ih =>
    rw [List.map_cons, List.nodup_cons] at hd
    obtain ⟨hnot, hd⟩ := hd
    rw [List.foldl_cons]
    obtain rfl | ha := List.mem_cons.mp ha
    · obtain ⟨u, hu, hp⟩ := hP s .refl ht
      refine ⟨u, ?_, hp⟩
      rw [State.thread?_foldl_ne hop fun c hc e => hnot (List.mem_map.mpr ⟨c, hc, e⟩), hu]
    · have hne : ref a ≠ ref b := fun e => hnot (List.mem_map.mpr ⟨a, ha, e⟩)
      exact ih hd ha (((hop s b).others.1 _ hne).trans ht) fun x hx => hP x ((hop s b).outside.trans hx)

/-- What one lane of a lane-crossing instruction defers. -/
def State.deferOne (v : Nat → Thread → Option (Dst × List Word)) (s : State) (p : TRef × Thread) : State :=
  match v (p.1.tid % 64) p.2 with
  | some (d, ws) => s.defer p.1 d (.sampled ws)
  | none => s

theorem State.Touches.deferOne {v : Nat → Thread → Option (Dst × List Word)} {p : TRef × Thread} :
    s.Touches (s.deferOne v p) p.1 := by
  unfold State.deferOne
  split
  · exact .defer
  · exact .refl

theorem State.thread?_deferOne {v : Nat → Thread → Option (Dst × List Word)} {p : TRef × Thread} (h : s.thread? p.1 = some t) :
    ∃ u, (s.deferOne v p).thread? p.1 = some u ∧ ∃ l, u = { t with defs := l } := by
  unfold State.deferOne
  split
  · rw [State.thread?_defer_self, h]
    exact ⟨_, rfl, _, rfl⟩
  · exact ⟨t, h, t.defs, rfl⟩

theorem State.deferEach_eq {act : List (TRef × Thread)} {v : Nat → Thread → Option (Dst × List Word)} :
    s.deferEach act v = act.foldl (State.deferOne v) s := rfl

section
variable {coh : Nat} {l act : List (TRef × Thread)} (h : CohortIssues s gn coh g l act i f)
include h

theorem CohortIssues.act_sublist : act.Sublist l := h.active ▸ List.filter_sublist

theorem CohortIssues.nodup : (l.map (·.1)).Nodup :=
  List.pairwise_map.mpr (h.ascending.imp fun hlt e => absurd hlt (by rw [e]; exact lt_irrefl _))

theorem CohortIssues.mem_refs {p : TRef × Thread} (hp : p ∈ l) : p.1.grp = gn ∧ p.1 ∈ l.map (·.1) :=
  ⟨(h.mine p hp).1, List.mem_map_of_mem hp⟩

/-- The deferred results of the active lanes, and then each thread goes on. -/
theorem CohortIssues.lanes_touch {v : Nat → Thread → Option (Dst × List Word)} :
    s.TouchesAll (State.onwardAll l f (s.deferEach act v)) gn (l.map (·.1)) :=
  .trans (.foldl (op := State.deferOne v) (fun _ _ => .deferOne) fun _ hp => h.mem_refs (h.act_sublist.subset hp))
    (.foldl (ref := Prod.fst) (fun _ _ => .onward) fun _ => h.mem_refs)

theorem CohortIssues.thread?_deferEach {v : Nat → Thread → Option (Dst × List Word)} {p : TRef × Thread} (hp : p ∈ l) :
    ∃ u, (s.deferEach act v).thread? p.1 = some u ∧ ∃ k, u = { p.2 with defs := k } := by
  rw [State.deferEach_eq]
  by_cases ha : p ∈ act
  · exact State.thread?_foldl_self (ref := Prod.fst) (P := fun t u => ∃ k, u = { t with defs := k }) (fun _ _ => .deferOne)
      (h.nodup.sublist (h.act_sublist.map _)) ha (h.thread p hp) fun _ _ => State.thread?_deferOne
  · have other : ∀ b ∈ act, b.1 ≠ p.1 := fun b hb e =>
      ha (List.inj_on_of_nodup_map h.nodup (h.act_sublist.subset hb) hp e ▸ hb)
    exact ⟨p.2, (State.thread?_foldl_ne (op := State.deferOne v) (ref := Prod.fst) (fun _ _ => .deferOne) other).trans (h.thread p hp), p.2.defs, rfl⟩

theorem CohortIssues.thread?_lanes {v : Nat → Thread → Option (Dst × List Word)} {p : TRef × Thread} (hp : p ∈ l) :
    ∃ u, (State.onwardAll l f (s.deferEach act v)).thread? p.1 = some u ∧ p.2.SameRegs u ∧
      u.pc = p.2.pc + BitVec.ofNat 32 s.issue.len ∧ u.fx = p.2.fx := by
  obtain ⟨u, hu, k, rfl⟩ := h.thread?_deferEach (v := v) hp
  have outside : s.SameOutside (s.deferEach act v) :=
    (State.TouchesAll.foldl (op := State.deferOne v) (fun _ _ => .deferOne) fun _ hp => h.mem_refs (h.act_sublist.subset hp)).outside
  refine State.thread?_foldl_self (P := fun _ u => p.2.SameRegs u ∧ u.pc = p.2.pc + BitVec.ofNat 32 s.issue.len ∧ u.fx = p.2.fx)
    (ref := Prod.fst) (fun _ _ => .onward) h.nodup hp hu fun x hx ht => ?_
  obtain ⟨w, hw, hk, hpc⟩ := State.thread?_onward_self x f ht
  rw [(outside.trans hx).issue_eq] at hpc
  exact ⟨w, hw, hk.sameRegs, hpc, hk.fx_eq⟩

end

/-! ## One thread -/

theorem Thread.writeD_rest {c : BitVec 8} {w : Word} : ∃ v, t.writeD c w = { t with v := v } := by
  unfold Thread.writeD
  split
  · exact ⟨_, rfl⟩
  · exact ⟨t.v, rfl⟩

theorem Thread.writePair_rest {c : BitVec 8} {w : DWord} : ∃ v, t.writePair c w = { t with v := v } := by
  unfold Thread.writePair
  split
  · exact Thread.setRegs_rest
  · exact ⟨t.v, rfl⟩

theorem Issues.thread?_modThread {F : Thread → Thread} (h : Issues s r g t i f) : (s.modThread r F).thread? r = some (F t) := by
  rw [State.thread?_modThread_self, h.thread]
  rfl

/-- What a thread and its `Inst` are after it has joined one and gone on. -/
theorem Joins.frame {a : InstAct} (h : Issues s r g t i f) (hj : Joins i s r g t f a) : ∃ s' u, exec i s = .next s' ∧
    s'.thread? r = some u ∧ t.Kept u ∧ u.pc = t.pc + BitVec.ofNat 32 s.issue.len ∧ s.SameOutside s' ∧ s.SameOthers s' r ∧
    ∃ y, s'.group? r.grp = some y ∧ y = { g with threads := y.threads, doms := y.doms } ∧
      (∀ e, e ≠ g.domOf r.tid → y.dom e = g.dom e) ∧
      y.dom (g.domOf r.tid) = { g.dom (g.domOf r.tid) with insts := (y.dom (g.domOf r.tid)).insts } ∧
      otherInsts r t (y.dom (g.domOf r.tid)).insts = otherInsts r t (g.dom (g.domOf r.tid)).insts := by
  obtain ⟨F, hF, hs⟩ := State.joinInstWith_eq (s := s) (r := r) (g := g) (t := t) (act := a) (takers := [])
  rw [Joins, State.joinInst, Option.toList_none, List.map_nil, hs] at hj
  have on := State.Touches.onward (s := s) (s' := s.modInsts r.grp (g.domOf r.tid) F) (r := r) (f := f)
  obtain ⟨u, hu, hk, hpc⟩ := State.thread?_onward_self s f (s' := s.modInsts r.grp (g.domOf r.tid) F)
    (State.thread?_modDom.trans h.thread)
  obtain ⟨y, hy, ey⟩ := on.group _ (State.group?_modDom h.group)
  have hdom e : y.dom e = Group.dom { g with doms := g.doms.modify (g.domOf r.tid) fun k => { k with insts := F k.insts } } e := by
    rw [ey]
    rfl
  refine ⟨_, u, hj, hu, hk, hpc, State.SameOutside.modInsts.trans on.outside, .trans .modInsts on.others, y, hy, by rw [ey],
    fun e he => ?_, ?_, ?_⟩
  · rw [hdom, Group.dom_modify_ne he]
  · rw [hdom, Group.dom_modify]
    split
    · rfl
    · rfl
  · rw [hdom, Group.dom_modify]
    split
    · exact hF _
    · rfl

/-- Settles O57: each way to complete changes its thread as it says, and `State.Touches` holds the rest. -/
theorem frames : Obligations.Frames := by
  refine ⟨fun i s r g t f h => ⟨fun w hy => ?reg, fun w hy => ?pair, fun b hlo hhi hy => ?pred, fun d v hy => ?defers,
    fun e hy => ?buffers, fun a hj => ?joins⟩, fun i s gn coh g l act f v h hy => ?cohort⟩
  case reg =>
    obtain ⟨x, u, hx, hu, hk, hpc, ht⟩ := hy.touches .modThread h.thread?_modThread
    obtain ⟨v, hw⟩ := Thread.writeD_rest (t := t) (c := f.d) (w := w)
    refine ⟨x, u, hx, hu, hpc.trans (by rw [hw]), fun k hn => hk.sameRegs.reg_eq.trans (Thread.reg_writeD_ne hn), fun hd => ?_,
      hk.sameRegs.2.1.trans (by rw [hw]), hk.sameRegs.2.2.trans (by rw [hw]), hk.fx_eq.trans (by rw [hw]),
      hk.defs_eq.trans (by rw [hw]), ht.outside, ht.others, ht.group g h.group⟩
    rw [hk.sameRegs.reg_eq, Thread.writeD_of_le hd, Thread.reg_setReg_self]
  case pair =>
    obtain ⟨x, u, hx, hu, hk, hpc, ht⟩ := hy.touches .modThread h.thread?_modThread
    obtain ⟨v, hw⟩ := Thread.writePair_rest (t := t) (c := f.d) (w := w)
    exact ⟨x, u, hx, hu, hpc.trans (by rw [hw]), fun k hn hn' => hk.sameRegs.reg_eq.trans (Thread.reg_writePair_ne hn hn'),
      hk.sameRegs.2.1.trans (by rw [hw]), hk.sameRegs.2.2.trans (by rw [hw]), hk.fx_eq.trans (by rw [hw]),
      hk.defs_eq.trans (by rw [hw]), ht.outside, ht.others, ht.group g h.group⟩
  case pred =>
    obtain ⟨x, u, hx, hu, hk, hpc, ht⟩ := hy.touches .modThread h.thread?_modThread
    obtain ⟨p, hw⟩ := Thread.setPred_rest (t := t) (n := f.d.toNat - 192) (b := b)
    have hw : t.writeP f.d b = { t with p := p } := hw
    refine ⟨x, u, hx, hu, hpc.trans (by rw [hw]), hk.sameRegs.1.trans (by rw [hw]), hk.sameRegs.2.2.trans (by rw [hw]),
      fun k _ => hk.sameRegs.pred_eq.trans ?_, hk.fx_eq.trans (by rw [hw]), hk.defs_eq.trans (by rw [hw]),
      ht.outside, ht.others, ht.group g h.group⟩
    split
    next he =>
      have hk : f.d.toNat - 192 = k := by omega
      rw [Thread.writeP, hk, Thread.pred_setPred_self (by omega)]
    next he => exact Thread.pred_setPred_ne (by omega)
  case defers =>
    obtain ⟨x, u, hx, hu, hk, hpc, ht⟩ := hy.touches .defer ((State.thread?_defer_self _ _ _ _).trans (by rw [h.thread]; rfl))
    exact ⟨x, u, hx, hu, hpc, hk.sameRegs, hk.fx_eq, ⟨s.fresh, hk.defs_eq⟩, ht.outside, ht.others, ht.group g h.group⟩
  case buffers =>
    obtain ⟨x, u, hx, hu, hk, hpc, ht⟩ := hy.touches .buffer ((State.thread?_buffer_self _ _ _).trans (by rw [h.thread]; rfl))
    exact ⟨x, u, hx, hu, hpc, hk.sameRegs, hk.fx_eq, hk.defs_eq, ht.outside, ht.others, ht.group g h.group⟩
  case joins =>
    obtain ⟨x, u, hx, hu, hk, hpc, outside, others, rest⟩ := Joins.frame h hj
    exact ⟨x, u, hx, hu, hpc, hk.sameRegs, hk.fx_eq, hk.defs_eq, outside, others, rest⟩
  case cohort =>
    have ht := h.lanes_touch (v := v)
    exact ⟨_, hy, ht.outside, ht.threads, ht.groups, ht.group g h.group, fun p => h.thread?_lanes⟩

end Sys2Proof.Machine
end

section
/-!
Numbers as little-endian bytes (R3), the fields of a packed image, and what is read of a run of bytes that has been written.
-/
namespace Sys2Proof.Machine
variable {s s' : State} {n k o w a : Nat} {bs : List Byte}

@[simp] theorem length_bytesOf : (bytesOf n w).length = n := by
  induction n generalizing w with
  | zero => rfl
  | succ n ih => rw [bytesOf, List.length_cons, ih]

theorem littleEndian_bytesOf : littleEndian (bytesOf n w) = w % 256 ^ n := by
  induction n generalizing w with
  | zero => rw [pow_zero, Nat.mod_one]; rfl
  | succ n ih =>
    rw [bytesOf, littleEndian, ih, BitVec.toNat_ofNat, show 256 ^ (n + 1) = 256 * 256 ^ n from Nat.pow_succ', Nat.mod_mul]

theorem bytesOf_drop (h : o ≤ n) : (bytesOf n w).drop o = bytesOf (n - o) (w / 256 ^ o) := by
  induction o generalizing n w with
  | zero => rw [pow_zero, Nat.div_one]; rfl
  | succ o ih =>
    obtain ⟨n, rfl⟩ : ∃ m, n = m + 1 := ⟨n - 1, by omega⟩
    rw [bytesOf, List.drop_succ_cons, ih (by omega), Nat.div_div_eq_div_mul, ← Nat.pow_succ', Nat.add_sub_add_right]

theorem bytesOf_take (h : k ≤ n) : (bytesOf n w).take k = bytesOf k w := by
  induction k generalizing n w with
  | zero => rfl
  | succ k ih =>
    obtain ⟨n, rfl⟩ : ∃ m, n = m + 1 := ⟨n - 1, by omega⟩
    rw [bytesOf, List.take_succ_cons, ih (by omega), bytesOf]

/-- `k` bytes from the `o`-th on. -/
theorem littleEndian_bytesOf_part (h : o + k ≤ n) :
    littleEndian (((bytesOf n w).drop o).take k) = w / 256 ^ o % 256 ^ k := by
  rw [bytesOf_drop (by omega), bytesOf_take (by omega), littleEndian_bytesOf]

/-! ## Packed fields -/

/-- The fields of an image stand one after the other, none before the bit `lo`. -/
def FieldsFrom : Nat → List (Nat × Nat × Nat) → Prop
  | _, [] => True
  | lo, f :: fs => lo ≤ f.1 ∧ FieldsFrom (f.1 + f.2.1) fs

theorem foldl_pack {fs : List (Nat × Nat × Nat)} {c : Nat} :
    fs.foldl (fun n f => n + f.2.2 % 2 ^ f.2.1 * 2 ^ f.1) c = c + pack fs := by
  induction fs generalizing c with
  | nil => rfl
  | cons f fs ih => rw [pack, List.foldl_cons, List.foldl_cons, ih, ih, Nat.zero_add, Nat.add_assoc]

theorem pack_cons {f : Nat × Nat × Nat} {fs : List (Nat × Nat × Nat)} :
    pack (f :: fs) = f.2.2 % 2 ^ f.2.1 * 2 ^ f.1 + pack fs := by
  rw [pack, List.foldl_cons, foldl_pack, Nat.zero_add]

theorem dvd_pack {fs : List (Nat × Nat × Nat)} {lo : Nat} (h : FieldsFrom lo fs) : 2 ^ lo ∣ pack fs := by
  induction fs generalizing lo with
  | nil => exact Nat.dvd_zero _
  | cons f fs ih =>
    obtain ⟨hlo, hf⟩ := h
    rw [pack_cons]
    exact Nat.dvd_add ((Nat.pow_dvd_pow 2 hlo).mul_left _) ((Nat.pow_dvd_pow 2 (by omega)).trans (ih hf))

/-- Each field of an image reads back. -/
theorem pack_field {fs : List (Nat × Nat × Nat)} {lo p n v : Nat} (h : FieldsFrom lo fs) (hm : (p, n, v) ∈ fs) :
    lo ≤ p ∧ pack fs / 2 ^ p % 2 ^ n = v % 2 ^ n := by
  induction fs generalizing lo with
  | nil => cases hm
  | cons f fs ih =>
    obtain ⟨hlo, hf⟩ := h
    obtain ⟨m, hr⟩ := dvd_pack hf
    rw [pack_cons, hr]
    obtain rfl | hm := List.mem_cons.mp hm
    · refine ⟨hlo, ?_⟩
      rw [Nat.pow_add, Nat.mul_assoc, Nat.mul_comm (v % 2 ^ n), ← Nat.mul_add, Nat.mul_div_cancel_left _ (Nat.two_pow_pos p),
        Nat.add_mul_mod_self_left, Nat.mod_mod]
    · obtain ⟨hp, hv⟩ := ih hf hm
      refine ⟨by omega, ?_⟩
      have low : f.2.2 % 2 ^ f.2.1 * 2 ^ f.1 < 2 ^ (f.1 + f.2.1) := by
        rw [Nat.add_comm, Nat.pow_add]
        exact Nat.mul_lt_mul_of_pos_right (Nat.mod_lt _ (Nat.two_pow_pos _)) (Nat.two_pow_pos _)
      obtain ⟨q, rfl⟩ := Nat.exists_eq_add_of_le hp
      rw [hr, Nat.pow_add _ (f.1 + f.2.1), ← Nat.div_div_eq_div_mul, Nat.mul_div_cancel_left _ (Nat.two_pow_pos _)] at hv
      rw [Nat.pow_add _ (f.1 + f.2.1) q, ← Nat.div_div_eq_div_mul, Nat.add_mul_div_left _ _ (Nat.two_pow_pos _), Nat.div_eq_of_lt low, Nat.zero_add, hv]

/-- A field of whole bytes reads back from the bytes of its image. -/
theorem littleEndian_pack_field {fs : List (Nat × Nat × Nat)} {v : Nat} (h : FieldsFrom 0 fs) (hm : (8 * o, 8 * k, v) ∈ fs)
    (hn : o + k ≤ n) : littleEndian (((bytesOf n (pack fs)).drop o).take k) = v % 2 ^ (8 * k) := by
  rw [littleEndian_bytesOf_part hn, show (256 : Nat) = 2 ^ 8 from rfl, ← Nat.pow_mul, ← Nat.pow_mul, (pack_field h hm).2]

/-! ## Memory -/

theorem State.readByte_congr (hm : ∀ j, s'.mem.read j = s.mem.read j) (hk : k < 2 ^ 60) : s'.readByte k = s.readByte k := by
  rw [State.readByte_of_lt hk, State.readByte_of_lt hk, hm]

theorem State.readPhys_congr (hm : s'.mem = s.mem) (hk : a + n ≤ 2 ^ 60) : s'.readPhys a n = s.readPhys a n := by
  refine congrArg littleEndian (List.map_congr_left fun k h => State.readByte_congr (fun _ => by rw [hm]) ?_)
  have := mem_physKeys.mp h
  omega

/-- What is read of a part of the bytes that have been written. -/
theorem State.readPhys_writePhys (hn : o + n ≤ bs.length) (hk : a + bs.length ≤ 2 ^ 60) :
    (s.writePhys a bs).readPhys (a + o) n = littleEndian ((bs.drop o).take n) := by
  have key : ∀ k ∈ physKeys a bs.length, k < 2 ^ 60 := fun k h => by have := mem_physKeys.mp h; omega
  refine congrArg littleEndian (List.ext_getElem ?_ fun i h h' => ?_)
  · simp only [State.readBytes, List.length_map, length_physKeys, List.length_take, List.length_drop]
    omega
  · have hi : i < n := by simpa [State.readBytes, physKeys] using h
    simp only [State.readBytes, physKeys, List.getElem_map, List.getElem_range, List.getElem_take, List.getElem_drop]
    rw [State.readByte_of_lt (by omega), Nat.add_assoc, State.read_writePhys key]

/-! ## Chunks of equal length -/

theorem drop_flatMap {α : Type} {F : α → List Byte} {l : List α} (hF : ∀ x ∈ l, (F x).length = n) (hk : k < l.length) :
    ∃ rest, (l.flatMap F).drop (n * k) = F l[k] ++ rest := by
  induction l generalizing k with
  | nil => cases hk
  | cons x l ih =>
    have hx := hF x List.mem_cons_self
    rw [List.flatMap_cons]
    cases k with
    | zero => exact ⟨_, rfl⟩
    | succ k =>
      obtain ⟨rest, hr⟩ := ih (fun y hy => hF y (List.mem_cons_of_mem _ hy)) (Nat.lt_of_succ_lt_succ hk)
      refine ⟨rest, ?_⟩
      rw [List.drop_append, List.drop_of_length_le (by rw [hx, Nat.mul_succ]; omega), hx,
        show n * (k + 1) - n = n * k by rw [Nat.mul_succ]; omega, hr]
      rfl

theorem length_flatMap_const {α : Type} {F : α → List Byte} {l : List α} (hF : ∀ x ∈ l, (F x).length = n) :
    (l.flatMap F).length = n * l.length := by
  induction l with
  | nil => rfl
  | cons x l ih =>
    rw [List.flatMap_cons, List.length_append, hF x List.mem_cons_self, ih fun y hy => hF y (List.mem_cons_of_mem _ hy),
      List.length_cons, Nat.mul_succ, Nat.add_comm]

/-- The first bytes of the `k`-th chunk. -/
theorem take_drop_flatMap {α : Type} {F : α → List Byte} {l : List α} {m : Nat} (hF : ∀ x ∈ l, (F x).length = n) (hk : k < l.length)
    (hm : m ≤ n) : ((l.flatMap F).drop (n * k)).take m = (F l[k]).take m := by
  obtain ⟨rest, hr⟩ := drop_flatMap hF hk
  rw [hr, List.take_append_of_le_length (by rw [hF _ (List.getElem_mem hk)]; exact hm)]

end Sys2Proof.Machine
end

section
/-!
The frame of a trap that is held under DBG (R42, R389): what the state is after it, and what the frame's bytes say.
-/
namespace Sys2Proof.Machine
variable {s : State} {gn tid : Nat} {g : Group} {t : Thread} {e : Trap}

/-- The 16 bytes of thread `i` in the frame of a trap of the threads `who`. -/
def State.frameOf (s : State) (x : Group) (who : List Nat) (e : Trap) (i : Nat) : List Byte :=
  match x.threads[i]? with
  | some th => threadRecord th (i ∈ who) (s.threadParked x i th) (if i ∈ who then e.fpc.getD th.pc else th.pc)
  | none => []

/-- The frame of a trap of one thread. -/
def State.trapImage (s : State) (x : Group) (tid : Nat) (t : Thread) (e : Trap) : List Byte :=
  s.trapHeader x e (s.rank x tid) (e.fpc.getD t.pc) ++ bytesOf 128 e.record.toNat ++
    (List.range x.threads.length).flatMap (s.frameOf x [tid] e)

/-- The group as the trap leaves it, held with the frame at `a`: an event in its prepare phase starts that again. -/
def Group.trapped (x : Group) (a : Nat) : Group :=
  { x with st := .trapped a, save := none, doms := x.doms.map fun d => { d with prep := none, prepNo := none } }

/-- What a trap under DBG leaves once its frame of `len` bytes stands at `addr`: the first frame of the launch is kept, the group
is held, and the host is told. -/
def State.holdTrapped (s : State) (gn lid addr len code : Nat) : State :=
  let s := { s with fw := { s.fw with trapAddr := addr + (len + 63) / 64 * 64 } }
  let s := s.modLaunch lid fun l => { l with tfa := if l.tfa = 0 then addr else l.tfa }
  let s := s.modGroup gn fun x =>
    { x with st := .trapped addr, save := none, doms := x.doms.map fun d => { d with prep := none, prepNo := none } }
  let seq := s.fw.mbevt.extractLsb' 16 16 + (1 : BitVec 16)
  let fw : Firmware :=
    { s.fw with
      held := s.fw.held ++ [{ addr := addr, grp := gn, cause := code }]
      mbevt := seq ++ (1 : BitVec 16)
      evtBuf := [BitVec.ofNat 64 addr] }
  { s with fw := fw.raise 64 }

theorem State.trap_dbg (hg : s.group? gn = some g) (ht : g.threads[tid]? = some t) (hr : e.rank = none)
    (hd : (s.launchOf g).r.dbg) : s.trap gn [tid] e = (s.writePhys s.fw.trapAddr (s.trapImage g tid t e)).holdTrapped gn g.launch
      s.fw.trapAddr (s.trapImage g tid t e).length e.cause.code := by
  unfold State.trap
  split
  next h => cases hg.symm.trans h
  next x h =>
    obtain rfl := Option.some.inj (hg.symm.trans h)
    extract_lets l first rank fpc recs addr image written w1 w2 w3 seq fw
    have himage : s.trapImage g tid t e = image := by
      have hfpc : fpc = e.fpc.getD t.pc := by
        simp only [fpc, first, List.headD_cons, ht]
        cases e.fpc <;> rfl
      have hrank : rank = s.rank g tid := by simp only [rank, hr]
      simp only [image, hfpc, hrank]
      rfl
    have hw : s.writePhys addr image = written := rfl
    rw [himage, hw]
    clear_value written image
    exact if_pos hd

theorem State.holdTrapped_mem {lid a len code : Nat} : (s.holdTrapped gn lid a len code).mem = s.mem := rfl

theorem State.holdTrapped_held {lid a len code : Nat} :
    (s.holdTrapped gn lid a len code).fw.held = s.fw.held ++ [{ addr := a, grp := gn, cause := code }] := rfl

theorem State.group?_holdTrapped {lid a len code : Nat} (hg : s.group? gn = some g) :
    (s.holdTrapped gn lid a len code).group? gn = some (g.trapped a) :=
  (State.group?_modGroup_self _ _ _).trans (congrArg (Option.map _) hg)

theorem State.launch?_holdTrapped {lid a len code : Nat} {l : Launch} (hl : s.launch? lid = some l) :
    (s.holdTrapped gn lid a len code).launch? lid = some { l with tfa := if l.tfa = 0 then a else l.tfa } :=
  (Table.find?_update_self _ _ _).trans (congrArg (Option.map _) hl)

/-! ## What the frame's bytes say -/

@[simp] theorem length_threadRecord {th : Thread} {trapping parked : Bool} {pc : Word} :
    (threadRecord th trapping parked pc).length = 16 := length_bytesOf

theorem State.length_frameOf {who : List Nat} {i : Nat} (h : i < g.threads.length) : (s.frameOf g who e i).length = 16 := by
  rw [State.frameOf, List.getElem?_eq_getElem h]
  exact length_threadRecord

/-- The records of the threads follow the header and the cause's own record. -/
theorem State.length_trapImage : (s.trapImage g tid t e).length = 192 + 16 * g.threads.length := by
  rw [State.trapImage, List.length_append, List.length_append, length_bytesOf, State.trapHeader, length_bytesOf,
    length_flatMap_const fun i hi => State.length_frameOf (List.mem_range.mp hi), List.length_range]

/-- Bytes of the header. -/
theorem State.trapImage_header {o n : Nat} (h : o + n ≤ 64) :
    ((s.trapImage g tid t e).drop o).take n = ((s.trapHeader g e (s.rank g tid) (e.fpc.getD t.pc)).drop o).take n := by
  have hl : (s.trapHeader g e (s.rank g tid) (e.fpc.getD t.pc)).length = 64 := length_bytesOf
  rw [State.trapImage, List.append_assoc, List.drop_append_of_le_length (by omega),
    List.take_append_of_le_length (by rw [List.length_drop]; omega)]

/-- The fields of the header of a trap frame (R389). -/
def State.headerFields (s : State) (x : Group) (t : Trap) (rank fpc : Word) : List (Nat × Nat × Nat) :=
  [(0, 8, t.cause.code), (8, 8, t.sub), (32, 16, t.code), (96, 32, fpc.toNat), (128, 32, rank.toNat), (160, 64, t.faddr),
    (224, 32, (s.launchOf x).ident.toNat), (256, 32, x.grp), (288, 32, (x.threads.filter Thread.live).length),
    (320, 64, s.clk.toNat)]

/-- A field of whole bytes of the header. -/
theorem State.trapImage_field {o n v : Nat} (hm : (8 * o, 8 * n, v) ∈ s.headerFields g e (s.rank g tid) (e.fpc.getD t.pc))
    (h : o + n ≤ 64) : littleEndian (((s.trapImage g tid t e).drop o).take n) = v % 2 ^ (8 * n) := by
  rw [State.trapImage_header h]
  exact littleEndian_pack_field (by simp [FieldsFrom]) hm h

/-- The PC in the record of thread `i`. -/
theorem State.trapImage_pc {i : Nat} {u : Thread} (hi : g.threads[i]? = some u) :
    littleEndian (((s.trapImage g tid t e).drop (192 + 16 * i)).take 4) = (if i = tid then e.fpc.getD u.pc else u.pc).toNat := by
  have hlt : i < g.threads.length := (List.getElem?_eq_some_iff.mp hi).1
  have hl : (s.trapHeader g e (s.rank g tid) (e.fpc.getD t.pc) ++ bytesOf 128 e.record.toNat).length = 192 := by
    rw [List.length_append, State.trapHeader, length_bytesOf, length_bytesOf]
  rw [State.trapImage, ← List.drop_drop, List.drop_left' hl,
    take_drop_flatMap (fun j hj => State.length_frameOf (List.mem_range.mp hj)) (by simpa using hlt) (by omega)]
  rw [List.getElem_range, State.frameOf, hi]
  simp only [threadRecord, List.mem_singleton]
  exact (littleEndian_pack_field (o := 0) (k := 4) (n := 16) (by simp [FieldsFrom]) (by simp) (by omega)).trans
    (Nat.mod_eq_of_lt (BitVec.isLt _))

theorem Cause.code_lt (c : Cause) : c.code < 2 ^ 8 := by cases c <;> decide

/-- What a write of bytes leaves alone. -/
theorem State.writePhys_rest (s : State) (a : Nat) (bs : List Byte) : ∃ m p, s.writePhys a bs = { s with mem := m, poison := p } :=
  State.writeBytes_rest _ _ _

theorem State.writePhys_fw {a : Nat} {bs : List Byte} : (s.writePhys a bs).fw = s.fw := by
  obtain ⟨m, p, h⟩ := s.writePhys_rest a bs
  rw [h]

theorem State.launch?_writePhys {a l : Nat} {bs : List Byte} : (s.writePhys a bs).launch? l = s.launch? l := by
  obtain ⟨m, p, h⟩ := s.writePhys_rest a bs
  rw [h]
  rfl

theorem State.group?_writePhys {a : Nat} {bs : List Byte} : (s.writePhys a bs).group? gn = s.group? gn := by
  rw [State.group?, State.writePhys_groups, State.group?]

/-- Settles O17: the image that the trap writes holds each field at its place, and no other byte changes. -/
theorem trapFrame : Obligations.TrapFrame := by
  intro s gn g tid t e hg ht hr hd hsub hcode hfaddr hgrp hthreads haddr a s'
  have hs' : s' = _ := State.trap_dbg hg ht hr hd
  have hmem : s'.mem = (s.writePhys a (s.trapImage g tid t e)).mem := by rw [hs', State.holdTrapped_mem]
  have hlen := State.length_trapImage (s := s) (g := g) (tid := tid) (t := t) (e := e)
  have read {o n : Nat} (h : o + n ≤ 192 + 16 * g.threads.length) :
      s'.readPhys (a + o) n = littleEndian (((s.trapImage g tid t e).drop o).take n) := by
    rw [State.readPhys_congr hmem (by omega), State.readPhys_writePhys (by omega) (by omega)]
  have field {o n v : Nat} (hv : v < 2 ^ (8 * n)) (h : o + n ≤ 64)
      (hm : (8 * o, 8 * n, v) ∈ s.headerFields g e (s.rank g tid) (e.fpc.getD t.pc)) : s'.readPhys (a + o) n = v := by
    rw [read (by omega), State.trapImage_field hm h, Nat.mod_eq_of_lt hv]
  have pc {i : Nat} {u : Thread} (hi : g.threads[i]? = some u) :
      s'.readPhys (a + 192 + 16 * i) 4 = (if i = tid then e.fpc.getD u.pc else u.pc).toNat := by
    have hlt : i < g.threads.length := (List.getElem?_eq_some_iff.mp hi).1
    rw [Nat.add_assoc, read (by omega), State.trapImage_pc hi]
  have hlive : (g.threads.filter Thread.live).length < 2 ^ (8 * 4) :=
    Nat.lt_of_le_of_lt (List.length_filter_le _ _) (by omega)
  refine ⟨field (o := 0) (n := 1) e.cause.code_lt (by omega) (by simp [State.headerFields]),
    field (o := 1) (n := 1) hsub (by omega) (by simp [State.headerFields]),
    field (o := 4) (n := 2) hcode (by omega) (by simp [State.headerFields]),
    field (o := 12) (n := 4) (BitVec.isLt _) (by omega) (by simp [State.headerFields]),
    field (o := 16) (n := 4) (BitVec.isLt _) (by omega) (by simp [State.headerFields]),
    field (o := 20) (n := 8) hfaddr (by omega) (by simp [State.headerFields]),
    field (o := 28) (n := 4) (BitVec.isLt _) (by omega) (by simp [State.headerFields]),
    field (o := 32) (n := 4) hgrp (by omega) (by simp [State.headerFields]),
    field (o := 36) (n := 4) hlive (by omega) (by simp [State.headerFields]),
    field (o := 40) (n := 8) (BitVec.isLt _) (by omega) (by simp [State.headerFields]), ?_, fun i u hne hi => ?_, fun k hk => ?_,
    ?_, ?_, fun l hl => ?_⟩
  · rw [pc ht, if_pos rfl]
  · rw [pc hi, if_neg hne]
  · rw [hmem, State.read_writePhys_outside (by omega)]
  · rw [hs', State.group?_holdTrapped (State.group?_writePhys.trans hg)]
    rfl
  · rw [hs', State.holdTrapped_held, State.writePhys_fw]
  · rw [hs', State.launch?_holdTrapped (State.launch?_writePhys.trans hl)]

end Sys2Proof.Machine
end

section
/-!
Tables with some keys taken away, and the bytes of a frame that moves (R254) or is cleared (R45, R255).
-/
namespace Sys2Proof

theorem Table.find?_filter_key {α : Type} {t : Table α} {q : Nat → Bool} {k : Nat} :
    Table.find? (t.filter fun c => q c.1) k = if q k then t.find? k else none := by
  induction t with
  | nil => simp [Table.find?]
  | cons p t ih =>
    obtain ⟨j, v⟩ := p
    rw [List.filter_cons]
    by_cases hj : j = k
    · subst hj
      cases hq : q j
      · simp [ih, hq]
      · simp [Table.find?]
    · split
      · simp [Table.find?, hj, ih]
      · simp [Table.find?, hj, ih]

theorem Table.find?_of_above {α : Type} {t : Table α} {j k : Nat} (h : Table.above j t = true) (hk : k ≤ j) : t.find? k = none := by
  induction t with
  | nil => rfl
  | cons p t ih =>
    obtain ⟨i, v⟩ := p
    simp only [Table.above, List.all_cons, Bool.and_eq_true, decide_eq_true_eq] at h
    rw [Table.find?, if_neg (by omega)]
    exact ih h.2

namespace Machine
variable {s : State} {k src dst len i : Nat}

theorem Memory.read_eq {m : Memory} : m.read k = (Table.find? m k).getD 0 := Table.get_eq _ _ _

theorem Memory.read_filter_key {m : Memory} {q : Nat → Bool} : Memory.read (m.filter fun c => q c.1) k = if q k then m.read k else 0 := by
  rw [Memory.read_eq, Table.find?_filter_key, Memory.read_eq]
  split
  · rfl
  · rfl

/-- Bytes written where others stand, in rising order: each place reads as the byte that goes to it. -/
theorem Memory.read_foldl_move {l m : Memory} (hl : Table.sorted l = true) (hs : ∀ c ∈ l, src ≤ c.1) :
    Memory.read (l.foldl (fun (m : Memory) (c : Nat × Byte) => m.write (dst + (c.1 - src)) c.2) m) (dst + i) =
      (Table.find? l (src + i)).getD (m.read (dst + i)) := by
  induction l generalizing m with
  | nil => rfl
  | cons c l ih =>
    obtain ⟨j, b⟩ := c
    have hj : src ≤ j := hs (j, b) List.mem_cons_self
    simp only [Table.sorted, Bool.and_eq_true] at hl
    rw [List.foldl_cons, ih hl.2 fun c hc => hs c (List.mem_cons_of_mem _ hc), Table.find?]
    by_cases h : j = src + i
    · rw [if_pos h, Table.find?_of_above hl.1 (by omega), show dst + (j - src) = dst + i by omega]
      exact Memory.read_write_self _ _ _
    · rw [if_neg h, Memory.read_write_ne _ _ (by omega)]

theorem Memory.read_foldl_outside {l m : Memory} {at_ : Host.Cell → Nat} (h : ∀ c ∈ l, at_ c ≠ k) :
    Memory.read (l.foldl (fun (m : Memory) (c : Nat × Byte) => m.write (at_ c) c.2) m) k = m.read k := by
  induction l generalizing m with
  | nil => rfl
  | cons c l ih =>
    rw [List.foldl_cons, ih fun c hc => h c (List.mem_cons_of_mem _ hc), Memory.read_write_ne _ _ (h c List.mem_cons_self).symm]

/-! ## Frames -/

/-- Whether a key lies in a run of keys. -/
def inRun (a len k : Nat) : Bool := decide (a ≤ k) && decide (k < a + len)

theorem inRun_iff {a : Nat} : inRun a len k = true ↔ a ≤ k ∧ k < a + len := by simp [inRun]

theorem inRun_eq_false {a : Nat} (h : k < a ∨ a + len ≤ k) : inRun a len k = false := by
  rw [Bool.eq_false_iff, ne_eq, inRun_iff]
  omega

/-- Every byte of a frame that is copied keeps its value. -/
theorem State.copyFrame_read (hm : s.MemWf) (hi : i < len) :
    (s.copyFrame src dst len).mem.read (dst + i) = s.mem.read (src + i) := by
  have sorted : Table.sorted (s.mem.filter fun c => inRun src len c.1) = true := by
    simp only [State.MemWf, Memory.wf, Table.wf, Bool.and_eq_true] at hm
    exact Table.sorted_filter _ hm.1
  have moved := Memory.read_foldl_move (m := s.mem.filter fun c => !inRun dst len c.1) (dst := dst) (i := i) sorted fun c hc =>
    (inRun_iff.mp (List.mem_filter.mp hc).2).1
  refine moved.trans ?_
  rw [Table.find?_filter_key, if_pos (inRun_iff.mpr ⟨by omega, by omega⟩),
    Memory.read_filter_key (q := fun k => !inRun dst len k), inRun_iff.mpr ⟨by omega, by omega⟩, if_neg (by decide)]
  exact Memory.read_eq.symm

theorem State.copyFrame_read_outside (h : k < dst ∨ dst + len ≤ k) : (s.copyFrame src dst len).mem.read k = s.mem.read k := by
  have moved := Memory.read_foldl_outside (l := s.mem.filter fun c => inRun src len c.1)
    (m := s.mem.filter fun c => !inRun dst len c.1) (at_ := fun c => dst + (c.1 - src)) (k := k) fun c hc => by
      have := inRun_iff.mp (List.mem_filter.mp hc).2
      omega
  refine moved.trans ?_
  rw [Memory.read_filter_key (q := fun k => !inRun dst len k), inRun_eq_false h]
  rfl

/-- A move leaves what stands outside the new frame; within the module each byte of the page keeps its value. -/
theorem State.moveFrame_read_outside {l n : Leaf} (h : k < n.frame ∨ n.frame + 2 ^ pageBits l.size ≤ k) :
    (s.moveFrame l n).mem.read k = s.mem.read k := by
  unfold State.moveFrame
  split
  · rfl
  · split
    · exact State.writeBytes_read_ne _ _ _ fun hk => by have := mem_physKeys.mp hk; omega
    · exact State.copyFrame_read_outside h

theorem State.moveFrame_eq_of_peer {l n : Leaf} (h : n.place = 3) : s.moveFrame l n = s := if_pos (.inr h)

theorem State.moveFrame_read {l n : Leaf} (hm : s.MemWf) (hl : l.place ≠ 3) (hn : n.place ≠ 3)
    (hd : l.frame + 2 ^ pageBits l.size ≤ n.frame ∨ n.frame + 2 ^ pageBits l.size ≤ l.frame) (hi : i < 2 ^ pageBits l.size) :
    (s.moveFrame l n).mem.read (n.frame + i) = s.mem.read (l.frame + i) := by
  have hb : ¬ (n.base = l.base ∨ n.place = 3) := by
    rw [Leaf.base, Leaf.base, if_neg hl, if_neg hn]
    rintro (h | h)
    · omega
    · exact hn h
  rw [State.moveFrame, if_neg hb, if_neg hl, State.copyFrame_read hm hi]

/-! ## Table entries -/

theorem lt_peer_of_not_peerKey (h : ∀ i < 8, isPeerKey (k + i) = false) : k + 8 ≤ 2 ^ 60 := by
  have := h 7 (by omega)
  simp only [isPeerKey, decide_eq_false_iff_not] at this
  omega

/-- An entry that is written reads back. -/
theorem State.readPhys_writeEntry {e : DWord} (hk : k + 8 ≤ 2 ^ 60) : (s.writePhys k (bytesOf 8 e.toNat)).readPhys k 8 = e.toNat := by
  have h := State.readPhys_writePhys (s := s) (a := k) (o := 0) (n := 8) (bs := bytesOf 8 e.toNat)
    (by rw [length_bytesOf]) (by rw [length_bytesOf]; omega)
  rw [Nat.add_zero, littleEndian_bytesOf_part (by omega)] at h
  rw [h, pow_zero, Nat.div_one]
  exact Nat.mod_eq_of_lt e.isLt

theorem State.read_writeEntry_outside {e : DWord} {j : Nat} (h : j < k ∨ k + 8 ≤ j) :
    (s.writePhys k (bytesOf 8 e.toNat)).mem.read j = s.mem.read j :=
  State.read_writePhys_outside (by rw [length_bytesOf]; exact h)

/-! ## Runs -/

theorem outside_of_disjoint {p : Nat × Nat} {qs : List (Nat × Nat)} (hp : p.2 ≠ 0)
    (h : ∀ q ∈ qs, q.1 + q.2 ≤ p.1 ∨ p.1 + p.2 ≤ q.1) : outside [p] qs = [p] := by
  induction qs with
  | nil => rfl
  | cons q qs ih =>
    have hq : cutRun q p = [p] := by
      unfold cutRun
      obtain hq | hq := h q List.mem_cons_self
      · have h1 : min (q.1 - p.1) p.2 = 0 := by omega
        have h2 : max p.1 (q.1 + q.2) = p.1 := by omega
        simp [h1, h2, hp]
      · have h1 : min (q.1 - p.1) p.2 = p.2 := by omega
        have h2 : p.1 + p.2 - max p.1 (q.1 + q.2) = 0 := by omega
        simp [h1, h2, hp]
    rw [show outside [p] (q :: qs) = outside (cutRun q p) qs by simp [outside], hq, ih fun q hq => h q (List.mem_cons_of_mem _ hq)]

theorem outside_ne_zero {ps qs : List (Nat × Nat)} (h : ∀ p ∈ ps, p.2 ≠ 0) : ∀ r ∈ outside ps qs, r.2 ≠ 0 := by
  induction qs generalizing ps with
  | nil => exact h
  | cons q qs ih =>
    refine ih fun r hr => ?_
    obtain ⟨p, -, hr⟩ := List.mem_flatMap.mp hr
    simpa using (List.mem_filter.mp hr).2

theorem State.frames_ne_zero {r : Nat × Nat} (h : r ∈ s.frames) : r.2 ≠ 0 := by
  obtain ⟨l, -, rfl⟩ := List.mem_map.mp h
  exact Nat.two_pow_pos _ |>.ne'

theorem State.mapsZeroed_iff {used : List (Nat × Nat)} : s.mapsZeroed used = true ↔ ∀ r ∈ s.frames, ∀ k, r.1 ≤ k → k < r.1 + r.2 →
    ∃ q ∈ used ++ s.fw.zeroed, q.1 ≤ k ∧ k < q.1 + q.2 := by
  rw [State.mapsZeroed, List.isEmpty_iff]
  constructor
  · intro h r hr k hlo hhi
    by_contra hnone
    obtain ⟨p, hp, -⟩ := (outside_covers s.frames (used ++ s.fw.zeroed) k).mpr
      ⟨⟨r, hr, hlo, hhi⟩, fun q hq hk => hnone ⟨q, hq, hk⟩⟩
    rw [h] at hp
    cases hp
  · intro h
    refine List.eq_nil_iff_forall_not_mem.mpr fun p hp => ?_
    have hne := outside_ne_zero (fun r => State.frames_ne_zero) p hp
    obtain ⟨⟨r, hr, hlo, hhi⟩, hnot⟩ := (outside_covers _ _ p.1).mp ⟨p, hp, le_refl _, by omega⟩
    obtain ⟨q, hq, hk⟩ := h r hr p.1 hlo hhi
    exact hnot q hq hk

/-- A run that is left whole meets none of the others. -/
theorem not_disjoint_of_outside {p r : Nat × Nat} {qs : List (Nat × Nat)} (hr : r ∈ qs) (hlo : r.1 < p.1 + p.2) (hhi : p.1 < r.1 + r.2)
    (hp : p.2 ≠ 0) (hr0 : r.2 ≠ 0) : outside [p] qs ≠ [p] := by
  intro h
  have hk : Covers p (max p.1 r.1) := ⟨by omega, by omega⟩
  obtain ⟨-, hnot⟩ := (outside_covers [p] qs (max p.1 r.1)).mp ⟨p, by rw [h]; exact List.mem_singleton_self _, hk⟩
  exact hnot r hr ⟨by omega, by omega⟩

/-! ## The events -/

section
variable {asid : BitVec 16} {page at_ : Nat} {l n : Leaf} {entry : DWord}

theorem migrationStart_happens (hw : s.walkAsid asid.toNat (page * 2 ^ 16) = .leaf at_ l) (hk : at_ + 8 ≤ 2 ^ 60)
    (hm : l.mig = false) (hs : s.ready.safe = false) : ∃ s', Happens (.migrationStart asid page) s s' ∧
      s'.readPhys at_ 8 = ((BitVec.ofNat 64 (s.readPhys at_ 8) : DWord) ||| 0x0200000000000000).toNat ∧
      (∀ k, k < at_ ∨ at_ + 8 ≤ k → s'.mem.read k = s.mem.read k) ∧ s'.groups = s.groups := by
  refine ⟨_, ?_, State.readPhys_writeEntry (s := s.keepStale asid.toNat
    (coveredPages (4 - l.size) page).1 (coveredPages (4 - l.size) page).2 at_) hk, fun k => State.read_writeEntry_outside, ?_⟩
  · show execMigrationStart asid page s = _
    unfold execMigrationStart
    simp only [hw, hm, hs, Bool.or_false, Bool.false_eq_true, if_false]
  · exact State.writePhys_groups

theorem migrationStart_notNow (hw : s.walkAsid asid.toNat (page * 2 ^ 16) = .leaf at_ l) (h : l.mig ∨ s.ready.safe) :
    NotNow (.migrationStart asid page) s := by
  have hb : (s.ready.safe || l.mig) = true := by simpa [or_comm] using h
  show execMigrationStart asid page s = _
  simp only [execMigrationStart, hw, hb, if_true]

theorem migrationComplete_notNow (hw : s.walkAsid asid.toNat (page * 2 ^ 16) = .leaf at_ l) (hn : leafOf s entry l.size = some n)
    (hr : s.remoteAt l n) : NotNow (.migrationComplete asid page entry) s := by
  show execMigrationComplete asid page entry s = _
  simp only [execMigrationComplete, hw, hn, hr, Bool.or_true, Bool.true_or, if_true]

/-- What a migration makes of the state before the new leaf is posted. -/
def State.migrated (s : State) (a page at_ : Nat) (entry : DWord) (l n : Leaf) : State :=
  let len := 2 ^ pageBits l.size
  let s := (s.moveFrame l n).remapKeys fun k => if l.base ≤ k ∧ k < l.base + len then n.base + (k - l.base) else k
  let s := s.keepStale a (coveredPages (4 - l.size) page).1 (coveredPages (4 - l.size) page).2 at_
  { s with stale := s.stale.map fun (t : Stale) =>
    if t.addr = at_ ∧ (t.old.extractLsb' 16 36).toNat * 2 ^ 16 = l.frame then
      let e := withFrame t.old entry
      { t with old := if l.place = 3 ∨ n.place = 3 ∨ leafOf s e l.size = none then withPlace t.old entry else e }
    else t }

theorem State.migrated_mem {a : Nat} : (s.migrated a page at_ entry l n).mem = (s.moveFrame l n).mem := rfl

/-- The migration that completes writes the entry over what the move of the page makes of memory. -/
theorem migrationComplete_happens (hw : s.walkAsid asid.toNat (page * 2 ^ 16) = .leaf at_ l) (hn : leafOf s entry l.size = some n)
    (hk : at_ + 8 ≤ 2 ^ 60) (hl : l.mig) (hm : n.mig = false) (hs : s.ready.safe = false) (hr : s.remoteAt l n = false)
    (h63 : entry.getLsbD 63) (h62 : entry.getLsbD 62) (hf : n.place = 3 ∨ s.frameReady n.frame n.size) :
    ∃ s', Happens (.migrationComplete asid page entry) s s' ∧ s'.readPhys at_ 8 = entry.toNat ∧
      ∀ k, k < at_ ∨ at_ + 8 ≤ k → s'.mem.read k = (s.moveFrame l n).mem.read k := by
  have hfree : (n.place == 3 || s.frameReady n.frame n.size) = true := by simpa using hf
  have run : Happens (.migrationComplete asid page entry) s
      ((s.migrated asid.toNat page at_ entry l n).writePhys at_ (bytesOf 8 entry.toNat)).takeFrames := by
    show execMigrationComplete asid page entry s = _
    unfold execMigrationComplete
    simp only [hw, hn]
    exact if_neg (by simp [hl, hm, hs, hr, h63, h62, hfree])
  refine ⟨_, run, ?_, fun k h => ?_⟩
  · rw [State.readPhys_congr (State.takeFrames_mem _) hk]
    exact State.readPhys_writeEntry hk
  rw [State.takeFrames_mem]
  exact (State.read_writeEntry_outside h).trans (congrArg (Memory.read · k) State.migrated_mem)

end

theorem two_pow_pageBits_sizeCode (size : PageSize) :
    (match size with | .kib64 => 2 ^ 16 | .mib2 => 2 ^ 21 | .gib1 => 2 ^ 30) = 2 ^ pageBits (sizeCode size) := by
  cases size <;> rfl

/-- The state with a frame cleared and marked zero-pending. -/
def State.allocated (s : State) (frame len : Nat) : State :=
  { s with
    mem := s.mem.filter fun (c : Nat × Byte) => !inRun frame len c.1
    poison := s.poison.filter fun (c : Nat × BitVec 128) => !(decide (frame / 128 ≤ c.1) && decide (c.1 < (frame + len) / 128))
    zeroPend := (s.zeroPend.filter fun r => !inRun frame len r.1) ++ [(frame, len)]
    fw := { s.fw with zeroed := outside s.fw.zeroed [(frame, len)] ++ [(frame, len)] } }

/-- An allocated frame reads as zeros; nothing else of memory changes. -/
theorem pageAllocate_happens {frame : Nat} {size : PageSize} (hlen : len = 2 ^ pageBits (sizeCode size)) (hs : s.ready.safe = false)
    (ha : frame % len = 0) (hfirst : isDeviceMemory frame) (hlast : isDeviceMemory (frame + len - 1))
    (hr : s.frameReady frame (sizeCode size)) (hd : ∀ r ∈ s.frames, r.1 + r.2 ≤ frame ∨ frame + len ≤ r.1) :
    ∃ s', Happens (.pageAllocate frame size) s s' ∧ (∀ i < len, s'.mem.read (frame + i) = 0) ∧
      (∀ k, k < frame ∨ frame + len ≤ k → s'.mem.read k = s.mem.read k) ∧ (frame, len) ∈ s'.zeroPend ∧ (frame, len) ∈ s'.fw.zeroed ∧
      s'.groups = s.groups := by
  have hpos : len ≠ 0 := hlen ▸ (Nat.two_pow_pos _).ne'
  have free : outside [(frame, len)] s.frames = [(frame, len)] := outside_of_disjoint hpos hd
  refine ⟨s.allocated frame len, ?_, ?_⟩
  · show execPageAllocate frame size s = _
    unfold execPageAllocate
    rw [← hlen]
    exact if_neg (by simp [hs, ha, hfirst, hlast, hr, free])
  · refine ⟨fun i hi => ?_, fun k hk => ?_, List.mem_append_right _ (List.mem_singleton_self _),
      List.mem_append_right _ (List.mem_singleton_self _), rfl⟩
    · exact (Memory.read_filter_key (q := fun k => !inRun frame len k)).trans
        (if_neg (by rw [inRun_iff.mpr ⟨by omega, by omega⟩]; decide))
    · exact (Memory.read_filter_key (q := fun k => !inRun frame len k)).trans (if_pos (by rw [inRun_eq_false hk]; decide))

theorem pageAllocate_notNow {frame : Nat} {size : PageSize} {r : Nat × Nat} (hr : r ∈ s.frames)
    (hlo : r.1 < frame + 2 ^ pageBits (sizeCode size)) (hhi : frame < r.1 + r.2) : NotNow (.pageAllocate frame size) s := by
  have used : outside [(frame, 2 ^ pageBits (sizeCode size))] s.frames ≠ [(frame, 2 ^ pageBits (sizeCode size))] :=
    not_disjoint_of_outside hr hlo hhi (Nat.two_pow_pos _).ne' (State.frames_ne_zero hr)
  show execPageAllocate frame size s = _
  unfold execPageAllocate
  exact if_pos (.inr (.inr (.inr (.inr (.inr used)))))

/-- What stays of a range that loses one of its lines. -/
theorem covers_cutLine {a k : Nat} {r : Nat × Nat} (h : r.1 ≤ a ∧ a + 128 ≤ r.1 + r.2) :
    (∃ q ∈ cutLine a r, q.1 ≤ k ∧ k < q.1 + q.2) ↔ (r.1 ≤ k ∧ k < r.1 + r.2) ∧ (k < a ∨ a + 128 ≤ k) := by
  simp only [cutLine, List.mem_filter, List.mem_cons, List.not_mem_nil, or_false, bne_iff_ne]
  constructor
  · rintro ⟨q, ⟨rfl | rfl, -⟩, hk⟩
    · dsimp only at hk; omega
    · dsimp only at hk; omega
  · rintro ⟨hr, hk | hk⟩
    · exact ⟨_, ⟨.inl rfl, by dsimp only; omega⟩, by dsimp only; omega⟩
    · exact ⟨_, ⟨.inr rfl, by dsimp only; omega⟩, by dsimp only; omega⟩

theorem zeroPendingClear_happens {line : Nat} {r : Nat × Nat} (hr : r ∈ s.zeroPend) (hlo : r.1 ≤ 128 * line)
    (hhi : 128 * line + 128 ≤ r.1 + r.2) : ∃ s', Happens (.zeroPendingClear line) s s' ∧ s' = { s with zeroPend := s'.zeroPend } ∧
      ∀ k, (∃ q ∈ s'.zeroPend, q.1 ≤ k ∧ k < q.1 + q.2) ↔
        (∃ q ∈ s.zeroPend, q.1 ≤ k ∧ k < q.1 + q.2 ∧ (q.1 ≤ 128 * line ∧ 128 * line + 128 ≤ q.1 + q.2 →
          k < 128 * line ∨ 128 * line + 128 ≤ k)) := by
  let hit (q : Nat × Nat) : Bool := decide (q.1 ≤ 128 * line) && decide (128 * line + 128 ≤ q.1 + q.2)
  refine ⟨{ s with zeroPend := s.zeroPend.flatMap fun q => if hit q then cutLine (128 * line) q else [q] }, ?_, rfl, fun k => ?_⟩
  · show execZeroPendingClear line s = _
    unfold execZeroPendingClear
    exact if_pos (List.any_eq_true.mpr ⟨r, hr, by simp [hlo, hhi]⟩)
  · have one (q : Nat × Nat) : (∃ p ∈ (if decide (q.1 ≤ 128 * line) && decide (128 * line + 128 ≤ q.1 + q.2) then
        cutLine (128 * line) q else [q]), p.1 ≤ k ∧ k < p.1 + p.2) ↔ q.1 ≤ k ∧ k < q.1 + q.2 ∧
          (q.1 ≤ 128 * line ∧ 128 * line + 128 ≤ q.1 + q.2 → k < 128 * line ∨ 128 * line + 128 ≤ k) := by
      split
      next h =>
        simp only [Bool.and_eq_true, decide_eq_true_eq] at h
        rw [covers_cutLine h]
        tauto
      next h =>
        simp only [Bool.and_eq_true, decide_eq_true_eq] at h
        simp only [List.mem_singleton, exists_eq_left]
        tauto
    simp only [List.mem_flatMap, ← one]
    constructor
    · rintro ⟨p, ⟨q, hq, hp⟩, hk⟩
      exact ⟨q, hq, p, hp, hk⟩
    · rintro ⟨q, hq, p, hp, hk⟩
      exact ⟨p, ⟨q, hq, hp⟩, hk⟩

/-- Settles O39: the bytes of a page that moves, of a frame that is allocated and of a line that is cleared. -/
theorem pageEvents : Obligations.PageEvents := by
  intro s
  refine ⟨fun asid page at_ l hw hpeer => ?_, fun frame size => ?_, fun frame size ⟨r, hr, hlo, hhi⟩ => pageAllocate_notNow hr hlo hhi,
    fun used => State.mapsZeroed_iff, fun line r hr hlo hhi => zeroPendingClear_happens hr hlo hhi⟩
  · have hk := lt_peer_of_not_peerKey hpeer
    refine ⟨migrationStart_happens hw hk, migrationStart_notNow hw, fun entry n hn => migrationComplete_notNow hw hn,
      fun entry n hn hl hm hs hr hplace h63 h62 => ?_, fun entry n hn hl hm hs hr hplace h63 h62 hf hwf => ?_⟩
    · obtain ⟨s', run, entryIs, rest⟩ := migrationComplete_happens hw hn hk hl hm hs hr h63 h62 (.inl hplace)
      rw [State.moveFrame_eq_of_peer hplace] at rest
      exact ⟨s', run, entryIs, rest⟩
    · obtain ⟨s', run, entryIs, rest⟩ := migrationComplete_happens hw hn hk hl hm hs hr h63 h62 (.inr hf)
      exact ⟨s', run, entryIs,
        fun hlp hd i hi hout => (rest _ hout).trans (State.moveFrame_read hwf hlp hplace hd hi),
        fun k hout hk => (rest _ hout).trans (State.moveFrame_read_outside hk)⟩
  · dsimp only
    intro hs ha hfirst hlast hr hd
    exact pageAllocate_happens (two_pow_pageBits_sizeCode size) hs ha hfirst hlast hr hd

end Machine
end Sys2Proof
end

section
/-!
The fault buffer and its service (R251, R252), and the changes of table entries that the firmware makes (R46).
-/
namespace Sys2Proof.Machine
variable {s : State} {core page : Nat} {asid : BitVec 16}

/-! ## The fault buffer -/

theorem faultBufferEntry_happens {m : Miss} (hm : (s.misses.find? fun m => m.core == core && !m.inBuffer) = some m)
    (h : s.bufferCount core < 256) : Happens (.faultBufferEntry core) s
      { s with misses := s.misses.map fun n =>
          if n.core == core && n.asid == m.asid && n.page == m.page then { n with inBuffer := true } else n } := by
  show execFaultBufferEntry core s = _
  simp only [execFaultBufferEntry, hm]
  exact if_pos (by simp [h])

theorem faultBufferEntry_notNow {m : Miss} (hm : (s.misses.find? fun m => m.core == core && !m.inBuffer) = some m)
    (h : 256 ≤ s.bufferCount core)
    (hout : ∀ n ∈ s.misses, (n.core == core && n.asid == m.asid && n.page == m.page) = true → n.inBuffer = false) :
    NotNow (.faultBufferEntry core) s := by
  have none_in : s.misses.any (fun n => (n.core == core && n.asid == m.asid && n.page == m.page) && n.inBuffer) = false := by
    refine List.any_eq_false.mpr fun n hn hb => ?_
    obtain ⟨hsame, hin⟩ := Bool.and_eq_true_iff.mp hb
    rw [hout n hn hsame] at hin
    cases hin
  show execFaultBufferEntry core s = _
  simp only [execFaultBufferEntry, hm]
  exact if_neg (by simp [none_in]; omega)

/-! ## Fills -/

theorem translationFill_happens (ho : s.oldestMiss core = some (asid.toNat, page))
    (hp : (s.bringIn asid.toNat page).present asid.toNat page) : Happens (.translationFillComplete core asid page) s
      (((s.bringIn asid.toNat page).clearMiss core asid.toNat page).2.foldl (fun s w => s.served asid.toNat page w)
        ((s.bringIn asid.toNat page).clearMiss core asid.toNat page).1) :=
  if_pos ⟨ho, hp⟩

theorem translationFill_notNow (h : s.oldestMiss core ≠ some (asid.toNat, page) ∨
    (s.bringIn asid.toNat page).present asid.toNat page = false) : NotNow (.translationFillComplete core asid page) s :=
  if_neg fun ⟨ho, hp⟩ => h.elim (· ho) fun h => by rw [h] at hp; cases hp

theorem fillFailure_happens (ho : s.oldestMiss core = some (asid.toNat, page)) (hp : s.present asid.toNat page = false) :
    Happens (.fillFailure core asid page) s
      (((s.dropPage asid.toNat page).clearMiss core asid.toNat page).2.foldl (fun s w => match w with
          | .group g => s.failGroupFill g asid.toNat page
          | w => s.served asid.toNat page w)
        ((s.dropPage asid.toNat page).clearMiss core asid.toNat page).1) :=
  if_pos ⟨ho, hp⟩

theorem fillFailure_notNow (ho : s.oldestMiss core ≠ some (asid.toNat, page)) : NotNow (.fillFailure core asid page) s :=
  if_neg fun h => ho h.1

/-- A page whose walk ends at an invalid entry is not present. -/
theorem State.present_of_invalid {a lv at_ : Nat} (hw : s.walkAsid a (page * 2 ^ 16) = .invalid lv at_) : s.present a page = false := by
  rw [State.present, hw]

theorem State.bringIn_of_notReady {a lv at_ : Nat} {leaf : DWord} (hw : s.walkAsid a (page * 2 ^ 16) = .invalid lv at_)
    (hl : s.absentLeaf at_ = some leaf) (hr : (s.makeValid at_ leaf).mapsReady s.mapped = false) : s.bringIn a page = s := by
  simp only [State.bringIn, hw, hl, hr, Bool.false_eq_true, if_false]

theorem State.bringIn_of_noLeaf {a lv at_ : Nat} (hw : s.walkAsid a (page * 2 ^ 16) = .invalid lv at_)
    (hl : s.absentLeaf at_ = none) : s.bringIn a page = s := by
  simp only [State.bringIn, hw, hl]

/-! ## Mapping changes -/

theorem State.leavesUnder_takeFrames {b : Bool} {lvs : List Nat} {table : Nat} :
    s.takeFrames.leavesUnder b lvs table = s.leavesUnder b lvs table := by
  induction lvs generalizing table with
  | nil => rfl
  | cons lv rest ih =>
    have entry (b : Bool) (a : Nat) : s.takeFrames.entryAt b a = s.entryAt b a := rfl
    have leaf (e : DWord) (z : Nat) : leafOf s.takeFrames e z = leafOf s e z := rfl
    simp only [State.leavesUnder, ih, entry, leaf, State.takeFrames_mem, State.takeFrames_fw]

theorem State.frames_takeFrames : s.takeFrames.frames = s.frames := by
  simp only [State.frames, State.leavesUnder_takeFrames, State.takeFrames_fw]

theorem mappingChange_refused {root at_ : Nat} {entry : DWord} (h : s.ready.safe ∨
    ((s.setEntry asid.toNat root at_ entry).mapsReady s.mapped && (s.setEntry asid.toNat root at_ entry).mapsZeroed s.frames) = false) :
    NotNow (.mappingChange asid page root at_ entry) s := by
  show execMappingChange asid page root at_ entry s = _
  unfold execMappingChange
  refine if_pos ?_
  obtain h | h := h
  · simp [h]
  · obtain h | h := Bool.and_eq_false_iff.mp h
    · simp [h]
    · simp [h]

theorem isDeviceMemory_lt {p : Nat} (h : isDeviceMemory p) : p < 2 ^ 43 := by
  simp only [isDeviceMemory, Bool.or_eq_true, Bool.and_eq_true, decide_eq_true_eq] at h
  omega

/-- The state in which a mapping change writes its entry: launches that run may go on using what the entry held. -/
def State.beforeChange (s : State) (a page root at_ : Nat) : State :=
  let s := { s with fw := { s.fw with roots := s.fw.roots.put a root } }
  match s.entryLevel a page at_ with
  | some l => s.keepStale a (coveredPages l page).1 (coveredPages l page).2 at_
  | none => s

/-- Only the stale entries and the firmware's roots differ from before. -/
theorem State.beforeChange_rest (s : State) (a page root at_ : Nat) :
    ∃ st fresh, s.beforeChange a page root at_ = { s with
      fw := { s.fw with roots := s.fw.roots.put a root }, stale := st, fresh := fresh } := by
  unfold State.beforeChange
  extract_lets t
  split
  · exact ⟨_, _, rfl⟩
  · exact ⟨_, _, rfl⟩

theorem mappingChange_happens {root at_ : Nat} {entry : DWord} (hs : s.ready.safe = false)
    (hroot : s.fw.roots.find? asid.toNat = some root) (ha : at_ % 8 = 0) (hd : isDeviceMemory at_) (hp : page < 2 ^ 41)
    (hr : (s.setEntry asid.toNat root at_ entry).mapsReady s.mapped) (hz : (s.setEntry asid.toNat root at_ entry).mapsZeroed s.frames) :
    Happens (.mappingChange asid page root at_ entry) s
      ((s.beforeChange asid.toNat page root at_).setEntry asid.toNat root at_ entry).takeFrames := by
  show execMappingChange asid page root at_ entry s = _
  unfold execMappingChange
  exact if_neg (by simp [hs, hroot, ha, hd, hr, hz]; omega)

variable {a root at_ : Nat} {entry : DWord}

theorem State.setEntry_fw : ∃ here : List Absent, (s.setEntry a root at_ entry).fw =
      { s.fw with roots := s.fw.roots.put a root, absent := (s.fw.absent.filter fun t => t.addr != at_) ++ here } ∧
    (∀ t ∈ here, t.addr = at_) ∧ (entry.getLsbD 63 ∨ entry.getLsbD 62 = false → here = []) := by
  refine ⟨_, State.writePhys_fw, fun t ht => ?_, fun h => ?_⟩
  · split at ht
    · cases ht
    · rw [List.mem_singleton.mp ht]
  · exact if_pos (by simpa using h)

/-- The firmware's list of absent pages after an entry is written: the entry's own goes, or comes. -/
theorem State.mem_absent_setEntry {t : Absent} (ht : t ∈ (s.setEntry a root at_ entry).fw.absent) :
    t ∈ s.fw.absent ∧ t.addr ≠ at_ ∨ t.addr = at_ ∧ ¬ (entry.getLsbD 63 ∨ entry.getLsbD 62 = false) := by
  obtain ⟨here, hfw, haddr, hnone⟩ := State.setEntry_fw (s := s) (a := a) (root := root) (at_ := at_) (entry := entry)
  rw [hfw] at ht
  obtain ht | ht := List.mem_append.mp ht
  · obtain ⟨ht, hne⟩ := List.mem_filter.mp ht
    exact .inl ⟨ht, by simpa using hne⟩
  · refine .inr ⟨haddr t ht, fun h => ?_⟩
    rw [hnone h] at ht
    cases ht

theorem mappingChange_clause (hs : s.ready.safe = false) (hroot : s.fw.roots.find? asid.toNat = some root) (ha : at_ % 8 = 0)
    (hd : ∀ i < 8, isDeviceMemory (at_ + i)) (hp : page < 2 ^ 41)
    (hready : (s.setEntry asid.toNat root at_ entry).mapsReady s.mapped && (s.setEntry asid.toNat root at_ entry).mapsZeroed s.frames) :
    ∃ s', Happens (.mappingChange asid page root at_ entry) s s' ∧ s'.readPhys at_ 8 = entry.toNat ∧
        (∀ k, k < at_ ∨ at_ + 8 ≤ k → s'.mem.read k = s.mem.read k) ∧ s'.groups = s.groups ∧
        s'.fw.zeroed = outside s.fw.zeroed s'.frames ∧
        (∀ t ∈ s'.fw.absent, t ∈ s.fw.absent ∧ t.addr ≠ at_ ∨ t.addr = at_) ∧
        (entry.getLsbD 63 ∨ entry.getLsbD 62 = false → ∀ t ∈ s'.fw.absent, t.addr ≠ at_) := by
  obtain ⟨hr, hz⟩ := Bool.and_eq_true_iff.mp hready
  have hk : at_ + 8 ≤ 2 ^ 60 := by have := isDeviceMemory_lt (hd 7 (by omega)); omega
  refine ⟨_, mappingChange_happens hs hroot ha (hd 0 (by omega)) hp hr hz, ?_, ?_, ?_, ?_, ?_, ?_⟩
  all_goals obtain ⟨st, fresh, hb⟩ := s.beforeChange_rest asid.toNat page root at_
  · rw [State.readPhys_congr (State.takeFrames_mem _) hk]
    exact State.readPhys_writeEntry hk
  · intro k hout
    rw [State.takeFrames_mem, hb]
    exact State.read_writeEntry_outside hout
  · rw [State.takeFrames_groups, hb]
    exact State.writePhys_groups
  · obtain ⟨here, hfw, -⟩ := State.setEntry_fw (s := s.beforeChange asid.toNat page root at_) (a := asid.toNat) (root := root)
      (at_ := at_) (entry := entry)
    rw [State.frames_takeFrames, State.takeFrames_fw, hfw, hb]
  · intro t ht
    obtain ⟨ht, hne⟩ | ⟨ht, -⟩ := State.mem_absent_setEntry (by rwa [State.takeFrames_fw] at ht)
    · rw [hb] at ht
      exact .inl ⟨ht, hne⟩
    · exact .inr ht
  · intro he t ht
    obtain ⟨-, hne⟩ | ⟨-, hno⟩ := State.mem_absent_setEntry (by rwa [State.takeFrames_fw] at ht)
    · exact hne
    · exact absurd he hno

/-- Settles O38: each event as its model function takes it; a mapping change leaves the entry written and nothing else of memory. -/
theorem translationEvents : Obligations.TranslationEvents := by
  intro s core asid page
  refine ⟨fun m hm => ⟨faultBufferEntry_happens hm, faultBufferEntry_notNow hm⟩,
    fun ho => ⟨translationFill_notNow (.inl ho), fillFailure_notNow ho⟩,
    fun ho => ⟨translationFill_happens ho, fun hp => translationFill_notNow (.inr hp), fun lv at_ leaf hw hl hr => ?_,
      fun lv at_ hw hl => ?_, fillFailure_happens ho⟩,
    fun hs root at_ entry => mappingChange_refused (.inl hs), fun hs root at_ entry hroot ha hd hp => ?_⟩
  · exact translationFill_notNow (.inr (by rw [State.bringIn_of_notReady hw hl hr, State.present_of_invalid hw]))
  · exact translationFill_notNow (.inr (by rw [State.bringIn_of_noLeaf hw hl, State.present_of_invalid hw]))
  · exact ⟨fun h => mappingChange_refused (.inr h), mappingChange_clause hs hroot ha hd hp⟩

end Sys2Proof.Machine
end

section
/-!
Loads and literals (R230, R234), segment registers (R235), hints (R264) and lookups (R266): what each names at issue.
-/
namespace Sys2Proof.Machine
variable {s : State} {r : TRef} {g : Group} {t : Thread} {f : Fields} {i : Instr} {e : Stop}

theorem issueDefer_stops {src : TRef → Group → Thread → State → Except Stop (Dst × Src)} (h : Issues s r g t i f)
    (b : src r g t s = .error e) : issueDefer i f src s = .next (s.stopAt r e) :=
  issueEach_stops h (by rw [b]; rfl)

/-! ## Loads -/

theorem State.load_ok {a : Acc × List Leaf} (h : s.operand g t f (tySize f.t) (tyAlign f.t) false .read = .ok a) :
    s.load g t f = .ok (loadDst f, .load a.1 f.t f.fn.toNat) := by
  rw [State.load, h]
  rfl

theorem State.load_error (h : s.operand g t f (tySize f.t) (tyAlign f.t) false .read = .error e) : s.load g t f = .error e := by
  rw [State.load, h]
  rfl

theorem dstOf_word {d : BitVec 8} (h : d.toNat ≤ 191 ∨ d = 248) : dstOf d = if d = 248 then .none else .regs d.toNat 1 := by
  unfold dstOf
  obtain h | rfl := h
  · have hd : d ≠ 248 := by rintro rfl; simp at h
    rw [if_pos h, if_neg hd]
  · rfl

/-- The destination of a load, by its type (R214). -/
theorem loadDst_eq (h : f.d.toNat ≤ 191 ∨ f.d = 248) : loadDst f = if f.d = 248 then .none else match f.t with
    | .bf16l => .half f.d.toNat false
    | .bf16h => .half f.d.toNat true
    | _ => .regs f.d.toNat 1 := by
  unfold loadDst
  obtain h | h := h
  · have hd : f.d ≠ 248 := by intro hd; rw [hd] at h; simp at h
    rw [if_neg hd]
    cases f.t <;> simp only [dstOf, h, if_true]
  · rw [h]
    split <;> rfl

theorem tySize_eq (ty : Ty) : tySize ty = match ty with
    | .b32 | .i32 | .n32 | .f32 | .bf16x2 => 4
    | .bf16l | .bf16h | .f16 | .i16 | .n16 => 2
    | .l6 => 3
    | _ => 1 := by cases ty <;> rfl

theorem tyAlign_eq (ty : Ty) : tyAlign ty = if ty = .l6 then 1 else tySize ty := by cases ty <;> rfl

theorem tyAlign_cases (ty : Ty) : tyAlign ty = match ty with
    | .b32 | .i32 | .n32 | .f32 | .bf16x2 => 4
    | .bf16l | .bf16h | .f16 | .i16 | .n16 => 2
    | _ => 1 := by cases ty <;> rfl

/-! ## Literals -/

/-- The index and displacement of a literal in its pool's body. -/
def Thread.literalAt (t : Thread) (f : Fields) : Nat :=
  (f.imm.toNat % 2 ^ 12 + (if f.c = 248 then 0 else t.reg f.c.toNat : Word).toNat * 2 ^ f.x.toNat) % 2 ^ 32

theorem State.literal_noPool (h : s.checkPool g (t.poolAt f) = .error e) : s.literal g t f = .error e := by
  simp [State.literal, h, bind, Except.bind]

section
variable {body : List Byte}

theorem State.literal_outside (h : s.checkPool g (t.poolAt f) = .ok body)
    (ho : t.literalAt f % 4 ≠ 0 ∨ body.length < t.literalAt f + 4) : s.literal g t f = .error (.of .badTarget 0 t.pc.toNat) := by
  rw [Thread.literalAt] at ho
  simp only [State.literal, h, bind, Except.bind, throw, throwThe, MonadExceptOf.throw]
  exact if_pos ho

/-- The address of a literal in the code. -/
def State.literalAddr (s : State) (g : Group) (t : Thread) (f : Fields) : Nat :=
  (s.launchOf g).r.code + (t.poolAt f).toNat + 8 + t.literalAt f

theorem State.literal_inside (h : s.checkPool g (t.poolAt f) = .ok body) (ho : t.literalAt f % 4 = 0)
    (hl : t.literalAt f + 4 ≤ body.length) :
    s.literal g t f = (s.accessAt (s.aspace g) ⟨false, s.literalAddr g t f⟩ 4 4 .exec).map fun a =>
      (dstOf f.d, .load a.1 .b32 0) := by
  have hin : ¬ (t.literalAt f % 4 ≠ 0 ∨ body.length < t.literalAt f + 4) := by omega
  rw [State.literalAddr]
  rw [Thread.literalAt] at hin ⊢
  simp only [State.literal, h, bind, Except.bind, if_neg hin]
  cases s.accessAt (s.aspace g) ⟨false, _⟩ 4 4 .exec <;> rfl

end

/-! ### A word on one page -/

theorem pagesOf_word {va : Nat} (h : va % 4 = 0) : pagesOf va 4 = [va] := by
  have one : (va + 4 - 1) / 2 ^ 16 - va / 2 ^ 16 = 0 := by omega
  rw [pagesOf, if_neg (by decide), one]
  rfl

theorem State.accessAt_word_error {sp : Aspace} {u : Use} {va : Nat} (h : va % 4 = 0) (he : s.leaves sp u [va] = .error e) :
    s.accessAt sp ⟨false, va⟩ 4 4 u = .error e := by
  simp only [State.accessAt, h, pagesOf_word h, he]
  rfl

section
variable {sp : Aspace} {u : Use} {va : Nat} {rest : List Nat}

theorem State.leaves_miss {c : Nat} (h : s.translate sp.launch sp.asid va = .miss c) :
    s.leaves sp u (va :: rest) = .error (.miss sp.asid va c) := by
  rw [State.leaves, h]

theorem State.leaves_unmapped (h : s.translate sp.launch sp.asid va = .unmapped) :
    s.leaves sp u (va :: rest) = .error (.of .translation 3 va) := by
  rw [State.leaves, h]

theorem State.leaves_later (h : s.translate sp.launch sp.asid va = .later) : s.leaves sp u (va :: rest) = .error .later := by
  rw [State.leaves, h]

theorem State.leaves_protected {l : Leaf} (h : s.translate sp.launch sp.asid va = .ok l) (hu : u.protects l = false) :
    s.leaves sp u (va :: rest) = .error (.of .protection 0 va) := by
  rw [State.leaves, h]
  exact if_pos (by rw [hu]; rfl)

end

/-! ## Segment registers, hints and lookups -/

theorem Thread.hinted_error (h : t.place f.a.toNat (t.memOff f) 1 false = .error e) : t.hinted f = .error e := by
  simp [Thread.hinted, h, bind, Except.bind]

section
variable {loc : Loc} (hp : t.place f.a.toNat (t.memOff f) 1 false = .ok loc)
include hp

theorem Thread.hinted_unaligned (ha : loc.addr % tyAlign f.t ≠ 0) : t.hinted f = .error (.of .alignment 0 loc.addr) := by
  simp [Thread.hinted, hp, bind, Except.bind, ha, throw, throwThe, MonadExceptOf.throw]

theorem Thread.hinted_ok (ha : loc.addr % tyAlign f.t = 0) : t.hinted f = .ok loc := by
  simp [Thread.hinted, hp, bind, Except.bind, ha, pure, Except.pure]

end

theorem State.hint_error (h : t.hinted f = .error e) : s.hint t f = .stop e := by
  rw [State.hint, h]

theorem State.hint_ok {loc : Loc} (h : t.hinted f = .ok loc) : s.hint t f = .next s := by
  rw [State.hint, h]

theorem setWidth_eq_extractLsb' (v : DWord) : v.setWidth 32 = v.extractLsb' 0 32 := by
  rw [BitVec.setWidth_eq_extractLsb' (by decide)]

/-- No translation is stale: a walk reads the tables as they stand. -/
theorem State.tables_of_no_stale {launch asid va : Nat} (h : s.stale = []) : s.tables launch asid va = s := by
  simp [State.tables, h]

/-- What `xlat` finds where no translation is stale. -/
theorem State.lookup_of_no_stale {va fn : Nat} (h : s.stale = []) : s.lookup g va fn =
    if fn = 0 ∧ s.bit (va + 2 ^ 95) = true then [0, 0]
    else match s.walkAsid (s.launchOf g).r.asid va with
      | .leaf _ l => xlatWords l va
      | .malformed => if fn = 0 then [0, 0] else [0x80000000, 0]
      | .invalid .. | .noTable | .later => [0, 0] := by
  simp only [State.lookup, State.tables_of_no_stale h]
  rfl

theorem length_xlatWords {l : Leaf} {va : Nat} : (xlatWords l va).length = 2 := rfl

theorem State.length_lookup {va fn : Nat} : (s.lookup g va fn).length = 2 := by
  unfold State.lookup
  extract_lets sp
  split
  · rfl
  · split
    · exact length_xlatWords
    · split <;> rfl
    · rfl
    · rfl
    · rfl

/-- Each outcome of a walk with no stale translation, as `xlat` answers it. -/
theorem State.lookup_cases {va fn : Nat} (h : s.stale = []) :
    (fn = 1 → ∀ a l, s.walkAsid (s.launchOf g).r.asid va = .leaf a l → s.lookup g va fn = xlatWords l va) ∧
    (fn = 1 → s.walkAsid (s.launchOf g).r.asid va = .malformed → s.lookup g va fn = [0x80000000, 0]) ∧
    (fn = 0 → ∀ a l, s.walkAsid (s.launchOf g).r.asid va = .leaf a l →
      s.lookup g va fn = xlatWords l va ∨ s.lookup g va fn = [0, 0]) ∧
    (fn = 0 → s.walkAsid (s.launchOf g).r.asid va = .malformed → s.lookup g va fn = [0, 0]) ∧
    (∀ lv a, s.walkAsid (s.launchOf g).r.asid va = .invalid lv a → s.lookup g va fn = [0, 0]) ∧
    (s.walkAsid (s.launchOf g).r.asid va = .noTable → s.lookup g va fn = [0, 0]) := by
  rw [State.lookup_of_no_stale h]
  refine ⟨fun hf a l hw => ?_, fun hf hw => ?_, fun hf a l hw => ?_, fun hf hw => ?_, fun lv a hw => ?_, fun hw => ?_⟩
  · rw [hw, if_neg (by omega)]
  · rw [hw, if_neg (by omega), hf]
    rfl
  · rw [hw]
    split
    · exact .inr rfl
    · exact .inl rfl
  · rw [hw, hf]
    split <;> rfl
  · rw [hw]
    split <;> rfl
  · rw [hw]
    split <;> rfl

/-- The addresses that `ld` and `ldq` name, checked at issue. -/
theorem load_clause (hi : i = .ld f ∨ i = .ldq f) (h : Issues s r g t i f) :
    (∀ acc ls, s.operand g t f (tySize f.t) (tyAlign f.t) false .read = .ok (acc, ls) →
      Defers i s r f (loadDst f) (.load acc f.t f.fn.toNat)) ∧
    (∀ e, s.operand g t f (tySize f.t) (tyAlign f.t) false .read = .error e → StopsWith i s r e) := by
  obtain rfl | rfl := hi
  · exact ⟨fun acc ls ho => exec_ld.trans (issueDefer_alone h (State.load_ok ho)),
      fun e ho => exec_ld.trans (issueDefer_stops h (State.load_error ho))⟩
  · exact ⟨fun acc ls ho => exec_ldq.trans (issueDefer_alone h (State.load_ok ho)),
      fun e ho => exec_ldq.trans (issueDefer_stops h (State.load_error ho))⟩

theorem literal_clause (h : Issues s r g t (.ldk f) f) :
    (∀ e, s.checkPool g (t.poolAt f) = .error e → StopsWith (.ldk f) s r e) ∧
    (∀ body, s.checkPool g (t.poolAt f) = .ok body →
      (t.literalAt f % 4 ≠ 0 ∨ body.length < t.literalAt f + 4 → StopsWith (.ldk f) s r (.of .badTarget 0 t.pc.toNat)) ∧
      (t.literalAt f % 4 = 0 → t.literalAt f + 4 ≤ body.length →
        let va := s.literalAddr g t f
        let sp := s.aspace g
        let word := s.accessAt sp ⟨false, va⟩ 4 4 .exec
        (∀ acc ls, word = .ok (acc, ls) → Defers (.ldk f) s r f (dstOf f.d) (.load acc .b32 0)) ∧
        (∀ e, word = .error e → StopsWith (.ldk f) s r e) ∧
        (va % 4 = 0 →
          (∀ c, s.translate sp.launch sp.asid va = .miss c → StopsWith (.ldk f) s r (.miss sp.asid va c)) ∧
          (s.translate sp.launch sp.asid va = .unmapped → StopsWith (.ldk f) s r (.of .translation 3 va)) ∧
          (s.translate sp.launch sp.asid va = .later → StopsWith (.ldk f) s r .later) ∧
          (∀ l, s.translate sp.launch sp.asid va = .ok l → l.x = false →
            StopsWith (.ldk f) s r (.of .protection 0 va))))) := by
  have stops {e : Stop} (he : s.literal g t f = .error e) : StopsWith (.ldk f) s r e := exec_ldk.trans (issueDefer_stops h he)
  refine ⟨fun e he => stops (State.literal_noPool he), fun body hb => ⟨fun ho => stops (State.literal_outside hb ho),
    fun ho hl => ?_⟩⟩
  have inside := State.literal_inside hb ho hl
  have bad {e : Stop} (he : s.accessAt (s.aspace g) ⟨false, s.literalAddr g t f⟩ 4 4 .exec = .error e) : StopsWith (.ldk f) s r e :=
    stops (by rw [inside, he]; rfl)
  refine ⟨fun acc ls hw => exec_ldk.trans (issueDefer_alone h (by rw [inside, hw]; rfl)), fun e => bad, fun ha => ⟨?_, ?_, ?_, ?_⟩⟩
  · exact fun c hc => bad (State.accessAt_word_error ha (State.leaves_miss hc))
  · exact fun hc => bad (State.accessAt_word_error ha (State.leaves_unmapped hc))
  · exact fun hc => bad (State.accessAt_word_error ha (State.leaves_later hc))
  · exact fun l hc hx => bad (State.accessAt_word_error ha (State.leaves_protected hc hx))

theorem sgset_clause (h : Issues s r g t (.sgset f) f) :
    (33 ≤ segLim (t.opB f ++ t.opA f) ∧ segLim (t.opB f ++ t.opA f) ≤ 62 → StopsWith (.sgset f) s r (.of .segment 4)) ∧
    (segLim (t.opB f ++ t.opA f) ≤ 32 ∨ segLim (t.opB f ++ t.opA f) = 63 →
      GoesOn (.sgset f) s r f (s.modThread r fun u => { u with s := u.s.set (f.d.toNat - 200) (t.opB f ++ t.opA f) })) :=
  ⟨fun hb => exec_sgset.trans (issueEach_stops h (if_pos hb)), fun hb => exec_sgset.trans (issueEach_goesOn h (if_neg (by omega)))⟩

theorem sgget_clause (h : Issues s r g t (.sgget f) f) : Defers (.sgget f) s r f (dstOf f.d 2)
    (.sampled [(t.seg (f.a.toNat - 200)).extractLsb' 0 32, (t.seg (f.a.toNat - 200)).extractLsb' 32 32]) :=
  exec_sgget.trans (issueSampled_alone h (by dsimp only; rw [setWidth_eq_extractLsb']))

theorem hint_clause (hi : i = .pref f ∨ i = .evict f) (h : Issues s r g t i f) :
    (∀ e, t.hinted f = .error e → StopsWith i s r e) ∧ (∀ loc, t.hinted f = .ok loc → GoesOn i s r f s) := by
  obtain rfl | rfl := hi
  · exact ⟨fun e he => exec_pref.trans (issueEach_stops h (State.hint_error he)),
      fun loc ho => exec_pref.trans (issueEach_goesOn h (State.hint_ok ho))⟩
  · exact ⟨fun e he => exec_evict.trans (issueEach_stops h (State.hint_error he)),
      fun loc ho => exec_evict.trans (issueEach_goesOn h (State.hint_ok ho))⟩

theorem xlat_stops (h : Issues s r g t (.xlat f) f) (he : t.hinted f = .error e) : StopsWith (.xlat f) s r e :=
  exec_xlat.trans (issueDefer_stops h (by simp [he, bind, Except.bind]))

section
variable {loc : Loc} (h : Issues s r g t (.xlat f) f) (ho : t.hinted f = .ok loc)
include h ho

theorem xlat_later (hw : (s.tables g.launch (s.launchOf g).r.asid loc.addr).walkAsid (s.launchOf g).r.asid loc.addr = .later) :
    StopsWith (.xlat f) s r .later :=
  exec_xlat.trans (issueDefer_stops h (by
    simp only [ho, bind, Except.bind, throw, throwThe, MonadExceptOf.throw]
    exact if_pos hw))

theorem xlat_defers (hw : (s.tables g.launch (s.launchOf g).r.asid loc.addr).walkAsid (s.launchOf g).r.asid loc.addr ≠ .later) :
    Defers (.xlat f) s r f (dstOf f.d 2) (.sampled (s.lookup g loc.addr f.fn.toNat)) :=
  exec_xlat.trans (issueDefer_alone h (by
    simp only [ho, bind, Except.bind, throw, throwThe, MonadExceptOf.throw]
    exact if_neg hw))

end

/-- Settles O22: each clause is the body of its instruction, on the case that it names. -/
theorem loadsAndSegments : Obligations.LoadsAndSegments := by
  refine ⟨fun s r g t f => ?_, fun s r g t f => ?_⟩
  · dsimp only
    intro hd
    refine ⟨fun i hi h => ?_, fun h hty => ?_⟩
    · have := load_clause (by simpa using hi) h
      rwa [loadDst_eq hd, tyAlign_eq, tySize_eq] at this
    · have hdst : dstOf f.d = if f.d = 248 then .none else match f.t with
          | .bf16l => .half f.d.toNat false
          | .bf16h => .half f.d.toNat true
          | _ => .regs f.d.toNat 1 := by
        rw [dstOf_word hd]
        obtain hty | hty | hty | hty := hty <;> rw [hty]
      have := literal_clause h
      rwa [hdst] at this
  · intro off align
    have halign : align = tyAlign f.t := (tyAlign_cases f.t).symm
    clear_value align
    subst halign
    refine ⟨sgset_clause, sgget_clause, fun i hi h => ?_, fun h => ⟨fun e he => xlat_stops h (Thread.hinted_error he),
      fun loc hp ha => xlat_stops h (Thread.hinted_unaligned hp ha), fun loc hp ha => ⟨xlat_later h (Thread.hinted_ok hp ha),
        fun hw => ⟨s.lookup g loc.addr f.fn.toNat, State.length_lookup, xlat_defers h (Thread.hinted_ok hp ha) hw, ?_⟩⟩⟩⟩
    · obtain ⟨bad, good⟩ := hint_clause (by simpa using hi) h
      exact ⟨fun e he => bad e (Thread.hinted_error he), fun loc hp =>
        ⟨fun ha => bad _ (Thread.hinted_unaligned hp ha), fun ha => good loc (Thread.hinted_ok hp ha)⟩⟩
    · have one : f.fn = 1 → f.fn.toNat = 1 := fun h => by rw [h]; rfl
      have zero : f.fn = 0 → f.fn.toNat = 0 := fun h => by rw [h]; rfl
      exact ⟨fun hs hf => (State.lookup_cases hs).1 (one hf), fun hs hf => (State.lookup_cases hs).2.1 (one hf),
        fun hs hf => (State.lookup_cases hs).2.2.1 (zero hf), fun hs hf => (State.lookup_cases hs).2.2.2.1 (zero hf),
        fun hs => (State.lookup_cases hs).2.2.2.2.1, fun hs => (State.lookup_cases hs).2.2.2.2.2⟩

end Sys2Proof.Machine
end

section
/-!
Stores, fetching and conditional writes and AtomicOps at issue (R231-R233, R265): the write that is formed and the cells it takes.
-/
namespace Sys2Proof.Machine
variable {s : State} {r : TRef} {g : Group} {t : Thread} {f : Fields} {i : Instr} {e : Stop}

/-- Taking cells leaves the group in place. -/
theorem State.group?_takeCells {n m : Nat} {w : Write} (h : s.group? r.grp = some g) :
    ∃ y, (s.takeCells r n m w).group? r.grp = some y := by
  unfold State.takeCells
  split
  next hn => cases h.symm.trans hn
  · extract_lets d all full
    split
    · exact ⟨_, State.group?_modDom (by assumption)⟩
    · exact ⟨_, State.group?_modDom (by assumption)⟩

/-- A write enters the buffer with its order and the cells that it has taken (R19, R257). -/
theorem State.bufferWrite_eq {w : Write} (h : s.group? r.grp = some g) (ho : w.order = s.fresh) :
    ∃ y, (s.takeCells r (cellNeed g (g.domOf r.tid) false w) (cellNeed g (g.domOf r.tid) true w) w).group? r.grp = some y ∧
      s.bufferWrite r w = ((s.takeCells r (cellNeed g (g.domOf r.tid) false w) (cellNeed g (g.domOf r.tid) true w) w).buffer r
        (.write { w with spilled := y.spills (g.domOf r.tid) })).bump := by
  have same : { w with order := s.fresh } = w := by rw [← ho]
  obtain ⟨y, hy⟩ := State.group?_takeCells (n := cellNeed g (g.domOf r.tid) false w) (m := cellNeed g (g.domOf r.tid) true w) (w := w) h
  refine ⟨y, hy, ?_⟩
  unfold State.bufferWrite
  simp only [h, same, hy]
  rw [← ho]

theorem State.bufferWrite_order {w : Write} : s.bufferWrite r w = s.bufferWrite r { w with order := s.fresh } := rfl

/-- The group of a thread that has deferred a result: its mode, and so its domains, are as before. -/
theorem State.group?_defer {dst : Dst} {src : Src} (h : s.group? r.grp = some g) :
    ∃ x, (s.defer r dst src).group? r.grp = some x ∧ x.domOf = g.domOf :=
  ⟨_, (State.group?_modThread _ _ _).trans (congrArg (Option.map _) h), rfl⟩

/-- A word type's element is the whole word. -/
theorem elemAt_word (h : f.t = .b32 ∨ f.t = .i32 ∨ f.t = .n32 ∨ f.t = .f32) : elemAt f.t 0 = (0, 32) := by
  obtain h | h | h | h := h <;> rw [h] <;> rfl

/-- The write of a whole word, formed with its order (R232, R233). -/
def formWord (f : Fields) (acc : Acc) (ls : List Leaf) (v : Word) (k : WriteKind) (pc : Word) (n : Nat) : Write :=
  let place := match ls with | l :: _ => l.place | [] => 0
  let w : Write := { acc := acc, mask := 2 ^ 32 - 1, value := v.toNat, rule := f.m.toNat, t := f.t, kind := k, pc := pc, order := n,
                     system := place == 2, memside := place == 1 }
  { w with peer := w.onPeer }

theorem wordWrite_order {acc : Acc} {ls : List Leaf} {v : Word} {k : WriteKind} {pc : Word} {n : Nat}
    (h : f.t = .b32 ∨ f.t = .i32 ∨ f.t = .n32 ∨ f.t = .f32) :
    { wordWrite f acc ls v k pc with order := n } = formWord f acc ls v k pc n := by
  have hz : elemAt f.t (0 : BitVec 6).toNat = (0, 32) := elemAt_word h
  have hv : v.toNat % 2 ^ 32 * 2 ^ 0 = v.toNat := by rw [Nat.mod_eq_of_lt v.isLt, pow_zero, Nat.mul_one]
  simp only [wordWrite, makeWrite, hz]
  rw [hv]
  rfl

/-- The instruction goes on with the write `w` buffered over `s'`, in the overflow region where the step has spilled. -/
def Forms (i : Instr) (s : State) (r : TRef) (g : Group) (f : Fields) (s' : State) (x : Group) (w : Write) : Prop :=
  let c := s'.takeCells r (cellNeed x (g.domOf r.tid) false w) (cellNeed x (g.domOf r.tid) true w) w
  ∃ y, c.group? r.grp = some y ∧ GoesOn i s r f (c.buffer r (.write { w with spilled := y.spills (g.domOf r.tid) })).bump

theorem forms_of_bufferWrite {s' : State} {x : Group} {w v : Write} (hx : s'.group? r.grp = some x) (hd : x.domOf = g.domOf)
    (hw : { w with order := s'.fresh } = v) (h : GoesOn i s r f (s'.bufferWrite r w)) : Forms i s r g f s' x v := by
  obtain ⟨y, hy, e⟩ := State.bufferWrite_eq (w := v) hx (by rw [← hw])
  rw [hd] at hy e
  rw [State.bufferWrite_order, hw, e] at h
  exact ⟨y, hy, h⟩

/-! ## The instructions -/

section
variable {acc : Acc} {ls : List Leaf}

/-- A store as it is formed (R231). -/
def State.formStore (s : State) (t : Thread) (f : Fields) (acc : Acc) (ls : List Leaf) : Write :=
  { makeWrite f acc ls (narrow f.t (t.stored f)) .st t.pc with order := s.fresh }

theorem store_clause (hi : i = .st f ∨ i = .stq f) (h : Issues s r g t i f) :
    (∀ e, s.operand g t f (tySize f.t) (tyAlign f.t) true (.write f.m.toNat f.t 0) = .error e → StopsWith i s r e) ∧
    ∀ acc ls, s.operand g t f (tySize f.t) (tyAlign f.t) true (.write f.m.toNat f.t 0) = .ok (acc, ls) →
      Forms i s r g f s g (s.formStore t f acc ls) := by
  have run (act : Act) : s.store r g t f = act → exec i s = .next (s.finish r f act) := by
    rintro rfl
    obtain rfl | rfl := hi
    · exact exec_st.trans (issueEach_alone _ h)
    · exact exec_stq.trans (issueEach_alone _ h)
  refine ⟨fun e he => run (.stop e) (by rw [State.store, he]; rfl), fun acc ls ho => ?_⟩
  exact forms_of_bufferWrite h.group rfl rfl (run (.next _) (by rw [State.store, ho]; rfl))

/-- The old value of a fetching write goes to a register, or nowhere. -/
theorem fwr_clause (h : Issues s r g t (.fwr f) f) (hty : f.t = .b32 ∨ f.t = .i32 ∨ f.t = .n32 ∨ f.t = .f32)
    (ho : s.operand g t f 4 4 true (.write f.m.toNat f.t 1) = .ok (acc, ls)) :
    ∃ x, (s.defer r (dstOf f.d) .commit).group? r.grp = some x ∧ Forms (.fwr f) s r g f (s.defer r (dstOf f.d) .commit) x
      (formWord f acc ls (t.stored f) (.fwr s.fresh) t.pc (s.fresh + 1)) := by
  obtain ⟨x, hx, hd⟩ := State.group?_defer (dst := dstOf f.d) (src := .commit) h.group
  exact ⟨x, hx, forms_of_bufferWrite hx hd (wordWrite_order hty)
    (exec_fwr.trans (issueEach_goesOn h (by rw [ho]; rfl)))⟩

theorem cwr_clause (h : Issues s r g t (.cwr f) f) (hty : f.t = .b32 ∨ f.t = .i32 ∨ f.t = .n32 ∨ f.t = .f32)
    (ho : s.operand g t f 4 4 true (.write f.m.toNat f.t 2) = .ok (acc, ls)) :
    ∃ x, (s.defer r (dstPred f.d) .commit).group? r.grp = some x ∧ Forms (.cwr f) s r g f (s.defer r (dstPred f.d) .commit) x
      (formWord f acc ls (t.srcHi f.b) (.cwr f.fn.toNat (t.reg f.b.toNat) s.fresh) t.pc (s.fresh + 1)) := by
  obtain ⟨x, hx, hd⟩ := State.group?_defer (dst := dstPred f.d) (src := .commit) h.group
  exact ⟨x, hx, forms_of_bufferWrite hx hd (wordWrite_order hty)
    (exec_cwr.trans (issueEach_goesOn h (by rw [ho]; rfl)))⟩

/-- An AtomicOp as it is queued (R265). -/
def State.formSatom (s : State) (t : Thread) (f : Fields) (acc : Acc) : Satom :=
  { acc := acc, fn := f.fn.toNat, x := t.stored f, y := if f.fn = 2 then t.srcHi f.b else 0, seq := s.fresh, pc := t.pc, t := f.t,
    order := s.fresh + 1 }

theorem satom_clause (h : Issues s r g t (.satom f) f) (ho : s.operand g t f 4 4 true .satom = .ok (acc, ls)) :
    GoesOn (.satom f) s r f (((s.defer r (dstOf f.d) .commit).takeCells r 1 1
      ((s.formSatom t f acc).asWriter r.tid ((s.defer r (dstOf f.d) .commit).rank g r.tid)).w).buffer r
        (.satom (s.formSatom t f acc))).bump :=
  exec_satom.trans (issueEach_goesOn h (by rw [ho]; rfl))

end

/-- Settles O23: the write of each instruction is formed by its operands and buffered with the cells it takes. -/
theorem stores : Obligations.Stores := by
  intro s r g t f
  exact ⟨fun i hi h => store_clause (by simpa using hi) h, fun h hty acc ls => fwr_clause h hty, fun h hty acc ls => cwr_clause h hty,
    fun h acc ls => satom_clause h⟩

end Sys2Proof.Machine
end

section
/-!
What a core does for threads that wait: the checks of parks (R147, R280, R331), timers (R390), the lane-sync fault (R200), the grants
to the heads of lines (R121, R328, R335) and the fills of the instruction cache (R94).
-/
namespace Sys2Proof.Machine
variable {s s' : State} {gn tid core : Nat} {x : Group} {t : Thread}

/-! ## Parked `waitv`s -/

section
variable {w : WaitV} (hg : s.group? gn = some x) (ht : s.thread? ⟨gn, tid⟩ = some t)
include hg ht

theorem waitvEvaluation_eq (hr : x.st = .running) (hw : t.st = .waitv w) :
    Happens (.waitvPeriodicEvaluation gn tid) s (s.evalWait ⟨gn, tid⟩) := by
  show execWaitvPeriodicEvaluation gn tid s = _
  simp only [execWaitvPeriodicEvaluation, hg, ht, hr, hw]

theorem State.evalWait_busy (hw : t.st = .waitv w)
    (h : (x.dom (x.domOf tid)).phase ≠ .run ∨ (x.dom (x.domOf tid)).prep ≠ none ∨ t.late) : s.evalWait ⟨gn, tid⟩ = s := by
  have stays : (!x.runs || !(x.dom (x.domOf tid)).between || t.late) = true := by
    obtain h | h | h := h
    · simp [Domain.between, h]
    · simp [Domain.between, Option.isSome_iff_ne_none, h]
    · simp [h]
  simp only [State.evalWait, hg, ht, hw, stays, if_true]

/-- Between two boundaries the address of the wait is translated and its word read. -/
theorem State.evalWait_eq (hw : t.st = .waitv w) (hr : x.st = .running) (hp : (x.dom (x.domOf tid)).phase = .run)
    (hn : (x.dom (x.domOf tid)).prep = none) (hl : t.late = false) : s.evalWait ⟨gn, tid⟩ =
      match s.accessAt (s.aspace x) ⟨w.acc.sp, w.acc.va⟩ 4 1 .read with
      | .error (.miss asid va cause) => if x.awaitsPage asid (va / 2 ^ 16) then s else s.replay ⟨gn, tid⟩ asid va cause
      | .error .check => s.kill gn
      | .error _ => s
      | .ok (a, _) =>
        if a.keys.any s.prepared then s
        else if s.poisoned a.keys then s.kill gn
        else if cmpWord w.cmp w.t (BitVec.ofNat 32 (s.readNat a.keys)) w.b then
          s.modThread ⟨gn, tid⟩ (Thread.goOn · (x.dom (x.domOf tid)).paused)
        else s.modThread ⟨gn, tid⟩ fun t => { t with st := .waitv { w with unread := false } } := by
  have goes : (!x.runs || !(x.dom (x.domOf tid)).between || t.late) = false := by
    simp [Group.runs, Domain.between, hr, hp, hn, hl]
  simp only [State.evalWait, hg, ht, hw, goes]
  rfl

theorem waitv_clause (hr : x.st = .running) (hw : t.st = .waitv w) :
    let e := Instr.waitvPeriodicEvaluation gn tid
    let got := s.accessAt (s.aspace x) ⟨w.acc.sp, w.acc.va⟩ 4 1 .read
    let k := x.dom (x.domOf tid)
    (k.phase ≠ .run ∨ k.prep ≠ none ∨ t.late → Happens e s s) ∧
    (k.phase = .run → k.prep = none → t.late = false →
      (∀ asid va c, got = .error (.miss asid va c) →
        (x.awaitsPage asid (va / 2 ^ 16) → Happens e s s) ∧
        (x.awaitsPage asid (va / 2 ^ 16) = false → Happens e s (s.replay ⟨gn, tid⟩ asid va c))) ∧
      (∀ acc ls, got = .ok (acc, ls) →
        (acc.keys.any s.prepared → Happens e s s) ∧
        (acc.keys.any s.prepared = false → s.poisoned acc.keys → Happens e s (s.kill gn)) ∧
        (acc.keys.any s.prepared = false → s.poisoned acc.keys = false →
          let holds := cmpWord w.cmp w.t (BitVec.ofNat 32 (s.readNat acc.keys)) w.b
          (holds → Happens e s (s.modThread ⟨gn, tid⟩ fun t => { t with st := if k.paused then .pause else .ready })) ∧
          (holds = false → Happens e s (s.modThread ⟨gn, tid⟩ fun t => { t with st := .waitv { w with unread := false } }))))) := by
  intro e got k
  have run : Happens e s (s.evalWait ⟨gn, tid⟩) := waitvEvaluation_eq hg ht hr hw
  refine ⟨fun h => ?_, fun hp hn hl => ⟨fun asid va c hgot => ?_, fun acc ls hgot => ?_⟩⟩
  · rwa [State.evalWait_busy hg ht hw h] at run
  · rw [State.evalWait_eq hg ht hw hr hp hn hl, show s.accessAt (s.aspace x) ⟨w.acc.sp, w.acc.va⟩ 4 1 .read = _ from hgot] at run
    dsimp only at run
    exact ⟨fun h => by rwa [if_pos h] at run, fun h => by rwa [if_neg (by rw [h]; decide)] at run⟩
  · rw [State.evalWait_eq hg ht hw hr hp hn hl, show s.accessAt (s.aspace x) ⟨w.acc.sp, w.acc.va⟩ 4 1 .read = _ from hgot] at run
    dsimp only at run
    refine ⟨fun h => by rwa [if_pos h] at run, fun h hb => by rwa [if_neg (by simp [h]), if_pos hb] at run, fun h hb => ?_⟩
    rw [if_neg (by simp [h]), if_neg (by simp [hb])] at run
    exact ⟨fun hc => by rwa [if_pos hc] at run, fun hc => by rwa [if_neg (by simp [hc])] at run⟩

/-! ## Acquisitions and timers -/

theorem racqCheck_happens (hr : x.st = .running) (ha : x.afterCommit tid t) {rings : List Nat}
    (hrings : rings = t.defs.filterMap fun d => match d.src with | .racq r => some r | _ => none) (hne : rings ≠ []) :
    Happens (.racqPeriodicCheck gn tid) s (rings.foldl (fun s r => s.checkRing gn r) s) := by
  show execRacqPeriodicCheck gn tid s = _
  subst hrings
  simp only [execRacqPeriodicCheck, hg, ht]
  refine if_neg fun h => ?_
  simp only [hr, ha, Bool.not_true, Bool.or_false, bne_self_eq_false, Bool.false_or] at h
  exact hne (List.isEmpty_iff.mp h)

theorem ttakeCheck_happens (ha : x.afterCommit tid t) (hne : t.takes ≠ []) : Happens (.ttakePeriodicCheck gn tid) s
    ((t.takes.foldl (fun s p => s.retryTake gn (tid / 64, p.1, p.2)) s).wakeAcquires gn) := by
  show execTtakePeriodicCheck gn tid s = _
  simp only [execTtakePeriodicCheck, hg, ht]
  exact if_neg (by simp [ha, hne])

theorem vtimeThreshold_happens (hr : x.st = .running) (hl : t.live) (hd : s.timerDue t) :
    Happens (.vtimeThreshold gn tid) s (s.timerTrap gn) := by
  show execVtimeThreshold gn tid s = _
  simp only [execVtimeThreshold, hg, ht]
  exact if_pos (by simp [hr, hl, hd])

theorem vtimeThreshold_notNow (hd : s.timerDue t = false) : NotNow (.vtimeThreshold gn tid) s := by
  show execVtimeThreshold gn tid s = _
  simp only [execVtimeThreshold, hg, ht]
  exact if_neg (by simp [hd])

end

/-! ## The lane-sync fault -/

section
variable {ch : Nat} {rest : List (Nat × Thread)} (hg : s.group? gn = some x)
  (hl : ((x.cohortLive ch).filter fun p => s.atSync x p.2) = (tid, t) :: rest)
include hg hl

theorem laneSync_happens (hr : x.runs) (hb : ∀ p ∈ x.cohortLive ch, s.blocked x p.2)
    (hd : ∃ p ∈ x.cohortLive ch, s.atSync x p.2 = false ∨ p.2.pc ≠ t.pc) :
    Happens (.laneSyncFault gn ch) s (s.trap gn [tid] { cause := .laneSync }) := by
  have all_blocked : (x.cohortLive ch).all (fun p => s.blocked x p.2) = true := List.all_eq_true.mpr hb
  have apart : (x.cohortLive ch).all (fun p => s.atSync x p.2 && p.2.pc == t.pc) = false := by
    obtain ⟨p, hp, hne⟩ := hd
    refine List.all_eq_false.mpr ⟨p, hp, fun h => ?_⟩
    simp only [Bool.and_eq_true, beq_iff_eq] at h
    obtain hne | hne := hne
    · rw [h.1] at hne
      cases hne
    · exact hne h.2
  show execLaneSyncFault gn ch s = _
  simp only [execLaneSyncFault, hg, hl]
  exact if_pos (by simp only [hr, all_blocked, apart]; rfl)

theorem laneSync_notNow (hb : ∃ p ∈ x.cohortLive ch, s.blocked x p.2 = false) : NotNow (.laneSyncFault gn ch) s := by
  have loose : (x.cohortLive ch).all (fun p => s.blocked x p.2) = false := by
    obtain ⟨p, hp, hne⟩ := hb
    exact List.all_eq_false.mpr ⟨p, hp, by simp [hne]⟩
  show execLaneSyncFault gn ch s = _
  simp only [execLaneSyncFault, hg, hl]
  exact if_neg (by simp only [loose, Bool.and_false, Bool.false_and, Bool.false_eq_true, not_false_eq_true])

end

/-! ## Fills of the instruction cache -/

/-- The first ready thread that stands in the block of a header. -/
theorem Group.standsIn_eq {hdr : Word} (ht : x.threads[tid]? = some t) (hr : t.st = .ready) (hh : t.here = hdr)
    (hfirst : ∀ i u, i < tid → x.threads[i]? = some u → u.st ≠ .ready ∨ u.here ≠ hdr) : x.standsIn hdr = some tid := by
  rw [Group.standsIn, List.find?_range_eq_some]
  refine ⟨by simp [ht, hr, hh], List.mem_range.mpr (List.getElem?_eq_some_iff.mp ht).1, fun i hi => ?_⟩
  cases hu : x.threads[i]? with
  | none => rfl
  | some u =>
    obtain h | h := hfirst i u hi hu
    · simp [h]
    · simp [h]

section
variable {hdr : Word} (hg : s.group? gn = some x) (hc : x.core = core) (hr : x.runs) (hs : x.standsIn hdr = some tid)
include hg hc hr hs

/-- A fill that its core may make goes by what it reads of the block. -/
theorem fill_eq : execInstructionCacheFill core gn hdr s = match s.readBlock x hdr.toNat with
    | .error .later => .refused .notEnabled
    | .error e => .next (s.stopAt ⟨gn, tid⟩ e)
    | .ok none => .next ((s.endFill core x.launch hdr).stopAt ⟨gn, tid⟩ (.of .badTarget 0 hdr.toNat))
    | .ok (some bytes) =>
      if !checkByte (bytes.take 8) then .next ((s.endFill core x.launch hdr).stopAt ⟨gn, tid⟩ (.of .badTarget 0 hdr.toNat))
      else .next ((s.endFill core x.launch hdr).putBlock core
        { launch := x.launch, hdr := hdr, bytes := bytes, prot := !s.executable x hdr.toNat bytes.length }) := by
  have may : (x.core != core || !x.runs) = false := by simp [hc, hr]
  simp only [execInstructionCacheFill, hg, hs, may]
  rfl

theorem fill_clause :
    let e := Instr.instructionCacheFill core gn hdr
    let r : TRef := ⟨gn, tid⟩
    let bad := Stop.of .badTarget 0 hdr.toNat
    (s.readBlock x hdr.toNat = .error .later → NotNow e s) ∧
    (∀ z, z ≠ .later → s.readBlock x hdr.toNat = .error z → Happens e s (s.stopAt r z)) ∧
    let ended := s.endFill core x.launch hdr
    (s.readBlock x hdr.toNat = .ok none → Happens e s (ended.stopAt r bad)) ∧
    (∀ bs, s.readBlock x hdr.toNat = .ok (some bs) →
      (checkByte (bs.take 8) = false → Happens e s (ended.stopAt r bad)) ∧
      (checkByte (bs.take 8) →
        ∃ s' b, Happens e s s' ∧ (s'.core core).ahead = (ended.core core).ahead ∧ b ∈ (s'.core core).blocks ∧
          b.launch = x.launch ∧ b.hdr = hdr ∧ b.bytes = bs ∧
          b.prot = !s.executable x hdr.toNat bs.length ∧ s'.mem = s.mem ∧ s'.groups = s.groups)) := by
  intro e r bad
  let ended := s.endFill core x.launch hdr
  have run := fill_eq hg hc hr hs
  refine ⟨fun h => ?_, fun z hz h => ?_, fun h => ?_, fun bs h => ⟨fun hb => ?_, fun hb => ?_⟩⟩
  all_goals rw [h] at run
  · exact run
  · cases z with
    | later => exact absurd rfl hz
    | trap _ => exact run
    | check => exact run
    | miss _ _ _ => exact run
  · exact run
  · exact run.trans (if_pos (by rw [hb]; rfl))
  · have run := run.trans (if_neg (by rw [hb]; decide))
    let b : Block := ⟨x.launch, hdr, bs, !s.executable x hdr.toNat bs.length⟩
    refine ⟨ended.putBlock core b, b, run, ?_, ?_, rfl, rfl, rfl, rfl, rfl, rfl⟩
    · rw [State.putBlock, State.core_modCore_self]
    · rw [State.putBlock, State.core_modCore_self]
      exact List.mem_append_right _ (List.mem_singleton_self _)

end

/-! ## Grants of tile slots and of Basin rows -/

section
variable {quad : Nat}

theorem tallocGrant_eq {e : TallocReq} {rest : List TallocReq} (hq : (s.quad quad).tallocs = e :: rest) (hg : s.group? e.who.grp = some x) :
    (s.poolFree quad < e.n → NotNow (.tallocGrant quad) s) ∧
    (e.n ≤ s.poolFree quad → Happens (.tallocGrant quad) s
      (((s.modQuad quad fun k => { k with tallocs := rest }).mapNames e.who.grp (e.who.tid / 64) e.first e.n).joinInst
        e.who x { pc := e.pc } .none none)) := by
  have run : execTallocGrant quad s = if e.n ≤ s.poolFree quad then
      .next (((s.modQuad quad fun k => { k with tallocs := rest }).mapNames e.who.grp (e.who.tid / 64) e.first e.n).joinInst
        e.who x { pc := e.pc } .none none) else .refused .notEnabled := by
    simp only [execTallocGrant, hq, hg]
  exact ⟨fun h => run.trans (if_neg (by omega)), fun h => run.trans (if_pos h)⟩

theorem ballocGrant_clause {e : BallocReq} (hf : (s.ballocs.find? fun b => b.core == core) = some e) (hg : s.group? e.who.grp = some x) :
    (s.bindBasin e.who.grp core e.bh e.rows = none → NotNow (.ballocGrant core) s) ∧
    (∀ s', s.bindBasin e.who.grp core e.bh e.rows = some s' → Happens (.ballocGrant core) s
      (State.joinInst { s' with ballocs := s'.ballocs.filter (· != e) } e.who x { pc := e.pc } .none none)) := by
  refine ⟨fun h => ?_, fun s' h => ?_⟩
  · show execBallocGrant core s = _
    simp only [execBallocGrant, hf, hg, h]
  · show execBallocGrant core s = _
    simp only [execBallocGrant, hf, hg, h]

end

/-! ## Grants of register blocks -/

theorem State.SameOutside.mem_eq (h : s.SameOutside s') : s'.mem = s.mem := by
  rw [h]

theorem State.SameOutside.core_eq (h : s.SameOutside s') {c : Nat} : s'.core c = s.core c := by
  rw [h]
  rfl

theorem Thread.reg_clearFrom {n k : Nat} : (t.clearFrom n).reg k = if n ≤ k then 0 else t.reg k := by
  rw [Thread.reg, Table.get_eq, Thread.clearFrom, Table.find?_filter_key (q := fun k => decide (k < n)), Thread.reg, Table.get_eq]
  by_cases h : n ≤ k
  · rw [if_neg (by simpa using h), if_pos h]
    rfl
  · rw [if_pos (by simpa using h), if_neg h]

/-- The threads of a cohort, one of them `i`. -/
theorem nodup_cohort {coh : Nat} : ((List.range 64).map fun i => (⟨gn, 64 * coh + i⟩ : TRef)).Nodup :=
  List.nodup_range.map fun i j h => by
    have := congrArg TRef.tid h
    dsimp only at this
    omega

theorem State.TouchesAll.modCohort {coh : Nat} {F : Thread → Thread} :
    s.TouchesAll (s.modCohort gn coh F) gn ((List.range 64).map fun i => ⟨gn, 64 * coh + i⟩) :=
  .foldl (ref := fun i => ⟨gn, 64 * coh + i⟩) (fun _ _ => .modThread) fun _ hi => ⟨rfl, List.mem_map_of_mem hi⟩

theorem mem_cohort {coh i : Nat} : (⟨gn, i⟩ : TRef) ∈ ((List.range 64).map fun j => (⟨gn, 64 * coh + j⟩ : TRef)) ↔ i / 64 = coh := by
  simp only [List.mem_map, List.mem_range, TRef.mk.injEq, true_and]
  constructor
  · rintro ⟨j, hj, h⟩
    omega
  · intro h
    exact ⟨i % 64, by omega, by omega⟩

/-- A change of a cohort's threads changes each of them. -/
theorem State.thread?_modCohort {coh i : Nat} {F : Thread → Thread} (ht : s.thread? ⟨gn, i⟩ = some t) :
    (s.modCohort gn coh F).thread? ⟨gn, i⟩ = some (if i / 64 = coh then F t else t) := by
  by_cases h : i / 64 = coh
  · have hi : i = 64 * coh + i % 64 := by omega
    obtain ⟨u, hu, hp⟩ := State.thread?_foldl_self (s := s) (op := fun s j => s.modThread ⟨gn, 64 * coh + j⟩ F)
      (ref := fun j => ⟨gn, 64 * coh + j⟩) (P := fun t u => u = F t) (a := i % 64) (fun _ _ => .modThread) nodup_cohort
      (List.mem_range.mpr (Nat.mod_lt _ (by omega))) (by rw [← hi]; exact ht) fun y _ hy =>
        ⟨_, by rw [State.thread?_modThread_self, hy]; rfl, rfl⟩
    rw [if_pos h, ← hp]
    rw [← hi] at hu
    exact hu
  · rw [if_neg h, State.TouchesAll.modCohort.threads _ fun hm => h (mem_cohort.mp hm)]
    exact ht

/-- A granted request lets its thread go on, or arrive (R121). -/
def State.wakeXacq (s : State) (gn coh : Nat) (m : Bool) (i : Nat) : State :=
  let r : TRef := ⟨gn, 64 * coh + i⟩
  match (s.thread? r).map Thread.st with
  | some (.xacq _ _) =>
    let s := s.modThread r fun t => { t with st := .ready }
    if m then s.arriveMarker r else s
  | _ => s

theorem State.Touches.wakeXacq {coh i : Nat} {m : Bool} : s.Touches (s.wakeXacq gn coh m i) ⟨gn, 64 * coh + i⟩ := by
  unfold State.wakeXacq
  extract_lets r u
  split
  · split
    · exact .trans .modThread .arrive
    · exact .modThread
  · exact .refl

theorem State.thread?_wakeXacq {coh i : Nat} {m : Bool} (ht : s.thread? ⟨gn, 64 * coh + i⟩ = some t) :
    ∃ u, (s.wakeXacq gn coh m i).thread? ⟨gn, 64 * coh + i⟩ = some u ∧ u.v = t.v := by
  unfold State.wakeXacq
  extract_lets r u
  have hu : u.thread? r = some { t with st := .ready } := by rw [State.thread?_modThread_self, ht]; rfl
  split
  · split
    · refine ⟨_, by rw [State.arriveMarker, State.thread?_arrive_self, hu]; rfl, ?_⟩
      dsimp only
      split
      · rfl
      · rfl
    · exact ⟨_, hu, rfl⟩
  · exact ⟨t, ht, rfl⟩

theorem State.thread?_eq (hg : s.group? gn = some x) {i : Nat} : s.thread? ⟨gn, i⟩ = x.threads[i]? := by
  rw [State.thread?, hg]
  rfl

/-- Granting blocks keeps every register but the new ones, which read 0 (R156). -/
theorem State.grantBlocks_spec {coh n : Nat} (hg : s.group? gn = some x) : ∃ y, (s.grantBlocks gn coh n).group? gn = some y ∧
    y.held = x.held.set coh n ∧ s.SameOutside (s.grantBlocks gn coh n) ∧ ∀ i t, x.threads[i]? = some t → ∃ u, y.threads[i]? = some u ∧
      ∀ k, u.reg k = if i / 64 = coh ∧ 32 * (x.held[coh]?.getD 0 + 1) ≤ k then 0 else t.reg k := by
  have all := State.TouchesAll.modCohort (s := s) (gn := gn) (coh := coh) (F := (·.clearFrom (32 * (x.held[coh]?.getD 0 + 1))))
  obtain ⟨y, hy, ey⟩ := all.group x hg
  have grant : s.grantBlocks gn coh n = (s.modCohort gn coh (·.clearFrom (32 * (x.held[coh]?.getD 0 + 1)))).modGroup gn fun x =>
      { x with held := x.held.set coh n } := by
    simp only [State.grantBlocks, hg]
  rw [grant]
  refine ⟨{ y with held := y.held.set coh n }, by rw [State.group?_modGroup_self, hy]; rfl, by rw [ey], all.outside.trans .modGroup,
    fun i t ht => ⟨if i / 64 = coh then t.clearFrom (32 * (x.held[coh]?.getD 0 + 1)) else t, ?_, fun k => ?_⟩⟩
  · exact (State.thread?_eq hy).symm.trans (State.thread?_modCohort ((State.thread?_eq hg).trans ht))
  · by_cases hi : i / 64 = coh
    · simp only [hi, if_true, true_and]
      exact Thread.reg_clearFrom
    · simp only [hi, if_false, false_and]

/-- Waking the threads that waited for the blocks changes no register and nothing of the group. -/
theorem State.wakeXacqs_spec {coh : Nat} {m : Bool} (hg : s.group? gn = some x) :
    ∃ y, ((List.range 64).foldl (fun s i => s.wakeXacq gn coh m i) s).group? gn = some y ∧ y.held = x.held ∧
      s.SameOutside ((List.range 64).foldl (fun s i => s.wakeXacq gn coh m i) s) ∧
      ∀ (i : Nat) t, x.threads[i]? = some t → ∃ u, y.threads[i]? = some u ∧ u.v = t.v := by
  have all : s.TouchesAll ((List.range 64).foldl (fun s i => s.wakeXacq gn coh m i) s) gn
      ((List.range 64).map fun i => ⟨gn, 64 * coh + i⟩) :=
    .foldl (ref := fun i => ⟨gn, 64 * coh + i⟩) (fun _ _ => .wakeXacq) fun _ hi => ⟨rfl, List.mem_map_of_mem hi⟩
  obtain ⟨y, hy, ey⟩ := all.group x hg
  refine ⟨y, hy, by rw [ey], all.outside, fun i t ht => ?_⟩
  rw [← State.thread?_eq hg] at ht
  rw [← State.thread?_eq hy]
  by_cases h : i / 64 = coh
  · have hi : i = 64 * coh + i % 64 := by omega
    rw [hi] at ht ⊢
    exact State.thread?_foldl_self (ref := fun j => ⟨gn, 64 * coh + j⟩) (P := fun t u => u.v = t.v) (fun _ _ => .wakeXacq) nodup_cohort
      (List.mem_range.mpr (Nat.mod_lt _ (by omega))) ht fun y _ hy => State.thread?_wakeXacq hy
  · exact ⟨t, (all.threads _ fun hm => h (mem_cohort.mp hm)).trans ht, rfl⟩

section
variable {coh n : Nat} {m : Bool} {rest : List (Nat × Nat)} (hq : (s.core core).xacqs = (gn, coh) :: rest) (hg : s.group? gn = some x)
  (hm : (((x.threads.drop (64 * coh)).take 64).findSome? fun t => match t.st with | .xacq n m => some (n, m) | _ => none) = some (n, m))
include hq hg hm

theorem xacqGrant_eq : execXacqGrant core s =
    if n - x.held[coh]?.getD 0 ≤ s.freeExtended core then
      .next ((List.range 64).foldl (fun s i => s.wakeXacq gn coh m i)
        ((s.modCore core fun k => { k with xacqs := rest }).grantBlocks gn coh n))
    else .refused .notEnabled := by
  unfold execXacqGrant
  simp only [hq, hg]
  split
  next n' m' h =>
    obtain ⟨rfl, rfl⟩ := Prod.mk.inj (Option.some.inj (h.symm.trans hm))
    rfl
  next h => cases h.symm.trans hm

theorem xacqGrant_clause :
    (s.freeExtended core < n - x.held[coh]?.getD 0 → NotNow (.xacqGrant core) s) ∧
    (n - x.held[coh]?.getD 0 ≤ s.freeExtended core → ∃ s' y, Happens (.xacqGrant core) s s' ∧
      (s'.core core).xacqs = rest ∧ s'.group? gn = some y ∧ y.held = x.held.set coh n ∧ s'.mem = s.mem ∧
      ∀ i t, x.threads[i]? = some t → ∃ u, y.threads[i]? = some u ∧
        ∀ k, u.reg k = if i / 64 = coh ∧ 32 * (x.held[coh]?.getD 0 + 1) ≤ k then 0 else t.reg k) := by
  have run := xacqGrant_eq hq hg hm
  refine ⟨fun h => run.trans (if_neg (by omega)), fun h => ?_⟩
  obtain ⟨y, hy, hheld, hout, hregs⟩ :=
    State.grantBlocks_spec (s := s.modCore core fun k => { k with xacqs := rest }) (coh := coh) (n := n) hg
  obtain ⟨z, hz, hheld', hout', hregs'⟩ := State.wakeXacqs_spec (coh := coh) (m := m) hy
  have same := hout.trans hout'
  refine ⟨_, z, run.trans (if_pos h), ?_, hz, hheld'.trans hheld, same.mem_eq, fun i t ht => ?_⟩
  · rw [same.core_eq, State.core_modCore_self]
  · obtain ⟨u, hu, hr⟩ := hregs i t ht
    obtain ⟨w, hw, hv⟩ := hregs' i u hu
    exact ⟨w, hw, fun k => by rw [Thread.reg, hv, ← Thread.reg, hr]⟩

end

/-- Settles O37: each event of a core that serves a thread that waits, as its model function takes it. -/
theorem waitingThreads : Obligations.WaitingThreads := by
  intro s
  refine ⟨fun gn tid x t hg ht hr => ⟨fun w => waitv_clause hg ht hr, fun ha => ⟨racqCheck_happens hg ht hr ha rfl,
      ttakeCheck_happens hg ht ha⟩, vtimeThreshold_happens hg ht hr, vtimeThreshold_notNow hg ht⟩,
    fun gn ch x tid t rest hg hl hr => ⟨laneSync_happens hg hl hr, laneSync_notNow hg hl⟩,
    fun core gn coh rest x n m hq hg hm _ => xacqGrant_clause hq hg hm,
    fun quad e rest x hq hg => tallocGrant_eq hq hg, fun core e x hf hg => ballocGrant_clause hf hg,
    fun core gn hdr x tid t hg hc hr ht hst hh hfirst => fill_clause hg hc hr (Group.standsIn_eq ht hst hh hfirst)⟩

end Sys2Proof.Machine
end

section
/-!
The events of boundaries: results that return (R116), the prepare phase (R258-R260), AtomicOps (R265), the completion of a boundary
(R18, R19), the release of wider steps (R24) and the joins (R27, R144).
-/
namespace Sys2Proof.Machine
variable {s : State} {gn d tid : Nat} {x y : Group} {t : Thread}

/-! ## Completion -/

/-- A live thread that has not arrived, or an early result that is outstanding, keeps the boundary from being due. -/
theorem not_boundaryDue {i : Nat} (hi : i ∈ x.liveTids d) (ht : x.threads[i]? = some t)
    (h : t.arr = none ∧ t.st = .ready ∨ ∃ q ∈ t.defs, q.src.early) : boundaryDue x d = false := by
  have mem : t ∈ (x.liveTids d).filterMap fun i => x.threads[i]? := List.mem_filterMap.mpr ⟨i, hi, ht⟩
  unfold boundaryDue
  obtain ⟨ha, hs⟩ | ⟨q, hq, he⟩ := h
  · have : ((x.liveTids d).filterMap fun i => x.threads[i]?).all Thread.arrived = false :=
      List.all_eq_false.mpr ⟨t, mem, by simp [Thread.arrived, ha, hs]⟩
    simp only [this, Bool.and_false, Bool.false_and]
  · have : (((x.liveTids d).filterMap fun i => x.threads[i]?).all fun t => t.defs.all fun e => !e.src.early) = false :=
      List.all_eq_false.mpr ⟨t, mem, by simpa using ⟨q, hq, he⟩⟩
    simp only [this, Bool.and_false]

section
variable (hg : s.group? gn = some x) (hd : d < x.doms.length)
include hg hd

/-- Before its commit a domain's boundary completes only when it is due (R18, R19). -/
theorem completeBoundary_run (hp : (x.dom d).phase = .run) : s.completeBoundary gn d =
    if boundaryDue x d then
      if s.poisonedBase (s.writers x d) then some (s.kill gn)
      else match withheld s x d with
      | some t =>
        if x.flushes then some ((s.modDom gn d fun k => { k with prep := none, prepNo := none }).endFlush gn)
        else some ((s.modDom gn d fun k => { k with prep := none, prepNo := none }).trap gn
          ((List.range x.threads.length).filter fun i => t.rank == some (s.rank x i)) t)
      | none =>
        if (x.dom d).acked (prepCells (s.writers x d)) && !s.mustWait gn d x then
          match ((s.commit gn d).firstReads).group? gn with
          | some y =>
            if y.flushes then some (((s.commit gn d).firstReads).endFlush gn)
            else if ((s.commit gn d).firstReads).held gn d y then some (((s.commit gn d).firstReads).wakeAcquires gn)
            else some (((s.commit gn d).firstReads).landDomain gn d)
          | none => some ((s.commit gn d).firstReads)
        else none
    else none := by
  have inside : ¬ x.doms.length ≤ d := by omega
  simp only [State.completeBoundary, hg, hp, if_neg inside] <;> rfl

theorem completeBoundary_committed (hp : (x.dom d).phase = .committed) (hr : x.st = .running) (hy : (s.drainHeld gn d).group? gn = some y)
    (hh : (s.drainHeld gn d).held gn d y = false) : s.completeBoundary gn d = some ((s.drainHeld gn d).landDomain gn d) := by
  have inside : ¬ x.doms.length ≤ d := by omega
  have runs : (x.st != .running) = false := by rw [hr]; rfl
  simp only [State.completeBoundary, hg, hp, if_neg inside, runs, hy, hh]
  rfl

end

theorem stepBoundary_happens {s' : State} (h : s.completeBoundary gn d = some s') :
    Happens (.stepBoundaryComplete gn d) s (s'.trySave gn) := by
  show execStepBoundaryComplete gn d s = _
  simp only [execStepBoundaryComplete, h]

theorem stepBoundary_notNow (h : s.completeBoundary gn d = none) : NotNow (.stepBoundaryComplete gn d) s := by
  show execStepBoundaryComplete gn d s = _
  simp only [execStepBoundaryComplete, h]

/-- A boundary that is due: its event is withheld, waits, or commits (R19). -/
theorem boundaryDue_clause (hg : s.group? gn = some x) (hd : d < x.doms.length) (hp : (x.dom d).phase = .run) (hdue : boundaryDue x d) :
    let e := Instr.stepBoundaryComplete gn d
    let c := (s.commit gn d).firstReads
    let cells := prepCells (s.writers x d)
    let back := s.modDom gn d fun k => { k with prep := none, prepNo := none }
    (s.poisonedBase (s.writers x d) → Happens e s ((s.kill gn).trySave gn)) ∧
    (s.poisonedBase (s.writers x d) = false →
      (∀ t, withheld s x d = some t →
        (x.flushes = false → Happens e s ((back.trap gn
          ((List.range x.threads.length).filter fun i => t.rank == some (s.rank x i)) t).trySave gn)) ∧
        (x.flushes → Happens e s ((back.endFlush gn).trySave gn))) ∧
      (withheld s x d = none → (x.dom d).acked cells = false ∨ s.mustWait gn d x → NotNow e s) ∧
      (withheld s x d = none → (x.dom d).acked cells → s.mustWait gn d x = false → ∀ y, c.group? gn = some y →
        (y.flushes → Happens e s ((c.endFlush gn).trySave gn)) ∧
        (y.flushes = false → c.held gn d y → Happens e s ((c.wakeAcquires gn).trySave gn)) ∧
        (y.flushes = false → c.held gn d y = false → Happens e s ((c.landDomain gn d).trySave gn)))) := by
  intro e c cells back
  have run := completeBoundary_run hg hd hp
  rw [if_pos hdue] at run
  refine ⟨fun hb => stepBoundary_happens (run.trans (if_pos hb)), fun hb => ?_⟩
  rw [if_neg (by rw [hb]; decide)] at run
  refine ⟨fun t ht => ?_, fun hn hw => ?_, fun hn ha hm y hy => ?_⟩
  · rw [ht] at run
    exact ⟨fun hf => stepBoundary_happens (run.trans (if_neg (by rw [hf]; decide))), fun hf => stepBoundary_happens (run.trans (if_pos hf))⟩
  · rw [hn] at run
    refine stepBoundary_notNow (run.trans (if_neg ?_))
    obtain hw | hw := hw
    · rw [show (x.dom d).acked (prepCells (s.writers x d)) = false from hw]
      simp
    · simp [hw]
  · rw [hn] at run
    dsimp only at run
    rw [ha, hm, if_pos (by decide), show ((s.commit gn d).firstReads).group? gn = some y from hy] at run
    dsimp only at run
    refine ⟨fun hf => stepBoundary_happens (run.trans (if_pos hf)), fun hf hh => ?_, fun hf hh => ?_⟩
    · exact stepBoundary_happens ((run.trans (if_neg (by rw [hf]; decide))).trans (if_pos hh))
    · refine stepBoundary_happens ((run.trans (if_neg (by rw [hf]; decide))).trans (if_neg ?_))
      rw [show ((s.commit gn d).firstReads).held gn d y = false from hh]
      decide

/-! ## Results that return -/

section
variable {k : Nat} {q : Deferred} (hg : s.group? gn = some x) (hr : x.st = .running) (ht : x.threads[tid]? = some t)
  (hq : (t.defs.find? fun z => z.seq == k) = some q)
include hg hr ht hq

theorem resultReturn_happens {s' : State} (h : s.returnResult gn x tid q = some s') : Happens (.deferredResultReturn gn tid k) s s' := by
  show execDeferredResultReturn gn tid k s = _
  have runs : (x.st != .running) = false := by rw [hr]; rfl
  simp only [execDeferredResultReturn, hg, runs, ht, Option.bind_some, hq, h]
  rfl

theorem resultReturn_notNow (h : s.returnResult gn x tid q = none) : NotNow (.deferredResultReturn gn tid k) s := by
  show execDeferredResultReturn gn tid k s = _
  have runs : (x.st != .running) = false := by rw [hr]; rfl
  simp only [execDeferredResultReturn, hg, runs, ht, Option.bind_some, hq, h]
  rfl

end

theorem State.returnResult_load {q : Deferred} {acc : Acc} {ty : Ty} {fn : Nat} (h : q.src = .load acc ty fn) :
    s.returnResult gn x tid q = if acc.keys.any s.prepared then none
      else if s.poisoned acc.keys then some (s.kill gn)
      else some (s.result ⟨gn, tid⟩ q.seq (.vals [widen ty fn (s.readNat acc.keys)])) := by
  simp only [State.returnResult, Src.tile?, h, State.sampleSrc]
  split
  · rfl
  · rfl

theorem result_clause {k : Nat} {q : Deferred} (hg : s.group? gn = some x) (hr : x.st = .running) (ht : x.threads[tid]? = some t)
    (hq : (t.defs.find? fun z => z.seq == k) = some q) :
    let e := Instr.deferredResultReturn gn tid k
    (∀ acc ty fn, q.src = .load acc ty fn →
      (acc.keys.any s.prepared → NotNow e s) ∧
      (acc.keys.any s.prepared = false → s.poisoned acc.keys → Happens e s (s.kill gn)) ∧
      (acc.keys.any s.prepared = false → s.poisoned acc.keys = false →
        Happens e s (s.result ⟨gn, tid⟩ k (.vals [widen ty fn (s.readNat acc.keys)])))) ∧
    (∀ w, q.src = .sampled w → Happens e s (s.result ⟨gn, tid⟩ k (.vals w))) ∧
    (∀ n p r, q.src = .lcget n p → x.ctrs[n]? = some r → Happens e s (s.result ⟨gn, tid⟩ k (.vals [r.part p]))) ∧
    (∀ r, q.src = .rhead r → Happens e s (s.result ⟨gn, tid⟩ k (.vals [(x.ring r).status]))) ∧
    (∀ ch n, q.src = .tqry ch n → Happens e s (s.shareValue gn x tid k [s.tqryWord x ch n])) ∧
    (∀ n, q.src = .xqry n → Happens e s (s.result ⟨gn, tid⟩ k (.vals [s.xqryWord gn x n]))) ∧
    (∀ n p, q.src = .digest n p → Happens e s (s.result ⟨gn, tid⟩ k (.vals (s.digestWords n p)))) := by
  intro e
  have hseq : q.seq = k := by simpa using List.find?_some hq
  subst hseq
  have happens {s' : State} (h : s.returnResult gn x tid q = some s') : Happens e s s' := resultReturn_happens hg hr ht hq h
  refine ⟨fun acc ty fn hs => ?_, fun w hs => ?_, fun n p r hs hc => ?_, fun r hs => ?_, fun ch n hs => ?_, fun n hs => ?_, fun n p hs => ?_⟩
  · have load := State.returnResult_load (s := s) (gn := gn) (x := x) (tid := tid) hs
    refine ⟨fun hp => resultReturn_notNow hg hr ht hq (load.trans (if_pos hp)), fun hp hb => ?_, fun hp hb => ?_⟩
    · exact happens ((load.trans (if_neg (by rw [hp]; decide))).trans (if_pos hb))
    · exact happens ((load.trans (if_neg (by rw [hp]; decide))).trans (if_neg (by rw [hb]; decide)))
  · exact happens (by simp only [State.returnResult, Src.tile?, hs, State.sampleSrc, Option.map_some])
  · exact happens (by simp only [State.returnResult, Src.tile?, hs, State.sampleSrc, hc, Option.map_some])
  · exact happens (by simp only [State.returnResult, Src.tile?, hs, State.sampleSrc, Option.map_some])
  · exact happens (by simp only [State.returnResult, Src.tile?, hs, State.sampleSrc, Option.map_some])
  · exact happens (by simp only [State.returnResult, Src.tile?, hs, State.sampleSrc, Option.map_some])
  · exact happens (by simp only [State.returnResult, Src.tile?, hs, State.sampleSrc, Option.map_some])

/-! ## The prepare phase -/

section
variable {k : Nat} {cs : List Cell} {z : Cell} (hg : s.group? gn = some x) (hc : s.dueCells gn d = some cs) (hz : cs[k]? = some z)
  (hp : z.st = .pending)
include hg hc hz hp

/-- A pending cell waits for events before its own, then moves on by its site (R258-R260). -/
theorem prepareAcknowledge_eq : exec (.prepareAcknowledge gn d k) s =
    if s.earlierHolds gn d (x.dom d).prepNo fun c => c.key == z.key && c.st == .pending then .refused .notEnabled
    else match z.site with
      | .direct => .next (s.moveCell gn d cs z .acked)
      | .gaffer q =>
        if (s.quad q).gaffer.length < 1024 then
          .next ((s.moveCell gn d cs z .queued).modQuad q fun x => { x with gaffer := x.gaffer ++ [.cell gn d z.key] })
        else .refused .notEnabled := by
  have no : ((s.group? gn).bind fun x => x.doms[d]?).bind Domain.prepNo = (x.dom d).prepNo := by
    rw [hg, Option.bind_some, Group.dom]
    cases x.doms[d]? <;> rfl
  show execPrepareAcknowledge gn d k s = _
  simp only [execPrepareAcknowledge, hc, hz, no, hp]
  rfl

theorem prepare_clause :
    let e := Instr.prepareAcknowledge gn d k
    let goes (st : Prep) : State := (s.modDom gn d fun x =>
      { x with prep := some (setCell cs z.key z.site st), prepNo := some (x.prepNo.getD s.fresh) }).bump
    let before := s.earlierHolds gn d (x.dom d).prepNo fun c => c.key == z.key && c.st == .pending
    (before → NotNow e s) ∧
    (before = false →
      (z.site = .direct → Happens e s (goes .acked)) ∧
      (∀ q, z.site = .gaffer q →
        ((s.quad q).gaffer.length < 1024 → Happens e s
          ((goes .queued).modQuad q fun x => { x with gaffer := x.gaffer ++ [.cell gn d z.key] })) ∧
        (1024 ≤ (s.quad q).gaffer.length → NotNow e s))) := by
  intro e goes before
  have run := prepareAcknowledge_eq hg hc hz hp
  refine ⟨fun h => run.trans (if_pos h), fun h => ?_⟩
  have run := run.trans (if_neg (by rw [show s.earlierHolds gn d (x.dom d).prepNo _ = false from h]; decide))
  refine ⟨fun hs => ?_, fun q hs => ?_⟩
  · rw [hs] at run
    exact run
  · rw [hs] at run
    exact ⟨fun hl => run.trans (if_pos hl), fun hl => run.trans (if_neg (by omega))⟩

end

/-! ## AtomicOps -/

theorem atomicResult_eq (fn : Nat) (old x y : Word) :
    atomicResult fn old x y = if fn = 0 then old + x else if fn = 1 then x else if old = x then y else old := by
  match fn with
  | 0 => rfl
  | 1 => rfl
  | _ + 2 => rfl

theorem performAtom_clause (a : Satom) :
    let old : Word := BitVec.ofNat 32 (s.readNat a.acc.keys)
    let new : Word := if a.fn = 0 then old + a.x else if a.fn = 1 then a.x else if old = a.x then a.y else old
    (s.poisoned a.acc.keys = false →
      s.performAtom a false = (s.writeBytes a.acc.keys (bytesOf 4 new.toNat), some old)) ∧
    s.performAtom a true = (s, none) ∧ (s.poisoned a.acc.keys → s.performAtom a false = (s, none)) := by
  intro old new
  refine ⟨fun h => ?_, if_pos rfl, fun h => if_pos (by rw [h]; rfl)⟩
  have hnew : new = atomicResult a.fn old a.x a.y := (atomicResult_eq _ _ _ _).symm
  rw [hnew]
  exact if_neg (by rw [h]; decide)

theorem atomic_clause {r : TRef} {a : Satom} {old : Option Word} {rest : List (TRef × Satom × Option Word)} (hg : s.group? gn = some x)
    (hs : (x.dom d).satoms = (r, a, old) :: rest) (hd : d < x.doms.length) :
    (old = none → Happens (.atomicopComplete gn d true) s (s.kill gn) ∧ NotNow (.atomicopComplete gn d false) s) ∧
    (∀ w, old = some w → NotNow (.atomicopComplete gn d true) s ∧
      Happens (.atomicopComplete gn d false) s
        ((s.modDom gn d fun k => { k with satoms := rest }).result r a.seq (.vals [w]))) := by
  have dom : ((s.group? gn).bind fun x => x.doms[d]?) = some (x.dom d) := by
    rw [hg, Option.bind_some, Group.dom, List.getElem?_eq_getElem hd]
    rfl
  refine ⟨?_, ?_⟩
  · rintro rfl
    constructor
    · show execAtomicopComplete gn d true s = _
      simp only [execAtomicopComplete, dom, hs]
    · show execAtomicopComplete gn d false s = _
      simp only [execAtomicopComplete, dom, hs]
  · rintro w rfl
    constructor
    · show execAtomicopComplete gn d true s = _
      simp only [execAtomicopComplete, dom, hs]
    · show execAtomicopComplete gn d false s = _
      simp only [execAtomicopComplete, dom, hs]

/-! ## Wider steps -/

theorem wider_clause {scope : Nat} (hg : s.group? gn = some x) (hw : x.widerScope = some scope) :
    let ps := s.participants scope gn x
    (ps.all (s.waitsAt scope) = false ∨ scope = 5 ∧ s.partnersWait (s.launchOf x) = false → NotNow (.widerStepRelease gn) s) ∧
    (ps.all (s.waitsAt scope) → (scope = 5 → s.partnersWait (s.launchOf x)) →
      Happens (.widerStepRelease gn) s ((s.releaseStep x scope ps).afterStep gn x scope)) := by
  intro ps
  have run : exec (.widerStepRelease gn) s =
      if ps.all (s.waitsAt scope) && (scope != 5 || s.partnersWait (s.launchOf x)) then
        .next ((s.releaseStep x scope ps).afterStep gn x scope)
      else .refused .notEnabled := by
    show execWiderStepRelease gn s = _
    simp only [execWiderStepRelease, hg, hw]
    rfl
  refine ⟨fun h => run.trans (if_neg ?_), fun ha hp => run.trans (if_pos ?_)⟩
  · obtain h | ⟨rfl, h⟩ := h
    · simp [h]
    · simp [h]
  · by_cases h5 : scope = 5
    · simp [ha, hp h5]
    · simp [ha, h5]

/-- No launch record of the group waits for the release of its step. -/
def State.NoRecordWaits (s : State) (gn : Nat) : Prop := ∀ k ∈ s.queues, ∀ e ∈ k.wait, e.grp ≠ gn

/-- Where no record waits, the release of the records changes no group and no memory. -/
theorem State.releaseRecords_of_none (h : s.NoRecordWaits gn) :
    (s.releaseRecords gn d).groups = s.groups ∧ (s.releaseRecords gn d).mem = s.mem := by
  have none_waits : ((List.range 64).filter fun q => (s.queueAt q).wait.any fun e => e.grp == gn) = [] := by
    refine List.filter_eq_nil_iff.mpr fun q _ hq => ?_
    obtain ⟨e, he, hgrp⟩ := List.any_eq_true.mp hq
    unfold State.queueAt at he
    cases hk : s.queues[q]? with
    | none =>
      rw [hk] at he
      cases he
    | some k =>
      rw [hk] at he
      exact h k (List.mem_of_getElem? hk) e he (by simpa using hgrp)
  unfold State.releaseRecords
  simp only [none_waits]
  exact ⟨rfl, rfl⟩

theorem State.NoRecordWaits.of_outside {s' : State} (h : s.NoRecordWaits gn) (ho : s.SameOutside s') : s'.NoRecordWaits gn := by
  have hq : s'.queues = s.queues := by rw [ho]
  unfold State.NoRecordWaits
  rw [hq]
  exact h

theorem State.group?_congr {s' : State} (h : s'.groups = s.groups) : s'.group? = s.group? := by
  funext g
  rw [State.group?, h, State.group?]

/-- A domain that a change puts into a phase, its records released: the other domains and the other groups are as they were. -/
theorem releasePhase_spec {F : Domain → Domain} {p : Phase} (hy : s.group? gn = some y) (hd : d < y.doms.length)
    (hF : ∀ k, (F k).phase = p) (hq : s.NoRecordWaits gn) :
    ∃ z, ((s.modDom gn d F).releaseRecords gn d).group? gn = some z ∧ ((s.modDom gn d F).releaseRecords gn d).mem = s.mem ∧
      (z.dom d).phase = p ∧ z.threads = y.threads ∧ (∀ e, e ≠ d → z.dom e = y.dom e) ∧
      ∀ g, g ≠ gn → ((s.modDom gn d F).releaseRecords gn d).group? g = s.group? g := by
  have hq' : (s.modDom gn d F).NoRecordWaits gn := hq
  obtain ⟨groups, mem⟩ := State.releaseRecords_of_none (d := d) hq'
  rw [State.group?_congr groups]
  refine ⟨_, State.group?_modDom hy, mem, ?_, rfl, fun e he => Group.dom_modify_ne he, fun g hg => State.group?_modGroup_ne _ _ hg⟩
  rw [Group.dom_modify, if_pos ⟨rfl, hd⟩, hF]

/-- What a thread's group keeps when its threads are released: all but the threads. -/
theorem releaseThreads_spec (hy : s.group? gn = some y) (hd : d < y.doms.length) (hq : s.NoRecordWaits gn) :
    ∃ z, (s.releaseThreads gn d).group? gn = some z ∧ (s.releaseThreads gn d).mem = s.mem ∧ (z.dom d).phase = .run ∧
      (∀ e, e ≠ d → z.dom e = y.dom e) ∧ ∀ g, g ≠ gn → (s.releaseThreads gn d).group? g = s.group? g := by
  have all : s.TouchesAll ((y.domTids d).foldl (fun u i => u.modThread ⟨gn, i⟩ (Thread.release · (s.streamPaused gn))) s) gn
      ((y.domTids d).map fun i => ⟨gn, i⟩) :=
    .foldl (ref := fun i => ⟨gn, i⟩) (fun _ _ => .modThread) fun _ hi => ⟨rfl, List.mem_map_of_mem hi⟩
  obtain ⟨w, hw, ew⟩ := all.group y hy
  obtain ⟨z, hz, hmem, hphase, -, hdoms, hgroups⟩ := releasePhase_spec (F := fun k =>
    { k with phase := .run, proper := [], cells := 0, spilled := 0, lost := none, paused := s.streamPaused gn }) hw (d := d)
    (by rw [ew]; exact hd) (fun _ => rfl) (hq.of_outside all.outside)
  simp only [State.releaseThreads, hy]
  refine ⟨z, hz, hmem.trans all.outside.mem_eq, hphase, fun e he => ?_, fun g hg => (hgroups g hg).trans (all.groups g hg)⟩
  rw [hdoms e he, ew]
  rfl

/-- A domain released by its barrier goes on, or stays where a save or a lane test stopped it (R24, R43, R422). -/
theorem releaseWider_clause {p : Nat × Nat} (hy : s.group? p.1 = some y) (hd : p.2 < y.doms.length) (hq : s.NoRecordWaits p.1) :
    ∃ z, (s.releaseWider p).group? p.1 = some z ∧ (s.releaseWider p).mem = s.mem ∧
       (y.resident → y.save = none → y.testHold = false → (z.dom p.2).phase = .run) ∧
       (y.resident = false ∨ y.save ≠ none ∨ y.testHold → (z.dom p.2).phase = .stopped ∧ z.threads = y.threads) ∧
       (∀ d, d ≠ p.2 → z.dom d = y.dom d) ∧
       (∀ g, g ≠ p.1 → (s.releaseWider p).group? g = s.group? g) := by
  have release : s.releaseWider p =
      if y.resident && y.save.isNone && !y.testHold then s.releaseThreads p.1 p.2 else s.stopDomain p.1 p.2 := by
    simp only [State.releaseWider, hy]
  by_cases hr : (y.resident && y.save.isNone && !y.testHold) = true
  · rw [release, if_pos hr]
    obtain ⟨z, hz, hmem, hphase, hdoms, hgroups⟩ := releaseThreads_spec hy hd hq
    refine ⟨z, hz, hmem, fun _ _ _ => hphase, fun h => ?_, hdoms, hgroups⟩
    obtain h | h | h := h
    · simp [h] at hr
    · simp [h] at hr
    · simp [h] at hr
  · rw [release, if_neg hr]
    obtain ⟨z, hz, hmem, hphase, hthreads, hdoms, hgroups⟩ := releasePhase_spec (F := fun k =>
      { k with phase := .stopped, cells := 0, spilled := 0, lost := none }) hy hd (fun _ => rfl) hq
    exact ⟨z, hz, hmem, fun h1 h2 h3 => absurd (by simp [h1, h2, h3]) hr, fun _ => ⟨hphase, hthreads⟩, hdoms, hgroups⟩

/-! ## Joins -/

theorem lowestOff_eq_none {l : List Word} : lowestOff l = none ↔ l = [] := by
  cases l with
  | nil => simp [lowestOff]
  | cons w ws =>
    rw [lowestOff]
    split
    · simp
    · simp

/-- The lowest of some offsets is one of them, and no greater than any. -/
theorem lowestOff_eq_some {l : List Word} {o : Word} : lowestOff l = some o ↔ o ∈ l ∧ ∀ w ∈ l, o.toNat ≤ w.toNat := by
  induction l generalizing o with
  | nil => simp [lowestOff]
  | cons w ws ih =>
    rw [lowestOff]
    cases hl : lowestOff ws with
    | none =>
      rw [lowestOff_eq_none.mp hl]
      simp only [Option.some.injEq, List.mem_singleton, forall_eq]
      constructor
      · rintro rfl
        exact ⟨rfl, le_refl _⟩
      · exact fun h => h.1.symm
    | some v =>
      obtain ⟨hv, hle⟩ := ih.mp hl
      simp only [Option.some.injEq, List.mem_cons, forall_eq_or_imp]
      constructor
      · rintro rfl
        split
        next h => exact ⟨.inl rfl, le_refl _, fun u hu => h.trans (hle u hu)⟩
        next h => exact ⟨.inr hv, by omega, hle⟩
      · rintro ⟨ho, hw, hrest⟩
        have hov := hrest v hv
        split
        next h =>
          obtain rfl | ho := ho
          · rfl
          · exact BitVec.eq_of_toNat_eq (by have := hle o ho; omega)
        next h =>
          obtain rfl | ho := ho
          · omega
          · exact BitVec.eq_of_toNat_eq (by have := hle o ho; omega)

section
variable {ts : List (Nat × Thread)} {grp : Bool}

theorem joinTest_waits (h : ∃ p ∈ ts, p.2.live ∧ p.2.joinAt = none) : joinTest ts grp = [] := by
  obtain ⟨p, hp, hl, hj⟩ := h
  refine if_neg fun hall => ?_
  have := List.all_eq_true.mp hall p (List.mem_filter.mpr ⟨hp, hl⟩)
  rw [hj] at this
  cases this

/-- Those at the lowest join of all leave it (R27, R144). -/
theorem mem_joinTest (h : ∀ p ∈ ts, p.2.live → p.2.joinAt ≠ none) {i : Nat} : i ∈ joinTest ts grp ↔ ∃ p ∈ ts, p.1 = i ∧ p.2.live ∧
    ∃ o, p.2.joinAt = some (o, grp) ∧ ∀ q ∈ ts, q.2.live → ∀ o' k, q.2.joinAt = some (o', k) → o.toNat ≤ o'.toNat := by
  have all : ((ts.filter fun p => p.2.live).all fun p => p.2.joinAt.isSome) = true := List.all_eq_true.mpr fun p hp => by
    obtain ⟨hp, hl⟩ := List.mem_filter.mp hp
    exact Option.isSome_iff_ne_none.mpr (h p hp hl)
  have mem_offs {w : Word} : w ∈ (ts.filter fun p => p.2.live).filterMap (fun p => p.2.joinAt.map (·.1)) ↔
      ∃ q ∈ ts, q.2.live ∧ ∃ k, q.2.joinAt = some (w, k) := by
    simp only [List.mem_filterMap, List.mem_filter, Option.map_eq_some_iff, Prod.exists, exists_and_right, exists_eq_right, and_assoc]
  have lowest {o : Word} : lowestOff ((ts.filter fun p => p.2.live).filterMap fun p => p.2.joinAt.map (·.1)) = some o ↔
      (∃ q ∈ ts, q.2.live ∧ ∃ k, q.2.joinAt = some (o, k)) ∧
        ∀ q ∈ ts, q.2.live → ∀ o' k, q.2.joinAt = some (o', k) → o.toNat ≤ o'.toNat := by
    rw [lowestOff_eq_some, mem_offs]
    refine and_congr_right fun _ => ⟨fun hw q hq hl o' k hj => hw o' (mem_offs.mpr ⟨q, hq, hl, k, hj⟩), fun hw w hw' => ?_⟩
    obtain ⟨q, hq, hl, k, hj⟩ := mem_offs.mp hw'
    exact hw q hq hl w k hj
  unfold joinTest
  simp only [all, if_true]
  constructor
  · intro hi
    split at hi
    next o ho =>
      obtain ⟨p, hp, rfl⟩ := List.mem_map.mp hi
      obtain ⟨hp, hj⟩ := List.mem_filter.mp hp
      obtain ⟨hp, hl⟩ := List.mem_filter.mp hp
      exact ⟨p, hp, rfl, hl, o, by simpa using hj, (lowest.mp ho).2⟩
    next => cases hi
  · rintro ⟨p, hp, rfl, hl, o, hj, hle⟩
    rw [lowest.mpr ⟨⟨p, hp, hl, grp, hj⟩, hle⟩]
    exact List.mem_map.mpr ⟨p, List.mem_filter.mpr ⟨List.mem_filter.mpr ⟨hp, hl⟩, by simp [hj]⟩, rfl⟩

end

/-- Settles O35: each event of a boundary by the branch of its model function; the release of a wider step and the test of a set
of joins by what they leave. -/
theorem boundaryEvents : Obligations.BoundaryEvents := by
  refine ⟨fun s gn d x hg => ⟨fun hp hd => ⟨fun ⟨i, t, hi, ht, h⟩ => ?_, boundaryDue_clause hg hd hp⟩,
    fun hp hd hr y hy hh => stepBoundary_happens (completeBoundary_committed hg hd hp hr hy hh),
    fun tid k t q hr ht hq => result_clause hg hr ht hq, fun k cs z hc hz hp => prepare_clause hg hc hz hp, performAtom_clause,
    fun r a old rest hs hd => atomic_clause hg hs hd, fun scope hw => wider_clause hg hw⟩,
    fun s p y hy hd hq => releaseWider_clause hy hd hq, fun ts grp => ⟨joinTest_waits, fun h i => mem_joinTest h⟩⟩
  exact stepBoundary_notNow ((completeBoundary_run hg hd hp).trans (if_neg (by rw [not_boundaryDue hi ht h]; decide)))

end Sys2Proof.Machine
end

section
/-!
Pre-emption, forced saves and eviction (R43, R126, R386, R387), and the packets of the fabric (R399, R400, R402).
-/
namespace Sys2Proof

theorem Table.mem_of_find? {α : Type} {t : Table α} {k : Nat} {v : α} (h : t.find? k = some v) : (k, v) ∈ t := by
  induction t with
  | nil => cases h
  | cons p t ih =>
    obtain ⟨j, w⟩ := p
    rw [Table.find?] at h
    split at h
    next hj =>
      rw [hj, Option.some.inj h]
      exact List.mem_cons_self
    next => exact List.mem_cons_of_mem _ (ih h)

end Sys2Proof

namespace Sys2Proof.Machine
variable {s : State} {gn : Nat} {x : Group}

/-! ## Pre-emption -/

section
variable {die c : Nat} (hw : s.waitingClass die = some c) (hv : s.victim die = some (gn, x))
include hw hv

theorem preemption_happens (hs : s.ready.safe = false) (hc : c < x.prio) (hn : x.save = none) :
    Happens (.preemption die) s (s.preemptGroup gn) := by
  show execPreemption die s = _
  simp only [execPreemption, hw, hv]
  exact if_neg (by simp [hs, hn]; omega)

theorem preemption_notNow (h : x.prio ≤ c ∨ s.ready.safe) : NotNow (.preemption die) s := by
  show execPreemption die s = _
  simp only [execPreemption, hw, hv]
  refine if_pos ?_
  obtain h | h := h
  · simp [h]
  · simp [h]

end

/-- A group that is part of a gang (R380, R382). -/
def State.Gang (s : State) (x : Group) : Prop := (s.launchOf x).r.gang ≠ 0 ∧ x.spawn = none

theorem State.inGang_iff : s.inGang x = true ↔ s.Gang x := by simp [State.inGang, State.Gang]

theorem State.inGang_eq_false (h : ¬ s.Gang x) : s.inGang x = false := by
  rw [Bool.eq_false_iff]
  exact fun hg => h (State.inGang_iff.mp hg)

theorem Group.choosable_eq_false (h : (∃ a, x.st = .trapped a) ∨ x.flushes ∨ x.alive = false) : x.choosable = false := by
  unfold Group.choosable
  split
  · rfl
  · rfl
  next ht hf =>
    obtain ⟨a, h⟩ | h | h := h
    · exact absurd h (ht a)
    · unfold Group.flushes at h
      split at h
      next again hst => exact absurd hst (hf again)
      next => cases h
    · exact h

theorem Group.choosable_of_alive (ht : ∀ a, x.st ≠ .trapped a) (hf : x.flushes = false) (ha : x.alive) : x.choosable = true := by
  unfold Group.choosable
  split
  next a h => exact absurd h (ht a)
  next again h => simp [Group.flushes, h] at hf
  next => exact ha

theorem Group.resident_of_not_saved (h : ∀ k f, x.st ≠ .saved k f) : x.resident = true := by
  unfold Group.resident
  split
  next k f hs => exact absurd hs (h k f)
  next => rfl

section
variable (hg : s.group? gn = some x)
include hg

theorem State.preemptGroup_left (h : x.choosable = false) : s.preemptGroup gn = s := by
  simp only [State.preemptGroup, hg, h]
  rfl

/-- A group that may be chosen is left alone where its launch says so, dropped where it can be run again, and else saved (R386). -/
theorem State.preemptGroup_eq (hc : x.choosable) (hr : x.resident) : s.preemptGroup gn =
    if (s.launchOf x).r.pmode = 1 then s
    else if (decide ((s.launchOf x).r.pmode = 0) && (s.launchOf x).r.idem && decide (x.ext < flushLimit) && !s.inGang x && !x.testHold) = true
    then s.flushGroup gn true
    else (s.modGroup gn fun x => { x with save := some 1 }).trySave gn := by
  have mode : (!x.choosable || !x.resident || (s.launchOf x).r.pmode == 1) = decide ((s.launchOf x).r.pmode = 1) := by
    simp [hc, hr, beq_eq_decide]
  simp only [State.preemptGroup, hg, mode, decide_eq_true_eq]
  rfl

theorem State.preemptGroup_clause (hc : x.choosable) (hr : x.resident) :
    ((s.launchOf x).r.pmode = 1 → s.preemptGroup gn = s) ∧
    ((s.launchOf x).r.pmode = 0 → (s.launchOf x).r.idem → x.ext < 16 → ¬ s.Gang x → x.testHold = false →
      s.preemptGroup gn = s.flushGroup gn true) ∧
    ((s.launchOf x).r.pmode = 2 ∨ (s.launchOf x).r.pmode = 0 ∧ ((s.launchOf x).r.idem = false ∨ 16 ≤ x.ext ∨ s.Gang x ∨ x.testHold) →
      s.preemptGroup gn = (s.modGroup gn fun x => { x with save := some 1 }).trySave gn) := by
  have run := State.preemptGroup_eq hg hc hr
  refine ⟨fun h => run.trans (if_pos h), fun h hi he hn ht => ?_, fun h => ?_⟩
  · exact (run.trans (if_neg (by omega))).trans (if_pos (by simp [h, hi, flushLimit, he, State.inGang_eq_false hn, ht]))
  · refine (run.trans (if_neg (by omega))).trans (if_neg ?_)
    obtain h | ⟨-, h | h | h | h⟩ := h
    · simp [h]
    · simp [h]
    · simp [flushLimit, Nat.not_lt.mpr h]
    · simp [State.inGang_iff.mpr h]
    · simp [h]

theorem State.flushGroup_gone {again : Bool}
    (h : (x.runs = false ∧ x.flushes = false ∧ x.fills = false) ∨ x.underWay = false) :
    s.flushGroup gn again = if again then (s.removeGroup gn).requeue x none else s.removeGroup gn := by
  have gone : ((x.runs || x.flushes || x.fills) && x.underWay) = false := by
    obtain ⟨h1, h2, h3⟩ | h := h
    · simp [h1, h2, h3]
    · simp [h]
  simp only [State.flushGroup, hg, gone]
  rfl

theorem State.flushGroup_stays {again : Bool} (h : x.runs ∨ x.flushes ∨ x.fills) (hu : x.underWay) :
    s.flushGroup gn again = s.modGroup gn fun x => { x with st := .flushing again, save := none } := by
  have stays : ((x.runs || x.flushes || x.fills) && x.underWay) = true := by
    simpa [hu, or_assoc] using h
  simp only [State.flushGroup, hg, stays, if_true]

theorem preemptionTimeout_notNow (h : x.save = none ∨ x.resident = false ∨ x.testHold ∨ x.alive = false) :
    NotNow (.preemptionTimeout gn) s := by
  have no : (x.save.isNone || !x.resident || x.testHold || !x.alive) = true := by
    obtain h | h | h | h := h
    · simp [h]
    · simp [h]
    · simp [h]
    · simp [h]
  show execPreemptionTimeout gn s = _
  simp only [execPreemptionTimeout, hg, no, if_true]

theorem preemptionTimeout_happens (h1 : x.save ≠ none) (h2 : x.resident) (h3 : x.testHold = false) (h4 : x.alive) :
    ((s.launchOf x).r.idem → ¬ s.Gang x → Happens (.preemptionTimeout gn) s (s.flushGroup gn true)) ∧
    ((s.launchOf x).r.idem = false ∨ s.Gang x → Happens (.preemptionTimeout gn) s (s.kill gn 0x81)) := by
  have yes : (x.save.isNone || !x.resident || x.testHold || !x.alive) = false := by
    simp [Option.isNone_eq_false_iff.mpr (Option.isSome_iff_ne_none.mpr h1), h2, h3, h4]
  have run : exec (.preemptionTimeout gn) s =
      if (s.launchOf x).r.idem && !s.inGang x then .next (s.flushGroup gn true) else .next (s.kill gn 0x81) := by
    show execPreemptionTimeout gn s = _
    simp only [execPreemptionTimeout, hg, yes]
    rfl
  refine ⟨fun hi hn => run.trans (if_pos (by rw [hi, State.inGang_eq_false hn]; rfl)), fun h => run.trans (if_neg ?_)⟩
  obtain h | h := h
  · simp [h]
  · simp [State.inGang_iff.mpr h]

/-! ## Late packets -/

/-- The cycle after which the packets of a group are late (R400). -/
def State.lateAt (s : State) (x : Group) : DWord := x.placedAt + BitVec.ofNat 64 (850 * (s.launchOf x).r.dline)

theorem lateDelivery_notNow (h : (s.launchOf x).r.arb = 0 ∨ (s.launchOf x).r.dline = 0 ∨ ¬ s.lateAt x < s.clk ∨ s.traffic gn x = false) :
    NotNow (.lateDelivery gn) s := by
  show execLateDelivery gn s = _
  simp only [execLateDelivery, hg]
  split
  next d hd =>
    unfold Group.stamp at hd
    split at hd
    next hc =>
      obtain ⟨harb, hdl⟩ := hc
      refine if_neg fun ⟨hlate, ht⟩ => ?_
      rw [← Option.some.inj hd] at hlate
      obtain h | h | h | h := h
      · rw [h] at harb
        omega
      · exact hdl h
      · exact h hlate
      · rw [h] at ht
        cases ht
    next => cases hd
  next => rfl

theorem lateDelivery_happens (ha : (s.launchOf x).r.arb = 1 ∨ (s.launchOf x).r.arb = 2) (hd : (s.launchOf x).r.dline ≠ 0)
    (hl : s.lateAt x < s.clk) (ht : s.traffic gn x) : Happens (.lateDelivery gn) s (s.countLate x.launch gn) := by
  have stamp : x.stamp (s.launchOf x) = some (s.lateAt x) := if_pos ⟨ha, hd⟩
  show execLateDelivery gn s = _
  simp only [execLateDelivery, hg, stamp]
  exact if_pos ⟨hl, ht⟩

end

/-- The state with one more late packet counted for a launch (R400). -/
def State.countedLate (s : State) (l : Nat) : State :=
  s.modLaunch l fun l => { l with late := if l.late = 0xFFFFFFFF then l.late else l.late + 1 }

/-- With ARB 2 a late packet traps its group, and with another ARB it only counts (R400). -/
theorem State.countLate_eq : s.countLate x.launch gn = if (s.launchOf x).r.arb = 2 then
    (s.countedLate x.launch).modGroup gn fun x => { x with lateTrap := true } else s.countedLate x.launch := by
  have after : (s.countedLate x.launch).launch? x.launch = (s.launch? x.launch).map fun l =>
      { l with late := if l.late = 0xFFFFFFFF then l.late else l.late + 1 } := Table.find?_update_self _ _ _
  show (match (s.countedLate x.launch).launch? x.launch with
    | some l => if l.r.arb = 2 then (s.countedLate x.launch).modGroup gn fun x => { x with lateTrap := true } else s.countedLate x.launch
    | none => s.countedLate x.launch) = _
  rw [after, State.launchOf]
  cases s.launch? x.launch with
  | none => rfl
  | some l => rfl

/-! ## Eviction -/

section
variable {core : Nat} (hr : s.residents core = [(gn, x)]) (hslot : x.slot < 8)
include hr hslot

/-- The one resident of a core is the one in its group slots. -/
theorem residentSlots_eq : ((List.range 8).filterMap fun i => (s.residents core).find? fun p => p.2.slot == i) = [(gn, x)] := by
  rw [hr]
  obtain h | h | h | h | h | h | h | h : x.slot = 0 ∨ x.slot = 1 ∨ x.slot = 2 ∨ x.slot = 3 ∨ x.slot = 4 ∨ x.slot = 5 ∨ x.slot = 6 ∨
    x.slot = 7 := by omega
  all_goals simp [List.range_succ, List.find?, h]

theorem eviction_notNow (h : x.idleFrom s.clk = none ∨ s.hasCandidate core 3 = false) : NotNow (.eviction core) s := by
  have none_ready {a b : Bool} : (a || b || !([(gn, x)] : List (Nat × Group)).all (fun p => (p.2.idleFrom s.clk).isSome) || !s.hasCandidate core 3) = true := by
    obtain h | h := h
    · simp [h]
    · simp [h]
  show execEviction core s = _
  unfold execEviction
  rw [residentSlots_eq hr hslot]
  exact if_pos none_ready

theorem eviction_happens (hs : s.ready.safe = false) (he : (s.core core).evicted = none) (hi : x.idleFrom s.clk ≠ none)
    (hc : s.hasCandidate core 3) (hch : x.choosable) (hn : x.save = none) :
    Happens (.eviction core) s (((s.modCore core fun k => { k with evicted := some s.clk }).modGroup gn fun x =>
      { x with save := some 2 }).trySave gn) := by
  have idle : (x.idleFrom s.clk).isSome = true := Option.isSome_iff_ne_none.mpr hi
  show execEviction core s = _
  unfold execEviction
  rw [residentSlots_eq hr hslot]
  have able : ([(gn, x)] : List (Nat × Group)).filter (fun p => p.2.choosable && p.2.save.isNone) = [(gn, x)] := by
    simp [hch, hn]
  simp only [hs, he, idle, hc, able, List.all_cons, List.all_nil]
  rfl

end

/-! ## Packets -/

/-- A port grants the first in order of the packets that wait at it (R399). -/
theorem State.grantOf_eq {port : Nat} :
    s.grantOf port = (s.packets.filter fun p => !p.sent && p.outPort == port).argmin Packet.order := by
  unfold State.grantOf List.argmin List.argAux
  congr 1
  funext b p
  cases b with
  | none => rfl
  | some q => simp only [decide_eq_true_eq]

/-- A packet that has not reached its port waits at it. -/
def State.WaitsAt (s : State) (port : Nat) (p : Packet) : Prop := p ∈ s.packets ∧ p.sent = false ∧ p.outPort = port

theorem State.mem_waiting {port : Nat} {p : Packet} :
    p ∈ (s.packets.filter fun p => !p.sent && p.outPort == port) ↔ s.WaitsAt port p := by
  simp [State.WaitsAt]

theorem packetAgeTick_clause {k : Nat} {p : Packet} (hp : s.packets[k]? = some p) :
    (p.sent → NotNow (.packetAgeTick k) s) ∧
    (p.sent = false → Happens (.packetAgeTick k) s
      { s with packets := s.packets.set k { p with age := min 255 (p.age + 1), cls := if 254 ≤ p.age then 0 else p.cls } }) := by
  have promoted : (min 255 (p.age + 1) = 255) = (254 ≤ p.age) := by
    apply propext
    omega
  have run : exec (.packetAgeTick k) s = if p.sent then .refused .notEnabled else
      .next { s with packets := s.packets.set k { p with age := min 255 (p.age + 1), cls := if 254 ≤ p.age then 0 else p.cls } } := by
    show execPacketAgeTick k s = _
    simp only [execPacketAgeTick, hp, promoted]
  exact ⟨fun h => run.trans (if_pos h), fun h => run.trans (if_neg (by rw [h]; decide))⟩

theorem portGrant_refused {port : Nat} (h : (∀ p, ¬ s.WaitsAt port p) ∨ s.ready.ual.getLsbD port = false) :
    portGrant port s = .refused .notEnabled := by
  unfold portGrant
  split
  next => rfl
  next p hp =>
    obtain h | h := h
    · rw [State.grantOf_eq] at hp
      exact absurd (State.mem_waiting.mp (List.argmin_mem hp)) (h p)
    · exact if_neg (by rw [h]; decide)

theorem portGrant_grants {port : Nat} {q : Packet} (hu : s.ready.ual.getLsbD port) (hq : s.WaitsAt port q) :
    ∃ p, s.WaitsAt port p ∧ (∀ q, s.WaitsAt port q → ¬ q.order < p.order) ∧
      portGrant port s = .next { s with packets := s.packets.filter (·.id != p.id) ++ [{ p with sent := true }] } := by
  cases hp : s.grantOf port with
  | none =>
    rw [State.grantOf_eq, List.argmin_eq_none] at hp
    have := State.mem_waiting.mpr hq
    rw [hp] at this
    cases this
  | some p =>
    have hleast := hp
    rw [State.grantOf_eq] at hleast
    refine ⟨p, State.mem_waiting.mp (List.argmin_mem hleast),
      fun q hq => List.not_lt_of_mem_argmin (State.mem_waiting.mpr hq) hleast, ?_⟩
    simp only [portGrant, hp, hu, if_true]

/-- The class is the first thing that a port compares. -/
theorem Packet.order_cls (p : Packet) : ∃ l, p.order = p.cls :: l := by
  unfold Packet.order
  split
  next h => exact ⟨_, by rw [h]⟩
  next => exact ⟨_, rfl⟩
  next => exact ⟨_, rfl⟩

theorem Packet.order_zero {p : Packet} (h : p.cls = 0) : p.order = [0, 255 - p.age, p.inPort] := by
  unfold Packet.order
  split
  next => rfl
  next _ h0 => exact absurd h h0
  next _ h0 => exact absurd h h0

theorem Packet.order_stamped {p : Packet} {d : DWord} (h : p.cls ≠ 0) (hd : p.stamp = some d) :
    p.order = [p.cls, 0, d.toNat, 255 - p.age, p.inPort] := by
  unfold Packet.order
  split
  next h0 => exact absurd h0 h
  next hs _ => rw [Option.some.inj (hd.symm.trans hs)]
  next hs _ => cases hd.symm.trans hs

theorem Packet.order_plain {p : Packet} (h : p.cls ≠ 0) (hd : p.stamp = none) :
    p.order = [p.cls, 1, p.slack, 255 - p.age, p.inPort] := by
  unfold Packet.order
  split
  next h0 => exact absurd h0 h
  next hs _ => cases hd.symm.trans hs
  next => rfl

/-- What goes before what at a port: lower classes, in class 0 higher ages, stamped packets by deadline, the others by slack (R399). -/
theorem Packet.order_clause (p q : Packet) :
    (p.cls < q.cls → p.order < q.order) ∧
    (p.cls = 0 → q.cls = 0 → q.age < p.age → p.age ≤ 255 → p.order < q.order) ∧
    (∀ d, p.cls = q.cls → p.cls ≠ 0 → p.stamp = some d →
      (q.stamp = none → p.order < q.order) ∧ (∀ e, q.stamp = some e → d < e → p.order < q.order)) ∧
    (p.cls = q.cls → p.cls ≠ 0 → p.stamp = none → q.stamp = none → p.slack < q.slack → p.order < q.order) := by
  refine ⟨fun h => ?_, fun hp hq ha hm => ?_, fun d hc h0 hd => ⟨fun hq => ?_, fun e hq hlt => ?_⟩, fun hc h0 hp hq hlt => ?_⟩
  · obtain ⟨l, hl⟩ := p.order_cls
    obtain ⟨m, hm⟩ := q.order_cls
    rw [hl, hm, List.cons_lt_cons_iff]
    exact .inl h
  · rw [Packet.order_zero hp, Packet.order_zero hq]
    have : 255 - p.age < 255 - q.age := by omega
    simp [List.cons_lt_cons_iff, this]
  · rw [Packet.order_stamped h0 hd, Packet.order_plain (hc ▸ h0) hq, hc]
    simp [List.cons_lt_cons_iff]
  · rw [Packet.order_stamped h0 hd, Packet.order_stamped (hc ▸ h0) hq, hc]
    have : d.toNat < e.toNat := hlt
    simp [List.cons_lt_cons_iff, this]
  · rw [Packet.order_plain h0 hp, Packet.order_plain (hc ▸ h0) hq, hc]
    simp [List.cons_lt_cons_iff, hlt]

theorem State.leavesNext_iff {p : Packet} : s.leavesNext p = true ↔ p.sent ∧ s.ready.ual.getLsbD p.outPort ∧
    (s.packets.find? fun q => q.sent && q.outPort == p.outPort).map Packet.id = some p.id := by
  rw [State.leavesNext, Bool.and_eq_true, Bool.and_eq_true, beq_iff_eq, and_assoc]

theorem State.leavesNext_unique {p q : Packet} (hp : s.leavesNext p) (hq : s.leavesNext q) (h : p.outPort = q.outPort) : p.id = q.id := by
  obtain ⟨-, -, hp⟩ := State.leavesNext_iff.mp hp
  obtain ⟨-, -, hq⟩ := State.leavesNext_iff.mp hq
  rw [h] at hp
  exact Option.some.inj (hp.symm.trans hq)

section
variable {p : Packet} (hf : (s.packets.find? fun q => q.id == p.id) = some p)
include hf

theorem packetDelivery_eq :
    packetDelivery p.id s = if s.leavesNext p then .next (s.takePacket p) else .refused .notEnabled := by
  simp only [packetDelivery, hf]

theorem packetDelivery_refused (h : s.leavesNext p = false) : packetDelivery p.id s = .refused .notEnabled :=
  (packetDelivery_eq hf).trans (if_neg (by rw [h]; decide))

theorem packetDelivery_clause (h : s.leavesNext p) :
    let gone : State := { s with packets := s.packets.filter (·.id != p.id) }
    (p.stamp = none → packetDelivery p.id s = .next gone) ∧
    (∀ d, p.stamp = some d → d ≥ s.clk → packetDelivery p.id s = .next gone) ∧
    (∀ d, p.stamp = some d → d < s.clk → packetDelivery p.id s = .next (gone.countLate p.launch p.grp)) := by
  intro gone
  have run := (packetDelivery_eq hf).trans (if_pos h)
  refine ⟨fun hs => ?_, fun d hs hd => ?_, fun d hs hd => ?_⟩
  all_goals rw [run, State.takePacket, hs]
  · exact congrArg _ (if_neg (BitVec.not_lt.mpr hd))
  · exact congrArg _ (if_pos hd)

end

/-! ## A module that is unreachable (R381) -/

/-- No group waits at a `.pod` step: none traps. -/
theorem State.podCheck_of_none {g : Nat} (h : ∀ p ∈ s.groups, p.2.atPod = false) : s.podCheck g = s := by
  unfold State.podCheck
  split
  next => rfl
  next x hx =>
    have := h (g, x) (Table.mem_of_find? hx)
    exact if_neg (by simp [this])

theorem State.podCheck_foldl {l : List (Nat × Group)} (h : ∀ p ∈ s.groups, p.2.atPod = false) :
    l.foldl (fun s p => s.podCheck p.1) s = s := by
  induction l with
  | nil => rfl
  | cons p l ih => rw [List.foldl_cons, State.podCheck_of_none h, ih]

/-- The launches that lose a module: pod gangs that it is part of and that have started. -/
def State.losing (s : State) (m : Nat) : List (Nat × Launch) :=
  s.launches.filter fun p => p.2.r.gang == 4 && p.2.hasStarted && (s.podReports p.2.r.podg).contains m

theorem podModuleUnreachable_eq (m : BitVec 7) : exec (.podModuleUnreachable m) s =
    .next ((((s.losing m.toNat).foldl (fun s p => s.modLaunch p.1 fun l => { l with podLost := true }) s).groups.filter fun p =>
        (s.losing m.toNat).any fun l => l.1 == p.2.launch).foldl (fun s p => s.podCheck p.1)
      ((s.losing m.toNat).foldl (fun s p => s.modLaunch p.1 fun l => { l with podLost := true }) s)) := rfl

theorem podModuleUnreachable_none {m : BitVec 7} (h : ∀ l ∈ s.launches, l.2.r.gang = 4 → l.2.ran = [] ∧ ∀ n, l.2.gang ≠ .started n) :
    Happens (.podModuleUnreachable m) s s := by
  have none_loses : s.losing m.toNat = [] := by
    refine List.filter_eq_nil_iff.mpr fun l hl hb => ?_
    simp only [Bool.and_eq_true, beq_iff_eq] at hb
    obtain ⟨⟨hgang, hstarted⟩, -⟩ := hb
    obtain ⟨hran, hnot⟩ := h l hl hgang
    unfold Launch.hasStarted at hstarted
    rw [hran] at hstarted
    cases hg : l.2.gang with
    | started n => exact hnot n hg
    | _ => simp [hg] at hstarted
  refine (podModuleUnreachable_eq m).trans ?_
  rw [none_loses]
  simp

theorem podModuleUnreachable_one {m : BitVec 7} {id : Nat} {l : Launch} (hl : s.launches = [(id, l)]) (h4 : l.r.gang = 4)
    (hst : (∃ span, l.gang = .started span) ∨ l.ran ≠ []) (hm : m.toNat ∈ s.podReports l.r.podg) (hp : ∀ p ∈ s.groups, p.2.atPod = false) :
    Happens (.podModuleUnreachable m) s (s.modLaunch id fun l => { l with podLost := true }) := by
  have started : l.hasStarted = true := by
    unfold Launch.hasStarted
    obtain ⟨n, h⟩ | h := hst
    · rw [h]
      rfl
    · simp [h]
  have loses : s.losing m.toNat = [(id, l)] := by
    rw [State.losing, hl]
    simp [h4, started, hm]
  refine (podModuleUnreachable_eq m).trans ?_
  rw [loses, List.foldl_cons, List.foldl_nil, State.podCheck_foldl]
  exact hp

/-- Settles O44: each event as its model function takes it. -/
theorem preemptionEvents : Obligations.PreemptionEvents := by
  intro s
  refine ⟨fun die c gn x hw hv => ⟨preemption_happens hw hv, preemption_notNow hw hv⟩, fun gn x hg => ⟨fun h =>
      State.preemptGroup_left hg (Group.choosable_eq_false h), fun again => ⟨State.flushGroup_gone hg, State.flushGroup_stays hg⟩,
      fun ht hs hf ha => State.preemptGroup_clause hg (Group.choosable_of_alive ht hf ha) (Group.resident_of_not_saved hs),
      preemptionTimeout_notNow hg, preemptionTimeout_happens hg, lateDelivery_notNow hg, fun ha hd hl ht => ?_, fun ha hd hl ht => ?_⟩,
    fun core gn x hr hslot hs he => ⟨fun h => eviction_notNow hr hslot (.inl h), fun _ h => eviction_notNow hr hslot (.inr h),
      fun hi hc hch hn => eviction_happens hr hslot hs he hi hc hch hn⟩,
    fun k p hp => packetAgeTick_clause hp, fun port => ⟨portGrant_refused, fun hu q hq => portGrant_grants hu hq⟩, Packet.order_clause,
    fun p q hp hq => State.leavesNext_unique hp hq, fun p hf => ⟨fun h => ?_, packetDelivery_refused hf⟩,
    fun p hf h => packetDelivery_clause hf h, fun m h => podModuleUnreachable_none h,
    fun m id l hl h4 hst hm hp => podModuleUnreachable_one hl h4 hst hm hp⟩
  · have := lateDelivery_happens hg (.inl ha) hd hl ht
    rwa [State.countLate_eq, if_neg (by omega)] at this
  · have := lateDelivery_happens hg (.inr ha) hd hl ht
    rwa [State.countLate_eq, if_pos ha] at this
  · obtain ⟨h1, h2, -⟩ := State.leavesNext_iff.mp h
    exact ⟨h1, h2⟩

end Sys2Proof.Machine
end

section
/-!
Collision sets (R226): each set of an event's writers is made of all writers that a chain of shared bits links.
-/
namespace Sys2Proof.Machine
variable {ws C D : List Writer} {y : Writer} {a b : Write} {k : Nat}

/-! ## Bits of a footprint -/

theorem testBit_foldl_or {α : Type} {l : List α} {f : α → Nat} {m i : Nat} :
    (l.foldl (fun m x => m ||| f x) m).testBit i = (m.testBit i || l.any fun x => (f x).testBit i) := by
  induction l generalizing m with
  | nil => simp
  | cons x l ih => rw [List.foldl_cons, ih, Nat.testBit_or, List.any_cons, Bool.or_assoc]

theorem testBit_maskAt {i : Nat} : (a.maskAt k).testBit i = a.foot.any fun p => p.1 == k && p.2.testBit i := by
  rw [Write.maskAt, testBit_foldl_or, Nat.zero_testBit, Bool.false_or, List.any_filter]

theorem meets_iff : a.meets b = true ↔ ∃ k i, (a.maskAt k).testBit i = true ∧ (b.maskAt k).testBit i = true := by
  simp only [Write.meets, testBit_maskAt, List.any_eq_true, Bool.and_eq_true, beq_iff_eq, bne_iff_ne]
  constructor
  · rintro ⟨p, hp, q, hq, hk, hne⟩
    obtain ⟨i, hi⟩ := Nat.exists_testBit_of_ne_zero hne
    rw [Nat.testBit_and, Bool.and_eq_true] at hi
    exact ⟨p.1, i, ⟨p, hp, rfl, hi.1⟩, q, hq, hk.symm, hi.2⟩
  · rintro ⟨k, i, ⟨p, hp, rfl, hpi⟩, q, hq, hk, hqi⟩
    refine ⟨p, hp, q, hq, hk.symm, fun h0 => ?_⟩
    have := congrArg (Nat.testBit · i) h0
    simp [hpi, hqi] at this

theorem meets_comm : a.meets b = b.meets a := by
  rw [Bool.eq_iff_iff, meets_iff, meets_iff]
  simp only [and_comm]

/-! ## The sets of a list of writers -/

/-- A property that passes from a writer of a list to those it meets. -/
def Spreads (ws : List Writer) (P : Writer → Prop) : Prop := ∀ y ∈ ws, ∀ z ∈ ws, P y → y.w.meets z.w → P z

theorem Spreads.sublist {vs : List Writer} {P : Writer → Prop} (h : Spreads ws P) (hs : ∀ y ∈ vs, y ∈ ws) : Spreads vs P :=
  fun y hy z hz => h y (hs y hy) z (hs z hz)

/-- Sets that hold every writer of a list, each with all that it meets and with none that nothing links to it. -/
structure LinkedSets (ws : List Writer) (R : List (List Writer)) : Prop where
  mem : ∀ C ∈ R, ∀ y ∈ C, y ∈ ws
  covers : ∀ y ∈ ws, ∃ C ∈ R, y ∈ C
  closed : ∀ C ∈ R, Spreads ws (· ∈ C)
  linked : ∀ C ∈ R, ∀ P, Spreads ws P → (∃ y ∈ C, P y) → ∀ z ∈ C, P z

theorem mem_partition_iff {α : Type} {p : α → Bool} {l : List α} {x : α} :
    (x ∈ (l.partition p).1 ↔ x ∈ l ∧ p x = true) ∧ (x ∈ (l.partition p).2 ↔ x ∈ l ∧ p x = false) := by
  simp [List.partition_eq_filter_filter]

theorem linkedSets_collisionSets : LinkedSets ws (collisionSets ws) := by
  induction ws with
  | nil => exact ⟨by simp [collisionSets], by simp, by simp [collisionSets], by simp [collisionSets]⟩
  | cons w ws ih =>
    have hits (C : List Writer) : (C.any fun x => w.w.meets x.w) = true ↔ ∃ x ∈ C, w.w.meets x.w := List.any_eq_true
    have sets : collisionSets (w :: ws) = (w :: ((collisionSets ws).partition fun C => C.any fun x => w.w.meets x.w).1.flatten) ::
        ((collisionSets ws).partition fun C => C.any fun x => w.w.meets x.w).2 := rfl
    have first {y : Writer} : y ∈ ((collisionSets ws).partition fun C => C.any fun x => w.w.meets x.w).1.flatten ↔
        ∃ C ∈ collisionSets ws, (∃ x ∈ C, w.w.meets x.w) ∧ y ∈ C := by
      simp only [List.mem_flatten, mem_partition_iff.1, hits, and_assoc]
    have other {C : List Writer} : C ∈ ((collisionSets ws).partition fun C => C.any fun x => w.w.meets x.w).2 ↔
        C ∈ collisionSets ws ∧ ∀ x ∈ C, w.w.meets x.w = false := by
      simp only [mem_partition_iff.2, List.any_eq_false, Bool.not_eq_true]
    rw [sets]
    refine ⟨fun C hC y hy => ?_, fun y hy => ?_, fun C hC y hy z hz hyC hm => ?_, fun C hC P hP hex z hz => ?_⟩
    · obtain rfl | hC := List.mem_cons.mp hC
      · obtain rfl | hy := List.mem_cons.mp hy
        · exact List.mem_cons_self
        · obtain ⟨C, hC, -, hy⟩ := first.mp hy
          exact List.mem_cons_of_mem _ (ih.mem C hC y hy)
      · exact List.mem_cons_of_mem _ (ih.mem C (other.mp hC).1 y hy)
    · obtain rfl | hy := List.mem_cons.mp hy
      · exact ⟨_, List.mem_cons_self, List.mem_cons_self⟩
      · obtain ⟨C, hC, hyC⟩ := ih.covers y hy
        by_cases h : ∃ x ∈ C, w.w.meets x.w
        · exact ⟨_, List.mem_cons_self, List.mem_cons_of_mem _ (first.mpr ⟨C, hC, h, hyC⟩)⟩
        · refine ⟨C, List.mem_cons_of_mem _ (other.mpr ⟨hC, fun x hx => ?_⟩), hyC⟩
          simpa using fun hm => h ⟨x, hx, hm⟩
    · obtain rfl | hC := List.mem_cons.mp hC
      · obtain rfl | later := List.mem_cons.mp hz
        · exact List.mem_cons_self
        · refine List.mem_cons_of_mem _ (first.mpr ?_)
          obtain rfl | hyC := List.mem_cons.mp hyC
          · obtain ⟨C, hC, hzC⟩ := ih.covers z later
            exact ⟨C, hC, ⟨z, hzC, hm⟩, hzC⟩
          · obtain ⟨C, hC, hx, hyC⟩ := first.mp hyC
            exact ⟨C, hC, hx, ih.closed C hC y (ih.mem C hC y hyC) z later hyC hm⟩
      · obtain ⟨hC, hno⟩ := other.mp hC
        obtain rfl | hz := List.mem_cons.mp hz
        · have := hno y hyC
          rw [meets_comm, hm] at this
          cases this
        · exact ih.closed C hC y (ih.mem C hC y hyC) z hz hyC hm
    · have hP' : Spreads ws P := hP.sublist fun y hy => List.mem_cons_of_mem _ hy
      obtain rfl | hC := List.mem_cons.mp hC
      · have from_w : P w → ∀ z ∈ w :: ((collisionSets ws).partition fun C => C.any fun x => w.w.meets x.w).1.flatten, P z := by
          intro hw z hz
          obtain rfl | hz := List.mem_cons.mp hz
          · exact hw
          · obtain ⟨C, hC, ⟨x, hx, hm⟩, hz⟩ := first.mp hz
            have hx' := List.mem_cons_of_mem w (ih.mem C hC x hx)
            exact ih.linked C hC P hP' ⟨x, hx, hP w List.mem_cons_self x hx' hw hm⟩ z hz
        obtain ⟨y, hy, hPy⟩ := hex
        obtain rfl | hy := List.mem_cons.mp hy
        · exact from_w hPy z hz
        · obtain ⟨C, hC, ⟨x, hx, hm⟩, hy⟩ := first.mp hy
          have hPx := ih.linked C hC P hP' ⟨y, hy, hPy⟩ x hx
          have hx' := List.mem_cons_of_mem w (ih.mem C hC x hx)
          exact from_w (hP x hx' w List.mem_cons_self hPx (by rw [meets_comm]; exact hm)) z hz
      · exact ih.linked C (other.mp hC).1 P hP' hex z hz

/-! ## Sets in the order of the writers -/

/-- A linked set whose members stand in the order of the writers, each as often as there. -/
structure OrderedSet (ws C : List Writer) : Prop where
  mem : ∀ y ∈ C, y ∈ ws
  closed : Spreads ws (· ∈ C)
  linked : ∀ P, Spreads ws P → (∃ y ∈ C, P y) → ∀ z ∈ C, P z
  ordered : C = ws.filter C.contains

/-- Ordered sets that together hold every writer. -/
structure OrderedSets (ws : List Writer) (R : List (List Writer)) : Prop where
  set : ∀ C ∈ R, OrderedSet ws C
  covers : ∀ y ∈ ws, ∃ C ∈ R, y ∈ C

theorem mem_inOrderOf {set : List Writer} {y : Writer} : y ∈ inOrderOf ws set ↔ y ∈ ws ∧ y ∈ set := by
  rw [inOrderOf, List.mem_filter, List.contains_iff_mem]

theorem orderedSets_collisionSets : OrderedSets ws ((collisionSets ws).map (inOrderOf ws)) := by
  have sets := linkedSets_collisionSets (ws := ws)
  have same {S : List Writer} (hS : S ∈ collisionSets ws) {y : Writer} : y ∈ inOrderOf ws S ↔ y ∈ S :=
    mem_inOrderOf.trans (and_iff_right_of_imp (sets.mem S hS y))
  refine ⟨fun C hC => ?_, fun y hy => ?_⟩
  · obtain ⟨S, hS, rfl⟩ := List.mem_map.mp hC
    refine ⟨fun y hy => sets.mem S hS y ((same hS).mp hy), fun y hy z hz hyC hm => ?_, fun P hP hex z hz => ?_, ?_⟩
    · exact (same hS).mpr (sets.closed S hS y hy z hz ((same hS).mp hyC) hm)
    · obtain ⟨y, hy, hPy⟩ := hex
      exact sets.linked S hS P hP ⟨y, (same hS).mp hy, hPy⟩ z ((same hS).mp hz)
    · refine List.filter_congr fun y hy => ?_
      rw [Bool.eq_iff_iff, List.contains_iff_mem, List.contains_iff_mem, same hS]
  · obtain ⟨S, hS, hyS⟩ := sets.covers y hy
    exact ⟨_, List.mem_map_of_mem hS, (same hS).mpr hyS⟩

/-- A set of a part of the writers that meets nothing outside itself is a set of the writers. -/
theorem OrderedSet.of_part {p : Writer → Bool} (hp : Spreads ws (p · = true)) (h : OrderedSet (ws.filter p) C) : OrderedSet ws C := by
  have mem (y) (hy : y ∈ C) : y ∈ ws ∧ p y := List.mem_filter.mp (h.mem y hy)
  refine ⟨fun y hy => (mem y hy).1, fun y hy z hz hyC hm => ?_, fun P hP => h.linked P (hP.sublist fun y hy => (List.mem_filter.mp hy).1), ?_⟩
  · have hpz : p z = true := hp y hy z hz (mem y hyC).2 hm
    exact h.closed y (List.mem_filter.mpr (mem y hyC)) z (List.mem_filter.mpr ⟨hz, hpz⟩) hyC hm
  · conv_lhs => rw [h.ordered, List.filter_filter]
    refine List.filter_congr fun y hy => ?_
    rw [Bool.and_eq_left_iff_imp]
    intro hc
    exact (mem y (List.contains_iff_mem.mp hc)).2

/-- Two sets with a writer in common are one. -/
theorem OrderedSet.eq_of_mem (hC : OrderedSet ws C) (hD : OrderedSet ws D) (hyC : y ∈ C) (hyD : y ∈ D) : C = D := by
  have sub : ∀ z ∈ C, z ∈ D := hC.linked (· ∈ D) hD.closed ⟨y, hyC, hyD⟩
  have sup : ∀ z ∈ D, z ∈ C := hD.linked (· ∈ C) hC.closed ⟨y, hyD, hyC⟩
  rw [hC.ordered, hD.ordered]
  refine List.filter_congr fun z _ => ?_
  rw [Bool.eq_iff_iff, List.contains_iff_mem, List.contains_iff_mem]
  exact ⟨sub z, sup z⟩

/-- What picks writers that all meet each other picks the same from a set with one of them as from the whole list. -/
theorem OrderedSet.filter_eq (h : OrderedSet ws C) {p : Writer → Bool} (hp : ∀ y z, p y → p z → y.w.meets z.w) (hy : y ∈ C) (hpy : p y) :
    C.filter p = ws.filter p := by
  conv_lhs => rw [h.ordered, List.filter_filter]
  refine List.filter_congr fun z hz => ?_
  rw [Bool.and_eq_left_iff_imp]
  exact fun hpz => List.contains_iff_mem.mpr (h.closed y (h.mem y hy) z hz hy (hp y z hpy hpz))

end Sys2Proof.Machine
end

section
/-!
The writes of a commit event (R215-R219): the sets it resolves, the bytes that these write, and what memory holds then.
-/
namespace Sys2Proof.Machine
variable {s : State} {ws C : List Writer} {y : Writer} {rd : Nat → Byte} {det : Bool} {k b : Nat}

/-! ## The sets of an event -/

/-- The sets of the writers that write, in the order of these. -/
def okSets (rd : Nat → Byte) (ws : List Writer) : List (List Writer) :=
  (collisionSets (ws.filter (isWriter rd))).map (inOrderOf (ws.filter (isWriter rd)))

/-- The sets that an event resolves: those of this module, then those of each set that reaches a peer. -/
def eventSets (rd : Nat → Byte) (ws : List Writer) : List (List Writer) :=
  okSets rd (peerSets ws).2 ++ (peerSets ws).1.flatMap (okSets rd)

theorem resolveWrites_eq : s.resolveWrites det ws =
    ⟨(okSets s.readByte ws).flatMap fun C => (resolveSet s det s.readByte C).bytes,
      ((okSets s.readByte ws).flatMap fun C => (resolveSet s det s.readByte C).results) ++
        failedResults (ws.filter fun y => !isWriter s.readByte y)⟩ := by
  simp only [State.resolveWrites, List.partition_eq_filter_filter, List.flatMap_map, okSets]
  rfl

theorem mem_peerSets : C ∈ (peerSets ws).1 ↔ C ∈ (collisionSets ws).map (inOrderOf ws) ∧ (C.any fun y => y.w.peer) = true :=
  List.mem_filter

theorem mem_here : y ∈ (peerSets ws).2 ↔ y ∈ ws ∧ ∀ C ∈ (peerSets ws).1, y ∉ C := by
  simp [peerSets]

/-- What writes among the writers that no peer set holds meets none that one holds. -/
theorem spreads_here : Spreads (ws.filter (isWriter rd)) fun y => (!(peerSets ws).1.any fun C => C.contains y) = true := by
  have all := orderedSets_collisionSets (ws := ws)
  intro y hy z hz hp hm
  simp only [Bool.not_eq_true', List.any_eq_false, List.contains_iff_mem] at hp ⊢
  intro C hC hzC
  have hym : z.w.meets y.w = true := by rw [meets_comm]; exact hm
  exact hp C hC ((all.set C (mem_peerSets.mp hC).1).closed z (List.mem_filter.mp hz).1 y (List.mem_filter.mp hy).1 hzC hym)

/-- The sets of an event are those of its writers. -/
theorem orderedSets_eventSets : OrderedSets (ws.filter (isWriter rd)) (eventSets rd ws) := by
  have all := orderedSets_collisionSets (ws := ws)
  have here : OrderedSets ((ws.filter (isWriter rd)).filter fun y => !(peerSets ws).1.any fun C => C.contains y) (okSets rd (peerSets ws).2) := by
    have sets : OrderedSets _ (okSets rd (peerSets ws).2) := orderedSets_collisionSets
    rwa [show (peerSets ws).2 = ws.filter fun y => !(peerSets ws).1.any fun C => C.contains y from rfl, List.filter_comm] at sets
  have peer {D : List Writer} (hD : D ∈ (peerSets ws).1) : OrderedSets ((ws.filter (isWriter rd)).filter D.contains) (okSets rd D) := by
    have sets : OrderedSets _ (okSets rd D) := orderedSets_collisionSets
    rwa [List.filter_comm, ← (all.set D (mem_peerSets.mp hD).1).ordered]
  refine ⟨fun C hC => ?_, fun y hy => ?_⟩
  · obtain hC | hC := List.mem_append.mp hC
    · exact (here.set C hC).of_part spreads_here
    · obtain ⟨D, hD, hC⟩ := List.mem_flatMap.mp hC
      refine ((peer hD).set C hC).of_part fun y hy z hz hyD hm => ?_
      exact List.contains_iff_mem.mpr ((all.set D (mem_peerSets.mp hD).1).closed y (List.mem_filter.mp hy).1 z (List.mem_filter.mp hz).1
        (List.contains_iff_mem.mp hyD) hm)
  · by_cases h : ∃ D ∈ (peerSets ws).1, y ∈ D
    · obtain ⟨D, hD, hyD⟩ := h
      obtain ⟨C, hC, hyC⟩ := (peer hD).covers y (List.mem_filter.mpr ⟨hy, List.contains_iff_mem.mpr hyD⟩)
      exact ⟨C, List.mem_append_right _ (List.mem_flatMap.mpr ⟨D, hD, hC⟩), hyC⟩
    · obtain ⟨C, hC, hyC⟩ := here.covers y (List.mem_filter.mpr ⟨hy, by simpa using h⟩)
      exact ⟨C, List.mem_append_left _ hC, hyC⟩

/-! ## The bytes of an event -/

/-- Bits of a byte written into memory, where it lies in this module: their mask, and the byte that holds them. -/
def Memory.blend (m : Memory) (e : Nat × Byte × Byte) : Memory :=
  if isPeerKey e.1 then m else m.write e.1 ((m.read e.1 &&& ~~~e.2.1) ||| (e.2.2 &&& e.2.1))

def Memory.writeBits (m : Memory) (l : List (Nat × Byte × Byte)) : Memory := l.foldl Memory.blend m

theorem Memory.blend_read_ne {m : Memory} {e : Nat × Byte × Byte} (h : e.1 ≠ k) : (m.blend e).read k = m.read k := by
  rw [Memory.blend]
  split
  · rfl
  · exact Memory.read_write_ne _ _ (Ne.symm h)

theorem Memory.blend_read_self {m : Memory} {e : Nat × Byte × Byte} (hk : e.1 < 2 ^ 60) :
    (m.blend e).read e.1 = (m.read e.1 &&& ~~~e.2.1) ||| (e.2.2 &&& e.2.1) := by
  rw [Memory.blend, if_neg (by simpa [isPeerKey] using hk), Memory.read_write_self]

theorem State.writeBits_mem {l : List (Nat × Byte × Byte)} : (s.writeBits l).mem = s.mem.writeBits l := by
  induction l generalizing s with
  | nil => rfl
  | cons e l ih =>
    refine (ih (s := s.writeByte e.1 _)).trans (congrArg (Memory.writeBits · l) ?_)
    rw [State.writeByte, Memory.blend]
    split <;> rfl

theorem Memory.writeBits_read_of_notMem {m : Memory} {l : List (Nat × Byte × Byte)} (h : ∀ e ∈ l, e.1 ≠ k) :
    (m.writeBits l).read k = m.read k := by
  induction l generalizing m with
  | nil => rfl
  | cons e l ih => exact (ih fun e he => h e (List.mem_cons_of_mem _ he)).trans (Memory.blend_read_ne (h e List.mem_cons_self))

/-- A bit takes the value that all writes to it give it. -/
theorem Memory.writeBits_getLsbD {m : Memory} {l : List (Nat × Byte × Byte)} {c : Bool} (hk : k < 2 ^ 60) (hb : b < 8)
    (same : ∀ e ∈ l, e.1 = k → e.2.1.getLsbD b = true → e.2.2.getLsbD b = c)
    (touched : (m.read k).getLsbD b = c ∨ ∃ e ∈ l, e.1 = k ∧ e.2.1.getLsbD b = true) : ((m.writeBits l).read k).getLsbD b = c := by
  induction l generalizing m with
  | nil => exact touched.resolve_right (by simp)
  | cons e l ih =>
    refine ih (fun e he => same e (List.mem_cons_of_mem _ he)) ?_
    by_cases hek : e.1 = k
    · subst hek
      rw [Memory.blend_read_self hk, BitVec.getLsbD_or, BitVec.getLsbD_and, BitVec.getLsbD_and, BitVec.getLsbD_not]
      cases hm : e.2.1.getLsbD b with
      | true => exact Or.inl (by simp [same e List.mem_cons_self rfl hm])
      | false =>
        refine touched.imp (fun h => by simpa [hb] using h) ?_
        rintro ⟨e', he', hk', hm'⟩
        obtain rfl | he' := List.mem_cons.mp he'
        · exact absurd hm' (by simp [hm])
        · exact ⟨e', he', hk', hm'⟩
    · rw [Memory.blend_read_ne hek]
      refine touched.imp_right ?_
      rintro ⟨e', he', hk', hm'⟩
      obtain rfl | he' := List.mem_cons.mp he'
      · exact absurd hk' hek
      · exact ⟨e', he', hk', hm'⟩

/-- A byte takes the value that all writes to it give it, whole. -/
theorem Memory.writeBits_read_of_whole {m : Memory} {l : List (Nat × Byte × Byte)} {v : Byte} (hk : k < 2 ^ 60)
    (same : ∀ e ∈ l, e.1 = k → e.2 = (0xFF, v)) (touched : ∃ e ∈ l, e.1 = k) : (m.writeBits l).read k = v := by
  refine BitVec.eq_of_getLsbD_eq fun b hb => Memory.writeBits_getLsbD hk hb (fun e he hek _ => by rw [same e he hek]) (Or.inr ?_)
  obtain ⟨e, he, hek⟩ := touched
  refine ⟨e, he, hek, ?_⟩
  rw [same e he hek]
  exact (BitVec.getLsbD_allOnes (v := 8)).trans (decide_eq_true hb)

/-- The bytes that an event writes, in order. -/
def State.eventBytes (s : State) (det : Bool) (ws : List Writer) : List (Nat × Byte × Byte) :=
  (s.resolveWrites det (peerSets ws).2).bytes ++
    (peerSets ws).1.flatMap fun C => (s.resolveWrites det C).bytes.filter fun p => !isPeerKey p.1

theorem mem_resolveWrites {e : Nat × Byte × Byte} :
    e ∈ (s.resolveWrites det ws).bytes ↔ ∃ C ∈ okSets s.readByte ws, e ∈ (resolveSet s det s.readByte C).bytes := by
  rw [resolveWrites_eq, List.mem_flatMap]

theorem resolveSet_of_mem_eventBytes {e : Nat × Byte × Byte} (h : e ∈ s.eventBytes det ws) :
    ∃ C ∈ eventSets s.readByte ws, e ∈ (resolveSet s det s.readByte C).bytes := by
  obtain h | h := List.mem_append.mp h
  · obtain ⟨C, hC, he⟩ := mem_resolveWrites.mp h
    exact ⟨C, List.mem_append_left _ hC, he⟩
  · obtain ⟨D, hD, h⟩ := List.mem_flatMap.mp h
    obtain ⟨C, hC, he⟩ := mem_resolveWrites.mp (List.mem_filter.mp h).1
    exact ⟨C, List.mem_append_right _ (List.mem_flatMap.mpr ⟨D, hD, hC⟩), he⟩

theorem mem_eventBytes {e : Nat × Byte × Byte} (hC : C ∈ eventSets s.readByte ws) (he : e ∈ (resolveSet s det s.readByte C).bytes)
    (hk : e.1 < 2 ^ 60) : e ∈ s.eventBytes det ws := by
  obtain hC | hC := List.mem_append.mp hC
  · exact List.mem_append_left _ (mem_resolveWrites.mpr ⟨C, hC, he⟩)
  · obtain ⟨D, hD, hC⟩ := List.mem_flatMap.mp hC
    refine List.mem_append_right _ (List.mem_flatMap.mpr ⟨D, hD, List.mem_filter.mpr ⟨mem_resolveWrites.mpr ⟨C, hC, he⟩, ?_⟩⟩)
    simpa [isPeerKey] using hk

theorem State.outUp_mem {g : Nat} {c : Option Nat} : (s.outUp g c).mem = s.mem := by
  cases c <;> rfl

theorem State.passRemote_mem {r : Remote} : (s.passRemote r).mem = s.mem := State.outUp_mem

theorem State.resultEach_mem {g : Nat} {l : List (Nat × Nat × Word)} {src : Nat × Nat × Word → Src} :
    (l.foldl (fun s r => s.result ⟨g, r.1⟩ r.2.1 (src r)) s).mem = s.mem := by
  induction l generalizing s with
  | nil => rfl
  | cons r l ih => exact ih.trans rfl

/-- A set that reaches a peer: its bytes of this module are written, the others pass to the fabric. -/
def State.passSet (s : State) (g : Nat) (x : Group) (u : State) (C : List Writer) : State :=
  match C with
  | [] => u
  | y :: _ =>
    let r := s.resolveWrites (s.launchOf x).r.det C
    let u := u.writeBits (r.bytes.filter fun p => !isPeerKey p.1)
    let u := r.results.foldl (fun s p => s.result ⟨g, p.1⟩ p.2.1 .engine) u
    u.passRemote { grp := g, launch := x.launch,
                   kind := .commit (r.bytes.filter fun p => isPeerKey p.1) (r.results.map fun p => (⟨g, p.1⟩, p.2.1, p.2.2)),
                   acc := y.w.acc, op := y.w.op, pc := y.w.pc, rank := y.rank }

/-- The sets of this module written, with their results. -/
def State.writeHere (s : State) (g d : Nat) (x : Group) : State :=
  let r := s.resolveWrites (s.launchOf x).r.det (peerSets (s.writers x d)).2
  r.results.foldl (fun s p => s.result ⟨g, p.1⟩ p.2.1 (.vals [p.2.2])) (s.writeBits r.bytes)

theorem State.applyWrites_eq {g d : Nat} {x : Group} :
    s.applyWrites g d x = (peerSets (s.writers x d)).1.foldl (s.passSet g x) (s.writeHere g d x) := rfl

theorem State.passSet_mem {g : Nat} {x : Group} {u : State} :
    (s.passSet g x u C).mem =
      u.mem.writeBits ((s.resolveWrites (s.launchOf x).r.det C).bytes.filter fun p => !isPeerKey p.1) := by
  cases C with
  | nil => rfl
  | cons y C => exact State.passRemote_mem.trans (State.resultEach_mem.trans State.writeBits_mem)

/-- What the writes of an event make of memory. -/
theorem State.applyWrites_mem {g d : Nat} {x : Group} :
    (s.applyWrites g d x).mem = s.mem.writeBits (s.eventBytes (s.launchOf x).r.det (s.writers x d)) := by
  have peers (sets : List (List Writer)) (u : State) : (sets.foldl (s.passSet g x) u).mem =
      u.mem.writeBits (sets.flatMap fun C => (s.resolveWrites (s.launchOf x).r.det C).bytes.filter fun p => !isPeerKey p.1) := by
    induction sets generalizing u with
    | nil => rfl
    | cons C sets ih => rw [List.foldl_cons, ih, State.passSet_mem, List.flatMap_cons]; exact List.foldl_append.symm
  have here : (s.writeHere g d x).mem = s.mem.writeBits (s.resolveWrites (s.launchOf x).r.det (peerSets (s.writers x d)).2).bytes :=
    State.resultEach_mem.trans State.writeBits_mem
  rw [State.applyWrites_eq, peers, here, State.eventBytes]
  exact List.foldl_append.symm

end Sys2Proof.Machine
end

section
/-!
What one collision set writes (R216-R219): the bytes it names, each bit under the replacing rules, the cell under a combining rule.
-/
namespace Sys2Proof.Machine
variable {s : State} {ws C : List Writer} {w : Write} {x y z : Writer} {rd : Nat → Byte} {det : Bool} {k b : Nat}

/-! ## The bytes a set names -/

theorem Write.key_of_mem_foot {p : Nat × Nat} (h : p ∈ w.foot) : p.1 ∈ w.acc.keys := by
  obtain ⟨i, -, h⟩ := List.mem_filterMap.mp h
  dsimp only at h
  split at h
  · next key hkey =>
    split at h
    · cases h
    · cases h
      exact List.mem_of_getElem? hkey
  · cases h

theorem Write.mem_foot_of_maskAt {i : Nat} (h : (w.maskAt k).testBit i = true) : ∃ m, (k, m) ∈ w.foot ∧ m.testBit i = true := by
  rw [testBit_maskAt, List.any_eq_true] at h
  obtain ⟨⟨j, m⟩, hp, h⟩ := h
  rw [Bool.and_eq_true, beq_iff_eq] at h
  obtain ⟨rfl, hm⟩ := h
  exact ⟨m, hp, hm⟩

theorem resolveSet_combining (h : isCombining x.w.rule = true) :
    (resolveSet s det rd (x :: C)).bytes =
      (x.w.acc.keys.zip (bytesOf 4 (combine x.w.rule x.w.t (baseWord rd x.w)
        ((x :: C).map fun y => BitVec.ofNat 32 y.w.value)).toNat)).map fun p => (p.1, 0xFF, p.2) := by
  simp only [resolveSet, if_pos h]

theorem resolveSet_replacing (h : isCombining x.w.rule = false) :
    (resolveSet s det rd (x :: C)).bytes =
      (setKeys (x :: C)).map fun k => (k, setMask (x :: C) k, replaceByte s det (x :: C) k (rd k)) := by
  simp only [resolveSet, h, Bool.false_eq_true, if_false]

theorem resolveSet_results : (resolveSet s det rd C).results = setResults s det rd C [] C := by
  cases C with
  | nil => rfl
  | cons x C =>
    rw [resolveSet]
    split <;> rfl

theorem mem_setKeys : k ∈ setKeys C ↔ ∃ y ∈ C, ∃ m, (k, m) ∈ y.w.foot := by
  simp only [setKeys, List.mem_eraseDups, List.mem_flatMap, List.mem_map, Prod.exists, exists_eq_right, exists_and_right]

theorem key_of_mem_resolveSet {e : Nat × Byte × Byte} (h : e ∈ (resolveSet s det rd C).bytes) : ∃ y ∈ C, e.1 ∈ y.w.acc.keys := by
  cases C with
  | nil => cases h
  | cons x C =>
    cases hr : isCombining x.w.rule with
    | true =>
      rw [resolveSet_combining hr] at h
      obtain ⟨p, hp, rfl⟩ := List.mem_map.mp h
      exact ⟨x, List.mem_cons_self, (List.of_mem_zip hp).1⟩
    | false =>
      rw [resolveSet_replacing hr] at h
      obtain ⟨k, hk, rfl⟩ := List.mem_map.mp h
      obtain ⟨y, hy, m, hm⟩ := mem_setKeys.mp hk
      exact ⟨y, hy, Write.key_of_mem_foot hm⟩

/-- A byte that no writer names stays as it was. -/
theorem applyWrites_read_of_notMem {g d : Nat} {x : Group} (h : ∀ y ∈ (s.writers x d).filter (isWriter s.readByte), k ∉ y.w.acc.keys) :
    (s.applyWrites g d x).mem.read k = s.mem.read k := by
  rw [State.applyWrites_mem]
  refine Memory.writeBits_read_of_notMem fun e he hk => ?_
  obtain ⟨C, hC, he⟩ := resolveSet_of_mem_eventBytes he
  obtain ⟨y, hy, hey⟩ := key_of_mem_resolveSet he
  exact h y ((orderedSets_eventSets.set C hC).mem y hy) (hk ▸ hey)

/-! ## The winner of a bit -/

/-- Whether a writer's footprint holds a bit. -/
def Writer.holds (k b : Nat) (y : Writer) : Bool := (y.w.maskAt k).testBit b

theorem div_mod_beq_one {n : Nat} : (n / 2 ^ b % 2 == 1) = n.testBit b := by
  rw [Nat.testBit_eq_decide_div_mod_eq]
  rfl

theorem holds_eq : (fun y : Writer => y.w.maskAt k / 2 ^ b % 2 == 1) = Writer.holds k b := funext fun _ => div_mod_beq_one

theorem meets_of_holds (hy : y.holds k b = true) (hz : z.holds k b = true) : y.w.meets z.w = true := meets_iff.mpr ⟨k, b, hy, hz⟩

theorem getLsbD_setMask (hb : b < 8) : (setMask C k).getLsbD b = C.any (Writer.holds k b) := by
  rw [setMask, BitVec.getLsbD_ofNat, decide_eq_true hb, Bool.true_and, testBit_foldl_or, Nat.zero_testBit, Bool.false_or]
  rfl

theorem head?_eraseDups {α : Type} [BEq α] {l : List α} : l.eraseDups.head? = l.head? := by
  cases l with
  | nil => rfl
  | cons a l => rw [List.eraseDups_cons]; rfl

/-- The lowest-ranked thread wins a bit where no rule leaves the choice open. -/
theorem bitWinner_eq (h : ∀ y ∈ C, y.w.rule ≠ 1) : bitWinner s det C k b = ((C.filter (Writer.holds k b)).head?).map Writer.tid := by
  have closed : (C.any fun x => x.w.rule == 1) = false := by
    rw [List.any_eq_false]
    exact fun y hy => by simpa using h y hy
  simp only [bitWinner, closed, Bool.false_and, Bool.false_eq_true, if_false, bitThreads, holds_eq, head?_eraseDups, List.head?_map]

/-- A bit of a byte set to a value. -/
def setBit (old : Byte) (b : Nat) (c : Bool) : Byte :=
  if c then old ||| BitVec.ofNat 8 (2 ^ b) else old &&& ~~~BitVec.ofNat 8 (2 ^ b)

theorem getLsbD_setBit_self {old : Byte} {c : Bool} (hb : b < 8) : (setBit old b c).getLsbD b = c := by
  cases c <;> simp [setBit, hb, -BitVec.ofNat_pow, -BitVec.getLsbD_eq_getElem, BitVec.getLsbD_ofNat, Nat.testBit_two_pow_self]

theorem getLsbD_setBit_ne {old : Byte} {c : Bool} {j : Nat} (h : j ≠ b) (hj : j < 8) : (setBit old b c).getLsbD j = old.getLsbD j := by
  cases c <;> simp [setBit, hj, -BitVec.ofNat_pow, -BitVec.getLsbD_eq_getElem, BitVec.getLsbD_ofNat, Nat.testBit_two_pow_of_ne (Ne.symm h)]

/-- The value that a set gives a bit: that of the last write of its winner that holds it. -/
def bitChoice (s : State) (det : Bool) (C : List Writer) (k b : Nat) : Option Bool :=
  (bitWinner s det C k b).bind fun tid =>
    ((C.filter fun x => x.tid == tid && x.holds k b).getLast?).map fun x => decide (x.w.bitsAt k / 2 ^ b % 2 = 1)

theorem replaceByte_eq {old : Byte} :
    replaceByte s det C k old = (List.range 8).foldl (fun acc b => (bitChoice s det C k b).elim acc (setBit acc b)) old := by
  refine congrArg (List.foldl · old (List.range 8)) (funext fun acc => funext fun b => ?_)
  simp only [bitChoice, Writer.holds, ← div_mod_beq_one]
  cases bitWinner s det C k b with
  | none => rfl
  | some tid =>
    dsimp only [Option.bind_some]
    cases (C.filter fun x => x.tid == tid && x.w.maskAt k / 2 ^ b % 2 == 1).getLast? with
    | none => rfl
    | some x =>
      simp only [Option.map_some, Option.elim_some, setBit, decide_eq_true_eq]

theorem getLsbD_foldl_setBit {f : Nat → Option Bool} {c : Bool} {l : List Nat} {old : Byte} (hb : b < 8) (hf : f b = some c)
    (h : old.getLsbD b = c ∨ b ∈ l) : (l.foldl (fun acc b => (f b).elim acc (setBit acc b)) old).getLsbD b = c := by
  induction l generalizing old with
  | nil => exact h.resolve_right (by simp)
  | cons j l ih =>
    refine ih ?_
    by_cases hj : b = j
    · subst hj
      simp only [hf]
      exact Or.inl (getLsbD_setBit_self hb)
    · refine h.imp (fun h => ?_) fun h => (List.mem_cons.mp h).resolve_left hj
      dsimp only
      cases f j with
      | none => exact h
      | some c' => exact (getLsbD_setBit_ne hj hb).trans h

theorem getLsbD_replaceByte {old : Byte} {c : Bool} (hb : b < 8) (h : bitChoice s det C k b = some c) :
    (replaceByte s det C k old).getLsbD b = c := by
  rw [replaceByte_eq]
  exact getLsbD_foldl_setBit hb h (Or.inr (List.mem_range.mpr hb))

/-! ## Replacing rules -/

section
variable (hrule : ∀ y ∈ ws, isCombining y.w.rule = false ∧ y.w.rule ≠ 1)
include hrule

theorem OrderedSet.resolveSet_replacing (h : OrderedSet ws C) : (resolveSet s det rd C).bytes =
    (setKeys C).map fun k => (k, setMask C k, replaceByte s det C k (rd k)) := by
  cases C with
  | nil => rfl
  | cons x C => exact Machine.resolveSet_replacing (hrule x (h.mem x List.mem_cons_self)).1

/-- The value a set gives a bit is that of the last write to it of the lowest-ranked thread that writes it. -/
theorem OrderedSet.bitChoice_eq (h : OrderedSet ws C) (hy : (ws.filter (Writer.holds k b)).head? = some y) (hyC : y ∈ C)
    (hz : ((ws.filter (Writer.holds k b)).filter fun q => q.tid == y.tid).getLast? = some z) :
    bitChoice s det C k b = some (decide (z.w.bitsAt k / 2 ^ b % 2 = 1)) := by
  have hold : y.holds k b = true := (List.mem_filter.mp (List.mem_of_head? hy)).2
  have hits : C.filter (Writer.holds k b) = ws.filter (Writer.holds k b) := h.filter_eq (fun y z => meets_of_holds) hyC hold
  rw [bitChoice, bitWinner_eq fun y hy => (hrule y (h.mem y hy)).2, hits, hy, Option.map_some, Option.bind_some,
    ← List.filter_filter, hits, hz]
  rfl

/-- Under the replacing rules a bit that some writer holds takes the value of the last write to it of the lowest-ranked thread. -/
theorem applyWrites_bit {g d : Nat} {x : Group} (hws : ws = (s.writers x d).filter (isWriter s.readByte)) (hk : k < 2 ^ 60) (hb : b < 8)
    (hy : (ws.filter (Writer.holds k b)).head? = some y)
    (hz : ((ws.filter (Writer.holds k b)).filter fun q => q.tid == y.tid).getLast? = some z) :
    ((s.applyWrites g d x).mem.read k).getLsbD b = decide (z.w.bitsAt k / 2 ^ b % 2 = 1) := by
  have sets := orderedSets_eventSets (rd := s.readByte) (ws := s.writers x d)
  rw [← hws] at sets
  obtain ⟨hyws, hold⟩ := List.mem_filter.mp (List.mem_of_head? hy)
  obtain ⟨C, hC, hyC⟩ := sets.covers y hyws
  have value : (replaceByte s (s.launchOf x).r.det C k (s.readByte k)).getLsbD b = decide (z.w.bitsAt k / 2 ^ b % 2 = 1) :=
    getLsbD_replaceByte hb ((sets.set C hC).bitChoice_eq hrule hy hyC hz)
  rw [State.applyWrites_mem]
  refine Memory.writeBits_getLsbD hk hb (fun e he hek hm => ?_) (Or.inr ?_)
  · obtain ⟨D, hD, he⟩ := resolveSet_of_mem_eventBytes he
    rw [(sets.set D hD).resolveSet_replacing hrule] at he
    obtain ⟨j, -, rfl⟩ := List.mem_map.mp he
    obtain rfl : j = k := hek
    rw [getLsbD_setMask hb, List.any_eq_true] at hm
    obtain ⟨q, hqD, hq⟩ := hm
    have hqC : q ∈ C := (sets.set C hC).closed y hyws q ((sets.set D hD).mem q hqD) hyC (meets_of_holds hold hq)
    rw [(sets.set D hD).eq_of_mem (sets.set C hC) hqD hqC]
    exact value
  · obtain ⟨m, hm, -⟩ := Write.mem_foot_of_maskAt hold
    refine ⟨(k, setMask C k, replaceByte s (s.launchOf x).r.det C k (s.readByte k)), mem_eventBytes hC ?_ hk, rfl, ?_⟩
    · rw [(sets.set C hC).resolveSet_replacing hrule]
      exact List.mem_map_of_mem (mem_setKeys.mpr ⟨y, hyC, m, hm⟩)
    · rw [getLsbD_setMask hb, List.any_eq_true]
      exact ⟨y, hyC, hold⟩

/-- A bit that no writer holds stays as it was. -/
theorem applyWrites_bit_of_none {g d : Nat} {x : Group} (hws : ws = (s.writers x d).filter (isWriter s.readByte)) (hk : k < 2 ^ 60)
    (hb : b < 8) (none : ws.filter (Writer.holds k b) = []) :
    ((s.applyWrites g d x).mem.read k).getLsbD b = (s.mem.read k).getLsbD b := by
  have sets := orderedSets_eventSets (rd := s.readByte) (ws := s.writers x d)
  rw [← hws] at sets
  rw [State.applyWrites_mem]
  refine Memory.writeBits_getLsbD hk hb (fun e he hek hm => ?_) (Or.inl rfl)
  obtain ⟨D, hD, he⟩ := resolveSet_of_mem_eventBytes he
  rw [(sets.set D hD).resolveSet_replacing hrule] at he
  obtain ⟨j, -, rfl⟩ := List.mem_map.mp he
  obtain rfl : j = k := hek
  rw [getLsbD_setMask hb, List.any_eq_true] at hm
  obtain ⟨q, hqD, hq⟩ := hm
  have : q ∈ ws.filter (Writer.holds j b) := List.mem_filter.mpr ⟨(sets.set D hD).mem q hqD, hq⟩
  rw [none] at this
  cases this

end

end Sys2Proof.Machine
end

section
/-!
FP32 words as exact values (R48, R51-R53): what a word's value is by its magnitude, that rounding gives the word back, and that the order
of values is that of `f32Key`.
-/
namespace Sys2Proof.Machine
variable {w a b : Word}

/-! ## A word's sign and magnitude -/

/-- The exponent and fraction fields of an FP32 word as one number. -/
def f32Mag (w : Word) : Nat := w.toNat % 2 ^ 31

theorem toNat_eq_f32Mag : w.toNat = (if w.msb then 2 ^ 31 else 0) + f32Mag w := by
  have lt := w.isLt
  rw [BitVec.msb_eq_decide, f32Mag]
  split <;> simp_all <;> omega

theorem f32Mag_lt : f32Mag w < 2 ^ 31 := Nat.mod_lt _ (by decide)

theorem f32IsNan_iff : f32IsNan w = true ↔ 0x7F800000 < f32Mag w := by
  have lt := w.isLt
  simp only [f32IsNan, f32Mag, Bool.and_eq_true, beq_iff_eq, bne_iff_ne, ne_eq, BitVec.toNat_eq, BitVec.extractLsb'_toNat,
    BitVec.ofNat_eq_ofNat, BitVec.toNat_ofNat, Nat.shiftRight_eq_div_pow, pow_zero, Nat.div_one]
  omega

theorem f32Key_eq : f32Key w = signed w.msb (f32Mag w) := by
  rw [f32Key, signed, f32Mag]
  cases h : w.msb with
  | true => rfl
  | false =>
    have := toNat_eq_f32Mag (w := w)
    rw [h] at this
    simp only [Bool.false_eq_true, if_false, f32Mag] at this ⊢
    omega

/-- The significand of a finite magnitude, and the exponent of its unit above that of the least subnormal. -/
def f32Sig (n : Nat) : Nat := if n < 2 ^ 23 then n else n % 2 ^ 23 + 2 ^ 23
def f32Exp (n : Nat) : Nat := n / 2 ^ 23 - 1

theorem numF32_eq : numF32 w = if 0x7F800000 < f32Mag w then .nan (quiet w) else if f32Mag w = 0x7F800000 then .inf w.msb
    else .fin w.msb (f32Sig (f32Mag w)) (-149 + f32Exp (f32Mag w)) := by
  have sign : (w.toNat / 2 ^ 31 % 2 == 1) = w.msb := by
    have lt := w.isLt
    rw [BitVec.msb_eq_decide, Bool.eq_iff_iff, beq_iff_eq, decide_eq_true_iff]
    omega
  have ex : w.toNat / 2 ^ 23 % 2 ^ 8 = f32Mag w / 2 ^ 23 := by rw [f32Mag]; omega
  have frac : w.toNat % 2 ^ 23 = f32Mag w % 2 ^ 23 := by rw [f32Mag]; omega
  have lt := f32Mag_lt (w := w)
  simp only [numF32, Fmt.value, fmtF32, Nat.reduceAdd, Nat.reduceSub, sign, ex, frac]
  by_cases top : f32Mag w / 2 ^ 23 = 2 ^ 8 - 1
  · rw [if_pos top]
    by_cases zero : f32Mag w % 2 ^ 23 = 0
    · rw [if_pos zero, if_neg (by omega), if_pos (by omega)]
    · rw [if_neg zero, if_pos (by omega)]
  · rw [if_neg top, if_neg (by omega : ¬ 0x7F800000 < f32Mag w), if_neg (by omega : f32Mag w ≠ 0x7F800000), f32Sig, f32Exp]
    by_cases low : f32Mag w / 2 ^ 23 = 0
    · rw [if_pos low, if_pos (by omega), low, Nat.mod_eq_of_lt (by omega)]
      rfl
    · rw [if_neg low, if_neg (by omega)]
      congr 1
      omega

theorem numF32_of_nan (h : f32IsNan w = true) : numF32 w = .nan (quiet w) := by
  rw [numF32_eq, if_pos (f32IsNan_iff.mp h)]

theorem numF32_of_not_nan (h : f32IsNan w = false) : numF32 w = if f32Mag w = 0x7F800000 then .inf w.msb
    else .fin w.msb (f32Sig (f32Mag w)) (-149 + f32Exp (f32Mag w)) := by
  rw [numF32_eq, if_neg]
  rw [← f32IsNan_iff, h]
  decide

/-! ## A value that a word has rounds to the word -/

/-- A significand that fits stays as it is. -/
theorem quantise_f32 {neg : Bool} {m : Nat} {e : Int} (hm : m < 2 ^ 24) (he : e = -149 ∨ -149 ≤ e ∧ Nat.log2 m = 23) :
    fmtF32.quantise 0 neg m e false = (m, e) := by
  have log : Nat.log2 m ≤ 23 := by
    by_cases h0 : m = 0
    · simp [h0]
    · exact Nat.le_of_lt_succ ((Nat.log2_lt h0).mpr hm)
  have unit : max ((Nat.log2 m : Int) + e + 1 - (24 : Nat)) (-149) = e := by omega
  have keep : roundShift 0 neg m 0 false = m := by simp [roundShift, Nat.mod_one]
  simp only [Fmt.quantise, fmtF32, unit, le_refl, if_true, sub_self, Int.toNat_zero, keep]
  rw [if_neg (by omega)]

theorem join_f32 {ex frac : Nat} (h : ex * 2 ^ 23 + frac = f32Mag w) : BitVec.ofNat 32 (fmtF32.join w.msb ex frac) = w := by
  refine BitVec.eq_of_toNat_eq ?_
  have := w.isLt
  have hw := toNat_eq_f32Mag (w := w)
  simp only [Fmt.join, fmtF32, BitVec.toNat_ofNat]
  cases hm : w.msb <;> simp [hm] at hw ⊢ <;> omega

theorem toF32_numF32 (h : f32IsNan w = false) : toF32 0 (numF32 w) = w := by
  have lt : f32Mag w ≤ 0x7F800000 := by
    rw [← not_lt, ← f32IsNan_iff, h]
    decide
  rw [numF32_of_not_nan h, toF32]
  split
  · next top => exact join_f32 (ex := 255) (frac := 0) top.symm
  · next top =>
    refine (congrArg (BitVec.ofNat 32) ?_).trans (join_f32 (ex := f32Mag w / 2 ^ 23) (frac := f32Mag w % 2 ^ 23) (by omega))
    show fmtF32.roundFin 0 w.msb (f32Sig (f32Mag w)) (-149 + f32Exp (f32Mag w)) = _
    rw [Fmt.roundFin]
    by_cases low : f32Mag w < 2 ^ 23
    · have sig : f32Sig (f32Mag w) = f32Mag w := if_pos low
      have exp : f32Exp (f32Mag w) = 0 := by rw [f32Exp]; omega
      rw [sig, exp, Nat.div_eq_of_lt low, Nat.mod_eq_of_lt low, Nat.cast_zero, add_zero, quantise_f32 (by omega) (Or.inl rfl)]
      by_cases zero : f32Mag w = 0
      · rw [if_pos zero, zero]
      · rw [if_neg zero]
        exact if_pos low
    · have sig : f32Sig (f32Mag w) = f32Mag w % 2 ^ 23 + 2 ^ 23 := if_neg low
      have log : Nat.log2 (f32Mag w % 2 ^ 23 + 2 ^ 23) = 23 := (Nat.log2_eq_iff (by omega)).mpr (by omega)
      rw [sig, f32Exp, if_neg (by omega), quantise_f32 (by omega) (Or.inr ⟨by omega, log⟩)]
      have ex : (-149 + ((f32Mag w / 2 ^ 23 - 1 : Nat) : Int) - fmtF32.qmin).toNat + 1 = f32Mag w / 2 ^ 23 := by
        simp only [fmtF32]
        omega
      dsimp only
      rw [ex, if_neg (by simp only [fmtF32]; omega), if_neg (by simp only [fmtF32]; omega)]
      simp [fmtF32]

/-! ## The order of values -/

/-- A finite magnitude in units of the least subnormal. -/
def f32Units (n : Nat) : Nat := f32Sig n * 2 ^ f32Exp n

theorem f32Units_strictMono : StrictMono f32Units := by
  refine strictMono_nat_of_lt_succ fun n => ?_
  simp only [f32Units, f32Sig, f32Exp]
  by_cases low : n + 1 < 2 ^ 23
  · rw [if_pos low, if_pos (by omega), Nat.div_eq_of_lt low, Nat.div_eq_of_lt (by omega)]
    omega
  · rw [if_neg low]
    by_cases last : (n + 1) % 2 ^ 23 = 0
    · rw [last]
      by_cases sub : n < 2 ^ 23
      · have : n + 1 = 2 ^ 23 := by omega
        rw [if_pos sub, this, Nat.div_eq_of_lt sub]
        omega
      · have exp : (n + 1) / 2 ^ 23 - 1 = (n / 2 ^ 23 - 1) + 1 := by omega
        rw [if_neg sub, exp, pow_succ 2 (n / 2 ^ 23 - 1)]
        calc (n % 2 ^ 23 + 2 ^ 23) * 2 ^ (n / 2 ^ 23 - 1)
          _ < 2 ^ 24 * 2 ^ (n / 2 ^ 23 - 1) := Nat.mul_lt_mul_of_pos_right (by omega) (Nat.two_pow_pos _)
          _ = (0 + 2 ^ 23) * (2 ^ (n / 2 ^ 23 - 1) * 2) := by ring
    · have exp : (n + 1) / 2 ^ 23 - 1 = n / 2 ^ 23 - 1 := by omega
      have sub : ¬ n < 2 ^ 23 := by omega
      rw [if_neg sub, exp]
      exact Nat.mul_lt_mul_of_pos_right (by omega) (Nat.two_pow_pos _)

theorem signed_lt_iff {f : Nat → Nat} (hf : StrictMono f) (h0 : f 0 = 0) {x y : Bool} {m n : Nat} :
    signed x (f m) < signed y (f n) ↔ signed x m < signed y n := by
  have pos (k : Nat) : 0 < f k ↔ 0 < k := by rw [← h0, hf.lt_iff_lt, h0]
  have lt (j k : Nat) : f j < f k ↔ j < k := hf.lt_iff_lt
  have hm := pos m
  have hn := pos n
  have := lt m n
  have := lt n m
  cases x <;> cases y <;> simp only [signed, Bool.false_eq_true, if_false, if_true] <;> omega

theorem signed_mul {x : Bool} {m c : Nat} : signed x (m * c) = signed x m * (c : Int) := by
  cases x <;> simp [signed]

theorem f32Sig_eq_zero {n : Nat} : f32Sig n = 0 ↔ n = 0 := by
  rw [f32Sig]
  split <;> omega

theorem fin_lt_fin {x y : Bool} {m n : Nat} : (Num.fin x (f32Sig m) (-149 + f32Exp m)).lt (.fin y (f32Sig n) (-149 + f32Exp n)) =
    if m = 0 ∧ n = 0 then x && !y else decide (signed x m < signed y n) := by
  have units (k d : Nat) (hd : d ≤ f32Exp k) : f32Sig k * 2 ^ ((-149 + f32Exp k) - (-149 + (d : Int))).toNat * 2 ^ d = f32Units k := by
    rw [show ((-149 + f32Exp k) - (-149 + (d : Int))).toNat = f32Exp k - d by omega, mul_assoc, ← pow_add, Nat.sub_add_cancel hd, f32Units]
  have least : min (-149 + (f32Exp m : Int)) (-149 + f32Exp n) = -149 + (min (f32Exp m) (f32Exp n) : Nat) := by omega
  simp only [Num.lt, f32Sig_eq_zero]
  refine if_congr Iff.rfl rfl (decide_eq_decide.mpr ?_)
  rw [← signed_lt_iff (m := m) (n := n) f32Units_strictMono rfl, ← units m _ (Nat.min_le_left _ (f32Exp n)),
    ← units n _ (Nat.min_le_right (f32Exp m) _), least, signed_mul (m := f32Sig m * _), signed_mul (m := f32Sig n * _)]
  exact (mul_lt_mul_iff_left₀ (by positivity : (0 : Int) < (2 ^ min (f32Exp m) (f32Exp n) : Nat))).symm

theorem signed_lt_of_lt {x y : Bool} {m n : Nat} (h : n < m) :
    decide (signed x m < signed y n) = x ∧ decide (signed y n < signed x m) = !x := by
  cases x <;> cases y <;> simp only [signed, Bool.false_eq_true, if_false, if_true, decide_eq_true_eq, decide_eq_false_iff_not,
    Bool.not_true, Bool.not_false] <;> omega

/-- The order of two values is that of the keys of their words, but for the two zeros. -/
theorem lt_numF32 (ha : f32IsNan a = false) (hb : f32IsNan b = false) : (numF32 a).lt (numF32 b) =
    if f32Mag a = 0 ∧ f32Mag b = 0 then a.msb && !b.msb else decide (f32Key a < f32Key b) := by
  have mag {w : Word} (h : f32IsNan w = false) : f32Mag w ≤ 0x7F800000 := by
    rw [← not_lt, ← f32IsNan_iff, h]
    decide
  rw [numF32_of_not_nan ha, numF32_of_not_nan hb, f32Key_eq, f32Key_eq]
  have ma := mag ha
  have mb := mag hb
  by_cases ta : f32Mag a = 0x7F800000 <;> by_cases tb : f32Mag b = 0x7F800000
  · rw [if_pos ta, if_pos tb, ta, tb]
    cases a.msb <;> cases b.msb <;> rfl
  · rw [if_pos ta, if_neg tb, ta, if_neg (by omega), (signed_lt_of_lt (by omega)).1]
    rfl
  · rw [if_neg ta, if_pos tb, tb, if_neg (by omega), (signed_lt_of_lt (by omega)).2]
    rfl
  · rw [if_neg ta, if_neg tb, fin_lt_fin]

theorem key_le_of_lt (ha : f32IsNan a = false) (hb : f32IsNan b = false) (h : (numF32 a).lt (numF32 b) = true) : f32Key a ≤ f32Key b := by
  rw [lt_numF32 ha hb] at h
  split at h
  · next zero => rw [f32Key_eq, f32Key_eq, zero.1, zero.2]; cases a.msb <;> cases b.msb <;> decide
  · exact (of_decide_eq_true h).le

theorem key_le_of_not_lt (ha : f32IsNan a = false) (hb : f32IsNan b = false) (h : (numF32 a).lt (numF32 b) = false) :
    f32Key b ≤ f32Key a := by
  rw [lt_numF32 ha hb] at h
  split at h
  · next zero => rw [f32Key_eq, f32Key_eq, zero.1, zero.2]; cases a.msb <;> cases b.msb <;> decide
  · exact not_lt.mp (of_decide_eq_false h)

end Sys2Proof.Machine
end

section
/-!
The combining rules over a base value and contributions (R218): sums, least and greatest values, OR and AND, and the FP32 forms of these.
-/
namespace Sys2Proof.Machine
variable {t : Ty} {base w : Word} {l : List Word}

/-! ## Folds that keep one of their values -/

/-- A fold of a choice gives one of the values, and where the choice takes the one of lower key, that of the least key. -/
theorem foldl_choice {α : Type} {f : α → α → α} {key : α → Int} {P : α → Prop} (hf : ∀ a b, f a b = a ∨ f a b = b)
    (hkey : ∀ a b, P a → P b → key (f a b) ≤ key a ∧ key (f a b) ≤ key b) {a : α} {l : List α} :
    l.foldl f a ∈ a :: l ∧ ((∀ b ∈ a :: l, P b) → ∀ b ∈ a :: l, key (l.foldl f a) ≤ key b) := by
  induction l generalizing a with
  | nil => exact ⟨List.mem_cons_self, fun _ b hb => by rw [List.mem_singleton.mp hb]; rfl⟩
  | cons c l ih =>
    obtain ⟨mem, least⟩ := ih (a := f a c)
    have pick : f a c ∈ a :: c :: l := (hf a c).elim (fun h => by simp [h]) fun h => by simp [h]
    refine ⟨(List.mem_cons.mp mem).elim (fun h => by rw [List.foldl_cons, h]; exact pick) fun h =>
      List.mem_cons_of_mem _ (List.mem_cons_of_mem _ h), fun all => ?_⟩
    have hP : ∀ b ∈ f a c :: l, P b := fun b hb => (List.mem_cons.mp hb).elim (fun h => h ▸ all _ pick) fun h =>
      all b (List.mem_cons_of_mem _ (List.mem_cons_of_mem _ h))
    have first := least hP _ List.mem_cons_self
    obtain ⟨ha, hc⟩ := hkey a c (all a List.mem_cons_self) (all c (List.mem_cons_of_mem _ List.mem_cons_self))
    intro b hb
    obtain rfl | hb := List.mem_cons.mp hb
    · exact first.trans ha
    · obtain rfl | hb := List.mem_cons.mp hb
      · exact first.trans hc
      · exact least hP b (List.mem_cons_of_mem _ hb)

/-! ## Integers -/

theorem combine_sum (ht : t ≠ .f32) : combine 2 t base l = base + l.sum := by
  rw [combine, if_neg ht]
  induction l generalizing base with
  | nil => exact (BitVec.add_zero base).symm
  | cons a l ih => rw [List.foldl_cons, ih, List.sum_cons, BitVec.add_assoc]

/-- The lesser and the greater of two words under a type. -/
def lesser (t : Ty) (x w : Word) : Word := if ival t w < ival t x then w else x
def greater (t : Ty) (x w : Word) : Word := if ival t x < ival t w then w else x

theorem combine_least (ht : t ≠ .f32) :
    combine 3 t base l ∈ base :: l ∧ ∀ v ∈ base :: l, ival t (combine 3 t base l) ≤ ival t v := by
  have eq : combine 3 t base l = l.foldl (lesser t) base := by rw [combine, if_neg ht]; rfl
  obtain ⟨mem, least⟩ := foldl_choice (f := lesser t) (key := ival t) (P := fun _ => True) (a := base) (l := l)
    (fun a b => by rw [lesser]; split <;> simp) (fun a b _ _ => by rw [lesser]; split <;> omega)
  rw [eq]
  exact ⟨mem, least fun _ _ => trivial⟩

theorem combine_greatest (ht : t ≠ .f32) :
    combine 4 t base l ∈ base :: l ∧ ∀ v ∈ base :: l, ival t v ≤ ival t (combine 4 t base l) := by
  have eq : combine 4 t base l = l.foldl (greater t) base := by rw [combine, if_neg ht]; rfl
  obtain ⟨mem, least⟩ := foldl_choice (f := greater t) (key := fun w => -ival t w) (P := fun _ => True) (a := base) (l := l)
    (fun a b => by rw [greater]; split <;> simp) (fun a b _ _ => by rw [greater]; split <;> omega)
  rw [eq]
  exact ⟨mem, fun v hv => neg_le_neg_iff.mp (least (fun _ _ => trivial) v hv)⟩

theorem getLsbD_foldl_or {b : Nat} : (l.foldl (· ||| ·) base).getLsbD b = (base :: l).any (·.getLsbD b) := by
  induction l generalizing base with
  | nil => simp
  | cons a l ih => rw [List.foldl_cons, ih, List.any_cons, List.any_cons, List.any_cons, BitVec.getLsbD_or, Bool.or_assoc]

theorem getLsbD_foldl_and {b : Nat} : (l.foldl (· &&& ·) base).getLsbD b = (base :: l).all (·.getLsbD b) := by
  induction l generalizing base with
  | nil => simp
  | cons a l ih => rw [List.foldl_cons, ih, List.all_cons, List.all_cons, List.all_cons, BitVec.getLsbD_and, Bool.and_assoc]

/-! ## FP32 sums -/

theorem combine_sum_of_nan {n : Word} (h : (base :: l).find? f32IsNan = some n) : combine 2 .f32 base l = n ||| 0x00400000 := by
  rw [combine, if_pos rfl, sumF32, h]
  rfl

theorem combine_sum_of_no_nan (h : ∀ w ∈ base :: l, f32IsNan w = false) :
    combine 2 .f32 base l = toF32 0 (l.foldl (fun (a : Num) w => a.add 0 (numF32 w)) (numF32 base)) := by
  rw [combine, if_pos rfl, sumF32, List.find?_eq_none.mpr fun w hw => by rw [h w hw]; decide]

def Num.isNan : Num → Bool
  | .nan _ => true
  | _ => false

theorem isNan_numF32 : (numF32 w).isNan = f32IsNan w := by
  cases h : f32IsNan w with
  | true => rw [numF32_of_nan h]; rfl
  | false => rw [numF32_of_not_nan h]; split <;> rfl

/-- The sum of two values that are no NaN is the default NaN, or it is an infinity where one of them is. -/
theorem add_cases {a b : Num} (ha : a.isNan = false) (hb : b.isNan = false) : a.add 0 b = .nan defaultNan ∨
    (a.add 0 b).isNan = false ∧ ∀ x, a = .inf x ∨ b = .inf x → a.add 0 b = .inf x := by
  cases a with
  | nan w => cases ha
  | inf x =>
    cases b with
    | nan w => cases hb
    | inf y =>
      by_cases h : x = y
      · right
        simp [Num.add, h, Num.isNan]
      · exact Or.inl (if_neg h)
    | fin y m e => right; simp [Num.add, Num.isNan]
  | fin x m e =>
    cases b with
    | nan w => cases hb
    | inf y => right; simp [Num.add, Num.isNan]
    | fin y n e' =>
      right
      refine ⟨?_, by simp⟩
      simp only [Num.add, addFin]
      split <;> rfl

theorem foldl_add_nan : l.foldl (fun (a : Num) w => a.add 0 (numF32 w)) (.nan w) = .nan w := by
  induction l with
  | nil => rfl
  | cons a l ih => exact ih

/-- A sum that meets both infinities is the default NaN. -/
theorem foldl_add_of_infs {v : Num} (hv : v.isNan = false) (hl : ∀ w ∈ l, f32IsNan w = false)
    (both : ∀ x, v = .inf x ∨ ∃ w ∈ l, numF32 w = .inf x) :
    l.foldl (fun (a : Num) w => a.add 0 (numF32 w)) v = .nan defaultNan := by
  induction l generalizing v with
  | nil => have h := both true; have h' := both false; simp_all
  | cons a l ih =>
    have ha : (numF32 a).isNan = false := by rw [isNan_numF32]; exact hl a List.mem_cons_self
    rw [List.foldl_cons]
    obtain h | ⟨hn, inf⟩ := add_cases hv ha
    · rw [h, foldl_add_nan]
    · refine ih hn (fun w hw => hl w (List.mem_cons_of_mem _ hw)) fun x => ?_
      obtain h | ⟨w, hw, h⟩ := both x
      · exact Or.inl (inf x (Or.inl h))
      · obtain rfl | hw := List.mem_cons.mp hw
        · exact Or.inl (inf x (Or.inr h))
        · exact Or.inr ⟨w, hw, h⟩

theorem combine_sum_of_infs (h : ∀ w ∈ base :: l, f32IsNan w = false) (hp : 0x7F800000 ∈ base :: l) (hn : 0xFF800000 ∈ base :: l) :
    combine 2 .f32 base l = 0x7FC00000 := by
  have has {n : Word} {x : Bool} (hx : numF32 n = .inf x) (hm : n ∈ base :: l) : numF32 base = .inf x ∨ ∃ w ∈ l, numF32 w = .inf x :=
    (List.mem_cons.mp hm).imp (fun e : n = base => e ▸ hx) fun hm => ⟨n, hm, hx⟩
  rw [combine_sum_of_no_nan h, foldl_add_of_infs]
  · decide
  · rw [isNan_numF32]; exact h base List.mem_cons_self
  · exact fun w hw => h w (List.mem_cons_of_mem _ hw)
  · intro x
    cases x with
    | true => exact has (by decide) hn
    | false => exact has (by decide) hp

/-! ## FP32 least and greatest -/

/-- The word that a choice among values keeps of two: a NaN gives way. -/
def pickF32 (better : Num → Num → Bool) (a b : Word) : Word :=
  if f32IsNan a then if f32IsNan b then a else b
  else if f32IsNan b then a else if better (numF32 b) (numF32 a) then b else a

theorem pickF32_eq {better : Num → Num → Bool} (a b : Word) : pickF32 better a b = a ∨ pickF32 better a b = b := by
  rw [pickF32]
  split_ifs <;> simp

theorem min_max_of_no_nan {a b : Num} (ha : a.isNan = false) (hb : b.isNan = false) :
    a.min b = (if b.lt a then b else a) ∧ a.max b = if a.lt b then b else a := by
  cases a with
  | nan w => cases ha
  | inf x =>
    cases b with
    | nan w => cases hb
    | inf y => exact ⟨rfl, rfl⟩
    | fin y m e => exact ⟨rfl, rfl⟩
  | fin x m e =>
    cases b with
    | nan w => cases hb
    | inf y => exact ⟨rfl, rfl⟩
    | fin y n e' => exact ⟨rfl, rfl⟩

/-- The least and the greatest of two words' values are those of the word that the choice keeps. -/
theorem min_max_numF32 {a b : Word} : (numF32 a).min (numF32 b) = numF32 (pickF32 Num.lt a b) ∧
    (numF32 a).max (numF32 b) = numF32 (pickF32 (fun b a => a.lt b) a b) := by
  cases ha : f32IsNan a with
  | true =>
    cases hb : f32IsNan b with
    | true => simp only [pickF32, ha, hb, if_true, numF32_of_nan ha, numF32_of_nan hb, Num.min, Num.max, and_self]
    | false =>
      have nb : (numF32 b).isNan = false := isNan_numF32.trans hb
      simp only [pickF32, ha, hb, if_true, Bool.false_eq_true, if_false, numF32_of_nan ha]
      cases hn : numF32 b with
      | nan w => rw [hn] at nb; cases nb
      | inf x => exact ⟨rfl, rfl⟩
      | fin x m e => exact ⟨rfl, rfl⟩
  | false =>
    have na : (numF32 a).isNan = false := isNan_numF32.trans ha
    cases hb : f32IsNan b with
    | true =>
      simp only [pickF32, ha, hb, if_true, Bool.false_eq_true, if_false, numF32_of_nan hb]
      cases hn : numF32 a with
      | nan w => rw [hn] at na; cases na
      | inf x => exact ⟨rfl, rfl⟩
      | fin x m e => exact ⟨rfl, rfl⟩
    | false =>
      obtain ⟨least, greatest⟩ := min_max_of_no_nan na (isNan_numF32.trans hb)
      simp only [pickF32, ha, hb, Bool.false_eq_true, if_false, least, greatest, apply_ite numF32, and_self]

theorem foldl_numF32 {op : Num → Num → Num} {f : Word → Word → Word} (h : ∀ a b, op (numF32 a) (numF32 b) = numF32 (f a b)) :
    l.foldl (fun x w => op x (numF32 w)) (numF32 base) = numF32 (l.foldl f base) := by
  induction l generalizing base with
  | nil => rfl
  | cons a l ih => rw [List.foldl_cons, List.foldl_cons, h, ih]

/-- A choice among values that are not all NaNs keeps one that is none. -/
theorem foldl_pickF32_not_nan {better : Num → Num → Bool} (h : ∃ w ∈ base :: l, f32IsNan w = false) :
    f32IsNan (l.foldl (pickF32 better) base) = false := by
  induction l generalizing base with
  | nil => simpa using h
  | cons a l ih =>
    refine ih ?_
    obtain ⟨w, hw, hn⟩ := h
    have two : f32IsNan base = false ∨ f32IsNan a = false → f32IsNan (pickF32 better base a) = false := by
      rw [pickF32]
      split_ifs <;> simp_all
    obtain rfl | hw := List.mem_cons.mp hw
    · exact ⟨_, List.mem_cons_self, two (Or.inl hn)⟩
    · obtain rfl | hw := List.mem_cons.mp hw
      · exact ⟨_, List.mem_cons_self, two (Or.inr hn)⟩
      · exact ⟨w, List.mem_cons_of_mem _ hw, hn⟩

theorem combine_leastF32 : combine 3 .f32 base l = toF32 0 (numF32 (l.foldl (pickF32 Num.lt) base)) := by
  rw [combine, if_pos rfl, foldl_numF32 fun _ _ => min_max_numF32.1]

theorem combine_greatestF32 : combine 4 .f32 base l = toF32 0 (numF32 (l.foldl (pickF32 fun b a => a.lt b) base)) := by
  rw [combine, if_pos rfl, foldl_numF32 fun _ _ => min_max_numF32.2]

theorem combine_leastF32_spec (h : ∀ w ∈ base :: l, f32IsNan w = false) :
    combine 3 .f32 base l ∈ base :: l ∧ ∀ w ∈ base :: l, f32Key (combine 3 .f32 base l) ≤ f32Key w := by
  obtain ⟨mem, least⟩ := foldl_choice (f := pickF32 Num.lt) (key := f32Key) (P := fun w => f32IsNan w = false) (a := base) (l := l)
    pickF32_eq fun a b ha hb => by
      simp only [pickF32, ha, hb, Bool.false_eq_true, if_false]
      split
      · next lt => exact ⟨key_le_of_lt hb ha lt, le_rfl⟩
      · next lt => exact ⟨le_rfl, key_le_of_not_lt hb ha (Bool.eq_false_iff.mpr lt)⟩
  rw [combine_leastF32, toF32_numF32 (h _ mem)]
  exact ⟨mem, least h⟩

theorem combine_greatestF32_spec (h : ∀ w ∈ base :: l, f32IsNan w = false) :
    combine 4 .f32 base l ∈ base :: l ∧ ∀ w ∈ base :: l, f32Key w ≤ f32Key (combine 4 .f32 base l) := by
  obtain ⟨mem, least⟩ := foldl_choice (f := pickF32 fun b a => a.lt b) (key := fun w => -f32Key w) (P := fun w => f32IsNan w = false)
    (a := base) (l := l) pickF32_eq fun a b ha hb => by
      simp only [pickF32, ha, hb, Bool.false_eq_true, if_false, neg_le_neg_iff]
      split
      · next lt => exact ⟨key_le_of_lt ha hb lt, le_rfl⟩
      · next lt => exact ⟨le_rfl, key_le_of_not_lt ha hb (Bool.eq_false_iff.mpr lt)⟩
  rw [combine_greatestF32, toF32_numF32 (h _ mem)]
  exact ⟨mem, fun w hw => neg_le_neg_iff.mp (least h w hw)⟩

theorem combine_extremeF32_not_nan {r : Nat} (hr : r = 3 ∨ r = 4) (h : ∃ w ∈ base :: l, f32IsNan w = false) :
    f32IsNan (combine r .f32 base l) = false := by
  obtain rfl | rfl := hr
  · rw [combine_leastF32, toF32_numF32 (foldl_pickF32_not_nan h)]
    exact foldl_pickF32_not_nan h
  · rw [combine_greatestF32, toF32_numF32 (foldl_pickF32_not_nan h)]
    exact foldl_pickF32_not_nan h

end Sys2Proof.Machine
end

section
/-!
A cell that all its writers name whole (R218): these writers are one collision set, and under a combining rule the cell takes what the rule
makes of its base value and of every contribution.
-/
namespace Sys2Proof.Machine
variable {s : State} {ws C : List Writer} {w : Write} {y q : Writer} {rd : Nat → Byte} {det : Bool} {k : Nat}

/-- Two writes are of one cell, alike in rule and type, and whole. -/
structure Write.Alike (a b : Write) : Prop where
  mask : a.mask = 2 ^ 32 - 1
  keys : a.acc.keys = b.acc.keys
  rule : a.rule = b.rule
  type : a.t = b.t

/-- A cell of one word of this module that every writer names whole or not at all. -/
structure WholeCell (ws : List Writer) (y : Writer) : Prop where
  length : y.w.acc.keys.length = 4
  nodup : y.w.acc.keys.Nodup
  below : ∀ k ∈ y.w.acc.keys, k < 2 ^ 60
  others : ∀ q ∈ ws, q.w.Alike y.w ∨ ∀ k ∈ q.w.acc.keys, k ∉ y.w.acc.keys

theorem Write.foot_of_whole (hm : w.mask = 2 ^ 32 - 1) (hl : w.acc.keys.length = 4) : w.foot = w.acc.keys.map fun k => (k, 255) := by
  rw [Write.foot, hm, hl]
  match w.acc.keys, hl with
  | [a, b, c, d], _ => rfl

/-- Writers of one whole cell meet. -/
theorem Write.meets_of_alike {a b c : Write} (hl : c.acc.keys.length = 4) (ha : a.Alike c) (hb : b.Alike c) : a.meets b = true := by
  have foot {a : Write} (h : a.Alike c) : a.foot = c.acc.keys.map fun k => (k, 255) := by
    rw [Write.foot_of_whole h.mask (by rw [h.keys]; exact hl), h.keys]
  obtain ⟨k, hk⟩ := List.exists_mem_of_length_pos (by rw [hl]; decide : 0 < c.acc.keys.length)
  have bit {a : Write} (h : a.Alike c) : (a.maskAt k).testBit 0 = true := by
    rw [testBit_maskAt, foot h, List.any_eq_true]
    exact ⟨(k, 255), List.mem_map_of_mem hk, by simp⟩
  exact meets_iff.mpr ⟨k, 0, bit ha, bit hb⟩

section
variable (hy : y ∈ ws) (hw : WholeCell ws y)
include hw

theorem WholeCell.alike_of_mem (hq : q ∈ ws) (hk : k ∈ q.w.acc.keys) (hky : k ∈ y.w.acc.keys) : q.w.Alike y.w :=
  (hw.others q hq).resolve_right fun h => h k hk hky

theorem WholeCell.alike_iff (hq : q ∈ ws) : q.w.Alike y.w ↔ q.w.acc.keys = y.w.acc.keys := by
  refine ⟨Write.Alike.keys, fun h => ?_⟩
  obtain ⟨k, hk⟩ := List.exists_mem_of_length_pos (by rw [hw.length]; decide : 0 < y.w.acc.keys.length)
  exact hw.alike_of_mem hq (h ▸ hk) hk

include hy

theorem WholeCell.self_alike : y.w.Alike y.w := by
  obtain ⟨k, hk⟩ := List.exists_mem_of_length_pos (by rw [hw.length]; decide : 0 < y.w.acc.keys.length)
  exact hw.alike_of_mem hy hk hk

/-- The collision set of such a cell. -/
theorem WholeCell.mem_set_iff (h : OrderedSet ws C) (hyC : y ∈ C) (hq : q ∈ ws) : q ∈ C ↔ q.w.acc.keys = y.w.acc.keys := by
  rw [← hw.alike_iff hq]
  refine ⟨h.linked (fun q => q.w.Alike y.w) (fun a ha b hb haa hm => ?_) ⟨y, hyC, hw.self_alike hy⟩ q, fun hq' =>
    h.closed y hy q hq hyC (Write.meets_of_alike hw.length (hw.self_alike hy) hq')⟩
  obtain ⟨k, i, hka, hkb⟩ := meets_iff.mp hm
  obtain ⟨m, inA, -⟩ := Write.mem_foot_of_maskAt hka
  obtain ⟨n, inB, -⟩ := Write.mem_foot_of_maskAt hkb
  have key : k ∈ a.w.acc.keys := Write.key_of_mem_foot inA
  exact hw.alike_of_mem hb (Write.key_of_mem_foot inB) (haa.keys ▸ key)

theorem WholeCell.set_eq (h : OrderedSet ws C) (hyC : y ∈ C) : C = ws.filter fun q => q.w.acc.keys == y.w.acc.keys := by
  conv_lhs => rw [h.ordered]
  refine List.filter_congr fun q hq => ?_
  rw [Bool.eq_iff_iff, List.contains_iff_mem, hw.mem_set_iff hy h hyC hq, beq_iff_eq]

end

/-- The contributions to the cell of a writer. -/
def contributions (ws : List Writer) (y : Writer) : List Word :=
  (ws.filter fun q => q.w.acc.keys == y.w.acc.keys).map fun q => BitVec.ofNat 32 q.w.value

/-- What a combining rule makes of a cell. -/
def cellValue (rd : Nat → Byte) (ws : List Writer) (y : Writer) : Word :=
  combine y.w.rule y.w.t (baseWord rd y.w) (contributions ws y)

theorem WholeCell.resolveSet_bytes (hy : y ∈ ws) (hw : WholeCell ws y) (hr : isCombining y.w.rule = true) (h : OrderedSet ws C) (hyC : y ∈ C) :
    (resolveSet s det rd C).bytes =
      (y.w.acc.keys.zip (bytesOf 4 (cellValue rd ws y).toNat)).map fun p => (p.1, 0xFF, p.2) := by
  have set := hw.set_eq hy h hyC
  cases C with
  | nil => cases hyC
  | cons x C =>
    have hx := h.mem x List.mem_cons_self
    obtain ⟨-, keys, rule, type⟩ := (hw.alike_iff hx).mpr ((hw.mem_set_iff hy h hyC hx).mp List.mem_cons_self)
    rw [resolveSet_combining (by rw [rule]; exact hr), keys, rule, type, cellValue, contributions, ← set, baseWord, baseWord, keys]

/-- The bytes of a cell that all its writers name whole are those of what the rule makes of it. -/
theorem WholeCell.read_applyWrites {g d : Nat} {x : Group} (hws : ws = (s.writers x d).filter (isWriter s.readByte)) (hy : y ∈ ws)
    (hw : WholeCell ws y) (hr : isCombining y.w.rule = true) :
    y.w.acc.keys.map (s.applyWrites g d x).mem.read = bytesOf 4 (cellValue s.readByte ws y).toNat := by
  have sets := orderedSets_eventSets (rd := s.readByte) (ws := s.writers x d)
  rw [← hws] at sets
  obtain ⟨C, hC, hyC⟩ := sets.covers y hy
  have bytes := hw.resolveSet_bytes (s := s) (rd := s.readByte) (det := (s.launchOf x).r.det) hy hr (sets.set C hC) hyC
  have len : y.w.acc.keys.length = (bytesOf 4 (cellValue s.readByte ws y).toNat).length := by rw [hw.length, length_bytesOf]
  rw [State.applyWrites_mem]
  refine List.ext_getElem (by rw [List.length_map, len]) fun i hi hi' => ?_
  rw [List.length_map] at hi
  rw [List.getElem_map]
  have hk := hw.below _ (List.getElem_mem hi)
  refine Memory.writeBits_read_of_whole hk (fun e he hek => ?_) ?_
  · obtain ⟨D, hD, he⟩ := resolveSet_of_mem_eventBytes he
    obtain ⟨q, hqD, hkq⟩ := key_of_mem_resolveSet he
    have hq := (sets.set D hD).mem q hqD
    have alike := hw.alike_of_mem hq hkq (hek ▸ List.getElem_mem hi)
    have hqC := (hw.mem_set_iff hy (sets.set C hC) hyC hq).mpr alike.keys
    rw [(sets.set D hD).eq_of_mem (sets.set C hC) hqD hqC, bytes] at he
    obtain ⟨p, hp, rfl⟩ := List.mem_map.mp he
    obtain ⟨j, hj, rfl⟩ := List.mem_iff_getElem.mp hp
    rw [List.getElem_zip] at hek ⊢
    obtain rfl := (hw.nodup.getElem_inj_iff).mp hek
    rfl
  · refine ⟨(y.w.acc.keys[i], 0xFF, (bytesOf 4 (cellValue s.readByte ws y).toNat)[i]), mem_eventBytes hC ?_ hk, rfl⟩
    rw [bytes]
    exact List.mem_map_of_mem (List.mem_iff_getElem.mpr ⟨i, by rw [List.length_zip, ← len, Nat.min_self]; exact hi, List.getElem_zip⟩)

theorem WholeCell.cell_eq {g d : Nat} {x : Group} (hws : ws = (s.writers x d).filter (isWriter s.readByte)) (hy : y ∈ ws)
    (hw : WholeCell ws y) (hr : isCombining y.w.rule = true) :
    BitVec.ofNat 32 (littleEndian (y.w.acc.keys.map (s.applyWrites g d x).mem.read)) = cellValue s.readByte ws y := by
  rw [hw.read_applyWrites hws hy hr, littleEndian_bytesOf,
    Nat.mod_eq_of_lt (show (cellValue s.readByte ws y).toNat < 256 ^ 4 from (cellValue s.readByte ws y).isLt), BitVec.ofNat_toNat,
    BitVec.setWidth_eq]

theorem WholeCell.base_eq (hw : WholeCell ws y) :
    baseWord s.readByte y.w = BitVec.ofNat 32 (littleEndian (y.w.acc.keys.map s.mem.read)) := by
  rw [baseWord, List.map_congr_left fun k hk => State.readByte_of_lt (hw.below k hk)]

end Sys2Proof.Machine
end

section
/-!
The results of a commit event's writes (R222, R223): which values an event gives, and that they reach the deferred results of the threads.
-/
namespace Sys2Proof.Machine
variable {s : State} {g d : Nat} {x : Group} {ws C a b : List Writer} {y : Writer} {rd : Nat → Byte} {det : Bool} {seq : Nat} {v : Word}

/-! ## A value reaches its deferred result -/

/-- A list of results passed to the threads of a group. -/
def State.giveAll (g : Nat) (l : List (Nat × Nat × Word)) (s : State) : State :=
  l.foldl (fun s r => s.result ⟨g, r.1⟩ r.2.1 (.vals [r.2.2])) s

theorem State.thread?_result_self {r : TRef} {t : Thread} {src : Src} (ht : s.thread? r = some t) : (s.result r seq src).thread? r =
    some { t with defs := t.defs.map fun e => if e.seq = seq then { e with src := src } else e } := by
  rw [State.result, State.thread?_modThread_self, ht]
  rfl

theorem State.thread?_result_ne {r q : TRef} {src : Src} (h : q ≠ r) : (s.result r seq src).thread? q = s.thread? q :=
  State.thread?_modThread_ne _ _ h

/-- A deferred result for which one value alone is given takes it. -/
theorem State.thread?_giveAll {l : List (Nat × Nat × Word)} {i : Nat} {t : Thread} {q : Deferred} (ht : s.thread? ⟨g, i⟩ = some t)
    (hq : q ∈ t.defs) (one : ∀ r ∈ l, r.1 = i → r.2.1 = q.seq → r.2.2 = v)
    (given : q.src = .vals [v] ∨ ∃ r ∈ l, r.1 = i ∧ r.2.1 = q.seq) :
    ∃ u, (State.giveAll g l s).thread? ⟨g, i⟩ = some u ∧ { q with src := .vals [v] } ∈ u.defs := by
  induction l generalizing s t q with
  | nil =>
    have src : q.src = .vals [v] := given.resolve_right (by simp)
    refine ⟨t, ht, ?_⟩
    rwa [← src]
  | cons r l ih =>
    have later := fun e he => one e (List.mem_cons_of_mem r he)
    have rest (h : ¬ (r.1 = i ∧ r.2.1 = q.seq)) : q.src = .vals [v] ∨ ∃ r ∈ l, r.1 = i ∧ r.2.1 = q.seq := by
      refine given.imp_right ?_
      rintro ⟨e, he, hr⟩
      obtain rfl | he := List.mem_cons.mp he
      · exact absurd hr h
      · exact ⟨e, he, hr⟩
    change ∃ u, (State.giveAll g l (s.result ⟨g, r.1⟩ r.2.1 (.vals [r.2.2]))).thread? ⟨g, i⟩ = some u ∧ _
    by_cases hi : r.1 = i
    · subst hi
      have step := State.thread?_result_self (seq := r.2.1) (src := .vals [r.2.2]) ht
      have mem := List.mem_map_of_mem (f := fun e : Deferred => if e.seq = r.2.1 then { e with src := .vals [r.2.2] } else e) hq
      by_cases hs : q.seq = r.2.1
      · rw [if_pos hs] at mem
        rw [one r List.mem_cons_self rfl hs.symm] at step mem ⊢
        exact ih (q := { q with src := .vals [v] }) step mem later (Or.inl rfl)
      · rw [if_neg hs] at mem
        exact ih step mem later (rest fun h => hs h.2.symm)
    · have hne : (⟨g, i⟩ : TRef) ≠ ⟨g, r.1⟩ := fun h => hi (congrArg TRef.tid h).symm
      exact ih ((State.thread?_result_ne hne).trans ht) hq later (rest fun h => hi h.1)

/-! ## The results of an event without peers -/

theorem mem_setResults {before xs : List Writer} {r : Nat × Nat × Word} : r ∈ setResults s det rd C before xs ↔
    ∃ a y b, xs = a ++ y :: b ∧ writerResult s det rd C (before ++ a) y = some r := by
  induction xs generalizing before with
  | nil => simp [setResults]
  | cons x xs ih =>
    rw [setResults, List.mem_append, Option.mem_toList, ih]
    constructor
    · rintro (h | ⟨a, y, b, rfl, h⟩)
      · exact ⟨[], x, xs, rfl, by rwa [List.append_nil]⟩
      · exact ⟨x :: a, y, b, rfl, by rwa [List.append_assoc] at h⟩
    · rintro ⟨a, y, b, split, h⟩
      cases a with
      | nil =>
        obtain ⟨rfl, rfl⟩ := List.cons.inj split
        exact Or.inl (by rwa [List.append_nil] at h)
      | cons z a =>
        obtain ⟨rfl, rfl⟩ := List.cons.inj split
        exact Or.inr ⟨a, y, b, rfl, by rwa [List.append_assoc]⟩

/-- Whether a writer gives a result to a deferred result. -/
def Writer.Names (z : Writer) (seq : Nat) : Prop := z.w.kind = .fwr seq ∨ ∃ c v, z.w.kind = .cwr c v seq

theorem names_of_writerResult {r : Nat × Nat × Word} (h : writerResult s det rd C a y = some r) : r.1 = y.tid ∧ y.Names r.2.1 := by
  rw [writerResult] at h
  split at h
  · cases h
  · next seq hk => cases h; exact ⟨rfl, Or.inl hk⟩
  · next c v seq hk => cases h; exact ⟨rfl, Or.inr ⟨c, v, hk⟩⟩

theorem mem_failedResults {r : Nat × Nat × Word} : r ∈ failedResults ws ↔
    ∃ y ∈ ws, ∃ c v seq, y.w.kind = .cwr c v seq ∧ (y.tid, seq, 0) = r := by
  rw [failedResults, List.mem_filterMap]
  refine exists_congr fun y => and_congr_right fun _ => ?_
  cases y.w.kind <;> simp

/-- The results of an event whose writers reach no peer. -/
def State.eventResults (s : State) (det : Bool) (ws : List Writer) : List (Nat × Nat × Word) :=
  (okSets s.readByte ws).flatMap (fun C => setResults s det s.readByte C [] C) ++ failedResults (ws.filter fun y => !isWriter s.readByte y)

theorem resolveWrites_results : (s.resolveWrites det ws).results = s.eventResults det ws := by
  rw [resolveWrites_eq]
  exact congrArg (· ++ _) (List.flatMap_congr fun C _ => resolveSet_results)

theorem State.writeBits_groups {l : List (Nat × Byte × Byte)} : (s.writeBits l).groups = s.groups := by
  induction l generalizing s with
  | nil => rfl
  | cons e l ih =>
    refine (ih (s := s.writeByte e.1 _)).trans ?_
    rw [State.writeByte]
    split <;> rfl

theorem State.applyWrites_of_no_peer (here : ∀ y ∈ s.writers x d, y.w.peer = false) : s.applyWrites g d x =
    State.giveAll g (s.eventResults (s.launchOf x).r.det (s.writers x d))
      (s.writeBits (s.resolveWrites (s.launchOf x).r.det (s.writers x d)).bytes) := by
  have none : (peerSets (s.writers x d)).1 = [] := by
    refine List.filter_eq_nil_iff.mpr fun C hC => ?_
    rw [List.any_eq_true]
    rintro ⟨y, hy, hp⟩
    rw [here y ((orderedSets_collisionSets.set C hC).mem y hy)] at hp
    cases hp
  have all : (peerSets (s.writers x d)).2 = s.writers x d := List.filter_eq_self.mpr fun y hy => by
    have := (mem_here.mpr ⟨hy, by rw [none]; simp⟩)
    exact (List.mem_filter.mp this).2
  rw [State.applyWrites_eq, none, List.foldl_nil, State.writeHere, all, ← resolveWrites_results]
  rfl

/-! ## The one writer of a deferred result -/

/-- A result reaches every deferred result of its writer's thread that it is for. -/
def Receives (s : State) (g d : Nat) (x : Group) (y : Writer) (seq : Nat) (v : Word) : Prop :=
  ∀ t, x.threads[y.tid]? = some t → ∀ q ∈ t.defs, q.seq = seq →
    ∃ u, (s.applyWrites g d x).thread? ⟨g, y.tid⟩ = some u ∧ { q with src := .vals [v] } ∈ u.defs

/-- A writer that alone gives a deferred result. -/
structure Sole (ws : List Writer) (y : Writer) (seq : Nat) : Prop where
  count : ws.count y = 1
  only : ∀ z ∈ ws, z.tid = y.tid → z.Names seq → z = y

theorem lands_of_eventResults (hg : s.group? g = some x) (here : ∀ y ∈ s.writers x d, y.w.peer = false)
    (one : ∀ r ∈ s.eventResults (s.launchOf x).r.det (s.writers x d), r.1 = y.tid → r.2.1 = seq → r.2.2 = v)
    (given : (y.tid, seq, v) ∈ s.eventResults (s.launchOf x).r.det (s.writers x d)) : Receives s g d x y seq v := by
  rintro t ht q hq rfl
  rw [State.applyWrites_of_no_peer here]
  have thread : (s.writeBits (s.resolveWrites (s.launchOf x).r.det (s.writers x d)).bytes).thread? ⟨g, y.tid⟩ = some t := by
    rw [State.thread?, State.group?, State.writeBits_groups]
    exact (State.thread?_eq hg).trans ht
  exact State.thread?_giveAll thread hq one (Or.inr ⟨_, given, rfl, rfl⟩)

section
variable (hg : s.group? g = some x) (here : ∀ y ∈ s.writers x d, y.w.peer = false) (sole : Sole (s.writers x d) y seq)
include hg here sole

/-- A conditional write that does not write gives false. -/
theorem Sole.lands_failed {c : Nat} {u : Word} (hk : y.w.kind = .cwr c u seq) (hy : y ∈ s.writers x d)
    (hn : y ∉ (s.writers x d).filter (isWriter s.readByte)) : Receives s g d x y seq 0 := by
  have fails : (!isWriter s.readByte y) = true := by simpa [hy] using hn
  refine lands_of_eventResults hg here (fun r hr h1 h2 => ?_)
    (List.mem_append_right _ (mem_failedResults.mpr ⟨y, List.mem_filter.mpr ⟨hy, fails⟩, c, u, seq, hk, rfl⟩))
  obtain hr | hr := List.mem_append.mp hr
  · obtain ⟨C, hC, hr⟩ := List.mem_flatMap.mp hr
    obtain ⟨a, z, b, split, hz⟩ := mem_setResults.mp hr
    obtain ⟨htid, names⟩ := names_of_writerResult hz
    have hzws := (orderedSets_collisionSets.set C hC).mem z (by rw [split]; simp)
    obtain rfl := sole.only z (List.mem_filter.mp hzws).1 (htid.symm.trans h1) (h2 ▸ names)
    exact absurd hzws hn
  · obtain ⟨z, -, c, u, seq, -, rfl⟩ := mem_failedResults.mp hr
    rfl

/-- A writer gives what its set makes of it and of the writers before it. -/
theorem Sole.lands (hC : C ∈ okSets s.readByte (s.writers x d)) (split : C = a ++ y :: b)
    (hr : writerResult s (s.launchOf x).r.det s.readByte C a y = some (y.tid, seq, v)) : Receives s g d x y seq v := by
  have sets : OrderedSets ((s.writers x d).filter (isWriter s.readByte)) (okSets s.readByte (s.writers x d)) := orderedSets_collisionSets
  have hyC : y ∈ C := by rw [split]; simp
  have hyws := (sets.set C hC).mem y hyC
  have once : C.count y ≤ 1 := by
    rw [(sets.set C hC).ordered, ← sole.count]
    exact (List.filter_sublist.trans List.filter_sublist).count_le y
  have notMem {a b : List Writer} (h : C = a ++ y :: b) : y ∉ a ∧ y ∉ b := by
    rw [h, List.count_append, List.count_cons_self] at once
    exact ⟨List.count_eq_zero.mp (by omega), List.count_eq_zero.mp (by omega)⟩
  refine lands_of_eventResults hg here (fun r hr' h1 h2 => ?_)
    (List.mem_append_left _ (List.mem_flatMap.mpr ⟨C, hC, mem_setResults.mpr ⟨a, y, b, split, hr⟩⟩))
  obtain hr' | hr' := List.mem_append.mp hr'
  · obtain ⟨D, hD, hr'⟩ := List.mem_flatMap.mp hr'
    obtain ⟨a', z, b', split', hz⟩ := mem_setResults.mp hr'
    obtain ⟨htid, names⟩ := names_of_writerResult hz
    have hzD : z ∈ D := by rw [split']; simp
    obtain rfl := sole.only z (List.mem_filter.mp ((sets.set D hD).mem z hzD)).1 (htid.symm.trans h1) (h2 ▸ names)
    obtain rfl := (sets.set D hD).eq_of_mem (sets.set C hC) hzD hyC
    obtain ⟨rfl, -⟩ := (List.append_cons_inj_of_notMem (notMem split').1 (notMem split').2).mp (split'.symm.trans split)
    rw [List.nil_append, hr] at hz
    exact (congrArg (fun r => r.2.2) (Option.some.inj hz)).symm
  · obtain ⟨z, hz, c, u, seq', hk, rfl⟩ := mem_failedResults.mp hr'
    obtain ⟨hzws, fails⟩ := List.mem_filter.mp hz
    obtain rfl := sole.only z hzws h1 (Or.inr ⟨c, u, h2 ▸ hk⟩)
    rw [(List.mem_filter.mp hyws).2] at fails
    cases fails

end

end Sys2Proof.Machine
end

section
/-!
A commit event of writes alone (R432): memory is what the writes make of it, and no later item of the event changes it.
-/
namespace Sys2Proof.Machine
variable {s : State} {g d : Nat} {x : Group} {eff : List (Nat × Fx)}

theorem State.foldl_mem {α : Type} {f : State → α → State} {l : List α} (h : ∀ a ∈ l, ∀ u, (f u a).mem = u.mem) :
    (l.foldl f s).mem = s.mem := by
  induction l generalizing s with
  | nil => rfl
  | cons a l ih => exact (ih fun a ha => h a (List.mem_cons_of_mem _ ha)).trans (h a List.mem_cons_self s)

theorem State.mem_ite {c : Prop} [Decidable c] {m : Memory} {u v : State} (hu : u.mem = m) (hv : v.mem = m) :
    (if c then u else v).mem = m := by
  split
  · exact hu
  · exact hv

/-! ## What the items of an event leave of memory -/

theorem State.noteWrites_mem {keys : List Nat} : (s.noteWrites keys).mem = s.mem := by
  rw [State.noteWrites]
  split <;> rfl

theorem State.markCells_mem {keys : List Nat} : (s.markCells x keys).mem = s.mem := by
  rw [State.markCells]
  split <;> rfl

theorem State.acquireRing_mem {r : Nat} {ending : Bool} : (s.acquireRing g d r ending).mem = s.mem := by
  simp only [State.acquireRing]
  split
  · rfl
  · split
    · rfl
    · split
      · rfl
      · exact State.foldl_mem fun _ _ _ => rfl

theorem State.take_mem {coh name ch : Nat} : (s.take g coh name ch).1.mem = s.mem := by
  rw [State.take]
  split
  · rfl
  · split <;> rfl

theorem State.retryTake_mem {c : Nat × Nat × Nat × Nat} : (s.retryTake g c).mem = s.mem := by
  simp only [State.retryTake]
  split <;> exact State.take_mem

theorem State.endFills_mem : (s.endFills g d).mem = s.mem := rfl

theorem State.gcTiles_mem : s.gcTiles.mem = s.mem := by
  simp only [State.gcTiles]
  split <;> rfl

/-! ## Events of writes alone -/

/-- Every effect of an event is a write. -/
def WritesOnly (eff : List (Nat × Fx)) : Prop := ∀ p ∈ eff, ∃ w, p.2 = .write w

theorem WritesOnly.filterMap_eq_nil (h : WritesOnly eff) {α : Type} {f : Nat × Fx → Option α} (hf : ∀ i w, f (i, .write w) = none) :
    eff.filterMap f = [] := by
  refine List.filterMap_eq_nil_iff.mpr fun p hp => ?_
  obtain ⟨w, hw⟩ := h p hp
  rw [← hf p.1 w, ← hw]

theorem WritesOnly.foldl_eq (h : WritesOnly eff) {α : Type} {f : α → Nat × Fx → α} (hf : ∀ u i w, f u (i, .write w) = u) {a : α} :
    eff.foldl f a = a := by
  induction eff with
  | nil => rfl
  | cons p eff ih =>
    obtain ⟨i, e⟩ := p
    obtain ⟨w, rfl⟩ := h (i, e) List.mem_cons_self
    rw [List.foldl_cons, hf]
    exact ih fun p hp => h p (List.mem_cons_of_mem _ hp)

section
variable (h : WritesOnly eff)
include h

theorem WritesOnly.applyCounters_eq : s.applyCounters g eff = s := by
  simp only [State.applyCounters]
  rw [h.foldl_eq fun _ _ _ => rfl, h.foldl_eq fun _ _ _ => rfl]

theorem WritesOnly.applyRings_mem : (s.applyRings g d x eff).mem = s.mem := by
  simp only [State.applyRings]
  rw [h.filterMap_eq_nil fun _ _ => rfl]
  exact State.foldl_mem fun _ _ _ => State.foldl_mem fun _ _ _ => State.acquireRing_mem

theorem WritesOnly.applyStreams_eq : s.applyStreams g d [] eff = s := by
  simp only [State.applyStreams, List.foldl_nil]
  split
  · rfl
  · exact h.foldl_eq fun _ _ _ => rfl

theorem WritesOnly.applyRequests_eq : s.applyRequests g d [] eff = s := by
  have none : sortCopies [] eff = [] := by
    simp only [sortCopies, List.filterMap_nil, List.append_nil]
    rw [h.filterMap_eq_nil fun _ _ => rfl]
    rfl
  simp only [State.applyRequests, none, List.foldl_nil]
  exact h.foldl_eq fun _ _ _ => rfl

end

theorem State.applySettings_mem : (s.applySettings g x eff).mem = s.mem := by
  simp only [State.applySettings]
  split <;> exact State.mem_ite (State.foldl_mem fun _ _ _ => by split <;> rfl) (State.foldl_mem fun _ _ _ => by split <;> rfl)

theorem State.applyTiles_mem : (s.applyTiles g d []).mem = s.mem := by
  simp only [State.applyTiles, List.filterMap_nil, State.postAll, List.foldl_nil]
  split
  · exact State.foldl_mem (s := s.modDom g d _) fun _ _ _ => State.retryTake_mem
  · rfl

/-- A commit of writes alone changes memory by these and by nothing else. -/
theorem State.commit_mem (hg : s.group? g = some x) (h : WritesOnly (s.effects x d)) (hi : (x.dom d).insts = []) :
    (s.commit g d).mem = (s.applyWrites g d x).mem := by
  have insts : sortInsts (x.dom d).insts = [] := by rw [hi]; rfl
  simp only [State.commit, hg, insts, h.applyCounters_eq, h.applyStreams_eq, h.applyRequests_eq]
  rw [h.filterMap_eq_nil fun _ _ => rfl, h.filterMap_eq_nil fun _ _ => rfl]
  rw [State.gcTiles_mem, State.modGroup_mem, State.modDom_mem, State.endFills_mem, State.foldl_mem]
  · exact State.applySettings_mem.trans <| State.applyTiles_mem.trans <| h.applyRings_mem.trans <|
      State.markCells_mem.trans State.noteWrites_mem
  · exact fun _ _ _ => rfl

end Sys2Proof.Machine
end

section
/-!
O59: the writes of one commit event.
-/
namespace Sys2Proof.Machine
variable {s : State} {g d : Nat} {x : Group} {ws C a b : List Writer} {y : Writer} {rd : Nat → Byte} {det : Bool} {seq : Nat} {v : Word}

/-! ## What a fetching write gives -/

/-- What a fetching write receives after the contributions before it. -/
def fetched (rd : Nat → Byte) (before : List Word) (y : Writer) : Word :=
  if isCombining y.w.rule && !before.isEmpty then combine y.w.rule y.w.t (baseWord rd y.w) before else baseWord rd y.w

theorem writerResult_fwr {before : List Writer} (hk : y.w.kind = .fwr seq) : writerResult s det rd C before y =
    some (y.tid, seq, fetched rd (before.map fun q => BitVec.ofNat 32 q.w.value) y) := by
  simp only [writerResult, hk, fetched, List.isEmpty_map]

theorem fetched_of_first {before : List Word} (h : isCombining y.w.rule = false ∨ before = []) : fetched rd before y = baseWord rd y.w := by
  obtain h | rfl := h
  · rw [fetched, h]; rfl
  · rw [fetched, List.isEmpty_nil, Bool.not_true, Bool.and_false]; rfl

theorem fetched_of_later {before : List Word} (hr : isCombining y.w.rule = true) (h : before ≠ []) :
    fetched rd before y = combine y.w.rule y.w.t (baseWord rd y.w) before := by
  rw [fetched, hr, List.isEmpty_eq_false_iff.mpr h]
  rfl

/-! ## What a conditional write gives -/

theorem writerResult_cwr {before : List Writer} {c : Nat} {u : Word} (hk : y.w.kind = .cwr c u seq) :
    writerResult s det rd C before y = some (y.tid, seq, boolWord (if isCombining y.w.rule then true else winsAll s det C y)) := by
  simp only [writerResult, hk]

/-- The writer's thread is the lowest-ranked one of every bit of its footprint, and its last write to the bit is this one. -/
def Wins (ws : List Writer) (y : Writer) : Prop := ∀ k b, b < 8 → y.holds k b = true →
  ((ws.filter (Writer.holds k b)).head?.map Writer.tid) = some y.tid ∧
    ((ws.filter (Writer.holds k b)).filter fun z => z.tid == y.tid).getLast? = some y

theorem Writer.holds_iff {k b : Nat} : y.holds k b = true ↔ ∃ p ∈ y.w.foot, p.1 = k ∧ p.2.testBit b = true := by
  rw [Writer.holds, testBit_maskAt, List.any_eq_true]
  simp only [Bool.and_eq_true, beq_iff_eq]

theorem OrderedSet.winsAll_iff (h : OrderedSet ws C) (hy : y ∈ C) (hrule : ∀ z ∈ ws, z.w.rule ≠ 1) :
    winsAll s det C y = true ↔ Wins ws y := by
  have winner {k b : Nat} (hold : y.holds k b = true) :
      bitWinner s det C k b = (ws.filter (Writer.holds k b)).head?.map Writer.tid ∧
      (C.filter fun z => z.tid == y.tid && z.holds k b) = (ws.filter (Writer.holds k b)).filter fun z => z.tid == y.tid := by
    have hits : C.filter (Writer.holds k b) = ws.filter (Writer.holds k b) := h.filter_eq (fun _ _ => meets_of_holds) hy hold
    rw [bitWinner_eq fun z hz => hrule z (h.mem z hz), hits, ← List.filter_filter, hits]
    exact ⟨rfl, rfl⟩
  have bit {n b : Nat} : n / 2 ^ b % 2 = 0 ↔ n.testBit b = false := by
    rw [Nat.testBit_eq_decide_div_mod_eq, decide_eq_false_iff_not]
    omega
  simp only [winsAll, div_mod_beq_one, List.all_eq_true, Bool.or_eq_true, Bool.and_eq_true, beq_iff_eq, List.mem_range, bit]
  constructor
  · intro all k b hb hold
    obtain ⟨p, hp, rfl, hm⟩ := Writer.holds_iff.mp hold
    obtain ⟨first, last⟩ := (all p hp b hb).resolve_left (by rw [hm]; decide)
    exact ⟨(winner hold).1 ▸ first, (winner hold).2 ▸ last⟩
  · intro wins p hp b hb
    refine or_iff_not_imp_left.mpr fun hm => ?_
    have hold : y.holds p.1 b = true := Writer.holds_iff.mpr ⟨p, hp, rfl, eq_true_of_ne_false hm⟩
    obtain ⟨first, last⟩ := wins p.1 b hb hold
    exact ⟨(winner hold).1.trans first, (congrArg List.getLast? (winner hold).2).trans last⟩

/-! ## The results of an event -/

section
variable (hg : s.group? g = some x) (here : ∀ y ∈ s.writers x d, y.w.peer = false) (sole : Sole (s.writers x d) y seq)
include hg here sole

/-- A fetching write of a whole cell receives the base value with every earlier contribution combined. -/
theorem Sole.receives_fetched (split : (s.writers x d).filter (isWriter s.readByte) = a ++ y :: b) (hk : y.w.kind = .fwr seq)
    (hw : WholeCell ((s.writers x d).filter (isWriter s.readByte)) y) :
    Receives s g d x y seq (fetched s.readByte (contributions a y) y) := by
  have sets : OrderedSets ((s.writers x d).filter (isWriter s.readByte)) (okSets s.readByte (s.writers x d)) := orderedSets_collisionSets
  have hy : y ∈ (s.writers x d).filter (isWriter s.readByte) := by rw [split]; simp
  obtain ⟨C, hC, hyC⟩ := sets.covers y hy
  have parts := hw.set_eq hy (sets.set C hC) hyC
  rw [split, List.filter_append, List.filter_cons_of_pos (by simp)] at parts
  exact sole.lands hg here hC parts (writerResult_fwr hk)

theorem Sole.receives_first (split : (s.writers x d).filter (isWriter s.readByte) = a ++ y :: b) (hk : y.w.kind = .fwr seq)
    (hw : WholeCell ((s.writers x d).filter (isWriter s.readByte)) y) (h : isCombining y.w.rule = false ∨ contributions a y = []) :
    Receives s g d x y seq (BitVec.ofNat 32 (littleEndian (y.w.acc.keys.map s.mem.read))) := by
  have gives := sole.receives_fetched hg here split hk hw
  rwa [fetched_of_first h, hw.base_eq] at gives

theorem Sole.receives_later (split : (s.writers x d).filter (isWriter s.readByte) = a ++ y :: b) (hk : y.w.kind = .fwr seq)
    (hw : WholeCell ((s.writers x d).filter (isWriter s.readByte)) y) (h : contributions a y ≠ []) (hr : isCombining y.w.rule = true) :
    Receives s g d x y seq
      (combine y.w.rule y.w.t (BitVec.ofNat 32 (littleEndian (y.w.acc.keys.map s.mem.read))) (contributions a y)) := by
  have gives := sole.receives_fetched hg here split hk hw
  rwa [fetched_of_later hr h, hw.base_eq] at gives

theorem Sole.receives_predicate {c : Nat} {u : Word} (hk : y.w.kind = .cwr c u seq)
    (hy : y ∈ (s.writers x d).filter (isWriter s.readByte)) : ∃ C, OrderedSet ((s.writers x d).filter (isWriter s.readByte)) C ∧ y ∈ C ∧
      Receives s g d x y seq (boolWord (if isCombining y.w.rule then true else winsAll s (s.launchOf x).r.det C y)) := by
  have sets : OrderedSets ((s.writers x d).filter (isWriter s.readByte)) (okSets s.readByte (s.writers x d)) := orderedSets_collisionSets
  obtain ⟨C, hC, hyC⟩ := sets.covers y hy
  obtain ⟨a, b, split⟩ := List.append_of_mem hyC
  exact ⟨C, sets.set C hC, hyC, sole.lands hg here hC split (writerResult_cwr hk)⟩

end

/-! ## O59 -/

theorem isCombining_of_rule {r : Nat} (h : r = 2 ∨ r = 3 ∨ r = 4 ∨ r = 5 ∨ r = 6) : isCombining r = true := by
  obtain rfl | rfl | rfl | rfl | rfl := h <;> rfl

theorem WholeCell.of_alike (len : y.w.acc.keys.length = 4) (nodup : y.w.acc.keys.Nodup) (below : ∀ k ∈ y.w.acc.keys, k < 2 ^ 60)
    (others : ∀ q ∈ ws, q.w.mask = 2 ^ 32 - 1 ∧ q.w.acc.keys = y.w.acc.keys ∧ q.w.rule = y.w.rule ∧ q.w.t = y.w.t ∨
      ∀ k ∈ q.w.acc.keys, k ∉ y.w.acc.keys) : WholeCell ws y :=
  ⟨len, nodup, below, fun q hq => (others q hq).imp_left fun ⟨mask, keys, rule, type⟩ => ⟨mask, keys, rule, type⟩⟩

/-- The cell of a combining rule over integers and bits. -/
theorem combine_int_spec {r : Nat} {t : Ty} {base : Word} {l : List Word} :
    (r = 2 → t ≠ .f32 → combine r t base l = base + l.sum) ∧
    (r = 3 → t ≠ .f32 → combine r t base l ∈ base :: l ∧ ∀ v ∈ base :: l, ival t (combine r t base l) ≤ ival t v) ∧
    (r = 4 → t ≠ .f32 → combine r t base l ∈ base :: l ∧ ∀ v ∈ base :: l, ival t v ≤ ival t (combine r t base l)) ∧
    (r = 5 → combine r t base l = l.foldl (· ||| ·) base) ∧ (r = 6 → combine r t base l = l.foldl (· &&& ·) base) := by
  refine ⟨?_, ?_, ?_, ?_, ?_⟩
  · rintro rfl; exact combine_sum
  · rintro rfl; exact combine_least
  · rintro rfl; exact combine_greatest
  · rintro rfl; rfl
  · rintro rfl; rfl

/-- The cell of a combining rule over FP32 values. -/
theorem combine_f32_spec {r : Nat} {base : Word} {l : List Word} :
    (r = 2 → (∀ n, (base :: l).find? (fun w => f32IsNan w) = some n → combine r .f32 base l = n ||| 0x00400000) ∧
      ((∀ w ∈ base :: l, ¬ f32IsNan w = true) →
        combine r .f32 base l = toF32 0 (l.foldl (fun (a : Num) w => a.add 0 (numF32 w)) (numF32 base)) ∧
        (0x7F800000 ∈ base :: l → 0xFF800000 ∈ base :: l → combine r .f32 base l = 0x7FC00000))) ∧
    ((∀ w ∈ base :: l, ¬ f32IsNan w = true) →
      (r = 3 → combine r .f32 base l ∈ base :: l ∧ ∀ w ∈ base :: l, f32Key (combine r .f32 base l) ≤ f32Key w) ∧
      (r = 4 → combine r .f32 base l ∈ base :: l ∧ ∀ w ∈ base :: l, f32Key w ≤ f32Key (combine r .f32 base l))) ∧
    (r = 3 ∨ r = 4 → (∃ w ∈ base :: l, ¬ f32IsNan w = true) → ¬ f32IsNan (combine r .f32 base l) = true) := by
  simp only [Bool.not_eq_true]
  refine ⟨?_, fun h => ⟨?_, ?_⟩, fun hr h => combine_extremeF32_not_nan hr h⟩
  · rintro rfl
    exact ⟨fun n => combine_sum_of_nan, fun h => ⟨combine_sum_of_no_nan h, combine_sum_of_infs h⟩⟩
  · rintro rfl; exact combine_leastF32_spec h
  · rintro rfl; exact combine_greatestF32_spec h

/-- Settles O59: the event's writes are those of its collision sets, each bit of a set is its winner's, and a cell that a set names whole is what
the rule makes of it. -/
theorem commitEvent : Obligations.CommitEvent := by
  unfold Obligations.CommitEvent
  refine ⟨fun s g d x hg => ⟨fun k => applyWrites_read_of_notMem, fun h hi => State.commit_mem hg h hi, ?_, ?_⟩,
    fun s g d x hg here => ⟨?_, ?_, ?_, ?_, ?_⟩⟩
  · intro hrule k hk b hb
    rw [holds_eq]
    exact ⟨applyWrites_bit_of_none hrule rfl hk hb, fun y z hy hz => applyWrites_bit hrule rfl hk hb hy hz⟩
  · intro y hy hr len nodup below others
    have hw := WholeCell.of_alike len nodup below others
    have cell := hw.cell_eq (g := g) rfl hy hr
    rw [cellValue, hw.base_eq] at cell
    obtain ⟨sum, least, greatest, bitOr, bitAnd⟩ := combine_int_spec (r := y.w.rule) (t := y.w.t)
      (base := BitVec.ofNat 32 (littleEndian (y.w.acc.keys.map s.mem.read)))
      (l := contributions ((s.writers x d).filter (isWriter s.readByte)) y)
    rw [← cell] at sum least greatest bitOr bitAnd
    exact ⟨sum, least, greatest, fun h b _ => (congrArg (·.getLsbD b) (bitOr h)).trans getLsbD_foldl_or,
      fun h b _ => (congrArg (·.getLsbD b) (bitAnd h)).trans getLsbD_foldl_and⟩
  · rintro y hy hr ⟨len, nodup, below, others⟩ ht
    have hw := WholeCell.of_alike len nodup below others
    have cell := hw.cell_eq (g := g) rfl hy hr
    rw [cellValue, hw.base_eq, ht] at cell
    have spec := combine_f32_spec (r := y.w.rule) (base := BitVec.ofNat 32 (littleEndian (y.w.acc.keys.map s.mem.read)))
      (l := contributions ((s.writers x d).filter (isWriter s.readByte)) y)
    rw [← cell] at spec
    exact spec
  · rintro y seq a b split hk ⟨count, only⟩ ⟨len, nodup, below, others⟩
    have hw := WholeCell.of_alike len nodup below others
    have sole : Sole (s.writers x d) y seq := ⟨count, only⟩
    refine ⟨sole.receives_first hg here split hk hw, fun h => ?_⟩
    have later := sole.receives_later hg here split hk hw h
    obtain ⟨sum, least, greatest, bitOr, bitAnd⟩ := combine_int_spec (r := y.w.rule) (t := y.w.t)
      (base := BitVec.ofNat 32 (littleEndian (y.w.acc.keys.map s.mem.read))) (l := contributions a y)
    refine ⟨fun hr ht => ?_, fun hr ht hn => ?_, fun hr ht => ⟨_, ?_, later (isCombining_of_rule (by omega)), ?_⟩, fun hr => ?_, fun hr => ?_⟩
    · exact sum hr ht ▸ later (isCombining_of_rule (by omega))
    · have gives := later (isCombining_of_rule (by omega))
      have total := combine_sum_of_no_nan (base := BitVec.ofNat 32 (littleEndian (y.w.acc.keys.map s.mem.read)))
        (l := contributions a y) fun w hw => Bool.eq_false_iff.mpr (hn w hw)
      rw [hr, ht, total] at gives
      exact gives
    · exact hr.elim (fun hr => (least hr ht).1) fun hr => (greatest hr ht).1
    · exact fun w hw => ⟨fun hr => (least hr ht).2 w hw, fun hr => (greatest hr ht).2 w hw⟩
    · exact bitOr hr ▸ later (isCombining_of_rule (by omega))
    · exact bitAnd hr ▸ later (isCombining_of_rule (by omega))
  · exact fun y c v seq hk own hy hn => Sole.lands_failed hg here ⟨own.1, own.2⟩ hk hy hn
  · intro y c v seq hk own hy hr
    obtain ⟨C, hC, hyC, gives⟩ := Sole.receives_predicate hg here ⟨own.1, own.2⟩ hk hy
    rw [if_pos hr] at gives
    exact gives
  · intro y c v seq hk own hy hd hrule wins
    obtain ⟨C, hC, hyC, gives⟩ := Sole.receives_predicate hg here ⟨own.1, own.2⟩ hk hy
    rw [if_neg (by rw [(hrule y hy).1]; decide)] at gives
    have iff := hC.winsAll_iff (s := s) (det := (s.launchOf x).r.det) hyC fun z hz => (hrule z hz).2
    have same : wins ↔ Wins ((s.writers x d).filter (isWriter s.readByte)) y := by
      simp only [wins, Wins, holds_eq, Writer.holds, Nat.testBit_eq_decide_div_mod_eq, decide_eq_true_eq]
    refine ⟨fun h => ?_, fun h => ?_⟩
    · rw [iff.mpr (same.mp h)] at gives
      exact gives
    · rw [Bool.eq_false_iff.mpr fun hn => h (same.mpr (iff.mp hn))] at gives
      exact gives

end Sys2Proof.Machine
end

section
/-!
Rounding (R49-R51): the magnitude that rounding a positive value into a format gives is the one of the format's magnitudes that `Rounded`
names.  A value is known by its multiple, a real number, of the format's least subnormal.
-/
namespace Sys2Proof.Machine
variable {F : Fmt} {mode : Nat} {neg sticky : Bool} {x y : ℝ} {m n sh : Nat} {e : Int}

/-! ## The magnitudes of a format -/

/-- The hidden bit of a format, as a significand. -/
def Fmt.hidden (F : Fmt) : Nat := 2 ^ (F.prec - 1)

/-- The magnitude that magnitude bits stand for, in units of the least subnormal (R50); the bits of infinity stand for the magnitude
that comes after the largest. -/
def Fmt.units (F : Fmt) (v : Nat) : Nat :=
  if v < F.hidden then v else (F.hidden + v % F.hidden) * 2 ^ (v / F.hidden - 1)

/-- The magnitude bits of the largest finite value. -/
def Fmt.top (F : Fmt) : Nat := (2 ^ F.ebits - 1) * F.hidden - 1

theorem Fmt.hidden_pos : 0 < F.hidden := Nat.two_pow_pos _

theorem Fmt.two_pow_prec (hp : 1 ≤ F.prec) : 2 ^ F.prec = 2 * F.hidden := by
  rw [hidden, ← pow_succ', Nat.sub_add_cancel hp]

/-- The magnitude bits of a significand `s` in units of 2^k. -/
theorem Fmt.units_join {k s : Nat} (hk : k = 0 ∨ F.hidden ≤ s) (hs : s ≤ 2 * F.hidden) :
    F.units (k * F.hidden + s) = s * 2 ^ k := by
  have pos := F.hidden_pos
  by_cases low : s < F.hidden
  · obtain rfl : k = 0 := by omega
    simp [units, low]
  · have notLow : ¬ k * F.hidden + s < F.hidden := by
      have := Nat.zero_le (k * F.hidden)
      omega
    rw [units, if_neg notLow]
    obtain last | rest := hs.eq_or_lt
    · have split_ : k * F.hidden + s = (k + 2) * F.hidden := by rw [last]; ring
      rw [split_, Nat.mul_mod_left, Nat.mul_div_cancel _ pos, last, add_zero]
      show F.hidden * 2 ^ (k + 1) = _
      ring
    · have split_ : k * F.hidden + s = (s - F.hidden) + F.hidden * (k + 1) := by
        rw [Nat.mul_add, Nat.mul_comm k]; omega
      rw [split_, Nat.add_mul_mod_self_left, Nat.add_mul_div_left _ _ pos, Nat.mod_eq_of_lt (by omega),
        Nat.div_eq_of_lt (by omega), Nat.zero_add, Nat.add_sub_cancel, Nat.add_sub_cancel' (by omega)]

/-- Each magnitude is a significand in units of a power of two. -/
theorem Fmt.exists_significand (v : Nat) :
    ∃ k s, v = k * F.hidden + s ∧ (k = 0 ∨ F.hidden ≤ s) ∧ s < 2 * F.hidden := by
  have pos := F.hidden_pos
  have split_ := Nat.div_add_mod v F.hidden
  have small := Nat.mod_lt v pos
  obtain zero | ⟨k, hk⟩ : v / F.hidden = 0 ∨ ∃ k, v / F.hidden = k + 1 :=
    (v / F.hidden).eq_zero_or_eq_succ_pred.imp_right fun h => ⟨_, h⟩
  · exact ⟨0, v, by simp, Or.inl rfl, by rw [zero] at split_; omega⟩
  · refine ⟨k, F.hidden + v % F.hidden, ?_, Or.inr (by omega), by omega⟩
    rw [hk, Nat.mul_add, Nat.mul_comm] at split_
    omega

theorem Fmt.units_strictMono : StrictMono F.units := by
  refine strictMono_nat_of_lt_succ fun v => ?_
  obtain ⟨k, s, rfl, hk, hs⟩ := F.exists_significand v
  rw [Fmt.units_join hk hs.le, add_assoc, Fmt.units_join (by omega) (by omega)]
  exact Nat.mul_lt_mul_of_pos_right (Nat.lt_succ_self s) (Nat.two_pow_pos k)

theorem Fmt.units_zero : F.units 0 = 0 := if_pos F.hidden_pos

/-! ## One rounding to an integer -/

/-- `n` is what is left of `y` where its fraction is cut off; `sticky` says whether it had one. -/
structure Floors (y : ℝ) (n : Nat) (sticky : Bool) : Prop where
  le : (n : ℝ) ≤ y
  lt : y < n + 1
  exact_iff : sticky = false ↔ y = n

/-- Whether `y`, with the integer part `s`, rounds up under a mode (R49). -/
def RoundsUp (mode : Nat) (neg : Bool) (s : Nat) (y : ℝ) : Prop :=
  match mode with
  | 0 => (s : ℝ) + 1 / 2 ≤ y ∧ (¬ y ≤ s + 1 / 2 ∨ s % 2 = 1)
  | 1 => False
  | 2 => neg ∧ ¬ y ≤ s
  | 3 => neg = false ∧ ¬ y ≤ s
  | _ => (s : ℝ) + 1 / 2 ≤ y

/-- `c` is `y` rounded to an integer. -/
def RoundsTo (mode : Nat) (neg : Bool) (y : ℝ) (c : Nat) : Prop :=
  ∃ s : Nat, (s : ℝ) ≤ y ∧ y < s + 1 ∧ (RoundsUp mode neg s y → c = s + 1) ∧ (¬ RoundsUp mode neg s y → c = s)

theorem not_roundsUp_self : ¬ RoundsUp mode neg n n := by
  unfold RoundsUp
  split <;> norm_num

theorem roundsTo_self : RoundsTo mode neg (n : ℝ) n :=
  ⟨n, le_rfl, by norm_num, fun h => absurd h not_roundsUp_self, fun _ => rfl⟩

theorem floors_self : Floors (n : ℝ) n false := ⟨le_rfl, by norm_num, by simp⟩

theorem cast_eq_quotient : (n : ℝ) = 2 ^ sh * (n / 2 ^ sh : Nat) + (n % 2 ^ sh : Nat) := by
  exact_mod_cast (Nat.div_add_mod n (2 ^ sh)).symm

section
variable (h : Floors y n sticky) (hs : sticky = true → 1 ≤ sh)
include h

theorem Floors.quotient_le : ((n / 2 ^ sh : Nat) : ℝ) ≤ y / 2 ^ sh ∧ y / 2 ^ sh < (n / 2 ^ sh : Nat) + 1 := by
  have pos : (0 : ℝ) < 2 ^ sh := by positivity
  have rem : ((n % 2 ^ sh : Nat) : ℝ) + 1 ≤ 2 ^ sh := by exact_mod_cast Nat.mod_lt n (Nat.two_pow_pos sh)
  have eq := cast_eq_quotient (n := n) (sh := sh)
  rw [le_div_iff₀ pos, div_lt_iff₀ pos]
  constructor
  · nlinarith [h.le, Nat.cast_nonneg (α := ℝ) (n % 2 ^ sh)]
  · nlinarith [h.lt]

theorem Floors.le_whole_iff : y / 2 ^ sh ≤ (n / 2 ^ sh : Nat) ↔ n % 2 ^ sh = 0 ∧ sticky = false := by
  have pos : (0 : ℝ) < 2 ^ sh := by positivity
  have eq := cast_eq_quotient (n := n) (sh := sh)
  rw [div_le_iff₀ pos, h.exact_iff]
  constructor
  · intro hy
    have r0 : ((n % 2 ^ sh : Nat) : ℝ) = 0 := by linarith [h.le, Nat.cast_nonneg (α := ℝ) (n % 2 ^ sh)]
    exact ⟨by exact_mod_cast r0, by linarith [h.le]⟩
  · rintro ⟨r0, hy⟩
    rw [hy, eq, r0]
    push_cast
    linarith

include hs

/-- A value reaches the middle of two integers if what the shift leaves of it does. -/
theorem Floors.middle_le_iff : ((n / 2 ^ sh : Nat) : ℝ) + 1 / 2 ≤ y / 2 ^ sh ↔ 2 ^ sh ≤ 2 * (n % 2 ^ sh) := by
  have pos : (0 : ℝ) < 2 ^ sh := by positivity
  have eq := cast_eq_quotient (n := n) (sh := sh)
  rw [le_div_iff₀ pos]
  cases sh with
  | zero =>
    have exact_ : sticky = false := Bool.eq_false_iff.mpr fun hc => absurd (hs hc) (by decide)
    rw [h.exact_iff.mp exact_]
    norm_num [Nat.mod_one]
  | succ k =>
    have two : 2 ^ (k + 1) = 2 * 2 ^ k := pow_succ' 2 k
    have twoR : (2 : ℝ) ^ (k + 1) = 2 * (2 ^ k : Nat) := by push_cast; exact pow_succ' 2 k
    constructor
    · intro hy
      have : ((2 ^ k : Nat) : ℝ) < (n % 2 ^ (k + 1) + 1 : Nat) := by push_cast at *; linarith [h.lt]
      have : 2 ^ k < n % 2 ^ (k + 1) + 1 := by exact_mod_cast this
      omega
    · intro hr
      have : ((2 ^ k : Nat) : ℝ) ≤ (n % 2 ^ (k + 1) : Nat) := by exact_mod_cast (by omega : 2 ^ k ≤ n % 2 ^ (k + 1))
      linarith [h.le]

/-- A value passes the middle of two integers if what the shift leaves of it does, or is the middle and more lies below. -/
theorem Floors.le_middle_iff : y / 2 ^ sh ≤ ((n / 2 ^ sh : Nat) : ℝ) + 1 / 2 ↔
    2 * (n % 2 ^ sh) < 2 ^ sh ∨ 2 * (n % 2 ^ sh) = 2 ^ sh ∧ sticky = false := by
  have pos : (0 : ℝ) < 2 ^ sh := by positivity
  have eq := cast_eq_quotient (n := n) (sh := sh)
  obtain low | high := lt_or_ge (2 * (n % 2 ^ sh)) (2 ^ sh)
  · have : ¬ ((n / 2 ^ sh : Nat) : ℝ) + 1 / 2 ≤ y / 2 ^ sh := fun hc => absurd ((h.middle_le_iff hs).mp hc) low.not_ge
    exact iff_of_true (not_le.mp this).le (Or.inl low)
  · have highR : (2 : ℝ) ^ sh ≤ 2 * (n % 2 ^ sh : Nat) := by exact_mod_cast high
    rw [div_le_iff₀ pos, h.exact_iff]
    constructor
    · intro hy
      have tie : ((2 * (n % 2 ^ sh) : Nat) : ℝ) = (2 ^ sh : Nat) := by push_cast; linarith [h.le]
      exact Or.inr ⟨by exact_mod_cast tie, by linarith [h.le]⟩
    · rintro (hr | ⟨tie, hy⟩)
      · omega
      · have tieR : (2 : ℝ) * (n % 2 ^ sh : Nat) = 2 ^ sh := by exact_mod_cast tie
        rw [hy]
        linarith

theorem roundsTo_roundShift : RoundsTo mode neg (y / 2 ^ sh) (roundShift mode neg n sh sticky) := by
  obtain ⟨low, high⟩ := h.quotient_le (sh := sh)
  have whole := h.le_whole_iff (sh := sh)
  have middle := h.middle_le_iff hs
  have past := h.le_middle_iff hs
  refine ⟨n / 2 ^ sh, low, high, ?_⟩
  rcases mode with _ | _ | _ | _ | mode
  · simp only [RoundsUp, roundShift, middle, past]
    cases sticky <;> grind
  · simp [RoundsUp, roundShift]
  · simp only [RoundsUp, roundShift, whole]
    cases neg <;> cases sticky <;> simp
  · simp only [RoundsUp, roundShift, whole]
    cases neg <;> cases sticky <;> simp
  · simp only [RoundsUp, roundShift, middle]
    grind

end

/-! ## Rounding into a format -/

/-- The units that `Fmt.quantise` takes, above those of the least subnormal. -/
def Fmt.shift (F : Fmt) (m : Nat) (e : Int) : Nat := (max ((Nat.log2 m : Int) + e + 1 - F.prec) F.qmin - F.qmin).toNat

/-- A significand too large by one is the least of the next binade. -/
theorem Fmt.quantise_eq (F : Fmt) : ∃ c, F.quantise mode neg m e sticky =
      (if c = 2 ^ F.prec then (2 ^ (F.prec - 1), F.qmin + F.shift m e + 1) else (c, F.qmin + F.shift m e)) ∧
    c = if e ≤ F.qmin + F.shift m e then roundShift mode neg m (F.qmin + F.shift m e - e).toNat sticky
      else m * 2 ^ (e - (F.qmin + F.shift m e)).toNat := by
  have q : max ((Nat.log2 m : Int) + e + 1 - F.prec) F.qmin = F.qmin + F.shift m e := by rw [shift]; omega
  refine ⟨_, ?_, rfl⟩
  rw [quantise, q]

/-- Whether a value too large for a format becomes infinity (R51). -/
def toInfinity (mode : Nat) (neg : Bool) : Bool :=
  match mode with
  | 1 => false
  | 2 => neg
  | 3 => !neg
  | _ => true

/-- A format whose fields are not empty. -/
structure Fmt.Proper (F : Fmt) : Prop where
  prec : 2 ≤ F.prec
  ebits : 1 ≤ F.ebits

theorem Fmt.Proper.top_succ (hF : F.Proper) : F.top + 1 = (2 ^ F.ebits - 1) * F.hidden := by
  have : 1 ≤ (2 ^ F.ebits - 1) * F.hidden :=
    Nat.mul_pos (Nat.sub_pos_of_lt (Nat.one_lt_two_pow (by have := hF.ebits; omega))) F.hidden_pos
  rw [top]
  omega

/-- The sign bit of a format over magnitude bits. -/
def Fmt.bits (F : Fmt) (neg : Bool) (mag : Nat) : Nat := neg.toNat * 2 ^ (F.ebits + F.prec - 1) + mag

theorem Fmt.join_eq {ex frac : Nat} : F.join neg ex frac = F.bits neg (ex * F.hidden + frac) := by
  rw [join, bits, hidden, add_assoc]

theorem Fmt.overflow_eq (hF : F.Proper) :
    F.overflow mode neg = F.bits neg (if toInfinity mode neg then F.top + 1 else F.top) := by
  have two : 2 ≤ 2 ^ F.ebits := Nat.le_self_pow (by have := hF.ebits; omega) 2
  have pos := F.hidden_pos
  have last : (2 ^ F.ebits - 2) * F.hidden + (F.hidden - 1) = F.top := by
    have : (2 ^ F.ebits - 1) * F.hidden = (2 ^ F.ebits - 2) * F.hidden + F.hidden := by
      rw [← Nat.succ_mul]; congr 1; omega
    rw [top]
    omega
  show (if toInfinity mode neg then F.join neg (2 ^ F.ebits - 1) 0
    else F.join neg (2 ^ F.ebits - 2) (2 ^ (F.prec - 1) - 1)) = _
  rw [join_eq, join_eq, ← hidden, last, add_zero, ← hF.top_succ, ← apply_ite]

/-- Rounding gives the magnitude bits of the significand that the value rounds to, if they are those of a finite value. -/
theorem Fmt.roundFin_eq (hF : F.Proper) (hm : m ≠ 0) {c : Nat}
    (hq : F.quantise mode neg m e sticky =
      if c = 2 ^ F.prec then (2 ^ (F.prec - 1), F.qmin + F.shift m e + 1) else (c, F.qmin + F.shift m e))
    (hc : F.shift m e = 0 ∨ F.hidden ≤ c) (hc2 : c ≤ 2 * F.hidden) :
    F.roundFin mode neg m e sticky = F.bits neg (if F.top < F.shift m e * F.hidden + c then
      (if toInfinity mode neg then F.top + 1 else F.top) else F.shift m e * F.hidden + c) := by
  have pos := F.hidden_pos
  have two := F.two_pow_prec (by have := hF.prec; omega)
  have big (k : Nat) : 2 ^ F.ebits - 1 ≤ k ↔ F.top < k * F.hidden := by
    rw [← Nat.succ_le_iff, Nat.succ_eq_add_one, hF.top_succ, Nat.mul_le_mul_right_iff pos]
  rw [roundFin, if_neg hm, hq, ← hidden, two]
  set k := F.shift m e
  by_cases last : c = 2 * F.hidden
  · have ex : (F.qmin + (k : Int) + 1 - F.qmin).toNat + 1 = k + 2 := by omega
    have mag : k * F.hidden + c = (k + 2) * F.hidden := by rw [last]; ring
    rw [if_pos last]
    simp only [lt_irrefl, if_false, ex, Nat.sub_self]
    rw [mag, overflow_eq hF, join_eq, add_zero, ← apply_ite]
    simp only [big]
  · rw [if_neg last]
    by_cases low : c < F.hidden
    · obtain hk : k = 0 := by omega
      have fits : ¬ F.top < k * F.hidden + c := by
        have := hF.top_succ
        have : F.hidden ≤ (2 ^ F.ebits - 1) * F.hidden :=
          Nat.le_mul_of_pos_left _ (Nat.sub_pos_of_lt (Nat.one_lt_two_pow (by have := hF.ebits; omega)))
        rw [hk]
        omega
      simp only [low, if_true, join_eq]
      rw [if_neg fits, hk]
    · have ex : (F.qmin + (k : Int) - F.qmin).toNat + 1 = k + 1 := by omega
      have mag : k * F.hidden + c = (k + 1) * F.hidden + (c - F.hidden) := by
        rw [Nat.succ_mul]; omega
      have past : F.top < (k + 1) * F.hidden ↔ F.top < (k + 1) * F.hidden + (c - F.hidden) := by
        rw [← big]
        constructor
        · intro h
          exact lt_of_lt_of_le ((big _).mp h) (Nat.le_add_right _ _)
        · intro h
          have : (2 ^ F.ebits - 1) * F.hidden < (k + 2) * F.hidden := by
            rw [← hF.top_succ, Nat.succ_mul]
            omega
          have := Nat.lt_of_mul_lt_mul_right this
          omega
      simp only [low, if_false, ex]
      rw [mag, overflow_eq hF, join_eq, ← apply_ite]
      simp only [big, past]

/-- A value known by its multiple of a unit, rounded into magnitude bits. -/
def RoundedTo (units : Nat → Nat) (top mode : Nat) (neg : Bool) (x : ℝ) (mag : Nat) : Prop :=
  Rounded units top mode neg (fun h => (h : ℝ) ≤ 2 * x) (fun h => 2 * x ≤ h) mag

/-- What rounds a value into a significand at its shift rounds it into magnitude bits, with infinity after the largest ones. -/
theorem Fmt.roundedTo (hF : F.Proper) {k s c : Nat} (hk : k = 0 ∨ F.hidden ≤ s) (hs : s < 2 * F.hidden) (low : (s : ℝ) ≤ x / 2 ^ k)
    (high : x / 2 ^ k < s + 1) (up : RoundsUp mode neg s (x / 2 ^ k) → c = s + 1) (down : ¬ RoundsUp mode neg s (x / 2 ^ k) → c = s) :
    RoundedTo F.units F.top mode neg x (if F.top < k * F.hidden + c then (if toInfinity mode neg then F.top + 1 else F.top)
      else k * F.hidden + c) := by
  have pos : (0 : ℝ) < 2 ^ k := by positivity
  have at_ : F.units (k * F.hidden + s) = s * 2 ^ k := Fmt.units_join hk hs.le
  have next : F.units (k * F.hidden + s + 1) = (s + 1) * 2 ^ k := by
    rw [add_assoc]
    exact Fmt.units_join (by omega) (by omega)
  rw [le_div_iff₀ pos] at low
  rw [div_lt_iff₀ pos] at high
  have lowR : (F.units (k * F.hidden + s) : ℝ) ≤ x := by rw [at_]; push_cast; exact low
  have highR : x < (F.units (k * F.hidden + s + 1) : ℝ) := by rw [next]; push_cast; exact high
  have hcs : c = s ∨ c = s + 1 := (em _).elim (fun h => Or.inr (up h)) fun h => Or.inl (down h)
  by_cases fits : k * F.hidden + s ≤ F.top
  · -- the value lies between two magnitudes of the format
    have inf (h : RoundsUp mode neg s (x / 2 ^ k)) : toInfinity mode neg = true := by
      rcases mode with _ | _ | _ | _ | mode
      · rfl
      · exact h.elim
      · exact h.1
      · simp [toInfinity, h.1]
      · rfl
    have rounds (P : Prop) (h : RoundsUp mode neg s (x / 2 ^ k) ↔ P) :
        (P → (if F.top < k * F.hidden + c then (if toInfinity mode neg then F.top + 1 else F.top) else k * F.hidden + c) =
          k * F.hidden + s + 1) ∧
        (¬ P → (if F.top < k * F.hidden + c then (if toInfinity mode neg then F.top + 1 else F.top) else k * F.hidden + c) =
          k * F.hidden + s) := by
      rw [← h]
      refine ⟨fun hu => ?_, fun hd => by rw [down hd, if_neg fits.not_gt]⟩
      rw [up hu, inf hu, if_pos rfl]
      split <;> omega
    have even : F.hidden % 2 = 0 := by
      obtain ⟨j, hj⟩ : ∃ j, F.prec - 1 = j + 1 := ⟨F.prec - 2, by have := hF.prec; omega⟩
      rw [hidden, hj, pow_succ, Nat.mul_mod_left]
    have odd : (k * F.hidden + s) % 2 = s % 2 := by rw [Nat.add_mod, Nat.mul_mod, even]; simp
    have ge_ : (s : ℝ) + 1 / 2 ≤ x / 2 ^ k ↔ ((s * 2 ^ k + (s + 1) * 2 ^ k : Nat) : ℝ) ≤ 2 * x := by
      rw [le_div_iff₀ pos]; push_cast; constructor <;> intro h <;> linarith
    have le_ : x / 2 ^ k ≤ (s : ℝ) + 1 / 2 ↔ 2 * x ≤ ((s * 2 ^ k + (s + 1) * 2 ^ k : Nat) : ℝ) := by
      rw [div_le_iff₀ pos]; push_cast; constructor <;> intro h <;> linarith
    have whole : x / 2 ^ k ≤ s ↔ 2 * x ≤ ((2 * (s * 2 ^ k) : Nat) : ℝ) := by
      rw [div_le_iff₀ pos]; push_cast; constructor <;> intro h <;> linarith
    refine ⟨k * F.hidden + s, fits, by push_cast; linarith, fun _ => by push_cast; linarith, ?_⟩
    rw [at_, next]
    rcases mode with _ | _ | _ | _ | mode
    · exact rounds _ (by simp only [RoundsUp, ge_, le_, odd])
    · exact rounds _ (by simp only [RoundsUp])
    · exact rounds _ (by simp only [RoundsUp, whole])
    · exact rounds _ (by simp only [RoundsUp, whole])
    · exact rounds _ (by simp only [RoundsUp, ge_])
  · -- the value is past the largest magnitude
    have past : (F.units (F.top + 1) : ℝ) ≤ x :=
      le_trans (by exact_mod_cast F.units_strictMono.monotone (not_le.mp fits)) lowR
    have below : F.units F.top < F.units (F.top + 1) := F.units_strictMono (Nat.lt_succ_self _)
    have belowR : (F.units F.top : ℝ) < F.units (F.top + 1) := by exact_mod_cast below
    have ge_ : ((F.units F.top + F.units (F.top + 1) : Nat) : ℝ) ≤ 2 * x := by push_cast; linarith
    have le_ : ¬ 2 * x ≤ ((F.units F.top + F.units (F.top + 1) : Nat) : ℝ) := by push_cast; intro h; linarith
    have whole : ¬ 2 * x ≤ ((2 * F.units F.top : Nat) : ℝ) := by push_cast; intro h; linarith
    rw [if_pos (by omega)]
    refine ⟨F.top, le_rfl, by push_cast; linarith, fun h => absurd h (lt_irrefl _), ?_⟩
    rcases mode with _ | _ | _ | _ | mode
    · exact ⟨fun _ => if_pos rfl, fun h => absurd ⟨ge_, Or.inl le_⟩ h⟩
    · exact ⟨fun h => h.elim, fun _ => if_neg (by simp [toInfinity])⟩
    · exact ⟨fun h => if_pos h.1, fun h => if_neg fun hn => h ⟨hn, whole⟩⟩
    · exact ⟨fun h => if_pos (by simp [toInfinity, h.1]), fun h => if_neg fun hn => h ⟨by simpa [toInfinity] using hn, whole⟩⟩
    · exact ⟨fun _ => if_pos rfl, fun h => absurd ge_ h⟩

/-- A value whose leading digits are `m` in units of 2^e rounds as R49 to R51 say. -/
theorem Fmt.roundFin_rounded (hF : F.Proper) (hm : m ≠ 0) (hx : Floors (x / 2 ^ (e - F.qmin)) m sticky)
    (hs : sticky = true → F.prec ≤ Nat.log2 m) :
    ∃ mag, F.roundFin mode neg m e sticky = F.bits neg mag ∧ RoundedTo F.units F.top mode neg x mag := by
  have shift : (F.shift m e : Int) = max ((Nat.log2 m : Int) + e + 1 - F.prec) F.qmin - F.qmin := by rw [Fmt.shift]; omega
  obtain ⟨c, hq, hc⟩ := F.quantise_eq (mode := mode) (neg := neg) (m := m) (e := e) (sticky := sticky)
  set k := F.shift m e
  have two := F.two_pow_prec (by have := hF.prec; omega)
  have scale : x / 2 ^ k = x / 2 ^ (e - F.qmin) * (2 : ℝ) ^ (e - F.qmin - k) := by
    rw [zpow_sub₀ two_ne_zero (e - F.qmin), zpow_natCast]
    have := zpow_ne_zero (e - F.qmin) (two_ne_zero (α := ℝ))
    field_simp
  -- the significand is the value in units of 2^k, rounded
  have rounds : RoundsTo mode neg (x / 2 ^ k) c := by
    rw [hc]
    split
    · next le =>
      have hsh : x / 2 ^ k = x / 2 ^ (e - F.qmin) / 2 ^ (F.qmin + (k : Int) - e).toNat := by
        rw [scale, div_eq_mul_inv _ ((2 : ℝ) ^ (F.qmin + (k : Int) - e).toNat), ← zpow_natCast, ← zpow_neg,
          Int.toNat_of_nonneg (by omega)]
        congr 2
        ring
      rw [hsh]
      exact roundsTo_roundShift hx fun st => by have := hs st; omega
    · next gt =>
      have exact_ : sticky = false := Bool.eq_false_iff.mpr fun st => by have := hs st; omega
      have hsh : x / 2 ^ k = (m * 2 ^ (e - (F.qmin + (k : Int))).toNat : Nat) := by
        rw [scale, hx.exact_iff.mp exact_]
        push_cast
        rw [← zpow_natCast, Int.toNat_of_nonneg (by omega)]
        congr 2
        ring
      rw [hsh]
      exact roundsTo_self
  obtain ⟨s, low, high, up, down⟩ := rounds
  -- the leading digit bounds the significand
  have lead : ((2 ^ Nat.log2 m : Nat) : ℝ) ≤ m ∧ ((m + 1 : Nat) : ℝ) ≤ ((2 ^ (Nat.log2 m + 1) : Nat) : ℝ) :=
    ⟨by exact_mod_cast Nat.log2_self_le hm, by exact_mod_cast Nat.lt_log2_self⟩
  have hs2 : s < 2 * F.hidden := by
    have : (s : ℝ) < (2 * F.hidden : Nat) := by
      refine low.trans_lt ?_
      rw [scale, ← two]
      calc x / 2 ^ (e - F.qmin) * (2 : ℝ) ^ (e - F.qmin - k)
        _ < 2 ^ (Nat.log2 m + 1) * (2 : ℝ) ^ (e - F.qmin - k) := by
          have := hx.lt
          have := lead.2
          push_cast at this
          gcongr
          linarith
        _ = (2 : ℝ) ^ ((Nat.log2 m : Int) + 1 + (e - F.qmin - k)) := by
          rw [zpow_add₀ two_ne_zero]; norm_cast
        _ ≤ (2 : ℝ) ^ (F.prec : Int) := zpow_le_zpow_right₀ (by norm_num) (by omega)
        _ = ((2 ^ F.prec : Nat) : ℝ) := by norm_cast
    exact_mod_cast this
  have hk : k = 0 ∨ F.hidden ≤ s := by
    refine or_iff_not_imp_left.mpr fun hk => ?_
    have : (F.hidden : ℝ) < (s + 1 : Nat) := by
      push_cast
      refine lt_of_le_of_lt ?_ high
      rw [scale]
      calc (F.hidden : ℝ)
        _ = (2 : ℝ) ^ ((Nat.log2 m : Int) + (e - F.qmin - k)) := by
          rw [Fmt.hidden, show (Nat.log2 m : Int) + (e - F.qmin - k) = (F.prec - 1 : Nat) by have := hF.prec; omega]
          norm_cast
        _ = 2 ^ Nat.log2 m * (2 : ℝ) ^ (e - F.qmin - k) := by rw [zpow_add₀ two_ne_zero]; norm_cast
        _ ≤ x / 2 ^ (e - F.qmin) * (2 : ℝ) ^ (e - F.qmin - k) := by
          have := hx.le
          have := lead.1
          push_cast at this
          gcongr
          linarith
    exact Nat.lt_succ_iff.mp (by exact_mod_cast this)
  have hcs : c = s ∨ c = s + 1 := (em _).elim (fun h => Or.inr (up h)) fun h => Or.inl (down h)
  exact ⟨_, Fmt.roundFin_eq hF hm hq (by omega) (by omega), Fmt.roundedTo hF hk hs2 low high up down⟩

end Sys2Proof.Machine
end

section
/-!
Rounding into FP32, BF16 and FP16 (R50, R51, R54, R55): the words that a finite value gives, by the general rule of rounding.
-/
namespace Sys2Proof.Machine
variable {mode : Nat} {neg : Bool} {x : ℝ} {m p q : Nat} {e : Int} {w : Word} {h : Half}

theorem fmtF32_proper : fmtF32.Proper := ⟨by decide, by decide⟩
theorem fmtBf16_proper : fmtBf16.Proper := ⟨by decide, by decide⟩
theorem fmtF16_proper : fmtF16.Proper := ⟨by decide, by decide⟩

theorem units_fmtF32 : fmtF32.units = unitsOf := rfl
theorem top_fmtF32 : fmtF32.top = 0x7F7FFFFF := by decide
theorem top_fmtBf16 : fmtBf16.top = 0x7F7F := by decide
theorem top_fmtF16 : fmtF16.top = 0x7BFF := by decide

/-- A BF16 magnitude is that of the FP32 bits it is the upper half of. -/
theorem unitsOf_mul (v : Nat) : unitsOf (v * 2 ^ 16) = fmtBf16.units v * 2 ^ 16 := by
  obtain ⟨k, s, rfl, hk, hs⟩ := fmtBf16.exists_significand v
  have hid : fmtBf16.hidden = 2 ^ 7 := rfl
  have hid' : fmtF32.hidden = 2 ^ 23 := rfl
  rw [hid] at hk hs
  have wide : (k * fmtBf16.hidden + s) * 2 ^ 16 = k * fmtF32.hidden + s * 2 ^ 16 := by rw [hid, hid']; ring
  rw [← units_fmtF32, wide, Fmt.units_join (by omega) (by omega), Fmt.units_join (by omega) (by omega)]
  ring

theorem Rounded.congr {units : Nat → Nat} {top mag : Nat} {ge le ge' le' : Nat → Prop} (hr : Rounded units top mode neg ge le mag)
    (hge : ∀ h, ge h ↔ ge' h) (hle : ∀ h, le h ↔ le' h) : Rounded units top mode neg ge' le' mag := by
  obtain rfl : ge = ge' := funext fun h => propext (hge h)
  obtain rfl : le = le' := funext fun h => propext (hle h)
  exact hr

theorem Rounded.le_top {units : Nat → Nat} {top mag : Nat} {ge le : Nat → Prop} (hr : Rounded units top mode neg ge le mag) :
    mag ≤ top + 1 := by
  obtain ⟨v, hv, -, -, up, down⟩ := hr
  exact (em _).elim (fun h => by rw [up h]; omega) fun h => by rw [down h]; omega

/-- A change of unit. -/
theorem RoundedTo.mul {units : Nat → Nat} {top mag c : Nat} (hr : RoundedTo units top mode neg x mag) (hc : 0 < c) :
    RoundedTo (fun v => units v * c) top mode neg (x * c) mag := by
  have pos : (0 : ℝ) < c := by exact_mod_cast hc
  have ge_ (h : Nat) : ((h * c : Nat) : ℝ) ≤ 2 * (x * c) ↔ (h : ℝ) ≤ 2 * x := by
    push_cast; rw [← mul_assoc]; exact mul_le_mul_iff_left₀ pos
  have le_ (h : Nat) : 2 * (x * c) ≤ ((h * c : Nat) : ℝ) ↔ 2 * x ≤ (h : ℝ) := by
    push_cast; rw [← mul_assoc]; exact mul_le_mul_iff_left₀ pos
  have whole (v : Nat) : 2 * (units v * c) = 2 * units v * c := by ring
  obtain ⟨v, hv, low, high, round⟩ := hr
  refine ⟨v, hv, ?_, fun h => ?_, ?_⟩
  · simpa only [whole, ge_] using low
  · simpa only [whole, ge_] using high h
  · simpa only [← Nat.add_mul, whole, ge_, le_] using round

/-- The bits of a word are those of a value in units of 2^-149, rounded. -/
def RoundsReal (mode : Nat) (neg : Bool) (x : ℝ) (w : Word) : Prop :=
  RoundsF32 mode neg (fun h => (h : ℝ) ≤ 2 * x) (fun h => 2 * x ≤ h) w

/-- As `RoundsReal`, of a half, in units of 2^-149 too. -/
def RoundsRealBf16 (mode : Nat) (neg : Bool) (x : ℝ) (w : Half) : Prop :=
  RoundsBf16 mode neg (fun h => (h : ℝ) ≤ 2 * x) (fun h => 2 * x ≤ h) w

/-- The sign and the magnitude of bits that are put together. -/
theorem ofNat_bits {F : Fmt} {n mag : Nat} (hn : F.ebits + F.prec - 1 = n) (hm : mag < 2 ^ n) :
    (BitVec.ofNat (n + 1) (F.bits neg mag)).msb = neg ∧ (BitVec.ofNat (n + 1) (F.bits neg mag)).toNat % 2 ^ n = mag := by
  have fits : F.bits neg mag < 2 ^ (n + 1) := by
    rw [Fmt.bits, hn, pow_succ]
    cases neg <;> simp <;> omega
  rw [BitVec.msb_eq_decide, BitVec.toNat_ofNat, Nat.mod_eq_of_lt fits, Fmt.bits, hn, Nat.add_sub_cancel]
  cases neg
  · simp [hm, Nat.mod_eq_of_lt hm]
  · simp [Nat.mod_eq_of_lt hm]

theorem roundFin_realF32 {sticky : Bool} (hm : m ≠ 0) (hx : Floors (x / 2 ^ (e + 149)) m sticky)
    (hs : sticky = true → 24 ≤ Nat.log2 m) : RoundsReal mode neg x (BitVec.ofNat 32 (fmtF32.roundFin mode neg m e sticky)) := by
  obtain ⟨mag, bits, hr⟩ := Fmt.roundFin_rounded (mode := mode) (neg := neg) fmtF32_proper hm
    (by rw [show e - fmtF32.qmin = e + 149 by simp [fmtF32]]; exact hx) hs
  rw [top_fmtF32] at hr
  have small := hr.le_top
  obtain ⟨sign, mag_eq⟩ := ofNat_bits (F := fmtF32) (neg := neg) (n := 31) (mag := mag) rfl (by omega)
  rw [bits]
  refine ⟨sign, ?_⟩
  rw [mag_eq]
  exact hr

/-- A finite value rounded to FP32. -/
theorem toF32_rounds (hm : m ≠ 0) : RoundsReal mode neg (m * 2 ^ (e + 149)) (toF32 mode (.fin neg m e)) :=
  roundFin_realF32 hm (by rw [mul_div_cancel_right₀ _ (zpow_ne_zero _ two_ne_zero)]; exact floors_self) (by simp)

/-- A finite value rounded to BF16. -/
theorem toBf16_rounds (hm : m ≠ 0) : RoundsRealBf16 mode neg (m * 2 ^ (e + 149)) (toBf16 mode (.fin neg m e)) := by
  obtain ⟨mag, bits, hr⟩ := Fmt.roundFin_rounded (mode := mode) (neg := neg) (sticky := false) (x := m * 2 ^ (e + 133)) fmtBf16_proper hm
    (by rw [show e - fmtBf16.qmin = e + 133 by simp [fmtBf16], mul_div_cancel_right₀ _ (zpow_ne_zero _ two_ne_zero)]; exact floors_self)
    (by simp)
  rw [top_fmtBf16] at hr
  have small := hr.le_top
  obtain ⟨sign, mag_eq⟩ := ofNat_bits (F := fmtBf16) (neg := neg) (n := 15) (mag := mag) rfl (by omega)
  have unit : (m : ℝ) * 2 ^ (e + 133) * (2 ^ 16 : Nat) = m * 2 ^ (e + 149) := by
    rw [mul_assoc, show e + 149 = e + 133 + 16 by ring, zpow_add₀ two_ne_zero (e + 133)]
    norm_num
  have wide := hr.mul (c := 2 ^ 16) (by decide)
  rw [unit] at wide
  simp only [← unitsOf_mul] at wide
  have word : toBf16 mode (.fin neg m e) = BitVec.ofNat 16 (fmtBf16.bits neg mag) := congrArg (BitVec.ofNat 16) bits
  rw [word]
  refine ⟨sign, ?_⟩
  rw [mag_eq]
  exact wide

/-- A finite value rounded to FP16. -/
theorem toF16_rounds (hm : m ≠ 0) : RoundsF16 mode neg (fun h => (h : ℝ) ≤ 2 * (m * 2 ^ (e + 24))) (fun h => 2 * (m * 2 ^ (e + 24)) ≤ (h : ℝ))
    (BitVec.ofNat 16 (fmtF16.round mode (.fin neg m e))) := by
  obtain ⟨mag, bits, hr⟩ := Fmt.roundFin_rounded (mode := mode) (neg := neg) (sticky := false) (x := m * 2 ^ (e + 24)) fmtF16_proper hm
    (by rw [show e - fmtF16.qmin = e + 24 by simp [fmtF16], mul_div_cancel_right₀ _ (zpow_ne_zero _ two_ne_zero)]; exact floors_self)
    (by simp)
  rw [top_fmtF16] at hr
  have small := hr.le_top
  obtain ⟨sign, mag_eq⟩ := ofNat_bits (F := fmtF16) (neg := neg) (n := 15) (mag := mag) rfl (by omega)
  show RoundsF16 _ _ _ _ (BitVec.ofNat 16 (fmtF16.roundFin mode neg m e))
  rw [bits]
  refine ⟨sign, ?_⟩
  rw [mag_eq]
  exact hr

/-! ## Quotients -/

/-- The halves of a unit that a quotient reaches. -/
theorem ratio_halves (hq : 0 < q) (hx : x * q = p) :
    (∀ h : Nat, (h : ℝ) ≤ 2 * x ↔ h * q ≤ 2 * p) ∧ ∀ h : Nat, 2 * x ≤ h ↔ 2 * p ≤ h * q := by
  have pos : (0 : ℝ) < q := by exact_mod_cast hq
  constructor
  · intro h
    rw [← Nat.cast_le (α := ℝ), ← mul_le_mul_iff_left₀ pos]
    push_cast
    rw [mul_assoc, hx]
  · intro h
    rw [← Nat.cast_le (α := ℝ), ← mul_le_mul_iff_left₀ pos]
    push_cast
    rw [mul_assoc, hx]

theorem RoundsReal.ratio (hr : RoundsReal mode neg x w) (hq : 0 < q) (hx : x * q = p) :
    RoundsF32 mode neg (fun h => h * q ≤ 2 * p) (fun h => 2 * p ≤ h * q) w :=
  ⟨hr.1, hr.2.congr (ratio_halves hq hx).1 (ratio_halves hq hx).2⟩

theorem RoundsRealBf16.ratio (hr : RoundsRealBf16 mode neg x h) (hq : 0 < q) (hx : x * q = p) :
    RoundsBf16 mode neg (fun h => h * q ≤ 2 * p) (fun h => 2 * p ≤ h * q) h :=
  ⟨hr.1, hr.2.congr (ratio_halves hq hx).1 (ratio_halves hq hx).2⟩

/-- A value as a quotient of units. -/
theorem zpow_mul_two_pow (m : Nat) (d : Int) : (m : ℝ) * 2 ^ d * (2 ^ (-d).toNat : Nat) = (m * 2 ^ d.toNat : Nat) := by
  push_cast
  rw [mul_assoc, ← zpow_natCast, ← zpow_natCast, ← zpow_add₀ two_ne_zero]
  congr 2
  omega

end Sys2Proof.Machine
end

section
/-!
Overflow and underflow (R51): the statement of the row, from the general rule of rounding.
-/
namespace Sys2Proof.Machine
variable {mode : Nat} {neg : Bool} {x : ℝ} {m mag top : Nat} {e : Int} {units : Nat → Nat}

theorem RoundedTo.of_past_top (hr : RoundedTo units top mode neg x mag) (hu : StrictMono units) (hx : (units (top + 1) : ℝ) ≤ x) :
    mag = if toInfinity mode neg then top + 1 else top := by
  obtain ⟨v, hv, -, high, round⟩ := hr
  obtain rfl : v = top := by
    refine le_antisymm hv (not_lt.mp fun lt => high lt ?_)
    have : (units (v + 1) : ℝ) ≤ units (top + 1) := by exact_mod_cast hu.monotone (by omega)
    push_cast
    linarith
  have below : (units v : ℝ) < units (v + 1) := by exact_mod_cast hu (Nat.lt_succ_self v)
  have ge_ : ((units v + units (v + 1) : Nat) : ℝ) ≤ 2 * x := by push_cast; linarith
  have le_ : ¬ 2 * x ≤ ((units v + units (v + 1) : Nat) : ℝ) := by push_cast; linarith
  have whole : ¬ 2 * x ≤ ((2 * units v : Nat) : ℝ) := by push_cast; linarith
  rcases mode with _ | _ | _ | _ | mode
  · exact round.1 ⟨ge_, Or.inl le_⟩
  · exact round.2 id
  · cases neg
    · exact round.2 (by simp)
    · exact round.1 ⟨rfl, whole⟩
  · cases neg
    · exact round.1 ⟨rfl, whole⟩
    · exact round.2 (by simp)
  · exact round.1 ge_

/-- Bits are their sign and their magnitude. -/
theorem eq_of_msb_mag {n : Nat} {a b : BitVec (n + 1)} (sign : a.msb = b.msb) (mag : a.toNat % 2 ^ n = b.toNat % 2 ^ n) : a = b := by
  refine BitVec.eq_of_toNat_eq ?_
  have ha := a.isLt
  have hb := b.isLt
  rw [BitVec.msb_eq_decide, BitVec.msb_eq_decide, Nat.add_sub_cancel, decide_eq_decide] at sign
  rw [pow_succ] at ha hb
  have modA := Nat.div_add_mod a.toNat (2 ^ n)
  have modB := Nat.div_add_mod b.toNat (2 ^ n)
  have cases_ (k : Nat) (hk : k < 2 ^ n * 2) : k / 2 ^ n = if 2 ^ n ≤ k then 1 else 0 := by
    split
    · next h => exact Nat.div_eq_of_lt_le (by omega) (by omega)
    · next h => exact Nat.div_eq_of_lt (by omega)
  rw [← modA, ← modB, cases_ _ ha, cases_ _ hb, mag]
  simp only [sign]

theorem unitsBf16_strictMono : StrictMono fun v => unitsOf (v * 2 ^ 16) :=
  fun _ _ h => fmtF32.units_strictMono (Nat.mul_lt_mul_of_pos_right h (by decide))

/-- The magnitude of a value by its leading digit. -/
theorem two_zpow_le_of_log2 {k d : Int} (hm : m ≠ 0) (h : k ≤ (Nat.log2 m : Int) + d) : (2 : ℝ) ^ k ≤ m * 2 ^ d := by
  have lead : ((2 : ℝ) ^ Nat.log2 m) ≤ m := by exact_mod_cast Nat.log2_self_le hm
  calc (2 : ℝ) ^ k
    _ ≤ (2 : ℝ) ^ ((Nat.log2 m : Int) + d) := zpow_le_zpow_right₀ (by norm_num) h
    _ = 2 ^ Nat.log2 m * 2 ^ d := by rw [zpow_add₀ two_ne_zero, zpow_natCast]
    _ ≤ m * 2 ^ d := by gcongr

/-- The magnitude after the largest is 2^128. -/
theorem unitsOf_infinity : (unitsOf 0x7F800000 : ℝ) = 2 ^ (277 : Int) := by
  have : unitsOf 0x7F800000 = 2 ^ 23 * 2 ^ 254 := by decide
  rw [this, Nat.cast_mul, Nat.cast_pow, Nat.cast_pow, Nat.cast_ofNat, ← zpow_natCast, ← zpow_natCast, ← zpow_add₀ two_ne_zero]
  rfl

section
variable (hm : m ≠ 0)
include hm

/-- A value of 2^128 or more is an overflow of FP32 and of BF16. -/
theorem toF32_overflow (h : 129 ≤ (Nat.log2 m : Int) + e + 1) : (toF32 mode (.fin neg m e)).msb = neg ∧
    (toF32 mode (.fin neg m e)).toNat % 2 ^ 31 = if toInfinity mode neg then 0x7F800000 else 0x7F7FFFFF := by
  obtain ⟨sign, hr⟩ := toF32_rounds (mode := mode) (neg := neg) (e := e) hm
  refine ⟨sign, RoundedTo.of_past_top hr fmtF32.units_strictMono ?_⟩
  show (unitsOf 0x7F800000 : ℝ) ≤ _
  rw [unitsOf_infinity]
  exact two_zpow_le_of_log2 hm (by omega)

theorem toBf16_overflow (h : 129 ≤ (Nat.log2 m : Int) + e + 1) : (toBf16 mode (.fin neg m e)).msb = neg ∧
    (toBf16 mode (.fin neg m e)).toNat % 2 ^ 15 = if toInfinity mode neg then 0x7F80 else 0x7F7F := by
  obtain ⟨sign, hr⟩ := toBf16_rounds (mode := mode) (neg := neg) (e := e) hm
  refine ⟨sign, RoundedTo.of_past_top hr unitsBf16_strictMono ?_⟩
  show (unitsOf 0x7F800000 : ℝ) ≤ _
  rw [unitsOf_infinity]
  exact two_zpow_le_of_log2 hm (by omega)

theorem toF16_overflow (h : 17 ≤ (Nat.log2 m : Int) + e + 1) :
    (toF16 (.fin neg m e)).msb = neg ∧ (toF16 (.fin neg m e)).toNat % 2 ^ 15 = 0x7C00 := by
  obtain ⟨sign, hr⟩ := toF16_rounds (mode := 0) (neg := neg) (e := e) hm
  refine ⟨sign, RoundedTo.of_past_top hr fmtF16.units_strictMono ?_⟩
  have : (fmtF16.units (0x7BFF + 1) : ℝ) = 2 ^ (40 : Int) := by
    rw [show fmtF16.units (0x7BFF + 1) = 2 ^ 40 by decide]; norm_cast
  show (fmtF16.units (0x7BFF + 1) : ℝ) ≤ _
  rw [this]
  exact two_zpow_le_of_log2 hm (by omega)

end

theorem eq_ite_of_msb_mag {n inf last : Nat} {w a b : BitVec (n + 1)} {c : Prop} [Decidable c]
    (hw : w.msb = neg ∧ w.toNat % 2 ^ n = if !decide c then inf else last) (ha : a.msb = neg ∧ a.toNat % 2 ^ n = last)
    (hb : b.msb = neg ∧ b.toNat % 2 ^ n = inf) : w = if c then a else b := by
  obtain ⟨sign, mag⟩ := hw
  split
  · next h => exact eq_of_msb_mag (sign.trans ha.1.symm) (mag.trans (by simp [h, ha.2]))
  · next h => exact eq_of_msb_mag (sign.trans hb.1.symm) (mag.trans (by simp [h, hb.2]))

/-- Settles O7: the general rule of rounding, and what it makes of a value past the largest magnitude. -/
theorem overflow : Obligations.Overflow := by
  intro mode m e hmode hm
  have ratio (d : Int) : (m : ℝ) * 2 ^ (e + d) * (2 ^ (-d - e).toNat : Nat) = (m * 2 ^ (e - -d).toNat : Nat) := by
    rw [sub_neg_eq_add, ← zpow_mul_two_pow m (e + d), neg_add, add_comm (-e), sub_eq_add_neg]
  refine ⟨fun neg => ⟨(toF32_rounds hm).ratio (Nat.two_pow_pos _) (ratio 149),
    (toBf16_rounds hm).ratio (Nat.two_pow_pos _) (ratio 149), ?f16⟩, fun h => ?wide, fun h => ?half⟩
  case f16 =>
    obtain ⟨sign, hr⟩ := toF16_rounds (mode := mode) (neg := neg) (e := e) hm
    have halves := ratio_halves (Nat.two_pow_pos _) (ratio 24)
    exact ⟨sign, hr.congr halves.1 halves.2⟩
  case wide =>
    have inf (neg : Bool) : toInfinity mode neg = !decide (mode = 1 ∨ mode = if neg then 3 else 2) := by
      obtain rfl | rfl | rfl | rfl | rfl : mode = 0 ∨ mode = 1 ∨ mode = 2 ∨ mode = 3 ∨ mode = 4 := by omega
      all_goals cases neg <;> rfl
    have f32 (neg : Bool) := toF32_overflow (mode := mode) (neg := neg) hm h
    have bf16 (neg : Bool) := toBf16_overflow (mode := mode) (neg := neg) hm h
    simp only [inf] at f32 bf16
    exact ⟨eq_ite_of_msb_mag (f32 false) (by decide) (by decide), eq_ite_of_msb_mag (f32 true) (by decide) (by decide),
      eq_ite_of_msb_mag (bf16 false) (by decide) (by decide), eq_ite_of_msb_mag (bf16 true) (by decide) (by decide)⟩
  case half =>
    obtain ⟨sign, mag⟩ := toF16_overflow (neg := false) hm h
    obtain ⟨sign', mag'⟩ := toF16_overflow (neg := true) hm h
    exact ⟨eq_of_msb_mag sign mag, eq_of_msb_mag sign' mag'⟩

end Sys2Proof.Machine
end

section
/-!
FP32 and BF16 words as exact values: what the operations of R51 to R54 make of them before they are rounded, and that a value which a word
has rounds to the word under every mode.
-/
namespace Sys2Proof.Machine
variable {mode : Nat} {neg n1 n2 : Bool} {x : ℝ} {m k m1 m2 q : Nat} {e e1 e2 p : Int} {w a b c : Word} {h : Half}

/-! ## Finite words -/

theorem finite32_iff : Finite32 w ↔ f32Mag w < 0x7F800000 := by
  have lt := w.isLt
  simp only [Finite32, f32Mag, ne_eq, BitVec.toNat_eq, BitVec.extractLsb'_toNat, BitVec.ofNat_eq_ofNat, BitVec.toNat_ofNat,
    Nat.shiftRight_eq_div_pow]
  omega

theorem f32Units_eq : f32Units = unitsOf := by
  funext v
  rw [f32Units, f32Sig, f32Exp, unitsOf]
  split
  · next h => rw [Nat.div_eq_of_lt h, pow_zero, mul_one]
  · rw [Nat.add_comm]

theorem Finite32.not_nan (h : Finite32 w) : f32IsNan w = false := by
  rw [Bool.eq_false_iff, ne_eq, f32IsNan_iff]
  have := finite32_iff.mp h
  omega

theorem Finite32.numF32_eq (h : Finite32 w) : numF32 w = .fin w.msb (f32Sig (f32Mag w)) (-149 + f32Exp (f32Mag w)) := by
  rw [numF32_of_not_nan h.not_nan, if_neg (finite32_iff.mp h).ne]

/-- A finite value in units of 2^-149. -/
noncomputable def finVal (neg : Bool) (m : Nat) (e : Int) : ℝ := (signed neg m : ℝ) * 2 ^ (e + 149)

theorem finVal_word : finVal w.msb (f32Sig (f32Mag w)) (-149 + f32Exp (f32Mag w)) = signedUnits w := by
  have units := congrFun f32Units_eq (w.toNat % 2 ^ 31)
  rw [f32Units] at units
  rw [finVal, signedUnits, ← units, signed_mul, neg_add_cancel_comm, f32Mag, zpow_natCast]
  push_cast
  rfl

/-- A finite word is a value. -/
theorem Finite32.exists_fin (h : Finite32 w) : ∃ m e, numF32 w = .fin w.msb m e ∧ finVal w.msb m e = signedUnits w :=
  ⟨_, _, h.numF32_eq, finVal_word⟩

theorem signed_eq_zero : signed neg m = 0 ↔ m = 0 := by
  cases neg <;> simp [signed]

theorem finVal_eq_zero : finVal neg m e = 0 ↔ m = 0 := by
  rw [finVal, mul_eq_zero, or_iff_left (zpow_ne_zero _ two_ne_zero), Int.cast_eq_zero, signed_eq_zero]

theorem abs_finVal : |finVal neg m e| = m * 2 ^ (e + 149) := by
  rw [finVal, abs_mul, abs_of_pos (a := (2 : ℝ) ^ (e + 149)) (by positivity)]
  congr 1
  cases neg <;> simp [signed]

theorem finVal_neg_iff (hm : m ≠ 0) : finVal neg m e < 0 ↔ neg = true := by
  have pos : (0 : ℝ) < 2 ^ (e + 149) := by positivity
  have : (0 : ℝ) < m := by exact_mod_cast Nat.pos_of_ne_zero hm
  cases neg
  · simp only [finVal, signed, Bool.false_eq_true, if_false, iff_false, not_lt]
    push_cast
    positivity
  · simp only [finVal, signed, if_true, iff_true]
    push_cast
    nlinarith

/-! ## Exact operations -/

theorem signed_decide_natAbs (v : Int) : signed (decide (v < 0)) v.natAbs = v := by
  by_cases h : v < 0
  · simp only [signed, h, decide_true, if_true]; omega
  · simp only [signed, h, decide_false, Bool.false_eq_true, if_false]; omega

/-- A value in a lesser unit. -/
theorem finVal_eq_of_le {e' : Int} (h : e' ≤ e) : finVal neg m e = (signed neg (m * 2 ^ (e - e').toNat) : ℝ) * 2 ^ (e' + 149) := by
  rw [finVal, signed_mul]
  push_cast
  rw [mul_assoc, ← zpow_natCast, ← zpow_add₀ two_ne_zero, Int.toNat_of_nonneg (by omega)]
  congr 2
  ring

/-- The exact sum; its sign where it is zero follows R53. -/
theorem add_fin : ∃ n k e, Num.add mode (.fin n1 m1 e1) (.fin n2 m2 e2) = .fin n k e ∧
    finVal n k e = finVal n1 m1 e1 + finVal n2 m2 e2 ∧ (k = 0 → n = if n1 = n2 then n1 else mode == 2) := by
  have sum : finVal n1 m1 e1 + finVal n2 m2 e2 = ((signed n1 (m1 * 2 ^ (e1 - min e1 e2).toNat) +
      signed n2 (m2 * 2 ^ (e2 - min e1 e2).toNat) : Int) : ℝ) * 2 ^ (min e1 e2 + 149) := by
    rw [finVal_eq_of_le (min_le_left e1 e2), finVal_eq_of_le (min_le_right e1 e2)]
    push_cast
    ring
  rw [sum]
  simp only [Num.add, addFin]
  generalize signed n1 (m1 * 2 ^ (e1 - min e1 e2).toNat) + signed n2 (m2 * 2 ^ (e2 - min e1 e2).toNat) = v
  by_cases hv : v = 0
  · rw [if_pos hv, hv]
    exact ⟨_, _, _, rfl, by simp [finVal, signed_eq_zero], fun _ => rfl⟩
  · rw [if_neg hv]
    exact ⟨_, _, _, rfl, by rw [finVal, signed_decide_natAbs], fun h => absurd (Int.natAbs_eq_zero.mp h) hv⟩

theorem finVal_mul : finVal (n1 != n2) (m1 * m2) (e1 + e2) * 2 ^ 149 = finVal n1 m1 e1 * finVal n2 m2 e2 := by
  have sign : (signed (n1 != n2) (m1 * m2) : ℝ) = signed n1 m1 * signed n2 m2 := by
    cases n1 <;> cases n2 <;> simp [signed]
  rw [finVal, finVal, finVal, sign, show e1 + e2 + 149 = (e1 + 149) + (e2 + 149) + (-149 : Int) by ring,
    zpow_add₀ two_ne_zero (e1 + 149 + (e2 + 149)), zpow_add₀ two_ne_zero (e1 + 149)]
  have : (2 : ℝ) ^ (-149 : Int) * 2 ^ 149 = 1 := by norm_num
  linear_combination (signed n1 m1 * signed n2 m2 * (2 ^ (e1 + 149) * 2 ^ (e2 + 149)) : ℝ) * this

theorem finVal_scale {n : Int} : finVal neg m (e + n) = finVal neg m e * 2 ^ n := by
  rw [finVal, finVal, mul_assoc, ← zpow_add₀ two_ne_zero]
  congr 2
  ring

theorem neg_fin : Num.neg (.fin neg m e) = .fin (!neg) m e ∧ finVal (!neg) m e = -finVal neg m e := by
  refine ⟨rfl, ?_⟩
  cases neg <;> simp [finVal, signed]

/-! ## Rounding of exact values -/

theorem toF32_zero : toF32 mode (.fin neg 0 e) = if neg then 0x80000000 else 0 := by
  cases neg <;> rfl

theorem toBf16_zero : toBf16 mode (.fin neg 0 e) = if neg then 0x8000 else 0 := by
  cases neg <;> rfl

/-- A value that is a quotient of units: its sign, and its magnitude. -/
theorem ratio_of_finVal (hq : 0 < q) (h : finVal neg m e * q = p) (hp : p ≠ 0) :
    m ≠ 0 ∧ neg = decide (p < 0) ∧ (m * 2 ^ (e + 149) : ℝ) * q = p.natAbs := by
  have pos : (0 : ℝ) < q := by exact_mod_cast hq
  have hm : m ≠ 0 := fun hm => hp (by rw [finVal_eq_zero.mpr hm, zero_mul] at h; exact_mod_cast h.symm)
  refine ⟨hm, ?_, ?_⟩
  · rw [Bool.eq_iff_iff, decide_eq_true_iff, ← finVal_neg_iff (e := e) hm, ← Int.cast_lt_zero (R := ℝ), ← h]
    exact ⟨fun h => mul_neg_of_neg_of_pos h pos, fun h => not_le.mp fun hn => absurd (mul_nonneg hn pos.le) h.not_ge⟩
  · rw [← abs_finVal (neg := neg), Nat.cast_natAbs, Int.cast_abs, ← h, abs_mul, abs_of_pos pos]

theorem toF32_ratio (hq : 0 < q) (h : finVal neg m e * q = p) : RatioF32 mode p q (toF32 mode (.fin neg m e)) := by
  intro hp
  obtain ⟨hm, sign, mag⟩ := ratio_of_finVal hq h hp
  rw [← sign]
  exact (toF32_rounds hm).ratio hq mag

theorem toBf16_ratio (hq : 0 < q) (h : finVal neg m e * q = p) : RatioBf16 mode p q (toBf16 mode (.fin neg m e)) := by
  intro hp
  obtain ⟨hm, sign, mag⟩ := ratio_of_finVal hq h hp
  rw [← sign]
  exact (toBf16_rounds hm).ratio hq mag

theorem RoundedTo.of_exact {units : Nat → Nat} {top mag v : Nat} (hr : RoundedTo units top mode neg (units v) mag)
    (hu : StrictMono units) (hv : v ≤ top) : mag = v := by
  obtain ⟨u, hu', low, high, round⟩ := hr
  have le : u ≤ v := hu.le_iff_le.mp (by push_cast at low; exact_mod_cast (by linarith : (units u : ℝ) ≤ units v))
  obtain rfl : u = v := by
    refine le_antisymm le (not_lt.mp fun lt => high (by omega) ?_)
    have : (units (u + 1) : ℝ) ≤ units v := by exact_mod_cast hu.monotone lt
    push_cast
    linarith
  have below : (units u : ℝ) < units (u + 1) := by exact_mod_cast hu (Nat.lt_succ_self u)
  have ge_ : ¬ ((units u + units (u + 1) : Nat) : ℝ) ≤ 2 * units u := by push_cast; linarith
  have whole : 2 * (units u : ℝ) ≤ ((2 * units u : Nat) : ℝ) := by push_cast; exact le_rfl
  refine round.2 fun h => ?_
  rcases mode with _ | _ | _ | _ | mode
  · exact ge_ h.1
  · exact h
  · exact h.2 whole
  · exact h.2 whole
  · exact ge_ h

theorem abs_signedUnits : |(signedUnits w : ℝ)| = unitsOf (f32Mag w) := by
  rw [signedUnits, f32Mag, signed]
  split <;> simp

/-- A value that a word has rounds to the word, under every mode. -/
theorem toF32_numF32_of_mode (h : f32IsNan w = false) : toF32 mode (numF32 w) = w := by
  by_cases fin : Finite32 w
  · obtain ⟨m, e, eq, val⟩ := fin.exists_fin
    have mag : (m * 2 ^ (e + 149) : ℝ) = unitsOf (f32Mag w) := by rw [← abs_finVal (neg := w.msb), val, abs_signedUnits]
    rw [eq]
    by_cases hm : m = 0
    · have zero : f32Mag w = 0 := by
        rw [hm, Nat.cast_zero, zero_mul] at mag
        have : unitsOf (f32Mag w) = unitsOf 0 := by exact_mod_cast mag.symm
        exact fmtF32.units_strictMono.injective this
      rw [hm, toF32_zero]
      have := toNat_eq_f32Mag (w := w)
      rw [zero] at this
      refine BitVec.eq_of_toNat_eq ?_
      rw [this]
      split <;> rfl
    · obtain ⟨sign, hr⟩ := toF32_rounds (mode := mode) (neg := w.msb) (e := e) hm
      rw [mag] at hr
      have lt := finite32_iff.mp fin
      exact eq_of_msb_mag sign (RoundedTo.of_exact (v := f32Mag w) hr fmtF32.units_strictMono (by omega))
  · have inf : f32Mag w = 0x7F800000 := by
      have : ¬ 0x7F800000 < f32Mag w := by rw [← f32IsNan_iff, h]; decide
      rw [finite32_iff] at fin
      omega
    rw [numF32_of_not_nan h, if_pos inf]
    exact join_f32 (ex := 255) (frac := 0) inf.symm

/-- A half widened to FP32 (R54). -/
def widen16 (h : Half) : Word := h ++ (0 : Half)

theorem toNat_widen16 : (widen16 h).toNat = h.toNat * 2 ^ 16 := by
  rw [widen16, BitVec.toNat_append, Nat.shiftLeft_eq]
  exact Nat.or_zero _

theorem f32Mag_widen16 : f32Mag (widen16 h) = h.toNat % 2 ^ 15 * 2 ^ 16 := by
  rw [f32Mag, toNat_widen16]
  omega

theorem msb_widen16 : (widen16 h).msb = h.msb := by
  have lt := h.isLt
  rw [BitVec.msb_eq_decide, BitVec.msb_eq_decide, toNat_widen16, decide_eq_decide]
  omega

theorem toBf16_numBf16 (hn : f32IsNan (widen16 h) = false) : toBf16 mode (numBf16 h) = h := by
  show toBf16 mode (numF32 (widen16 h)) = h
  have lt := h.isLt
  by_cases fin : Finite32 (widen16 h)
  · obtain ⟨m, e, eq, val⟩ := fin.exists_fin
    have mag : (m * 2 ^ (e + 149) : ℝ) = unitsOf (h.toNat % 2 ^ 15 * 2 ^ 16) := by
      rw [← abs_finVal (neg := (widen16 h).msb), val, abs_signedUnits, f32Mag_widen16]
    rw [eq, msb_widen16]
    by_cases hm : m = 0
    · have zero : h.toNat % 2 ^ 15 = 0 := by
        rw [hm, Nat.cast_zero, zero_mul] at mag
        have : unitsOf (h.toNat % 2 ^ 15 * 2 ^ 16) = unitsOf (0 * 2 ^ 16) := by exact_mod_cast mag.symm
        exact unitsBf16_strictMono.injective this
      rw [hm, toBf16_zero]
      refine BitVec.eq_of_toNat_eq ?_
      rw [BitVec.msb_eq_decide]
      split
      · next s => simp at s ⊢; omega
      · next s => simp at s ⊢; omega
    · obtain ⟨sign, hr⟩ := toBf16_rounds (mode := mode) (neg := h.msb) (e := e) hm
      rw [mag] at hr
      have small := finite32_iff.mp fin
      rw [f32Mag_widen16] at small
      exact eq_of_msb_mag sign (RoundedTo.of_exact hr unitsBf16_strictMono (by omega))
  · have inf : f32Mag (widen16 h) = 0x7F800000 := by
      have : ¬ 0x7F800000 < f32Mag (widen16 h) := by rw [← f32IsNan_iff, hn]; decide
      rw [finite32_iff] at fin
      omega
    rw [numF32_of_not_nan hn, if_pos inf, msb_widen16]
    rw [f32Mag_widen16] at inf
    refine eq_of_msb_mag (ofNat_bits (F := fmtBf16) (n := 15) (mag := 0x7F80) rfl (by decide)).1
      ((ofNat_bits (F := fmtBf16) (neg := h.msb) (n := 15) (mag := 0x7F80) rfl (by decide)).2.trans ?_)
    omega

end Sys2Proof.Machine
end

section
/-!
NaNs, infinities and zeros (R51-R53, R55): what the operations make of them, and their bits through conversions.
-/
namespace Sys2Proof.Machine
variable {mode : Nat} {neg : Bool} {m : Nat} {e : Int} {w a b c : Word} {h k : Half} {x y z : Num}

/-! ## Words by their sign and magnitude -/

theorem eq_of_msb_f32Mag (sign : a.msb = b.msb) (mag : f32Mag a = f32Mag b) : a = b := eq_of_msb_mag sign mag

theorem shiftLeft_one_eq_iff {n : Nat} (hn : n < 2 ^ 31) : w <<< 1 = BitVec.ofNat 32 (2 * n) ↔ f32Mag w = n := by
  rw [BitVec.toNat_eq, BitVec.toNat_shiftLeft, BitVec.toNat_ofNat, f32Mag, Nat.shiftLeft_eq]
  omega

theorem f32Mag_of_inf (h : w <<< 1 = 0xFF000000) : f32Mag w = 0x7F800000 :=
  (shiftLeft_one_eq_iff (n := 0x7F800000) (by decide)).mp h

theorem f32Mag_eq_mod : f32Mag w = (w.setWidth 31).toNat := (BitVec.toNat_setWidth 31 w).symm

/-- A change of the sign leaves the magnitude. -/
theorem f32Mag_xor_sign : f32Mag (a ^^^ (b &&& 0x80000000)) = f32Mag a := by
  have mask : (0x80000000 : Word).setWidth 31 = 0#31 := by decide
  rw [f32Mag_eq_mod, f32Mag_eq_mod, BitVec.setWidth_xor, BitVec.setWidth_and, mask, BitVec.and_zero, BitVec.xor_zero]

theorem msb_xor_sign : (a ^^^ (b &&& 0x80000000)).msb = (a.msb != b.msb) := by
  have mask : (0x80000000 : Word).msb = true := by decide
  rw [BitVec.msb_xor, BitVec.msb_and, mask, Bool.and_true]

theorem f32Mag_flip : f32Mag (a ^^^ 0x80000000) = f32Mag a := f32Mag_xor_sign (b := 0x80000000)

theorem msb_flip : (a ^^^ 0x80000000).msb = !a.msb := by
  rw [show (a ^^^ 0x80000000).msb = (a.msb != true) from msb_xor_sign (b := 0x80000000)]
  cases a.msb <;> rfl

theorem numF32_of_inf (h : w <<< 1 = 0xFF000000) : numF32 w = .inf w.msb ∧ f32IsNan w = false := by
  have mag := f32Mag_of_inf h
  have nan : f32IsNan w = false := by
    rw [Bool.eq_false_iff, ne_eq, f32IsNan_iff, mag]
    exact lt_irrefl _
  exact ⟨by rw [numF32_of_not_nan nan, if_pos mag], nan⟩

theorem toF32_inf : toF32 mode (.inf neg) = if neg then 0xFF800000 else 0x7F800000 := by
  cases neg <;> rfl

theorem eq_of_inf (h : w <<< 1 = 0xFF000000) : w = if w.msb then 0xFF800000 else 0x7F800000 := by
  have eq := toF32_numF32_of_mode (mode := 0) (numF32_of_inf h).2
  rw [(numF32_of_inf h).1, toF32_inf] at eq
  exact eq.symm

theorem numF32_flip (fin : Finite32 a) (ha : numF32 a = .fin a.msb m e) : numF32 (a ^^^ 0x80000000) = .fin (!a.msb) m e := by
  have fin' : Finite32 (a ^^^ 0x80000000) := by rw [finite32_iff, f32Mag_flip]; exact finite32_iff.mp fin
  rw [fin.numF32_eq] at ha
  rw [fin'.numF32_eq, f32Mag_flip, msb_flip]
  injection ha with hn hm he
  rw [hm, he]

/-! ## NaNs -/

theorem toF32_nan : toF32 mode (.nan w) = w := by
  show BitVec.ofNat 32 w.toNat = w
  rw [BitVec.ofNat_toNat, BitVec.setWidth_eq]

theorem toBf16_nan : toBf16 mode (.nan w) = w.extractLsb' 16 16 ||| (0x40 : Half) := by
  show BitVec.ofNat 16 (w.extractLsb' 16 16 ||| (0x40 : Half)).toNat = _
  rw [BitVec.ofNat_toNat, BitVec.setWidth_eq]

theorem add_nan_left : Num.add mode (.nan w) y = .nan w := rfl

theorem add_nan_right (hx : x.isNan = false) : Num.add mode x (.nan w) = .nan w := by
  cases x with
  | nan v => cases hx
  | inf n => rfl
  | fin n m e => rfl

theorem mul_nan_right (hx : x.isNan = false) : Num.mul x (.nan w) = .nan w := by
  cases x with
  | nan v => cases hx
  | inf n => rfl
  | fin n m e => rfl

theorem fma_nan_middle (hx : x.isNan = false) : Num.fma mode x (.nan w) z = .nan w := by
  cases x with
  | nan v => cases hx
  | inf n => rfl
  | fin n m e => rfl

theorem fma_nan_last (hx : x.isNan = false) (hy : y.isNan = false) : Num.fma mode x y (.nan w) = .nan w := by
  cases x with
  | nan v => cases hx
  | inf n => cases y with
    | nan v => cases hy
    | inf n' => rfl
    | fin n' m e => rfl
  | fin n m e => cases y with
    | nan v => cases hy
    | inf n' => rfl
    | fin n' m' e' => rfl

/-- Without NaNs among its operands a fused product is the sum of the product. -/
theorem fma_eq (hx : x.isNan = false) (hy : y.isNan = false) (hz : z.isNan = false) :
    Num.fma mode x y z = (x.mul y).add mode z := by
  unfold Num.fma
  split
  · cases hx
  · cases hy
  · cases hz
  · rfl

theorem isNan_numF32_eq_false (h : f32IsNan w = false) : (numF32 w).isNan = false := isNan_numF32.trans h

theorem inf_mul_zero : Num.mul (.inf neg) (.fin n 0 e) = .nan defaultNan ∧ Num.mul (.fin n 0 e) (.inf neg) = .nan defaultNan :=
  ⟨rfl, rfl⟩

theorem inf_mul_fin {n : Bool} (hm : m ≠ 0) : Num.mul (.inf neg) (.fin n m e) = .inf (neg != n) ∧
    Num.mul (.fin n m e) (.inf neg) = .inf (n != neg) := ⟨if_neg hm, if_neg hm⟩

/-! ## NaNs of halves -/

theorem quiet_widen16 : (quiet (widen16 h)).extractLsb' 16 16 ||| (0x40 : Half) = h ||| 0x0040 := by
  have high : (quiet (widen16 h)).extractLsb' 16 16 = h ||| (0x40 : Half) := by
    refine BitVec.eq_of_getLsbD_eq fun i hi => ?_
    have mask : (0x00400000 : Word).getLsbD (16 + i) = (0x40 : Half).getLsbD i := by
      revert i
      decide
    rw [BitVec.getLsbD_extractLsb', quiet, BitVec.getLsbD_or, BitVec.getLsbD_or, mask, widen16, BitVec.getLsbD_append]
    simp [hi]
  rw [high, BitVec.or_assoc, BitVec.or_self]

theorem numBf16_of_nan (hn : f32IsNan (widen16 h) = true) : numBf16 h = .nan (quiet (widen16 h)) := numF32_of_nan hn

theorem toBf16_numBf16_of_nan (hn : f32IsNan (widen16 h) = true) : toBf16 mode (numBf16 h) = h ||| 0x0040 := by
  rw [numBf16_of_nan hn, toBf16_nan, quiet_widen16]

theorem toNat_append_add {n m : Nat} (a : BitVec n) (b : BitVec m) : (a ++ b).toNat = a.toNat * 2 ^ m + b.toNat := by
  rw [BitVec.toNat_append, ← Nat.shiftLeft_add_eq_or_of_lt b.isLt, Nat.shiftLeft_eq]

theorem toF16_quiet : toF16 (.nan (quiet a)) =
    a.extractLsb' 31 1 ++ (0x1F : BitVec 5) ++ ((0x200 : BitVec 10) ||| (a.extractLsb' 13 10 : BitVec 10)) := by
  have mag : (0x200 ||| (quiet a).toNat / 2 ^ 13 % 2 ^ 9 : Nat) = ((0x200 : BitVec 10) ||| (a.extractLsb' 13 10 : BitVec 10)).toNat := by
    refine Nat.eq_of_testBit_eq fun i => ?_
    rw [Nat.testBit_or, Nat.testBit_mod_two_pow, Nat.testBit_div_two_pow, quiet, BitVec.testBit_toNat, BitVec.testBit_toNat,
      BitVec.getLsbD_or, BitVec.getLsbD_or, BitVec.getLsbD_extractLsb']
    have bit : Nat.testBit 0x200 i = (0x200 : BitVec 10).getLsbD i := rfl
    rw [bit]
    obtain low | rfl | high := lt_trichotomy i 9
    · have clear : ∀ i < 9, (0x00400000 : Word).getLsbD (i + 13) = false := by decide
      rw [clear i low, Bool.or_false, decide_eq_true low, decide_eq_true (by omega : i < 10), Nat.add_comm]
    · rfl
    · rw [decide_eq_false (by omega : ¬ i < 9), decide_eq_false (by omega : ¬ i < 10), Bool.false_and, Bool.false_and]
  refine BitVec.eq_of_toNat_eq ?_
  rw [toNat_append_add, toNat_append_add, ← mag]
  show (BitVec.ofNat 16 ((quiet a).msb.toNat * 2 ^ 15 + 0x1F * 2 ^ 10 + (0x200 ||| (quiet a).toNat / 2 ^ 13 % 2 ^ 9))).toNat = _
  have sign : (quiet a).msb.toNat = (a.extractLsb' 31 1).toNat := by
    have lt := a.isLt
    rw [quiet, BitVec.msb_or, BitVec.extractLsb'_toNat, Nat.shiftRight_eq_div_pow, show (0x00400000 : Word).msb = false by decide,
      Bool.or_false, BitVec.msb_eq_decide]
    by_cases hs : 2 ^ (32 - 1) ≤ a.toNat
    · simp only [hs, decide_true, Bool.toNat_true]; omega
    · simp only [hs, decide_false, Bool.toNat_false]; omega
  have small : (0x200 ||| (quiet a).toNat / 2 ^ 13 % 2 ^ 9 : Nat) < 2 ^ 10 := by rw [mag]; exact BitVec.isLt _
  have lt := (a.extractLsb' 31 1).isLt
  rw [BitVec.toNat_ofNat, sign]
  simp only [BitVec.ofNat_eq_ofNat, BitVec.toNat_ofNat]
  omega

theorem numF16_of_nan (hx : h.extractLsb' 10 5 = (0x1F : BitVec 5)) (hf : h.extractLsb' 0 10 ≠ (0 : BitVec 10)) :
    numF16 h = .nan ((h.extractLsb' 15 1 ++ (0xFF : Byte) ++ (h.extractLsb' 0 10 : BitVec 10) ++ (0 : BitVec 13)) ||| 0x00400000) := by
  rw [BitVec.toNat_eq, BitVec.extractLsb'_toNat, Nat.shiftRight_eq_div_pow] at hx
  rw [ne_eq, BitVec.toNat_eq, BitVec.extractLsb'_toNat, Nat.shiftRight_eq_div_pow] at hf
  simp only [BitVec.ofNat_eq_ofNat, BitVec.toNat_ofNat] at hx hf
  have ex : h.toNat / 2 ^ 10 % 2 ^ 5 = 2 ^ 5 - 1 := hx
  have frac : h.toNat % 2 ^ 10 ≠ 0 := by omega
  refine (if_pos ex).trans ((if_neg frac).trans ?_)
  show Num.nan (quiet (BitVec.ofNat 32 (h.toNat / 2 ^ 15 % 2 * 2 ^ 31 + 0xFF * 2 ^ 23 + h.toNat % 2 ^ 10 * 2 ^ 13))) = _
  rw [quiet]
  congr 2
  refine BitVec.eq_of_toNat_eq ?_
  rw [toNat_append_add, toNat_append_add, toNat_append_add, BitVec.toNat_ofNat, BitVec.extractLsb'_toNat, BitVec.extractLsb'_toNat,
    Nat.shiftRight_eq_div_pow, Nat.shiftRight_eq_div_pow]
  simp only [BitVec.ofNat_eq_ofNat, BitVec.toNat_ofNat]
  omega

/-- Settles O5: a NaN operand is the result, quieted, and so are the conversions of one. -/
theorem nanResults : Obligations.NanResults := by
  refine ⟨fun m a b c => ⟨fun ha => ?_, fun ha hb => ?_, fun ha => ?_, fun ha hb => ?_, fun ha => ?_, fun ha hb => ?_, ?infs, ?halves,
    fun ha hb hc => ?_, by cases m <;> rfl, ?infZero⟩, fun m a ha => ?toHalf, fun h hn m => ?_, fun h hx hf m => ?_⟩
  · rw [numF32_of_nan ha, add_nan_left, toF32_nan, quiet]
  · rw [numF32_of_nan hb, add_nan_right (isNan_numF32_eq_false ha), toF32_nan, quiet]
  · rw [numF32_of_nan ha]; exact toF32_nan
  · rw [numF32_of_nan hb, mul_nan_right (isNan_numF32_eq_false ha), toF32_nan, quiet]
  · rw [numF32_of_nan ha]; exact toF32_nan
  · rw [numF32_of_nan hb, fma_nan_middle (isNan_numF32_eq_false ha), toF32_nan, quiet]
  case infs =>
    intro hc hne hci hai hb hb0
    obtain ⟨ca, na⟩ := numF32_of_inf hai
    obtain ⟨cc, nc⟩ := numF32_of_inf hci
    have hm : f32Sig (f32Mag b) ≠ 0 := fun h0 => hb0 ((shiftLeft_one_eq_iff (n := 0) (by decide)).mpr (f32Sig_eq_zero.mp h0))
    have signs : (a.msb != b.msb) ≠ c.msb := fun hs => hne (eq_of_msb_f32Mag (by rw [msb_xor_sign, hs])
      (by rw [f32Mag_xor_sign, f32Mag_of_inf hai, f32Mag_of_inf hci]))
    rw [fma_eq (isNan_numF32_eq_false na) (isNan_numF32_eq_false hb.not_nan) (isNan_numF32_eq_false nc), ca, cc, hb.numF32_eq,
      (inf_mul_fin hm).1]
    show toF32 m (if (a.msb != b.msb) = c.msb then .inf (a.msb != b.msb) else .nan defaultNan) = _
    rw [if_neg signs, toF32_nan]
    rfl
  case halves =>
    intro h k hn
    have eq := toBf16_numBf16_of_nan (mode := m) hn
    rw [numBf16_of_nan hn] at eq ⊢
    exact ⟨eq, eq⟩
  · rw [numF32_of_nan hc, fma_nan_last (isNan_numF32_eq_false ha) (isNan_numF32_eq_false hb), toF32_nan, quiet]
  case infZero =>
    rintro (rfl | rfl) (rfl | rfl)
    · exact ⟨rfl, rfl⟩
    · exact ⟨rfl, rfl⟩
    · exact ⟨rfl, rfl⟩
    · exact ⟨rfl, rfl⟩
  case toHalf =>
    rw [numF32_of_nan ha]
    refine ⟨?_, toF16_quiet⟩
    have high : (quiet a).extractLsb' 16 16 = a.extractLsb' 16 16 ||| (0x40 : Half) := by
      have mask : (0x00400000 : Word).extractLsb' 16 16 = (0x40 : Half) := by decide
      rw [quiet, ← mask]
      exact BitVec.extractLsb'_or ..
    rw [toBf16_nan, high, BitVec.or_assoc, BitVec.or_self]
  · rw [numBf16_of_nan hn, toF32_nan, quiet, widen16]
  · rw [numF16_of_nan hx hf, toF32_nan]

/-! ## Zero sums, and the lesser and the greater of two values -/

theorem add_opposite {n : Bool} {m1 m2 : Nat} {e1 e2 : Int} (h : finVal n m1 e1 + finVal (!n) m2 e2 = 0) :
    toF32 mode (Num.add mode (.fin n m1 e1) (.fin (!n) m2 e2)) = (if mode = 2 then 0x80000000 else 0) ∧
    toBf16 mode (Num.add mode (.fin n m1 e1) (.fin (!n) m2 e2)) = if mode = 2 then 0x8000 else 0 := by
  obtain ⟨s, k, e, eq, val, sign⟩ := add_fin (mode := mode) (n1 := n) (n2 := !n) (m1 := m1) (m2 := m2) (e1 := e1) (e2 := e2)
  obtain rfl : k = 0 := finVal_eq_zero.mp (val.trans h)
  have sign : s = (mode == 2) := (sign rfl).trans (if_neg (by simp))
  rw [eq, toF32_zero, toBf16_zero, sign]
  simp only [beq_iff_eq, and_self]

theorem add_flip (fin : Finite32 a) :
    toF32 mode ((numF32 a).add mode (numF32 (a ^^^ 0x80000000))) = (if mode = 2 then 0x80000000 else 0) ∧
    toBf16 mode ((numF32 a).add mode (numF32 (a ^^^ 0x80000000))) = if mode = 2 then 0x8000 else 0 := by
  obtain ⟨m, e, eq, -⟩ := fin.exists_fin
  rw [eq, numF32_flip fin eq]
  exact add_opposite (by rw [neg_fin.2, add_neg_cancel])

/-- A choice between two words, one of them or both a NaN. -/
theorem pickF32_nan {better : Num → Num → Bool} : (f32IsNan a → f32IsNan b = false → pickF32 better a b = b) ∧
    (f32IsNan a = false → f32IsNan b → pickF32 better a b = a) ∧ (f32IsNan a → f32IsNan b → pickF32 better a b = a) := by
  refine ⟨fun ha hb => ?_, fun ha hb => ?_, fun ha hb => ?_⟩
  · simp [pickF32, ha, hb]
  · simp [pickF32, ha, hb]
  · simp [pickF32, ha, hb]

/-- Settles O6: the exact zero sum is a zero with the sign of its mode, and a choice with a NaN takes the other operand. -/
theorem zeroSumsAndExtremes : Obligations.ZeroSumsAndExtremes := by
  refine ⟨fun m a ha => (add_flip ha).1, fun m a ha => ?bf16, fun m k₁ k₂ e₁ e₂ h => ?exact, fun a b => ?halves, rfl, rfl, rfl, rfl,
    fun a b => ?words, rfl, rfl, rfl, rfl⟩
  case bf16 =>
    have flip : widen16 (a ^^^ 0x8000) = widen16 a ^^^ 0x80000000 := by
      have sign : (0x80000000 : Word) = (0x8000 : Half) ++ (0 : Half) := by decide
      rw [widen16, widen16, sign, BitVec.xor_append, BitVec.xor_self]
      rfl
    have fin : Finite32 (widen16 a) := by
      have lt := a.isLt
      rw [ne_eq, BitVec.toNat_eq, BitVec.extractLsb'_toNat, Nat.shiftRight_eq_div_pow] at ha
      simp only [BitVec.ofNat_eq_ofNat, BitVec.toNat_ofNat] at ha
      rw [finite32_iff, f32Mag_widen16]
      omega
    have eq := (add_flip (mode := m) fin).2
    rw [← flip] at eq
    exact eq
  case exact =>
    have val : finVal false k₁ e₁ + finVal true k₂ e₂ = 0 := by
      have : ((k₁ * 2 ^ (e₁ - min e₁ e₂).toNat : Nat) : ℝ) = (k₂ * 2 ^ (e₂ - min e₁ e₂).toNat : Nat) := by exact_mod_cast h
      rw [finVal_eq_of_le (min_le_left e₁ e₂), finVal_eq_of_le (min_le_right e₁ e₂)]
      simp only [signed, Bool.false_eq_true, if_false, if_true, Int.cast_neg, Int.cast_natCast]
      rw [this]
      ring
    have val' : finVal true k₁ e₁ + finVal false k₂ e₂ = 0 := by
      have := (neg_fin (neg := false) (m := k₁) (e := e₁)).2
      have := (neg_fin (neg := true) (m := k₂) (e := e₂)).2
      simp only [Bool.not_true, Bool.not_false] at *
      linarith
    exact ⟨(add_opposite val).1, (add_opposite val').1⟩
  case halves =>
    have pick := @pickF32_nan (widen16 a) (widen16 b)
    have low : (numBf16 a).min (numBf16 b) = numF32 (pickF32 Num.lt (widen16 a) (widen16 b)) := min_max_numF32.1
    have high : (numBf16 a).max (numBf16 b) = numF32 (pickF32 (fun b a => a.lt b) (widen16 a) (widen16 b)) := min_max_numF32.2
    rw [low, high]
    refine ⟨fun ha hb => ?_, fun ha hb => ?_, fun ha hb => ?_⟩
    · rw [pick.1 ha hb, pick.1 ha hb]
      exact ⟨toBf16_numBf16 hb, toBf16_numBf16 hb⟩
    · rw [pick.2.1 ha hb, pick.2.1 ha hb]
      exact ⟨toBf16_numBf16 ha, toBf16_numBf16 ha⟩
    · rw [pick.2.2 ha hb, pick.2.2 ha hb]
      exact ⟨toBf16_numBf16_of_nan ha, toBf16_numBf16_of_nan ha⟩
  case words =>
    rw [min_max_numF32.1, min_max_numF32.2]
    refine ⟨fun ha hb => ?_, fun ha hb => ?_, fun ha hb => ?_⟩
    · rw [pickF32_nan.1 ha hb, pickF32_nan.1 ha hb]
      exact ⟨toF32_numF32 hb, toF32_numF32 hb⟩
    · rw [pickF32_nan.2.1 ha hb, pickF32_nan.2.1 ha hb]
      exact ⟨toF32_numF32 ha, toF32_numF32 ha⟩
    · rw [pickF32_nan.2.2 ha hb, pickF32_nan.2.2 ha hb, numF32_of_nan ha, toF32_nan, quiet]
      exact ⟨rfl, rfl⟩

end Sys2Proof.Machine
end

section
/-!
Signs, classes, comparisons and narrow elements (R183, R184, R191-R195), and the five rounding modes (R49).
-/
namespace Sys2Proof.Machine
variable {s : State} {r : TRef} {g : Group} {t : Thread} {f : Fields} {neg : Bool} {n sh k : Nat} {a b w old : Word} {h l : Half}

/-! ## Halves -/

theorem lowHalf_append : lowHalf (h ++ l) = l := by
  refine BitVec.eq_of_toNat_eq ?_
  have lt := l.isLt
  rw [lowHalf, BitVec.toNat_setWidth, toNat_append_add]
  omega

theorem highHalf_append : highHalf (h ++ l) = h := by
  refine BitVec.eq_of_toNat_eq ?_
  have lt := l.isLt
  have lt' := h.isLt
  rw [highHalf, BitVec.extractLsb'_toNat, toNat_append_add, Nat.shiftRight_eq_div_pow]
  omega

theorem extractLsb'_append_low {i : Nat} (hi : i + k ≤ 16) : (h ++ l : Word).extractLsb' i k = l.extractLsb' i k := by
  refine BitVec.eq_of_getLsbD_eq fun j hj => ?_
  rw [BitVec.getLsbD_extractLsb', BitVec.getLsbD_extractLsb', BitVec.getLsbD_append, if_pos (by omega)]

theorem extractLsb'_append_high {i : Nat} : (h ++ l : Word).extractLsb' (16 + i) k = h.extractLsb' i k := by
  refine BitVec.eq_of_getLsbD_eq fun j hj => ?_
  rw [BitVec.getLsbD_extractLsb', BitVec.getLsbD_extractLsb', BitVec.getLsbD_append, if_neg (by omega)]
  congr 2
  omega

/-! ## Signs -/

theorem signResult_signOp {fn : BitVec 6} {a b : BitVec (n + 1)} : SignResult fn a b (signOp fn.toNat a b) := by
  have top : BitVec.ofNat (n + 1) (2 ^ n) = BitVec.twoPow (n + 1) n := by
    refine BitVec.eq_of_toNat_eq ?_
    rw [BitVec.toNat_ofNat, BitVec.toNat_twoPow]
  have low (k : Nat) (hk : k < n) : (BitVec.twoPow (n + 1) n).getLsbD k = false := by
    rw [BitVec.getLsbD_twoPow, decide_eq_false (by omega : ¬ n = k), Bool.and_false]
  have high : (BitVec.twoPow (n + 1) n).msb = true := by
    rw [BitVec.msb_eq_getLsbD_last, BitVec.getLsbD_twoPow]
    simp
  refine ⟨fun k hk => ?_, fun h => ?_, fun h => ?_, fun h => ?_⟩
  · rw [Nat.add_sub_cancel] at hk
    unfold signOp
    dsimp only
    rw [Nat.add_sub_cancel, top]
    split
    · rw [BitVec.getLsbD_xor, low k hk, Bool.xor_false]
    · rw [BitVec.getLsbD_and, BitVec.getLsbD_not, low k hk]
      simp [(by omega : k < n + 1)]
    · rw [BitVec.getLsbD_or, BitVec.getLsbD_and, BitVec.getLsbD_and, BitVec.getLsbD_not, low k hk]
      simp [(by omega : k < n + 1)]
  · subst h
    show (a ^^^ BitVec.ofNat (n + 1) (2 ^ n)).msb = _
    rw [top, BitVec.msb_xor, high, Bool.xor_true]
  · subst h
    show (a &&& ~~~BitVec.ofNat (n + 1) (2 ^ n)).msb = _
    rw [top, BitVec.msb_and, BitVec.msb_not, high]
    simp
  · subst h
    show ((a &&& ~~~BitVec.ofNat (n + 1) (2 ^ n)) ||| (b &&& BitVec.ofNat (n + 1) (2 ^ n))).msb = _
    rw [top, BitVec.msb_or, BitVec.msb_and, BitVec.msb_and, BitVec.msb_not, high]
    simp

/-! ## Comparisons -/

theorem cmpF32_of_nan {fn : BitVec 6} (h : f32IsNan a ∨ f32IsNan b) (hf : fn.toNat ≤ 7) :
    cmpF32 fn.toNat a b = decide (fn = 1 ∨ fn = 7) := by
  have nan : (f32IsNan a || f32IsNan b) = true := by rw [Bool.or_eq_true]; exact h
  have code (k : Nat) (hk : k < 64) : fn = BitVec.ofNat 6 k ↔ fn.toNat = k := by
    rw [BitVec.toNat_eq, BitVec.toNat_ofNat, Nat.mod_eq_of_lt hk]
  have one := code 1 (by decide)
  have seven := code 7 (by decide)
  simp only [BitVec.ofNat_eq_ofNat, one, seven]
  generalize fn.toNat = c at *
  simp only [cmpF32, nan]
  split
  · simp
  · simp
  · simp
  · next h1 _ h7 => exact (decide_eq_false fun h => h.elim h1 h7).symm

theorem cmpF32_of_no_nan {c : Nat} (ha : f32IsNan a = false) (hb : f32IsNan b = false) : cmpF32 c a b = match c with
    | 0 => decide (f32Key a = f32Key b)
    | 1 => decide (f32Key a ≠ f32Key b)
    | 2 => decide (f32Key a < f32Key b)
    | 3 => decide (f32Key a ≤ f32Key b)
    | 4 => decide (f32Key a > f32Key b)
    | 6 => true
    | 7 => false
    | _ => decide (f32Key a ≥ f32Key b) := by
  have nan : (f32IsNan a || f32IsNan b) = false := by rw [ha, hb]; rfl
  rcases c with _ | _ | _ | _ | _ | _ | _ | _ | c
  all_goals simp [cmpF32, cmpInt, nan, beq_eq_decide, bne]

/-! ## Narrow elements -/

theorem satNarrow_lt {t : Ty} : (t = .i8 ∨ t = .n8 → satNarrow t a < 2 ^ 8) ∧ satNarrow t a < 2 ^ 16 := by
  have i8 := (BitVec.ofInt 8 (max (-128) (min a.toInt 127))).isLt
  have i16 := (BitVec.ofInt 16 (max (-32768) (min a.toInt 32767))).isLt
  constructor
  · rintro (rfl | rfl)
    · exact i8
    · simp only [satNarrow]; omega
  · unfold satNarrow
    dsimp only
    split
    · omega
    · omega
    · omega
    · omega

theorem packed_bytes {x y : Nat} (hx : x < 2 ^ 8) (hy : y < 2 ^ 8) : ((BitVec.ofNat 16 (x + 2 ^ 8 * y)).extractLsb' 0 8).toNat = x ∧
    ((BitVec.ofNat 16 (x + 2 ^ 8 * y)).extractLsb' 8 8).toNat = y := by
  simp only [BitVec.extractLsb'_toNat, BitVec.toNat_ofNat, Nat.shiftRight_eq_div_pow]
  omega

theorem packed_halves {x y : Nat} (hx : x < 2 ^ 16) (hy : y < 2 ^ 16) : (lowHalf (BitVec.ofNat 32 (x + 2 ^ 16 * y))).toNat = x ∧
    (highHalf (BitVec.ofNat 32 (x + 2 ^ 16 * y))).toNat = y := by
  simp only [lowHalf, highHalf, BitVec.toNat_setWidth, BitVec.extractLsb'_toNat, BitVec.toNat_ofNat, Nat.shiftRight_eq_div_pow]
  omega

/-- The low bits of a word, and above them copies of the highest of these for a signed type (R195). -/
theorem getLsbD_extendLow {t : Ty} {c : Nat} (hc : c ≤ 32) (hk : k < 32) : (extendLow t a c).getLsbD k =
    if k < c then a.getLsbD k else decide (t = .i32 ∧ 0 < c) && a.getLsbD (c - 1) := by
  have low : (a.toNat % 2 ^ c).testBit k = (decide (k < c) && a.getLsbD k) := by
    rw [Nat.testBit_mod_two_pow, BitVec.testBit_toNat]
  have small : a.toNat % 2 ^ c < 2 ^ c := Nat.mod_lt _ (Nat.two_pow_pos c)
  unfold extendLow
  dsimp only
  split
  · next h =>
    obtain ⟨ht, pos, top⟩ := h
    have ones : a.toNat % 2 ^ c + (2 ^ 32 - 2 ^ c) = 2 ^ c * (2 ^ (32 - c) - 1) + a.toNat % 2 ^ c := by
      rw [Nat.mul_sub, ← pow_add, Nat.add_sub_cancel' hc, mul_one, Nat.add_comm]
    rw [BitVec.getLsbD_ofNat, decide_eq_true hk, Bool.true_and, ones, Nat.testBit_two_pow_mul_add _ small, low,
      Nat.testBit_two_pow_sub_one]
    split
    · next h => simp [h]
    · next h => simp [ht, pos, top, (by omega : k - c < 32 - c)]
  · next h =>
    rw [BitVec.getLsbD_ofNat, decide_eq_true hk, Bool.true_and, low]
    split
    · next h => simp [h]
    · next h' => 
      rw [decide_eq_false h', Bool.false_and, eq_comm, Bool.and_eq_false_iff, decide_eq_false_iff_not]
      by_contra hc'
      push Not at hc'
      exact h ⟨hc'.1.1, hc'.1.2, by simpa using hc'.2⟩

/-! ## The rounding modes -/

theorem ceil_eq {P : Nat} (pos : 0 < P) : (n + P - 1) / P = if n % P = 0 then n / P else n / P + 1 := by
  have split_ := Nat.div_add_mod n P
  have small := Nat.mod_lt n pos
  have comm : P * (n / P) = n / P * P := Nat.mul_comm _ _
  split
  · next h => exact Nat.div_eq_of_lt_le (by omega) (by rw [Nat.succ_mul]; omega)
  · next h => exact Nat.div_eq_of_lt_le (by rw [Nat.succ_mul]; omega) (by rw [Nat.succ_mul, Nat.succ_mul]; omega)

theorem nearest_eq {P : Nat} (pos : 0 < P) : (2 * n + P) / (2 * P) = if P ≤ 2 * (n % P) then n / P + 1 else n / P := by
  have split_ := Nat.div_add_mod n P
  have small := Nat.mod_lt n pos
  have comm : P * (n / P) = n / P * P := Nat.mul_comm _ _
  have comm2 (x : Nat) : x * (2 * P) = 2 * (x * P) := by ring
  split
  · next h => exact Nat.div_eq_of_lt_le (by rw [comm2, Nat.add_mul]; omega) (by rw [comm2, Nat.add_mul, Nat.add_mul]; omega)
  · next h => exact Nat.div_eq_of_lt_le (by rw [comm2]; omega) (by rw [comm2, Nat.add_mul]; omega)

/-- Rounding to nearest takes the nearer multiple, and of two the even one. -/
theorem roundShift_nearest : (n ≤ roundShift 0 neg n sh false * 2 ^ sh → 2 * (roundShift 0 neg n sh false * 2 ^ sh - n) ≤ 2 ^ sh) ∧
    (roundShift 0 neg n sh false * 2 ^ sh ≤ n → 2 * (n - roundShift 0 neg n sh false * 2 ^ sh) ≤ 2 ^ sh) ∧
    (2 * (n % 2 ^ sh) = 2 ^ sh → roundShift 0 neg n sh false % 2 = 0) := by
  have split_ := Nat.div_add_mod n (2 ^ sh)
  have comm : 2 ^ sh * (n / 2 ^ sh) = n / 2 ^ sh * 2 ^ sh := Nat.mul_comm _ _
  have small := Nat.mod_lt n (Nat.two_pow_pos sh)
  have eq : roundShift 0 neg n sh false = if 2 * (n % 2 ^ sh) > 2 ^ sh ∨ 2 * (n % 2 ^ sh) = 2 ^ sh ∧ n / 2 ^ sh % 2 = 1 then n / 2 ^ sh + 1
      else n / 2 ^ sh := by
    simp [roundShift]
  rw [eq]
  split
  · next h => rw [Nat.succ_mul]; omega
  · next h => omega

theorem roundShift_directed : roundShift 1 neg n sh false = n / 2 ^ sh ∧
    roundShift 2 neg n sh false = (if neg then (n + 2 ^ sh - 1) / 2 ^ sh else n / 2 ^ sh) ∧
    roundShift 3 neg n sh false = (if neg then n / 2 ^ sh else (n + 2 ^ sh - 1) / 2 ^ sh) ∧
    roundShift 4 neg n sh false = (2 * n + 2 ^ sh) / (2 * 2 ^ sh) := by
  rw [ceil_eq (Nat.two_pow_pos sh), nearest_eq (Nat.two_pow_pos sh)]
  refine ⟨rfl, ?_, ?_, ?_⟩
  · cases neg <;> simp [roundShift]
  · cases neg <;> simp [roundShift]
  · simp [roundShift]

/-! ## The instructions -/

/-- Settles O4: each instruction gives the value that its body forms, and what that value is. -/
theorem floatMoves : Obligations.FloatMoves := by
  refine ⟨fun s r g t f => ⟨fun h => ?fsgn, fun h => ?fsetp, fun h => issueP_alone h rfl, fun h => ?cvt, fun h => ?cvti, fun h => ?pack,
    fun h => ?unpack, fun h => ?ext⟩, fun neg n sh => ?modes, fun mode w => toF32_numF32_of_mode⟩
  case fsgn =>
    refine ⟨_, issueD_alone h rfl, fun ht => ?_, fun ht => ?_, fun ht => ?_, fun ht => ?_⟩
    all_goals simp only [perElem, ht, lowHalf_append, highHalf_append]
    · exact signResult_signOp
    · exact ⟨signResult_signOp, signResult_signOp⟩
    · exact ⟨signResult_signOp, trivial⟩
    · exact ⟨signResult_signOp, trivial⟩
  case fsetp =>
    refine ⟨fun hn hf => issueP_alone h (cmpF32_of_nan hn hf), fun hx hy => ?_⟩
    have value {c : Nat} (hf : f.fn = BitVec.ofNat 6 c) (hc : c < 64) : cmpF32 f.fn.toNat (elemWord f.t (t.opA f)) (elemWord f.t (t.opB f)) =
        cmpF32 c (elemWord f.t (t.opA f)) (elemWord f.t (t.opB f)) := by
      rw [hf, BitVec.toNat_ofNat, Nat.mod_eq_of_lt hc]
    refine ⟨fun hf => ?_, fun hf => ?_, fun hf => ?_, fun hf => ?_, fun hf => ?_, fun hf => ?_, fun hf => ?_, fun hf => ?_⟩
    all_goals exact issueP_alone h ((value hf (by decide)).trans (cmpF32_of_no_nan hx hy))
  case cvt =>
    refine ⟨fun ht => ?_, fun ht => ?_, fun ht => ?_, fun ht => ?_⟩
    all_goals exact issueD_alone h (by simp only [cvtVal, ht])
  case cvti =>
    refine ⟨fun hf => issueD_alone h (if_pos hf), fun hf hn => issueD_alone h ?_, fun hf => issueD_alone h ?_⟩
    · rw [if_pos hf, ftoi, numF32_of_nan hn]
    · rw [if_neg (by rw [hf]; decide), itof]
  case pack =>
    refine ⟨fun ht => issueD_alone h (by simp only [packVal, ht]), fun ht hf => ⟨_, issueD_alone h rfl, ?_⟩,
      fun ht hf => ⟨_, issueD_alone h rfl, ?_⟩, fun ht => ⟨_, issueD_alone h rfl, ?_⟩⟩
    · have bytes := packed_bytes (satNarrow_lt.1 ht : satNarrow f.t (t.opA f) < _) (satNarrow_lt.1 ht : satNarrow f.t (t.opB f) < _)
      have val : packVal f.t (f.fn == 1) (t.oldD f) (t.opA f) (t.opB f) =
          highHalf (t.oldD f) ++ BitVec.ofNat 16 (satNarrow f.t (t.opA f) + 2 ^ 8 * satNarrow f.t (t.opB f)) := by
        rw [hf]
        rcases ht with ht | ht <;> simp [packVal, ht]
      rw [val, highHalf_append, extractLsb'_append_low (by decide), extractLsb'_append_low (by decide)]
      exact ⟨rfl, bytes⟩
    · have bytes := packed_bytes (satNarrow_lt.1 ht : satNarrow f.t (t.opA f) < _) (satNarrow_lt.1 ht : satNarrow f.t (t.opB f) < _)
      have val : packVal f.t (f.fn == 1) (t.oldD f) (t.opA f) (t.opB f) =
          BitVec.ofNat 16 (satNarrow f.t (t.opA f) + 2 ^ 8 * satNarrow f.t (t.opB f)) ++ lowHalf (t.oldD f) := by
        rw [hf]
        rcases ht with ht | ht <;> simp [packVal, ht]
      rw [val, lowHalf_append, extractLsb'_append_high (i := 0), extractLsb'_append_high (i := 8)]
      exact ⟨rfl, bytes⟩
    · have val : packVal f.t (f.fn == 1) (t.oldD f) (t.opA f) (t.opB f) =
          BitVec.ofNat 32 (satNarrow f.t (t.opA f) + 2 ^ 16 * satNarrow f.t (t.opB f)) := by
        rcases ht with ht | ht <;> simp [packVal, ht]
      rw [val]
      exact packed_halves satNarrow_lt.2 satNarrow_lt.2
  case unpack =>
    refine ⟨fun ht => ?_, fun ht => ?_, fun ht => ?_, fun ht => ?_, fun ht => ?_, fun ht => ?_⟩
    all_goals exact issueD_alone h (by simp only [unpackVal, ht])
  case ext =>
    refine ⟨_, issueD_alone h rfl, fun k hk => ?_⟩
    rw [getLsbD_extendLow (Nat.min_le_right _ _) hk]
    by_cases all : 32 ≤ (t.opB f).toNat
    · rw [Nat.min_eq_right all, if_pos hk, if_pos (by omega)]
    · rw [Nat.min_eq_left (by omega)]
  case modes => exact ⟨roundShift_nearest.1, roundShift_nearest.2.1, roundShift_nearest.2.2, roundShift_directed⟩

end Sys2Proof.Machine
end

section
/-!
Floating-point arithmetic (R51-R54, R181-R188): the operations on words as exact values, and the shadowed result of a lane (R130).
-/
namespace Sys2Proof.Machine
variable {s : State} {r : TRef} {g : Group} {t : Thread} {i : Instr} {f : Fields} {mode : Nat} {neg : Bool} {x y z : Num} {k m : Nat}
  {n e : Int} {a b c w v : Word}

/-! ## Exact operations on words -/

/-- A computed value is finite: its multiple of 2^-149 is p / q, and where it is zero its sign is `zero`. -/
structure IsRatio (x : Num) (p : Int) (q : Nat) (zero : Bool) : Prop where
  pos : 0 < q
  fin : ∃ n k e, x = .fin n k e ∧ finVal n k e * q = p ∧ (k = 0 → n = zero)

theorem IsRatio.f32 {p : Int} {q : Nat} {zero : Bool} (h : IsRatio x p q zero) :
    RatioF32 mode p q (toF32 mode x) ∧ (p = 0 → toF32 mode x = if zero then 0x80000000 else 0) := by
  obtain ⟨pos, n, k, e, rfl, val, sign⟩ := h
  refine ⟨toF32_ratio pos val, fun hp => ?_⟩
  have posR : (q : ℝ) ≠ 0 := by exact_mod_cast pos.ne'
  obtain rfl : k = 0 := finVal_eq_zero.mp (by rw [hp, Int.cast_zero] at val; exact (mul_eq_zero.mp val).resolve_right posR)
  rw [toF32_zero, sign rfl]

theorem IsRatio.bf16 {p : Int} {q : Nat} {zero : Bool} (h : IsRatio x p q zero) : RatioBf16 mode p q (toBf16 mode x) := by
  obtain ⟨pos, n, k, e, rfl, val, -⟩ := h
  exact toBf16_ratio pos val

section
variable (ha : Finite32 a) (hb : Finite32 b) (hc : Finite32 c)
include ha

theorem isRatio_scale : IsRatio ((numF32 a).scale n) (signedUnits a * 2 ^ n.toNat) (2 ^ (-n).toNat) a.msb := by
  obtain ⟨m, e, eq, val⟩ := ha.exists_fin
  refine ⟨Nat.two_pow_pos _, _, _, _, by rw [eq]; rfl, ?_, fun _ => rfl⟩
  rw [finVal_scale, val]
  push_cast
  rw [mul_assoc, ← zpow_natCast, ← zpow_natCast, ← zpow_add₀ two_ne_zero]
  congr 2
  omega

include hb

theorem isRatio_add : IsRatio ((numF32 a).add mode (numF32 b)) (signedUnits a + signedUnits b) 1
    (if a.msb = b.msb then a.msb else mode == 2) := by
  obtain ⟨m, e, eq, val⟩ := ha.exists_fin
  obtain ⟨m', e', eq', val'⟩ := hb.exists_fin
  obtain ⟨n, k, d, sum, valS, sign⟩ := add_fin (mode := mode) (n1 := a.msb) (n2 := b.msb) (m1 := m) (m2 := m') (e1 := e) (e2 := e')
  exact ⟨Nat.one_pos, n, k, d, by rw [eq, eq', sum], by rw [valS, val, val']; push_cast; ring, sign⟩

theorem isRatio_sub : IsRatio ((numF32 a).add mode (numF32 b).neg) (signedUnits a - signedUnits b) 1
    (if a.msb = b.msb then mode == 2 else a.msb) := by
  obtain ⟨m, e, eq, val⟩ := ha.exists_fin
  obtain ⟨m', e', eq', val'⟩ := hb.exists_fin
  obtain ⟨n, k, d, sum, valS, sign⟩ := add_fin (mode := mode) (n1 := a.msb) (n2 := !b.msb) (m1 := m) (m2 := m') (e1 := e) (e2 := e')
  refine ⟨Nat.one_pos, n, k, d, by rw [eq, eq', neg_fin.1, sum], by rw [valS, neg_fin.2, val, val']; push_cast; ring, fun hk => ?_⟩
  rw [sign hk]
  cases a.msb <;> cases b.msb <;> rfl

theorem isRatio_mul : IsRatio ((numF32 a).mul (numF32 b)) (signedUnits a * signedUnits b) (2 ^ 149) (a.msb ^^ b.msb) := by
  obtain ⟨m, e, eq, val⟩ := ha.exists_fin
  obtain ⟨m', e', eq', val'⟩ := hb.exists_fin
  refine ⟨Nat.two_pow_pos _, a.msb != b.msb, m * m', e + e', by rw [eq, eq']; rfl, ?_, fun _ => rfl⟩
  rw [Nat.cast_pow, Nat.cast_ofNat, finVal_mul, val, val', Int.cast_mul]

include hc

theorem isRatio_fma : IsRatio (Num.fma mode (numF32 a) (numF32 b) (numF32 c)) (signedUnits a * signedUnits b + signedUnits c * 2 ^ 149)
    (2 ^ 149) (if (a.msb ^^ b.msb) = c.msb then c.msb else mode == 2) := by
  obtain ⟨-, n, k, d, eq, val, -⟩ := isRatio_mul ha hb
  obtain ⟨m, e, eqA, -⟩ := ha.exists_fin
  obtain ⟨m', e', eqB, -⟩ := hb.exists_fin
  obtain ⟨m'', e'', eqC, valC⟩ := hc.exists_fin
  have sign : n = (a.msb ^^ b.msb) := by
    rw [eqA, eqB] at eq
    injection eq with hn
    exact hn.symm
  obtain ⟨n', k', d', sum, valS, signS⟩ := add_fin (mode := mode) (n1 := n) (n2 := c.msb) (m1 := k) (m2 := m'') (e1 := d) (e2 := e'')
  refine ⟨Nat.two_pow_pos _, n', k', d', ?_, ?_, fun hk => ?_⟩
  · rw [fma_eq (isNan_numF32_eq_false ha.not_nan) (isNan_numF32_eq_false hb.not_nan) (isNan_numF32_eq_false hc.not_nan), eq, eqC, sum]
  · rw [valS, add_mul, val, valC]
    push_cast
    ring
  · rw [signS hk, sign]
    split
    · next h => exact h
    · rfl

end

/-! ## Scaling -/

theorem RoundedTo.of_tiny {units : Nat → Nat} {top mag : Nat} {x : ℝ} (hr : RoundedTo units top mode neg x mag) (hu : StrictMono units)
    (h0 : units 0 = 0) (pos : 0 < x) (small : x < 1 / 2) : mag = if mode = 2 ∧ neg ∨ mode = 3 ∧ neg = false then 1 else 0 := by
  obtain ⟨v, -, low, -, round⟩ := hr
  have one (k : Nat) (hk : 0 < k) : (1 : ℝ) ≤ units k := by
    have : units 0 < units k := hu hk
    exact_mod_cast (by omega : 1 ≤ units k)
  obtain rfl : v = 0 := by
    by_contra hv
    have := one v (by omega)
    push_cast at low
    linarith
  have first := one 1 Nat.one_pos
  have ge_ : ¬ ((units 0 + units (0 + 1) : Nat) : ℝ) ≤ 2 * x := by
    push_cast
    have := Nat.cast_nonneg (α := ℝ) (units 0)
    linarith
  have whole : ¬ 2 * x ≤ ((2 * units 0 : Nat) : ℝ) := by rw [h0]; push_cast; linarith
  rcases mode with _ | _ | _ | _ | mode
  · exact round.2 fun h => ge_ h.1
  · exact round.2 id
  · cases neg
    · exact round.2 fun h => by cases h.1
    · exact round.1 ⟨rfl, whole⟩
  · cases neg
    · exact round.1 ⟨rfl, whole⟩
    · exact round.2 fun h => by cases h.1
  · exact (round.2 ge_).trans (if_neg (by omega)).symm

theorem small_of_log2 {d : Int} (hm : m ≠ 0) (h : (Nat.log2 m : Int) + 1 + d ≤ -1) : 0 < (m : ℝ) * 2 ^ d ∧ (m : ℝ) * 2 ^ d < 1 / 2 := by
  have pos : (0 : ℝ) < m := by exact_mod_cast Nat.pos_of_ne_zero hm
  refine ⟨by positivity, ?_⟩
  have lead : (m : ℝ) < 2 ^ (Nat.log2 m + 1) := by exact_mod_cast Nat.lt_log2_self
  calc (m : ℝ) * 2 ^ d
    _ < 2 ^ (Nat.log2 m + 1) * 2 ^ d := by gcongr
    _ = (2 : ℝ) ^ ((Nat.log2 m : Int) + 1 + d) := by rw [zpow_add₀ two_ne_zero]; norm_cast
    _ ≤ 2 ^ (-1 : Int) := zpow_le_zpow_right₀ (by norm_num) h
    _ = 1 / 2 := by norm_num

/-- A value below half of the least subnormal rounds to it or to a zero, as its mode and its sign say. -/
theorem toF32_tiny (hm : m ≠ 0) (h : (Nat.log2 m : Int) + e + 151 ≤ 0) : (toF32 mode (.fin neg m e)).msb = neg ∧
    (toF32 mode (.fin neg m e)).toNat % 2 ^ 31 = if mode = 2 ∧ neg ∨ mode = 3 ∧ neg = false then 1 else 0 := by
  obtain ⟨sign, hr⟩ := toF32_rounds (mode := mode) (neg := neg) (e := e) hm
  obtain ⟨pos, small⟩ := small_of_log2 (d := e + 149) hm (by omega)
  exact ⟨sign, RoundedTo.of_tiny hr fmtF32.units_strictMono rfl pos small⟩

theorem toBf16_tiny (hm : m ≠ 0) (h : (Nat.log2 m : Int) + e + 151 ≤ 0) : (toBf16 mode (.fin neg m e)).msb = neg ∧
    (toBf16 mode (.fin neg m e)).toNat % 2 ^ 15 = if mode = 2 ∧ neg ∨ mode = 3 ∧ neg = false then 1 else 0 := by
  obtain ⟨sign, hr⟩ := toBf16_rounds (mode := mode) (neg := neg) (e := e) hm
  obtain ⟨pos, small⟩ := small_of_log2 (d := e + 149) hm (by omega)
  exact ⟨sign, RoundedTo.of_tiny hr unitsBf16_strictMono rfl pos small⟩

theorem eq_of_same_msb_mag {l mag : Nat} {a b : BitVec (l + 1)} (ha : a.msb = neg ∧ a.toNat % 2 ^ l = mag)
    (hb : b.msb = neg ∧ b.toNat % 2 ^ l = mag) : a = b :=
  eq_of_msb_mag (ha.1.trans hb.1.symm) (ha.2.trans hb.2.symm)

theorem scale_of_not_finite (h : ¬ Finite32 a) : (numF32 a).scale n = numF32 a := by
  rw [finite32_iff] at h
  rw [numF32_eq]
  split
  · rfl
  · rw [if_pos (by omega)]
    rfl

/-- A word scaled past every bound rounds as one that is scaled to the bound. -/
theorem scale_clamp : toF32 mode ((numF32 a).scale (max (-1000) (min n 1000))) = toF32 mode ((numF32 a).scale n) ∧
    toBf16 mode ((numF32 a).scale (max (-1000) (min n 1000))) = toBf16 mode ((numF32 a).scale n) := by
  by_cases fin : Finite32 a
  · have lt := finite32_iff.mp fin
    rw [fin.numF32_eq]
    set sig := f32Sig (f32Mag a) with hsig
    set ex := f32Exp (f32Mag a) with hex
    have exp : ex < 254 := by rw [hex, f32Exp]; omega
    show toF32 mode (.fin a.msb sig (-149 + ex + max (-1000) (min n 1000))) = toF32 mode (.fin a.msb sig (-149 + ex + n)) ∧
      toBf16 mode (.fin a.msb sig (-149 + ex + max (-1000) (min n 1000))) = toBf16 mode (.fin a.msb sig (-149 + ex + n))
    by_cases hm : sig = 0
    · rw [hm, toF32_zero, toF32_zero, toBf16_zero, toBf16_zero]
      exact ⟨rfl, rfl⟩
    · have log : Nat.log2 sig < 24 := (Nat.log2_lt hm).mpr (by rw [hsig, f32Sig]; split <;> omega)
      obtain low | mid | high : n < -1000 ∨ -1000 ≤ n ∧ n ≤ 1000 ∨ 1000 < n := by omega
      · rw [min_eq_left (by omega), max_eq_left (by omega)]
        exact ⟨eq_of_same_msb_mag (toF32_tiny hm (by omega)) (toF32_tiny hm (by omega)),
          eq_of_same_msb_mag (toBf16_tiny hm (by omega)) (toBf16_tiny hm (by omega))⟩
      · rw [min_eq_left mid.2, max_eq_right mid.1]
        exact ⟨rfl, rfl⟩
      · rw [min_eq_right (by omega), max_eq_right (by omega)]
        exact ⟨eq_of_same_msb_mag (toF32_overflow hm (by omega)) (toF32_overflow hm (by omega)),
          eq_of_same_msb_mag (toBf16_overflow hm (by omega)) (toBf16_overflow hm (by omega))⟩
  · rw [scale_of_not_finite fin, scale_of_not_finite fin]
    exact ⟨rfl, rfl⟩

theorem perValue_congr {ty : Ty} {op op' : Num → Num → Num → Num} {old a b c : Word}
    (h32 : ∀ a b c, toF32 mode (op (numF32 a) (numF32 b) (numF32 c)) = toF32 mode (op' (numF32 a) (numF32 b) (numF32 c)))
    (h16 : ∀ a b c, toBf16 mode (op (numBf16 a) (numBf16 b) (numBf16 c)) = toBf16 mode (op' (numBf16 a) (numBf16 b) (numBf16 c))) :
    perValue ty mode op old a b c = perValue ty mode op' old a b c := by
  simp only [perValue, h32, h16]

/-! ## Integral values -/

/-- Every integer up to 2^24 is a magnitude. -/
theorem exists_unitsOf_eq {i : Nat} (h : i ≤ 2 ^ 24) : ∃ v ≤ 0x7F7FFFFF, unitsOf v = i * 2 ^ 149 := by
  obtain rfl | pos := i.eq_zero_or_pos
  · exact ⟨0, by decide, by decide⟩
  · have log : Nat.log2 i ≤ 24 := by
      by_contra hl
      have := (Nat.le_log2 pos.ne').mp (not_le.mp hl)
      omega
    have low : 2 ^ Nat.log2 i ≤ i := Nat.log2_self_le pos.ne'
    have high : i < 2 ^ (Nat.log2 i + 1) := Nat.lt_log2_self
    have hid : fmtF32.hidden = 2 ^ 23 := rfl
    obtain le | eq : Nat.log2 i ≤ 23 ∨ Nat.log2 i = 24 := by omega
    · -- shifted up to the hidden bit
      have lowS : 2 ^ 23 ≤ i * 2 ^ (23 - Nat.log2 i) := by
        calc 2 ^ 23 = 2 ^ Nat.log2 i * 2 ^ (23 - Nat.log2 i) := by rw [← pow_add, Nat.add_sub_cancel' le]
          _ ≤ _ := Nat.mul_le_mul_right _ low
      have highS : i * 2 ^ (23 - Nat.log2 i) ≤ 2 * 2 ^ 23 := by
        calc i * 2 ^ (23 - Nat.log2 i) ≤ 2 ^ (Nat.log2 i + 1) * 2 ^ (23 - Nat.log2 i) := Nat.mul_le_mul_right _ high.le
          _ = 2 * 2 ^ 23 := by rw [← pow_add, ← pow_succ']; congr 1; omega
      refine ⟨(149 - (23 - Nat.log2 i)) * 2 ^ 23 + i * 2 ^ (23 - Nat.log2 i), by omega, ?_⟩
      rw [← units_fmtF32, ← hid, Fmt.units_join (Or.inr (by rw [hid]; exact lowS)) (by rw [hid]; exact highS), mul_assoc, ← pow_add]
      congr 2
      omega
    · obtain rfl : i = 2 ^ 24 := by rw [eq] at low; omega
      exact ⟨151 * 2 ^ 23, by decide, by decide⟩

/-- An integral magnitude up to 2^24 rounds to itself. -/
theorem toF32_integral {i : Nat} (h : i ≤ 2 ^ 24) : (toF32 mode (.fin neg i 0)).msb = neg ∧ Finite32 (toF32 mode (.fin neg i 0)) ∧
    signedUnits (toF32 mode (.fin neg i 0)) = signed neg (i * 2 ^ 149) := by
  obtain rfl | pos := i.eq_zero_or_pos
  · rw [toF32_zero]
    cases neg
    · exact ⟨rfl, finite32_iff.mpr (by decide), rfl⟩
    · exact ⟨rfl, finite32_iff.mpr (by decide), rfl⟩
  · obtain ⟨v, hv, units⟩ := exists_unitsOf_eq h
    obtain ⟨sign, hr⟩ := toF32_rounds (mode := mode) (neg := neg) (e := 0) pos.ne'
    have val : (i * 2 ^ ((0 : Int) + 149) : ℝ) = unitsOf v := by rw [units]; push_cast; norm_cast
    rw [val] at hr
    have mag := RoundedTo.of_exact hr fmtF32.units_strictMono hv
    refine ⟨sign, finite32_iff.mpr (by rw [f32Mag, mag]; omega), ?_⟩
    rw [signedUnits, sign, mag, units]

theorem rounded_of_roundsTo {y : ℝ} {c X d : Nat} (h : RoundsTo mode neg y c) (hd : 0 < d) (hX : y * d = X) :
    Rounded (fun v => v) X mode neg (fun h => h * d ≤ 2 * X) (fun h => 2 * X ≤ h * d) c := by
  obtain ⟨s, low, high, up, down⟩ := h
  obtain ⟨ge_, le_⟩ := ratio_halves hd hX
  have fits : s ≤ X := by
    have one := (ge_ (2 * s)).mp (by push_cast; linarith)
    have := Nat.le_mul_of_pos_right (2 * s) hd
    omega
  refine ⟨s, fits, (ge_ _).mp (by push_cast; linarith), fun _ h => ?_, ?_⟩
  · have := (ge_ _).mpr h
    push_cast at this
    linarith
  · simp only [← ge_, ← le_]
    have mid : ((s + (s + 1) : Nat) : ℝ) ≤ 2 * y ↔ (s : ℝ) + 1 / 2 ≤ y := by
      push_cast; constructor <;> intro h <;> linarith
    have mid' : 2 * y ≤ ((s + (s + 1) : Nat) : ℝ) ↔ y ≤ (s : ℝ) + 1 / 2 := by
      push_cast; constructor <;> intro h <;> linarith
    have whole : 2 * y ≤ ((2 * s : Nat) : ℝ) ↔ y ≤ s := by
      push_cast; constructor <;> intro h <;> linarith
    simp only [mid, mid', whole]
    rcases mode with _ | _ | _ | _ | mode
    · exact ⟨up, down⟩
    · exact ⟨up, down⟩
    · exact ⟨up, down⟩
    · exact ⟨up, down⟩
    · exact ⟨up, down⟩

theorem f32Sig_lt {v : Nat} : f32Sig v < 2 ^ 24 := by
  rw [f32Sig]
  split <;> omega

theorem RoundsTo.le {y : ℝ} {c N : Nat} (h : RoundsTo mode neg y c) (hy : y < N) : c ≤ N := by
  obtain ⟨s, low, -, up, down⟩ := h
  have : s < N := by exact_mod_cast low.trans_lt hy
  exact (em _).elim (fun h => by rw [up h]; omega) fun h => by rw [down h]; omega

/-- `frnd` gives the integral value that the mode chooses, with the sign of its operand. -/
theorem integral_rounds (ha : Finite32 a) : ∃ i : Nat, Rounded (fun v => v) (signedUnits a).natAbs mode a.msb
      (fun h => h * 2 ^ 149 ≤ 2 * (signedUnits a).natAbs) (fun h => 2 * (signedUnits a).natAbs ≤ h * 2 ^ 149) i ∧
    (toF32 mode ((numF32 a).integral mode)).msb = a.msb ∧ Finite32 (toF32 mode ((numF32 a).integral mode)) ∧
    signedUnits (toF32 mode ((numF32 a).integral mode)) = signed a.msb (i * 2 ^ 149) := by
  have eq := ha.numF32_eq
  have val := finVal_word (w := a)
  have small := f32Sig_lt (v := f32Mag a)
  generalize f32Sig (f32Mag a) = k, -149 + (f32Exp (f32Mag a) : Int) = e at eq val small
  have abs_ : (k : ℝ) * 2 ^ e * (2 ^ 149 : Nat) = (signedUnits a).natAbs := by
    have two : ((2 ^ 149 : Nat) : ℝ) = 2 ^ (149 : Int) := by rw [Nat.cast_pow, Nat.cast_ofNat]; rfl
    rw [two, Nat.cast_natAbs, Int.cast_abs, ← val, abs_finVal, zpow_add₀ two_ne_zero, mul_assoc]
  by_cases whole : 0 ≤ e
  · have int : (k : ℝ) * 2 ^ e = (k * 2 ^ e.toNat : Nat) := by
      push_cast
      rw [← zpow_natCast, Int.toNat_of_nonneg whole]
    rw [int] at abs_
    refine ⟨k * 2 ^ e.toNat, rounded_of_roundsTo roundsTo_self (Nat.two_pow_pos _) abs_, ?_⟩
    have same : (numF32 a).integral mode = numF32 a := by rw [eq]; exact if_pos whole
    rw [same, toF32_numF32_of_mode ha.not_nan]
    refine ⟨rfl, ha, ?_⟩
    have mag : k * 2 ^ e.toNat * 2 ^ 149 = (signedUnits a).natAbs := by exact_mod_cast abs_
    rw [mag, signedUnits]
    cases a.msb <;> simp [signed]
  · have cut : (numF32 a).integral mode = .fin a.msb (roundShift mode a.msb k (-e).toNat false) 0 := by rw [eq]; exact if_neg whole
    have rounds := roundsTo_roundShift (mode := mode) (neg := a.msb) (sh := (-e).toNat) (floors_self (n := k)) (by simp)
    have quot : (k : ℝ) / 2 ^ (-e).toNat = k * 2 ^ e := by
      rw [div_eq_mul_inv, ← zpow_natCast, ← zpow_neg, Int.toNat_of_nonneg (by omega), neg_neg]
    rw [quot] at rounds
    have below : (k : ℝ) * 2 ^ e < (2 ^ 24 : Nat) := by
      have : (k : ℝ) < (2 ^ 24 : Nat) := by exact_mod_cast small
      have one : (2 : ℝ) ^ e ≤ 1 := zpow_le_one_of_nonpos₀ (by norm_num) (by omega)
      nlinarith [Nat.cast_nonneg (α := ℝ) k, zpow_pos (two_pos (α := ℝ)) e]
    rw [cut]
    exact ⟨_, rounded_of_roundsTo rounds (Nat.two_pow_pos _) abs_, toF32_integral (rounds.le below)⟩

end Sys2Proof.Machine
end

section
/-!
`fdot2` (R186), the results of lanes that give wrong ones (R130), and the arithmetic instructions of R181 to R188.
-/
namespace Sys2Proof.Machine
variable {s : State} {r : TRef} {g : Group} {t : Thread} {i : Instr} {f : Fields} {mode : Nat} {neg : Bool} {x y z : Num} {k m : Nat}
  {n e : Int} {a b c w v : Word}

/-! ## Infinities -/

theorem toF32_inf_of_mag (h : f32Mag w = 0x7F800000) : toF32 mode (.inf w.msb) = w :=
  join_f32 (ex := 255) (frac := 0) h.symm

theorem toF32_inf_flip (h : a <<< 1 = 0xFF000000) : toF32 mode (.inf !a.msb) = a ^^^ 0x80000000 := by
  rw [← msb_flip]
  exact toF32_inf_of_mag (f32Mag_flip.trans (f32Mag_of_inf h))

theorem toF32_inf_xor (h : a <<< 1 = 0xFF000000) : toF32 mode (.inf (a.msb != b.msb)) = a ^^^ (b &&& 0x80000000) := by
  rw [← msb_xor_sign]
  exact toF32_inf_of_mag (f32Mag_xor_sign.trans (f32Mag_of_inf h))

theorem signedUnits_eq_zero : signedUnits w = 0 ↔ f32Mag w = 0 := by
  rw [signedUnits, signed_eq_zero]
  exact fmtF32.units_strictMono.injective.eq_iff' fmtF32.units_zero

theorem inf_operations (ha : a <<< 1 = 0xFF000000) (hb : Finite32 b) (hc : Finite32 c) :
    toF32 mode ((numF32 a).add mode (numF32 b)) = a ∧ toF32 mode ((numF32 b).add mode (numF32 a)) = a ∧
    toF32 mode ((numF32 a).add mode (numF32 b).neg) = a ∧ toF32 mode ((numF32 b).add mode (numF32 a).neg) = a ^^^ 0x80000000 ∧
    (signedUnits b ≠ 0 → toF32 mode ((numF32 a).mul (numF32 b)) = a ^^^ (b &&& 0x80000000) ∧
      toF32 mode ((numF32 b).mul (numF32 a)) = a ^^^ (b &&& 0x80000000)) ∧
    toF32 mode (Num.fma mode (numF32 b) (numF32 c) (numF32 a)) = a ∧
    (∀ n, toF32 mode ((numF32 a).scale n) = a) ∧ toF32 mode ((numF32 a).integral mode) = a := by
  have inf := (numF32_of_inf ha).1
  have self : toF32 mode (.inf a.msb) = a := toF32_inf_of_mag (f32Mag_of_inf ha)
  rw [inf, hb.numF32_eq, hc.numF32_eq]
  refine ⟨self, self, self, toF32_inf_flip ha, fun h => ?_, self, fun _ => self, self⟩
  have hm : f32Sig (f32Mag b) ≠ 0 := fun h0 => h (signedUnits_eq_zero.mpr (f32Sig_eq_zero.mp h0))
  rw [(inf_mul_fin hm).1, (inf_mul_fin hm).2, bne_comm (a := b.msb)]
  exact ⟨toF32_inf_xor ha, toF32_inf_xor ha⟩

/-! ## `fdot2` -/

/-- The NaN that a value is. -/
def Num.nan? : Num → Option Word
  | .nan w => some w
  | _ => none

theorem findSome_nan {l : List Word} : (l.map numF32).findSome? Num.nan? = (l.find? f32IsNan).map quiet := by
  induction l with
  | nil => rfl
  | cons a l ih =>
    rw [List.map_cons, List.findSome?_cons, List.find?_cons]
    cases h : f32IsNan a with
    | true => rw [numF32_of_nan h]; rfl
    | false =>
      have none_ : (numF32 a).nan? = none := by
        rw [numF32_of_not_nan h]
        split <;> rfl
      rw [none_]
      exact ih

/-- The operands of `fdot2` in the order in which a NaN among them is taken. -/
def dotOperands (a b c : Word) : List Word := [widen16 (lowHalf a), widen16 (highHalf a), widen16 (lowHalf b), widen16 (highHalf b), c]

theorem fdot2Val_eq : fdot2Val mode a b c = (((dotOperands a b c).find? f32IsNan).map quiet).getD
    (toF32 mode (fdot2Val.sum3 mode ((numBf16 (lowHalf a)).mul (numBf16 (lowHalf b))) ((numBf16 (highHalf a)).mul (numBf16 (highHalf b)))
      (numF32 c))) := by
  have eq : fdot2Val mode a b c = match ((dotOperands a b c).map numF32).findSome? Num.nan? with
    | some w => w
    | none => toF32 mode (fdot2Val.sum3 mode ((numBf16 (lowHalf a)).mul (numBf16 (lowHalf b)))
        ((numBf16 (highHalf a)).mul (numBf16 (highHalf b))) (numF32 c)) := rfl
  rw [eq, findSome_nan]
  cases (dotOperands a b c).find? f32IsNan <;> rfl

/-- A product of values that are no NaN is the NaN of an invalid operation, or no NaN. -/
theorem mul_isNan (hx : x.isNan = false) (hy : y.isNan = false) (h : x.mul y ≠ .nan defaultNan) : (x.mul y).isNan = false := by
  cases x with
  | nan w => cases hx
  | inf n =>
    cases y with
    | nan w => cases hy
    | inf n' => rfl
    | fin n' m e =>
      by_cases hm : m = 0
      · exact absurd (if_pos hm) h
      · rw [(inf_mul_fin hm).1]; rfl
  | fin n m e =>
    cases y with
    | nan w => cases hy
    | inf n' =>
      by_cases hm : m = 0
      · exact absurd (if_pos hm) h
      · rw [(inf_mul_fin hm).2]; rfl
    | fin n' m' e' => rfl

/-- A sum of values that are no NaN is invalid for opposite infinities alone, and infinite for an infinity with anything else. -/
theorem add_cases_of_mode (hx : x.isNan = false) (hy : y.isNan = false) :
    (∃ n, x = .inf n ∧ y = .inf (!n) ∧ x.add mode y = .nan defaultNan) ∨
    (∃ n, (x = .inf n ∧ y ≠ .inf (!n) ∨ y = .inf n ∧ x ≠ .inf (!n)) ∧ x.add mode y = .inf n) ∨
    ((∀ n, x ≠ .inf n ∧ y ≠ .inf n) ∧ ∃ n k e, x.add mode y = .fin n k e) := by
  cases x with
  | nan w => cases hx
  | inf n =>
    cases y with
    | nan w => cases hy
    | inf n' =>
      by_cases h : n = n'
      · exact Or.inr (Or.inl ⟨n, Or.inl ⟨rfl, by simp [h]⟩, if_pos h⟩)
      · exact Or.inl ⟨n, rfl, by rw [Bool.eq_not_of_ne (Ne.symm h)], if_neg h⟩
    | fin n' m e => exact Or.inr (Or.inl ⟨n, Or.inl ⟨rfl, by simp⟩, rfl⟩)
  | fin n m e =>
    cases y with
    | nan w => cases hy
    | inf n' => exact Or.inr (Or.inl ⟨n', Or.inr ⟨rfl, by simp⟩, rfl⟩)
    | fin n' m' e' =>
      obtain ⟨s, k, d, eq, -⟩ := add_fin (mode := mode) (n1 := n) (n2 := n') (m1 := m) (m2 := m') (e1 := e) (e2 := e')
      exact Or.inr (Or.inr ⟨by simp, s, k, d, eq⟩)

/-- A sum of three terms, not all of them finite, is that of the sum of two and the third. -/
theorem sum3_of_not_fin (h : ∃ v ∈ [x, y, z], ∀ n m e, v ≠ .fin n m e) :
    fdot2Val.sum3 mode x y z = (x.add mode y).add mode z := by
  unfold fdot2Val.sum3
  split
  · obtain ⟨v, hv, h⟩ := h
    simp only [List.mem_cons, List.not_mem_nil, or_false] at hv
    obtain rfl | rfl | rfl := hv
    · exact absurd rfl (h _ _ _)
    · exact absurd rfl (h _ _ _)
    · exact absurd rfl (h _ _ _)
  · rfl

section
variable (hx : x.isNan = false) (hy : y.isNan = false)
include hx hy

/-- Both infinities among the terms make the sum invalid. -/
theorem sum3_of_both (pos : .inf true ∈ [x, y, z]) (neg : .inf false ∈ [x, y, z]) : fdot2Val.sum3 mode x y z = .nan defaultNan := by
  rw [sum3_of_not_fin ⟨_, pos, by simp⟩]
  simp only [List.mem_cons, List.not_mem_nil, or_false] at pos neg
  obtain ⟨n, -, -, eq⟩ | ⟨n, hn, eq⟩ | ⟨hn, p, k, e, eq⟩ := add_cases_of_mode (mode := mode) hx hy
  · rw [eq]
    rfl
  · have last : z = .inf !n := by cases n <;> grind
    rw [eq, last]
    exact if_neg (by simp)
  · obtain ⟨xt, yt⟩ := hn true
    obtain ⟨xf, yf⟩ := hn false
    grind

/-- One infinity among the terms is their sum. -/
theorem sum3_of_one (hz : z.isNan = false) (pos : .inf neg ∈ [x, y, z]) (opp : .inf (!neg) ∉ [x, y, z]) : fdot2Val.sum3 mode x y z = .inf neg := by
  rw [sum3_of_not_fin ⟨_, pos, by simp⟩]
  simp only [List.mem_cons, List.not_mem_nil, or_false, not_or] at pos opp
  obtain ⟨ox, oy, oz⟩ := opp
  obtain ⟨n, ax, ay, -⟩ | ⟨n, hn, eq⟩ | ⟨hn, p, k, e, eq⟩ := add_cases_of_mode (mode := mode) hx hy
  · obtain rfl | rfl : n = neg ∨ n = !neg := (em _).imp_right Bool.eq_not_of_ne
    · exact absurd ay.symm oy
    · exact absurd ax.symm ox
  · obtain rfl : n = neg := by
      by_contra hne
      obtain rfl := Bool.eq_not_of_ne hne
      obtain ⟨h, -⟩ | ⟨h, -⟩ := hn
      · exact ox h.symm
      · exact oy h.symm
    rw [eq]
    obtain ⟨n', bx, bz, -⟩ | ⟨n', hn', eq'⟩ | ⟨hn', -⟩ := add_cases_of_mode (mode := mode) (x := .inf n) rfl hz
    · cases bx
      exact absurd bz.symm oz
    · obtain rfl : n' = n := by
        obtain ⟨h, -⟩ | ⟨h, -⟩ := hn'
        · cases h
          rfl
        · by_contra hne
          obtain rfl := Bool.eq_not_of_ne hne
          exact oz h.symm
      exact eq'
    · exact absurd rfl (hn' n).1
  · obtain rfl : z = .inf neg := by
      have := hn neg
      grind
    rw [eq]
    rfl

end

/-- An invalid product among the terms makes the sum invalid. -/
theorem sum3_of_default (hx : x = .nan defaultNan ∨ x.isNan = false) (h : x = .nan defaultNan ∨ y = .nan defaultNan) :
    fdot2Val.sum3 mode x y z = .nan defaultNan := by
  rw [sum3_of_not_fin]
  · obtain rfl | hx := hx
    · rfl
    · obtain rfl | rfl := h
      · cases hx
      · rw [add_nan_right hx]
        rfl
  · obtain rfl | rfl := h
    · exact ⟨_, List.mem_cons_self, by simp⟩
    · exact ⟨_, List.mem_cons_of_mem _ List.mem_cons_self, by simp⟩

/-- The terms are summed exactly; a zero sum is −0 if every term is, and else as the mode says (R53). -/
theorem sum3_fin {n₁ n₂ n₃ : Bool} {k₁ k₂ k₃ : Nat} {e₁ e₂ e₃ : Int} : ∃ neg k e,
    fdot2Val.sum3 mode (.fin n₁ k₁ e₁) (.fin n₂ k₂ e₂) (.fin n₃ k₃ e₃) = .fin neg k e ∧
    (∀ unit, unit ≤ e → unit ≤ e₁ → unit ≤ e₂ → unit ≤ e₃ → signed neg k * 2 ^ (e - unit).toNat =
      signed n₁ k₁ * 2 ^ (e₁ - unit).toNat + signed n₂ k₂ * 2 ^ (e₂ - unit).toNat + signed n₃ k₃ * 2 ^ (e₃ - unit).toNat) ∧
    (k = 0 → neg = if n₁ = n₂ ∧ n₂ = n₃ then n₁ else decide (mode = 2)) := by
  set e := min e₁ (min e₂ e₃) with he
  have step {n : Bool} {k : Nat} {d unit : Int} (hd : e ≤ d) (hu : unit ≤ e) :
      signed n (k * 2 ^ (d - e).toNat) * 2 ^ (e - unit).toNat = signed n k * 2 ^ (d - unit).toNat := by
    rw [signed_mul]
    push_cast
    rw [mul_assoc, ← pow_add]
    congr 2
    omega
  simp only [fdot2Val.sum3, ← he]
  have units (v : Int) (hv : signed n₁ (k₁ * 2 ^ (e₁ - e).toNat) + signed n₂ (k₂ * 2 ^ (e₂ - e).toNat) +
      signed n₃ (k₃ * 2 ^ (e₃ - e).toNat) = v) (unit : Int) (hu : unit ≤ e) : v * 2 ^ (e - unit).toNat =
      signed n₁ k₁ * 2 ^ (e₁ - unit).toNat + signed n₂ k₂ * 2 ^ (e₂ - unit).toNat + signed n₃ k₃ * 2 ^ (e₃ - unit).toNat := by
    rw [← hv, add_mul, add_mul, step (by omega) hu, step (by omega) hu, step (by omega) hu]
  generalize signed n₁ (k₁ * 2 ^ (e₁ - e).toNat) + signed n₂ (k₂ * 2 ^ (e₂ - e).toNat) + signed n₃ (k₃ * 2 ^ (e₃ - e).toNat) = v at units
  have units := units v rfl
  by_cases hv : v = 0
  · rw [if_pos hv]
    refine ⟨_, 0, e, rfl, fun unit hu _ _ _ => ?_, fun _ => ?_⟩
    · rw [← units unit hu, hv, signed_eq_zero.mpr rfl]
    · rfl
  · rw [if_neg hv]
    exact ⟨_, _, e, rfl, fun unit hu _ _ _ => by rw [signed_decide_natAbs, units unit hu], fun h => absurd (Int.natAbs_eq_zero.mp h) hv⟩

/-- What `fdot2` gives, by its operands. -/
theorem fdot2Val_spec (mode : Nat) (a b c : Word) : let ops := dotOperands a b c
    let p := (numBf16 (lowHalf a)).mul (numBf16 (lowHalf b))
    let q := (numBf16 (highHalf a)).mul (numBf16 (highHalf b))
    let terms := [p, q, numF32 c]
    (∀ n, ops.find? (fun w => f32IsNan w) = some n → fdot2Val mode a b c = n ||| 0x00400000) ∧
    (ops.all (fun w => !f32IsNan w) →
      (p = .nan defaultNan ∨ q = .nan defaultNan ∨ (.inf true ∈ terms ∧ .inf false ∈ terms) → fdot2Val mode a b c = 0x7FC00000) ∧
      (p ≠ .nan defaultNan → q ≠ .nan defaultNan → ∀ neg, .inf neg ∈ terms → .inf (!neg) ∉ terms →
        fdot2Val mode a b c = if neg then 0xFF800000 else 0x7F800000) ∧
      (∀ n₁ k₁ e₁ n₂ k₂ e₂ n₃ k₃ e₃, p = .fin n₁ k₁ e₁ → q = .fin n₂ k₂ e₂ → numF32 c = .fin n₃ k₃ e₃ → ∃ neg k e,
        fdot2Val mode a b c = toF32 mode (.fin neg k e) ∧
        (∀ unit, unit ≤ e → unit ≤ e₁ → unit ≤ e₂ → unit ≤ e₃ →
          let units (neg : Bool) (k : Nat) (e : Int) : Int := Machine.signed neg k * 2 ^ (e - unit).toNat
          units neg k e = units n₁ k₁ e₁ + units n₂ k₂ e₂ + units n₃ k₃ e₃) ∧
        (k = 0 → neg = if n₁ = n₂ ∧ n₂ = n₃ then n₁ else decide (mode = 2)))) := by
  intro ops p q terms
  refine ⟨fun n hn => ?_, fun all => ?_⟩
  · rw [fdot2Val_eq, hn]
    rfl
  · have none_ : ops.find? f32IsNan = none := List.find?_eq_none.mpr fun w hw => by simpa using List.all_eq_true.mp all w hw
    have num {w : Word} (hw : w ∈ ops) : (numF32 w).isNan = false :=
      isNan_numF32_eq_false (by simpa using List.all_eq_true.mp all w hw)
    have eq : fdot2Val mode a b c = toF32 mode (fdot2Val.sum3 mode p q (numF32 c)) := by rw [fdot2Val_eq, none_]; rfl
    have hp : p ≠ .nan defaultNan → p.isNan = false :=
      mul_isNan (num (w := widen16 (lowHalf a)) (by simp [ops, dotOperands])) (num (w := widen16 (lowHalf b)) (by simp [ops, dotOperands]))
    have hq : q ≠ .nan defaultNan → q.isNan = false :=
      mul_isNan (num (w := widen16 (highHalf a)) (by simp [ops, dotOperands])) (num (w := widen16 (highHalf b)) (by simp [ops, dotOperands]))
    have hc : (numF32 c).isNan = false := num (by simp [ops, dotOperands])
    rw [eq]
    refine ⟨fun h => ?_, fun np nq neg pos opp => ?_, fun n₁ k₁ e₁ n₂ k₂ e₂ n₃ k₃ e₃ ep eq' ec => ?_⟩
    · by_cases bad : p = .nan defaultNan ∨ q = .nan defaultNan
      · rw [sum3_of_default ((em _).imp_right hp) bad, toF32_nan]
        rfl
      · rw [not_or] at bad
        obtain ⟨pos, neg⟩ := (h.resolve_left bad.1).resolve_left bad.2
        rw [sum3_of_both (hp bad.1) (hq bad.2) pos neg, toF32_nan]
        rfl
    · rw [sum3_of_one (hp np) (hq nq) hc pos opp, toF32_inf]
    · obtain ⟨neg, k, e, sum, units, sign⟩ := sum3_fin (mode := mode) (n₁ := n₁) (n₂ := n₂) (n₃ := n₃) (k₁ := k₁) (k₂ := k₂) (k₃ := k₃)
        (e₁ := e₁) (e₂ := e₂) (e₃ := e₃)
      exact ⟨neg, k, e, by rw [ep, eq', ec, sum], units, sign⟩

/-! ## Wrong results (R130) -/

theorem diverges_iff : diverges w v = true ↔ Diverging w v := by
  have zero (w : Word) : (w <<< 1 == 0) = decide (w.toNat % 2 ^ 31 = 0) := by
    rw [Bool.eq_iff_iff, beq_iff_eq, decide_eq_true_iff]
    exact shiftLeft_one_eq_iff (n := 0) (by decide)
  have key (w : Word) : ((w.extractLsb' 17 14).toNat : Int) = (w.toNat / 2 ^ 17 % 2 ^ 14 : Nat) := by
    rw [BitVec.extractLsb'_toNat, Nat.shiftRight_eq_div_pow]
  unfold diverges Diverging
  simp only [zero, key, Bool.or_eq_true, Bool.and_eq_true, bne_iff_ne, Bool.not_eq_true', decide_eq_true_iff, Bool.and_eq_false_iff,
    decide_eq_false_iff_not, not_and_or, or_assoc, and_assoc]

/-- What a lane unit that gives a wrong result next makes of an instruction whose results are shadowed. -/
theorem shadowed_wrong {ty : Ty} {val : Thread → Word} {p : Nat × Word} (hi : exec i = issueShadowed i f ty val)
    (h : Issues s r g t i f) (hp : WrongNext s g r p) :
    let w := intoElems ty (t.oldD f) p.2
    let s' := s.modCore g.core fun k => { k with flaws := k.flaws.filter (·.1 != p.1) }
    let bad := ∃ q ∈ (resultElems ty w).zip (resultElems ty (val t)), Diverging q.1 q.2
    (bad → Lands i s r f ((s'.kill r.grp).startTest g.core)) ∧
    (¬ bad → GoesOn i s r f (s'.modThread r fun u => u.writeD f.d w)) := by
  intro w s' bad
  have found : ((s.core g.core).flaws.find? fun q => q.1 == physicalLane (s.core g.core).lremap (r.tid % 64)) = some p := hp
  have lane : physicalLane (s.core g.core).lremap (r.tid % 64) = p.1 := by
    have := List.find?_some found
    exact (beq_iff_eq.mp this).symm
  have bad_iff : (((resultElems ty w).zip (resultElems ty (val t))).any fun q => diverges q.1 q.2) = true ↔ bad := by
    simp only [List.any_eq_true, diverges_iff]
    rfl
  have body : (match (s.core g.core).flaws.find? fun p => p.1 == physicalLane (s.core g.core).lremap (r.tid % 64) with
      | none => Act.next (s.modThread r fun t => t.writeD f.d (val t))
      | some p =>
        let w := intoElems ty (t.oldD f) p.2
        if ((resultElems ty w).zip (resultElems ty (val t))).any fun q => diverges q.1 q.2 then
          .jump (s.diverge r g.core (physicalLane (s.core g.core).lremap (r.tid % 64)))
        else .next ((s.spendFlaw g.core (physicalLane (s.core g.core).lremap (r.tid % 64))).modThread r fun t => t.writeD f.d w)) =
      if ((resultElems ty w).zip (resultElems ty (val t))).any fun q => diverges q.1 q.2 then
        .jump ((s'.kill r.grp).startTest g.core) else .next (s'.modThread r fun u => u.writeD f.d w) := by
    rw [found, lane]
    rfl
  constructor
  · intro hb
    rw [if_pos (bad_iff.mpr hb)] at body
    rw [Lands, hi]
    exact issueEach_lands h body
  · intro hb
    rw [if_neg fun hc => hb (bad_iff.mp hc)] at body
    rw [GoesOn, hi]
    exact issueEach_goesOn h body

/-! ## The instructions -/

theorem perValue_scale {old : Word} : perValue f.t mode (fun x _ _ => x.scale (max (-1000) (min n 1000))) old a 0 0 =
    perValue f.t mode (fun x _ _ => x.scale n) old a 0 0 :=
  perValue_congr (fun _ _ _ => scale_clamp.1) fun _ _ _ => scale_clamp.2

/-- The result of an operation on exact values, rounded once. -/
def exactResult (f : Fields) (op : Nat → Num → Num → Num → Num) (t : Thread) : Word :=
  perValue f.t f.m.toNat (op f.m.toNat) (t.oldD f) (t.opA f) (t.opB f) (t.opC f)

theorem yields_issueF {op : Nat → Num → Num → Num → Num} (hi : exec i = issueF i f op) (h : Issues s r g t i f) (sound : SoundLane s g r) :
    Yields i s r f (exactResult f op t) := by
  rw [Yields, GoesOn, hi]
  exact issueF_alone h sound

theorem yields_issueShadowed {ty : Ty} {val : Thread → Word} (hi : exec i = issueShadowed i f ty val) (h : Issues s r g t i f)
    (sound : SoundLane s g r) : Yields i s r f (val t) := by
  rw [Yields, GoesOn, hi]
  exact issueShadowed_alone h rfl sound

/-- Settles O3: each result is the exact one rounded once, and a wrong one of a lane is held against its shadow. -/
theorem floatArithmetic : Obligations.FloatArithmetic := by
  refine ⟨fun s r g t f sound => ?sound, fun m a b c => ⟨fun ha hb hc => ?f32, fun a b c ha hb hc => ?bf16, fun ha hb hc => ?inf⟩,
    fun m a b c => fdot2Val_spec m a b c, fun s r g t f => ?wrong⟩
  case sound =>
    refine ⟨fun h => yields_issueF (op := fun m a b _ => a.add m b) rfl h sound,
      fun h => yields_issueF (op := fun m a b _ => a.add m b.neg) rfl h sound,
      fun h => yields_issueF (op := fun _ a b _ => a.mul b) rfl h sound,
      fun h => yields_issueF (op := fun m a b c => Num.fma m a b c) rfl h sound,
      fun h => yields_issueF (op := fun _ a b _ => a.min b) rfl h sound,
      fun h => yields_issueF (op := fun _ a b _ => a.max b) rfl h sound,
      fun h => yields_issueShadowed (val := fun t => faddminVal f.t f.m.toNat (t.oldD f) (t.opA f) (t.opB f) (t.opC f)) rfl h sound,
      fun h => yields_issueShadowed (val := fun t => fdot2Val f.m.toNat (t.opA f) (t.opB f) (t.opC f)) rfl h sound, fun h => ?_,
      fun h => yields_issueF (op := fun m a _ _ => a.integral m) rfl h sound⟩
    rw [← perValue_scale]
    exact yields_issueShadowed (val := fun t => perValue f.t f.m.toNat (fun a _ _ => a.scale (max (-1000) (min (t.opB f).toInt 1000)))
      (t.oldD f) (t.opA f) 0 0) rfl h sound
  case f32 =>
    have mul := isRatio_mul ha hb
    have fma := isRatio_fma (mode := m) ha hb hc
    refine ⟨(isRatio_add ha hb).f32.1, (isRatio_sub ha hb).f32.1, mul.f32.1, (isRatio_add ha hb).f32.2, (isRatio_sub ha hb).f32.2,
      mul.f32.2, fma.f32.2, fma.f32.1, fun n => (isRatio_scale ha).f32.1, fun hx n => ?_, integral_rounds ha⟩
    rw [(isRatio_scale ha (n := n)).f32.2 (by rw [hx, zero_mul])]
    have mag : f32Mag a = 0 := signedUnits_eq_zero.mp hx
    have word := toNat_eq_f32Mag (w := a)
    rw [mag] at word
    refine BitVec.eq_of_toNat_eq ?_
    rw [word]
    split <;> rfl
  case bf16 =>
    exact ⟨(isRatio_add ha hb).bf16, (isRatio_sub ha hb).bf16, (isRatio_mul ha hb).bf16, (isRatio_fma ha hb hc).bf16,
      fun n => (isRatio_scale ha).bf16⟩
  case inf => exact inf_operations ha hb hc
  case wrong =>
    simp only [List.forall_mem_cons, List.not_mem_nil, false_implies, implies_true, and_true]
    exact ⟨fun h _ hp => shadowed_wrong (val := exactResult f fun m a b _ => a.add m b) rfl h hp,
      fun h _ hp => shadowed_wrong (val := exactResult f fun m a b _ => a.add m b.neg) rfl h hp,
      fun h _ hp => shadowed_wrong (val := exactResult f fun _ a b _ => a.mul b) rfl h hp,
      fun h _ hp => shadowed_wrong (val := exactResult f fun m a b c => Num.fma m a b c) rfl h hp,
      fun h _ hp => shadowed_wrong (val := exactResult f fun _ a b _ => a.min b) rfl h hp,
      fun h _ hp => shadowed_wrong (val := exactResult f fun _ a b _ => a.max b) rfl h hp,
      fun h _ hp => shadowed_wrong (val := fun t => faddminVal f.t f.m.toNat (t.oldD f) (t.opA f) (t.opB f) (t.opC f)) rfl h hp,
      fun h _ hp => shadowed_wrong (val := fun t => fdot2Val f.m.toNat (t.opA f) (t.opB f) (t.opC f)) rfl h hp,
      fun h _ hp => shadowed_wrong (val := fun t => perValue f.t f.m.toNat
        (fun a _ _ => a.scale (max (-1000) (min (t.opB f).toInt 1000))) (t.oldD f) (t.opA f) 0 0) rfl h hp,
      fun h _ hp => shadowed_wrong (val := exactResult f fun m a _ _ => a.integral m) rfl h hp⟩

end Sys2Proof.Machine
end

section
/-!
Results within a bound of an exact value (R56): what the model's choice among them gives, and how near the nearest value is.
-/
namespace Sys2Proof.Machine
variable {neg n1 n2 : Bool} {x y A : ℝ} {m m1 m2 k l op : Nat} {e e1 e2 d : Int} {w a : Word}

/-! ## Finite values as real numbers -/

/-- The value of a sign, a magnitude and an exponent. -/
noncomputable def realVal (neg : Bool) (m : Nat) (e : Int) : ℝ := (signed neg m : ℝ) * 2 ^ e

/-- The value of a finite word. -/
noncomputable def wordVal (w : Word) : ℝ := (signedUnits w : ℝ) * 2 ^ (-149 : Int)

theorem finVal_eq_realVal : finVal neg m e = realVal neg m e * 2 ^ (149 : Int) := by
  rw [finVal, realVal, zpow_add₀ two_ne_zero, mul_assoc]

theorem abs_realVal : |realVal neg m e| = m * 2 ^ e := by
  rw [realVal, abs_mul, abs_of_pos (a := (2 : ℝ) ^ e) (by positivity)]
  congr 1
  cases neg <;> simp [signed]

theorem two_zpow_149 : (2 : ℝ) ^ (149 : Int) * 2 ^ (-149 : Int) = 1 := by
  rw [← zpow_add₀ two_ne_zero]
  norm_num

theorem Finite32.exists_realVal (h : Finite32 w) : ∃ m e, numF32 w = .fin w.msb m e ∧ realVal w.msb m e = wordVal w := by
  obtain ⟨m, e, eq, val⟩ := h.exists_fin
  refine ⟨m, e, eq, ?_⟩
  rw [wordVal, ← val, finVal_eq_realVal, mul_assoc, two_zpow_149, mul_one]

/-- A value in a lesser unit. -/
theorem realVal_eq_of_le (h : d ≤ e) : realVal neg m e = (signed neg (m * 2 ^ (e - d).toNat) : ℝ) * 2 ^ d := by
  rw [realVal, signed_mul]
  push_cast
  rw [mul_assoc, ← zpow_natCast, ← zpow_add₀ two_ne_zero, Int.toNat_of_nonneg (by omega)]
  congr 2
  ring

theorem distance_eq : ((distance n1 m1 e1 n2 m2 e2).1 : ℝ) * 2 ^ (distance n1 m1 e1 n2 m2 e2).2 =
    |realVal n1 m1 e1 - realVal n2 m2 e2| := by
  rw [realVal_eq_of_le (min_le_left e1 e2), realVal_eq_of_le (min_le_right e1 e2), ← sub_mul, abs_mul,
    abs_of_pos (a := (2 : ℝ) ^ min e1 e2) (by positivity), ← Int.cast_sub, ← Int.cast_abs, ← Nat.cast_natAbs]
  rfl

theorem magLe_iff : magLe m1 e1 m2 e2 = true ↔ (m1 : ℝ) * 2 ^ e1 ≤ m2 * 2 ^ e2 := by
  have pos : (0 : ℝ) < 2 ^ min e1 e2 := by positivity
  have scale (m : Nat) (e : Int) (h : min e1 e2 ≤ e) : (m : ℝ) * 2 ^ e = (m * 2 ^ (e - min e1 e2).toNat : Nat) * 2 ^ min e1 e2 := by
    push_cast
    rw [mul_assoc, ← zpow_natCast, ← zpow_add₀ two_ne_zero, Int.toNat_of_nonneg (by omega)]
    congr 2
    ring
  rw [scale m1 e1 (min_le_left _ _), scale m2 e2 (min_le_right _ _), mul_le_mul_iff_left₀ pos, Nat.cast_le]
  exact decide_eq_true_iff

/-! ## The nearest value -/

/-- A value is rounded to one of the magnitudes next to it, and to the nearer one. -/
theorem RoundedTo.nearest {units : Nat → Nat} {top mag : Nat} (hr : RoundedTo units top 0 neg x mag) (hx : x < units (top + 1)) :
    ∃ v, v ≤ top ∧ (units v : ℝ) ≤ x ∧ x < units (v + 1) ∧ (mag = v ∨ mag = v + 1 ∧ units v < x) ∧
      |(units mag : ℝ) - x| ≤ ((units (v + 1) : ℝ) - units v) / 2 := by
  obtain ⟨v, hv, low, high, up, down⟩ := hr
  have lowR : (units v : ℝ) ≤ x := by push_cast at low; linarith
  have highR : x < units (v + 1) := by
    obtain lt | rfl := hv.lt_or_eq
    · have := high lt
      push_cast at this
      linarith
    · exact hx
  refine ⟨v, hv, lowR, highR, ?_⟩
  by_cases h : ((units v + units (v + 1) : Nat) : ℝ) ≤ 2 * x ∧ (¬ 2 * x ≤ ((units v + units (v + 1) : Nat) : ℝ) ∨ v % 2 = 1)
  · have ge_ := h.1
    push_cast at ge_
    rw [up h, abs_of_pos (by linarith)]
    exact ⟨Or.inr ⟨rfl, by linarith⟩, by linarith⟩
  · have le_ : 2 * x ≤ units v + units (v + 1) := by
      rw [not_and_or, not_or, not_not] at h
      push_cast at h
      obtain h | h := h
      · linarith
      · exact h.1
    rw [down h, abs_of_nonpos (by linarith)]
    exact ⟨Or.inl rfl, by linarith⟩

/-- Next to a value with its leading digit at 2^d, magnitudes lie 2^(d - 23) apart, or 1. -/
theorem units_gap {v : Nat} (low : (unitsOf v : ℝ) ≤ x) (high : x < unitsOf (v + 1)) (hd : (2 : ℝ) ^ d ≤ x) (hd' : x < 2 ^ (d + 1)) :
    (unitsOf (v + 1) : ℝ) - unitsOf v = 2 ^ max (d - 23) 0 := by
  obtain ⟨k, s, rfl, hk, hs⟩ := fmtF32.exists_significand v
  rw [← units_fmtF32] at *
  rw [Fmt.units_join hk hs.le] at low ⊢
  rw [add_assoc, Fmt.units_join (by omega) (by omega)] at high ⊢
  have hid : fmtF32.hidden = 2 ^ 23 := rfl
  rw [hid] at hk hs
  have gap : max (d - 23) 0 = k := by
    have highD : d < 24 + (k : Int) := by
      rw [← zpow_lt_zpow_iff_right₀ (one_lt_two (α := ℝ)), zpow_add₀ two_ne_zero, zpow_natCast]
      have : ((s + 1 : Nat) : ℝ) ≤ (2 ^ 24 : Nat) := by exact_mod_cast (by omega : s + 1 ≤ 2 ^ 24)
      push_cast at this high
      calc (2 : ℝ) ^ d ≤ x := hd
        _ < (s + 1) * 2 ^ k := high
        _ ≤ 2 ^ (24 : Int) * 2 ^ k := by gcongr; exact_mod_cast this
    obtain rfl | hs' := hk
    · omega
    · have lowD : 23 + (k : Int) < d + 1 := by
        rw [← zpow_lt_zpow_iff_right₀ (one_lt_two (α := ℝ)), zpow_add₀ two_ne_zero, zpow_natCast]
        have : ((2 ^ 23 : Nat) : ℝ) ≤ s := by exact_mod_cast hs'
        push_cast at this low
        calc (2 : ℝ) ^ (23 : Int) * 2 ^ k ≤ s * 2 ^ k := by gcongr; exact_mod_cast this
          _ ≤ x := low
          _ < 2 ^ (d + 1) := hd'
      omega
  rw [gap, zpow_natCast]
  push_cast
  ring

theorem log2_bounds (hm : m ≠ 0) : (2 : ℝ) ^ ((Nat.log2 m : Int) + e) ≤ m * 2 ^ e ∧ (m : ℝ) * 2 ^ e < 2 ^ ((Nat.log2 m : Int) + e + 1) := by
  refine ⟨two_zpow_le_of_log2 hm le_rfl, ?_⟩
  have lead : (m : ℝ) < 2 ^ (Nat.log2 m + 1) := by exact_mod_cast Nat.lt_log2_self
  rw [show (Nat.log2 m : Int) + e + 1 = (Nat.log2 m + 1 : Nat) + e by push_cast; ring, zpow_add₀ two_ne_zero, zpow_natCast]
  gcongr

theorem two_zpow_ulpExp (hm : m ≠ 0) : (2 : ℝ) ^ max ((Nat.log2 m : Int) + (e + 149) - 23) 0 = 2 ^ ulpExp m e * 2 ^ (149 : Int) := by
  rw [← zpow_add₀ two_ne_zero, ulpExp, if_neg hm, ulpExp.floorLog2']
  congr 1
  omega

/-- The nearest magnitude is within half of an ulp. -/
theorem toF32_nearest (hm : m ≠ 0) (hx : (m : ℝ) * 2 ^ (e + 149) < unitsOf 0x7F800000) :
    (toF32 0 (.fin neg m e)).msb = neg ∧ f32Mag (toF32 0 (.fin neg m e)) ≤ 0x7F800000 ∧
    |(unitsOf (f32Mag (toF32 0 (.fin neg m e))) : ℝ) - m * 2 ^ (e + 149)| ≤ 2 ^ ulpExp m e * 2 ^ (149 : Int) / 2 ∧
    (m * 2 ^ (e + 149) ≤ (unitsOf 0x7F7FFFFF : ℝ) → Finite32 (toF32 0 (.fin neg m e))) := by
  obtain ⟨sign, hr⟩ := toF32_rounds (mode := 0) (neg := neg) (e := e) hm
  obtain ⟨v, hv, low, high, pick, near⟩ := RoundedTo.nearest hr hx
  obtain ⟨lead, lead'⟩ := log2_bounds (e := e + 149) hm
  rw [units_gap low high lead lead', two_zpow_ulpExp hm] at near
  have mag : f32Mag (toF32 0 (.fin neg m e)) = v ∨ f32Mag (toF32 0 (.fin neg m e)) = v + 1 ∧ (unitsOf v : ℝ) < m * 2 ^ (e + 149) := pick
  refine ⟨sign, by omega, near, fun le => finite32_iff.mpr ?_⟩
  obtain h | ⟨h, lt⟩ := mag
  · omega
  · have : unitsOf v < unitsOf 0x7F7FFFFF := by exact_mod_cast lt.trans_le le
    have := fmtF32.units_strictMono.lt_iff_lt.mp this
    omega

theorem signedUnits_eq : signedUnits w = signed w.msb (unitsOf (f32Mag w)) := rfl

theorem abs_signed_sub {n : Bool} {p q : Nat} {r : ℝ} : |(signed n p : ℝ) - (signed n q : ℝ) * r| = |(p : ℝ) - q * r| := by
  cases n
  · simp [signed]
  · rw [← abs_neg]
    congr 1
    simp [signed]
    ring

theorem toF32_nearest_real (hx : (m : ℝ) * 2 ^ (e + 149) ≤ unitsOf 0x7F7FFFFF) :
    Finite32 (toF32 0 (.fin neg m e)) ∧ |wordVal (toF32 0 (.fin neg m e)) - realVal neg m e| ≤ 2 ^ ulpExp m e / 2 := by
  by_cases hm : m = 0
  · rw [hm, toF32_zero]
    have zero : realVal neg 0 e = 0 := by rw [realVal, signed_eq_zero.mpr rfl, Int.cast_zero, zero_mul]
    rw [zero]
    have word : wordVal (if neg then 0x80000000 else 0) = 0 := by
      rw [wordVal, signedUnits_eq_zero.mpr (by cases neg <;> decide), Int.cast_zero, zero_mul]
    rw [word, sub_zero, abs_zero]
    exact ⟨finite32_iff.mpr (by cases neg <;> decide), by positivity⟩
  · have top : (unitsOf 0x7F7FFFFF : ℝ) < unitsOf 0x7F800000 := by exact_mod_cast fmtF32.units_strictMono (by decide)
    obtain ⟨sign, -, near, fin⟩ := toF32_nearest (neg := neg) hm (hx.trans_lt top)
    refine ⟨fin hx, ?_⟩
    have unit : (2 : ℝ) ^ e = 2 ^ (e + 149) * 2 ^ (-149 : Int) := by rw [← zpow_add₀ two_ne_zero]; congr 1; ring
    have pos : (0 : ℝ) < 2 ^ (-149 : Int) := by positivity
    have split_ : wordVal (toF32 0 (.fin neg m e)) - realVal neg m e = ((signed neg (unitsOf (f32Mag (toF32 0 (.fin neg m e)))) : ℝ) -
        (signed neg m : ℝ) * 2 ^ (e + 149)) * 2 ^ (-149 : Int) := by
      rw [wordVal, signedUnits_eq, sign, realVal, unit]
      ring
    rw [split_, abs_mul, abs_of_pos pos, abs_signed_sub]
    calc |(unitsOf (f32Mag (toF32 0 (.fin neg m e))) : ℝ) - m * 2 ^ (e + 149)| * 2 ^ (-149 : Int)
      _ ≤ 2 ^ ulpExp m e * 2 ^ (149 : Int) / 2 * 2 ^ (-149 : Int) := by gcongr
      _ = 2 ^ ulpExp m e / 2 * ((2 : ℝ) ^ (149 : Int) * 2 ^ (-149 : Int)) := by ring
      _ = 2 ^ ulpExp m e / 2 := by rw [two_zpow_149, mul_one]

/-! ## The choice -/

theorem numF32_ne_fin (h : ¬ Finite32 w) : numF32 w ≠ .fin neg m e := by
  rw [finite32_iff] at h
  rw [numF32_eq]
  split
  · simp
  · rw [if_pos (by omega)]
    simp

/-- The choice lies within its bound, or is the nearest value. -/
theorem chosen_cases : Finite32 (chosen op a neg m e k d) ∧ |wordVal (chosen op a neg m e k d) - realVal neg m e| ≤ k * 2 ^ d ∨
    chosen op a neg m e k d = toF32 0 (.fin neg m e) := by
  by_cases fin : Finite32 (Config.approx op a)
  · obtain ⟨m', e', eq, val⟩ := fin.exists_realVal
    have choice : chosen op a neg m e k d = if magLe (distance neg m e (Config.approx op a).msb m' e').1
        (distance neg m e (Config.approx op a).msb m' e').2 k d then Config.approx op a else toF32 0 (.fin neg m e) := by
      unfold chosen
      dsimp only
      rw [eq]
    rw [choice]
    split
    · next h =>
      rw [magLe_iff, distance_eq, abs_sub_comm, val] at h
      exact Or.inl ⟨fin, h⟩
    · exact Or.inr rfl
  · right
    unfold chosen
    dsimp only
    split
    · next h => exact absurd h (numF32_ne_fin fin)
    · rfl

theorem chosenUlp_close (hk : 1 ≤ k) (hx : (m : ℝ) * 2 ^ (e + 149) ≤ unitsOf 0x7F7FFFFF) : Finite32 (chosenUlp op a neg m e k) ∧
    |wordVal (chosenUlp op a neg m e k) - realVal neg m e| ≤ k * 2 ^ ulpExp m e := by
  obtain near | eq := chosen_cases (op := op) (a := a) (neg := neg) (m := m) (e := e) (k := k) (d := ulpExp m e)
  · exact near
  · rw [chosenUlp, eq]
    obtain ⟨fin, near⟩ := toF32_nearest_real (neg := neg) hx
    refine ⟨fin, near.trans ?_⟩
    have : (1 : ℝ) ≤ k := by exact_mod_cast hk
    have : (0 : ℝ) < 2 ^ ulpExp m e := by positivity
    nlinarith

end Sys2Proof.Machine
end

section
/-!
Division, square root and reciprocals (R56, R190): `fdiv` and `fsqrt` round the exact result, `frcp` and `frsq` come within an ulp of it.
-/
namespace Sys2Proof.Machine
variable {neg : Bool} {x E A : ℝ} {mode m k l op N n i j v : Nat} {e : Int} {w a b : Word}

/-! ## Finite words by their significand -/

theorem unitsOf_f32Mag : unitsOf (f32Mag a) = f32Sig (f32Mag a) * 2 ^ f32Exp (f32Mag a) := by
  rw [← f32Units_eq, f32Units]

theorem f32Sig_pos (h : f32Mag a ≠ 0) : 0 < f32Sig (f32Mag a) := Nat.pos_of_ne_zero fun h0 => h (f32Sig_eq_zero.mp h0)

theorem f32Mag_ne_zero (h : ¬ (a = 0 ∨ a = 0x80000000)) : f32Mag a ≠ 0 := by
  intro h0
  have word := toNat_eq_f32Mag (w := a)
  rw [h0] at word
  cases hs : a.msb with
  | true => exact h (Or.inr (BitVec.eq_of_toNat_eq (by rw [word, hs]; rfl)))
  | false => exact h (Or.inl (BitVec.eq_of_toNat_eq (by rw [word, hs]; rfl)))

/-! ## Division -/

theorem floors_div {d : Nat} (hd : 0 < d) : Floors ((n : ℝ) / d) (n / d) (n % d != 0) := by
  have pos : (0 : ℝ) < d := by exact_mod_cast hd
  have split_ : (n : ℝ) = d * (n / d : Nat) + (n % d : Nat) := by exact_mod_cast (Nat.div_add_mod n d).symm
  have rem : ((n % d : Nat) : ℝ) < d := by exact_mod_cast Nat.mod_lt n hd
  have remPos : (0 : ℝ) ≤ (n % d : Nat) := Nat.cast_nonneg _
  refine ⟨?_, ?_, ?_⟩
  · rw [le_div_iff₀ pos]; linarith
  · rw [div_lt_iff₀ pos]; linarith
  · rw [div_eq_iff pos.ne', bne_eq_false_iff_eq]
    constructor
    · intro h
      rw [split_, h]
      push_cast
      ring
    · intro h
      have : ((n % d : Nat) : ℝ) = 0 := by linarith
      exact_mod_cast this

theorem fdivVal_of_fin (ha : Finite32 a) (hb : Finite32 b) (hb0 : f32Mag b ≠ 0) :
    fdivVal mode a b = BitVec.ofNat 32 (fmtF32.roundFin mode (a.msb != b.msb) (f32Sig (f32Mag a) * 2 ^ 80 / f32Sig (f32Mag b))
      (-149 + (f32Exp (f32Mag a) : Int) - (-149 + f32Exp (f32Mag b)) - (80 : Nat)) (f32Sig (f32Mag a) * 2 ^ 80 % f32Sig (f32Mag b) != 0)) := by
  unfold fdivVal
  rw [ha.numF32_eq, hb.numF32_eq]
  exact if_neg (f32Sig_pos hb0).ne'

/-- A quotient of finite values is rounded once. -/
theorem fdivVal_rounds (ha : Finite32 a) (hb : Finite32 b) (ha0 : f32Mag a ≠ 0) (hb0 : f32Mag b ≠ 0) :
    RoundsF32 mode (a.msb ^^ b.msb) (fun h => h * unitsOf (f32Mag b) ≤ 2 * unitsOf (f32Mag a) * 2 ^ 149)
      (fun h => 2 * unitsOf (f32Mag a) * 2 ^ 149 ≤ h * unitsOf (f32Mag b)) (fdivVal mode a b) := by
  rw [fdivVal_of_fin ha hb hb0, unitsOf_f32Mag, unitsOf_f32Mag]
  have pa := f32Sig_pos ha0
  have pb := f32Sig_pos hb0
  have small := f32Sig_lt (v := f32Mag b)
  generalize f32Sig (f32Mag a) = m₁ at *
  generalize f32Sig (f32Mag b) = m₂ at *
  generalize f32Exp (f32Mag a) = j₁
  generalize f32Exp (f32Mag b) = j₂
  have pbR : (m₂ : ℝ) ≠ 0 := by exact_mod_cast pb.ne'
  set d : Int := -149 + (j₁ : Int) - (-149 + j₂) - (80 : Nat) with hd
  have big : 2 ^ 56 ≤ m₁ * 2 ^ 80 / m₂ := by
    rw [Nat.le_div_iff_mul_le pb]
    calc 2 ^ 56 * m₂ ≤ 2 ^ 56 * 2 ^ 24 := Nat.mul_le_mul_left _ small.le
      _ = 1 * 2 ^ 80 := by norm_num
      _ ≤ m₁ * 2 ^ 80 := Nat.mul_le_mul_right _ pa
  have value : ((m₁ * 2 ^ 80 : Nat) : ℝ) / m₂ * 2 ^ (d + 149) / 2 ^ (d + 149) = ((m₁ * 2 ^ 80 : Nat) : ℝ) / m₂ :=
    mul_div_cancel_right₀ _ (zpow_ne_zero _ two_ne_zero)
  have rounds := roundFin_realF32 (mode := mode) (neg := a.msb != b.msb) (by omega : m₁ * 2 ^ 80 / m₂ ≠ 0) (value ▸ floors_div pb)
    fun _ => by rw [Nat.le_log2 (by omega)]; omega
  have quot : ((m₁ * 2 ^ 80 : Nat) : ℝ) / m₂ * 2 ^ (d + 149) * (m₂ * 2 ^ j₂ : Nat) = (m₁ * 2 ^ j₁ * 2 ^ 149 : Nat) := by
    simp only [Nat.cast_mul, Nat.cast_pow, Nat.cast_ofNat]
    have unit : (2 : ℝ) ^ 80 * 2 ^ (d + 149) * 2 ^ j₂ = 2 ^ j₁ * 2 ^ 149 := by
      rw [← zpow_natCast, ← zpow_natCast, ← zpow_natCast, ← zpow_natCast, ← zpow_add₀ two_ne_zero, ← zpow_add₀ two_ne_zero,
        ← zpow_add₀ two_ne_zero]
      congr 1
      push_cast
      omega
    calc (m₁ : ℝ) * 2 ^ 80 / m₂ * 2 ^ (d + 149) * ((m₂ : ℝ) * 2 ^ j₂)
      _ = (m₁ : ℝ) * (2 ^ 80 * 2 ^ (d + 149) * 2 ^ j₂) * ((m₂ : ℝ) / m₂) := by ring
      _ = (m₁ : ℝ) * 2 ^ j₁ * 2 ^ 149 := by rw [div_self pbR, unit, mul_one, mul_assoc]
  obtain ⟨sign, hr⟩ := rounds.ratio (Nat.mul_pos pb (Nat.two_pow_pos _)) quot
  refine ⟨sign, ?_⟩
  simp only [← Nat.mul_assoc] at hr ⊢
  exact hr

/-! ## Square roots -/

theorem sqrtBits_spec {X r : Nat} (low : r * r ≤ X) (high : X < (r + 2 ^ n) * (r + 2 ^ n)) :
    sqrtBits X n r * sqrtBits X n r ≤ X ∧ X < (sqrtBits X n r + 1) * (sqrtBits X n r + 1) := by
  induction n generalizing r with
  | zero => exact ⟨low, high⟩
  | succ n ih =>
    rw [sqrtBits]
    split
    · next h => exact ih h (by rw [add_assoc, ← Nat.two_mul, ← pow_succ']; exact high)
    · next h => exact ih low (not_le.mp h)

theorem floors_sqrt {X r : Nat} (h : r * r ≤ X ∧ X < (r + 1) * (r + 1)) : Floors (√(X : ℝ)) r (r * r != X) := by
  have sq : √(X : ℝ) * √(X : ℝ) = X := Real.mul_self_sqrt (Nat.cast_nonneg _)
  refine ⟨?_, ?_, ?_⟩
  · exact Real.le_sqrt_of_sq_le (by rw [pow_two]; exact_mod_cast h.1)
  · rw [Real.sqrt_lt' (by positivity), pow_two]
    exact_mod_cast h.2
  · rw [bne_eq_false_iff_eq]
    constructor
    · intro hr
      rw [← hr]
      push_cast
      exact Real.sqrt_mul_self (Nat.cast_nonneg _)
    · intro hr
      rw [hr] at sq
      exact_mod_cast sq

/-- The root of `root`: `n` is the value in units of 2^(2 d), and `r` its square root, cut off. -/
theorem root_spec {bits : Nat} (hk : 0 < k) (hk' : k < 2 ^ 24) : ∃ X r d, root k e bits = (r, d, r * r != X) ∧
    (r * r ≤ X ∧ X < (r + 1) * (r + 1)) ∧ (X : ℝ) * 2 ^ (2 * d) = k * 2 ^ e ∧ 2 ^ bits ≤ r ∧ r < 2 ^ (bits + 13) := by
  set o := (e.emod 2).toNat with ho
  have hoi : (o : Int) = e % 2 := Int.toNat_of_nonneg (Int.emod_nonneg e two_ne_zero)
  have small : 2 ^ o ≤ 2 := by
    have : o ≤ 1 := by have := Int.emod_lt_of_pos e two_pos; omega
    calc 2 ^ o ≤ 2 ^ 1 := Nat.pow_le_pow_right (by decide) this
      _ = 2 := rfl
  have oPos : 0 < 2 ^ o := Nat.two_pow_pos _
  have two (c : Nat) : 2 ^ (bits + c) * 2 ^ (bits + c) = 2 ^ (2 * c) * 2 ^ (2 * bits) := by rw [← pow_add, ← pow_add]; congr 1; ring
  have below : k * 2 ^ o * 2 ^ (2 * bits) < 2 ^ (bits + 13) * 2 ^ (bits + 13) := by
    rw [two]
    refine Nat.mul_lt_mul_of_pos_right ?_ (Nat.two_pow_pos _)
    calc k * 2 ^ o ≤ 2 ^ 24 * 2 := Nat.mul_le_mul hk'.le small
      _ < 2 ^ (2 * 13) := by decide
  have spec := sqrtBits_spec (X := k * 2 ^ o * 2 ^ (2 * bits)) (n := bits + 16) (r := 0) (Nat.zero_le _)
    (by rw [zero_add]; exact below.trans_le (Nat.mul_le_mul (Nat.pow_le_pow_right (by decide) (by omega)) (Nat.pow_le_pow_right (by decide) (by omega))))
  refine ⟨k * 2 ^ o * 2 ^ (2 * bits), _, (e - o) / 2 - bits, rfl, spec, ?_, ?_, ?_⟩
  · have half : 2 * ((e - o) / 2) = e - o := by
      rw [hoi]
      omega
    push_cast
    rw [mul_assoc, mul_assoc, ← zpow_natCast, ← zpow_natCast, ← zpow_add₀ two_ne_zero, ← zpow_add₀ two_ne_zero]
    congr 2
    push_cast
    rw [mul_sub, half]
    ring
  · refine Nat.lt_succ_iff.mp (Nat.mul_self_lt_mul_self_iff.mp (lt_of_le_of_lt ?_ spec.2))
    rw [← pow_add, ← Nat.two_mul]
    exact Nat.le_mul_of_pos_left _ (Nat.mul_pos hk oPos)
  · exact Nat.mul_self_lt_mul_self_iff.mp (lt_of_le_of_lt spec.1 below)

/-- A square root of a finite value is rounded once. -/
theorem fsqrtVal_rounds (ha : Finite32 a) (hs : a.msb = false) (h0 : f32Mag a ≠ 0) : RoundsF32 mode false
    (fun h => h ^ 2 ≤ 4 * unitsOf (f32Mag a) * 2 ^ 149) (fun h => 4 * unitsOf (f32Mag a) * 2 ^ 149 ≤ h ^ 2) (fsqrtVal mode a) := by
  have pos := f32Sig_pos h0
  obtain ⟨X, r, d, eq, spec, val, low, -⟩ := root_spec (e := -149 + f32Exp (f32Mag a)) (bits := 40) pos f32Sig_lt
  have word : fsqrtVal mode a = BitVec.ofNat 32 (fmtF32.roundFin mode false r d (r * r != X)) := by
    unfold fsqrtVal
    rw [ha.numF32_eq, hs]
    dsimp only
    rw [if_neg pos.ne', eq]
    rfl
  have floors : Floors (√(X : ℝ) * 2 ^ (d + 149) / 2 ^ (d + 149)) r (r * r != X) := by
    rw [mul_div_cancel_right₀ _ (zpow_ne_zero _ two_ne_zero)]
    exact floors_sqrt spec
  have rounds := roundFin_realF32 (mode := mode) (neg := false) (by omega : r ≠ 0) floors
    fun _ => by rw [Nat.le_log2 (by omega)]; omega
  rw [← word] at rounds
  have sq : (2 * (√(X : ℝ) * 2 ^ (d + 149))) ^ 2 = (4 * unitsOf (f32Mag a) * 2 ^ 149 : Nat) := by
    have units : (unitsOf (f32Mag a) : ℝ) = X * 2 ^ (2 * d) * 2 ^ (149 : Int) := by
      rw [val, unitsOf_f32Mag, mul_assoc, ← zpow_add₀ two_ne_zero]
      push_cast
      rw [neg_add_cancel_comm, zpow_natCast]
    have twice : ((2 : ℝ) ^ (d + 149)) ^ 2 = 2 ^ (2 * d) * 2 ^ (149 : Int) * 2 ^ (149 : Int) := by
      rw [← zpow_natCast, ← zpow_mul, ← zpow_add₀ two_ne_zero, ← zpow_add₀ two_ne_zero]
      congr 1
      push_cast
      ring
    have nat : (2 : ℝ) ^ (149 : Int) = 2 ^ 149 := zpow_natCast 2 149
    rw [mul_pow, mul_pow, Real.sq_sqrt (Nat.cast_nonneg _), twice, Nat.cast_mul, Nat.cast_mul, units, Nat.cast_pow, nat, Nat.cast_ofNat,
      Nat.cast_ofNat]
    ring
  have pos2 : 0 ≤ 2 * (√(X : ℝ) * 2 ^ (d + 149)) := by positivity
  refine ⟨rounds.1, rounds.2.congr (fun h => ?_) fun h => ?_⟩
  · rw [← pow_le_pow_iff_left₀ (Nat.cast_nonneg h) pos2 two_ne_zero, sq]
    exact_mod_cast Iff.rfl
  · rw [← pow_le_pow_iff_left₀ pos2 (Nat.cast_nonneg h) two_ne_zero, sq]
    exact_mod_cast Iff.rfl

end Sys2Proof.Machine
end

section
/-!
`frcp` and `frsq` come within an ulp (R56), and the deferred floating-point instructions (R190).
-/
namespace Sys2Proof.Machine
variable {s : State} {r : TRef} {g : Group} {t : Thread} {f : Fields} {neg : Bool} {x E A : ℝ} {mode m k l op N n i j v : Nat} {e : Int}
  {w a b : Word}

/-! ## Within one ulp of a value -/

/-- A choice within one ulp, by magnitudes: 2^l is the ulp. -/
theorem chosenUlp_units (hm : m ≠ 0) (low : 2 ^ 20 ≤ (m : ℝ) * 2 ^ (e + 149)) (high : (m : ℝ) * 2 ^ (e + 149) < unitsOf 0x7F800000) :
    ∃ l : Nat, (m : ℝ) * 2 ^ (e + 149) < 2 ^ (l + 24) ∧ (l = 0 ∨ 2 ^ (l + 23) ≤ (m : ℝ) * 2 ^ (e + 149)) ∧
      (chosenUlp op a neg m e 1).msb = neg ∧ f32Mag (chosenUlp op a neg m e 1) ≤ 0x7F800000 ∧
      |(unitsOf (f32Mag (chosenUlp op a neg m e 1)) : ℝ) - m * 2 ^ (e + 149)| ≤ 2 ^ l ∧
      ((m : ℝ) * 2 ^ (e + 149) ≤ unitsOf 0x7F7FFFFF → Finite32 (chosenUlp op a neg m e 1)) := by
  obtain ⟨lead, lead'⟩ := log2_bounds (e := e + 149) hm
  set d := (Nat.log2 m : Int) + (e + 149) with hd
  obtain ⟨l, hl⟩ : ∃ l : Nat, max (d - 23) 0 = (l : Int) := ⟨(max (d - 23) 0).toNat, by omega⟩
  have ulp : (2 : ℝ) ^ ulpExp m e * 2 ^ (149 : Int) = 2 ^ l := by rw [← two_zpow_ulpExp hm, ← hd, hl, zpow_natCast]
  have below : (m : ℝ) * 2 ^ (e + 149) < 2 ^ (l + 24) := by
    refine lead'.trans_le ?_
    rw [← zpow_natCast]
    exact zpow_le_zpow_right₀ (by norm_num) (by push_cast; omega)
  have above : l = 0 ∨ 2 ^ (l + 23) ≤ (m : ℝ) * 2 ^ (e + 149) := by
    refine or_iff_not_imp_left.mpr fun h0 => le_trans ?_ lead
    rw [← zpow_natCast]
    exact zpow_le_zpow_right₀ (by norm_num) (by push_cast; omega)
  refine ⟨l, below, above, ?_⟩
  obtain ⟨fin, near⟩ | eq := chosen_cases (op := op) (a := a) (neg := neg) (m := m) (e := e) (k := 1) (d := ulpExp m e)
  · -- the open choice: it has the sign of the value, which is far from zero
    rw [← chosenUlp] at fin near
    generalize chosenUlp op a neg m e 1 = w at *
    have unit : (wordVal w - realVal neg m e) * 2 ^ (149 : Int) = signed w.msb (unitsOf (f32Mag w)) - (signed neg m : ℝ) * 2 ^ (e + 149) := by
      have one := two_zpow_149
      rw [wordVal, signedUnits_eq, realVal, zpow_add₀ two_ne_zero e 149]
      linear_combination (signed w.msb (unitsOf (f32Mag w)) : ℝ) * one
    have near : |(signed w.msb (unitsOf (f32Mag w)) : ℝ) - (signed neg m : ℝ) * 2 ^ (e + 149)| ≤ 2 ^ l := by
      rw [← unit, abs_mul, abs_of_pos (a := (2 : ℝ) ^ (149 : Int)) (by positivity), ← ulp]
      have := mul_le_mul_of_nonneg_right near (by positivity : (0 : ℝ) ≤ 2 ^ (149 : Int))
      rwa [Nat.cast_one, one_mul] at this
    have sign : w.msb = neg := by
      by_contra hne
      have far : (2 : ℝ) ^ l < m * 2 ^ (e + 149) := by
        obtain rfl | h := above
        · linarith
        · refine lt_of_lt_of_le ?_ h
          exact pow_lt_pow_right₀ (by norm_num) (by omega)
      have mag : (0 : ℝ) ≤ unitsOf (f32Mag w) := Nat.cast_nonneg _
      have := abs_le.mp near
      cases hw : w.msb <;> cases hn : neg <;> simp_all [signed]
      · linarith
      · linarith
    rw [sign, abs_signed_sub] at near
    exact ⟨sign, (finite32_iff.mp fin).le, near, fun _ => fin⟩
  · -- the nearest value
    rw [chosenUlp, eq]
    obtain ⟨sign, mag, near, fin⟩ := toF32_nearest (neg := neg) hm high
    refine ⟨sign, mag, near.trans ?_, fin⟩
    rw [ulp]
    have : (0 : ℝ) < 2 ^ l := by positivity
    linarith

/-- The distance of the magnitudes next to a value is at least its ulp. -/
theorem two_pow_le_gap (hl : l = 0 ∨ 2 ^ (l + 23) < unitsOf (v + 1)) : 2 ^ l ≤ unitsOf (v + 1) - unitsOf v := by
  obtain ⟨k, s, rfl, hk, hs⟩ := fmtF32.exists_significand v
  rw [← units_fmtF32] at *
  rw [Fmt.units_join hk hs.le, add_assoc, Fmt.units_join (by omega) (by omega), Nat.succ_mul, Nat.add_sub_cancel_left]
  rw [add_assoc, Fmt.units_join (by omega) (by omega)] at hl
  have hid : fmtF32.hidden = 2 ^ 23 := rfl
  rw [hid] at hs
  refine Nat.pow_le_pow_right (by decide) ?_
  obtain rfl | h := hl
  · exact Nat.zero_le _
  · have : 2 ^ (l + 23) < 2 ^ (24 + k) := by
      refine h.trans_le ?_
      rw [pow_add 2 24 k]
      exact Nat.mul_le_mul_right _ (by omega)
    have := (Nat.pow_lt_pow_iff_right (by decide)).mp this
    omega

/-! ## `frcp` -/

theorem frcpVal_of_fin (ha : Finite32 a) (h0 : f32Mag a ≠ 0) : frcpVal a = chosenUlp 0x3F a a.msb (2 ^ 400 / f32Sig (f32Mag a))
    (-(-149 + (f32Exp (f32Mag a) : Int)) - 400) 1 := by
  unfold frcpVal
  rw [ha.numF32_eq]
  dsimp only
  rw [if_neg (f32Sig_pos h0).ne']
  rfl

/-- A cut-off quotient of a power of two by a significand: no integer lies between it and the quotient. -/
theorem quotient_le_of_le (hk : 0 < k) (hk' : k < 2 ^ 24) (h : 2 ^ 400 / k ≤ N * 2 ^ (j + 102)) : 2 ^ 298 ≤ N * (k * 2 ^ j) := by
  have cut : 2 ^ 298 * 2 ^ 102 < (N * 2 ^ (j + 102) + 1) * k := by
    rw [← pow_add]
    exact (Nat.div_lt_iff_lt_mul hk).mp (Nat.lt_succ_of_le h)
  have shape : (N * 2 ^ (j + 102) + 1) * k = N * (k * 2 ^ j) * 2 ^ 102 + k := by
    rw [pow_add]
    ring
  rw [shape] at cut
  have room : (2 ^ 24 : Nat) < 2 ^ 102 := Nat.pow_lt_pow_right (by decide) (by decide)
  have : 2 ^ 298 * 2 ^ 102 < (N * (k * 2 ^ j) + 1) * 2 ^ 102 := by
    rw [Nat.succ_mul]
    exact cut.trans (Nat.add_lt_add_left (hk'.trans room) _)
  exact Nat.lt_succ_iff.mp (Nat.lt_of_mul_lt_mul_right this)

/-- `frcp` comes within an ulp of the exact result, which lies at the magnitude `v` or above it. -/
theorem frcpVal_close (ha : Finite32 a) (hv : v ≤ 0x7F7FFFFF) (high : 2 ^ 298 < unitsOf (v + 1) * unitsOf (f32Mag a)) : (frcpVal a).msb = a.msb ∧ f32Mag (frcpVal a) ≤ 0x7F800000 ∧
    unitsOf (f32Mag (frcpVal a)) * unitsOf (f32Mag a) ≤ 2 ^ 298 + (unitsOf (v + 1) - unitsOf v) * unitsOf (f32Mag a) ∧
    2 ^ 298 ≤ (unitsOf (f32Mag (frcpVal a)) + (unitsOf (v + 1) - unitsOf v)) * unitsOf (f32Mag a) := by
  have h0 : f32Mag a ≠ 0 := by
    intro h0
    rw [h0] at high
    exact absurd high (by simp [unitsOf])
  have top : unitsOf (f32Mag a) < 2 ^ 277 := by
    have lt := fmtF32.units_strictMono (finite32_iff.mp ha)
    have eq : unitsOf 0x7F800000 = 2 ^ 23 * 2 ^ 254 := by decide
    rw [units_fmtF32, eq, ← pow_add] at lt
    exact lt
  have hv1 : unitsOf (v + 1) ≤ unitsOf 0x7F800000 := fmtF32.units_strictMono.monotone (by omega)
  rw [frcpVal_of_fin ha h0]
  have kpos := f32Sig_pos h0
  have ksmall := f32Sig_lt (v := f32Mag a)
  have units := unitsOf_f32Mag (a := a)
  set X := unitsOf (f32Mag a)
  set k := f32Sig (f32Mag a)
  set j := f32Exp (f32Mag a)
  have xpos : 0 < X := by rw [units]; exact Nat.mul_pos kpos (Nat.two_pow_pos _)
  have xposR : (0 : ℝ) < X := by exact_mod_cast xpos
  set c := 2 ^ 400 / k with hc
  have exp : -(-149 + (j : Int)) - 400 + 149 = -(j + 102 : Nat) := by push_cast; ring
  -- the value that the choice is made from lies below the exact result
  have cpos : 2 ^ 376 ≤ c := by
    rw [hc, Nat.le_div_iff_mul_le kpos]
    calc 2 ^ 376 * k ≤ 2 ^ 376 * 2 ^ 24 := Nat.mul_le_mul_left _ ksmall.le
      _ = 2 ^ 400 := by rw [← pow_add]
  set A : ℝ := (c : ℝ) * 2 ^ (-(-149 + (j : Int)) - 400 + 149) with hA
  have scaleA (N : Nat) : A ≤ N ↔ c ≤ N * 2 ^ (j + 102) := by
    have pos : (0 : ℝ) < 2 ^ (j + 102) := by positivity
    rw [hA, exp, zpow_neg, zpow_natCast, ← div_eq_mul_inv, div_le_iff₀ pos]
    exact_mod_cast Iff.rfl
  have below : A * X ≤ 2 ^ 298 := by
    have : c * k ≤ 2 ^ 400 := Nat.div_mul_le_self _ _
    have thisR : (c : ℝ) * k ≤ 2 ^ 400 := by exact_mod_cast this
    have pos : (0 : ℝ) < 2 ^ (j + 102) := by positivity
    rw [hA, exp, zpow_neg, zpow_natCast, units, ← div_eq_mul_inv, div_mul_eq_mul_div, div_le_iff₀ pos]
    calc (c : ℝ) * (k * 2 ^ j : Nat) = c * k * 2 ^ j := by rw [Nat.cast_mul, Nat.cast_pow, Nat.cast_ofNat, mul_assoc]
      _ ≤ 2 ^ 400 * 2 ^ j := by gcongr
      _ = 2 ^ 298 * 2 ^ (j + 102) := by rw [← pow_add, ← pow_add]; congr 1; ring
  have lowA : 2 ^ 20 ≤ A := by
    by_contra h
    have : c ≤ 2 ^ 20 * 2 ^ (j + 102) := (scaleA (2 ^ 20)).mp (by push_cast; linarith)
    have := quotient_le_of_le kpos ksmall this
    rw [← units] at this
    have room : 2 ^ 20 * 2 ^ 277 < 2 ^ 298 := by rw [← pow_add]; exact Nat.pow_lt_pow_right (by decide) (by decide)
    have := Nat.mul_lt_mul_of_pos_left top (Nat.two_pow_pos 20)
    omega
  have AltE : A ≤ 2 ^ 298 / X := by rwa [le_div_iff₀ xposR]
  have highE : (2 ^ 298 / X : ℝ) < unitsOf (v + 1) := by rw [div_lt_iff₀ xposR]; exact_mod_cast high
  have highA : A < unitsOf 0x7F800000 := lt_of_le_of_lt AltE (highE.trans_le (by exact_mod_cast hv1))
  obtain ⟨l, -, hl, sign, mag, near, -⟩ := chosenUlp_units (op := 0x3F) (a := a) (neg := a.msb) (by omega : c ≠ 0) lowA highA
  refine ⟨sign, mag, ?_⟩
  have gap := two_pow_le_gap (hl.imp_right fun h => by exact_mod_cast (h.trans AltE).trans_lt highE)
  set M := unitsOf (f32Mag (chosenUlp 0x3F a a.msb c (-(-149 + (j : Int)) - 400) 1))
  obtain ⟨near1, near2⟩ := abs_le.mp near
  constructor
  · have : ((M : Nat) : ℝ) * X ≤ (2 ^ 298 + 2 ^ l * X : Nat) := by
      push_cast
      nlinarith
    have : M * X ≤ 2 ^ 298 + 2 ^ l * X := by exact_mod_cast this
    exact this.trans (Nat.add_le_add_left (Nat.mul_le_mul_right _ gap) _)
  · have : A ≤ (M + 2 ^ l : Nat) := by push_cast; linarith
    have := quotient_le_of_le kpos ksmall ((scaleA _).mp this)
    rw [← units] at this
    exact this.trans (Nat.mul_le_mul_right _ (Nat.add_le_add_left gap _))

/-! ## `frsq` -/

/-- A multiple of 2^s that is not 2^p lies a multiple of 2^s from it. -/
theorem dyadic_far {u s p : Nat} (hs : s ≤ p) : (u * 2 ^ s < 2 ^ p → u * 2 ^ s + 2 ^ s ≤ 2 ^ p) ∧
    (2 ^ p < u * 2 ^ s → 2 ^ p + 2 ^ s ≤ u * 2 ^ s) := by
  rw [← Nat.sub_add_cancel hs, pow_add, ← Nat.succ_mul, ← Nat.succ_mul]
  exact ⟨fun h => Nat.mul_le_mul_right _ (Nat.lt_of_mul_lt_mul_right h), fun h => Nat.mul_le_mul_right _ (Nat.lt_of_mul_lt_mul_right h)⟩

/-- A number of at most 78 bits, shifted, that reaches 2^p but for 100 bits reaches it; and one that does not pass 2^p but for 100 bits
does not pass it. -/
theorem dyadic_near {u s p : Nat} (hu : u < 2 ^ 78) : (2 ^ p * 2 ^ 100 ≤ u * 2 ^ s * 2 ^ 100 + 2 ^ p → 2 ^ p ≤ u * 2 ^ s) ∧
    (u * 2 ^ s * 2 ^ 100 ≤ 2 ^ p * (2 ^ 100 + 1) → u * 2 ^ s ≤ 2 ^ p) := by
  have pos : 0 < 2 ^ p := Nat.two_pow_pos p
  have posS : 0 < 2 ^ s := Nat.two_pow_pos s
  have bits : u * 2 ^ s < 2 ^ 78 * 2 ^ s := Nat.mul_lt_mul_of_pos_right hu posS
  have one (h : 0 < u) : 2 ^ s ≤ u * 2 ^ s := Nat.le_mul_of_pos_left _ h
  constructor
  · intro near
    by_contra h
    have hu0 : 0 < u := Nat.pos_of_ne_zero fun h0 => by subst h0; omega
    have hs : s ≤ p := ((Nat.pow_lt_pow_iff_right (by decide)).mp ((one hu0).trans_lt (not_le.mp h))).le
    have := (dyadic_far hs).1 (not_le.mp h)
    generalize 2 ^ p = Q at *
    generalize u * 2 ^ s = T at *
    omega
  · intro near
    by_contra h
    obtain hs | hs := le_or_gt s p
    · have := (dyadic_far hs).2 (not_le.mp h)
      generalize 2 ^ p = Q at *
      generalize u * 2 ^ s = T at *
      omega
    · have hu0 : 0 < u := Nat.pos_of_ne_zero fun h0 => by subst h0; omega
      have twice : 2 * 2 ^ p ≤ 2 ^ s := by rw [← pow_succ']; exact Nat.pow_le_pow_right (by decide) hs
      have := one hu0
      generalize 2 ^ p = Q at *
      generalize u * 2 ^ s = T at *
      omega

theorem frsqVal_of_fin (ha : Finite32 a) (hs : a.msb = false) (h0 : f32Mag a ≠ 0) : ∃ X r d,
    frsqVal a = chosenUlp 0x40 a false (2 ^ 400 / r) (-d - 400) 1 ∧ (r * r ≤ X ∧ X < (r + 1) * (r + 1)) ∧
    (X : ℝ) * 2 ^ (2 * d) * 2 ^ (149 : Int) = unitsOf (f32Mag a) ∧ 2 ^ 200 ≤ r ∧ r < 2 ^ 213 := by
  obtain ⟨X, r, d, eq, spec, val, low, high⟩ := root_spec (e := -149 + f32Exp (f32Mag a)) (bits := 200) (f32Sig_pos h0) f32Sig_lt
  refine ⟨X, r, d, ?_, spec, ?_, low, high⟩
  · unfold frsqVal
    rw [ha.numF32_eq, hs]
    dsimp only
    rw [if_neg (f32Sig_pos h0).ne', eq]
    rfl
  · rw [val, unitsOf_f32Mag, mul_assoc, ← zpow_add₀ two_ne_zero]
    push_cast
    rw [neg_add_cancel_comm, zpow_natCast]

/-- A cut-off quotient by a cut-off root: its square is the quotient by the number, but for 180 bits. -/
theorem quotient_root_near {X r c : Nat} (hc : c = 2 ^ 400 / r) (h : r * r ≤ X ∧ X < (r + 1) * (r + 1)) (low : 2 ^ 200 ≤ r) (high : r < 2 ^ 213) :
    (2 : ℝ) ^ 800 * (1 - 2 ^ (-180 : Int)) ≤ (c : ℝ) ^ 2 * X ∧ (c : ℝ) ^ 2 * X ≤ 2 ^ 800 * (1 + 2 ^ (-180 : Int)) := by
  have rpos : 0 < r := (Nat.two_pow_pos 200).trans_le low
  have lowR : (2 : ℝ) ^ 200 ≤ r := by exact_mod_cast low
  have highR : (r : ℝ) ≤ 2 ^ 213 := by exact_mod_cast high.le
  have rposR : (0 : ℝ) < r := by exact_mod_cast rpos
  have square : (2 : ℝ) ^ 800 = (2 ^ 400) ^ 2 := by rw [← pow_mul]
  have up : (c : ℝ) * r ≤ 2 ^ 400 := by rw [hc]; exact_mod_cast Nat.div_mul_le_self _ _
  have down : (2 : ℝ) ^ 400 ≤ c * r + r := by
    have : 2 ^ 400 < (c + 1) * r := by rw [hc]; exact (Nat.div_lt_iff_lt_mul rpos).mp (Nat.lt_succ_self _)
    have : (2 : ℝ) ^ 400 < (c + 1) * r := by exact_mod_cast this
    linarith
  have X1 : (r : ℝ) ^ 2 ≤ X := by rw [pow_two]; exact_mod_cast h.1
  have X2 : (X : ℝ) ≤ (r + 1) ^ 2 := by rw [pow_two]; exact_mod_cast h.2.le
  have cpos : (0 : ℝ) ≤ c := Nat.cast_nonneg c
  constructor
  · -- c r reaches 2^400 but for r
    have small : (r : ℝ) ≤ 2 ^ 400 * 2 ^ (-187 : Int) := by
      refine highR.trans (le_of_eq ?_)
      rw [← zpow_natCast, ← zpow_natCast, ← zpow_add₀ two_ne_zero]
      rfl
    have base : (2 : ℝ) ^ 400 * (1 - 2 ^ (-187 : Int)) ≤ c * r := by rw [mul_sub, mul_one]; linarith
    have gap : (0 : ℝ) ≤ 1 - 2 ^ (-187 : Int) := by norm_num
    calc (2 : ℝ) ^ 800 * (1 - 2 ^ (-180 : Int))
      _ ≤ 2 ^ 800 * (1 - 2 ^ (-187 : Int)) ^ 2 := by
        refine mul_le_mul_of_nonneg_left ?_ (by positivity)
        norm_num
      _ = (2 ^ 400 * (1 - 2 ^ (-187 : Int))) ^ 2 := by rw [mul_pow, square]
      _ ≤ (c * r) ^ 2 := pow_le_pow_left₀ (mul_nonneg (by positivity) gap) base 2
      _ = c ^ 2 * r ^ 2 := mul_pow _ _ _
      _ ≤ c ^ 2 * X := mul_le_mul_of_nonneg_left X1 (by positivity)
  · have near : (c : ℝ) * (r + 1) ≤ 2 ^ 400 * (1 + 2 ^ (-200 : Int)) := by
      have : (c : ℝ) * 2 ^ 200 ≤ 2 ^ 400 := (mul_le_mul_of_nonneg_left lowR cpos).trans up
      have : (c : ℝ) ≤ 2 ^ 400 * 2 ^ (-200 : Int) := by
        rw [zpow_neg, ← div_eq_mul_inv, le_div_iff₀ (by positivity)]
        exact_mod_cast this
      rw [mul_add, mul_add, mul_one, mul_one]
      linarith
    calc (c : ℝ) ^ 2 * X
      _ ≤ c ^ 2 * (r + 1) ^ 2 := mul_le_mul_of_nonneg_left X2 (by positivity)
      _ = (c * (r + 1)) ^ 2 := (mul_pow _ _ _).symm
      _ ≤ (2 ^ 400 * (1 + 2 ^ (-200 : Int))) ^ 2 := pow_le_pow_left₀ (by positivity) near 2
      _ = 2 ^ 800 * (1 + 2 ^ (-200 : Int)) ^ 2 := by rw [mul_pow, square]
      _ ≤ 2 ^ 800 * (1 + 2 ^ (-180 : Int)) := by
        refine mul_le_mul_of_nonneg_left ?_ (by positivity)
        norm_num

/-- Nearness to 180 bits is nearness to 100 bits. -/
theorem near_100_of_near_180 {Q T : ℝ} (hQ : 0 ≤ Q) : (Q * (1 - 2 ^ (-180 : Int)) ≤ T → Q * 2 ^ 100 ≤ T * 2 ^ 100 + Q) ∧
    (T ≤ Q * (1 + 2 ^ (-180 : Int)) → T * 2 ^ 100 ≤ Q * (2 ^ 100 + 1)) := by
  have room : (2 : ℝ) ^ (-180 : Int) * 2 ^ 100 ≤ 1 := by norm_num
  have := mul_le_mul_of_nonneg_left room hQ
  constructor
  · intro h
    have := mul_le_mul_of_nonneg_right h (by positivity : (0 : ℝ) ≤ 2 ^ 100)
    linarith
  · intro h
    have := mul_le_mul_of_nonneg_right h (by positivity : (0 : ℝ) ≤ 2 ^ 100)
    linarith

/-- A number of few bits compares with a value as it does with the exact root that the value is near. -/
theorem dyadic_compare (hn : n ≤ 2 ^ 26 + 8) (hk : k < 2 ^ 24) (pos : 0 ≤ A) (low : (2 : ℝ) ^ 447 * (1 - 2 ^ (-180 : Int)) ≤ A ^ 2 * (k * 2 ^ j : Nat))
    (high : A ^ 2 * (k * 2 ^ j : Nat) ≤ 2 ^ 447 * (1 + 2 ^ (-180 : Int))) : (A ≤ (n * 2 ^ i : Nat) → 2 ^ 447 ≤ (n * 2 ^ i) ^ 2 * (k * 2 ^ j)) ∧
    (((n * 2 ^ i : Nat) : ℝ) ≤ A → (n * 2 ^ i) ^ 2 * (k * 2 ^ j) ≤ 2 ^ 447) := by
  have shape : (n * 2 ^ i) ^ 2 * (k * 2 ^ j) = n ^ 2 * k * 2 ^ (2 * i + j) := by rw [pow_add, pow_mul']; ring
  have bits : n ^ 2 * k < 2 ^ 78 := by
    calc n ^ 2 * k ≤ (2 ^ 26 + 8) ^ 2 * 2 ^ 24 := Nat.mul_le_mul (Nat.pow_le_pow_left hn 2) hk.le
      _ < 2 ^ 78 := by norm_num
  have near := dyadic_near (u := n ^ 2 * k) (s := 2 * i + j) (p := 447) bits
  have real := near_100_of_near_180 (Q := 2 ^ 447) (T := ((n * 2 ^ i) ^ 2 * (k * 2 ^ j) : Nat)) (by positivity)
  rw [shape] at real ⊢
  have cast : ((n ^ 2 * k * 2 ^ (2 * i + j) : Nat) : ℝ) = ((n * 2 ^ i : Nat) : ℝ) ^ 2 * (k * 2 ^ j : Nat) := by
    rw [← shape, Nat.cast_mul, Nat.cast_pow]
  constructor
  · intro h
    refine near.1 ?_
    have sq : A ^ 2 * (k * 2 ^ j : Nat) ≤ (n * 2 ^ i : Nat) ^ 2 * (k * 2 ^ j : Nat) := by gcongr
    rw [← cast] at sq
    exact_mod_cast real.1 (low.trans sq)
  · intro h
    refine near.2 ?_
    have sq : (n * 2 ^ i : Nat) ^ 2 * (k * 2 ^ j : Nat) ≤ A ^ 2 * (k * 2 ^ j : Nat) := by gcongr
    rw [← cast] at sq
    exact_mod_cast real.2 (sq.trans high)

end Sys2Proof.Machine
end

section
/-!
`frsq` comes within an ulp (R56).
-/
namespace Sys2Proof.Machine
variable {A x : ℝ} {l n M v : Nat} {a w : Word}

/-- A magnitude within an ulp of a value is a number of few bits, half an ulp being its unit. -/
theorem units_near_shape (low : (2 : ℝ) ^ (l + 24) ≤ A) (high : A < 2 ^ (l + 25)) (near : |(unitsOf (f32Mag w) : ℝ) - A| ≤ 2 ^ (l + 1)) :
    ∃ n, unitsOf (f32Mag w) = n * 2 ^ l ∧ n < 2 ^ 25 + 2 := by
  obtain ⟨near1, near2⟩ := abs_le.mp near
  have lowN : 2 ^ (l + 23) ≤ unitsOf (f32Mag w) := by
    have : (2 : ℝ) ^ (l + 23) ≤ unitsOf (f32Mag w) := by
      rw [pow_add] at *
      have : (0 : ℝ) < 2 ^ l := by positivity
      linarith
    exact_mod_cast this
  have highN : unitsOf (f32Mag w) < 2 ^ (l + 25) + 2 ^ (l + 1) := by
    have : (unitsOf (f32Mag w) : ℝ) < 2 ^ (l + 25) + 2 ^ (l + 1) := by linarith
    exact_mod_cast this
  rw [unitsOf_f32Mag] at lowN highN ⊢
  have exp : l ≤ f32Exp (f32Mag w) := by
    have : 2 ^ (l + 23) < 2 ^ (24 + f32Exp (f32Mag w)) := by
      refine lowN.trans_lt ?_
      rw [pow_add 2 24]
      exact Nat.mul_lt_mul_of_pos_right f32Sig_lt (Nat.two_pow_pos _)
    have := (Nat.pow_lt_pow_iff_right (by decide)).mp this
    omega
  refine ⟨f32Sig (f32Mag w) * 2 ^ (f32Exp (f32Mag w) - l), by rw [mul_assoc, ← pow_add, Nat.sub_add_cancel exp], ?_⟩
  rw [← Nat.sub_add_cancel exp, pow_add, ← mul_assoc, pow_add 2 l 25, pow_add 2 l 1, ← Nat.mul_add, Nat.mul_comm (2 ^ l)] at highN
  exact Nat.lt_of_mul_lt_mul_right highN

/-- The range of a value whose square by a finite magnitude is near 2^447. -/
theorem root_range (hA : 0 ≤ A) (hx1 : 1 ≤ x) (hx : x < 2 ^ 277) (low : (2 : ℝ) ^ 447 * (1 - 2 ^ (-180 : Int)) ≤ A ^ 2 * x)
    (high : A ^ 2 * x ≤ 2 ^ 447 * (1 + 2 ^ (-180 : Int))) : 2 ^ 84 ≤ A ∧ A ≤ 2 ^ 224 := by
  constructor
  · by_contra h
    have sq : A ^ 2 * x ≤ 2 ^ 168 * 2 ^ 277 := by
      have : A ^ 2 ≤ (2 ^ 84) ^ 2 := pow_le_pow_left₀ hA (not_le.mp h).le 2
      rw [← pow_mul] at this
      exact mul_le_mul this hx.le (by linarith) (by positivity)
    have half : (1 / 2 : ℝ) ≤ 1 - 2 ^ (-180 : Int) := by norm_num
    have : (2 : ℝ) ^ 446 ≤ 2 ^ 445 := by
      calc (2 : ℝ) ^ 446 = 2 ^ 447 * (1 / 2) := by rw [pow_succ 2 446]; ring
        _ ≤ 2 ^ 447 * (1 - 2 ^ (-180 : Int)) := mul_le_mul_of_nonneg_left half (by positivity)
        _ ≤ 2 ^ 168 * 2 ^ 277 := low.trans sq
        _ = 2 ^ 445 := by rw [← pow_add]
    exact absurd ((pow_le_pow_iff_right₀ (by norm_num)).mp this) (by decide)
  · refine (sq_le_sq₀ hA (by positivity)).mp ?_
    have twice : 1 + (2 : ℝ) ^ (-180 : Int) ≤ 2 := by norm_num
    calc A ^ 2 ≤ A ^ 2 * x := le_mul_of_one_le_right (by positivity) hx1
      _ ≤ 2 ^ 447 * (1 + 2 ^ (-180 : Int)) := high
      _ ≤ 2 ^ 447 * 2 := mul_le_mul_of_nonneg_left twice (by positivity)
      _ = (2 ^ 224) ^ 2 := by rw [← pow_mul, ← pow_succ]

/-- The value that the choice of `frsq` is made from: its square by the operand is near 2^447. -/
theorem frsqVal_near (ha : Finite32 a) (hs : a.msb = false) (h0 : f32Mag a ≠ 0) : ∃ m e, frsqVal a = chosenUlp 0x40 a false m e 1 ∧
    (2 : ℝ) ^ 447 * (1 - 2 ^ (-180 : Int)) ≤ (m * 2 ^ (e + 149)) ^ 2 * unitsOf (f32Mag a) ∧
    (m * 2 ^ (e + 149)) ^ 2 * unitsOf (f32Mag a) ≤ (2 : ℝ) ^ 447 * (1 + 2 ^ (-180 : Int)) := by
  obtain ⟨X, r, d, eq, spec, val, low, high⟩ := frsqVal_of_fin ha hs h0
  refine ⟨2 ^ 400 / r, -d - 400, eq, ?_⟩
  obtain ⟨near1, near2⟩ := quotient_root_near rfl spec low high
  set c := 2 ^ 400 / r
  have scale : ((c : ℝ) * 2 ^ (-d - 400 + 149)) ^ 2 * unitsOf (f32Mag a) = c ^ 2 * X * 2 ^ (-353 : Int) := by
    have exps : ((2 : ℝ) ^ (-d - 400 + 149)) ^ 2 * (2 ^ (2 * d) * 2 ^ (149 : Int)) = 2 ^ (-353 : Int) := by
      rw [← zpow_natCast, ← zpow_mul, ← zpow_add₀ two_ne_zero, ← zpow_add₀ two_ne_zero]
      congr 1
      push_cast
      ring
    rw [← val, ← exps]
    ring
  have unit : (2 : ℝ) ^ 447 = 2 ^ 800 * 2 ^ (-353 : Int) := by
    rw [← zpow_natCast, ← zpow_natCast, ← zpow_add₀ two_ne_zero]
    rfl
  rw [scale, unit, mul_right_comm _ _ (1 - _), mul_right_comm _ _ (1 + _)]
  exact ⟨mul_le_mul_of_nonneg_right near1 (by positivity), mul_le_mul_of_nonneg_right near2 (by positivity)⟩

/-- `frsq` comes within an ulp of the exact result, which lies below the magnitude after `v`. -/
theorem frsqVal_close (ha : Finite32 a) (hs : a.msb = false) (high : 2 ^ 447 < unitsOf (v + 1) ^ 2 * unitsOf (f32Mag a)) :
    (frsqVal a).msb = false ∧ Finite32 (frsqVal a) ∧
    (unitsOf (f32Mag (frsqVal a)) - (unitsOf (v + 1) - unitsOf v)) ^ 2 * unitsOf (f32Mag a) ≤ 2 ^ 447 ∧
    2 ^ 447 ≤ (unitsOf (f32Mag (frsqVal a)) + (unitsOf (v + 1) - unitsOf v)) ^ 2 * unitsOf (f32Mag a) := by
  have h0 : f32Mag a ≠ 0 := by
    intro h0
    rw [h0] at high
    exact absurd high (by simp [unitsOf])
  have top : (unitsOf (f32Mag a) : ℝ) < 2 ^ 277 := by
    have lt := fmtF32.units_strictMono (finite32_iff.mp ha)
    have eq : unitsOf 0x7F800000 = 2 ^ 23 * 2 ^ 254 := by decide
    rw [units_fmtF32, eq, ← pow_add] at lt
    exact_mod_cast lt
  obtain ⟨m, e, eq, near1, near2⟩ := frsqVal_near ha hs h0
  rw [eq]
  have units := unitsOf_f32Mag (a := a)
  have xpos : 1 ≤ unitsOf (f32Mag a) := by rw [units]; exact Nat.mul_pos (f32Sig_pos h0) (Nat.two_pow_pos _)
  obtain ⟨lowA, highA⟩ := root_range (by positivity) (by exact_mod_cast xpos) top near1 near2
  have hm : m ≠ 0 := by
    rintro rfl
    rw [Nat.cast_zero, zero_mul] at lowA
    exact absurd lowA (by norm_num)
  have finA : (m : ℝ) * 2 ^ (e + 149) ≤ unitsOf 0x7F7FFFFF := by
    have eq : unitsOf 0x7F7FFFFF = (2 ^ 24 - 1) * 2 ^ 253 := by decide
    refine highA.trans ?_
    have : 2 ^ 224 ≤ unitsOf 0x7F7FFFFF := by
      rw [eq]
      calc 2 ^ 224 ≤ 1 * 2 ^ 253 := by rw [one_mul]; exact Nat.pow_le_pow_right (by decide) (by decide)
        _ ≤ _ := Nat.mul_le_mul_right _ (by decide)
    exact_mod_cast this
  have ltInf : (m : ℝ) * 2 ^ (e + 149) < unitsOf 0x7F800000 := finA.trans_lt (by exact_mod_cast fmtF32.units_strictMono (by decide))
  obtain ⟨l, lt, hl, sign, -, near, fin⟩ := chosenUlp_units (op := 0x40) (a := a) (neg := false) hm (le_trans (by norm_num) lowA) ltInf
  refine ⟨sign, fin finA, ?_⟩
  obtain ⟨l, rfl⟩ : ∃ l', l = l' + 1 := by
    refine Nat.exists_eq_succ_of_ne_zero fun h => ?_
    rw [h] at lt
    exact absurd (lowA.trans_lt lt) (by norm_num)
  have hl : (2 : ℝ) ^ (l + 24) ≤ m * 2 ^ (e + 149) := hl.resolve_left (Nat.succ_ne_zero l)
  obtain ⟨n, shape, hn⟩ := units_near_shape hl lt near
  rw [units] at near1 near2
  have compare {n i : Nat} (hn : n ≤ 2 ^ 26 + 8) := dyadic_compare (n := n) (i := i) hn f32Sig_lt (by positivity) near1 near2
  rw [← units] at compare
  have gap : 2 ^ (l + 1) ≤ unitsOf (v + 1) - unitsOf v := by
    refine two_pow_le_gap (Or.inr ?_)
    have := (compare (n := 1) (i := l + 24) (by decide)).2 (by rw [one_mul]; exact_mod_cast hl)
    rw [one_mul] at this
    exact lt_of_pow_lt_pow_left₀ 2 (Nat.zero_le _) (Nat.lt_of_mul_lt_mul_right (this.trans_lt high))
  have ulp : 2 ^ (l + 1) = 2 * 2 ^ l := pow_succ' 2 l
  obtain ⟨near3, near4⟩ := abs_le.mp near
  rw [shape] at near3 near4 ⊢
  constructor
  · have := (compare (n := n - 2) (i := l) (by omega)).2 (by
      rw [Nat.sub_mul, ← ulp]
      obtain le | gt := le_total (2 ^ (l + 1)) (n * 2 ^ l)
      · rw [Nat.cast_sub le]
        push_cast at near4 ⊢
        linarith
      · rw [Nat.sub_eq_zero_of_le gt, Nat.cast_zero]
        positivity)
    refine le_trans (Nat.mul_le_mul_right _ (Nat.pow_le_pow_left ?_ 2)) this
    rw [Nat.sub_mul, ← ulp]
    exact Nat.sub_le_sub_left gap _
  · have := (compare (n := n + 2) (i := l) (by omega)).1 (by
      rw [Nat.add_mul, ← ulp]
      push_cast at near3 ⊢
      linarith)
    refine this.trans (Nat.mul_le_mul_right _ (Nat.pow_le_pow_left ?_ 2))
    rw [Nat.add_mul, ← ulp]
    exact Nat.add_le_add_left gap _

end Sys2Proof.Machine
end

section
/-!
The deferred floating-point instructions (R190): what they give of NaNs and special values (R52, R56), and that they complete.
-/
namespace Sys2Proof.Machine
variable {s : State} {r : TRef} {g : Group} {t : Thread} {f : Fields} {i : Instr} {neg : Bool} {mode m : Nat} {e : Int} {w a b : Word}

theorem defers_sampled {val : Thread → Word} (hi : exec i = issueSampled i f 1 fun t => [val t]) (h : Issues s r g t i f) :
    Defers i s r f (dstOf f.d) (.sampled [val t]) := by
  rw [Defers, GoesOn, hi]
  exact issueSampled_alone (val := fun t => [val t]) h rfl

/-! ## Special operands -/

theorem finite32_or (hn : f32IsNan a = false) : Finite32 a ∨ a <<< 1 = 0xFF000000 := by
  rw [finite32_iff, show a <<< 1 = 0xFF000000 ↔ f32Mag a = 0x7F800000 from shiftLeft_one_eq_iff (n := 0x7F800000) (by decide)]
  rw [Bool.eq_false_iff, ne_eq, f32IsNan_iff] at hn
  omega

/-- A value below zero is minus infinity or finite. -/
theorem numF32_of_below (hn : f32IsNan a = false) (sign : a.msb = true) (h0 : a ≠ 0x80000000) :
    numF32 a = .inf true ∨ ∃ m e, m ≠ 0 ∧ numF32 a = .fin true m e := by
  obtain fin | inf := finite32_or hn
  · right
    refine ⟨f32Sig (f32Mag a), -149 + f32Exp (f32Mag a), (f32Sig_pos (f32Mag_ne_zero ?_)).ne', by rw [fin.numF32_eq, sign]⟩
    rintro (rfl | rfl)
    · exact absurd sign (by decide)
    · exact h0 rfl
  · exact Or.inl (by rw [(numF32_of_inf inf).1, sign])

/-! ## Division and square root -/

theorem fdivVal_nan (ha : f32IsNan a = true) : fdivVal mode a b = a ||| 0x00400000 := by
  unfold fdivVal
  rw [numF32_of_nan ha]
  rfl

theorem fdivVal_nan_right (ha : f32IsNan a = false) (hb : f32IsNan b = true) : fdivVal mode a b = b ||| 0x00400000 := by
  unfold fdivVal
  rw [numF32_of_nan hb]
  obtain fin | inf := finite32_or ha
  · rw [fin.numF32_eq]
    rfl
  · rw [(numF32_of_inf inf).1]
    rfl

theorem fdivVal_by_inf (ha : Finite32 a) (hb : b <<< 1 = 0xFF000000) :
    fdivVal mode a b = if a.msb ^^ b.msb then 0 ||| 0x80000000 else 0 := by
  unfold fdivVal
  rw [ha.numF32_eq, (numF32_of_inf hb).1]
  cases a.msb <;> cases b.msb <;> rfl

theorem toF32_inf_signed : toF32 mode (.inf (a.msb != b.msb)) = if a.msb ^^ b.msb then 0x7F800000 ||| 0x80000000 else 0x7F800000 := by
  rw [toF32_inf]
  cases a.msb <;> cases b.msb <;> rfl

theorem fdivVal_of_inf (ha : a <<< 1 = 0xFF000000) (hb : Finite32 b) :
    fdivVal mode a b = if a.msb ^^ b.msb then 0x7F800000 ||| 0x80000000 else 0x7F800000 := by
  rw [← toF32_inf_signed (mode := 0)]
  unfold fdivVal
  simp only [(numF32_of_inf ha).1, hb.numF32_eq]

theorem numF32_of_zero (hb : b = 0 ∨ b = 0x80000000) : ∃ e, numF32 b = .fin b.msb 0 e := by
  obtain rfl | rfl := hb <;> exact ⟨_, rfl⟩

theorem fdivVal_by_zero (ha : Finite32 a) (h0 : f32Mag a ≠ 0) (hb : b = 0 ∨ b = 0x80000000) :
    fdivVal mode a b = if a.msb ^^ b.msb then 0x7F800000 ||| 0x80000000 else 0x7F800000 := by
  obtain ⟨e, eq⟩ := numF32_of_zero hb
  have value : fdivVal mode a b = toF32 0 (.inf (a.msb != b.msb)) := by
    unfold fdivVal
    simp only [ha.numF32_eq, eq, (f32Sig_pos h0).ne', if_true, if_false]
  rw [value, toF32_inf_signed]

theorem fdivVal_zeros (ha : a = 0 ∨ a = 0x80000000) (hb : b = 0 ∨ b = 0x80000000) : fdivVal mode a b = 0x7FC00000 := by
  obtain rfl | rfl := ha <;> obtain rfl | rfl := hb <;> rfl

theorem fdivVal_infs (ha : a = 0x7F800000 ∨ a = 0xFF800000) (hb : b = 0x7F800000 ∨ b = 0xFF800000) : fdivVal mode a b = 0x7FC00000 := by
  obtain rfl | rfl := ha <;> obtain rfl | rfl := hb <;> rfl

theorem fsqrtVal_nan (ha : f32IsNan a = true) : fsqrtVal mode a = a ||| 0x00400000 := by
  unfold fsqrtVal
  rw [numF32_of_nan ha]
  rfl

theorem fsqrtVal_zero (ha : a = 0 ∨ a = 0x80000000) : fsqrtVal mode a = a := by
  obtain rfl | rfl := ha <;> rfl

theorem fsqrtVal_below (hn : f32IsNan a = false) (sign : a.msb = true) (h0 : a ≠ 0x80000000) : fsqrtVal mode a = 0x7FC00000 := by
  unfold fsqrtVal
  obtain eq | ⟨m, e, hm, eq⟩ := numF32_of_below hn sign h0
  · rw [eq]
    rfl
  · rw [eq]
    exact if_neg hm

/-! ## The approximate functions -/

theorem frcpVal_nan (ha : f32IsNan a = true) : frcpVal a = a ||| 0x00400000 := by
  unfold frcpVal
  rw [numF32_of_nan ha]
  rfl

theorem frcpVal_zero (ha : a = 0 ∨ a = 0x80000000) : frcpVal a = if a.msb then 0x7F800000 ||| 0x80000000 else 0x7F800000 := by
  obtain rfl | rfl := ha <;> rfl

theorem frsqVal_nan (ha : f32IsNan a = true) : frsqVal a = a ||| 0x00400000 := by
  unfold frsqVal
  rw [numF32_of_nan ha]
  rfl

theorem frsqVal_zero (ha : a = 0 ∨ a = 0x80000000) : frsqVal a = if a.msb then 0x7F800000 ||| 0x80000000 else 0x7F800000 := by
  obtain rfl | rfl := ha <;> rfl

theorem frsqVal_below (hn : f32IsNan a = false) (sign : a.msb = true) (h0 : a ≠ 0x80000000) : frsqVal a = 0x7FC00000 := by
  unfold frsqVal
  obtain eq | ⟨m, e, hm, eq⟩ := numF32_of_below hn sign h0
  · rw [eq]
    rfl
  · rw [eq]
    exact if_neg hm

theorem fex2Val_nan (ha : f32IsNan a = true) : fex2Val a = a ||| 0x00400000 := by
  unfold fex2Val
  rw [numF32_of_nan ha]
  rfl

theorem flg2Val_nan (ha : f32IsNan a = true) : flg2Val a = a ||| 0x00400000 := by
  unfold flg2Val
  rw [numF32_of_nan ha]
  rfl

theorem flg2Val_zero (ha : a = 0 ∨ a = 0x80000000) : flg2Val a = 0xFF800000 := by
  obtain rfl | rfl := ha <;> rfl

theorem flg2Val_below (hn : f32IsNan a = false) (sign : a.msb = true) (h0 : a ≠ 0x80000000) : flg2Val a = 0x7FC00000 := by
  unfold flg2Val
  obtain eq | ⟨m, e, hm, eq⟩ := numF32_of_below hn sign h0
  · rw [eq]
    rfl
  · rw [eq]
    exact if_neg hm

theorem ftrigVal_nan {cos : Bool} (ha : f32IsNan a = true) : ftrigVal cos a = a ||| 0x00400000 := by
  unfold ftrigVal
  rw [numF32_of_nan ha]
  rfl

theorem ftrigVal_inf {cos : Bool} (ha : a = 0x7F800000 ∨ a = 0xFF800000) : ftrigVal cos a = 0x7FC00000 := by
  obtain rfl | rfl := ha <;> rfl

theorem ftrigVal_zero (ha : a = 0 ∨ a = 0x80000000) : ftrigVal false a = a := by
  obtain rfl | rfl := ha <;> rfl

theorem ftanhVal_nan (ha : f32IsNan a = true) : ftanhVal a = a ||| 0x00400000 := by
  unfold ftanhVal
  rw [numF32_of_nan ha]
  rfl

theorem ftanhVal_zero (ha : a = 0 ∨ a = 0x80000000) : ftanhVal a = a := by
  obtain rfl | rfl := ha <;> rfl

/-- A finite magnitude against a power of two, by the bits of the word. -/
theorem magLe_finite {v : Nat} {k : Nat} {d : Int} (hk : (k : ℝ) * 2 ^ (d + 149) = unitsOf v) :
    magLe k d (f32Sig (f32Mag a)) (-149 + f32Exp (f32Mag a)) = true ↔ v ≤ f32Mag a := by
  have pos : (0 : ℝ) < 2 ^ (149 : Int) := by positivity
  have units : (f32Sig (f32Mag a) : ℝ) * 2 ^ (-149 + (f32Exp (f32Mag a) : Int)) * 2 ^ (149 : Int) = unitsOf (f32Mag a) := by
    rw [unitsOf_f32Mag, mul_assoc, ← zpow_add₀ two_ne_zero]
    push_cast
    rw [neg_add_cancel_comm, zpow_natCast]
  rw [magLe_iff, ← mul_le_mul_iff_left₀ pos, units, mul_assoc, ← zpow_add₀ two_ne_zero, hk, Nat.cast_le]
  exact fmtF32.units_strictMono.le_iff_le

theorem fex2Val_overflow (sign : a.msb = false) (high : 0x43000000 ≤ f32Mag a) (hn : f32IsNan a = false) : fex2Val a = 0x7F800000 := by
  unfold fex2Val
  obtain fin | inf := finite32_or hn
  · have large : magLe 128 0 (f32Sig (f32Mag a)) (-149 + f32Exp (f32Mag a)) = true := by
      refine (magLe_finite ?_).mpr high
      rw [show unitsOf 0x43000000 = 2 ^ 23 * 2 ^ 133 from by decide]
      norm_num
    rw [fin.numF32_eq, sign]
    dsimp only
    rw [large]
    rfl
  · rw [(numF32_of_inf inf).1, sign]
    rfl

/-! ## Completion -/

/-- Settles O8: each instruction defers the value of its function, whose bounds are those of `frcpVal_close` and `frsqVal_close` and
whose rounding is that of `fdivVal_rounds` and `fsqrtVal_rounds`. -/
theorem deferredFloat : Obligations.DeferredFloat := by
  intro s r g t f d a b zero below signed quieted x y mag ulp
  refine ⟨fun h => ?div, fun h => ?sqrt, fun h => ?rcp, fun h => ?rsq, fun h => ?ex2, fun h => ?lg2, fun h => ?trig, fun h => ?tanh⟩
  case div =>
    exact ⟨fdivVal f.m.toNat a b, defers_sampled (val := fun t => fdivVal f.m.toNat (t.opA f) (t.opB f)) rfl h, fdivVal_nan,
      fun ha hb ha0 hb0 => fdivVal_rounds ha hb (f32Mag_ne_zero ha0) (f32Mag_ne_zero hb0), fdivVal_by_inf, fdivVal_of_inf,
      fdivVal_nan_right, fun ha ha0 => fdivVal_by_zero ha (f32Mag_ne_zero ha0), fdivVal_zeros, fdivVal_infs⟩
  case sqrt =>
    exact ⟨fsqrtVal f.m.toNat a, defers_sampled (val := fun t => fsqrtVal f.m.toNat (t.opA f)) rfl h, fsqrtVal_nan,
      fun sign fin h0 => fsqrtVal_rounds fin sign (f32Mag_ne_zero h0), fsqrtVal_zero, fun ⟨hn, sign, h0⟩ => fsqrtVal_below hn sign h0,
      fun ha => ha ▸ rfl⟩
  case rcp =>
    exact ⟨frcpVal a, defers_sampled (val := fun t => frcpVal (t.opA f)) rfl h, frcpVal_nan, fun fin v hv _ high => frcpVal_close fin hv high,
      frcpVal_zero, fun ha => ha ▸ rfl, fun ha => ha ▸ rfl⟩
  case rsq =>
    exact ⟨frsqVal a, defers_sampled (val := fun t => frsqVal (t.opA f)) rfl h, frsqVal_nan,
      fun sign fin v _ _ high => frsqVal_close fin sign high, frsqVal_zero, fun ha => ha ▸ rfl, fun ⟨hn, sign, h0⟩ => frsqVal_below hn sign h0⟩
  case ex2 =>
    refine ⟨fex2Val a, defers_sampled (val := fun t => fex2Val (t.opA f)) rfl h, fex2Val_nan, rfl, fun ha => ha ▸ rfl,
      fun sign high hn => fex2Val_overflow sign ?_ hn⟩
    rwa [f32Mag, Nat.mod_eq_of_lt (BitVec.toNat_lt_of_msb_false sign)]
  case lg2 =>
    exact ⟨flg2Val a, defers_sampled (val := fun t => flg2Val (t.opA f)) rfl h, flg2Val_nan, rfl, flg2Val_zero,
      fun ⟨hn, sign, h0⟩ => flg2Val_below hn sign h0, fun ha => ha ▸ rfl⟩
  case trig =>
    exact ⟨ftrigVal (f.fn == 1) a, defers_sampled (val := fun t => ftrigVal (f.fn == 1) (t.opA f)) rfl h, ftrigVal_nan, rfl, ftrigVal_inf,
      fun hf ha => by rw [hf]; exact ftrigVal_zero ha⟩
  case tanh =>
    exact ⟨ftanhVal a, defers_sampled (val := fun t => ftanhVal (t.opA f)) rfl h, ftanhVal_nan, rfl, ftanhVal_zero, fun ha => ha ▸ rfl,
      fun ha => ha ▸ rfl⟩

end Sys2Proof.Machine
end

section
/-!
What a lane reduction combines (R53, R203), and that reductions, scans and intersections complete (R203, R207).
-/
namespace Sys2Proof.Machine
variable {s : State} {gn coh : Nat} {g : Group} {ls act : List (TRef × Thread)} {f : Fields} {i : Instr} {t : Ty} {a b v w : Word} {l ws : List Word}
  {x y : Num} {neg : Bool}

/-! ## Integers and bits -/

theorem foldl_add_toNat : (l.foldl (· + ·) v).toNat = (v.toNat + (l.map BitVec.toNat).sum) % 2 ^ 32 := by
  induction l generalizing v with
  | nil => exact (Nat.mod_eq_of_lt v.isLt).symm
  | cons a l ih => rw [List.foldl_cons, ih, List.map_cons, List.sum_cons, BitVec.toNat_add, Nat.mod_add_mod, Nat.add_assoc]

/-- The identity of the least and of the greatest gives way to every value. -/
theorem lesser_identity (ht : t ∈ [Ty.i32, Ty.n32]) : lesser t (laneIdentity 1 t) w = w := by
  have lt := w.isLt
  have max := BitVec.toInt_lt (x := w)
  simp only [List.mem_cons, List.not_mem_nil, or_false] at ht
  rw [lesser, ite_eq_left_iff, not_lt]
  obtain rfl | rfl := ht
  · intro h
    refine BitVec.eq_of_toInt_eq ?_
    simp only [ival, if_true] at h
    have : (laneIdentity 1 .i32).toInt = 2 ^ 31 - 1 := by decide
    omega
  · intro h
    refine BitVec.eq_of_toNat_eq ?_
    have id : (laneIdentity 1 .n32).toNat = 2 ^ 32 - 1 := by decide
    have h : ((laneIdentity 1 .n32).toNat : Int) ≤ w.toNat := h
    omega

theorem greater_identity (ht : t ∈ [Ty.i32, Ty.n32]) : greater t (laneIdentity 2 t) w = w := by
  have least := BitVec.le_toInt w
  simp only [List.mem_cons, List.not_mem_nil, or_false] at ht
  rw [greater, ite_eq_left_iff, not_lt]
  obtain rfl | rfl := ht
  · intro h
    refine BitVec.eq_of_toInt_eq ?_
    simp only [ival, if_true] at h
    have : (laneIdentity 2 .i32).toInt = -2 ^ 31 := by decide
    omega
  · intro h
    refine BitVec.eq_of_toNat_eq ?_
    have id : (laneIdentity 2 .n32).toNat = 0 := by decide
    have h : (w.toNat : Int) ≤ (laneIdentity 2 .n32).toNat := h
    omega

theorem not_f32 (ht : t ∈ [Ty.i32, Ty.n32]) : t ≠ .f32 := by
  rintro rfl
  exact absurd ht (by decide)

theorem laneCombine_least (ht : t ∈ [Ty.i32, Ty.n32]) : laneCombine 1 t (w :: l) = combine 3 t w l := by
  rw [combine, if_neg (not_f32 ht)]
  exact congrArg (fun w => l.foldl (lesser t) w) (lesser_identity ht)

theorem laneCombine_greatest (ht : t ∈ [Ty.i32, Ty.n32]) : laneCombine 2 t (w :: l) = combine 4 t w l := by
  rw [combine, if_neg (not_f32 ht)]
  exact congrArg (fun w => l.foldl (greater t) w) (greater_identity ht)

theorem laneCombine_integer (ht : t ∈ [Ty.i32, Ty.n32]) :
    (ws ≠ [] → laneCombine 1 t ws ∈ ws ∧ laneCombine 2 t ws ∈ ws) ∧
    ∀ w ∈ ws, ival t (laneCombine 1 t ws) ≤ ival t w ∧ ival t w ≤ ival t (laneCombine 2 t ws) := by
  cases ws with
  | nil => exact ⟨fun h => absurd rfl h, by simp⟩
  | cons w l =>
    obtain ⟨mem, least⟩ := combine_least (base := w) (l := l) (not_f32 ht)
    obtain ⟨mem', greatest⟩ := combine_greatest (base := w) (l := l) (not_f32 ht)
    rw [laneCombine_least ht, laneCombine_greatest ht]
    exact ⟨fun _ => ⟨mem, mem'⟩, fun v hv => ⟨least v hv, greatest v hv⟩⟩

theorem getLsbD_foldl_xor {k : Nat} : (l.foldl (· ^^^ ·) v).getLsbD k = (v.getLsbD k ^^ ((l.filter fun w => w.getLsbD k).length % 2 == 1)) := by
  induction l generalizing v with
  | nil => simp
  | cons a l ih =>
    rw [List.foldl_cons, ih, BitVec.getLsbD_xor, List.filter_cons, Bool.xor_assoc]
    congr 1
    cases ha : a.getLsbD k with
    | false => simp
    | true =>
      have := Nat.mod_two_eq_zero_or_one (l.filter fun w => w.getLsbD k).length
      simp only [if_true, List.length_cons, Bool.true_xor]
      rw [Bool.eq_iff_iff]
      simp
      omega

theorem laneCombine_bits {k : Nat} (hk : k < 32) : (laneCombine 3 t ws).getLsbD k = (ws.all fun w => w.getLsbD k) ∧
    (laneCombine 4 t ws).getLsbD k = (ws.any fun w => w.getLsbD k) ∧
    (laneCombine 5 t ws).getLsbD k = ((ws.filter fun w => w.getLsbD k).length % 2 == 1) := by
  refine ⟨getLsbD_foldl_and.trans ?_, getLsbD_foldl_or.trans ?_, getLsbD_foldl_xor.trans ?_⟩
  · have ones : (0xFFFFFFFF : Word) = BitVec.allOnes 32 := rfl
    rw [List.all_cons, ones, BitVec.getLsbD_allOnes, decide_eq_true hk, Bool.true_and]
  · rw [List.any_cons, BitVec.ofNat_eq_ofNat, BitVec.getLsbD_zero, Bool.false_or]
  · rw [BitVec.ofNat_eq_ofNat, BitVec.getLsbD_zero, Bool.false_xor]

theorem laneCombine_nil {op : Nat} (hop : op < 9) : laneCombine op t [] = laneIdentity op t := by
  interval_cases op <;> rfl

/-! ## FP32 sums -/

theorem laneCombine_sum_of_nan {n : Word} (h : ws.find? f32IsNan = some n) : laneCombine 6 t ws = n ||| 0x00400000 := by
  cases ws with
  | nil => cases h
  | cons w l => exact combine_sum_of_nan h

theorem laneCombine_sum_of_infs (hn : ∀ w ∈ ws, f32IsNan w = false) (hp : 0x7F800000 ∈ ws) (hm : 0xFF800000 ∈ ws) :
    laneCombine 6 t ws = 0x7FC00000 := by
  cases ws with
  | nil => cases hp
  | cons w l => exact combine_sum_of_infs hn hp hm

/-- A sum that meets one infinity and not the other is that infinity. -/
theorem foldl_add_of_inf (hx : x.isNan = false) (hx' : x ≠ .inf (!neg)) (hl : ∀ w ∈ l, f32IsNan w = false ∧ numF32 w ≠ .inf (!neg))
    (one : x = .inf neg ∨ ∃ w ∈ l, numF32 w = .inf neg) : l.foldl (fun (a : Num) w => a.add 0 (numF32 w)) x = .inf neg := by
  induction l generalizing x with
  | nil => simpa using one
  | cons w l ih =>
    obtain ⟨hn, hw⟩ := hl w List.mem_cons_self
    rw [List.foldl_cons]
    have rest : ∀ w ∈ l, f32IsNan w = false ∧ numF32 w ≠ .inf (!neg) := fun w hw => hl w (List.mem_cons_of_mem _ hw)
    obtain ⟨n, rfl, eq, -⟩ | ⟨n, eq, sum⟩ | ⟨no, n, k, e, sum⟩ := add_cases_of_mode (mode := 0) hx (isNan_numF32_eq_false hn)
    · cases n <;> cases neg <;> simp_all
    · have : n = neg := by
        by_contra h
        rw [Bool.eq_not_of_ne h] at eq
        exact eq.elim (fun h => hx' h.1) fun h => hw h.1
      rw [sum, this]
      exact ih rfl (by simp) rest (Or.inl rfl)
    · rw [sum]
      refine ih rfl (by simp) rest (Or.inr ?_)
      obtain h | ⟨v, hv, h⟩ := one
      · exact absurd h (no neg).1
      · obtain rfl | hv := List.mem_cons.mp hv
        · exact absurd h (no neg).2
        · exact ⟨v, hv, h⟩

theorem numF32_eq_inf_iff : numF32 w = .inf neg ↔ w = if neg then 0xFF800000 else 0x7F800000 := by
  constructor
  · intro h
    have hn : f32IsNan w = false := by rw [← isNan_numF32, h]; rfl
    rw [← toF32_numF32 hn, h, toF32_inf]
  · rintro rfl
    cases neg <;> rfl

theorem laneCombine_sum_of_inf (hn : ∀ w ∈ ws, f32IsNan w = false) (hi : v <<< 1 = 0xFF000000) (mem : v ∈ ws) (not_mem : v ^^^ 0x80000000 ∉ ws) :
    laneCombine 6 t ws = v := by
  cases ws with
  | nil => cases mem
  | cons w l =>
    have value := (numF32_of_inf hi).1
    have other : ∀ u ∈ w :: l, numF32 u ≠ .inf (!v.msb) := by
      intro u hu h
      refine not_mem ?_
      rw [numF32_eq_inf_iff] at h value
      have : v ^^^ 0x80000000 = u := by
        rw [h]
        generalize v.msb = n at value ⊢
        rw [value]
        cases n <;> rfl
      exact this ▸ hu
    show combine 2 .f32 w l = v
    rw [combine_sum_of_no_nan hn, foldl_add_of_inf (neg := v.msb) (isNan_numF32_eq_false (hn w List.mem_cons_self)) (other w List.mem_cons_self)
      (fun u hu => ⟨hn u (List.mem_cons_of_mem _ hu), other u (List.mem_cons_of_mem _ hu)⟩)
      ((List.mem_cons.mp mem).imp (fun h : v = w => h ▸ value) fun h => ⟨v, h, value⟩), toF32_inf_of_mag (f32Mag_of_inf hi)]

/-- The sum of two finite values is exact; it has a minus sign where both have, and a zero has one there alone. -/
structure SumSign (n : Bool) (k : Nat) (z : Bool) : Prop where
  all : z = true → n = true
  zero : k = 0 → n = z

theorem add_fin_sign {n1 n2 z : Bool} {m1 m2 : Nat} {e1 e2 : Int} (h : SumSign n1 m1 z) : ∃ n k e,
    Num.add 0 (.fin n1 m1 e1) (.fin n2 m2 e2) = .fin n k e ∧ finVal n k e = finVal n1 m1 e1 + finVal n2 m2 e2 ∧ SumSign n k (z && n2) := by
  obtain ⟨n, k, e, eq, val, zero⟩ := add_fin (mode := 0) (n1 := n1) (m1 := m1) (e1 := e1) (n2 := n2) (m2 := m2) (e2 := e2)
  have nonpos (m : Nat) (e : Int) : finVal true m e ≤ 0 := by
    obtain rfl | hm := eq_or_ne m 0
    · exact (finVal_eq_zero.mpr rfl).le
    · exact ((finVal_neg_iff hm).mpr rfl).le
  refine ⟨n, k, e, eq, val, fun hz => ?_, fun hk => ?_⟩
  · obtain ⟨hz1, rfl⟩ := (Bool.and_eq_true _ _).mp hz
    obtain rfl := h.all hz1
    obtain rfl | hk := eq_or_ne k 0
    · rw [zero rfl]
      rfl
    · have ne : finVal n k e ≠ 0 := finVal_eq_zero.not.mpr hk
      refine (finVal_neg_iff hk).mp (lt_of_le_of_ne ?_ ne)
      rw [val]
      linarith [nonpos m1 e1, nonpos m2 e2]
  · rw [zero hk]
    cases n2 with
    | false => cases n1 <;> simp
    | true =>
      cases n1 with
      | false =>
        have : z ≠ true := fun hz => absurd (h.all hz) (by decide)
        simp [Bool.eq_false_iff.mpr this]
      | true =>
        rw [finVal_eq_zero.mpr hk] at val
        have : m1 = 0 := finVal_eq_zero.mp (by linarith [nonpos m1 e1, nonpos m2 e2] : finVal true m1 e1 = 0)
        simp [← h.zero this]

theorem foldl_add_fin {n z : Bool} {k : Nat} {e : Int} (hl : ∀ w ∈ l, Finite32 w) (hs : SumSign n k z) : ∃ n' k' e',
    l.foldl (fun (a : Num) w => a.add 0 (numF32 w)) (.fin n k e) = .fin n' k' e' ∧
    finVal n' k' e' = finVal n k e + (l.map signedUnits).sum ∧ SumSign n' k' (z && l.all fun w => w.msb) := by
  induction l generalizing n z k e with
  | nil => exact ⟨n, k, e, rfl, by simp, by simpa using hs⟩
  | cons w l ih =>
    obtain ⟨m, d, eq, val⟩ := (hl w List.mem_cons_self).exists_fin
    obtain ⟨n1, k1, e1, sum, val1, sign1⟩ := add_fin_sign (n2 := w.msb) (m2 := m) (e1 := e) (e2 := d) hs
    obtain ⟨n2, k2, e2, total, val2, sign2⟩ := ih (fun w hw => hl w (List.mem_cons_of_mem _ hw)) sign1 (e := e1)
    refine ⟨n2, k2, e2, by rw [List.foldl_cons, eq, sum, total], ?_, by rwa [List.all_cons, ← Bool.and_assoc]⟩
    rw [val2, val1, val, List.map_cons, List.sum_cons]
    push_cast
    ring

theorem laneCombine_sum_finite (fin : ∀ w ∈ ws, Finite32 w) : let sum := (ws.map signedUnits).sum
    RatioF32 0 sum 1 (laneCombine 6 t ws) ∧ (sum = 0 → laneCombine 6 t ws = if ws.all fun w => w.msb then 0x80000000 else 0) := by
  cases ws with
  | nil => exact ⟨fun h => absurd rfl h, fun _ => rfl⟩
  | cons w l =>
    obtain ⟨m, e, eq, val⟩ := (fin w List.mem_cons_self).exists_fin
    obtain ⟨n, k, d, sum, total, sign⟩ := foldl_add_fin (e := e) (fun w hw => fin w (List.mem_cons_of_mem _ hw))
      (⟨id, fun _ => rfl⟩ : SumSign w.msb m w.msb)
    have word : laneCombine 6 t (w :: l) = toF32 0 (.fin n k d) := by
      show combine 2 .f32 w l = _
      rw [combine_sum_of_no_nan fun w hw => (fin w hw).not_nan, eq, sum]
    rw [word]
    have exact : IsRatio (.fin n k d) ((w :: l).map signedUnits).sum 1 ((w :: l).all fun w => w.msb) := by
      refine ⟨Nat.one_pos, n, k, d, rfl, ?_, sign.zero⟩
      rw [total, val, List.map_cons, List.sum_cons]
      push_cast
      ring
    exact exact.f32

/-! ## FP32 least and greatest -/

theorem lt_numF32_eq (ha : f32IsNan a = false) (hb : f32IsNan b = false) :
    (numF32 a).lt (numF32 b) = decide (f32Order a < f32Order b) := by
  rw [lt_numF32 ha hb]
  have order {w : Word} : f32Order w = if w.msb then -1 - (f32Mag w : Int) else f32Mag w := by
    rw [f32Order, f32Mag]
    cases h : w.msb with
    | true => rfl
    | false =>
      have := BitVec.toNat_lt_of_msb_false h
      simp only [Bool.false_eq_true, if_false]
      omega
  rw [f32Key_eq, f32Key_eq, order, order]
  cases a.msb <;> cases b.msb <;> simp only [signed] <;> split <;> simp <;> omega

/-- The order of values by which `fmin` chooses, or `fmax` with `top`: a NaN comes last. -/
def choiceKey (top : Bool) (w : Word) : Int :=
  if f32IsNan w then 2 ^ 40 else if top then -f32Order w else f32Order w

theorem choiceKey_lt (top : Bool) (hn : f32IsNan w = false) : choiceKey top w < 2 ^ 40 := by
  have lt := w.isLt
  simp only [choiceKey, hn, f32Order, Bool.false_eq_true, if_false]
  split <;> split <;> omega

/-- The comparison of `fmin`, or of `fmax` with `top`. -/
def betterBy (top : Bool) (b a : Num) : Bool := if top then a.lt b else b.lt a

theorem choiceKey_pick {top : Bool} : choiceKey top (pickF32 (betterBy top) a b) ≤ choiceKey top a ∧
    choiceKey top (pickF32 (betterBy top) a b) ≤ choiceKey top b := by
  rw [pickF32]
  cases ha : f32IsNan a with
  | true =>
    cases hb : f32IsNan b with
    | true => simp [choiceKey, ha, hb]
    | false => exact ⟨by simpa [choiceKey, ha] using (choiceKey_lt top hb).le, le_rfl⟩
  | false =>
    cases hb : f32IsNan b with
    | true => exact ⟨le_rfl, by simpa [choiceKey, hb] using (choiceKey_lt top ha).le⟩
    | false =>
      have less : betterBy top (numF32 b) (numF32 a) = decide (choiceKey top b < choiceKey top a) := by
        cases top <;> simp [betterBy, choiceKey, ha, hb, lt_numF32_eq]
      simp only [Bool.false_eq_true, if_false, less, decide_eq_true_eq]
      split <;> omega

theorem foldl_pickF32_of_nans {better : Num → Num → Bool} (h : ∀ w ∈ v :: l, f32IsNan w = true) : l.foldl (pickF32 better) v = v := by
  induction l with
  | nil => rfl
  | cons w l ih =>
    have hv := h v List.mem_cons_self
    have hw := h w (List.mem_cons_of_mem _ List.mem_cons_self)
    rw [List.foldl_cons, pickF32, if_pos hv, if_pos hw]
    exact ih fun u hu => h u ((List.mem_cons.mp hu).elim (fun e => e ▸ List.mem_cons_self) fun e => List.mem_cons_of_mem _ (List.mem_cons_of_mem _ e))

/-- The choice along a list, rounded, is its least or greatest. -/
theorem isExtreme_foldl {top : Bool} : IsExtreme top (v :: l) (toF32 0 (numF32 (l.foldl (pickF32 (betterBy top)) v))) := by
  refine ⟨fun some_ => ?_, fun n hn all => ?_⟩
  · obtain ⟨mem, least⟩ := foldl_choice (f := pickF32 (betterBy top)) (key := choiceKey top) (P := fun _ => True) (a := v) (l := l) pickF32_eq
      fun a b _ _ => choiceKey_pick
    have not_nan := foldl_pickF32_not_nan (better := betterBy top) some_
    rw [toF32_numF32 not_nan]
    refine ⟨mem, not_nan, fun w hw hn => ?_⟩
    have := least (fun _ _ => trivial) w hw
    simp only [choiceKey, not_nan, hn, Bool.false_eq_true, if_false] at this
    cases top
    · exact this
    · exact neg_le_neg_iff.mp this
  · obtain rfl : v = n := by simpa using hn
    rw [foldl_pickF32_of_nans all, numF32_of_nan (all v List.mem_cons_self), toF32_nan]
    rfl

theorem laneCombine_extreme (h : ws ≠ []) : IsExtreme false ws (laneCombine 7 t ws) ∧ IsExtreme true ws (laneCombine 8 t ws) := by
  cases ws with
  | nil => exact absurd rfl h
  | cons v l =>
    have least : laneCombine 7 t (v :: l) = toF32 0 (numF32 (l.foldl (pickF32 (betterBy false)) v)) :=
      congrArg (toF32 0) (foldl_numF32 fun _ _ => min_max_numF32.1)
    have greatest : laneCombine 8 t (v :: l) = toF32 0 (numF32 (l.foldl (pickF32 (betterBy true)) v)) :=
      congrArg (toF32 0) (foldl_numF32 fun _ _ => min_max_numF32.2)
    rw [least, greatest]
    exact ⟨isExtreme_foldl, isExtreme_foldl⟩

/-! ## Completion -/

theorem lanesGet_of_issueLanes {res : Nat → Lanes → Nat → Thread → Option (Dst × List Word)} {P : Nat → Thread → Option (Dst × List Word) → Prop}
    (hi : exec i = issueLanes i f res) (h : CohortIssues s gn coh g ls act i f) (ne : act ≠ [])
    (hP : ∀ n t, P n t (res (widthOf f) (lanesOf act) n t)) : LanesGet i s ls act f P := by
  refine ⟨fun n t => res (widthOf f) (lanesOf act) n t, ?_, fun p _ => hP _ _⟩
  rw [LanesYield, hi]
  exact issueLanes_alone h ne

theorem scan_exclusive : (f.fn.toNat / 8 % 2 = 1) ↔ f.fn.getLsbD 3 = true := by
  rw [BitVec.getLsbD, Nat.testBit_eq_decide_div_mod_eq, decide_eq_true_iff]

theorem scan_count {n w : Nat} : n % w + (if f.fn.toNat / 8 % 2 = 1 then 0 else 1) = if f.fn.getLsbD 3 then n % w else n % w + 1 := by
  rw [if_congr scan_exclusive rfl rfl]
  split <;> rfl

theorem intersect_of_empty {xs ys : List (Nat × Nat)} (h : xs = [] ∨ ys = []) : intersect xs ys = ([], 0, 0) := by
  obtain rfl | rfl := h
  · rfl
  · cases xs <;> rfl

theorem intersect_matches {xs ys : List (Nat × Nat)} (hx : xs ≠ []) (hy : ys ≠ []) :
    (intersect xs ys).1 = xs.flatMap fun x => (ys.filter fun y => y.2 == x.2).map fun y => (x.1, y.1) := by
  rw [intersect, if_neg]
  simp [hx, hy]

/-- The result of `lisect` at the place `k` of a segment: the match there, and the counts that the window settles. -/
def isectResult (f : Fields) (k : Nat) (m : List (Nat × Nat) × Nat × Nat) : Option (Dst × List Word) :=
  some (dstOf f.d 2, [match m.1[k]? with | some p => BitVec.ofNat 32 (p.2 * 2 ^ 8 + p.1) | none => 0xFFFFFFFF,
    BitVec.ofNat 32 (m.2.2 * 2 ^ 20 + m.2.1 * 2 ^ 13 + m.1.length)])

/-- The present values of a lane's segment. -/
def isectList (w n : Nat) (ls : Lanes) (op : Thread → Word) : List (Nat × Nat) := present w ((ls.seg w n).map fun p => (p.1, op p.2))

theorem exec_lisect_eq : exec (.lisect f) = issueLanes (.lisect f) f fun w ls n _ => isectResult f (n % w)
    (intersect (isectList w n ls fun t => t.opA f) (isectList w n ls fun t => t.opB f)) := by
  funext s
  rw [exec_lisect, execLisect]
  refine congrArg (fun res => issueLanes (.lisect f) f res s) ?_
  funext w ls n t
  unfold isectResult isectList
  dsimp only
  congr 3
  split <;> simp_all

theorem exec_lred_eq : exec (.lred f) = issueLanes (.lred f) f fun w ls n _ => word1 f (laneCombine f.fn.toNat f.t
    (laneValues f f.fn.toNat ls (n - n % w) w)) := by
  funext s
  rw [exec_lred, execLred]

theorem exec_lscan_eq : exec (.lscan f) = issueLanes (.lscan f) f fun w ls n _ => word1 f (laneCombine (f.fn.toNat % 8) f.t
    (laneValues f (f.fn.toNat % 8) ls (n - n % w) (n % w + if f.fn.toNat / 8 % 2 = 1 then 0 else 1))) := by
  funext s
  rw [exec_lscan, execLscan]

/-- Settles O11: what each lane combines is `laneCombine` of its segment's values, and the parts say what that is. -/
theorem laneReductions : Obligations.LaneReductions := by
  refine ⟨fun s gn coh g l act f ne => ⟨fun h => ?red, fun h hf => ?sum, fun h => ?scan, fun h => ?isect⟩, fun ws =>
    ⟨fun t => laneCombine_integer, fun t k => laneCombine_bits, fun t op => laneCombine_nil, fun t n => laneCombine_sum_of_nan,
      fun t hn => ⟨laneCombine_sum_of_infs hn, fun i => laneCombine_sum_of_inf hn⟩, fun t => laneCombine_sum_finite, fun t => laneCombine_extreme⟩⟩
  case red => exact lanesGet_of_issueLanes exec_lred_eq h ne fun n t => rfl
  case sum =>
    refine lanesGet_of_issueLanes exec_lred_eq h ne fun n t => Exists.intro _ (And.intro rfl ?_)
    rw [hf]
    exact foldl_add_toNat.trans (by rw [BitVec.ofNat_eq_ofNat, BitVec.toNat_ofNat, Nat.zero_mod, Nat.zero_add]; rfl)
  case scan =>
    refine lanesGet_of_issueLanes exec_lscan_eq h ne fun n t => ?_
    rw [scan_count]
    rfl
  case isect =>
    refine lanesGet_of_issueLanes exec_lisect_eq h ne fun n t => ⟨fun empty => ?_, fun hx hy => ⟨intersect_matches hx hy, _, _, rfl, rfl, rfl⟩⟩
    exact (congrArg (isectResult f (n % widthOf f)) (intersect_of_empty empty)).trans rfl

end Sys2Proof.Machine
end

section
/-!
The bounds of approximate functions (R56) as real numbers: the ulp at an exact result, and a choice made from a value near it.
-/
namespace Sys2Proof.Machine
variable {x y V X bound : ℝ} {neg : Bool} {m k op : Nat} {e d : Int} {w a : Word}

/-- The ulp at an exact result. -/
noncomputable def ulpReal (x : ℝ) : ℝ := 2 ^ max (Int.log 2 |x| - 23) (-149 : Int)

/-- A finite word within a bound of an exact result, the bound being wider by 2^-90 of itself. -/
def Near (w : Word) (x bound : ℝ) : Prop := Finite32 w ∧ |wordVal w - x| ≤ bound * (1 + (2 : ℝ) ^ (-90 : Int))

theorem least_le_ulpReal : (2 : ℝ) ^ (-149 : Int) ≤ ulpReal x := zpow_le_zpow_right₀ one_le_two (le_max_right _ _)

theorem ulpReal_pos : 0 < ulpReal x := zpow_pos two_pos _

/-- An ulp is at least 2^-24 of its value. -/
theorem abs_le_ulpReal : |x| ≤ 2 ^ 24 * ulpReal x := by
  have below : |x| < (2 : ℝ) ^ (Int.log 2 |x| + 1) := by exact_mod_cast Int.lt_zpow_succ_log_self (b := 2) one_lt_two |x|
  refine below.le.trans ?_
  rw [ulpReal, ← zpow_natCast, ← zpow_add₀ two_ne_zero]
  refine zpow_le_zpow_right₀ one_le_two ?_
  have := le_max_left (Int.log 2 |x| - 23) (-149)
  push_cast
  omega

theorem ulpReal_mono (h : |x| ≤ |y|) (hx : x ≠ 0) : ulpReal x ≤ ulpReal y := by
  refine zpow_le_zpow_right₀ one_le_two (max_le_max_right _ (Int.sub_le_sub_right ?_ _))
  exact Int.log_mono_right (abs_pos.mpr hx) h

/-- Values that the same powers of two bound from below have the same ulps, but for those under the least ulp. -/
theorem ulpReal_le_of_powers (hx0 : x ≠ 0) (h : ∀ j : Int, -126 < j → (2 : ℝ) ^ j ≤ |x| → (2 : ℝ) ^ j ≤ |y|) : ulpReal x ≤ ulpReal y := by
  by_cases hx : -126 < Int.log 2 |x|
  · have xpos : 0 < |x| := abs_pos.mpr hx0
    have low : (2 : ℝ) ^ Int.log 2 |x| ≤ |x| := by exact_mod_cast Int.zpow_log_le_self (b := 2) one_lt_two xpos
    have := h _ hx low
    have ypos : 0 < |y| := lt_of_lt_of_le (by positivity) this
    refine zpow_le_zpow_right₀ one_le_two (max_le_max_right _ (Int.sub_le_sub_right ?_ _))
    exact (Int.zpow_le_iff_le_log one_lt_two ypos).mp (by exact_mod_cast this)
  · rw [ulpReal, max_eq_right (by omega)]
    exact least_le_ulpReal

/-- The ulp that the model takes at a value. -/
theorem two_zpow_ulpExp_eq (hm : m ≠ 0) : (2 : ℝ) ^ ulpExp m e = ulpReal (realVal neg m e) := by
  obtain ⟨low, high⟩ := log2_bounds (e := e) hm
  have pos : (0 : ℝ) < m * 2 ^ e := lt_of_lt_of_le (by positivity) low
  have log : Int.log 2 ((m : ℝ) * 2 ^ e) = Nat.log2 m + e := by
    refine le_antisymm (Int.lt_add_one_iff.mp ?_) ?_
    · exact (Int.lt_zpow_iff_log_lt one_lt_two pos).mp (by exact_mod_cast high)
    · exact (Int.zpow_le_iff_le_log one_lt_two pos).mp (by exact_mod_cast low)
  rw [ulpReal, abs_realVal, log, ulpExp, if_neg hm, ulpExp.floorLog2']

/-- A choice within `k` ulp of a value near the exact result. -/
theorem near_chosenUlp (hk : 1 ≤ k) (top : (m : ℝ) * 2 ^ (e + 149) ≤ unitsOf 0x7F7FFFFF) (ulp : m ≠ 0 → ulpReal (realVal neg m e) ≤ ulpReal X)
    (close : |realVal neg m e - X| ≤ ulpReal X * 2 ^ (-90 : Int)) : Near (chosenUlp op a neg m e k) X (k * ulpReal X) := by
  obtain ⟨fin, near⟩ := chosenUlp_close (op := op) (a := a) (neg := neg) hk top
  refine ⟨fin, ?_⟩
  have unit : (2 : ℝ) ^ ulpExp m e ≤ ulpReal X := by
    by_cases hm : m = 0
    · rw [ulpExp, if_pos hm]
      exact least_le_ulpReal
    · rw [two_zpow_ulpExp_eq (neg := neg) hm]
      exact ulp hm
  have kR : (1 : ℝ) ≤ k := by exact_mod_cast hk
  calc |wordVal (chosenUlp op a neg m e k) - X|
    _ ≤ |wordVal (chosenUlp op a neg m e k) - realVal neg m e| + |realVal neg m e - X| := abs_sub_le _ _ _
    _ ≤ k * ulpReal X + 1 * (ulpReal X * 2 ^ (-90 : Int)) := by
      rw [one_mul]
      gcongr
      exact near.trans (by gcongr)
    _ ≤ k * ulpReal X + k * (ulpReal X * 2 ^ (-90 : Int)) := by
      have : 0 ≤ ulpReal X * 2 ^ (-90 : Int) := mul_nonneg ulpReal_pos.le (by positivity)
      gcongr
    _ = k * ulpReal X * (1 + 2 ^ (-90 : Int)) := by ring

/-- A choice within a fixed bound of a value near the exact result. -/
theorem near_chosen (top : (m : ℝ) * 2 ^ (e + 149) ≤ unitsOf 0x7F7FFFFF) (unit : (2 : ℝ) ^ ulpExp m e / 2 ≤ k * 2 ^ d)
    (close : |realVal neg m e - X| ≤ k * 2 ^ d * 2 ^ (-90 : Int)) : Near (chosen op a neg m e k d) X (k * 2 ^ d) := by
  have near : Finite32 (chosen op a neg m e k d) ∧ |wordVal (chosen op a neg m e k d) - realVal neg m e| ≤ k * 2 ^ d := by
    obtain near | eq := chosen_cases (op := op) (a := a) (neg := neg) (m := m) (e := e) (k := k) (d := d)
    · exact near
    · rw [eq]
      obtain ⟨fin, near⟩ := toF32_nearest_real (neg := neg) top
      exact ⟨fin, near.trans unit⟩
  refine ⟨near.1, ?_⟩
  calc |wordVal (chosen op a neg m e k d) - X|
    _ ≤ |wordVal (chosen op a neg m e k d) - realVal neg m e| + |realVal neg m e - X| := abs_sub_le _ _ _
    _ ≤ k * 2 ^ d + k * 2 ^ d * 2 ^ (-90 : Int) := add_le_add near.2 close
    _ = k * 2 ^ d * (1 + 2 ^ (-90 : Int)) := by ring

theorem ulpReal_le_of_lt {j : Int} (hx : x ≠ 0) (h : |x| < 2 ^ (j + 1)) (hj : -149 ≤ j - 23) : ulpReal x ≤ 2 ^ (j - 23) := by
  refine zpow_le_zpow_right₀ one_le_two (max_le (Int.sub_le_sub_right ?_ _) hj)
  exact Int.lt_add_one_iff.mp ((Int.lt_zpow_iff_log_lt one_lt_two (abs_pos.mpr hx)).mp (by exact_mod_cast h))

theorem realVal_eq_zero_iff : realVal neg m e = 0 ↔ m = 0 := by
  rw [← abs_eq_zero, abs_realVal, mul_eq_zero, Nat.cast_eq_zero, or_iff_left (zpow_ne_zero _ two_ne_zero)]

/-- A choice within 2^-22 of a value near an exact result that is at most 1. -/
theorem near_of_abs_le_one (close : |realVal neg m e - X| ≤ 2 ^ (-112 : Int)) (one : |X| ≤ 1) :
    Near (chosen op a neg m e 1 (-22)) X (2 ^ (-22 : Int)) := by
  have lt : |realVal neg m e| < 2 := by
    have : |realVal neg m e| ≤ |realVal neg m e - X| + |X| := by simpa using abs_add_le (realVal neg m e - X) X
    have : (2 : ℝ) ^ (-112 : Int) < 1 := zpow_lt_one_of_neg₀ one_lt_two (by norm_num)
    linarith
  have near : Near (chosen op a neg m e 1 (-22)) X ((1 : Nat) * 2 ^ (-22 : Int)) := by
    refine near_chosen ?_ ?_ ?_
    · have top : 2 * 2 ^ 149 ≤ unitsOf 0x7F7FFFFF := by decide
      have top : (2 : ℝ) * 2 ^ (149 : Int) ≤ unitsOf 0x7F7FFFFF := by exact_mod_cast top
      rw [zpow_add₀ two_ne_zero, ← mul_assoc, ← abs_realVal (neg := neg)]
      exact (mul_le_mul_of_nonneg_right lt.le (by positivity)).trans top
    · by_cases hm : m = 0
      · rw [hm, ulpExp, if_pos rfl]
        norm_num
      · rw [two_zpow_ulpExp_eq (neg := neg) hm]
        have := ulpReal_le_of_lt (j := 0) (realVal_eq_zero_iff.not.mpr hm) (by norm_num; exact lt) (by norm_num)
        refine (div_le_div_of_nonneg_right this zero_le_two).trans ?_
        norm_num
    · refine close.trans ?_
      norm_num
  rwa [Nat.cast_one, one_mul] at near

end Sys2Proof.Machine
end

section
/-!
The fixed-point functions of the model as real numbers (R56): products, exponentials and the constants ln 2 and log2 e.
-/
namespace Sys2Proof.Machine
variable {t a b n fuel term c f : Nat}

/-! ## Fixed point -/

/-- The unit of fixed point, 2^-400. -/
noncomputable def fxUnit : ℝ := 2 ^ (-400 : Int)

theorem fxUnit_pos : 0 < fxUnit := zpow_pos two_pos _

theorem fxOne_mul_fxUnit : (fxOne : ℝ) * fxUnit = 1 := by
  rw [fxOne, fxUnit, Nat.cast_pow, Nat.cast_ofNat, ← zpow_natCast, ← zpow_add₀ two_ne_zero]
  rfl

theorem fxOne_pos : 0 < fxOne := Nat.two_pow_pos _

theorem fxMul_le : (fxMul a b : ℝ) * fxUnit ≤ a * fxUnit * (b * fxUnit) := by
  have le : fxMul a b * fxOne ≤ a * b := Nat.div_mul_le_self _ _
  have le : (fxMul a b : ℝ) * fxOne ≤ a * b := by exact_mod_cast le
  have := mul_le_mul_of_nonneg_right le (mul_pos fxUnit_pos fxUnit_pos).le
  calc (fxMul a b : ℝ) * fxUnit = fxMul a b * fxOne * (fxUnit * fxUnit) := by rw [mul_assoc _ (fxOne : ℝ), ← mul_assoc (fxOne : ℝ), fxOne_mul_fxUnit, one_mul]
    _ ≤ a * b * (fxUnit * fxUnit) := this
    _ = a * fxUnit * (b * fxUnit) := by ring

theorem lt_fxMul : a * fxUnit * (b * fxUnit) < (fxMul a b : ℝ) * fxUnit + fxUnit := by
  have lt : a * b < (fxMul a b + 1) * fxOne := (Nat.div_lt_iff_lt_mul fxOne_pos).mp (Nat.lt_succ_self _)
  have lt : (a : ℝ) * b < (fxMul a b + 1) * fxOne := by exact_mod_cast lt
  have := mul_lt_mul_of_pos_right lt (mul_pos fxUnit_pos fxUnit_pos)
  calc (a : ℝ) * fxUnit * (b * fxUnit) = a * b * (fxUnit * fxUnit) := by ring
    _ < (fxMul a b + 1) * fxOne * (fxUnit * fxUnit) := this
    _ = (fxMul a b + 1) * (fxOne * fxUnit) * fxUnit := by ring
    _ = fxMul a b * fxUnit + fxUnit := by rw [fxOne_mul_fxUnit]; ring

theorem div_bounds (hc : 0 < c) : ((a / c : Nat) : ℝ) * c ≤ a ∧ (a : ℝ) < ((a / c : Nat) + 1) * c := by
  constructor
  · exact_mod_cast Nat.div_mul_le_self a c
  · exact_mod_cast (Nat.div_lt_iff_lt_mul hc).mp (Nat.lt_succ_self (a / c))

/-! ## The exponential -/

/-- The next term of the series of the exponential: it lies below the exact term, by two units more than the term before. -/
theorem expTerm_step {x : ℝ} (hx : x = t * fxUnit) (ht : t ≤ fxOne) {T : ℝ} (low : term * fxUnit ≤ T) (high : T ≤ term * fxUnit + c * fxUnit) :
    ((fxMul term t / (n + 1) : Nat) : ℝ) * fxUnit ≤ T * x / (n + 1) ∧
    T * x / (n + 1) ≤ ((fxMul term t / (n + 1) : Nat) : ℝ) * fxUnit + (c + 2 : Nat) * fxUnit := by
  have u := fxUnit_pos
  have hx0 : 0 ≤ x := by rw [hx]; positivity
  have hx1 : x ≤ 1 := by
    rw [hx, ← fxOne_mul_fxUnit]
    have : (t : ℝ) ≤ fxOne := by exact_mod_cast ht
    gcongr
  have npos : (0 : ℝ) < n + 1 := by positivity
  have mul1 := fxMul_le (a := term) (b := t)
  have mul2 := lt_fxMul (a := term) (b := t)
  rw [← hx] at mul1 mul2
  obtain ⟨div1, div2⟩ := div_bounds (a := fxMul term t) (c := n + 1) (Nat.succ_pos n)
  push_cast at div1 div2
  have one : (1 : ℝ) ≤ n + 1 := by
    have : (0 : ℝ) ≤ n := Nat.cast_nonneg n
    linarith
  constructor
  · rw [le_div_iff₀ npos]
    calc ((fxMul term t / (n + 1) : Nat) : ℝ) * fxUnit * (n + 1) = ((fxMul term t / (n + 1) : Nat) : ℝ) * (n + 1) * fxUnit := by ring
      _ ≤ fxMul term t * fxUnit := by gcongr
      _ ≤ term * fxUnit * x := mul1
      _ ≤ T * x := by gcongr
  · rw [div_le_iff₀ npos]
    push_cast
    calc T * x ≤ (term * fxUnit + c * fxUnit) * x := by gcongr
      _ = term * fxUnit * x + c * fxUnit * x := by ring
      _ ≤ (fxMul term t * fxUnit + fxUnit) + c * fxUnit * 1 := by gcongr
      _ ≤ (((fxMul term t / (n + 1) : Nat) : ℝ) + 1) * (n + 1) * fxUnit + fxUnit + c * fxUnit * 1 := by gcongr
      _ ≤ (((fxMul term t / (n + 1) : Nat) : ℝ) + 1) * (n + 1) * fxUnit + fxUnit * (n + 1) + c * fxUnit * (n + 1) := by
        gcongr
        exact le_mul_of_one_le_right u.le one
      _ = (((fxMul term t / (n + 1) : Nat) : ℝ) * fxUnit + (c + 2) * fxUnit) * (n + 1) := by ring

/-- The sum of cut-off terms lies below the sum of exact ones. -/
theorem expTerms_close {x : ℝ} (hx : x = t * fxUnit) (ht : t ≤ fxOne) (low : term * fxUnit ≤ x ^ n / n.factorial)
    (high : x ^ n / n.factorial ≤ term * fxUnit + (2 * n : Nat) * fxUnit) :
    expTerms t fuel n term * fxUnit ≤ ∑ i ∈ Finset.range fuel, x ^ (n + i) / (n + i).factorial ∧
    ∑ i ∈ Finset.range fuel, x ^ (n + i) / (n + i).factorial ≤ expTerms t fuel n term * fxUnit + (fuel * (2 * (n + fuel)) : Nat) * fxUnit := by
  have u := fxUnit_pos
  induction fuel generalizing n term with
  | zero => exact ⟨by rw [expTerms, Nat.cast_zero, zero_mul, Finset.sum_range_zero], by
      rw [expTerms, Nat.cast_zero, zero_mul, Finset.sum_range_zero, Nat.zero_mul, Nat.cast_zero, zero_mul, add_zero]⟩
  | succ fuel ih =>
    have next : x ^ n / n.factorial * x / (n + 1) = x ^ (n + 1) / (n + 1).factorial := by
      rw [Nat.factorial_succ]
      push_cast
      have : (n.factorial : ℝ) ≠ 0 := by exact_mod_cast n.factorial_ne_zero
      have : (n : ℝ) + 1 ≠ 0 := by positivity
      field_simp
      ring
    obtain ⟨low', high'⟩ := expTerm_step (n := n) hx ht low high
    rw [next] at low' high'
    obtain ⟨ih1, ih2⟩ := ih low' (by rw [Nat.mul_succ]; exact high')
    have shift : ∑ i ∈ Finset.range fuel, x ^ (n + (i + 1)) / (n + (i + 1)).factorial =
        ∑ i ∈ Finset.range fuel, x ^ (n + 1 + i) / (n + 1 + i).factorial :=
      Finset.sum_congr rfl fun i _ => by rw [Nat.add_right_comm, Nat.add_assoc]
    rw [Finset.sum_range_succ', expTerms, shift, add_zero]
    have count : (((fuel + 1) * (2 * (n + (fuel + 1))) : Nat) : ℝ) * fxUnit =
        (fuel * (2 * (n + 1 + fuel)) : Nat) * fxUnit + (2 * n : Nat) * fxUnit + 2 * (fuel + 1 : Nat) * fxUnit := by
      push_cast
      ring
    rw [Nat.cast_add term]
    constructor
    · linarith
    · have : 0 ≤ 2 * ((fuel + 1 : Nat) : ℝ) * fxUnit := by positivity
      linarith

theorem factorial_90 : 2 ^ 450 ≤ (90).factorial := by decide

theorem fxUnit_mul_two_pow : fxUnit * 2 ^ 400 = 1 := by
  rw [fxUnit, zpow_neg]
  exact inv_mul_cancel₀ (by positivity)

theorem exp_tail {x F : ℝ} (hx0 : 0 ≤ x) (hx1 : x ≤ 1) (hF : 2 ^ 450 ≤ F) : x ^ 90 * ((90 : Nat) + 1) / (F * (90 : Nat)) ≤ fxUnit := by
  have u := fxUnit_pos
  have pow : x ^ 90 ≤ 1 := pow_le_one₀ hx0 hx1
  have Fpos : 0 < F := lt_of_lt_of_le (by positivity) hF
  rw [div_le_iff₀ (by positivity)]
  calc x ^ 90 * ((90 : Nat) + 1) ≤ 1 * ((90 : Nat) + 1) := by gcongr
    _ ≤ 2 ^ 50 * (90 : Nat) := by norm_num
    _ = fxUnit * (2 ^ 450 * (90 : Nat)) := by
      rw [pow_add 2 400 50]
      linear_combination -((2 : ℝ) ^ 50 * (90 : Nat)) * fxUnit_mul_two_pow
    _ ≤ fxUnit * (F * (90 : Nat)) := by gcongr

/-- The exponential in fixed point: at most 2^14 units under the exact one. -/
theorem exp_close (ht : t ≤ fxOne) : expTerms t 90 0 fxOne * fxUnit ≤ Real.exp (t * fxUnit) ∧
    Real.exp (t * fxUnit) ≤ expTerms t 90 0 fxOne * fxUnit + 2 ^ 14 * fxUnit := by
  have u := fxUnit_pos
  have hx0 : 0 ≤ t * fxUnit := by positivity
  have hx1 : t * fxUnit ≤ 1 := by
    rw [← fxOne_mul_fxUnit]
    have : (t : ℝ) ≤ fxOne := by exact_mod_cast ht
    gcongr
  obtain ⟨low, high⟩ := expTerms_close (fuel := 90) (n := 0) (term := fxOne) rfl ht (by rw [fxOne_mul_fxUnit]; simp)
    (by rw [fxOne_mul_fxUnit]; simp)
  simp only [zero_add] at low high
  refine ⟨low.trans (Real.sum_le_exp_of_nonneg hx0 90), (Real.exp_bound' hx0 hx1 (by decide : 0 < 90)).trans ?_⟩
  have tail := exp_tail (F := (Nat.factorial 90 : Nat)) hx0 hx1 (by exact_mod_cast factorial_90)
  push_cast at high
  linarith

end Sys2Proof.Machine
end

section
/-!
The constants ln 2 and log2 e in fixed point, and powers of two; `fex2` comes within its bound (R56).
-/
namespace Sys2Proof.Machine
variable {f m op : Nat} {x y : ℝ} {e N : Int} {a : Word}

/-! ## ln 2 and log2 e -/

theorem expTerms_fxLn2 : expTerms fxLn2 90 0 fxOne ≤ 2 * fxOne ∧ 2 * fxOne ≤ expTerms fxLn2 90 0 fxOne + 2 ^ 6 := by decide +kernel

theorem fxLn2_le : fxLn2 ≤ fxOne := by decide +kernel

theorem log_two_close : |fxLn2 * fxUnit - Real.log 2| ≤ 2 ^ 13 * fxUnit := by
  have u := fxUnit_pos
  obtain ⟨low, high⟩ := exp_close fxLn2_le
  obtain ⟨near1, near2⟩ := expTerms_fxLn2
  have near1 : (expTerms fxLn2 90 0 fxOne : ℝ) * fxUnit ≤ 2 := by
    have : (expTerms fxLn2 90 0 fxOne : ℝ) ≤ 2 * fxOne := by exact_mod_cast near1
    calc (expTerms fxLn2 90 0 fxOne : ℝ) * fxUnit ≤ 2 * fxOne * fxUnit := by gcongr
      _ = 2 := by rw [mul_assoc, fxOne_mul_fxUnit, mul_one]
  have near2 : 2 ≤ (expTerms fxLn2 90 0 fxOne : ℝ) * fxUnit + 2 ^ 6 * fxUnit := by
    have : 2 * (fxOne : ℝ) ≤ expTerms fxLn2 90 0 fxOne + 2 ^ 6 := by exact_mod_cast near2
    have := mul_le_mul_of_nonneg_right this u.le
    rw [mul_assoc, fxOne_mul_fxUnit, mul_one, add_mul] at this
    exact this
  generalize (expTerms fxLn2 90 0 fxOne : ℝ) * fxUnit = E at *
  generalize hL : (fxLn2 : ℝ) * fxUnit = L at *
  have one : 1 ≤ Real.exp L := Real.one_le_exp (by rw [← hL]; positivity)
  rw [abs_le]
  constructor
  · -- ln 2 - L is ln (2 / exp L)
    have := Real.log_le_sub_one_of_pos (x := 2 / Real.exp L) (by positivity)
    rw [Real.log_div two_ne_zero (Real.exp_ne_zero _), Real.log_exp] at this
    have : 2 / Real.exp L - 1 ≤ 2 ^ 6 * fxUnit := by
      rw [sub_le_iff_le_add, div_le_iff₀ (by positivity)]
      nlinarith
    linarith
  · have := Real.log_le_sub_one_of_pos (x := Real.exp L / 2) (by positivity)
    rw [Real.log_div (Real.exp_ne_zero _) two_ne_zero, Real.log_exp] at this
    linarith

theorem fxLn2_mul_fxLog2e : fxLn2 * fxLog2e ≤ fxOne * fxOne ∧ fxOne * fxOne ≤ fxLn2 * fxLog2e + fxOne := by decide +kernel

theorem fxLog2e_le : fxLog2e ≤ 2 * fxOne := by decide +kernel

theorem log2e_close : |fxLog2e * fxUnit * Real.log 2 - 1| ≤ 2 ^ 15 * fxUnit := by
  have u := fxUnit_pos
  have product : |fxLog2e * fxUnit * (fxLn2 * fxUnit) - 1| ≤ fxUnit := by
    obtain ⟨low, high⟩ := fxLn2_mul_fxLog2e
    have low : (fxLn2 : ℝ) * fxLog2e ≤ fxOne * fxOne := by exact_mod_cast low
    have high : (fxOne : ℝ) * fxOne ≤ fxLn2 * fxLog2e + fxOne := by exact_mod_cast high
    have low := mul_le_mul_of_nonneg_right low (mul_pos u u).le
    have high := mul_le_mul_of_nonneg_right high (mul_pos u u).le
    have one := fxOne_mul_fxUnit
    have square : (fxOne : ℝ) * fxOne * (fxUnit * fxUnit) = 1 := by
      rw [mul_mul_mul_comm, one, one_mul]
    have line : ((fxLn2 : ℝ) * fxLog2e + fxOne) * (fxUnit * fxUnit) = fxLog2e * fxUnit * (fxLn2 * fxUnit) + fxUnit := by
      linear_combination fxUnit * one
    rw [square] at low high
    rw [line] at high
    have swap : (fxLn2 : ℝ) * fxLog2e * (fxUnit * fxUnit) = fxLog2e * fxUnit * (fxLn2 * fxUnit) := by ring
    rw [swap] at low
    rw [abs_le]
    constructor <;> linarith
  have bound : (fxLog2e : ℝ) * fxUnit ≤ 2 := by
    have : (fxLog2e : ℝ) ≤ 2 * fxOne := by exact_mod_cast fxLog2e_le
    calc (fxLog2e : ℝ) * fxUnit ≤ 2 * fxOne * fxUnit := by gcongr
      _ = 2 := by rw [mul_assoc, fxOne_mul_fxUnit, mul_one]
  have two := log_two_close
  rw [abs_sub_comm] at two
  calc |fxLog2e * fxUnit * Real.log 2 - 1|
    _ = |fxLog2e * fxUnit * (Real.log 2 - fxLn2 * fxUnit) + (fxLog2e * fxUnit * (fxLn2 * fxUnit) - 1)| := by congr 1; ring
    _ ≤ fxLog2e * fxUnit * |Real.log 2 - fxLn2 * fxUnit| + |fxLog2e * fxUnit * (fxLn2 * fxUnit) - 1| := by
      refine (abs_add_le _ _).trans_eq ?_
      rw [abs_mul, abs_of_nonneg (a := (fxLog2e : ℝ) * fxUnit) (by positivity)]
    _ ≤ 2 * (2 ^ 13 * fxUnit) + fxUnit := by gcongr
    _ ≤ 2 ^ 15 * fxUnit := by linarith

/-! ## Powers of two -/

theorem exp_sub_exp_le {b c : ℝ} (hb : b ≤ 1) (hc : c ≤ 1) : |Real.exp b - Real.exp c| ≤ 3 * |b - c| := by
  have three {x : ℝ} (hx : x ≤ 1) : Real.exp x ≤ 3 := (Real.exp_le_exp.mpr hx).trans (Real.exp_one_lt_d9.le.trans (by norm_num))
  have one (x y : ℝ) (hx : x ≤ 1) : Real.exp x - Real.exp y ≤ 3 * |x - y| := by
    have tangent := mul_le_mul_of_nonneg_left (Real.add_one_le_exp (y - x)) (Real.exp_pos x).le
    rw [← Real.exp_add, add_sub_cancel] at tangent
    calc Real.exp x - Real.exp y ≤ Real.exp x * (x - y) := by linarith
      _ ≤ Real.exp x * |x - y| := mul_le_mul_of_nonneg_left (le_abs_self _) (Real.exp_pos x).le
      _ ≤ 3 * |x - y| := mul_le_mul_of_nonneg_right (three hx) (abs_nonneg _)
  have := one c b hc
  rw [abs_sub_comm c b] at this
  exact abs_le.mpr ⟨by linarith, one b c hb⟩

theorem two_rpow_eq_exp : (2 : ℝ) ^ y = Real.exp (Real.log 2 * y) := Real.rpow_def_of_pos two_pos y

/-- A power of two in fixed point. -/
theorem fxExp2_close (hf : f ≤ fxOne) : |fxExp2 f * fxUnit - (2 : ℝ) ^ (f * fxUnit)| ≤ 2 ^ 16 * fxUnit := by
  have u := fxUnit_pos
  have f1 : (f : ℝ) * fxUnit ≤ 1 := by
    rw [← fxOne_mul_fxUnit]
    have : (f : ℝ) ≤ fxOne := by exact_mod_cast hf
    gcongr
  have f0 : 0 ≤ (f : ℝ) * fxUnit := by positivity
  have mul1 := fxMul_le (a := f) (b := fxLn2)
  have mul2 := lt_fxMul (a := f) (b := fxLn2)
  have small : fxMul f fxLn2 ≤ fxOne := by
    refine Nat.div_le_of_le_mul ?_
    exact Nat.mul_le_mul hf fxLn2_le
  obtain ⟨low, high⟩ := exp_close small
  rw [two_rpow_eq_exp]
  have ln := Real.log_two_lt_d9
  have ln0 := Real.log_two_gt_d9
  obtain ⟨two1, two2⟩ := abs_le.mp log_two_close
  have arg : |fxMul f fxLn2 * fxUnit - Real.log 2 * (f * fxUnit)| ≤ 2 ^ 14 * fxUnit := by
    have up : (f : ℝ) * fxUnit * (fxLn2 * fxUnit - Real.log 2) ≤ 1 * (2 ^ 13 * fxUnit) :=
      (mul_le_mul_of_nonneg_left two2 f0).trans (mul_le_mul_of_nonneg_right f1 (by positivity))
    have down : (f : ℝ) * fxUnit * (Real.log 2 - fxLn2 * fxUnit) ≤ 1 * (2 ^ 13 * fxUnit) :=
      (mul_le_mul_of_nonneg_left (by linarith) f0).trans (mul_le_mul_of_nonneg_right f1 (by positivity))
    rw [abs_le]
    constructor <;> linarith
  have arg1 : (fxMul f fxLn2 : ℝ) * fxUnit ≤ 1 := by
    rw [← fxOne_mul_fxUnit]
    have : (fxMul f fxLn2 : ℝ) ≤ fxOne := by exact_mod_cast small
    gcongr
  have arg2 : Real.log 2 * (f * fxUnit) ≤ 1 := by
    calc Real.log 2 * (f * fxUnit) ≤ 1 * 1 := mul_le_mul (by linarith) f1 f0 zero_le_one
      _ = 1 := one_mul 1
  have exps := (exp_sub_exp_le arg1 arg2).trans (mul_le_mul_of_nonneg_left arg (by norm_num))
  have series : |fxExp2 f * fxUnit - Real.exp (fxMul f fxLn2 * fxUnit)| ≤ 2 ^ 14 * fxUnit := by
    rw [abs_le, fxExp2]
    constructor <;> linarith
  refine (abs_sub_le _ (Real.exp (fxMul f fxLn2 * fxUnit)) _).trans ?_
  linarith

theorem one_add_half_le_two_rpow (hy : 0 ≤ y) : 1 + y / 2 ≤ (2 : ℝ) ^ y := by
  rw [two_rpow_eq_exp]
  have := Real.add_one_le_exp (Real.log 2 * y)
  have ln := Real.log_two_gt_d9
  nlinarith

end Sys2Proof.Machine
end

section
/-!
`fex2` comes within its bound (R56).
-/
namespace Sys2Proof.Machine
variable {f m op : Nat} {x y : ℝ} {e N k : Int} {a : Word} {neg : Bool}

theorem fxUnit_small : 2 ^ 16 * fxUnit ≤ 2 ^ (-384 : Int) := by
  rw [fxUnit, ← zpow_natCast, ← zpow_add₀ two_ne_zero]
  norm_num

/-- Below a power of two, a power of two with an exponent that is a multiple of 2^-149 is far from it. -/
theorem two_rpow_gap {j : Int} (hx : x = k * 2 ^ (-149 : Int)) (h : (2 : ℝ) ^ x < 2 ^ j) : (2 : ℝ) ^ x * (1 + 2 ^ (-150 : Int)) ≤ 2 ^ j := by
  have lt : x < j := by
    rw [← Real.rpow_intCast] at h
    exact (Real.rpow_lt_rpow_left_iff one_lt_two).mp h
  have step : x + 2 ^ (-149 : Int) ≤ j := by
    have unit : (0 : ℝ) < 2 ^ (149 : Int) := by positivity
    have scaled : (k : ℝ) < j * 2 ^ (149 : Nat) := by
      have := mul_lt_mul_of_pos_right lt unit
      rw [hx, mul_assoc, mul_comm ((2 : ℝ) ^ (-149 : Int)), two_zpow_149, mul_one] at this
      exact this
    have scaled : k < j * 2 ^ (149 : Nat) := by exact_mod_cast scaled
    have scaled : (k : ℝ) + 1 ≤ j * 2 ^ (149 : Int) := by exact_mod_cast Int.add_one_le_iff.mpr scaled
    have := mul_le_mul_of_nonneg_right scaled (by positivity : (0 : ℝ) ≤ 2 ^ (-149 : Int))
    rw [mul_assoc, two_zpow_149] at this
    rw [hx]
    linarith
  have factor : 1 + (2 : ℝ) ^ (-150 : Int) ≤ (2 : ℝ) ^ ((2 : ℝ) ^ (-149 : Int)) := by
    refine le_trans ?_ (one_add_half_le_two_rpow (by positivity))
    norm_num
  calc (2 : ℝ) ^ x * (1 + 2 ^ (-150 : Int)) ≤ (2 : ℝ) ^ x * (2 : ℝ) ^ ((2 : ℝ) ^ (-149 : Int)) := by gcongr
    _ = (2 : ℝ) ^ (x + 2 ^ (-149 : Int)) := (Real.rpow_add two_pos _ _).symm
    _ ≤ (2 : ℝ) ^ (j : ℝ) := Real.rpow_le_rpow_of_exponent_le one_le_two step
    _ = 2 ^ j := Real.rpow_intCast 2 j

/-- Powers of two up to the greatest finite operand stay within the finite values. -/
theorem two_rpow_top (hx : x ≤ 128 - 2 ^ (-17 : Int)) : (2 : ℝ) ^ x * (1 + 2 ^ (-384 : Int)) * 2 ^ (149 : Int) ≤ unitsOf 0x7F7FFFFF := by
  have factor : 1 + (2 : ℝ) ^ (-18 : Int) ≤ (2 : ℝ) ^ ((2 : ℝ) ^ (-17 : Int)) := by
    refine le_trans ?_ (one_add_half_le_two_rpow (by positivity))
    norm_num
  have below : (2 : ℝ) ^ x * (1 + 2 ^ (-18 : Int)) ≤ 2 ^ (128 : Int) := by
    calc (2 : ℝ) ^ x * (1 + 2 ^ (-18 : Int)) ≤ (2 : ℝ) ^ x * (2 : ℝ) ^ ((2 : ℝ) ^ (-17 : Int)) := by gcongr
      _ = (2 : ℝ) ^ (x + 2 ^ (-17 : Int)) := (Real.rpow_add two_pos _ _).symm
      _ ≤ (2 : ℝ) ^ ((128 : Int) : ℝ) := Real.rpow_le_rpow_of_exponent_le one_le_two (by push_cast; linarith)
      _ = 2 ^ (128 : Int) := Real.rpow_intCast 2 128
  have top : (unitsOf 0x7F7FFFFF : ℝ) = (2 ^ 24 - 1) * 2 ^ (253 : Int) := by
    have : unitsOf 0x7F7FFFFF = (2 ^ 24 - 1) * 2 ^ 253 := by decide
    rw [this]
    norm_num
  have room : (1 + (2 : ℝ) ^ (-384 : Int)) ≤ (1 + 2 ^ (-18 : Int)) * (1 - 2 ^ (-24 : Int)) := by
    have : (2 : ℝ) ^ (-384 : Int) ≤ 2 ^ (-20 : Int) := zpow_le_zpow_right₀ one_le_two (by norm_num)
    refine (add_le_add_right this 1).trans ?_
    norm_num
  rw [top]
  calc (2 : ℝ) ^ x * (1 + 2 ^ (-384 : Int)) * 2 ^ (149 : Int)
    _ ≤ (2 : ℝ) ^ x * ((1 + 2 ^ (-18 : Int)) * (1 - 2 ^ (-24 : Int))) * 2 ^ (149 : Int) := by gcongr
    _ = (2 : ℝ) ^ x * (1 + 2 ^ (-18 : Int)) * ((1 - 2 ^ (-24 : Int)) * 2 ^ (149 : Int)) := by ring
    _ ≤ 2 ^ (128 : Int) * ((1 - 2 ^ (-24 : Int)) * 2 ^ (149 : Int)) := by
      gcongr
    _ = (2 ^ 24 - 1) * 2 ^ (253 : Int) := by norm_num

/-- A choice within two ulp of a value near a positive result that no power of two is close above. -/
theorem near_of_gap {X : ℝ} (Xpos : 0 < X) (close : |realVal false m e - X| ≤ X * 2 ^ (-384 : Int))
    (top : X * (1 + 2 ^ (-384 : Int)) * 2 ^ (149 : Int) ≤ unitsOf 0x7F7FFFFF) (gap : ∀ j : Int, X < 2 ^ j → X * (1 + 2 ^ (-150 : Int)) ≤ 2 ^ j) :
    Near (chosenUlp op a false m e 2) X (2 * ulpReal X) := by
  have abs := abs_realVal (neg := false) (m := m) (e := e)
  have value : realVal false m e = m * 2 ^ e := rfl
  have nonneg : 0 ≤ realVal false m e := by rw [value]; positivity
  have Vle : realVal false m e ≤ X * (1 + 2 ^ (-384 : Int)) := by
    have := (abs_le.mp close).2
    linarith
  refine near_chosenUlp (k := 2) one_le_two ?_ (fun hm => ulpReal_le_of_powers ?_ fun j _ hj => ?_) ?_
  · rw [zpow_add₀ two_ne_zero, ← mul_assoc, ← value]
    exact (mul_le_mul_of_nonneg_right Vle (by positivity)).trans top
  · have : (0 : ℝ) < m := by exact_mod_cast Nat.pos_of_ne_zero hm
    rw [value]
    positivity
  · rw [abs_of_pos Xpos]
    rw [abs_of_nonneg nonneg] at hj
    by_contra h
    have far := gap j (not_le.mp h)
    have small : (2 : ℝ) ^ (-384 : Int) < 2 ^ (-150 : Int) := zpow_lt_zpow_right₀ one_lt_two (by norm_num)
    have := mul_lt_mul_of_pos_left small Xpos
    linarith
  · refine close.trans ?_
    have ulp := abs_le_ulpReal (x := X)
    rw [abs_of_pos Xpos] at ulp
    calc X * 2 ^ (-384 : Int) ≤ 2 ^ 24 * ulpReal X * 2 ^ (-384 : Int) := by gcongr
      _ = ulpReal X * (2 ^ 24 * 2 ^ (-384 : Int)) := by ring
      _ ≤ ulpReal X * 2 ^ (-90 : Int) := by
        refine mul_le_mul_of_nonneg_left ?_ ulpReal_pos.le
        rw [← zpow_natCast, ← zpow_add₀ two_ne_zero]
        exact zpow_le_zpow_right₀ one_le_two (by norm_num)

/-- The choice of `fex2` for an operand in fixed point. -/
theorem near_exp2 (hf : f ≤ fxOne) (hx : x = N + f * fxUnit) (whole : x = k * 2 ^ (-149 : Int)) (high : x ≤ 128 - 2 ^ (-17 : Int)) :
    Near (chosenUlp op a false (fxExp2 f) (N - 400) 2) ((2 : ℝ) ^ x) (2 * ulpReal ((2 : ℝ) ^ x)) := by
  have value : realVal false (fxExp2 f) (N - 400) = 2 ^ N * (fxExp2 f * fxUnit) := by
    rw [realVal, sub_eq_add_neg, zpow_add₀ two_ne_zero, fxUnit]
    simp only [signed, Bool.false_eq_true, if_false, Int.cast_natCast]
    ring
  have power : (2 : ℝ) ^ x = 2 ^ N * (2 : ℝ) ^ (f * fxUnit) := by
    rw [hx, Real.rpow_add two_pos, Real.rpow_intCast]
  have Npos : (0 : ℝ) < 2 ^ N := by positivity
  have one : 1 ≤ (2 : ℝ) ^ (f * fxUnit) := Real.one_le_rpow one_le_two (mul_nonneg (Nat.cast_nonneg _) fxUnit_pos.le)
  refine near_of_gap (Real.rpow_pos_of_pos two_pos x) ?_ (two_rpow_top high) fun j => two_rpow_gap whole
  rw [value, power, ← mul_sub, abs_mul, abs_of_pos Npos, mul_assoc]
  refine mul_le_mul_of_nonneg_left ?_ Npos.le
  calc |fxExp2 f * fxUnit - (2 : ℝ) ^ (f * fxUnit)| ≤ 2 ^ (-384 : Int) := (fxExp2_close hf).trans fxUnit_small
    _ ≤ (2 : ℝ) ^ (f * fxUnit) * 2 ^ (-384 : Int) := le_mul_of_one_le_left (by positivity) one

/-! ## The operand in fixed point -/

theorem fxOf_mul_fxUnit (h : -400 ≤ e) : (fxOf m e : ℝ) * fxUnit = m * 2 ^ e := by
  unfold fxOf fxUnit fxBits
  split
  · next he =>
    have exp : ((e.toNat + 400 : Nat) : Int) + -400 = e := by omega
    rw [Nat.cast_mul, Nat.cast_pow, Nat.cast_ofNat, mul_assoc, ← zpow_natCast, ← zpow_add₀ two_ne_zero, exp]
  · next he =>
    have exp : ((400 - (-e).toNat : Nat) : Int) + -400 = e := by omega
    rw [Nat.cast_mul, Nat.cast_pow, Nat.cast_ofNat, mul_assoc, ← zpow_natCast, ← zpow_add₀ two_ne_zero, exp]

/-- A finite operand: its magnitude in fixed point is exact. -/
theorem Finite32.exists_fxOf (ha : Finite32 a) : ∃ m e, numF32 a = .fin a.msb m e ∧ (m = 0 ↔ f32Mag a = 0) ∧ -400 ≤ e ∧
    realVal a.msb m e = wordVal a ∧ (m : ℝ) * 2 ^ e = |wordVal a| ∧ fxOf m e * fxUnit = |wordVal a| := by
  have low : -400 ≤ -149 + (f32Exp (f32Mag a) : Int) := by omega
  have val : realVal a.msb (f32Sig (f32Mag a)) (-149 + f32Exp (f32Mag a)) = wordVal a := by
    rw [wordVal, ← finVal_word, finVal_eq_realVal, mul_assoc, two_zpow_149, mul_one]
  have mag := abs_realVal (neg := a.msb) (m := f32Sig (f32Mag a)) (e := -149 + f32Exp (f32Mag a))
  rw [val] at mag
  exact ⟨_, _, ha.numF32_eq, f32Sig_eq_zero, low, val, mag.symm, (fxOf_mul_fxUnit low).trans mag.symm⟩

theorem wordVal_nonneg (h : a.msb = false) : wordVal a = |wordVal a| := by
  rw [wordVal, signedUnits_eq, h, abs_of_nonneg]
  simp only [signed, Bool.false_eq_true, if_false, Int.cast_natCast]
  positivity

theorem wordVal_nonpos (h : a.msb = true) : wordVal a = -|wordVal a| := by
  rw [wordVal, signedUnits_eq, h, abs_of_nonpos, neg_neg]
  simp only [signed, if_true, Int.cast_neg, Int.cast_natCast]
  have : (0 : ℝ) ≤ unitsOf (f32Mag a) * 2 ^ (-149 : Int) := by positivity
  linarith

theorem abs_wordVal : |wordVal a| = unitsOf (f32Mag a) * 2 ^ (-149 : Int) := by
  rw [wordVal, abs_mul, abs_signedUnits, abs_of_pos (by positivity)]

theorem wordVal_lt_128 (h : wordVal a < 128) : wordVal a ≤ 128 - 2 ^ (-17 : Int) := by
  cases hs : a.msb with
  | true =>
    rw [wordVal_nonpos hs]
    have := abs_nonneg (wordVal a)
    have : (2 : ℝ) ^ (-17 : Int) ≤ 1 := by norm_num
    linarith
  | false =>
    have pos : (0 : ℝ) < 2 ^ (-149 : Int) := by positivity
    rw [wordVal_nonneg hs, abs_wordVal] at h ⊢
    have units (v c : Nat) (d : Nat) (hv : unitsOf v = c * 2 ^ d) : (unitsOf v : ℝ) * 2 ^ (-149 : Int) = c * 2 ^ (d - 149 : Int) := by
      rw [hv, Nat.cast_mul, Nat.cast_pow, Nat.cast_ofNat, mul_assoc, ← zpow_natCast, ← zpow_add₀ two_ne_zero]
      rfl
    have lt : f32Mag a < 0x43000000 := by
      refine fmtF32.units_strictMono.lt_iff_lt.mp ?_
      rw [units_fmtF32]
      have : (unitsOf 0x43000000 : ℝ) * 2 ^ (-149 : Int) = 128 := by
        rw [units 0x43000000 (2 ^ 23) 133 (by decide)]
        norm_num
      rw [← this, mul_lt_mul_iff_left₀ pos] at h
      exact_mod_cast h
    have le := fmtF32.units_strictMono.monotone (Nat.le_of_lt_succ lt)
    have : (unitsOf 0x42FFFFFF : ℝ) * 2 ^ (-149 : Int) = 128 - 2 ^ (-17 : Int) := by
      rw [units 0x42FFFFFF (2 ^ 24 - 1) 132 (by decide)]
      norm_num
    rw [← this]
    refine mul_le_mul_of_nonneg_right ?_ pos.le
    exact_mod_cast le

/-! ## `fex2` -/

theorem fex2Val_of_fin {m : Nat} (ha : numF32 a = .fin neg m e) : fex2Val a = if !neg && magLe 128 0 m e then toF32 0 (.inf false)
    else if neg && magLe 1000 0 m e then chosen 0x41 a false 1 (-1000) 2 (-149)
    else if !neg then chosenUlp 0x41 a false (fxExp2 (fxOf m e % fxOne)) ((fxOf m e / fxOne : Nat) - (fxBits : Int)) 2
    else chosenUlp 0x41 a false (fxExp2 ((fxOf m e + fxOne - 1) / fxOne * fxOne - fxOf m e)) (-((fxOf m e + fxOne - 1) / fxOne : Nat) - fxBits) 2 := by
  unfold fex2Val
  rw [ha]

/-- Far below zero the result is near zero. -/
theorem near_exp2_least (hx : x ≤ -1000) : Near (chosen op a false 1 (-1000) 2 (-149)) ((2 : ℝ) ^ x) (2 * ulpReal ((2 : ℝ) ^ x)) := by
  have small : (2 : ℝ) ^ (-1000 : Int) ≤ 2 ^ (-149 : Int) * 2 ^ (-90 : Int) / 2 := by
    have : (2 : ℝ) ^ (-149 : Int) * 2 ^ (-90 : Int) / 2 = 2 ^ (-240 : Int) := by
      rw [← zpow_add₀ two_ne_zero, div_eq_mul_inv, ← zpow_sub_one₀ two_ne_zero]
      rfl
    rw [this]
    exact zpow_le_zpow_right₀ one_le_two (by norm_num)
  have X0 : 0 < (2 : ℝ) ^ x := Real.rpow_pos_of_pos two_pos x
  have X1 : (2 : ℝ) ^ x ≤ 2 ^ (-1000 : Int) := by
    rw [← Real.rpow_intCast]
    exact Real.rpow_le_rpow_of_exponent_le one_le_two (by push_cast; exact hx)
  have value : realVal false 1 (-1000) = 2 ^ (-1000 : Int) := by
    rw [realVal]
    simp [signed]
  obtain ⟨fin, near⟩ := near_chosen (op := op) (a := a) (neg := false) (m := 1) (e := -1000) (k := 2) (d := -149) (X := (2 : ℝ) ^ x)
    (by
      have : ((1 : Nat) : ℝ) * 2 ^ (-1000 + 149 : Int) ≤ 1 := by
        rw [Nat.cast_one, one_mul]
        exact zpow_le_one_of_nonpos₀ one_le_two (by norm_num)
      refine this.trans ?_
      have : 1 ≤ unitsOf 0x7F7FFFFF := by decide
      exact_mod_cast this)
    (by
      have : ulpExp 1 (-1000) = -149 := by decide
      rw [this]
      have : (0 : ℝ) < 2 ^ (-149 : Int) := by positivity
      push_cast
      linarith)
    (by
      have pos : (0 : ℝ) < 2 ^ (-149 : Int) * 2 ^ (-90 : Int) := by positivity
      rw [value, abs_of_nonneg (by linarith), Nat.cast_ofNat, mul_assoc]
      generalize (2 : ℝ) ^ (-149 : Int) * 2 ^ (-90 : Int) = D at *
      linarith)
  refine ⟨fin, near.trans ?_⟩
  have : (2 : ℝ) ^ (-149 : Int) ≤ ulpReal ((2 : ℝ) ^ x) := least_le_ulpReal
  push_cast
  gcongr

theorem fex2Val_near (ha : Finite32 a) (hx : wordVal a < 128) : Near (fex2Val a) ((2 : ℝ) ^ wordVal a) (2 * ulpReal ((2 : ℝ) ^ wordVal a)) := by
  obtain ⟨m, e, eq, -, -, -, mag, fx⟩ := ha.exists_fxOf
  have high := wordVal_lt_128 hx
  have one := fxOne_mul_fxUnit
  rw [fex2Val_of_fin eq]
  cases hs : a.msb with
  | false =>
    have abs := wordVal_nonneg hs
    have small : magLe 128 0 m e = false := by
      rw [Bool.eq_false_iff, ne_eq, magLe_iff, mag, ← abs, zpow_zero, mul_one]
      push_cast
      linarith
    simp only [small, Bool.not_false, Bool.and_false, Bool.false_and, Bool.false_eq_true, if_false, if_true]
    refine near_exp2 (N := (fxOf m e / fxOne : Nat)) (Nat.mod_lt _ fxOne_pos).le ?_ (k := signedUnits a) rfl high
    have split_ : (fxOf m e : ℝ) = fxOne * (fxOf m e / fxOne : Nat) + (fxOf m e % fxOne : Nat) := by exact_mod_cast (Nat.div_add_mod _ _).symm
    rw [abs, ← fx, split_, Int.cast_natCast]
    linear_combination ((fxOf m e / fxOne : Nat) : ℝ) * one
  | true =>
    have abs := wordVal_nonpos hs
    by_cases least : magLe 1000 0 m e = true
    · simp only [least, Bool.not_true, Bool.false_and, Bool.true_and, Bool.false_eq_true, if_false, if_true]
      refine near_exp2_least ?_
      rw [magLe_iff, mag, zpow_zero, mul_one] at least
      push_cast at least
      linarith
    · simp only [least, Bool.not_true, Bool.false_and, Bool.true_and, Bool.false_eq_true, if_false]
      set n := (fxOf m e + fxOne - 1) / fxOne with hn
      have cover : fxOf m e ≤ n * fxOne ∧ n * fxOne ≤ fxOf m e + fxOne := by
        have := fxOne_pos
        have low := Nat.div_mul_le_self (fxOf m e + fxOne - 1) fxOne
        have high := (Nat.div_lt_iff_lt_mul this).mp (Nat.lt_succ_self ((fxOf m e + fxOne - 1) / fxOne))
        rw [Nat.succ_mul] at high
        rw [← hn] at low high
        omega
      have push : ((-(n : Int) - fxBits : Int)) = -(n : Int) - 400 := rfl
      rw [push]
      refine near_exp2 (N := -(n : Int)) (by omega) ?_ (k := signedUnits a) rfl high
      rw [Nat.cast_sub cover.1, abs, ← fx]
      push_cast
      linear_combination -(n : ℝ) * one

end Sys2Proof.Machine
end

section
/-!
`flg2` comes within its bounds (R56).
-/
namespace Sys2Proof.Machine
variable {m n y acc op : Nat} {x X V : ℝ} {e k j : Int} {a : Word} {neg : Bool}

/-! ## The bits of a logarithm -/

theorem logb_add_le (hx : 1 ≤ x) : Real.logb 2 (x + fxUnit) ≤ Real.logb 2 x + 2 * fxUnit := by
  have u := fxUnit_pos
  have ln := Real.log_two_gt_d9
  have pos : 0 < x := by linarith
  have ratio := Real.log_le_sub_one_of_pos (x := (x + fxUnit) / x) (by positivity)
  rw [Real.log_div (by positivity) pos.ne', add_div, div_self pos.ne', add_sub_cancel_left] at ratio
  have small : fxUnit / x ≤ fxUnit := div_le_self u.le hx
  rw [Real.logb, Real.logb, ← sub_le_iff_le_add', ← sub_div, div_le_iff₀ (by linarith)]
  nlinarith

/-- The bits lie below the logarithm, and it lies below the bits and one more. -/
theorem log2Bits_close (low : fxOne ≤ y) (high : y < 2 * fxOne) :
    (log2Bits n y acc : ℝ) ≤ 2 ^ n * (acc + Real.logb 2 (y * fxUnit)) ∧
    2 ^ n * (acc + Real.logb 2 (y * fxUnit)) ≤ log2Bits n y acc + 1 + 2 ^ n * (4 * fxUnit) := by
  have u := fxUnit_pos
  have unit := fxOne_mul_fxUnit
  have real {y : Nat} (low : fxOne ≤ y) : 1 ≤ y * fxUnit := by
    rw [← unit]
    have : (fxOne : ℝ) ≤ y := by exact_mod_cast low
    gcongr
  have Y1 := real low
  induction n generalizing y acc with
  | zero =>
    have Y2 : y * fxUnit ≤ 2 := by
      have : (y : ℝ) ≤ 2 * fxOne := by exact_mod_cast high.le
      calc y * fxUnit ≤ 2 * fxOne * fxUnit := by gcongr
        _ = 2 := by rw [mul_assoc, unit, mul_one]
    have l0 := Real.logb_nonneg one_lt_two Y1
    have l1 := Real.logb_le_logb_of_le one_lt_two (by linarith) Y2
    rw [Real.logb_self_eq_one one_lt_two] at l1
    rw [log2Bits, pow_zero, one_mul, one_mul]
    constructor <;> linarith
  | succ n ih =>
    have square : 2 * Real.logb 2 (y * fxUnit) = Real.logb 2 (y * fxUnit * (y * fxUnit)) := by
      have ne : y * fxUnit ≠ 0 := by linarith
      rw [Real.logb_mul ne ne, two_mul]
    have mul1 := fxMul_le (a := y) (b := y)
    have mul2 := lt_fxMul (a := y) (b := y)
    have zlow : fxOne ≤ fxMul y y := (Nat.le_div_iff_mul_le fxOne_pos).mpr (Nat.mul_le_mul low low)
    have zhigh : fxMul y y < 4 * fxOne := by
      refine (Nat.div_lt_iff_lt_mul fxOne_pos).mpr ?_
      calc y * y < 2 * fxOne * (2 * fxOne) := Nat.mul_lt_mul'' high high
        _ = 4 * fxOne * fxOne := by ring
    have Z1 := real zlow
    have pow : (2 : ℝ) ^ (n + 1) * (acc + Real.logb 2 (y * fxUnit)) = 2 ^ n * (2 * acc + Real.logb 2 (y * fxUnit * (y * fxUnit))) := by
      rw [← square]
      ring
    have npos : (0 : ℝ) < 2 ^ n := by positivity
    rw [pow, log2Bits]
    generalize y * fxUnit * (y * fxUnit) = W at *
    generalize fxMul y y = z at *
    split
    · next two =>
      -- the next bit is 1, and the rest is of half the square
      have halfLow : fxOne ≤ z / 2 := (Nat.le_div_iff_mul_le two_pos).mpr (by omega)
      have halfHigh : z / 2 < 2 * fxOne := by omega
      have H1 := real halfLow
      have div1 : ((z / 2 : Nat) : ℝ) * 2 * fxUnit ≤ z * fxUnit := by
        have : z / 2 * 2 ≤ z := by omega
        have : ((z / 2 : Nat) : ℝ) * 2 ≤ z := by exact_mod_cast this
        gcongr
      have div2 : ((z : ℝ) + 1) * fxUnit ≤ (((z / 2 : Nat) : ℝ) * 2 + 2) * fxUnit := by
        have : z + 1 ≤ z / 2 * 2 + 2 := by omega
        have : (z : ℝ) + 1 ≤ ((z / 2 : Nat) : ℝ) * 2 + 2 := by exact_mod_cast this
        gcongr
      obtain ⟨ih1, ih2⟩ := ih (acc := 2 * acc + 1) halfLow halfHigh H1
      push_cast at ih1 ih2
      have up : 1 + Real.logb 2 (((z / 2 : Nat) : ℝ) * fxUnit) ≤ Real.logb 2 W := by
        rw [← Real.logb_self_eq_one one_lt_two, ← Real.logb_mul two_ne_zero (by linarith)]
        exact Real.logb_le_logb_of_le one_lt_two (by linarith) (by linarith)
      have down : Real.logb 2 W ≤ 1 + (Real.logb 2 (((z / 2 : Nat) : ℝ) * fxUnit) + 2 * fxUnit) := by
        refine le_trans ?_ (add_le_add_right (logb_add_le H1) 1)
        rw [← Real.logb_self_eq_one one_lt_two, ← Real.logb_mul two_ne_zero (by linarith)]
        exact Real.logb_le_logb_of_le one_lt_two (by linarith) (by linarith)
      have up := mul_le_mul_of_nonneg_left up npos.le
      have down := mul_le_mul_of_nonneg_left down npos.le
      have room : 0 ≤ (2 : ℝ) ^ n * fxUnit := by positivity
      constructor
      · linarith
      · rw [pow_succ]
        linarith
    · next two =>
      obtain ⟨ih1, ih2⟩ := ih (acc := 2 * acc) zlow (not_le.mp two) Z1
      push_cast at ih1 ih2
      have up : Real.logb 2 (z * fxUnit) ≤ Real.logb 2 W := Real.logb_le_logb_of_le one_lt_two (by linarith) mul1
      have down : Real.logb 2 W ≤ Real.logb 2 (z * fxUnit) + 2 * fxUnit :=
        (Real.logb_le_logb_of_le one_lt_two (by linarith) mul2.le).trans (logb_add_le Z1)
      have up := mul_le_mul_of_nonneg_left up npos.le
      have down := mul_le_mul_of_nonneg_left down npos.le
      have room : 0 ≤ (2 : ℝ) ^ n * fxUnit := by positivity
      constructor
      · linarith
      · rw [pow_succ]
        linarith

end Sys2Proof.Machine
end

section
/-!
`flg2` comes within its bounds (R56).
-/
namespace Sys2Proof.Machine
variable {m n y acc op : Nat} {x X V : ℝ} {e k j c : Int} {a : Word} {neg : Bool}

/-- The logarithm of a value in units of 2^-120. -/
def lgFixed (m : Nat) (e : Int) : Int := (e + Nat.log2 m) * 2 ^ 120 + log2Bits 120 (m * 2 ^ (fxBits - Nat.log2 m)) 0

/-- A value of the fixed point of logarithms. -/
noncomputable def lgVal (v : Int) : ℝ := v * 2 ^ (-120 : Int)

theorem realVal_lg {v : Int} : realVal (decide (v < 0)) v.natAbs (-120) = lgVal v := by
  rw [realVal, signed_decide_natAbs, lgVal]

theorem four_fxUnit_small : 2 ^ 120 * (4 * fxUnit) ≤ 1 := by
  have : (2 : ℝ) ^ 120 * (4 * fxUnit) = 2 ^ (-278 : Int) := by
    rw [fxUnit, show (4 : ℝ) = 2 ^ (2 : Int) by norm_num, ← zpow_natCast, ← zpow_add₀ two_ne_zero, ← zpow_add₀ two_ne_zero]
    rfl
  rw [this]
  exact zpow_le_one_of_nonpos₀ one_le_two (by norm_num)

/-- Above one, a value of 24 bits has a logarithm of at least 2^-24. -/
theorem lt_logb_of_bits {l : Nat} (hl : 2 ^ l < m) (hm : m < 2 ^ 24) : (2 : ℝ) ^ (-24 : Int) < Real.logb 2 (m / 2 ^ l) := by
  have pos : (0 : ℝ) < m := by exact_mod_cast (Nat.two_pow_pos l).trans hl
  have lpos : (0 : ℝ) < 2 ^ l := by positivity
  have step : (2 : ℝ) ^ l + 1 ≤ m := by exact_mod_cast hl
  have hmR : (m : ℝ) < 2 ^ 24 := by exact_mod_cast hm
  have ln : Real.log 2 < 1 := Real.log_two_lt_d9.trans (by norm_num)
  have ln0 : 0 < Real.log 2 := Real.log_pos one_lt_two
  have low := Real.one_sub_inv_le_log_of_pos (x := (m : ℝ) / 2 ^ l) (by positivity)
  have gap : (2 : ℝ) ^ (-24 : Int) ≤ 1 - ((m : ℝ) / 2 ^ l)⁻¹ := by
    rw [inv_div, le_sub_comm, div_le_iff₀ pos]
    have : (2 : ℝ) ^ (-24 : Int) * m ≤ 1 := by
      rw [zpow_neg, inv_mul_le_iff₀ (by positivity), mul_one]
      exact_mod_cast hmR.le
    linarith
  rw [Real.logb, lt_div_iff₀ ln0]
  calc (2 : ℝ) ^ (-24 : Int) * Real.log 2 < 2 ^ (-24 : Int) * 1 := by gcongr
    _ ≤ Real.log (m / 2 ^ l) := by rw [mul_one]; exact gap.trans low

/-- The logarithm in fixed point: it lies below the exact one, by at most 2^-119, and between the same integers. -/
theorem lgFixed_close (hm0 : m ≠ 0) (hm : m < 2 ^ 24) : lgVal (lgFixed m e) ≤ Real.logb 2 (m * 2 ^ e) ∧
    Real.logb 2 (m * 2 ^ e) ≤ lgVal (lgFixed m e) + 2 ^ (-119 : Int) ∧
    ∀ c : Int, lgVal (lgFixed m e) ≤ c → Real.logb 2 (m * 2 ^ e) ≤ c := by
  set l := Nat.log2 m with hl
  have lsmall : l < 24 := (Nat.log2_lt hm0).mpr hm
  have low : 2 ^ l ≤ m := Nat.log2_self_le hm0
  have high : m < 2 ^ (l + 1) := Nat.lt_log2_self
  have lpos : (0 : ℝ) < 2 ^ l := by positivity
  have mpos : (0 : ℝ) < m := by exact_mod_cast Nat.pos_of_ne_zero hm0
  have split400 : 2 ^ 400 = 2 ^ l * 2 ^ (400 - l) := by rw [← pow_add]; congr 1; omega
  have ylow : fxOne ≤ m * 2 ^ (fxBits - l) := by
    show 2 ^ 400 ≤ m * 2 ^ (400 - l)
    rw [split400]
    exact Nat.mul_le_mul_right _ low
  have yhigh : m * 2 ^ (fxBits - l) < 2 * fxOne := by
    show m * 2 ^ (400 - l) < 2 * 2 ^ 400
    rw [split400, ← mul_assoc, ← pow_succ']
    exact Nat.mul_lt_mul_of_pos_right high (Nat.two_pow_pos _)
  have yval : ((m * 2 ^ (fxBits - l) : Nat) : ℝ) * fxUnit = m / 2 ^ l := by
    have exp : ((400 - l : Nat) : Int) + -400 = -(l : Int) := by omega
    show ((m * 2 ^ (400 - l) : Nat) : ℝ) * 2 ^ (-400 : Int) = _
    rw [Nat.cast_mul, Nat.cast_pow, Nat.cast_ofNat, mul_assoc, ← zpow_natCast, ← zpow_add₀ two_ne_zero, exp, zpow_neg, zpow_natCast]
    rfl
  have exact : Real.logb 2 (m * 2 ^ e) = (e + l : Int) + Real.logb 2 (m / 2 ^ l) := by
    have : (m : ℝ) * 2 ^ e = 2 ^ (e + l : Int) * (m / 2 ^ l) := by
      rw [zpow_add₀ two_ne_zero, zpow_natCast]
      field_simp
    rw [this, Real.logb_mul (by positivity) (by positivity), ← Real.rpow_intCast, Real.logb_rpow two_pos (by norm_num)]
  obtain ⟨bits1, bits2⟩ := log2Bits_close (n := 120) (acc := 0) ylow yhigh
  rw [yval, Nat.cast_zero, zero_add] at bits1 bits2
  have small := four_fxUnit_small
  have fixed : lgVal (lgFixed m e) = (e + l : Int) + (log2Bits 120 (m * 2 ^ (fxBits - l)) 0 : ℝ) * 2 ^ (-120 : Int) := by
    have unit : (2 : ℝ) ^ 120 * 2 ^ (-120 : Int) = 1 := by norm_num
    rw [lgVal, lgFixed, ← hl]
    push_cast
    linear_combination ((e : ℝ) + l) * unit
  have half : Real.logb 2 (m / 2 ^ l) < 1 := by
    rw [Real.logb_lt_iff_lt_rpow one_lt_two (by positivity), Real.rpow_one, div_lt_iff₀ lpos, ← pow_succ']
    exact_mod_cast high
  rw [exact, fixed]
  generalize log2Bits 120 (m * 2 ^ (fxBits - l)) 0 = b at *
  have scale : (b : ℝ) * 2 ^ (-120 : Int) ≤ Real.logb 2 (m / 2 ^ l) ∧ Real.logb 2 (m / 2 ^ l) ≤ b * 2 ^ (-120 : Int) + 2 ^ (-119 : Int) := by
    rw [zpow_neg, zpow_neg, ← div_eq_mul_inv, div_le_iff₀ (by positivity), ← sub_le_iff_le_add', sub_le_iff_le_add']
    norm_num at bits1 bits2 small ⊢
    constructor <;> linarith
  refine ⟨by linarith, by linarith, fun c hc => ?_⟩
  obtain rfl | hb := Nat.eq_zero_or_pos b
  · -- no bit is set: the value is a power of two
    have whole : m = 2 ^ l := by
      refine le_antisymm (not_lt.mp fun h => ?_) low
      have := lt_logb_of_bits h hm
      rw [Nat.cast_zero, zero_mul, zero_add] at scale
      have : (2 : ℝ) ^ (-119 : Int) < 2 ^ (-24 : Int) := zpow_lt_zpow_right₀ one_lt_two (by norm_num)
      linarith [scale.2]
    have zero : Real.logb 2 ((m : ℝ) / 2 ^ l) = 0 := by
      rw [whole, Nat.cast_pow, Nat.cast_ofNat, div_self lpos.ne', Real.logb_one]
    rw [zero]
    rw [Nat.cast_zero, zero_mul] at hc
    exact hc
  · have bpos : (0 : ℝ) < b * 2 ^ (-120 : Int) := by
      have : (0 : ℝ) < b := by exact_mod_cast hb
      positivity
    have lt : ((e + l : Int) : ℝ) < c := by linarith
    have le : ((e + l : Int) : ℝ) + 1 ≤ c := by exact_mod_cast lt
    linarith

end Sys2Proof.Machine
end

section
/-!
`flg2` comes within its bounds (R56).
-/
namespace Sys2Proof.Machine
variable {m n op : Nat} {x X V : ℝ} {e j c : Int} {a : Word} {neg : Bool}

/-- The choice of `flg2` for a value and the fixed point of its logarithm. -/
def lgChoice (a : Word) (v : Int) (near : Bool) : Word :=
  if near then chosen 0x42 a (decide (v < 0)) v.natAbs (-120) 1 (-22) else chosenUlp 0x42 a (decide (v < 0)) v.natAbs (-120) 2

theorem flg2Val_of_fin (ha : numF32 a = .fin false m e) (hm : m ≠ 0) :
    flg2Val a = lgChoice a (lgFixed m e) (magLe 1 (-1) m e && magLe m e 2 0) := by
  unfold flg2Val
  rw [ha]
  dsimp only
  rw [if_neg hm]
  rfl

/-- What `lgFixed_close` says of a logarithm and its fixed point. -/
structure LgClose (v : Int) (X : ℝ) : Prop where
  below : lgVal v ≤ X
  above : X ≤ lgVal v + 2 ^ (-119 : Int)
  whole : ∀ c : Int, lgVal v ≤ c → X ≤ c

section
variable {v : Int} (h : LgClose v X) (range : |X| ≤ 150)
include h

theorem LgClose.abs_sub_le : |lgVal v - X| ≤ 2 ^ (-119 : Int) := by
  obtain ⟨below, above, -⟩ := h
  rw [abs_sub_comm, abs_of_nonneg (by linarith)]
  linarith

/-- Near one the choice is within a fixed bound. -/
theorem LgClose.near_one (one : |X| ≤ 1) : Near (lgChoice a v true) X (2 ^ (-22 : Int)) := by
  refine near_of_abs_le_one ?_ one
  rw [realVal_lg]
  exact h.abs_sub_le.trans (zpow_le_zpow_right₀ one_le_two (by norm_num))

include range

theorem LgClose.top : (v.natAbs : ℝ) * 2 ^ (-120 + 149 : Int) ≤ unitsOf 0x7F7FFFFF := by
  have close := h.abs_sub_le
  have abs := abs_realVal (neg := decide (v < 0)) (m := v.natAbs) (e := -120)
  rw [realVal_lg] at abs
  have small : |lgVal v| ≤ 2 ^ 8 := by
    have : |lgVal v| ≤ |lgVal v - X| + |X| := by simpa using abs_add_le (lgVal v - X) X
    have one : (2 : ℝ) ^ (-119 : Int) ≤ 1 := zpow_le_one_of_nonpos₀ one_le_two (by norm_num)
    linarith
  rw [zpow_add₀ two_ne_zero, ← mul_assoc, ← abs]
  have top : 2 ^ 8 * 2 ^ 149 ≤ unitsOf 0x7F7FFFFF := by decide
  have top : (2 : ℝ) ^ 8 * 2 ^ 149 ≤ unitsOf 0x7F7FFFFF := by exact_mod_cast top
  refine le_trans ?_ top
  rw [show (2 : ℝ) ^ (149 : Int) = 2 ^ 149 from zpow_natCast 2 149]
  gcongr

/-- Away from one the choice is within two ulp. -/
theorem LgClose.near_far (far : 1 < |X|) : Near (lgChoice a v false) X (2 * ulpReal X) := by
  have close := h.abs_sub_le
  obtain ⟨below, above, whole⟩ := h
  have ulp := abs_le_ulpReal (x := X)
  refine near_chosenUlp (k := 2) one_le_two (LgClose.top ⟨below, above, whole⟩ range) (fun hv => ?_) ?_
  · rw [realVal_lg]
    have ne : lgVal v ≠ 0 := by
      rw [lgVal]
      exact mul_ne_zero (by exact_mod_cast Int.natAbs_ne_zero.mp hv) (by positivity)
    refine ulpReal_le_of_powers ne fun j _ hj => ?_
    obtain pos | nonpos := lt_or_ge 0 X
    · -- the fixed point lies between 0 and the logarithm
      have nonneg : 0 ≤ lgVal v := by
        by_contra hneg
        have := whole 0 (by push_cast; linarith)
        push_cast at this
        linarith
      rw [abs_of_nonneg nonneg] at hj
      rw [abs_of_pos pos]
      linarith
    · rw [abs_of_nonpos (below.trans nonpos)] at hj
      rw [abs_of_nonpos nonpos] at far ⊢
      obtain hneg | hnat := lt_or_ge j 0
      · have : (2 : ℝ) ^ j ≤ 1 := zpow_le_one_of_nonpos₀ one_le_two hneg.le
        linarith
      · -- the power is an integer
        obtain ⟨n, rfl⟩ := Int.eq_ofNat_of_zero_le hnat
        have := whole (-(2 ^ n : Int)) (by push_cast at hj ⊢; rw [zpow_natCast] at hj; linarith)
        push_cast at this ⊢
        rw [zpow_natCast]
        linarith
  · rw [realVal_lg]
    refine close.trans ?_
    have least : (2 : ℝ) ^ (-24 : Int) ≤ ulpReal X := by
      rw [zpow_neg, inv_le_iff_one_le_mul₀ (by positivity)]
      have : (2 : ℝ) ^ (24 : Int) = 2 ^ 24 := zpow_natCast 2 24
      rw [this]
      linarith
    calc (2 : ℝ) ^ (-119 : Int) ≤ 2 ^ (-24 : Int) * 2 ^ (-90 : Int) := by norm_num
      _ ≤ ulpReal X * 2 ^ (-90 : Int) := by gcongr

end

/-- The range of logarithms of finite values. -/
theorem abs_logb_le (ha : Finite32 a) (pos : 0 < wordVal a) : |Real.logb 2 (wordVal a)| ≤ 150 := by
  have val : wordVal a = unitsOf (f32Mag a) * 2 ^ (-149 : Int) := by rw [← abs_wordVal, abs_of_pos pos]
  have unit : (0 : ℝ) < 2 ^ (-149 : Int) := by positivity
  have one : 1 ≤ unitsOf (f32Mag a) := by
    refine Nat.pos_of_ne_zero fun h => ?_
    rw [val, h, Nat.cast_zero, zero_mul] at pos
    exact lt_irrefl _ pos
  have top : unitsOf (f32Mag a) ≤ 2 ^ 277 := by
    have lt := fmtF32.units_strictMono (finite32_iff.mp ha)
    have eq : unitsOf 0x7F800000 = 2 ^ 23 * 2 ^ 254 := by decide
    rw [units_fmtF32, eq, ← pow_add] at lt
    exact lt.le
  have low : (2 : ℝ) ^ (-149 : Int) ≤ wordVal a := by
    rw [val]
    exact le_mul_of_one_le_left unit.le (by exact_mod_cast one)
  have high : wordVal a ≤ 2 ^ (128 : Int) := by
    rw [val]
    calc (unitsOf (f32Mag a) : ℝ) * 2 ^ (-149 : Int) ≤ 2 ^ (277 : Int) * 2 ^ (-149 : Int) := by gcongr; exact_mod_cast top
      _ = 2 ^ (128 : Int) := by rw [← zpow_add₀ two_ne_zero]; rfl
  have l1 := Real.logb_le_logb_of_le one_lt_two unit low
  have l2 := Real.logb_le_logb_of_le one_lt_two pos high
  rw [← Real.rpow_intCast, Real.logb_rpow two_pos (by norm_num)] at l1 l2
  push_cast at l1 l2
  rw [abs_le]
  constructor <;> linarith

theorem logb_two_inv : Real.logb 2 (1 / 2) = -1 := by
  rw [one_div, Real.logb_inv, Real.logb_self_eq_one one_lt_two]

theorem flg2Val_near (ha : Finite32 a) (pos : 0 < wordVal a) :
    (wordVal a < 1 / 2 ∨ 2 < wordVal a → Near (flg2Val a) (Real.logb 2 (wordVal a)) (2 * ulpReal (Real.logb 2 (wordVal a)))) ∧
    (1 / 2 ≤ wordVal a → wordVal a ≤ 2 → Near (flg2Val a) (Real.logb 2 (wordVal a)) (2 ^ (-22 : Int))) := by
  have hs : a.msb = false := by
    rw [Bool.eq_false_iff]
    intro hs
    have := wordVal_nonpos hs
    have := abs_nonneg (wordVal a)
    linarith
  have eq := ha.numF32_eq
  have mag := abs_realVal (neg := a.msb) (m := f32Sig (f32Mag a)) (e := -149 + f32Exp (f32Mag a))
  have val : realVal a.msb (f32Sig (f32Mag a)) (-149 + f32Exp (f32Mag a)) = wordVal a := by
    rw [wordVal, ← finVal_word, finVal_eq_realVal, mul_assoc, two_zpow_149, mul_one]
  rw [val, abs_of_pos pos] at mag
  rw [hs] at eq
  have bits := f32Sig_lt (v := f32Mag a)
  generalize f32Sig (f32Mag a) = m at *
  generalize -149 + (f32Exp (f32Mag a) : Int) = e at *
  have hm : m ≠ 0 := by
    rintro rfl
    rw [Nat.cast_zero, zero_mul] at mag
    linarith
  have close : LgClose (lgFixed m e) (Real.logb 2 (wordVal a)) := by
    obtain ⟨below, above, whole⟩ := lgFixed_close (e := e) hm bits
    rw [← mag] at below above whole
    exact ⟨below, above, whole⟩
  have range := abs_logb_le ha pos
  have inside : (magLe 1 (-1) m e && magLe m e 2 0) = true ↔ 1 / 2 ≤ wordVal a ∧ wordVal a ≤ 2 := by
    rw [Bool.and_eq_true, magLe_iff, magLe_iff, ← mag]
    norm_num
  rw [flg2Val_of_fin eq hm]
  constructor
  · intro out
    have : (magLe 1 (-1) m e && magLe m e 2 0) = false := by
      rw [Bool.eq_false_iff, ne_eq, inside]
      intro h
      obtain h' | h' := out <;> linarith [h.1, h.2]
    rw [this]
    refine close.near_far range ?_
    obtain h | h := out
    · have := Real.logb_lt_logb one_lt_two pos h
      rw [logb_two_inv] at this
      rw [abs_of_neg (by linarith)]
      linarith
    · have := Real.logb_lt_logb one_lt_two two_pos h
      rw [Real.logb_self_eq_one one_lt_two] at this
      rw [abs_of_pos (by linarith)]
      exact this
  · intro low high
    rw [inside.mpr ⟨low, high⟩]
    refine close.near_one ?_
    have l1 := Real.logb_le_logb_of_le one_lt_two (by norm_num) low
    have l2 := Real.logb_le_logb_of_le one_lt_two pos high
    rw [logb_two_inv] at l1
    rw [Real.logb_self_eq_one one_lt_two] at l2
    exact abs_le.mpr ⟨l1, l2⟩

end Sys2Proof.Machine
end

section
/-!
The sine and the cosine in fixed point (R56).
-/
namespace Sys2Proof.Machine
variable {t fuel n s c : Nat} {term : Int} {R T M σ : ℝ}

/-! ## The series -/

theorem floor_close {A : Int} {k : Nat} (hk : 0 < k) : ((A / (k : Int) : Int) : ℝ) ≤ A / k ∧ (A : ℝ) / k < ((A / (k : Int) : Int) : ℝ) + 1 := by
  have pos : (0 : ℝ) < k := by exact_mod_cast hk
  have kpos : (0 : Int) < k := by exact_mod_cast hk
  constructor
  · rw [le_div_iff₀ pos]
    exact_mod_cast Int.ediv_mul_le A kpos.ne'
  · rw [div_lt_iff₀ pos]
    exact_mod_cast Int.lt_ediv_add_one_mul_self A kpos

/-- The next term of the series, as the model cuts it off. -/
def trigNext (t n : Nat) (term : Int) : Int := -(term * (fxMul t t : Nat) / (fxOne : Nat) / ((n + 1) * (n + 2) : Nat))

/-- A cut-off term is off by a multiple of what the term before is. -/
theorem trigNext_close (hR : R = t * fxUnit) (range : R ^ 2 ≤ 2 ^ (s + 1)) (err : |term * fxUnit - T| ≤ c * fxUnit) (hT : |T| ≤ M)
    (hM : M + 2 ≤ c) : |trigNext t n term * fxUnit - -(T * R ^ 2 / ((n + 1) * (n + 2)))| ≤ ((c * 2 ^ (s + 1) : Nat) : ℝ) * fxUnit := by
  have u := fxUnit_pos
  have unit := fxOne_mul_fxUnit
  have sq1 := fxMul_le (a := t) (b := t)
  have sq2 := lt_fxMul (a := t) (b := t)
  rw [← hR, ← pow_two] at sq1 sq2
  set q := fxMul t t
  obtain ⟨cut1, cut2⟩ := floor_close (A := term * (q : Nat)) fxOne_pos
  have kpos : 0 < (n + 1) * (n + 2) := by positivity
  obtain ⟨cut3, cut4⟩ := floor_close (A := term * (q : Nat) / (fxOne : Nat)) kpos
  have k2 : (2 : ℝ) ≤ ((n + 1) * (n + 2) : Nat) := by
    have : 1 * 2 ≤ (n + 1) * (n + 2) := Nat.mul_le_mul (by omega) (by omega)
    exact_mod_cast this
  have cast : ((n : ℝ) + 1) * (n + 2) = ((n + 1) * (n + 2) : Nat) := by push_cast; ring
  rw [cast]
  have value : (((term * (q : Nat) : Int) : ℝ) / (fxOne : Nat)) = term * fxUnit * q := by
    rw [div_eq_iff (by exact_mod_cast fxOne_pos.ne')]
    push_cast
    linear_combination -((term : ℝ) * q) * unit
  rw [value] at cut1 cut2
  rw [trigNext]
  generalize ((n + 1) * (n + 2) : Nat) = k at *
  generalize term * (q : Nat) / (fxOne : Nat) = A at *
  generalize A / (k : Int) = B at *
  have kposR : (0 : ℝ) < k := by linarith
  have below : (B : ℝ) * fxUnit ≤ term * fxUnit * (q * fxUnit) / k := by
    rw [le_div_iff₀ kposR]
    rw [le_div_iff₀ kposR] at cut3
    calc (B : ℝ) * fxUnit * k = B * k * fxUnit := by ring
      _ ≤ A * fxUnit := by gcongr
      _ ≤ term * fxUnit * q * fxUnit := by gcongr
      _ = term * fxUnit * (q * fxUnit) := by ring
  have above : term * fxUnit * (q * fxUnit) / k ≤ B * fxUnit + 2 * fxUnit := by
    rw [div_le_iff₀ kposR]
    rw [div_lt_iff₀ kposR] at cut4
    calc term * fxUnit * (q * fxUnit) = term * fxUnit * q * fxUnit := by ring
      _ ≤ (A + 1) * fxUnit := by gcongr
      _ ≤ ((B + 1) * k + 1) * fxUnit := by gcongr
      _ ≤ ((B + 1) * k + k) * fxUnit := by gcongr; linarith
      _ = (B * fxUnit + 2 * fxUnit) * k := by ring
  have q0 : 0 ≤ (q : ℝ) * fxUnit := by positivity
  have M0 : 0 ≤ M := (abs_nonneg T).trans hT
  have inner : |term * fxUnit * (q * fxUnit) / k - T * R ^ 2 / k| ≤ (c * 2 ^ (s + 1) + M) / 2 * fxUnit := by
    rw [← sub_div, abs_div, abs_of_pos kposR, div_le_iff₀ kposR]
    have split_ : term * fxUnit * (q * fxUnit) - T * R ^ 2 = (term * fxUnit - T) * (q * fxUnit) + T * (q * fxUnit - R ^ 2) := by ring
    have small : |(q : ℝ) * fxUnit - R ^ 2| ≤ fxUnit := by
      rw [abs_sub_comm, abs_of_nonneg (by linarith)]
      linarith
    calc |term * fxUnit * (q * fxUnit) - T * R ^ 2|
      _ ≤ |term * fxUnit - T| * (q * fxUnit) + |T| * |q * fxUnit - R ^ 2| := by
        rw [split_]
        refine (abs_add_le _ _).trans_eq ?_
        rw [abs_mul (_ - T), abs_mul T, abs_of_nonneg q0]
      _ ≤ c * fxUnit * 2 ^ (s + 1) + M * fxUnit := by
        gcongr
        exact sq1.trans range
      _ = (c * 2 ^ (s + 1) + M) / 2 * fxUnit * 2 := by ring
      _ ≤ (c * 2 ^ (s + 1) + M) / 2 * fxUnit * k := by gcongr
  have room : (c * 2 ^ (s + 1) + M) / 2 * fxUnit + 2 * fxUnit ≤ ((c * 2 ^ (s + 1) : Nat) : ℝ) * fxUnit := by
    have one : (1 : ℝ) ≤ 2 ^ s := one_le_pow₀ one_le_two
    have c0 : (0 : ℝ) ≤ c := Nat.cast_nonneg c
    have : (c : ℝ) ≤ c * 2 ^ s := le_mul_of_one_le_right c0 one
    rw [← add_mul]
    refine mul_le_mul_of_nonneg_right ?_ u.le
    push_cast
    rw [pow_succ]
    linarith
  refine le_trans ?_ room
  have outer : |((-B : Int) : ℝ) * fxUnit - -(term * fxUnit * (q * fxUnit) / k)| ≤ 2 * fxUnit := by
    rw [abs_le]
    push_cast
    constructor <;> linarith
  have := abs_sub_le (((-B : Int) : ℝ) * fxUnit) (-(term * fxUnit * (q * fxUnit) / k)) (-(T * R ^ 2 / k))
  rw [neg_sub_neg, abs_sub_comm (T * R ^ 2 / k)] at this
  linarith

/-- The exact terms of the series from the one for `n` on, the first with the sign `σ`. -/
noncomputable def trigSum (R σ : ℝ) (n fuel : Nat) : ℝ := ∑ i ∈ Finset.range fuel, σ * (-1) ^ i * (R ^ (n + 2 * i) / (n + 2 * i).factorial)

theorem trigSum_succ : trigSum R σ n (fuel + 1) = σ * (R ^ n / n.factorial) + trigSum R (-σ) (n + 2) fuel := by
  rw [trigSum, Finset.sum_range_succ', add_comm, trigSum]
  congr 1
  · simp
  · refine Finset.sum_congr rfl fun i _ => ?_
    rw [show n + 2 * (i + 1) = n + 2 + 2 * i by ring, pow_succ]
    ring

/-- The series in fixed point: its error grows with the number of terms. -/
theorem trigTerms_close (hR : R = t * fxUnit) (range : R ^ 2 ≤ 2 ^ (s + 1)) (hM : ∀ n : Nat, |R ^ n / n.factorial| ≤ M) (hσ : |σ| = 1)
    (hc : M + 2 ≤ c) (err : |term * fxUnit - σ * (R ^ n / n.factorial)| ≤ c * fxUnit) :
    |trigTerms t fuel n term * fxUnit - trigSum R σ n fuel| ≤ ((c * 2 ^ ((s + 1) * fuel) - c : Nat) : ℝ) * fxUnit := by
  induction fuel generalizing n term σ c with
  | zero => simp [trigTerms, trigSum]
  | succ fuel ih =>
    have next : -(σ * (R ^ n / n.factorial) * R ^ 2 / ((n + 1) * (n + 2))) = -σ * (R ^ (n + 2) / (n + 2).factorial) := by
      rw [Nat.factorial_succ, Nat.factorial_succ]
      push_cast
      have h1 : (n.factorial : ℝ) ≠ 0 := by exact_mod_cast n.factorial_ne_zero
      have h2 : (n : ℝ) + 1 ≠ 0 := by positivity
      have h3 : (n : ℝ) + 2 ≠ 0 := by positivity
      have h4 : (n : ℝ) + 1 + 1 ≠ 0 := by positivity
      field_simp
      ring
    have hT : |σ * (R ^ n / n.factorial)| ≤ M := by rw [abs_mul, hσ, one_mul]; exact hM n
    have step := trigNext_close (n := n) hR range err hT hc
    rw [next] at step
    have one : c ≤ c * 2 ^ (s + 1) := Nat.le_mul_of_pos_right _ (Nat.two_pow_pos _)
    have rest := ih (σ := -σ) (c := c * 2 ^ (s + 1)) (by rw [abs_neg, hσ]) (hc.trans (by exact_mod_cast one)) step
    rw [trigSum_succ, trigTerms]
    have room : c + (c * 2 ^ (s + 1) * 2 ^ ((s + 1) * fuel) - c * 2 ^ (s + 1)) ≤ c * 2 ^ ((s + 1) * (fuel + 1)) - c := by
      have twice : 2 * c ≤ c * 2 ^ (s + 1) := by
        rw [Nat.mul_comm]
        exact Nat.mul_le_mul_left _ (Nat.le_self_pow (Nat.succ_ne_zero s) 2)
      have total : c * 2 ^ ((s + 1) * (fuel + 1)) = c * 2 ^ (s + 1) * 2 ^ ((s + 1) * fuel) := by rw [Nat.mul_succ, pow_add]; ring
      have big : c * 2 ^ (s + 1) ≤ c * 2 ^ (s + 1) * 2 ^ ((s + 1) * fuel) := Nat.le_mul_of_pos_right _ (Nat.two_pow_pos _)
      omega
    have roomR : (c : ℝ) * fxUnit + ((c * 2 ^ (s + 1) * 2 ^ ((s + 1) * fuel) - c * 2 ^ (s + 1) : Nat) : ℝ) * fxUnit ≤
        ((c * 2 ^ ((s + 1) * (fuel + 1)) - c : Nat) : ℝ) * fxUnit := by
      rw [← add_mul]
      refine mul_le_mul_of_nonneg_right ?_ fxUnit_pos.le
      exact_mod_cast room
    refine le_trans ?_ roomR
    refine le_trans ?_ (add_le_add err rest)
    refine le_of_eq_of_le ?_ (abs_add_le _ _)
    congr 1
    rw [trigNext]
    push_cast
    ring

end Sys2Proof.Machine
end

section
/-!
`ftrig` comes within its bound (R56): the series against the sine and the cosine, the constant pi, and the reduction by 2 pi.
-/
namespace Sys2Proof.Machine
variable {t n m : Nat} {e : Int} {R x : ℝ} {a : Word} {neg : Bool}

/-! ## The series against the sine and the cosine -/

/-- The terms of the exponential of R i are those of the cosine and, times i, of the sine. -/
theorem sum_exp_mul_I : ∑ k ∈ Finset.range (2 * n), ((R : ℂ) * Complex.I) ^ k / k.factorial =
    (trigSum R 1 0 n : ℂ) + (trigSum R 1 1 n : ℂ) * Complex.I := by
  induction n with
  | zero => simp [trigSum]
  | succ n ih =>
    have square : ((R : ℂ) * Complex.I) ^ (2 * n) = (-1) ^ n * (R : ℂ) ^ (2 * n) := by
      rw [mul_pow, pow_mul Complex.I, Complex.I_sq, mul_comm]
    rw [show 2 * (n + 1) = 2 * n + 1 + 1 by ring, Finset.sum_range_succ, Finset.sum_range_succ, ih, pow_succ, square]
    simp only [trigSum, Finset.sum_range_succ, zero_add]
    rw [Nat.add_comm 1 (2 * n)]
    push_cast
    ring

theorem factorial_80 : 2 ^ 394 ≤ (2 * 40).factorial := by decide

/-- The first 40 terms give the cosine and the sine. -/
theorem trigSum_close (h0 : 0 ≤ R) (h : R ≤ 7) : |Real.cos R - trigSum R 1 0 40| ≤ 2 * R ^ 80 / 2 ^ 394 ∧
    |Real.sin R - trigSum R 1 1 40| ≤ 2 * R ^ 80 / 2 ^ 394 := by
  have norm : ‖(R : ℂ) * Complex.I‖ = R := by
    rw [norm_mul, Complex.norm_I, mul_one, Complex.norm_real, Real.norm_of_nonneg h0]
  have bound := Complex.exp_bound' (x := (R : ℂ) * Complex.I) (n := 2 * 40) (by
    rw [norm, div_le_iff₀ (by positivity)]
    norm_num
    linarith)
  rw [sum_exp_mul_I, norm, Complex.exp_mul_I, ← Complex.ofReal_cos, ← Complex.ofReal_sin] at bound
  have fact := Nat.cast_le (α := ℝ).mpr factorial_80
  rw [Nat.cast_pow, Nat.cast_ofNat] at fact
  have tail : R ^ (2 * 40) / (2 * 40).factorial * 2 ≤ 2 * R ^ 80 / 2 ^ 394 := by
    rw [div_mul_eq_mul_div, mul_comm]
    exact div_le_div_of_nonneg_left (mul_nonneg zero_le_two (pow_nonneg h0 _)) (pow_pos two_pos _) fact
  have bound := bound.trans tail
  have re := (Complex.abs_re_le_norm _).trans bound
  have im := (Complex.abs_im_le_norm _).trans bound
  simp only [Complex.sub_re, Complex.add_re, Complex.mul_re, Complex.ofReal_re, Complex.ofReal_im, Complex.I_re, Complex.I_im, mul_zero,
    sub_zero, add_zero, mul_one] at re
  simp only [Complex.sub_im, Complex.add_im, Complex.mul_im, Complex.ofReal_re, Complex.ofReal_im, Complex.I_re, Complex.I_im, mul_zero,
    zero_add, add_zero, mul_one] at im
  exact ⟨re, im⟩

/-- The bound of the terms. -/
theorem term_le (h0 : 0 ≤ R) (h : R ≤ 7) : |R ^ n / n.factorial| ≤ 2 ^ 12 := by
  rw [abs_of_nonneg (by positivity)]
  refine (Real.pow_div_factorial_le_exp R h0 n).trans ?_
  have e3 : Real.exp 1 ≤ 3 := Real.exp_one_lt_d9.le.trans (by norm_num)
  calc Real.exp R ≤ Real.exp (7 * 1) := Real.exp_le_exp.mpr (by linarith)
    _ = Real.exp 1 ^ 7 := by rw [← Real.exp_nat_mul]; norm_num
    _ ≤ 3 ^ 7 := by gcongr
    _ ≤ 2 ^ 12 := by norm_num

/-- The error of the two series in fixed point, for an angle whose square is at most 2^(s + 1). -/
theorem fxSeries_close {s : Nat} (hR : R = t * fxUnit) (h : R ≤ 7) (range : R ^ 2 ≤ 2 ^ (s + 1)) :
    |trigTerms t 40 0 fxOne * fxUnit - Real.cos R| ≤ 2 ^ (13 + (s + 1) * 40) * fxUnit + 2 * R ^ 80 / 2 ^ 394 ∧
    |trigTerms t 40 1 t * fxUnit - Real.sin R| ≤ 2 ^ (13 + (s + 1) * 40) * fxUnit + 2 * R ^ 80 / 2 ^ 394 := by
  have u := fxUnit_pos
  have h0 : 0 ≤ R := by rw [hR]; positivity
  have exactly {A : ℝ} (hA : A = 0) : |A| ≤ ((2 ^ 13 : Nat) : ℝ) * fxUnit := by rw [hA, abs_zero]; positivity
  have bound (n : Nat) (term : Int) (start : (term : ℝ) * fxUnit - 1 * (R ^ n / n.factorial) = 0) :
      |trigTerms t 40 n term * fxUnit - trigSum R 1 n 40| ≤ 2 ^ (13 + (s + 1) * 40) * fxUnit := by
    refine (trigTerms_close (M := 2 ^ 12) (c := 2 ^ 13) hR range (fun n => term_le h0 h) abs_one (by norm_num) (exactly start)).trans ?_
    refine mul_le_mul_of_nonneg_right ?_ u.le
    rw [← pow_add]
    exact_mod_cast Nat.sub_le (2 ^ (13 + (s + 1) * 40)) (2 ^ 13)
  obtain ⟨cos, sin⟩ := trigSum_close h0 h
  rw [abs_sub_comm] at cos sin
  constructor
  · refine (abs_sub_le _ (trigSum R 1 0 40) _).trans (add_le_add (bound 0 fxOne ?_) cos)
    simp [fxOne_mul_fxUnit]
  · refine (abs_sub_le _ (trigSum R 1 1 40) _).trans (add_le_add (bound 1 t ?_) sin)
    simp [hR]

/-! ## pi -/

theorem trigTerms_fxPi : (trigTerms (fxPi / 2) 40 0 fxOne).natAbs ≤ 2 ^ 58 := by decide +kernel

theorem fxPi_range : 314159265 * fxOne ≤ 100000000 * fxPi ∧ 100000000 * fxPi ≤ 314159266 * fxOne ∧ fxPi % 2 = 0 := by decide +kernel

theorem pi_range : 3.14159265 ≤ fxPi * fxUnit ∧ fxPi * fxUnit ≤ 3.14159266 := by
  have u := fxUnit_pos
  have unit := fxOne_mul_fxUnit
  obtain ⟨low, high, -⟩ := fxPi_range
  have low : (314159265 : ℝ) * fxOne ≤ 100000000 * fxPi := by exact_mod_cast low
  have high : (100000000 : ℝ) * fxPi ≤ 314159266 * fxOne := by exact_mod_cast high
  have low := mul_le_mul_of_nonneg_right low u.le
  have high := mul_le_mul_of_nonneg_right high u.le
  rw [mul_assoc, unit] at low
  rw [mul_assoc (314159266 : ℝ), unit] at high
  constructor <;> linarith

theorem pi_close : |fxPi * fxUnit - Real.pi| ≤ 2 ^ (-290 : Int) := by
  have u := fxUnit_pos
  obtain ⟨low, high⟩ := pi_range
  have half : ((fxPi / 2 : Nat) : ℝ) * fxUnit = fxPi * fxUnit / 2 := by
    have : fxPi / 2 * 2 = fxPi := Nat.div_mul_cancel (Nat.dvd_of_mod_eq_zero fxPi_range.2.2)
    have : ((fxPi / 2 : Nat) : ℝ) * 2 = fxPi := by exact_mod_cast this
    linear_combination fxUnit / 2 * this
  have series := (fxSeries_close (s := 1) (t := fxPi / 2) half.symm (by linarith) (by nlinarith)).1
  have value : |(trigTerms (fxPi / 2) 40 0 fxOne : ℝ) * fxUnit| ≤ 2 ^ 58 * fxUnit := by
    rw [abs_mul, abs_of_pos u]
    refine mul_le_mul_of_nonneg_right ?_ u.le
    rw [← Int.cast_abs, ← Nat.cast_natAbs]
    exact_mod_cast trigTerms_fxPi
  have unit : fxUnit = 2 ^ (-400 : Int) := rfl
  have tail : 2 * (fxPi * fxUnit / 2) ^ 80 / 2 ^ 394 ≤ 2 ^ (-300 : Int) := by
    have : (fxPi * fxUnit / 2) ^ 80 ≤ 2 ^ 80 := pow_le_pow_left₀ (by linarith) (by linarith) 80
    calc 2 * (fxPi * fxUnit / 2) ^ 80 / 2 ^ 394 ≤ 2 * 2 ^ 80 / 2 ^ 394 := by gcongr
      _ ≤ 2 ^ (-300 : Int) := by
        rw [← pow_succ', div_le_iff₀ (by positivity), ← zpow_natCast, ← zpow_natCast, ← zpow_add₀ two_ne_zero]
        exact zpow_le_zpow_right₀ one_le_two (by norm_num)
  have err1 : 2 ^ 58 * fxUnit ≤ (2 : ℝ) ^ (-300 : Int) := by
    rw [unit, ← zpow_natCast, ← zpow_add₀ two_ne_zero]
    exact zpow_le_zpow_right₀ one_le_two (by norm_num)
  have err2 : 2 ^ (13 + (1 + 1) * 40) * fxUnit ≤ (2 : ℝ) ^ (-300 : Int) := by
    rw [unit, ← zpow_natCast, ← zpow_add₀ two_ne_zero]
    exact zpow_le_zpow_right₀ one_le_two (by norm_num)
  have cos : |Real.cos (fxPi * fxUnit / 2)| ≤ 3 * 2 ^ (-300 : Int) := by
    have := abs_sub_abs_le_abs_sub (Real.cos (fxPi * fxUnit / 2)) ((trigTerms (fxPi / 2) 40 0 fxOne : ℝ) * fxUnit)
    have value := value.trans err1
    have series := series.trans (add_le_add err2 tail)
    rw [abs_sub_comm] at this
    generalize (2 : ℝ) ^ (-300 : Int) = D at *
    linarith
  have pi1 := Real.pi_gt_d20
  have pi2 := Real.pi_lt_d20
  have sin := Real.mul_abs_le_abs_sin (x := Real.pi / 2 - fxPi * fxUnit / 2) (by
    rw [abs_le]
    constructor <;> linarith)
  rw [Real.sin_pi_div_two_sub] at sin
  have half : 1 / 2 ≤ 2 / Real.pi := by
    rw [div_le_div_iff₀ two_pos Real.pi_pos]
    linarith
  have near : |Real.pi / 2 - fxPi * fxUnit / 2| ≤ 6 * 2 ^ (-300 : Int) := by
    have := mul_le_mul_of_nonneg_right half (abs_nonneg (Real.pi / 2 - fxPi * fxUnit / 2))
    linarith
  have split_ : fxPi * fxUnit - Real.pi = -2 * (Real.pi / 2 - fxPi * fxUnit / 2) := by ring
  have room : (12 : ℝ) * 2 ^ (-300 : Int) ≤ 2 ^ (-290 : Int) := by
    rw [show (2 : ℝ) ^ (-290 : Int) = 2 ^ (10 : Int) * 2 ^ (-300 : Int) by rw [← zpow_add₀ two_ne_zero]; rfl]
    refine mul_le_mul_of_nonneg_right ?_ (by positivity)
    norm_num
  rw [split_, abs_mul, abs_neg, abs_two]
  linarith

end Sys2Proof.Machine
end

section
/-!
`ftrig` comes within its bound (R56).
-/
namespace Sys2Proof.Machine
variable {t n m : Nat} {e : Int} {R x : ℝ} {a : Word} {neg : Bool}

/-- A remainder by 2 pi, the constant being near pi: the number of turns and what is left. -/
theorem reduce_close {F : Nat} (hF : F * fxUnit ≤ 2 ^ 128) : ∃ (n : Nat) (R : ℝ), R = (F % (2 * fxPi) : Nat) * fxUnit ∧ 0 ≤ R ∧ R ≤ 6.3 ∧
    |F * fxUnit - (R + n * (2 * Real.pi))| ≤ 2 ^ (-160 : Int) := by
  have u := fxUnit_pos
  obtain ⟨low, high⟩ := pi_range
  have close := pi_close
  have pos : 0 < 2 * fxPi := by decide +kernel
  refine ⟨F / (2 * fxPi), _, rfl, by positivity, ?_, ?_⟩
  · have : ((F % (2 * fxPi) : Nat) : ℝ) ≤ 2 * fxPi := by exact_mod_cast (Nat.mod_lt F pos).le
    have := mul_le_mul_of_nonneg_right this u.le
    linarith
  · have split_ : (F : ℝ) = 2 * fxPi * (F / (2 * fxPi) : Nat) + (F % (2 * fxPi) : Nat) := by exact_mod_cast (Nat.div_add_mod F (2 * fxPi)).symm
    have diff : F * fxUnit - ((F % (2 * fxPi) : Nat) * fxUnit + (F / (2 * fxPi) : Nat) * (2 * Real.pi)) =
        2 * (F / (2 * fxPi) : Nat) * (fxPi * fxUnit - Real.pi) := by
      rw [split_, ← split_]
      linear_combination fxUnit * split_
    have turns : ((F / (2 * fxPi) : Nat) : ℝ) ≤ 2 ^ 128 := by
      have le : ((F / (2 * fxPi) : Nat) : ℝ) * (2 * fxPi * fxUnit) ≤ F * fxUnit := by
        have : F / (2 * fxPi) * (2 * fxPi) ≤ F := Nat.div_mul_le_self _ _
        have : ((F / (2 * fxPi) : Nat) : ℝ) * (2 * fxPi) ≤ F := by exact_mod_cast this
        have := mul_le_mul_of_nonneg_right this u.le
        linarith
      have nonneg : (0 : ℝ) ≤ (F / (2 * fxPi) : Nat) := Nat.cast_nonneg _
      have one : 1 ≤ 2 * fxPi * fxUnit := by linarith
      exact (le_mul_of_one_le_right nonneg one).trans (le.trans hF)
    rw [diff, abs_mul, abs_of_nonneg (by positivity)]
    calc 2 * ((F / (2 * fxPi) : Nat) : ℝ) * |fxPi * fxUnit - Real.pi| ≤ 2 * 2 ^ 128 * 2 ^ (-290 : Int) := by gcongr
      _ ≤ 2 ^ (-160 : Int) := by
        rw [← pow_succ', ← zpow_natCast, ← zpow_add₀ two_ne_zero]
        exact zpow_le_zpow_right₀ one_le_two (by norm_num)

/-- The two series of a reduced angle. -/
theorem reduced_close (hR : R = t * fxUnit) (h : R ≤ 6.3) : |trigTerms t 40 0 fxOne * fxUnit - Real.cos R| ≤ 2 ^ (-114 : Int) ∧
    |trigTerms t 40 1 t * fxUnit - Real.sin R| ≤ 2 ^ (-114 : Int) := by
  have u := fxUnit_pos
  have h0 : 0 ≤ R := by rw [hR]; positivity
  have err : 2 ^ (13 + (5 + 1) * 40) * fxUnit + 2 * R ^ 80 / 2 ^ 394 ≤ (2 : ℝ) ^ (-114 : Int) := by
    have one : 2 ^ (13 + (5 + 1) * 40) * fxUnit ≤ (2 : ℝ) ^ (-115 : Int) := by
      rw [fxUnit, ← zpow_natCast, ← zpow_add₀ two_ne_zero]
      exact zpow_le_zpow_right₀ one_le_two (by norm_num)
    have two : 2 * R ^ 80 / 2 ^ 394 ≤ (2 : ℝ) ^ (-115 : Int) := by
      have : R ^ 80 ≤ (2 ^ 3) ^ 80 := pow_le_pow_left₀ h0 (by linarith) 80
      calc 2 * R ^ 80 / 2 ^ 394 ≤ 2 * (2 ^ 3) ^ 80 / 2 ^ 394 := by gcongr
        _ ≤ 2 ^ (-115 : Int) := by
          rw [← pow_mul, ← pow_succ', div_le_iff₀ (by positivity), ← zpow_natCast, ← zpow_natCast, ← zpow_add₀ two_ne_zero]
          exact zpow_le_zpow_right₀ one_le_two (by norm_num)
    have twice : (2 : ℝ) ^ (-114 : Int) = 2 ^ (-115 : Int) + 2 ^ (-115 : Int) := by
      rw [← two_mul, ← zpow_one_add₀ two_ne_zero]
      rfl
    rw [twice]
    exact add_le_add one two
  have range : R ^ 2 ≤ 2 ^ (5 + 1) := by
    calc R ^ 2 ≤ 8 ^ 2 := pow_le_pow_left₀ h0 (by linarith) 2
      _ = 2 ^ (5 + 1) := by norm_num
  obtain ⟨cos, sin⟩ := fxSeries_close hR (by linarith) range
  exact ⟨cos.trans err, sin.trans err⟩

theorem reduced_slack : (2 : ℝ) ^ (-114 : Int) + 2 ^ (-160 : Int) ≤ 2 ^ (-112 : Int) := by norm_num

theorem fxTrig_cos_close (hx : fxOf m e * fxUnit = |x|) (range : |x| ≤ 2 ^ 128) :
    |(fxTrig true neg m e : ℝ) * fxUnit - Real.cos x| ≤ 2 ^ (-112 : Int) := by
  obtain ⟨n, R, hR, -, R1, turn⟩ := reduce_close (hx ▸ range)
  have series := (reduced_close hR R1).1
  have turn := (Real.abs_cos_sub_cos_le _ _).trans turn
  rw [Real.cos_add_nat_mul_two_pi, hx, Real.cos_abs, abs_sub_comm] at turn
  have value : fxTrig true neg m e = trigTerms (fxOf m e % (2 * fxPi)) 40 0 fxOne := rfl
  rw [value]
  exact (abs_sub_le _ (Real.cos R) _).trans ((add_le_add series turn).trans reduced_slack)

theorem fxTrig_sin_close (hx : fxOf m e * fxUnit = |x|) (range : |x| ≤ 2 ^ 128) (sign : x = if neg then -|x| else |x|) :
    |(fxTrig false neg m e : ℝ) * fxUnit - Real.sin x| ≤ 2 ^ (-112 : Int) := by
  obtain ⟨n, R, hR, -, R1, turn⟩ := reduce_close (hx ▸ range)
  have series := (reduced_close hR R1).2
  have turn := (Real.abs_sin_sub_sin_le _ _).trans turn
  rw [Real.sin_add_nat_mul_two_pi, hx, abs_sub_comm] at turn
  have value : fxTrig false neg m e = if neg then -trigTerms (fxOf m e % (2 * fxPi)) 40 1 (fxOf m e % (2 * fxPi) : Nat)
    else trigTerms (fxOf m e % (2 * fxPi)) 40 1 (fxOf m e % (2 * fxPi) : Nat) := rfl
  have close := (abs_sub_le _ (Real.sin R) _).trans ((add_le_add series turn).trans reduced_slack)
  rw [value]
  cases neg with
  | false =>
    rw [if_neg Bool.false_ne_true] at sign ⊢
    rw [sign]
    exact close
  | true =>
    rw [if_pos rfl] at sign ⊢
    rw [sign, Real.sin_neg, Int.cast_neg, neg_mul, ← neg_add_eq_sub, neg_neg, add_comm, neg_add_eq_sub, abs_sub_comm]
    exact close

theorem realVal_fx {v : Int} : realVal (decide (v < 0)) v.natAbs (-(fxBits : Int)) = v * fxUnit := by
  rw [realVal, signed_decide_natAbs]
  rfl

theorem ftrigVal_of_fin {cos : Bool} (ha : numF32 a = .fin neg m e) : ftrigVal cos a = if m = 0 ∧ !cos then a else
    chosen (if cos then 0x143 else 0x43) a (decide (fxTrig cos neg m e < 0)) (fxTrig cos neg m e).natAbs (-(fxBits : Int)) 1 (-22) := by
  unfold ftrigVal
  rw [ha]

theorem abs_wordVal_le (ha : Finite32 a) : |wordVal a| ≤ 2 ^ 128 := by
  have lt := fmtF32.units_strictMono (finite32_iff.mp ha)
  have eq : unitsOf 0x7F800000 = 2 ^ 23 * 2 ^ 254 := by decide
  rw [units_fmtF32, eq, ← pow_add] at lt
  rw [abs_wordVal]
  have top : (unitsOf (f32Mag a) : ℝ) ≤ 2 ^ 277 := by exact_mod_cast lt.le
  calc (unitsOf (f32Mag a) : ℝ) * 2 ^ (-149 : Int) ≤ 2 ^ 277 * 2 ^ (-149 : Int) := by gcongr
    _ = 2 ^ 128 := by
      rw [← zpow_natCast, ← zpow_natCast, ← zpow_add₀ two_ne_zero]
      rfl

theorem wordVal_sign : wordVal a = if a.msb then -|wordVal a| else |wordVal a| := by
  split
  · next h => exact wordVal_nonpos h
  · next h => exact wordVal_nonneg (Bool.eq_false_iff.mpr h)

theorem cos_near (ha : Finite32 a) : Near (ftrigVal true a) (Real.cos (wordVal a)) (2 ^ (-22 : Int)) := by
  obtain ⟨m, e, eq, -, -, -, -, fx⟩ := ha.exists_fxOf
  rw [ftrigVal_of_fin eq, if_neg (by simp)]
  refine near_of_abs_le_one ?_ (Real.abs_cos_le_one _)
  rw [realVal_fx]
  exact fxTrig_cos_close fx (abs_wordVal_le ha)

theorem sin_near (ha : Finite32 a) : Near (ftrigVal false a) (Real.sin (wordVal a)) (2 ^ (-22 : Int)) := by
  obtain ⟨m, e, eq, -, -, val, -, fx⟩ := ha.exists_fxOf
  rw [ftrigVal_of_fin eq]
  split
  · next h =>
    have zero : wordVal a = 0 := by rw [← val]; exact realVal_eq_zero_iff.mpr h.1
    refine ⟨ha, ?_⟩
    rw [zero, Real.sin_zero, sub_zero, abs_zero]
    positivity
  · refine near_of_abs_le_one ?_ (Real.abs_sin_le_one _)
    rw [realVal_fx]
    exact fxTrig_sin_close fx (abs_wordVal_le ha) wordVal_sign

end Sys2Proof.Machine
end

section
/-!
`ftanh` (R56): where the hyperbolic tangent meets a power of two, no operand's value is close to the power from below.
-/
namespace Sys2Proof.Machine
variable {n k v : Nat} {j : Int} {x y U H : ℝ} {a : Word}

/-- The inverse hyperbolic tangent. -/
noncomputable def artanhLog (u : ℝ) : ℝ := 1 / 2 * Real.log ((1 + u) / (1 - u))

/-- The first terms of its series at 2^-k. -/
def artanhSum (k : Nat) : Nat → ℚ
  | 0 => 0
  | n + 1 => artanhSum k n + (1 / 2 ^ k) ^ (2 * n + 1) / (2 * n + 1)

theorem cast_artanhSum : (artanhSum k n : ℝ) = ∑ i ∈ Finset.range n, ((1 : ℝ) / 2 ^ k) ^ (2 * i + 1) / (2 * i + 1) := by
  induction n with
  | zero => simp [artanhSum]
  | succ n ih =>
    rw [Finset.sum_range_succ, ← ih, artanhSum]
    push_cast
    rfl

/-- The magnitudes just below the inverse hyperbolic tangent of 2^-k, for k from 1 to 10. -/
def artanhWords : List (Nat × Nat) := [(1, 0x3F0C9F53), (2, 0x3E82C577), (3, 0x3E00AC48), (4, 0x3D802AC4), (5, 0x3D000AAC),
  (6, 0x3C8002AA), (7, 0x3C0000AA), (8, 0x3B80002A), (9, 0x3B00000A), (10, 0x3A800002)]

theorem artanhWords_close : ∀ p ∈ artanhWords, (unitsOf p.2 : ℚ) / 2 ^ 149 + 1 / 2 ^ 100 ≤ artanhSum p.1 20 ∧
    artanhSum p.1 20 + (1 / 2 ^ p.1) ^ 41 / (1 - (1 / 2 ^ p.1) ^ 2) ≤ (unitsOf (p.2 + 1) : ℚ) / 2 ^ 149 := by decide +kernel

theorem artanhWords_all (h1 : 1 ≤ k) (h2 : k ≤ 10) : ∃ p ∈ artanhWords, p.1 = k := by
  interval_cases k <;> simp [artanhWords]

theorem inv_two_pow_range (h1 : 1 ≤ k) : 0 ≤ (1 : ℝ) / 2 ^ k ∧ (1 : ℝ) / 2 ^ k < 1 := by
  refine ⟨by positivity, ?_⟩
  rw [div_lt_one (by positivity)]
  exact one_lt_pow₀ one_lt_two (by omega)

theorem div_two_pow_149 {c : ℝ} : c / 2 ^ 149 = c * 2 ^ (-149 : Int) := by
  rw [zpow_neg, ← div_eq_mul_inv]
  rfl

/-- No finite magnitude is close below the inverse hyperbolic tangent of a power of two: the greater powers, by their words. -/
theorem artanh_gap_near (h1 : 1 ≤ k) (h2 : k ≤ 10) : ∃ v, (unitsOf v : ℝ) * 2 ^ (-149 : Int) + 2 ^ (-377 : Int) ≤ artanhLog (1 / 2 ^ k) ∧
    artanhLog (1 / 2 ^ k) ≤ unitsOf (v + 1) * 2 ^ (-149 : Int) := by
  obtain ⟨p, mem, rfl⟩ := artanhWords_all h1 h2
  obtain ⟨low, high⟩ := artanhWords_close p mem
  obtain ⟨U0, U1⟩ := inv_two_pow_range h1
  have low := (Rat.cast_le (K := ℝ)).mpr low
  have high := (Rat.cast_le (K := ℝ)).mpr high
  push_cast at low high
  rw [cast_artanhSum, div_two_pow_149] at low high
  refine ⟨p.2, ?_, (Real.log_div_le_sum_range_add U0 U1 20).trans high⟩
  refine le_trans ?_ (low.trans (Real.sum_range_le_log_div U0 U1 20))
  gcongr
  rw [one_div, ← zpow_natCast, ← zpow_neg]
  exact zpow_le_zpow_right₀ one_le_two (by norm_num)

/-- The same for the lesser powers, by the first two terms of the series. -/
theorem artanh_gap_far (h1 : 11 ≤ k) (h2 : k ≤ 125) : ∃ v, (unitsOf v : ℝ) * 2 ^ (-149 : Int) + 2 ^ (-377 : Int) ≤ artanhLog (1 / 2 ^ k) ∧
    artanhLog (1 / 2 ^ k) ≤ unitsOf (v + 1) * 2 ^ (-149 : Int) := by
  obtain ⟨U0, U1⟩ := inv_two_pow_range (k := k) (by omega)
  have units (s : Nat) (hs : 2 ^ 23 ≤ s) (hs' : s ≤ 2 * 2 ^ 23) :
      (unitsOf ((126 - k) * 2 ^ 23 + s) : ℝ) * 2 ^ (-149 : Int) = s * 2 ^ (-23 : Int) * (1 / 2 ^ k) := by
    have := fmtF32.units_join (k := 126 - k) (Or.inr hs) hs'
    rw [units_fmtF32] at this
    rw [show (126 - k) * 2 ^ 23 + s = (126 - k) * fmtF32.hidden + s from rfl, this, Nat.cast_mul, Nat.cast_pow, Nat.cast_ofNat,
      one_div, ← zpow_natCast, ← zpow_natCast 2 k, ← zpow_neg, mul_assoc, mul_assoc, ← zpow_add₀ two_ne_zero, ← zpow_add₀ two_ne_zero]
    congr 2
    omega
  refine ⟨(126 - k) * 2 ^ 23 + 2 ^ 23, ?_, ?_⟩
  · refine le_trans ?_ (Real.sum_range_le_log_div U0 U1 2)
    rw [units _ le_rfl (by decide)]
    have cube : (2 : ℝ) ^ (-377 : Int) ≤ (1 / 2 ^ k) ^ 3 / 3 := by
      have : (2 : ℝ) ^ (-375 : Int) ≤ (1 / 2 ^ k) ^ 3 := by
        rw [one_div, ← zpow_natCast 2 k, ← zpow_neg, ← zpow_natCast, ← zpow_mul]
        exact zpow_le_zpow_right₀ one_le_two (by push_cast; omega)
      have quarter : (2 : ℝ) ^ (-377 : Int) = 2 ^ (-375 : Int) / 4 := by
        rw [show (4 : ℝ) = 2 ^ (2 : Int) by norm_num, ← zpow_sub₀ two_ne_zero]
        rfl
      rw [quarter]
      have pos : (0 : ℝ) < 2 ^ (-375 : Int) := by positivity
      generalize (2 : ℝ) ^ (-375 : Int) = D at *
      linarith
    generalize (1 : ℝ) / 2 ^ k = U at *
    generalize (2 : ℝ) ^ (-377 : Int) = D at *
    norm_num [Finset.sum_range_succ]
    linarith
  · refine (Real.log_div_le_sum_range_add U0 U1 2).trans ?_
    rw [add_assoc, units _ (Nat.le_succ _) (by decide)]
    have small : (1 : ℝ) / 2 ^ k ≤ 2 ^ (-11 : Int) := by
      rw [one_div, ← zpow_natCast, ← zpow_neg]
      exact zpow_le_zpow_right₀ one_le_two (by omega)
    generalize (1 : ℝ) / 2 ^ k = U at *
    have w1 : U ^ 2 ≤ 2 ^ (-22 : Int) := by
      calc U ^ 2 ≤ (2 ^ (-11 : Int)) ^ 2 := pow_le_pow_left₀ U0 small 2
        _ = 2 ^ (-22 : Int) := by norm_num
    have tail : U ^ (2 * 2 + 1) / (1 - U ^ 2) ≤ U * (U ^ 2 * 2 ^ (-21 : Int)) := by
      have half : (1 / 2 : ℝ) ≤ 1 - U ^ 2 := by
        have := w1.trans (by norm_num : (2 : ℝ) ^ (-22 : Int) ≤ 1 / 2)
        linarith
      rw [div_le_iff₀ (by linarith)]
      have : U ^ 2 ≤ 2 ^ (-21 : Int) * (1 - U ^ 2) := by
        refine w1.trans ?_
        norm_num at half ⊢
        linarith
      calc U ^ (2 * 2 + 1) = U * (U ^ 2 * U ^ 2) := by ring
        _ ≤ U * (U ^ 2 * (2 ^ (-21 : Int) * (1 - U ^ 2))) := by gcongr
        _ = U * (U ^ 2 * 2 ^ (-21 : Int)) * (1 - U ^ 2) := by ring
    have cube : U ^ 3 / 3 + U * (U ^ 2 * 2 ^ (-21 : Int)) ≤ U * 2 ^ (-23 : Int) := by
      have : U ^ 2 * (1 / 3 + 2 ^ (-21 : Int)) ≤ 2 ^ (-23 : Int) := by
        calc U ^ 2 * (1 / 3 + 2 ^ (-21 : Int)) ≤ 2 ^ (-22 : Int) * (1 / 3 + 2 ^ (-21 : Int)) := by gcongr
          _ ≤ 2 ^ (-23 : Int) := by norm_num
      calc U ^ 3 / 3 + U * (U ^ 2 * 2 ^ (-21 : Int)) = U * (U ^ 2 * (1 / 3 + 2 ^ (-21 : Int))) := by ring
        _ ≤ U * 2 ^ (-23 : Int) := by gcongr
    generalize U ^ (2 * 2 + 1) / (1 - U ^ 2) = tl at *
    norm_num [Finset.sum_range_succ] at cube tail ⊢
    linarith

theorem artanh_gap (h1 : -126 < j) (h2 : j < 0) : ∃ v, (unitsOf v : ℝ) * 2 ^ (-149 : Int) + 2 ^ (-377 : Int) ≤ artanhLog (2 ^ j) ∧
    artanhLog (2 ^ j) ≤ unitsOf (v + 1) * 2 ^ (-149 : Int) := by
  obtain ⟨k, rfl⟩ : ∃ k : Nat, j = -(k : Int) := ⟨j.natAbs, by omega⟩
  rw [show (2 : ℝ) ^ (-(k : Int)) = 1 / 2 ^ k by rw [zpow_neg, zpow_natCast, one_div]]
  obtain h | h := le_or_gt k 10
  · exact artanh_gap_near (by omega) h
  · exact artanh_gap_far h (by omega)

end Sys2Proof.Machine
end

section
/-!
`ftanh` comes within its bound (R56).
-/
namespace Sys2Proof.Machine
variable {n k v m q f : Nat} {e j : Int} {x y z U Q H : ℝ} {a : Word} {neg : Bool}

/-! ## The exponential that the model takes -/

/-- e^(-2 y) in fixed point, at least one unit. -/
def tanhExp (m : Nat) (e : Int) : Nat :=
  let x := fxMul (2 * fxOf m e) fxLog2e
  let n := (x + fxOne - 1) / fxOne
  if magLe 200 0 m e then 1 else max 1 (fxExp2 (n * fxOne - x) / 2 ^ n)

/-- A power of two with a negative exponent in fixed point. -/
theorem fxExp2_neg_close {x : Nat} (hn : n = (x + fxOne - 1) / fxOne) :
    |((fxExp2 (n * fxOne - x) / 2 ^ n : Nat) : ℝ) * fxUnit - (2 : ℝ) ^ (-(x * fxUnit))| ≤ (2 ^ 16 + 1) * fxUnit := by
  have u := fxUnit_pos
  have unit := fxOne_mul_fxUnit
  have cover : x ≤ n * fxOne ∧ n * fxOne ≤ x + fxOne := by
    have := fxOne_pos
    have low := Nat.div_mul_le_self (x + fxOne - 1) fxOne
    have high := (Nat.div_lt_iff_lt_mul this).mp (Nat.lt_succ_self ((x + fxOne - 1) / fxOne))
    rw [Nat.succ_mul] at high
    rw [← hn] at low high
    omega
  have close := fxExp2_close (f := n * fxOne - x) (by omega)
  have arg : ((n * fxOne - x : Nat) : ℝ) * fxUnit = n + -(x * fxUnit) := by
    rw [Nat.cast_sub cover.1]
    push_cast
    linear_combination (n : ℝ) * unit
  rw [arg, Real.rpow_add two_pos, Real.rpow_natCast] at close
  generalize (2 : ℝ) ^ (-(x * fxUnit)) = X at *
  generalize fxExp2 (n * fxOne - x) = E at *
  obtain ⟨div1, div2⟩ := div_bounds (a := E) (Nat.two_pow_pos n)
  push_cast at div1 div2
  have pos : (0 : ℝ) < 2 ^ n := by positivity
  have one : (1 : ℝ) ≤ 2 ^ n := one_le_pow₀ one_le_two
  obtain ⟨close1, close2⟩ := abs_le.mp close
  have div1 := mul_le_mul_of_nonneg_right div1 u.le
  have div2 := mul_le_mul_of_nonneg_right div2.le u.le
  have slack : 2 ^ 16 * fxUnit ≤ 2 ^ n * (2 ^ 16 * fxUnit) := le_mul_of_one_le_left (by positivity) one
  rw [abs_le]
  constructor
  · refine le_of_mul_le_mul_left ?_ pos
    linarith
  · refine le_of_mul_le_mul_left ?_ pos
    have : 0 ≤ 2 ^ n * fxUnit := by positivity
    linarith

theorem exp_neg_close {x : Nat} (hx : x = fxMul (2 * f) fxLog2e) (hy : f * fxUnit = y) :
    |(2 : ℝ) ^ (-(x * fxUnit)) - Real.exp (-(2 * y))| ≤ 3 * ((2 ^ 16 * y + 1) * fxUnit) := by
  have u := fxUnit_pos
  have y0 : 0 ≤ y := by rw [← hy]; positivity
  have mul1 := fxMul_le (a := 2 * f) (b := fxLog2e)
  have mul2 := lt_fxMul (a := 2 * f) (b := fxLog2e)
  have two : ((2 * f : Nat) : ℝ) * fxUnit = 2 * y := by
    rw [← hy]
    push_cast
    ring
  rw [two, ← hx] at mul1 mul2
  have ln := Real.log_two_gt_d9
  have ln' := Real.log_two_lt_d9
  have log := log2e_close
  rw [two_rpow_eq_exp]
  refine (exp_sub_exp_le ?_ (by linarith)).trans (mul_le_mul_of_nonneg_left ?_ (by norm_num))
  · have : 0 ≤ Real.log 2 * (x * fxUnit) := by positivity
    linarith
  · have split_ : Real.log 2 * -(x * fxUnit) - -(2 * y) =
        Real.log 2 * (2 * y * (fxLog2e * fxUnit) - x * fxUnit) - 2 * y * (fxLog2e * fxUnit * Real.log 2 - 1) := by ring
    have cut : |Real.log 2 * (2 * y * (fxLog2e * fxUnit) - x * fxUnit)| ≤ fxUnit := by
      rw [abs_mul, abs_of_pos (by linarith : 0 < Real.log 2), abs_of_nonneg (by linarith)]
      calc Real.log 2 * (2 * y * (fxLog2e * fxUnit) - x * fxUnit) ≤ 1 * fxUnit := by
            refine mul_le_mul (by linarith) (by linarith) (by linarith) zero_le_one
        _ = fxUnit := one_mul _
    have const : |2 * y * (fxLog2e * fxUnit * Real.log 2 - 1)| ≤ 2 * y * (2 ^ 15 * fxUnit) := by
      rw [abs_mul, abs_of_nonneg (by positivity)]
      gcongr
    rw [split_]
    refine (abs_sub _ _).trans ?_
    linarith

theorem exp_neg_400 (hy : 200 ≤ y) : Real.exp (-(2 * y)) ≤ fxUnit := by
  have e2 : (2 : ℝ) ≤ Real.exp 1 := by
    have := Real.add_one_le_exp (1 : ℝ)
    linarith
  have big : (2 : ℝ) ^ 400 ≤ Real.exp (2 * y) := by
    calc (2 : ℝ) ^ 400 ≤ Real.exp 1 ^ 400 := pow_le_pow_left₀ zero_le_two e2 400
      _ = Real.exp (400 * 1) := by rw [← Real.exp_nat_mul]; norm_num
      _ ≤ Real.exp (2 * y) := Real.exp_le_exp.mpr (by linarith)
  rw [Real.exp_neg, inv_le_iff_one_le_mul₀ (Real.exp_pos _), ← fxUnit_mul_two_pow]
  exact mul_le_mul_of_nonneg_left big fxUnit_pos.le

theorem tanhExp_close (hm : (m : ℝ) * 2 ^ e = y) (hy : fxOf m e * fxUnit = y) : 1 ≤ tanhExp m e ∧
    |tanhExp m e * fxUnit - Real.exp (-(2 * y))| ≤ (2 ^ 18 * min y 200 + 2 ^ 17) * fxUnit := by
  have u := fxUnit_pos
  have y0 : 0 ≤ y := by rw [← hy]; positivity
  have pos := Real.exp_pos (-(2 * y))
  rw [tanhExp]
  split
  · next large =>
    rw [magLe_iff, hm, zpow_zero, mul_one] at large
    push_cast at large
    refine ⟨le_rfl, ?_⟩
    have small := exp_neg_400 large
    rw [Nat.cast_one, one_mul, min_eq_right large, abs_of_nonneg (by linarith)]
    linarith
  · next small =>
    rw [magLe_iff, hm, zpow_zero, mul_one] at small
    push_cast at small
    rw [min_eq_left (not_le.mp small).le]
    refine ⟨le_max_left _ _, ?_⟩
    have power := fxExp2_neg_close (x := fxMul (2 * fxOf m e) fxLog2e) rfl
    have close := exp_neg_close rfl hy
    set x := fxMul (2 * fxOf m e) fxLog2e
    set n := (x + fxOne - 1) / fxOne
    have sum := (abs_sub_le _ ((2 : ℝ) ^ (-(x * fxUnit))) _).trans (add_le_add power close)
    generalize fxExp2 (n * fxOne - x) / 2 ^ n = E at *
    have least : |((max 1 E : Nat) : ℝ) * fxUnit - E * fxUnit| ≤ fxUnit := by
      obtain h | h := le_total 1 E
      · rw [max_eq_right h, sub_self, abs_zero]
        exact u.le
      · rw [max_eq_left h, Nat.cast_one, one_mul]
        have : (E : ℝ) ≤ 1 := by exact_mod_cast h
        rw [abs_of_nonneg (by nlinarith)]
        have : 0 ≤ (E : ℝ) * fxUnit := by positivity
        linarith
    have total := (abs_sub_le (((max 1 E : Nat) : ℝ) * fxUnit) (E * fxUnit) (Real.exp (-(2 * y)))).trans (add_le_add least sum)
    have : 0 ≤ y * fxUnit := by positivity
    linarith

/-! ## The tangent of the model -/

/-- (1 - Q) / (1 + Q). -/
noncomputable def tanhOf (Q : ℝ) : ℝ := (1 - Q) / (1 + Q)

theorem tanh_eq_tanhOf : Real.tanh y = tanhOf (Real.exp (-(2 * y))) := by
  have pos := Real.exp_pos y
  have split_ : Real.exp (-(2 * y)) = Real.exp (-y) * Real.exp (-y) := by rw [← Real.exp_add]; congr 1; ring
  have inv : Real.exp y * Real.exp (-y) = 1 := by rw [← Real.exp_add, add_neg_cancel, Real.exp_zero]
  have pos' := Real.exp_pos (-y)
  rw [Real.tanh_eq_sinh_div_cosh, Real.sinh_eq, Real.cosh_eq, tanhOf, split_, div_div_div_cancel_right₀ two_ne_zero,
    div_eq_div_iff (by positivity) (by positivity)]
  linear_combination 2 * Real.exp (-y) * inv

theorem tanhOf_sub {P : ℝ} (hQ : 0 ≤ Q) (hP : 0 ≤ P) : |tanhOf Q - tanhOf P| ≤ 2 * |Q - P| := by
  have pos : (0 : ℝ) < (1 + Q) * (1 + P) := by positivity
  have diff : tanhOf Q - tanhOf P = 2 * (P - Q) / ((1 + Q) * (1 + P)) := by
    rw [tanhOf, tanhOf, div_sub_div _ _ (by positivity) (by positivity)]
    congr 1
    ring
  rw [diff, abs_div, abs_mul, abs_two, abs_of_pos pos, abs_sub_comm P]
  refine div_le_self (by positivity) ?_
  nlinarith

theorem tanhOf_le_iff (hQ : 0 ≤ Q) (hU : -1 < U) : U ≤ tanhOf Q ↔ Q ≤ tanhOf U := by
  rw [tanhOf, tanhOf, le_div_iff₀ (by linarith), le_div_iff₀ (by linarith)]
  constructor <;> intro h <;> linarith

theorem fxTanh_close (h : q < fxOne) : (((fxOne - q) * fxOne / (fxOne + q) : Nat) : ℝ) * fxUnit ≤ tanhOf (q * fxUnit) ∧
    tanhOf (q * fxUnit) ≤ (((fxOne - q) * fxOne / (fxOne + q) : Nat) : ℝ) * fxUnit + fxUnit := by
  have u := fxUnit_pos
  have unit := fxOne_mul_fxUnit
  obtain ⟨div1, div2⟩ := div_bounds (a := (fxOne - q) * fxOne) (c := fxOne + q) (Nat.add_pos_left fxOne_pos q)
  have q0 : 0 ≤ (q : ℝ) * fxUnit := by positivity
  have top : (((fxOne - q) * fxOne : Nat) : ℝ) * (fxUnit * fxUnit) = 1 - q * fxUnit := by
    rw [Nat.cast_mul, Nat.cast_sub h.le]
    linear_combination (fxOne * fxUnit + 1 - q * fxUnit) * unit
  have bottom : ((fxOne + q : Nat) : ℝ) * fxUnit = 1 + q * fxUnit := by
    push_cast
    linear_combination unit
  have div1 := mul_le_mul_of_nonneg_right div1 (mul_pos u u).le
  have div2 := mul_le_mul_of_nonneg_right div2.le (mul_pos u u).le
  rw [top] at div1 div2
  rw [tanhOf]
  generalize (fxOne - q) * fxOne / (fxOne + q) = t at *
  constructor
  · rw [le_div_iff₀ (by linarith), ← bottom]
    linarith
  · rw [div_le_iff₀ (by linarith), ← bottom]
    linarith

/-! ## `ftanh` -/

theorem exp_neg_range (hy : 2 ^ (-149 : Int) ≤ y) : 0 < Real.exp (-(2 * y)) ∧ Real.exp (-(2 * y)) ≤ 1 - 2 ^ (-150 : Int) := by
  refine ⟨Real.exp_pos _, ?_⟩
  have pos : (0 : ℝ) < 2 ^ (-149 : Int) := by positivity
  have least : (2 : ℝ) ^ (-149 : Int) ≤ 1 := zpow_le_one_of_nonpos₀ one_le_two (by norm_num)
  -- e^(-2 d) is at most 1 / (1 + 2 d)
  have low := Real.add_one_le_exp (2 * (2 : ℝ) ^ (-149 : Int))
  have mono : Real.exp (-(2 * y)) ≤ Real.exp (-(2 * (2 : ℝ) ^ (-149 : Int))) := Real.exp_le_exp.mpr (by linarith)
  refine mono.trans ?_
  have half : (2 : ℝ) ^ (-150 : Int) = 2 ^ (-149 : Int) / 2 := by
    rw [div_eq_mul_inv, ← zpow_sub_one₀ two_ne_zero]
    rfl
  rw [half, Real.exp_neg, inv_le_iff_one_le_mul₀ (Real.exp_pos _)]
  generalize (2 : ℝ) ^ (-149 : Int) = d at *
  nlinarith

/-- Below a power of two the tangent of a finite magnitude keeps away from it, as its exponential does. -/
theorem exp_gap (h1 : -126 < j) (h2 : j < 0) (hy : y = unitsOf v * 2 ^ (-149 : Int)) (below : Real.tanh y < 2 ^ j) :
    y ≤ 1 ∧ tanhOf (2 ^ j) + 2 ^ (-378 : Int) ≤ Real.exp (-(2 * y)) := by
  obtain ⟨w, low, high⟩ := artanh_gap h1 h2
  have U0 : (0 : ℝ) < 2 ^ j := by positivity
  have U1 : (2 : ℝ) ^ j ≤ 1 / 2 := by
    rw [one_div, ← zpow_neg_one]
    exact zpow_le_zpow_right₀ one_le_two (by omega)
  generalize (2 : ℝ) ^ j = U at *
  -- the exponential at the inverse of the power
  have inverse : Real.exp (-(2 * artanhLog U)) = tanhOf U := by
    rw [artanhLog, show -(2 * (1 / 2 * Real.log ((1 + U) / (1 - U)))) = Real.log (((1 + U) / (1 - U))⁻¹) by rw [Real.log_inv]; ring,
      Real.exp_log (inv_pos.mpr (div_pos (by linarith) (by linarith))), inv_div, tanhOf]
  have lt : y < artanhLog U := by
    rw [tanh_eq_tanhOf, ← not_le, tanhOf_le_iff (Real.exp_pos _).le (by linarith), ← inverse, Real.exp_le_exp] at below
    linarith
  -- so the magnitude is at most the one below the inverse
  have le : y ≤ unitsOf w * 2 ^ (-149 : Int) := by
    have pos : (0 : ℝ) < 2 ^ (-149 : Int) := by positivity
    have : (unitsOf v : ℝ) < unitsOf (w + 1) := by
      have := lt.trans_le high
      rw [hy, mul_lt_mul_iff_left₀ pos] at this
      exact this
    have : unitsOf v < unitsOf (w + 1) := by exact_mod_cast this
    have vw : v ≤ w := Nat.lt_succ_iff.mp (fmtF32.units_strictMono.lt_iff_lt.mp this)
    have : unitsOf v ≤ unitsOf w := fmtF32.units_strictMono.monotone vw
    rw [hy]
    gcongr
  have third : 1 / 3 ≤ tanhOf U := by
    rw [tanhOf, div_le_div_iff₀ three_pos (by linarith)]
    linarith
  have far : 2 * 2 ^ (-377 : Int) ≤ -(2 * y) - -(2 * artanhLog U) := by linarith
  have pos : (0 : ℝ) < 2 ^ (-377 : Int) := by positivity
  have half : (2 : ℝ) ^ (-378 : Int) = 2 ^ (-377 : Int) / 2 := by
    rw [div_eq_mul_inv, ← zpow_sub_one₀ two_ne_zero]
    rfl
  constructor
  · -- the inverse at one half is below 1
    by_contra h
    have e : Real.exp (-(2 * y)) ≤ Real.exp (-2) := Real.exp_le_exp.mpr (by linarith)
    have two : Real.exp (-2) < 1 / 3 := by
      have e1 := Real.exp_one_gt_d9
      rw [show (-2 : ℝ) = -(1 + 1) by ring, Real.exp_neg, Real.exp_add, ← one_div, div_lt_div_iff₀ (by positivity) three_pos]
      nlinarith
    have : tanhOf U < Real.exp (-(2 * y)) := by
      rw [← inverse]
      exact Real.exp_lt_exp.mpr (by linarith)
    linarith
  · have grow := Real.add_one_le_exp (-(2 * y) - -(2 * artanhLog U))
    have split_ : Real.exp (-(2 * y)) = tanhOf U * Real.exp (-(2 * y) - -(2 * artanhLog U)) := by
      rw [← inverse, ← Real.exp_add, add_sub_cancel]
    rw [split_, half]
    generalize (2 : ℝ) ^ (-377 : Int) = g at *
    have : tanhOf U * (1 + 2 * g) ≤ tanhOf U * Real.exp (-(2 * y) - -(2 * artanhLog U)) := by
      refine mul_le_mul_of_nonneg_left (by linarith) (by linarith)
    nlinarith

theorem ftanhVal_of_fin (ha : numF32 a = .fin neg m e) : ftanhVal a = if m = 0 then a else
    chosenUlp 0x44 a neg ((fxOne - tanhExp m e) * fxOne / (fxOne + tanhExp m e)) (-(fxBits : Int)) 2 := by
  unfold ftanhVal
  rw [ha]
  rfl

theorem realVal_fxBits {t : Nat} : realVal neg t (-(fxBits : Int)) = (if neg then -1 else 1) * (t * fxUnit) := by
  show (signed neg t : ℝ) * fxUnit = _
  cases neg <;> simp [signed]

/-- The choice of `ftanh` for a magnitude that is not zero. -/
theorem near_tanh (hm : (m : ℝ) * 2 ^ e = y) (hy : fxOf m e * fxUnit = y) (units : y = unitsOf v * 2 ^ (-149 : Int)) (ypos : 0 < y)
    (hx : x = (if neg then -1 else 1) * y) :
    Near (chosenUlp 0x44 a neg ((fxOne - tanhExp m e) * fxOne / (fxOne + tanhExp m e)) (-(fxBits : Int)) 2) (Real.tanh x)
      (2 * ulpReal (Real.tanh x)) := by
  have u := fxUnit_pos
  have unit := fxOne_mul_fxUnit
  obtain ⟨q1, close⟩ := tanhExp_close hm hy
  generalize tanhExp m e = q at *
  have least : (2 : ℝ) ^ (-149 : Int) ≤ y := by
    rw [units]
    have : unitsOf v ≠ 0 := fun h => by rw [units, h, Nat.cast_zero, zero_mul] at ypos; exact lt_irrefl _ ypos
    exact le_mul_of_one_le_left (by positivity) (by exact_mod_cast Nat.pos_of_ne_zero this)
  obtain ⟨Q0, Q1⟩ := exp_neg_range least
  have coarse : |q * fxUnit - Real.exp (-(2 * y))| ≤ 2 ^ 26 * fxUnit := by
    refine close.trans (mul_le_mul_of_nonneg_right ?_ u.le)
    have := min_le_right y 200
    linarith
  have coarse' : 2 ^ 26 * fxUnit < (2 : ℝ) ^ (-150 : Int) := by
    rw [fxUnit, ← zpow_natCast, ← zpow_add₀ two_ne_zero]
    exact zpow_lt_zpow_right₀ one_lt_two (by norm_num)
  have qpos : 0 < (q : ℝ) * fxUnit := by
    have : (0 : ℝ) < q := by exact_mod_cast q1
    positivity
  have qone : (q : ℝ) * fxUnit < 1 := by
    have := (abs_le.mp coarse).2
    linarith
  have qlt : q < fxOne := by
    rw [← unit, mul_lt_mul_iff_left₀ u] at qone
    exact_mod_cast qone
  obtain ⟨t1, t2⟩ := fxTanh_close qlt
  generalize (fxOne - q) * fxOne / (fxOne + q) = t at *
  have sub := tanhOf_sub qpos.le Q0.le
  rw [← tanh_eq_tanhOf] at sub
  have err : |t * fxUnit - Real.tanh y| ≤ ulpReal (Real.tanh x) * 2 ^ (-90 : Int) := by
    have first : |t * fxUnit - tanhOf (q * fxUnit)| ≤ fxUnit := by
      rw [abs_le]
      constructor <;> linarith
    have total := (abs_sub_le _ (tanhOf (q * fxUnit)) _).trans (add_le_add first (sub.trans (mul_le_mul_of_nonneg_left coarse zero_le_two)))
    refine total.trans ?_
    have room : fxUnit + 2 * (2 ^ 26 * fxUnit) ≤ (2 : ℝ) ^ (-149 : Int) * 2 ^ (-90 : Int) := by
      have : fxUnit + 2 * (2 ^ 26 * fxUnit) ≤ 2 ^ 28 * fxUnit := by linarith
      refine this.trans ?_
      rw [fxUnit, ← zpow_natCast, ← zpow_add₀ two_ne_zero, ← zpow_add₀ two_ne_zero]
      exact zpow_le_zpow_right₀ one_le_two (by norm_num)
    refine room.trans (mul_le_mul_of_nonneg_right least_le_ulpReal (by positivity))
  have sign : |(if neg then -1 else 1 : ℝ)| = 1 := by cases neg <;> simp
  have odd : Real.tanh x = (if neg then -1 else 1) * Real.tanh y := by
    rw [hx]
    cases neg <;> simp
  have tanh0 : 0 ≤ Real.tanh y := by
    rw [tanh_eq_tanhOf]
    exact div_nonneg (by linarith) (by linarith)
  have t0 : 0 ≤ (t : ℝ) * fxUnit := by positivity
  have lt1 : (t : ℝ) * fxUnit < 1 := by
    refine lt_of_le_of_lt t1 ?_
    rw [tanhOf, div_lt_one (by linarith)]
    linarith
  refine near_chosenUlp (k := 2) one_le_two ?_ (fun ht => ulpReal_le_of_powers (realVal_eq_zero_iff.not.mpr ht) fun j h1 hj => ?_) ?_
  · have top : 2 ^ 149 ≤ unitsOf 0x7F7FFFFF := by decide
    have top : (2 : ℝ) ^ (149 : Int) ≤ unitsOf 0x7F7FFFFF := by exact_mod_cast top
    rw [zpow_add₀ two_ne_zero, ← mul_assoc]
    exact (mul_le_of_le_one_left (by positivity) lt1.le).trans top
  · rw [realVal_fxBits, abs_mul, sign, one_mul, abs_of_nonneg t0] at hj
    rw [odd, abs_mul, sign, one_mul, abs_of_nonneg tanh0]
    have h2 : j < 0 := by
      rw [← zpow_lt_zpow_iff_right₀ (one_lt_two (α := ℝ)), zpow_zero]
      exact hj.trans_lt lt1
    by_contra h
    -- the exponential is far from that of the power, and the model's is not
    obtain ⟨y1, far⟩ := exp_gap h1 h2 units (not_le.mp h)
    have U0 : (0 : ℝ) < 2 ^ j := by positivity
    have upper := (tanhOf_le_iff qpos.le (by linarith)).mp (hj.trans t1)
    have fine : |q * fxUnit - Real.exp (-(2 * y))| ≤ 2 ^ 19 * fxUnit := by
      refine close.trans (mul_le_mul_of_nonneg_right ?_ u.le)
      have := min_le_left y 200
      linarith
    have small : 2 ^ 19 * fxUnit < (2 : ℝ) ^ (-378 : Int) := by
      rw [fxUnit, ← zpow_natCast, ← zpow_add₀ two_ne_zero]
      exact zpow_lt_zpow_right₀ one_lt_two (by norm_num)
    have := (abs_le.mp fine).1
    linarith
  · rw [realVal_fxBits, odd, ← mul_sub, abs_mul, sign, one_mul, ← odd]
    exact err

theorem ftanhVal_near (ha : Finite32 a) : Near (ftanhVal a) (Real.tanh (wordVal a)) (2 * ulpReal (Real.tanh (wordVal a))) := by
  obtain ⟨m, e, eq, -, -, val, mag, fx⟩ := ha.exists_fxOf
  rw [ftanhVal_of_fin eq]
  split
  · next h =>
    have zero : wordVal a = 0 := by rw [← val]; exact realVal_eq_zero_iff.mpr h
    refine ⟨ha, ?_⟩
    rw [zero, Real.tanh_zero, sub_zero, abs_zero]
    exact mul_nonneg (mul_nonneg zero_le_two ulpReal_pos.le) (by positivity)
  · next h =>
    have ne : wordVal a ≠ 0 := by rw [← val]; exact realVal_eq_zero_iff.not.mpr h
    refine near_tanh mag fx abs_wordVal (abs_pos.mpr ne) ?_
    rw [wordVal_sign]
    split <;> simp

/-! ## The bounds -/

/-- Settles O9: each function's fixed-point value is within the slack of the exact one, and the ulp taken at it is no greater than the
exact result's. -/
theorem approximationBounds : Obligations.ApproximationBounds := by
  unfold Obligations.ApproximationBounds
  exact fun a ha => ⟨fex2Val_near ha, flg2Val_near ha, sin_near ha, cos_near ha, ftanhVal_near ha⟩

end Sys2Proof.Machine
end

section
/-!
Tables whose values at rising keys are read or changed: what each key then reads as.
-/
namespace Sys2Proof
variable {α : Type} {d v w : α} {f : Nat → α → α} {n j k : Nat} {ks : List Nat} {t : Table α}

theorem Table.sorted_cons : Table.sorted ((j, v) :: t) = true ↔ Table.above j t = true ∧ t.sorted = true := by
  rw [Table.sorted, Bool.and_eq_true]

theorem Table.get_cons : Table.get d ((j, v) :: t) k = if j = k then v else t.get d k := rfl

/-- Below the keys of a rising list nothing is a member. -/
theorem not_mem_of_rising (h : ∀ x ∈ ks, k < x) : k ∉ ks := fun mem => lt_irrefl _ (h k mem)

variable [DecidableEq α]

theorem Table.get_add (h : Table.above j t = true) : Table.get d (Table.mapKeys.add d j v t) k = if j = k then v else t.get d k := by
  rw [Table.mapKeys.add]
  split
  · next hv =>
    split
    · next hk => rw [← hk, Table.get_of_above h le_rfl, hv]
    · rfl
  · rfl

theorem Table.sorted_add (h : Table.above j t = true) (ht : t.sorted = true) : (Table.mapKeys.add d j v t).sorted = true := by
  rw [Table.mapKeys.add]
  split
  · exact ht
  · exact Table.sorted_cons.mpr ⟨h, ht⟩

/-- A change at rising keys keeps the keys rising. -/
theorem Table.sorted_mapKeys (hk : ks.Pairwise (· < ·)) (ht : t.sorted = true) : (Table.mapKeys d f n ks t).sorted = true := by
  induction n generalizing ks t with
  | zero => simpa [Table.mapKeys] using ht
  | succ n ih =>
    match ks, t with
    | [], t => simpa [Table.mapKeys] using ht
    | k :: ks, [] =>
      obtain ⟨above, rest⟩ := List.pairwise_cons.mp hk
      exact Table.sorted_add (Table.above_mapKeys d f k n ks [] above rfl) (ih rest rfl)
    | k :: ks, (j, v) :: t =>
      obtain ⟨above, rest⟩ := List.pairwise_cons.mp hk
      obtain ⟨jt, ht'⟩ := Table.sorted_cons.mp ht
      simp only [Table.mapKeys]
      split
      · next lt =>
        have : ∀ x ∈ k :: ks, j < x := fun x hx => (List.mem_cons.mp hx).elim (fun e => e ▸ lt) fun hx => lt.trans (above x hx)
        exact Table.sorted_cons.mpr ⟨Table.above_mapKeys d f j n (k :: ks) t this jt, ih hk ht'⟩
      · split
        · next eq =>
          subst eq
          exact Table.sorted_add (Table.above_mapKeys d f _ n ks t above jt) (ih rest ht')
        · have lt : k < j := by omega
          refine Table.sorted_add (Table.above_mapKeys d f k n ks _ above ?_) (ih rest ht)
          simpa [Table.above, lt] using Table.above_mono jt lt

/-- What a key reads as after a change at rising keys. -/
theorem Table.get_mapKeys (hk : ks.Pairwise (· < ·)) (ht : t.sorted = true) (hn : ks.length + t.length < n) :
    Table.get d (Table.mapKeys d f n ks t) k = if k ∈ ks then f k (t.get d k) else t.get d k := by
  induction n generalizing ks t with
  | zero => omega
  | succ n ih =>
    match ks, t with
    | [], t => simp [Table.mapKeys]
    | i :: ks, [] =>
      obtain ⟨above, rest⟩ := List.pairwise_cons.mp hk
      simp only [List.length_cons, List.length_nil] at hn
      rw [Table.mapKeys, Table.get_add (Table.above_mapKeys d f i n ks [] above rfl), ih rest rfl (by simp; omega)]
      by_cases hi : i = k
      · subst hi
        simp [Table.get]
      · simp [hi, Ne.symm hi, Table.get]
    | i :: ks, (j, v) :: t =>
      obtain ⟨above, rest⟩ := List.pairwise_cons.mp hk
      obtain ⟨jt, ht'⟩ := Table.sorted_cons.mp ht
      simp only [List.length_cons] at hn
      simp only [Table.mapKeys]
      split
      · next lt =>
        have below : ∀ x ∈ i :: ks, j < x := fun x hx => (List.mem_cons.mp hx).elim (fun e => e ▸ lt) fun hx => lt.trans (above x hx)
        rw [Table.get_cons, Table.get_cons, ih hk ht' (by simp; omega)]
        by_cases hj : j = k
        · subst hj
          rw [if_pos rfl, if_pos rfl, if_neg (not_mem_of_rising below)]
        · rw [if_neg hj, if_neg hj]
      · split
        · next eq =>
          subst eq
          rw [Table.get_add (Table.above_mapKeys d f _ n ks t above jt), ih rest ht' (by omega), Table.get_cons]
          by_cases hj : j = k
          · subst hj
            simp
          · simp [hj, Ne.symm hj]
        · have lt : i < j := by omega
          have above' : Table.above i ((j, v) :: t) = true := by simpa [Table.above, lt] using Table.above_mono jt lt
          rw [Table.get_add (Table.above_mapKeys d f i n ks _ above above'), ih rest ht (by simp; omega)]
          by_cases hi : i = k
          · subst hi
            rw [if_pos rfl, if_pos List.mem_cons_self, Table.get_of_above above' le_rfl]
          · simp [hi, Ne.symm hi]

end Sys2Proof

namespace Sys2Proof.Machine
variable {n row0 nrow cols row col k : Nat} {ks : List Nat} {t : Table Elem} {b : Basin} {f : Nat → Elem → Elem}

/-- The elements at rising keys, read in one walk. -/
theorem pickKeys_eq (hk : ks.Pairwise (· < ·)) (ht : t.sorted = true) (hn : ks.length + t.length < n) :
    pickKeys n ks t = ks.map (Table.get {} t) := by
  induction n generalizing ks t with
  | zero => omega
  | succ n ih =>
    match ks, t with
    | [], t => rfl
    | i :: ks, [] =>
      obtain ⟨above, rest⟩ := List.pairwise_cons.mp hk
      simp only [List.length_cons, List.length_nil] at hn
      rw [pickKeys, ih rest rfl (by simp; omega)]
      rfl
    | i :: ks, (j, v) :: t =>
      obtain ⟨above, rest⟩ := List.pairwise_cons.mp hk
      obtain ⟨jt, ht'⟩ := Table.sorted_cons.mp ht
      simp only [List.length_cons] at hn
      simp only [pickKeys]
      have skip {ks : List Nat} (h : ∀ x ∈ ks, j < x) : ks.map (Table.get {} t) = ks.map (Table.get {} ((j, v) :: t)) :=
        List.map_congr_left fun x hx => (if_neg (h x hx).ne).symm
      split
      · next lt =>
        have below : ∀ x ∈ i :: ks, j < x := fun x hx => (List.mem_cons.mp hx).elim (fun e => e ▸ lt) fun hx => lt.trans (above x hx)
        rw [ih hk ht' (by simp; omega), skip below]
      · split
        · next eq =>
          subst eq
          rw [ih rest ht' (by omega), skip above, List.map_cons, Table.get_cons_self]
        · have lt : i < j := by omega
          have above' : Table.above i ((j, v) :: t) = true := by simpa [Table.above, lt] using Table.above_mono jt lt
          rw [ih rest ht (by simp; omega), List.map_cons, Table.get_of_above above' le_rfl]

/-! ## The keys of a region -/

theorem elemKeys_rising (h : cols ≤ 192) : (elemKeys row0 nrow cols).Pairwise (· < ·) := by
  rw [elemKeys, List.pairwise_flatMap]
  refine ⟨fun r _ => ?_, ?_⟩
  · rw [List.pairwise_map]
    exact List.pairwise_lt_range.imp fun h => by omega
  · refine List.pairwise_lt_range.imp fun {r r'} lt x hx y hy => ?_
    obtain ⟨c, hc, rfl⟩ := List.mem_map.mp hx
    obtain ⟨c', -, rfl⟩ := List.mem_map.mp hy
    have := List.mem_range.mp hc
    have : (row0 + r + 1) * 192 ≤ (row0 + r') * 192 := Nat.mul_le_mul_right _ (by omega)
    omega

theorem mem_elemKeys (h : cols ≤ 192) (hc : col < 192) :
    row * 192 + col ∈ elemKeys row0 nrow cols ↔ row0 ≤ row ∧ row < row0 + nrow ∧ col < cols := by
  simp only [elemKeys, List.mem_flatMap, List.mem_map, List.mem_range]
  constructor
  · rintro ⟨r, hr, c, hc', eq⟩
    omega
  · rintro ⟨h1, h2, h3⟩
    exact ⟨row - row0, by omega, col, h3, by congr 2; omega⟩

/-! ## Elements of a region -/

section
variable (hb : b.elems.sorted = true)
include hb

theorem Basin.elem_mapElems (hk : ks.Pairwise (· < ·)) : (b.mapElems ks f).elem k = if k ∈ ks then f k (b.elem k) else b.elem k :=
  Table.get_mapKeys hk hb (Nat.lt_succ_self _)

theorem Basin.sorted_mapElems (hk : ks.Pairwise (· < ·)) : (b.mapElems ks f).elems.sorted = true := Table.sorted_mapKeys hk hb

theorem Basin.pick_eq (hk : ks.Pairwise (· < ·)) : b.pick ks = ks.map b.elem := pickKeys_eq hk hb (Nat.lt_succ_self _)

/-- The elements of some rows, row by row. -/
theorem Basin.pick_rows (h : cols ≤ 192) : b.pick (elemKeys row0 nrow cols) =
    (List.range nrow).flatMap fun r => (List.range cols).map fun c => b.elem ((row0 + r) * 192 + c) := by
  rw [Basin.pick_eq hb (elemKeys_rising h), elemKeys, List.map_flatMap]
  simp only [List.map_map]
  rfl

end

@[simp] theorem Basin.mapElems_status : (b.mapElems ks f).status = b.status := rfl

/-! ## A region of the state -/

section
variable {s : State} {id : Nat} {g : Basin → Basin}

theorem State.find?_modBasin (h : s.basins.find? id = some b) : (s.modBasin id g).basins.find? id = some (g b) := by
  rw [State.modBasin, Table.find?_update_self, h]
  rfl

end

end Sys2Proof.Machine
end

section
/-!
Elements of the Basin: the 96 bits that hold one, and what a contribution does to it.
-/
namespace Sys2Proof.Machine
variable {s : State} {n salt : Nat} {e : Elem} {p : Num} {neg : Bool} {m : Nat} {ex q : Int}

/-- What 96 bits say of an element (R68): its anchor, its cut bit and its value in carry-save form. -/
def Holds (n : Nat) (e : Elem) : Prop :=
  n < 2 ^ 96 ∧ n % 2 ^ 8 = e.a.toNat ∧
    (e.a ≠ 0xFF → (n / 2 ^ 8 % 2 = 1 ↔ e.k = true) ∧ (n / 2 ^ 52 + 2 * (n / 2 ^ 9 % 2 ^ 43)) % 2 ^ 44 = e.val.toNat)

/-- The fields of 96 bits. -/
theorem elem_fields {v c k a : Nat} (hv : v < 2 ^ 44) (hc : c < 2 ^ 43) (hk : k < 2) (ha : a < 2 ^ 8) :
    let n := v * 2 ^ 52 + c * 2 ^ 9 + k * 2 ^ 8 + a
    n < 2 ^ 96 ∧ n % 2 ^ 8 = a ∧ n / 2 ^ 8 % 2 = k ∧ n / 2 ^ 9 % 2 ^ 43 = c ∧ n / 2 ^ 52 = v := by
  dsimp only
  omega

/-- The sum half of a value whose carry half is `c`. -/
theorem toNat_ofInt_sub {v : BitVec 44} {c : Nat} : ((BitVec.ofInt 44 (v.toInt - 2 * (c : Int))).toNat + 2 * c) % 2 ^ 44 = v.toNat := by
  have lt := v.isLt
  have half : v.toInt = v.toNat ∨ v.toInt = v.toNat - 2 ^ 44 := by
    rw [BitVec.toInt_eq_toNat_cond]
    exact ite_eq_or_eq _ _ _
  rw [BitVec.toNat_ofInt]
  omega

/-- The 96 bits of an element, by the numbers that choose what is open in them. -/
def rawBits (free rest : Nat) (e : Elem) : Nat :=
  if e.a = 0xFF then rest % 2 ^ 44 * 2 ^ 52 + free % 2 ^ 43 * 2 ^ 9 + free / 2 ^ 43 % 2 * 2 ^ 8 + 0xFF
  else (BitVec.ofInt 44 (e.val.toInt - 2 * ((free % 2 ^ 43 : Nat) : Int))).toNat * 2 ^ 52 + free % 2 ^ 43 * 2 ^ 9 +
    e.k.toNat * 2 ^ 8 + e.a.toNat

theorem rawElem_eq : s.rawElem salt e =
    rawBits ((s.word (4 * salt)).toNat * 2 ^ 32 + (s.word (4 * salt + 1)).toNat) (s.word (4 * salt + 2)).toNat e := rfl

theorem holds_rawBits {free rest : Nat} : Holds (rawBits free rest e) e := by
  have hr := Nat.mod_lt rest (Nat.two_pow_pos 44)
  have hc := Nat.mod_lt free (Nat.two_pow_pos 43)
  rw [rawBits]
  split
  · next ha =>
    obtain ⟨lt, low, -⟩ := elem_fields hr hc (Nat.mod_lt (free / 2 ^ 43) two_pos) (show 0xFF < 2 ^ 8 by omega)
    exact ⟨lt, low.trans (by rw [ha]; rfl), fun h => absurd ha h⟩
  · obtain ⟨lt, low, cut, carry, sum⟩ := elem_fields (BitVec.ofInt 44 (e.val.toInt - 2 * ((free % 2 ^ 43 : Nat) : Int))).isLt hc
      (Bool.toNat_lt e.k) e.a.isLt
    refine ⟨lt, low, fun _ => ⟨?_, ?_⟩⟩
    · rw [cut]
      cases e.k <;> decide
    · rw [carry, sum, toNat_ofInt_sub]

theorem holds_rawElem : Holds (s.rawElem salt e) e := rawElem_eq ▸ holds_rawBits

theorem holds_ofRaw (hn : n < 2 ^ 96) : Holds n (Elem.ofRaw n) := by
  refine ⟨hn, (BitVec.toNat_ofNat n 8).symm, fun _ => ⟨beq_iff_eq.symm, ?_⟩⟩
  simp only [Elem.ofRaw, BitVec.toNat_add, BitVec.toNat_ofNat]
  omega

theorem ofRaw_residue : ((Elem.ofRaw n).q : Int) = (Elem.ofRaw n).val.toInt % 3 :=
  Int.toNat_of_nonneg (Int.emod_nonneg _ (by decide))

/-! ## Contributions -/

/-- Whether a number of units leaves the 44 bits of an element. -/
def Leaves (n : Int) : Prop := n < -2 ^ 43 ∨ 2 ^ 43 ≤ n

/-- The units of a contribution below the point of an element, and those that a unit of it takes. -/
def elemUnits (e : Elem) (neg : Bool) (m : Nat) (ex : Int) : Int := signed neg m * 2 ^ (ex - ((e.a.toNat : Int) - 151)).toNat
def elemOne (e : Elem) (ex : Int) : Int := 2 ^ (-(ex - ((e.a.toNat : Int) - 151))).toNat

/-- An element to which `q` units of its own are added, after something was cut or not. -/
def Elem.plus (e : Elem) (q : Int) (cut : Bool) : Elem :=
  let e' : Elem := { e with k := e.k || cut, q := (((e.q : Int) + q).emod 3).toNat }
  if q < -(2 ^ 43 : Int) ∨ (2 ^ 43 : Int) ≤ q then { e' with a := 0xFF } else e'.put (e'.val.toInt + q)

theorem Elem.add_of_overflowed (h : e.a = 0xFF) : e.add p = e := if_pos h

theorem Elem.add_of_not_fin (h : ∀ neg m ex, p ≠ .fin neg m ex) : (e.add p).a = 0xFF := by
  match p, h with
  | .fin neg m ex, h => exact absurd rfl (h neg m ex)
  | .inf _, _ | .nan _, _ =>
    by_cases ha : e.a = 0xFF
    · rw [Elem.add_of_overflowed ha, ha]
    · exact congrArg Elem.a (if_neg ha)

theorem Elem.add_zero : e.add (.fin neg 0 ex) = e := by
  rw [Elem.add]
  split <;> rfl

/-- The units that a nonzero contribution adds: those of its quotient by a unit, downwards. -/
theorem Elem.add_fin (ha : e.a ≠ 0xFF) (hm : m ≠ 0) (low : q * elemOne e ex ≤ elemUnits e neg m ex)
    (high : elemUnits e neg m ex < (q + 1) * elemOne e ex) :
    e.add (.fin neg m ex) = e.plus q (q * elemOne e ex != elemUnits e neg m ex) := by
  rw [Elem.add, if_neg ha]
  simp only [if_neg hm]
  rw [elemUnits, elemOne] at *
  generalize ex - ((e.a.toNat : Int) - 151) = sh at *
  by_cases h : 0 ≤ sh
  · have : (-sh).toNat = 0 := by omega
    simp only [this, pow_zero, mul_one] at low high ⊢
    have hq : q = signed neg m * 2 ^ sh.toNat := by omega
    simp only [if_pos h, ← hq, Elem.plus, decide_eq_false (not_lt.mpr h), Bool.false_and, bne_self_eq_false]
  · have : sh.toNat = 0 := by omega
    simp only [this, pow_zero, mul_one] at low high ⊢
    have pos : (0 : Int) < 2 ^ (-sh).toNat := by positivity
    have hq : (signed neg m).fdiv (2 ^ (-sh).toNat) = q := by
      rw [Int.fdiv_eq_ediv_of_nonneg _ pos.le]
      exact Int.ediv_eq_iff_of_pos pos |>.mpr ⟨by linarith, by linarith⟩
    have hr : ((signed neg m).fmod (2 ^ (-sh).toNat) != 0) = (q * 2 ^ (-sh).toNat != signed neg m) := by
      rw [Int.fmod_def, hq, bne, bne, Bool.not_inj_iff]
      rw [Bool.eq_iff_iff, beq_iff_eq, beq_iff_eq, mul_comm]
      omega
    simp only [if_neg h, hq, hr, decide_eq_true (not_le.mp h), Bool.true_and, Elem.plus]

theorem toInt_ofInt_44 {v : Int} (h : ¬ Leaves v) : (BitVec.ofInt 44 v).toInt = v := by
  rw [Leaves] at h
  rw [BitVec.toInt_ofInt, Int.bmod_def]
  split <;> omega

variable {cut : Bool}

theorem Elem.plus_overflows (h : Leaves q ∨ Leaves (e.val.toInt + q)) : (e.plus q cut).a = 0xFF := by
  by_cases hq : Leaves q
  · exact congrArg Elem.a (if_pos hq)
  · exact congrArg Elem.a ((if_neg hq).trans (if_pos (h.resolve_left hq)))

theorem Elem.plus_exact (hq : ¬ Leaves q) (hv : ¬ Leaves (e.val.toInt + q)) :
    e.plus q cut = { e with k := e.k || cut, q := (((e.q : Int) + q).emod 3).toNat, val := BitVec.ofInt 44 (e.val.toInt + q) } :=
  (if_neg hq).trans (if_neg hv)

theorem Elem.checks_plus (hq : ¬ Leaves q) (hv : ¬ Leaves (e.val.toInt + q)) (ha : e.a ≠ 0xFF) (h : e.checks) : (e.plus q cut).checks := by
  rw [Elem.checks, beq_false_of_ne ha, Bool.false_or, beq_iff_eq] at h
  rw [Elem.plus_exact hq hv, Elem.checks, Bool.or_eq_true]
  dsimp only
  rw [toInt_ofInt_44 hv, beq_iff_eq, beq_iff_eq]
  right
  change (e.val.toInt % 3).toNat = e.q at h
  change ((e.val.toInt + q) % 3).toNat = (((e.q : Int) + q) % 3).toNat
  omega

/-- What a contribution of finite value does to an element that has not overflowed. -/
theorem Elem.add_spec (ha : e.a ≠ 0xFF) (low : q * elemOne e ex ≤ elemUnits e neg m ex) (high : elemUnits e neg m ex < (q + 1) * elemOne e ex) :
    (Leaves q ∨ Leaves (e.val.toInt + q) → (e.add (.fin neg m ex)).a = 0xFF) ∧
    (¬ Leaves q → ¬ Leaves (e.val.toInt + q) → (e.add (.fin neg m ex)).a = e.a ∧ (e.add (.fin neg m ex)).val.toInt = e.val.toInt + q ∧
      (e.add (.fin neg m ex)).pend = e.pend ∧ ((e.add (.fin neg m ex)).k ↔ e.k ∨ q * elemOne e ex ≠ elemUnits e neg m ex) ∧
      (e.checks → (e.add (.fin neg m ex)).checks)) := by
  by_cases hm : m = 0
  · subst hm
    have units : elemUnits e neg 0 ex = 0 := by cases neg <;> simp [elemUnits, signed]
    have pos : 0 < elemOne e ex := by rw [elemOne]; positivity
    rw [units] at low high
    have hq : q = 0 := by nlinarith
    subst hq
    have := e.val.isLt
    have range : ¬ Leaves e.val.toInt := by
      rw [Leaves, BitVec.toInt_eq_toNat_cond]
      split <;> omega
    rw [Elem.add_zero, units, Int.add_zero]
    exact ⟨fun h => absurd h (not_or.mpr ⟨by rw [Leaves]; omega, range⟩), fun _ _ => ⟨rfl, rfl, rfl, by simp, id⟩⟩
  · rw [Elem.add_fin ha hm low high]
    refine ⟨Elem.plus_overflows, fun hq hv => ?_⟩
    have exact := Elem.plus_exact (cut := q * elemOne e ex != elemUnits e neg m ex) hq hv
    refine ⟨by rw [exact], by rw [exact]; exact toInt_ofInt_44 hv, by rw [exact], ?_, Elem.checks_plus hq hv ha⟩
    rw [exact, Bool.or_eq_true, bne_iff_ne]

/-! ## Sums of products -/

theorem isZero_fin {v : Num} (h : v.isZero = true) : ∃ neg ex, v = .fin neg 0 ex := by
  match v, h with
  | .fin neg 0 ex, _ => exact ⟨neg, ex, rfl⟩

/-- A zero and a finite operand have a product of zero. -/
theorem Oper.mul_zero {x w : Oper} (hx : x.zero = true) (hw : w.finite = true) : ∃ neg ex, x.mul w = .fin neg 0 ex := by
  match x, hx with
  | .num v, hx =>
    obtain ⟨neg, ex, rfl⟩ := isZero_fin hx
    have zero {n : Bool} {m : Nat} {e : Int} : (Num.fin neg 0 ex).mul (.fin n m e) = .fin (neg != n) 0 (ex + e) := by
      rw [Num.mul, Nat.zero_mul]
    match w, hw with
    | .num (.fin n m e), _ => exact ⟨_, _, zero⟩
    | .log n l sc, _ => exact ⟨_, _, zero⟩

theorem Elem.accumulate_eq {row col : List Oper} :
    e.accumulate row col = (row.zip col).foldl (fun e (p : Oper × Oper) => e.add (p.1.mul p.2)) e := by
  rw [Elem.accumulate]
  refine List.foldl_ext _ _ _ fun e p _ => ?_
  split
  · next h =>
    obtain ⟨hx, hw⟩ := Bool.and_eq_true_iff.mp h
    obtain ⟨neg, ex, eq⟩ := Oper.mul_zero hx hw
    rw [eq, Elem.add_zero]
  · rfl

end Sys2Proof.Machine
end

section
/-!
Results that a matrix record gives to lanes, and records that change elements in place.
-/
namespace Sys2Proof.Machine
variable {s s' : State} {id : Nat} {r : MRec} {x : Group} {b b' : Basin} {v : Nat → Option (List Word)} {taken : List (TRef × Nat)} {t : Thread}

/-! ## Results of lanes -/

/-- What a lane's deferred result becomes: its words, or the register's own. -/
def laneSrc (v : Nat → Option (List Word)) (lane : Nat) : Src := match v lane with
  | some l => .vals l
  | none => .keep

/-- Every deferred result that a record was to give has what its lane receives. -/
def LanesGiven (s s' : State) (taken : List (TRef × Nat)) (v : Nat → Option (List Word)) : Prop :=
  ∀ p ∈ taken, ∀ t, s.thread? p.1 = some t → ∀ q ∈ t.defs, q.seq = p.2 →
    ∃ u, s'.thread? p.1 = some u ∧ { q with src := laneSrc v (p.1.tid % 64) } ∈ u.defs

/-- The states after results are given to takers one by one. -/
def State.giveTakers (v : Nat → Option (List Word)) (taken : List (TRef × Nat)) (s : State) : State :=
  taken.foldl (fun s p => s.result p.1 p.2 (laneSrc v (p.1.tid % 64))) s

/-- A deferred result after some takers have been given theirs. -/
def Deferred.taking (v : Nat → Option (List Word)) (taken : List (TRef × Nat)) (r : TRef) (q : Deferred) : Deferred :=
  if (r, q.seq) ∈ taken then { q with src := laneSrc v (r.tid % 64) } else q

theorem Deferred.taking_cons {q : Deferred} {r : TRef} {n : Nat} :
    Deferred.taking v taken r (if q.seq = n then { q with src := laneSrc v (r.tid % 64) } else q) = q.taking v ((r, n) :: taken) r := by
  by_cases h : q.seq = n <;> by_cases hm : (r, q.seq) ∈ taken <;> simp_all [Deferred.taking]

theorem State.thread?_giveTakers {r : TRef} (h : s.thread? r = some t) :
    ∃ u, (s.giveTakers v taken).thread? r = some u ∧ u.defs = t.defs.map (Deferred.taking v taken r) := by
  induction taken generalizing s t with
  | nil => exact ⟨t, h, (List.map_id _).symm⟩
  | cons p taken ih =>
    obtain ⟨q, n⟩ := p
    by_cases hq : r = q
    · subst hq
      obtain ⟨u, hu, defs⟩ := ih (State.thread?_result_self h (seq := n) (src := laneSrc v (r.tid % 64)))
      refine ⟨u, hu, defs.trans ?_⟩
      rw [List.map_map]
      exact List.map_congr_left fun d _ => Deferred.taking_cons
    · obtain ⟨u, hu, defs⟩ := ih ((State.thread?_result_ne hq).trans h)
      refine ⟨u, hu, defs.trans (List.map_congr_left fun d _ => ?_)⟩
      simp [Deferred.taking, hq]

theorem gives_giveTakers : LanesGiven s (s.giveTakers v taken) taken v := by
  intro p hp t ht q hq hs
  obtain ⟨u, hu, defs⟩ := State.thread?_giveTakers (v := v) (taken := taken) ht
  refine ⟨u, hu, defs ▸ List.mem_map.mpr ⟨q, hq, ?_⟩⟩
  rw [Deferred.taking, if_pos (by rw [hs]; exact hp)]

/-- A record that gives results to the lanes below `hi`, of `hi`, gives them to all its takers. -/
theorem State.giveLanes_eq {hi : Nat} : s.giveLanes r 0 hi hi v = s.giveTakers v r.takers := by
  rw [State.giveLanes, State.giveTakers, List.filter_eq_self.mpr]
  · rfl
  · intro p _
    rw [Bool.and_eq_true, Bool.or_eq_true]
    exact ⟨decide_eq_true (Nat.zero_le _), (Nat.lt_or_ge _ _).imp decide_eq_true decide_eq_true⟩

theorem gives_giveLanes {hi : Nat} : LanesGiven s (s.giveLanes r 0 hi hi v) r.takers v := State.giveLanes_eq ▸ gives_giveTakers

/-- Results change the threads of groups only. -/
theorem State.giveLanes_groups {lo hi all : Nat} : ∃ gs, s.giveLanes r lo hi all v = { s with groups := gs } := by
  rw [State.giveLanes]
  generalize r.takers.filter _ = l
  induction l generalizing s with
  | nil => exact ⟨s.groups, rfl⟩
  | cons p l ih =>
    obtain ⟨gs, h⟩ := ih (s := s.result p.1 p.2 _)
    exact ⟨gs, h⟩

theorem gives_of_groups_eq {s'' : State} (h : LanesGiven s s' r.takers v) (eq : s''.groups = s'.groups) : LanesGiven s s'' r.takers v := by
  intro p hp t ht q hq hs
  obtain ⟨u, hu, mem⟩ := h p hp t ht q hq hs
  exact ⟨u, by rw [State.thread?, State.group?, eq]; exact hu, mem⟩

/-- A change of a region does not come between a record and its takers. -/
theorem gives_from_groups {s'' : State} (h : LanesGiven s s' r.takers v) (eq : s''.groups = s.groups) : LanesGiven s'' s' r.takers v := by
  intro p hp t ht
  rw [State.thread?, State.group?, eq] at ht
  exact h p hp t ht

/-! ## The dispatch on the kind -/

section
variable {hi : Nat}

theorem runRec_mma (h : r.kind = 1) : s.runRec id r x b hi = s.runMma r x hi := by simp only [State.runRec, h]
theorem runRec_wld (h : r.kind = 2) : s.runRec id r x b hi = s.runWld id r x := by simp only [State.runRec, h]
theorem runRec_rslv (h : r.kind = 3) : s.runRec id r x b hi = s.runRslv r b hi := by simp only [State.runRec, h]
theorem runRec_bcmp (h : r.kind = 5) : s.runRec id r x b hi = s.runBcmp r b hi := by simp only [State.runRec, h]
theorem runRec_bmov (h : r.kind = 6) : s.runRec id r x b hi = s.runBmov r b := by simp only [State.runRec, h]

theorem runRec_bsave (h : r.kind = 7) :
    s.runRec id r x b hi = if r.uncheckedBad b 192 then .mismatch else s.saveRows r b hi (r.nrow + 1) r.cur := by
  simp only [State.runRec, h]

theorem runRec_brst (h : r.kind = 8) : s.runRec id r x b hi = s.restoreRows r hi (r.nrow + 1) r.cur := by simp only [State.runRec, h]

/-- The element that `binit` writes. -/
def initElem (r : MRec) : Elem := if r.anch = 256 then { a := 135, pend := true } else { a := BitVec.ofNat 8 r.anch }

theorem runRec_binit (h : r.kind = 4) : s.runRec id r x b hi =
    .done (s.modBasin r.bas fun b => b.mapElems (elemKeys (r.row0 + r.cur) (hi - r.cur) 192) fun _ _ => initElem r) := by
  simp only [State.runRec, h, initElem]

theorem runRec_bscale (h : r.kind = 9) : s.runRec id r x b hi =
    if !(b.pick (elemKeys (r.row0 + r.cur) (hi - r.cur) 192)).all Elem.checks then .mismatch
    else .done (s.modBasin r.bas fun b => b.mapElems (elemKeys (r.row0 + r.cur) (hi - r.cur) 192) fun _ e => e.bscale r.shift) := by
  simp only [State.runRec, h]

theorem uncheckedBad_eq {cols : Nat} (h : r.frozen = none) :
    r.uncheckedBad b cols = !(b.pick (elemKeys r.row0 r.nrow cols)).all Elem.checks := by
  rw [MRec.uncheckedBad, h]
  rfl

end

/-! ## Elements changed in place -/

section
variable (hb : s.basins.find? r.bas = some b) (sorted : b.elems.sorted = true)
include sorted

/-- A change of the elements of some rows, read element by element. -/
theorem elem_mapRows {row0 nrow cols row col : Nat} {f : Nat → Elem → Elem} (hn : cols ≤ 192) (hc : col < 192) :
    (b.mapElems (elemKeys row0 nrow cols) f).elem (row * 192 + col) = if row0 ≤ row ∧ row < row0 + nrow ∧ col < cols then
      f (row * 192 + col) (b.elem (row * 192 + col)) else b.elem (row * 192 + col) := by
  rw [Basin.elem_mapElems sorted (elemKeys_rising hn)]
  simp only [mem_elemKeys hn hc]

include hb

theorem binit_spec (h : r.kind = 4) (cur : r.cur = 0) : ∃ s' b', s.runRec id r x b r.nrow = .done s' ∧ s'.basins.find? r.bas = some b' ∧
    s'.mem = s.mem ∧ b'.status = b.status ∧ ∀ row col, col < 192 →
      (r.row0 ≤ row ∧ row < r.row0 + r.nrow ∧ col < 192 → (b'.elem (row * 192 + col)).val = 0 ∧ (b'.elem (row * 192 + col)).k = false ∧
        (r.anch ≠ 256 → (b'.elem (row * 192 + col)).a = BitVec.ofNat 8 r.anch ∧ (b'.elem (row * 192 + col)).pend = false) ∧
        (r.anch = 256 → (b'.elem (row * 192 + col)).pend)) ∧
      (¬ (r.row0 ≤ row ∧ row < r.row0 + r.nrow ∧ col < 192) → b'.elem (row * 192 + col) = b.elem (row * 192 + col)) := by
  refine ⟨_, _, runRec_binit h, State.find?_modBasin hb, rfl, rfl, fun row col hc => ?_⟩
  rw [cur, Nat.add_zero, Nat.sub_zero, elem_mapRows sorted le_rfl hc]
  refine ⟨fun inside => ?_, fun outside => if_neg outside⟩
  rw [if_pos inside, initElem]
  split
  · next ha => exact ⟨rfl, rfl, fun h => absurd ha h, fun _ => rfl⟩
  · next ha => exact ⟨rfl, rfl, fun _ => ⟨rfl, rfl⟩, fun h => absurd h ha⟩

theorem bscale_spec (h : r.kind = 9) (cur : r.cur = 0) (ok : (b.pick (elemKeys r.row0 r.nrow 192)).all Elem.checks = true) :
    ∃ s' b', s.runRec id r x b r.nrow = .done s' ∧ s'.basins.find? r.bas = some b' ∧ ∀ row col, col < 192 →
      (r.row0 ≤ row ∧ row < r.row0 + r.nrow ∧ col < 192 → b'.elem (row * 192 + col) = (b.elem (row * 192 + col)).bscale r.shift) ∧
      (¬ (r.row0 ≤ row ∧ row < r.row0 + r.nrow ∧ col < 192) → b'.elem (row * 192 + col) = b.elem (row * 192 + col)) := by
  have run := runRec_bscale (s := s) (id := id) (x := x) (b := b) (hi := r.nrow) h
  rw [cur, Nat.add_zero, Nat.sub_zero, ok] at run
  refine ⟨_, _, run, State.find?_modBasin hb, fun row col hc => ?_⟩
  rw [elem_mapRows sorted le_rfl hc]
  exact ⟨fun inside => if_pos inside, fun outside => if_neg outside⟩

end

theorem bscale_mismatch (h : r.kind = 9) (cur : r.cur = 0) (bad : (b.pick (elemKeys r.row0 r.nrow 192)).all Elem.checks = false) :
    s.runRec id r x b r.nrow = .mismatch := by
  rw [runRec_bscale h, cur, Nat.add_zero, Nat.sub_zero, bad]
  rfl

end Sys2Proof.Machine
end

section
/-!
A `bmov` record gives each lane its element, and a `bcmp` with `.rst` the status of its region.
-/
namespace Sys2Proof.Machine
variable {s : State} {id : Nat} {r : MRec} {x : Group} {b : Basin} {f : Elem → Bool}

/-! ## Status bits -/

theorem getLsbD_status {st : BitVec 3} {full cut sat : Bool} :
    let u := st ||| ((if full then 2 else 0) ||| (if cut then 1 else 0)) ||| (if sat then 4 else 0)
    (u.getLsbD 0 = (st.getLsbD 0 || cut)) ∧ (u.getLsbD 1 = (st.getLsbD 1 || full)) ∧ (u.getLsbD 2 = (st.getLsbD 2 || sat)) := by
  simp only [BitVec.getLsbD_or]
  cases full <;> cases cut <;> cases sat <;> simp

theorem isInfNum_iff {v : Num} : isInfNum v = true ↔ ∃ neg, v = .inf neg := by
  match v with
  | .inf neg => exact ⟨fun _ => ⟨neg, rfl⟩, fun _ => rfl⟩
  | .fin .. | .nan _ => exact ⟨fun h => (Bool.false_ne_true h).elim, fun ⟨_, h⟩ => Num.noConfusion h⟩

/-- A value is reported as saturated when its FP32 is infinite. -/
theorem saturates_iff {e : Elem} : (e.a ≠ 0xFF ∧ isInfNum (numF32 e.f32) = true) ↔ e.f32 = 0x7F800000 ∨ e.f32 = 0xFF800000 := by
  rw [isInfNum_iff]
  constructor
  · rintro ⟨-, neg, h⟩
    rw [numF32_eq_inf_iff.mp h]
    cases neg <;> decide
  · intro h
    refine ⟨fun ha => ?_, e.f32.msb, numF32_eq_inf_iff.mpr ?_⟩
    · rw [Elem.f32, if_pos ha] at h
      exact absurd h (by decide)
    · rcases h with h | h <;> rw [h] <;> decide

/-! ## `bmov` -/

/-- The element that a `bmov` record moves to a lane. -/
def laneElem (r : MRec) (b : Basin) (l : Nat) : Elem := b.elem (r.row0 * 192 + (r.col0 + l))

/-- The lanes that have one. -/
def HasElem (r : MRec) (l : Nat) : Prop := l < 64 ∧ r.col0 + l < 192

def movedElems (r : MRec) (b : Basin) : List Elem := ((List.range 64).filter fun l => r.col0 + l < 192).map (laneElem r b)

theorem any_movedElems : (movedElems r b).any f = true ↔ ∃ l, HasElem r l ∧ f (laneElem r b l) = true := by
  simp only [movedElems, List.any_map, List.any_eq_true, List.mem_filter, List.mem_range, decide_eq_true_eq]
  rfl

theorem all_movedElems : (movedElems r b).all f = true ↔ ∀ l, HasElem r l → f (laneElem r b l) = true := by
  simp only [movedElems, List.all_map, List.all_eq_true, List.mem_filter, List.mem_range, decide_eq_true_eq]
  rfl

/-- The status of a region after elements have been read from it. -/
def movedStatus (b : Basin) (es : List Elem) : BitVec 3 :=
  b.status ||| statusOf es ||| if es.any fun e => e.a != 0xFF && isInfNum (numF32 e.f32) then 4 else 0

/-- What each lane is given: by FN, the FP32 of its element or its 96 bits. -/
def movedFloat (r : MRec) (b : Basin) (l : Nat) : Option (List Word) := if r.col0 + l < 192 then some [(laneElem r b l).f32] else none

def movedBits (s : State) (r : MRec) (b : Basin) (l : Nat) : Option (List Word) :=
  if r.col0 + l < 192 then
    let n := s.rawElem l (laneElem r b l)
    some [BitVec.ofNat 32 n, BitVec.ofNat 32 (n / 2 ^ 32), BitVec.ofNat 32 (n / 2 ^ 64)]
  else none

theorem runBmov_eq : s.runBmov r b = if !(movedElems r b).all Elem.checks then .mismatch
    else if r.fn = 0 then .done ((s.modBasin r.bas fun b' => { b' with status := movedStatus b' (movedElems r b) }).giveLanes r 0 64 64 (movedFloat r b))
    else .done (s.giveLanes r 0 64 64 (movedBits s r b)) := by
  simp only [State.runBmov, Nat.add_assoc]
  rfl

theorem bmov_mismatch (h : r.kind = 6) (bad : ∃ l, HasElem r l ∧ (laneElem r b l).checks = false) : s.runRec id r x b r.nrow = .mismatch := by
  obtain ⟨l, hl, hc⟩ := bad
  rw [runRec_bmov h, runBmov_eq, if_pos]
  rw [Bool.not_eq_true', Bool.eq_false_iff]
  exact fun all => Bool.false_ne_true (hc.symm.trans (all_movedElems.mp all l hl))

theorem getLsbD_movedStatus : ((movedStatus b (movedElems r b)).getLsbD 0 ↔
      b.status.getLsbD 0 ∨ ∃ l, HasElem r l ∧ (laneElem r b l).a ≠ 0xFF ∧ (laneElem r b l).k) ∧
    ((movedStatus b (movedElems r b)).getLsbD 1 ↔ b.status.getLsbD 1 ∨ ∃ l, HasElem r l ∧ (laneElem r b l).a = 0xFF) ∧
    ((movedStatus b (movedElems r b)).getLsbD 2 ↔ b.status.getLsbD 2 ∨
      ∃ l, HasElem r l ∧ ((laneElem r b l).f32 = 0x7F800000 ∨ (laneElem r b l).f32 = 0xFF800000)) := by
  obtain ⟨cut, full, sat⟩ := getLsbD_status (st := b.status) (full := (movedElems r b).any fun e => e.a == 0xFF)
    (cut := (movedElems r b).any fun e => e.a != 0xFF && e.k)
    (sat := (movedElems r b).any fun e => e.a != 0xFF && isInfNum (numF32 e.f32))
  rw [movedStatus, statusOf, cut, full, sat]
  simp only [Bool.or_eq_true, any_movedElems, Bool.and_eq_true, bne_iff_ne, beq_iff_eq, saturates_iff, and_self]

theorem bmov_done (hb : s.basins.find? r.bas = some b) (h : r.kind = 6) (ok : ∀ l, HasElem r l → (laneElem r b l).checks) :
    ∃ s' b', s.runRec id r x b r.nrow = .done s' ∧ s'.basins.find? r.bas = some b' ∧ s'.mem = s.mem ∧ b' = { b with status := b'.status } ∧
      (r.fn = 0 → LanesGiven s s' r.takers (movedFloat r b) ∧ b'.status = movedStatus b (movedElems r b)) ∧
      (r.fn ≠ 0 → b' = b ∧ LanesGiven s s' r.takers (movedBits s r b)) := by
  rw [runRec_bmov h, runBmov_eq, if_neg (by rw [all_movedElems.mpr ok]; decide)]
  by_cases hf : r.fn = 0
  · rw [if_pos hf]
    obtain ⟨gs, eq⟩ := State.giveLanes_groups (s := s.modBasin r.bas fun b' => { b' with status := movedStatus b' (movedElems r b) })
      (r := r) (lo := 0) (hi := 64) (all := 64) (v := movedFloat r b)
    refine ⟨_, { b with status := movedStatus b (movedElems r b) }, rfl, ?_, ?_, rfl, fun _ => ⟨?_, rfl⟩, fun h => absurd hf h⟩
    · rw [eq]
      exact State.find?_modBasin hb
    · rw [eq]
      rfl
    · exact gives_from_groups gives_giveLanes rfl
  · rw [if_neg hf]
    obtain ⟨gs, eq⟩ := State.giveLanes_groups (s := s) (r := r) (lo := 0) (hi := 64) (all := 64) (v := movedBits s r b)
    refine ⟨_, b, rfl, ?_, ?_, rfl, fun h => absurd h hf, fun _ => ⟨rfl, gives_giveLanes⟩⟩
    · rw [eq]
      exact hb
    · rw [eq]

/-! ## `bcmp` with `.rst` -/

theorem rst_done (hb : s.basins.find? r.bas = some b) (h : r.kind = 5) (hf : r.fn = 3) :
    ∃ s' b', s.runRec id r x b r.nrow = .done s' ∧ s'.basins.find? r.bas = some b' ∧ s'.mem = s.mem ∧
      b' = { b with status := 0 } ∧ LanesGiven s s' r.takers (fun _ => some [b.status.setWidth 32]) := by
  rw [runRec_bcmp h, State.runBcmp, if_pos hf]
  obtain ⟨gs, eq⟩ := State.giveLanes_groups (s := s) (r := r) (lo := 0) (hi := 64) (all := 64) (v := fun _ => some [b.status.setWidth 32])
  refine ⟨_, _, rfl, State.find?_modBasin ?_, ?_, rfl, gives_of_groups_eq gives_giveLanes rfl⟩
  · rw [eq]
    exact hb
  · rw [eq]
    rfl

end Sys2Proof.Machine
end

section
/-!
A `bcmp` record compares the elements of each row: the greatest is the first of those whose value is largest, an overflowed one before
every finite one.
-/
namespace Sys2Proof.Machine
variable {s : State} {id : Nat} {r : MRec} {x : Group} {b : Basin} {e f : Elem} {es : List Elem} {l : Nat}

/-! ## The order of elements -/

/-- The place of an element in their order: its value, in units of 2^-151, or above them all. -/
def Elem.order (e : Elem) : WithTop Int := if e.a = 0xFF then ⊤ else ((e.val.toInt * 2 ^ e.a.toNat : Int) : WithTop Int)

/-- Whether an element is above another (R363). -/
def aboveElem (e f : Elem) : Bool := f.a != 0xFF && (e.a == 0xFF || f.num.lt e.num)

theorem num_lt_iff (he : e.a ≠ 0xFF) (hf : f.a ≠ 0xFF) :
    f.num.lt e.num = true ↔ f.val.toInt * 2 ^ f.a.toNat < e.val.toInt * 2 ^ e.a.toNat := by
  rw [Elem.num, if_neg hf, Elem.num, if_neg he, Num.lt]
  generalize f.val.toInt = v, e.val.toInt = w, f.a.toNat = m, e.a.toNat = n
  split
  · next zero =>
    obtain ⟨hv, hw⟩ := zero
    rw [Int.natAbs_eq_zero.mp hv, Int.natAbs_eq_zero.mp hw]
    simp
  · have scaled {v : Int} {m k : Nat} (hk : k ≤ m) : v * 2 ^ m = v * 2 ^ (((m : Int) - 151) - ((k : Int) - 151)).toNat * 2 ^ k := by
      rw [mul_assoc, ← pow_add]
      congr 2
      omega
    have least : min ((m : Int) - 151) ((n : Int) - 151) = ((min m n : Nat) : Int) - 151 := by omega
    rw [decide_eq_true_eq, least, signed_mul, signed_mul, signed_decide_natAbs, signed_decide_natAbs, scaled (min_le_left m n), scaled (min_le_right m n)]
    exact (mul_lt_mul_iff_of_pos_right (by positivity)).symm

theorem aboveElem_iff : aboveElem e f = true ↔ f.order < e.order := by
  rw [aboveElem, Bool.and_eq_true, bne_iff_ne, Bool.or_eq_true, beq_iff_eq, Elem.order, Elem.order]
  by_cases hf : f.a = 0xFF
  · simp [hf]
  · by_cases he : e.a = 0xFF
    · simp only [hf, he, if_true, if_false, ne_eq, not_false_eq_true, true_or, and_self, true_iff]
      exact WithTop.coe_lt_top _
    · simp only [hf, he, if_false, ne_eq, not_false_eq_true, true_and, false_or, WithTop.coe_lt_coe]
      exact num_lt_iff he hf

/-- One more element: it is kept if it is above the one kept so far. -/
def keepGreater (o : Option (Nat × Elem)) (p : Nat × Elem) : Option (Nat × Elem) := match o with
  | none => some p
  | some q => if aboveElem p.2 q.2 then some p else some q

theorem greatest_eq : greatest es = (((List.range es.length).zip es).foldl keepGreater none).getD (0, {}) := by
  have above : aboveElem = fun x y => if y.a = 0xFF then false else x.a == 0xFF || y.num.lt x.num := by
    funext x y
    by_cases h : y.a = 0xFF
    · rw [if_pos h, aboveElem, h]
      rfl
    · rw [if_neg h, aboveElem, bne_iff_ne.mpr h, Bool.true_and]
  rw [greatest]
  congr 2
  funext o p
  match o with
  | none => rfl
  | some q => rw [keepGreater, above]

/-- The first of the largest elements of a list. -/
def FirstGreatest (es : List Elem) (p : Nat × Elem) : Prop :=
  es[p.1]? = some p.2 ∧ ∀ i q, es[i]? = some q → q.order ≤ p.2.order ∧ (i < p.1 → q.order < p.2.order)

theorem foldl_keepGreater (h : es ≠ []) : ∃ p, ((List.range es.length).zip es).foldl keepGreater none = some p ∧ FirstGreatest es p := by
  induction es using List.reverseRecOn with
  | nil => exact absurd rfl h
  | append_singleton es a ih =>
    have zip : (List.range (es ++ [a]).length).zip (es ++ [a]) = (List.range es.length).zip es ++ [(es.length, a)] := by
      rw [List.length_append, List.length_singleton, List.range_succ, List.zip_append (by simp)]
      rfl
    rw [zip, List.foldl_append, List.foldl_cons, List.foldl_nil]
    rcases es.eq_nil_or_concat with rfl | nonempty
    · refine ⟨(0, a), rfl, rfl, fun i q hq => ?_⟩
      obtain ⟨rfl, rfl⟩ : i = 0 ∧ a = q := by simpa [List.getElem?_singleton] using hq
      exact ⟨le_rfl, fun h => absurd h (lt_irrefl _)⟩
    · obtain ⟨p, fold, here, best⟩ := ih (by rintro rfl; simp at nonempty)
      obtain ⟨lt, -⟩ := List.getElem?_eq_some_iff.mp here
      have cases {i : Nat} {q : Elem} (hq : (es ++ [a])[i]? = some q) : es[i]? = some q ∨ i = es.length ∧ q = a := by
        rcases Nat.lt_or_ge i es.length with hi | hi
        · exact .inl (by rwa [List.getElem?_append_left hi] at hq)
        · rw [List.getElem?_append_right hi, List.getElem?_singleton] at hq
          split at hq
          · exact .inr ⟨by omega, (Option.some.inj hq).symm⟩
          · exact absurd hq nofun
      rw [fold, keepGreater]
      split
      · next above =>
        rw [aboveElem_iff] at above
        refine ⟨_, rfl, by simp, fun i q hq => ?_⟩
        rcases cases hq with hq | ⟨rfl, rfl⟩
        · have := (best i q hq).1.trans_lt above
          exact ⟨this.le, fun _ => this⟩
        · exact ⟨le_rfl, fun h => absurd h (lt_irrefl _)⟩
      · next not_above =>
        rw [aboveElem_iff] at not_above
        refine ⟨_, rfl, by rw [List.getElem?_append_left lt]; exact here, fun i q hq => ?_⟩
        rcases cases hq with hq | ⟨rfl, rfl⟩
        · exact best i q hq
        · exact ⟨not_lt.mp not_above, fun h => absurd h (by omega)⟩

theorem firstGreatest_greatest (h : es ≠ []) : FirstGreatest es (greatest es) := by
  obtain ⟨p, fold, best⟩ := foldl_keepGreater h
  rw [greatest_eq, fold]
  exact best

/-! ## Rows -/

theorem chunks_flatten {α : Type} {n : Nat} {ls : List (List α)} (h : ∀ l ∈ ls, l.length = n) : chunks n ls.length ls.flatten = ls := by
  induction ls with
  | nil => rfl
  | cons l ls ih =>
    have hl := h l List.mem_cons_self
    rw [List.length_cons, List.flatten_cons, chunks, ← hl, List.take_left, List.drop_left, hl, ih fun l hl => h l (List.mem_cons_of_mem _ hl)]

/-- The elements of a row, up to a column. -/
def rowElems (b : Basin) (cols row : Nat) : List Elem := (List.range cols).map fun c => b.elem (row * 192 + c)

theorem length_rowElems {cols row : Nat} : (rowElems b cols row).length = cols := by rw [rowElems, List.length_map, List.length_range]

theorem getElem?_rowElems {cols row c : Nat} (h : c < cols) : (rowElems b cols row)[c]? = some (b.elem (row * 192 + c)) := by
  rw [rowElems, List.getElem?_map, List.getElem?_range h]
  rfl

theorem getElem?_rowElems_some {cols row c : Nat} (h : (rowElems b cols row)[c]? = some e) : c < cols ∧ e = b.elem (row * 192 + c) := by
  obtain ⟨lt, -⟩ := List.getElem?_eq_some_iff.mp h
  rw [length_rowElems] at lt
  exact ⟨lt, Option.some.inj (h.symm.trans (getElem?_rowElems lt))⟩

theorem chunks_pick {row0 nrow cols : Nat} (sorted : b.elems.sorted = true) (h : cols ≤ 192) :
    chunks cols nrow (b.pick (elemKeys row0 nrow cols)) = (List.range nrow).map fun i => rowElems b cols (row0 + i) := by
  have flat : b.pick (elemKeys row0 nrow cols) = ((List.range nrow).map fun i => rowElems b cols (row0 + i)).flatten := by
    rw [Basin.pick_rows sorted h, List.flatMap_def]
    rfl
  have len : ((List.range nrow).map fun i => rowElems b cols (row0 + i)).length = nrow := by rw [List.length_map, List.length_range]
  have each : ∀ l ∈ (List.range nrow).map fun i => rowElems b cols (row0 + i), l.length = cols := fun l hl => by
    obtain ⟨i, -, rfl⟩ := List.mem_map.mp hl
    exact length_rowElems
  have cut := chunks_flatten each
  rw [len, ← flat] at cut
  exact cut

/-! ## `bcmp` -/

/-- What a `bcmp` record finds of a row, by FN: the column of the greatest element, whether all are zero, the greatest as FP32. -/
def compared (fn : Nat) (es : List Elem) : List Word := match fn with
  | 0 => [BitVec.ofNat 32 (greatest es).1]
  | 1 => [if es.all fun e => e.a != 0xFF && e.val == 0 then 1 else 0]
  | _ => [(greatest es).2.f32]

def comparedLane (r : MRec) (b : Basin) (l : Nat) : Option (List Word) :=
  if l < r.nrow then some (compared r.fn (rowElems b 192 (r.row0 + l))) else none

theorem runBcmp_eq (sorted : b.elems.sorted = true) (cur : r.cur = 0) (fz : r.frozen = none) (hf : r.fn ≠ 3) : s.runBcmp r b r.nrow =
    if (b.pick (elemKeys r.row0 r.nrow 192)).all Elem.checks then .done (s.giveLanes r 0 r.nrow r.nrow (comparedLane r b)) else .mismatch := by
  have lane : comparedLane r b = fun l => (((List.range r.nrow).map fun i => rowElems b 192 (r.row0 + i))[l - 0]?).map fun es => compared r.fn es := by
    funext l
    rw [comparedLane, Nat.sub_zero, List.getElem?_map]
    split
    · next h => rw [List.getElem?_range h]; rfl
    · next h => rw [List.getElem?_eq_none (by simpa using h)]; rfl
  rw [State.runBcmp, if_neg hf, lane]
  simp only [cur, Nat.add_zero, Nat.sub_zero, chunks_pick sorted (le_refl 192), uncheckedBad_eq fz, compared]
  cases (b.pick (elemKeys r.row0 r.nrow 192)).all Elem.checks <;> rfl

theorem bcmp_mismatch (sorted : b.elems.sorted = true) (cur : r.cur = 0) (fz : r.frozen = none) (h : r.kind = 5) (hf : r.fn ≠ 3)
    (bad : (b.pick (elemKeys r.row0 r.nrow 192)).all Elem.checks = false) : s.runRec id r x b r.nrow = .mismatch := by
  rw [runRec_bcmp h, runBcmp_eq sorted cur fz hf, bad]
  rfl

/-- The first of the greatest elements of a row. -/
def BestOf (b : Basin) (row col : Nat) : Prop :=
  col < 192 ∧ (∀ c < 192, aboveElem (b.elem (row * 192 + c)) (b.elem (row * 192 + col)) = false) ∧
    ∀ c < col, aboveElem (b.elem (row * 192 + col)) (b.elem (row * 192 + c)) = true

theorem bestOf_greatest {row : Nat} : ∃ c, BestOf b row c ∧ greatest (rowElems b 192 row) = (c, b.elem (row * 192 + c)) := by
  obtain ⟨here, best⟩ := firstGreatest_greatest (es := rowElems b 192 row) (List.ne_nil_of_length_pos (by rw [length_rowElems]; decide))
  generalize greatest (rowElems b 192 row) = p at *
  obtain ⟨c, e⟩ := p
  dsimp only at here best
  obtain ⟨hc, rfl⟩ := getElem?_rowElems_some here
  refine ⟨c, ⟨hc, fun i hi => ?_, fun i hi => ?_⟩, rfl⟩
  · rw [Bool.eq_false_iff, ne_eq, aboveElem_iff, not_lt]
    exact (best i _ (getElem?_rowElems hi)).1
  · rw [aboveElem_iff]
    exact (best i _ (getElem?_rowElems (by omega))).2 hi

theorem bcmp_done (sorted : b.elems.sorted = true) (cur : r.cur = 0) (fz : r.frozen = none) (h : r.kind = 5) (hf : r.fn ≠ 3)
    (ok : (b.pick (elemKeys r.row0 r.nrow 192)).all Elem.checks = true) : ∃ s' v, s.runRec id r x b r.nrow = .done s' ∧ s'.basins = s.basins ∧
      s'.mem = s.mem ∧ LanesGiven s s' r.takers v ∧ (∀ l, r.nrow ≤ l → v l = none) ∧ ∀ l < r.nrow,
        (r.fn = 0 → ∃ c, BestOf b (r.row0 + l) c ∧ v l = some [BitVec.ofNat 32 c]) ∧
        (r.fn = 1 → ((∀ c < 192, (b.elem ((r.row0 + l) * 192 + c)).a ≠ 0xFF ∧ (b.elem ((r.row0 + l) * 192 + c)).val = 0) → v l = some [1]) ∧
          ((∃ c < 192, (b.elem ((r.row0 + l) * 192 + c)).a = 0xFF ∨ (b.elem ((r.row0 + l) * 192 + c)).val ≠ 0) → v l = some [0])) ∧
        (r.fn = 2 → ∃ c, BestOf b (r.row0 + l) c ∧ v l = some [(b.elem ((r.row0 + l) * 192 + c)).f32]) := by
  rw [runRec_bcmp h, runBcmp_eq sorted cur fz hf, if_pos ok]
  obtain ⟨gs, eq⟩ := State.giveLanes_groups (s := s) (r := r) (lo := 0) (hi := r.nrow) (all := r.nrow) (v := comparedLane r b)
  refine ⟨_, comparedLane r b, rfl, by rw [eq], by rw [eq], gives_giveLanes, fun l hl => if_neg (by omega), fun l hl => ?_⟩
  have lane : comparedLane r b l = some (compared r.fn (rowElems b 192 (r.row0 + l))) := if_pos hl
  obtain ⟨c, best, eq⟩ := bestOf_greatest (b := b) (row := r.row0 + l)
  rw [lane]
  refine ⟨fun hn => ⟨c, best, by rw [hn, compared, eq]⟩, fun hn => ?_, fun hn => ⟨c, best, ?_⟩⟩
  case refine_2 => rw [hn]; exact congrArg (fun p => some [p.2.f32]) eq
  have all : (rowElems b 192 (r.row0 + l)).all (fun e => e.a != 0xFF && e.val == 0) = true ↔
      ∀ c < 192, (b.elem ((r.row0 + l) * 192 + c)).a ≠ 0xFF ∧ (b.elem ((r.row0 + l) * 192 + c)).val = 0 := by
    simp only [rowElems, List.all_map, List.all_eq_true, List.mem_range, Function.comp_apply, Bool.and_eq_true, bne_iff_ne, beq_iff_eq]
  rw [hn, compared]
  constructor
  · intro zero
    rw [if_pos (all.mpr zero)]
  · rintro ⟨c, hc, nonzero⟩
    rw [if_neg fun h => ?_]
    obtain ⟨ha, hv⟩ := all.mp h c hc
    exact nonzero.elim ha fun h => h hv

end Sys2Proof.Machine
end

section
/-!
A `wld` record fills its latch, and an `mma` record adds the products of its rows and columns.
-/
namespace Sys2Proof
variable {α : Type} {d : α} {t : Table α} {k : Nat}

theorem Table.get_filter [DecidableEq α] (h : t.sorted = true) : Table.get d (t.filter fun p => p.2 != d) k = t.get d k := by
  induction t with
  | nil => rfl
  | cons p t ih =>
    obtain ⟨j, v⟩ := p
    obtain ⟨above, ht⟩ := Table.sorted_cons.mp h
    by_cases hv : v = d
    · rw [List.filter_cons_of_neg (by simp [hv]), ih ht, Table.get_cons]
      split
      · next eq => rw [← eq, Table.get_of_above above le_rfl, hv]
      · rfl
    · rw [List.filter_cons_of_pos (by simpa using hv), Table.get_cons, Table.get_cons, ih ht]

variable {g : α → α}

theorem Table.get_map (hd : g d = d) : Table.get d (t.map fun p => (p.1, g p.2)) k = g (t.get d k) := by
  induction t with
  | nil => exact hd.symm
  | cons p t ih =>
    rw [List.map_cons, Table.get_cons, Table.get_cons, ih]
    split <;> rfl

theorem Table.above_map (h : Table.above k t = true) : Table.above k (t.map fun p => (p.1, g p.2)) = true := by
  rw [Table.above, List.all_map]
  exact h

theorem Table.sorted_map (h : t.sorted = true) : Table.sorted (t.map fun p => (p.1, g p.2)) = true := by
  induction t with
  | nil => rfl
  | cons p t ih =>
    obtain ⟨above, ht⟩ := Table.sorted_cons.mp h
    exact Table.sorted_cons.mpr ⟨Table.above_map above, ih ht⟩

end Sys2Proof

namespace Sys2Proof.Machine
variable {s s' : State} {id : Nat} {r : MRec} {x : Group} {b : Basin} {e : Elem}

theorem collect_map {α β : Type} {g : β → Except Got α} {h : β → α} {l : List β} (ok : ∀ k ∈ l, g k = .ok (h k)) :
    collect (l.map g) = .ok (l.map h) := by
  induction l with
  | nil => rfl
  | cons k l ih =>
    rw [List.map_cons, ok k List.mem_cons_self, collect, ih fun j hj => ok j (List.mem_cons_of_mem _ hj)]
    rfl

/-- A slice of the images of the first numbers. -/
theorem take_drop_map_range {α : Type} {f : Nat → α} {len i n : Nat} (h : i + n ≤ len) :
    (((List.range len).map f).drop i).take n = (List.range n).map fun j => f (i + j) := by
  refine List.ext_getElem (by simp; omega) fun j hj hj' => ?_
  simp

/-! ## Pending anchors -/

/-- An element whose anchor is set if it is pending (R336). -/
def Elem.fixed (a : BitVec 8) (e : Elem) : Elem := if e.pend then { e with pend := false, a := a } else e

section
variable {a k : Nat} (sorted : b.elems.sorted = true)

theorem fixAnchors_elems : (b.fixAnchors a).elems = (b.elems.map fun p => (p.1, p.2.fixed (BitVec.ofNat 8 a))).filter fun p => p.2 != ({} : Elem) := by
  rw [Basin.fixAnchors]
  refine congrArg (fun t : Table Elem => t.filter fun p => p.2 != ({} : Elem)) (List.map_congr_left fun p _ => ?_)
  rw [Elem.fixed]
  split <;> rfl

include sorted

theorem elem_fixAnchors : (b.fixAnchors a).elem k = (b.elem k).fixed (BitVec.ofNat 8 a) := by
  rw [Basin.elem, fixAnchors_elems, Table.get_filter (Table.sorted_map sorted), Table.get_map rfl]
  rfl

theorem sorted_fixAnchors : (b.fixAnchors a).elems.sorted = true := by
  rw [fixAnchors_elems]
  exact Table.sorted_filter _ (Table.sorted_map sorted)

end

/-! ## `mma` -/

/-- The bands that a record finds in its latch. -/
def latchOf (s : State) (r : MRec) : List (Option Band) := (List.range r.bind.bands.length).map (s.bandOf r.bind)

/-- The anchor that pending elements take (R336). -/
def anchorOf (s : State) (r : MRec) (acts : List TileData) : Nat :=
  min (topScale (acts.flatMap TileData.scaleList) +
    topScale ((latchOf s r).flatMap fun b => match b with | some l => l.flatMap TileData.scaleList | none => []) + 8 - 127) 254

/-- The operands of the rows of a record, and of the columns of its bands. -/
def actRows (r : MRec) (acts : List TileData) : List (List Oper) := (List.range r.nrow).map fun m =>
  ((acts.drop (m / 32 * r.nk)).take r.nk).flatMap fun t => (List.range 32).map fun k => t.oper (m % 32) k

def weightCols (s : State) (r : MRec) : List (List Oper) :=
  (List.range (32 * r.bind.ncol)).map (columnOf (((latchOf s r).drop r.kb0).take r.nk))

/-- What an `mma` makes of the element at a key. -/
def mmaElem (s : State) (r : MRec) (acts : List TileData) (k : Nat) (e : Elem) : Elem :=
  e.accumulate ((actRows r acts)[k / 192 - r.row0]?.getD []) ((weightCols s r)[k % 192]?.getD [])

/-- The region after an `mma`. -/
def mmaBasin (s : State) (r : MRec) (acts : List TileData) (b : Basin) : Basin :=
  (b.fixAnchors (anchorOf s r acts)).mapElems (elemKeys r.row0 r.nrow (32 * r.bind.ncol)) (mmaElem s r acts)

/-- The tiles of an `mma`'s activations, one for each row block and band. -/
def actTiles (s : State) (r : MRec) (x : Group) : Except Got (List (Option TileData)) :=
  collect ((List.range (blocksOf r.nrow * r.nk)).map fun k => s.recTile r x k (min 32 (r.nrow - 32 * (k / r.nk))))

theorem runMma_eq (cur : r.cur = 0) : s.runMma r x r.nrow = match actTiles s r x with
    | .error e => .stopped s r.cur e
    | .ok ts => .done (s.modBasin r.bas (mmaBasin s r (ts.map fun t => t.getD TileData.zero))) := by
  simp only [State.runMma, actTiles, cur, Nat.add_zero, Nat.sub_zero]
  rfl

variable {acts : List TileData}

theorem elem_mmaBasin {row col : Nat} (sorted : b.elems.sorted = true) (hn : r.bind.ncol ≤ 6) (hc : col < 192) :
    (mmaBasin s r acts b).elem (row * 192 + col) = if r.row0 ≤ row ∧ row < r.row0 + r.nrow ∧ col < 32 * r.bind.ncol then
      mmaElem s r acts (row * 192 + col) ((b.elem (row * 192 + col)).fixed (BitVec.ofNat 8 (anchorOf s r acts)))
    else (b.elem (row * 192 + col)).fixed (BitVec.ofNat 8 (anchorOf s r acts)) := by
  rw [mmaBasin, elem_mapRows (sorted_fixAnchors sorted) (by omega) hc, elem_fixAnchors sorted]

theorem mma_frame (hb : s.basins.find? r.bas = some b) (sorted : b.elems.sorted = true) (cur : r.cur = 0) (h : r.kind = 1) (hn : r.bind.ncol ≤ 6)
    (run : s.runRec id r x b r.nrow = .done s') : ∃ b', s'.basins.find? r.bas = some b' ∧ s' = { s with basins := s'.basins } ∧
      b'.status = b.status ∧ ∀ row col, col < 192 → row < r.row0 ∨ r.row0 + r.nrow ≤ row ∨ 32 * r.bind.ncol ≤ col →
        (b.elem (row * 192 + col)).pend = false → b'.elem (row * 192 + col) = b.elem (row * 192 + col) := by
  rw [runRec_mma h, runMma_eq cur] at run
  split at run
  · exact absurd run nofun
  · cases run
    refine ⟨_, State.find?_modBasin hb, rfl, rfl, fun row col hc outside pend => ?_⟩
    rw [elem_mmaBasin sorted hn hc, if_neg (by omega), Elem.fixed, pend]
    rfl

/-! ### The operands of an element -/

variable {tiles : Nat → Option TileData}

/-- The row of activations that an element is given, and the column of weights, in K order. -/
def actRow (r : MRec) (tiles : Nat → Option TileData) (m : Nat) : List Oper := (List.range r.nk).flatMap fun j => (List.range 32).map fun k =>
  ((tiles (m / 32 * r.nk + j)).getD TileData.zero).oper (m % 32) k

def weightOf (s : State) (r : MRec) (j k c : Nat) : Oper := match (s.bandOf r.bind (r.kb0 + j)).bind fun w => w[c / 32]? with
  | some t => t.oper k (c % 32)
  | none => .num (.fin false 0 0)

def weightCol (s : State) (r : MRec) (c : Nat) : List Oper := (List.range r.nk).flatMap fun j => (List.range 32).map fun k => weightOf s r j k c

/-- A tile of an operand, zeros for a free handle. -/
def tileOr (tiles : Nat → Option TileData) (k : Nat) : TileData := (tiles k).getD TileData.zero

theorem getElem?_actRows {m : Nat} (hm : m < r.nrow) :
    (actRows r ((List.range (blocksOf r.nrow * r.nk)).map (tileOr tiles)))[m]? = some (actRow r tiles m) := by
  have block : m / 32 * r.nk + r.nk ≤ blocksOf r.nrow * r.nk := by
    rw [← Nat.succ_mul]
    exact Nat.mul_le_mul_right _ (by rw [blocksOf]; omega)
  rw [actRows, List.getElem?_map, List.getElem?_range hm, Option.map_some, take_drop_map_range block, List.flatMap_map]
  rfl

theorem columnOf_eq {bands : List (Option Band)} {c : Nat} : columnOf bands c = bands.flatMap fun w => (List.range 32).map fun k =>
    match w.bind fun w => w[c / 32]? with
    | some t => t.oper k (c % 32)
    | none => .num (.fin false 0 0) := by
  rw [columnOf]
  congr 1
  funext w
  cases w.bind fun w => w[c / 32]? <;> rfl

theorem getElem?_weightCols {c : Nat} (hc : c < 32 * r.bind.ncol) (hk : r.kb0 + r.nk ≤ r.bind.bands.length) :
    (weightCols s r)[c]? = some (weightCol s r c) := by
  rw [weightCols, List.getElem?_map, List.getElem?_range hc, Option.map_some, latchOf, take_drop_map_range hk, columnOf_eq, List.flatMap_map]
  rfl

theorem mma_values (hb : s.basins.find? r.bas = some b) (sorted : b.elems.sorted = true) (cur : r.cur = 0) (h : r.kind = 1) (hn : r.bind.ncol ≤ 6)
    (hk : r.kb0 + r.nk ≤ r.bind.bands.length)
    (ok : ∀ k < blocksOf r.nrow * r.nk, s.recTile r x k (min 32 (r.nrow - 32 * (k / r.nk))) = .ok (tiles k)) :
    ∃ s' b' a, s.runRec id r x b r.nrow = .done s' ∧ s'.basins.find? r.bas = some b' ∧ ∀ m < r.nrow, ∀ c < 32 * r.bind.ncol,
      b'.elem ((r.row0 + m) * 192 + c) = ((b.elem ((r.row0 + m) * 192 + c)).fixed a).accumulate (actRow r tiles m) (weightCol s r c) := by
  have found : actTiles s r x = .ok ((List.range (blocksOf r.nrow * r.nk)).map tiles) := collect_map fun k hk => ok k (List.mem_range.mp hk)
  have run : s.runRec id r x b r.nrow =
      .done (s.modBasin r.bas (mmaBasin s r ((List.range (blocksOf r.nrow * r.nk)).map (tileOr tiles)))) := by
    rw [runRec_mma h, runMma_eq cur, found]
    simp only [List.map_map]
    rfl
  refine ⟨_, _, BitVec.ofNat 8 (anchorOf s r ((List.range (blocksOf r.nrow * r.nk)).map (tileOr tiles))), run, State.find?_modBasin hb, fun m hm c hc => ?_⟩
  have place : ((r.row0 + m) * 192 + c) / 192 - r.row0 = m ∧ ((r.row0 + m) * 192 + c) % 192 = c := by omega
  rw [elem_mmaBasin sorted hn (by omega), if_pos ⟨by omega, by omega, hc⟩, mmaElem, place.1, place.2, getElem?_actRows hm, getElem?_weightCols hc hk]
  rfl

/-! ## `wld` -/

theorem wld_spec (h : r.kind = 2) (run : s.runRec id r x b r.nrow = .done s') : s' = { s with images := s'.images } ∧
    (∃ i, s'.images.find? id = some i ∧ i.tiles = r.tiles) ∧ ∀ j, j ≠ id → s'.images.find? j = s.images.find? j := by
  rw [runRec_wld h, State.runWld] at run
  split at run
  · exact absurd run nofun
  · cases run
    exact ⟨rfl, ⟨_, Table.find?_put_self _ _ _, rfl⟩, fun j hj => Table.find?_put_ne _ _ hj⟩

end Sys2Proof.Machine
end

section
/-!
A resolve record fills its tiles with the rounded values of its rows.
-/
namespace Sys2Proof
variable {α : Type} {d : α} {l : List α} {a i k : Nat}

/-- A list as a table, from a number on. -/
theorem Table.above_zip (h : k < a) : Table.above k ((List.range' a l.length).zip l) = true := by
  rw [Table.above, List.all_eq_true]
  intro p hp
  have := List.mem_range'_1.mp (List.of_mem_zip hp).1
  exact decide_eq_true (by omega)

theorem Table.sorted_zip : Table.sorted ((List.range' a l.length).zip l) = true := by
  induction l generalizing a with
  | nil => rfl
  | cons v l ih =>
    rw [List.length_cons, List.range'_succ, List.zip_cons_cons, Table.sorted_cons]
    exact ⟨Table.above_zip (Nat.lt_succ_self a), ih⟩

theorem Table.get_zip : Table.get d ((List.range' a l.length).zip l) (a + i) = l[i]?.getD d := by
  induction l generalizing a i with
  | nil => rfl
  | cons v l ih =>
    rw [List.length_cons, List.range'_succ, List.zip_cons_cons, Table.get_cons]
    cases i with
    | zero => simp
    | succ i => rw [if_neg (by omega), show a + (i + 1) = a + 1 + i by omega, ih, List.getElem?_cons_succ]

end Sys2Proof

namespace Sys2Proof.Machine
variable {s s' : State} {id : Nat} {r : MRec} {x : Group} {b : Basin}

/-! ## Tiles of codes -/

theorem get_codeTable {codes : List Nat} {i : Nat} : Table.get 0 (codeTable codes) i = codes[i]?.getD 0 := by
  rw [codeTable, List.range_eq_range', Table.get_filter Table.sorted_zip, ← Table.get_zip (a := 0), Nat.zero_add]

/-- The members of lists of one length, laid end to end. -/
theorem getElem?_flatten {α : Type} {w m n : Nat} {ls : List (List α)} (h : ∀ l ∈ ls, l.length = w) (hn : n < w) :
    ls.flatten[m * w + n]? = ls[m]?.bind (·[n]?) := by
  induction ls generalizing m with
  | nil => rfl
  | cons l ls ih =>
    have hl := h l List.mem_cons_self
    rw [List.flatten_cons]
    cases m with
    | zero => rw [Nat.zero_mul, Nat.zero_add, List.getElem?_append_left (by omega)]; rfl
    | succ m =>
      rw [List.getElem?_append_right (by rw [hl, Nat.succ_mul]; omega), hl, List.getElem?_cons_succ, ← ih fun l hl => h l (List.mem_cons_of_mem _ hl)]
      congr 1
      rw [Nat.succ_mul]
      omega

/-- The bf16 code of a resolved value (R73). -/
def bf16Code (v : Num) : Nat := match v with
  | .nan _ => 0x7FC0
  | v => (toBf16 0 v).toNat

theorem resolveTile_bf16 {qs : Bool} {vals : List Num} : (resolveTile 0 qs vals).1.fmt = 0 ∧
    ∀ m n, (resolveTile 0 qs vals).1.code m n = ((vals[m * 32 + n]?).map bf16Code).getD 0 := by
  refine ⟨rfl, fun m n => ?_⟩
  have codes : (resolveTile 0 qs vals).1.codes = codeTable (vals.map bf16Code) := by
    refine congrArg codeTable (List.map_congr_left fun v _ => ?_)
    cases v <;> rfl
  rw [TileData.code, codes, get_codeTable, List.getElem?_map]

/-! ## What leaves regions and tiles alone -/

theorem State.writePhys_tables {a : Nat} {bs : List Byte} : (s.writePhys a bs).basins = s.basins ∧ (s.writePhys a bs).tiles = s.tiles := by
  obtain ⟨m, p, h⟩ := State.writeBytes_rest s (physKeys a bs.length) bs
  rw [State.writePhys, h]
  exact ⟨rfl, rfl⟩

theorem State.countIn_tables {g n : Nat} {c : Option Nat} {lost : Bool} :
    (s.countIn g c n lost).basins = s.basins ∧ (s.countIn g c n lost).tiles = s.tiles := by
  cases c with
  | none => exact ⟨rfl, rfl⟩
  | some c =>
    rw [State.countIn, State.landCtr]
    split
    · exact ⟨rfl, rfl⟩
    · split
      · exact ⟨rfl, rfl⟩
      · rw [State.saveEngines]
        split
        · split
          · exact ⟨rfl, rfl⟩
          · exact State.writePhys_tables
        · exact ⟨rfl, rfl⟩

theorem State.storeSaved_tables : (s.storeSaved id).basins = s.basins ∧ (s.storeSaved id).tiles = s.tiles := by
  rw [State.storeSaved]
  split
  · exact ⟨rfl, rfl⟩
  · split
    · exact ⟨rfl, rfl⟩
    · split
      · split
        · exact ⟨rfl, rfl⟩
        · exact ⟨State.writePhys_tables.1.trans State.writePhys_tables.1, State.writePhys_tables.2.trans State.writePhys_tables.2⟩
      · exact ⟨rfl, rfl⟩

/-! ## `rslv` -/

/-- The values of a resolve record's rows. -/
def resolvedRows (r : MRec) (b : Basin) : List (List Num) :=
  chunks (32 * r.ncol) r.nrow ((b.pick (elemKeys r.row0 r.nrow (32 * r.ncol))).map Elem.num)

/-- The values of its `k`-th tile, zeros below the last row. -/
def resolvedVals (r : MRec) (b : Basin) (k : Nat) : List Num := (List.range 32).flatMap fun m =>
  match (resolvedRows r b)[32 * (k / r.ncol) + m]? with
  | some l => (l.drop (32 * (k % r.ncol))).take 32
  | none => List.replicate 32 (.fin false 0 0)

def resolvedTile (r : MRec) (b : Basin) (k : Nat) : TileData := (resolveTile r.ofmt (r.qs && scaledFmt r.ofmt) (resolvedVals r b k)).1

/-- The `k`-th tile of a resolve record is filled. -/
def State.fillNext (r : MRec) (b : Basin) (s : State) (k : Nat) : State := match r.tiles[k]? with
  | some i => (s.fillTile i (resolvedTile r b k)).countIn r.grp r.lce 2048
  | none => s

theorem runRslv_done (cur : r.cur = 0) (fz : r.frozen = none) (hs : r.scr = false)
    (ok : (b.pick (elemKeys r.row0 r.nrow (32 * r.ncol))).all Elem.checks = true) : ∃ u v : BitVec 3, s.runRslv r b r.nrow =
      .done ((List.range (blocksOf r.nrow * r.ncol)).foldl (State.fillNext r b) (s.modBasin r.bas fun b => { b with status := b.status ||| u ||| v })) := by
  rw [State.runRslv]
  simp only [uncheckedBad_eq fz, ok, cur, hs, Nat.add_zero, Nat.sub_zero, Nat.zero_div, Nat.zero_mul, Nat.zero_add, Bool.not_true, Bool.false_eq_true,
    if_false, List.foldl_map]
  exact ⟨_, _, rfl⟩

theorem rslv_mismatch (h : r.kind = 3) (fz : r.frozen = none) (bad : (b.pick (elemKeys r.row0 r.nrow (32 * r.ncol))).all Elem.checks = false) :
    s.runRec id r x b r.nrow = .mismatch := by
  rw [runRec_rslv h, State.runRslv]
  exact if_pos (by rw [uncheckedBad_eq fz, bad]; rfl)

section
variable {k t : Nat} {ks : List Nat} {z : Tile}

theorem State.fillNext_basins : (s.fillNext r b k).basins = s.basins := by
  rw [State.fillNext]
  split
  · rw [State.countIn_tables.1, State.fillTile, State.storeSaved_tables.1]
    rfl
  · rfl

theorem State.fillNext_other (h : r.tiles[k]? ≠ some t) : (s.fillNext r b k).tiles.find? t = s.tiles.find? t := by
  rw [State.fillNext]
  split
  · next i hi =>
    rw [State.countIn_tables.2, State.fillTile, State.storeSaved_tables.2]
    exact Table.find?_update_ne _ _ fun eq => h (eq ▸ hi)
  · rfl

theorem State.fillNext_self (h : r.tiles[k]? = some t) (hz : s.tiles.find? t = some z) : ∃ z', (s.fillNext r b k).tiles.find? t = some z' ∧
    z'.st = .full ∧ z'.data = resolvedTile r b k := by
  rw [State.fillNext, h]
  dsimp only
  rw [State.countIn_tables.2, State.fillTile, State.storeSaved_tables.2, State.modTile, Table.find?_update_self, hz]
  exact ⟨_, rfl, rfl, rfl⟩

theorem State.foldl_fillNext_basins : (ks.foldl (State.fillNext r b) s).basins = s.basins := by
  induction ks generalizing s with
  | nil => rfl
  | cons k ks ih => exact ih.trans State.fillNext_basins

theorem State.foldl_fillNext_other (h : ∀ k ∈ ks, r.tiles[k]? ≠ some t) : (ks.foldl (State.fillNext r b) s).tiles.find? t = s.tiles.find? t := by
  induction ks generalizing s with
  | nil => rfl
  | cons k ks ih =>
    exact (ih fun j hj => h j (List.mem_cons_of_mem _ hj)).trans (State.fillNext_other (h k List.mem_cons_self))

theorem State.foldl_fillNext_self (nodup : r.tiles.Nodup) (hks : ks.Nodup) (hk : k ∈ ks) (h : r.tiles[k]? = some t) (hz : s.tiles.find? t = some z) :
    ∃ z', (ks.foldl (State.fillNext r b) s).tiles.find? t = some z' ∧ z'.st = .full ∧ z'.data = resolvedTile r b k := by
  obtain ⟨before, after, rfl⟩ := List.append_of_mem hk
  obtain ⟨lt, -⟩ := List.getElem?_eq_some_iff.mp h
  have other {j : Nat} (hj : j ≠ k) : r.tiles[j]? ≠ some t := fun eq =>
    hj ((List.getElem?_inj lt nodup).mp (h.trans eq.symm)).symm
  obtain ⟨-, hcons, apart⟩ := List.nodup_append.mp hks
  obtain ⟨later, -⟩ := List.nodup_cons.mp hcons
  have first : (before.foldl (State.fillNext r b) s).tiles.find? t = some z :=
    (State.foldl_fillNext_other fun j hj => other (apart j hj k List.mem_cons_self)).trans hz
  obtain ⟨z', hz', full, data⟩ := State.fillNext_self (b := b) h first
  rw [List.foldl_append, List.foldl_cons]
  exact ⟨z', (State.foldl_fillNext_other fun j hj => other fun eq => later (eq ▸ hj)).trans hz', full, data⟩

end

/-! ### The values of a tile -/

theorem chunks_map {α β : Type} {f : α → β} {n k : Nat} {l : List α} : chunks n k (l.map f) = (chunks n k l).map (List.map f) := by
  induction k generalizing l with
  | zero => rfl
  | succ k ih => rw [chunks, chunks, List.map_cons, ← List.map_take, ← List.map_drop, ih]

theorem getElem?_resolvedRows {row : Nat} (sorted : b.elems.sorted = true) (hn : r.ncol ≤ 6) : (resolvedRows r b)[row]? =
    if row < r.nrow then some ((rowElems b (32 * r.ncol) (r.row0 + row)).map Elem.num) else none := by
  rw [resolvedRows, chunks_map, chunks_pick sorted (by omega), List.map_map, List.getElem?_map]
  split
  · next h => rw [List.getElem?_range h]; rfl
  · next h => rw [List.getElem?_eq_none (by simpa using h)]; rfl

theorem getElem?_resolvedVals {k m n : Nat} (sorted : b.elems.sorted = true) (h0 : 1 ≤ r.ncol) (hn : r.ncol ≤ 6) (hm : m < 32) (hc : n < 32) :
    (resolvedVals r b k)[m * 32 + n]? = some (if r.nrow ≤ 32 * (k / r.ncol) + m then .fin false 0 0
      else (b.elem ((r.row0 + (32 * (k / r.ncol) + m)) * 192 + (32 * (k % r.ncol) + n))).num) := by
  have col : k % r.ncol < r.ncol := Nat.mod_lt _ h0
  have slice : 32 * (k % r.ncol) + 32 ≤ 32 * r.ncol := by omega
  rw [resolvedVals, List.flatMap_def, getElem?_flatten (w := 32) ?_ hc, List.getElem?_map, List.getElem?_range hm]
  · rw [Option.map_some, Option.bind_some, getElem?_resolvedRows sorted hn]
    split
    · next l eq =>
      split at eq
      · next lt =>
        rw [← Option.some.inj eq, if_neg (by omega), rowElems, List.map_map, take_drop_map_range slice, List.getElem?_map, List.getElem?_range hc]
        rfl
      · exact absurd eq nofun
    · next eq =>
      split at eq
      · exact absurd eq nofun
      · rw [if_pos (by omega), List.getElem?_replicate, if_pos hc]
  · intro l hl
    obtain ⟨i, -, rfl⟩ := List.mem_map.mp hl
    rw [getElem?_resolvedRows sorted hn]
    split
    · next l eq =>
      split at eq
      · rw [← Option.some.inj eq, rowElems, List.map_map, take_drop_map_range slice, List.length_map, List.length_range]
      · exact absurd eq nofun
    · exact List.length_replicate

theorem bf16Code_num {e : Elem} : bf16Code e.num = if e.a = 0xFF then 0x7FC0 else (toBf16 0 e.num).toNat := by
  rw [Elem.num]
  split <;> rfl

theorem rslv_done (hb : s.basins.find? r.bas = some b) (sorted : b.elems.sorted = true) (cur : r.cur = 0) (fz : r.frozen = none) (h : r.kind = 3)
    (hs : r.scr = false) (ok : (b.pick (elemKeys r.row0 r.nrow (32 * r.ncol))).all Elem.checks = true) :
    ∃ s' b', s.runRec id r x b r.nrow = .done s' ∧ s'.basins.find? r.bas = some b' ∧ b' = { b with status := b'.status } ∧
      (∀ t, t ∉ r.tiles → s'.tiles.find? t = s.tiles.find? t) ∧
      (r.ofmt = 0 → r.tiles.Nodup → 1 ≤ r.ncol → r.ncol ≤ 6 → ∀ k t z, k < blocksOf r.nrow * r.ncol → r.tiles[k]? = some t →
        s.tiles.find? t = some z → ∃ z', s'.tiles.find? t = some z' ∧ z'.st = .full ∧ z'.data.fmt = 0 ∧ ∀ m < 32, ∀ n < 32,
          z'.data.code m n = if r.nrow ≤ 32 * (k / r.ncol) + m then 0
            else if (b.elem ((r.row0 + (32 * (k / r.ncol) + m)) * 192 + (32 * (k % r.ncol) + n))).a = 0xFF then 0x7FC0
            else (toBf16 0 (b.elem ((r.row0 + (32 * (k / r.ncol) + m)) * 192 + (32 * (k % r.ncol) + n))).num).toNat) := by
  obtain ⟨u, v, run⟩ := runRslv_done (s := s) cur fz hs ok
  rw [runRec_rslv h, run]
  refine ⟨_, _, rfl, (congrArg (Table.find? · r.bas) State.foldl_fillNext_basins).trans (State.find?_modBasin hb), rfl, fun t ht => ?_, ?_⟩
  · exact State.foldl_fillNext_other fun k _ eq => ht (List.mem_of_getElem? eq)
  · intro hf nodup h0 hn k t z hk ht hz
    obtain ⟨z', hz', full, data⟩ := State.foldl_fillNext_self (b := b) (s := s.modBasin r.bas fun b => { b with status := b.status ||| u ||| v })
      nodup List.nodup_range (List.mem_range.mpr hk) ht hz
    obtain ⟨fmt, code⟩ := resolveTile_bf16 (qs := r.qs && scaledFmt 0) (vals := resolvedVals r b k)
    rw [resolvedTile, hf] at data
    refine ⟨z', hz', full, data ▸ fmt, fun m hm n hc => ?_⟩
    rw [data, code, getElem?_resolvedVals sorted h0 hn hm hc, Option.map_some, Option.getD_some]
    split
    · decide +kernel
    · exact bf16Code_num

end Sys2Proof.Machine
end

section
/-!
A `bsave` record puts the elements of its rows in memory.
-/
namespace Sys2Proof.Machine
variable {s u : State} {id g n : Nat} {r : MRec} {x : Group} {b : Basin} {ks : List Nat} {bs : List Byte}

/-! ## Counting for a group on its core -/

/-- A group's domains are those of one of the groups of another table. -/
def DomsOf (gs hs : Table Group) : Prop := ∀ p ∈ gs, ∃ q ∈ hs, p.2.doms = q.2.doms

/-- Bytes counted for a group on its core change the counters of that group alone. -/
theorem State.countIn_resident {c : Option Nat} (hx : s.group? g = some x) (hr : x.resident = true) :
    ∃ gs cs, s.countIn g c n = { s with groups := gs } ∧ gs.find? g = some { x with ctrs := cs } ∧ DomsOf gs s.groups := by
  cases c with
  | none => exact ⟨s.groups, x.ctrs, rfl, hx, fun p hp => ⟨p, hp, rfl⟩⟩
  | some c =>
    have found : (s.modCtr g c (·.count n)).group? g = some { x with ctrs := x.ctrs.modify c (·.count n) } := by
      rw [State.modCtr, State.modGroup, State.group?, Table.find?_update_self, show s.groups.find? g = some x from hx]
      rfl
    refine ⟨(s.modCtr g c (·.count n)).groups, _, ?_, found, fun p hp => ?_⟩
    · rw [State.countIn, State.landCtr, found]
      dsimp only
      split
      · rfl
      · rw [State.saveEngines_of_resident _ _ (show Group.resident { x with ctrs := x.ctrs.modify c (·.count n) } = true from hr)]
        rfl
    · rw [State.modCtr, State.modGroup, Table.update, show s.groups.find? g = some x from hx] at hp
      rcases Table.mem_insert hp with rfl | hp
      · exact ⟨_, Table.mem_of_find? hx, rfl⟩
      · exact ⟨p, Table.mem_erase hp, rfl⟩

/-! ## Bytes of rows -/

/-- The 2,304 bytes of a row, of one number of 96 bits for each column. -/
def rowBits (w : Nat → Nat) : List Byte := (List.range 192).flatMap fun c => bytesOf 12 (w c)

theorem length_rowBits {w : Nat → Nat} : (rowBits w).length = 2304 := by
  simp only [rowBits, List.length_flatMap, length_bytesOf, List.map_const', List.length_range, List.sum_replicate]
  decide

/-- The bytes of a column of a row. -/
theorem rowBits_part {w : Nat → Nat} {c : Nat} (hc : c < 192) : ((rowBits w).drop (12 * c)).take 12 = bytesOf 12 (w c) := by
  refine List.ext_getElem? fun i => ?_
  rw [List.getElem?_take]
  split
  · next hi =>
    rw [List.getElem?_drop, Nat.mul_comm, rowBits, List.flatMap_def, getElem?_flatten (w := 12) (fun l hl => ?_) hi, List.getElem?_map,
      List.getElem?_range hc]
    · rfl
    · obtain ⟨c, -, rfl⟩ := List.mem_map.mp hl
      exact length_bytesOf
  · rw [List.getElem?_eq_none (by rw [length_bytesOf]; omega)]

/-- A number in the bytes of a state, wherever they read the same. -/
theorem readNat_congr (h : ∀ k ∈ ks, k < 2 ^ 60 ∧ u.mem.read k = s.mem.read k) : u.readNat ks = s.readNat ks := by
  refine congrArg littleEndian (List.map_congr_left fun k hk => ?_)
  rw [State.readByte_of_lt (h k hk).1, State.readByte_of_lt (h k hk).1, (h k hk).2]

/-- The numbers of a row written at distinct keys are read from there. -/
theorem readNat_rowBits {w : Nat → Nat} {c : Nat} (hw : w c < 2 ^ 96) (hc : c < 192) (nodup : ks.Nodup) (hk : ∀ k ∈ ks, k < 2 ^ 60)
    (len : ks.length = 2304) : (s.writeBytes ks (rowBits w)).readNat ((ks.drop (12 * c)).take 12) = w c := by
  rw [State.readNat, State.readBytes, List.map_take, List.map_drop, ← State.readBytes,
    State.readBytes_writeBytes nodup hk (len.trans length_rowBits.symm), rowBits_part hc, littleEndian_bytesOf]
  exact Nat.mod_eq_of_lt (hw.trans_eq (by decide))

theorem landBytes_of_empty {since : Nat} (h : s.raced = []) : s.landBytes since ks bs = s.writeBytes ks bs := by
  induction ks generalizing s bs with
  | nil => rfl
  | cons k ks ih =>
    cases bs with
    | nil => rfl
    | cons c bs =>
      rw [State.landBytes, State.writeBytes, State.landByte_of_none _ _ _ (by rw [h]; rfl)]
      refine ih ?_
      rw [State.writeByte]
      split <;> exact h

/-! ## One row -/

/-- The 96 bits of a row's elements, as they are saved. -/
def savedBits (s : State) (r : MRec) (b : Basin) (i c : Nat) : Nat := s.rawElem (i * 192 + c) (b.elem ((r.row0 + i) * 192 + c))

theorem savedBits_lt {i c : Nat} : savedBits s r b i c < 2 ^ 96 := holds_rawElem.1

/-- A state in which the rows of a record can be saved for its group. -/
def Saving (s : State) (r : MRec) (x : Group) (u : State) : Prop :=
  u.raced = [] ∧ u.basins = s.basins ∧ ∃ x', u.group? r.grp = some x' ∧ x'.resident = true ∧ x'.core = x.core

/-- The state after a row's bytes have been written and counted. -/
def State.rowSaved (u : State) (r : MRec) (b : Basin) (i : Nat) (ks : List Nat) : State :=
  (u.writeBytes ks (rowBits (savedBits u r b i))).countIn r.grp r.lce 2304

theorem rowSaved_spec {i : Nat} (h : Saving s r x u) : Saving s r x (u.rowSaved r b i ks) ∧
    (u.rowSaved r b i ks).mem = (u.writeBytes ks (rowBits (savedBits u r b i))).mem := by
  obtain ⟨raced, basins, x', hx, resident, core⟩ := h
  obtain ⟨m, p, rest⟩ := State.writeBytes_rest u ks (rowBits (savedBits u r b i))
  have found : (u.writeBytes ks (rowBits (savedBits u r b i))).group? r.grp = some x' := by
    rw [rest]
    exact hx
  obtain ⟨gs, cs, eq, hg, -⟩ := State.countIn_resident (n := 2304) (c := r.lce) found resident
  rw [State.rowSaved, eq]
  refine ⟨⟨?_, ?_, _, hg, resident, core⟩, rfl⟩
  · rw [rest]
    exact raced
  · rw [rest]
    exact basins

theorem saveRows_succ {i hi fuel : Nat} {ks : List Nat} {x' : Group} (lt : i < hi) (hx : u.group? r.grp = some x')
    (land : u.engineWrite r.grp x' ⟨r.loc.sp, r.loc.addr + 2304 * i⟩ (rowBits (savedBits u r b i)) r.since =
      .ok (u.writeBytes ks (rowBits (savedBits u r b i)))) :
    u.saveRows r b hi (fuel + 1) i = (u.rowSaved r b i ks).saveRows r b hi fuel (i + 1) := by
  rw [State.saveRows, if_neg (by omega), hx]
  change (match u.engineWrite r.grp x' ⟨r.loc.sp, r.loc.addr + 2304 * i⟩ (rowBits (savedBits u r b i)) r.since with
    | .error e => RecRun.stopped u i e
    | .ok s => (s.countIn r.grp r.lce 2304).saveRows r b hi fuel (i + 1)) = _
  rw [land]
  rfl

/-! ## Rows in scratchpad -/

/-- The keys of a run of bytes of the record's scratchpad. -/
def padKeys (x : Group) (off n : Nat) : List Nat := (List.range n).map fun i => scratchKey (quadOf x.core) (off + i)

theorem mem_padKeys {off k : Nat} : k ∈ padKeys x off n ↔ ∃ i < n, scratchKey (quadOf x.core) (off + i) = k := by
  simp only [padKeys, List.mem_map, List.mem_range]

theorem nodup_padKeys {off : Nat} : (padKeys x off n).Nodup :=
  List.nodup_range.map fun i j h => by
    simp only [scratchKey] at h
    omega

theorem length_padKeys {off : Nat} : (padKeys x off n).length = n := by rw [padKeys, List.length_map, List.length_range]

theorem padKeys_part {off o k : Nat} (h : o + k ≤ n) : ((padKeys x off n).drop o).take k = padKeys x (off + o) k := by
  rw [padKeys, take_drop_map_range h, padKeys]
  simp only [Nat.add_assoc]

theorem saveRows_pad {fuel i : Nat} (hq : quadOf x.core < 2 ^ 20) (room : r.loc.addr + 2304 * r.nrow ≤ 2 ^ 22) (sp : r.loc.sp = true)
    (fuelOk : r.nrow < fuel + i) (h : Saving s r x u) : ∃ s', u.saveRows r b r.nrow fuel i = .done s' ∧ s'.basins = s.basins ∧
      (∀ j, i ≤ j → j < r.nrow → ∀ c < 192,
        Holds (s'.readNat (padKeys x (r.loc.addr + 2304 * j + 12 * c) 12)) (b.elem ((r.row0 + j) * 192 + c))) ∧
      ∀ k, (∀ j, i ≤ j → j < r.nrow → k ∉ padKeys x (r.loc.addr + 2304 * j) 2304) → s'.mem.read k = u.mem.read k := by
  induction fuel generalizing i u with
  | zero =>
    obtain ⟨-, basins, -⟩ := h
    exact ⟨u, rfl, basins, fun j hj hj' => by omega, fun _ _ => rfl⟩
  | succ fuel ih =>
    by_cases hi : r.nrow ≤ i
    · obtain ⟨-, basins, -⟩ := h
      exact ⟨u, by rw [State.saveRows, if_pos hi], basins, fun j hj hj' => by omega, fun _ _ => rfl⟩
    · have lt : i < r.nrow := by omega
      obtain ⟨raced, -, x', hx, resident, core⟩ := id h
      have land : u.engineWrite r.grp x' ⟨r.loc.sp, r.loc.addr + 2304 * i⟩ (rowBits (savedBits u r b i)) r.since =
          .ok (u.writeBytes (padKeys x (r.loc.addr + 2304 * i) 2304) (rowBits (savedBits u r b i))) := by
        rw [State.engineWrite, if_pos sp, State.landScratch, hx]
        dsimp only
        rw [if_pos resident, length_rowBits, landBytes_of_empty raced, core]
        rfl
      obtain ⟨next, mem⟩ := rowSaved_spec (b := b) (i := i) (ks := padKeys x (r.loc.addr + 2304 * i) 2304) h
      obtain ⟨s', run, basins, later, frame⟩ := ih (i := i + 1) (by omega) next
      have small {k off n : Nat} (hoff : off + n ≤ 2 ^ 22) (hk : k ∈ padKeys x off n) : k < 2 ^ 60 := by
        obtain ⟨m, hm, rfl⟩ := mem_padKeys.mp hk
        rw [scratchKey]
        omega
      have rows : r.loc.addr + 2304 * i + 2304 ≤ 2 ^ 22 := by omega
      refine ⟨s', (saveRows_succ lt hx land).trans run, basins, fun j hj hj' c hc => ?_, fun k hk => ?_⟩
      · rcases Nat.eq_or_lt_of_le hj with rfl | hj
        · have part := padKeys_part (x := x) (off := r.loc.addr + 2304 * i) (n := 2304) (o := 12 * c) (k := 12) (by omega)
          have same : s'.readNat (padKeys x (r.loc.addr + 2304 * i + 12 * c) 12) = savedBits u r b i c := by
            rw [← readNat_rowBits (s := u) (w := savedBits u r b i) savedBits_lt hc nodup_padKeys (fun k => small rows) length_padKeys, part]
            refine readNat_congr fun k hk => ⟨small (by omega) hk, ?_⟩
            rw [frame k fun j hj hj' hk' => ?_, mem]
            obtain ⟨m, hm, rfl⟩ := mem_padKeys.mp hk
            obtain ⟨m', hm', eq⟩ := mem_padKeys.mp hk'
            simp only [scratchKey] at eq
            omega
          rw [same]
          exact holds_rawElem
        · exact later j hj hj' c hc
      · rw [frame k fun j hj hj' => hk j (by omega) hj', mem, State.writeBytes_read_ne _ _ _ (hk i le_rfl lt)]

theorem bsave_mismatch (h : r.kind = 7) (fz : r.frozen = none) (bad : (b.pick (elemKeys r.row0 r.nrow 192)).all Elem.checks = false) :
    s.runRec id r x b r.nrow = .mismatch := by
  rw [runRec_bsave h, uncheckedBad_eq fz, bad]
  rfl

section
variable (h : r.kind = 7) (cur : r.cur = 0) (fz : r.frozen = none) (ok : (b.pick (elemKeys r.row0 r.nrow 192)).all Elem.checks = true)
  (hx : s.group? r.grp = some x) (resident : x.resident = true) (raced : s.raced = [])
include h cur fz ok hx resident raced

theorem bsave_pad (sp : r.loc.sp = true) (hq : quadOf x.core < 2 ^ 20) (room : r.loc.addr + 2304 * r.nrow ≤ 2 ^ 22) :
    ∃ s', s.runRec id r x b r.nrow = .done s' ∧ s'.basins = s.basins ∧
      (∀ i < r.nrow, ∀ c < 192, Holds (s'.readNat (padKeys x (r.loc.addr + 2304 * i + 12 * c) 12)) (b.elem ((r.row0 + i) * 192 + c))) ∧
      ∀ k, k ∉ padKeys x r.loc.addr (2304 * r.nrow) → s'.mem.read k = s.mem.read k := by
  have run : s.runRec id r x b r.nrow = s.saveRows r b r.nrow (r.nrow + 1) 0 := by
    rw [runRec_bsave h, uncheckedBad_eq fz, ok, cur]
    rfl
  obtain ⟨s', done, basins, rows, frame⟩ := saveRows_pad (s := s) (u := s) (b := b) (fuel := r.nrow + 1) (i := 0) hq room sp (by omega)
    ⟨raced, rfl, x, hx, resident, rfl⟩
  refine ⟨s', run.trans done, basins, fun i hi => rows i (Nat.zero_le i) hi, fun k hk => frame k fun j _ hj mem => hk ?_⟩
  obtain ⟨m, hm, rfl⟩ := mem_padKeys.mp mem
  exact mem_padKeys.mpr ⟨2304 * j + m, by omega, by rw [Nat.add_assoc]⟩

/-! ## A row in memory -/

theorem bsave_row (sp : r.loc.sp = false) (one : r.nrow = 1) (hk : s.keysAt (s.aspace x) r.loc 2304 true = .ok ks) (nodup : ks.Nodup)
    (small : ∀ k ∈ ks, k < 2 ^ 60) : ∃ s', s.runRec id r x b r.nrow = .done s' ∧ s'.basins = s.basins ∧
      (∀ c < 192, Holds (s'.readNat ((ks.drop (12 * c)).take 12)) (b.elem (r.row0 * 192 + c))) ∧
      ∀ k, k ∉ ks → s'.mem.read k = s.mem.read k := by
  have len : ks.length = 2304 := by
    rw [State.keysAt, sp, if_neg Bool.false_ne_true] at hk
    split at hk
    · simp only [reduceCtorEq] at hk
    · simp only [reduceCtorEq] at hk
    · rw [← Except.ok.inj hk]
      rw [List.length_map, List.length_range]
  have land : s.engineWrite r.grp x ⟨r.loc.sp, r.loc.addr + 2304 * 0⟩ (rowBits (savedBits s r b 0)) r.since =
      .ok (s.writeBytes ks (rowBits (savedBits s r b 0))) := by
    rw [State.engineWrite, length_rowBits, Nat.mul_zero, Nat.add_zero]
    dsimp only
    rw [sp, if_neg Bool.false_ne_true]
    rw [show (⟨false, r.loc.addr⟩ : Loc) = r.loc by rw [← sp], hk]
    dsimp only
    rw [landBytes_of_empty raced]
  have run : s.runRec id r x b r.nrow = .done (s.rowSaved r b 0 ks) := by
    rw [runRec_bsave h, uncheckedBad_eq fz, ok, cur]
    change s.saveRows r b r.nrow (r.nrow + 1) 0 = _
    rw [one, saveRows_succ Nat.one_pos hx land]
    rfl
  obtain ⟨⟨-, basins, -⟩, mem⟩ := rowSaved_spec (s := s) (x := x) (b := b) (i := 0) (ks := ks) ⟨raced, rfl, x, hx, resident, rfl⟩
  refine ⟨_, run, basins, fun c hc => ?_, fun k hk => ?_⟩
  · have same : (s.rowSaved r b 0 ks).readNat ((ks.drop (12 * c)).take 12) = savedBits s r b 0 c := by
      rw [← readNat_rowBits (s := s) (w := savedBits s r b 0) savedBits_lt hc nodup small len]
      exact readNat_congr fun k hk => ⟨small k (List.mem_of_mem_drop (List.mem_of_mem_take hk)), by rw [mem]⟩
    rw [same]
    exact holds_rawElem
  · rw [mem, State.writeBytes_read_ne _ _ _ hk]

end

end Sys2Proof.Machine
end

section
/-!
A `brst` record takes the elements of its rows from memory. What its reads find does not depend on regions, nor on groups but for the
cells that they have prepared.
-/
namespace Sys2Proof.Machine
variable {s u : State} {id : Nat} {r : MRec} {x : Group} {b : Basin} {bas : Table Basin} {gs : Table Group}

/-! ## Reads of a state with other regions and groups -/

/-- The state with other regions and groups. -/
def State.swapped (s : State) (bas : Table Basin) (gs : Table Group) : State := { s with basins := bas, groups := gs }

theorem State.swapped_writeBytes {ks : List Nat} {bs : List Byte} :
    (s.swapped bas gs).writeBytes ks bs = (s.writeBytes ks bs).swapped bas gs := by
  induction ks generalizing s bs with
  | nil => rfl
  | cons k ks ih =>
    cases bs with
    | nil => rfl
    | cons c bs =>
      rw [State.writeBytes, State.writeBytes, ← ih]
      congr 1
      rw [State.writeByte, State.writeByte]
      split <;> rfl

/-- One of the entries that a mapping change has replaced, found as it was if a bit says so. -/
def State.undo (s : State) (va : Nat) (p : Nat × Stale) (s' : State) : State :=
  if s.bit (va + p.1 * 2 ^ 60) then s'.writePhys p.2.addr (bytesOf 8 p.2.old.toNat) else s'

theorem State.swapped_undo {va : Nat} {l : List (Nat × Stale)} :
    l.foldr ((s.swapped bas gs).undo va) (u.swapped bas gs) = (l.foldr (s.undo va) u).swapped bas gs := by
  induction l with
  | nil => rfl
  | cons p l ih =>
    rw [List.foldr_cons, List.foldr_cons, ih, State.undo, State.undo]
    by_cases hb : s.bit (va + p.1 * 2 ^ 60) = true
    · rw [if_pos hb, if_pos (show (s.swapped bas gs).bit (va + p.1 * 2 ^ 60) = true from hb)]
      exact State.swapped_writeBytes
    · rw [if_neg hb, if_neg (show ¬ (s.swapped bas gs).bit (va + p.1 * 2 ^ 60) = true from hb)]

theorem State.swapped_tables {launch asid va : Nat} : (s.swapped bas gs).tables launch asid va = (s.tables launch asid va).swapped bas gs :=
  State.swapped_undo

theorem State.tables_groups {launch asid va : Nat} : (s.tables launch asid va).groups = s.groups := by
  rw [State.tables]
  refine List.foldrRecOn (motive := fun u : State => u.groups = s.groups) _ _ rfl fun u h p _ => ?_
  split
  · obtain ⟨m, q, eq⟩ := State.writeBytes_rest u (physKeys p.2.addr (bytesOf 8 p.2.old.toNat).length) (bytesOf 8 p.2.old.toNat)
    rw [State.writePhys, eq]
    exact h
  · exact h

/-- Groups with the domains of others have prepared no other cells. -/
theorem prepared_of_domsOf (h : DomsOf gs s.groups) {k : Nat} (hp : (s.swapped bas gs).prepared k = true) : s.prepared k = true := by
  rw [State.prepared, List.any_eq_true] at hp ⊢
  obtain ⟨p, mem, hp⟩ := hp
  obtain ⟨q, hq, eq⟩ := h p mem
  exact ⟨q, hq, eq ▸ hp⟩

theorem any_prepared_eq_false (h : DomsOf gs s.groups) {ks : List Nat} (hk : ks.any s.prepared = false) :
    ks.any (s.swapped bas gs).prepared = false := by
  rw [List.any_eq_false] at hk ⊢
  exact fun k mem hp => hk k mem (prepared_of_domsOf h hp)

/-- The place of the entry of an address in a table of a level. -/
def levelEntry (va lv table : Nat) : Nat := table + 8 * (va / 2 ^ (levelBits lv).1 % 2 ^ (levelBits lv).2)

/-- What a walk makes of an entry that is not prepared; `deeper` walks on from the next table. -/
def State.walkEntry (s : State) (lv a : Nat) (deeper : Nat → Walk) : Walk :=
  let e : DWord := BitVec.ofNat 64 (s.readPhys a 8)
  if !e.getLsbD 63 then .invalid lv a
  else if e.getLsbD 62 then
    if lv < 2 then .malformed
    else match leafOf s e (4 - lv) with
      | some l => .leaf a l
      | none => .malformed
  else if lv = 4 ∨ e.extractLsb' 52 10 ≠ 0 ∨ e.extractLsb' 0 8 ≠ 0 then .malformed
  else if isDeviceMemory ((e.extractLsb' 8 44).toNat * 256) then deeper ((e.extractLsb' 8 44).toNat * 256) else .malformed

theorem State.walk_cons {va lv table : Nat} {rest : List Nat} : s.walk va (lv :: rest) table =
    if (physKeys (levelEntry va lv table) 8).any s.prepared then .later else s.walkEntry lv (levelEntry va lv table) (s.walk va rest) := rfl

theorem State.walkEntry_congr {lv a : Nat} {d d' : Nat → Walk} (h : ∀ n, d n ≠ .later → d' n = d n) (hw : s.walkEntry lv a d ≠ .later) :
    s.walkEntry lv a d' = s.walkEntry lv a d := by
  rw [State.walkEntry] at hw ⊢
  rw [State.walkEntry]
  generalize (BitVec.ofNat 64 (s.readPhys a 8) : DWord) = e at *
  split
  · rfl
  · next present =>
    rw [if_neg present] at hw
    split
    · rfl
    · next inner =>
      rw [if_neg inner] at hw
      split
      · rfl
      · next wellFormed =>
        rw [if_neg wellFormed] at hw
        split
        · next device =>
          rw [if_pos device] at hw
          exact h _ hw
        · rfl

/-- A walk that does not wait finds the same. -/
theorem State.swapped_walk (h : DomsOf gs s.groups) {va table : Nat} {levels : List Nat} (hw : s.walk va levels table ≠ .later) :
    (s.swapped bas gs).walk va levels table = s.walk va levels table := by
  induction levels generalizing table with
  | nil => rfl
  | cons lv rest ih =>
    rw [State.walk_cons] at hw ⊢
    rw [State.walk_cons]
    cases hp : (physKeys (levelEntry va lv table) 8).any s.prepared with
    | true => exact absurd (if_pos hp) hw
    | false =>
      rw [hp, if_neg Bool.false_ne_true] at hw
      rw [any_prepared_eq_false h hp, if_neg Bool.false_ne_true, if_neg Bool.false_ne_true]
      exact State.walkEntry_congr (fun n hn => ih hn) hw

theorem State.swapped_walkAsid (h : DomsOf gs s.groups) {asid va : Nat} (hw : s.walkAsid asid va ≠ .later) :
    (s.swapped bas gs).walkAsid asid va = s.walkAsid asid va := by
  rw [State.walkAsid] at hw ⊢
  rw [State.walkAsid, show (s.swapped bas gs).fw = s.fw from rfl]
  cases found : s.fw.roots.find? asid with
  | none => rfl
  | some root =>
    rw [found] at hw
    exact State.swapped_walk h hw

theorem State.swapped_translate (h : DomsOf gs s.groups) {launch asid va : Nat} {l : Leaf} (ht : s.translate launch asid va = .ok l) :
    (s.swapped bas gs).translate launch asid va = .ok l := by
  have same : ((s.tables launch asid va).swapped bas gs).walkAsid asid va = (s.tables launch asid va).walkAsid asid va := by
    refine State.swapped_walkAsid (by rw [State.tables_groups]; exact h) fun later => ?_
    rw [State.translate, later] at ht
    exact absurd ht nofun
  rw [State.translate] at ht ⊢
  rw [State.swapped_tables, same]
  exact ht

theorem State.swapped_leaves (h : DomsOf gs s.groups) {sp : Aspace} {use : Use} {vas : List Nat} {ls : List Leaf}
    (hl : s.leaves sp use vas = .ok ls) : (s.swapped bas gs).leaves sp use vas = .ok ls := by
  induction vas generalizing ls with
  | nil => exact hl
  | cons va vas ih =>
    rw [State.leaves] at hl ⊢
    cases ht : s.translate sp.launch sp.asid va with
    | ok l =>
      rw [ht] at hl
      rw [State.swapped_translate h ht]
      dsimp only at hl ⊢
      split at hl
      · simp only [reduceCtorEq] at hl
      · next protects =>
        rw [if_neg protects]
        split at hl
        · simp only [reduceCtorEq] at hl
        · next placed =>
          rw [if_neg placed]
          cases rest : s.leaves sp use vas with
          | error e =>
            rw [rest] at hl
            simp only [Except.map, reduceCtorEq] at hl
          | ok ls' =>
            rw [rest] at hl
            rw [ih rest]
            exact hl
    | miss c | unmapped | later =>
      rw [ht] at hl
      simp only [reduceCtorEq] at hl

theorem State.swapped_keysAt (h : DomsOf gs s.groups) {sp : Aspace} {loc : Loc} {len : Nat} {w : Bool} {ks : List Nat}
    (hk : s.keysAt sp loc len w = .ok ks) : (s.swapped bas gs).keysAt sp loc len w = .ok ks := by
  rw [State.keysAt] at hk ⊢
  split
  · next pad => rwa [if_pos pad] at hk
  · next pad =>
    rw [if_neg pad] at hk
    cases hl : s.leaves sp (if w then .landing else .read) (pagesOf loc.addr len) with
    | ok ls =>
      rw [hl] at hk
      rw [State.swapped_leaves h hl]
      exact hk
    | error e =>
      rw [hl] at hk
      cases e <;> simp only [reduceCtorEq] at hk

/-- A read that finds bytes finds the same ones with other regions, and with groups that have prepared no other cells. -/
theorem State.swapped_engineRead (h : DomsOf gs s.groups) {cs : List Ctr} {loc : Loc} {len : Nat} {bs : List Byte}
    (hr : s.engineRead x loc len = .bytes bs) : (s.swapped bas gs).engineRead { x with ctrs := cs } loc len = .bytes bs := by
  rw [State.engineRead] at hr
  cases hk : s.keysAt (s.aspace x) loc len false with
  | error e =>
    rw [hk] at hr
    cases e <;> simp only [Got.of, reduceCtorEq] at hr
  | ok ks =>
    rw [hk] at hr
    dsimp only at hr
    split at hr
    · simp only [reduceCtorEq] at hr
    · next sound =>
      split at hr
      · simp only [reduceCtorEq] at hr
      · next free =>
        have same : (s.swapped bas gs).keysAt ((s.swapped bas gs).aspace { x with ctrs := cs }) loc len false = .ok ks := State.swapped_keysAt h hk
        rw [State.engineRead, same]
        dsimp only
        rw [if_neg (show ¬ (s.swapped bas gs).poisoned ks = true from sound), any_prepared_eq_false h (Bool.eq_false_iff.mpr free)]
        exact hr

/-! ## `brst` -/

theorem littleEndian_lt {l : List Byte} : littleEndian l < 256 ^ l.length := by
  induction l with
  | nil => exact Nat.one_pos
  | cons c l ih =>
    have := c.isLt
    rw [littleEndian, List.length_cons, Nat.pow_succ']
    omega

/-- The element of a column in the bytes of a row. -/
def restored (bs : List Byte) (c : Nat) : Elem := Elem.ofRaw (littleEndian ((bs.drop (12 * c)).take 12))

theorem holds_restored {bs : List Byte} {c : Nat} : Holds (littleEndian ((bs.drop (12 * c)).take 12)) (restored bs c) := by
  refine holds_ofRaw (littleEndian_lt.trans_le ?_)
  calc 256 ^ ((bs.drop (12 * c)).take 12).length ≤ 256 ^ 12 := Nat.pow_le_pow_right (by decide) (by rw [List.length_take]; omega)
    _ = 2 ^ 96 := by decide

/-- What a row that is restored makes of the element at a key. -/
def restoredAt (bs : List Byte) (k : Nat) (_ : Elem) : Elem := (((List.range 192).map (restored bs))[k % 192]?).getD {}

theorem restoredAt_col {bs : List Byte} {row c : Nat} {e : Elem} (hc : c < 192) : restoredAt bs (row * 192 + c) e = restored bs c := by
  rw [restoredAt, show (row * 192 + c) % 192 = c by omega, List.getElem?_map, List.getElem?_range hc]
  rfl

/-- A state in which the rows of a record can be restored for its group. -/
def Restoring (s : State) (r : MRec) (x : Group) (u : State) (b : Basin) : Prop :=
  ∃ bas gs cs, u = s.swapped bas gs ∧ DomsOf gs s.groups ∧ gs.find? r.grp = some { x with ctrs := cs } ∧
    bas.find? r.bas = some b ∧ b.elems.sorted = true

/-- The region after a row is restored. -/
def rowRestored (r : MRec) (i : Nat) (bs : List Byte) (b : Basin) : Basin := b.mapElems (elemKeys (r.row0 + i) 1 192) (restoredAt bs)

theorem restoreRows_succ {i hi fuel : Nat} {bs : List Byte} (resident : x.resident = true) (lt : i < hi) (h : Restoring s r x u b)
    (read : s.engineRead x ⟨r.loc.sp, r.loc.addr + 2304 * i⟩ 2304 = .bytes bs) : ∃ v, Restoring s r x v (rowRestored r i bs b) ∧
      u.restoreRows r hi (fuel + 1) i = v.restoreRows r hi fuel (i + 1) := by
  obtain ⟨bas, gs, cs, rfl, doms, hx, hb, sorted⟩ := h
  have hx' : ((s.swapped bas gs).modBasin r.bas (rowRestored r i bs)).group? r.grp = some { x with ctrs := cs } := hx
  obtain ⟨gs', cs', eq, hg, doms'⟩ := State.countIn_resident (n := 2304) (c := r.lce) hx' resident
  refine ⟨((s.swapped bas gs).modBasin r.bas (rowRestored r i bs)).countIn r.grp r.lce 2304,
    ⟨_, gs', cs', eq, fun p hp => ?_, hg, State.find?_modBasin (s := s.swapped bas gs) hb, Basin.sorted_mapElems sorted (elemKeys_rising le_rfl)⟩, ?_⟩
  · obtain ⟨q, hq, e⟩ := doms' p hp
    obtain ⟨q', hq', e'⟩ := doms q hq
    exact ⟨q', hq', e.trans e'⟩
  · rw [State.restoreRows, if_neg (by omega), show (s.swapped bas gs).group? r.grp = some { x with ctrs := cs } from hx]
    dsimp only
    rw [State.swapped_engineRead doms read]
    rfl

theorem restoreRows_done {fuel i : Nat} {bs : Nat → List Byte} (resident : x.resident = true)
    (read : ∀ i < r.nrow, s.engineRead x ⟨r.loc.sp, r.loc.addr + 2304 * i⟩ 2304 = .bytes (bs i)) (fuelOk : r.nrow < fuel + i)
    (h : Restoring s r x u b) : ∃ s' b', u.restoreRows r r.nrow fuel i = .done s' ∧ Restoring s r x s' b' ∧ b'.status = b.status ∧
      ∀ row col, col < 192 → b'.elem (row * 192 + col) = if r.row0 + i ≤ row ∧ row < r.row0 + r.nrow then restored (bs (row - r.row0)) col
        else b.elem (row * 192 + col) := by
  induction fuel generalizing i u b with
  | zero => exact ⟨u, b, rfl, h, rfl, fun row col hc => (if_neg (by omega)).symm⟩
  | succ fuel ih =>
    by_cases hi : r.nrow ≤ i
    · exact ⟨u, b, by rw [State.restoreRows, if_pos hi], h, rfl, fun row col hc => (if_neg (by omega)).symm⟩
    · obtain ⟨v, next, step⟩ := restoreRows_succ (fuel := fuel) (hi := r.nrow) resident (by omega) h (read i (by omega))
      obtain ⟨s', b', run, done, status, elems⟩ := ih (i := i + 1) (by omega) next
      obtain ⟨-, -, -, -, -, -, -, sorted⟩ := h
      refine ⟨s', b', step.trans run, done, status, fun row col hc => ?_⟩
      rw [elems row col hc, rowRestored, elem_mapRows sorted le_rfl hc, restoredAt_col hc]
      by_cases here : row = r.row0 + i
      · rw [if_neg (by omega), if_pos (by omega), if_pos (by omega), here, Nat.add_sub_cancel_left]
      · by_cases later : r.row0 + (i + 1) ≤ row ∧ row < r.row0 + r.nrow
        · rw [if_pos later, if_pos (by omega)]
        · rw [if_neg later, if_neg (by omega), if_neg (by omega)]

theorem brst_spec (hb : s.basins.find? r.bas = some b) (sorted : b.elems.sorted = true) (cur : r.cur = 0) (hx : s.group? r.grp = some x)
    (h : r.kind = 8) (resident : x.resident = true) {bs : Nat → List Byte}
    (read : ∀ i < r.nrow, s.engineRead x ⟨r.loc.sp, r.loc.addr + 2304 * i⟩ 2304 = .bytes (bs i)) :
    ∃ s' b', s.runRec id r x b r.nrow = .done s' ∧ s'.basins.find? r.bas = some b' ∧ s'.mem = s.mem ∧ b'.status = b.status ∧
      (∀ row col, col < 192 → row < r.row0 ∨ r.row0 + r.nrow ≤ row → b'.elem (row * 192 + col) = b.elem (row * 192 + col)) ∧
      ∀ i < r.nrow, ∀ c < 192, b'.elem ((r.row0 + i) * 192 + c) = restored (bs i) c := by
  have start : Restoring s r x s b := ⟨s.basins, s.groups, x.ctrs, rfl, fun p hp => ⟨p, hp, rfl⟩, hx, hb, sorted⟩
  obtain ⟨s', b', run, ⟨bas, gs, cs, rfl, -, -, hb', -⟩, status, elems⟩ := restoreRows_done (fuel := r.nrow + 1) (i := 0) resident read (by omega) start
  refine ⟨s.swapped bas gs, b', by rw [runRec_brst h, cur]; exact run, hb', rfl, status, fun row col hc outside => ?_, fun i hi c hc => ?_⟩
  · rw [elems row col hc, if_neg (by omega)]
  · rw [elems _ c hc, if_pos (by omega), Nat.add_sub_cancel_left]

end Sys2Proof.Machine
end

section
/-!
Matrix records change the rows, tiles, bytes and results that they name.
-/
namespace Sys2Proof.Machine

/-- Settles O48: each kind of record by the lemma on it; contributions by the floor of their quotient by a unit. -/
theorem basinRecords : Obligations.BasinRecords := by
  unfold Obligations.BasinRecords
  refine ⟨fun s id r x b hb sorted cur => ⟨fun h => binit_spec hb sorted h cur, fun h ok => bscale_spec hb sorted h cur ok,
    fun h bad => bscale_mismatch h cur bad⟩, fun s id r x b hb sorted cur fz hx => ⟨?_, ?_, ?_, ?_, fun h => ⟨?_, ?_⟩, ?_, ?_, ?_, ?_, ?_, ?_, ?_⟩,
    fun e p => ⟨Elem.add_of_overflowed, Elem.add_of_not_fin, ?_⟩, fun _ _ _ => Elem.accumulate_eq, ?_⟩
  · exact fun h bad => bsave_mismatch h fz bad
  · exact fun h ok sp resident raced hq room => bsave_pad h cur fz ok hx resident raced sp hq room
  · exact fun h ok sp resident raced one keys hk nodup small => bsave_row h cur fz ok hx resident raced sp one hk nodup small
  · intro h resident bs read
    obtain ⟨s', b', run, hb', mem, status, outside, rows⟩ := brst_spec hb sorted cur hx h resident read
    refine ⟨s', b', run, hb', mem, status, outside, fun i hi c hc => ?_⟩
    dsimp only
    rw [rows i hi c hc]
    exact ⟨holds_restored, ofRaw_residue, rfl⟩
  · exact bmov_mismatch h
  · intro ok
    obtain ⟨s', b', run, hb', mem, only, float, bits⟩ := bmov_done hb h ok
    refine ⟨s', b', run, hb', mem, only, fun hf => ?_, fun hf => ?_⟩
    · obtain ⟨given, status⟩ := float hf
      rw [status]
      exact ⟨given, getLsbD_movedStatus⟩
    · obtain ⟨same, given⟩ := bits hf
      exact ⟨same, fun l => s.rawElem l (laneElem r b l), fun l _ => holds_rawElem, given⟩
  · exact fun h hf => rst_done hb h hf
  · exact fun h hf bad => bcmp_mismatch sorted cur fz h hf bad
  · exact fun h hf ok _ => bcmp_done sorted cur fz h hf ok
  · exact fun h bad => rslv_mismatch h fz bad
  · exact fun h ok hs => rslv_done hb sorted cur fz h hs ok
  · exact fun h s' run => wld_spec h run
  · exact fun h hn s' run => mma_frame hb sorted cur h hn run
  · intro neg k ex ha hp _ _ _ _ q low high
    subst hp
    exact Elem.add_spec ha low high
  · exact fun s id r x b acts hb sorted cur h hn hk ok => mma_values hb sorted cur h hn hk ok

end Sys2Proof.Machine
end
